-- ==== Sys2Proof/Word.lean ====
section
/-! DEFINITION. The machine's word types (spec/02 R37, R39; spec/03 R92). -/

namespace Sys2Proof

/-- A scalar register, an address, an instruction word or a clause header: 64 bits. -/
abbrev Word := BitVec 64

/-- One byte of memory. -/
abbrev Byte := BitVec 8

/-- The 32 bits that one lane holds of a vector register. -/
abbrev Lane := BitVec 32

/-- A set of logical lanes: bit l stands for lane l (spec/05 R181). A wave has at most 1024 lanes. -/
abbrev Mask := BitVec 1024

end Sys2Proof
end

