-- ==== Sys2Proof/Config.lean ====
section
/-! DEFINITION. What the spec leaves open: values that nothing here can evaluate (log entry 4), and what a device
implementation fixes. An opaque constant has no body that a proof can see: a statement holds whatever it is. -/

namespace Sys2Proof

/-- A free choice: drawn at the counter `n`, at a place `site` of the model, for an index `k` (log entry 4). -/
opaque Config.choice (n site k : Nat) : Nat

/-- A free 64-bit value, drawn as `Config.choice` is. -/
opaque Config.freeWord (n site k : Nat) : BitVec 64

/-- Which of the values inside its bound a special function returns: a function of the operation, the format, the input
bits and AMR (spec/03 R132, R133). -/
opaque Config.sfuPick (op fmt input : Nat) (amr : BitVec 64) : Nat

/-- LEN, SIGN and MIDX, in their places of a metadata word, of a bit instruction's result under limb or modq: a function of
the instruction word, the registers (metadata and lanes), the active lanes and the values written (spec/03 R93, R122). -/
opaque Config.bitMeta (word : BitVec 64) (regs : List (BitVec 32 × List (BitVec 32))) (active : BitVec 1024)
  (vals : List (BitVec 32)) : BitVec 32

/-- The clk that a core's counter has advanced by a reading of it (spec/02 R82, spec/01 R36). -/
opaque Config.clkAdvance (n : Nat) : Nat

/-- µJ metered on a partition's cores in one µs (spec/16 R467). -/
opaque Config.metered (n part : Nat) : Nat

/-- Whether the firmware image in flash verifies (spec/16 R458). -/
opaque Config.firmwareVerifies (image : List (BitVec 8)) : Bool

/-- The version that a firmware image carries (spec/16 R459). -/
opaque Config.firmwareVersion (image : List (BitVec 8)) : BitVec 32

/-- Byte `k` of the SHA-384 hash of the attestation public key (spec/11 R365, spec/16 R459). -/
opaque Config.keyHashByte (k : Nat) : BitVec 8

/-- Byte `k` of a signature made with the attestation key over the given bytes (spec/11 R366, spec/16 R459): r then s. -/
opaque Config.signatureByte (n : Nat) (message : List (BitVec 8)) (k : Nat) : BitVec 8

/-- Flits that the receiving buffer of a channel holds (spec/14 R427). -/
opaque Config.flitBuffer : Nat

/-- Bytes that the device attached to CXL port `k` lacks of 2 TiB (spec/16 R466). -/
opaque Config.cxlMissing (k : Nat) : Nat

/-- Which 32 MiB of its first die's HBM holds a partition's dump region, and which its image region (spec/11 R364,
spec/16 R464). -/
opaque Config.reservedSlot (part kind : Nat) : Nat

end Sys2Proof
end

