-- ==== Sys2Proof/Machine/Bits.lean ====
section
/-! DEFINITION. Integer helpers that the meanings share: bit fields, sign extension, byte order, CRCs and SHA-384
(spec/00 R5, spec/01 R33, spec/02 R48). -/

namespace Sys2Proof.Machine

/-- Bits [hi:lo] of a number. -/
def bitsOf (x hi lo : Nat) : Nat := (x >>> lo) % 2 ^ (hi + 1 - lo)

/-- The signed value of the low `w` bits of x. -/
def signedOf (w x : Nat) : Int := if 2 * (x % 2 ^ w) < 2 ^ w then (x % 2 ^ w : Nat) else (x % 2 ^ w : Nat) - (2 ^ w : Nat)

/-- The low `w` bits of an integer in two's complement. -/
def wrapTo (w : Nat) (x : Int) : Nat := (x % (2 ^ w : Nat)).toNat

/-- Clamp an integer into a range. -/
def clampInt (lo hi x : Int) : Int := if x < lo then lo else if hi < x then hi else x

/-- The low half or a lane's value sign-extended to 64 bits. -/
def sext64 (x : BitVec 32) : Word := x.signExtend 64

/-- The little-endian value of a list of bytes (spec/00 R5). -/
def leValue : List Byte → Nat
  | [] => 0
  | b :: bs => b.toNat + 256 * leValue bs

/-- The `n` little-endian bytes of a value. -/
def leBytes : Nat → Nat → List Byte
  | 0, _ => []
  | n + 1, x => BitVec.ofNat 8 x :: leBytes n (x / 256)

/-- Bytes `off` to `off + n − 1` of a list, zero where it ends. -/
def takeBytes (l : List Byte) (off n : Nat) : List Byte :=
  let t := (l.drop off).take n
  t ++ List.replicate (n - t.length) 0#8

/-- A little-endian field of a record. -/
def fieldOf (l : List Byte) (off n : Nat) : Nat := leValue (takeBytes l off n)

/-- Number of one bits among the low `n` bits. -/
def popCount : Nat → Nat → Nat
  | 0, _ => 0
  | n + 1, x => x % 2 + popCount n (x / 2)

/-- Leading zeros of the low `n` bits. -/
def leadingZeros : Nat → Nat → Nat
  | 0, _ => 0
  | n + 1, x => if x.testBit n then 0 else 1 + leadingZeros n x

/-- The low `n` bits in reverse order. -/
def reverseBits : Nat → Nat → Nat
  | 0, _ => 0
  | n + 1, x => (x % 2) * 2 ^ n + reverseBits n (x / 2)

/-- ⌊log2 x⌋ of a positive number, 0 of 0. -/
def log2Floor (x : Nat) : Nat := Nat.log2 x

/-- ⌈log2 x⌉ of a positive number. -/
def log2Ceil (x : Nat) : Nat := if x ≤ 1 then 0 else Nat.log2 (x - 1) + 1

/-- Integer square root by bits: `n` is the number of result bits still to be found, `acc` those found. -/
def isqrtStep (x : Nat) : Nat → Nat → Nat
  | 0, acc => acc
  | n + 1, acc => if (acc + 2 ^ n) * (acc + 2 ^ n) ≤ x then isqrtStep x n (acc + 2 ^ n) else isqrtStep x n acc

/-- ⌊√x⌋. -/
def isqrt (x : Nat) : Nat := isqrtStep x (Nat.log2 x / 2 + 1) 0

/-- One byte of a CRC with polynomial `poly` of `w` bits, most significant bit first. -/
def crcByte (w poly : Nat) (crc : Nat) (b : Byte) : Nat :=
  (List.range 8).foldl (fun c _ => if c.testBit (w - 1) then ((2 * c) % 2 ^ w) ^^^ poly else (2 * c) % 2 ^ w)
    (crc ^^^ (b.toNat * 2 ^ (w - 8)))

/-- A CRC over bytes, no reflection, no final inversion. -/
def crcOver (w poly init : Nat) (bs : List Byte) : Nat := bs.foldl (crcByte w poly) init

/-- CRC-16/CCITT of a clause (spec/02 R48). -/
def crc16 (bs : List Byte) : BitVec 16 := BitVec.ofNat 16 (crcOver 16 0x1021 0xFFFF bs)

/-- CRC-64 with the ECMA-182 polynomial, continued from `c` (spec/01 R33, spec/15 R445). -/
def crc64From (c : Word) (bs : List Byte) : Word := BitVec.ofNat 64 (crcOver 64 0x42F0E1EBA9EA3693 c.toNat bs)

/-- CRC-64 of bytes. -/
def crc64 (bs : List Byte) : Word := crc64From 0 bs

/-- Fixed choice of `n` consecutive numbers. -/
def upTo (n : Nat) : List Nat := List.range n

/-- Insert before the first element that is not smaller. -/
def insertBy {α : Type} (le : α → α → Bool) (x : α) : List α → List α
  | [] => [x]
  | y :: ys => if le x y then x :: y :: ys else y :: insertBy le x ys

/-- A list in order; equal elements keep their places. -/
def sortBy {α : Type} (le : α → α → Bool) : List α → List α
  | [] => []
  | x :: xs => insertBy le x (sortBy le xs)

/-- Replace element `i` of a list by what `f` makes of it. -/
def modifyAt {α : Type} (l : List α) (i : Nat) (f : α → α) : List α :=
  match l, i with
  | [], _ => []
  | x :: xs, 0 => f x :: xs
  | x :: xs, i + 1 => x :: modifyAt xs i f

/-- x^k mod p by squaring, `n` bits of k. -/
def powMod (p : Nat) : Nat → Nat → Nat → Nat
  | 0, _, _ => 1 % p
  | n + 1, x, k =>
    let h := powMod p n (x * x % p) (k / 2)
    if k % 2 = 1 then h * x % p else h

/-- The inverse of x modulo the prime p, by Fermat. -/
def invMod (p x : Nat) : Nat := powMod p 64 (x % p) (p - 2)

/-- One Miller–Rabin test of the odd number n to base a: n − 1 = d × 2^s; `k` squarings remain. -/
def strongProbable (n x : Nat) : Nat → Bool
  | 0 => false
  | k + 1 => x == n - 1 || strongProbable n (x * x % n) k

/-- The power of two in x, at most `n`. -/
def twosIn : Nat → Nat → Nat
  | 0, _ => 0
  | n + 1, x => if x % 2 = 0 ∧ x ≠ 0 then 1 + twosIn n (x / 2) else 0

/-- Primality below 2^32: Miller–Rabin to the bases 2, 7 and 61 (spec/10 R317). -/
def isPrime32 (n : Nat) : Bool :=
  if n < 2 then false
  else if n == 2 || n == 7 || n == 61 then true
  else if n % 2 == 0 then false
  else
    let s := twosIn 32 (n - 1)
    let d := (n - 1) / 2 ^ s
    [2, 7, 61].all fun a =>
      let x := powMod n 32 (a % n) d
      x == 1 || strongProbable n x s

/-! SHA-384, the standard hash that spec/01 R33 and spec/16 R459 name (log entry 13) -/

/-- The round constants. -/
def shaK : List Word :=
  [0x428A2F98D728AE22, 0x7137449123EF65CD, 0xB5C0FBCFEC4D3B2F, 0xE9B5DBA58189DBBC,
   0x3956C25BF348B538, 0x59F111F1B605D019, 0x923F82A4AF194F9B, 0xAB1C5ED5DA6D8118,
   0xD807AA98A3030242, 0x12835B0145706FBE, 0x243185BE4EE4B28C, 0x550C7DC3D5FFB4E2,
   0x72BE5D74F27B896F, 0x80DEB1FE3B1696B1, 0x9BDC06A725C71235, 0xC19BF174CF692694] ++
  [0xE49B69C19EF14AD2, 0xEFBE4786384F25E3, 0x0FC19DC68B8CD5B5, 0x240CA1CC77AC9C65,
   0x2DE92C6F592B0275, 0x4A7484AA6EA6E483, 0x5CB0A9DCBD41FBD4, 0x76F988DA831153B5,
   0x983E5152EE66DFAB, 0xA831C66D2DB43210, 0xB00327C898FB213F, 0xBF597FC7BEEF0EE4,
   0xC6E00BF33DA88FC2, 0xD5A79147930AA725, 0x06CA6351E003826F, 0x142929670A0E6E70] ++
  [0x27B70A8546D22FFC, 0x2E1B21385C26C926, 0x4D2C6DFC5AC42AED, 0x53380D139D95B3DF,
   0x650A73548BAF63DE, 0x766A0ABB3C77B2A8, 0x81C2C92E47EDAEE6, 0x92722C851482353B,
   0xA2BFE8A14CF10364, 0xA81A664BBC423001, 0xC24B8B70D0F89791, 0xC76C51A30654BE30,
   0xD192E819D6EF5218, 0xD69906245565A910, 0xF40E35855771202A, 0x106AA07032BBD1B8] ++
  [0x19A4C116B8D2D0C8, 0x1E376C085141AB53, 0x2748774CDF8EEB99, 0x34B0BCB5E19B48A8,
   0x391C0CB3C5C95A63, 0x4ED8AA4AE3418ACB, 0x5B9CCA4F7763E373, 0x682E6FF3D6B2B8A3,
   0x748F82EE5DEFB2FC, 0x78A5636F43172F60, 0x84C87814A1F0AB72, 0x8CC702081A6439EC,
   0x90BEFFFA23631E28, 0xA4506CEBDE82BDE9, 0xBEF9A3F7B2C67915, 0xC67178F2E372532B] ++
  [0xCA273ECEEA26619C, 0xD186B8C721C0C207, 0xEADA7DD6CDE0EB1E, 0xF57D4F7FEE6ED178,
   0x06F067AA72176FBA, 0x0A637DC5A2C898A6, 0x113F9804BEF90DAE, 0x1B710B35131C471B,
   0x28DB77F523047D84, 0x32CAAB7B40C72493, 0x3C9EBE0A15C9BEBC, 0x431D67C49C100D4C,
   0x4CC5D4BECB3E42B6, 0x597F299CFC657E2A, 0x5FCB6FAB3AD6FAEC, 0x6C44198C4A475817]

/-- The initial hash value. -/
def shaH : List Word :=
  [0xCBBB9D5DC1059ED8, 0x629A292A367CD507, 0x9159015A3070DD17, 0x152FECD8F70E5939,
   0x67332667FFC00B31, 0x8EB44A8768581511, 0xDB0C2E0D64F98FA7, 0x47B5481DBEFA4FA4]

/-- A big-endian word of 8 bytes. -/
def beWord (bs : List Byte) : Word := BitVec.ofNat 64 (leValue bs.reverse)

/-- The 8 bytes of a word, most significant first. -/
def beBytes (x : Word) : List Byte := (leBytes 8 x.toNat).reverse

/-- The next word of the schedule, from the 16 before it, oldest first. -/
def shaNext (l : List Word) : Word :=
  let a := l.getD 1 0
  let b := l.getD 14 0
  l.getD 0 0 + (a.rotateRight 1 ^^^ a.rotateRight 8 ^^^ (a >>> 7)) + l.getD 9 0 +
    (b.rotateRight 19 ^^^ b.rotateRight 61 ^^^ (b >>> 6))

/-- One round on the eight working variables. -/
def shaRound (v : List Word) (k w : Word) : List Word :=
  match v with
  | [a, b, c, d, e, f, g, h] =>
    let t1 := h + (e.rotateRight 14 ^^^ e.rotateRight 18 ^^^ e.rotateRight 41) + ((e &&& f) ^^^ (~~~e &&& g)) + k + w
    let t2 := (a.rotateRight 28 ^^^ a.rotateRight 34 ^^^ a.rotateRight 39) + ((a &&& b) ^^^ (a &&& c) ^^^ (b &&& c))
    [t1 + t2, a, b, c, d + t1, e, f, g]
  | l => l

/-- The compression of one block of 16 words. -/
def shaBlock (h : List Word) (block : List Word) : List Word :=
  let r := shaK.foldl (fun (acc : List Word × List Word) k =>
    (shaRound acc.1 k (acc.2.headD 0), acc.2.drop 1 ++ [shaNext acc.2])) (h, block)
  (h.zip r.1).map fun q => q.1 + q.2

/-- Blocks of 128 bytes. -/
def shaBlocks : Nat → List Word → List Byte → List Word
  | 0, h, _ => h
  | n + 1, h, bs => shaBlocks n (shaBlock h ((List.range 16).map fun i => beWord (takeBytes bs (8 * i) 8))) (bs.drop 128)

/-- The SHA-384 hash of bytes. -/
def sha384 (bs : List Byte) : List Byte :=
  let n := bs.length
  let pad := (239 - n % 128) % 128
  let all := bs ++ [0x80#8] ++ List.replicate pad 0#8 ++ (leBytes 16 (8 * n)).reverse
  ((shaBlocks (all.length / 128) shaH all).take 6).flatMap beBytes

end Sys2Proof.Machine
end

