-- ==== Sys2Proof/Machine/Float.lean ====
section
/-! DEFINITION. Number formats, decoding of codes into values, `Round`, NaN selection and exact arithmetic
(spec/03 R96 to R106, R116). Values are exact: a sign, a magnitude and a power of two. -/

namespace Sys2Proof.Machine

/-- Families of float formats: IEEE, E4M3, E5M2, the 6-bit and 4-bit formats without infinity or NaN, and MK8
(spec/03 R96, R97, R98). -/
inductive FKind where
  | ieee | e4m3 | e5m2 | small | mk8
deriving DecidableEq, Repr

/-- A float format (spec/03 R97): total bits, fraction bits, exponent bias. -/
structure Fmt where
  bits : Nat
  fb : Nat
  bias : Nat
  kind : FKind
deriving DecidableEq, Repr

def Fmt.fp32 : Fmt := ⟨32, 23, 127, .ieee⟩
def Fmt.bf16 : Fmt := ⟨16, 7, 127, .ieee⟩
def Fmt.fp16 : Fmt := ⟨16, 10, 15, .ieee⟩
def Fmt.e4m3 : Fmt := ⟨8, 3, 7, .e4m3⟩
def Fmt.e5m2 : Fmt := ⟨8, 2, 15, .e5m2⟩
def Fmt.e2m3 : Fmt := ⟨6, 3, 1, .small⟩
def Fmt.e3m2 : Fmt := ⟨6, 2, 3, .small⟩
def Fmt.e2m1 : Fmt := ⟨4, 1, 1, .small⟩
def Fmt.mk8 : Fmt := ⟨8, 4, 0, .mk8⟩

/-- Weight of the sign bit. -/
def Fmt.signBit (f : Fmt) : Nat := 2 ^ (f.bits - 1)

/-- The code of +∞ where the format has one; for the others, the magnitude above which no code is finite. -/
def Fmt.infCode (f : Fmt) : Nat :=
  match f.kind with
  | .ieee => f.signBit - 2 ^ f.fb
  | .e5m2 => 0x7C
  | .e4m3 => 0x7F
  | .mk8 => 0x7F
  | .small => f.signBit

/-- The magnitude code of the largest finite value. -/
def Fmt.maxCode (f : Fmt) : Nat := f.infCode - 1

/-- The canonical NaN (spec/03 R106). -/
def Fmt.canonicalNan (f : Fmt) : Nat :=
  match f.kind with
  | .ieee => f.infCode + 2 ^ (f.fb - 1)
  | .e4m3 => 0x7F
  | .e5m2 => 0x7E
  | .mk8 => 0x80
  | .small => 0

/-- A decoded value: a NaN with sign, signalling mark and payload (aligned at the top of 22 bits), an infinity, or the
number (−1)^neg × m × 2^e. -/
inductive FVal where
  | nan (neg signalling : Bool) (payload : Nat)
  | inf (neg : Bool)
  | num (neg : Bool) (m : Nat) (e : Int)
deriving DecidableEq, Repr, Inhabited

/-- The flags NV, DZ, OF, UF, NX in the places of FFLAGS (spec/03 R107). -/
abbrev Flags := BitVec 5
def flagNV : Flags := 1#5
def flagDZ : Flags := 2#5
def flagOF : Flags := 4#5
def flagUF : Flags := 8#5
def flagNX : Flags := 16#5

/-- The value of an MK8 magnitude code other than 0 and 0x7F (spec/03 R98): (significand, exponent of its last bit). -/
def mk8Value (c : Nat) : Nat × Int :=
  let d := c.testBit 6
  let low := c % 64
  let r := if d then leadingZeros 6 (63 - low) else leadingZeros 6 low
  let n := 5 - r
  let x := if n ≥ 1 then (low / 2 ^ (n - 1)) % 2 else 0
  let f := n - 1
  let frac := low % 2 ^ f
  let e : Int := if d then 2 * r + x else x - 2 * (r + 1)
  (2 ^ f + frac, e - f)

/-- The value of a code; with `flush`, subnormals read as zero of their sign (spec/03 R104). -/
def Fmt.decode (f : Fmt) (flush : Bool) (code : Nat) : FVal :=
  let neg := (code / f.signBit) % 2 == 1
  let c := code % f.signBit
  match f.kind with
  | .mk8 =>
    if c == 0 then (if neg then .nan false false 0 else .num false 0 0)
    else if c == 0x7F then .inf neg
    else let v := mk8Value c; .num neg v.1 v.2
  | _ =>
    let frac := c % 2 ^ f.fb
    let ex := c / 2 ^ f.fb
    let isNan := match f.kind with
      | .ieee | .e5m2 => decide (c > f.infCode)
      | .e4m3 => c == 0x7F
      | _ => false
    if isNan then
      .nan neg (f.kind == .ieee && frac / 2 ^ (f.fb - 1) == 0) ((frac % 2 ^ (f.fb - 1)) * 2 ^ (23 - f.fb))
    else if (f.kind == .ieee || f.kind == .e5m2) && c == f.infCode then .inf neg
    else if ex == 0 then .num neg (if flush then 0 else frac) (1 - (f.bias : Int) - f.fb)
    else .num neg (2 ^ f.fb + frac) ((ex : Int) - f.bias - f.fb)

/-- The fields of AMR that rounding reads (spec/03 R101), with the draw of a stochastic conversion (R130). -/
structure FEnv where
  rm : Nat
  sub : Nat
  sat : Nat
  nanp : Bool
  draw : Option Nat := none
deriving DecidableEq, Repr

/-- The rounding environment of AMR: mode 5 acts as mode 0 outside stochastic conversions (spec/03 R102). -/
def FEnv.ofAmr (amr : Word) : FEnv :=
  let rm := (amr.extractLsb' 0 3).toNat
  { rm := if rm == 5 then 0 else rm, sub := (amr.extractLsb' 3 2).toNat, sat := (amr.extractLsb' 5 2).toNat,
    nanp := amr.getLsbD 7 }

/-- Inputs are flushed (spec/03 R104). -/
def FEnv.flushIn (env : FEnv) : Bool := env.sub == 1

/-- Whether a value between the code `lo` and the next goes up: `rem / den` is how far it lies between them (spec/03 R102,
R130). -/
def roundsUp (env : FEnv) (neg : Bool) (odd : Bool) (rem den : Nat) : Bool :=
  if rem == 0 then false
  else match env.draw with
    | some r => decide (2 ^ 32 ≤ 2 ^ 32 * rem / den + r)
    | none =>
      match env.rm with
      | 1 => false
      | 2 => !neg
      | 3 => neg
      | 4 => decide (den ≤ 2 * rem)
      | _ => decide (den < 2 * rem) || (2 * rem == den && odd)

/-- Floor of m × 2^e in units of 2^q, the remainder and its denominator. -/
def splitAt (m : Nat) (e q : Int) : Nat × Nat × Nat :=
  if q ≤ e then (m * 2 ^ (e - q).toNat, 0, 1)
  else let den := 2 ^ (q - e).toNat; (m / den, m % den, den)

/-- The exponent of the leading bit of m × 2^e, m positive. -/
def leadExp (m : Nat) (e : Int) : Int := (Nat.log2 m : Int) + e

/-- The first code of the MK8 segment of exponent e (spec/03 R98), its fraction bits, for −12 ≤ e ≤ 10. -/
def mk8Segment (e : Int) : Nat × Nat :=
  if 0 ≤ e then
    let r := e.toNat / 2
    let x := e.toNat % 2
    let n := 5 - r
    if n ≥ 1 then (64 + (64 - 2 ^ (6 - r)) + x * 2 ^ (n - 1), n - 1) else (126, 0)
  else
    let r := (1 - e).toNat / 2 - 1
    let x := (e + 2 * (r + 1)).toNat
    let n := 5 - r
    if n ≥ 1 then (2 ^ n + x * 2 ^ (n - 1), n - 1) else (1, 0)

/-- Where m × 2^e stands among the codes of a format with an unbounded range above: the quantum exponent and the offset from
the count of quanta to the magnitude code. The one gap that no quantum divides evenly is MK8's from 2^−12 to 2^−10
(`Fmt.place`). -/
def Fmt.grid (f : Fmt) (m : Nat) (e : Int) : Int × Int :=
  let le := leadExp m e
  match f.kind with
  | .mk8 =>
    if le < -12 then (-12, 0)
    else if 10 < le then (le, 126 + (le - 10) - 1)
    else let s := mk8Segment le; (le - s.2, (s.1 : Int) - (2 ^ s.2 : Nat))
  | _ =>
    let qmin : Int := 1 - (f.bias : Int) - f.fb
    let q := max (le - f.fb) qmin
    (q, (q - qmin) * (2 ^ f.fb : Nat))

/-- The magnitude code at or below m × 2^e, m positive, and how far the number lies toward the next one: a remainder and its
denominator. MK8's codes 0x01 and 0x02 are 2^−12 and 2^−10, with none between (spec/03 R98). -/
def Fmt.place (f : Fmt) (m : Nat) (e : Int) : Nat × Nat × Nat :=
  if f.kind == .mk8 && (leadExp m e == -12 || leadExp m e == -11) then
    let s := splitAt m e (-12)
    (1, (s.1 - 1) * s.2.2 + s.2.1, 3 * s.2.2)
  else
    let g := f.grid m e
    let s := splitAt m e g.1
    (((s.1 : Int) + g.2).toNat, s.2.1, s.2.2)

/-- The code of a sign and a magnitude code. -/
def Fmt.withSign (f : Fmt) (neg : Bool) (c : Nat) : Nat := if neg then f.signBit + c else c

/-- A finite result beyond the largest finite value, or an infinite value (spec/03 R105). -/
def Fmt.overflow (f : Fmt) (env : FEnv) (neg finite : Bool) : Nat × Flags :=
  let toMax := f.withSign neg f.maxCode
  let toInf := f.withSign neg f.infCode
  match f.kind with
  | .ieee =>
    if !finite then (toInf, 0)
    else
      let clip := env.rm == 1 || (env.rm == 2 && neg) || (env.rm == 3 && !neg)
      (if clip then toMax else toInf, flagOF ||| flagNX)
  | .small => (toMax, if finite then flagOF ||| flagNX else flagNX)
  | .e4m3 =>
    if env.sat == 0 then (toMax, if finite then flagOF ||| flagNX else flagNX)
    else (toInf, if finite then flagOF ||| flagNX else flagNV)
  | _ =>
    if env.sat == 0 then (toMax, if finite then flagOF ||| flagNX else flagNX)
    else (toInf, if finite then flagOF ||| flagNX else 0)

/-- A zero result of a sign: MK8 has no −0 (spec/03 R103). -/
def Fmt.zero (f : Fmt) (neg : Bool) : Nat := if f.kind == .mk8 then 0 else f.withSign neg 0

/-- Round m × 2^e, m positive, with the unbounded exponent range: (significand count, quantum exponent). -/
def roundUnbounded (f : Fmt) (env : FEnv) (neg : Bool) (m : Nat) (e : Int) : Nat × Int :=
  let q := leadExp m e - f.fb
  let s := splitAt m e q
  (if roundsUp env neg (s.1 % 2 == 1) s.2.1 s.2.2 then s.1 + 1 else s.1, q)

/-- `Round` of a number into a format (spec/03 R102 to R105), and the flags it raises. -/
def Fmt.roundNum (f : Fmt) (env : FEnv) (neg : Bool) (m : Nat) (e : Int) : Nat × Flags :=
  if m == 0 then (f.zero neg, 0)
  else
    let s := f.place m e
    let c := if roundsUp env neg (s.1 % 2 == 1) s.2.1 s.2.2 then s.1 + 1 else s.1
    let inexact := s.2.1 != 0
    if f.maxCode < c then f.overflow env neg true
    else match f.kind with
      | .mk8 =>
        if leadExp m e < -12 then (if c == 0 then 0 else f.withSign neg c, flagUF ||| flagNX)
        else (f.withSign neg c, if inexact then flagNX else 0)
      | _ =>
        let u := roundUnbounded f env neg m e
        let tiny := decide (leadExp u.1 u.2 < 1 - (f.bias : Int))
        if tiny && env.sub != 0 then (f.zero neg, flagUF ||| flagNX)
        else (f.withSign neg c, (if inexact then flagNX else 0) ||| (if tiny && inexact then flagUF else 0))

/-- A NaN result from its operands, in order (spec/03 R106). The flags say invalid for a signalling operand, for a NaN made
from none, and for a NaN into a format that has none. -/
def Fmt.nanOf (f : Fmt) (env : FEnv) (ops : List FVal) : Nat × Flags :=
  let nans := ops.filter fun v => match v with | .nan .. => true | _ => false
  let sig := nans.any fun v => match v with | .nan _ s _ => s | _ => false
  let fl : Flags := if nans.isEmpty || sig then flagNV else 0
  match f.kind with
  | .small => (0, flagNV)
  | .mk8 => (0x80, fl)
  | _ =>
    match nans with
    | .nan neg _ pay :: _ =>
      if env.nanp then (f.canonicalNan, fl)
      else if f.kind == .e4m3 then (f.withSign neg 0x7F, fl)
      else (f.withSign neg (f.canonicalNan + pay / 2 ^ (23 - f.fb)), fl)
    | _ => (f.canonicalNan, fl)

/-- `Round` of any value. -/
def Fmt.round (f : Fmt) (env : FEnv) (v : FVal) : Nat × Flags :=
  match v with
  | .nan .. => f.nanOf env [v]
  | .inf neg => f.overflow env neg false
  | .num neg m e => f.roundNum env neg m e

/-- `Round` of an operand that is returned as it is, or converted to its own format: an infinity of the format stays one
(spec/03 R116, R127). -/
def Fmt.keep (f : Fmt) (env : FEnv) (v : FVal) : Nat × Flags :=
  match v with
  | .inf neg => (f.withSign neg f.infCode, 0)
  | _ => f.round env v

/-- The value of an integer. -/
def FVal.ofInt (x : Int) : FVal := .num (decide (x < 0)) x.natAbs 0

def FVal.isNan : FVal → Bool
  | .nan .. => true
  | _ => false

def FVal.isInf : FVal → Bool
  | .inf _ => true
  | _ => false

def FVal.isSignalling : FVal → Bool
  | .nan _ s _ => s
  | _ => false

def FVal.isZero : FVal → Bool
  | .num _ m _ => m == 0
  | _ => false

def FVal.neg? : FVal → Bool
  | .nan n _ _ => n
  | .inf n => n
  | .num n _ _ => n

/-- A value with its sign changed. -/
def FVal.negate : FVal → FVal
  | .nan n s p => .nan (!n) s p
  | .inf n => .inf (!n)
  | .num n m e => .num (!n) m e

/-- The numbers as integers over one power of two: (sum, exponent). -/
def sumNums (vs : List (Bool × Nat × Int)) : Int × Int :=
  let e := vs.foldl (fun acc v => if v.2.1 == 0 then acc else match acc with | none => some v.2.2 | some x => some (min x v.2.2))
    (none : Option Int)
  match e with
  | none => (0, 0)
  | some e =>
    (vs.foldl (fun acc v => if v.2.1 == 0 then acc else
      let t : Int := (v.2.1 * 2 ^ (v.2.2 - e).toNat : Nat)
      if v.1 then acc - t else acc + t) 0, e)

/-- An exact product of two values that are not NaN; none for 0 × ∞. -/
def mulExact (a b : FVal) : Option FVal :=
  match a, b with
  | .num s m e, .num t n g => some (.num (s != t) (m * n) (e + g))
  | .inf s, .num t n _ => if n == 0 then none else some (.inf (s != t))
  | .num s m _, .inf t => if m == 0 then none else some (.inf (s != t))
  | .inf s, .inf t => some (.inf (s != t))
  | _, _ => none

/-- An exact sum of terms, none of them NaN (spec/03 R116): none when it holds both infinities; an exact zero takes the sign
of its terms when they are zeros of one sign, and else + or, under RM 3, −. -/
def sumExact (rm : Nat) (ts : List FVal) : Option FVal :=
  let pos := ts.any fun v => v == .inf false
  let neg := ts.any fun v => v == .inf true
  if pos && neg then none
  else if pos then some (.inf false)
  else if neg then some (.inf true)
  else
    let s := sumNums (ts.map fun v => match v with | .num n m e => (n, m, e) | _ => (false, 0, 0))
    if s.1 == 0 then
      let zeros := ts.all FVal.isZero
      if zeros && ts.all FVal.neg? then some (.num true 0 0)
      else if zeros && ts.all (fun v => !v.neg?) then some (.num false 0 0)
      else some (.num (rm == 3) 0 0)
    else some (.num (decide (s.1 < 0)) s.1.natAbs s.2)

/-- A sum of products, rounded once: a NaN among `ops` (in the order of R106) or an invalid combination gives NaN. -/
def Fmt.sumProducts (f : Fmt) (env : FEnv) (ops : List FVal) (prods : List (FVal × FVal)) (adds : List FVal) : Nat × Flags :=
  if ops.any FVal.isNan then f.nanOf env ops
  else
    let ps := prods.map fun p => mulExact p.1 p.2
    if ps.any Option.isNone then f.nanOf env []
    else match sumExact env.rm (ps.filterMap id ++ adds) with
      | none => f.nanOf env []
      | some v => f.round env v

/-- a + b. -/
def Fmt.add (f : Fmt) (env : FEnv) (a b : FVal) : Nat × Flags := f.sumProducts env [a, b] [] [a, b]

/-- a − b: a NaN operand keeps its own sign (spec/03 R106). -/
def Fmt.sub (f : Fmt) (env : FEnv) (a b : FVal) : Nat × Flags := f.sumProducts env [a, b] [] [a, b.negate]

/-- a × b. -/
def Fmt.mul (f : Fmt) (env : FEnv) (a b : FVal) : Nat × Flags :=
  if a.isNan || b.isNan then f.nanOf env [a, b]
  else match mulExact a b with
    | none => f.nanOf env []
    | some v => f.round env v

/-- a × b + c with one rounding. -/
def Fmt.fma (f : Fmt) (env : FEnv) (a b c : FVal) : Nat × Flags := f.sumProducts env [a, b, c] [(a, b)] [c]

/-- The order of two values that are not NaN; with `signed0`, −0 lies below +0. -/
def FVal.less (signed0 : Bool) (a b : FVal) : Bool :=
  match a, b with
  | .inf s, .inf t => s && !t
  | .inf s, _ => s
  | _, .inf t => !t
  | .num s m e, .num t n g =>
    let d := (sumNums [(s, m, e), (!t, n, g)]).1
    if d == 0 then signed0 && m == 0 && n == 0 && s && !t else decide (d < 0)
  | _, _ => false

/-- Equality of two values that are not NaN. -/
def FVal.same (a b : FVal) : Bool := !(a.less false b) && !(b.less false a)

/-- A value rounded to an integer (spec/03 R127): clamped with invalid outside the range, NaN gives 0 with invalid. -/
def FVal.toInt (env : FEnv) (lo hi : Int) (v : FVal) : Int × Flags :=
  match v with
  | .nan .. => (0, flagNV)
  | .inf neg => (if neg then lo else hi, flagNV)
  | .num neg m e =>
    let s := splitAt m e 0
    let k := if roundsUp env neg (s.1 % 2 == 1) s.2.1 s.2.2 then s.1 + 1 else s.1
    let x : Int := if neg then -(k : Int) else k
    if x < lo then (lo, flagNV) else if hi < x then (hi, flagNV)
    else (x, if s.2.1 == 0 then 0 else flagNX)

end Sys2Proof.Machine
end

