-- ==== Sys2Proof/Syntax.lean ====
section
/-! DEFINITION. Operands, modifiers and the one inductive of the opcode table (spec/02 R37 to R60 and the
encodings that each engine's chapter gives). Rows of the table that no instruction word encodes (the steps that
engines, the controller and the outside take by themselves, spec/95) are constructors too. -/

namespace Sys2Proof

/-- What an 8-bit operand field names (spec/02 R39). -/
inductive Opnd where
  | v (n : BitVec 6)
  | s (n : BitVec 6)
  | p (n : BitVec 3)
  | rsvd (n : BitVec 3)
  | q (n : BitVec 4)
  | special (n : BitVec 5)
  | imm (x : BitVec 6)
deriving DecidableEq, Repr

/-- A guard: a predicate, negated or not (spec/02 R37, R38). -/
structure Guard where
  neg : Bool
  p : BitVec 3
deriving DecidableEq, Repr

/-- The two guards of an instruction word. -/
structure Guards where
  ga : Guard
  gb : Guard
deriving DecidableEq, Repr

/-- Memory ordering of an access or an engine command (spec/01 R24, spec/04 R139). -/
inductive Order where
  | rlx | acq | rel | ar
deriving DecidableEq, Repr

/-- Scope codes 0 to 6 (spec/01 R12); code 7 is no scope. -/
inductive Scope where
  | wave | core | quad | die | pkg | pod | sys
deriving DecidableEq, Repr

/-- Width codes of memory instructions (spec/04 R140). -/
inductive Width where
  | b | sb | h | sh | w | d | q | uw | ud
deriving DecidableEq, Repr

/-- Format tags (spec/03 R94). -/
inductive Tag where
  | i32 | u32 | f32 | bf16x2 | f16x2 | i16x2 | e4m3x4 | e5m2x4 | mk8x4 | i8x4 | e2m3x5 | e3m2x5 | e2m1x8 | limb | modq | raw
deriving DecidableEq, Repr

/-- Conditions of `brs` (spec/02 R73). -/
inductive BrCond where
  | eq0 | ne0 | lt0 | ge0
deriving DecidableEq, Repr

/-- Conditions of `scmp` (spec/02 R88). -/
inductive SCond where
  | eq | ne | lt | le | gt | ge | ltu | leu | gtu | geu
deriving DecidableEq, Repr

/-- Conditions of `cmp` (spec/03 R114). -/
inductive VCond where
  | eq | ne | lt | le | gt | ge | un
deriving DecidableEq, Repr

/-- Modes of `vote` (spec/05 R201). -/
inductive VoteMode where
  | any | all | ballot
deriving DecidableEq, Repr

/-- Modes of `shfl` (spec/05 R201). -/
inductive ShflMode where
  | idx | up | down | xor
deriving DecidableEq, Repr

/-- Operations of `scan` (spec/05 R201). -/
inductive ScanOp where
  | add | min | max | and | or | xor
deriving DecidableEq, Repr

/-- Operations of the atomics and of `aod` (spec/04 R147, R151). -/
inductive AtomOp where
  | add | min | max | and | or | xor | exch | fadd
deriving DecidableEq, Repr

/-- Conditions of `mwait` (spec/04 R157). -/
inductive WaitCond where
  | eq | ne | geu
deriving DecidableEq, Repr

/-- Actions of `tierq` and of the screed (spec/13 R413, R418). -/
inductive TierAct where
  | fetch | evict | l2pf | pin | unpin
deriving DecidableEq, Repr

/-- The four outstanding-operation classes (spec/01 R18). -/
inductive Cls where
  | ld | st | cp | tl
deriving DecidableEq, Repr

/-- Places of an uncorrectable error (spec/15 R456). -/
inductive ErrPlace where
  /-- the slice that lane `l` of wave `w` holds of the vector register file, read by that lane -/
  | vreg (w l : Nat)
  /-- a scalar register, a predicate word or control state of wave `w` -/
  | waveState (w : Nat)
  /-- a line of a core's L1 -/
  | l1 (c : Nat)
  /-- L2 data, HBM or second tier at physical address `pa` -/
  | memory (pa : Nat)
  /-- scratchpad of group `g` at byte `off` -/
  | scratchpad (g off : Nat)
  /-- the instruction word or clause header that wave `w` fetches -/
  | code (w : Nat)
  /-- the page-table entry at physical address `pa` -/
  | pageEntry (pa : Nat)
  /-- a single-bit error in an array of die `d`, which is corrected -/
  | corrected (d : Nat)
  /-- an accumulator tile or, with `scale`, the scale memory of core `c` -/
  | tile (c : Nat) (t : BitVec 3) (scale : Bool)
  /-- staging, a snapshot or the commit save area of group `g` -/
  | staging (g : Nat)
  /-- L2 tags, the task engine, the shadow array or a context record in use, of partition `p` -/
  | shared (p : Nat)
deriving DecidableEq, Repr

/-- The rows of spec/opcode_table.json: first the instructions that a word encodes, class by class, then the steps
that agents other than a wave take by themselves. Parameters: guards, modifiers, then the operand fields D, A, B, C, E. -/
inductive Instr where
  /-- NOP (spec R83) -/
  | nop (n : BitVec 4)
  /-- BRU (spec R73) -/
  | bru (imm : BitVec 32)
  /-- BRS (spec R73) -/
  | brs (cc : BrCond) (n : Opnd) (imm : BitVec 32)
  /-- JMPS (spec R73) -/
  | jmps (a : Opnd)
  /-- CALL (spec R73) -/
  | call (d : Opnd) (imm : BitVec 32)
  /-- CALLS (spec R74) -/
  | calls (d : Opnd) (a : Opnd)
  /-- RET (spec R74) -/
  | ret (a : Opnd)
  /-- WAIT (spec R75) -/
  | wait (nld : BitVec 6) (nst : BitVec 6) (ncp : BitVec 6) (ntl : BitVec 6)
  /-- YIELD (spec R76) -/
  | yield
  /-- BAR (spec R77) -/
  | bar (sc : Scope) (id : BitVec 4)
  /-- BARA (spec R79) -/
  | bara (sc : Scope) (id : BitVec 4)
  /-- BARW (spec R79) -/
  | barw (sc : Scope) (id : BitVec 4)
  /-- EXITW (spec R81) -/
  | exitw
  /-- CLKRD (spec R82) -/
  | clkrd (d : Opnd)
  /-- SADD (spec R85) -/
  | sadd (cin : Bool) (d : Opnd) (a : Opnd) (b : Opnd)
  /-- SSUB (spec R85) -/
  | ssub (cin : Bool) (d : Opnd) (a : Opnd) (b : Opnd)
  /-- SMUL (spec R85) -/
  | smul (d : Opnd) (a : Opnd) (b : Opnd)
  /-- SMULH (spec R85) -/
  | smulh (u : Bool) (d : Opnd) (a : Opnd) (b : Opnd)
  /-- SDIV (spec R86) -/
  | sdiv (u : Bool) (d : Opnd) (a : Opnd) (b : Opnd)
  /-- SREM (spec R86) -/
  | srem (u : Bool) (d : Opnd) (a : Opnd) (b : Opnd)
  /-- SAND (spec R85) -/
  | sand (d : Opnd) (a : Opnd) (b : Opnd)
  /-- SOR (spec R85) -/
  | sor (d : Opnd) (a : Opnd) (b : Opnd)
  /-- SXOR (spec R85) -/
  | sxor (d : Opnd) (a : Opnd) (b : Opnd)
  /-- SSHL (spec R87) -/
  | sshl (d : Opnd) (a : Opnd) (b : Opnd)
  /-- SSHR (spec R87) -/
  | sshr (d : Opnd) (a : Opnd) (b : Opnd)
  /-- SSAR (spec R87) -/
  | ssar (d : Opnd) (a : Opnd) (b : Opnd)
  /-- SMIN (spec R88) -/
  | smin (u : Bool) (d : Opnd) (a : Opnd) (b : Opnd)
  /-- SMAX (spec R88) -/
  | smax (u : Bool) (d : Opnd) (a : Opnd) (b : Opnd)
  /-- SCMP (spec R88) -/
  | scmp (cc : SCond) (d : Opnd) (a : Opnd) (b : Opnd)
  /-- SSEL (spec R88) -/
  | ssel (d : Opnd) (a : Opnd) (b : Opnd) (c : Opnd)
  /-- SMOV (spec R85) -/
  | smov (d : Opnd) (a : Opnd)
  /-- SLI (spec R90) -/
  | sli (d : Opnd) (imm : BitVec 32)
  /-- SLIH (spec R90) -/
  | slih (d : Opnd) (imm : BitVec 32)
  /-- SPOPC (spec R85) -/
  | spopc (d : Opnd) (a : Opnd)
  /-- SCLZ (spec R85) -/
  | sclz (d : Opnd) (a : Opnd)
  /-- SBFE (spec R89) -/
  | sbfe (sgn : Bool) (d : Opnd) (a : Opnd) (b : Opnd) (c : Opnd)
  /-- SBFI (spec R89) -/
  | sbfi (d : Opnd) (a : Opnd) (b : Opnd) (c : Opnd)
  /-- SRDSP (spec R91) -/
  | srdsp (d : Opnd) (a : Opnd) (b : Opnd)
  /-- SWRSP (spec R91) -/
  | swrsp (a : Opnd) (b : Opnd) (c : Opnd)
  /-- ADD (spec R115) -/
  | add (g : Guards) (sat : Bool) (d : Opnd) (a : Opnd) (b : Opnd) (e : BitVec 4)
  /-- SUB (spec R115) -/
  | sub (g : Guards) (sat : Bool) (d : Opnd) (a : Opnd) (b : Opnd) (e : BitVec 4)
  /-- MUL (spec R115) -/
  | mul (g : Guards) (sat : Bool) (d : Opnd) (a : Opnd) (b : Opnd) (e : BitVec 4)
  /-- MAD (spec R116) -/
  | mad (g : Guards) (sat : Bool) (d : Opnd) (a : Opnd) (b : Opnd) (c : Opnd) (e : BitVec 4)
  /-- MIN (spec R115) -/
  | min (g : Guards) (d : Opnd) (a : Opnd) (b : Opnd) (e : BitVec 4)
  /-- MAX (spec R115) -/
  | max (g : Guards) (d : Opnd) (a : Opnd) (b : Opnd) (e : BitVec 4)
  /-- NEG (spec R115) -/
  | neg (g : Guards) (sat : Bool) (d : Opnd) (a : Opnd) (e : BitVec 4)
  /-- ABS (spec R115) -/
  | abs (g : Guards) (sat : Bool) (d : Opnd) (a : Opnd) (e : BitVec 4)
  /-- CMP (spec R117) -/
  | cmp (g : Guards) (cc : VCond) (d : Opnd) (a : Opnd) (b : Opnd) (e : BitVec 4)
  /-- SEL (spec R118) -/
  | sel (g : Guards) (d : Opnd) (a : Opnd) (b : Opnd) (c : Opnd) (e : BitVec 4)
  /-- DOT (spec R119) -/
  | dot (g : Guards) (sat : Bool) (d : Opnd) (a : Opnd) (b : Opnd) (c : Opnd) (e : BitVec 4)
  /-- ACS (spec R121) -/
  | acs (g : Guards) (d : Opnd) (a : Opnd) (b : Opnd) (c : Opnd) (n : BitVec 4)
  /-- AND (spec R122) -/
  | and (g : Guards) (d : Opnd) (a : Opnd) (b : Opnd) (e : BitVec 4)
  /-- OR (spec R122) -/
  | or (g : Guards) (d : Opnd) (a : Opnd) (b : Opnd) (e : BitVec 4)
  /-- XOR (spec R122) -/
  | xor (g : Guards) (d : Opnd) (a : Opnd) (b : Opnd) (e : BitVec 4)
  /-- NOT (spec R122) -/
  | not (g : Guards) (d : Opnd) (a : Opnd) (e : BitVec 4)
  /-- SHL (spec R122) -/
  | shl (g : Guards) (d : Opnd) (a : Opnd) (b : Opnd) (e : BitVec 4)
  /-- SHR (spec R122) -/
  | shr (g : Guards) (d : Opnd) (a : Opnd) (b : Opnd) (e : BitVec 4)
  /-- SAR (spec R122) -/
  | sar (g : Guards) (d : Opnd) (a : Opnd) (b : Opnd) (e : BitVec 4)
  /-- ROT (spec R122) -/
  | rot (g : Guards) (d : Opnd) (a : Opnd) (b : Opnd) (e : BitVec 4)
  /-- BFE (spec R122) -/
  | bfe (g : Guards) (sgn : Bool) (d : Opnd) (a : Opnd) (b : Opnd) (c : Opnd) (e : BitVec 4)
  /-- BFI (spec R122) -/
  | bfi (g : Guards) (d : Opnd) (a : Opnd) (b : Opnd) (c : Opnd) (e : BitVec 4)
  /-- POPC (spec R122) -/
  | popc (g : Guards) (d : Opnd) (a : Opnd) (e : BitVec 4)
  /-- CLZ (spec R122) -/
  | clz (g : Guards) (d : Opnd) (a : Opnd) (e : BitVec 4)
  /-- BREV (spec R122) -/
  | brev (g : Guards) (d : Opnd) (a : Opnd) (e : BitVec 4)
  /-- MULHI (spec R122) -/
  | mulhi (g : Guards) (d : Opnd) (a : Opnd) (b : Opnd) (e : BitVec 4)
  /-- CVT (spec R126) -/
  | cvt (g : Guards) (t : Tag) (sr : Bool) (d : Opnd) (a : Opnd) (j : BitVec 4)
  /-- PACK (spec R124) -/
  | pack (g : Guards) (d : Opnd) (a : Opnd) (j : BitVec 4)
  /-- UNPK (spec R124) -/
  | unpk (g : Guards) (d : Opnd) (a : Opnd) (j : BitVec 4)
  /-- RCP (spec R131) -/
  | rcp (g : Guards) (d : Opnd) (a : Opnd) (e : BitVec 4)
  /-- RSQ (spec R131) -/
  | rsq (g : Guards) (d : Opnd) (a : Opnd) (e : BitVec 4)
  /-- SQRT (spec R131) -/
  | sqrt (g : Guards) (d : Opnd) (a : Opnd) (e : BitVec 4)
  /-- EXP2 (spec R131) -/
  | exp2 (g : Guards) (d : Opnd) (a : Opnd) (e : BitVec 4)
  /-- LOG2 (spec R131) -/
  | log2 (g : Guards) (d : Opnd) (a : Opnd) (e : BitVec 4)
  /-- SIN (spec R131) -/
  | sin (g : Guards) (d : Opnd) (a : Opnd) (e : BitVec 4)
  /-- COS (spec R131) -/
  | cos (g : Guards) (d : Opnd) (a : Opnd) (e : BitVec 4)
  /-- RAND (spec R134) -/
  | rand (g : Guards) (d : Opnd)
  /-- TAGSET (spec R123) -/
  | tagset (g : Guards) (t : Tag) (d : Opnd) (a : Opnd) (b : Opnd)
  | tagsetPort (g : Guards) (t : Tag) (d : Opnd) (a : Opnd) (b : Opnd) (e : BitVec 4)
  /-- TAGGET (spec R122) -/
  | tagget (d : Opnd) (a : Opnd)
  /-- METARD (spec R122) -/
  | metard (d : Opnd) (a : Opnd)
  /-- METAWR (spec R123) -/
  | metawr (d : Opnd) (b : Opnd)
  /-- MOV (spec R122) -/
  | mov (g : Guards) (d : Opnd) (a : Opnd)
  | movPort (g : Guards) (d : Opnd) (a : Opnd) (e : BitVec 4)
  /-- MOV_TAG (spec R122) -/
  | movTag (g : Guards) (t : Tag) (d : Opnd) (a : Opnd)
  /-- LI (spec R122) -/
  | li (g : Guards) (t : Tag) (d : Opnd) (imm : BitVec 32)
  /-- DBR (spec R191) -/
  | dbr (target : BitVec 16) (reconv : BitVec 16) (pg : Guard)
  /-- JOIN (spec R192) -/
  | join
  /-- BRK (spec R193) -/
  | brk (g : Guards) (target : BitVec 16) (n : BitVec 4)
  /-- EXITL (spec R194) -/
  | exitl (g : Guards)
  /-- VOTE (spec R202) -/
  | vote (md : VoteMode) (d : Opnd) (a : Opnd) (b : Opnd)
  /-- SHFL (spec R203) -/
  | shfl (md : ShflMode) (d : Opnd) (a : Opnd) (b : Opnd) (c : Opnd) (pe : BitVec 3)
  /-- PERM (spec R203) -/
  | perm (d : Opnd) (a : Opnd) (b : Opnd) (c : Opnd) (pe : BitVec 3)
  /-- BCST (spec R203) -/
  | bcst (d : Opnd) (a : Opnd) (b : Opnd) (c : Opnd) (pe : BitVec 3)
  /-- SCAN (spec R204) -/
  | scan (op : ScanOp) (excl : Bool) (d : Opnd) (a : Opnd) (b : Opnd)
  /-- REGRP (spec R207) -/
  | regrp
  /-- UNGRP (spec R207) -/
  | ungrp
  /-- XEQ (spec R213) -/
  | xeq (g : Guards) (t : Bool) (a : Opnd)
  /-- MASKRD (spec R209) -/
  | maskrd (d : Opnd) (a : Opnd) (b : Opnd)
  /-- MASKWR (spec R209) -/
  | maskwr (d : Opnd) (a : Opnd) (b : Opnd)
  /-- DEADRD (spec R209) -/
  | deadrd (d : Opnd)
  /-- BLEN (spec R260) -/
  | blen (g : Guards) (d : Opnd) (a : Opnd)
  /-- BNORM (spec R260) -/
  | bnorm (g : Guards) (d : Opnd) (a : Opnd)
  /-- BSHL (spec R260) -/
  | bshl (g : Guards) (d : Opnd) (a : Opnd) (b : Opnd)
  /-- BSHR (spec R260) -/
  | bshr (g : Guards) (d : Opnd) (a : Opnd) (b : Opnd)
  /-- BCMP (spec R261) -/
  | bcmp (g : Guards) (mag : Bool) (d : Opnd) (a : Opnd) (b : Opnd)
  /-- BDIVS (spec R266) -/
  | bdivs (g : Guards) (d : Opnd) (a : Opnd) (b : Opnd) (c : Opnd)
  /-- CRES (spec R264) -/
  | cres (g : Guards) (h : Bool) (d : Opnd) (a : Opnd) (b : Opnd)
  /-- BSPLIT (spec R264) -/
  | bsplit (g : Guards) (d : Opnd) (a : Opnd)
  /-- BJOIN (spec R264) -/
  | bjoin (g : Guards) (d : Opnd) (a : Opnd) (b : Opnd)
  /-- BADDC (spec R269) -/
  | baddc (g : Guards) (cin : Bool) (d : Opnd) (a : Opnd) (b : Opnd)
  /-- BSUBC (spec R269) -/
  | bsubc (g : Guards) (cin : Bool) (d : Opnd) (a : Opnd) (b : Opnd)
  /-- BMULW (spec R262) -/
  | bmulw (g : Guards) (d : Opnd) (a : Opnd) (b : Opnd) (c : Opnd)
  /-- BMODW (spec R262) -/
  | bmodw (g : Guards) (d : Opnd) (a : Opnd) (b : Opnd)
  /-- BTOM (spec R263) -/
  | btom (g : Guards) (all : Bool) (d : Opnd) (a : Opnd) (b : Opnd) (c : Opnd)
  /-- LMULM (spec R271) -/
  | lmulm (o : Order) (sc : Scope) (d : Opnd) (a : Opnd) (b : Opnd) (c : Opnd)
  /-- BOPM (spec R270) -/
  | bopm (o : Order) (sc : Scope) (se : Bool) (d : Opnd) (a : Opnd) (b : Opnd) (c : Opnd) (bsub : Bool)
  /-- LD (spec R144) -/
  | ld (g : Guards) (o : Order) (sc : Scope) (ev : BitVec 3) (d : Opnd) (a : Opnd) (b : Opnd) (wd : Width)
  /-- LDT (spec R144) -/
  | ldt (g : Guards) (o : Order) (sc : Scope) (ev : BitVec 3) (d : Opnd) (a : Opnd) (b : Opnd) (t : Tag)
  /-- ST (spec R144) -/
  | st (g : Guards) (o : Order) (sc : Scope) (ev : BitVec 3) (a : Opnd) (b : Opnd) (c : Opnd) (wd : Width)
  /-- LDS (spec R145) -/
  | lds (g : Guards) (o : Order) (sc : Scope) (d : Opnd) (a : Opnd) (b : Opnd) (wd : Width)
  /-- STS (spec R145) -/
  | sts (g : Guards) (o : Order) (sc : Scope) (a : Opnd) (b : Opnd) (c : Opnd) (wd : Width)
  /-- LDB (spec R146) -/
  | ldb (g : Guards) (o : Order) (sc : Scope) (ev : BitVec 3) (d : Opnd) (a : Opnd) (b : Opnd) (c : Opnd)
  /-- STB (spec R146) -/
  | stb (g : Guards) (o : Order) (sc : Scope) (ev : BitVec 3) (a : Opnd) (b : Opnd) (c : Opnd)
  /-- ATOM_ADD (spec R147) -/
  | atomAdd (g : Guards) (o : Order) (sc : Scope) (ev : BitVec 3) (d : Opnd) (a : Opnd) (b : Opnd) (c : Opnd) (wd : Width)
  /-- ATOM_MIN (spec R147) -/
  | atomMin (g : Guards) (o : Order) (sc : Scope) (ev : BitVec 3) (d : Opnd) (a : Opnd) (b : Opnd) (c : Opnd) (wd : Width)
  /-- ATOM_MAX (spec R147) -/
  | atomMax (g : Guards) (o : Order) (sc : Scope) (ev : BitVec 3) (d : Opnd) (a : Opnd) (b : Opnd) (c : Opnd) (wd : Width)
  /-- ATOM_AND (spec R147) -/
  | atomAnd (g : Guards) (o : Order) (sc : Scope) (ev : BitVec 3) (d : Opnd) (a : Opnd) (b : Opnd) (c : Opnd) (wd : Width)
  /-- ATOM_OR (spec R147) -/
  | atomOr (g : Guards) (o : Order) (sc : Scope) (ev : BitVec 3) (d : Opnd) (a : Opnd) (b : Opnd) (c : Opnd) (wd : Width)
  /-- ATOM_XOR (spec R147) -/
  | atomXor (g : Guards) (o : Order) (sc : Scope) (ev : BitVec 3) (d : Opnd) (a : Opnd) (b : Opnd) (c : Opnd) (wd : Width)
  /-- ATOM_EXCH (spec R147) -/
  | atomExch (g : Guards) (o : Order) (sc : Scope) (ev : BitVec 3) (d : Opnd) (a : Opnd) (b : Opnd) (c : Opnd) (wd : Width)
  /-- ATOM_FADD (spec R148) -/
  | atomFadd (g : Guards) (o : Order) (sc : Scope) (ev : BitVec 3) (d : Opnd) (a : Opnd) (b : Opnd) (c : Opnd) (wd : Width)
  /-- CAS (spec R149) -/
  | cas (g : Guards) (o : Order) (sc : Scope) (ev : BitVec 3) (d : Opnd) (a : Opnd) (b : Opnd) (c : Opnd) (wd : Width)
  /-- AOD (spec R151) -/
  | aod (g : Guards) (sc : Scope) (op : AtomOp) (d : Opnd) (a : Opnd) (b : Opnd) (c : Opnd) (wd : Width)
  /-- FENCE (spec R154) -/
  | fence (o : Order) (sc : Scope)
  /-- MWAIT (spec R158) -/
  | mwait (o : Order) (sc : Scope) (d : Opnd) (a : Opnd) (b : Opnd) (c : Opnd) (stamp : Bool) (dbl : Bool) (cc : WaitCond)
  /-- PRF (spec R155) -/
  | prf (g : Guards) (sc : Scope) (ev : BitVec 3) (a : Opnd) (b : Opnd)
  /-- L1INV (spec R156) -/
  | l1inv
  /-- RINGDEF (spec R239) -/
  | ringdef (t : Tag) (a : Opnd) (b : Opnd) (c : Opnd) (r : BitVec 4)
  /-- RINGCLR_DROP (spec R240) -/
  | ringclrDrop (r : BitVec 4)
  /-- RINGCLR_STOP (spec R240) -/
  | ringclrStop (r : BitVec 4)
  /-- QBIND (spec R241) -/
  | qbind (push : Bool) (d : Opnd) (r : BitVec 4)
  /-- QBIND_UN (spec R241) -/
  | qbindUn (d : Opnd)
  /-- QPEEK (spec R246) -/
  | qpeek (g : Guards) (d : Opnd) (a : Opnd) (pe : BitVec 3)
  /-- QEOS (spec R245) -/
  | qeos (a : Opnd) (b : Opnd)
  /-- QSTAT (spec R247) -/
  | qstat (d : Opnd) (a : Opnd)
  /-- SLAY (spec R226) -/
  | slay (o : Order) (sc : Scope) (a : Opnd) (b : Opnd) (c : Opnd) (k : BitVec 4)
  /-- SCMD_FILL (spec R228) -/
  | scmdFill (o : Order) (sc : Scope) (se : Bool) (a : Opnd) (b : Opnd) (c : Opnd)
  /-- SCMD_DRAIN (spec R228) -/
  | scmdDrain (o : Order) (sc : Scope) (se : Bool) (a : Opnd) (b : Opnd) (c : Opnd)
  /-- SCMD_COPY (spec R228) -/
  | scmdCopy (o : Order) (sc : Scope) (se : Bool) (a : Opnd) (b : Opnd) (c : Opnd)
  /-- SCMD_MCAST (spec R232) -/
  | scmdMcast (o : Order) (sc : Scope) (se : Bool) (a : Opnd) (b : Opnd) (c : Opnd)
  /-- SCMD_RFILL (spec R244) -/
  | scmdRfill (o : Order) (sc : Scope) (se : Bool) (a : Opnd) (b : Opnd) (c : Opnd) (eos : Bool)
  /-- SCMD_RDRAIN (spec R244) -/
  | scmdRdrain (o : Order) (sc : Scope) (se : Bool) (a : Opnd) (b : Opnd) (c : Opnd) (eos : Bool)
  /-- SCMD_STAMP (spec R228) -/
  | scmdStamp (o : Order) (sc : Scope) (se : Bool) (a : Opnd) (c : Opnd)
  /-- SCMD_COLL (spec R433) -/
  | scmdColl (o : Order) (sc : Scope) (se : Bool) (a : Opnd) (b : Opnd) (c : Opnd)
  /-- MLOOP (spec R303) -/
  | mloop (o : Order) (sc : Scope) (sn : BitVec 2) (a : Opnd) (b : Opnd) (tile : BitVec 4)
  /-- MZERO (spec R308) -/
  | mzero (sn : BitVec 2) (pair : Bool) (b : Opnd) (tile : BitVec 4)
  /-- MLDT (spec R309) -/
  | mldt (o : Order) (sc : Scope) (sn : BitVec 2) (tr : Bool) (a : Opnd) (b : Opnd) (c : Opnd) (tile : BitVec 4)
  /-- MLDT_SCALE (spec R309) -/
  | mldtScale (o : Order) (sc : Scope) (sn : BitVec 2) (a : Opnd) (b : Opnd) (c : Opnd)
  /-- MSTT (spec R310) -/
  | mstt (o : Order) (sc : Scope) (sn : BitVec 2) (tr : Bool) (d : Opnd) (a : Opnd) (b : Opnd) (c : Opnd) (tile : BitVec 4)
  /-- MSTT_SCALE (spec R310) -/
  | msttScale (o : Order) (sc : Scope) (sn : BitVec 2) (a : Opnd) (b : Opnd) (c : Opnd)
  /-- MFENCE (spec R312) -/
  | mfence (b : Opnd) (k : BitVec 4)
  /-- MPRG (spec R313) -/
  | mprg (sn : BitVec 2) (d : Opnd) (b : Opnd)
  /-- MTAB (spec R319) -/
  | mtab (o : Order) (sc : Scope) (a : Opnd) (b : Opnd) (c : Opnd)
  /-- MRED (spec R322) -/
  | mred (g : Guards) (dbl : Bool) (d : Opnd) (a : Opnd) (b : Opnd)
  /-- MLIFT (spec R323) -/
  | mlift (g : Guards) (sgn : Bool) (d : Opnd) (a : Opnd)
  /-- NTTF (spec R325) -/
  | nttf (o : Order) (sc : Scope) (d : Opnd) (a : Opnd) (c : Opnd)
  /-- NTTI (spec R325) -/
  | ntti (o : Order) (sc : Scope) (d : Opnd) (a : Opnd) (c : Opnd)
  /-- AUTO (spec R332) -/
  | auto (o : Order) (sc : Scope) (se : Bool) (a : Opnd) (b : Opnd) (c : Opnd) (ntt : Bool)
  /-- CTCHK (spec R335) -/
  | ctchk (o : Order) (sc : Scope) (t : Bool) (d : Opnd) (a : Opnd) (b : Opnd) (pair : Bool)
  /-- CTRESC (spec R337) -/
  | ctresc (o : Order) (sc : Scope) (rnd : Bool) (a : Opnd)
  /-- CTLVL (spec R336) -/
  | ctlvl (o : Order) (sc : Scope) (d : Opnd) (a : Opnd)
  /-- HALLOC (spec R283) -/
  | halloc (z : Bool) (t : Bool) (d : Opnd) (a : Opnd) (pe : BitVec 3)
  /-- HFREE (spec R285) -/
  | hfree (a : Opnd)
  /-- HSTAT (spec R286) -/
  | hstat (d : Opnd) (a : Opnd)
  /-- MARK (spec R417) -/
  | mark (imm : BitVec 32)
  /-- SCRDL (spec R414) -/
  | scrdl (o : Order) (sc : Scope) (a : Opnd) (b : Opnd) (c : Opnd)
  /-- TIERQ (spec R418) -/
  | tierq (o : Order) (sc : Scope) (die : BitVec 2) (a : Opnd) (b : Opnd) (c : Opnd) (act : TierAct)
  /-- LAUNCH (spec R374) -/
  | launch (o : Order) (sc : Scope) (d : Opnd) (a : Opnd)
  /-- NREC (spec R387) -/
  | nrec (g : Guards) (o : Order) (sc : Scope) (d : Opnd) (a : Opnd) (b : Opnd)
  /-- NFLUSH (spec R389) -/
  | nflush (all : Bool) (a : Opnd) (b : Opnd)
  /-- GROW (spec R382) -/
  | grow (t : Bool) (a : Opnd) (pe : BitVec 3)
  /-- SHRINK (spec R384) -/
  | shrink (a : Opnd)
  /-- ENRD (spec R469) -/
  | enrd (d : Opnd) (a : Opnd)
  /-- TRAP (spec R349) -/
  | trap (code : BitVec 6) (a : Opnd)
  /-- RTE (spec R348) -/
  | rte
  /-- BKPT (spec R349) -/
  | bkpt (n : BitVec 4)
  /-- CSRD (spec R361) -/
  | csrd (d : Opnd) (b : Opnd)
  /-- CSWR (spec R361) -/
  | cswr (a : Opnd) (b : Opnd)
  /-- TLBINV_PAGE (spec R411) -/
  | tlbinvPage (a : Opnd) (b : Opnd)
  /-- TLBINV_CTX (spec R411) -/
  | tlbinvCtx (b : Opnd)
  /-- TLBINV_ALL (spec R411) -/
  | tlbinvAll
  /-- CMMT (spec R447) -/
  | cmmt
  /-- WKILL (spec R363) -/
  | wkill (a : Opnd)
  /-- PRMT_SAVE (spec R362) -/
  | prmtSave (d : Opnd) (a : Opnd)
  /-- PRMT_RESTORE (spec R362) -/
  | prmtRestore (d : Opnd) (a : Opnd)
  /-- COMPUTED_WORD (spec R213) -/
  | computedWord (wv : Nat)
  /-- LMULM_STEP (spec R274) -/
  | lmulmStep (onNtt : Bool) (n : Nat)
  /-- MONITOR_FIRE (spec R159) -/
  | monitorFire (wv : Nat)
  /-- MWAIT_BACK_OFF (spec R159) -/
  | mwaitBackOff (wv : Nat)
  /-- RING_POP (spec R242) -/
  | ringPop (wv : Nat)
  /-- RING_PUSH (spec R243) -/
  | ringPush (wv : Nat)
  /-- STREAM_BOX_STEP (spec R231) -/
  | streamBoxStep (c : Nat) (se : Bool)
  /-- STREAM_COMMAND_START (spec R230) -/
  | streamCommandStart (c : Nat) (se : Bool)
  /-- RFILL_UNIT_CLAIM (spec R244) -/
  | rfillUnitClaim (c : Nat) (se : Bool)
  /-- RDRAIN_UNIT_TAKE (spec R244) -/
  | rdrainUnitTake (c : Nat) (se : Bool)
  /-- MATRIX_ROW_STEP (spec R315) -/
  | matrixRowStep (c : Nat) (n : BitVec 2)
  /-- NTT_STEP (spec R330) -/
  | nttStep (q : Nat)
  /-- HEAP_COMMAND_APPLY (spec R280) -/
  | heapCommandApply (d : Nat)
  /-- CLAUSE_START (spec R51) -/
  | clauseStart (wv : Nat)
  /-- AGING_LIMIT (spec R54) -/
  | agingLimit (wv : Nat)
  /-- COUNTED_OPERATION_COMPLETE (spec R19) -/
  | countedOperationComplete (wv : Nat) (cls : Cls)
  /-- STORE_PERFORM (spec R169) -/
  | storePerform (wv : Nat)
  /-- BARRIER_PHASE_COMPLETION (spec R78) -/
  | barrierPhaseCompletion (sc : Scope) (owner : Nat) (unit : Nat) (id : BitVec 4)
  /-- LIVELOCK (spec R395) -/
  | livelock (wv : Nat)
  /-- WATCHDOG (spec R352) -/
  | watchdog (wv : Nat)
  /-- SINGLE_STEP (spec R350) -/
  | singleStep (wv : Nat)
  /-- EVENT_DELIVERY (spec R354) -/
  | eventDelivery (wv : Nat)
  /-- DEBUG_BREAK (spec R344) -/
  | debugBreak (wv : Nat) (v : BitVec 64)
  /-- PARK (spec R357) -/
  | park (wv : Nat)
  /-- PARTITION_SAVE (spec R357) -/
  | partitionSave (p : Nat)
  /-- PARTITION_RESTORE (spec R358) -/
  | partitionRestore (p : Nat) (migrate : List Nat)
  /-- PREEMPTION_TIMEOUT (spec R364) -/
  | preemptionTimeout (p : Nat)
  /-- COMMIT (spec R448) -/
  | commit (g : Nat)
  /-- UNCORRECTABLE_ERROR (spec R456) -/
  | uncorrectableError (place : ErrPlace)
  /-- HOST_QUEUE_DOORBELL (spec R368) -/
  | hostQueueDoorbell (p q : Nat)
  /-- HOST_LAUNCH (spec R372) -/
  | hostLaunch (p q : Nat)
  /-- ACTIVATE (spec R369) -/
  | activate (p q : Nat)
  /-- DEACTIVATE (spec R369) -/
  | deactivate (p q : Nat)
  /-- COMPLETION_RECORD_WRITE (spec R368) -/
  | completionRecordWrite (p q : Nat)
  /-- GROUP_ADMISSION (spec R377) -/
  | groupAdmission (d : Nat)
  /-- PASS_OVER_LIMIT (spec R377) -/
  | passOverLimit (d : Nat) (l : Nat)
  /-- GROW_GRANT (spec R382) -/
  | growGrant (c : Nat)
  /-- GROW_DEADLOCK_FAIL (spec R383) -/
  | growDeadlockFail (c : Nat)
  /-- BIN_TIMEOUT (spec R388) -/
  | binTimeout (l node bin : Nat)
  /-- LAUNCH_DRAIN (spec R390) -/
  | launchDrain (l : Nat)
  /-- FETCH (spec R407) -/
  | fetch (p ctx : Nat) (va : BitVec 64) (die : Nat) (pin : Bool)
  /-- EVICT (spec R408) -/
  | evict (p ctx : Nat) (va : BitVec 64)
  /-- SHOOTDOWN (spec R410) -/
  | shootdown (p : Nat)
  /-- FAULT_REPLAY (spec R405) -/
  | faultReplay (wv : Nat)
  /-- SCREED_ENTRY_END (spec R415) -/
  | screedEntryEnd (l k : Nat)
  /-- COLLECTIVE_INSTANCE_START (spec R435) -/
  | collectiveInstanceStart (l : Nat) (cid : BitVec 32) (k : Nat)
  /-- FLIT_RECEIVE (spec R425) -/
  | flitReceive (d p : Nat) (vc : BitVec 2) (quarters : List (Option (BitVec 512)))
  /-- a flit ahead of its turn, or again, by its number: FLIT_RECEIVE (spec R425) -/
  | flitArrive (d p : Nat) (vc : BitVec 2) (n : Nat) (quarters : List (Option (BitVec 512)))
  /-- a flit leaves a receiving buffer (spec R427) -/
  | flitTake (d p : Nat) (vc : BitVec 2)
  /-- a flit leaves on a channel (spec R425, R427) -/
  | flitSend (d p : Nat) (vc : BitVec 2) (flit : BitVec 2048)
  /-- flits are acknowledged (spec R425) -/
  | flitAck (d p : Nat) (vc : BitVec 2) (n : Nat)
  /-- a flit is asked for again (spec R425) -/
  | flitAsk (d p : Nat) (vc : BitVec 2) (n : Nat)
  /-- REPLAY_LIMIT (spec R426) -/
  | replayLimit (d p : Nat)
  /-- RAIL_LOSS (spec R426) -/
  | railLoss (d p : Nat) (rail : Nat)
  /-- TRAINING_END (spec R426) -/
  | trainingEnd (d p : Nat) (lost : BitVec 5) (peer : BitVec 8)
  /-- PAUSE (spec R427) -/
  | pause (d p : Nat) (vc : BitVec 2)
  /-- RESUME (spec R427) -/
  | resume (d p : Nat) (vc : BitVec 2)
  /-- RECOVERY_HOLD_EXPIRY (spec R432) -/
  | recoveryHoldExpiry (d : Nat) (rank : Nat)
  /-- BRIDGE_ERROR (spec R423) -/
  | bridgeError (a b : Nat)
  /-- POWER_ON (spec R458) -/
  | powerOn
  /-- BELLOWS_UPDATE (spec R467) -/
  | bellowsUpdate
  /-- THROTTLE (spec R471) -/
  | throttle (d : Nat) (t : BitVec 64)
  /-- THERMAL_HALT (spec R471) -/
  | thermalHalt (d : Nat) (t : BitVec 64)
  /-- FORM_PARTITIONS (spec R460) -/
  | formPartitions
  /-- REGISTER_HOST_QUEUE (spec R367) -/
  | registerHostQueue
  /-- UNREGISTER_HOST_QUEUE (spec R464) -/
  | unregisterHostQueue
  /-- SET_BELLOWS (spec R468) -/
  | setBellows
  /-- SET_PACKAGE_LIMIT (spec R472) -/
  | setPackageLimit
  /-- SET_FRAME_POOL (spec R406) -/
  | setFramePool
  /-- WRITE_ROUTE_TABLE (spec R429) -/
  | writeRouteTable
  /-- SET_POD_RANK (spec R398) -/
  | setPodRank
  /-- PRE_EMPT (spec R355) -/
  | preEmpt
  /-- RESTORE (spec R362) -/
  | restore
  /-- MOVE_IMAGE (spec R359) -/
  | moveImage
  /-- RESET_PARTITION (spec R364) -/
  | resetPartition
  /-- INVALIDATE_TRANSLATIONS (spec R411) -/
  | invalidateTranslations
  /-- ATTESTATION_REPORT (spec R459) -/
  | attestationReport
  /-- READ_ERROR_RECORDS (spec R464) -/
  | readErrorRecords
  /-- LOAD_FIRMWARE_IMAGE (spec R464) -/
  | loadFirmwareImage
  /-- POSITION_APERTURE (spec R461) -/
  | positionAperture
  /-- REGISTER_WRITE (spec R463) -/
  | registerWrite (off : BitVec 24) (v : BitVec 64)
  /-- a host read of a BAR0 register (spec R463) -/
  | registerRead (off : BitVec 24)
  /-- LOGICAL_CORE_CHANGE (spec R293) -/
  | logicalCoreChange (c : Nat)
  /-- APERTURE_ACCESS (spec R461) -/
  | apertureAccess (write : Bool) (off : BitVec 36) (bytes : List (BitVec 8))
  /-- TEMPERATURE_FALLS (spec R471) -/
  | temperatureFalls (d : Nat) (t : BitVec 64)
  /-- LOSS_OF_PACKAGE_POWER (spec R471) -/
  | lossOfPackagePower
  /-- BRING_PORT_UP (spec R426) -/
  | bringPortUp (d p : Nat)
  /-- FATAL_HOST_REQUEST (spec R364) -/
  | fatalHostRequest (p : Nat)
  /-- CONTROLLER_INTERNAL_ERROR (spec R364) -/
  | controllerInternalError (p : Nat)
deriving DecidableEq, Repr

end Sys2Proof
end

