-- ==== Sys2Proof/WellFormed.lean ====
section
/-! DEFINITION. Which instructions are well formed: the limits that an encoding puts on a field beyond its type
(spec/02 R43, R56, and each instruction's rule). A breach raises illegal-instruction trap 0x01, so the decoder refuses
the word; what raises 0x02 or 0x04 is the business of the meanings. -/

namespace Sys2Proof

/-- The 8-bit code of an operand (spec/02 R39). -/
def Opnd.code : Opnd → BitVec 8
  | .v n => 0#2 ++ n
  | .s n => 1#2 ++ n
  | .p n => 0b10000#5 ++ n
  | .rsvd n => 0b10001#5 ++ n
  | .q n => 0b1001#4 ++ n
  | .special n => 0b101#3 ++ n
  | .imm x => 3#2 ++ x

/-- The operand that an 8-bit code names (spec/02 R39). -/
def Opnd.ofCode (x : BitVec 8) : Opnd :=
  if x.extractLsb' 6 2 == 0#2 then .v (x.extractLsb' 0 6)
  else if x.extractLsb' 6 2 == 1#2 then .s (x.extractLsb' 0 6)
  else if x.extractLsb' 6 2 == 3#2 then .imm (x.extractLsb' 0 6)
  else if x.getLsbD 5 then .special (x.extractLsb' 0 5)
  else if x.getLsbD 4 then .q (x.extractLsb' 0 4)
  else if x.getLsbD 3 then .rsvd (x.extractLsb' 0 3)
  else .p (x.extractLsb' 0 3)

/-- A source that counts as a vector register: a V register or LANEID (spec/03 R122, spec/05 R179). -/
def Opnd.isV : Opnd → Bool
  | .v _ => true
  | .special n => n == 0#5
  | _ => false

/-- A queue register that can be a port, Q0 to Q7 (spec/03 R110). -/
def Opnd.isQ : Opnd → Bool
  | .q n => !n.getLsbD 3
  | _ => false

/-- A source by which `mov` copies lanes: a V register, LANEID, or a port (spec/03 R122, spec/06 R242). -/
def Opnd.isLaneSource (o : Opnd) : Bool := o.isV || o.isQ

/-- Ordering codes that loads accept (spec/04 R144). -/
def Order.isLoad (o : Order) : Bool := o == .rlx || o == .acq

/-- Ordering codes that stores accept (spec/04 R144). -/
def Order.isStore (o : Order) : Bool := o == .rlx || o == .rel

/-- Ordering codes that `fence` accepts (spec/04 R154). -/
def Order.isFence (o : Order) : Bool := o != .rlx

/-- Tags that `li`, `mov.tag`, `cvt` and `ldt` accept: all but limb and modq (spec/03 R122, R125, spec/04 R144). -/
def Tag.isPlain (t : Tag) : Bool := t != .limb && t != .modq

/-- Targets that `cvt` allows with `.sr` (spec/03 R125). -/
def Tag.isStochastic : Tag → Bool
  | .bf16x2 | .f16x2 | .e4m3x4 | .e5m2x4 | .mk8x4 | .e2m3x5 | .e3m2x5 | .e2m1x8 => true
  | _ => false

/-- Width codes that loads accept (spec/04 R140). -/
def Width.okLoad : Width → Bool
  | .uw | .ud => false
  | _ => true

/-- Width codes that stores accept (spec/04 R140). -/
def Width.okStore : Width → Bool
  | .b | .h | .w | .d | .q => true
  | _ => false

/-- `.w` and `.d`. -/
def Width.okWd : Width → Bool
  | .w | .d => true
  | _ => false

/-- The widths of `atom.min` and `atom.max` (spec/04 R147). -/
def Width.okMinmax : Width → Bool
  | .w | .d | .uw | .ud => true
  | _ => false

/-- The widths of `atom.exch` and `cas` (spec/04 R147). -/
def Width.okWdq : Width → Bool
  | .w | .d | .q => true
  | _ => false

/-- The width of `atom.fadd` (spec/04 R147). -/
def Width.okW : Width → Bool
  | .w => true
  | _ => false

/-- The widths of `aod`; `fadd` takes `.w` only (spec/04 R151). -/
def Width.okAod (w : Width) (op : AtomOp) : Bool :=
  match op with
  | .fadd => w == .w
  | _ => w.okMinmax

/-- Codes that `trap` raises (spec/11 R349). -/
def trapCodeOk (c : BitVec 6) : Bool := decide (1#6 ≤ c) && decide (c ≤ 0x1D#6)

/-- Field E of a lane-wise instruction that does not use E itself: zero, but for the predicate that a pop writes
(spec/02 R43, spec/06 R242, R243). -/
def portE (srcs : List Opnd) (e : BitVec 4) : Bool :=
  if srcs.any Opnd.isQ then !e.getLsbD 3 else e == 0#4

/-- An instruction whose fields hold only what its encoding defines (spec/02 R43, R56): what the decoder accepts. A step
of another agent has no encoding and is well formed as it stands. -/
def Instr.wellFormed : Instr → Bool
  | .nop _ => true
  | .bru _ => true
  | .brs _ _ _ => true
  | .jmps _ => true
  | .call _ _ => true
  | .calls _ _ => true
  | .ret _ => true
  | .wait _ _ _ _ => true
  | .yield => true
  | .bar _ _ => true
  | .bara _ _ => true
  | .barw _ _ => true
  | .exitw => true
  | .clkrd _ => true
  | .sadd _ _ _ _ => true
  | .ssub _ _ _ _ => true
  | .smul _ _ _ => true
  | .smulh _ _ _ _ => true
  | .sdiv _ _ _ _ => true
  | .srem _ _ _ _ => true
  | .sand _ _ _ => true
  | .sor _ _ _ => true
  | .sxor _ _ _ => true
  | .sshl _ _ _ => true
  | .sshr _ _ _ => true
  | .ssar _ _ _ => true
  | .smin _ _ _ _ => true
  | .smax _ _ _ _ => true
  | .scmp _ _ _ _ => true
  | .ssel _ _ _ _ => true
  | .smov _ _ => true
  | .sli _ _ => true
  | .slih _ _ => true
  | .spopc _ _ => true
  | .sclz _ _ => true
  | .sbfe _ _ _ _ _ => true
  | .sbfi _ _ _ _ => true
  | .srdsp _ _ _ => true
  | .swrsp _ _ _ => true
  | .add _ _ _ a b e => portE [a, b] e
  | .sub _ _ _ a b e => portE [a, b] e
  | .mul _ _ _ a b e => portE [a, b] e
  | .mad _ _ _ a b c e => portE [a, b, c] e
  | .min _ _ a b e => portE [a, b] e
  | .max _ _ a b e => portE [a, b] e
  | .neg _ _ _ a e => portE [a] e
  | .abs _ _ _ a e => portE [a] e
  | .cmp _ _ _ a b e => portE [a, b] e
  | .sel _ _ a b c e => portE [a, b, c] e
  | .dot _ _ _ a b c e => portE [a, b, c] e
  | .acs _ _ _ _ _ _ => true
  | .and _ _ a b e => portE [a, b] e
  | .or _ _ a b e => portE [a, b] e
  | .xor _ _ a b e => portE [a, b] e
  | .not _ _ a e => portE [a] e
  | .shl _ _ a b e => portE [a, b] e
  | .shr _ _ a b e => portE [a, b] e
  | .sar _ _ a b e => portE [a, b] e
  | .rot _ _ a b e => portE [a, b] e
  | .bfe _ _ _ a b c e => portE [a, b, c] e
  | .bfi _ _ a b c e => portE [a, b, c] e
  | .popc _ _ a e => portE [a] e
  | .clz _ _ a e => portE [a] e
  | .brev _ _ a e => portE [a] e
  | .mulhi _ _ a b e => portE [a, b] e
  | .cvt _ t sr _ _ _ => t.isPlain && (!sr || t.isStochastic)
  | .pack _ _ _ _ => true
  | .unpk _ _ _ _ => true
  | .rcp _ _ a e => portE [a] e
  | .rsq _ _ a e => portE [a] e
  | .sqrt _ _ a e => portE [a] e
  | .exp2 _ _ a e => portE [a] e
  | .log2 _ _ a e => portE [a] e
  | .sin _ _ a e => portE [a] e
  | .cos _ _ a e => portE [a] e
  | .rand _ _ => true
  | .tagset _ t _ a b => (t == .modq || b.code == 0#8) && !a.isQ
  | .tagsetPort _ t _ a b e => (t == .modq || b.code == 0#8) && a.isQ && portE [a] e
  | .tagget _ _ => true
  | .metard _ _ => true
  | .metawr _ _ => true
  | .mov _ _ a => a.isV
  | .movPort _ _ a e => a.isQ && portE [a] e
  | .movTag _ t _ a => t.isPlain && !a.isLaneSource
  | .li _ t _ _ => t.isPlain
  | .dbr _ _ _ => true
  | .join => true
  | .brk _ _ n => n != 0#4
  | .exitl _ => true
  | .vote _ _ _ _ => true
  | .shfl _ _ _ _ _ _ => true
  | .perm _ _ _ _ _ => true
  | .bcst _ _ _ _ _ => true
  | .scan _ _ _ _ _ => true
  | .regrp => true
  | .ungrp => true
  | .xeq _ _ _ => true
  | .maskrd _ _ _ => true
  | .maskwr _ _ _ => true
  | .deadrd _ => true
  | .blen _ _ _ => true
  | .bnorm _ _ _ => true
  | .bshl _ _ _ _ => true
  | .bshr _ _ _ _ => true
  | .bcmp _ _ _ _ _ => true
  | .bdivs _ _ _ _ _ => true
  | .cres _ _ _ _ _ => true
  | .bsplit _ _ _ => true
  | .bjoin _ _ _ _ => true
  | .baddc _ _ _ _ _ => true
  | .bsubc _ _ _ _ _ => true
  | .bmulw _ _ _ _ _ => true
  | .bmodw _ _ _ _ => true
  | .btom _ all _ _ _ c => (all || c.code == 0#8)
  | .lmulm _ _ _ _ _ _ => true
  | .bopm _ _ _ _ _ _ _ _ => true
  | .ld _ o _ _ _ _ _ wd => Order.isLoad o && wd.okLoad
  | .ldt _ o _ _ _ _ _ t => Order.isLoad o && t.isPlain
  | .st _ o _ _ _ _ _ wd => Order.isStore o && wd.okStore
  | .lds _ o _ _ _ _ wd => Order.isLoad o && wd.okLoad
  | .sts _ o _ _ _ _ wd => Order.isStore o && wd.okStore
  | .ldb _ o _ _ _ _ _ _ => Order.isLoad o
  | .stb _ o _ _ _ _ _ => Order.isStore o
  | .atomAdd _ _ _ _ _ _ _ _ wd => wd.okWd
  | .atomMin _ _ _ _ _ _ _ _ wd => wd.okMinmax
  | .atomMax _ _ _ _ _ _ _ _ wd => wd.okMinmax
  | .atomAnd _ _ _ _ _ _ _ _ wd => wd.okWd
  | .atomOr _ _ _ _ _ _ _ _ wd => wd.okWd
  | .atomXor _ _ _ _ _ _ _ _ wd => wd.okWd
  | .atomExch _ _ _ _ _ _ _ _ wd => wd.okWdq
  | .atomFadd _ _ _ _ _ _ _ _ wd => wd.okW
  | .cas _ _ _ _ _ _ _ _ wd => wd.okWdq
  | .aod _ _ op _ _ _ _ wd => wd.okAod op
  | .fence o _ => Order.isFence o
  | .mwait o _ _ _ _ _ stamp dbl _ => Order.isLoad o && (!stamp || dbl)
  | .prf _ _ _ _ _ => true
  | .l1inv => true
  | .ringdef _ _ _ _ _ => true
  | .ringclrDrop _ => true
  | .ringclrStop _ => true
  | .qbind _ _ _ => true
  | .qbindUn _ => true
  | .qpeek _ _ _ _ => true
  | .qeos _ _ => true
  | .qstat _ _ => true
  | .slay o _ _ _ _ _ => Order.isLoad o
  | .scmdFill _ _ _ _ _ _ => true
  | .scmdDrain _ _ _ _ _ _ => true
  | .scmdCopy _ _ _ _ _ _ => true
  | .scmdMcast _ _ _ _ _ _ => true
  | .scmdRfill _ _ _ _ _ _ _ => true
  | .scmdRdrain _ _ _ _ _ _ _ => true
  | .scmdStamp _ _ _ _ _ => true
  | .scmdColl _ _ _ _ _ _ => true
  | .mloop _ _ _ _ _ _ => true
  | .mzero _ _ _ _ => true
  | .mldt _ _ _ _ _ _ _ tile => tile != 8#4
  | .mldtScale _ _ _ _ _ _ => true
  | .mstt _ _ _ _ _ _ _ _ tile => tile != 8#4
  | .msttScale _ _ _ _ _ _ => true
  | .mfence _ k => k != 0#4
  | .mprg _ _ _ => true
  | .mtab o _ _ _ _ => Order.isLoad o
  | .mred _ _ _ _ _ => true
  | .mlift _ _ _ _ => true
  | .nttf _ _ _ _ _ => true
  | .ntti _ _ _ _ _ => true
  | .auto _ _ _ _ _ _ _ => true
  | .ctchk o _ _ _ _ b pair => Order.isLoad o && (pair || b.code == 0#8)
  | .ctresc _ _ _ _ => true
  | .ctlvl o _ _ _ => Order.isLoad o
  | .halloc _ t _ _ pe => (!t || pe == 0#3)
  | .hfree _ => true
  | .hstat _ _ => true
  | .mark _ => true
  | .scrdl o _ _ _ _ => Order.isLoad o
  | .tierq _ _ _ _ _ _ _ => true
  | .launch o _ _ _ => Order.isLoad o
  | .nrec _ o _ _ _ _ => Order.isStore o
  | .nflush all _ b => (!all || b.code == 0#8)
  | .grow t _ pe => (!t || pe == 0#3)
  | .shrink _ => true
  | .enrd _ _ => true
  | .trap code _ => trapCodeOk code
  | .rte => true
  | .bkpt _ => true
  | .csrd _ _ => true
  | .cswr _ _ => true
  | .tlbinvPage _ _ => true
  | .tlbinvCtx _ => true
  | .tlbinvAll => true
  | .cmmt => true
  | .wkill _ => true
  | .prmtSave _ _ => true
  | .prmtRestore _ _ => true
  | .computedWord _ => true
  | .lmulmStep _ _ => true
  | .monitorFire _ => true
  | .mwaitBackOff _ => true
  | .ringPop _ => true
  | .ringPush _ => true
  | .streamBoxStep _ _ => true
  | .streamCommandStart _ _ => true
  | .rfillUnitClaim _ _ => true
  | .rdrainUnitTake _ _ => true
  | .matrixRowStep _ _ => true
  | .nttStep _ => true
  | .heapCommandApply _ => true
  | .clauseStart _ => true
  | .agingLimit _ => true
  | .countedOperationComplete _ _ => true
  | .storePerform _ => true
  | .barrierPhaseCompletion _ _ _ _ => true
  | .livelock _ => true
  | .watchdog _ => true
  | .singleStep _ => true
  | .eventDelivery _ => true
  | .debugBreak _ _ => true
  | .park _ => true
  | .partitionSave _ => true
  | .partitionRestore _ _ => true
  | .preemptionTimeout _ => true
  | .commit _ => true
  | .uncorrectableError _ => true
  | .hostQueueDoorbell _ _ => true
  | .hostLaunch _ _ => true
  | .activate _ _ => true
  | .deactivate _ _ => true
  | .completionRecordWrite _ _ => true
  | .groupAdmission _ => true
  | .passOverLimit _ _ => true
  | .growGrant _ => true
  | .growDeadlockFail _ => true
  | .binTimeout _ _ _ => true
  | .launchDrain _ => true
  | .fetch _ _ _ _ _ => true
  | .evict _ _ _ => true
  | .shootdown _ => true
  | .faultReplay _ => true
  | .screedEntryEnd _ _ => true
  | .collectiveInstanceStart _ _ _ => true
  | .flitReceive _ _ _ _ => true
  | .flitArrive _ _ _ _ _ => true
  | .flitTake _ _ _ => true
  | .flitSend _ _ _ _ => true
  | .flitAck _ _ _ _ => true
  | .flitAsk _ _ _ _ => true
  | .replayLimit _ _ => true
  | .railLoss _ _ _ => true
  | .trainingEnd _ _ _ _ => true
  | .pause _ _ _ => true
  | .resume _ _ _ => true
  | .recoveryHoldExpiry _ _ => true
  | .bridgeError _ _ => true
  | .powerOn => true
  | .bellowsUpdate => true
  | .throttle _ _ => true
  | .thermalHalt _ _ => true
  | .formPartitions => true
  | .registerHostQueue => true
  | .unregisterHostQueue => true
  | .setBellows => true
  | .setPackageLimit => true
  | .setFramePool => true
  | .writeRouteTable => true
  | .setPodRank => true
  | .preEmpt => true
  | .restore => true
  | .moveImage => true
  | .resetPartition => true
  | .invalidateTranslations => true
  | .attestationReport => true
  | .readErrorRecords => true
  | .loadFirmwareImage => true
  | .positionAperture => true
  | .registerWrite _ _ => true
  | .logicalCoreChange _ => true
  | .registerRead _ => true
  | .apertureAccess _ _ _ => true
  | .temperatureFalls _ _ => true
  | .lossOfPackagePower => true
  | .bringPortUp _ _ => true
  | .fatalHostRequest _ => true
  | .controllerInternalError _ => true

end Sys2Proof
end

