-- ==== Sys2Proof/Decode.lean ====
section
/-! DEFINITION. The decoder, total on every 64-bit word, the encoder written from the same tables, and clause headers
(spec/02 R37, R43, R45, R47, R56, R60). -/

namespace Sys2Proof

/-- Why a word is no instruction. All but `headerWord` raise illegal-instruction trap 0x01; `headerWord` raises
illegal-clause trap 0x03 (spec/02 R56). -/
inductive Reject where
  /-- class 12, 13 or 14, or class 15 without 0xFC in bits [63:56] -/
  | badClass
  /-- an operation code that the class's map leaves unassigned -/
  | unassigned
  /-- a guard field other than 0b0111 on an instruction that takes no guard -/
  | badGuard
  /-- a field that the instruction does not use and that is not zero -/
  | unusedField
  /-- a modifier value that the instruction does not define -/
  | badModifier
  /-- 0xFC in bits [63:56]: a clause header where an instruction word is due -/
  | headerWord
deriving DecidableEq, Repr

/-- The fields of an instruction word (spec/02 R37), but for SC, which is a hint (R44). -/
structure Fields where
  op : BitVec 10
  ga : BitVec 4 := 7#4
  gb : BitVec 4 := 7#4
  d : BitVec 8 := 0#8
  a : BitVec 8 := 0#8
  b : BitVec 8 := 0#8
  c : BitVec 8 := 0#8
  e : BitVec 4 := 0#4
  m : BitVec 8 := 0#8
deriving DecidableEq, Repr

/-- The fields of a word. -/
def Fields.ofWord (w : Word) : Fields where
  op := w.extractLsb' 54 10
  ga := w.extractLsb' 50 4
  gb := w.extractLsb' 46 4
  d := w.extractLsb' 38 8
  a := w.extractLsb' 30 8
  b := w.extractLsb' 22 8
  c := w.extractLsb' 14 8
  e := w.extractLsb' 10 4
  m := w.extractLsb' 2 8

/-- The word with these fields and scheduling bits. -/
def Fields.toWord (f : Fields) (sc : BitVec 2) : Word :=
  f.op ++ f.ga ++ f.gb ++ f.d ++ f.a ++ f.b ++ f.c ++ f.e ++ f.m ++ sc

/-- The operation within the class. -/
def Fields.operation (f : Fields) : Nat := (f.op.extractLsb' 0 6).toNat

/-- The class. -/
def Fields.cls (f : Fields) : Nat := (f.op.extractLsb' 6 4).toNat

/-- The 32-bit immediate of an I-form word, word bits [37:6] (spec/02 R45). -/
def Fields.imm (f : Fields) : BitVec 32 := f.a ++ f.b ++ f.c ++ f.e ++ f.m.extractLsb' 4 4

/-- An I-form word's fields. -/
def Fields.iForm (op : BitVec 10) (ga gb : BitVec 4) (d : BitVec 8) (imm : BitVec 32) (md : BitVec 4) : Fields where
  op := op
  ga := ga
  gb := gb
  d := d
  a := imm.extractLsb' 24 8
  b := imm.extractLsb' 16 8
  c := imm.extractLsb' 8 8
  e := imm.extractLsb' 4 4
  m := imm.extractLsb' 0 4 ++ md

/-- A guard's 4-bit code. -/
def Guard.code (g : Guard) : BitVec 4 := BitVec.ofBool g.neg ++ g.p

/-- The guard of a 4-bit code. -/
def Guard.ofCode (x : BitVec 4) : Guard := ⟨x.getLsbD 3, x.extractLsb' 0 3⟩

/-- The guards of a word. -/
def Fields.guards (f : Fields) : Guards := ⟨Guard.ofCode f.ga, Guard.ofCode f.gb⟩

/-- Both guards "always" (0b0111). -/
def Guards.always : Guards := ⟨⟨false, 7#3⟩, ⟨false, 7#3⟩⟩

def Scope.code : Scope → BitVec 3
  | .wave => 0#3
  | .core => 1#3
  | .quad => 2#3
  | .die => 3#3
  | .pkg => 4#3
  | .pod => 5#3
  | .sys => 6#3

def Scope.ofCode (x : BitVec 3) : Option Scope :=
  if x == 0#3 then some .wave else if x == 1#3 then some .core else if x == 2#3 then some .quad
  else if x == 3#3 then some .die else if x == 4#3 then some .pkg else if x == 5#3 then some .pod
  else if x == 6#3 then some .sys else none

def Order.code : Order → BitVec 2
  | .rlx => 0#2
  | .acq => 1#2
  | .rel => 2#2
  | .ar => 3#2

def Order.ofCode (x : BitVec 2) : Order :=
  if x == 0#2 then .rlx else if x == 1#2 then .acq else if x == 2#2 then .rel else .ar

def Width.code : Width → BitVec 4
  | .b => 0#4
  | .sb => 1#4
  | .h => 2#4
  | .sh => 3#4
  | .w => 4#4
  | .d => 5#4
  | .q => 6#4
  | .uw => 12#4
  | .ud => 13#4

def Width.ofCode (x : BitVec 4) : Option Width :=
  if x == 0#4 then some .b else if x == 1#4 then some .sb else if x == 2#4 then some .h
  else if x == 3#4 then some .sh else if x == 4#4 then some .w else if x == 5#4 then some .d
  else if x == 6#4 then some .q else if x == 12#4 then some .uw else if x == 13#4 then some .ud else none

def Tag.code : Tag → BitVec 4
  | .i32 => 0#4
  | .u32 => 1#4
  | .f32 => 2#4
  | .bf16x2 => 3#4
  | .f16x2 => 4#4
  | .i16x2 => 5#4
  | .e4m3x4 => 6#4
  | .e5m2x4 => 7#4
  | .mk8x4 => 8#4
  | .i8x4 => 9#4
  | .e2m3x5 => 10#4
  | .e3m2x5 => 11#4
  | .e2m1x8 => 12#4
  | .limb => 13#4
  | .modq => 14#4
  | .raw => 15#4

def Tag.ofCode (x : BitVec 4) : Tag :=
  if x == 0#4 then .i32 else if x == 1#4 then .u32 else if x == 2#4 then .f32 else if x == 3#4 then .bf16x2
  else if x == 4#4 then .f16x2 else if x == 5#4 then .i16x2 else if x == 6#4 then .e4m3x4
  else if x == 7#4 then .e5m2x4 else if x == 8#4 then .mk8x4 else if x == 9#4 then .i8x4
  else if x == 10#4 then .e2m3x5 else if x == 11#4 then .e3m2x5 else if x == 12#4 then .e2m1x8
  else if x == 13#4 then .limb else if x == 14#4 then .modq else .raw

def BrCond.code : BrCond → BitVec 4
  | .eq0 => 0#4
  | .ne0 => 1#4
  | .lt0 => 2#4
  | .ge0 => 3#4

def BrCond.ofCode (x : BitVec 4) : Option BrCond :=
  if x == 0#4 then some .eq0 else if x == 1#4 then some .ne0 else if x == 2#4 then some .lt0
  else if x == 3#4 then some .ge0 else none

def SCond.code : SCond → BitVec 8
  | .eq => 0#8
  | .ne => 1#8
  | .lt => 2#8
  | .le => 3#8
  | .gt => 4#8
  | .ge => 5#8
  | .ltu => 6#8
  | .leu => 7#8
  | .gtu => 8#8
  | .geu => 9#8

def SCond.ofCode (x : BitVec 8) : Option SCond :=
  if x == 0#8 then some .eq else if x == 1#8 then some .ne else if x == 2#8 then some .lt
  else if x == 3#8 then some .le else if x == 4#8 then some .gt else if x == 5#8 then some .ge
  else if x == 6#8 then some .ltu else if x == 7#8 then some .leu else if x == 8#8 then some .gtu
  else if x == 9#8 then some .geu else none

def VCond.code : VCond → BitVec 8
  | .eq => 0#8
  | .ne => 1#8
  | .lt => 2#8
  | .le => 3#8
  | .gt => 4#8
  | .ge => 5#8
  | .un => 6#8

def VCond.ofCode (x : BitVec 8) : Option VCond :=
  if x == 0#8 then some .eq else if x == 1#8 then some .ne else if x == 2#8 then some .lt
  else if x == 3#8 then some .le else if x == 4#8 then some .gt else if x == 5#8 then some .ge
  else if x == 6#8 then some .un else none

def VoteMode.code : VoteMode → BitVec 8
  | .any => 0#8
  | .all => 1#8
  | .ballot => 2#8

def VoteMode.ofCode (x : BitVec 8) : Option VoteMode :=
  if x == 0#8 then some .any else if x == 1#8 then some .all else if x == 2#8 then some .ballot else none

def ShflMode.code : ShflMode → BitVec 8
  | .idx => 0#8
  | .up => 1#8
  | .down => 2#8
  | .xor => 3#8

def ShflMode.ofCode (x : BitVec 8) : Option ShflMode :=
  if x == 0#8 then some .idx else if x == 1#8 then some .up else if x == 2#8 then some .down
  else if x == 3#8 then some .xor else none

def ScanOp.code : ScanOp → BitVec 3
  | .add => 0#3
  | .min => 1#3
  | .max => 2#3
  | .and => 3#3
  | .or => 4#3
  | .xor => 5#3

def ScanOp.ofCode (x : BitVec 3) : Option ScanOp :=
  if x == 0#3 then some .add else if x == 1#3 then some .min else if x == 2#3 then some .max
  else if x == 3#3 then some .and else if x == 4#3 then some .or else if x == 5#3 then some .xor else none

def AtomOp.code : AtomOp → BitVec 3
  | .add => 0#3
  | .min => 1#3
  | .max => 2#3
  | .and => 3#3
  | .or => 4#3
  | .xor => 5#3
  | .exch => 6#3
  | .fadd => 7#3

def AtomOp.ofCode (x : BitVec 3) : AtomOp :=
  if x == 0#3 then .add else if x == 1#3 then .min else if x == 2#3 then .max else if x == 3#3 then .and
  else if x == 4#3 then .or else if x == 5#3 then .xor else if x == 6#3 then .exch else .fadd

def WaitCond.code : WaitCond → BitVec 2
  | .eq => 0#2
  | .ne => 1#2
  | .geu => 2#2

def WaitCond.ofCode (x : BitVec 2) : Option WaitCond :=
  if x == 0#2 then some .eq else if x == 1#2 then some .ne else if x == 2#2 then some .geu else none

def TierAct.code : TierAct → BitVec 4
  | .fetch => 1#4
  | .evict => 2#4
  | .l2pf => 3#4
  | .pin => 4#4
  | .unpin => 5#4

def TierAct.ofCode (x : BitVec 4) : Option TierAct :=
  if x == 1#4 then some .fetch else if x == 2#4 then some .evict else if x == 3#4 then some .l2pf
  else if x == 4#4 then some .pin else if x == 5#4 then some .unpin else none

/-- A condition that the encoding demands. -/
def must (ok : Bool) (r : Reject) : Except Reject Unit := if ok then .ok () else .error r

/-- A field value that has a name, or an undefined modifier value. -/
def named {α : Type} : Option α → Except Reject α
  | some x => .ok x
  | none => .error .badModifier

/-- The instruction takes no guard (spec/02 R38). -/
def noGuards (f : Fields) : Except Reject Unit := must (f.ga == 7#4 && f.gb == 7#4) .badGuard

/-- An operand field that the instruction does not use. -/
def unused (x : BitVec 8) : Except Reject Unit := must (x == 0#8) .unusedField

/-- Field E unused. -/
def unused4 (x : BitVec 4) : Except Reject Unit := must (x == 0#4) .unusedField

/-- Field M unused. -/
def modZero (f : Fields) : Except Reject Unit := must (f.m == 0#8) .badModifier

/-- M holds one flag in bit 0. -/
def modFlag (f : Fields) : Except Reject Bool :=
  if f.m.extractLsb' 1 7 == 0#7 then .ok (f.m.getLsbD 0) else .error .badModifier

/-- M holds a tag in [3:0]. -/
def modTag (f : Fields) : Except Reject Tag :=
  if f.m.extractLsb' 4 4 == 0#4 then .ok (Tag.ofCode (f.m.extractLsb' 0 4)) else .error .badModifier

/-- M of `cvt`: tag in [3:0], `.sr` in bit 4 (spec/03 R125). -/
def modCvt (f : Fields) : Except Reject (Tag × Bool) :=
  if f.m.extractLsb' 5 3 == 0#3 then .ok (Tag.ofCode (f.m.extractLsb' 0 4), f.m.getLsbD 4) else .error .badModifier

/-- M of a barrier: the scope in [5:3], the rest zero (spec/02 R43, R77). -/
def modScope (f : Fields) : Except Reject Scope :=
  if f.m.extractLsb' 6 2 == 0#2 && f.m.extractLsb' 0 3 == 0#3 then named (Scope.ofCode (f.m.extractLsb' 3 3))
  else .error .badModifier

/-- M of memory and engine instructions: ordering in [7:6], scope in [5:3], three low bits (spec/02 R43). -/
def modOS (f : Fields) : Except Reject (Order × Scope × BitVec 3) :=
  match Scope.ofCode (f.m.extractLsb' 3 3) with
  | some sc => .ok (Order.ofCode (f.m.extractLsb' 6 2), sc, f.m.extractLsb' 0 3)
  | none => .error .badModifier

/-- Low bits that hold one flag. -/
def lowFlag (low : BitVec 3) : Except Reject Bool :=
  if low.extractLsb' 1 2 == 0#2 then .ok (low.getLsbD 0) else .error .badModifier

/-- The matrix stream in M[2:1] (spec/09 R297). -/
def lowStream (low : BitVec 3) : BitVec 2 := low.extractLsb' 1 2

/-- E holds one flag in bit 0. -/
def lowFlag4 (e : BitVec 4) : Except Reject Bool :=
  if e.extractLsb' 1 3 == 0#3 then .ok (e.getLsbD 0) else .error .badModifier

/-- E holds a predicate with E[3] = 0. -/
def lowPred (e : BitVec 4) : Except Reject (BitVec 3) :=
  if e.getLsbD 3 then .error .badModifier else .ok (e.extractLsb' 0 3)

/-- E of `mwait` (spec/04 R157). -/
def mwaitE (e : BitVec 4) : Except Reject (Bool × Bool × WaitCond) :=
  match WaitCond.ofCode (e.extractLsb' 0 2) with
  | some cc => if e.getLsbD 3 && !e.getLsbD 2 then .error .badModifier else .ok (e.getLsbD 3, e.getLsbD 2, cc)
  | none => .error .badModifier

def encFlag (b : Bool) : BitVec 8 := 0#7 ++ BitVec.ofBool b
def encFlag4 (b : Bool) : BitVec 4 := 0#3 ++ BitVec.ofBool b
def encLow (b : Bool) : BitVec 3 := 0#2 ++ BitVec.ofBool b
def encTag (t : Tag) : BitVec 8 := 0#4 ++ t.code
def encCvt (t : Tag) (sr : Bool) : BitVec 8 := 0#3 ++ BitVec.ofBool sr ++ t.code
def encScope (sc : Scope) : BitVec 8 := 0#2 ++ sc.code ++ 0#3
def encOS (o : Order) (sc : Scope) (low : BitVec 3) : BitVec 8 := o.code ++ sc.code ++ low
def encStream (sn : BitVec 2) (b : Bool) : BitVec 3 := sn ++ BitVec.ofBool b
def encHalloc (z t : Bool) : BitVec 8 := 0#5 ++ BitVec.ofBool z ++ 0#1 ++ BitVec.ofBool t
def encScan (op : ScanOp) (excl : Bool) : BitVec 8 := 0#4 ++ BitVec.ofBool excl ++ op.code
def encMwaitE (st dbl : Bool) (cc : WaitCond) : BitVec 4 := BitVec.ofBool st ++ BitVec.ofBool dbl ++ cc.code
def encKind (k : BitVec 4) (eos : Bool) : BitVec 4 := BitVec.ofBool eos ++ k.extractLsb' 0 3

/-- Field A names a vector register or LANEID: what tells `mov` from `mov.tag` (spec/03 R122, spec/05 R179). -/
def isVField (x : BitVec 8) : Bool := x.extractLsb' 6 2 == 0#2 || x == 0xA0#8

/-- Field A names a port: a `mov` or `tagset` that pops (spec/06 R242). -/
def isQField (x : BitVec 8) : Bool := x.extractLsb' 3 5 == 0x12#5

/-- The instructions of class 0 (spec/02 R60). -/
def decodeClass0 (f : Fields) : Except Reject Instr :=
  match f.operation with
  | 0x00 => do
    noGuards f
    modZero f
    unused f.d
    unused f.a
    unused f.b
    unused f.c
    let n := f.e
    pure (.nop n)
  | 0x01 => do
    noGuards f
    must (f.m.extractLsb' 0 4 == 0#4) .badModifier
    unused f.d
    let imm := f.imm
    pure (.bru imm)
  | 0x02 => do
    noGuards f
    let cc ← named (BrCond.ofCode (f.m.extractLsb' 0 4))
    let n := Opnd.ofCode f.d
    let imm := f.imm
    pure (.brs cc n imm)
  | 0x03 => do
    noGuards f
    modZero f
    unused f.d
    let a := Opnd.ofCode f.a
    unused f.b
    unused f.c
    unused4 f.e
    pure (.jmps a)
  | 0x04 => do
    noGuards f
    must (f.m.extractLsb' 0 4 == 0#4) .badModifier
    let d := Opnd.ofCode f.d
    let imm := f.imm
    pure (.call d imm)
  | 0x05 => do
    noGuards f
    modZero f
    let d := Opnd.ofCode f.d
    let a := Opnd.ofCode f.a
    unused f.b
    unused f.c
    unused4 f.e
    pure (.calls d a)
  | 0x06 => do
    noGuards f
    modZero f
    unused f.d
    let a := Opnd.ofCode f.a
    unused f.b
    unused f.c
    unused4 f.e
    pure (.ret a)
  | 0x07 => do
    noGuards f
    must (f.m.extractLsb' 0 4 == 0#4) .badModifier
    unused f.d
    must (f.imm.extractLsb' 24 8 == 0#8) .unusedField
    let nld := f.imm.extractLsb' 18 6
    let nst := f.imm.extractLsb' 12 6
    let ncp := f.imm.extractLsb' 6 6
    let ntl := f.imm.extractLsb' 0 6
    pure (.wait nld nst ncp ntl)
  | 0x08 => do
    noGuards f
    modZero f
    unused f.d
    unused f.a
    unused f.b
    unused f.c
    unused4 f.e
    pure (.yield)
  | 0x09 => do
    noGuards f
    let sc ← modScope f
    unused f.d
    unused f.a
    unused f.b
    unused f.c
    let id := f.e
    pure (.bar sc id)
  | 0x0A => do
    noGuards f
    let sc ← modScope f
    unused f.d
    unused f.a
    unused f.b
    unused f.c
    let id := f.e
    pure (.bara sc id)
  | 0x0B => do
    noGuards f
    let sc ← modScope f
    unused f.d
    unused f.a
    unused f.b
    unused f.c
    let id := f.e
    pure (.barw sc id)
  | 0x0C => do
    noGuards f
    modZero f
    unused f.d
    unused f.a
    unused f.b
    unused f.c
    unused4 f.e
    pure (.exitw)
  | 0x0D => do
    noGuards f
    modZero f
    let d := Opnd.ofCode f.d
    unused f.a
    unused f.b
    unused f.c
    unused4 f.e
    pure (.clkrd d)
  | _ => .error .unassigned

/-- The instructions of class 1 (spec/02 R60). -/
def decodeClass1 (f : Fields) : Except Reject Instr :=
  match f.operation with
  | 0x00 => do
    noGuards f
    let cin ← modFlag f
    let d := Opnd.ofCode f.d
    let a := Opnd.ofCode f.a
    let b := Opnd.ofCode f.b
    unused f.c
    unused4 f.e
    pure (.sadd cin d a b)
  | 0x01 => do
    noGuards f
    let cin ← modFlag f
    let d := Opnd.ofCode f.d
    let a := Opnd.ofCode f.a
    let b := Opnd.ofCode f.b
    unused f.c
    unused4 f.e
    pure (.ssub cin d a b)
  | 0x02 => do
    noGuards f
    modZero f
    let d := Opnd.ofCode f.d
    let a := Opnd.ofCode f.a
    let b := Opnd.ofCode f.b
    unused f.c
    unused4 f.e
    pure (.smul d a b)
  | 0x03 => do
    noGuards f
    let u ← modFlag f
    let d := Opnd.ofCode f.d
    let a := Opnd.ofCode f.a
    let b := Opnd.ofCode f.b
    unused f.c
    unused4 f.e
    pure (.smulh u d a b)
  | 0x04 => do
    noGuards f
    let u ← modFlag f
    let d := Opnd.ofCode f.d
    let a := Opnd.ofCode f.a
    let b := Opnd.ofCode f.b
    unused f.c
    unused4 f.e
    pure (.sdiv u d a b)
  | 0x05 => do
    noGuards f
    let u ← modFlag f
    let d := Opnd.ofCode f.d
    let a := Opnd.ofCode f.a
    let b := Opnd.ofCode f.b
    unused f.c
    unused4 f.e
    pure (.srem u d a b)
  | 0x06 => do
    noGuards f
    modZero f
    let d := Opnd.ofCode f.d
    let a := Opnd.ofCode f.a
    let b := Opnd.ofCode f.b
    unused f.c
    unused4 f.e
    pure (.sand d a b)
  | 0x07 => do
    noGuards f
    modZero f
    let d := Opnd.ofCode f.d
    let a := Opnd.ofCode f.a
    let b := Opnd.ofCode f.b
    unused f.c
    unused4 f.e
    pure (.sor d a b)
  | 0x08 => do
    noGuards f
    modZero f
    let d := Opnd.ofCode f.d
    let a := Opnd.ofCode f.a
    let b := Opnd.ofCode f.b
    unused f.c
    unused4 f.e
    pure (.sxor d a b)
  | 0x09 => do
    noGuards f
    modZero f
    let d := Opnd.ofCode f.d
    let a := Opnd.ofCode f.a
    let b := Opnd.ofCode f.b
    unused f.c
    unused4 f.e
    pure (.sshl d a b)
  | 0x0A => do
    noGuards f
    modZero f
    let d := Opnd.ofCode f.d
    let a := Opnd.ofCode f.a
    let b := Opnd.ofCode f.b
    unused f.c
    unused4 f.e
    pure (.sshr d a b)
  | 0x0B => do
    noGuards f
    modZero f
    let d := Opnd.ofCode f.d
    let a := Opnd.ofCode f.a
    let b := Opnd.ofCode f.b
    unused f.c
    unused4 f.e
    pure (.ssar d a b)
  | 0x0C => do
    noGuards f
    let u ← modFlag f
    let d := Opnd.ofCode f.d
    let a := Opnd.ofCode f.a
    let b := Opnd.ofCode f.b
    unused f.c
    unused4 f.e
    pure (.smin u d a b)
  | 0x0D => do
    noGuards f
    let u ← modFlag f
    let d := Opnd.ofCode f.d
    let a := Opnd.ofCode f.a
    let b := Opnd.ofCode f.b
    unused f.c
    unused4 f.e
    pure (.smax u d a b)
  | 0x0E => do
    noGuards f
    let cc ← named (SCond.ofCode f.m)
    let d := Opnd.ofCode f.d
    let a := Opnd.ofCode f.a
    let b := Opnd.ofCode f.b
    unused f.c
    unused4 f.e
    pure (.scmp cc d a b)
  | 0x0F => do
    noGuards f
    modZero f
    let d := Opnd.ofCode f.d
    let a := Opnd.ofCode f.a
    let b := Opnd.ofCode f.b
    let c := Opnd.ofCode f.c
    unused4 f.e
    pure (.ssel d a b c)
  | 0x10 => do
    noGuards f
    modZero f
    let d := Opnd.ofCode f.d
    let a := Opnd.ofCode f.a
    unused f.b
    unused f.c
    unused4 f.e
    pure (.smov d a)
  | 0x11 => do
    noGuards f
    must (f.m.extractLsb' 0 4 == 0#4) .badModifier
    let d := Opnd.ofCode f.d
    let imm := f.imm
    pure (.sli d imm)
  | 0x12 => do
    noGuards f
    must (f.m.extractLsb' 0 4 == 0#4) .badModifier
    let d := Opnd.ofCode f.d
    let imm := f.imm
    pure (.slih d imm)
  | 0x13 => do
    noGuards f
    modZero f
    let d := Opnd.ofCode f.d
    let a := Opnd.ofCode f.a
    unused f.b
    unused f.c
    unused4 f.e
    pure (.spopc d a)
  | 0x14 => do
    noGuards f
    modZero f
    let d := Opnd.ofCode f.d
    let a := Opnd.ofCode f.a
    unused f.b
    unused f.c
    unused4 f.e
    pure (.sclz d a)
  | 0x15 => do
    noGuards f
    let sgn ← modFlag f
    let d := Opnd.ofCode f.d
    let a := Opnd.ofCode f.a
    let b := Opnd.ofCode f.b
    let c := Opnd.ofCode f.c
    unused4 f.e
    pure (.sbfe sgn d a b c)
  | 0x16 => do
    noGuards f
    modZero f
    let d := Opnd.ofCode f.d
    let a := Opnd.ofCode f.a
    let b := Opnd.ofCode f.b
    let c := Opnd.ofCode f.c
    unused4 f.e
    pure (.sbfi d a b c)
  | 0x17 => do
    noGuards f
    modZero f
    let d := Opnd.ofCode f.d
    let a := Opnd.ofCode f.a
    let b := Opnd.ofCode f.b
    unused f.c
    unused4 f.e
    pure (.srdsp d a b)
  | 0x18 => do
    noGuards f
    modZero f
    unused f.d
    let a := Opnd.ofCode f.a
    let b := Opnd.ofCode f.b
    let c := Opnd.ofCode f.c
    unused4 f.e
    pure (.swrsp a b c)
  | _ => .error .unassigned

/-- The instructions of class 2 (spec/02 R60). -/
def decodeClass2 (f : Fields) : Except Reject Instr :=
  match f.operation with
  | 0x00 => do
    let g := f.guards
    let sat ← modFlag f
    let d := Opnd.ofCode f.d
    let a := Opnd.ofCode f.a
    let b := Opnd.ofCode f.b
    unused f.c
    let e := f.e
    must (portE [a, b] e) .unusedField
    pure (.add g sat d a b e)
  | 0x01 => do
    let g := f.guards
    let sat ← modFlag f
    let d := Opnd.ofCode f.d
    let a := Opnd.ofCode f.a
    let b := Opnd.ofCode f.b
    unused f.c
    let e := f.e
    must (portE [a, b] e) .unusedField
    pure (.sub g sat d a b e)
  | 0x02 => do
    let g := f.guards
    let sat ← modFlag f
    let d := Opnd.ofCode f.d
    let a := Opnd.ofCode f.a
    let b := Opnd.ofCode f.b
    unused f.c
    let e := f.e
    must (portE [a, b] e) .unusedField
    pure (.mul g sat d a b e)
  | 0x03 => do
    let g := f.guards
    let sat ← modFlag f
    let d := Opnd.ofCode f.d
    let a := Opnd.ofCode f.a
    let b := Opnd.ofCode f.b
    let c := Opnd.ofCode f.c
    let e := f.e
    must (portE [a, b, c] e) .unusedField
    pure (.mad g sat d a b c e)
  | 0x04 => do
    let g := f.guards
    modZero f
    let d := Opnd.ofCode f.d
    let a := Opnd.ofCode f.a
    let b := Opnd.ofCode f.b
    unused f.c
    let e := f.e
    must (portE [a, b] e) .unusedField
    pure (.min g d a b e)
  | 0x05 => do
    let g := f.guards
    modZero f
    let d := Opnd.ofCode f.d
    let a := Opnd.ofCode f.a
    let b := Opnd.ofCode f.b
    unused f.c
    let e := f.e
    must (portE [a, b] e) .unusedField
    pure (.max g d a b e)
  | 0x06 => do
    let g := f.guards
    let sat ← modFlag f
    let d := Opnd.ofCode f.d
    let a := Opnd.ofCode f.a
    unused f.b
    unused f.c
    let e := f.e
    must (portE [a] e) .unusedField
    pure (.neg g sat d a e)
  | 0x07 => do
    let g := f.guards
    let sat ← modFlag f
    let d := Opnd.ofCode f.d
    let a := Opnd.ofCode f.a
    unused f.b
    unused f.c
    let e := f.e
    must (portE [a] e) .unusedField
    pure (.abs g sat d a e)
  | 0x08 => do
    let g := f.guards
    let cc ← named (VCond.ofCode f.m)
    let d := Opnd.ofCode f.d
    let a := Opnd.ofCode f.a
    let b := Opnd.ofCode f.b
    unused f.c
    let e := f.e
    must (portE [a, b] e) .unusedField
    pure (.cmp g cc d a b e)
  | 0x09 => do
    let g := f.guards
    modZero f
    let d := Opnd.ofCode f.d
    let a := Opnd.ofCode f.a
    let b := Opnd.ofCode f.b
    let c := Opnd.ofCode f.c
    let e := f.e
    must (portE [a, b, c] e) .unusedField
    pure (.sel g d a b c e)
  | 0x0A => do
    let g := f.guards
    let sat ← modFlag f
    let d := Opnd.ofCode f.d
    let a := Opnd.ofCode f.a
    let b := Opnd.ofCode f.b
    let c := Opnd.ofCode f.c
    let e := f.e
    must (portE [a, b, c] e) .unusedField
    pure (.dot g sat d a b c e)
  | 0x0B => do
    let g := f.guards
    modZero f
    let d := Opnd.ofCode f.d
    let a := Opnd.ofCode f.a
    let b := Opnd.ofCode f.b
    let c := Opnd.ofCode f.c
    let n := f.e
    pure (.acs g d a b c n)
  | _ => .error .unassigned

/-- The instructions of class 3 (spec/02 R60). -/
def decodeClass3 (f : Fields) : Except Reject Instr :=
  match f.operation with
  | 0x00 => do
    let g := f.guards
    modZero f
    let d := Opnd.ofCode f.d
    let a := Opnd.ofCode f.a
    let b := Opnd.ofCode f.b
    unused f.c
    let e := f.e
    must (portE [a, b] e) .unusedField
    pure (.and g d a b e)
  | 0x01 => do
    let g := f.guards
    modZero f
    let d := Opnd.ofCode f.d
    let a := Opnd.ofCode f.a
    let b := Opnd.ofCode f.b
    unused f.c
    let e := f.e
    must (portE [a, b] e) .unusedField
    pure (.or g d a b e)
  | 0x02 => do
    let g := f.guards
    modZero f
    let d := Opnd.ofCode f.d
    let a := Opnd.ofCode f.a
    let b := Opnd.ofCode f.b
    unused f.c
    let e := f.e
    must (portE [a, b] e) .unusedField
    pure (.xor g d a b e)
  | 0x03 => do
    let g := f.guards
    modZero f
    let d := Opnd.ofCode f.d
    let a := Opnd.ofCode f.a
    unused f.b
    unused f.c
    let e := f.e
    must (portE [a] e) .unusedField
    pure (.not g d a e)
  | 0x04 => do
    let g := f.guards
    modZero f
    let d := Opnd.ofCode f.d
    let a := Opnd.ofCode f.a
    let b := Opnd.ofCode f.b
    unused f.c
    let e := f.e
    must (portE [a, b] e) .unusedField
    pure (.shl g d a b e)
  | 0x05 => do
    let g := f.guards
    modZero f
    let d := Opnd.ofCode f.d
    let a := Opnd.ofCode f.a
    let b := Opnd.ofCode f.b
    unused f.c
    let e := f.e
    must (portE [a, b] e) .unusedField
    pure (.shr g d a b e)
  | 0x06 => do
    let g := f.guards
    modZero f
    let d := Opnd.ofCode f.d
    let a := Opnd.ofCode f.a
    let b := Opnd.ofCode f.b
    unused f.c
    let e := f.e
    must (portE [a, b] e) .unusedField
    pure (.sar g d a b e)
  | 0x07 => do
    let g := f.guards
    modZero f
    let d := Opnd.ofCode f.d
    let a := Opnd.ofCode f.a
    let b := Opnd.ofCode f.b
    unused f.c
    let e := f.e
    must (portE [a, b] e) .unusedField
    pure (.rot g d a b e)
  | 0x08 => do
    let g := f.guards
    let sgn ← modFlag f
    let d := Opnd.ofCode f.d
    let a := Opnd.ofCode f.a
    let b := Opnd.ofCode f.b
    let c := Opnd.ofCode f.c
    let e := f.e
    must (portE [a, b, c] e) .unusedField
    pure (.bfe g sgn d a b c e)
  | 0x09 => do
    let g := f.guards
    modZero f
    let d := Opnd.ofCode f.d
    let a := Opnd.ofCode f.a
    let b := Opnd.ofCode f.b
    let c := Opnd.ofCode f.c
    let e := f.e
    must (portE [a, b, c] e) .unusedField
    pure (.bfi g d a b c e)
  | 0x0A => do
    let g := f.guards
    modZero f
    let d := Opnd.ofCode f.d
    let a := Opnd.ofCode f.a
    unused f.b
    unused f.c
    let e := f.e
    must (portE [a] e) .unusedField
    pure (.popc g d a e)
  | 0x0B => do
    let g := f.guards
    modZero f
    let d := Opnd.ofCode f.d
    let a := Opnd.ofCode f.a
    unused f.b
    unused f.c
    let e := f.e
    must (portE [a] e) .unusedField
    pure (.clz g d a e)
  | 0x0C => do
    let g := f.guards
    modZero f
    let d := Opnd.ofCode f.d
    let a := Opnd.ofCode f.a
    unused f.b
    unused f.c
    let e := f.e
    must (portE [a] e) .unusedField
    pure (.brev g d a e)
  | 0x0D => do
    let g := f.guards
    modZero f
    let d := Opnd.ofCode f.d
    let a := Opnd.ofCode f.a
    let b := Opnd.ofCode f.b
    unused f.c
    let e := f.e
    must (portE [a, b] e) .unusedField
    pure (.mulhi g d a b e)
  | 0x0E => do
    let g := f.guards
    let (t, sr) ← modCvt f
    must (t.isPlain && (!sr || t.isStochastic)) .badModifier
    let d := Opnd.ofCode f.d
    let a := Opnd.ofCode f.a
    unused f.b
    unused f.c
    let j := f.e
    pure (.cvt g t sr d a j)
  | 0x0F => do
    let g := f.guards
    modZero f
    let d := Opnd.ofCode f.d
    let a := Opnd.ofCode f.a
    unused f.b
    unused f.c
    let j := f.e
    pure (.pack g d a j)
  | 0x10 => do
    let g := f.guards
    modZero f
    let d := Opnd.ofCode f.d
    let a := Opnd.ofCode f.a
    unused f.b
    unused f.c
    let j := f.e
    pure (.unpk g d a j)
  | 0x11 => do
    let g := f.guards
    modZero f
    let d := Opnd.ofCode f.d
    let a := Opnd.ofCode f.a
    unused f.b
    unused f.c
    let e := f.e
    must (portE [a] e) .unusedField
    pure (.rcp g d a e)
  | 0x12 => do
    let g := f.guards
    modZero f
    let d := Opnd.ofCode f.d
    let a := Opnd.ofCode f.a
    unused f.b
    unused f.c
    let e := f.e
    must (portE [a] e) .unusedField
    pure (.rsq g d a e)
  | 0x13 => do
    let g := f.guards
    modZero f
    let d := Opnd.ofCode f.d
    let a := Opnd.ofCode f.a
    unused f.b
    unused f.c
    let e := f.e
    must (portE [a] e) .unusedField
    pure (.sqrt g d a e)
  | 0x14 => do
    let g := f.guards
    modZero f
    let d := Opnd.ofCode f.d
    let a := Opnd.ofCode f.a
    unused f.b
    unused f.c
    let e := f.e
    must (portE [a] e) .unusedField
    pure (.exp2 g d a e)
  | 0x15 => do
    let g := f.guards
    modZero f
    let d := Opnd.ofCode f.d
    let a := Opnd.ofCode f.a
    unused f.b
    unused f.c
    let e := f.e
    must (portE [a] e) .unusedField
    pure (.log2 g d a e)
  | 0x16 => do
    let g := f.guards
    modZero f
    let d := Opnd.ofCode f.d
    let a := Opnd.ofCode f.a
    unused f.b
    unused f.c
    let e := f.e
    must (portE [a] e) .unusedField
    pure (.sin g d a e)
  | 0x17 => do
    let g := f.guards
    modZero f
    let d := Opnd.ofCode f.d
    let a := Opnd.ofCode f.a
    unused f.b
    unused f.c
    let e := f.e
    must (portE [a] e) .unusedField
    pure (.cos g d a e)
  | 0x18 => do
    let g := f.guards
    modZero f
    let d := Opnd.ofCode f.d
    unused f.a
    unused f.b
    unused f.c
    unused4 f.e
    pure (.rand g d)
  | 0x19 => do
    let g := f.guards
    let t ← modTag f
    must (t == .modq || f.b == 0#8) .unusedField
    let d := Opnd.ofCode f.d
    let a := Opnd.ofCode f.a
    let b := Opnd.ofCode f.b
    unused f.c
    if isQField f.a then do
      let e := f.e
      must (portE [a] e) .unusedField
      pure (.tagsetPort g t d a b e)
    else do
      unused4 f.e
      pure (.tagset g t d a b)
  | 0x1A => do
    noGuards f
    modZero f
    let d := Opnd.ofCode f.d
    let a := Opnd.ofCode f.a
    unused f.b
    unused f.c
    unused4 f.e
    pure (.tagget d a)
  | 0x1B => do
    noGuards f
    modZero f
    let d := Opnd.ofCode f.d
    let a := Opnd.ofCode f.a
    unused f.b
    unused f.c
    unused4 f.e
    pure (.metard d a)
  | 0x1C => do
    noGuards f
    modZero f
    let d := Opnd.ofCode f.d
    unused f.a
    let b := Opnd.ofCode f.b
    unused f.c
    unused4 f.e
    pure (.metawr d b)
  | 0x1D =>
    if isVField f.a then do
      let g := f.guards
      modZero f
      let d := Opnd.ofCode f.d
      let a := Opnd.ofCode f.a
      unused f.b
      unused f.c
      unused4 f.e
      pure (.mov g d a)
    else if isQField f.a then do
      let g := f.guards
      modZero f
      let d := Opnd.ofCode f.d
      let a := Opnd.ofCode f.a
      unused f.b
      unused f.c
      let e := f.e
      must (portE [a] e) .unusedField
      pure (.movPort g d a e)
    else if !isVField f.a then do
      let g := f.guards
      let t ← modTag f
      must t.isPlain .badModifier
      let d := Opnd.ofCode f.d
      let a := Opnd.ofCode f.a
      unused f.b
      unused f.c
      unused4 f.e
      pure (.movTag g t d a)
    else .error .badModifier
  | 0x1E => do
    let g := f.guards
    let t := Tag.ofCode (f.m.extractLsb' 0 4)
    must t.isPlain .badModifier
    let d := Opnd.ofCode f.d
    let imm := f.imm
    pure (.li g t d imm)
  | _ => .error .unassigned

/-- The instructions of class 4 (spec/02 R60). -/
def decodeClass4 (f : Fields) : Except Reject Instr :=
  match f.operation with
  | 0x00 => do
    noGuards f
    modZero f
    let target := f.d ++ f.a
    let reconv := f.b ++ f.c
    let pg := Guard.ofCode f.e
    pure (.dbr target reconv pg)
  | 0x01 => do
    noGuards f
    modZero f
    unused f.d
    unused f.a
    unused f.b
    unused f.c
    unused4 f.e
    pure (.join)
  | 0x02 => do
    let g := f.guards
    let target := f.d ++ f.a
    unused f.b
    unused f.c
    let n := f.e
    must (n != 0#4) .badModifier
    modZero f
    pure (.brk g target n)
  | 0x03 => do
    let g := f.guards
    modZero f
    unused f.d
    unused f.a
    unused f.b
    unused f.c
    unused4 f.e
    pure (.exitl g)
  | 0x04 => do
    noGuards f
    let md ← named (VoteMode.ofCode f.m)
    let d := Opnd.ofCode f.d
    let a := Opnd.ofCode f.a
    let b := Opnd.ofCode f.b
    unused f.c
    unused4 f.e
    pure (.vote md d a b)
  | 0x05 => do
    noGuards f
    let md ← named (ShflMode.ofCode f.m)
    let d := Opnd.ofCode f.d
    let a := Opnd.ofCode f.a
    let b := Opnd.ofCode f.b
    let c := Opnd.ofCode f.c
    let pe ← lowPred f.e
    pure (.shfl md d a b c pe)
  | 0x06 => do
    noGuards f
    modZero f
    let d := Opnd.ofCode f.d
    let a := Opnd.ofCode f.a
    let b := Opnd.ofCode f.b
    let c := Opnd.ofCode f.c
    let pe ← lowPred f.e
    pure (.perm d a b c pe)
  | 0x07 => do
    noGuards f
    modZero f
    let d := Opnd.ofCode f.d
    let a := Opnd.ofCode f.a
    let b := Opnd.ofCode f.b
    let c := Opnd.ofCode f.c
    let pe ← lowPred f.e
    pure (.bcst d a b c pe)
  | 0x08 => do
    noGuards f
    must (f.m.extractLsb' 4 4 == 0#4) .badModifier
    let op ← named (ScanOp.ofCode (f.m.extractLsb' 0 3))
    let excl := f.m.getLsbD 3
    let d := Opnd.ofCode f.d
    let a := Opnd.ofCode f.a
    let b := Opnd.ofCode f.b
    unused f.c
    unused4 f.e
    pure (.scan op excl d a b)
  | 0x09 => do
    noGuards f
    modZero f
    unused f.d
    unused f.a
    unused f.b
    unused f.c
    unused4 f.e
    pure (.regrp)
  | 0x0A => do
    noGuards f
    modZero f
    unused f.d
    unused f.a
    unused f.b
    unused f.c
    unused4 f.e
    pure (.ungrp)
  | 0x0B => do
    let g := f.guards
    let t ← modFlag f
    unused f.d
    let a := Opnd.ofCode f.a
    unused f.b
    unused f.c
    unused4 f.e
    pure (.xeq g t a)
  | 0x0C => do
    noGuards f
    modZero f
    let d := Opnd.ofCode f.d
    let a := Opnd.ofCode f.a
    let b := Opnd.ofCode f.b
    unused f.c
    unused4 f.e
    pure (.maskrd d a b)
  | 0x0D => do
    noGuards f
    modZero f
    let d := Opnd.ofCode f.d
    let a := Opnd.ofCode f.a
    let b := Opnd.ofCode f.b
    unused f.c
    unused4 f.e
    pure (.maskwr d a b)
  | 0x0E => do
    noGuards f
    modZero f
    let d := Opnd.ofCode f.d
    unused f.a
    unused f.b
    unused f.c
    unused4 f.e
    pure (.deadrd d)
  | _ => .error .unassigned

/-- The instructions of class 5 (spec/02 R60). -/
def decodeClass5 (f : Fields) : Except Reject Instr :=
  match f.operation with
  | 0x00 => do
    let g := f.guards
    modZero f
    let d := Opnd.ofCode f.d
    let a := Opnd.ofCode f.a
    unused f.b
    unused f.c
    unused4 f.e
    pure (.blen g d a)
  | 0x01 => do
    let g := f.guards
    modZero f
    let d := Opnd.ofCode f.d
    let a := Opnd.ofCode f.a
    unused f.b
    unused f.c
    unused4 f.e
    pure (.bnorm g d a)
  | 0x02 => do
    let g := f.guards
    modZero f
    let d := Opnd.ofCode f.d
    let a := Opnd.ofCode f.a
    let b := Opnd.ofCode f.b
    unused f.c
    unused4 f.e
    pure (.bshl g d a b)
  | 0x03 => do
    let g := f.guards
    modZero f
    let d := Opnd.ofCode f.d
    let a := Opnd.ofCode f.a
    let b := Opnd.ofCode f.b
    unused f.c
    unused4 f.e
    pure (.bshr g d a b)
  | 0x04 => do
    let g := f.guards
    let mag ← modFlag f
    let d := Opnd.ofCode f.d
    let a := Opnd.ofCode f.a
    let b := Opnd.ofCode f.b
    unused f.c
    unused4 f.e
    pure (.bcmp g mag d a b)
  | 0x05 => do
    let g := f.guards
    modZero f
    let d := Opnd.ofCode f.d
    let a := Opnd.ofCode f.a
    let b := Opnd.ofCode f.b
    let c := Opnd.ofCode f.c
    unused4 f.e
    pure (.bdivs g d a b c)
  | 0x06 => do
    let g := f.guards
    let h ← modFlag f
    let d := Opnd.ofCode f.d
    let a := Opnd.ofCode f.a
    let b := Opnd.ofCode f.b
    unused f.c
    unused4 f.e
    pure (.cres g h d a b)
  | 0x07 => do
    let g := f.guards
    modZero f
    let d := Opnd.ofCode f.d
    let a := Opnd.ofCode f.a
    unused f.b
    unused f.c
    unused4 f.e
    pure (.bsplit g d a)
  | 0x08 => do
    let g := f.guards
    modZero f
    let d := Opnd.ofCode f.d
    let a := Opnd.ofCode f.a
    let b := Opnd.ofCode f.b
    unused f.c
    unused4 f.e
    pure (.bjoin g d a b)
  | 0x09 => do
    let g := f.guards
    let cin ← modFlag f
    let d := Opnd.ofCode f.d
    let a := Opnd.ofCode f.a
    let b := Opnd.ofCode f.b
    unused f.c
    unused4 f.e
    pure (.baddc g cin d a b)
  | 0x0A => do
    let g := f.guards
    let cin ← modFlag f
    let d := Opnd.ofCode f.d
    let a := Opnd.ofCode f.a
    let b := Opnd.ofCode f.b
    unused f.c
    unused4 f.e
    pure (.bsubc g cin d a b)
  | 0x0B => do
    let g := f.guards
    modZero f
    let d := Opnd.ofCode f.d
    let a := Opnd.ofCode f.a
    let b := Opnd.ofCode f.b
    let c := Opnd.ofCode f.c
    unused4 f.e
    pure (.bmulw g d a b c)
  | 0x0C => do
    let g := f.guards
    modZero f
    let d := Opnd.ofCode f.d
    let a := Opnd.ofCode f.a
    let b := Opnd.ofCode f.b
    unused f.c
    unused4 f.e
    pure (.bmodw g d a b)
  | 0x0D => do
    let g := f.guards
    let all ← modFlag f
    must (all || f.c == 0#8) .unusedField
    let d := Opnd.ofCode f.d
    let a := Opnd.ofCode f.a
    let b := Opnd.ofCode f.b
    let c := Opnd.ofCode f.c
    unused4 f.e
    pure (.btom g all d a b c)
  | 0x0E => do
    noGuards f
    let (o, sc, low) ← modOS f
    must (low == 0#3) .badModifier
    let d := Opnd.ofCode f.d
    let a := Opnd.ofCode f.a
    let b := Opnd.ofCode f.b
    let c := Opnd.ofCode f.c
    unused4 f.e
    pure (.lmulm o sc d a b c)
  | 0x0F => do
    noGuards f
    let (o, sc, low) ← modOS f
    let se ← lowFlag low
    let d := Opnd.ofCode f.d
    let a := Opnd.ofCode f.a
    let b := Opnd.ofCode f.b
    let c := Opnd.ofCode f.c
    let bsub ← lowFlag4 f.e
    pure (.bopm o sc se d a b c bsub)
  | _ => .error .unassigned

/-- The instructions of class 6 (spec/02 R60). -/
def decodeClass6 (f : Fields) : Except Reject Instr :=
  match f.operation with
  | 0x00 => do
    let g := f.guards
    let (o, sc, ev) ← modOS f
    must (Order.isLoad o) .badModifier
    let d := Opnd.ofCode f.d
    let a := Opnd.ofCode f.a
    let b := Opnd.ofCode f.b
    unused f.c
    let wd ← named (Width.ofCode f.e)
    must wd.okLoad .badModifier
    pure (.ld g o sc ev d a b wd)
  | 0x01 => do
    let g := f.guards
    let (o, sc, ev) ← modOS f
    must (Order.isLoad o) .badModifier
    let d := Opnd.ofCode f.d
    let a := Opnd.ofCode f.a
    let b := Opnd.ofCode f.b
    unused f.c
    let t := Tag.ofCode f.e
    must t.isPlain .badModifier
    pure (.ldt g o sc ev d a b t)
  | 0x02 => do
    let g := f.guards
    let (o, sc, ev) ← modOS f
    must (Order.isStore o) .badModifier
    unused f.d
    let a := Opnd.ofCode f.a
    let b := Opnd.ofCode f.b
    let c := Opnd.ofCode f.c
    let wd ← named (Width.ofCode f.e)
    must wd.okStore .badModifier
    pure (.st g o sc ev a b c wd)
  | 0x03 => do
    let g := f.guards
    let (o, sc, low) ← modOS f
    must (low == 0#3) .badModifier
    must (Order.isLoad o) .badModifier
    let d := Opnd.ofCode f.d
    let a := Opnd.ofCode f.a
    let b := Opnd.ofCode f.b
    unused f.c
    let wd ← named (Width.ofCode f.e)
    must wd.okLoad .badModifier
    pure (.lds g o sc d a b wd)
  | 0x04 => do
    let g := f.guards
    let (o, sc, low) ← modOS f
    must (low == 0#3) .badModifier
    must (Order.isStore o) .badModifier
    unused f.d
    let a := Opnd.ofCode f.a
    let b := Opnd.ofCode f.b
    let c := Opnd.ofCode f.c
    let wd ← named (Width.ofCode f.e)
    must wd.okStore .badModifier
    pure (.sts g o sc a b c wd)
  | 0x05 => do
    let g := f.guards
    let (o, sc, ev) ← modOS f
    must (Order.isLoad o) .badModifier
    let d := Opnd.ofCode f.d
    let a := Opnd.ofCode f.a
    let b := Opnd.ofCode f.b
    let c := Opnd.ofCode f.c
    unused4 f.e
    pure (.ldb g o sc ev d a b c)
  | 0x06 => do
    let g := f.guards
    let (o, sc, ev) ← modOS f
    must (Order.isStore o) .badModifier
    unused f.d
    let a := Opnd.ofCode f.a
    let b := Opnd.ofCode f.b
    let c := Opnd.ofCode f.c
    unused4 f.e
    pure (.stb g o sc ev a b c)
  | 0x08 => do
    let g := f.guards
    let (o, sc, ev) ← modOS f
    let d := Opnd.ofCode f.d
    let a := Opnd.ofCode f.a
    let b := Opnd.ofCode f.b
    let c := Opnd.ofCode f.c
    let wd ← named (Width.ofCode f.e)
    must wd.okWd .badModifier
    pure (.atomAdd g o sc ev d a b c wd)
  | 0x09 => do
    let g := f.guards
    let (o, sc, ev) ← modOS f
    let d := Opnd.ofCode f.d
    let a := Opnd.ofCode f.a
    let b := Opnd.ofCode f.b
    let c := Opnd.ofCode f.c
    let wd ← named (Width.ofCode f.e)
    must wd.okMinmax .badModifier
    pure (.atomMin g o sc ev d a b c wd)
  | 0x0A => do
    let g := f.guards
    let (o, sc, ev) ← modOS f
    let d := Opnd.ofCode f.d
    let a := Opnd.ofCode f.a
    let b := Opnd.ofCode f.b
    let c := Opnd.ofCode f.c
    let wd ← named (Width.ofCode f.e)
    must wd.okMinmax .badModifier
    pure (.atomMax g o sc ev d a b c wd)
  | 0x0B => do
    let g := f.guards
    let (o, sc, ev) ← modOS f
    let d := Opnd.ofCode f.d
    let a := Opnd.ofCode f.a
    let b := Opnd.ofCode f.b
    let c := Opnd.ofCode f.c
    let wd ← named (Width.ofCode f.e)
    must wd.okWd .badModifier
    pure (.atomAnd g o sc ev d a b c wd)
  | 0x0C => do
    let g := f.guards
    let (o, sc, ev) ← modOS f
    let d := Opnd.ofCode f.d
    let a := Opnd.ofCode f.a
    let b := Opnd.ofCode f.b
    let c := Opnd.ofCode f.c
    let wd ← named (Width.ofCode f.e)
    must wd.okWd .badModifier
    pure (.atomOr g o sc ev d a b c wd)
  | 0x0D => do
    let g := f.guards
    let (o, sc, ev) ← modOS f
    let d := Opnd.ofCode f.d
    let a := Opnd.ofCode f.a
    let b := Opnd.ofCode f.b
    let c := Opnd.ofCode f.c
    let wd ← named (Width.ofCode f.e)
    must wd.okWd .badModifier
    pure (.atomXor g o sc ev d a b c wd)
  | 0x0E => do
    let g := f.guards
    let (o, sc, ev) ← modOS f
    let d := Opnd.ofCode f.d
    let a := Opnd.ofCode f.a
    let b := Opnd.ofCode f.b
    let c := Opnd.ofCode f.c
    let wd ← named (Width.ofCode f.e)
    must wd.okWdq .badModifier
    pure (.atomExch g o sc ev d a b c wd)
  | 0x0F => do
    let g := f.guards
    let (o, sc, ev) ← modOS f
    let d := Opnd.ofCode f.d
    let a := Opnd.ofCode f.a
    let b := Opnd.ofCode f.b
    let c := Opnd.ofCode f.c
    let wd ← named (Width.ofCode f.e)
    must wd.okW .badModifier
    pure (.atomFadd g o sc ev d a b c wd)
  | 0x10 => do
    let g := f.guards
    let (o, sc, ev) ← modOS f
    let d := Opnd.ofCode f.d
    let a := Opnd.ofCode f.a
    let b := Opnd.ofCode f.b
    let c := Opnd.ofCode f.c
    let wd ← named (Width.ofCode f.e)
    must wd.okWdq .badModifier
    pure (.cas g o sc ev d a b c wd)
  | 0x11 => do
    let g := f.guards
    let (o, sc, low) ← modOS f
    must (o == .rlx) .badModifier
    let op := AtomOp.ofCode low
    let d := Opnd.ofCode f.d
    let a := Opnd.ofCode f.a
    let b := Opnd.ofCode f.b
    let c := Opnd.ofCode f.c
    let wd ← named (Width.ofCode f.e)
    must (wd.okAod op) .badModifier
    pure (.aod g sc op d a b c wd)
  | 0x12 => do
    noGuards f
    let (o, sc, low) ← modOS f
    must (low == 0#3) .badModifier
    must (Order.isFence o) .badModifier
    unused f.d
    unused f.a
    unused f.b
    unused f.c
    unused4 f.e
    pure (.fence o sc)
  | 0x13 => do
    noGuards f
    let (o, sc, low) ← modOS f
    must (low == 0#3) .badModifier
    must (Order.isLoad o) .badModifier
    let d := Opnd.ofCode f.d
    let a := Opnd.ofCode f.a
    let b := Opnd.ofCode f.b
    let c := Opnd.ofCode f.c
    let (stamp, dbl, cc) ← mwaitE f.e
    pure (.mwait o sc d a b c stamp dbl cc)
  | 0x14 => do
    let g := f.guards
    let (o, sc, ev) ← modOS f
    must (o == .rlx) .badModifier
    unused f.d
    let a := Opnd.ofCode f.a
    let b := Opnd.ofCode f.b
    unused f.c
    unused4 f.e
    pure (.prf g sc ev a b)
  | 0x15 => do
    noGuards f
    modZero f
    unused f.d
    unused f.a
    unused f.b
    unused f.c
    unused4 f.e
    pure (.l1inv)
  | _ => .error .unassigned

/-- The instructions of class 7 (spec/02 R60). -/
def decodeClass7 (f : Fields) : Except Reject Instr :=
  match f.operation with
  | 0x00 => do
    noGuards f
    let t ← modTag f
    unused f.d
    let a := Opnd.ofCode f.a
    let b := Opnd.ofCode f.b
    let c := Opnd.ofCode f.c
    let r := f.e
    pure (.ringdef t a b c r)
  | 0x01 =>
    if !f.m.getLsbD 0 then do
      must (f.m == 0#8) .badModifier
      noGuards f
      unused f.d
      unused f.a
      unused f.b
      unused f.c
      let r := f.e
      pure (.ringclrDrop r)
    else if f.m.getLsbD 0 then do
      must (f.m == 1#8) .badModifier
      noGuards f
      unused f.d
      unused f.a
      unused f.b
      unused f.c
      let r := f.e
      pure (.ringclrStop r)
    else .error .badModifier
  | 0x02 =>
    if !f.m.getLsbD 1 then do
      noGuards f
      let push ← modFlag f
      let d := Opnd.ofCode f.d
      unused f.a
      unused f.b
      unused f.c
      let r := f.e
      pure (.qbind push d r)
    else if f.m.getLsbD 1 then do
      must (f.m == 2#8) .badModifier
      noGuards f
      let d := Opnd.ofCode f.d
      unused f.a
      unused f.b
      unused f.c
      unused4 f.e
      pure (.qbindUn d)
    else .error .badModifier
  | 0x03 => do
    let g := f.guards
    modZero f
    let d := Opnd.ofCode f.d
    let a := Opnd.ofCode f.a
    unused f.b
    unused f.c
    let pe ← lowPred f.e
    pure (.qpeek g d a pe)
  | 0x04 => do
    noGuards f
    modZero f
    unused f.d
    let a := Opnd.ofCode f.a
    let b := Opnd.ofCode f.b
    unused f.c
    unused4 f.e
    pure (.qeos a b)
  | 0x05 => do
    noGuards f
    modZero f
    let d := Opnd.ofCode f.d
    let a := Opnd.ofCode f.a
    unused f.b
    unused f.c
    unused4 f.e
    pure (.qstat d a)
  | 0x06 => do
    noGuards f
    let (o, sc, low) ← modOS f
    must (low == 0#3) .badModifier
    must (Order.isLoad o) .badModifier
    unused f.d
    let a := Opnd.ofCode f.a
    let b := Opnd.ofCode f.b
    let c := Opnd.ofCode f.c
    let k := f.e
    pure (.slay o sc a b c k)
  | 0x07 =>
    if f.e.extractLsb' 0 3 == 0#3 then do
      must (f.e == 0#4) .badModifier
      noGuards f
      let (o, sc, low) ← modOS f
      let se ← lowFlag low
      unused f.d
      let a := Opnd.ofCode f.a
      let b := Opnd.ofCode f.b
      let c := Opnd.ofCode f.c
      pure (.scmdFill o sc se a b c)
    else if f.e.extractLsb' 0 3 == 1#3 then do
      must (f.e == 1#4) .badModifier
      noGuards f
      let (o, sc, low) ← modOS f
      let se ← lowFlag low
      unused f.d
      let a := Opnd.ofCode f.a
      let b := Opnd.ofCode f.b
      let c := Opnd.ofCode f.c
      pure (.scmdDrain o sc se a b c)
    else if f.e.extractLsb' 0 3 == 2#3 then do
      must (f.e == 2#4) .badModifier
      noGuards f
      let (o, sc, low) ← modOS f
      let se ← lowFlag low
      unused f.d
      let a := Opnd.ofCode f.a
      let b := Opnd.ofCode f.b
      let c := Opnd.ofCode f.c
      pure (.scmdCopy o sc se a b c)
    else if f.e.extractLsb' 0 3 == 3#3 then do
      must (f.e == 3#4) .badModifier
      noGuards f
      let (o, sc, low) ← modOS f
      let se ← lowFlag low
      unused f.d
      let a := Opnd.ofCode f.a
      let b := Opnd.ofCode f.b
      let c := Opnd.ofCode f.c
      pure (.scmdMcast o sc se a b c)
    else if f.e.extractLsb' 0 3 == 4#3 then do
      noGuards f
      let (o, sc, low) ← modOS f
      let se ← lowFlag low
      unused f.d
      let a := Opnd.ofCode f.a
      let b := Opnd.ofCode f.b
      let c := Opnd.ofCode f.c
      let eos := f.e.getLsbD 3
      pure (.scmdRfill o sc se a b c eos)
    else if f.e.extractLsb' 0 3 == 5#3 then do
      noGuards f
      let (o, sc, low) ← modOS f
      let se ← lowFlag low
      unused f.d
      let a := Opnd.ofCode f.a
      let b := Opnd.ofCode f.b
      let c := Opnd.ofCode f.c
      let eos := f.e.getLsbD 3
      pure (.scmdRdrain o sc se a b c eos)
    else if f.e.extractLsb' 0 3 == 6#3 then do
      must (f.e == 6#4) .badModifier
      noGuards f
      let (o, sc, low) ← modOS f
      let se ← lowFlag low
      unused f.d
      let a := Opnd.ofCode f.a
      unused f.b
      let c := Opnd.ofCode f.c
      pure (.scmdStamp o sc se a c)
    else if f.e.extractLsb' 0 3 == 7#3 then do
      must (f.e == 7#4) .badModifier
      noGuards f
      let (o, sc, low) ← modOS f
      let se ← lowFlag low
      unused f.d
      let a := Opnd.ofCode f.a
      let b := Opnd.ofCode f.b
      let c := Opnd.ofCode f.c
      pure (.scmdColl o sc se a b c)
    else .error .badModifier
  | _ => .error .unassigned

/-- The instructions of class 8 (spec/02 R60). -/
def decodeClass8 (f : Fields) : Except Reject Instr :=
  match f.operation with
  | 0x00 => do
    noGuards f
    let (o, sc, low) ← modOS f
    must (!low.getLsbD 0) .badModifier
    let sn := lowStream low
    unused f.d
    let a := Opnd.ofCode f.a
    let b := Opnd.ofCode f.b
    unused f.c
    let tile := f.e
    pure (.mloop o sc sn a b tile)
  | 0x01 => do
    noGuards f
    must (f.m.extractLsb' 3 5 == 0#5) .badModifier
    let sn := lowStream (f.m.extractLsb' 0 3)
    let pair := f.m.getLsbD 0
    unused f.d
    unused f.a
    let b := Opnd.ofCode f.b
    unused f.c
    let tile := f.e
    pure (.mzero sn pair b tile)
  | 0x02 =>
    if f.e != 8#4 then do
      noGuards f
      let (o, sc, low) ← modOS f
      let sn := lowStream low
      let tr := low.getLsbD 0
      unused f.d
      let a := Opnd.ofCode f.a
      let b := Opnd.ofCode f.b
      let c := Opnd.ofCode f.c
      let tile := f.e
      pure (.mldt o sc sn tr a b c tile)
    else if f.e == 8#4 then do
      must (f.e == 8#4) .badModifier
      noGuards f
      let (o, sc, low) ← modOS f
      must (!low.getLsbD 0) .badModifier
      let sn := lowStream low
      unused f.d
      let a := Opnd.ofCode f.a
      let b := Opnd.ofCode f.b
      let c := Opnd.ofCode f.c
      pure (.mldtScale o sc sn a b c)
    else .error .badModifier
  | 0x03 =>
    if f.e != 8#4 then do
      noGuards f
      let (o, sc, low) ← modOS f
      let sn := lowStream low
      let tr := low.getLsbD 0
      let d := Opnd.ofCode f.d
      let a := Opnd.ofCode f.a
      let b := Opnd.ofCode f.b
      let c := Opnd.ofCode f.c
      let tile := f.e
      pure (.mstt o sc sn tr d a b c tile)
    else if f.e == 8#4 then do
      must (f.e == 8#4) .badModifier
      noGuards f
      let (o, sc, low) ← modOS f
      must (!low.getLsbD 0) .badModifier
      let sn := lowStream low
      unused f.d
      let a := Opnd.ofCode f.a
      let b := Opnd.ofCode f.b
      let c := Opnd.ofCode f.c
      pure (.msttScale o sc sn a b c)
    else .error .badModifier
  | 0x04 => do
    noGuards f
    modZero f
    unused f.d
    unused f.a
    let b := Opnd.ofCode f.b
    unused f.c
    let k := f.e
    must (k != 0#4) .badModifier
    pure (.mfence b k)
  | 0x05 => do
    noGuards f
    must (f.m.extractLsb' 3 5 == 0#5 && !f.m.getLsbD 0) .badModifier
    let sn := lowStream (f.m.extractLsb' 0 3)
    let d := Opnd.ofCode f.d
    unused f.a
    let b := Opnd.ofCode f.b
    unused f.c
    unused4 f.e
    pure (.mprg sn d b)
  | _ => .error .unassigned

/-- The instructions of class 9 (spec/02 R60). -/
def decodeClass9 (f : Fields) : Except Reject Instr :=
  match f.operation with
  | 0x00 => do
    noGuards f
    let (o, sc, low) ← modOS f
    must (low == 0#3) .badModifier
    must (Order.isLoad o) .badModifier
    unused f.d
    let a := Opnd.ofCode f.a
    let b := Opnd.ofCode f.b
    let c := Opnd.ofCode f.c
    unused4 f.e
    pure (.mtab o sc a b c)
  | 0x01 => do
    let g := f.guards
    let dbl ← modFlag f
    let d := Opnd.ofCode f.d
    let a := Opnd.ofCode f.a
    let b := Opnd.ofCode f.b
    unused f.c
    unused4 f.e
    pure (.mred g dbl d a b)
  | 0x02 => do
    let g := f.guards
    let sgn ← modFlag f
    let d := Opnd.ofCode f.d
    let a := Opnd.ofCode f.a
    unused f.b
    unused f.c
    unused4 f.e
    pure (.mlift g sgn d a)
  | 0x03 => do
    noGuards f
    let (o, sc, low) ← modOS f
    must (low == 0#3) .badModifier
    let d := Opnd.ofCode f.d
    let a := Opnd.ofCode f.a
    unused f.b
    let c := Opnd.ofCode f.c
    unused4 f.e
    pure (.nttf o sc d a c)
  | 0x04 => do
    noGuards f
    let (o, sc, low) ← modOS f
    must (low == 0#3) .badModifier
    let d := Opnd.ofCode f.d
    let a := Opnd.ofCode f.a
    unused f.b
    let c := Opnd.ofCode f.c
    unused4 f.e
    pure (.ntti o sc d a c)
  | 0x05 => do
    noGuards f
    let (o, sc, low) ← modOS f
    let se ← lowFlag low
    unused f.d
    let a := Opnd.ofCode f.a
    let b := Opnd.ofCode f.b
    let c := Opnd.ofCode f.c
    let ntt ← lowFlag4 f.e
    pure (.auto o sc se a b c ntt)
  | 0x06 => do
    noGuards f
    let (o, sc, low) ← modOS f
    let t ← lowFlag low
    must (Order.isLoad o) .badModifier
    let d := Opnd.ofCode f.d
    let a := Opnd.ofCode f.a
    let b := Opnd.ofCode f.b
    unused f.c
    let pair ← lowFlag4 f.e
    must (pair || f.b == 0#8) .unusedField
    pure (.ctchk o sc t d a b pair)
  | 0x07 => do
    noGuards f
    let (o, sc, low) ← modOS f
    let rnd ← lowFlag low
    unused f.d
    let a := Opnd.ofCode f.a
    unused f.b
    unused f.c
    unused4 f.e
    pure (.ctresc o sc rnd a)
  | 0x08 => do
    noGuards f
    let (o, sc, low) ← modOS f
    must (low == 0#3) .badModifier
    must (Order.isLoad o) .badModifier
    let d := Opnd.ofCode f.d
    let a := Opnd.ofCode f.a
    unused f.b
    unused f.c
    unused4 f.e
    pure (.ctlvl o sc d a)
  | _ => .error .unassigned

/-- The instructions of class 10 (spec/02 R60). -/
def decodeClass10 (f : Fields) : Except Reject Instr :=
  match f.operation with
  | 0x00 => do
    noGuards f
    must (f.m.extractLsb' 3 5 == 0#5 && !f.m.getLsbD 1) .badModifier
    let z := f.m.getLsbD 2
    let t := f.m.getLsbD 0
    let d := Opnd.ofCode f.d
    let a := Opnd.ofCode f.a
    unused f.b
    unused f.c
    let pe ← lowPred f.e
    must (!t || pe == 0#3) .unusedField
    pure (.halloc z t d a pe)
  | 0x01 => do
    noGuards f
    modZero f
    unused f.d
    let a := Opnd.ofCode f.a
    unused f.b
    unused f.c
    unused4 f.e
    pure (.hfree a)
  | 0x02 => do
    noGuards f
    modZero f
    let d := Opnd.ofCode f.d
    let a := Opnd.ofCode f.a
    unused f.b
    unused f.c
    unused4 f.e
    pure (.hstat d a)
  | 0x03 => do
    noGuards f
    must (f.m.extractLsb' 0 4 == 0#4) .badModifier
    unused f.d
    let imm := f.imm
    pure (.mark imm)
  | 0x04 => do
    noGuards f
    let (o, sc, low) ← modOS f
    must (low == 0#3) .badModifier
    must (Order.isLoad o) .badModifier
    unused f.d
    let a := Opnd.ofCode f.a
    let b := Opnd.ofCode f.b
    let c := Opnd.ofCode f.c
    unused4 f.e
    pure (.scrdl o sc a b c)
  | 0x05 => do
    noGuards f
    let (o, sc, low) ← modOS f
    must (!low.getLsbD 2) .badModifier
    let die := low.extractLsb' 0 2
    unused f.d
    let a := Opnd.ofCode f.a
    let b := Opnd.ofCode f.b
    let c := Opnd.ofCode f.c
    let act ← named (TierAct.ofCode f.e)
    pure (.tierq o sc die a b c act)
  | 0x06 => do
    noGuards f
    let (o, sc, low) ← modOS f
    must (low == 0#3) .badModifier
    must (Order.isLoad o) .badModifier
    let d := Opnd.ofCode f.d
    let a := Opnd.ofCode f.a
    unused f.b
    unused f.c
    unused4 f.e
    pure (.launch o sc d a)
  | 0x07 => do
    let g := f.guards
    let (o, sc, low) ← modOS f
    must (low == 0#3) .badModifier
    must (Order.isStore o) .badModifier
    let d := Opnd.ofCode f.d
    let a := Opnd.ofCode f.a
    let b := Opnd.ofCode f.b
    unused f.c
    unused4 f.e
    pure (.nrec g o sc d a b)
  | 0x08 => do
    noGuards f
    let all ← modFlag f
    must (!all || f.b == 0#8) .unusedField
    unused f.d
    let a := Opnd.ofCode f.a
    let b := Opnd.ofCode f.b
    unused f.c
    unused4 f.e
    pure (.nflush all a b)
  | 0x09 => do
    noGuards f
    let t ← modFlag f
    unused f.d
    let a := Opnd.ofCode f.a
    unused f.b
    unused f.c
    let pe ← lowPred f.e
    must (!t || pe == 0#3) .unusedField
    pure (.grow t a pe)
  | 0x0A => do
    noGuards f
    modZero f
    unused f.d
    let a := Opnd.ofCode f.a
    unused f.b
    unused f.c
    unused4 f.e
    pure (.shrink a)
  | 0x0B => do
    noGuards f
    modZero f
    let d := Opnd.ofCode f.d
    let a := Opnd.ofCode f.a
    unused f.b
    unused f.c
    unused4 f.e
    pure (.enrd d a)
  | _ => .error .unassigned

/-- The instructions of class 11 (spec/02 R60). -/
def decodeClass11 (f : Fields) : Except Reject Instr :=
  match f.operation with
  | 0x00 => do
    noGuards f
    must (f.m.extractLsb' 6 2 == 0#2) .badModifier
    let code := f.m.extractLsb' 0 6
    must (trapCodeOk code) .badModifier
    unused f.d
    let a := Opnd.ofCode f.a
    unused f.b
    unused f.c
    unused4 f.e
    pure (.trap code a)
  | 0x01 => do
    noGuards f
    modZero f
    unused f.d
    unused f.a
    unused f.b
    unused f.c
    unused4 f.e
    pure (.rte)
  | 0x02 => do
    noGuards f
    modZero f
    unused f.d
    unused f.a
    unused f.b
    unused f.c
    let n := f.e
    pure (.bkpt n)
  | 0x03 => do
    noGuards f
    modZero f
    let d := Opnd.ofCode f.d
    unused f.a
    let b := Opnd.ofCode f.b
    unused f.c
    unused4 f.e
    pure (.csrd d b)
  | 0x04 => do
    noGuards f
    modZero f
    unused f.d
    let a := Opnd.ofCode f.a
    let b := Opnd.ofCode f.b
    unused f.c
    unused4 f.e
    pure (.cswr a b)
  | 0x05 =>
    if f.m.extractLsb' 0 2 == 0#2 then do
      must (f.m == 0#8) .badModifier
      noGuards f
      unused f.d
      let a := Opnd.ofCode f.a
      let b := Opnd.ofCode f.b
      unused f.c
      unused4 f.e
      pure (.tlbinvPage a b)
    else if f.m.extractLsb' 0 2 == 1#2 then do
      must (f.m == 1#8) .badModifier
      noGuards f
      unused f.d
      unused f.a
      let b := Opnd.ofCode f.b
      unused f.c
      unused4 f.e
      pure (.tlbinvCtx b)
    else if f.m.extractLsb' 0 2 == 2#2 then do
      must (f.m == 2#8) .badModifier
      noGuards f
      unused f.d
      unused f.a
      unused f.b
      unused f.c
      unused4 f.e
      pure (.tlbinvAll)
    else .error .badModifier
  | 0x06 => do
    noGuards f
    modZero f
    unused f.d
    unused f.a
    unused f.b
    unused f.c
    unused4 f.e
    pure (.cmmt)
  | 0x07 => do
    noGuards f
    modZero f
    unused f.d
    let a := Opnd.ofCode f.a
    unused f.b
    unused f.c
    unused4 f.e
    pure (.wkill a)
  | 0x08 =>
    if !f.m.getLsbD 0 then do
      must (f.m == 0#8) .badModifier
      noGuards f
      let d := Opnd.ofCode f.d
      let a := Opnd.ofCode f.a
      unused f.b
      unused f.c
      unused4 f.e
      pure (.prmtSave d a)
    else if f.m.getLsbD 0 then do
      must (f.m == 1#8) .badModifier
      noGuards f
      let d := Opnd.ofCode f.d
      let a := Opnd.ofCode f.a
      unused f.b
      unused f.c
      unused4 f.e
      pure (.prmtRestore d a)
    else .error .badModifier
  | _ => .error .unassigned

/-- The decoder on fields. -/
def decodeFields (f : Fields) : Except Reject Instr :=
  if f.op.extractLsb' 2 8 == 0xFC#8 then .error .headerWord
  else match f.cls with
    | 0 => decodeClass0 f
    | 1 => decodeClass1 f
    | 2 => decodeClass2 f
    | 3 => decodeClass3 f
    | 4 => decodeClass4 f
    | 5 => decodeClass5 f
    | 6 => decodeClass6 f
    | 7 => decodeClass7 f
    | 8 => decodeClass8 f
    | 9 => decodeClass9 f
    | 10 => decodeClass10 f
    | 11 => decodeClass11 f
    | _ => .error .badClass

/-- The decoder: the instruction of a word, or why it is none. -/
def decodeWord (w : Word) : Except Reject Instr := decodeFields (Fields.ofWord w)

/-- The scheduling-control bits of a word: hints that change no result (spec/02 R44). -/
def schedBits (w : Word) : BitVec 2 := w.extractLsb' 0 2

/-- The fields of an instruction, from the same tables; none for a step of another agent, which no word encodes. -/
def Instr.fields : Instr → Option Fields
  | .nop n => some { op := 0x000#10, e := n }
  | .bru imm => some (Fields.iForm 0x001#10 7#4 7#4 0#8 imm (0#4))
  | .brs cc n imm => some (Fields.iForm 0x002#10 7#4 7#4 n.code imm (cc.code))
  | .jmps a => some { op := 0x003#10, a := a.code }
  | .call d imm => some (Fields.iForm 0x004#10 7#4 7#4 d.code imm (0#4))
  | .calls d a => some { op := 0x005#10, d := d.code, a := a.code }
  | .ret a => some { op := 0x006#10, a := a.code }
  | .wait nld nst ncp ntl => some (Fields.iForm 0x007#10 7#4 7#4 0#8 (0#8 ++ nld ++ nst ++ ncp ++ ntl) 0#4)
  | .yield => some { op := 0x008#10 }
  | .bar sc id => some { op := 0x009#10, e := id, m := encScope sc }
  | .bara sc id => some { op := 0x00A#10, e := id, m := encScope sc }
  | .barw sc id => some { op := 0x00B#10, e := id, m := encScope sc }
  | .exitw => some { op := 0x00C#10 }
  | .clkrd d => some { op := 0x00D#10, d := d.code }
  | .sadd cin d a b => some { op := 0x040#10, d := d.code, a := a.code, b := b.code, m := encFlag cin }
  | .ssub cin d a b => some { op := 0x041#10, d := d.code, a := a.code, b := b.code, m := encFlag cin }
  | .smul d a b => some { op := 0x042#10, d := d.code, a := a.code, b := b.code }
  | .smulh u d a b => some { op := 0x043#10, d := d.code, a := a.code, b := b.code, m := encFlag u }
  | .sdiv u d a b => some { op := 0x044#10, d := d.code, a := a.code, b := b.code, m := encFlag u }
  | .srem u d a b => some { op := 0x045#10, d := d.code, a := a.code, b := b.code, m := encFlag u }
  | .sand d a b => some { op := 0x046#10, d := d.code, a := a.code, b := b.code }
  | .sor d a b => some { op := 0x047#10, d := d.code, a := a.code, b := b.code }
  | .sxor d a b => some { op := 0x048#10, d := d.code, a := a.code, b := b.code }
  | .sshl d a b => some { op := 0x049#10, d := d.code, a := a.code, b := b.code }
  | .sshr d a b => some { op := 0x04A#10, d := d.code, a := a.code, b := b.code }
  | .ssar d a b => some { op := 0x04B#10, d := d.code, a := a.code, b := b.code }
  | .smin u d a b => some { op := 0x04C#10, d := d.code, a := a.code, b := b.code, m := encFlag u }
  | .smax u d a b => some { op := 0x04D#10, d := d.code, a := a.code, b := b.code, m := encFlag u }
  | .scmp cc d a b => some { op := 0x04E#10, d := d.code, a := a.code, b := b.code, m := cc.code }
  | .ssel d a b c => some { op := 0x04F#10, d := d.code, a := a.code, b := b.code, c := c.code }
  | .smov d a => some { op := 0x050#10, d := d.code, a := a.code }
  | .sli d imm => some (Fields.iForm 0x051#10 7#4 7#4 d.code imm (0#4))
  | .slih d imm => some (Fields.iForm 0x052#10 7#4 7#4 d.code imm (0#4))
  | .spopc d a => some { op := 0x053#10, d := d.code, a := a.code }
  | .sclz d a => some { op := 0x054#10, d := d.code, a := a.code }
  | .sbfe sgn d a b c => some { op := 0x055#10, d := d.code, a := a.code, b := b.code, c := c.code, m := encFlag sgn }
  | .sbfi d a b c => some { op := 0x056#10, d := d.code, a := a.code, b := b.code, c := c.code }
  | .srdsp d a b => some { op := 0x057#10, d := d.code, a := a.code, b := b.code }
  | .swrsp a b c => some { op := 0x058#10, a := a.code, b := b.code, c := c.code }
  | .add g sat d a b e => some { op := 0x080#10, ga := g.ga.code, gb := g.gb.code, d := d.code, a := a.code, b := b.code, e := e, m := encFlag sat }
  | .sub g sat d a b e => some { op := 0x081#10, ga := g.ga.code, gb := g.gb.code, d := d.code, a := a.code, b := b.code, e := e, m := encFlag sat }
  | .mul g sat d a b e => some { op := 0x082#10, ga := g.ga.code, gb := g.gb.code, d := d.code, a := a.code, b := b.code, e := e, m := encFlag sat }
  | .mad g sat d a b c e => some { op := 0x083#10, ga := g.ga.code, gb := g.gb.code, d := d.code, a := a.code, b := b.code, c := c.code, e := e, m := encFlag sat }
  | .min g d a b e => some { op := 0x084#10, ga := g.ga.code, gb := g.gb.code, d := d.code, a := a.code, b := b.code, e := e }
  | .max g d a b e => some { op := 0x085#10, ga := g.ga.code, gb := g.gb.code, d := d.code, a := a.code, b := b.code, e := e }
  | .neg g sat d a e => some { op := 0x086#10, ga := g.ga.code, gb := g.gb.code, d := d.code, a := a.code, e := e, m := encFlag sat }
  | .abs g sat d a e => some { op := 0x087#10, ga := g.ga.code, gb := g.gb.code, d := d.code, a := a.code, e := e, m := encFlag sat }
  | .cmp g cc d a b e => some { op := 0x088#10, ga := g.ga.code, gb := g.gb.code, d := d.code, a := a.code, b := b.code, e := e, m := cc.code }
  | .sel g d a b c e => some { op := 0x089#10, ga := g.ga.code, gb := g.gb.code, d := d.code, a := a.code, b := b.code, c := c.code, e := e }
  | .dot g sat d a b c e => some { op := 0x08A#10, ga := g.ga.code, gb := g.gb.code, d := d.code, a := a.code, b := b.code, c := c.code, e := e, m := encFlag sat }
  | .acs g d a b c n => some { op := 0x08B#10, ga := g.ga.code, gb := g.gb.code, d := d.code, a := a.code, b := b.code, c := c.code, e := n }
  | .and g d a b e => some { op := 0x0C0#10, ga := g.ga.code, gb := g.gb.code, d := d.code, a := a.code, b := b.code, e := e }
  | .or g d a b e => some { op := 0x0C1#10, ga := g.ga.code, gb := g.gb.code, d := d.code, a := a.code, b := b.code, e := e }
  | .xor g d a b e => some { op := 0x0C2#10, ga := g.ga.code, gb := g.gb.code, d := d.code, a := a.code, b := b.code, e := e }
  | .not g d a e => some { op := 0x0C3#10, ga := g.ga.code, gb := g.gb.code, d := d.code, a := a.code, e := e }
  | .shl g d a b e => some { op := 0x0C4#10, ga := g.ga.code, gb := g.gb.code, d := d.code, a := a.code, b := b.code, e := e }
  | .shr g d a b e => some { op := 0x0C5#10, ga := g.ga.code, gb := g.gb.code, d := d.code, a := a.code, b := b.code, e := e }
  | .sar g d a b e => some { op := 0x0C6#10, ga := g.ga.code, gb := g.gb.code, d := d.code, a := a.code, b := b.code, e := e }
  | .rot g d a b e => some { op := 0x0C7#10, ga := g.ga.code, gb := g.gb.code, d := d.code, a := a.code, b := b.code, e := e }
  | .bfe g sgn d a b c e => some { op := 0x0C8#10, ga := g.ga.code, gb := g.gb.code, d := d.code, a := a.code, b := b.code, c := c.code, e := e, m := encFlag sgn }
  | .bfi g d a b c e => some { op := 0x0C9#10, ga := g.ga.code, gb := g.gb.code, d := d.code, a := a.code, b := b.code, c := c.code, e := e }
  | .popc g d a e => some { op := 0x0CA#10, ga := g.ga.code, gb := g.gb.code, d := d.code, a := a.code, e := e }
  | .clz g d a e => some { op := 0x0CB#10, ga := g.ga.code, gb := g.gb.code, d := d.code, a := a.code, e := e }
  | .brev g d a e => some { op := 0x0CC#10, ga := g.ga.code, gb := g.gb.code, d := d.code, a := a.code, e := e }
  | .mulhi g d a b e => some { op := 0x0CD#10, ga := g.ga.code, gb := g.gb.code, d := d.code, a := a.code, b := b.code, e := e }
  | .cvt g t sr d a j => some { op := 0x0CE#10, ga := g.ga.code, gb := g.gb.code, d := d.code, a := a.code, e := j, m := encCvt t sr }
  | .pack g d a j => some { op := 0x0CF#10, ga := g.ga.code, gb := g.gb.code, d := d.code, a := a.code, e := j }
  | .unpk g d a j => some { op := 0x0D0#10, ga := g.ga.code, gb := g.gb.code, d := d.code, a := a.code, e := j }
  | .rcp g d a e => some { op := 0x0D1#10, ga := g.ga.code, gb := g.gb.code, d := d.code, a := a.code, e := e }
  | .rsq g d a e => some { op := 0x0D2#10, ga := g.ga.code, gb := g.gb.code, d := d.code, a := a.code, e := e }
  | .sqrt g d a e => some { op := 0x0D3#10, ga := g.ga.code, gb := g.gb.code, d := d.code, a := a.code, e := e }
  | .exp2 g d a e => some { op := 0x0D4#10, ga := g.ga.code, gb := g.gb.code, d := d.code, a := a.code, e := e }
  | .log2 g d a e => some { op := 0x0D5#10, ga := g.ga.code, gb := g.gb.code, d := d.code, a := a.code, e := e }
  | .sin g d a e => some { op := 0x0D6#10, ga := g.ga.code, gb := g.gb.code, d := d.code, a := a.code, e := e }
  | .cos g d a e => some { op := 0x0D7#10, ga := g.ga.code, gb := g.gb.code, d := d.code, a := a.code, e := e }
  | .rand g d => some { op := 0x0D8#10, ga := g.ga.code, gb := g.gb.code, d := d.code }
  | .tagset g t d a b => some { op := 0x0D9#10, ga := g.ga.code, gb := g.gb.code, d := d.code, a := a.code, b := b.code, m := encTag t }
  | .tagsetPort g t d a b e => some { op := 0x0D9#10, ga := g.ga.code, gb := g.gb.code, d := d.code, a := a.code, b := b.code, e := e, m := encTag t }
  | .tagget d a => some { op := 0x0DA#10, d := d.code, a := a.code }
  | .metard d a => some { op := 0x0DB#10, d := d.code, a := a.code }
  | .metawr d b => some { op := 0x0DC#10, d := d.code, b := b.code }
  | .mov g d a => some { op := 0x0DD#10, ga := g.ga.code, gb := g.gb.code, d := d.code, a := a.code }
  | .movPort g d a e => some { op := 0x0DD#10, ga := g.ga.code, gb := g.gb.code, d := d.code, a := a.code, e := e }
  | .movTag g t d a => some { op := 0x0DD#10, ga := g.ga.code, gb := g.gb.code, d := d.code, a := a.code, m := encTag t }
  | .li g t d imm => some (Fields.iForm 0x0DE#10 g.ga.code g.gb.code d.code imm (t.code))
  | .dbr target reconv pg => some { op := 0x100#10, d := target.extractLsb' 8 8, a := target.extractLsb' 0 8, b := reconv.extractLsb' 8 8, c := reconv.extractLsb' 0 8, e := pg.code }
  | .join => some { op := 0x101#10 }
  | .brk g target n => some { op := 0x102#10, ga := g.ga.code, gb := g.gb.code, d := target.extractLsb' 8 8, a := target.extractLsb' 0 8, e := n }
  | .exitl g => some { op := 0x103#10, ga := g.ga.code, gb := g.gb.code }
  | .vote md d a b => some { op := 0x104#10, d := d.code, a := a.code, b := b.code, m := md.code }
  | .shfl md d a b c pe => some { op := 0x105#10, d := d.code, a := a.code, b := b.code, c := c.code, e := pe.zeroExtend 4, m := md.code }
  | .perm d a b c pe => some { op := 0x106#10, d := d.code, a := a.code, b := b.code, c := c.code, e := pe.zeroExtend 4 }
  | .bcst d a b c pe => some { op := 0x107#10, d := d.code, a := a.code, b := b.code, c := c.code, e := pe.zeroExtend 4 }
  | .scan op excl d a b => some { op := 0x108#10, d := d.code, a := a.code, b := b.code, m := encScan op excl }
  | .regrp => some { op := 0x109#10 }
  | .ungrp => some { op := 0x10A#10 }
  | .xeq g t a => some { op := 0x10B#10, ga := g.ga.code, gb := g.gb.code, a := a.code, m := encFlag t }
  | .maskrd d a b => some { op := 0x10C#10, d := d.code, a := a.code, b := b.code }
  | .maskwr d a b => some { op := 0x10D#10, d := d.code, a := a.code, b := b.code }
  | .deadrd d => some { op := 0x10E#10, d := d.code }
  | .blen g d a => some { op := 0x140#10, ga := g.ga.code, gb := g.gb.code, d := d.code, a := a.code }
  | .bnorm g d a => some { op := 0x141#10, ga := g.ga.code, gb := g.gb.code, d := d.code, a := a.code }
  | .bshl g d a b => some { op := 0x142#10, ga := g.ga.code, gb := g.gb.code, d := d.code, a := a.code, b := b.code }
  | .bshr g d a b => some { op := 0x143#10, ga := g.ga.code, gb := g.gb.code, d := d.code, a := a.code, b := b.code }
  | .bcmp g mag d a b => some { op := 0x144#10, ga := g.ga.code, gb := g.gb.code, d := d.code, a := a.code, b := b.code, m := encFlag mag }
  | .bdivs g d a b c => some { op := 0x145#10, ga := g.ga.code, gb := g.gb.code, d := d.code, a := a.code, b := b.code, c := c.code }
  | .cres g h d a b => some { op := 0x146#10, ga := g.ga.code, gb := g.gb.code, d := d.code, a := a.code, b := b.code, m := encFlag h }
  | .bsplit g d a => some { op := 0x147#10, ga := g.ga.code, gb := g.gb.code, d := d.code, a := a.code }
  | .bjoin g d a b => some { op := 0x148#10, ga := g.ga.code, gb := g.gb.code, d := d.code, a := a.code, b := b.code }
  | .baddc g cin d a b => some { op := 0x149#10, ga := g.ga.code, gb := g.gb.code, d := d.code, a := a.code, b := b.code, m := encFlag cin }
  | .bsubc g cin d a b => some { op := 0x14A#10, ga := g.ga.code, gb := g.gb.code, d := d.code, a := a.code, b := b.code, m := encFlag cin }
  | .bmulw g d a b c => some { op := 0x14B#10, ga := g.ga.code, gb := g.gb.code, d := d.code, a := a.code, b := b.code, c := c.code }
  | .bmodw g d a b => some { op := 0x14C#10, ga := g.ga.code, gb := g.gb.code, d := d.code, a := a.code, b := b.code }
  | .btom g all d a b c => some { op := 0x14D#10, ga := g.ga.code, gb := g.gb.code, d := d.code, a := a.code, b := b.code, c := c.code, m := encFlag all }
  | .lmulm o sc d a b c => some { op := 0x14E#10, d := d.code, a := a.code, b := b.code, c := c.code, m := encOS o sc 0#3 }
  | .bopm o sc se d a b c bsub => some { op := 0x14F#10, d := d.code, a := a.code, b := b.code, c := c.code, e := encFlag4 bsub, m := encOS o sc (encLow se) }
  | .ld g o sc ev d a b wd => some { op := 0x180#10, ga := g.ga.code, gb := g.gb.code, d := d.code, a := a.code, b := b.code, e := wd.code, m := encOS o sc ev }
  | .ldt g o sc ev d a b t => some { op := 0x181#10, ga := g.ga.code, gb := g.gb.code, d := d.code, a := a.code, b := b.code, e := t.code, m := encOS o sc ev }
  | .st g o sc ev a b c wd => some { op := 0x182#10, ga := g.ga.code, gb := g.gb.code, a := a.code, b := b.code, c := c.code, e := wd.code, m := encOS o sc ev }
  | .lds g o sc d a b wd => some { op := 0x183#10, ga := g.ga.code, gb := g.gb.code, d := d.code, a := a.code, b := b.code, e := wd.code, m := encOS o sc 0#3 }
  | .sts g o sc a b c wd => some { op := 0x184#10, ga := g.ga.code, gb := g.gb.code, a := a.code, b := b.code, c := c.code, e := wd.code, m := encOS o sc 0#3 }
  | .ldb g o sc ev d a b c => some { op := 0x185#10, ga := g.ga.code, gb := g.gb.code, d := d.code, a := a.code, b := b.code, c := c.code, m := encOS o sc ev }
  | .stb g o sc ev a b c => some { op := 0x186#10, ga := g.ga.code, gb := g.gb.code, a := a.code, b := b.code, c := c.code, m := encOS o sc ev }
  | .atomAdd g o sc ev d a b c wd => some { op := 0x188#10, ga := g.ga.code, gb := g.gb.code, d := d.code, a := a.code, b := b.code, c := c.code, e := wd.code, m := encOS o sc ev }
  | .atomMin g o sc ev d a b c wd => some { op := 0x189#10, ga := g.ga.code, gb := g.gb.code, d := d.code, a := a.code, b := b.code, c := c.code, e := wd.code, m := encOS o sc ev }
  | .atomMax g o sc ev d a b c wd => some { op := 0x18A#10, ga := g.ga.code, gb := g.gb.code, d := d.code, a := a.code, b := b.code, c := c.code, e := wd.code, m := encOS o sc ev }
  | .atomAnd g o sc ev d a b c wd => some { op := 0x18B#10, ga := g.ga.code, gb := g.gb.code, d := d.code, a := a.code, b := b.code, c := c.code, e := wd.code, m := encOS o sc ev }
  | .atomOr g o sc ev d a b c wd => some { op := 0x18C#10, ga := g.ga.code, gb := g.gb.code, d := d.code, a := a.code, b := b.code, c := c.code, e := wd.code, m := encOS o sc ev }
  | .atomXor g o sc ev d a b c wd => some { op := 0x18D#10, ga := g.ga.code, gb := g.gb.code, d := d.code, a := a.code, b := b.code, c := c.code, e := wd.code, m := encOS o sc ev }
  | .atomExch g o sc ev d a b c wd => some { op := 0x18E#10, ga := g.ga.code, gb := g.gb.code, d := d.code, a := a.code, b := b.code, c := c.code, e := wd.code, m := encOS o sc ev }
  | .atomFadd g o sc ev d a b c wd => some { op := 0x18F#10, ga := g.ga.code, gb := g.gb.code, d := d.code, a := a.code, b := b.code, c := c.code, e := wd.code, m := encOS o sc ev }
  | .cas g o sc ev d a b c wd => some { op := 0x190#10, ga := g.ga.code, gb := g.gb.code, d := d.code, a := a.code, b := b.code, c := c.code, e := wd.code, m := encOS o sc ev }
  | .aod g sc op d a b c wd => some { op := 0x191#10, ga := g.ga.code, gb := g.gb.code, d := d.code, a := a.code, b := b.code, c := c.code, e := wd.code, m := encOS .rlx sc op.code }
  | .fence o sc => some { op := 0x192#10, m := encOS o sc 0#3 }
  | .mwait o sc d a b c stamp dbl cc => some { op := 0x193#10, d := d.code, a := a.code, b := b.code, c := c.code, e := encMwaitE stamp dbl cc, m := encOS o sc 0#3 }
  | .prf g sc ev a b => some { op := 0x194#10, ga := g.ga.code, gb := g.gb.code, a := a.code, b := b.code, m := encOS .rlx sc ev }
  | .l1inv => some { op := 0x195#10 }
  | .ringdef t a b c r => some { op := 0x1C0#10, a := a.code, b := b.code, c := c.code, e := r, m := encTag t }
  | .ringclrDrop r => some { op := 0x1C1#10, e := r }
  | .ringclrStop r => some { op := 0x1C1#10, e := r, m := 1#8 }
  | .qbind push d r => some { op := 0x1C2#10, d := d.code, e := r, m := encFlag push }
  | .qbindUn d => some { op := 0x1C2#10, d := d.code, m := 2#8 }
  | .qpeek g d a pe => some { op := 0x1C3#10, ga := g.ga.code, gb := g.gb.code, d := d.code, a := a.code, e := pe.zeroExtend 4 }
  | .qeos a b => some { op := 0x1C4#10, a := a.code, b := b.code }
  | .qstat d a => some { op := 0x1C5#10, d := d.code, a := a.code }
  | .slay o sc a b c k => some { op := 0x1C6#10, a := a.code, b := b.code, c := c.code, e := k, m := encOS o sc 0#3 }
  | .scmdFill o sc se a b c => some { op := 0x1C7#10, a := a.code, b := b.code, c := c.code, m := encOS o sc (encLow se) }
  | .scmdDrain o sc se a b c => some { op := 0x1C7#10, a := a.code, b := b.code, c := c.code, e := 1#4, m := encOS o sc (encLow se) }
  | .scmdCopy o sc se a b c => some { op := 0x1C7#10, a := a.code, b := b.code, c := c.code, e := 2#4, m := encOS o sc (encLow se) }
  | .scmdMcast o sc se a b c => some { op := 0x1C7#10, a := a.code, b := b.code, c := c.code, e := 3#4, m := encOS o sc (encLow se) }
  | .scmdRfill o sc se a b c eos => some { op := 0x1C7#10, a := a.code, b := b.code, c := c.code, e := encKind 4#4 eos, m := encOS o sc (encLow se) }
  | .scmdRdrain o sc se a b c eos => some { op := 0x1C7#10, a := a.code, b := b.code, c := c.code, e := encKind 5#4 eos, m := encOS o sc (encLow se) }
  | .scmdStamp o sc se a c => some { op := 0x1C7#10, a := a.code, c := c.code, e := 6#4, m := encOS o sc (encLow se) }
  | .scmdColl o sc se a b c => some { op := 0x1C7#10, a := a.code, b := b.code, c := c.code, e := 7#4, m := encOS o sc (encLow se) }
  | .mloop o sc sn a b tile => some { op := 0x200#10, a := a.code, b := b.code, e := tile, m := encOS o sc (encStream sn false) }
  | .mzero sn pair b tile => some { op := 0x201#10, b := b.code, e := tile, m := encOS .rlx .wave (encStream sn pair) }
  | .mldt o sc sn tr a b c tile => some { op := 0x202#10, a := a.code, b := b.code, c := c.code, e := tile, m := encOS o sc (encStream sn tr) }
  | .mldtScale o sc sn a b c => some { op := 0x202#10, a := a.code, b := b.code, c := c.code, e := 8#4, m := encOS o sc (encStream sn false) }
  | .mstt o sc sn tr d a b c tile => some { op := 0x203#10, d := d.code, a := a.code, b := b.code, c := c.code, e := tile, m := encOS o sc (encStream sn tr) }
  | .msttScale o sc sn a b c => some { op := 0x203#10, a := a.code, b := b.code, c := c.code, e := 8#4, m := encOS o sc (encStream sn false) }
  | .mfence b k => some { op := 0x204#10, b := b.code, e := k }
  | .mprg sn d b => some { op := 0x205#10, d := d.code, b := b.code, m := encOS .rlx .wave (encStream sn false) }
  | .mtab o sc a b c => some { op := 0x240#10, a := a.code, b := b.code, c := c.code, m := encOS o sc 0#3 }
  | .mred g dbl d a b => some { op := 0x241#10, ga := g.ga.code, gb := g.gb.code, d := d.code, a := a.code, b := b.code, m := encFlag dbl }
  | .mlift g sgn d a => some { op := 0x242#10, ga := g.ga.code, gb := g.gb.code, d := d.code, a := a.code, m := encFlag sgn }
  | .nttf o sc d a c => some { op := 0x243#10, d := d.code, a := a.code, c := c.code, m := encOS o sc 0#3 }
  | .ntti o sc d a c => some { op := 0x244#10, d := d.code, a := a.code, c := c.code, m := encOS o sc 0#3 }
  | .auto o sc se a b c ntt => some { op := 0x245#10, a := a.code, b := b.code, c := c.code, e := encFlag4 ntt, m := encOS o sc (encLow se) }
  | .ctchk o sc t d a b pair => some { op := 0x246#10, d := d.code, a := a.code, b := b.code, e := encFlag4 pair, m := encOS o sc (encLow t) }
  | .ctresc o sc rnd a => some { op := 0x247#10, a := a.code, m := encOS o sc (encLow rnd) }
  | .ctlvl o sc d a => some { op := 0x248#10, d := d.code, a := a.code, m := encOS o sc 0#3 }
  | .halloc z t d a pe => some { op := 0x280#10, d := d.code, a := a.code, e := pe.zeroExtend 4, m := encHalloc z t }
  | .hfree a => some { op := 0x281#10, a := a.code }
  | .hstat d a => some { op := 0x282#10, d := d.code, a := a.code }
  | .mark imm => some (Fields.iForm 0x283#10 7#4 7#4 0#8 imm (0#4))
  | .scrdl o sc a b c => some { op := 0x284#10, a := a.code, b := b.code, c := c.code, m := encOS o sc 0#3 }
  | .tierq o sc die a b c act => some { op := 0x285#10, a := a.code, b := b.code, c := c.code, e := act.code, m := encOS o sc (die.zeroExtend 3) }
  | .launch o sc d a => some { op := 0x286#10, d := d.code, a := a.code, m := encOS o sc 0#3 }
  | .nrec g o sc d a b => some { op := 0x287#10, ga := g.ga.code, gb := g.gb.code, d := d.code, a := a.code, b := b.code, m := encOS o sc 0#3 }
  | .nflush all a b => some { op := 0x288#10, a := a.code, b := b.code, m := encFlag all }
  | .grow t a pe => some { op := 0x289#10, a := a.code, e := pe.zeroExtend 4, m := encFlag t }
  | .shrink a => some { op := 0x28A#10, a := a.code }
  | .enrd d a => some { op := 0x28B#10, d := d.code, a := a.code }
  | .trap code a => some { op := 0x2C0#10, a := a.code, m := code.zeroExtend 8 }
  | .rte => some { op := 0x2C1#10 }
  | .bkpt n => some { op := 0x2C2#10, e := n }
  | .csrd d b => some { op := 0x2C3#10, d := d.code, b := b.code }
  | .cswr a b => some { op := 0x2C4#10, a := a.code, b := b.code }
  | .tlbinvPage a b => some { op := 0x2C5#10, a := a.code, b := b.code }
  | .tlbinvCtx b => some { op := 0x2C5#10, b := b.code, m := 1#8 }
  | .tlbinvAll => some { op := 0x2C5#10, m := 2#8 }
  | .cmmt => some { op := 0x2C6#10 }
  | .wkill a => some { op := 0x2C7#10, a := a.code }
  | .prmtSave d a => some { op := 0x2C8#10, d := d.code, a := a.code }
  | .prmtRestore d a => some { op := 0x2C8#10, d := d.code, a := a.code, m := 1#8 }
  | .computedWord _ => none
  | .lmulmStep _ _ => none
  | .monitorFire _ => none
  | .mwaitBackOff _ => none
  | .ringPop _ => none
  | .ringPush _ => none
  | .streamBoxStep _ _ => none
  | .streamCommandStart _ _ => none
  | .rfillUnitClaim _ _ => none
  | .rdrainUnitTake _ _ => none
  | .matrixRowStep _ _ => none
  | .nttStep _ => none
  | .heapCommandApply _ => none
  | .clauseStart _ => none
  | .agingLimit _ => none
  | .countedOperationComplete _ _ => none
  | .storePerform _ => none
  | .barrierPhaseCompletion _ _ _ _ => none
  | .livelock _ => none
  | .watchdog _ => none
  | .singleStep _ => none
  | .eventDelivery _ => none
  | .debugBreak _ _ => none
  | .park _ => none
  | .partitionSave _ => none
  | .partitionRestore _ _ => none
  | .preemptionTimeout _ => none
  | .commit _ => none
  | .uncorrectableError _ => none
  | .hostQueueDoorbell _ _ => none
  | .hostLaunch _ _ => none
  | .activate _ _ => none
  | .deactivate _ _ => none
  | .completionRecordWrite _ _ => none
  | .groupAdmission _ => none
  | .passOverLimit _ _ => none
  | .growGrant _ => none
  | .growDeadlockFail _ => none
  | .binTimeout _ _ _ => none
  | .launchDrain _ => none
  | .fetch _ _ _ _ _ => none
  | .evict _ _ _ => none
  | .shootdown _ => none
  | .faultReplay _ => none
  | .screedEntryEnd _ _ => none
  | .collectiveInstanceStart _ _ _ => none
  | .flitReceive _ _ _ _ => none
  | .flitArrive _ _ _ _ _ => none
  | .flitTake _ _ _ => none
  | .flitSend _ _ _ _ => none
  | .flitAck _ _ _ _ => none
  | .flitAsk _ _ _ _ => none
  | .replayLimit _ _ => none
  | .railLoss _ _ _ => none
  | .trainingEnd _ _ _ _ => none
  | .pause _ _ _ => none
  | .resume _ _ _ => none
  | .recoveryHoldExpiry _ _ => none
  | .bridgeError _ _ => none
  | .powerOn => none
  | .bellowsUpdate => none
  | .throttle _ _ => none
  | .thermalHalt _ _ => none
  | .formPartitions => none
  | .registerHostQueue => none
  | .unregisterHostQueue => none
  | .setBellows => none
  | .setPackageLimit => none
  | .setFramePool => none
  | .writeRouteTable => none
  | .setPodRank => none
  | .preEmpt => none
  | .restore => none
  | .moveImage => none
  | .resetPartition => none
  | .invalidateTranslations => none
  | .attestationReport => none
  | .readErrorRecords => none
  | .loadFirmwareImage => none
  | .positionAperture => none
  | .registerWrite _ _ => none
  | .logicalCoreChange _ => none
  | .registerRead _ => none
  | .apertureAccess _ _ _ => none
  | .temperatureFalls _ _ => none
  | .lossOfPackagePower => none
  | .bringPortUp _ _ => none
  | .fatalHostRequest _ => none
  | .controllerInternalError _ => none

/-- The encoder: the word of an instruction, with the given scheduling bits. -/
def encode (i : Instr) (sc : BitVec 2) : Option Word := i.fields.map (·.toWord sc)

/-- The instruction that a table word of `nbits` bits holds: every instruction is one 64-bit word (spec/02 R37), whose bits
above `nbits` are zero. -/
def decodeTableWord (nbits w : Nat) : Option Instr :=
  match decodeWord (BitVec.ofNat 64 (w % 2 ^ nbits)) with
  | .ok i => some i
  | .error _ => none

/-- Classes whose last-only instructions may stand only at the end of a clause (spec/02 R50). -/
def Instr.lastOnly : Instr → Bool
  | .bru .. | .brs .. | .jmps .. | .call .. | .calls .. | .ret .. | .exitw .. => true
  | .dbr .. | .join .. | .brk .. | .exitl .. => true
  | .rte .. => true
  | _ => false

/-- Whether a word, by its operation code, is a last-only instruction (spec/02 R50). -/
def wordLastOnly (w : Word) : Bool :=
  let op := (w.extractLsb' 54 10).toNat
  op == 0x001 || op == 0x002 || op == 0x003 || op == 0x004 || op == 0x005 || op == 0x006 || op == 0x00C ||
  op == 0x100 || op == 0x101 || op == 0x102 || op == 0x103 || op == 0x2C1

/-- A clause header (spec/02 R47). -/
structure Header where
  cls : BitVec 4
  /-- COUNT, 1 to 16 -/
  count : Nat
  wld : BitVec 6
  wst : BitVec 6
  wcp : BitVec 6
  wtl : BitVec 6
  y : Bool
  crc : BitVec 16
deriving DecidableEq, Repr

/-- The header that a word holds; none when it is not a header or breaks the table (spec/02 R47, R56). -/
def Header.ofWord (w : Word) : Option Header :=
  if w.extractLsb' 56 8 != 0xFC#8 then none
  else if w.extractLsb' 52 4 == 12#4 || w.extractLsb' 52 4 == 13#4 || w.extractLsb' 52 4 == 14#4 then none
  else if w.extractLsb' 16 7 != 0#7 then none
  else some {
    cls := w.extractLsb' 52 4
    count := (w.extractLsb' 48 4).toNat + 1
    wld := w.extractLsb' 42 6
    wst := w.extractLsb' 36 6
    wcp := w.extractLsb' 30 6
    wtl := w.extractLsb' 24 6
    y := w.getLsbD 23
    crc := w.extractLsb' 0 16 }

/-- The word of a header. -/
def Header.toWord (h : Header) : Word :=
  0xFC#8 ++ h.cls ++ (BitVec.ofNat 4 (h.count - 1)) ++ h.wld ++ h.wst ++ h.wcp ++ h.wtl ++ BitVec.ofBool h.y ++ 0#7 ++ h.crc

end Sys2Proof
end

