-- ==== Sys2Proof/Machine/State.lean ====
section
/-! DEFINITION. The state of the whole package as plain data, the reasons a step can stop, and the state after reset.
Names follow spec/; a list's index is the identity of what it holds (a wave, a group, a launch), and a record that has
ended stays in its list. Fields marked "model's own" are no state of the spec (log entries 2, 4). -/

namespace Sys2Proof.Machine

/-- Bytes at addresses, in one canonical form: addresses strictly rising and no byte zero; an unlisted byte reads as zero
(log entry 1). -/
abbrev Memory := List Host.Cell

/-- A wave's position: the header of its clause and the index of the next instruction (spec/02 R46). -/
structure Pos where
  hdr : Word
  idx : Nat
deriving DecidableEq, Repr, Inhabited

/-- A vector register: 32 bits per lane and one metadata word (spec/03 R92). -/
structure VReg where
  lanes : List Lane
  md : BitVec 32
deriving DecidableEq, Repr, Inhabited

/-- The instruction that makes an access: where it stands and, of a command that an engine carries out, the operation that it counted
(spec/04 R177). -/
structure Origin where
  pos : Pos
  key : Option Nat := none
deriving DecidableEq, Repr, Inhabited

/-- STATE of a path record (spec/05 R182). -/
inductive PathState where
  | free | run | pend | mwait
deriving DecidableEq, Repr, Inhabited

/-- A path record (spec/05 R182). `mset` is the member set with which an MWAIT path arrived (R198); `due` marks a path that
waited and is current again, with its position: the set became complete, or no path can complete it (R200). -/
structure PathRec where
  st : PathState
  pos : Pos
  mask : Mask
  reg : BitVec 6
  mset : Word
  due : Option (Pos × Bool) := none
deriving DecidableEq, Repr, Inhabited

/-- A region entry (spec/05 R182). -/
structure Region where
  valid : Bool
  ra : BitVec 61
  par : BitVec 6
  live : Mask
  arr : Mask
deriving DecidableEq, Repr, Inhabited

/-- ROOT, the outermost level (spec/05 R182). -/
def root : BitVec 6 := 63#6

/-- Lane-control state of a wave (spec/05 R180 to R213) and the per-lane keys of `rand` (spec/03 R134). -/
structure LaneCtl where
  paths : List PathRec
  regions : List Region
  dead : Mask
  exited : Mask
  xfault : Mask
  gmap : List Nat
  randG : List (BitVec 32)
  randC : List Nat
  xprog : BitVec 32
  /-- XM, the chanter's lane snapshot (R213) -/
  xm : Mask
  /-- dead lanes that leave the masks when the `xeq` in progress ends (R217) -/
  dying : Mask
deriving DecidableEq, Repr, Inhabited

/-- Trap state of a wave (spec/11 R345 to R354). `entry…` is what `rte` checks; `opened` marks the regions opened in the
handler. -/
structure TrapState where
  hm : Bool
  cause : Word
  tcla : Word
  tinf : Word
  tword : Word
  taddr : Word
  tlanes : Mask
  txprog : BitVec 32
  /-- the chanter's lane snapshot of the interrupted program (spec/05 R213) -/
  txm : Mask
  ss : Bool
  entryPath : Nat
  entryMask : Mask
  entryReg : BitVec 6
  opened : BitVec 32
  pend20 : Option (Bool × Word)
  pend21 : Option Mask
  pend22 : Option Word
  /-- the clause's waits had been applied at entry, so that `rte` does not apply them again (spec/02 R55) -/
  inClause : Bool
  /-- single step armed: one more instruction of the program issues (R350) -/
  armed : Bool
  /-- the word after which trap 0x1C is due (R350) -/
  stepDue : Option Word
  /-- the `halloc.t` at which the wave was stalled when it was interrupted: its position, its operation and its reply, which it
  finds when it is replayed (spec/08 R287) -/
  heapSaved : Option (Pos × Nat × Option (Except (BitVec 6 × Word) Word))
  /-- what the interrupted instruction had done, by position: a made arrival of a `bar`, a requested `prmt`, records of an
  `nrec` that have entered (spec/11 R351, R362, spec/12 R387) -/
  barSaved : Option Pos
  prmtSaved : Option (Pos × Nat × Nat)
  nrecSaved : Option (Pos × Nat)
deriving DecidableEq, Repr, Inhabited

/-- A register write that a counted operation makes at completion (spec/01 R21). For a vector register the new metadata
word is (old AND `keep`) OR `val`; a scalar destination of the handler bank is marked `hb`. -/
inductive Dest where
  | v (r : Nat) (mask : Mask) (vals : List Lane) (keep val : BitVec 32)
  | s (r : Nat) (hb : Bool) (x : Word)
  | p (r : BitVec 3) (mask : Mask) (bits : Mask)
deriving DecidableEq, Repr

/-- An outstanding counted operation (spec/01 R18 to R22). `key` numbers the operations of the wave; `ready` says that the
operation has completed and is held until it is the oldest of its class. -/
structure Pend where
  cls : Cls
  key : Nat
  ready : Bool
  dests : List Dest
deriving DecidableEq, Repr

/-- A store on its way: the bytes to write, in memory or in the group's scratchpad, and the counted operation that its
performance completes, if any (spec/04 R168, spec/01 R19). -/
structure QStore where
  key : Option Nat
  sp : Bool
  bytes : List (Nat × Byte)
  /-- of the old generation of a shootdown in progress (spec/13 R410) -/
  old : Bool := false
deriving DecidableEq, Repr, Inhabited

/-- Why a wave is stalled (spec/02 R53, spec/12 R394). The last line holds the stalls that R53 does not list: the waits of an
ending wave, of `shrink`, `regrp`, `ringclr.drop` and tier instructions; a lane death that drains a wave; a recovery hold;
a demand fault; a `prmt` in progress; a twin that awaits its primary's result, at an instruction that R53 lists or at another;
parking; and, in deterministic mode, a full queue of an engine that goes on without a wave of the core (log entry 40). -/
inductive Why where
  | clause | waitOp | counter (c : Cls) | barrier (sc : Scope) (id : BitVec 4) | monitor | ring | queue | grow | member
  | reply | commit
  | ending | settle | drain | hold | fault | prmt | twin (listed : Bool) | park | busy
deriving DecidableEq, Repr

/-- What a wave waits for since it switched away other than by `yield` (spec/12 R394). -/
inductive WaitFor where
  | barrier (sc : Scope) (id : BitVec 4) (phase : Nat)
  | ring (r : Nat) (push : Bool) (k : Nat)
  | commit
  | other
deriving DecidableEq, Repr

/-- Kinds of arrival at a commit point (spec/15 R446). -/
inductive Arrive where
  | cmmt | forcing | barrier | exit
deriving DecidableEq, Repr

/-- A result that the primary copy forwards to its twin (spec/15 R451). -/
structure Fwd where
  val : Word
  pred : Bool
  trap : Option (BitVec 6 × Word)
  /-- the kind and operands of a heap command, which both copies give alike (spec/08 R290) -/
  what : Word := 0
  /-- the primary's heap or tier-engine command whose reply is still to come -/
  due : Option Nat := none
  /-- the primary was in handler mode -/
  hm : Bool := false
deriving DecidableEq, Repr, Inhabited

/-- Who and where a wave is (spec/01 R12, spec/12 R378); `core`, `group`, `launch`, `part` index the lists of State. -/
structure WaveId where
  core : Nat
  slot : Nat
  group : Nat
  launch : Nat
  part : Nat
  ctx : Nat
  widx : Nat
  width : Nat
  waveid : BitVec 32
  grpid : BitVec 32
deriving DecidableEq, Repr, Inhabited

/-- Memory side of a wave: store queue, outstanding operations, race-detector state and signatures (spec/04 R168, R175,
spec/01 R18, spec/15 R445). -/
structure WaveMem where
  storeQ : List QStore
  outst : List Pend
  interval : BitVec 22
  acqs : List (BitVec 21 × BitVec 22)
  sig : Word
  esig : Word
  /-- the sector a parked `mwait` monitors (R159) -/
  monitor : Option (Bool × Nat)
  /-- issue slots of the core when an `mwait` that polls last evaluated (R159) -/
  polled : Option Nat
deriving DecidableEq, Repr, Inhabited

/-- Command numbers of a wave (NUM of events: spec/06 R235 and the other engines' rules), `key` for operations. -/
structure WaveNums where
  key : Nat
  scmd : BitVec 32
  lmulm : BitVec 32
  matrix : BitVec 32
  ntt : BitVec 32
  heap : BitVec 32
  tier : BitVec 32
deriving DecidableEq, Repr, Inhabited

/-- Scheduling state of a wave. -/
structure WaveSched where
  /-- the clause's header was fetched and its waits were applied (spec/02 R51, R55) -/
  started : Bool
  /-- the clause is resumed: its wait fields are not applied again (spec/02 R55) -/
  resume : Bool
  /-- COUNT of the clause, from its header (spec/02 R47) -/
  count : Nat
  /-- the choice that Y or aging asks for at this clause's start was made (spec/02 R53, R54) -/
  y : Bool
  stall : Option Why
  halted : Bool
  parked : Bool
  ended : Bool
  /-- issue slots of the core when the wave became ready (spec/12 R380) -/
  readyAt : Nat
  /-- a switch away other than by yield, until the wave proceeds (spec/12 R394) -/
  waiting : Option WaitFor
  backward : Nat
  /-- watchdog counter in clk (spec/11 R352) -/
  wd : Nat
  retired : Nat
  arrived : Option Arrive
  /-- pending-arrival bits: scope, identifier and the phase joined (spec/02 R79) -/
  arrivals : List (Scope × BitVec 4 × Nat)
  /-- the `bar` whose arrival is made, by position: it resumes as `barw` (spec/11 R351) -/
  barArrived : Option Pos
  /-- the operation of the `halloc.t` at which the wave stalls, and its reply: the address, or the trap (spec/08 R284) -/
  heapWait : Option Nat
  heapReply : Option (Except (BitVec 6 × Word) Word)
  /-- registers that a stalled `grow` requests, and whether the request is granted or failed (spec/12 R382, R383) -/
  growWant : Option Nat
  growGrant : Option Bool
  /-- a `prmt` whose request was accepted and is not finished: its position, the partition and how many of the partition's saves and
  restores had ended (spec/11 R362) -/
  prmt : Option (Pos × Nat × Nat)
  /-- a `tlbinv` whose shootdown waits: its number (spec/13 R410) -/
  shoot : Option Nat := none
  /-- an `nrec` that waits for a free batch: its position, and how many of its records have entered (spec/12 R387) -/
  nrec : Option (Pos × Nat)
  /-- what a stalled ring access waits for: the ring, whether it pushes, and how many elements (spec/12 R394) -/
  need : Option (Nat × Bool × Nat)
  /-- sectors of which a race of an instruction that has not ended is logged (spec/04 R177) -/
  raced : List (Origin × Nat) := []
deriving DecidableEq, Repr, Inhabited

/-- A wave (spec/02, spec/03, spec/05, spec/11). -/
structure Wave where
  id : WaveId
  /-- S0 to S63, program bank -/
  s : List Word
  /-- S56 to S63, handler bank -/
  hb : List Word
  cy : Bool
  hcy : Bool
  fflags : BitVec 5
  amr : Word
  nttthr : BitVec 32
  convGen : BitVec 32
  /-- P0 to P6 -/
  preds : List Mask
  /-- V registers below the wave's count -/
  v : List VReg
  lc : LaneCtl
  tr : TrapState
  mem : WaveMem
  num : WaveNums
  sch : WaveSched
  /-- Q12 and its overflow mark (spec/06 R235) -/
  evq : List Word
  ovf : Bool
  /-- port bindings Q0 to Q7: ring and push (spec/06 R241) -/
  ports : List (Option (BitVec 4 × Bool))
  /-- results forwarded from the primary copy, oldest first (spec/15 R451) -/
  fwd : List Fwd
  /-- the word that the sequencer last issued for this wave, for the trap state -/
  word : Word
deriving DecidableEq, Repr, Inhabited

/-- A layout record (spec/06 R218). -/
structure Layout where
  base : Word
  rank : Nat
  sizes : List Nat
  strides : List Int
  boxes : List Nat
  bxl : Bool
  box0 : Nat
  sfmt : Nat
  conv : Nat
  swz : Nat
  logn : Nat
  g : Nat
  dies : BitVec 4
  qlo : Nat
  qcnt : Nat
  cores : BitVec 4
deriving DecidableEq, Repr, Inhabited

/-- A ring (spec/06 R238): `elems` from the head, each published or not; positions count on without end. -/
structure Ring where
  defined : Bool
  off : Nat
  ls : Nat
  lz : Nat
  tag : Tag
  head : Nat
  /-- one flag per occupied position from the head: published -/
  occ : List Bool
  /-- end of stream: its position and status -/
  eos : Option (Nat × BitVec 8)
  /-- `ringclr.stop` waits for claimed units before its token (R240) -/
  stopping : Bool
  dropping : Bool
  /-- an engine command has named the ring since its definition (spec/12 R394) -/
  engine : Bool
deriving DecidableEq, Repr

/-- An ordered atomic bound to a barrier phase (spec/04 R152). -/
structure Aod where
  wave : Nat
  key : Nat
  phase : Nat
  op : AtomOp
  width : Width
  tag : Tag
  amr : Word
  dest : Nat
  mask : Mask
  addrs : List (Nat × Nat)
  vals : List Word
  /-- of the old generation of a shootdown in progress (spec/13 R410) -/
  old : Bool := false
deriving DecidableEq, Repr

/-- A barrier (spec/02 R78): its open phase and the waves that have arrived there. -/
structure Barrier where
  sc : Scope
  unit : Nat
  id : BitVec 4
  phase : Nat
  arrived : List Nat
  aods : List Aod
deriving DecidableEq, Repr

/-- Copies of a group (spec/15 R443). -/
inductive Copy where
  | single | primary | twin
deriving DecidableEq, Repr

/-- An entry of the allocation log (spec/08 R290). -/
inductive HeapLog where
  | alloc (addr : Nat)
  | free (addr : Nat)
deriving DecidableEq, Repr

/-- The wave that sent a record, with the instruction and its scope (spec/04 R176, spec/12 R387). -/
structure Sender where
  wave : Nat
  origin : Origin
  sc : Scope
deriving DecidableEq, Repr

/-- A staged `nrec` record or `nflush` closing (spec/12 R391). -/
inductive NodeLog where
  | record (node bin : Nat) (bytes : List Byte) (by_ : Sender)
  | flush (node bin : Nat)
deriving DecidableEq, Repr

/-- A matrix command (spec/09 R296 to R313), with every operand as it stood at issue. -/
inductive MOp where
  | loop (tile : Nat) (ops : List Word)
  | zero (tile : Nat) (pair : Bool)
  | load (tile : Nat) (addr stride : Word) (tr : Bool)
  | loadScale (addr : Word) (off cnt : Nat)
  | store (tile : Nat) (addr stride : Word) (mode : Word) (tr : Bool) (p : Nat)
  | storeScale (addr : Word) (off cnt : Nat)
  | prg (dest : Nat) (hb : Bool)
deriving DecidableEq, Repr

structure MCmd where
  op : MOp
  wave : Nat
  group : Nat
  key : Nat
  num : BitVec 32
  seq : Nat
  o : Order
  sc : Scope
  amr : Word
  /-- the stream -/
  stream : Nat
  /-- row steps completed: MPROG's field while in progress -/
  rows : Nat
  /-- the B block of the K-step in progress: its number and the bytes of its columns (R315) -/
  block : Option (Nat × List (List Byte))
  /-- CRC of the command's writes so far, once there is one (spec/15 R445) -/
  crc : Option Word
  /-- the position of the issuing instruction (spec/04 R177) -/
  pos : Pos
deriving DecidableEq, Repr

/-- A matrix stream: its queue and its status (spec/09 R293, R313). -/
structure MStream where
  q : List MCmd
  flags : BitVec 5
  status : BitVec 8
  done : BitVec 16
deriving DecidableEq, Repr, Inhabited

/-- A matrix engine (spec/09 R293). Tiles are held as bytes: element (r, c) at offset 256 r + 4 c. -/
structure Matrix where
  owner : Option Nat
  tiles : List Memory
  scale : Memory
  streams : List MStream
  /-- commands issued in handler mode (R315) -/
  handlerQ : List MCmd
  /-- `mfence` marks: stream mask and the sequence number at which it acted (R312) -/
  fences : List (BitVec 4 × Nat)
  seq : Nat
  frozen : Bool
deriving DecidableEq, Repr, Inhabited

/-- An `lmulm` (spec/07 R271 to R274). -/
structure LMul where
  wave : Nat
  group : Nat
  key : Nat
  num : BitVec 32
  o : Order
  sc : Scope
  d : Word
  a : Word
  b : Word
  la : Nat
  lb : Nat
  /-- steps completed -/
  prog : Nat
  crc : Option Word
  pos : Pos
deriving DecidableEq, Repr

/-- A modulus-table entry (spec/10 R317). -/
structure Modulus where
  p : Nat
  psi : Nat
  ninv : Nat
  logn : Nat
deriving DecidableEq, Repr, Inhabited

/-- A command of an NTT unit (spec/10 R325, R338, spec/07 R273). -/
inductive NOp where
  | transform (inverse : Bool) (d a : Word) (bstr nb nres logn : Nat)
  | rescale (h : Word) (logn res comps cstr : Nat) (round : Bool)
  | lmul (c : LMul)
deriving DecidableEq, Repr

/-- A command slot of an NTT unit with its progress record NPROG (spec/10 R330). -/
structure NCmd where
  op : NOp
  wave : Nat
  group : Nat
  key : Nat
  num : BitVec 32
  o : Order
  sc : Scope
  mods : List Modulus
  batch : Nat
  res : Nat
  stage : Nat
  /-- the polynomial in the work area, from stage 0 on -/
  work : List Nat
  crc : Option Word
  pos : Pos
  direct : Bool
deriving DecidableEq, Repr

/-- What a rerun restores (spec/15 R449): the waves, the scratchpad, layout slots and rings, and the owner's matrix state. -/
structure Snapshot where
  waves : List Wave
  sp : Memory
  /-- sectors of the scratchpad that were lost (spec/15 R456) -/
  spLost : List Nat
  layouts : List (Option Layout)
  rings : List Ring
  barriers : List Barrier
  marker : BitVec 32
  matrix : Option Matrix
  /-- rescales that began at the commit, with the list index of their NTT unit: a rerun takes them up anew (R28) -/
  rescales : List (Nat × NCmd)
  /-- the wave of the group that its core ran, by its index in the group, and where rotation stood (spec/15 R443) -/
  turn : Option Nat × Option Nat
  /-- the kinds of the last commands sent to the core's stream engines (log entry 40) -/
  sent : List (List Bool) := [[], []]
deriving DecidableEq, Repr

/-- A resident group (spec/12 R378, spec/15 R443 to R454). -/
structure Group where
  launch : Nat
  grp : BitVec 32
  core : Nat
  waves : List Nat
  /-- node, bin, batch and record count of a node group (spec/12 R388) -/
  node : Option (Nat × Nat × Nat × Nat)
  kidx : Nat
  spb : Nat
  sp : Memory
  spLost : List Nat
  layouts : List (Option Layout)
  rings : List Ring
  barriers : List Barrier
  marker : BitVec 32
  copy : Copy
  sibling : Option Nat
  /-- staged bytes of the commit interval, newest value per byte (spec/15 R444) -/
  staging : List (Nat × Byte)
  /-- staged sectors whose 32 bytes one write has covered, in the commit interval (spec/15 R456) -/
  stagedWhole : List Nat
  /-- staged addresses of the old generation of a shootdown in progress (spec/13 R410) -/
  stagedOld : List Nat := []
  snap : Option Snapshot
  heapLog : List HeapLog
  nodeLog : List NodeLog
  mismatches : Nat
  aborts : Nat
  ended : Bool
  aborted : Bool
  /-- energy metered while resident, µJ (spec/12 R379) -/
  metered : Nat
deriving DecidableEq, Repr

/-- Kinds of stream-engine command (spec/06 R227, spec/07 R270, spec/10 R332). -/
inductive SKind where
  | fill | drain | copy | mcast | rfill | rdrain | stamp | coll | auto | bopm
deriving DecidableEq, Repr, Inhabited

/-- A collective record (spec/14 R434). -/
structure CollRec where
  cid : BitVec 32
  nrm : Nat
  rank : Nat
  op : Nat
  all : Bool
  rootRank : Nat
  dslot : Option Nat
  midx : Nat
  limbs : Nat
  flagw : Nat
  /-- the instance: how many commands of this rank with this CID came before (R435) -/
  k : Nat
deriving DecidableEq, Repr, Inhabited

/-- Where a collective command of a rank stands: waiting for its instance, reading its source boxes, having read them, then
writing its result boxes (spec/14 R435, R441). -/
inductive CollStage where
  | waiting
  | refused
  | reading (elems : List Nat)
  | read
  | writing (elems : List Nat) (flags : BitVec 5)
deriving DecidableEq, Repr, Inhabited

/-- A stream-engine command in a slot (spec/06 R227 to R236); layouts are the slots' records as they stood at issue. -/
structure SCmd where
  kind : SKind
  wave : Nat
  group : Nat
  key : Nat
  num : BitVec 32
  o : Order
  sc : Scope
  amr : Word
  /-- scratchpad offset, ring or status, by kind -/
  a : Nat
  slot : Layout
  dst : Layout
  stamp : Option Word
  eos : Bool
  /-- SPROG.BOX -/
  box : Nat
  started : Bool
  status : BitVec 8
  cancel : Option (BitVec 8)
  /-- a claimed unit of `.rfill` not yet published: the position of its first element -/
  claim : Option Nat
  coll : Option CollRec
  stage : CollStage
  /-- `auto`: primes of the residues, and the domain; `bopm`: addresses, limbs, subtract, carry -/
  primes : List Nat
  ntt : Bool
  bops : Word × Word × Word
  limbs : Nat
  bsub : Bool
  carry : Nat
  crc : Option Word
  pos : Pos
  /-- its place in the order in which its core's commands were issued -/
  seq : Nat
  /-- performed at a commit: it writes at the home points, for both copies (spec/15 R448, spec/14 R442) -/
  direct : Bool
deriving DecidableEq, Repr

/-- A running instance of a collective: the tensors that its ranks have read (spec/14 R435 to R441). `launch` is a launch
of the instance; `k` its number. -/
structure CollInst where
  launch : Nat
  cid : BitVec 32
  k : Nat
  nrm : Nat
  /-- the primes of each rank's residues, for `crt` -/
  primes : List (List Nat)
  got : List (Nat × List Nat)
  /-- the groups that issued its commands -/
  groups : List Nat
deriving DecidableEq, Repr

/-- The NTT unit of a quad (spec/10 R324), a logical one in deterministic mode. -/
structure Quad where
  quad : Nat
  slots : List NCmd
  /-- the physical unit that serves it -/
  phys : Nat := 0
  /-- the physical unit has served it last, with this command: its wave and key -/
  turn : Option (Nat × Nat) := none
deriving DecidableEq, Repr, Inhabited

/-- A core: a logical core or its twin instance, on a physical core (spec/01 R32, spec/15 R443). -/
structure Core where
  phys : Nat
  logical : Nat
  twin : Bool
  part : Nat
  /-- clk since core reset (spec/02 R82) -/
  clk : Nat
  /-- issue slots (spec/01 R36) -/
  slots : Nat
  /-- instructions retired by the launch on this logical core (spec/02 R82) -/
  retired : Nat
  running : Option Nat
  /-- WAVEID of the wave from which rotation goes on, in deterministic mode (spec/12 R393) -/
  last : Option Nat
  /-- the wave that ran when the partition was pre-empted, which runs again after restore (spec/11 R358) -/
  kept : Option Nat
  /-- turns that the schedule has taken on stalls of this core: the model's own (log entry 2) -/
  turn : Nat
  se : List (List SCmd)
  /-- of the last eight commands sent to each stream engine, newest first: is it a collective (log entry 40) -/
  sent : List (List Bool) := [[], []]
  mx : Matrix
  lmuls : List LMul
  /-- L1: sectors of 32 bytes with their numbers, newest first (spec/04 R135, R138) -/
  l1 : List (Nat × List Byte)
  /-- results of atomics at `.wave` or `.core` on their way to their home points, each with its wave, oldest first (spec/04 R150) -/
  out : List (Nat × QStore)
deriving DecidableEq, Repr, Inhabited

/-- Ports of the link engine: STATE of LSTAT (spec/14 R428). -/
inductive PortState where
  | down | training | up | degraded | recovery
deriving DecidableEq, Repr, Inhabited

/-- A Ronlo port (spec/14 R424 to R428), or one end of a UCIe bridge, which uses the fields of channels alone (R422, R427).
Flits carry their channel's sequence number. -/
structure Port where
  st : PortState
  rails : BitVec 5
  peer : BitVec 8
  rebuilt : BitVec 16
  recov : BitVec 16
  /-- channels that the far end has paused, and the flits sent on each since (R427) -/
  paused : BitVec 4
  past : List Nat
  /-- replays that have failed in succession (R426) -/
  replays : Nat
  /-- the receiving buffers: whole flits delivered in order and not yet taken, oldest first (R425) -/
  rx : List (BitVec 2 × BitVec 2048)
  /-- channels that this end has paused at the far end (R427) -/
  pausing : BitVec 4
  /-- number of the next flit that each channel delivers, and whole flits that wait for an earlier one (R425) -/
  rxNext : List Nat
  rxHeld : List (BitVec 2 × Nat × BitVec 2048)
  /-- flits asked for again (R425) -/
  asked : List (BitVec 2 × Nat)
  /-- number of the next flit that each channel sends, and the replay buffer: flits sent and not yet acknowledged (R425) -/
  txNext : List Nat
  unacked : List (BitVec 2 × Nat × BitVec 2048)
  /-- what has left on the rails, oldest first -/
  tx : List (BitVec 2 × Nat × BitVec 2048)
deriving DecidableEq, Repr, Inhabited

/-- A cached translation (spec/13 R403). -/
structure Tlb where
  part : Nat
  ctx : Nat
  va : Nat
  size : Nat
  pa : Nat
  w : Bool
  x : Bool
  d : Bool
deriving DecidableEq, Repr

/-- Commands of a heap engine (spec/08 R281). -/
inductive HOp where
  | alloc (size : Nat) (z t : Bool) (mask : Mask) (pe : BitVec 3)
  | free (addr : Nat)
  | stat (k : Nat)
deriving DecidableEq, Repr

structure HCmd where
  op : HOp
  wave : Nat
  group : Nat
  key : Nat
  num : BitVec 32
  dest : Nat
  hb : Bool
  /-- where the instruction that sent it stands -/
  pos : Pos
deriving DecidableEq, Repr

/-- A die. -/
structure Die where
  heapQ : List HCmd
  tlb : List Tlb
  /-- leaves that this die's tier engine has claimed, by physical address (spec/13 R407) -/
  claims : List Nat
  temp : Word
  throttled : Bool
  corrected : Word
  routes : List (BitVec 8)
  ports : List Port
  /-- the ends of the bridges to the package's dies; the die's own entry is not used (spec/14 R422) -/
  bridges : List Port
  /-- ranks for which a recovery hold stands, and ranks whose hold has expired (spec/14 R431, R432) -/
  holds : List Nat
  expired : List Nat
deriving DecidableEq, Repr, Inhabited

/-- The arena of a context (spec/08 R277): blocks as (class, address). It is the engine's metadata, which R277 places at HMETA; the
bytes of memory there are written by no allocation or free, so the host or the controller reads there what it last wrote (DESIGN
CHOICE: log entry 56). -/
structure Arena where
  base : Nat
  size : Nat
  hmeta : Nat
  die : Nat
  free : List (Nat × Nat)
  live : List (Nat × Nat)
  failures : Word
deriving DecidableEq, Repr, Inhabited

/-- A context (spec/11 R342). -/
structure Context where
  active : Bool
  priv : Bool
  tbase : Word
  savea : Word
  slotsz : BitVec 32
  wdlim : BitVec 32
  ptroot : Word
  raceC0 : Nat
  raceL : Nat
  shbase : Nat
  logr : Word
  arena : Option Arena
  mods : List (Option Modulus)
deriving DecidableEq, Repr, Inhabited

/-- A frame pool of a die (spec/13 R406): free frames as (class, address), class 0 being 64 KiB. -/
structure Pool where
  die : Nat
  base : Nat
  size : Nat
  recs : Nat
  free : List (Nat × Nat)
deriving DecidableEq, Repr, Inhabited

/-- A host queue (spec/12 R367); a completion record that waits for room is kept (R368). -/
structure HostQ where
  base : Nat
  /-- PROD as the lead task engine read it after the last doorbell -/
  prod : Nat
  waiting : List (List Byte)
deriving DecidableEq, Repr, Inhabited

/-- PSTAT of a partition (spec/11 R361). -/
inductive RunState where
  | running | preempting | saved | restoring
deriving DecidableEq, Repr, Inhabited

/-- Where a saved image lies (spec/11 R359). -/
inductive ImageAt where
  | none | shadow | region
deriving DecidableEq, Repr, Inhabited

/-- The translations that a shootdown removes: of a page, of a context, of the partition (spec/13 R411). -/
inductive ShootKind where
  | page (ctx va : Nat)
  | ctx (c : Nat)
  | all
deriving DecidableEq, Repr

/-- A page on its way to the second tier (spec/13 R408): its leaf, its frame, the second-tier address, the die whose pool has the
frame, the leaf as it was, and whether the frame was written. -/
structure Moving where
  pa : Nat
  level : Nat
  sz : Bool
  frame : Nat
  home : Nat
  die : Nat
  was : Nat
  dirty : Bool
deriving DecidableEq, Repr

/-- A shootdown that waits: its number, what it removes, once its translations are dropped the physical ranges whose accesses of the
old generation it waits for (spec/13 R410), and the evict that it belongs to. -/
structure Shoot where
  seq : Nat
  what : ShootKind
  frames : Option (List (Nat × Nat))
  evict : Option Moving := none
deriving DecidableEq, Repr

/-- What a command of the tier engine, or a launch, has still to do (spec/13 R414, R418, spec/12 R374). -/
inductive TOp where
  | region (act : TierAct) (die : Nat) (va : Word) (n : Nat) (stamp : Option Word)
  | screed (va off : Word) (n : Nat)
  | launch (va : Word) (d : Nat) (hb : Bool)
deriving DecidableEq, Repr

/-- A command that waits: what issued it, the operation of its twin, and, once it has begun, its status and the shootdowns of its
evicts (spec/13 R414, R418, spec/01 R25). -/
structure TCmd where
  op : TOp
  wave : Nat
  group : Nat
  key : Nat
  num : BitVec 32
  o : Order
  sc : Scope
  pos : Pos
  twin : Option Nat := none
  begun : Option (BitVec 8) := none
  shoots : List Nat := []
deriving DecidableEq, Repr

/-- A partition (spec/16 R460, spec/11 R361, R364, spec/12 R367, spec/16 R467). -/
structure Partition where
  dies : List Nat
  l1share : Nat
  run : RunState
  /-- how each save or restore that was requested has ended: 0 done, 2 stopped (spec/11 R362) -/
  moved : List Word := []
  /-- shootdowns that wait, in order of arrival, and the number of the next (spec/13 R410) -/
  shoots : List Shoot := []
  nextShoot : Nat := 0
  /-- commands of `tierq`, `scrdl` and `launch` that have been sent and are not complete, oldest first (spec/01 R18) -/
  tierQ : List TCmd := []
  image : ImageAt
  /-- the counter at which an image was last moved to the region that is kept for it (spec/11 R359; log entry 44) -/
  imaged : Option Nat
  /-- the cause for which the partition was declared fatal (spec/11 R364) -/
  fatal : Option (BitVec 32)
  /-- error records, oldest kept first -/
  errs : List (List Byte)
  ctxs : List Context
  queues : List (Option HostQ)
  launches : Nat
  pools : List Pool
  bellowsB : Int
  cap : Nat
  rate : Nat
  drained : Nat
  updated : Nat
  /-- offsets of the dump region and the image region in the package window -/
  dump : Nat
  imageBase : Nat
  nextQ : Nat
deriving DecidableEq, Repr, Inhabited

/-- A launch record (spec/12 R371). -/
structure LaunchRec where
  prio : Nat
  ctx : Nat
  chk : Bool
  det : Bool
  lpol : Bool
  race : Nat
  wide : Nat
  ngrp : Nat
  w : Nat
  wpg : Nat
  nvreg : Nat
  spb : Nat
  place : Nat
  home : Nat
  kidx : Nat
  code : Word
  amr : Word
  est : Nat
  argmask : Word
  argp : Word
  binbase : Word
  binsize : Word
  gtag : Word
  crec : Word
  cstamp : Word
deriving DecidableEq, Repr, Inhabited

/-- A kernel descriptor (spec/12 R370). -/
structure Kernel where
  entry : Nat
  w : Nat
  nvreg : Nat
  wpg : Nat
  spb : Nat
  rings : Nat
  matrix : Bool
  node0 : Nat
  nodes : Nat
deriving DecidableEq, Repr, Inhabited

/-- A batch of a bin (spec/12 R388). -/
inductive BatchState where
  | free | opened | closed | held
deriving DecidableEq, Repr, Inhabited

structure Batch where
  st : BatchState
  fill : Nat
deriving DecidableEq, Repr, Inhabited

/-- A node of a launch: its descriptor and its bins (spec/12 R385, R386). -/
structure Node where
  kidx : Nat
  rsz : Nat
  c : Nat
  nbin : Nat
  nbatch : Nat
  tmo : Nat
  base : Nat
  bins : List (List Batch)
deriving DecidableEq, Repr, Inhabited

/-- A screed entry and how far it is (spec/13 R413, R415). `frames` are the frames it took when it started. -/
structure SEntry where
  trig : Nat
  needby : Nat
  base : Word
  npage : Nat
  action : TierAct
  die : Nat
  stamp : Option Word
  started : Bool
  ended : Bool
  status : BitVec 8
  /-- a page of it had to wait when it started; and the shootdowns of its evicts, once they have begun (spec/13 R410, R415) -/
  late : Bool := false
  shoots : Option (List Nat) := none
deriving DecidableEq, Repr

/-- A screed (spec/13 R414): what `scrdl` named, and its entries. -/
structure Screed where
  addr : Word
  n : Nat
  off : Word
  entries : List SEntry
deriving DecidableEq, Repr

/-- Who submitted a launch and gets its completion record (spec/12 R368, R374). -/
inductive Submitter where
  | host (queue : Nat) (entry : Word)
  | device
deriving DecidableEq, Repr

/-- A launch (spec/12 R371 to R392, spec/13 R414 to R416). -/
structure Launch where
  r : LaunchRec
  part : Nat
  ident : BitVec 32
  from_ : Submitter
  sig : Word
  kernels : List Kernel
  codeSize : Nat
  /-- the next root group that enters -/
  next : Nat
  /-- closed batches that wait: node, bin, batch, records, and the node group's number (R377) -/
  closed : List (Nat × Nat × Nat × Nat × Nat)
  closings : Nat
  nodes : List Node
  /-- records and closings released by commits that have not reached their bins yet (spec/12 R391) -/
  inflight : List NodeLog
  done : Nat
  aborted : Nat
  nodeDone : Nat
  nodeAborted : Nat
  energy : Nat
  passOver : List Nat
  screed : Option Screed
  marker : Nat
  barriers : List Barrier
  /-- epochs of the launch's scope units (spec/04 R175) -/
  epochs : List (Scope × Nat × BitVec 16)
  complete : Bool
  /-- a wave of the launch has stored to the launch's code object (spec/02 R46) -/
  codeTouched : Bool
deriving DecidableEq, Repr

/-- Forms of the part (spec/00 R1, spec/16 R468, R472). -/
inductive Form where
  | d860 | p860 | m860
deriving DecidableEq, Repr, Inhabited

/-- Compute dies of a form; each has 144 GiB of HBM in three stacks, and two CXL ports (spec/00 R1, spec/13 R398). -/
def Form.dies : Form → Nat
  | .d860 => 1
  | .p860 | .m860 => 4

/-- The Stoelion controller (spec/16). -/
structure Ctl where
  powered : Bool
  form : Form
  ready : Bool
  fwFailed : Bool
  halted : Bool
  formed : Nat
  podRank : BitVec 6
  /-- the package limit in W, and whether it was written since power-on -/
  limit : Nat
  limitWritten : Bool
  mailbox : Memory
  /-- the partition whose save or restore the running mailbox command awaits (spec/11 R362, spec/16 R464) -/
  await : Option (Nat × Nat)
  /-- the partition and number of the shootdown that the running mailbox command awaits (spec/13 R410, R411) -/
  shoot : Option (Nat × Nat) := none
  cause : BitVec 8
  /-- MSI-X vectors raised, oldest first (spec/16 R465) -/
  raised : List Nat
  /-- bytes that the host's latest read through BAR0 or BAR2 returned (spec/16 R461, R463) -/
  hostRead : List Byte
  aperture : Nat
  osc : Nat
  /-- the firmware image in flash: its bytes, from which power-on boots -/
  flash : List Byte
deriving DecidableEq, Repr, Inhabited

/-- The steps of agents other than the acting core's wave, and changes of the acting core, that come next: the model's
own schedule (log entry 2). -/
inductive Choice where
  | event (i : Instr)
  | core (c : Nat)
deriving DecidableEq, Repr

/-- The package. -/
structure State where
  mem : Memory
  /-- 32-byte sectors of memory marked lost, rising (spec/15 R456) -/
  lost : List Nat
  ctl : Ctl
  dies : List Die
  quads : List Quad
  parts : List Partition
  launches : List Launch
  /-- collective instances that run, and how many commands each rank has issued: launch, CID, RANK (spec/14 R435) -/
  insts : List CollInst
  collIssued : List (Nat × BitVec 32 × Nat)
  /-- instances of which an aborted group had issued a command before they started: launch, CID, number (spec/14 R441) -/
  collGone : List (Nat × BitVec 32 × Nat)
  groups : List Group
  cores : List Core
  waves : List Wave
  /-- what comes next: the model's own -/
  agenda : List Choice
  /-- the core whose turn it is: the model's own -/
  acting : Nat
  /-- the counter at which free values are drawn: the model's own (log entry 4) -/
  fresh : Nat
deriving DecidableEq, Repr

/-- The machine stops with a fault. -/
inductive Fault where
  /-- An engine or the controller, acting on an address that system software gave it as a physical address, reached a place
  that maps nothing (spec/13 R398): the spec gives that access no outcome. Raised by the accessors that the task engine and
  the controller use. Safe: the hardware may go on. -/
  | physicalHole (pa : Nat)
deriving DecidableEq, Repr

/-- The model gives the instruction no meaning. -/
inductive Refusal where
  /-- Raised by Dispatch for an instruction whose meaning is not written. Safe. -/
  | notModelled (mnemonic : String)
deriving DecidableEq, Repr

/-- A port as reset leaves it: down, every field of LSTAT zero, PEER among them (spec/14 R426, R428); no flit has passed. -/
def Port.reset : Port :=
  { st := .down, rails := 0, peer := 0, rebuilt := 0, recov := 0, paused := 0, past := List.replicate 4 0, replays := 0, rx := [],
    pausing := 0, rxNext := List.replicate 4 0, rxHeld := [], asked := [], txNext := List.replicate 4 0, unacked := [], tx := [] }

/-- One of `n` dies as reset leaves it; temperature 0 and no valid route are DESIGN CHOICE (log entry 6). -/
def Die.resetOf (n : Nat) : Die :=
  { heapQ := [], tlb := [], claims := [], temp := 0, throttled := false, corrected := 0,
    routes := List.replicate 64 0#8, ports := List.replicate 3 Port.reset, bridges := List.replicate n Port.reset, holds := [],
    expired := [] }

def Die.reset : Die := Die.resetOf 4

/-- The controller before power-on has run (spec/16 R458): nothing reported, no limit, mailbox zero. -/
def Ctl.reset : Ctl :=
  { powered := false, form := .p860, ready := false, fwFailed := false, halted := false, formed := 0, podRank := 0,
    limit := 0, limitWritten := false, mailbox := [], await := none, cause := 0, raised := [], hostRead := [], aperture := 0, osc := 0,
    flash := [] }

/-- A part of the given form at reset: no partition formed, no wave resident, ports down; what the spec leaves open is said in
log entries 1, 5 and 6. -/
def State.resetOf (f : Form) : State :=
  { mem := [], lost := [], ctl := { Ctl.reset with form := f }, dies := List.replicate f.dies (Die.resetOf f.dies), quads := [],
    parts := [], launches := [], insts := [], collIssued := [], collGone := [], groups := [], cores := [], waves := [], agenda := [], acting := 0,
    fresh := 0 }

/-- The package at reset, of the form whose figures the spec gives where it names none (spec/00 R2): the 860P. -/
def State.reset : State := State.resetOf .p860

end Sys2Proof.Machine
end

