-- ==== Sys2Proof/Machine/Mem.lean ====
section
/-! DEFINITION. Memory as bytes, accessors of State, the physical address map, translation with its faults, the frame
pools, and one tier-engine fetch and evict (spec/04 R135 to R143, R168, spec/13 R398 to R410). -/

namespace Sys2Proof.Machine

/-- The byte at an address (log entry 1). -/
def Memory.read (m : Memory) (a : Nat) : Byte :=
  match m with
  | [] => 0#8
  | (k, b) :: t => if k = a then b else if a < k then 0#8 else Memory.read t a

/-- A byte put in front of a memory whose addresses are all higher; zero is not listed. -/
def Memory.cons (a : Nat) (x : Byte) (m : Memory) : Memory := if x = 0#8 then m else (a, x) :: m

/-- Write one byte, keeping the canonical form. -/
def Memory.write (m : Memory) (a : Nat) (x : Byte) : Memory :=
  match m with
  | [] => Memory.cons a x []
  | (k, b) :: t =>
    if a < k then Memory.cons a x ((k, b) :: t)
    else if a = k then Memory.cons a x t
    else (k, b) :: Memory.write t a x

/-- All listed addresses are above `a`. -/
def Memory.above (a : Nat) (m : Memory) : Bool := m.all fun c => decide (a < c.1)

/-- The canonical form: addresses strictly rising, no zero byte. -/
def Memory.wf : Memory → Bool
  | [] => true
  | (a, x) :: t => decide (x ≠ 0#8) && Memory.above a t && Memory.wf t

/-- Write a list of bytes, in order. -/
def Memory.writeAll (m : Memory) (bs : List (Nat × Byte)) : Memory := bs.foldl (fun m c => m.write c.1 c.2) m

/-- `n` bytes from an address. -/
def Memory.readN (m : Memory) (a n : Nat) : List Byte := (List.range n).map fun i => m.read (a + i)

/-- The little-endian value of `n` bytes. -/
def Memory.readLe (m : Memory) (a n : Nat) : Nat := leValue (m.readN a n)

/-- Bytes with their addresses, from an address upward. -/
def placed (a : Nat) (bs : List Byte) : List (Nat × Byte) := (List.range bs.length).zipWith (fun i b => (a + i, b)) bs

/-- Newest value per byte in an overlay of staged or queued bytes. -/
def overlayRead (o : List (Nat × Byte)) (a : Nat) : Option Byte :=
  match o with
  | [] => none
  | (k, b) :: t => if k = a then some b else overlayRead t a

/-- Put a byte into an overlay, replacing an older value. -/
def overlayWrite (o : List (Nat × Byte)) (a : Nat) (x : Byte) : List (Nat × Byte) :=
  match o with
  | [] => [(a, x)]
  | (k, b) :: t => if k = a then (a, x) :: t else (k, b) :: overlayWrite t a x

/-! Accessors -/

def State.wave (s : State) (w : Nat) : Wave := s.waves.getD w default
def State.setWave (s : State) (w : Nat) (x : Wave) : State := { s with waves := s.waves.set w x }
def State.modWave (s : State) (w : Nat) (f : Wave → Wave) : State := s.setWave w (f (s.wave w))

def Ring.fresh : Ring :=
  { defined := false, off := 0, ls := 1, lz := 2, tag := .raw, head := 0, occ := [], eos := none, stopping := false,
    dropping := false, engine := false }

/-! Rings (spec/06 R238, R242) -/

/-- C, the ring's capacity in elements. -/
def Ring.cap (r : Ring) : Nat := 2 ^ r.ls * 2 ^ r.lz / 4

/-- Elements of a unit. -/
def Ring.unit (r : Ring) : Nat := 2 ^ r.lz / 4

/-- The count: poppable elements. -/
def Ring.count (r : Ring) : Nat := (r.occ.takeWhile id).length

/-- The room: C less the occupied positions. -/
def Ring.room (r : Ring) : Nat := r.cap - r.occ.length

/-- Elements before an end of stream that stands at the head once they are gone; none when there is no token or a position
before it is not published. -/
def Ring.beforeEos (r : Ring) : Option Nat :=
  match r.eos with
  | none => none
  | some (p, _) => if p - r.head ≤ r.count then some (p - r.head) else none

/-- How many elements a pop of `k` takes now; none when it must wait (spec/06 R242). -/
def Ring.popNow (r : Ring) (k : Nat) : Option Nat :=
  if k ≤ r.count then some k
  else match r.beforeEos with
    | some c => if c < k then some c else none
    | none => none

/-- A group that holds nothing, for an index that names none. -/
def Group.empty : Group :=
  { launch := 0, grp := 0, core := 0, waves := [], node := none, kidx := 0, spb := 0, sp := [], spLost := [],
    layouts := [], rings := [], barriers := [], marker := 0, copy := .single, sibling := none, staging := [], stagedWhole := [], snap := none,
    heapLog := [], nodeLog := [], mismatches := 0, aborts := 0, ended := true, aborted := false, metered := 0 }

def State.group (s : State) (g : Nat) : Group := s.groups.getD g Group.empty
def Group.ring (g : Group) (r : Nat) : Ring := g.rings.getD r Ring.fresh
def State.setGroup (s : State) (g : Nat) (x : Group) : State := { s with groups := s.groups.set g x }
def State.modGroup (s : State) (g : Nat) (f : Group → Group) : State := s.setGroup g (f (s.group g))

/-- A launch record's default, for an index that names no launch. -/
def Launch.empty : Launch :=
  { r := default, part := 0, ident := 0, from_ := .device, sig := 0, kernels := [], codeSize := 0, next := 0, closed := [],
    closings := 0, nodes := [], inflight := [], done := 0, aborted := 0, nodeDone := 0, nodeAborted := 0, energy := 0, passOver := [],
    screed := none, marker := 0, barriers := [], epochs := [], complete := true, codeTouched := false }

def State.launch (s : State) (l : Nat) : Launch := s.launches.getD l Launch.empty
def State.setLaunch (s : State) (l : Nat) (x : Launch) : State := { s with launches := s.launches.set l x }
def State.modLaunch (s : State) (l : Nat) (f : Launch → Launch) : State := s.setLaunch l (f (s.launch l))

def State.core (s : State) (c : Nat) : Core := s.cores.getD c default
def State.setCore (s : State) (c : Nat) (x : Core) : State := { s with cores := s.cores.set c x }
def State.modCore (s : State) (c : Nat) (f : Core → Core) : State := s.setCore c (f (s.core c))

def State.part (s : State) (p : Nat) : Partition := s.parts.getD p default
def State.setPart (s : State) (p : Nat) (x : Partition) : State := { s with parts := s.parts.set p x }
def State.modPart (s : State) (p : Nat) (f : Partition → Partition) : State := s.setPart p (f (s.part p))

def Partition.ctx (p : Partition) (c : Nat) : Context := p.ctxs.getD c default
def State.ctx (s : State) (p c : Nat) : Context := (s.part p).ctx c
def State.modCtx (s : State) (p c : Nat) (f : Context → Context) : State :=
  s.modPart p fun x => { x with ctxs := modifyAt x.ctxs c f }

def State.die (s : State) (d : Nat) : Die := s.dies.getD d default
def State.modDie (s : State) (d : Nat) (f : Die → Die) : State := { s with dies := modifyAt s.dies d f }

/-- The physical die of a core: 192 cores per die (spec/01 R12). -/
def State.dieOfCore (s : State) (c : Nat) : Nat := (s.core c).phys / 192

/-- The partition exists, and nothing has stopped it. -/
def State.alive (s : State) (p : Nat) : Bool := decide (p < s.parts.length) && (s.part p).fatal.isNone && !s.ctl.halted

/-- A wave runs its restore handler: the entry for 0x20 with PHASE = 1 (spec/11 R358). -/
def Wave.restoring (x : Wave) : Bool := !x.sch.ended && x.tr.hm && x.tr.cause.extractLsb' 0 6 == 0x20#6 && x.tr.cause.getLsbD 13

/-- A save or restore of a partition has ended. -/
def State.endMove (s : State) (p : Nat) (v : Word) : State := s.modPart p fun x => { x with moved := x.moved ++ [v] }

/-- The engine commands of a group stand still: its partition is stopped or pre-empted, or a wave of it has still to leave its
restore handler (spec/11 R355, R358, R364). -/
def State.engineHeld (s : State) (g : Nat) : Bool :=
  let p := (s.launch (s.group g).launch).part
  !s.alive p || (s.part p).run != .running || (s.group g).waves.any fun w => (s.wave w).restoring

/-- The launch of a wave, its group, its context. -/
def State.waveLaunch (s : State) (w : Nat) : Launch := s.launch (s.wave w).id.launch
def State.waveGroup (s : State) (w : Nat) : Group := s.group (s.wave w).id.group
def State.waveCtx (s : State) (w : Nat) : Context := s.ctx (s.wave w).id.part (s.wave w).id.ctx
def State.waveDie (s : State) (w : Nat) : Nat := s.dieOfCore (s.wave w).id.core

/-- Checked or rerunnable launches (spec/15 R443). -/
def Launch.checked (l : Launch) : Bool := l.r.chk
def Launch.rerunnable (l : Launch) : Bool := l.r.chk || l.r.lpol

/-- A group whose writes are staged (spec/15 R444). -/
def State.staged (s : State) (g : Nat) : Bool := (s.launch (s.group g).launch).rerunnable

/-- The next draw of a free choice among `n`, and the counter moved on (log entry 4). -/
def State.draw (s : State) (site k n : Nat) : Nat := Config.choice s.fresh site k % n
def State.tick (s : State) : State := { s with fresh := s.fresh + 1 }

/-! The physical address space -/

/-- HBM of one die, and the span of a package window (spec/13 R398). -/
def hbmPerDie : Nat := 0x2400000000
def windowBytes : Nat := 2 ^ 46

/-- The base of the package's own window. -/
def State.ownWindow (s : State) : Nat := s.ctl.podRank.toNat * windowBytes

/-- An offset in the window of a package of `n` dies that maps memory: the HBM of its dies, the second tier as far as the devices
at their CXL ports reach, and, in the own window, host memory (spec/13 R398, spec/16 R466). -/
def offsetMapped (n : Nat) (own : Bool) (o : Nat) : Bool :=
  if o < hbmPerDie * n then true
  else if o < 0x100000000000 then false
  else if o < 0x200000000000 then own
  else if o < 0x300000000000 then
    let k := (o - 0x200000000000) / 0x20000000000
    decide (k < 2 * n) &&
      (Config.cxlMissing k == 0 || decide ((o - 0x200000000000) % 0x20000000000 + Config.cxlMissing k < 0x20000000000))
  else false

/-- A physical address that maps memory; another package of the pod is an 860P or 860M (spec/00 R2). -/
def State.mapped (s : State) (pa : Nat) : Bool :=
  let own := pa / windowBytes == s.ctl.podRank.toNat
  decide (pa < 2 ^ 52) && offsetMapped (if own then s.ctl.form.dies else 4) own (pa % windowBytes)

/-- Host memory in the own window. -/
def State.isHost (s : State) (pa : Nat) : Bool :=
  pa / windowBytes == s.ctl.podRank.toNat && decide (0x100000000000 ≤ pa % windowBytes) && decide (pa % windowBytes < 0x200000000000)

/-- How an access to a location fares on the links: through, waiting in a recovery hold, or ended as R432 gives
(spec/14 R429, R431, R432). -/
inductive Reach where
  | ok | hold | broken
deriving DecidableEq, Repr

/-- Where traffic of die `d` to rank `n` leaves: the local die and port of the route table (spec/16 R464), if valid. -/
def State.route (s : State) (d n : Nat) : Option (Nat × Nat) :=
  let e := (s.die d).routes.getD n 0#8
  if e.getLsbD 7 then some ((e.extractLsb' 0 2).toNat, (e.extractLsb' 2 2).toNat) else none

/-- How the traffic of die `d` to an address fares: by the port that the present route names. -/
def State.reach (s : State) (d pa : Nat) : Reach :=
  let n := pa / windowBytes
  if n == s.ctl.podRank.toNat then .ok
  else match s.route d n with
    | none => .broken
    | some (ld, lp) =>
      match ((s.die ld).ports.getD lp Port.reset).st with
      | .up | .degraded => .ok
      | .recovery => if (s.die d).expired.contains n then .broken else .hold
      | _ => .broken

/-- An MSI-X vector is raised; the cause register shows vectors 1 to 7 (spec/16 R465). -/
def State.raiseVector (s : State) (v : Nat) : State :=
  { s with ctl.raised := s.ctl.raised ++ [v],
           ctl.cause := if 1 ≤ v ∧ v ≤ 7 then s.ctl.cause ||| BitVec.ofNat 8 (2 ^ v) else s.ctl.cause }

/-- A lost sector (spec/15 R456). -/
def State.lostAt (s : State) (pa : Nat) : Bool := s.lost.contains (pa / 32)

/-- The byte at an address counts among those of its sector that a write covers; the sector that was last written stands first. -/
def coverByte (acc : List (Nat × BitVec 32)) (a : Nat) : List (Nat × BitVec 32) :=
  let bit : BitVec 32 := 1#32 <<< (a % 32)
  match acc with
  | [] => [(a / 32, bit)]
  | (k, m) :: t =>
    if k = a / 32 then (k, m ||| bit) :: t
    else match t.find? fun q => q.1 == a / 32 with
      | some q => (q.1, q.2 ||| bit) :: acc.filter fun r => r.1 != q.1
      | none => (a / 32, bit) :: acc

/-- Sectors whose 32 bytes a write covers whole (spec/15 R456). -/
def coveredSectors (bs : List (Nat × Byte)) : List Nat :=
  ((bs.foldl (fun acc c => coverByte acc c.1) []).filter fun q => q.2 == BitVec.allOnes 32).map fun q => q.1

/-- Bytes performed at their home points by one store or engine write. -/
def State.writeMem (s : State) (bs : List (Nat × Byte)) : State :=
  { s with mem := s.mem.writeAll bs,
           lost := if s.lost.isEmpty then s.lost else let c := coveredSectors bs; s.lost.filter fun x => !c.contains x }

/-- A little-endian value performed at a physical address. -/
def State.putLe (s : State) (pa n x : Nat) : State := s.writeMem (placed pa (leBytes n x))

/-! Page tables -/

/-- The fields of a page-table entry (spec/13 R401). -/
structure Pte where
  raw : Nat
deriving DecidableEq, Repr

def Pte.bit (e : Pte) (i : Nat) : Bool := e.raw.testBit i
def Pte.addr (e : Pte) : Nat := bitsOf e.raw 51 12 * 4096
def Pte.present (e : Pte) : Bool := e.bit 0
def Pte.leaf (e : Pte) : Bool := e.bit 1
def Pte.w (e : Pte) : Bool := e.bit 2
def Pte.x (e : Pte) : Bool := e.bit 3
def Pte.a (e : Pte) : Bool := e.bit 4
def Pte.d (e : Pte) : Bool := e.bit 5
def Pte.sz (e : Pte) : Bool := e.bit 6
def Pte.pin (e : Pte) : Bool := e.bit 7
def Pte.tf (e : Pte) : Bool := e.bit 8
def Pte.t (e : Pte) : Bool := e.bit 9
def Pte.busy (e : Pte) : Bool := e.bit 10

/-- Bytes that a leaf of a level covers (spec/13 R400). -/
def pageSize (level : Nat) (sz : Bool) : Nat :=
  match level with
  | 0 => if sz then 2 ^ 21 else 2 ^ 16
  | 1 => if sz then 2 ^ 29 else 2 ^ 25
  | _ => 2 ^ 34

/-- Kinds of entry (spec/13 R401). -/
inductive PteKind where
  | pointer | present | tiered | unmapped | malformed
deriving DecidableEq, Repr

def Pte.kind (e : Pte) (level : Nat) : PteKind :=
  if !e.present && !e.t then .unmapped
  else if bitsOf e.raw 63 52 != 0 || e.bit 11 then .malformed
  else if e.present && !e.leaf then
    if level ≥ 1 && bitsOf e.raw 11 2 == 0 then .pointer else .malformed
  else if level ≥ 3 then .malformed
  else if e.addr % pageSize level e.sz != 0 then .malformed
  else if e.present then
    if e.busy || e.t || (level == 2 && e.sz) then .malformed else .present
  else if e.leaf && e.t && !e.a && !e.d && !e.tf && !e.pin && (level == 0 || (level == 1 && !e.sz)) then .tiered
  else .malformed

/-- The entry at a physical address; one in a lost sector reads as malformed (spec/15 R456). -/
def State.pte (s : State) (pa : Nat) : Pte := ⟨if s.lostAt pa then 2 ^ 63 + 1 else s.mem.readLe pa 8⟩

/-- Lowest virtual bit indexed at a level, and the entries of a table (spec/13 R400). -/
def levelShift (level : Nat) : Nat := 16 + 9 * level
def levelEntries (level : Nat) : Nat := if level ≥ 3 then 16384 else 512

/-- How a walk ends: a leaf, present or tiered, with its entry's address and level, or a fault. -/
inductive Walk where
  | leaf (pa level : Nat) (e : Pte)
  | tiered (pa level : Nat) (e : Pte)
  | bad
deriving DecidableEq, Repr

/-- Entries of the aligned group that a leaf stands in (spec/13 R402). -/
def groupCount (level : Nat) (sz : Bool) : Nat :=
  if !sz then 1 else if level == 0 then 32 else if level == 1 then 16 else 1

/-- Addresses of the entries of a group. -/
def groupEntries (pa level : Nat) (sz : Bool) : List Nat :=
  let n := groupCount level sz
  let base := pa / (8 * n) * (8 * n)
  (List.range n).map fun i => base + 8 * i

/-- An entry without A, D and BUSY. -/
def Pte.core (e : Pte) : Nat := e.raw - (e.raw &&& (2 ^ 4 + 2 ^ 5 + 2 ^ 10))

/-- The entry is a leaf with SZ = 1: it makes a group of its aligned neighbours. -/
def State.groupLeaf (s : State) (level q : Nat) : Bool :=
  (s.mem.read q).getLsbD 6 && ((s.pte q).kind level == .present || (s.pte q).kind level == .tiered)

/-- The entry that a translation of an address uses: the indexed one, or, where it stands in a group whose entries differ, any of
them (spec/13 R402, log entry 4). -/
def State.groupPick (s : State) (pa level : Nat) (e : Pte) : Nat × Pte :=
  let g := groupEntries pa level true
  if level < 2 && g.any (s.groupLeaf level) && !(g.all fun q => (s.pte q).core == e.core) then
    let q := g.getD (s.draw 1 pa g.length) pa; (q, s.pte q)
  else (pa, e)

/-- Walk from the table at `table` at level `level` downward (spec/13 R403). -/
def State.walkFrom (s : State) (va : Nat) : Nat → Nat → Walk
  | level, table =>
    let idx := (va / 2 ^ levelShift level) % levelEntries level
    let pa := table + 8 * idx
    if !s.mapped pa then .bad
    else
      let f := s.groupPick pa level (s.pte pa)
      match f.2.kind level with
      | .present => .leaf f.1 level f.2
      | .tiered => .tiered f.1 level f.2
      | .pointer => match level with
        | l + 1 => State.walkFrom s va l f.2.addr
        | 0 => .bad
      | _ => .bad

/-- A context's walk for a virtual address. -/
def State.walk (s : State) (p c va : Nat) : Walk := s.walkFrom va 3 (s.ctx p c).ptroot.toNat

/-- How the reads of a walk fare on the links of die `d`: the first entry that is held or lost to a broken link (spec/13 R399). -/
def State.tablesReach (s : State) (d va : Nat) : Nat → Nat → Reach
  | level, table =>
    let pa := table + 8 * ((va / 2 ^ levelShift level) % levelEntries level)
    match s.reach d pa with
    | .ok =>
      let e := (s.groupPick pa level (s.pte pa)).2
      if s.mapped pa && e.kind level == .pointer then
        match level with
        | l + 1 => State.tablesReach s d va l e.addr
        | 0 => .ok
      else .ok
    | r => r

/-- How a context's walk fares (spec/13 R399). -/
def State.walkReach (s : State) (d p c va : Nat) : Reach := s.tablesReach d va 3 (s.ctx p c).ptroot.toNat

/-- What an access wants of a translation. -/
inductive Want where
  | load | store | fetch
deriving DecidableEq, Repr

/-- Why a translation fails: a tiered page, an unserviceable fault (spec/13 R404), or a walk that waits in a recovery hold
(spec/14 R431). -/
inductive TFault where
  | tiered (pa level : Nat) (va : Nat)
  | bad
  | held
deriving DecidableEq, Repr

/-- Set A, and D for a store, in the entry that the walker read (spec/13 R403). -/
def State.markLeaf (s : State) (pa : Nat) (e : Pte) (store : Bool) : State :=
  let raw := e.raw ||| (if store then 2 ^ 4 + 2 ^ 5 else 2 ^ 4)
  if raw == e.raw then s else s.putLe pa 8 raw

/-- The permission check on a leaf, the address, and the walker's marks; the die's TLB keeps the translation. -/
def State.useLeaf (s : State) (d p c va : Nat) (want : Want) (pa level : Nat) (e : Pte) : Except TFault (State × Nat) :=
  let size := pageSize level e.sz
  let out := e.addr + va % size
  if (want == .store && !e.w) || (want == .fetch && !e.x) || !s.mapped out then .error .bad
  else
    let s := s.markLeaf pa e (want == .store)
    let t : Tlb := { part := p, ctx := c, va := va / size * size, size := size, pa := e.addr, w := e.w, x := e.x,
                     d := e.d || want == .store }
    .ok (s.modDie d fun x => if x.tlb.contains t then x else { x with tlb := t :: x.tlb }, out)

/-- Cached translations of an address that permit the access without a walk (spec/13 R403). -/
def State.cached (s : State) (d p c va : Nat) (want : Want) : List Tlb :=
  (s.die d).tlb.filter fun t => t.part == p && t.ctx == c && decide (t.va ≤ va) && decide (va < t.va + t.size) &&
    (want != .store || (t.w && t.d)) && (want != .fetch || t.x)

/-- Translate: a cached translation or a walk, whichever is taken (spec/13 R403, R412, log entry 4); a cached translation
whose walk would give the same place makes no difference, and then no choice is drawn. A walk that crosses a broken link is an
unserviceable fault; the spec gives it no outcome (spec/13 R399; DESIGN CHOICE: log entry 19). -/
def State.translate (s : State) (d p c va : Nat) (want : Want) : Except TFault (State × Nat) :=
  let walked : Except TFault (State × Nat) := match s.walkReach d p c va, s.walk p c va with
    | .hold, _ => .error .held
    | .broken, _ => .error .bad
    | .ok, .leaf pa level e => s.useLeaf d p c va want pa level e
    | .ok, .tiered pa level _ => .error (.tiered pa level va)
    | .ok, .bad => .error .bad
  match s.cached d p c va want with
  | [] => walked
  | t :: ts =>
    let outs := (t :: ts).map fun t => t.pa + (va - t.va)
    match walked with
    | .ok (s', pa) => if outs.all (· == pa) then .ok (s, pa)
                      else let k := s.draw 2 va (outs.length + 1)
                           if k < outs.length then .ok (s, outs.getD k 0) else .ok (s', pa)
    | .error f => let k := s.draw 2 va (outs.length + 1)
                  if k < outs.length then .ok (s, outs.getD k 0) else .error f

/-- Drop cached translations everywhere (spec/13 R410). -/
def State.dropTlb (s : State) (keep : Tlb → Bool) : State :=
  { s with dies := s.dies.map fun d => { d with tlb := d.tlb.filter keep } }

/-! Blocks of power-of-two classes, shared by arenas and frame pools (spec/08 R279, spec/13 R406) -/

/-- The free block of the smallest sufficient class, lowest address first. -/
def bestBlock (free : List (Nat × Nat)) (c : Nat) : Option (Nat × Nat) :=
  free.foldl (fun best b =>
    if b.1 < c then best
    else match best with
      | none => some b
      | some k => if b.1 < k.1 || (b.1 == k.1 && b.2 < k.2) then some b else best) none

/-- Split a block of class `k` down to class `c`: the upper halves become free. -/
def splitDown (unit c : Nat) : Nat → Nat → List (Nat × Nat) → List (Nat × Nat)
  | 0, _, free => free
  | k + 1, x, free => if c < k + 1 then splitDown unit c k x ((k, x + unit * 2 ^ k) :: free) else free

/-- Alloc(c): the address, and the free blocks left. -/
def blockAlloc (unit : Nat) (free : List (Nat × Nat)) (c : Nat) : Option (Nat × List (Nat × Nat)) :=
  match bestBlock free c with
  | none => none
  | some b => some (b.2, splitDown unit c b.1 b.2 (free.erase b))

/-- Free(X): merge with buddies up to class `top`. -/
def blockFree (unit base top : Nat) : Nat → Nat → Nat → List (Nat × Nat) → List (Nat × Nat)
  | 0, c, x, free => (c, x) :: free
  | n + 1, c, x, free =>
    let buddy := base + ((x - base) ^^^ (unit * 2 ^ c))
    if c < top && free.contains (c, buddy) then blockFree unit base top n (c + 1) (min x buddy) (free.erase (c, buddy))
    else (c, x) :: free

/-! What page tables map -/

/-- Entries of a table that are present. -/
def State.presentEntries (s : State) (table level : Nat) : List Nat :=
  (s.mem.filter fun c => decide (table ≤ c.1) && decide (c.1 < table + 8 * levelEntries level) && (c.1 - table) % 8 == 0 &&
    c.2.getLsbD 0).map (·.1)

/-- Physical ranges that the leaves below a table map: start and length. -/
def State.leavesFrom (s : State) : Nat → Nat → List (Nat × Nat)
  | level, table => (s.presentEntries table level).flatMap fun pa =>
    let e := s.pte pa
    match e.kind level with
    | .present => [(e.addr, pageSize level e.sz)]
    | .pointer => match level with
      | l + 1 => State.leavesFrom s l e.addr
      | 0 => []
    | _ => []

/-- A physical range meets what a page table maps. -/
def State.tableMaps (s : State) (root pa n : Nat) : Bool :=
  (s.leavesFrom 3 root).any fun r => decide (r.1 < pa + n) && decide (pa < r.1 + r.2)

/-- A physical range lies in the address space of an active context. -/
def State.contextMaps (s : State) (pa n : Nat) : Bool :=
  s.parts.any fun p => p.ctxs.any fun c => c.active && s.tableMaps c.ptroot.toNat pa n

/-- Free bytes at a range of memory. -/
def State.freeBytes (s : State) (pa n : Nat) : State :=
  { s with mem := s.mem.writeAll ((List.range n).map fun i => (pa + i, (Config.freeWord s.fresh 62 (pa + i)).extractLsb' 0 8)) }

/-- A page whose second-tier copy another leaf maps has unpredictable contents once it has moved (spec/13 R409). -/
def State.blurAlias (s : State) (aliased : Bool) (pa n : Nat) : State := if aliased then s.freeBytes pa n else s

/-- L1 lines of a physical range are discarded on every core (spec/13 R407). -/
def State.dropLines (s : State) (pa n : Nat) : State :=
  { s with cores := s.cores.map fun k => { k with l1 := k.l1.filter fun q => !(decide (pa / 32 ≤ q.1) && decide (q.1 < (pa + n) / 32)) } }

/-! Fetch and evict (spec/13 R407, R408) -/

/-- The frame class of a page size: 64 KiB, 2 MiB or 32 MiB. -/
def frameClass (size : Nat) : Nat := Nat.log2 size - 16

/-- The pool of a die in a partition. -/
def Partition.pool (p : Partition) (d : Nat) : Option Pool := p.pools.find? fun q => q.die == d

def Partition.setPool (p : Partition) (q : Pool) : Partition :=
  { p with pools := p.pools.map fun x => if x.die == q.die then q else x }

/-- The pool whose range holds an address. -/
def Partition.poolAt (p : Partition) (pa : Nat) : Option Pool :=
  p.pools.find? fun q => decide (q.base ≤ pa) && decide (pa < q.base + q.size)

/-- Copy `n` bytes inside memory: only listed bytes count. -/
def Memory.copy (m : Memory) (src dst n : Nat) : Memory :=
  let cleared := m.filter fun c => !(decide (dst ≤ c.1) && decide (c.1 < dst + n))
  (m.filter fun c => decide (src ≤ c.1) && decide (c.1 < src + n)).foldl (fun acc c => acc.write (dst + (c.1 - src)) c.2) cleared

/-- A bit of an entry set or cleared. -/
def setBit (x i : Nat) (b : Bool) : Nat := if x.testBit i == b then x else if b then x + 2 ^ i else x - 2 ^ i

/-- Write every entry of a leaf's group (spec/13 R402). -/
def State.writeGroup (s : State) (pa level : Nat) (sz : Bool) (raw : Nat) : State :=
  (groupEntries pa level sz).foldl (fun s q => s.putLe q 8 raw) s

/-- How the move of a page between a die and second-tier memory fares: the tables' entries, and the second tier (spec/13 R399). -/
def State.moveReach (s : State) (d p c va far : Nat) : Reach :=
  match s.walkReach d p c va with
  | .ok => s.reach d far
  | r => r

/-- A claim on the leaf's group is held by a tier engine (spec/13 R407). -/
def State.claimed (s : State) (pa : Nat) : Bool := s.dies.any fun x => x.claims.contains pa

/-- A fetch of an address's page has to wait: for another claim, or in a recovery hold (spec/13 R407, spec/14 R431). -/
def State.fetchHeld (s : State) (p c d va : Nat) : Bool :=
  s.walkReach d p c va == .hold || match s.walk p c va with
    | .tiered pa _ e => if e.busy then s.claimed pa else s.moveReach d p c va e.addr == .hold
    | _ => false

/-- How a fetch of one page ends: with a status (spec/13 R407), or it must wait for another claim or a link. -/
inductive Fetched where
  | status (st : BitVec 8)
  | wait
deriving DecidableEq, Repr

/-- Fetch the page of a virtual address into the pool of die `d`; `pin` sets PIN. Past a broken link it ends with status 0x03
(spec/14 R432). -/
def State.fetchPage (s : State) (p c va d : Nat) (pin : Bool) : State × Fetched :=
  if s.fetchHeld p c d va then (s, .wait)
  else match s.walk p c va with
  | .leaf _ _ _ => (s, .status 0)
  | .bad => (s, .status 1)
  | .tiered pa level e =>
    if e.busy then (s, .status 1)
    else if s.moveReach d p c va e.addr == .broken then (s, .status 3)
    else
      let size := pageSize level e.sz
      match (s.part p).pool d with
      | none => (s, .status 1)
      | some q =>
        match blockAlloc 0x10000 q.free (frameClass size) with
        | none => (s, .status 1)
        | some (frame, free) =>
          if s.lost.any fun x => decide (e.addr / 32 ≤ x) && decide (x < (e.addr + size) / 32) then (s, .status 4)
          else
            let aliased := s.contextMaps e.addr size
            let s := s.modPart p fun x => x.setPool { q with free := free }
            let s := { s with mem := s.mem.copy e.addr frame size,
                              lost := s.lost.filter fun x => !(decide (frame / 32 ≤ x) && decide (x < (frame + size) / 32)) }
            let s := (s.blurAlias aliased frame size).dropLines frame size
            let s := s.putLe (q.recs + 8 * ((frame - q.base) / 0x10000)) 8 e.addr
            let keep := e.raw &&& (2 ^ 2 + 2 ^ 3 + 2 ^ 6)
            let raw := frame + keep + 3 + 2 ^ 8 + (if pin then 2 ^ 7 else 0)
            (s.writeGroup pa level e.sz raw, .status 0)

/-- Lost sectors after `n` bytes were copied: those of the source are lost at the destination too. -/
def movedLost (l : List Nat) (src dst n : Nat) : List Nat :=
  let within := fun (a x : Nat) => decide (a / 32 ≤ x) && decide (x < (a + n) / 32)
  l.filter (fun x => !within dst x) ++ (l.filter (within src)).map fun x => dst / 32 + (x - src / 32)

/-- Evict begins (spec/13 R408): what it moves, or the status with which it ends at once. -/
def State.evictOf (s : State) (p c va : Nat) : Moving ⊕ BitVec 8 :=
  match s.walk p c va with
  | .leaf pa level e =>
    if !e.tf || e.pin then .inr 0
    else match (s.part p).poolAt e.addr with
      | none => .inr 1
      | some q =>
        let home := s.mem.readLe (q.recs + 8 * ((e.addr - q.base) / 0x10000)) 8
        if s.moveReach q.die p c va home == .broken then .inr 3
        else .inl { pa := pa, level := level, sz := e.sz, frame := e.addr, home := home, die := q.die, was := e.raw,
                    dirty := (groupEntries pa level e.sz).any fun r => (s.pte r).d }
  | .tiered .. | .bad => .inr 0

/-- The tiered leaf of a page that has been evicted. -/
def Moving.tiered (m : Moving) : Nat := m.home + (m.was &&& (2 ^ 2 + 2 ^ 3 + 2 ^ 6)) + 2 + 2 ^ 9

/-- The leaf becomes tiered with BUSY set, and its die's tier engine claims it. -/
def State.claimPage (s : State) (m : Moving) : State :=
  (s.writeGroup m.pa m.level m.sz (m.tiered + 2 ^ 10)).modDie m.die fun x =>
    { x with claims := x.claims ++ groupEntries m.pa m.level m.sz }

/-- The claim ends, and the leaf is written as `raw`. -/
def State.releasePage (s : State) (m : Moving) (raw : Nat) : State :=
  (s.writeGroup m.pa m.level m.sz raw).modDie m.die fun x =>
    { x with claims := x.claims.filter fun q => !(groupEntries m.pa m.level m.sz).contains q }

/-- The rest of an evict, after its shootdown: the frame is copied if it was written, and returned; BUSY is cleared (spec/13 R408). -/
def State.finishEvict (s : State) (p : Nat) (m : Moving) : State :=
  let size := pageSize m.level m.sz
  let s := if m.dirty then { s with mem := s.mem.copy m.frame m.home size, lost := movedLost s.lost m.frame m.home size } else s
  let s := ((s.blurAlias (s.contextMaps m.home size) m.home size).dropLines m.home size).dropLines m.frame size
  let s := s.modPart p fun x => match x.poolAt m.frame with
    | some q => x.setPool { q with free := blockFree 0x10000 q.base 9 10 (frameClass size) m.frame q.free }
    | none => x
  s.releasePage m m.tiered

end Sys2Proof.Machine
end

