-- ==== Sys2Proof/Machine/Waves.lean ====
section
/-! DEFINITION. What a meaning can come to, and the operations on one wave: masks, paths and positions, registers, counted
operations, regions with Complete and Select, member sets and lanes that leave the masks (spec/01 R18 to R23, spec/02 R46 to
R50, spec/05 R182 to R200, R217). -/

namespace Sys2Proof.Machine

/-- The outcome of a step. -/
abbrev Out := Host.Outcome State Fault Refusal

/-- A trap that an instruction raises (spec/11 R344). With no lanes given, the path mask is reported. -/
structure TrapReq where
  code : BitVec 6
  addr : Word := 0
  lanes : Option Mask := none
  resume : Bool := false
  sw : Bool := false
  /-- reported at the header (TINF.HDR), with the header word -/
  hdr : Option Word := none
deriving DecidableEq, Repr

/-- Why a meaning does not come to its ordinary end: it raises a trap, it stalls (keeping a state that differs from the one
before only in bookkeeping), or it has itself made the next state. -/
inductive Stop where
  | trap (t : TrapReq)
  | stall (why : Why) (s : State)
  | done (s : State)
  | fault (f : Fault)
deriving DecidableEq, Repr

/-- What a meaning computes. -/
abbrev Eff (α : Type) := Except Stop α

/-- Raise a trap. -/
def raise {α : Type} (code : BitVec 6) (addr : Word := 0) (lanes : Option Mask := none) : Eff α :=
  .error (.trap { code := code, addr := addr, lanes := lanes })

/-- Raise a trap unless a condition holds. -/
def demand (ok : Bool) (code : BitVec 6) (addr : Word := 0) (lanes : Option Mask := none) : Eff Unit :=
  if ok then .ok () else raise code addr lanes

/-! Masks, paths and positions -/

/-- The lanes below W. -/
def allLanes (w : Nat) : Mask := BitVec.ofNat 1024 (2 ^ w - 1)

/-- The mask of the lanes below `n` for which `f` holds, as a number. -/
def maskNat (f : Nat → Bool) : Nat → Nat
  | 0 => 0
  | n + 1 => maskNat f n + (if f n then 2 ^ n else 0)

/-- The mask of the lanes below `n` for which `f` holds. -/
def maskOf (n : Nat) (f : Nat → Bool) : Mask := BitVec.ofNat 1024 (maskNat f n)

/-- The lanes of a mask, ascending. -/
def lanesOf (n : Nat) (m : Mask) : List Nat := (List.range n).filter fun l => m.getLsbD l

/-- The number of lanes in a mask. -/
def laneCount (n : Nat) (m : Mask) : Nat := (lanesOf n m).length

/-- Least element of a list under a strict order. -/
def leastBy {α : Type} (lt : α → α → Bool) : List α → Option α
  | [] => none
  | a :: as => match leastBy lt as with
    | none => some a
    | some b => if lt b a then some b else some a

def PathRec.none : PathRec := { st := .free, pos := { hdr := 0, idx := 0 }, mask := 0, reg := root, mset := 0 }

/-- The index of the RUN record (spec/05 R182). -/
def Wave.cur (x : Wave) : Nat := x.lc.paths.findIdx fun p => p.st == .run

def Wave.path (x : Wave) : PathRec := x.lc.paths.getD x.cur PathRec.none

/-- EXEC (spec/05 R182). -/
def Wave.exec (x : Wave) : Mask := x.path.mask

def Wave.pos (x : Wave) : Pos := x.path.pos

/-- Header address of the current clause. -/
def Wave.hdr (x : Wave) : Word := x.pos.hdr

def Wave.setPath (x : Wave) (i : Nat) (p : PathRec) : Wave := { x with lc.paths := x.lc.paths.set i p }

def Wave.modPath (x : Wave) (i : Nat) (f : PathRec → PathRec) : Wave := x.setPath i (f (x.lc.paths.getD i PathRec.none))

/-- F, the header after the current clause (spec/02 R49, spec/05 R184). -/
def Wave.fallThrough (x : Wave) : Word := x.hdr + BitVec.ofNat 64 (8 * (x.sch.count + 1))

/-- The position after the next instruction of the clause, and whether it is a new clause (spec/02 R49). -/
def Wave.after (x : Wave) : Pos :=
  if x.pos.idx + 1 < x.sch.count then { hdr := x.hdr, idx := x.pos.idx + 1 } else { hdr := x.fallThrough, idx := 0 }

/-- The current path moves to a position; a clause entered at its header has still to start. -/
def Wave.goto (x : Wave) (p : Pos) : Wave :=
  let y := x.modPath x.cur fun r => { r with pos := p, due := none }
  if p.idx == 0 then { y with sch.started := false, sch.resume := false } else y

/-- The current path stands at a handler's header; what is due at the interrupted position stays due. -/
def Wave.enterAt (x : Wave) (h : Word) : Wave :=
  { (x.modPath x.cur fun r => { r with pos := { hdr := h, idx := 0 } }) with sch.started := false, sch.resume := false }

/-- The current path moves on to the next instruction. -/
def Wave.advance (x : Wave) : Wave := x.goto x.after

/-- A lane that is neither exited nor dead (spec/05 R180). -/
def Wave.live (x : Wave) : Mask := allLanes x.id.width &&& ~~~ (x.lc.dead ||| x.lc.exited)

/-! Registers -/

/-- The tag of a metadata word, and LEN (spec/03 R92, R94). -/
def mdTag (md : BitVec 32) : Tag := Tag.ofCode (md.extractLsb' 0 4)
def mdLen (md : BitVec 32) : Nat := (md.extractLsb' 4 11).toNat

/-- Replace the lanes of a mask, from lane `i` on. -/
def blend (m : Mask) : Nat → List Lane → List Lane → List Lane
  | _, [], _ => []
  | i, o :: os, [] => o :: blend m (i + 1) os []
  | i, o :: os, n :: ns => (if m.getLsbD i then n else o) :: blend m (i + 1) os ns

def Wave.vreg (x : Wave) (r : Nat) : VReg := x.v.getD r { lanes := [], md := 0xF#32 }

/-- Write the lanes of a mask of a V register, and its metadata word. -/
def Wave.setV (x : Wave) (r : Nat) (m : Mask) (vals : List Lane) (md : BitVec 32) : Wave :=
  { x with v := x.v.set r { lanes := blend m 0 (x.vreg r).lanes vals, md := md } }

/-- The scalar register of the bank in force: in handler mode S56 to S63 are the handler bank (spec/11 R346). -/
def Wave.sreg (x : Wave) (n : Nat) : Word :=
  if x.tr.hm && decide (56 ≤ n) then x.hb.getD (n - 56) 0 else x.s.getD n 0

def Wave.setS (x : Wave) (n : Nat) (v : Word) : Wave :=
  if x.tr.hm && decide (56 ≤ n) then { x with hb := x.hb.set (n - 56) v } else { x with s := x.s.set n v }

def Wave.carry (x : Wave) : Bool := if x.tr.hm then x.hcy else x.cy

def Wave.setCarry (x : Wave) (b : Bool) : Wave := if x.tr.hm then { x with hcy := b } else { x with cy := b }

/-- A predicate as stored; P7 always reads true (spec/02 R38). -/
def Wave.pred (x : Wave) (p : BitVec 3) : Mask := if p == 7#3 then BitVec.allOnes 1024 else x.preds.getD p.toNat 0

/-- Write the lanes of a mask of a predicate; a write to P7 is discarded. -/
def Wave.setP (x : Wave) (p : BitVec 3) (m bits : Mask) : Wave :=
  if p == 7#3 then x
  else { x with preds := x.preds.set p.toNat ((x.preds.getD p.toNat 0 &&& ~~~ m) ||| (bits &&& m)) }

/-- OR flags into FFLAGS (spec/03 R107). -/
def Wave.raiseFlags (x : Wave) (f : Flags) : Wave := { x with fflags := x.fflags ||| f }

/-- The bits of a guard over the lanes, from a predicate's bits. -/
def guardBits (g : Guard) (bits : Mask) : Mask := if g.neg then ~~~ bits else bits

/-! Counted operations (spec/01 R18 to R23) -/

/-- Operations of a class outstanding. -/
def Wave.outstanding (x : Wave) (c : Cls) : Nat := (x.mem.outst.filter fun p => p.cls == c).length

/-- All four counters are zero. -/
def Wave.idle (x : Wave) : Bool := x.mem.outst.isEmpty

/-- Count an operation; `ready` when it completes at once. -/
def Wave.count (x : Wave) (c : Cls) (ready : Bool) (ds : List Dest) : Wave :=
  { x with mem.outst := x.mem.outst ++ [{ cls := c, key := x.num.key, ready := ready, dests := ds }],
           num.key := x.num.key + 1 }

/-- An engine reports that operation `key` of a wave has completed, with the registers it writes. -/
def Wave.markReady (x : Wave) (key : Nat) (ds : List Dest) : Wave :=
  { x with mem.outst := x.mem.outst.map fun p => if p.key == key then { p with ready := true, dests := p.dests ++ ds } else p }

/-- A completion writes its registers (spec/01 R21). -/
def Wave.applyDest (x : Wave) : Dest → Wave
  | .v r m vals keep val => { x with v := x.v.set r { lanes := blend m 0 (x.vreg r).lanes vals, md := ((x.vreg r).md &&& keep) ||| val } }
  | .s r hb v => if hb then { x with hb := x.hb.set (r - 56) v } else { x with s := x.s.set r v }
  | .p r m bits => x.setP r (m &&& ~~~ x.lc.dead) bits

def Wave.applyDests (x : Wave) (ds : List Dest) : Wave := ds.foldl Wave.applyDest x

/-- The destination that names a scalar register of the bank in force. -/
def Wave.destS (x : Wave) (n : Nat) (v : Word) : Dest := .s n (x.tr.hm && decide (56 ≤ n)) v

/-! Regions and records (spec/05 R182, R183) -/

/-- A free region entry. -/
def Region.free : Region := { valid := false, ra := 0, par := root, live := 0, arr := 0 }

def Wave.region (x : Wave) (r : BitVec 6) : Region := x.lc.regions.getD r.toNat Region.free

def Wave.modRegion (x : Wave) (r : BitVec 6) (f : Region → Region) : Wave :=
  { x with lc.regions := modifyAt x.lc.regions r.toNat f }

/-- The lowest free path record. -/
def Wave.freePath (x : Wave) : Option Nat := x.lc.paths.findIdx? fun p => p.st == .free

/-- The lowest free region entry. -/
def Wave.freeRegion (x : Wave) : Option Nat := x.lc.regions.findIdx? fun r => !r.valid

/-- Path records in use. -/
def Wave.pathCount (x : Wave) : Nat := (x.lc.paths.filter fun p => p.st != .free).length

/-- The chain of regions from `r` outward, without ROOT: at most `n` entries. -/
def Wave.chain (x : Wave) : Nat → BitVec 6 → List (BitVec 6)
  | 0, _ => []
  | n + 1, r => if r == root then [] else r :: Wave.chain x n (x.region r).par

def Wave.freeRec (x : Wave) (i : Nat) : Wave := x.setPath i PathRec.none

/-- The PEND path at a position in a region. -/
def Wave.pendAt (x : Wave) (p : Pos) (r : BitVec 6) : Option Nat :=
  x.lc.paths.findIdx? fun q => q.st == .pend && q.pos == p && q.reg == r

/-- Lanes join the PEND path at (a, 0) in a region, or form one: the wave, and that path; none when no record is free. -/
def Wave.pendLanes (x : Wave) (a : Word) (r : BitVec 6) (m : Mask) : Option (Wave × Nat) :=
  match x.pendAt { hdr := a, idx := 0 } r with
  | some i => some (x.modPath i fun q => { q with mask := q.mask ||| m }, i)
  | none => x.freePath.map fun i =>
      (x.setPath i { st := .pend, pos := { hdr := a, idx := 0 }, mask := m, reg := r, mset := 0 }, i)

/-- The next entry on which Complete acts: valid, LIVE empty, no path's REG, deepest first (spec/05 R185). -/
def Wave.toComplete (x : Wave) : Option (BitVec 6) :=
  let c := ((List.range 32).map (BitVec.ofNat 6)).filter fun r =>
    (x.region r).valid && (x.region r).live == 0 && !(x.lc.paths.any fun p => p.st != .free && p.reg == r)
  leastBy (fun a b => decide ((x.chain 33 b).length < (x.chain 33 a).length)) c

/-- Complete, for at most `n` entries: the wave, and the first path created (spec/05 R185). -/
def Wave.complete (x : Wave) (made : Option Nat) : Nat → Wave × Option Nat
  | 0 => (x, made)
  | n + 1 =>
    match x.toComplete with
    | none => (x, made)
    | some r =>
      let e := x.region r
      let y := x.modRegion r fun _ => Region.free
      if e.arr == 0 then Wave.complete y made n
      else match y.pendLanes (e.ra.zeroExtend 64 <<< 3) e.par e.arr with
        | none => (x, made)
        | some (z, i) => Wave.complete z (made.or (some i)) n

/-- A record becomes current; its clause, unless just entered, is resumed. What a stalled instruction of another path has done or
asked for is not its own (spec/11 R351). -/
def Wave.makeCurrent (x : Wave) (i : Nat) : Wave :=
  let y := x.modPath i fun p => { p with st := .run }
  { y with sch.started := false, sch.resume := (y.lc.paths.getD i PathRec.none).pos.idx != 0, sch.barArrived := none,
           sch.heapWait := none, sch.heapReply := none, sch.growWant := none, sch.growGrant := none, sch.shoot := none }

/-- Select, record `k` having been current; none when no record is in use. With no PEND path the MWAIT path with the smallest
index becomes current, and its instruction will raise 0x08 (spec/05 R186, R200). -/
def Wave.select (x : Wave) (k : Nat) : Option Wave :=
  let pend := (List.range x.lc.paths.length).filter fun i => (x.lc.paths.getD i PathRec.none).st == .pend
  match pend.find? (fun i => decide (k < i)), pend with
  | some i, _ => some (x.makeCurrent i)
  | none, i :: _ => some (x.makeCurrent i)
  | none, [] => (x.lc.paths.findIdx? fun p => p.st == .mwait).map fun i =>
      (x.modPath i fun p => { p with due := some (p.pos, false) }).makeCurrent i

/-- The current path's lanes are gone: Complete, and Select unless Complete made a path current. -/
def Wave.pathEnded (x : Wave) (k : Nat) : Option Wave :=
  match (x.freeRec k).complete none 33 with
  | (y, some i) => some (y.makeCurrent i)
  | (y, none) => y.select k

/-- Rotation: the current path becomes PEND where it stands, and Select runs (spec/05 R195). -/
def Wave.rotate (x : Wave) : Wave :=
  let k := x.cur
  ((x.modPath k fun p => { p with st := .pend }).select k).getD x

/-! Member sets and lanes that leave (spec/05 R197 to R200, R217) -/

/-- Member(S). -/
def Wave.members (x : Wave) (v : Word) : Mask :=
  maskOf x.id.width fun l => v.getLsbD (l / 32) && v.getLsbD (32 + l % 32) && !x.lc.dead.getLsbD l

/-- Records other than the current one that wait at its position. -/
def Wave.waiters (x : Wave) : List Nat :=
  (List.range x.lc.paths.length).filter fun i =>
    let p := x.lc.paths.getD i PathRec.none
    p.st == .mwait && p.pos == x.pos && i != x.cur

/-- The member set that a path names with `v`: that of its arrival, where a death has completed the set (spec/05 R200). -/
def Wave.named (x : Wave) (v : Word) : Word := if x.path.due == some (x.pos, true) then x.path.mset else v

/-- Lanes leave every mask. -/
def Wave.dropLanes (x : Wave) (m : Mask) : Wave :=
  { x with lc.dead := x.lc.dead ||| m,
           lc.paths := x.lc.paths.map fun p =>
             if p.st == .free then p
             else if p.mask &&& ~~~ m == 0 then PathRec.none else { p with mask := p.mask &&& ~~~ m },
           lc.regions := x.lc.regions.map fun r => { r with live := r.live &&& ~~~ m, arr := r.arr &&& ~~~ m } }

/-- The waiting paths at a record's position cover its set, and it is the lowest of them. -/
def Wave.setComplete (x : Wave) (i : Nat) : Bool :=
  let p := x.lc.paths.getD i PathRec.none
  p.st == .mwait && !((x.lc.paths.take i).any fun q => q.st == .mwait && q.pos == p.pos) &&
    x.members p.mset &&& ~~~ (x.lc.paths.foldl (fun acc q =>
      if q.st == .mwait && q.pos == p.pos then acc ||| q.mask else acc) (0 : Mask)) == 0

/-- The lowest MWAIT record of every set that the waiting paths now cover becomes PEND, so that it acts when it is next selected
(spec/05 R200). -/
def Wave.wakeSet (x : Wave) : Wave :=
  ((List.range x.lc.paths.length).filter x.setComplete).foldl
    (fun y i => y.modPath i fun p => { p with st := .pend, due := some (p.pos, true) }) x

/-- An `xeq` of the wave is in progress, at its position or interrupted by a handler (spec/05 R206, R213, R216). -/
def Wave.chanting (x : Wave) : Bool := x.lc.xprog.getLsbD 31 || (x.tr.hm && x.tr.txprog.getLsbD 31)

/-- The counters are zero and the store queue has drained. -/
def Wave.drained (x : Wave) : Bool := x.idle && x.mem.storeQ.isEmpty

end Sys2Proof.Machine
end

