-- ==== Sys2Proof/Machine/Places.lean ====
section
/-! DEFINITION. Scopes of the hierarchy, the places that addresses resolve to, the bytes that an engine reads there, and the
copies that a core's L1 holds (spec/01 R12, R14; spec/04 R135 to R138, R174; spec/15 R444). -/

namespace Sys2Proof.Machine

/-! Scopes -/

/-- A scope's place in the hierarchy, by its code (spec/01 R12). -/
def scopeRank : Scope → Nat
  | .wave => 0
  | .core => 1
  | .quad => 2
  | .die => 3
  | .pkg => 4
  | .pod => 5
  | .sys => 6

/-- A scope wider than the core: its loads are served at the home point. -/
def Scope.wide (sc : Scope) : Bool := decide (2 ≤ scopeRank sc)

/-- Placement level of a launch (spec/12 R371). -/
def LaunchRec.level (r : LaunchRec) : Nat := if r.wide == 1 then 4 else if r.wide == 2 then 5 else r.place + 1

/-- The unit of a scope in which a core lies: physical units in normal mode, logical ones in deterministic mode
(spec/12 R375). -/
def Core.unitOf (c : Core) (det : Bool) : Scope → Nat
  | .core => c.logical
  | .quad => (if det then c.logical else c.phys) / 4
  | .die => (if det then c.logical else c.phys) / 192
  | _ => 0

/-- The global wave identifier (spec/04 R174). -/
def State.globalId (s : State) (w : Nat) : Nat :=
  s.ctl.podRank.toNat * 2 ^ 15 + (s.core (s.wave w).id.core).logical % 1024 * 32 + (s.wave w).id.slot % 32

/-! Places -/

/-- The scratchpad window (spec/04 R137). -/
def windowBase : Nat := 0x1FFF00000000000

def inWindow (va : Nat) : Bool := decide (windowBase ≤ va) && decide (va < windowBase + 0x100000)

/-- A place that an access resolves to: an offset of the group's scratchpad or a physical address. -/
inductive Loc where
  | sp (off : Nat)
  | mem (pa : Nat)
deriving DecidableEq, Repr

/-- The place `i` bytes on. -/
def Loc.plus : Loc → Nat → Loc
  | .sp o, i => .sp (o + i)
  | .mem p, i => .mem (p + i)

def Loc.isSp : Loc → Bool
  | .sp _ => true
  | .mem _ => false

def Loc.num : Loc → Nat
  | .sp o => o
  | .mem p => p

/-- Resolve an address for an engine or the context unit acting for group `g`: none for an access violation or an
unserviceable fault; a tiered page is fetched first (spec/04 R136, R137, spec/13 R404). -/
def State.resolve (s : State) (g d p c va n : Nat) (want : Want) : Option (State × Loc) :=
  if 2 ^ 57 ≤ va then none
  else if inWindow va then
    if va - windowBase + n ≤ (s.group g).spb then some (s, .sp (va - windowBase)) else none
  else match s.translate d p c va want with
    | .ok (s', pa) => some (s', .mem pa)
    | .error .bad | .error .held => none
    | .error (.tiered ..) =>
      match s.fetchPage p c va d false with
      | (s', .status 0) => match s'.translate d p c va want with
        | .ok (s'', pa) => some (s'', .mem pa)
        | .error _ => none
      | _ => none

/-- An engine's access waits before it has its place: its walk, or the fetch of its page, is held (spec/13 R399, R407). -/
def State.placeHeld (s : State) (d p c va : Nat) : Bool :=
  decide (va < 2 ^ 57) && !inWindow va && (s.cached d p c va .load).isEmpty && s.fetchHeld p c d va

/-- A byte at its home point: that of an image, which the spec gives no layout, is free (spec/11 R359; log entry 44). -/
def State.homeByte (s : State) (pa : Nat) : Byte :=
  match s.parts.findSome? fun p => p.imaged.bind fun n =>
      if s.ownWindow + p.imageBase ≤ pa ∧ pa < s.ownWindow + p.imageBase + 0x2000000 then some n else none with
  | some n => BitVec.ofNat 8 (Config.choice n 64 pa)
  | none => s.mem.read pa

/-- The byte at a place, as an engine of group `g` reads it: staged bytes first (spec/15 R444). -/
def State.engineByte (s : State) (g : Nat) : Loc → Byte
  | .sp off => (s.group g).sp.read off
  | .mem pa => match overlayRead (s.group g).staging pa with
    | some b => b
    | none => s.homeByte pa

/-- `n` bytes from a place. -/
def State.engineRead (s : State) (g : Nat) (l : Loc) (n : Nat) : List Byte :=
  (List.range n).map fun i => s.engineByte g (match l with | .sp o => .sp (o + i) | .mem p => .mem (p + i))

/-- Some byte of a place lies in a lost sector that nothing staged covers (spec/15 R456). -/
def State.engineLost (s : State) (g : Nat) (l : Loc) (n : Nat) : Bool :=
  (List.range n).any fun i => match l.plus i with
    | .sp o => (s.group g).spLost.contains (o / 32)
    | .mem p => s.lostAt p && (overlayRead (s.group g).staging p).isNone

/-- What an engine reads of a place that it writes: with `direct`, the home point, whatever its group has staged (spec/06 R237). -/
def State.homeward (s : State) (g : Nat) (direct : Bool) : State :=
  if direct then s.modGroup g fun x => { x with staging := [] } else s

/-! L1 (spec/04 R135, R138, R150) -/

/-- A store updates the L1 copies of its line in its core. -/
def State.l1Store (s : State) (c : Nat) (bs : List (Nat × Byte)) : State :=
  if (s.core c).l1.isEmpty then s
  else s.modCore c fun k => { k with l1 := k.l1.map fun q =>
    (q.1, q.2.zipIdx.map fun b => (overlayRead bs.reverse (32 * q.1 + b.2)).getD b.1) }

/-- Lines of the sectors `ks` leave the L1 of a core. -/
def State.l1Drop (s : State) (c : Nat) (ks : List Nat) : State :=
  if (s.core c).l1.isEmpty then s else s.modCore c fun k => { k with l1 := k.l1.filter fun q => !ks.contains q.1 }

/-- Every line of a core's L1 is discarded. -/
def State.l1Clear (s : State) (c : Nat) : State :=
  if (s.core c).l1.isEmpty then s else s.modCore c fun k => { k with l1 := [] }

end Sys2Proof.Machine
end

