-- ==== Sys2Proof/Machine/Race.lean ====
section
/-! DEFINITION. The race detector: shadow entries, interval numbers, acquired releases, epochs, and the log ring (spec/04 R173
to R178). -/

namespace Sys2Proof.Machine

/-- A shadow entry (spec/04 R174). -/
structure Shadow where
  writer : Nat
  sc : Nat
  kind : Nat
  interval : Nat
  epoch : Nat
deriving DecidableEq, Repr

def Shadow.ofNat (x : Nat) : Shadow :=
  { writer := bitsOf x 63 43, sc := bitsOf x 42 40, kind := bitsOf x 39 38, interval := bitsOf x 37 16, epoch := bitsOf x 15 0 }

def Shadow.toNat (e : Shadow) : Nat :=
  e.writer * 2 ^ 43 + e.sc * 2 ^ 40 + e.kind * 2 ^ 38 + e.interval * 2 ^ 16 + e.epoch

/-- "Later than" for a counter of k bits (spec/04 R176). -/
def laterThan (k new old : Nat) : Bool :=
  let d := (new + 2 ^ k - old % 2 ^ k) % 2 ^ k
  decide (1 ≤ d) && decide (d < 2 ^ (k - 1))

/-- Kinds of access, as the log counts them (spec/04 R177). -/
inductive AccKind where
  | load | store | atomic | engineRead | engineWrite | stamp
deriving DecidableEq, Repr

def AccKind.writes : AccKind → Bool
  | .store | .atomic | .engineWrite | .stamp => true
  | _ => false

/-- An engine writes a stamp as one atomic (spec/06 R233). -/
def AccKind.isAtomic : AccKind → Bool
  | .atomic | .stamp => true
  | _ => false

/-- The scope of a rank. -/
def scopeOfRank : Nat → Scope
  | 0 => .wave
  | 1 => .core
  | 2 => .quad
  | 3 => .die
  | 4 => .pkg
  | 5 => .pod
  | _ => .sys

/-- The core of a global wave identifier in the partition of core `c`. -/
def State.coreOfId (s : State) (c id : Nat) : Option Core :=
  s.cores.find? fun k => k.part == (s.core c).part && k.logical == (id / 32) % 1024 && !k.twin

/-- The wave lies in the scope unit of the wave that an identifier names. -/
def State.inScopeOf (s : State) (w id sc : Nat) : Bool :=
  let det := (s.waveLaunch w).r.det
  let c := s.core (s.wave w).id.core
  if sc == 0 then id == s.globalId w
  else if 4 ≤ sc then id / 2 ^ 15 == s.ctl.podRank.toNat || decide (5 ≤ sc)
  else match s.coreOfId (s.wave w).id.core id with
    | some k => id / 2 ^ 15 == s.ctl.podRank.toNat && k.unitOf det (scopeOfRank sc) == c.unitOf det (scopeOfRank sc)
    | none => false

/-- The epoch of the wave's unit at a scope. -/
def State.epoch (s : State) (w sc : Nat) : Nat :=
  let l := s.waveLaunch w
  let u := (s.core (s.wave w).id.core).unitOf l.r.det (scopeOfRank sc)
  match l.epochs.find? fun e => scopeRank e.1 == sc && e.2.1 == u with
  | some e => e.2.2.toNat
  | none => 0

/-- An ordering that acquires. -/
def Order.acquires : Order → Bool
  | .acq | .ar => true
  | _ => false

/-- An ordering that releases. -/
def Order.releases : Order → Bool
  | .rel | .ar => true
  | _ => false

/-- What one access does to the detector. -/
structure Access where
  kind : AccKind
  acq : Bool
  rel : Bool
  sc : Scope
  /-- a read that is checked and acquires nothing: a failing evaluation of `mwait` -/
  keep : Bool := false
deriving DecidableEq, Repr

/-- An entry orders an access (spec/04 R176). -/
def State.raceFree (s : State) (w : Nat) (a : Access) (e : Shadow) : Bool :=
  e.kind == 0 || e.writer == s.globalId w ||
  (decide (2 ≤ e.kind) && a.kind.isAtomic) ||
  (e.kind == 3 && a.acq) ||
  (s.inScopeOf w e.writer e.sc && laterThan 16 (s.epoch w e.sc) e.epoch) ||
  ((s.wave w).mem.acqs.any fun p => p.1.toNat == e.writer && laterThan 22 p.2.toNat e.interval)

/-- Covered sectors of an access at a virtual address, as offsets of the covered range in sectors. -/
def Context.coveredSectors (c : Context) (va n : Nat) : List Nat :=
  if c.raceL == 0 || inWindow va then []
  else (((List.range n).map fun i => va + i).filterMap fun a =>
    if c.raceC0 ≤ a ∧ a < c.raceC0 + c.raceL then some ((a - c.raceC0) / 32) else none).eraseDups

/-- One log record (spec/04 R177) of an access of the instruction at `pos`, released before the producer index rises. A write whose
ring address does not translate, or lies in the window, is dropped, and an index there reads as 0; an atomic that acquires is of
kind 2 (DESIGN CHOICE: log entry 54). -/
def State.logRace (s : State) (w : Nat) (a : Access) (pos : Pos) (lane va entry : Nat) : State :=
  let x := s.wave w
  let c := s.waveCtx w
  let size := 2 ^ (c.logr.toNat % 64)
  let ring := c.logr.toNat / 64 * 64
  let put := fun (s : State) (va : Nat) (bs : List Byte) =>
    match s.resolve x.id.group (s.waveDie w) x.id.part x.id.ctx va bs.length .store with
    | some (s', .mem pa) => s'.writeMem (placed pa bs)
    | some (s', .sp _) => s'
    | none => s
  let get := fun (s : State) (va : Nat) =>
    match s.resolve x.id.group (s.waveDie w) x.id.part x.id.ctx va 8 .load with
    | some (s', .mem pa) => s'.mem.readLe pa 8
    | _ => 0
  let prod := get s ring
  let cons := get s (ring + 8)
  if (prod + 2 ^ 64 - cons) % 2 ^ 64 == size then put s (ring + 16) (leBytes 8 (get s (ring + 16) + 1))
  else
    let kind := match a.kind with
      | .load => if a.acq then 3 else 0
      | .store => 1
      | .atomic => 2
      | .engineRead => 4
      | .engineWrite | .stamp => 5
    let rec_ := leBytes 8 va ++ leBytes 8 pos.hdr.toNat ++
      leBytes 4 (s.globalId w + pos.idx % 16 * 2 ^ 21 + kind * 2 ^ 25) ++ leBytes 4 (lane % 1024) ++ leBytes 8 entry
    let s := put s (ring + 64 + 32 * (prod % size)) rec_
    put s ring (leBytes 8 (prod + 1))

/-- An acquired release enters the wave's table (spec/04 R175). -/
def acquireRelease (l : List (BitVec 21 × BitVec 22)) (e : Shadow) : List (BitVec 21 × BitVec 22) :=
  let y := BitVec.ofNat 21 e.writer
  let i := BitVec.ofNat 22 e.interval
  if l.any (fun p => p.1 == y) then l.map fun p => if p.1 == y && laterThan 22 i.toNat p.2.toNat then (y, i) else p
  else (if 16 ≤ l.length then l.drop 1 else l) ++ [(y, i)]

/-- A release by the wave: its interval number rises (spec/04 R175). -/
def State.releaseInterval (s : State) (w : Nat) : State :=
  s.modWave w fun x => { x with mem.interval := x.mem.interval + 1 }

/-- The accesses of one instruction or step, lane by lane with address and size: those that conflict. -/
def State.conflicts (s : State) (w : Nat) (a : Access) (l : List (Nat × Nat × Nat)) : List (Nat × Nat × Nat × Nat) :=
  let c := s.waveCtx w
  l.flatMap fun q => (c.coveredSectors q.2.1 q.2.2).filterMap fun k =>
    let e := s.mem.readLe (c.shbase + 8 * k) 8
    if s.raceFree w a (Shadow.ofNat e) then none else some (q.1, q.2.1, k, e)

/-- The entries and the wave's own table after the accesses. -/
def State.recordAccesses (s : State) (w : Nat) (a : Access) (l : List (Nat × Nat × Nat)) : State :=
  let c := s.waveCtx w
  let ks := (l.flatMap fun q => c.coveredSectors q.2.1 q.2.2).eraseDups
  let s := if a.acq && !a.keep then
      ks.foldl (fun s k =>
        let e := Shadow.ofNat (s.mem.readLe (c.shbase + 8 * k) 8)
        if e.kind == 3 && s.inScopeOf w e.writer e.sc then
          s.modWave w fun x => { x with mem.acqs := acquireRelease x.mem.acqs e }
        else s) s
    else s
  let s := if a.rel then s.releaseInterval w else s
  if !a.kind.writes then s
  else
    let sc := max 1 (scopeRank a.sc)
    let e : Shadow :=
      { writer := s.globalId w, sc := sc, kind := if a.rel then 3 else if a.kind.isAtomic then 2 else 1,
        interval := (s.wave w).mem.interval.toNat, epoch := s.epoch w sc }
    ks.foldl (fun s k => s.putLe (c.shbase + 8 * k) 8 e.toNat) s

/-- The instruction that issued a command. -/
def SCmd.origin (x : SCmd) : Origin := { pos := x.pos, key := some x.key }
def MCmd.origin (x : MCmd) : Origin := { pos := x.pos, key := some x.key }
def NCmd.origin (x : NCmd) : Origin := { pos := x.pos, key := some x.key }
def LMul.origin (x : LMul) : Origin := { pos := x.pos, key := some x.key }
def HCmd.origin (x : HCmd) : Origin := { pos := x.pos, key := some x.key }
def TCmd.origin (x : TCmd) : Origin := { pos := x.pos, key := some x.key }

/-- One log record per instruction and sector among conflicts: of a sector that the instruction has logged no more (spec/04 R177). -/
def State.logConflicts (s : State) (w : Nat) (a : Access) (by_ : Origin) (cs : List (Nat × Nat × Nat × Nat)) : State :=
  let ks := ((cs.map fun q => q.2.2.1).eraseDups).filter fun k => !(s.wave w).sch.raced.contains (by_, k)
  let s := ks.foldl (fun s k => match cs.find? fun q => q.2.2.1 == k with
    | some q => s.logRace w a by_.pos q.1 q.2.1 q.2.2.2
    | none => s) s
  if ks.isEmpty then s else s.modWave w fun x => { x with sch.raced := x.sch.raced ++ ks.map fun k => (by_, k) }

/-- The detector at a wave's instruction: trap 0x13 in trap mode, one record per sector in log mode (spec/04 R176, R177). A
twin copy is no access for other agents, and the detector does not see it. -/
def raceCheck (s : State) (w : Nat) (a : Access) (l : List (Nat × Nat × Nat)) : Eff State :=
  let mode := (s.waveLaunch w).r.race
  if mode == 0 || (s.waveGroup w).copy == .twin then .ok (if a.rel then s.releaseInterval w else s)
  else
    let cs := s.conflicts w a l
    match cs with
    | [] => .ok (s.recordAccesses w a l)
    | c :: _ =>
      if mode == 1 then
        raise 0x13#6 (BitVec.ofNat 64 c.2.1) (some (maskOf (s.wave w).id.width fun i => cs.any fun q => q.1 == i))
      else .ok ((s.logConflicts w a { pos := (s.wave w).pos } cs).recordAccesses w a l)

/-- The detector at a step of a command of an instruction: its ranges are accesses of the issuing wave, of no lane, for which the log
has lane 0. A race is logged in log mode; in trap mode no instruction is left to trap at, and the access is recorded only (DESIGN
CHOICE: spec/04 R176, R177; log entry 20). -/
def State.raceEngine (s : State) (w : Nat) (a : Access) (by_ : Origin) (l : List (Nat × Nat)) : State :=
  let mode := (s.waveLaunch w).r.race
  let l := l.map fun q => (0, q.1, q.2)
  if mode == 0 || (s.waveGroup w).copy == .twin then s
  else (if mode == 2 then s.logConflicts w a by_ (s.conflicts w a l) else s).recordAccesses w a l

end Sys2Proof.Machine
end

