-- ==== Sys2Proof/Machine/Barriers.lean ====
section
/-! DEFINITION. The operation of an atomic on one location, and barriers: participants and the completion of a phase with its
ordered atomics (spec/02 R78; spec/04 R140, R147, R148, R152, R175). -/

namespace Sys2Proof.Machine

/-! Elements of a lane under a tag (spec/03 R94) -/

/-- Elements per lane and their width. -/
def tagElems : Tag → Nat
  | .bf16x2 | .f16x2 | .i16x2 => 2
  | .e4m3x4 | .e5m2x4 | .mk8x4 | .i8x4 => 4
  | .e2m3x5 | .e3m2x5 => 5
  | .e2m1x8 => 8
  | _ => 1

def tagWidth : Tag → Nat
  | .bf16x2 | .f16x2 | .i16x2 => 16
  | .e4m3x4 | .e5m2x4 | .mk8x4 | .i8x4 => 8
  | .e2m3x5 | .e3m2x5 => 6
  | .e2m1x8 => 4
  | _ => 32

/-- The float format of a tag's elements. -/
def tagFmt : Tag → Option Fmt
  | .f32 => some .fp32
  | .bf16x2 => some .bf16
  | .f16x2 => some .fp16
  | .e4m3x4 => some .e4m3
  | .e5m2x4 => some .e5m2
  | .mk8x4 => some .mk8
  | .e2m3x5 => some .e2m3
  | .e3m2x5 => some .e3m2
  | .e2m1x8 => some .e2m1
  | _ => none

/-- Range of an integer tag's elements. -/
def tagRange : Tag → Option (Int × Int)
  | .i32 => some (-(2 ^ 31), 2 ^ 31 - 1)
  | .u32 => some (0, 2 ^ 32 - 1)
  | .i16x2 => some (-(2 ^ 15), 2 ^ 15 - 1)
  | .i8x4 => some (-(2 ^ 7), 2 ^ 7 - 1)
  | _ => none

/-- Element k of a lane. -/
def elemOf (t : Tag) (x : Lane) (k : Nat) : Nat := (x.toNat >>> (tagWidth t * k)) % 2 ^ tagWidth t

/-- The integer that an element's bits hold under an integer tag. -/
def elemInt (t : Tag) (x : Lane) (k : Nat) : Int :=
  if t == .u32 then (elemOf t x k : Int) else signedOf (tagWidth t) (elemOf t x k)

/-- A lane of elements 0 to n − 1 given in order. -/
def packElems (t : Tag) : List Nat → Nat
  | [] => 0
  | e :: es => e % 2 ^ tagWidth t + 2 ^ tagWidth t * packElems t es

/-- A lane made of its elements by index. -/
def laneOf (t : Tag) (f : Nat → Nat) : Lane := BitVec.ofNat 32 (packElems t ((List.range (tagElems t)).map f))

/-! Atomics -/

/-- Bytes per lane of a width (spec/04 R140). -/
def widthBytes : Width → Nat
  | .b | .sb => 1
  | .h | .sh => 2
  | .w | .uw => 4
  | .d | .ud => 8
  | .q => 16

/-- Registers per lane of a width. -/
def widthRegs : Width → Nat
  | .d | .ud => 2
  | .q => 4
  | _ => 1

/-- Sign-extended widths of loads. -/
def widthSigned : Width → Bool
  | .sb | .sh => true
  | _ => false

/-- Formats that `fadd` accepts (spec/04 R148). -/
def faddTag (t : Tag) : Bool := t == .f32 || t == .bf16x2 || t == .f16x2

/-- AMR's environment for `fadd`: mode 5 counts as mode 0 (spec/04 R148). -/
def faddEnv (amr : Word) : FEnv :=
  let e := FEnv.ofAmr amr
  if e.rm == 5 then { e with rm := 0 } else e

/-- The value that an atomic writes, from the old value and the operand, `b` bytes wide (spec/04 R147). -/
def atomValue (op : AtomOp) (wd : Width) (t : Tag) (amr : Word) (m v : Nat) : Nat :=
  let bits := 8 * widthBytes wd
  let uns := wd == .uw || wd == .ud
  let less := if uns then decide (m < v) else decide (signedOf bits m < signedOf bits v)
  match op with
  | .add => (m + v) % 2 ^ bits
  | .min => if less then m else v
  | .max => if less then v else m
  | .and => m &&& v
  | .or => m ||| v
  | .xor => m ^^^ v
  | .exch => v
  | .fadd => match tagFmt t with
    | some f =>
      let env := faddEnv amr
      let a := BitVec.ofNat 32 m
      let b := BitVec.ofNat 32 v
      (laneOf t fun i =>
        (f.add env (f.decode env.flushIn (elemOf t a i)) (f.decode env.flushIn (elemOf t b i))).1).toNat
    | none => m

/-- Values by lane, spread over the registers of a group: register `i` holds bits [32 i + 31 : 32 i]. -/
def regSlices (w regs : Nat) (f : Nat → Nat) : List (List Lane) :=
  let tab := (List.range w).map f
  (List.range regs).map fun i => tab.map fun x => BitVec.ofNat 32 (x >>> (32 * i))

/-- The metadata bits that a load of plain width keeps: all but POISON. -/
def keepButPoison : BitVec 32 := ~~~ (0x10000#32)

/-- Destinations of a group of registers, by lane values; a poisoned one has its POISON set. -/
def groupDests (r regs w : Nat) (m : Mask) (keep md : BitVec 32) (poison : Bool) (f : Nat → Nat) : List Dest :=
  ((regSlices w regs f).zipIdx).map fun q =>
    Dest.v (r + q.2) m q.1 (keep &&& keepButPoison) ((md &&& keepButPoison) ||| (if poison then 0x10000#32 else 0#32))

/-! What completes in both copies (spec/15 R448, R451) -/

/-- The wave that runs the same program in the other copy. -/
def State.otherCopy (s : State) (w : Nat) : Option Nat :=
  let g := s.waveGroup w
  match g.sibling with
  | none => none
  | some t => (s.group t).waves[(g.waves.idxOf w)]?

/-- The twin of a wave of a primary copy. -/
def State.twinOf (s : State) (w : Nat) : Option Nat :=
  if (s.waveGroup w).copy == .primary then s.otherCopy w else none

/-- An operation of a wave completes: the same operation of the other copy, if the primary alone performs it, receives the
same registers and event (spec/15 R451). -/
def State.completeOp (s : State) (w key : Nat) (shared : Bool) (ds : List Dest) : State :=
  let s := s.modWave w fun x => x.markReady key ds
  if shared then match s.twinOf w with
    | some t => s.modWave t fun x => x.markReady key ds
    | none => s
  else s

/-- An operation performed at a commit has completed: a rerun that starts at that commit finds it so (spec/15 R448, R449). -/
def State.settleSnapshot (s : State) (w key : Nat) (ds : List Dest) : State :=
  let g := (s.wave w).id.group
  let i := (s.group g).waves.idxOf w
  let put := fun (x : Group) =>
    { x with snap := x.snap.map fun n => { n with waves := modifyAt n.waves i fun y => y.markReady key ds } }
  let s := s.modGroup g put
  match (s.group g).sibling with
  | some t => s.modGroup t put
  | none => s

/-! Barriers -/

def State.barriersOf (s : State) (sc : Scope) (owner : Nat) : List Barrier :=
  if sc == .core then (s.group owner).barriers else (s.launch owner).barriers

/-- A barrier: before its first arrival it stands at phase 0 with nothing arrived. -/
def State.barrier (s : State) (sc : Scope) (owner unit : Nat) (id : BitVec 4) : Barrier :=
  ((s.barriersOf sc owner).find? fun b => b.sc == sc && b.unit == unit && b.id == id).getD
    { sc := sc, unit := unit, id := id, phase := 0, arrived := [], aods := [] }

def putBarrier (b : Barrier) (l : List Barrier) : List Barrier :=
  if l.any (fun c => c.sc == b.sc && c.unit == b.unit && c.id == b.id) then
    l.map fun c => if c.sc == b.sc && c.unit == b.unit && c.id == b.id then b else c
  else l ++ [b]

def State.setBarrier (s : State) (owner : Nat) (b : Barrier) : State :=
  if b.sc == .core then s.modGroup owner fun g => { g with barriers := putBarrier b g.barriers }
  else s.modLaunch owner fun l => { l with barriers := putBarrier b l.barriers }

/-- The groups of a launch that take part in a wider barrier: resident in the unit; a twin adds nothing. -/
def State.barrierGroups (s : State) (sc : Scope) (owner unit : Nat) : List Nat :=
  (List.range s.groups.length).filter fun g =>
    let x := s.group g
    x.launch == owner && !x.ended && x.copy != .twin && (s.core x.core).unitOf (s.launch owner).r.det sc == unit

/-- Waves that take part: those that have not ended. -/
def State.barrierWaves (s : State) (sc : Scope) (owner unit : Nat) : List Nat :=
  let gs := if sc == .core then [owner] else s.barrierGroups sc owner unit
  gs.flatMap fun g => (s.group g).waves.filter fun w => !(s.wave w).sch.ended

/-- A place of an ordered atomic waits in a recovery hold (spec/14 R431). -/
def State.aodHeld (s : State) (a : Aod) : Bool := a.addrs.any fun q => s.reach (s.waveDie a.wave) q.2 == .hold

/-- Every participant of the open phase has arrived (spec/02 R78), and no recovery hold keeps back an ordered atomic that the phase
applies first (spec/04 R152, spec/14 R431). -/
def State.phaseFull (s : State) (owner : Nat) (b : Barrier) : Bool :=
  !b.arrived.isEmpty && ((s.barrierWaves b.sc owner b.unit).all fun w => b.arrived.contains w) &&
    !(b.aods.any fun a => a.phase == b.phase && s.aodHeld a)

/-- The order in which a phase applies its ordered atomics (spec/04 R152). The logical wave index, which the spec defines nowhere, is
the wave slot (DESIGN CHOICE: log entry 56). -/
def State.aodBefore (s : State) (a b : Aod) : Bool :=
  let ka := (s.core (s.wave a.wave).id.core).logical
  let kb := (s.core (s.wave b.wave).id.core).logical
  let ia := (s.wave a.wave).id.slot
  let ib := (s.wave b.wave).id.slot
  decide (ka < kb) || (ka == kb && (decide (ia < ib) || (ia == ib && decide (a.key ≤ b.key))))

/-- The cores of a group and of its other copy. -/
def State.copyCores (s : State) (g : Nat) : List Nat := (s.group g).core :: (s.group g).sibling.toList.map fun t => (s.group t).core

/-- One lane of an ordered atomic at its home point: the old value. The L1 copies of its cores leave. Behind a link that has broken
since it was bound, zero, and the effect may or may not happen (spec/14 R432). A lost location reads as zero (spec/15 R456). -/
def State.applyAodLane (s : State) (a : Aod) (l pa v : Nat) : State × Nat :=
  let b := widthBytes a.width
  let broken := s.reach (s.waveDie a.wave) pa == .broken
  let m := if s.lostAt pa then 0 else s.mem.readLe pa b
  if broken && s.draw 60 l 2 == 0 then (s, 0)
  else
    ((s.copyCores (s.wave a.wave).id.group).foldl (fun s c => s.l1Drop c [pa / 32]) (s.putLe pa b (atomValue a.op a.width a.tag a.amr m v)),
      if broken then 0 else m)

/-- One ordered atomic is applied: lane by lane at the home points; its wave receives the old values. -/
def State.applyAod (s : State) (a : Aod) : State :=
  let r := (a.addrs.zip a.vals).foldl (fun (acc : State × List (Nat × Nat)) q =>
    let r := acc.1.applyAodLane a q.1.1 q.1.2 q.2.toNat
    (r.1, acc.2 ++ [(q.1.1, r.2)])) (s, [])
  let old := fun l => match r.2.find? fun q => q.1 == l with
    | some q => q.2
    | none => 0
  let W := (s.wave a.wave).id.width
  let poison := a.addrs.any fun q => s.reach (s.waveDie a.wave) q.2 == .broken || s.lostAt q.2
  let ds := groupDests a.dest (widthRegs a.width) W a.mask keepButPoison 0 poison old
  let s := r.1.settleSnapshot a.wave a.key ds
  let s := s.modGroup (s.wave a.wave).id.group fun g => { g with snap := g.snap.map fun n =>
    { n with barriers := n.barriers.map fun b => { b with aods := b.aods.filter fun x => x.wave != a.wave || x.key != a.key } } }
  s.completeOp a.wave a.key true ds

/-- The scope units that took part in a phase: at each scope up to the barrier's own, the units of its groups. -/
def State.phaseUnits (s : State) (owner : Nat) (b : Barrier) : List (Scope × Nat) :=
  let l := if b.sc == .core then (s.group owner).launch else owner
  let gs := if b.sc == .core then [owner] else s.barrierGroups b.sc owner b.unit
  (([Scope.core, .quad, .die, .pkg, .pod].filter fun sc => decide (scopeRank sc ≤ scopeRank b.sc)).flatMap fun sc =>
    gs.map fun g => (sc, (s.core (s.group g).core).unitOf (s.launch l).r.det sc)).eraseDups

/-- An epoch counts one more completed phase. -/
def bumpEpoch (l : List (Scope × Nat × BitVec 16)) (u : Scope × Nat) : List (Scope × Nat × BitVec 16) :=
  if l.any (fun e => e.1 == u.1 && e.2.1 == u.2) then
    l.map fun e => if e.1 == u.1 && e.2.1 == u.2 then (e.1, e.2.1, e.2.2 + 1) else e
  else l ++ [(u.1, u.2, 1)]

/-- The open phase completes: its ordered atomics are applied, then the next phase opens (spec/02 R78, spec/04 R152). A twin's own
barrier counts in no epoch (spec/15 R443). -/
def State.completePhase (s : State) (owner : Nat) (b : Barrier) : State :=
  let mine := sortBy s.aodBefore (b.aods.filter fun a => a.phase == b.phase)
  let units := s.phaseUnits owner b
  let l := if b.sc == .core then (s.group owner).launch else owner
  let s := mine.foldl State.applyAod s
  let s := s.setBarrier owner
    { b with phase := b.phase + 1, arrived := [], aods := b.aods.filter fun a => a.phase != b.phase }
  if b.sc == .core && (s.group owner).copy == .twin then s
  else s.modLaunch l fun x => { x with epochs := units.foldl bumpEpoch x.epochs }

/-- Complete the phase if every participant has arrived. -/
def State.settle (s : State) (sc : Scope) (owner unit : Nat) (id : BitVec 4) : State :=
  let b := s.barrier sc owner unit id
  if s.phaseFull owner b then s.completePhase owner b else s

/-- The participants of the barriers of a group and of its launch have changed: every phase at which all that remain have arrived
completes (spec/02 R78). -/
def State.settlePhases (s : State) (g : Nat) : State :=
  let l := (s.group g).launch
  let s := (s.group g).barriers.foldl (fun s b => s.settle b.sc g b.unit b.id) s
  (s.launch l).barriers.foldl (fun s b => s.settle b.sc l b.unit b.id) s

/-- A wave's pending arrival: the phase joined (spec/02 R79). -/
def Wave.pendingArrival (x : Wave) (sc : Scope) (id : BitVec 4) : Option Nat :=
  (x.sch.arrivals.find? fun a => a.1 == sc && a.2.1 == id).map fun a => a.2.2

/-- Owner and unit of a barrier as a wave names it. -/
def State.barrierPlace (s : State) (w : Nat) (sc : Scope) : Nat × Nat :=
  let x := s.wave w
  if sc == .core then (x.id.group, 0)
  else (x.id.launch, (s.core x.id.core).unitOf (s.waveLaunch w).r.det sc)

/-- The phase of the wave's arrival has completed. -/
def State.phasePast (s : State) (w : Nat) (sc : Scope) (id : BitVec 4) (phase : Nat) : Bool :=
  let (owner, unit) := s.barrierPlace w sc
  decide (phase < (s.barrier sc owner unit id).phase)

end Sys2Proof.Machine
end

