-- ==== Sys2Proof/Machine/Ops.lean ====
section
/-! DEFINITION. The operations that every meaning shares: early reads, the choice of the wave that issues, events and stamps, stores
on their way, second errors, aborts and reruns, the end of a wave and of a group, TAKING A TRAP, and the wrapper that issues an
instruction (spec/01 R18 to R23, spec/02 R49 to R57, R81, spec/05 R217, spec/11 R346 to R354, spec/12 R380, R393). -/

namespace Sys2Proof.Machine

/-! Counted operations (spec/01 R18 to R23) -/

/-- An operation stalls at issue while its counter stands at 62 (R20). -/
def roomFor (s : State) (w : Nat) (c : Cls) : Eff Unit :=
  if (s.wave w).outstanding c < 62 then .ok () else .error (.stall (.counter c) s)

/-! Early reads of a counted destination (spec/01 R21): a lane obtains the value stored or one that an outstanding operation
brings, whichever `Config.choice` says (log entry 7). -/

/-- A choice between the stored value and pending ones. -/
def pickOf {α : Type} (s : State) (site k : Nat) (old : α) (news : List α) : α :=
  match news with
  | [] => old
  | _ => (old :: news).getD (s.draw site k (news.length + 1)) old

/-- Pending writes of the outstanding operations that have produced their values. -/
def Wave.pendingDests (x : Wave) : List Dest := (x.mem.outst.filter fun p => p.ready).flatMap fun p => p.dests

def pendS (hb : Bool) (n : Nat) : List Dest → List Word
  | [] => []
  | .s r b v :: t => if r = n ∧ b = hb then v :: pendS hb n t else pendS hb n t
  | _ :: t => pendS hb n t

def pendV (r l : Nat) : List Dest → List Lane
  | [] => []
  | .v r' m vals _ _ :: t => if r' = r ∧ m.getLsbD l then vals.getD l 0 :: pendV r l t else pendV r l t
  | _ :: t => pendV r l t

def pendMd (r : Nat) (old : BitVec 32) : List Dest → List (BitVec 32)
  | [] => []
  | .v r' _ _ keep val :: t => if r' = r then ((old &&& keep) ||| val) :: pendMd r old t else pendMd r old t
  | _ :: t => pendMd r old t

def pendP (p : BitVec 3) (l : Nat) : List Dest → List Bool
  | [] => []
  | .p p' m bits :: t => if p' = p ∧ m.getLsbD l then bits.getLsbD l :: pendP p l t else pendP p l t
  | _ :: t => pendP p l t

/-- A scalar register as an instruction reads it at operand place `site`. -/
def readS (s : State) (w site n : Nat) : Word :=
  let x := s.wave w
  if x.idle then x.sreg n
  else pickOf s (100 + site) n (x.sreg n) (pendS (x.tr.hm && decide (56 ≤ n)) n x.pendingDests)

/-- A vector register as an instruction reads it. -/
def readV (s : State) (w site r : Nat) : VReg :=
  let x := s.wave w
  let old := x.vreg r
  if x.idle then old
  else
    let ds := x.pendingDests
    { lanes := (List.range old.lanes.length).map fun l => pickOf s (200 + 8 * site) l (old.lanes.getD l 0) (pendV r l ds),
      md := pickOf s (201 + 8 * site) r old.md (pendMd r old.md ds) }

/-- A predicate as an instruction reads it. -/
def readP (s : State) (w site : Nat) (p : BitVec 3) : Mask :=
  let x := s.wave w
  if x.idle || p == 7#3 then x.pred p
  else
    let ds := x.pendingDests
    maskOf x.id.width fun l => pickOf s (300 + site) l ((x.pred p).getLsbD l) (pendP p l ds)

/-- Lanes of the current path where both guards hold (spec/02 R38). -/
def activeMask (s : State) (w : Nat) (g : Guards) : Mask :=
  (s.wave w).exec &&& guardBits g.ga (readP s w 0 g.ga.p) &&& guardBits g.gb (readP s w 1 g.gb.p)

/-! Error records (spec/11 R364) -/

/-- An error record reaches the controller: the last 1024 of a partition are kept, and the cause bit of vector 3 is set
(spec/16 R464, R465). -/
def State.addError (s : State) (p : Nat) (kind code gid : Nat) (tcla tinf tword taddr : Word) : State :=
  let r := leBytes 1 kind ++ leBytes 1 code ++ leBytes 2 0 ++ leBytes 4 gid ++ leBytes 8 tcla.toNat ++ leBytes 8 tinf.toNat ++
    leBytes 8 tword.toNat ++ leBytes 8 taddr.toNat ++ leBytes 8 s.ctl.osc ++ leBytes 16 0
  (s.modPart p fun x => { x with errs := (x.errs ++ [r]).drop ((x.errs.length + 1) - 1024) }).raiseVector 3

/-! Which wave issues -/

/-- A wave that can issue: resident, not halted, parked or ended. -/
def Wave.resident (x : Wave) : Bool := !x.sch.ended && !x.sch.halted && !x.sch.parked

/-- The waves of a core. -/
def State.wavesOf (s : State) (c : Nat) : List Nat :=
  (List.range s.waves.length).filter fun w => (s.wave w).id.core == c && (s.wave w).resident

/-- Deterministic launches on a core (spec/12 R376). -/
def State.coreDet (s : State) (c : Nat) : Bool := (s.wavesOf c).any fun w => (s.waveLaunch w).r.det

/-- The handler a wave runs is one whose stalls are no switch points (spec/11 R347). -/
def Wave.quietHandler (x : Wave) : Bool :=
  x.tr.hm && (x.tr.cause.extractLsb' 0 6 == 0x0E#6 || x.tr.cause.extractLsb' 0 6 == 0x15#6 ||
    decide (0x20#6 ≤ x.tr.cause.extractLsb' 0 6))

/-- The choice among ready waves in normal mode (spec/12 R380). -/
def State.chooseNormal (s : State) (c : Nat) : Option Nat :=
  let ready := (s.wavesOf c).filter fun w => (s.wave w).sch.stall.isNone
  let slots := (s.core c).slots
  let aged := ready.filter fun w => decide (4096 ≤ slots - (s.wave w).sch.readyAt)
  let earlier := fun (a b : Nat) =>
    let x := (s.wave a).sch.readyAt; let y := (s.wave b).sch.readyAt
    decide (x < y) || (x == y && decide ((s.wave a).id.slot < (s.wave b).id.slot))
  match leastBy earlier aged with
  | some w => some w
  | none => leastBy (fun a b =>
      let x := (s.waveLaunch a).r.prio; let y := (s.waveLaunch b).r.prio
      decide (y < x) || (x == y && earlier a b)) ready


/-- What a wave waits for that switches away at a stall (spec/12 R394). -/
def Wave.waitFor (x : Wave) : Why → WaitFor
  | .barrier sc id => .barrier sc id ((x.pendingArrival sc id).getD 0)
  | .ring => match x.sch.need with
    | some (r, push, k) => .ring r push k
    | none => .other
  | .commit => .commit
  | _ => .other

/-- A wave stalls at a core-scope barrier whose phase has completed: it has only to go on (spec/02 R79). -/
def State.barrierPast (s : State) (w : Nat) : Bool :=
  match (s.wave w).sch.stall with
  | some (.barrier sc id) => sc == .core && ((s.wave w).pendingArrival sc id).all (s.phasePast w sc id)
  | _ => false

/-- A wave stands at a commit point, or waits only until it is drained there (spec/15 R446). -/
def State.atCommit (s : State) (w : Nat) : Bool :=
  (s.wave w).sch.ended || match (s.wave w).sch.stall with
    | some .commit => true
    | some (.barrier sc _) => sc == .core && !s.barrierPast w
    | _ => false

/-- A local wait that is satisfied, judged on synchronisation state: a completed core-scope phase, a ring that no engine
command has named, or the commit of a group that is not checked, at which every wave of it stands (spec/12 R394). -/
def State.waitOver (s : State) (w : Nat) : WaitFor → Bool
  | .barrier sc id phase => sc == .core && s.phasePast w sc id phase
  | .ring ri push k =>
    let r := (s.waveGroup w).ring ri
    !r.engine && (if push then decide (k ≤ r.room) || r.eos.isSome || r.dropping else (r.popNow k).isSome)
  | .commit => (s.waveGroup w).copy == .single && (s.waveGroup w).waves.all s.atCommit
  | .other => false

/-- A wave that rotation may choose: it does not wait, its local wait is satisfied, or it runs the handler of a code at which
nothing switches (spec/12 R394, spec/11 R347). -/
def State.isEligible (s : State) (w : Nat) : Bool :=
  (s.wave w).quietHandler || match (s.wave w).sch.waiting with
    | none => true
    | some f => s.waitOver w f

/-- The order of rotation after WAVEID `k`: ascending, wrapping around (spec/12 R393). -/
def State.rotation (s : State) (c : Nat) (k : Nat) : List Nat :=
  let ws := sortBy (fun a b => decide ((s.wave a).id.waveid.toNat ≤ (s.wave b).id.waveid.toNat)) (s.wavesOf c)
  (ws.filter fun w => decide (k < (s.wave w).id.waveid.toNat)) ++ (ws.filter fun w => decide ((s.wave w).id.waveid.toNat ≤ k))

/-- The next wave at a switch point of deterministic mode: the first eligible one, else the first waiting one
(spec/12 R393, R394). -/
def State.chooseDet (s : State) (c k : Nat) : Option Nat :=
  let r := s.rotation c k
  (r.find? s.isEligible).or r.head?

/-- The core's turn passes. In normal mode the core chooses at once (spec/12 R380). In deterministic mode it has no running
wave until the groups that now fit it have been admitted; rotation goes on from the wave whose turn ends (spec/12 R393). -/
def State.switch (s : State) (c : Nat) : State :=
  if s.coreDet c then
    let base := match (s.core c).running with
      | some w => some (s.wave w).id.waveid.toNat
      | none => (s.core c).last
    s.modCore c fun x => { x with running := none, last := base }
  else
    let n := match s.chooseNormal c, (s.core c).running with
      | some w, _ => some w
      | none, some w => if (s.wavesOf c).contains w then some w else (s.wavesOf c).head?
      | none, none => (s.wavesOf c).head?
    s.modCore c fun x => { x with running := n }

/-- Stalls that are switch points in deterministic mode (spec/12 R393). -/
def Why.switches : Why → Bool
  | .barrier .. | .monitor | .ring | .queue | .commit => true
  | _ => false

/-- Stalls during which other waves of the core issue in normal mode: those that R53 lists, a clause that has not begun, a twin at
one of them, and a parked wave. -/
def Why.opens : Why → Bool
  | .clause | .waitOp | .counter _ | .barrier .. | .monitor | .ring | .queue | .grow | .member | .reply | .commit | .park | .busy => true
  | .twin listed => listed
  | .ending | .settle | .drain | .hold | .fault | .prmt => false

/-- Stalls during which the watchdog counts (spec/11 R352): those at an instruction that R53 lists, a twin at one of them, and the
end of a wave, where the spec has the watchdog apply (spec/04 R152). -/
def Why.watched : Why → Bool
  | .waitOp | .counter _ | .barrier .. | .monitor | .ring | .queue | .grow | .member | .reply | .commit | .ending | .drain | .busy => true
  | .twin listed => listed
  | .clause | .settle | .hold | .fault | .prmt | .park => false

/-- The instruction that a wave has come to is one at whose stall other waves may issue, and whose result a primary forwards: a
monitor wait, `halloc.t` or a barrier (spec/02 R53, spec/15 R451). -/
def Wave.atListed (x : Wave) : Bool :=
  match decodeWord x.word with
  | .ok (.mwait ..) | .ok (.bar ..) | .ok (.barw ..) => true
  | .ok (.halloc _ t ..) => t
  | _ => false

/-- A wave stalls (spec/02 R53): in normal mode the core chooses anew at a stall that lets other waves issue; in deterministic mode
at switch points only, where the count of backward branches returns to zero; a wave that waits and tries again is at no new switch
point (spec/12 R393, R394, R395). -/
def State.stallWave (s : State) (w : Nat) (why : Why) : State :=
  let x := s.wave w
  let det := (s.waveLaunch w).r.det
  let point := why.switches && !x.quietHandler && x.sch.waiting.isNone
  let turn := if det then point else why.opens
  let s := s.modWave w fun x =>
    { x with sch.stall := some why, sch.waiting := if det && point then some (x.waitFor why) else x.sch.waiting,
             sch.backward := if turn && why.switches then 0 else x.sch.backward }
  if turn && (s.core x.id.core).running == some w then s.switch x.id.core else s

/-- A stall ends: the wave becomes ready (spec/12 R380). -/
def State.unstall (s : State) (w : Nat) : State :=
  let slots := (s.core (s.wave w).id.core).slots
  s.modWave w fun x => { x with sch.stall := none, sch.readyAt := slots }

/-- A change of a wave's current path takes one issue slot of its core (spec/05 R186). -/
def State.pathSlot (s : State) (w : Nat) : State := s.modCore (s.wave w).id.core fun k => { k with slots := k.slots + 1 }

/-! Engine events and stamps (spec/06 R233, R235) -/

/-- An event enters a wave's Q12, or is discarded with OVF when the queue is full. -/
def Wave.post (x : Wave) (status source : BitVec 8) (num : BitVec 32) : Wave :=
  if x.evq.length < 16 then
    let e : Word := BitVec.ofBool x.ovf ++ 0#7 ++ status ++ source ++ 0#8 ++ num
    { x with evq := x.evq ++ [e], ovf := false }
  else { x with ovf := true }

def State.postEvent (s : State) (w : Nat) (status source : BitVec 8) (num : BitVec 32) : State :=
  if status == 0 then s else s.modWave w fun x => if x.sch.ended || x.sch.halted then x else x.post status source num

/-- Staging sectors that a group's interval uses (spec/15 R444). -/
def Group.stagedSectors (g : Group) : List Nat := (g.staging.map fun c => c.1 / 32).eraseDups

/-- A staged copy has room for bytes at physical addresses: 8192 sectors (spec/15 R444, R453). -/
def State.stagingRoom (s : State) (g : Nat) (pas : List Nat) : Bool :=
  let have_ := (s.group g).stagedSectors
  let new := ((pas.map (· / 32)).eraseDups).filter fun x => !have_.contains x
  decide (have_.length + new.length ≤ 8192)


/-- An access that a copy makes for both has acquired at a scope (spec/04 R163, spec/15 R451). -/
def State.acquiredBy (s : State) (g : Nat) (o : Order) (sc : Scope) : State :=
  if Order.acquires o && Scope.wide sc then (s.copyCores g).foldl State.l1Clear s else s

/-- A command with the release flag is complete: its wave's wait will acquire at its scope, in both copies (spec/04 R165). -/
def State.releaseDone (s : State) (g : Nat) (o : Order) (sc : Scope) : State :=
  if Order.releases o && Scope.wide sc then (s.copyCores g).foldl State.l1Clear s else s

/-! L1 (spec/04 R135, R138, R150) -/

/-- A memory byte as a core reads it: a result of an atomic on its way, an L1 copy, the home point. -/
def State.coreByte (s : State) (c pa : Nat) : Byte :=
  match (s.core c).out.reverse.findSome? fun e => overlayRead e.2.bytes.reverse pa with
  | some b => b
  | none => match (s.core c).l1.find? fun q => q.1 == pa / 32 with
    | some q => q.2.getD (pa % 32) 0
    | none => s.homeByte pa

/-! Stores to code (spec/02 R46) -/

/-- The physical ranges of a launch's code object, in pieces that no page boundary divides: start and length. -/
def State.codeRanges (s : State) (l : Launch) : List (Nat × Nat) :=
  let a := l.r.code.toNat
  (List.range ((a % 0x10000 + l.codeSize + 0xFFFF) / 0x10000)).filterMap fun i =>
    let va := max a (a / 0x10000 * 0x10000 + 0x10000 * i)
    match s.walk l.part l.r.ctx va with
    | .leaf _ level e => some (e.addr + va % pageSize level e.sz, min (a + l.codeSize) (va / 0x10000 * 0x10000 + 0x10000) - va)
    | _ => none

/-- Running launches whose code object a program's write reaches, by whatever address, are marked. -/
def State.touchCode (s : State) (bs : List Nat) : State :=
  let hit := fun (l : Launch) => !l.complete && !l.codeTouched &&
    (s.codeRanges l).any fun r => bs.any fun a => decide (r.1 ≤ a) && decide (a < r.1 + r.2)
  if s.launches.any hit then { s with launches := s.launches.map fun l => if hit l then { l with codeTouched := true } else l } else s

/-- Scratchpad sectors of a group that a write covers whole are lost no more. -/
def Group.spWrite (g : Group) (bs : List (Nat × Byte)) : Group :=
  { g with sp := g.sp.writeAll bs,
           spLost := if g.spLost.isEmpty then [] else let c := coveredSectors bs; g.spLost.filter fun x => !c.contains x }

/-- One write enters a copy's staging (spec/15 R444). -/
def Group.stage (g : Group) (bs : List (Nat × Byte)) : Group :=
  { g with staging := bs.foldl (fun o c => overlayWrite o c.1 c.2) g.staging,
           stagedWhole := (g.stagedWhole ++ coveredSectors bs).eraseDups }

/-- One write of an engine of group `g`, its scratchpad bytes and its bytes of memory: through staging unless `direct`
(spec/06 R237); a direct write to scratchpad reaches both copies (spec/14 R442), and what the copies' cores held in L1 of the memory
that is written leaves (spec/04 R165). -/
def State.engineWriteAll (s : State) (g : Nat) (direct : Bool) (spb mb : List (Nat × Byte)) : State :=
  let s := if spb.isEmpty then s
    else
      let s := s.modGroup g fun x => x.spWrite spb
      match (if direct then (s.group g).sibling else none) with
      | some t => s.modGroup t fun x => x.spWrite spb
      | none => s
  if mb.isEmpty then s
  else
    let s := s.touchCode (mb.map fun c => c.1)
    if s.staged g && !direct then s.modGroup g fun x => x.stage mb
    else
      let ks := (mb.map fun c => c.1 / 32).eraseDups
      (s.copyCores g).foldl (fun s c => s.l1Drop c ks) (s.writeMem mb)

/-- Write bytes at one place for an engine of group `g`. -/
def State.engineWrite (s : State) (g : Nat) (direct : Bool) (l : Loc) (bs : List Byte) : State :=
  match l with
  | .sp off => s.engineWriteAll g direct (placed off bs) []
  | .mem pa => s.engineWriteAll g direct [] (placed pa bs)

/-- A sequence stamp is written (spec/06 R233): the state, and the bytes written, or the status that stops the write: 0x01 for a
fault and where staging has no room (spec/15 R453), 0x03 behind a broken link (spec/14 R432), 0x04 where the old value is lost
(spec/15 R456). A direct one reads and writes the home point, whatever the group has staged (spec/06 R237). -/
def State.putStamp (s : State) (g d p c : Nat) (direct : Bool) (va : Word) (status : BitVec 8) :
    State × Except (BitVec 8) (List Byte) :=
  match s.resolve g d p c va.toNat 8 .store with
  | none => (s, .error 1)
  | some (s', l) =>
    let reach : Reach := match l with
      | .mem pa => s'.reach d pa
      | .sp _ => .ok
    let full := match l with
      | .mem pa => s'.staged g && !direct && !s'.stagingRoom g ((List.range 8).map (pa + ·))
      | .sp _ => false
    let seen := s'.homeward g direct
    if full then (s, .error 1)
    else if reach == .broken then (s, .error 3)
    else if seen.engineLost g l 8 then (s, .error 4)
    else
      let old := leValue (seen.engineRead g l 8)
      let bs := leBytes 8 (status.toNat * 2 ^ 48 + (old % 2 ^ 48 + 1) % 2 ^ 48)
      (s'.engineWrite g direct l bs, .ok bs)

/-- A sequence stamp is written where it can be. -/
def State.writeStamp (s : State) (g d p c : Nat) (direct : Bool) (va : Word) (status : BitVec 8) : State :=
  (s.putStamp g d p c direct va status).1

/-- The stamp of a command of wave `w` is written; the race detector sees one atomic, with KIND 3 where the command has the release
flag (spec/04 R176, spec/06 R233). -/
def State.stampFor (s : State) (g d p c : Nat) (direct : Bool) (w : Nat) (o : Order) (sc : Scope) (by_ : Origin) (va : Word)
    (status : BitVec 8) : State × Except (BitVec 8) (List Byte) :=
  match s.putStamp g d p c direct va status with
  | (s', .ok bs) =>
    (s'.raceEngine w { kind := .stamp, acq := false, rel := Order.releases o, sc := sc } by_ [(va.toNat, 8)], .ok bs)
  | r => r

/-- The write of a stamp waits in a recovery hold (spec/14 R431). -/
def State.stampWaits (s : State) (g d p c : Nat) (va : Word) : Bool :=
  s.placeHeld d p c va.toNat || match s.resolve g d p c va.toNat 8 .store with
  | some (s', .mem pa) => s'.reach d pa == .hold
  | _ => false

/-- The context of a group's launch. -/
def State.groupCtx (s : State) (g : Nat) : Nat × Nat × Nat :=
  (s.dieOfCore (s.group g).core, (s.launch (s.group g).launch).part, (s.launch (s.group g).launch).r.ctx)

/-! Stream commands and collective instances (spec/06 R227, spec/14 R435, R441) -/

/-- The commands of stream engine `se` of a core, oldest first. -/
def Core.queue (c : Core) (se : Bool) : List SCmd := c.se.getD se.toNat []

/-- What a stream engine's last eight commands were (log entry 40). -/
def State.noteSent (s : State) (c : Nat) (se coll : Bool) : State :=
  s.modCore c fun k => { k with sent := modifyAt k.sent se.toNat fun l => (coll :: l).take 8 }

def State.modQueue (s : State) (c : Nat) (se : Bool) (f : List SCmd → List SCmd) : State :=
  s.modCore c fun k => { k with se := modifyAt k.se se.toNat f }

/-- The same command. -/
def SCmd.same (x y : SCmd) : Bool := x.wave == y.wave && x.key == y.key

/-- Launches whose commands form instances together (spec/14 R435). -/
def State.sameJob (s : State) (a b : Nat) : Bool :=
  a == b || ((s.launch a).r.wide == 2 && (s.launch b).r.wide == 2 && (s.launch a).r.gtag == (s.launch b).r.gtag)

/-- A held command of an instance, with its core and engine. -/
structure Member where
  core : Nat
  se : Bool
  cmd : SCmd
  rec_ : CollRec

/-- The held commands of instance `k` of a CID. -/
def State.members (s : State) (l : Nat) (cid : BitVec 32) (k : Nat) : List Member :=
  (List.range s.cores.length).flatMap fun c => [false, true].flatMap fun se =>
    ((s.core c).queue se).filterMap fun x => match x.coll with
      | some r => if r.cid == cid && r.k == k && s.sameJob l (s.group x.group).launch then some { core := c, se := se, cmd := x, rec_ := r }
                  else none
      | none => none

/-- Change every held command of a list. -/
def State.modMembers (s : State) (ms : List Member) (f : SCmd → SCmd) : State :=
  ms.foldl (fun s m => s.modQueue m.core m.se fun q => q.map fun y => if SCmd.same y m.cmd then f y else y) s

/-- The launch, CID and number that name a command's instance. -/
def State.instOf (s : State) (x : SCmd) (r : CollRec) : CollInst → Bool := fun i =>
  i.cid == r.cid && i.k == r.k && s.sameJob i.launch (s.group x.group).launch

/-- Every held command of instance `k` of a CID stops with a status (spec/14 R441). -/
def State.stopMembers (s : State) (l : Nat) (cid : BitVec 32) (k : Nat) (st : BitVec 8) : State :=
  let s' := s.modMembers (s.members l cid k) fun y => { y with cancel := some st }
  { s' with insts := s'.insts.filter fun i => !(i.cid == cid && i.k == k && s.sameJob i.launch l) }

/-- A command of an instance stops: every other command of it stops with the same status (spec/14 R441). -/
def State.stopInstance (s : State) (x : SCmd) (r : CollRec) (st : BitVec 8) : State :=
  s.stopMembers (s.group x.group).launch r.cid r.k st

/-- The instances of which a group has issued a command stop with status 0x05 when it is aborted, unless every source was read:
one that runs, and one that has not started, whose later commands stop too (spec/14 R441). -/
def State.abandonInstances (s : State) (g : Nat) : State :=
  let s := (s.insts.filter fun i => i.groups.contains g).foldl (fun s i => s.stopMembers i.launch i.cid i.k 5) s
  let cmds := s.cores.flatMap fun k => k.se.flatMap fun q => q.filter fun x => x.group == g && x.stage == .waiting
  let l := (s.group g).launch
  cmds.foldl (fun s x => match x.coll with
    | some r => { s.stopMembers l r.cid r.k 5 with collGone := s.collGone ++ [(l, r.cid, r.k)] }
    | none => s) s

/-- An instance that an abort has stopped before it started. -/
def State.collStopped (s : State) (l : Nat) (r : CollRec) : Bool :=
  s.collGone.any fun q => s.sameJob l q.1 && q.2.1 == r.cid && q.2.2 == r.k

/-! Aborts and reruns (spec/11 R353, spec/15 R452, R454) -/

/-- BUSY of a ciphertext header is cleared for a rescale, in memory or in the staging of the copies (spec/10 R338): a write that faults
is dropped. -/
def State.clearBusy (s : State) (x : NCmd) (direct : Bool) (h : Word) : State :=
  let g := x.group
  let (d, p, c) := s.groupCtx g
  match s.resolve g d p c (h + 7).toNat 1 .store with
  | none => s
  | some (s, l) =>
    let b := leBytes 1 (leValue ((s.homeward g direct).engineRead g l 1) % 128)
    let s := s.raceEngine x.wave { kind := .engineWrite, acq := false, rel := false, sc := x.sc } x.origin [((h + 7).toNat, 1)]
    let s := s.engineWrite g direct l b
    match (if direct then none else (s.group g).sibling) with
    | some t => s.engineWrite t direct l b
    | none => s

/-- The rescales of a group stop (spec/10 R330, R338). -/
def State.abandonRescales (s : State) (g : Nat) : State :=
  (s.quads.flatMap fun q => q.slots.filter fun x => x.group == g).foldl (fun s x => match x.op with
    | .rescale h .. => s.clearBusy x true h
    | _ => s) s

/-- Take every engine command of a group away; with `stamps`, each held stream command writes its stamp with status 0x05
directly (spec/06 R237, spec/09 R315, spec/10 R330). A command that a commit performed outlasts a rerun (spec/14 R442). -/
def State.dropCommands (s : State) (g : Nat) (stamps : Bool) : State :=
  let (d, p, c) := s.groupCtx g
  let cmds := s.cores.flatMap fun k => k.se.flatMap fun q => q.filter fun x => x.group == g
  let s := if stamps then (s.abandonInstances g).abandonRescales g else s
  let s := if stamps then cmds.foldl (fun s x => match x.stamp with
      | some a => (s.stampFor g d p c true x.wave x.o x.sc x.origin a 5).1
      | none => s) s
    else s
  { s with
    cores := s.cores.map fun k =>
      { k with se := k.se.map fun q => q.filter fun x => x.group != g || (x.direct && !stamps),
               lmuls := k.lmuls.filter fun x => x.group != g,
               mx := if k.mx.owner == some g then
                       { k.mx with streams := k.mx.streams.map fun t => { t with q := [] }, handlerQ := [], fences := [] }
                     else k.mx },
    quads := s.quads.map fun q => { q with slots := q.slots.filter fun x => x.group != g || (x.direct && !stamps) },
    dies := s.dies.map fun x => { x with heapQ := x.heapQ.filter fun h => h.group != g },
    parts := s.parts.map fun x => { x with tierQ := x.tierQ.filter fun h => h.group != g } }

/-- Blocks allocated in the interval are freed in reverse log order; deferred frees are dropped (spec/08 R290). -/
def State.undoHeap (s : State) (g : Nat) : State :=
  let (_, p, c) := s.groupCtx g
  let s := (s.group g).heapLog.foldr (fun e s => match e with
    | .alloc a => s.modCtx p c fun x => match x.arena with
      | none => x
      | some r => match r.live.find? fun b => b.2 == a with
        | none => x
        | some b => { x with arena := some { r with live := r.live.erase b, free := blockFree 64 r.base 18 19 b.1 b.2 r.free } }
    | .free _ => s) s
  s.modGroup g fun x => { x with heapLog := [] }

/-- The rescales of a group that began at its restart point stand in their units again, at their first step: their writes lay in
the discarded staging (spec/01 R28, spec/10 R338). -/
def State.redoRescales (s : State) (g : Nat) (l : List (Nat × NCmd)) : State :=
  { s with quads := (s.quads.zipIdx).map fun q =>
      { q.1 with slots := q.1.slots.filter (fun x => x.group != g) ++ (l.filter fun r => r.1 == q.2).map fun r => r.2 } }

/-- The save slot of a wave's group (spec/11 R356). -/
def State.saveSlot (s : State) (w : Nat) : Word :=
  let x := s.wave w
  let c := s.waveCtx w
  let low := ((s.waveGroup w).waves.map fun v => (s.wave v).id.slot).foldl min x.id.slot
  c.savea + BitVec.ofNat 64 (c.slotsz.toNat * (32 * (s.core x.id.core).logical + low))

/-- The wave runs a save handler: the entry for 0x20 with PHASE = 0. -/
def Wave.saving (x : Wave) : Bool := x.tr.hm && x.tr.cause.extractLsb' 0 6 == 0x20#6 && !x.tr.cause.getLsbD 13

/-- Events that a wave has not taken outlast a rerun (spec/11 R354). -/
def TrapState.keepEvents (old : TrapState) (new : TrapState) : TrapState := { new with pend20 := old.pend20, pend22 := old.pend22 }

/-- A group that runs again while its partition is being pre-empted takes the save event anew (spec/11 R355, R356). -/
def State.renewSave (s : State) (g : Nat) : State :=
  if (s.part (s.launch (s.group g).launch).part).run == .running then s
  else (s.group g).waves.foldl (fun s w =>
    let slot := s.saveSlot w
    s.modWave w fun x => if x.sch.ended || x.saving then x else { x with tr.pend20 := some (false, slot) }) s

/-- A copy has its core alone. -/
def State.aloneOnCore (s : State) (g : Nat) : Bool :=
  (List.range s.groups.length).all fun h => h == g || (s.group h).ended || (s.group h).core != (s.group g).core

/-- The matrix queues of a group run again when every wave of it has left its restore handler (spec/11 R358). -/
def State.thaw (s : State) (g : Nat) : State :=
  let x := s.group g
  if (s.part (s.launch x.launch).part).run == .running && !(x.waves.any fun v => (s.wave v).restoring) then
    s.modCore x.core fun k => if k.mx.owner == some g then { k with mx := { k.mx with frozen := false } } else k
  else s

/-- The core of a copy goes back in its rotation (spec/15 R443, R449). Where every copy has its core alone, it goes back to where
it stood at the restart point. Where other groups run there, their turns go on in their order: the waves of the copy wait, and go on
only as the core holds at them, as after a commit (spec/12 R394); a core that ran one of them goes on from the group's place in
rotation, so that both copies' cores come to the same wave (log entry 40). -/
def State.restoreTurn (s : State) (g : Nat) (sn : Snapshot) : State :=
  let x := s.group g
  let c := x.core
  let mine := (s.core c).running.any x.waves.contains
  if !s.coreDet c then (if mine then s.switch c else s)
  else if (g :: x.sibling.toList).all s.aloneOnCore then
    s.modCore c fun k => { k with running := sn.turn.1.bind fun i => x.waves[i]?, last := sn.turn.2, sent := sn.sent }
  else
    let s := x.waves.foldl (fun s w => s.modWave w fun y => { y with sch.waiting := y.sch.waiting.or (some .commit) }) s
    let place := match (x.waves.head?.map fun w => (s.wave w).id.waveid.toNat) with
      | some (n + 1) => some n
      | _ => none
    s.modCore c fun k => if mine then { k with running := none, last := place } else k

/-- The waves of a copy that come back take the lowest free slots of their core, where others have theirs by now (spec/02 R81,
spec/12 R378). -/
def State.takeSlots (s : State) (g : Nat) (back : List Nat) : State :=
  back.foldl (fun s w =>
    let c := (s.wave w).id.core
    let used := ((s.wavesOf c).filter (· != w)).map fun v => (s.wave v).id.slot
    if used.contains (s.wave w).id.slot && !(s.group g).ended then
      match (List.range 32).find? fun i => !used.contains i with
      | some i => s.modWave w fun y => { y with id.slot := i }
      | none => s
    else s) s

/-- A copy goes back to its restart point: snapshot restored, staging discarded (spec/15 R449, R452). A wave that stalled or had
ended is ready from now on (spec/12 R380); matrix streams that a restore left frozen have nothing of the restart point in them,
and run (spec/11 R358). What the discarded instructions added to the retired counts is taken back, so that copies which stopped
at different points count alike (spec/15 R443); the clk is not. An arrival since the restart point at a barrier wider than the
core stays counted there (DESIGN CHOICE: log entry 52). -/
def State.restoreCopy (s : State) (g : Nat) : State :=
  let s := (s.dropCommands g false).undoHeap g
  let s := match (s.group g).snap with
    | some sn => s.redoRescales g sn.rescales
    | none => s
  match (s.group g).snap with
  | none => s
  | some sn =>
    let ws := (s.group g).waves
    let extra := ((ws.zip sn.waves).map fun q => (s.wave q.1).sch.retired - q.2.sch.retired).sum
    let s := s.modCore (s.group g).core fun k => { k with retired := k.retired - extra }
    let back := ws.filter fun w => (s.wave w).sch.ended
    let slots := (s.core (s.group g).core).slots
    let run := (s.part (s.launch (s.group g).launch).part).run
    let s := (ws.zip sn.waves).foldl (fun s q => s.modWave q.1 fun old =>
      { q.2 with
        id.core := old.id.core, id.slot := old.id.slot, tr := old.tr.keepEvents q.2.tr,
        sch.readyAt := if old.sch.stall.isSome || old.sch.ended then slots else old.sch.readyAt }) s
    let s := s.takeSlots g (back.filter fun w => !(s.wave w).sch.ended)
    let s := s.modGroup g fun x => { x with sp := sn.sp, spLost := sn.spLost, layouts := sn.layouts, rings := sn.rings, barriers := sn.barriers,
                                            marker := sn.marker, staging := [], stagedWhole := [], stagedOld := [], nodeLog := [] }
    let s := match sn.matrix with
      | none => s
      | some m => s.modCore (s.group g).core fun c =>
          if c.mx.owner == some g then { c with mx := { m with owner := some g, frozen := c.mx.frozen && run != RunState.running } } else c
    s.renewSave g

/-- A copy's core goes back in its rotation as its restart point has it. -/
def State.restoreRotation (s : State) (g : Nat) : State :=
  match (s.group g).snap with
  | some sn => s.restoreTurn g sn
  | none => s

/-- Every copy of a group goes back to its restart point. -/
def State.rerun (s : State) (g : Nat) : State :=
  let copies := g :: (s.group g).sibling.toList
  copies.foldl State.restoreRotation (copies.foldl State.restoreCopy s)

/-- A wave leaves its core (spec/02 R81); the core has then no running wave until it chooses anew. -/
def State.endWave (s : State) (w : Nat) : State :=
  s.modWave w fun x => { x with sch.ended := true, sch.stall := none, evq := [], mem.outst := [], mem.storeQ := [] }

/-! Screeds (spec/13 R413 to R416) -/

/-- The die that owns a launch: the die of its home unit, or the lead die (spec/12 R386). -/
def State.owningDie (s : State) (l : Nat) : Nat :=
  let x := s.launch l
  let dies := (s.part x.part).dies
  let k := if x.r.place == 0 then x.r.home / 192 else if x.r.place == 1 then x.r.home / 48 else x.r.home
  if x.r.wide != 0 then dies.headD 0
  else if x.r.det then
    match s.cores.find? fun c => c.part == x.part && !c.twin && c.logical / 192 == k with
    | some c => c.phys / 192
    | none => dies.headD 0
  else dies.getD k (dies.headD 0)

/-- The lowest non-zero status. -/
def lowestStatus (a b : BitVec 8) : BitVec 8 := if a == 0 then b else if b == 0 then a else if a.toNat ≤ b.toNat then a else b

/-- An action on every page that a region touches, in page order: `f` acts on the page of an address. The fuel bounds the number
of pages. -/
def State.overPages (p c : Nat) (f : State → Nat → State × BitVec 8) (stop : Nat) : Nat → State → Nat → BitVec 8 → State × BitVec 8
  | 0, s, _, st => (s, st)
  | k + 1, s, va, st =>
    if stop ≤ va || 2 ^ 57 ≤ va then (s, st)
    else
      let size := match s.walk p c va with
        | .leaf _ l e | .tiered _ l e => pageSize l e.sz
        | .bad => 0x10000
      let r := f s va
      State.overPages p c f stop k r.1 (va / size * size + size) (lowestStatus st r.2)

/-- PIN of a fetched page set or cleared, in every entry of its group. -/
def State.setPin (s : State) (pa level : Nat) (e : Pte) (b : Bool) : State :=
  if e.tf then (groupEntries pa level e.sz).foldl (fun s q => s.putLe q 8 (setBit (s.pte q).raw 7 b)) s else s

/-- A page of a region of a fetch or pin action: fetched where it is tiered, and pinned; other pages count as resident
(spec/13 R413). One whose fetch has to wait stays as it is: what carries the action out comes back to it. -/
def State.bringPage (p c d : Nat) (pin : Bool) (s : State) (va : Nat) : State × BitVec 8 :=
  match s.walk p c va with
  | .tiered .. => match s.fetchPage p c va d pin with
    | (s', .status st) => (s', st)
    | (s', .wait) => (s', 0)
  | .leaf pa level e => (if pin then s.setPin pa level e true else s, 0)
  | .bad => (s, 0)

/-- A fetch of some page of a region has to wait. -/
def State.regionHeld (s : State) (act : TierAct) (p c d va n : Nat) : Bool :=
  (act == .fetch || act == .pin) &&
    (State.overPages p c (fun s a => (s, if s.fetchHeld p c d a then 1 else 0)) (va + 0x10000 * n) n s va 0).2 != 0

/-- Start entry `k` of a launch's screed: a fetch or pin takes its frames now. -/
def State.startEntry (s : State) (l k : Nat) (e : SEntry) : State :=
  let x := s.launch l
  let n := e.base.toNat + 0x10000 * e.npage
  let late := s.regionHeld e.action x.part x.r.ctx e.die e.base.toNat e.npage
  let r := match e.action with
    | .fetch => State.overPages x.part x.r.ctx (State.bringPage x.part x.r.ctx e.die false) n e.npage s e.base.toNat 0
    | .pin => State.overPages x.part x.r.ctx (State.bringPage x.part x.r.ctx e.die true) n e.npage s e.base.toNat 0
    | _ => (s, 0)
  r.1.modLaunch l fun y => { y with screed := y.screed.map fun z =>
    { z with entries := z.entries.set k { e with started := true, status := r.2, late := late } } }

/-- Every entry whose trigger the launch marker has reached starts, in table order. -/
def State.startEntries (s : State) (l : Nat) : State :=
  match (s.launch l).screed with
  | none => s
  | some z =>
    (z.entries.zipIdx).foldl (fun s q => if !q.1.started && decide (q.1.trig ≤ (s.launch l).marker) then s.startEntry l q.2 q.1 else s) s

/-- The launch marker follows the markers of the launch's resident groups (spec/13 R415). -/
def State.followMarkers (s : State) (l : Nat) : State :=
  let ms := (s.groups.filter fun g => g.launch == l && !g.ended).map fun g => g.marker.toNat
  match ms with
  | [] => s
  | m :: t =>
    let low := t.foldl min m
    let x := s.launch l
    if x.complete || decide (low ≤ x.marker) then s
    else (s.modLaunch l fun y => { y with marker := low }).startEntries l

/-! Nodes, bins and batches (spec/12 R385 to R391) -/

def Launch.node (x : Launch) (n : Nat) : Node :=
  x.nodes.getD n { kidx := 0, rsz := 4, c := 1, nbin := 0, nbatch := 0, tmo := 0, base := 0, bins := [] }

/-- Bytes of a batch (spec/12 R386). -/
def Node.batchBytes (n : Node) : Nat := (n.c * n.rsz + 63) / 64 * 64

/-- The virtual address of a batch. -/
def Node.batchAt (n : Node) (bin b : Nat) : Nat := n.base + n.batchBytes * (bin * n.nbatch + b)

def State.modBatch (s : State) (l node bin b : Nat) (f : Batch → Batch) : State :=
  s.modLaunch l fun x => { x with nodes := modifyAt x.nodes node fun n =>
    { n with bins := modifyAt n.bins bin fun bs => modifyAt bs b f } }

/-- A batch closes and queues its node group. -/
def State.closeBatch (s : State) (l node bin b : Nat) : State :=
  let n := ((((s.launch l).node node).bins.getD bin []).getD b default).fill
  (s.modBatch l node bin b fun x => { x with st := .closed }).modLaunch l fun x =>
    { x with closed := x.closed ++ [(node, bin, b, n, x.closings)], closings := x.closings + 1 }

/-- Close the batches of a bin that hold records: the open one, and, in deterministic mode, full ones that wait. -/
def State.flushBin (s : State) (l node bin : Nat) : State :=
  let bs := ((s.launch l).node node).bins.getD bin []
  (bs.zipIdx).foldl (fun s q =>
    if (q.1.st == .opened || q.1.st == .held) && q.1.fill != 0 then s.closeBatch l node bin q.2 else s) s

/-- Bytes of a record of a wave written at a virtual address in pieces that no page boundary divides; a piece that cannot be
written is dropped. The L1 lines of the cores of the wave's group leave, and the race detector sees an engine write of the wave
(spec/04 R176). The fuel bounds the number of pieces. -/
def State.virtWrite (q : Sender) (d p c : Nat) : Nat → State → Nat → List Byte → State
  | 0, s, _, _ => s
  | k + 1, s, va, bs =>
    let m := 0x10000 - va % 0x10000
    let s := match s.resolve s.groups.length d p c va (min m bs.length) .store with
      | some (s', .mem pa) =>
        let b := placed pa (bs.take m)
        let s' := s'.raceEngine q.wave { kind := .engineWrite, acq := false, rel := false, sc := q.sc } q.origin [(va, min m bs.length)]
        let s' := (s'.touchCode ((List.range (min m bs.length)).map (pa + ·))).writeMem b
        (s'.copyCores (s'.wave q.wave).id.group).foldl (fun s c => s.l1Drop c ((b.map fun q => q.1 / 32).eraseDups)) s'
      | _ => s
    if bs.length ≤ m then s else State.virtWrite q d p c k s (va + m) (bs.drop m)

/-- A record of a wave enters the open batch of a bin, or opens the free batch with the lowest index; none when neither is
there. Its bytes go to bin memory through the launch's context; bytes that cannot be written there are dropped (log entry 15). -/
def State.appendRecord (s : State) (l node bin : Nat) (bytes : List Byte) (q : Sender) : Option State :=
  let x := s.launch l
  let n := x.node node
  let bs := n.bins.getD bin []
  match (bs.findIdx? fun b => b.st == .opened).or (bs.findIdx? fun b => b.st == .free) with
  | none => none
  | some b =>
    let fill := (bs.getD b default).fill
    let s := State.virtWrite q (s.owningDie l) x.part x.r.ctx 2 s (n.batchAt bin b + n.rsz * fill) bytes
    let full := decide (n.c ≤ fill + 1)
    let s := s.modBatch l node bin b fun _ => { st := if full && x.r.det then .held else .opened, fill := fill + 1 }
    some (if full && !x.r.det then s.closeBatch l node bin b else s)

/-- Records and closings in flight reach their bins in order, as far as batches are free. -/
def State.settleNodes (l : Nat) : Nat → State → State
  | 0, s => s
  | k + 1, s =>
    match (s.launch l).inflight with
    | [] => s
    | .flush node bin :: t => State.settleNodes l k ((s.flushBin l node bin).modLaunch l fun x => { x with inflight := t })
    | .record node bin bytes q :: t =>
      match s.appendRecord l node bin bytes q with
      | none => s
      | some s' => State.settleNodes l k (s'.modLaunch l fun x => { x with inflight := t })

/-- The batch of a node group becomes free (spec/12 R388), and what waits for one goes on. -/
def State.freeBatch (s : State) (l : Nat) (nb : Nat × Nat × Nat × Nat) : State :=
  let s := s.modBatch l nb.1 nb.2.1 nb.2.2.1 fun _ => { st := .free, fill := 0 }
  State.settleNodes l (s.launch l).inflight.length s

/-! Stores on their way (spec/04 R168, R169) -/

/-- A store is performed: in scratchpad, in staging, or at its home points; traffic that a broken link loses is discarded with
an error record (spec/04 R169, spec/14 R432, spec/15 R444). -/
def State.perform (s : State) (w : Nat) (q : QStore) : State :=
  let g := (s.wave w).id.group
  let s := match q.key with
    | some k => s.modWave w fun x => x.markReady k []
    | none => s
  if q.sp then s.modGroup g fun x => x.spWrite q.bytes
  else if s.staged g then
    s.modGroup g fun x => { x.stage q.bytes with stagedOld := x.stagedOld ++ if q.old then q.bytes.map fun c => c.1 else [] }
  else
    let d := s.waveDie w
    let through := q.bytes.filter fun c => s.reach d c.1 != Reach.broken
    let s := if through.length == q.bytes.length then s
      else s.addError (s.wave w).id.part 3 0 (s.globalId w) (s.wave w).hdr 0 0 (BitVec.ofNat 64 ((q.bytes.headD (0, 0)).1))
    (s.writeMem through).l1Store (s.wave w).id.core through

/-- Results of atomics that a core has on their way reach their home points, before any later store of the core (spec/04 R150,
R168). -/
def State.performOut (s : State) (c : Nat) : State :=
  (s.core c).out.foldl (fun s e => s.perform e.1 e.2) (if (s.core c).out.isEmpty then s else s.modCore c fun k => { k with out := [] })

/-- The oldest queued store of a wave is performed. -/
def State.performOne (s : State) (w : Nat) : State :=
  match (s.wave w).mem.storeQ with
  | [] => s
  | q :: t => (s.modWave w fun x => { x with mem.storeQ := t }).perform w q

/-- Every store of a wave that is on its way is performed, in order. -/
def State.performAll (s : State) (w : Nat) : State :=
  (s.wave w).mem.storeQ.foldl (fun s _ => s.performOne w) (s.performOut (s.wave w).id.core)

/-- A wave has stores queued, or its core has results of its atomics on their way. -/
def State.onItsWay (s : State) (w : Nat) : Bool :=
  !(s.wave w).mem.storeQ.isEmpty || (s.core (s.wave w).id.core).out.any fun e => e.1 == w

/-- A store of a wave, or a result of an atomic that its core has on its way, waits in a recovery hold (spec/14 R431). -/
def State.storeHeld (s : State) (w : Nat) (q : QStore) : Bool :=
  !q.sp && !s.staged (s.wave w).id.group && q.bytes.any fun c => s.reach (s.waveDie w) c.1 == .hold

def State.storesHeld (s : State) (w : Nat) : Bool :=
  ((s.wave w).mem.storeQ.any fun q => s.storeHeld w q) || (s.core (s.wave w).id.core).out.any fun e => s.storeHeld e.1 e.2

/-- What has every earlier store performed first waits while a recovery hold keeps one back. -/
def demandSent (s : State) (w : Nat) : Eff Unit := if s.storesHeld w then .error (.stall .hold s) else .ok ()

/-- A load at `.quad` or wider is served at the home points: results of atomics that its core has on their way are performed
before it, and it waits while a recovery hold keeps one back (spec/04 R150, R169). -/
def demandHome (s : State) (w : Nat) (sc : Scope) : Eff State :=
  let out := (s.core (s.wave w).id.core).out
  if !Scope.wide sc || out.isEmpty then .ok s
  else if out.any fun e => s.storeHeld e.1 e.2 then .error (.stall .hold s)
  else .ok (s.performOut (s.wave w).id.core)

/-- An ordered atomic of the wave is still held (spec/04 R152). -/
def State.aodPending (s : State) (w : Nat) : Bool :=
  ((s.waveGroup w).barriers ++ (s.waveLaunch w).barriers).any fun b => b.aods.any fun a => a.wave == w

/-- An ordered atomic that the wave issued before its operation `key` is still held (spec/01 R25, spec/04 R152). -/
def State.heldBefore (s : State) (w key : Nat) : Bool :=
  ((s.waveGroup w).barriers ++ (s.waveLaunch w).barriers).any fun b => b.aods.any fun a => a.wave == w && decide (a.key < key)

/-- The acquire of a wave's command waits for the wave's earlier ordered atomics that are held (spec/01 R25). -/
def State.acquireWaits (s : State) (w key : Nat) (o : Order) : Bool := Order.acquires o && s.heldBefore w key

/-- A wave ends without its waits: of the stores still queued, the oldest may have become visible, as many as are drawn
(spec/11 R353, log entry 4). -/
def State.abandonStores (s : State) (w : Nat) : State :=
  let s := s.performOut (s.wave w).id.core
  let n := (s.wave w).mem.storeQ.length
  if n = 0 then s else (List.range (n - s.draw 60 w (n + 1))).foldl (fun s _ => s.performOne w) s

/-- A halted wave of a group that ends stays in place: nothing of it is on its way any more (spec/11 R353). -/
def Wave.still (x : Wave) : Wave := { x with sch.stall := none, mem.outst := [], mem.storeQ := [] }

/-- A wave's arrival leaves the counts of its barriers with it. -/
def Barrier.without (w : Nat) (b : Barrier) : Barrier := { b with arrived := b.arrived.filter (· != w) }

/-- A group's end releases what it holds and is counted by its launch; a twin's end counts nothing (spec/12 R373, R388,
spec/15 R443). A wave that a second error has halted stays halted in place, and every other wave ends (spec/11 R353). The group
leaves the barriers of its launch, whose phases may complete with that (spec/02 R78). Of a group that is aborted the open phase of a
barrier of its own completes, with its ordered atomics, where some wave had arrived, and stays open else (DESIGN CHOICE: log entry
52). -/
def State.closeGroup (s : State) (g : Nat) (aborted : Bool) : State :=
  let x := s.group g
  let s := x.waves.foldl (fun s w => if (s.wave w).sch.halted then s.modWave w Wave.still else s.endWave w) s
  let s := s.modGroup g fun x => { x with ended := true, aborted := aborted, staging := [], stagedWhole := [], stagedOld := [], snap := none, nodeLog := [], heapLog := [] }
  let s := s.modCore x.core fun c => if c.mx.owner == some g then { c with mx := { c.mx with owner := none } } else c
  let s := s.modLaunch x.launch fun l => { l with barriers := l.barriers.map fun b => x.waves.foldl (fun b w => b.without w) b }
  let s := s.settlePhases g
  if x.copy == .twin then s.followMarkers x.launch
  else
    let s := match x.node with | some nb => s.freeBatch x.launch nb | none => s
    let s := s.modLaunch x.launch fun l =>
      match x.node, aborted with
      | none, false => { l with done := l.done + 1 }
      | none, true => { l with aborted := l.aborted + 1 }
      | some _, false => { l with nodeDone := l.nodeDone + 1 }
      | some _, true => { l with nodeAborted := l.nodeAborted + 1 }
    s.followMarkers x.launch

/-- The primary of the copies to which a group belongs, or the group itself. -/
def State.primaryOf (s : State) (g : Nat) : Nat := if (s.group g).copy == .twin then (s.group g).sibling.getD g else g

/-- A group is aborted (spec/11 R353 from its third step on), in whichever copy the error lies: a rerunnable one reruns until its
third abort in one commit interval. -/
def State.abortGroup (s : State) (h : Nat) : State :=
  let g := s.primaryOf h
  let x := s.group g
  if x.ended then s
  else if s.staged g && decide (x.aborts + 1 < 3) then
    let n := x.aborts + 1
    let s := s.modGroup g fun y => { y with aborts := n }
    let s := match x.sibling with | some t => s.modGroup t fun y => { y with aborts := n } | none => s
    s.rerun g
  else
    let s := if s.staged g then s else x.waves.foldl State.abandonStores s
    let s := ((s.undoHeap g).dropCommands g true).closeGroup g true
    match x.sibling with
    | some t => ((s.undoHeap t).dropCommands t false).closeGroup t true
    | none => s

/-! The end of a wave, and lanes that die (spec/02 R78, R81, spec/05 R217, spec/15 R446) -/

/-- The wave is drained, and its core has no result of an atomic of it on its way. -/
def State.drainedWave (s : State) (w : Nat) : Bool := (s.wave w).idle && !s.onItsWay w

/-- The wave waits until it is drained. -/
def demandDrained (s : State) (w : Nat) : Eff Unit :=
  if s.drainedWave w then .ok () else .error (.stall .ending s)

/-- A drained wave ends: in a staged group it stays arrived at the commit point; the group ends with its last wave. Phases at which
all that remain have arrived complete at once (spec/02 R78). -/
def State.leave (s : State) (w : Nat) : State :=
  let g := (s.wave w).id.group
  let staged := s.staged g
  let s := s.modWave w fun x => { x with sch.arrived := if staged then some Arrive.exit else x.sch.arrived }
  let s := s.modGroup g fun x => { x with barriers := x.barriers.map (Barrier.without w) }
  let s := s.modLaunch (s.wave w).id.launch fun x => { x with barriers := x.barriers.map (Barrier.without w) }
  let s := s.endWave w
  if !staged && (s.group g).waves.all (fun v => (s.wave v).sch.ended) then s.closeGroup g false else (s.settlePhases g).thaw g

/-- Limb registers that reach the position of a dead lane are poisoned (spec/07 R256). -/
def Wave.poisonLimbs (x : Wave) (m : Mask) : Wave :=
  { x with v := x.v.map fun r =>
      if mdTag r.md == .limb && !(lanesOf (mdLen r.md) m).isEmpty then { r with md := r.md ||| 0x10000#32 } else r }

/-- Dead lanes leave every mask under lane policy "continue", and the limb registers that reach them are poisoned: Complete and
Select apply; with no live lane left the wave drains and ends. An `xeq` in progress ends with the path that executes it. -/
def State.removeLanes (s : State) (w : Nat) (m : Mask) : State :=
  let k := (s.wave w).cur
  let x := (((s.wave w).dropLanes m).poisonLimbs m).wakeSet
  let r := x.complete none 33
  let y := if x.lc.paths.any (fun p => p.st == .run) then some r.1
    else (match r with
      | (y, some i) => some (y.makeCurrent i)
      | (y, none) => y.select k).map fun (y : Wave) => { y with lc.xprog := 0 }
  match y with
  | some y => if x.lc.paths.any (fun p => p.st == .run) then s.setWave w y else (s.setWave w y).pathSlot w
  | none =>
    let s := s.setWave w { r.1 with sch.stall := some .drain }
    if s.drainedWave w then s.leave w else s

/-- Lanes of a wave die: they leave at the next instruction boundary, which for an `xeq` in progress is its end, or the entry into a
handler that interrupts it; the masks of its later words leave them out at once (spec/05 R217). -/
def State.killLanes (s : State) (w : Nat) (m : Mask) : State :=
  if (s.wave w).lc.xprog.getLsbD 31 then
    s.modWave w fun x => { x with lc.dead := x.lc.dead ||| m, lc.dying := x.lc.dying ||| m }
  else s.removeLanes w m

/-- Lanes that died during an `xeq` leave. -/
def State.settleDying (s : State) (w : Nat) : State :=
  let x := s.wave w
  if x.lc.dying == 0 || x.sch.ended then s
  else (s.modWave w fun y => { y with lc.dying := 0 }).removeLanes w x.lc.dying

/-! Taking a trap or an event (spec/11 R344 to R347): its record -/

/-- What TCLA, TINF, TWORD and TADDR hold for a trap or event of a wave (spec/11 R344, R345). -/
structure TrapRec where
  cla : Word
  inf : Word
  word : Word
  addr : Word
deriving DecidableEq, Repr

def Wave.trapRec (x : Wave) (t : TrapReq) (event : Bool) : TrapRec :=
  { cla := x.hdr,
    inf := BitVec.ofNat 64 ((if t.hdr.isSome then 32 else 0) + (if t.resume then 16 else 0) + x.pos.idx % 16),
    word := if event then 0 else t.hdr.getD x.word, addr := t.addr }

/-- A second error (spec/11 R353): the wave halts, a fault record goes to the controller, the group is aborted. -/
def State.secondErrorOf (s : State) (w : Nat) (code : BitVec 6) (r : TrapRec) : State :=
  let x := s.wave w
  let s := s.modWave w fun x => { x with sch.halted := true, sch.stall := none }
  let s := s.addError x.id.part 1 code.toNat (s.globalId w) r.cla r.inf r.word r.addr
  s.abortGroup x.id.group

/-- A second error that no instruction raises: its record holds the trap registers as they stand. -/
def State.secondError (s : State) (w : Nat) (code : BitVec 6) : State :=
  let x := s.wave w
  s.secondErrorOf w code { cla := x.tr.tcla, inf := x.tr.tinf, word := x.tr.tword, addr := x.tr.taddr }

/-! Taking a trap or an event (spec/11 R344 to R347) -/

/-- Eight bytes of virtual memory as the context unit reads them. -/
def State.unitRead (s : State) (w : Nat) (va : Nat) (want : Want) : Option (State × Word) :=
  let x := s.wave w
  match s.resolve x.id.group (s.waveDie w) x.id.part x.id.ctx va 8 want with
  | some (s', .mem pa) => if s'.lostAt pa then none else some (s', BitVec.ofNat 64 (s'.mem.readLe pa 8))
  | some (s', .sp off) =>
    let bad := (List.range 8).any fun i => (s'.waveGroup w).spLost.contains ((off + i) / 32)
    if bad then none else some (s', BitVec.ofNat 64 ((s'.waveGroup w).sp.readLe off 8))
  | none => none

/-- The handler of a code: none when the table entry cannot be read; zero for none (spec/11 R346). -/
def State.handler (s : State) (w : Nat) (code : BitVec 6) : Option (State × Word) :=
  let tb := (s.waveCtx w).tbase
  if tb == 0 then some (s, 0) else s.unitRead w (tb.toNat + 8 * code.toNat) .load

/-- The trap registers, the position and the mode that entry sets. `event` is ASYNC; `phase` is PHASE. -/
def Wave.enter (x : Wave) (t : TrapReq) (event phase : Bool) (h : Word) : Wave :=
  let r := x.trapRec t event
  let cause : Word := BitVec.ofNat 64 ((if event then 2 ^ 15 else 0) + (if t.sw then 2 ^ 14 else 0) +
    (if phase then 2 ^ 13 else 0) + t.code.toNat)
  let y : Wave := { x with
    tr.hm := true, tr.cause := cause, tr.tcla := r.cla, tr.tinf := r.inf, tr.tword := r.word, tr.taddr := r.addr,
    tr.tlanes := t.lanes.getD x.exec, tr.txprog := x.lc.xprog, tr.txm := x.lc.xm, tr.armed := false,
    tr.inClause := x.sch.started || x.sch.resume, tr.stepDue := none, tr.entryPath := x.cur, tr.entryMask := x.exec, tr.entryReg := x.path.reg, tr.opened := 0,
    tr.heapSaved := x.sch.heapWait.map fun k => (x.pos, k, x.sch.heapReply), tr.barSaved := x.sch.barArrived,
    tr.prmtSaved := x.sch.prmt, tr.nrecSaved := x.sch.nrec,
    mem.monitor := none, mem.polled := none, lc.xprog := 0, sch.stall := none, sch.raced := x.sch.raced.filter fun q => q.1.key.isSome,
    sch.waiting := if event || t.code == 0x15#6 then x.sch.waiting else none, sch.heapReply := none,
    sch.heapWait := none, sch.growWant := none, sch.growGrant := none, sch.arrived := none, sch.barArrived := none,
    sch.prmt := none, sch.nrec := none, sch.shoot := none }
  let z := if event then y else y.modPath y.cur fun p => { p with due := none }
  z.enterAt h

/-- A wave enters a handler; where that ends a stall the wave becomes ready (spec/12 R380). -/
def State.enterHandler (s : State) (w : Nat) (t : TrapReq) (event phase : Bool) (h : Word) : State :=
  let slots := (s.core (s.wave w).id.core).slots
  s.modWave w fun x => { x.enter t event phase h with sch.readyAt := if x.sch.stall.isSome then slots else x.sch.readyAt }

/-- Take(c) for a synchronous trap. A second error is recorded with what the trap would have put into the trap registers. Lanes
that died during an `xeq` leave before its handler begins; a path of which no lane is left traps no more (spec/05 R217). The check of
the handler's header reads memory as it stands, after a store to running code too (DESIGN CHOICE: log entry 14). -/
def State.take (s : State) (w : Nat) (t : TrapReq) : State :=
  let old := s.wave w
  let s := s.settleDying w
  let r := (s.wave w).trapRec t false
  if old.lc.dying != 0 && ((s.wave w).pos != old.pos || (s.wave w).cur != old.cur || !(s.wave w).resident || (s.wave w).sch.stall == some .drain) then s
  else if (s.wave w).tr.hm then s.secondErrorOf w t.code r
  else match s.handler w t.code with
    | none => s.secondErrorOf w 0x10#6 r
    | some (s, h) =>
      if h == 0 then s.secondErrorOf w t.code r
      else match s.unitRead w h.toNat .fetch with
        | none => s.secondErrorOf w 0x10#6 r
        | some (s, word) =>
          if h.toNat % 8 != 0 || (Header.ofWord word).isNone then s.secondErrorOf w 0x03#6 r
          else s.enterHandler w t false false h

/-- A trap is taken: it ends the stall, and it costs no retirement. -/
def State.trapped (s : State) (w : Nat) (t : TrapReq) : State := (s.take w t).tick

/-! Issue -/

/-- Instructions of handlers entered for timing-dependent codes are not retired instructions (spec/02 R82). -/
def Wave.counts (x : Wave) : Bool := !x.quietHandler

/-- An instruction counts: an issue slot, and the retired counts (spec/01 R36, spec/02 R82). `x` is the wave as it stood at
issue. -/
def State.countRetired (s : State) (w : Nat) (x : Wave) : State :=
  let n := if x.counts then 1 else 0
  (s.modCore x.id.core fun k => { k with slots := k.slots + 1, retired := k.retired + n }).modWave w fun y =>
    { y with sch.retired := y.sch.retired + n }

/-- The trap that completes an instruction: entering the handler retires it (spec/02 R82). -/
def State.trapDone (s : State) (w : Nat) (t : TrapReq) : State :=
  let x := s.wave w
  let s' := s.trapped w t
  if !x.tr.hm && (s'.wave w).tr.hm then s'.countRetired w x else s'

/-- An instruction has issued: counts, the watchdog, and single step (spec/02 R82, spec/11 R350, R352). `x` is the wave as it
stood at issue. In the handler of a code at which nothing switches the wait of the interrupted program stands (spec/11 R358). -/
def State.retire (s : State) (w : Nat) (x : Wave) : State :=
  ((s.countRetired w x).modWave w fun y =>
    { y with sch.wd := 0, sch.stall := none, sch.waiting := if x.quietHandler then y.sch.waiting else none,
             tr.stepDue := if x.tr.armed && y.tr.armed && !y.sch.ended then some x.word else y.tr.stepDue,
             sch.need := none, sch.raced := y.sch.raced.filter fun q => q.1 != { pos := x.pos },
             tr.armed := if x.tr.armed then false else y.tr.armed }).tick

/-- The running wave of the acting core: none when the wave that ran has left the core or is halted. -/
def State.running (s : State) : Option Nat :=
  match (s.core s.acting).running with
  | some w => if (s.wave w).resident then some w else none
  | none => none

/-- Issue an instruction of the acting core's running wave. `f` gives the state with the instruction's effect; `move` moves
the path on. A trap leaves every visible state as it was (spec/02 R57); with no running wave nothing issues. -/
def issueWith (s : State) (move : Wave → Wave) (f : Nat → Eff State) : Out :=
  match s.running with
  | none => .next s
  | some w =>
    match f w with
    | .ok s' => .next ((s'.modWave w move).retire w (s.wave w))
    | .error (.trap t) => .next (s.trapped w t)
    | .error (.stall why s') => .next (s'.stallWave w why).tick
    | .error (.done s') => .next s'
    | .error (.fault r) => .fault r

/-- Issue an instruction that falls through to the next. -/
def issue (s : State) (f : Nat → Eff State) : Out := issueWith s Wave.advance f

/-- Issue an instruction that sets the position itself. -/
def issueJump (s : State) (f : Nat → Eff State) : Out := issueWith s id f

/-- A step of another agent: enabled or not (log entry 3). -/
def event (s : State) (enabled : Bool) (f : State → State) : Out := if enabled then .next (f s).tick else .next s

end Sys2Proof.Machine
end

