-- ==== Sys2Proof/Machine/Operands.lean ====
section
/-! DEFINITION. Operands: which banks a field accepts, special registers, uniform values, lane sources, format tags of
lanes, and the ports Q0 to Q7 with their rings (spec/02 R39 to R42, R84, R90; spec/03 R94, R95, R101, R110, R111; spec/05
R179, R212; spec/06 R238, R241 to R243; spec/09 R295; spec/11 R345). -/

namespace Sys2Proof.Machine

/-! Acceptance -/

/-- The banks that an operand field accepts (spec/02 R39, R40, R41). `rd` and `wr` are specials read and written by uniform
instructions, `lane` is LANEID, `msk` are EXEC, DEAD and XFAULT, `evq` is Q12, and `pop` and `push` are the ports Q0 to
Q7 as bound, `port` is any of them by name. -/
structure Accept where
  v : Bool := false
  s : Bool := false
  p : Bool := false
  pop : Bool := false
  push : Bool := false
  rd : Bool := false
  lane : Bool := false
  wr : Bool := false
  imm : Bool := false
  evq : Bool := false
  msk : Bool := false
  port : Bool := false
deriving DecidableEq, Repr

/-- A V register. -/
def Accept.onlyV : Accept := { v := true }
/-- A V source by name, or LANEID, each lane's index with tag u32 (spec/05 R179). -/
def Accept.lanes : Accept := { v := true, lane := true }
/-- A V source by name, LANEID, or a port to pop (spec/06 R242). -/
def Accept.laneSource : Accept := { v := true, lane := true, pop := true }
/-- An S register. -/
def Accept.onlyS : Accept := { s := true }
/-- A P register. -/
def Accept.onlyP : Accept := { p := true }
/-- An immediate. -/
def Accept.onlyImm : Accept := { imm := true }
/-- A V register or a port to push to. -/
def Accept.dest : Accept := { v := true, push := true }
/-- A source of a scalar instruction (spec/02 R84). -/
def Accept.uniform : Accept := { s := true, rd := true, imm := true, v := true }
/-- A destination of a scalar instruction. -/
def Accept.scalarDest : Accept := { s := true, wr := true }
/-- A source of a lane-wise instruction (spec/03 R110). -/
def Accept.src : Accept := { v := true, s := true, rd := true, lane := true, imm := true, pop := true }
/-- An S register, an immediate or a uniform V register. -/
def Accept.count : Accept := { s := true, imm := true, v := true }
/-- An S register or an immediate. -/
def Accept.si : Accept := { s := true, imm := true }
/-- An S or V register. -/
def Accept.sv : Accept := { s := true, v := true }

/-- Specials that a uniform instruction reads: not LANEID, not the lane-control masks, and the trap state in handler mode
(spec/02 R40). -/
def readable (hm : Bool) (n : Nat) : Bool :=
  (decide (1 ≤ n) && decide (n ≤ 3)) || (decide (7 ≤ n) && decide (n ≤ 13)) || (hm && decide (16 ≤ n) && decide (n ≤ 23))

/-- Specials that a uniform instruction writes (spec/02 R40, spec/11 R345). -/
def writable (hm : Bool) (n : Nat) : Bool :=
  n == 7 || n == 8 || n == 9 || n == 12 || (hm && (n == 10 || n == 11 || n == 17 || n == 18 || n == 22 || n == 23))

/-- An operand names the trap state. -/
def namesTrapState : Opnd → Bool
  | .special n => decide (16 ≤ n.toNat) && decide (n.toNat ≤ 23)
  | _ => false

/-- A port as bound: the ring's number in the group's ring list and its direction (spec/06 R241). -/
def Wave.port (x : Wave) (n : Nat) : Option (Nat × Bool) := (x.ports.getD n none).map fun q => (q.1.toNat, q.2)

/-- A port that can be popped or pushed: bound in that direction to a defined ring (spec/06 R238, R242, R243). -/
def State.portUsable (s : State) (w n : Nat) (push : Bool) : Bool :=
  match (s.wave w).port n with
  | some (r, d) => d == push && ((s.waveGroup w).ring r).defined
  | none => false

/-- Whether a field accepts an operand in the wave's present state (spec/02 R40, R41). -/
def State.accepts (s : State) (w : Nat) (r : Accept) : Opnd → Bool
  | .v n => r.v && decide (n.toNat < (s.wave w).v.length)
  | .s _ => r.s
  | .p _ => r.p
  | .rsvd _ => false
  | .q n =>
    if n.toNat < 8 then (r.pop && s.portUsable w n.toNat false) || (r.push && s.portUsable w n.toNat true) || r.port
    else r.evq && n == 12#4
  | .special n =>
    (r.rd && readable (s.wave w).tr.hm n.toNat) || (r.wr && writable (s.wave w).tr.hm n.toNat) || (r.lane && n == 0#5) ||
      (r.msk && (n == 4#5 || n == 5#5 || n == 6#5))
  | .imm _ => r.imm

/-- The field value of an operand, as TADDR reports it. -/
def opndAddr (o : Opnd) : Word := o.code.zeroExtend 64

/-- The decode checks of operands, fields in order D, A, B, C: the trap state outside handler mode raises 0x04, an operand
that its field does not accept raises 0x02 (spec/02 R40, R41, R57; log entry 8). -/
def checkOps (s : State) (w : Nat) (l : List (Opnd × Accept)) : Eff Unit :=
  if !(s.wave w).tr.hm && l.any (fun q => namesTrapState q.1) then raise 0x04#6
  else match l.find? fun q => !s.accepts w q.2 q.1 with
    | some q => raise 0x02#6 (opndAddr q.1)
    | none => .ok ()

/-- A privileged instruction outside a privileged context raises 0x04 (spec/11 R343). -/
def demandPriv (s : State) (w : Nat) : Eff Unit := demand (s.waveCtx w).priv 0x04#6

/-- Register number of an operand. -/
def regOf : Opnd → Nat
  | .v n | .s n => n.toNat
  | .p n => n.toNat
  | .q n => n.toNat
  | .special n => n.toNat
  | _ => 0

def isV : Opnd → Bool
  | .v _ => true
  | _ => false

def isPort : Opnd → Bool
  | .q _ => true
  | _ => false

/-- The value of an immediate operand, zero for another. -/
def immOf : Opnd → Int
  | .imm x => x.toInt
  | _ => 0

/-- `k` registers from an operand's number lie below the wave's count. -/
def State.fits (s : State) (w : Nat) (o : Opnd) (k : Nat) : Bool := decide (regOf o + k ≤ (s.wave w).v.length)

/-- The field "even" of pairs: n even and n + 1 below the count. -/
def State.evenPair (s : State) (w : Nat) (o : Opnd) : Bool := regOf o % 2 == 0 && s.fits w o 2

/-! Metadata and tags (spec/03 R92, R94) -/

def mdSign (md : BitVec 32) : Bool := md.getLsbD 15
def mdPoison (md : BitVec 32) : Bool := md.getLsbD 16
def mdMidx (md : BitVec 32) : Nat := (md.extractLsb' 17 6).toNat

/-- A metadata word. -/
def mkMd (t : Tag) (len : Nat) (sign poison : Bool) (midx : Nat) : BitVec 32 :=
  0#9 ++ BitVec.ofNat 6 midx ++ BitVec.ofBool poison ++ BitVec.ofBool sign ++ BitVec.ofNat 11 len ++ t.code

/-- The metadata of a plain result. -/
def tagMd (t : Tag) : BitVec 32 := mkMd t 0 false false 0

/-! Specials -/

/-- MPROG: the rows completed by the streams (spec/02 R40, spec/09 R295). -/
def Matrix.mprog (m : Matrix) : Word :=
  (List.range 4).foldl (fun acc i =>
    let rows := match (m.streams.getD i default).q with | [] => 0 | c :: _ => c.rows
    acc ||| BitVec.ofNat 64 (rows % 2 ^ 16 * 2 ^ (16 * i))) 0

/-- A special register as a uniform instruction reads it. MPROG is that of the core's engine, whichever group owns it (DESIGN CHOICE: log
entry 56; spec/09 R295). -/
def State.readSpecial (s : State) (w n : Nat) : Word :=
  let x := s.wave w
  match n with
  | 1 => x.id.waveid.zeroExtend 64
  | 2 => x.id.grpid.zeroExtend 64
  | 3 => BitVec.ofNat 64 x.id.width
  | 7 => if x.carry then 1 else 0
  | 8 => x.fflags.zeroExtend 64
  | 9 => x.amr
  | 10 => x.lc.xprog.zeroExtend 64
  | 11 => (s.core x.id.core).mx.mprog
  | 12 => x.nttthr.zeroExtend 64
  | 13 => BitVec.ofInt 64 (s.part x.id.part).bellowsB
  | 16 => x.tr.cause
  | 17 => x.tr.tcla
  | 18 => x.tr.tinf
  | 19 => x.tr.tword
  | 20 => x.tr.taddr
  | 21 => BitVec.ofNat 64 ((x.tr.tlanes.toNat >>> (32 * (x.tr.tinf.extractLsb' 16 5).toNat)) % 2 ^ 32)
  | 22 => x.tr.txprog.zeroExtend 64
  | 23 => BitVec.ofNat 64 ((if x.tr.pend22.isSome then 128 else 0) + (if x.tr.pend21.isSome then 64 else 0) +
      (if x.tr.pend20.isSome then 32 else 0) + (if x.tr.ss then 1 else 0))
  | _ => 0

/-- AMR accepts a value: no reserved value in any field (spec/03 R101). -/
def amrOk (v : Word) : Bool :=
  decide ((v.extractLsb' 0 3).toNat < 6) && v.extractLsb' 3 2 != 3#2 && !(v.getLsbD 6) && v.extractLsb' 15 17 == 0#17

/-- XPROG accepts a value (spec/05 R212). -/
def xprogOk (v : Word) : Bool := v.extractLsb' 11 19 == 0#19

/-- Row total of a matrix command (spec/09 R295, R315). -/
def MCmd.total (c : MCmd) : Nat :=
  match c.op with
  | .loop _ ops => 64 * ((ops.getD 6 0).toNat / 2 ^ 54 + 1)
  | .loadScale _ _ cnt | .storeScale _ _ cnt => (cnt + 255) / 256
  | .prg _ _ => 1
  | _ => 64

/-- A write of MPROG in handler mode sets the restart point of each suspended operation (spec/09 R295): of the head of each stream, one
that has not begun among them (DESIGN CHOICE: log entry 56). -/
def Matrix.setMprog (m : Matrix) (v : Word) : Matrix :=
  if !m.frozen then m
  else { m with streams := (List.range m.streams.length).map fun i =>
    let t := m.streams.getD i default
    match t.q with
    | [] => t
    | c :: q => { t with q := { c with rows := ((v.toNat >>> (16 * i)) % 2 ^ 16) } :: q } }

/-- Write a special register; `code` is what TADDR reports of a refused value. -/
def State.writeSpecial (s : State) (w n : Nat) (v : Word) (code : Word) : Eff State :=
  let x := s.wave w
  let put (y : Wave) : Eff State := .ok (s.setWave w y)
  match n with
  | 7 => put (x.setCarry (v.getLsbD 0))
  | 8 => put { x with fflags := v.extractLsb' 0 5 }
  | 9 => do
    demand (amrOk v) 0x02#6 code
    put { x with amr := (v &&& ~~~ (0x4000#64)) ||| (x.amr &&& 0x4000#64) }
  | 10 => do
    demand (xprogOk v) 0x02#6 code
    put { x with lc.xprog := v.extractLsb' 0 32 }
  | 11 => .ok (s.modCore x.id.core fun c => { c with mx := c.mx.setMprog v })
  | 12 => do
    demand (v.extractLsb' 18 14 == 0#14 && decide ((v.extractLsb' 0 18).toNat ≤ 131072)) 0x02#6 code
    put { x with nttthr := v.extractLsb' 0 32 }
  | 17 => do
    demand (v.extractLsb' 0 3 == 0#3 && v.extractLsb' 57 7 == 0#7) 0x02#6 code
    put { x with tr.tcla := v }
  | 18 => do
    demand (v.extractLsb' 21 43 == 0#43 && v.extractLsb' 6 10 == 0#10) 0x02#6 code
    put { x with tr.tinf := (v &&& ~~~ (32#64)) ||| (x.tr.tinf &&& 32#64) }
  | 22 => do
    demand (xprogOk v) 0x02#6 code
    put { x with tr.txprog := v.extractLsb' 0 32 }
  | 23 => do
    demand (v.extractLsb' 8 56 == 0#56 && v.extractLsb' 1 4 == 0#4) 0x02#6 code
    put { x with tr.ss := v.getLsbD 0 }
  | _ => .ok s

/-- Write a scalar destination: an S register or a special. -/
def State.putScalar (s : State) (w : Nat) (d : Opnd) (v : Word) : Eff State :=
  match d with
  | .s n => .ok (s.modWave w fun x => x.setS n.toNat v)
  | .special n => s.writeSpecial w n.toNat v (opndAddr d)
  | _ => .ok s

/-! Uniform values (spec/02 R42) -/

/-- A poisoned V register (spec/03 R95). -/
def poisonedOp (s : State) (w : Nat) : Opnd → Bool
  | .v n => mdPoison (readV s w 0 n.toNat).md
  | _ => false

/-- The first poisoned V register among operands raises 0x07. -/
def demandClean (s : State) (w : Nat) (m : Mask) (os : List Opnd) : Eff Unit :=
  match os.find? (poisonedOp s w) with
  | some o => raise 0x07#6 (opndAddr o) (some m)
  | none => .ok ()

/-- The value of an operand that must be uniform over the lanes `m`, extended to 64 bits; `site` tells the operand places
apart. -/
def uniOf (s : State) (w : Nat) (m : Mask) (site : Nat) (o : Opnd) : Eff Word :=
  match o with
  | .s n => .ok (readS s w site n.toNat)
  | .imm x => .ok (x.signExtend 64)
  | .special n => .ok (s.readSpecial w n.toNat)
  | .v n =>
    let r := readV s w site n.toNat
    match lanesOf (s.wave w).id.width m with
    | [] => .ok 0
    | l :: ls =>
      let x := r.lanes.getD l 0
      if ls.all fun k => r.lanes.getD k 0 == x then
        .ok (if mdTag r.md == .i32 then x.signExtend 64 else x.zeroExtend 64)
      else raise 0x06#6 (opndAddr o) (some m)
  | _ => .ok 0

/-- Uniform values over the current path, poison checked first for every operand. -/
def uni1 (s : State) (w : Nat) (a : Opnd) : Eff Word := do
  let m := (s.wave w).exec
  demandClean s w m [a]
  uniOf s w m 1 a

def uni2 (s : State) (w : Nat) (a b : Opnd) : Eff (Word × Word) := do
  let m := (s.wave w).exec
  demandClean s w m [a, b]
  let x ← uniOf s w m 1 a
  let y ← uniOf s w m 2 b
  pure (x, y)

def uni3 (s : State) (w : Nat) (a b c : Opnd) : Eff (Word × Word × Word) := do
  let m := (s.wave w).exec
  demandClean s w m [a, b, c]
  let x ← uniOf s w m 1 a
  let y ← uniOf s w m 2 b
  let z ← uniOf s w m 3 c
  pure (x, y, z)

/-! Lane sources (spec/03 R110) -/

/-- A source of a lane-wise instruction, resolved: the metadata of a V source, the bits of each lane, and an immediate's or
an S register's whole value. -/
structure Src where
  o : Opnd
  md : Option (BitVec 32)
  val : Nat → Lane
  imm : Option Int
  word : Word

/-- Elements popped from a port, by lane, with the ring's tag; and, of an element in a lost sector, its window address. -/
structure Popped where
  port : Nat
  tag : Tag
  elem : Nat → Lane
  lost : Nat → Option Nat

/-- Resolve a source; `pops` holds what the ports gave. -/
def srcOf (s : State) (w : Nat) (pops : List Popped) (site : Nat) (o : Opnd) : Src :=
  match o with
  | .v n => let r := readV s w site n.toNat; { o := o, md := some r.md, val := fun l => r.lanes.getD l 0, imm := none, word := 0 }
  | .s n => let x := readS s w site n.toNat; { o := o, md := none, val := fun _ => x.extractLsb' 0 32, imm := none, word := x }
  | .imm x => { o := o, md := none, val := fun _ => x.signExtend 32, imm := some x.toInt, word := x.signExtend 64 }
  | .special n =>
    if n == 0#5 then { o := o, md := some (tagMd .u32), val := fun l => BitVec.ofNat 32 l, imm := none, word := 0 }
    else let x := s.readSpecial w n.toNat; { o := o, md := none, val := fun _ => x.extractLsb' 0 32, imm := none, word := x }
  | .q n => match pops.find? fun p => p.port == n.toNat with
    | some p => { o := o, md := some (tagMd p.tag), val := p.elem, imm := none, word := 0 }
    | none => { o := o, md := none, val := fun _ => 0, imm := none, word := 0 }
  | _ => { o := o, md := none, val := fun _ => 0, imm := none, word := 0 }

/-- The first poisoned source raises 0x07. -/
def srcsClean (m : Mask) (l : List Src) : Eff Unit :=
  match l.find? fun r => match r.md with | some md => mdPoison md | none => false with
  | some r => raise 0x07#6 (opndAddr r.o) (some m)
  | none => .ok ()

/-- The operand tag and the operand that gives it: the first V source. -/
def firstV (l : List Src) : Option (BitVec 32 × Opnd) := l.findSome? fun r => r.md.map fun md => (md, r.o)

/-- The tag checks of R111: every V source carries the operand tag, and the instruction accepts it. -/
def srcsTagged (l : List Src) (ok : Tag → Bool) : Eff Tag :=
  match firstV l with
  | none => raise 0x02#6
  | some (md, o) =>
    let t := mdTag md
    match l.find? fun r => match r.md with | some m => mdTag m != t | none => false with
    | some r => raise 0x05#6 (opndAddr r.o)
    | none => do demand (ok t) 0x05#6 (opndAddr o); pure t

/-- The operand that first gives a V source exists: an instruction without one raises 0x02 (spec/03 R110). -/
def namesV (s : State) (w : Nat) (os : List Opnd) : Bool :=
  os.any fun o => match o with | .v _ => true | .special n => n == 0#5 | .q n => s.portUsable w n.toNat false | _ => false

/-- The lane value of an immediate under a tag, with the flags of its rounding (spec/03 R110). -/
def immLane (env : FEnv) (t : Tag) (p : Nat) (x : Int) : Lane × Flags :=
  match tagFmt t with
  | some f =>
    let r := f.round env (.ofInt x)
    (laneOf t fun _ => r.1, r.2)
  | none =>
    if t == .modq then (BitVec.ofInt 32 (x % (p : Int)), 0)
    else if t == .i16x2 || t == .i8x4 then (laneOf t fun _ => wrapTo (tagWidth t) x, 0)
    else (BitVec.ofInt 32 x, 0)

/-- The value of a source in a lane under the operand tag, with the flags of converting an immediate. -/
def Src.lane (r : Src) (env : FEnv) (t : Tag) (p l : Nat) : Lane × Flags :=
  match r.imm with
  | some x => immLane env t p x
  | none => (r.val l, 0)

/-! Rings (spec/06 R238, R242 to R244) -/

/-- Byte offset of a position in the group's scratchpad. -/
def Ring.place (r : Ring) (pos : Nat) : Nat := r.off + 4 * (pos % r.cap)

/-- Take `n` elements from the head. -/
def Ring.take (r : Ring) (n : Nat) : Ring := { r with head := r.head + n, occ := r.occ.drop n }

/-- The element at a position lies in a lost sector (spec/15 R456). -/
def Group.elemLost (g : Group) (r : Ring) (pos : Nat) : Bool := g.spLost.contains (r.place pos / 32)

/-- The window address of a lost element at a position. -/
def Group.lostElem (g : Group) (r : Ring) (pos : Nat) : Option Nat := if g.elemLost r pos then some (windowBase + r.place pos) else none

/-- The element at a position: zero where it is lost. -/
def Group.elemAt (g : Group) (r : Ring) (pos : Nat) : Lane :=
  if g.elemLost r pos then 0 else BitVec.ofNat 32 (g.sp.readLe (r.place pos) 4)

def Group.modRing (g : Group) (i : Nat) (f : Ring → Ring) : Group := { g with rings := modifyAt g.rings i f }

/-- The logical lane's place among the lanes of a mask. -/
def rankIn (m : Mask) (l : Nat) : Nat := laneCount l m

/-- The outcome of the pops of an instruction. -/
structure PopOut where
  s : State
  m : Mask
  pops : List Popped
  /-- the instruction popped -/
  any : Bool

/-- The address of the lost element of the lowest lane served that has one (spec/15 R456). -/
def PopOut.lost (p : PopOut) : Option Nat := (lanesOf 1024 p.m).findSome? fun l => p.pops.findSome? fun q => q.lost l

/-- Metadata of a V register that lanes with lost elements write: poisoned (spec/15 R456). -/
def PopOut.poisons (p : PopOut) (md : BitVec 32) : BitVec 32 := if p.lost.isSome then md ||| 0x10000#32 else md

/-- A ring access waits: what it needs is kept for the eligibility rule. -/
def needs (s : State) (w ri : Nat) (push : Bool) (k : Nat) : State :=
  s.modWave w fun x => { x with sch.need := some (ri, push, k) }

/-- The oldest command of a stream engine waits for waves: before it begins, for an ordered atomic that is held; in progress, at its
ring, a fill for room, a drain for a unit or the end. -/
def State.ringBlocked (s : State) (c : Nat) (se : Bool) : Bool :=
  match ((s.core c).queue se).head? with
  | some x =>
    let r := (s.group x.group).ring x.a
    x.cancel.isNone && if !x.started then s.acquireWaits x.wave x.key x.o
    else match x.kind with
      | .rfill => x.claim.isNone && r.eos.isNone && decide (r.room < r.unit)
      | .rdrain => decide (r.count < r.unit) && r.beforeEos.isNone
      | _ => false
  | none => false

/-- Neither stream engine of a core can go on before a wave has come to a ring. -/
def State.enginesStill (s : State) (c : Nat) : Bool :=
  [false, true].all fun se => ((s.core c).queue se).isEmpty || s.ringBlocked c se

/-- In deterministic mode a command for which the engine's eighth command back, a collective, must have ended blocks once: other
ranks end it, at times of their own (spec/12 R393, R394; log entry 40). -/
def State.afterColl (s : State) (w : Nat) (se : Bool) : Bool :=
  let x := s.wave w
  (s.waveLaunch w).r.det && x.sch.waiting.isNone && !x.quietHandler && ((s.core x.id.core).sent.getD se.toNat []).getD 7 false

/-- The stall at a full queue whose commands go on without a wave, unless one of them waits for an ordered atomic that is held
(`stuck`). In deterministic mode the core waits for the engine: where it stands when the wave comes is timing, and no switch rests
on it (spec/12 R394, R397; log entry 40). -/
def State.fullQueue (s : State) (w : Nat) (stuck : Bool) : Why := if (s.waveLaunch w).r.det && !stuck then .busy else .queue

/-- A stream engine takes no command of a wave now: its eight slots are full (spec/06 R229). -/
def State.streamFull (s : State) (w : Nat) (se : Bool) : Bool :=
  decide (8 ≤ ((s.core (s.wave w).id.core).queue se).length) || s.afterColl w se

/-- A full stream engine goes on without a wave of the core. In deterministic mode the core waits for it: where the engines stand
when the wave comes is timing, and no switch rests on it (spec/12 R394, R397; log entry 40). -/
def State.streamGoesOn (s : State) (w : Nat) (se : Bool) : Bool :=
  let c := (s.wave w).id.core
  (s.waveLaunch w).r.det && !s.afterColl w se && !s.enginesStill c && !(((s.core c).queue se).head?.any fun x => x.kind == .coll)

/-- In deterministic mode an access to a ring that an engine command has named blocks once, whatever the ring holds, and is made
only when the core's stream engines can go no further without a wave: which wave takes an element, and where the elements of engines
and waves lie among each other, do not rest on when an engine acts (spec/06 R250; log entries 55 and 56). -/
def State.blocksOnce (s : State) (w : Nat) (r : Ring) : Bool :=
  (s.waveLaunch w).r.det && r.engine &&
    (((s.wave w).sch.waiting.isNone && !(s.wave w).quietHandler) || !s.enginesStill (s.wave w).id.core)

/-- Pop one port for the active lanes `m0`; `consume` is false for `qpeek`. -/
def popPort (consume : Bool) (s0 : State) (w : Nat) (m0 : Mask) (acc : PopOut) (n : Nat) : Eff PopOut :=
  match (s0.wave w).port n with
  | none => raise 0x02#6
  | some (ri, _) =>
    let g := acc.s.waveGroup w
    let r := g.ring ri
    let W := (s0.wave w).id.width
    let k := laneCount W m0
    if r.cap < k then raise 0x02#6 (opndAddr (.q (BitVec.ofNat 4 n)))
    else match r.popNow k with
      | none => .error (.stall .ring (needs s0 w ri false k))
      | some c =>
        if s0.blocksOnce w r then .error (.stall .ring (needs s0 w ri false k)) else
        let got := maskOf W fun l => m0.getLsbD l && decide (rankIn m0 l < c)
        let i := fun l => r.head + rankIn m0 l
        let p : Popped := { port := n, tag := r.tag, elem := fun l => g.elemAt r (i l), lost := fun l => g.lostElem r (i l) }
        .ok { s := if consume then acc.s.modGroup (s0.wave w).id.group fun g => g.modRing ri fun r => r.take c else acc.s,
              m := acc.m &&& got,
              pops := acc.pops ++ [p], any := true }

/-- The ports that the sources of an instruction name, each once. -/
def portsOf (os : List Opnd) : List Nat :=
  (os.filterMap fun o => match o with | .q n => some n.toNat | _ => none).eraseDups

/-- All pops of an instruction: every wait is over before any element is taken. Where it names two ports, each counts the active
lanes of the instruction, and the lanes served are those that both serve (DESIGN CHOICE: spec/06 R242 speaks of one port; log
entry 54). -/
def popAll (consume : Bool) (s : State) (w : Nat) (m : Mask) (os : List Opnd) : Eff PopOut :=
  (portsOf os).foldlM (popPort consume s w m) { s := s, m := m, pops := [], any := false }

/-- Push the values of the lanes `m`; `s0` is the state that a stall keeps (spec/06 R243). The publication is a release: the
stores queued before it are performed (R249). A lost sector stays lost under a push (DEDUCED from spec/15 R456: log entry 32). -/
def pushPort (s0 s : State) (w n : Nat) (m : Mask) (vals : Nat → Lane) : Eff State :=
  match (s.wave w).port n with
  | none => raise 0x02#6
  | some (ri, _) =>
    let g := s.waveGroup w
    let r := g.ring ri
    let ls := lanesOf (s.wave w).id.width m
    if r.cap < ls.length then raise 0x02#6 (opndAddr (.q (BitVec.ofNat 4 n)))
    else if r.eos.isSome || r.dropping then raise 0x12#6
    else if r.room < ls.length || s0.blocksOnce w r then .error (.stall .ring (needs s0 w ri true ls.length))
    else if s0.storesHeld w then .error (.stall .hold s0)
    else if s0.aodPending w then .error (.stall .settle s0)
    else
      let s := (s.performAll w).releaseInterval w
      let tail := r.head + r.occ.length
      let bytes := (ls.zipIdx).flatMap fun q => placed (r.place (tail + q.2)) (leBytes 4 (vals q.1).toNat)
      .ok (s.modGroup (s.wave w).id.group fun g =>
        { (g.modRing ri fun r => { r with occ := r.occ ++ List.replicate ls.length true }) with sp := g.sp.writeAll bytes })

/-! Results of lane-wise instructions -/

/-- What a lane-wise instruction of class 2 or 3 gives back: the state with every effect but those on its destination and
predicates, the destination's lane values and metadata, and predicates written. -/
structure LaneOut where
  s : State
  vals : Nat → Lane
  md : BitVec 32
  preds : List (BitVec 3 × Mask) := []
  /-- lanes that are written, where not the active ones -/
  lanes : Option Mask := none

/-- Write a lane-wise result: a V register, or a push. -/
def putLanes (s0 : State) (w : Nat) (m : Mask) (d : Opnd) (r : LaneOut) : Eff State := do
  let s := r.s
  let s ← match d with
    | .v n => .ok (s.modWave w fun x =>
        x.setV n.toNat (r.lanes.getD m) ((List.range x.id.width).map r.vals) r.md)
    | .q n => pushPort s0 s w n.toNat m r.vals
    | _ => .ok s
  pure (s.modWave w fun x => r.preds.foldl (fun y q => y.setP q.1 m q.2) x)

/-- A lane-wise instruction of class 2 or 3 over the lanes `base`: decode checks, guards, pops, its own body, its results. An
all-zero mask does nothing more than the decode checks (spec/03 R112); lanes that receive no element are inactive for the rest
(spec/06 R242). A lost element poisons a V destination; with none it raises 0x10 (spec/15 R456). `pe` is E where it may name the
predicate of a pop; none where E has a use of its own, and then a port raises 0x02. -/
def laneWise (s : State) (w : Nat) (base : Mask) (g : Guards) (checks : List (Opnd × Accept)) (extra : Bool) (d : Opnd)
    (srcs : List Opnd) (pe : Option (BitVec 4)) (body : State → Mask → List Src → Eff LaneOut) : Eff State := do
  checkOps s w checks
  demand extra 0x02#6
  demand (pe.isSome || !(isPort d || srcs.any isPort)) 0x02#6
  let m := base &&& guardBits g.ga (readP s w 0 g.ga.p) &&& guardBits g.gb (readP s w 1 g.gb.p)
  if m == 0 then pure s
  else do
    let po ← popAll true s w m srcs
    let s1 := if po.any then po.s.modWave w fun x => x.setP ((pe.getD 0).extractLsb' 0 3) m po.m else po.s
    if po.m == 0 then pure s1
    else do
      let rs := (srcs.zipIdx).map fun q => srcOf s w po.pops (q.2 + 1) q.1
      let out ← body s1 po.m rs
      demand (isV d || po.lost.isNone) 0x10#6 (BitVec.ofNat 64 (po.lost.getD 0))
      putLanes s w po.m d { out with md := po.poisons out.md }

end Sys2Proof.Machine
end

