-- ==== Sys2Proof/Machine/Flags.lean ====
section
/-! DEFINITION. Flags: carry and borrow of scalar sums, the sticky FP flags with trap 0x0B, and whole numbers in registers
with their limb-length trap (spec/02 R85, spec/03 R107, R108, R120, spec/07 R254, R255). -/

namespace Sys2Proof.Machine

/-- A + B + cin, and the carry (spec/02 R85). -/
def addCarry (a b : Word) (cin : Bool) : Word × Bool :=
  let t := a.toNat + b.toNat + cin.toNat
  (BitVec.ofNat 64 t, decide (2 ^ 64 ≤ t))

/-- A − B − cin, and the borrow. -/
def subBorrow (a b : Word) (cin : Bool) : Word × Bool :=
  (BitVec.ofInt 64 ((a.toNat : Int) - b.toNat - cin.toNat), decide (a.toNat < b.toNat + cin.toNat))

/-- Trap enables of AMR in the places of FFLAGS (spec/03 R101). -/
def trapEnables (amr : Word) : Flags := amr.extractLsb' 8 5

/-- The flags that the lanes of a mask raise enter FFLAGS; an enabled one raises 0x0B, which reports every flag and the lanes
that raised an enabled one (spec/03 R107, R108). -/
def settleFlags (s : State) (w : Nat) (m : Mask) (fl : Nat → Flags) : Eff State :=
  let x := s.wave w
  let ls := lanesOf x.id.width m
  let all := ls.foldl (fun acc l => acc ||| fl l) (0 : Flags)
  let en := trapEnables x.amr
  if all &&& en == 0 then .ok (if all == 0 then s else s.modWave w fun x => x.raiseFlags all)
  else raise 0x0B#6 (all.zeroExtend 64) (some (maskOf x.id.width fun l => m.getLsbD l && fl l &&& en != 0))

/-- Lane results with flags: each active lane computed once, the flags settled, the values kept. -/
def flagLanes (s : State) (w : Nat) (m : Mask) (md : BitVec 32) (f : Nat → Lane × Flags) : Eff LaneOut := do
  let tab := (List.range (s.wave w).id.width).map fun l => if m.getLsbD l then f l else (0, 0)
  let s' ← settleFlags s w m fun l => (tab.getD l (0, 0)).2
  pure { s := s', vals := fun l => (tab.getD l (0, 0)).1, md := md }

/-- Lane results without flags. -/
def plainLanes (s : State) (w : Nat) (m : Mask) (md : BitVec 32) (f : Nat → Lane) : LaneOut :=
  let tab := (List.range (s.wave w).id.width).map fun l => if m.getLsbD l then f l else 0
  { s := s, vals := fun l => tab.getD l 0, md := md }

/-! Whole numbers (spec/07 R254, R255) -/

/-- The capacity: the lowest dead position, or W. -/
def Wave.capacity (x : Wave) : Nat := ((List.range x.id.width).find? fun l => x.lc.dead.getLsbD l).getD x.id.width

/-- The magnitude held by the first `n` lanes. -/
def limbsNat (val : Nat → Lane) (n : Nat) : Nat :=
  (List.range n).foldr (fun i acc => (val i).toNat + 2 ^ 32 * acc) 0

/-- Val of a limb-tagged register; a zero magnitude has no sign. -/
def wholeVal (md : BitVec 32) (val : Nat → Lane) (w : Nat) : Int :=
  let m := limbsNat val (min (mdLen md) w)
  if mdSign md then -(m : Int) else m

/-- Limbs of a magnitude. -/
def limbCount (n : Nat) : Nat := if n = 0 then 0 else (Nat.log2 n) / 32 + 1

/-- Lane i of a magnitude. -/
def limbAt (n i : Nat) : Lane := BitVec.ofNat 32 (n >>> (32 * i))

/-- The metadata of a normal whole number. -/
def limbMd (v : Int) : BitVec 32 := mkMd .limb (limbCount v.natAbs) (decide (v < 0)) false 0

/-- The whole number that a source gives (spec/03 R120). -/
def Src.whole (r : Src) (w : Nat) : Int :=
  match r.md with
  | some md => wholeVal md r.val w
  | none => r.word.toInt

/-- A limb source longer than the capacity raises 0x18 (spec/07 R255). -/
def limbSources (s : State) (w : Nat) (l : List Src) : Eff Unit :=
  let cap := (s.wave w).capacity
  match l.find? fun r => match r.md with | some md => mdTag md == .limb && decide (cap < mdLen md) | none => false with
  | some r => raise 0x18#6 (BitVec.ofNat 64 (mdLen (r.md.getD 0)))
  | none => .ok ()

/-- A whole-number result: normal, written to every position below the capacity; one that needs more raises 0x18. -/
def limbResult (s : State) (w : Nat) (v : Int) : Eff LaneOut := do
  let cap := (s.wave w).capacity
  demand (decide (limbCount v.natAbs ≤ cap)) 0x18#6 (BitVec.ofNat 64 (limbCount v.natAbs))
  pure { s := s, vals := limbAt v.natAbs, md := limbMd v, lanes := some (allLanes cap) }

end Sys2Proof.Machine
end

