-- ==== Sys2Proof/Machine/Flow.lean ====
section
/-! DEFINITION. Branches with rotation, the end of a wave as an instruction makes it, and arrival at member-set instructions
(spec/02 R72 to R74, R81; spec/05 R195 to R200; spec/12 R395). -/

namespace Sys2Proof.Machine

/-! The end of a wave (spec/02 R78, R81, spec/15 R446) -/

/-- The end of a wave as an instruction makes it: drained first. -/
def endNow (s : State) (w : Nat) : Eff State := do
  demandDrained s w
  pure (s.leave w)

/-! Branches -/

/-- Branch(T) of the current path, after the effect `eff`: alignment, the backward count with its livelock trap in
deterministic mode, and rotation (spec/02 R72, R73, spec/05 R195, spec/12 R395). -/
def branchTo (s : State) (w : Nat) (t : Word) (eff : State → State) : Eff State := do
  let x := s.wave w
  demand (t.extractLsb' 0 3 == 0#3) 0x11#6 t
  let go := fun (s : State) => (eff s).modWave w fun y => y.goto { hdr := t, idx := 0 }
  if x.hdr.toNat < t.toNat then pure (go s)
  else
    let n := x.sch.backward + 1
    if (s.waveLaunch w).r.det && decide (2 ^ 20 ≤ n) then
      .error (.done ((s.modWave w fun y => { y with sch.backward := 0 }).trapped w { code := 0x14#6 }))
    else
      let s := (go s).modWave w fun y => ({ y with sch.backward := n } : Wave).rotate
      pure (if (s.wave w).cur == x.cur then s else s.pathSlot w)

/-- The target that a signed offset of the clause names (spec/02 R72, spec/05 R189). -/
def Wave.target (x : Wave) (off : Int) : Word := x.hdr + BitVec.ofInt 64 (8 * off)

/-! Member sets (spec/05 R197 to R200) -/

/-- The current path arrives at a member-set instruction that names `v`: the participants, when the set is complete
(spec/05 R198, R200). -/
def gather (s : State) (w : Nat) (v : Word) : Eff Mask :=
  let x := s.wave w
  let m := x.members v
  let ws := x.waiters
  let all := ws.foldl (fun acc i => acc ||| (x.lc.paths.getD i PathRec.none).mask) x.exec
  if x.path.due == some (x.pos, false) then raise 0x08#6 x.path.mset
  else if m &&& x.lc.exited != 0 || x.exec &&& ~~~ m != 0 ||
      ws.any (fun i => x.members (x.lc.paths.getD i PathRec.none).mset != m) then raise 0x08#6 v
  else if m &&& ~~~ all == 0 then .ok all
  else
    let k := x.cur
    let others := x.lc.paths.any fun p => p.st == .pend
    let lower := (x.lc.paths.take k).any fun p => p.st == .mwait
    if !others && !lower then raise 0x08#6 v
    else
      let y := x.modPath k fun p => { p with st := .mwait, mset := v }
      .error (.done ((s.setWave w ((y.select k).getD x)).pathSlot w).tick)

/-- The set is complete: the waiting paths become PEND at the next index, and the current path moves on (spec/05 R200). -/
def Wave.release (x : Wave) : Wave :=
  let y := x.waiters.foldl (fun y i => y.modPath i fun p => { p with st := .pend, pos := x.after }) x
  y.advance

/-- Issue a member-set instruction. -/
def issueMembers (s : State) (f : Nat → Eff State) : Out := issueWith s Wave.release f


end Sys2Proof.Machine
end

