-- ==== Sys2Proof/Machine/Checked.lean ====
section
/-! DEFINITION. What checked and rerunnable groups add to instructions: store-stream signatures, arrival at a commit point,
forcing instructions, and results that the primary copy forwards to its twin (spec/15 R443 to R451). -/

namespace Sys2Proof.Machine

/-- One record of a signature: an address, the access size and the data bytes (spec/15 R445). -/
structure SigRec where
  addr : Nat
  size : Nat
  bytes : List Byte
deriving DecidableEq, Repr

/-- The bytes of a record: the address, the size, the data. -/
def SigRec.flat (r : SigRec) : List Byte := leBytes 8 r.addr ++ leBytes 1 r.size ++ r.bytes

/-- Records enter SIG of a wave of a staged group. -/
def State.sign (s : State) (w : Nat) (rs : List SigRec) : State :=
  if s.staged (s.wave w).id.group then
    s.modWave w fun x => { x with mem.sig := crc64From x.mem.sig (rs.flatMap SigRec.flat) }
  else s

/-- CRC of an engine command's number, with which its record stream begins. -/
def numCrc (num : BitVec 32) : Word := crc64 (leBytes 4 num.toNat)

/-- A write of an engine command enters its CRC, which begins with the command's number. -/
def stepCrc (num : BitVec 32) (crc : Option Word) (addr : Nat) (bs : List Byte) : Option Word :=
  some (crc64From (crc.getD (numCrc num)) (SigRec.flat { addr := addr, size := bs.length, bytes := bs }))

/-- The CRC of a completed command that wrote enters ESIG of its wave. -/
def State.signCommand (s : State) (w : Nat) (crc : Option Word) : State :=
  if s.staged (s.wave w).id.group then s.modWave w fun x => { x with mem.esig := x.mem.esig + crc.getD 0 } else s


/-- A wave of a staged group arrives at a commit point and waits there: drained first (spec/15 R446). -/
def arriveAt (s : State) (w : Nat) (k : Arrive) : Eff State := do
  demandDrained s w
  .error (.stall .commit (s.modWave w fun x => { x with sch.arrived := some k }))

/-- A forcing instruction: at once in a plain group; in a staged one the wave arrives, and the commit performs the act
(spec/15 R446, R448). -/
def forced (s : State) (w : Nat) (act : State → Nat → Eff State) : Eff State :=
  if s.staged (s.wave w).id.group then arriveAt s w .forcing else act s w

/-- A wave takes signature trap 0x16 where it stands, its word fetched for TWORD (spec/15 R452). -/
def State.signatureTrap (s : State) (w : Nat) (addr : Word) : State :=
  let x := s.wave w
  if !x.resident then s
  else
    let s := match s.unitRead w (x.hdr + BitVec.ofNat 64 (8 * (x.pos.idx + 1))).toNat .fetch with
      | some (s', word) => s'.modWave w fun y => { y with word := word }
      | none => s
    s.trapped w { code := 0x16#6, addr := addr }

/-- A mismatch between the copies of a group, found at its wave `i`; `place` says that only the positions or the kinds of arrival
differed. Both copies run again; the third one in a commit interval is a trap in every wave instead (spec/15 R452). -/
def State.mismatch (s : State) (g i : Nat) (place : Bool) : State :=
  let n := (s.group g).mismatches + 1
  let s := s.rerun g
  let both := g :: (s.group g).sibling.toList
  let s := both.foldl (fun s h => s.modGroup h fun x => { x with mismatches := if n < 3 then n else 0 }) s
  if n < 3 then s
  else (both.flatMap fun h => (s.group h).waves).foldl (fun s w =>
    s.signatureTrap w (BitVec.ofNat 64 (i % 16 + (if place then 16 else 0)))) s

/-- The oldest result that a twin has been told for an instruction of its mode, and the rest: of a heap command where `heap` says so,
of another operation otherwise. The copies may take an event at different instructions, so that a handler's results and the
program's do not come in one order (spec/15 R451). -/
def Wave.toldOf (x : Wave) (heap : Bool) : Option (Fwd × List Fwd) :=
  (x.fwd.findIdx? fun f => f.hm == x.tr.hm && (f.what != 0) == heap).bind fun i => x.fwd[i]?.map fun f => (f, x.fwd.eraseIdx i)

/-- The same of an operation other than a heap command. -/
def Wave.told (x : Wave) : Option (Fwd × List Fwd) := x.toldOf false

/-- An operation whose result the primary forwards: a twin takes it from its queue or waits; `produce` performs it and
gives what both copies receive; `receive` puts that into a wave (spec/15 R451). -/
def forwarded (s : State) (w : Nat) (produce : State → Nat → Eff (State × Fwd)) (receive : State → Nat → Fwd → Eff State) :
    Eff State :=
  if (s.waveGroup w).copy == .twin then
    match (s.wave w).told with
    | none => .error (.stall (.twin (s.wave w).atListed) s)
    | some (f, rest) =>
      let s := s.modWave w fun x => { x with fwd := rest }
      match f.trap with
      | some (c, a) => .error (.done (s.trapped w { code := c, addr := a, resume := c == 0x0E#6 }))
      | none => receive s w f
  else
    let hm := (s.wave w).tr.hm
    let tell := fun (s : State) (f : Fwd) => match s.twinOf w with
      | some t => s.modWave t fun x => { x with fwd := x.fwd ++ [{ f with hm := hm }] }
      | none => s
    match produce s w with
    | .ok (s', f) => receive (tell s' f) w f
    | .error (.trap t) => .error (.done ((tell s { val := 0, pred := false, trap := some (t.code, t.addr) }).trapped w t))
    | .error e => .error e

/-- Post a command's event, to both copies where the command is shared. -/
def State.postShared (s : State) (w : Nat) (shared : Bool) (status source : BitVec 8) (num : BitVec 32) : State :=
  let s := s.postEvent w status source num
  if shared then match s.twinOf w with
    | some t => s.postEvent t status source num
    | none => s
  else s

end Sys2Proof.Machine
end

