-- ==== Sys2Proof/Machine/Fetch.lean ====
section
/-! DEFINITION. Fetching headers and instruction words, clause start with its checks, waits and switch opportunity, and the
stall of a demand fault (spec/02 R46 to R57, R72; spec/13 R404, R405). -/

namespace Sys2Proof.Machine

/-! Demand faults -/

/-- Demand fetches for the faulting addresses of an instruction: all started; the first address whose fetch fails. -/
def State.demandFetches (s : State) (w : Nat) (vas : List (Nat × Nat)) : State × Option (Nat × Nat) :=
  let x := s.wave w
  vas.foldl (fun acc q =>
    match acc.1.fetchPage x.id.part x.id.ctx q.2 (s.waveDie w) false with
    | (s', .status 0) => (s', acc.2)
    | (s', .status _) => (s', acc.2.or (some q))
    | (s', .wait) => (s', acc.2)) (s, none)

/-- An instruction whose faulting lanes all wait for tiered pages stalls and is replayed; one whose fetch fails raises 0x10
(spec/13 R404, R405). The list holds lanes with their addresses, lowest lane first. -/
def demandFault {α : Type} (s : State) (w : Nat) (vas : List (Nat × Nat)) (lanes : Option Mask) : Eff α :=
  match s.demandFetches w vas with
  | (s', none) => .error (.stall .fault s')
  | (s', some _) => .error (.done (s'.trapped w { code := 0x10#6, addr := BitVec.ofNat 64 (vas.headD (0, 0)).2, lanes := lanes }))

/-- The place of one access that is not lane-wise: 0x10 where it cannot be made, the demand stall where its page is tiered
(spec/04 R136, R137, spec/13 R404). -/
def placeOf (s : State) (w va n : Nat) (want : Want) : Eff (State × Loc) :=
  let x := s.wave w
  let d := s.waveDie w
  if 2 ^ 57 ≤ va then raise 0x10#6 (BitVec.ofNat 64 va)
  else if inWindow va then
    if va - windowBase + n ≤ (s.waveGroup w).spb then .ok (s, .sp (va - windowBase)) else raise 0x10#6 (BitVec.ofNat 64 va)
  else match s.translate d x.id.part x.id.ctx va want with
    | .error .bad => raise 0x10#6 (BitVec.ofNat 64 va)
    | .error (.tiered ..) => demandFault s w [(0, va)] none
    | .error .held => .error (.stall .hold s)
    | .ok (s', pa) => .ok (s', .mem pa)

/-! Fetching words -/

/-- The instruction or header word at a virtual address (spec/02 R46, R72): unpredictable once the launch has stored to its
code object; a lost sector raises 0x10 (spec/15 R456). -/
def fetchWord (s : State) (w : Nat) (va : Word) : Eff (State × Word) := do
  let (s', l) ← placeOf s w va.toNat 8 .fetch
  match l with
  | .sp off => do
    demand (!((s'.waveGroup w).spLost.contains (off / 32))) 0x10#6 va
    pure (s', BitVec.ofNat 64 ((s'.waveGroup w).sp.readLe off 8))
  | .mem pa =>
    demand (!s'.lostAt pa) 0x10#6 va
    if (s'.waveLaunch w).codeTouched then pure (s', Config.freeWord s'.fresh 50 va.toNat)
    else pure (s', BitVec.ofNat 64 (s'.mem.readLe pa 8))

/-- `n` consecutive words. -/
def fetchWords (s : State) (w : Nat) : Nat → Word → Eff (State × List Word)
  | 0, _ => .ok (s, [])
  | n + 1, va => do
    let (s', x) ← fetchWord s w va
    let (s'', xs) ← fetchWords s' w n (va + 8)
    pure (s'', x :: xs)

/-- The address of the instruction at the wave's position. -/
def Wave.wordAddr (x : Wave) : Word := x.hdr + BitVec.ofNat 64 (8 * (x.pos.idx + 1))

/-- What the sequencer checks of a clause's words when it fetches the header (spec/02 R48, R50, R56). -/
def clauseOk (h : Header) (ws : List Word) (checked : Bool) : Bool :=
  ws.all (fun x => x.extractLsb' 56 8 != 0xFC#8) &&
  (h.cls == 15#4 || ws.all fun x => x.extractLsb' 60 4 == h.cls) &&
  (ws.dropLast.all fun x => !wordLastOnly x) &&
  (!checked || crc16 (ws.flatMap fun x => leBytes 8 x.toNat) == h.crc)

/-- The waits of a header are met (spec/02 R51). -/
def Wave.waitsMet (x : Wave) (ld st cp tl : BitVec 6) : Bool :=
  [(Cls.ld, ld), (.st, st), (.cp, cp), (.tl, tl)].all fun q => q.2 == 63#6 || decide (x.outstanding q.1 ≤ q.2.toNat)

/-- A trap reported at a header (spec/02 R57, spec/11 R345). -/
def headerTrap (code : BitVec 6) (addr word : Word) : TrapReq := { code := code, addr := addr, hdr := some word }

/-- Another ready wave of the core has waited 4096 issue slots (spec/02 R54). -/
def State.agedRival (s : State) (w : Nat) : Bool :=
  let c := (s.wave w).id.core
  (s.wavesOf c).any fun v => v != w && (s.wave v).sch.stall.isNone && decide (4096 ≤ (s.core c).slots - (s.wave v).sch.readyAt)

/-- The sequencer chooses anew at a clause start; the running wave takes part as one that is ready from now. -/
def State.choiceAt (s : State) (w : Nat) : State :=
  let c := (s.wave w).id.core
  let slots := (s.core c).slots
  (s.modWave w fun x => { x with sch.y := true, sch.readyAt := slots }).switch c

/-- The clause starts: its COUNT is known. -/
def State.startClause (s : State) (w : Nat) (h : Header) : State :=
  s.modWave w fun x => { x with sch.started := true, sch.count := h.count, sch.y := false }

/-- A clause start: the header and its words are fetched and checked, the waits applied unless the clause is resumed, and in
normal mode a switch opportunity taken where the clause is entered at its header (spec/02 R51, R53, R54, R55). A resumed position
whose index is not below COUNT, which only a handler's writes can give, is an illegal clause: 0x03 at the header (DESIGN CHOICE:
spec/02 R46 says only that the index runs to COUNT−1; log entry 54). -/
def State.beginClause (s : State) (w : Nat) : State :=
  let x := s.wave w
  let fail := fun (e : Stop) => match e with
    | .trap t => (s.trapped w (headerTrap t.code t.addr (Config.freeWord s.fresh 51 x.hdr.toNat)))
    | .stall why s' => (s'.stallWave w why).tick
    | .done s' => s'
    | .fault _ => s
  match fetchWord s w x.hdr with
  | .error e => fail e
  | .ok (s', hw) =>
    match Header.ofWord hw with
    | none => s'.trapped w (headerTrap 0x03#6 0 hw)
    | some h =>
      match fetchWords s' w h.count (x.hdr + 8) with
      | .error e => fail e
      | .ok (s', ws) =>
        if !clauseOk h ws (s'.waveLaunch w).r.chk || decide (h.count ≤ x.pos.idx) then s'.trapped w (headerTrap 0x03#6 0 hw)
        else if !x.sch.resume && !x.waitsMet h.wld h.wst h.wcp h.wtl then (s'.stallWave w .clause).tick
        else
          let det := (s'.waveLaunch w).r.det
          if !det && !x.sch.y && !x.sch.resume && (h.y || s'.agedRival w) then
            let s' := s'.choiceAt w
            if (s'.core x.id.core).running == some w then (s'.startClause w h).tick else s'.tick
          else (s'.startClause w h).tick

/-- A wave that runs on its core and is neither stalled nor within a clause. -/
def State.atClauseStart (s : State) (w : Nat) : Bool :=
  let x := s.wave w
  decide (w < s.waves.length) && x.resident && x.sch.stall.isNone && !x.sch.started &&
    (s.core x.id.core).running == some w

/-- CLAUSE_START (spec/02 R51). -/
def execClauseStart (wv : Nat) (s : State) : Out :=
  if s.atClauseStart wv then .next (s.beginClause wv) else .next s

/-- AGING_LIMIT (spec/02 R54): a clause start becomes a switch opportunity because another wave has waited 4096 slots. -/
def execAgingLimit (wv : Nat) (s : State) : Out :=
  if s.atClauseStart wv && !(s.waveLaunch wv).r.det && !(s.wave wv).sch.y && s.agedRival wv then .next (s.choiceAt wv).tick
  else .next s

end Sys2Proof.Machine
end

