-- ==== Sys2Proof/Machine/Store.lean ====
section
/-! DEFINITION. A wave's store queue and the bytes that its loads see (spec/04 R168, R169, R171; spec/15 R444, R456). -/

namespace Sys2Proof.Machine

/-- A byte of the newest queued store that holds it. -/
def queuedByte (sp : Bool) (a : Nat) : List QStore → Option Byte
  | [] => none
  | q :: t => match queuedByte sp a t with
    | some b => some b
    | none => if q.sp == sp then overlayRead q.bytes.reverse a else none

/-- The byte that a load of the wave obtains: its own queued stores first, then what its group has staged, then what its core
reads (spec/04 R150, R168, spec/15 R444). -/
def State.waveByte (s : State) (w : Nat) (l : Loc) : Byte :=
  match queuedByte l.isSp l.num (s.wave w).mem.storeQ with
  | some b => b
  | none => match l with
    | .sp off => (s.waveGroup w).sp.read off
    | .mem pa => match overlayRead (s.waveGroup w).staging pa with
      | some b => b
      | none => s.coreByte (s.wave w).id.core pa

/-! L1 (spec/04 R135, R138, R169) -/

/-- Sectors that the L1 of a core holds at most. -/
def State.l1Sectors (s : State) (c : Nat) : Nat := 2048 * (s.part (s.core c).part).l1share

/-- A sector may enter L1: no host memory, not lost, reachable. -/
def State.cacheable (s : State) (d k : Nat) : Bool :=
  s.mapped (32 * k) && !s.isHost (32 * k) && !s.lost.contains k && s.reach d (32 * k) == .ok

/-- A sector is fetched into the L1 of a core; beyond its size the oldest leave. -/
def State.l1Fill (s : State) (c k : Nat) : State :=
  if s.cacheable (s.dieOfCore c) k then
    s.modCore c fun x => { x with l1 := ((k, s.mem.readN (32 * k) 32) :: x.l1.filter fun q => q.1 != k).take (s.l1Sectors c) }
  else s

/-- A load of the physical bytes `pas` meets the core's L1: at `.wave` or `.core` an absent sector is fetched, and a copy older
than the home point serves the load or is fetched anew, as drawn (log entry 12); a wider load drops the copies, and an acquire at a
wider scope every line. -/
def State.l1Load (s : State) (w : Nat) (sc : Scope) (acq : Bool) (pas : List Nat) : State :=
  let c := (s.wave w).id.core
  let ks := (pas.map (· / 32)).eraseDups
  if s.l1Sectors c = 0 then s
  else if Scope.wide sc then (if acq then s.l1Clear c else s.l1Drop c ks)
  else ks.foldl (fun s k => match (s.core c).l1.find? fun q => q.1 == k with
    | none => s.l1Fill c k
    | some q => if q.2 == s.mem.readN (32 * k) 32 || s.draw 61 k 2 == 0 then s else s.l1Fill c k) s

/-- The physical bytes of places. -/
def placeBytes (ls : List Loc) (n : Nat) : List Nat :=
  ls.flatMap fun l => match l with
    | .mem pa => (List.range n).map (pa + ·)
    | .sp _ => []


def State.waveRead (s : State) (w : Nat) (l : Loc) (n : Nat) : List Byte := (List.range n).map fun i => s.waveByte w (l.plus i)

def State.waveLe (s : State) (w : Nat) (l : Loc) (n : Nat) : Nat := leValue (s.waveRead w l n)

/-- Some byte of a place lies in a lost sector and no newer byte stands before it (spec/15 R456). -/
def State.lostPlace (s : State) (w : Nat) (l : Loc) (n : Nat) : Bool :=
  let x := s.wave w
  (List.range n).any fun i =>
    (queuedByte l.isSp (l.plus i).num x.mem.storeQ).isNone &&
    match l.plus i with
    | .sp o => (s.group x.id.group).spLost.contains (o / 32)
    | .mem p => s.lostAt p && (overlayRead (s.group x.id.group).staging p).isNone

/-- A store enters the wave's queue. -/
def Wave.enqueue (x : Wave) (q : QStore) : Wave := { x with mem.storeQ := x.mem.storeQ ++ [q] }

/-- STORE_PERFORM: the results of atomics that the core has on their way, then the wave's oldest store (spec/04 R150, R169). -/
def execStorePerform (wv : Nat) (s : State) : Out :=
  event s (s.alive (s.wave wv).id.part && !s.storesHeld wv && s.onItsWay wv) fun s =>
    (s.performOut (s.wave wv).id.core).performOne wv

/-- An operation completes: its registers are written and its counter falls. -/
def Wave.finish (x : Wave) (p : Pend) : Wave :=
  ({ x with mem.outst := x.mem.outst.erase p, sch.raced := x.sch.raced.filter fun q => q.1.key != some p.key } : Wave).applyDests p.dests

/-- COUNTED_OPERATION_COMPLETE: the oldest operation of a class has completed; its registers are written and the counter falls
(spec/01 R19, R21). CP stands still while the partition is pre-empted (spec/11 R355, spec/12 R392); of TL the commands that have not
completed do, and a handler's matrix commands complete (spec/09 R315). -/
def execCountedOperationComplete (wv : Nat) (cls : Cls) (s : State) : Out :=
  match (s.wave wv).mem.outst.find? fun p => p.cls == cls with
  | some p =>
    event s (p.ready && s.alive (s.wave wv).id.part &&
      (cls != .cp || !s.engineHeld (s.wave wv).id.group)) fun s => s.modWave wv fun x => x.finish p
  | none => .next s

end Sys2Proof.Machine
end

