-- ==== Sys2Proof/Machine/Layouts.lean ====
section
/-! DEFINITION. Layout records, their boxes and cells, placement in scratchpad and conversion, and the accesses that an engine
makes (spec/06 R218 to R224, R231, R234). A cell is the unit in which a box is moved: an element, or, for E2M1, the two
elements of a byte, and, for an MXFP6 block moved whole, one of its bytes. -/

namespace Sys2Proof.Machine

/-! Records (spec/06 R218 to R224) -/

/-- Bytes of a cell in memory. -/
def sfmtBytes (f : Nat) : Nat := if f ≤ 2 then 4 else if f ≤ 5 then 2 else 1

/-- Alignment that BASE and strides keep. -/
def sfmtAlign (f : Nat) : Nat := if f = 13 ∨ f = 14 then 32 else sfmtBytes f

def Layout.align (l : Layout) : Nat := sfmtAlign l.sfmt

/-- Elements in a cell along dimension 0. -/
def Layout.perCell (l : Layout) : Nat := if l.sfmt == 12 then 2 else 1

/-- Bytes of a cell in scratchpad: os, by CONV (spec/06 R220). -/
def Layout.os (l : Layout) : Nat := if l.conv == 1 then 2 else if l.conv == 2 then 1 else sfmtBytes l.sfmt

/-- Cells along a dimension of the box, and of the tensor. -/
def Layout.ext (l : Layout) (d : Nat) : Nat := if d = 0 then l.boxes.getD 0 1 / l.perCell else l.boxes.getD d 1
def Layout.size (l : Layout) (d : Nat) : Nat := if d = 0 then l.sizes.getD 0 0 / l.perCell else l.sizes.getD d 0

/-- Extents of the five dimensions. -/
def Layout.exts (l : Layout) : List Nat := (List.range 5).map l.ext

/-- gd: boxes along a dimension (spec/06 R223). -/
def Layout.grid (l : Layout) (d : Nat) : Nat := if d < l.rank then (l.size d + l.ext d - 1) / l.ext d else 1

def productOf (l : List Nat) : Nat := l.foldl (· * ·) 1

/-- N_b. -/
def Layout.nBoxes (l : Layout) : Nat := productOf ((List.range 5).map l.grid)

/-- Cells of a box, and Bb. -/
def Layout.boxCells (l : Layout) : Nat := productOf l.exts
def Layout.boxBytes (l : Layout) : Nat := l.os * l.boxCells

/-- The output format of a source layout after CONV, as SFMT names it. -/
def Layout.outFmt (l : Layout) : Nat := if l.conv == 1 then 3 else if l.conv == 2 then 6 else l.sfmt

/-- The record of 64 bytes, its BASE replaced where one is given. -/
def Layout.ofBytes (bs : List Byte) (base : Option Word) : Layout :=
  let f := fieldOf bs
  let rk := f 53 1
  let bxl := rk.testBit 3
  let box := fun d => f (48 + d) 1
  let auto := f 56 4
  let mc := f 60 4
  { base := base.getD (BitVec.ofNat 64 (f 0 8)), rank := rk % 8 + 1,
    sizes := (List.range 5).map fun d => f (8 + 4 * d) 4,
    strides := (List.range 5).map fun d => if d = 0 then 0 else signedOf 40 (f (23 + 5 * d) 5),
    boxes := (List.range 5).map fun d => if d = 0 ∧ bxl then 2 ^ (box 0 % 32) else box d + 1,
    bxl := bxl, box0 := box 0, sfmt := f 54 1 % 16, conv := f 55 1 % 4, swz := bitsOf (f 55 1) 4 2,
    logn := bitsOf auto 22 18, g := bitsOf auto 17 0,
    dies := BitVec.ofNat 4 mc, qlo := bitsOf mc 9 4, qcnt := bitsOf mc 15 10, cores := BitVec.ofNat 4 (mc / 2 ^ 16) }

/-- Reserved bits of a record are zero. -/
def layoutReserved (bs : List Byte) : Bool :=
  let f := fieldOf bs
  decide (f 53 1 < 16) && decide (f 54 1 < 16) && decide (f 55 1 < 32) && decide (f 56 4 < 2 ^ 23) && decide (f 60 4 < 2 ^ 20)

/-- SIZE, STRIDE and BOX of each dimension: given below RANK, zero from RANK on. -/
def Layout.dimsOk (l : Layout) (raw : Nat → Nat) : Bool :=
  (List.range 5).all fun d =>
    if d < l.rank then decide (0 < l.sizes.getD d 0) && (d == 0 || l.strides.getD d 0 % (l.align : Int) == 0)
    else l.sizes.getD d 0 == 0 && l.strides.getD d 0 == 0 && raw d == 0

/-- A record obeys R218 to R224. -/
def Layout.ok (l : Layout) (bs : List Byte) : Bool :=
  let b0 := l.boxes.getD 0 1
  let s0 := l.sizes.getD 0 0
  layoutReserved bs && l.base.extractLsb' 57 7 == 0#7 && decide (l.rank ≤ 5) && (!l.bxl || decide (l.box0 ≤ 17)) &&
  l.dimsOk (fun d => fieldOf bs (48 + d) 1) &&
  l.sfmt != 10 && l.sfmt != 11 && l.conv != 3 && decide (l.swz ≤ 4) && l.base.toNat % l.align == 0 &&
  (l.sfmt != 12 || (s0 % 2 == 0 && b0 % 2 == 0)) &&
  ((l.sfmt != 13 && l.sfmt != 14) || (s0 % 32 == 0 && b0 % 32 == 0)) &&
  (l.conv == 0 || l.sfmt == 13 || l.sfmt == 14) &&
  (l.swz == 0 || (l.os * l.ext 0) % (16 * 2 ^ (l.swz + 1)) == 0) &&
  (if l.logn == 0 then l.g == 0
   else decide (10 ≤ l.logn) && decide (l.logn ≤ 17) && l.sfmt == 1 && l.bxl && l.box0 == l.logn && s0 == 2 ^ l.logn &&
     l.g % 2 == 1 && decide (l.g < 2 ^ (l.logn + 1)) && l.conv == 0)

/-! Cells and places (spec/06 R219, R222, R223) -/

/-- Mixed-radix digits of a number, the first fastest; the last digit keeps what is left. -/
def digitsOf : List Nat → Nat → List Nat
  | [], _ => []
  | [_], n => [n]
  | r :: rs, n => n % r :: digitsOf rs (n / r)

/-- The number with given digits. -/
def ofDigits : List Nat → List Nat → Nat
  | r :: rs, d :: ds => d + r * ofDigits rs ds
  | _, _ => 0

/-- y0 after the AUTO permutation (spec/06 R222). -/
def Layout.permute (l : Layout) (y0 : Nat) : Nat :=
  if l.logn == 0 then y0 else (y0 * l.g % 2 ^ (l.logn + 1)) % 2 ^ l.logn

/-- Tensor coordinates of cell `i` of box `b`. -/
def Layout.coords (l : Layout) (b i : Nat) : List Nat :=
  let c := digitsOf ((List.range 5).map l.grid) b
  let y := digitsOf l.exts i
  (List.range 5).map fun d => c.getD d 0 * l.ext d + y.getD d 0

def Layout.inTensor (l : Layout) (x : List Nat) : Bool :=
  (List.range 5).all fun d => if d < l.rank then decide (x.getD d 0 < l.size d) else x.getD d 0 == 0

/-- The address of the cell at tensor coordinates; for an MXFP6 code that is converted, that of its block. -/
def Layout.address (l : Layout) (x : List Nat) : Nat :=
  let x0 := x.getD 0 0
  let off0 : Int := if l.conv != 0 then (32 * (x0 / 32) : Nat) else (x0 * sfmtBytes l.sfmt : Nat)
  let off := (List.range 5).foldl (fun acc d => if d = 0 then acc else acc + (x.getD d 0 : Int) * l.strides.getD d 0) off0
  (l.base + BitVec.ofInt 64 off).toNat

/-- The addresses of the cells of a box in box order: none outside the tensor. -/
def Layout.cells (l : Layout) (b : Nat) : List (Option (Nat × Nat)) :=
  (List.range l.boxCells).map fun i =>
    let x := l.coords b i
    if l.inTensor x then some (l.address x, x.getD 0 0) else none

/-- Bytes that a cell occupies in memory as it is read. -/
def Layout.readBytes (l : Layout) : Nat := if l.conv != 0 then 32 else sfmtBytes l.sfmt

/-- The byte offset of cell `i` in the placed image of its box (spec/06 R222). -/
def Layout.offset (l : Layout) (i : Nat) : Nat :=
  let y := digitsOf l.exts i
  let o := l.os * ofDigits l.exts (l.permute (y.getD 0 0) :: y.drop 1)
  if l.swz == 0 then o
  else
    let p := 2 ^ (l.swz + 1)
    let lr := l.os * l.ext 0
    let row := o / lr
    row * lr + 16 * ((o % lr / 16) ^^^ (row % p)) + o % 16

/-! Conversion (spec/06 R220, R221) -/

/-- The value of E8M0 scale `e` times a code, rounded into BF16 or E4M3; mode 5 counts as mode 0. -/
def mxValue (l : Layout) (amr : Word) (code e : Nat) : Nat :=
  let env := FEnv.ofAmr amr
  let out := if l.conv == 1 then Fmt.bf16 else Fmt.e4m3
  if e == 255 then (if l.conv == 1 then 0x7FC0 else 0x7F)
  else
    let f := if l.sfmt == 13 then Fmt.e2m3 else Fmt.e3m2
    match f.decode env.flushIn code with
    | .num neg m x => (out.round env (.num neg m (x + (e : Int) - 127))).1
    | v => (out.round env v).1

/-- The bytes that a cell gives a scratchpad image or a destination: converted, an MXFP6 code of its block; else as they are, but for
bytes 25 to 31 of an MXFP6 block, which are zero (spec/06 R220).
`x0` is the cell's place along dimension 0. -/
def Layout.convert (l : Layout) (amr : Word) (x0 : Nat) (bs : List Byte) : List Byte :=
  if l.conv == 0 then (if (l.sfmt == 13 || l.sfmt == 14) && decide (25 ≤ x0 % 32) then [0#8] else bs)
  else leBytes l.os (mxValue l amr ((leValue (bs.take 24) >>> (6 * (x0 % 32))) % 64) (fieldOf bs 24 1))

/-! The accesses of an engine (spec/06 R231, R234, R236) -/

/-- Why an engine's step does not come to its end: the command stops with a status, or the step waits on a link. -/
inductive EngStop where
  | status (st : BitVec 8)
  | hold
deriving DecidableEq, Repr

/-- What an engine's step computes. -/
abbrev Eng (α : Type) := Except EngStop α

/-- Who issues the accesses of a command: the wave, its flags and scope; and the die whose engine makes them, where that is not the
die of the group's core. -/
structure Issuer where
  wave : Nat
  group : Nat
  o : Order
  sc : Scope
  num : BitVec 32
  origin : Origin
  direct : Bool := false
  die : Option Nat := none

/-- The die of the engine. -/
def Issuer.dieOf (k : Issuer) (s : State) : Nat := k.die.getD (s.dieOfCore (s.group k.group).core)

/-- The places of accesses of an engine: translated, fetched first if tiered. -/
def engPlaces (k : Issuer) (want : Want) : State → List (Nat × Nat) → Eng (State × List Loc)
  | s, [] => .ok (s, [])
  | s, (va, n) :: t =>
    let c := s.groupCtx k.group
    if s.placeHeld (k.dieOf s) c.2.1 c.2.2 va then .error .hold
    else match s.resolve k.group (k.dieOf s) c.2.1 c.2.2 va n want with
    | none => .error (.status 1)
    | some (s', l) => (engPlaces k want s' t).map fun r => (r.1, l :: r.2)

/-- How a place is reached by an engine. -/
def State.engReach (s : State) (k : Issuer) : Loc → Reach
  | .mem pa => s.reach (k.dieOf s) pa
  | .sp _ => .ok

/-- What a step reads and writes is opened: every translation is obtained before anything is read, and of the codes that apply the
lowest is the status: 0x01, 0x03 and, for lost data, 0x04, which `lost` says of data that need no translation (spec/06 R231, R234).
The places of the reads and of the writes. -/
def engOpen (k : Issuer) (s : State) (reads writes : List (Nat × Nat)) (lost : Bool := false) : Eng (State × List Loc × List Loc) := do
  let (s, rs) ← engPlaces k .load s reads
  let (s, ws) ← engPlaces k .store s writes
  let reaches := (rs ++ ws).map (s.engReach k)
  if reaches.contains .hold then .error .hold
  else if reaches.contains .broken then .error (.status 3)
  else if lost || (rs.zip reads).any (fun q => s.engineLost k.group q.1 q.2.2) then .error (.status 4)
  else pure (s, rs, ws)

/-- The bytes of scratchpad and those of memory among writes at places. -/
def splitWrites (ws : List (Loc × List Byte)) : List (Nat × Byte) × List (Nat × Byte) :=
  (ws.flatMap fun x => match x.1 with | .sp o => placed o x.2 | .mem _ => [],
   ws.flatMap fun x => match x.1 with | .mem p => placed p x.2 | .sp _ => [])

/-- Make the writes of a step; a staged group without room for them stops the command (spec/15 R453). -/
def engApply (s : State) (g : Nat) (direct : Bool) (ws : List (Loc × List Byte)) : Eng State :=
  let b := splitWrites ws
  if s.staged g && !direct && !s.stagingRoom g (b.2.map fun c => c.1) then .error (.status 1)
  else .ok (s.engineWriteAll g direct b.1 b.2)

/-- The ranges that writes cover. -/
def rangesOf (l : List (Nat × List Byte)) : List (Nat × Nat) := l.map fun q => (q.1, q.2.length)

/-- A step's ranges are read as one, with the detector's check, and the places where it is to write are obtained (spec/04 R176,
spec/06 R231). -/
def engMove (k : Issuer) (s : State) (reads writes : List (Nat × Nat)) : Eng (State × List (List Byte) × List Loc) := do
  let (s, rs, ws) ← engOpen k s reads writes
  let got := (rs.zip reads).map fun q => s.engineRead k.group q.1 q.2.2
  pure (s.raceEngine k.wave { kind := .engineRead, acq := Order.acquires k.o, rel := false, sc := k.sc } k.origin reads, got, ws)

/-- Read a list of ranges as one step. -/
def engReads (k : Issuer) (s : State) (l : List (Nat × Nat)) : Eng (State × List (List Byte)) :=
  (engMove k s l []).map fun r => (r.1, r.2.1)

/-- Write at places that have been obtained, with the detector's check; and the command's CRC (spec/15 R445). -/
def engPut (k : Issuer) (s : State) (crc : Option Word) (l : List (Nat × List Byte)) (ws : List Loc) : Eng (State × Option Word) := do
  let s := s.raceEngine k.wave { kind := .engineWrite, acq := false, rel := false, sc := k.sc } k.origin (rangesOf l)
  let s ← engApply s k.group k.direct (ws.zip (l.map fun q => q.2))
  pure (s, l.foldl (fun c q => stepCrc k.num c q.1 q.2) crc)

/-- Write a list of ranges as one step: every place first, then the bytes. -/
def engWrites (k : Issuer) (s : State) (crc : Option Word) (l : List (Nat × List Byte)) : Eng (State × Option Word) := do
  let (s, _, ws) ← engOpen k s [] (rangesOf l)
  engPut k s crc l ws

/-- The cells of a source box, converted: +0 outside the tensor (spec/06 R223); and the places of the ranges `writes`. -/
def moveBox (k : Issuer) (s : State) (amr : Word) (l : Layout) (b : Nat) (writes : List (Nat × Nat)) :
    Eng (State × List (List Byte) × List Loc) := do
  let cells := l.cells b
  let (s, got, ws) ← engMove k s (cells.filterMap fun c => c.map fun q => (q.1, l.readBytes)) writes
  let zero := List.replicate l.os 0#8
  let out := cells.foldl (fun (acc : List (List Byte) × List (List Byte)) c => match c, acc.1 with
    | some q, bs :: rest => (rest, l.convert amr q.2 bs :: acc.2)
    | _, rest => (rest, zero :: acc.2)) (got, [])
  pure (s, out.2.reverse, ws)

/-- The cells of a source box alone. -/
def readBox (k : Issuer) (s : State) (amr : Word) (l : Layout) (b : Nat) : Eng (State × List (List Byte)) :=
  (moveBox k s amr l b []).map fun r => (r.1, r.2.1)

/-- The writes that put cells into a destination box: cells outside the tensor, and cells not given, are not written; bytes 25 to
31 of an MXFP6 block are written as zero (spec/06 R220). -/
def boxWrites (l : Layout) (b : Nat) (vals : List (Option (List Byte))) : List (Nat × List Byte) :=
  (((l.cells b).zip vals).filterMap fun q => match q.1, q.2 with
    | some c, some bs => some (c.1, if (l.sfmt == 13 || l.sfmt == 14) && decide (25 ≤ c.2 % 32) then [0#8] else bs)
    | _, _ => none)

/-- The ranges of a destination box that is written whole. -/
def boxRanges (l : Layout) (b : Nat) : List (Nat × Nat) :=
  rangesOf (boxWrites l b (List.replicate l.boxCells (some (List.replicate l.os 0#8))))

/-- The bytes of a placed image, with their offsets. -/
def placedImage (l : Layout) (cells : List (List Byte)) : List (Nat × List Byte) :=
  (cells.zipIdx).map fun q => (l.offset q.2, q.1)

/-- The image as one list of bytes. -/
def imageBytes (l : Layout) (cells : List (List Byte)) : List Byte :=
  let m := (placedImage l cells).foldl (fun (m : Memory) q => m.writeAll (placed q.1 q.2)) []
  m.readN 0 l.boxBytes

/-- The cells of a box from its placed image, of which `n` bytes are given: a cell counts where its bytes are all given, and,
for an MXFP6 block moved whole, where its whole block's are (spec/06 R244). -/
def unplaced (l : Layout) (img : List Byte) : List (Option (List Byte)) :=
  let n := img.length
  let whole := fun i => decide (l.offset i + l.os ≤ n)
  (List.range l.boxCells).map fun i =>
    let ok := if l.sfmt == 13 || l.sfmt == 14 then (List.range 32).all fun k => whole (i / 32 * 32 + k) else whole i
    if ok then some (takeBytes img (l.offset i) l.os) else none

end Sys2Proof.Machine
end

