-- ==== Sys2Proof/Machine/Streams.lean ====
section
/-! DEFINITION. What a stream engine does with its commands: slots, completion with stamp and event, the box steps of fills,
drains, copies, multicasts, rings, limb sums and automorphisms (spec/06 R228 to R237, R244; spec/07 R270; spec/10 R332). -/

namespace Sys2Proof.Machine

/-! Command slots -/

/-- The command in progress. -/
def State.seHead (s : State) (c : Nat) (se : Bool) : Option SCmd := ((s.core c).queue se).head?

/-- The command in progress after a step. -/
def State.setHead (s : State) (c : Nat) (se : Bool) (x : SCmd) : State := s.modQueue c se fun q => x :: q.drop 1

def SCmd.issuer (x : SCmd) : Issuer :=
  { wave := x.wave, group := x.group, o := x.o, sc := x.sc, num := x.num, origin := x.origin, direct := x.direct }

/-- The command is complete: it leaves its slot, its stamp is written, its event posted, its operation completed (spec/06 R231,
R233, R235). A stamp that faults makes the event's status 0x01, one behind a broken link 0x03; of two codes the lower is the status
(R234). The stamp is a write of the command: it enters its CRC, and the race detector, with KIND 3 where the command releases
(spec/15 R445, spec/04 R176). -/
def State.finishStream (s : State) (c : Nat) (se : Bool) (x : SCmd) (st : BitVec 8) : State :=
  let s := s.modQueue c se fun q => q.filter fun y => !(SCmd.same y x)
  let (d, p, k) := s.groupCtx x.group
  let (s, st, crc) := match x.stamp with
    | some a => match s.stampFor x.group d p k x.direct x.wave x.o x.sc x.origin a st with
      | (s', .ok bs) => (s', st, stepCrc x.num x.crc a.toNat bs)
      | (s', .error e) => (s', lowestStatus st e, x.crc)
    | none => (s, st, x.crc)
  let s := s.releaseDone x.group x.o x.sc
  let s := s.signCommand x.wave crc
  let s := match (if x.direct then s.twinOf x.wave else none) with
    | some t => s.signCommand t crc
    | none => s
  let s := if x.direct then s.settleSnapshot x.wave x.key [] else s
  (s.postShared x.wave x.direct st (BitVec.ofNat 8 (1 + se.toNat)) x.num).completeOp x.wave x.key x.direct []

/-! Rings as engines use them (spec/06 R238, R244) -/

/-- Positions at the tail are taken. -/
def Ring.append (r : Ring) (n : Nat) (published : Bool) : Ring := { r with occ := r.occ ++ List.replicate n published }

/-- The position after the last one taken. -/
def Ring.tail (r : Ring) : Nat := r.head + r.occ.length

/-- The unit that begins at a position is published. -/
def Ring.publish (r : Ring) (pos : Nat) : Ring :=
  let k := pos - r.head
  { r with occ := r.occ.take k ++ List.replicate r.unit true ++ r.occ.drop (k + r.unit) }

/-- A claimed unit whose command stops before it is published is given back: where nothing was taken behind it, its positions are free
again, and else they stay taken (DESIGN CHOICE: log entry 54; spec/06 R244). -/
def Ring.unclaim (r : Ring) (pos : Nat) : Ring := if pos + r.unit == r.tail then { r with occ := r.occ.take (pos - r.head) } else r

/-- An end-of-stream token is appended, unless one is present. -/
def Ring.endStream (r : Ring) (st : BitVec 8) : Ring :=
  { r with stopping := false, eos := r.eos.or (some (r.tail, st)) }

/-- The ring that a command names. -/
def State.cmdRing (s : State) (x : SCmd) : Ring := (s.group x.group).ring x.a

def State.modCmdRing (s : State) (x : SCmd) (f : Ring → Ring) : State := s.modGroup x.group fun g => g.modRing x.a f

/-- A ring command of a group on a ring. -/
def SCmd.onRing (x : SCmd) (g r : Nat) : Bool := x.group == g && (x.kind == .rfill || x.kind == .rdrain) && x.a == r

/-- The commands of a core that name a ring. -/
def State.ringCommands (s : State) (c g r : Nat) : List (Bool × SCmd) :=
  [false, true].flatMap fun se => (((s.core c).queue se).filter fun x => x.onRing g r).map fun x => (se, x)

/-- `ringclr.stop` is over once no claimed unit of the ring's fills waits: its token is appended (spec/06 R240). -/
def State.settleStop (s : State) (c g r : Nat) : State :=
  if ((s.group g).ring r).stopping && !((s.ringCommands c g r).any fun q => q.2.claim.isSome) then
    s.modGroup g fun x => x.modRing r fun y => y.endStream 5
  else s

/-! Box steps (spec/06 R228, R231, R232) -/

/-- One box of `.fill`. -/
def fillStep (s : State) (x : SCmd) : Eng (State × SCmd) := do
  let l := x.slot
  let dst := windowBase + x.a + x.box * l.boxBytes
  let (s, cells, ws) ← moveBox x.issuer s x.amr l x.box [(dst, l.boxBytes)]
  let (s, crc) ← engPut x.issuer s x.crc [(dst, imageBytes l cells)] ws
  pure (s, { x with crc := crc })

/-- One box of `.drain`. -/
def drainStep (s : State) (x : SCmd) : Eng (State × SCmd) := do
  let l := x.slot
  let (s, img, ws) ← engMove x.issuer s [(windowBase + x.a + x.box * l.boxBytes, l.boxBytes)] (boxRanges l x.box)
  let (s, crc) ← engPut x.issuer s x.crc (boxWrites l x.box (unplaced l (img.headD []))) ws
  pure (s, { x with crc := crc })

/-- Cells in box order after the AUTO permutation of dimension 0 (spec/06 R228). -/
def permuted (l : Layout) (cells : List (List Byte)) : List (List Byte) :=
  if l.logn == 0 then cells
  else (cells.zipIdx).foldl (fun acc q =>
    let y := digitsOf l.exts q.2
    acc.set (ofDigits l.exts (l.permute (y.getD 0 0) :: y.drop 1)) q.1) cells

/-- One box of `.copy`: moved by coordinates. -/
def copyStep (s : State) (x : SCmd) : Eng (State × SCmd) := do
  let (s, cells, ws) ← moveBox x.issuer s x.amr x.slot x.box (boxRanges x.dst x.box)
  let (s, crc) ← engPut x.issuer s x.crc (boxWrites x.dst x.box ((permuted x.slot cells).map some)) ws
  pure (s, { x with crc := crc })

/-- Logical cores that a multicast names (spec/06 R232). -/
def Layout.targets (l : Layout) : List Nat :=
  (List.range 4).flatMap fun d => if l.dies.getLsbD d then
    ((List.range 48).filter fun q => decide (l.qlo ≤ q) && decide (q ≤ l.qlo + l.qcnt)).flatMap fun q =>
      ((List.range 4).filter fun k => l.cores.getLsbD k).map fun k => 192 * d + 4 * q + k
    else []

/-- Resident groups of a launch on a logical core of a partition; a twin is not counted. -/
def State.groupsOn (s : State) (l logical : Nat) : List Nat :=
  (List.range s.groups.length).filter fun g =>
    let x := s.group g
    x.launch == l && !x.ended && x.copy != .twin && (s.core x.core).logical == logical

/-- One box of `.mcast`: every target group of the launch, and its twin, receives it. -/
def mcastStep (s : State) (x : SCmd) : Eng (State × SCmd) := do
  let l := x.slot
  let (s, cells) ← readBox x.issuer s x.amr l x.box
  let off := x.a + x.box * l.boxBytes
  let img := imageBytes l cells
  let launch := (s.group x.group).launch
  let each := fun (acc : State × Bool) (g : Nat) =>
    if off + img.length ≤ (acc.1.group g).spb then (acc.1.modGroup g fun y => y.spWrite (placed off img), acc.2) else (acc.1, true)
  let r := l.targets.foldl (fun (acc : State × Bool) k =>
    match acc.1.groupsOn launch k with
    | [] => (acc.1, true)
    | gs => gs.foldl (fun acc g => match (acc.1.group g).sibling with
      | some t => each (each acc g) t
      | none => each acc g) acc) (s, false)
  pure (r.1, { x with status := if r.2 then 6 else x.status, crc := stepCrc x.num x.crc (windowBase + off) img })

/-- A box of `.rfill` enters its claimed unit and is published. -/
def rfillStep (s : State) (x : SCmd) (pos : Nat) : Eng (State × SCmd) := do
  let l := x.slot
  let (s, cells) ← readBox x.issuer s x.amr l x.box
  let img := imageBytes l cells
  let r := s.cmdRing x
  let bytes := (List.range r.unit).flatMap fun i => placed (r.place (pos + i)) (takeBytes img (4 * i) 4)
  let s := s.modGroup x.group fun g => g.spWrite bytes
  let crc := bytes.foldl (fun c q => stepCrc x.num c (windowBase + q.1) [q.2]) x.crc
  pure (s.modCmdRing x fun r => r.publish pos, { x with claim := none, crc := crc })

/-- `n` elements at the head, as bytes. -/
def State.headBytes (s : State) (x : SCmd) (n : Nat) : List Byte :=
  let g := s.group x.group
  let r := s.cmdRing x
  (List.range n).flatMap fun i => leBytes 4 (g.elemAt r (r.head + i)).toNat

/-- Some of `n` elements at the head lie in a lost sector. -/
def State.headLost (s : State) (x : SCmd) (n : Nat) : Bool :=
  let r := s.cmdRing x
  (List.range n).any fun i => (s.group x.group).elemLost r (r.head + i)

/-- A box of `.rdrain`: `n` elements from the head. -/
def rdrainStep (s : State) (x : SCmd) (n : Nat) : Eng (State × SCmd) := do
  let out := boxWrites x.slot x.box (unplaced x.slot (s.headBytes x n))
  let (s, _, ws) ← engOpen x.issuer s [] (rangesOf out) (s.headLost x n)
  let (s, crc) ← engPut x.issuer s x.crc out ws
  pure (s.modCmdRing x fun r => r.take n, { x with crc := crc })

/-- One limb of `bopm`: the digit and the carry or borrow (spec/07 R270). -/
def limbStep (sub : Bool) (a b c : Nat) : Nat × Nat :=
  if sub then ((a + 2 * 2 ^ 32 - b - c) % 2 ^ 32, if a < b + c then 1 else 0)
  else ((a + b + c) % 2 ^ 32, (a + b + c) / 2 ^ 32)

/-- The limbs of a box of `bopm`, and the carry out. -/
def limbSteps (sub : Bool) : Nat → List (List Byte) → List (List Byte) → List (List Byte) × Nat
  | c, a :: as, b :: bs =>
    let r := limbStep sub (leValue a) (leValue b) c
    let t := limbSteps sub r.2 as bs
    (leBytes 4 r.1 :: t.1, t.2)
  | c, _, _ => ([], c)

/-- The address of limb `i` of an array. -/
def limbAddr (a : Word) (i : Nat) : Nat := (a + BitVec.ofNat 64 (4 * i)).toNat

/-- One box of `bopm`: at most 256 limbs, and the limb after the last with the last box. -/
def bopmStep (s : State) (x : SCmd) : Eng (State × SCmd) := do
  let is := (List.range 256).filterMap fun i => if 256 * x.box + i < x.limbs then some (256 * x.box + i) else none
  let all := if x.limbs ≤ 256 * (x.box + 1) then is ++ [x.limbs] else is
  let at_ := fun (a : Word) (l : List Nat) => (l.map fun i => (limbAddr a i, 4) : List (Nat × Nat))
  let (s, got, ws) ← engMove x.issuer s (at_ x.bops.2.1 is ++ at_ x.bops.2.2 is) (at_ x.bops.1 all)
  let r := limbSteps x.bsub x.carry (got.take is.length) (got.drop is.length)
  let out := r.1 ++ [leBytes 4 (if x.bsub then 0xFFFFFFFF * r.2 else r.2)]
  let (s, crc) ← engPut x.issuer s x.crc ((all.zip out).map fun q => (limbAddr x.bops.1 q.1, q.2)) ws
  pure (s, { x with crc := crc, carry := r.2 })

/-- Values of a residue polynomial after X → X^G, with the places they go to (spec/10 R332). -/
def galois (ntt : Bool) (logn g p : Nat) (v : List Nat) : List (Nat × Nat) :=
  let n := 2 ^ logn
  (List.range n).map fun i =>
    if ntt then
      let t := (g * (2 * i + 1)) % (2 * n)
      (i, v.getD ((t - 1) / 2) 0)
    else
      let y := (i * g) % (2 * n)
      if y < n then (y, v.getD i 0) else (y - n, (p - v.getD i 0) % p)

/-- One box of `auto`: a residue polynomial. -/
def autoStep (s : State) (x : SCmd) : Eng (State × SCmd) := do
  let n := 2 ^ x.slot.logn
  let p := x.primes.getD x.box 1
  let (s, vs, ws) ← engMove x.issuer s ((List.range n).map fun i => (x.slot.address [i, x.box], 4))
    ((galois x.ntt x.slot.logn x.slot.g p []).map fun q => (x.dst.address [q.1, x.box], 4))
  let (s, crc) ← engPut x.issuer s x.crc
    ((galois x.ntt x.slot.logn x.slot.g p (vs.map fun b => leValue b % p)).map fun q => (x.dst.address [q.1, x.box], leBytes 4 q.2)) ws
  pure (s, { x with crc := crc })

/-- The boxes of a command. -/
def SCmd.boxes (x : SCmd) : Nat :=
  match x.kind with
  | .stamp => 0
  | .bopm => (x.limbs + 255) / 256
  | .auto => x.primes.length
  | _ => x.slot.nBoxes

/-- A box is done: the record moves on; after the last box the command completes, and an `.rfill.eos` ends its ring's stream
with its own status (spec/06 R231, R244). A fill that `ringclr.stop` found ends with 0x05 at this unit too (R240). -/
def State.boxDone (s : State) (c : Nat) (se : Bool) (x : SCmd) : State :=
  let x := { x with box := x.box + 1 }
  let st := if x.kind == .rfill then x.cancel.getD x.status else x.status
  if x.box < x.boxes then s.setHead c se x
  else
    let s := if x.kind == .rfill && x.eos then s.modCmdRing x fun r => r.endStream st else s
    s.finishStream c se x st

/-- A command stops at a box: a claimed unit is given back. -/
def State.stopStream (s : State) (c : Nat) (se : Bool) (x : SCmd) (st : BitVec 8) : State :=
  let s := match x.claim with
    | some pos => s.modCmdRing x fun r => r.unclaim pos
    | none => s
  let s := s.finishStream c se x st
  if x.kind == .rfill then s.settleStop c x.group x.a else s

/-- The outcome of a box step. -/
def State.afterBox (s : State) (c : Nat) (se : Bool) (x : SCmd) (r : Eng (State × SCmd)) : State :=
  match r with
  | .ok (s', x') => s'.boxDone c se x'
  | .error (.status st) => s.stopStream c se x st
  | .error .hold => s

/-- RDRAIN_UNIT_TAKE (spec/06 R244): a full unit at the head, or what stands there before the end of the stream, is taken and
written as one box. -/
def State.rdrainTake (s : State) (c : Nat) (se : Bool) (x : SCmd) : State :=
  let r := s.cmdRing x
  if r.unit ≤ r.count then s.afterBox c se x (rdrainStep s x r.unit)
  else match r.beforeEos with
    | none => s
    | some n =>
      match rdrainStep s x n with
      | .ok (s', x') =>
        let own := match r.eos with | some (_, st) => st | none => 0
        s'.finishStream c se x' (if x.eos && own != 0 then own else x.status)
      | .error (.status st) => s.stopStream c se x st
      | .error .hold => s

/-- RFILL_UNIT_CLAIM (spec/06 R244): the next unit's positions are taken once the box can be read. -/
def State.rfillClaim (s : State) (c : Nat) (se : Bool) (x : SCmd) : State :=
  let r := s.cmdRing x
  if r.eos.isSome then s.stopStream c se x 5
  else if r.room < r.unit then s
  else match readBox x.issuer s x.amr x.slot x.box with
    | .error (.status st) => s.stopStream c se x st
    | .error .hold => s
    | .ok _ => (s.modCmdRing x fun r => r.append r.unit false).setHead c se { x with claim := some r.tail }

/-- A recovery hold keeps a command's stamp back: the command takes no step meanwhile (spec/14 R431). -/
def State.stampHeld (s : State) (x : SCmd) : Bool :=
  let (d, p, k) := s.groupCtx x.group
  match x.stamp with
  | some a => s.stampWaits x.group d p k a
  | none => false

/-- A step of the command in progress, where one is. -/
def seStep (s : State) (c : Nat) (se : Bool) (ok : SCmd → Bool) (f : State → SCmd → State) : Out :=
  match s.seHead c se with
  | some x => event s (ok x && !s.engineHeld x.group && !s.stampHeld x) fun s => f s x
  | none => .next s

/-- STREAM_COMMAND_START (spec/06 R230, R231): the oldest command of an engine starts, its acquire performed; a cancelled one, and one
without boxes, completes. -/
def execStreamCommandStart (c : Nat) (se : Bool) (s : State) : Out :=
  seStep s c se (fun x => !x.started && (x.cancel.isSome || !s.acquireWaits x.wave x.key x.o)) fun s x =>
    match x.cancel with
    | some st => s.stopStream c se x st
    | none => if x.kind == .stamp then s.finishStream c se x x.status else s.setHead c se { x with started := true }

/-- A command of a deterministic launch may take its turn at its ring: none of its kind, issued before it for the ring and held by
the other engine, goes first. One that stands there behind a command that waits at a ring does not (spec/06 R250; log entry 56). -/
def State.ringTurn (s : State) (c : Nat) (se : Bool) (x : SCmd) : Bool :=
  !(s.waveLaunch x.wave).r.det || !((s.core c).queue (!se)).any fun y =>
    y.onRing x.group x.a && y.kind == x.kind && decide (y.seq < x.seq) && y.cancel.isNone &&
      !(s.ringBlocked c (!se) && ((s.core c).queue (!se)).head?.any fun h => !(SCmd.same h y))

/-- RFILL_UNIT_CLAIM. -/
def execRfillUnitClaim (c : Nat) (se : Bool) (s : State) : Out :=
  seStep s c se (fun x => x.started && x.kind == .rfill && x.claim.isNone && x.cancel.isNone && s.ringTurn c se x) fun s x =>
    s.rfillClaim c se x

/-- RDRAIN_UNIT_TAKE. -/
def execRdrainUnitTake (c : Nat) (se : Bool) (s : State) : Out :=
  seStep s c se (fun x => x.started && x.kind == .rdrain && x.cancel.isNone && s.ringTurn c se x) fun s x => s.rdrainTake c se x

end Sys2Proof.Machine
end

