-- ==== Sys2Proof/Machine/VecArith.lean ====
section
/-! DEFINITION. Polymorphic arithmetic, class 2 (spec/03 R114 to R121, spec/07 R257, spec/10 R321). Each `…At` is the
instruction over a set of lanes, which a computed word shares; each `exec…` issues it for the current path. -/

namespace Sys2Proof.Machine

/-- What the operand tag settles for an arithmetic instruction. -/
structure Arith where
  t : Tag
  /-- MIDX of the result under modq -/
  midx : Nat
  p : Nat
  env : FEnv
  fmt : Option Fmt

/-- The prime of an entry of the wave's modulus table. -/
def State.prime (s : State) (w midx : Nat) : Option Nat := ((s.waveCtx w).mods.getD midx none).map fun m => m.p

/-- The modulus checks on V sources under modq: one MIDX, and a loaded entry (spec/03 R115, spec/10 R321). -/
def modulusOf (s : State) (w : Nat) (m : Mask) (rs : List Src) : Eff (Nat × Nat) := do
  let idx := rs.filterMap fun r => r.md.map mdMidx
  let a := idx.headD 0
  match idx.find? (· != a) with
  | some b => raise 0x19#6 (BitVec.ofNat 64 (a + 256 * b)) (some m)
  | none => match s.prime w a with
    | some p => pure (a, p)
    | none => raise 0x19#6 64 (some m)

/-- The checks of R111 up to the modulus: poison, tag, modulus. -/
def arithOf (s : State) (w : Nat) (m : Mask) (rs : List Src) (ok : Tag → Bool) : Eff Arith := do
  srcsClean m rs
  let t ← srcsTagged rs ok
  let q ← if t == .modq then modulusOf s w m rs else pure (0, 1)
  pure { t := t, midx := q.1, p := q.2, env := FEnv.ofAmr (s.wave w).amr, fmt := tagFmt t }

/-- The metadata of a result under the operand tag. -/
def Arith.md (k : Arith) : BitVec 32 := mkMd k.t 0 false false k.midx

/-- An element decoded, with input flushing. -/
def Arith.elem (k : Arith) (f : Fmt) (x : Lane) (i : Nat) : FVal := f.decode k.env.flushIn (elemOf k.t x i)

/-- An exact integer result wrapped, or clamped with `.sat`. -/
def intBits (t : Tag) (sat : Bool) (x : Int) : Nat :=
  match tagRange t with
  | some (lo, hi) => wrapTo (tagWidth t) (if sat then clampInt lo hi x else x)
  | none => wrapTo (tagWidth t) x

/-- Elements with flags joined into a lane. -/
def joinElems (t : Tag) (es : List (Nat × Flags)) : Lane × Flags :=
  (BitVec.ofNat 32 (packElems t (es.map (·.1))), es.foldl (fun acc e => acc ||| e.2) 0)

/-- The operations of R115 that are exact sums and products. -/
inductive AriOp where
  | add | sub | mul
deriving DecidableEq, Repr

def AriOp.int : AriOp → Int → Int → Int
  | .add, a, b => a + b
  | .sub, a, b => a - b
  | .mul, a, b => a * b

def AriOp.float (f : Fmt) (env : FEnv) : AriOp → FVal → FVal → Nat × Flags
  | .add, a, b => f.add env a b
  | .sub, a, b => f.sub env a b
  | .mul, a, b => f.mul env a b

/-- One lane of `add`, `sub` or `mul` (spec/03 R115, R116). -/
def AriOp.lane (k : Arith) (op : AriOp) (sat : Bool) (a b : Lane) : Lane × Flags :=
  match k.fmt with
  | some f => joinElems k.t ((List.range (tagElems k.t)).map fun i => op.float f k.env (k.elem f a i) (k.elem f b i))
  | none =>
    if k.t == .modq then (BitVec.ofInt 32 (op.int (a.toNat % k.p : Nat) (b.toNat % k.p : Nat) % (k.p : Int)), 0)
    else (laneOf k.t fun i => intBits k.t sat (op.int (elemInt k.t a i) (elemInt k.t b i)), 0)

/-- Tags of `add`, `sub` and `mul`: all but raw. -/
def ariTag (t : Tag) : Bool := t != .raw

/-- Two sources of an instruction. -/
def src0 (rs : List Src) (i : Nat) : Src := rs.getD i { o := .imm 0, md := none, val := fun _ => 0, imm := none, word := 0 }

/-- The body of `add`, `sub` and `mul`. -/
def ariBody (w : Nat) (op : AriOp) (sat : Bool) (s : State) (m : Mask) (rs : List Src) : Eff LaneOut := do
  let k ← arithOf s w m rs ariTag
  let a := src0 rs 0
  let b := src0 rs 1
  if k.t == .limb then do
    limbSources s w rs
    limbResult s w (op.int (a.whole (s.wave w).id.width) (b.whole (s.wave w).id.width))
  else flagLanes s w m k.md fun l =>
    let x := a.lane k.env k.t k.p l
    let y := b.lane k.env k.t k.p l
    let r := op.lane k sat x.1 y.1
    (r.1, r.2 ||| x.2 ||| y.2)

def checks2 (d a b : Opnd) : List (Opnd × Accept) := [(d, .dest), (a, .src), (b, .src)]
def checks3 (d a b c : Opnd) : List (Opnd × Accept) := [(d, .dest), (a, .src), (b, .src), (c, .src)]

def addAt (base : Mask) (g : Guards) (sat : Bool) (d a b : Opnd) (e : BitVec 4) (s : State) (w : Nat) : Eff State :=
  laneWise s w base g (checks2 d a b) (namesV s w [a, b]) d [a, b] (some e) (ariBody w .add sat)

/-- `add` (spec/03 R115). -/
def execAdd (g : Guards) (sat : Bool) (d a b : Opnd) (e : BitVec 4) (s : State) : Out :=
  issue s fun w => addAt (s.wave w).exec g sat d a b e s w

def subAt (base : Mask) (g : Guards) (sat : Bool) (d a b : Opnd) (e : BitVec 4) (s : State) (w : Nat) : Eff State :=
  laneWise s w base g (checks2 d a b) (namesV s w [a, b]) d [a, b] (some e) (ariBody w .sub sat)

/-- `sub` (spec/03 R115). -/
def execSub (g : Guards) (sat : Bool) (d a b : Opnd) (e : BitVec 4) (s : State) : Out :=
  issue s fun w => subAt (s.wave w).exec g sat d a b e s w

def mulAt (base : Mask) (g : Guards) (sat : Bool) (d a b : Opnd) (e : BitVec 4) (s : State) (w : Nat) : Eff State :=
  laneWise s w base g (checks2 d a b) (namesV s w [a, b]) d [a, b] (some e) (ariBody w .mul sat)

/-- `mul` (spec/03 R115). -/
def execMul (g : Guards) (sat : Bool) (d a b : Opnd) (e : BitVec 4) (s : State) : Out :=
  issue s fun w => mulAt (s.wave w).exec g sat d a b e s w

/-- One lane of `mad`: A × B + C with one rounding or one narrowing (spec/03 R115, R116). -/
def madLane (k : Arith) (sat : Bool) (a b c : Lane) : Lane × Flags :=
  match k.fmt with
  | some f => joinElems k.t ((List.range (tagElems k.t)).map fun i =>
      f.fma k.env (k.elem f a i) (k.elem f b i) (k.elem f c i))
  | none =>
    if k.t == .modq then (BitVec.ofNat 32 (((a.toNat % k.p) * (b.toNat % k.p) + c.toNat % k.p) % k.p), 0)
    else (laneOf k.t fun i => intBits k.t sat (elemInt k.t a i * elemInt k.t b i + elemInt k.t c i), 0)

def madBody (w : Nat) (sat : Bool) (s : State) (m : Mask) (rs : List Src) : Eff LaneOut := do
  let k ← arithOf s w m rs fun t => t != .raw && t != .limb
  flagLanes s w m k.md fun l =>
    let x := (src0 rs 0).lane k.env k.t k.p l
    let y := (src0 rs 1).lane k.env k.t k.p l
    let z := (src0 rs 2).lane k.env k.t k.p l
    let r := madLane k sat x.1 y.1 z.1
    (r.1, r.2 ||| x.2 ||| y.2 ||| z.2)

def madAt (base : Mask) (g : Guards) (sat : Bool) (d a b c : Opnd) (e : BitVec 4) (s : State) (w : Nat) : Eff State :=
  laneWise s w base g (checks3 d a b c) (namesV s w [a, b, c]) d [a, b, c] (some e) (madBody w sat)

/-- `mad` (spec/03 R115). -/
def execMad (g : Guards) (sat : Bool) (d a b c : Opnd) (e : BitVec 4) (s : State) : Out :=
  issue s fun w => madAt (s.wave w).exec g sat d a b c e s w

/-- The smaller or larger of two float elements (spec/03 R116). -/
def floatPick (f : Fmt) (env : FEnv) (larger : Bool) (a b : FVal) : Nat × Flags :=
  let fl : Flags := if a.isSignalling || b.isSignalling then flagNV else 0
  if a.isNan && b.isNan then f.nanOf env [a, b]
  else
    let v := if a.isNan then b else if b.isNan then a
      else if larger then (if a.less true b then b else a) else (if b.less true a then b else a)
    let r := f.keep env v
    (r.1, r.2 ||| fl)

/-- One lane of `min` or `max`. -/
def pickLane (k : Arith) (larger : Bool) (a b : Lane) : Lane × Flags :=
  match k.fmt with
  | some f => joinElems k.t ((List.range (tagElems k.t)).map fun i =>
      floatPick f k.env larger (k.elem f a i) (k.elem f b i))
  | none => (laneOf k.t fun i =>
      let x := elemInt k.t a i
      let y := elemInt k.t b i
      intBits k.t false (if larger then max x y else min x y), 0)

def pickBody (w : Nat) (larger : Bool) (s : State) (m : Mask) (rs : List Src) : Eff LaneOut := do
  let k ← arithOf s w m rs fun t => t != .raw && t != .modq
  let a := src0 rs 0
  let b := src0 rs 1
  if k.t == .limb then do
    limbSources s w rs
    let x := a.whole (s.wave w).id.width
    let y := b.whole (s.wave w).id.width
    limbResult s w (if larger then max x y else min x y)
  else flagLanes s w m k.md fun l =>
    let x := a.lane k.env k.t k.p l
    let y := b.lane k.env k.t k.p l
    let r := pickLane k larger x.1 y.1
    (r.1, r.2 ||| x.2 ||| y.2)

def minAt (base : Mask) (g : Guards) (d a b : Opnd) (e : BitVec 4) (s : State) (w : Nat) : Eff State :=
  laneWise s w base g (checks2 d a b) (namesV s w [a, b]) d [a, b] (some e) (pickBody w false)

/-- `min` (spec/03 R115). -/
def execMin (g : Guards) (d a b : Opnd) (e : BitVec 4) (s : State) : Out :=
  issue s fun w => minAt (s.wave w).exec g d a b e s w

def maxAt (base : Mask) (g : Guards) (d a b : Opnd) (e : BitVec 4) (s : State) (w : Nat) : Eff State :=
  laneWise s w base g (checks2 d a b) (namesV s w [a, b]) d [a, b] (some e) (pickBody w true)

/-- `max` (spec/03 R115). -/
def execMax (g : Guards) (d a b : Opnd) (e : BitVec 4) (s : State) : Out :=
  issue s fun w => maxAt (s.wave w).exec g d a b e s w

/-- A float element with its sign flipped or cleared; MK8's zero and NaN stand (spec/03 R115). DESIGN CHOICE: only the sign
bit changes under every subnormal mode, so no subnormal is flushed (log entry 53). -/
def signElem (f : Fmt) (clear : Bool) (x : Nat) : Nat :=
  if f.kind == .mk8 && x % f.signBit == 0 then x
  else if clear then x % f.signBit
  else if x / f.signBit % 2 == 1 then x - f.signBit else x + f.signBit

/-- One lane of `neg` or `abs`. -/
def signLane (k : Arith) (clear sat : Bool) (a : Lane) : Lane :=
  match k.fmt with
  | some f => laneOf k.t fun i => signElem f clear (elemOf k.t a i)
  | none =>
    if k.t == .modq then BitVec.ofNat 32 ((k.p - a.toNat % k.p) % k.p)
    else laneOf k.t fun i =>
      let x := elemInt k.t a i
      intBits k.t sat (if clear then (x.natAbs : Int) else -x)

def signBody (w : Nat) (clear sat : Bool) (s : State) (m : Mask) (rs : List Src) : Eff LaneOut := do
  let k ← arithOf s w m rs fun t => t != .raw && !(clear && t == .modq)
  let a := src0 rs 0
  if k.t == .limb then do
    limbSources s w rs
    let x := a.whole (s.wave w).id.width
    limbResult s w (if clear then (x.natAbs : Int) else -x)
  else pure (plainLanes s w m k.md fun l => signLane k clear sat (a.lane k.env k.t k.p l).1)

def negAt (base : Mask) (g : Guards) (sat : Bool) (d a : Opnd) (e : BitVec 4) (s : State) (w : Nat) : Eff State :=
  laneWise s w base g [(d, .dest), (a, .src)] (namesV s w [a]) d [a] (some e) (signBody w false sat)

/-- `neg` (spec/03 R115). -/
def execNeg (g : Guards) (sat : Bool) (d a : Opnd) (e : BitVec 4) (s : State) : Out :=
  issue s fun w => negAt (s.wave w).exec g sat d a e s w

def absAt (base : Mask) (g : Guards) (sat : Bool) (d a : Opnd) (e : BitVec 4) (s : State) (w : Nat) : Eff State :=
  laneWise s w base g [(d, .dest), (a, .src)] (namesV s w [a]) d [a] (some e) (signBody w true sat)

/-- `abs` (spec/03 R115). -/
def execAbs (g : Guards) (sat : Bool) (d a : Opnd) (e : BitVec 4) (s : State) : Out :=
  issue s fun w => absAt (s.wave w).exec g sat d a e s w

/-- A condition on integers; `un` never holds (spec/03 R114). -/
def condInt (c : VCond) (a b : Int) : Bool :=
  match c with
  | .eq => a == b
  | .ne => a != b
  | .lt => decide (a < b)
  | .le => decide (a ≤ b)
  | .gt => decide (b < a)
  | .ge => decide (b ≤ a)
  | .un => false

/-- A condition on float elements, with the flags (spec/03 R117). -/
def condFloat (c : VCond) (a b : FVal) : Bool × Flags :=
  if a.isNan || b.isNan then
    let ordered := c == .lt || c == .le || c == .gt || c == .ge
    (c == .ne || c == .un, if ordered || a.isSignalling || b.isSignalling then flagNV else 0)
  else match c with
    | .eq => (a.same b, 0)
    | .ne => (!a.same b, 0)
    | .lt => (a.less false b, 0)
    | .le => (!b.less false a, 0)
    | .gt => (b.less false a, 0)
    | .ge => (!a.less false b, 0)
    | .un => (false, 0)

/-- The conditions of the elements of a lane, with the flags. -/
def cmpElems (k : Arith) (cc : VCond) (a b : Lane) : List (Bool × Flags) :=
  (List.range (tagElems k.t)).map fun i =>
    match k.fmt with
    | some f => condFloat cc (k.elem f a i) (k.elem f b i)
    | none =>
      if k.t == .modq then (condInt cc (a.toNat % k.p : Nat) (b.toNat % k.p : Nat), 0)
      else (condInt cc (elemInt k.t a i) (elemInt k.t b i), 0)

/-- A predicate result of `cmp`, or a raw mask of elements. -/
def cmpBody (w : Nat) (cc : VCond) (d : Opnd) (s : State) (m : Mask) (rs : List Src) : Eff LaneOut := do
  let k ← arithOf s w m rs fun t => t != .raw && !(t == .modq && cc != .eq && cc != .ne)
  let a := src0 rs 0
  let b := src0 rs 1
  let W := (s.wave w).id.width
  if k.t == .limb then
    match d with
    | .p n => do
      limbSources s w rs
      let r := condInt cc (a.whole W) (b.whole W)
      pure { s := s, vals := fun _ => 0, md := 0, preds := [(n, if r then m else 0)] }
    | _ => raise 0x02#6 (opndAddr d)
  else do
    let tab := (List.range W).map fun l =>
      if m.getLsbD l then
        let x := a.lane k.env k.t k.p l
        let y := b.lane k.env k.t k.p l
        let es := cmpElems k cc x.1 y.1
        (es.map (·.1), es.foldl (fun acc e => acc ||| e.2) (x.2 ||| y.2))
      else ([], (0 : Flags))
    let s' ← settleFlags s w m fun l => (tab.getD l ([], 0)).2
    match d with
    | .p n => pure { s := s', vals := fun _ => 0, md := 0,
                     preds := [(n, maskOf W fun l => m.getLsbD l && (tab.getD l ([], 0)).1.all id)] }
    | _ => pure { s := s', md := tagMd .raw,
                  vals := fun l => BitVec.ofNat 32 (packElems k.t ((tab.getD l ([], 0)).1.map fun b =>
                    if b then 2 ^ tagWidth k.t - 1 else 0)) }

/-- The operand tag, before any check of it: that of the first V source (spec/03 R110). -/
def operandTag (s : State) (w : Nat) (os : List Opnd) : Option Tag :=
  os.findSome? fun o => match o with
    | .v n => some (mdTag (readV s w 1 n.toNat).md)
    | .special n => if n == 0#5 then some .u32 else none
    | .q n => ((s.wave w).port n.toNat).map fun p => ((s.waveGroup w).ring p.1).tag
    | _ => none

/-- `cmp` names a V source, and under limb a P register as D; a decode check (spec/03 R110, R120, spec/05 R211). -/
def cmpNames (s : State) (w : Nat) (d a b : Opnd) : Bool :=
  namesV s w [a, b] && !(operandTag s w [a, b] == some .limb && !(match d with | .p _ => true | _ => false))

def cmpAt (base : Mask) (g : Guards) (cc : VCond) (d a b : Opnd) (e : BitVec 4) (s : State) (w : Nat) : Eff State :=
  laneWise s w base g [(d, { Accept.dest with p := true }), (a, .src), (b, .src)] (cmpNames s w d a b) d [a, b] (some e)
    (cmpBody w cc d)

/-- `cmp` (spec/03 R117). -/
def execCmp (g : Guards) (cc : VCond) (d a b : Opnd) (e : BitVec 4) (s : State) : Out :=
  issue s fun w => cmpAt (s.wave w).exec g cc d a b e s w

/-- One lane of `sel` whose C is a V register: element by element (spec/03 R118). -/
def selLane (t : Tag) (a b c : Lane) : Lane :=
  laneOf t fun i => if elemOf t c i != 0 then elemOf t a i else elemOf t b i

/-- C of `sel` is exempt from the tag check but not from poison; the sources of the tag are A and B. Under modq the result is
the chosen lane's residue (spec/03 R115). DESIGN CHOICE: with a P register as C the chosen lane is copied whole, bits [31:30]
of a 6-bit tag with it (log entry 53). -/
def selBody (w : Nat) (c : Opnd) (s : State) (m : Mask) (rs : List Src) : Eff LaneOut := do
  srcsClean m rs
  let k ← arithOf s w m (rs.take 2) fun _ => true
  let a := src0 rs 0
  let b := src0 rs 1
  let W := (s.wave w).id.width
  if k.t == .limb then
    match c with
    | .p n =>
      let bits := readP s w 3 n &&& m
      if bits != 0 && bits != m then raise 0x06#6 (opndAddr c) (some m)
      else do
        let r := if bits == m then a else b
        limbSources s w [a, b]
        match r.md with
        | some md => pure { s := s, vals := r.val, md := md, lanes := some (allLanes (s.wave w).capacity) }
        | none => limbResult s w (r.whole W)
    | _ => raise 0x06#6 (opndAddr c) (some m)
  else flagLanes s w m k.md fun l =>
    let x := a.lane k.env k.t k.p l
    let y := b.lane k.env k.t k.p l
    let r := match c with
      | .p n => if (readP s w 3 n).getLsbD l then x.1 else y.1
      | _ => selLane k.t x.1 y.1 ((src0 rs 2).val l)
    (if k.t == .modq then BitVec.ofNat 32 (r.toNat % k.p) else r, x.2 ||| y.2)

def selAt (base : Mask) (g : Guards) (d a b c : Opnd) (e : BitVec 4) (s : State) (w : Nat) : Eff State :=
  laneWise s w base g [(d, .dest), (a, .src), (b, .src), (c, { v := true, p := true, lane := true, pop := true })]
    (namesV s w [a, b]) d [a, b, c] (some e) (selBody w c)

/-- `sel` (spec/03 R118). -/
def execSel (g : Guards) (d a b c : Opnd) (e : BitVec 4) (s : State) : Out :=
  issue s fun w => selAt (s.wave w).exec g d a b c e s w

/-- C of `dot`: its tag under the operand tag, when it is a V source (spec/03 R119). -/
def dotCheck (t : Tag) (c : Src) : Eff Unit :=
  let want : Tag := if (tagFmt t).isSome then .f32 else .i32
  match c.md with
  | some md => demand (mdTag md == want) 0x05#6 (opndAddr c.o)
  | none => .ok ()

/-- One lane of `dot` (spec/03 R119). -/
def dotLane (k : Arith) (sat : Bool) (a b : Lane) (c : Src) (l : Nat) : Lane × Flags :=
  let n := List.range (tagElems k.t)
  match k.fmt with
  | some f =>
    let xs := n.map (k.elem f a)
    let ys := n.map (k.elem f b)
    let cv : FVal := match c.imm with
      | some v => .ofInt v
      | none => Fmt.fp32.decode k.env.flushIn (c.val l).toNat
    let r := Fmt.fp32.sumProducts k.env (xs ++ ys ++ [cv]) (xs.zip ys) [cv]
    (BitVec.ofNat 32 r.1, r.2)
  | none =>
    let sum := (n.map fun i => elemInt k.t a i * elemInt k.t b i).sum
    let cv : Int := match c.imm with | some v => v | none => (c.val l).toInt
    (BitVec.ofNat 32 (intBits .i32 sat (sum + cv)), 0)

def dotTag (t : Tag) : Bool :=
  match t with
  | .i16x2 | .i8x4 | .bf16x2 | .f16x2 | .e4m3x4 | .e5m2x4 | .mk8x4 | .e2m3x5 | .e3m2x5 | .e2m1x8 => true
  | _ => false

def dotBody (w : Nat) (sat : Bool) (s : State) (m : Mask) (rs : List Src) : Eff LaneOut := do
  srcsClean m rs
  let k ← arithOf s w m (rs.take 2) dotTag
  let c := src0 rs 2
  dotCheck k.t c
  flagLanes s w m (tagMd (if k.fmt.isSome then .f32 else .i32)) fun l =>
    let x := (src0 rs 0).lane k.env k.t k.p l
    let y := (src0 rs 1).lane k.env k.t k.p l
    let r := dotLane k sat x.1 y.1 c l
    (r.1, r.2 ||| x.2 ||| y.2)

def dotAt (base : Mask) (g : Guards) (sat : Bool) (d a b c : Opnd) (e : BitVec 4) (s : State) (w : Nat) : Eff State :=
  laneWise s w base g (checks3 d a b c) (namesV s w [a, b]) d [a, b, c] (some e) (dotBody w sat)

/-- `dot` (spec/03 R119). -/
def execDot (g : Guards) (sat : Bool) (d a b c : Opnd) (e : BitVec 4) (s : State) : Out :=
  issue s fun w => dotAt (s.wave w).exec g sat d a b c e s w

/-- One lane of `acs`: the packed metrics and the two survivor bits (spec/03 R121). -/
def acsLane (a b c : Lane) : Lane × Bool × Bool :=
  let sum := fun (x y : Lane) (i : Nat) => clampInt (-(2 ^ 15)) (2 ^ 15 - 1) (elemInt .i16x2 x i + elemInt .i16x2 y i)
  let x0 := sum a b 0
  let y0 := sum a b 1
  let x1 := sum a c 0
  let y1 := sum a c 1
  (BitVec.ofNat 32 (packElems .i16x2 [wrapTo 16 (min x0 y0), wrapTo 16 (min x1 y1)]), decide (y0 < x0), decide (y1 < x1))

def acsBody (w : Nat) (n : BitVec 4) (s : State) (m : Mask) (rs : List Src) : Eff LaneOut := do
  let k ← arithOf s w m rs fun t => t == .i16x2
  let at' := fun l => acsLane ((src0 rs 0).lane k.env k.t k.p l).1 ((src0 rs 1).lane k.env k.t k.p l).1
    ((src0 rs 2).lane k.env k.t k.p l).1
  let W := (s.wave w).id.width
  let p := n.extractLsb' 0 3
  pure { plainLanes s w m (tagMd .i16x2) (fun l => (at' l).1) with
    preds := [(p, maskOf W fun l => m.getLsbD l && (at' l).2.1), (p + 1, maskOf W fun l => m.getLsbD l && (at' l).2.2)] }

def acsAt (base : Mask) (g : Guards) (d a b c : Opnd) (n : BitVec 4) (s : State) (w : Nat) : Eff State :=
  laneWise s w base g (checks3 d a b c) (namesV s w [a, b, c] && decide (n.toNat ≤ 5)) d [a, b, c] none (acsBody w n)

/-- `acs` (spec/03 R121). -/
def execAcs (g : Guards) (d a b c : Opnd) (n : BitVec 4) (s : State) : Out :=
  issue s fun w => acsAt (s.wave w).exec g d a b c n s w

end Sys2Proof.Machine
end

