-- ==== Sys2Proof/Machine/Collective.lean ====
section
/-! DEFINITION. Collectives: instances, the fixed tree, results, and the box steps of a rank's command; and with them the box
step of every stream command (spec/14 R433 to R442, spec/06 R231). -/

namespace Sys2Proof.Machine

/-! Instances (spec/14 R435) -/

/-- How many commands a rank has issued with a CID. -/
def State.collCount (s : State) (l : Nat) (cid : BitVec 32) (rank : Nat) : Nat :=
  (s.collIssued.filter fun q => s.sameJob l q.1 && q.2.1 == cid && q.2.2 == rank).length

/-- Elements of a tensor. -/
def Layout.count (l : Layout) : Nat := productOf ((List.range l.rank).map fun d => l.sizes.getD d 0)

/-- Cells of a tensor: elements, but two of E2M1. -/
def Layout.cellCount (l : Layout) : Nat := productOf ((List.range l.rank).map l.size)

/-- The rank receives the result. -/
def CollRec.receives (r : CollRec) : Bool := r.all || r.rank == r.rootRank || r.op == 6 || r.op == 7

/-- The primes of a rank's residues, from its own context's table (spec/14 R439). -/
def State.rankPrimes (s : State) (m : Member) : List (Option Nat) :=
  (List.range (m.cmd.slot.sizes.getD 1 0)).map fun j => s.prime m.cmd.wave (m.rec_.midx + j)

/-- Formats and element counts obey R436, and `crt` obeys R439. -/
def collShapes (s : State) (ms : List Member) (h : Member) : Bool :=
  let op := h.rec_.op
  let f := h.cmd.slot.outFmt
  let c := h.cmd.slot.count
  let n := h.rec_.nrm + 1
  let dstIs := fun (fmt cnt : Nat) => ms.all fun m => !m.rec_.receives || (m.cmd.dst.sfmt == fmt && m.cmd.dst.count == cnt)
  let same := ms.all fun m => m.cmd.slot.outFmt == f && (op == 8 || m.cmd.slot.count == c)
  let primes := ms.map s.rankPrimes
  let flat := primes.flatMap id
  let ps := flat.map fun p => p.getD 0
  same && match op with
    | 0 | 1 | 2 => decide (f ≤ 4) && dstIs f c
    | 3 => decide (f ≤ 1) && dstIs 15 (8 * c)
    | 4 => f == 1 && (s.prime h.cmd.wave h.rec_.midx).isSome && dstIs 1 c
    | 5 => f == 1 && (ms.all fun m => m.cmd.slot.rank == 1) && dstIs 1 (c + 1)
    | 6 => dstIs f c
    | 7 => dstIs f (n * c)
    | _ =>
      let size := h.cmd.slot.sizes.getD 0 0
      f == 1 && !h.rec_.all && (ms.all fun m => m.cmd.slot.rank == 2 && m.cmd.slot.sizes.getD 0 0 == size) &&
      flat.all Option.isSome && ps.eraseDups.length == ps.length && decide (productOf ps ≤ 2 ^ (32 * h.rec_.limbs)) &&
      dstIs 1 (size * h.rec_.limbs)

/-- The commands of an instance fit together (spec/14 R435). -/
def collAgrees (s : State) (ms : List Member) (h : Member) : Bool :=
  let env := fun (m : Member) => FEnv.ofAmr m.cmd.amr
  let det := (s.launch (s.group h.cmd.group).launch).r.det
  (ms.all fun m => m.rec_.nrm == h.rec_.nrm && m.rec_.op == h.rec_.op && m.rec_.all == h.rec_.all &&
    m.rec_.rootRank == h.rec_.rootRank && m.rec_.midx == h.rec_.midx && m.rec_.limbs == h.rec_.limbs && m.cmd.sc == h.cmd.sc &&
    m.cmd.amr.extractLsb' 0 3 == h.cmd.amr.extractLsb' 0 3 && (env m).sub == (env h).sub && (env m).nanp == (env h).nanp &&
    (if h.cmd.sc == .wave then ms.length == 1 else (s.core m.core).unitOf det h.cmd.sc == (s.core h.core).unitOf det h.cmd.sc)) &&
  ms.length == h.rec_.nrm + 1 && collShapes s ms h

/-- COLLECTIVE_INSTANCE_START (spec/14 R435): every rank has issued its command; the instance begins to read, or every command
is refused. -/
def execCollectiveInstanceStart (l : Nat) (cid : BitVec 32) (k : Nat) (s : State) : Out :=
  let ms := sortBy (fun (a b : Member) => decide (a.rec_.rank ≤ b.rec_.rank))
    ((s.members l cid k).filter fun m => m.cmd.stage == .waiting && m.cmd.cancel.isNone)
  match ms with
  | [] => .next s
  | h :: _ =>
    event s (!(ms.any fun m => s.engineHeld m.cmd.group) && (List.range (h.rec_.nrm + 1)).all fun r => ms.any fun m => m.rec_.rank == r) fun s =>
      if collAgrees s ms h then
        let primes := ms.map fun m => (s.rankPrimes m).map fun p => p.getD 1
        let s := s.modMembers ms fun x => { x with stage := .reading (List.replicate x.slot.cellCount 0) }
        { s with insts := s.insts ++ [{ launch := l, cid := cid, k := k, nrm := h.rec_.nrm, primes := primes, got := [],
                                         groups := ms.map fun m => m.cmd.group }] }
      else s.modMembers ms fun x => { x with stage := .refused }

/-! Results (spec/14 R436 to R439) -/

/-- One level of the tree: neighbours are combined, the lower rank first. -/
def pairUp {α : Type} (f : α → α → α) : List α → List α
  | a :: b :: t => f a b :: pairUp f t
  | l => l

/-- The fixed tree over the ranks (spec/14 R437); `n` levels. -/
def treeOf {α : Type} (f : α → α → α) : Nat → List α → Option α
  | _, [] => none
  | _, [a] => some a
  | 0, a :: _ => some a
  | n + 1, l => treeOf f n (pairUp f l)

/-- The float format of a source. -/
def collFmt (f : Nat) : Option Fmt :=
  match f with
  | 2 => some .fp32
  | 3 => some .bf16
  | 4 => some .fp16
  | _ => none

/-- Combine two elements of `sum`, `min` or `max`, with the flags (spec/14 R436). -/
def collCombine (op f : Nat) (env : FEnv) (a b : Nat × Flags) : Nat × Flags :=
  match collFmt f with
  | some fm =>
    let x := fm.decode env.flushIn a.1
    let y := fm.decode env.flushIn b.1
    let r := if op == 0 then fm.add env x y else floatPick fm env (op == 2) x y
    (r.1, a.2 ||| b.2 ||| r.2)
  | none =>
    let less := if f == 0 then decide (signedOf 32 a.1 < signedOf 32 b.1) else decide (a.1 < b.1)
    ((if op == 0 then (a.1 + b.1) % 2 ^ 32 else if (op == 1) == less then a.1 else b.1), 0)

/-- One element of `sum`, `min` or `max` over the ranks: the tree, then the rules for NaN and infinities (spec/14 R438). -/
def collElem (op f : Nat) (env : FEnv) (xs : List Nat) : Nat × Flags :=
  let r := (treeOf (collCombine op f env) 17 (xs.map fun x => (x, (0 : Flags)))).getD (0, 0)
  match collFmt f with
  | none => r
  | some fm =>
    let vs := xs.map (fm.decode env.flushIn)
    let infs := (vs.any fun v => match v with | .inf n => n | _ => false) && (vs.any fun v => match v with | .inf n => !n | _ => false)
    let fl := r.2 ||| (if infs || vs.any FVal.isSignalling then flagNV else 0)
    if vs.any FVal.isNan then ((fm.nanOf env vs).1, fl)
    else match fm.decode env.flushIn r.1 with
      | .nan .. => (fm.canonicalNan, fl)
      | _ => (r.1, fl)

/-- The unique number below the product of the primes with given residues (spec/14 R439). -/
def crtOf (qs : List (Nat × Nat)) : Nat :=
  (qs.foldl (fun (acc : Nat × Nat) q =>
    let p := q.1
    let t := ((q.2 % p + p - acc.1 % p) * invMod p acc.2) % p
    (acc.1 + acc.2 * t, acc.2 * p)) (0, 1)).1

/-- Column `i` of the ranks' tensors. -/
def column (srcs : List (List Nat)) (i : Nat) : List Nat := srcs.map fun v => v.getD i 0

/-- The elements of the result, in tensor order, and the flags. -/
def collResult (r : CollRec) (f : Nat) (env : FEnv) (p : Nat) (primes : List (List Nat)) (srcs : List (List Nat)) :
    List Nat × Flags :=
  let c := (srcs.headD []).length
  match r.op with
  | 0 | 1 | 2 =>
    let es := (List.range c).map fun i => collElem r.op f env (column srcs i)
    (es.map (·.1), es.foldl (fun acc e => acc ||| e.2) 0)
  | 3 => ((List.range c).flatMap fun i =>
      let t : Int := (column srcs i).foldl (fun acc x => acc + (if f == 0 then signedOf 32 x else (x : Int))) 0
      (leBytes 8 (wrapTo 64 t)).map BitVec.toNat, 0)
  | 4 => ((List.range c).map fun i => (column srcs i).foldl (fun acc x => (acc + x) % p) 0, 0)
  | 5 =>
    let t := (srcs.map fun v => v.foldr (fun x acc => x + 2 ^ 32 * acc) 0).foldl (· + ·) 0
    ((List.range (c + 1)).map fun i => (t >>> (32 * i)) % 2 ^ 32, 0)
  | 6 => (srcs.getD r.rootRank [], 0)
  | 7 => (srcs.flatMap id, 0)
  | _ =>
    let n := c / max 1 (primes.headD []).length
    ((List.range n).flatMap fun i =>
      let x := crtOf ((primes.zip srcs).flatMap fun q => (q.1.zipIdx).map fun e => (e.1, q.2.getD (i + n * e.2) 0))
      (List.range r.limbs).map fun k => (x >>> (32 * k)) % 2 ^ 32, 0)

/-! Steps of a rank's command (spec/14 R441) -/

/-- Place of a cell in tensor order. -/
def Layout.tensorIndex (l : Layout) (x : List Nat) : Nat := ofDigits ((List.range l.rank).map l.size) x

/-- Elements with those of a source box entered. -/
def enterBox (l : Layout) (b : Nat) (cells : List (List Byte)) (elems : List Nat) : List Nat :=
  (cells.zipIdx).foldl (fun acc q =>
    let x := l.coords b q.2
    if l.inTensor x then acc.set (l.tensorIndex x) (leValue q.1) else acc) elems

/-- The cells that a destination box receives. -/
def resultCells (l : Layout) (b : Nat) (elems : List Nat) : List (Option (List Byte)) :=
  (List.range l.boxCells).map fun i =>
    let x := l.coords b i
    if l.inTensor x then some (leBytes l.os (elems.getD (l.tensorIndex x) 0)) else none

/-- Every source is read: the result goes to every receiving rank, and the instance is over as far as reading goes. -/
def State.settleInstance (s : State) (x : SCmd) (r : CollRec) : State :=
  match s.insts.find? (s.instOf x r) with
  | none => s
  | some i =>
    if i.got.length ≤ i.nrm then s
    else
      let srcs := (sortBy (fun (a b : Nat × List Nat) => decide (a.1 ≤ b.1)) i.got).map (·.2)
      let p := (s.prime x.wave r.midx).getD 1
      let res := collResult r x.slot.outFmt (FEnv.ofAmr x.amr) p i.primes srcs
      let ms := s.members (s.group x.group).launch r.cid r.k
      let s' := s.modMembers ms fun y => { y with stage := .writing res.1 res.2, box := 0 }
      { s' with insts := s'.insts.filter fun i => !(s.instOf x r i) }

/-- The source of a rank is read whole. -/
def State.sourceRead (s : State) (c : Nat) (se : Bool) (x : SCmd) (r : CollRec) (elems : List Nat) : State :=
  let s := { s with insts := s.insts.map fun i => if s.instOf x r i then { i with got := i.got ++ [(r.rank, elems)] } else i }
  let s := s.setHead c se { x with stage := .read }
  let s := s.settleInstance x r
  if r.receives then s else s.finishStream c se x 0

/-- The writes of the next box of a collective's result, and of the flag word with the last. -/
def collWrites (x : SCmd) (r : CollRec) (elems : List Nat) (flags : Flags) : List (Nat × List Byte) :=
  boxWrites x.dst x.box (resultCells x.dst x.box elems) ++
    (if decide (x.dst.nBoxes ≤ x.box + 1) && r.flagw != 0 then [(r.flagw, leBytes 8 flags.toNat)] else [])

/-- One box of a collective command. -/
def State.collStep (s : State) (c : Nat) (se : Bool) (x : SCmd) (r : CollRec) : State :=
  let stop := fun (e : EngStop) => match e with
    | .status st => (s.stopInstance x r st).finishStream c se x st
    | .hold => s
  match x.stage with
  | .waiting | .read => s
  | .refused => s.finishStream c se x 2
  | .reading elems =>
    match readBox x.issuer s x.amr x.slot x.box with
    | .error e => stop e
    | .ok (s', cells) =>
      let elems := enterBox x.slot x.box cells elems
      let y := { x with box := x.box + 1, stage := .reading elems }
      if y.box < x.slot.nBoxes then s'.setHead c se y else s'.sourceRead c se x r elems
  | .writing elems flags =>
    let last := decide (x.dst.nBoxes ≤ x.box + 1)
    match engWrites x.issuer s x.crc (collWrites x r elems flags) with
    | .error e => stop e
    | .ok (s', crc) =>
      let y := { x with box := x.box + 1, crc := crc }
      if last then s'.finishStream c se y 0 else s'.setHead c se y

/-- STREAM_BOX_STEP (spec/06 R231): one box of the command in progress; a cancelled command stops at this boundary. A fill of
a ring has its unit claimed first; a drain of a ring takes its units by RDRAIN_UNIT_TAKE. -/
def execStreamBoxStep (c : Nat) (se : Bool) (s : State) : Out :=
  seStep s c se (fun x => x.started) fun s x =>
    match x.cancel, x.claim with
    | some st, none => s.stopStream c se x st
    | _, _ =>
      match x.kind with
      | .fill => s.afterBox c se x (fillStep s x)
      | .drain => s.afterBox c se x (drainStep s x)
      | .copy => s.afterBox c se x (copyStep s x)
      | .mcast => s.afterBox c se x (mcastStep s x)
      | .rfill => match x.claim with
        | some pos =>
          let s' := s.afterBox c se x (rfillStep s x pos)
          s'.settleStop c x.group x.a
        | none => s
      | .rdrain | .stamp => s
      | .auto => s.afterBox c se x (autoStep s x)
      | .bopm => s.afterBox c se x (bopmStep s x)
      | .coll => match x.coll with
        | some r => s.collStep c se x r
        | none => s

end Sys2Proof.Machine
end

