-- ==== Sys2Proof/Machine/StreamIssue.lean ====
section
/-! DEFINITION. Instructions that load layout slots and send stream commands: `slay`, `scmd`, `bopm` and `auto` (spec/06 R226 to
R229; spec/07 R270; spec/10 R332; spec/14 R433, R434). -/

namespace Sys2Proof.Machine

/-- The places of ranges that an instruction reads as one load. -/
def placesOf (w : Nat) : State → List (Word × Nat) → Eff (State × List (Word × Loc × Nat))
  | s, [] => .ok (s, [])
  | s, (va, n) :: t => do
    let (s', l) ← placeOf s w va.toNat n .load
    let (s'', ls) ← placesOf w s' t
    pure (s'', (va, l, n) :: ls)

/-- An access that is no violation: 57 bits, and within the group's allocation where it names the window (spec/04 R136, R137). -/
def accessLegal (s : State) (w va n : Nat) : Bool :=
  decide (va < 2 ^ 57) && (!inWindow va || decide (va - windowBase + n ≤ (s.waveGroup w).spb))

/-- Ranges that an instruction reads as one load, none divided by a page boundary: every check of R141 over all of them before the
next check, then their bytes (spec/04 R141, spec/15 R456). -/
def recordReads (s : State) (w : Nat) (o : Order) (sc : Scope) (align : Nat) (l : List (Word × Nat)) :
    Eff (State × List (List Byte)) := do
  match l.find? fun q => q.1.toNat % align != 0 with
  | some q => raise 0x11#6 q.1
  | none => pure ()
  match l.find? fun q => !accessLegal s w q.1.toNat q.2 with
  | some q => raise 0x10#6 q.1
  | none => pure ()
  let (s', ps) ← placesOf w s l
  let reach := fun (q : Word × Loc × Nat) => match q.2.1 with
    | .mem pa => s'.reach (s'.waveDie w) pa
    | .sp _ => Reach.ok
  if ps.any fun q => reach q == .hold then .error (.stall .hold s)
  else do
    let s' ← demandHome s' w sc
    let s' ← raceCheck s' w { kind := .load, acq := Order.acquires o, rel := false, sc := sc } (l.map fun q => (0, q.1.toNat, q.2))
    demand (!(ps.any fun q => reach q == .broken)) 0x12#6
    match ps.findSome? fun q => (List.range q.2.2).findSome? fun i =>
        if s'.lostPlace w (q.2.1.plus i) 1 then some (q.1 + BitVec.ofNat 64 i) else none with
    | some a => raise 0x10#6 a
    | none => pure ()
    let s' := s'.l1Load w sc (Order.acquires o) (ps.flatMap fun q => placeBytes [q.2.1] q.2.2)
    pure (s', ps.map fun q => s'.waveRead w q.2.1 q.2.2)

/-- A record that an instruction reads as one load. -/
def recordRead (s : State) (w : Nat) (o : Order) (sc : Scope) (va : Word) (n align : Nat) : Eff (State × List Byte) := do
  let (s', l) ← recordReads s w o sc align [(va, n)]
  pure (s', l.headD [])

/-! `slay` (spec/06 R226) -/

/-- An immediate operand that is 0. -/
def zeroImm (o : Opnd) : Bool :=
  match o with
  | .imm x => x == 0
  | _ => true

/-- `slay`. -/
def execSlay (o : Order) (sc : Scope) (a b c : Opnd) (k : BitVec 4) (s : State) : Out :=
  issue s fun w => do
    checkOps s w [(a, .onlyS), (b, .onlyImm), (c, .si)]
    demand (zeroImm c) 0x02#6 (opndAddr c)
    demand (decide (k.toNat < 8)) 0x02#6
    let va := readS s w 1 (regOf a) + BitVec.ofInt 64 (64 * immOf b)
    let (s', bs) ← recordRead s w o sc va 64 64
    let base := match c with
      | .s n => some (readS s w 3 n.toNat)
      | _ => none
    let l := Layout.ofBytes bs base
    demand (l.ok bs) 0x02#6
    pure (s'.modGroup (s.wave w).id.group fun g => { g with layouts := modifyAt g.layouts k.toNat fun _ => some l })

/-! Sending a command -/

/-- A layout slot that an immediate names, if it is loaded. -/
def Group.slotAt (g : Group) (i : Int) : Option Layout :=
  if 0 ≤ i ∧ i < 8 then g.layouts.getD i.toNat none else none

/-- A command of a wave, as every kind begins. -/
def SCmd.blank (s : State) (w : Nat) (kind : SKind) (o : Order) (sc : Scope) : SCmd :=
  let x := s.wave w
  { kind := kind, wave := w, group := x.id.group, key := x.num.key, num := x.num.scmd, o := o, sc := sc, amr := x.amr, a := 0,
    slot := default, dst := default, stamp := none, eos := false, box := 0, started := false, status := 0, cancel := none,
    claim := none, coll := none, stage := .waiting, primes := [], ntt := false, bops := (0, 0, 0), limbs := 0, bsub := false,
    carry := 0, crc := none, pos := x.pos, seq := (s.core x.id.core).slots, direct := false }

/-- A command enters its engine's slots: the wave's queued stores are performed first, and the operation is counted; eight
commands fill an engine (spec/06 R229). -/
def sendStream (s : State) (w : Nat) (se : Bool) (x : SCmd) : Eff State :=
  let c := (s.wave w).id.core
  if s.streamFull w se then .error (.stall (if s.streamGoesOn w se then .busy else .queue) s)
  else if s.storesHeld w then .error (.stall .hold s)
  else
    let s := (s.performAll w).modWave w fun y => { y.count .cp false [] with num.scmd := y.num.scmd + 1 }
    .ok ((s.modQueue c se fun q => q ++ [x]).noteSent c se (x.kind == .coll))

/-- A window range that starts in the scratchpad window and leaves the group's allocation, or an address above 57 bits. A range
that starts below the window and runs into it is sent, and ends there with status 0x01: DESIGN CHOICE (spec/07 R270; log
entry 54). -/
def rangeBad (s : State) (w : Nat) (va : Word) (n : Nat) : Bool :=
  decide (2 ^ 57 ≤ va.toNat) || (inWindow va.toNat && decide ((s.waveGroup w).spb < va.toNat - windowBase + n))

/-- An `scmd` as decoded. -/
structure ScmdForm where
  kind : SKind
  o : Order
  sc : Scope
  se : Bool
  a : Opnd
  b : Opnd
  c : Opnd
  eos : Bool := false

/-- The operands that A accepts, by kind (spec/06 R228). -/
def ScmdForm.acceptsA (k : ScmdForm) : Accept :=
  match k.kind with
  | .copy | .rfill | .rdrain => .onlyImm
  | .coll => .onlyS
  | _ => .count

/-- The first step of R229: the decode checks of an `scmd`, the fields of R227 among them. -/
def ScmdForm.check (k : ScmdForm) (s : State) (w : Nat) : Eff Unit := do
  checkOps s w ([(k.a, k.acceptsA), (k.b, .onlyImm), (k.c, .count)])
  demand (zeroImm k.c) 0x02#6 (opndAddr k.c)
  demand (decide (0 ≤ immOf k.b) && decide (immOf k.b < 8)) 0x02#6 (opndAddr k.b)

/-- A command whose box must fit a ring's unit (spec/06 R229). -/
def ringFits (g : Group) (l : Layout) (r : Int) : Bool :=
  decide (0 ≤ r) && decide (r < (g.rings.length : Int)) && (g.ring r.toNat).defined && l.boxBytes == 2 ^ (g.ring r.toNat).lz

/-- The conditions of R229, step 3, on the operands of a kind; `a` is A's value, `i` the immediate of A. -/
def ScmdForm.suits (k : ScmdForm) (g : Group) (l : Layout) (dst : Layout) (i : Int) : Bool :=
  match k.kind with
  | .drain => l.conv == 0 && l.logn == 0
  | .copy => dst.conv == 0 && dst.sfmt == l.outFmt && productOf l.boxes == productOf dst.boxes
  | .mcast => !l.targets.isEmpty
  | .rfill => ringFits g l i
  | .rdrain => ringFits g l i && l.conv == 0 && l.logn == 0
  | _ => true

/-- A collective record that obeys R434; the destination is the slot that it names. -/
def collRecord (g : Group) (bs : List Byte) (k : Nat) : Option (CollRec × Layout) :=
  let f := fieldOf bs
  let d := f 12 1
  let r : CollRec :=
    { cid := BitVec.ofNat 32 (f 0 4), nrm := f 4 2, rank := f 6 2, op := f 8 1, all := f 9 1 == 1, rootRank := f 10 2,
      dslot := if d == 0xFF then none else some d, midx := f 13 1, limbs := f 14 1, flagw := f 16 8, k := k }
  let dst := g.slotAt d
  let named := match dst with
    | some l => decide (d < 8) && l.conv == 0 && l.logn == 0
    | none => false
  if decide (r.rank ≤ r.nrm) && decide (r.op ≤ 8) && decide (f 9 1 ≤ 1) && decide (r.rootRank ≤ r.nrm) &&
      (if r.op == 4 || r.op == 8 then decide (r.midx < 64) else r.midx == 0) &&
      (if r.op == 8 then decide (1 ≤ r.limbs) && decide (r.limbs ≤ 64) else r.limbs == 0) &&
      f 15 1 == 0 && r.flagw % 8 == 0 && f 24 8 == 0 && (if r.receives then named else d == 0xFF)
  then some (r, dst.getD default) else none

/-- The collective record of a rank, read and checked (spec/14 R433). -/
def collOf (s : State) (w : Nat) (k : ScmdForm) (va : Word) : Eff (State × CollRec × Layout) := do
  let (s', bs) ← recordRead s w k.o k.sc va 32 32
  let l := (s.wave w).id.launch
  let n := s.collCount l (BitVec.ofNat 32 (fieldOf bs 0 4)) (fieldOf bs 6 2)
  match collRecord (s.waveGroup w) bs n with
  | some r => pure (s', r.1, r.2)
  | none => raise 0x02#6

/-- An `scmd` is checked in the order of R229 and sent. -/
def ScmdForm.act (k : ScmdForm) (s : State) (w : Nat) : Eff State := do
  k.check s w
  let x := s.wave w
  let g := s.waveGroup w
  demandClean s w x.exec [k.a, k.c]
  let av ← uniOf s w x.exec 1 k.a
  let cv ← uniOf s w x.exec 3 k.c
  let stamp := match k.c with
    | .imm _ => none
    | _ => some cv
  let l ← if k.kind == .stamp then pure default
    else match g.slotAt (immOf k.b) with
      | some l => pure l
      | none => raise 0x02#6 (opndAddr k.b)
  let dst ← if k.kind == .copy then match g.slotAt (immOf k.a) with
      | some l => pure l
      | none => raise 0x02#6 (opndAddr k.a)
    else pure default
  let spKind := k.kind == .fill || k.kind == .drain || k.kind == .mcast
  demand (!spKind || decide (0 ≤ immOf k.a)) 0x02#6 (opndAddr k.a)
  demand (k.suits g l dst (immOf k.a)) 0x02#6
  demand (k.kind != .coll || av.toNat % 32 == 0) 0x11#6 av
  demand (cv.toNat % 8 == 0) 0x11#6 cv
  demand (decide (cv.toNat < 2 ^ 57)) 0x10#6 cv
  demand (!spKind || decide (av.toNat + l.nBoxes * l.boxBytes ≤ g.spb)) 0x10#6 (BitVec.ofNat 64 (windowBase + av.toNat))
  let (s, coll, dst) ← if k.kind == .coll then do
      let r ← collOf s w k av
      pure (r.1, some r.2.1, r.2.2)
    else pure (s, none, dst)
  roomFor s w .cp
  let ring := k.kind == .rfill || k.kind == .rdrain
  let cmd : SCmd := { SCmd.blank s w k.kind k.o k.sc with
    a := av.toNat, slot := l, dst := dst, stamp := stamp, eos := k.eos, coll := coll,
    cancel := if coll.any fun r => s.collStopped x.id.launch r then some 5 else none,
    status := if k.kind == .stamp then av.extractLsb' 0 8 else 0, direct := k.kind == .mcast || k.kind == .coll }
  let s ← sendStream s w k.se cmd
  let s := match coll with
    | some r => { s with collIssued := s.collIssued ++ [(x.id.launch, r.cid, r.rank)] }
    | none => s
  pure (if ring then s.modGroup x.id.group fun g => g.modRing av.toNat fun r => { r with engine := true } else s)

/-- `scmd.fill` (spec/06 R228). -/
def execScmdFill (o : Order) (sc : Scope) (se : Bool) (a b c : Opnd) (s : State) : Out :=
  issue s fun w => ({ kind := .fill, o, sc, se, a, b, c } : ScmdForm).act s w

/-- `scmd.drain` (spec/06 R228). -/
def execScmdDrain (o : Order) (sc : Scope) (se : Bool) (a b c : Opnd) (s : State) : Out :=
  issue s fun w => ({ kind := .drain, o, sc, se, a, b, c } : ScmdForm).act s w

/-- `scmd.copy` (spec/06 R228). -/
def execScmdCopy (o : Order) (sc : Scope) (se : Bool) (a b c : Opnd) (s : State) : Out :=
  issue s fun w => ({ kind := .copy, o, sc, se, a, b, c } : ScmdForm).act s w

/-- `scmd.mcast` (spec/06 R232): a forcing instruction (spec/15 R446). -/
def execScmdMcast (o : Order) (sc : Scope) (se : Bool) (a b c : Opnd) (s : State) : Out :=
  issue s fun w => do
    let k : ScmdForm := { kind := .mcast, o, sc, se, a, b, c }
    k.check s w
    forced s w k.act

/-- `scmd.rfill` (spec/06 R244). -/
def execScmdRfill (o : Order) (sc : Scope) (se : Bool) (a b c : Opnd) (eos : Bool) (s : State) : Out :=
  issue s fun w => ({ kind := .rfill, o, sc, se, a, b, c, eos } : ScmdForm).act s w

/-- `scmd.rdrain` (spec/06 R244). -/
def execScmdRdrain (o : Order) (sc : Scope) (se : Bool) (a b c : Opnd) (eos : Bool) (s : State) : Out :=
  issue s fun w => ({ kind := .rdrain, o, sc, se, a, b, c, eos } : ScmdForm).act s w

/-- `scmd.stamp` (spec/06 R228). -/
def execScmdStamp (o : Order) (sc : Scope) (se : Bool) (a c : Opnd) (s : State) : Out :=
  issue s fun w => ({ kind := .stamp, o, sc, se, a, b := .imm 0, c } : ScmdForm).act s w

/-- `scmd.coll` (spec/14 R433): a forcing instruction (spec/14 R442). -/
def execScmdColl (o : Order) (sc : Scope) (se : Bool) (a b c : Opnd) (s : State) : Out :=
  issue s fun w => do
    let k : ScmdForm := { kind := .coll, o, sc, se, a, b, c }
    k.check s w
    forced s w k.act

/-! `bopm` and `auto` -/

/-- Two ranges of bytes have a byte in common. -/
def rangesMeet (a m b n : Nat) : Bool := decide (a < b + n) && decide (b < a + m)

/-- `bopm` (spec/07 R270). -/
def execBopm (o : Order) (sc : Scope) (se : Bool) (d a b c : Opnd) (bsub : Bool) (s : State) : Out :=
  issue s fun w => do
    checkOps s w [(d, .onlyS), (a, .onlyS), (b, .onlyS), (c, .count)]
    let n ← uni1 s w c
    let dv := readS s w 4 (regOf d)
    let va := readS s w 1 (regOf a)
    let vb := readS s w 2 (regOf b)
    let n := n.toNat
    demand (decide (1 ≤ n) && decide (n ≤ 2 ^ 28)) 0x02#6 (opndAddr c)
    let clash := fun (v : Word) => v != dv && rangesMeet dv.toNat (4 * (n + 1)) v.toNat (4 * n)
    demand (!clash va && !clash vb) 0x02#6 (opndAddr d)
    match [dv, va, vb].find? fun v => v.extractLsb' 0 2 != 0#2 with
    | some v => raise 0x11#6 v
    | none =>
      match [(dv, n + 1), (va, n), (vb, n)].find? fun q => rangeBad s w q.1 (4 * q.2) with
      | some q => raise 0x10#6 q.1
      | none => do
        roomFor s w .cp
        sendStream s w se { SCmd.blank s w .bopm o sc with bops := (dv, va, vb), limbs := n, bsub := bsub }

/-- Rows of a tensor of at most two dimensions: the addresses of their first bytes. -/
def Layout.rows (l : Layout) : List Nat := (List.range (if l.rank == 2 then l.sizes.getD 1 1 else 1)).map fun j => l.address [0, j]

/-- The slots of an `auto` fit together (spec/10 R332). -/
def autoSlots (d a : Layout) : Bool :=
  let n := 4 * 2 ^ a.logn
  a.logn != 0 && decide (a.rank ≤ 2) && a.boxes.getD 1 1 == 1 && d.logn == 0 && d.sfmt == 1 && d.conv == 0 &&
  d.rank == a.rank && d.sizes.getD 0 0 == a.sizes.getD 0 0 && d.sizes.getD 1 0 == a.sizes.getD 1 0 &&
  d.boxes.getD 0 1 == a.boxes.getD 0 1 && d.rows.all fun x => a.rows.all fun y => !rangesMeet x n y n

/-- `auto` (spec/10 R332). -/
def execAuto (o : Order) (sc : Scope) (se : Bool) (a b c : Opnd) (ntt : Bool) (s : State) : Out :=
  issue s fun w => do
    checkOps s w [(a, .onlyImm), (b, .onlyImm), (c, .count)]
    demand (decide (0 ≤ immOf c)) 0x02#6 (opndAddr c)
    let m ← uni1 s w c
    match (s.waveGroup w).slotAt (immOf a), (s.waveGroup w).slotAt (immOf b) with
    | some dst, some src => do
      demand (autoSlots dst src) 0x02#6
      let k := if src.rank == 2 then src.sizes.getD 1 1 else 1
      demand (decide (m.toNat + k ≤ 64)) 0x02#6 (opndAddr c)
      let ps := (List.range k).map fun j => s.prime w (m.toNat + j)
      demand (ps.all Option.isSome) 0x02#6 (opndAddr c)
      roomFor s w .cp
      sendStream s w se { SCmd.blank s w .auto o sc with
        slot := src, dst := dst, ntt := ntt, primes := ps.map fun p => p.getD 1 }
    | none, _ => raise 0x02#6 (opndAddr a)
    | _, none => raise 0x02#6 (opndAddr b)

end Sys2Proof.Machine
end

