-- ==== Sys2Proof/Machine/Admission.lean ====
section
/-! DEFINITION. Admission: the cores of a partition, what fits a core, the choice of cores, and how a group and its waves start
(spec/12 R375 to R379, spec/01 R32, spec/15 R443, R444). -/

namespace Sys2Proof.Machine

/-! Cores of a partition (spec/01 R12, R32; the mapping of logical cores is the model's own, log entry 16) -/

/-- Physical cores of a partition. -/
def Partition.coreCount (p : Partition) : Nat := 192 * p.dies.length

/-- The physical core with number `i` in a partition. -/
def Partition.physOf (p : Partition) (i : Nat) : Nat := 192 * p.dies.getD (i / 192) 0 + i % 192

/-- The physical core that carries a logical core, and the one that carries its twin instance. -/
def Partition.carrier (p : Partition) (logical : Nat) (twin : Bool) : Nat :=
  let n := p.coreCount
  let i := logical % max 1 n
  p.physOf (if !twin then i else if 1 < p.dies.length then (i + 192) % n else (i + 4) % 192)

/-- A matrix engine with nothing in it (spec/09 R293). -/
def Matrix.empty (owner : Option Nat) : Matrix :=
  { owner := owner, tiles := List.replicate 8 [], scale := [], streams := List.replicate 4 default, handlerQ := [], fences := [],
    seq := 0, frozen := false }

/-- A core as it is before it has held a group. -/
def Core.fresh (part phys logical : Nat) (twin : Bool) : Core :=
  { phys := phys, logical := logical, twin := twin, part := part, clk := 0, slots := 0, retired := 0, running := none,
    last := none, kept := none, turn := 0, se := [[], []], mx := Matrix.empty none, lmuls := [], l1 := [], out := [] }

/-- The list index of a core, which is listed from its first group on. -/
def State.coreAt (s : State) (p phys logical : Nat) (twin : Bool) : State × Nat :=
  match s.cores.findIdx? fun c => c.part == p && c.phys == phys && c.logical == logical && c.twin == twin with
  | some i => (s, i)
  | none => ({ s with cores := s.cores ++ [Core.fresh p phys logical twin] }, s.cores.length)

/-! What a group needs (spec/12 R376) -/

/-- A place for a group. -/
structure Site where
  phys : Nat
  logical : Nat
  twin : Bool
deriving DecidableEq, Repr

/-- The parameters of a group: of the launch, or of the node kernel. -/
structure Need where
  kidx : Nat
  entry : Nat
  w : Nat
  wpg : Nat
  nvreg : Nat
  spb : Nat
  rings : Nat
  matrix : Bool

/-- A value that a kernel may leave open. -/
def orElse (x y : Nat) : Nat := if x = 0 then y else x

/-- What a group of kernel `k` of a launch needs. A node kernel whose `.group` is given uses its own SPB, zero too (spec/12
R385). -/
def Launch.need (l : Launch) (k : Nat) : Need :=
  let x := l.kernels.getD k default
  { kidx := k, entry := x.entry, w := orElse x.w l.r.w, wpg := orElse x.wpg l.r.wpg, nvreg := orElse x.nvreg l.r.nvreg,
    spb := if k != l.r.kidx && x.wpg != 0 then x.spb else orElse x.spb l.r.spb, rings := x.rings, matrix := x.matrix }

/-- Bytes of the register file. -/
def vrfBytes : Nat := 262144

/-- Bytes of scratchpad on a core of a partition (spec/04 R138). -/
def Partition.spBytes (p : Partition) : Nat := 393216 - 65536 * p.l1share

/-- An empty core offers what a group needs. -/
def Need.possible (n : Need) (p : Partition) : Bool :=
  decide (n.wpg ≤ 32) && decide (n.wpg * n.w * n.nvreg * 4 ≤ vrfBytes) && decide (n.spb ≤ p.spBytes) && decide (n.rings ≤ 16)

/-- Resident groups on cores. -/
def State.residents (s : State) (f : Core → Bool) : List Nat :=
  (List.range s.groups.length).filter fun g => !(s.group g).ended && f (s.core (s.group g).core)

/-- Waves of a group that hold their slots and registers: those that have not ended (spec/02 R81). -/
def State.holding (s : State) (g : Nat) : List Nat := (s.group g).waves.filter fun w => !(s.wave w).sch.ended

/-- Register bytes of waves, with the requests of `grow` that are granted. -/
def State.vrfUsed (s : State) (ws : List Nat) : Nat :=
  ws.foldl (fun acc w =>
    let x := s.wave w
    acc + 4 * x.id.width * (x.v.length + (if x.sch.growGrant == some true then x.sch.growWant.getD 0 else 0))) 0

def Core.at (t : Site) (c : Core) : Bool := c.phys == t.phys && c.logical == t.logical && c.twin == t.twin

/-- A core fits a group of a launch (spec/12 R376). -/
def State.coreFits (s : State) (l : Nat) (n : Need) (t : Site) : Bool :=
  let x := s.launch l
  let here := s.residents (Core.at t)
  let onPhys := s.residents fun c => c.phys == t.phys
  let ws := here.flatMap s.holding
  let alone := if x.r.det then here.all (fun g => (s.group g).launch == l) && onPhys.all fun g => (s.launch (s.group g).launch).r.det
    else onPhys.all fun g => !(s.launch (s.group g).launch).r.det
  alone && decide (ws.length + n.wpg ≤ 32) && decide (s.vrfUsed ws + n.wpg * n.w * n.nvreg * 4 ≤ vrfBytes) &&
  decide ((here.map fun g => (s.group g).spb).sum + n.spb ≤ (s.part x.part).spBytes) &&
  decide ((here.map fun g => (s.group g).rings.length).sum + n.rings ≤ 16) &&
  (!n.matrix || !(s.cores.any fun c => c.at t && c.mx.owner.isSome))

/-! The staging reserve (spec/15 R444). In deterministic mode no core's order may rest on when copies elsewhere end (spec/01 R34),
so what a launch's cores may come to hold together is set when it starts (log entry 40). -/

/-- The smallest non-zero amount that a group of any kernel of a launch uses, for a budget that `n` measures. -/
def Launch.least (l : Launch) (n : Need → Nat) : Nat :=
  (((l.r.kidx :: l.nodes.map fun d => d.kidx).map fun k => n (l.need k))).foldl min (n (l.need l.r.kidx))

/-- Groups that a budget takes. -/
def budgetGroups (have_ each : Nat) : Nat := if each = 0 then 32 else have_ / each

/-- The logical core of group `g` in deterministic mode. -/
def LaunchRec.logicalOf (r : LaunchRec) (g : Nat) : Nat :=
  if r.wide != 0 then g % 768 else if r.place == 0 then r.home else if r.place == 1 then 4 * r.home + g % 4
  else 192 * r.home + g % 192

/-- Logical cores over which a deterministic launch spreads its groups. -/
def LaunchRec.spread (r : LaunchRec) : Nat :=
  if r.wide != 0 then 768 else if r.place == 0 then 1 else if r.place == 1 then 4 else 192

/-- The logical cores that a deterministic launch uses, each with the number of groups that its own budgets let it hold at once. -/
def State.complements (s : State) (l : Nat) : List (Nat × Nat) :=
  let x := s.launch l
  let p := s.part x.part
  let most := min (min (budgetGroups 32 (x.least fun n => n.wpg)) (budgetGroups vrfBytes (x.least fun n => n.wpg * n.w * n.nvreg * 4)))
    (min (budgetGroups p.spBytes (x.least fun n => n.spb)) (budgetGroups 16 (x.least fun n => n.rings)))
  (List.range x.r.spread).filterMap fun i =>
    let own := (x.r.ngrp + x.r.spread - 1 - i) / x.r.spread
    if x.nodes.isEmpty && own == 0 then none
    else some (x.r.logicalOf i, if x.nodes.isEmpty then min most own else most)

/-- The dies that hold the copies of a deterministic launch's groups on a logical core. -/
def State.carrierDies (s : State) (l k : Nat) : List Nat :=
  let x := s.launch l
  (if x.r.chk then [false, true] else [false]).map fun b => (s.part x.part).carrier k b / 192

/-- Copies that a deterministic launch comes to hold on a die where each core holds at most `cap` of its groups. -/
def State.demandOn (s : State) (l d cap : Nat) : Nat :=
  ((s.complements l).map fun q => (s.carrierDies l q.1).countP (· == d) * min cap q.2).sum

/-- Copies that a deterministic launch comes to hold in all where each core holds at most `cap` of its groups. -/
def State.copiesAt (s : State) (l cap : Nat) : Nat :=
  ((s.complements l).map fun q => (if (s.launch l).r.chk then 2 else 1) * min cap q.2).sum

/-- Groups of a rerunnable deterministic launch that one logical core holds at most: as many as its budgets take where the reserve of
a single die has room for every copy of every core, else an equal share of that reserve, and one at least. A partition of one die
holds them all there, so that the number is the same on every partition (spec/12 R397). -/
def State.copyCap (s : State) (l : Nat) : Nat :=
  if s.copiesAt l 32 ≤ 32 then 32 else max 1 (32 / s.copiesAt l 1)

/-- A launch that holds its share of the reserves from its first group on: some core of it may hold several groups at once. -/
def State.claims (s : State) (l : Nat) : Bool :=
  if (s.launch l).r.det then
    let cap := s.copyCap l
    (s.complements l).any fun q => decide (2 ≤ min cap q.2)
  else false

/-- A launch that has begun. -/
def State.begun (s : State) (l : Nat) : Bool := !(s.launch l).complete && s.groups.any fun g => g.launch == l

/-- Copies for which a die's reserve is taken: those resident there but for `mover`, and what launches that have begun may still
come to. -/
def State.reserveUse (s : State) (d : Nat) (mover : Option Nat) : Nat :=
  let here := (s.residents fun c => c.phys / 192 == d).filter fun g => s.staged g && mover != some g
  let big := (here.map fun g => (s.group g).launch).eraseDups.filter s.claims
  let more := (List.range s.launches.length).filter fun l =>
    (s.launch l).rerunnable && (s.launch l).r.det && s.begun l && !big.contains l && s.claims l
  (here.filter fun g => !big.contains (s.group g).launch).length + ((big ++ more).map fun l => s.demandOn l d (s.copyCap l)).sum

/-- The reserves of the dies have room for the staging of copies at the sites `ts`; a copy that moves there leaves its own
(spec/15 R444). -/
def State.reserveHolds (s : State) (l : Nat) (ts : List Site) (mover : Option Nat := none) : Bool :=
  !(s.launch l).rerunnable ||
  if (s.launch l).r.det && s.claims l then
    s.begun l || (s.part (s.launch l).part).dies.all fun d => decide (s.reserveUse d mover + s.demandOn l d (s.copyCap l) ≤ 32)
  else ts.all fun t =>
    decide (s.reserveUse (t.phys / 192) mover + ts.countP (fun u => u.phys / 192 == t.phys / 192) ≤ 32)

/-- A logical core holds no more groups of a rerunnable deterministic launch than its share. -/
def State.underCap (s : State) (l : Nat) (t : Site) : Bool :=
  !((s.launch l).r.det && (s.launch l).rerunnable) || decide ((s.residents (Core.at t)).length < s.copyCap l)

/-- A core fits a group, and the reserve holds the staging of one more copy, beside that of the copies `also`. -/
def State.fitsAt (s : State) (l : Nat) (n : Need) (t : Site) (also : List Site := []) (mover : Option Nat := none) : Bool :=
  s.coreFits l n t && s.underCap l t && s.reserveHolds l (t :: also) mover

/-! The choice of a core (spec/12 R375, spec/15 R443) -/

/-- Numbers of the cores of the partition that are eligible in normal mode. -/
def State.eligible (s : State) (l : Nat) : List Nat :=
  let x := s.launch l
  if x.r.wide != 0 then List.range (s.part x.part).coreCount
  else if x.r.place == 0 then [x.r.home]
  else if x.r.place == 1 then (List.range 4).map fun i => 4 * x.r.home + i
  else (List.range 192).map fun i => 192 * x.r.home + i

/-- Resident waves of a physical core. -/
def State.wavesAt (s : State) (phys : Nat) : Nat :=
  ((s.residents fun c => c.phys == phys).map fun g => ((s.group g).waves.filter fun w => !(s.wave w).sch.ended).length).sum

/-- The fitting core with the fewest resident waves, the lowest number first; `also` are copies that enter with it, `mover` one that
moves there. -/
def State.bestSite (s : State) (l : Nat) (n : Need) (cands : List Nat) (also : List Site := []) (mover : Option Nat := none) :
    Option Site :=
  let p := s.part (s.launch l).part
  let fit := (cands.map fun i => (i, ({ phys := p.physOf i, logical := i, twin := false } : Site))).filter fun q =>
    s.fitsAt l n q.2 also mover
  (leastBy (fun (a b : Nat × Site) =>
    let x := s.wavesAt a.2.phys
    let y := s.wavesAt b.2.phys
    decide (x < y) || (x == y && decide (a.1 < b.1))) fit).map fun q => q.2

/-- The core for the twin of a copy: on another die where one fits, otherwise on another quad; `also` are copies that enter with
it, `mover` the twin that moves there, which leaves the core that it is on. -/
def State.twinSite (s : State) (l : Nat) (n : Need) (t : Site) (also : List Site) (mover : Option Nat := none) : Option Site :=
  let p := s.part (s.launch l).part
  let all := (List.range p.coreCount).filter fun i => mover.all fun g => (s.core (s.group g).core).phys != p.physOf i
  (s.bestSite l n (all.filter fun i => p.physOf i / 192 != t.phys / 192) also mover).or
    (s.bestSite l n (all.filter fun i => p.physOf i / 4 != t.phys / 4) also mover)

/-- The sites of the copies of group `g`: one, or a primary's and a twin's; none while it does not fit. -/
def State.sites (s : State) (l g : Nat) (n : Need) : Option (Site × Option Site) :=
  let x := s.launch l
  let p := s.part x.part
  if x.r.det then
    let k := x.r.logicalOf g
    let at_ := fun (b : Bool) => ({ phys := p.carrier k b, logical := k, twin := b } : Site)
    if s.fitsAt l n (at_ false) && (!x.r.chk || s.fitsAt l n (at_ true) [at_ false]) then
      some (at_ false, if x.r.chk then some (at_ true) else none)
    else none
  else match s.bestSite l n (s.eligible l) with
    | none => none
    | some t => if x.r.chk then (s.twinSite l n t [t]).map fun u => (t, some u) else some (t, none)

/-! Energy (spec/12 R379) -/

/-- C: what resident groups may still draw. -/
def State.commitment (s : State) (p : Nat) : Nat :=
  ((s.groups.filter fun g => !g.ended && g.copy != .twin && (s.launch g.launch).part == p).map
    fun g => (s.launch g.launch).r.est - g.metered).sum

/-- The account covers a group of the launch. -/
def State.covered (s : State) (l : Nat) : Bool :=
  let x := s.launch l
  x.r.est == 0 || decide ((x.r.est : Int) ≤ (s.part x.part).bellowsB - s.commitment x.part)

/-! How a group starts (spec/12 R378) -/

/-- A path record that runs from a position. -/
def PathRec.start (w : Nat) (p : Pos) : PathRec := { st := .run, pos := p, mask := allLanes w, reg := root, mset := 0 }

/-- The state with which the generator of stochastic conversions starts (spec/03 R129). -/
def genSeed (seed waveid : BitVec 32) : BitVec 32 :=
  let s := seed ^^^ (waveid * 0x9E3779B9#32)
  if s == 0 then 0x6D2B79F5#32 else s

/-- A wave as admission leaves it (spec/02 R38, spec/03 R92, R134; spec/05 R183; spec/12 R378); predicates and CY are zero
(log entry 5). -/
def Wave.start (id : WaveId) (nvreg : Nat) (entry amr : Word) : Wave :=
  { id := id, s := List.replicate 64 0, hb := List.replicate 8 0, cy := false, hcy := false, fflags := 0, amr := amr,
    nttthr := 2048, convGen := genSeed (amr.extractLsb' 32 32) id.waveid, preds := List.replicate 7 0,
    v := List.replicate nvreg { lanes := List.replicate id.width 0, md := 0xF#32 },
    lc := { paths := PathRec.start id.width { hdr := entry, idx := 0 } :: List.replicate 31 PathRec.none,
            regions := List.replicate 32 Region.free, dead := 0, exited := 0, xfault := 0, gmap := List.range id.width,
            randG := (List.range id.width).map fun l => BitVec.ofNat 32 (id.waveid.toNat * id.width + l),
            randC := List.replicate id.width 0, xprog := 0, xm := 0, dying := 0 },
    tr := { hm := false, cause := 0, tcla := 0, tinf := 0, tword := 0, taddr := 0, tlanes := 0, txprog := 0, txm := 0,
            ss := false, entryPath := 0, entryMask := 0, entryReg := 0, opened := 0, pend20 := none, pend21 := none,
            pend22 := none, inClause := false, armed := false, stepDue := none, heapSaved := none, barSaved := none, prmtSaved := none,
            nrecSaved := none },
    mem := { storeQ := [], outst := [], interval := 0, acqs := [], sig := 0, esig := 0, monitor := none, polled := none },
    num := { key := 0, scmd := 0, lmulm := 0, matrix := 0, ntt := 0, heap := 0, tier := 0 },
    sch := { started := false, resume := false, count := 0, y := false, stall := none, halted := false, parked := false,
             ended := false, readyAt := 0, waiting := none, backward := 0, wd := 0, retired := 0, arrived := none,
             arrivals := [], barArrived := none, heapWait := none, heapReply := none, growWant := none,
             growGrant := none, prmt := none, nrec := none, need := none },
    evq := [], ovf := false, ports := List.replicate 8 none, fwd := [], word := 0 }

/-- The lowest free wave slots of a core. -/
def State.freeSlots (s : State) (c : Nat) : List Nat :=
  let used := ((s.residents fun _ => true).filter fun g => (s.group g).core == c).flatMap fun g => (s.holding g).map fun w => (s.wave w).id.slot
  (List.range 32).filter fun i => !used.contains i

/-- AMR at launch. -/
def LaunchRec.amrAt (r : LaunchRec) : Word := (r.amr &&& ~~~ 0x4000#64) ||| (if r.det then 0x4000#64 else 0)

/-! A copy that runs again on another core (spec/15 R452, R454, spec/11 R360) -/

/-- A resident group moves to a site, where its waves are ready from now on and L1 keeps nothing older than what they acquired
(spec/12 R380, spec/04 R167); the barriers of its launch have other participants from then on (spec/02 R78). -/
def State.moveCopy (s : State) (g : Nat) (t : Site) : State :=
  let x := s.group g
  let old := x.core
  let (s, c) := s.coreAt (s.launch x.launch).part t.phys t.logical t.twin
  if c == old then s
  else
    let slots := s.freeSlots c
    let mx := (s.core old).mx
    let s := (s.modGroup g fun y => { y with core := c }).modCore c fun k => { k with l1 := [] }
    let now := (s.core c).slots
    let s := (x.waves.zip slots).foldl (fun s q => s.modWave q.1 fun y =>
      { y with id.core := c, id.slot := q.2, sch.readyAt := now }) s
    let s := if mx.owner == some g then
        (s.modCore c fun k => { k with mx := mx }).modCore old fun k => { k with mx := { k.mx with owner := none } }
      else s
    (s.settlePhases g).switch old

/-- The twin of a group whose copies run again goes to another core where one fits; in deterministic mode it has its one core. -/
def State.moveTwin (s : State) (g : Nat) : State :=
  let x := s.group g
  let l := x.launch
  match x.sibling, (s.launch l).r.det with
  | some t, false =>
    let k := s.core x.core
    match s.twinSite l ((s.launch l).need x.kidx) { phys := k.phys, logical := k.logical, twin := false } [] (some t) with
    | some u => s.moveCopy t u
    | none => s
  | _, _ => s

/-- A group that runs again goes to another core where one fits. -/
def State.moveAway (s : State) (g : Nat) : State :=
  let x := s.group g
  let l := x.launch
  if (s.launch l).r.det then s
  else
    let here := (s.core x.core).phys
    match s.bestSite l ((s.launch l).need x.kidx) ((s.eligible l).filter fun i => (s.part (s.launch l).part).physOf i != here) []
        (some g) with
    | some u => s.moveCopy g u
    | none => s

/-- What is to be admitted next: a node group whose batch has closed, with its number, or a root group. -/
structure Waiting where
  grp : Nat
  node : Option (Nat × Nat × Nat × Nat)
  need : Need

/-- The first group of a launch in the order of R377. -/
def Launch.waiting (l : Launch) : Option Waiting :=
  match l.closed with
  | (node, bin, b, n, k) :: _ => some { grp := l.r.ngrp + k, node := some (node, bin, b, n), need := l.need (l.node node).kidx }
  | [] => if l.next < l.r.ngrp then some { grp := l.next, node := none, need := l.need l.r.kidx } else none

/-- The values that a group's registers start with: those at ARGP, and those of a node group; the address at which a value cannot
be read. -/
def State.argsAt (s : State) (l d : Nat) : Nat → State × Except Nat (List Word)
  | 0 => (s, .ok [])
  | n + 1 =>
    match State.argsAt s l d n with
    | (s, .error a) => (s, .error a)
    | (s, .ok vs) =>
      let x := s.launch l
      if !x.r.argmask.getLsbD n then (s, .ok (vs ++ [0]))
      else
        let a := x.r.argp.toNat + 8 * n
        match s.resolve s.groups.length d x.part x.r.ctx a 8 .load with
        | some (s', .mem pa) => if s'.lostAt pa then (s', .error a) else (s', .ok (vs ++ [BitVec.ofNat 64 (s'.mem.readLe pa 8)]))
        | some (s', .sp _) => (s', .error a)
        | none => (s, .error a)

/-- S0 to S55 of a group. -/
def startRegs (l : Launch) (q : Waiting) (args : List Word) : List Word :=
  match q.node with
  | none => args
  | some (node, bin, b, n) =>
    [BitVec.ofNat 64 ((l.node node).batchAt bin b), BitVec.ofNat 64 n, BitVec.ofNat 64 (node * 2 ^ 16 + bin)] ++ args.drop 3

/-- One copy of a group enters a core; `copy` and its sibling's list index are given. With the first group of a deterministic launch
the core's retired count begins at zero, and its rotation with the lowest WAVEID (spec/02 R82, spec/12 R393). -/
def State.addGroup (s : State) (l : Nat) (q : Waiting) (regs : List Word) (t : Site) (copy : Copy) (sib : Option Nat) : State :=
  let x := s.launch l
  let (s, c) := s.coreAt x.part t.phys t.logical t.twin
  let g := s.groups.length
  let k := s.core c
  let first := !(s.groups.any fun y => y.launch == l && y.core == c)
  let slots := s.freeSlots c
  let w0 := s.waves.length
  let ws := (List.range q.need.wpg).map fun i =>
    let id : WaveId := { core := c, slot := slots.getD i 0, group := g, launch := l, part := x.part, ctx := x.r.ctx, widx := i,
                         width := q.need.w, waveid := BitVec.ofNat 32 (q.grp * q.need.wpg + i), grpid := BitVec.ofNat 32 q.grp }
    let y := Wave.start id q.need.nvreg (x.r.code + BitVec.ofNat 64 q.need.entry) x.r.amrAt
    { y with s := regs ++ List.replicate (64 - regs.length) 0, sch.readyAt := k.slots }
  let rings := List.replicate q.need.rings Ring.fresh
  let mx := Matrix.empty (some g)
  let snap : Snapshot := { waves := ws, sp := [], spLost := [], layouts := List.replicate 8 none, rings := rings, barriers := [], marker := 0,
                           matrix := if q.need.matrix then some mx else none, rescales := [],
                           turn := (none, if x.r.det && first then none else k.last),
                           sent := if x.r.det && first then [[], []] else k.sent }
  let y : Group := { Group.empty with
    launch := l, grp := BitVec.ofNat 32 q.grp, core := c, waves := (List.range q.need.wpg).map (w0 + ·), node := q.node,
    kidx := q.need.kidx, spb := q.need.spb, layouts := List.replicate 8 none, rings := rings, copy := copy, sibling := sib,
    snap := if x.rerunnable then some snap else none, ended := false }
  let s := { s with groups := s.groups ++ [y], waves := s.waves ++ ws }
  s.modCore c fun k =>
    { k with mx := if q.need.matrix then mx else k.mx, retired := if x.r.det && first then 0 else k.retired,
             running := if x.r.det && first then none else k.running, last := if x.r.det && first then none else k.last,
             sent := if x.r.det && first then [[], []] else k.sent, l1 := [] }

/-- The waiting group of a launch leaves the queue. -/
def State.takeWaiting (s : State) (l : Nat) (q : Waiting) : State :=
  s.modLaunch l fun x => if q.node.isSome then { x with closed := x.closed.drop 1 } else { x with next := x.next + 1 }

/-- A group whose arguments cannot be read ends at once as aborted (spec/12 R378). -/
def State.refuseGroup (s : State) (l : Nat) (q : Waiting) (a : Nat) : State :=
  let s := s.addError (s.launch l).part 1 0x10 0 0 0 0 (BitVec.ofNat 64 a)
  match q.node with
  | none => s.modLaunch l fun x => { x with aborted := x.aborted + 1 }
  | some nb => (s.freeBatch l nb).modLaunch l fun x => { x with nodeAborted := x.nodeAborted + 1 }

/-- Admit the waiting group of a launch at its sites. -/
def State.takeIn (s : State) (l : Nat) (q : Waiting) (t : Site × Option Site) : State :=
  let s := s.takeWaiting l q
  match s.argsAt l (t.1.phys / 192) 56 with
  | (s, .error a) => s.refuseGroup l q a
  | (s, .ok args) =>
    let regs := startRegs (s.launch l) q args
    let g := s.groups.length
    match t.2 with
    | none => s.addGroup l q regs t.1 .single none
    | some u => (s.addGroup l q regs t.1 .primary (some (g + 1))).addGroup l q regs u .twin (some g)

/-! The task engine of a die (spec/12 R377) -/

/-- A launch waits for cores of a die. -/
def State.waitsFor (s : State) (d l : Nat) : Bool :=
  let x := s.launch l
  let p := s.part x.part
  !x.complete && p.dies.contains d && s.alive x.part && p.run == .running &&
  match x.waiting with
  | none => false
  | some q => if x.r.det then p.carrier (x.r.logicalOf q.grp) false / 192 == d
              else (s.eligible l).any fun i => p.physOf i / 192 == d

/-- The launches that wait for a die's cores, in the order in which it takes them; none after one that has been passed over
65,536 times. -/
def State.candidates (s : State) (d : Nat) : List Nat :=
  let ls := sortBy (fun (a b : Nat) =>
      let x := s.launch a
      let y := s.launch b
      decide (y.r.prio < x.r.prio) || (x.r.prio == y.r.prio && decide (x.ident.toNat ≤ y.ident.toNat)))
    ((List.range s.launches.length).filter (s.waitsFor d))
  match ls.findIdx? fun l => decide (65536 ≤ (s.launch l).passOver.getD d 0) with
  | some i => ls.take (i + 1)
  | none => ls

/-- What a die would take in for a launch. -/
def State.plan (s : State) (d l : Nat) : Option (Waiting × Site × Option Site) :=
  match (s.launch l).waiting with
  | none => none
  | some q =>
    match s.sites l q.grp q.need with
    | some t => if t.1.phys / 192 == d && s.covered l then some (q, t) else none
    | none => none

/-- Pass-over counts of a die after it has admitted a group of `l`. -/
def State.passed (s : State) (d l : Nat) : State :=
  { s with launches := (s.launches.zipIdx).map fun q =>
      if q.2 == l then { q.1 with passOver := q.1.passOver.set d 0 }
      else if s.waitsFor d q.2 then { q.1 with passOver := modifyAt q.1.passOver d fun n => min 65536 (n + 1) }
      else q.1 }


/-- The task engine of a die admits a group of one of the launches of a list, taken in order. -/
def State.admitFrom (s : State) (d : Nat) (ls : List Nat) : State :=
  match ls.findSome? fun l => (s.plan d l).map fun t => (l, t) with
  | none => s
  | some (l, q, t) => (s.passed d l).takeIn l q t

/-- GROUP_ADMISSION (spec/12 R377). -/
def execGroupAdmission (d : Nat) (s : State) : Out :=
  event s (((s.candidates d).findSome? (s.plan d)).isSome) fun s => s.admitFrom d (s.candidates d)

/-- PASS_OVER_LIMIT (spec/12 R377): a launch that a die has passed over 65,536 times; no launch after it is admitted there. -/
def execPassOverLimit (d : Nat) (l : Nat) (s : State) : Out :=
  let c := s.candidates d
  event s (c.contains l && decide (65536 ≤ (s.launch l).passOver.getD d 0) && (c.findSome? (s.plan d)).isSome) fun s => s.admitFrom d c

/-- The next group of a deterministic launch for a logical core: a closed batch's, then the first root group of the core. Root
groups come round to a core within 768 of them (spec/12 R375, R377). -/
def Launch.nextOn (l : Launch) (k : Nat) : Option Waiting :=
  match l.closed.find? fun b => l.r.logicalOf (l.r.ngrp + b.2.2.2.2) == k with
  | some (node, bin, b, n, i) => some { grp := l.r.ngrp + i, node := some (node, bin, b, n), need := l.need (l.node node).kidx }
  | none => (((List.range 768).map (l.next + ·)).find? fun g => decide (g < l.r.ngrp) && l.r.logicalOf g == k).map fun g =>
      { grp := g, node := none, need := l.need l.r.kidx }

/-- In deterministic mode the next group of a launch on a core fits it: it is admitted before the next wave runs, after the groups
ahead of it in the launch's order, and when the energy account covers it (spec/12 R377, R379, R393). A partition that is pre-empted
admits none, and its waves run their save handlers meanwhile (spec/11 R356). -/
def State.awaitsGroup (s : State) (c : Nat) : Bool :=
  let k := s.core c
  (s.part k.part).run == .running && (List.range s.launches.length).any fun l =>
    let x := s.launch l
    x.r.det && !x.complete && x.part == k.part && (!k.twin || x.r.chk) && match x.nextOn k.logical with
      | none => false
      | some q =>
        let at_ := fun (b : Bool) => ({ phys := (s.part k.part).carrier k.logical b, logical := k.logical, twin := b } : Site)
        s.coreFits l q.need (at_ k.twin) && s.underCap l (at_ k.twin)

/-- The wave of a core, the first in rotation, that has still to leave its restore handler (spec/11 R358). -/
def State.restorer (s : State) (c : Nat) : Option Nat :=
  (s.rotation c ((s.core c).last.getD (2 ^ 32))).find? fun w => (s.wave w).restoring

/-- The wave that a core ran when its partition was pre-empted, where it is still there. -/
def State.keptWave (s : State) (c : Nat) : Option Nat :=
  match (s.core c).kept with
  | some w => if (s.wavesOf c).contains w then some w else none
  | none => none

/-- The next wave of a core in deterministic mode takes its turn: after a restore first the waves with a restore handler to leave, and
the wave that ran before. Rotation goes on from the wave that ran; a wave that parked for a pre-emption has not switched
(spec/12 R393, spec/11 R358). -/
def State.takeTurn (s : State) (c : Nat) : State :=
  let k := s.core c
  if (s.part k.part).run == .running && ((s.restorer c).isSome || (s.keptWave c).isSome) then
    match s.restorer c with
    | some w => s.modCore c fun x => { x with running := some w }
    | none => s.modCore c fun x => { x with running := s.keptWave c, kept := none }
  else
  let base := match k.running with
    | some w => if (s.wave w).sch.parked then k.last else some (s.wave w).id.waveid.toNat
    | none => k.last
  s.modCore c fun x => { x with running := s.chooseDet c (base.getD (2 ^ 32)), last := base }

/-! Register grow and shrink (spec/12 R381 to R384) -/

/-- Waves that hold registers on the core of a wave. -/
def State.coreHolding (s : State) (c : Nat) : List Nat :=
  ((s.residents fun _ => true).filter fun g => (s.group g).core == c).flatMap s.holding

/-- A core has room for `k` more registers of a wave. -/
def State.growFits (s : State) (w k : Nat) : Bool :=
  decide (s.vrfUsed (s.coreHolding (s.wave w).id.core) + 4 * (s.wave w).id.width * k ≤ vrfBytes)

/-- `grow` is granted: the registers are zero. -/
def grown (s : State) (w k : Nat) (t : Bool) (pe : BitVec 3) : State :=
  s.modWave w fun x =>
    let y := { x with v := x.v ++ List.replicate k { lanes := List.replicate x.id.width 0, md := 0xF#32 },
                      sch.growWant := none, sch.growGrant := none }
    if t then y else y.setP pe x.exec (BitVec.allOnes 1024)

/-- `grow` has failed. -/
def growFailed (s : State) (w k : Nat) (t : Bool) (pe : BitVec 3) : Eff State :=
  let s := s.modWave w fun x => { x with sch.growWant := none, sch.growGrant := none }
  if t then .error (.done (s.trapped w { code := 0x1A#6, addr := BitVec.ofNat 64 k, resume := true }))
  else .ok (s.modWave w fun x => x.setP pe x.exec 0)

/-- k of `grow` and `shrink`. -/
def growCount (s : State) (w : Nat) (a : Opnd) : Eff Nat := do
  checkOps s w [(a, .count)]
  let v ← uni1 s w a
  demand (v.toNat % 8 == 0 && decide (8 ≤ v.toNat) && decide (v.toNat ≤ 56)) 0x02#6 (opndAddr a)
  pure v.toNat

/-- `grow` (spec/12 R382). -/
def execGrow (t : Bool) (a : Opnd) (pe : BitVec 3) (s : State) : Out :=
  issue s fun w => do
    let k ← growCount s w a
    let x := s.wave w
    demand (decide (x.v.length + k ≤ 64)) 0x02#6 (opndAddr a)
    match x.sch.growGrant with
    | some true => pure (grown s w k t pe)
    | some false => growFailed s w k t pe
    | none =>
      if s.growFits w k then pure (grown s w k t pe)
      else if (s.waveLaunch w).r.det then growFailed s w k t pe
      else .error (.stall .grow (s.modWave w fun y => { y with sch.growWant := some k }))

/-- `shrink` (spec/12 R384). -/
def execShrink (a : Opnd) (s : State) : Out :=
  issue s fun w => do
    let k ← growCount s w a
    demand (decide (16 + k ≤ (s.wave w).v.length)) 0x02#6 (opndAddr a)
    if (s.wave w).idle then pure (s.modWave w fun x => { x with v := x.v.take (x.v.length - k) })
    else .error (.stall .settle s)

/-- Waves of a core that stall in `grow`, in ascending WAVEID. -/
def State.growers (s : State) (c : Nat) : List Nat :=
  sortBy (fun (a b : Nat) =>
      let x := s.wave a
      let y := s.wave b
      decide (x.id.waveid.toNat < y.id.waveid.toNat) ||
        (x.id.waveid == y.id.waveid && decide ((s.waveLaunch a).ident.toNat ≤ (s.waveLaunch b).ident.toNat)))
    ((s.wavesOf c).filter fun w => (s.wave w).sch.stall == some .grow && (s.wave w).sch.growGrant.isNone)

/-- The outcome of a request reaches its wave. -/
def State.answerGrow (s : State) (w : Nat) (ok : Bool) : State := (s.modWave w fun x => { x with sch.growGrant := some ok }).unstall w

/-- Requests granted in order while they fit. -/
def State.grantGrows (s : State) : List Nat → State
  | [] => s
  | w :: t => if s.growFits w ((s.wave w).sch.growWant.getD 0) then State.grantGrows (s.answerGrow w true) t else s

/-- A core's first blocked request fits. -/
def State.growReady (s : State) (c : Nat) : Bool :=
  match s.growers c with
  | [] => false
  | w :: _ => s.growFits w ((s.wave w).sch.growWant.getD 0)

/-- GROW_GRANT (spec/12 R382). -/
def execGrowGrant (c : Nat) (s : State) : Out := event s (s.growReady c) fun s => s.grantGrows (s.growers c)

/-- GROW_DEADLOCK_FAIL (spec/12 R383). -/
def execGrowDeadlockFail (c : Nat) (s : State) : Out :=
  let ws := s.growers c
  match ws.getLast? with
  | none => .next s
  | some w =>
    event s (ws.length == (s.wavesOf c).length && !(ws.any fun v => s.growFits v ((s.wave v).sch.growWant.getD 0)))
      fun s => s.answerGrow w false

end Sys2Proof.Machine
end

