-- ==== Sys2Proof/Machine/Atomic.lean ====
section
/-! DEFINITION. Barriers as instructions use them: arrival and wait of a wave, and the step that completes a phase (spec/02
R77 to R80). -/

namespace Sys2Proof.Machine

/-- BARRIER_PHASE_COMPLETION (spec/02 R78). -/
def execBarrierPhaseCompletion (sc : Scope) (owner unit : Nat) (id : BitVec 4) (s : State) : Out :=
  event s (s.phaseFull owner (s.barrier sc owner unit id)) fun s => s.settle sc owner unit id

/-! Arrival and wait of a wave -/

/-- Identifiers of a scope (spec/02 R77). -/
def barrierIds (sc : Scope) : Nat := if sc == .core then 16 else 4

/-- The scope and identifier checks of R77. -/
def checkBarrier (s : State) (w : Nat) (sc : Scope) (id : Nat) : Eff Unit :=
  demand (sc != .wave && sc != .sys && decide (id < barrierIds sc) &&
    decide (scopeRank sc ≤ (s.waveLaunch w).r.level)) 0x02#6


def Wave.clearArrival (x : Wave) (sc : Scope) (id : BitVec 4) : Wave :=
  { x with sch.arrivals := x.sch.arrivals.filter fun a => !(a.1 == sc && a.2.1 == id), sch.barArrived := none }

/-- The pending-arrival bit is set, with the phase joined. -/
def Wave.setArrival (x : Wave) (sc : Scope) (id : BitVec 4) (phase : Nat) : Wave :=
  { x with sch.arrivals := x.sch.arrivals ++ [(sc, id, phase)] }

/-- The wave arrives: a release at the scope (its stores are performed, its interval rises), then the count. At a scope wider
than core the primary counts and tells its twin the phase (spec/02 R78 to R80, spec/15 R443). -/
def arriveBarrier (s : State) (w : Nat) (sc : Scope) (id : BitVec 4) : Eff State :=
  if s.storesHeld w then .error (.stall .hold s) else
  let count := fun (s : State) (w : Nat) =>
    let (owner, unit) := s.barrierPlace w sc
    let s := (s.settle sc owner unit id).performAll w
    let s := s.releaseInterval w
    let b := s.barrier sc owner unit id
    ((s.setBarrier owner { b with arrived := b.arrived ++ [w] }).settle sc owner unit id, b.phase)
  if sc == .core then
    let r := count s w
    .ok (r.1.modWave w fun x => x.setArrival sc id r.2)
  else forwarded s w
    (fun s w => let r := count s w; .ok (r.1, { val := BitVec.ofNat 64 r.2, pred := false, trap := none }))
    (fun s w f => .ok (s.modWave w fun x => x.setArrival sc id f.val.toNat))


/-- The wait of `barw`: it clears the bit when the phase is complete, and stalls until then; at its end it is an acquire at the
barrier's scope (spec/02 R79, R80). -/
def waitBarrier (s : State) (w : Nat) (sc : Scope) (id : BitVec 4) : Eff State :=
  let (owner, unit) := s.barrierPlace w sc
  let s := s.settle sc owner unit id
  match (s.wave w).pendingArrival sc id with
  | none => .ok (s.modWave w fun x => { x with sch.barArrived := none })
  | some p =>
    if s.phasePast w sc id p then
      .ok ((if Scope.wide sc then s.l1Clear (s.wave w).id.core else s).modWave w fun x => x.clearArrival sc id)
    else .error (.stall (.barrier sc id) s)

end Sys2Proof.Machine
end

