-- ==== Sys2Proof/Machine/Control.lean ====
section
/-! DEFINITION. Control instructions, class 0 (spec/02 R71 to R83). -/

namespace Sys2Proof.Machine

/-- `nop`: 1 + n issue slots (spec/02 R83). -/
def execNop (n : BitVec 4) (s : State) : Out :=
  issue s fun w => .ok (s.modCore (s.wave w).id.core fun k => { k with slots := k.slots + n.toNat })

/-- What `bru` does for a wave (spec/02 R73). -/
def bruAct (imm : BitVec 32) (s : State) (w : Nat) : Eff State := branchTo s w ((s.wave w).target imm.toInt) id

/-- `bru` (spec/02 R73). -/
def execBru (imm : BitVec 32) (s : State) : Out := issueJump s (bruAct imm s)

/-- The conditions of `brs` (spec/02 R73). -/
def brHolds (cc : BrCond) (x : Word) : Bool :=
  match cc with
  | .eq0 => x == 0
  | .ne0 => x != 0
  | .lt0 => decide (x.toInt < 0)
  | .ge0 => decide (0 ≤ x.toInt)

def brsAct (cc : BrCond) (n : Opnd) (imm : BitVec 32) (s : State) (w : Nat) : Eff State := do
  checkOps s w [(n, .onlyS)]
  if brHolds cc (readS s w 1 (regOf n)) then branchTo s w ((s.wave w).target imm.toInt) id
  else pure (s.modWave w Wave.advance)

/-- `brs` (spec/02 R73). -/
def execBrs (cc : BrCond) (n : Opnd) (imm : BitVec 32) (s : State) : Out := issueJump s (brsAct cc n imm s)

/-- A jump to the address in an operand (spec/02 R73, R74). -/
def jumpAct (a : Opnd) (s : State) (w : Nat) : Eff State := do
  checkOps s w [(a, .sv)]
  let t ← uni1 s w a
  branchTo s w t id

/-- `jmps` (spec/02 R73). -/
def execJmps (a : Opnd) (s : State) : Out := issueJump s (jumpAct a s)

/-- `ret` has the effect of `jmps` (spec/02 R74). -/
def execRet (a : Opnd) (s : State) : Out := issueJump s (jumpAct a s)

/-- The return address goes to Sd before the branch (spec/02 R73, R74). -/
def linkTo (w : Nat) (d : Opnd) (s : State) : State := s.modWave w fun x => x.setS (regOf d) x.fallThrough

def callAct (d : Opnd) (imm : BitVec 32) (s : State) (w : Nat) : Eff State := do
  checkOps s w [(d, .onlyS)]
  branchTo s w ((s.wave w).target imm.toInt) (linkTo w d)

/-- `call` (spec/02 R73). -/
def execCall (d : Opnd) (imm : BitVec 32) (s : State) : Out := issueJump s (callAct d imm s)

def callsAct (d a : Opnd) (s : State) (w : Nat) : Eff State := do
  checkOps s w [(d, .onlyS), (a, .sv)]
  let t ← uni1 s w a
  branchTo s w t (linkTo w d)

/-- `calls` (spec/02 R74). -/
def execCalls (d a : Opnd) (s : State) : Out := issueJump s (callsAct d a s)

/-- `wait` stalls until every class meets its value (spec/02 R75). -/
def execWait (nld nst ncp ntl : BitVec 6) (s : State) : Out :=
  issue s fun w => if (s.wave w).waitsMet nld nst ncp ntl then .ok s else .error (.stall .waitOp s)

/-- `yield` ends the wave's turn after it issues (spec/02 R76). -/
def execYield (s : State) : Out :=
  match s.running with
  | none => .next s
  | some w =>
    let c := (s.wave w).id.core
    let quiet := (s.waveLaunch w).r.det && (s.wave w).quietHandler
    let s' := (s.modWave w Wave.advance).retire w (s.wave w)
    let slots := (s'.core c).slots
    if quiet then .next s'
    else .next ((s'.modWave w fun x => { x with sch.readyAt := slots, sch.backward := 0 }).switch c)

/-- `bar`: `bara` followed by `barw`, as one instruction (spec/02 R77, R79). -/
def execBar (sc : Scope) (id : BitVec 4) (s : State) : Out :=
  issue s fun w => do
    checkBarrier s w sc id.toNat
    if (s.wave w).sch.barArrived == some (s.wave w).pos then waitBarrier s w sc id
    else do
      demand ((s.wave w).pendingArrival sc id).isNone 0x02#6
      let s ← arriveBarrier s w sc id
      waitBarrier (s.modWave w fun x => { x with sch.barArrived := some x.pos }) w sc id

/-- `bara` arrives only (spec/02 R79). -/
def execBara (sc : Scope) (id : BitVec 4) (s : State) : Out :=
  issue s fun w => do
    checkBarrier s w sc id.toNat
    demand ((s.wave w).pendingArrival sc id).isNone 0x02#6
    arriveBarrier s w sc id

/-- `barw` waits only (spec/02 R79). -/
def execBarw (sc : Scope) (id : BitVec 4) (s : State) : Out :=
  issue s fun w => do
    checkBarrier s w sc id.toNat
    waitBarrier s w sc id

/-- `exitw` ends the whole wave once it is drained (spec/02 R81). -/
def execExitw (s : State) : Out := issueJump s fun w => endNow s w

/-- The core's clk, as a reading advances it (spec/02 R82, spec/01 R36). -/
def clkReading (s : State) (w : Nat) : Eff (State × Fwd) :=
  let c := (s.wave w).id.core
  let now := (s.core c).clk + Config.clkAdvance s.fresh
  .ok (s.modCore c fun k => { k with clk := now }, { val := BitVec.ofNat 64 now, pred := false, trap := none })

/-- `clkrd`: the retired count in deterministic mode, the core's clk otherwise, which the primary forwards (spec/02 R82,
spec/12 R396, spec/15 R451). -/
def execClkrd (d : Opnd) (s : State) : Out :=
  issue s fun w => do
    checkOps s w [(d, .onlyS)]
    if (s.waveLaunch w).r.det then s.putScalar w d (BitVec.ofNat 64 (s.core (s.wave w).id.core).retired)
    else forwarded s w clkReading fun s w f => s.putScalar w d f.val

end Sys2Proof.Machine
end

