-- ==== Sys2Proof/Machine/LaneControl.lean ====
section
/-! DEFINITION. Divergence, member-set, compaction and mask instructions of class 4 (spec/05 R189 to R209), and the livelock
trap (spec/12 R395). The chanter's `xeq` stands in Chanter.lean. -/

namespace Sys2Proof.Machine

/-! Divergence -/

/-- The split of `dbr`: a new region, a new PEND path, the current path narrowed (spec/05 R191). -/
def Wave.split (x : Wave) (t ra : Word) (mt mf : Mask) : Option Wave :=
  match x.freeRegion, x.freePath with
  | some q, some i =>
    let r := BitVec.ofNat 6 q
    let p := x.path
    let y := x.modRegion r fun _ => { valid := true, ra := ra.extractLsb' 3 61, par := p.reg, live := p.mask, arr := 0 }
    let y := y.setPath i { st := .pend, pos := { hdr := x.fallThrough, idx := 0 }, mask := mf, reg := r, mset := 0 }
    let y := y.modPath x.cur fun p => { p with mask := mt, reg := r }
    some (({ y with tr.opened := if x.tr.hm then y.tr.opened ||| BitVec.ofNat 32 (2 ^ q) else y.tr.opened } : Wave).goto
      { hdr := t, idx := 0 })
  | _, _ => none

def dbrAct (target reconv : BitVec 16) (pg : Guard) (s : State) (w : Nat) : Eff State :=
  let x := s.wave w
  let bits := guardBits pg (readP s w 0 pg.p)
  let mt := x.exec &&& bits
  let mf := x.exec &&& ~~~ bits
  if mf == 0 then branchTo s w (x.target target.toInt) id
  else if mt == 0 then branchTo s w x.fallThrough id
  else match x.split (x.target target.toInt) (x.target reconv.toInt) mt mf with
    | some y => .ok (s.setWave w y)
    | none => raise 0x1D#6

/-- `dbr` (spec/05 R191). -/
def execDbr (target reconv : BitVec 16) (pg : Guard) (s : State) : Out := issueJump s (dbrAct target reconv pg s)

/-- A path has ended: the next one is current; with none left the wave ends. -/
def pathGone (s : State) (w : Nat) (x : Wave) : Eff State :=
  match x.pathEnded x.cur with
  | some y => .ok ((s.setWave w y).pathSlot w)
  | none => endNow s w

/-- `join` (spec/05 R192). -/
def execJoin (s : State) : Out :=
  issueJump s fun w => do
    let x := s.wave w
    let g := x.path.reg
    demand (g != root) 0x01#6
    pathGone s w (x.modRegion g fun r => { r with arr := r.arr ||| x.exec, live := r.live &&& ~~~ x.exec })

/-- `brk`: lanes leave the n innermost regions (spec/05 R193). -/
def execBrk (g : Guards) (target : BitVec 16) (n : BitVec 4) (s : State) : Out :=
  issueJump s fun w => do
    let x := s.wave w
    let f : Pos := { hdr := x.fallThrough, idx := 0 }
    let mb := activeMask s w g
    let mc := x.exec &&& ~~~ mb
    if mb == 0 then pure (s.setWave w (x.goto f))
    else
      let chain := x.chain 33 x.path.reg
      demand (decide (n.toNat ≤ chain.length)) 0x02#6
      let out := (chain.drop n.toNat).headD root
      let y := (chain.take n.toNat).foldl (fun y r => y.modRegion r fun e => { e with live := e.live &&& ~~~ mb }) x
      match y.pendLanes (x.target target.toInt) out mb with
      | none => raise 0x1D#6
      | some (z, _) =>
        if mc != 0 then
          pure (s.setWave w ((z.modPath x.cur fun p => { p with mask := mc }).goto f))
        else pathGone s w z

/-- `exitl` ends the selected lanes; the last one ends the wave (spec/05 R194). -/
def execExitl (g : Guards) (s : State) : Out :=
  issueJump s fun w => do
    let x := s.wave w
    let f : Pos := { hdr := x.fallThrough, idx := 0 }
    let mb := activeMask s w g
    let mc := x.exec &&& ~~~ mb
    if mb == 0 then pure (s.setWave w (x.goto f))
    else
      let y := (x.chain 33 x.path.reg).foldl (fun y r => y.modRegion r fun e => { e with live := e.live &&& ~~~ mb })
        ({ x with lc.exited := x.lc.exited ||| mb } : Wave)
      if y.live == 0 then do
        demandDrained s w
        pure ((s.setWave w y).leave w)
      else if mc != 0 then pure (s.setWave w ((y.modPath x.cur fun p => { p with mask := mc }).goto f))
      else pathGone s w y

/-! Votes, permutes and scans -/

/-- Word `w` of the ballot (spec/05 R202). -/
def ballotWord (m bits : Mask) (w : Nat) : Lane := (m &&& bits).extractLsb' (32 * w) 32

/-- `vote` (spec/05 R202). -/
def execVote (md : VoteMode) (d a b : Opnd) (s : State) : Out :=
  issueMembers s fun w => do
    checkOps s w [(d, if md == .ballot then .onlyV else .onlyP), (a, .onlyP), (b, .onlyS)]
    let v := (s.wave w).named (readS s w 2 (regOf b))
    let parts ← gather s w v
    let x := s.wave w
    let m := x.members v
    let bits := readP s w 1 (BitVec.ofNat 3 (regOf a))
    match md with
    | .any => pure (s.modWave w fun y => y.setP (BitVec.ofNat 3 (regOf d)) parts (if m &&& bits != 0 then BitVec.allOnes 1024 else 0))
    | .all => pure (s.modWave w fun y => y.setP (BitVec.ofNat 3 (regOf d)) parts (if m &&& ~~~ bits == 0 then BitVec.allOnes 1024 else 0))
    | .ballot =>
      let ws := (List.range x.id.width).map fun l => ballotWord m bits (l % 32)
      pure (s.modWave w fun y => y.setV (regOf d) parts ws (tagMd .u32))

/-- What a permute gives each participant: the source lane, or none. -/
structure Moved where
  parts : Mask
  a : VReg
  src : Nat → Option Nat

/-- A permute's result is written at completion of one LD operation (spec/05 R203). -/
def putMoved (s : State) (w : Nat) (d : Opnd) (pe : BitVec 3) (r : Moved) : State :=
  let x := s.wave w
  let W := x.id.width
  let vals := (List.range W).map fun l => match r.src l with
    | some k => r.a.lanes.getD k 0
    | none => 0
  let t := mdTag r.a.md
  let md := mkMd t 0 false false (if t == .modq then mdMidx r.a.md else 0)
  s.modWave w fun y => y.count .ld true
    [.v (regOf d) r.parts vals 0 md, .p pe r.parts (maskOf W fun l => (r.src l).isSome)]

/-- The register that a V source gives. -/
def vSource (s : State) (w site : Nat) (o : Opnd) : VReg :=
  match o with
  | .special _ => { lanes := (List.range (s.wave w).id.width).map (BitVec.ofNat 32), md := tagMd .u32 }
  | _ => readV s w site (regOf o)

/-- The source of a permute: any tag but limb. -/
def movedA (s : State) (w : Nat) (a : Opnd) : Eff VReg := do
  let r := vSource s w 1 a
  demand (mdTag r.md != .limb) 0x05#6 (opndAddr a)
  pure r

/-- A lane that is a member (spec/05 R203). -/
def validLane (W : Nat) (m : Mask) (k : Int) : Option Nat :=
  if 0 ≤ k ∧ k < (W : Int) ∧ m.getLsbD k.toNat then some k.toNat else none

/-- The lane that `shfl` reads for lane l. -/
def shflLane (md : ShflMode) (l b : Nat) : Int :=
  match md with
  | .idx => b
  | .up => (l : Int) - b
  | .down => (l : Int) + b
  | .xor => (l ^^^ b : Nat)

/-- `shfl` (spec/05 R203). -/
def execShfl (md : ShflMode) (d a b c : Opnd) (pe : BitVec 3) (s : State) : Out :=
  issueMembers s fun w => do
    checkOps s w [(d, .onlyV), (a, .lanes), (b, { v := true, s := true, imm := true, lane := true }), (c, .onlyS)]
    let v := (s.wave w).named (readS s w 3 (regOf c))
    let parts ← gather s w v
    roomFor s w .ld
    let x := s.wave w
    let m := x.members v
    demandClean s w parts [a, b]
    let r ← movedA s w a
    let bs := srcOf s w [] 2 b
    pure (putMoved s w d pe { parts := parts, a := r, src := fun l => validLane x.id.width m (shflLane md l (bs.val l).toNat) })

/-- `perm`: on a collision the highest sender wins (spec/05 R203). -/
def execPerm (d a b c : Opnd) (pe : BitVec 3) (s : State) : Out :=
  issueMembers s fun w => do
    checkOps s w [(d, .onlyV), (a, .lanes), (b, { v := true, s := true, imm := true, lane := true }), (c, .onlyS)]
    let v := (s.wave w).named (readS s w 3 (regOf c))
    let parts ← gather s w v
    roomFor s w .ld
    let x := s.wave w
    let m := x.members v
    demandClean s w parts [a, b]
    let r ← movedA s w a
    let bs := srcOf s w [] 2 b
    let W := x.id.width
    let sends := (lanesOf W parts).map fun l => ((validLane W m (bs.val l).toNat), l)
    let from_ := fun k => (sends.reverse.find? fun q => q.1 == some k).map Prod.snd
    pure (putMoved s w d pe { parts := parts, a := r, src := from_ })

/-- `bcst` (spec/05 R203). The order of the execution traps of a member-set instruction, which the spec does not give, is 0x07, then
0x06, then 0x05, here and in `shfl`, `perm` and `scan` (DESIGN CHOICE: log entry 56). -/
def execBcst (d a b c : Opnd) (pe : BitVec 3) (s : State) : Out :=
  issueMembers s fun w => do
    checkOps s w [(d, .onlyV), (a, .lanes), (b, .count), (c, .onlyS)]
    let v := (s.wave w).named (readS s w 3 (regOf c))
    let parts ← gather s w v
    roomFor s w .ld
    let x := s.wave w
    let m := x.members v
    demandClean s w parts [a, b]
    let k ← uniOf s w parts 2 b
    let r ← movedA s w a
    pure (putMoved s w d pe { parts := parts, a := r, src := fun _ => validLane x.id.width m (k.extractLsb' 0 32).toNat })

/-- Identity of a scan (spec/05 R204). -/
def scanIdentity (op : ScanOp) (sgn : Bool) : Lane :=
  match op with
  | .add | .or | .xor => 0
  | .and => 0xFFFFFFFF#32
  | .min => if sgn then 0x7FFFFFFF#32 else 0xFFFFFFFF#32
  | .max => if sgn then 0x80000000#32 else 0

def scanOp (op : ScanOp) (sgn : Bool) (x y : Lane) : Lane :=
  let less := if sgn then decide (y.toInt < x.toInt) else decide (y.toNat < x.toNat)
  match op with
  | .add => x + y
  | .or => x ||| y
  | .xor => x ^^^ y
  | .and => x &&& y
  | .min => if less then y else x
  | .max => if less then x else y

/-- Prefix results over the lanes from `l` on: each lane's result. -/
def scanFrom (op : ScanOp) (sgn excl : Bool) (m : Mask) : Nat → Lane → List Lane → List Lane
  | _, _, [] => []
  | l, acc, x :: xs =>
    let next := if m.getLsbD l then scanOp op sgn acc x else acc
    (if excl then acc else next) :: scanFrom op sgn excl m (l + 1) next xs

/-- `scan` (spec/05 R204). -/
def execScan (op : ScanOp) (excl : Bool) (d a b : Opnd) (s : State) : Out :=
  issueMembers s fun w => do
    checkOps s w [(d, .onlyV), (a, .lanes), (b, .onlyS)]
    let v := (s.wave w).named (readS s w 2 (regOf b))
    let parts ← gather s w v
    let m := (s.wave w).members v
    demandClean s w parts [a]
    let r := vSource s w 1 a
    let t := mdTag r.md
    demand (t == .i32 || t == .u32) 0x05#6 (opndAddr a)
    let sgn := t == .i32
    pure (s.modWave w fun y => y.setV (regOf d) parts (scanFrom op sgn excl m 0 (scanIdentity op sgn) r.lanes) (tagMd t))

/-! Compaction -/

/-- A list rearranged: place k takes what stood at `order k`. -/
def rearrange {α : Type} (order : List Nat) (l : List α) (d : α) : List α := order.map fun k => l.getD k d

def rearrangeMask (order : List Nat) (m : Mask) : Mask := maskOf order.length fun k => m.getLsbD (order.getD k 0)

/-- Lanes move: place k takes what stood at `order k` (spec/05 R208). -/
def Wave.renumber (x : Wave) (order : List Nat) : Wave :=
  { x with
    v := x.v.map fun r => if mdTag r.md == .limb then r else { r with lanes := rearrange order r.lanes 0 },
    preds := x.preds.map (rearrangeMask order),
    lc.dead := rearrangeMask order x.lc.dead, lc.exited := rearrangeMask order x.lc.exited,
    lc.xfault := rearrangeMask order x.lc.xfault, lc.gmap := rearrange order x.lc.gmap 0,
    lc.randG := rearrange order x.lc.randG 0, lc.randC := rearrange order x.lc.randC 0,
    lc.paths := x.lc.paths.map fun p => { p with mask := rearrangeMask order p.mask } }

/-- The masks of operations outstanding follow the lanes. -/
def Dest.renumber (order : List Nat) : Dest → Dest
  | .p r m bits => .p r (rearrangeMask order m) (rearrangeMask order bits)
  | d => d

/-- The lanes of a wave are renumbered; what its heap commands have still to write follows the lanes that they acted for
(spec/08 R283). -/
def State.renumberLanes (s : State) (w : Nat) (order : List Nat) : State :=
  let s := s.modWave w fun x => { x.renumber order with
    mem.outst := x.mem.outst.map fun p => { p with dests := p.dests.map (Dest.renumber order) } }
  { s with dies := s.dies.map fun d => { d with heapQ := d.heapQ.map fun c =>
      match c.op with
      | .alloc n z t m pe => if c.wave == w then { c with op := .alloc n z t (rearrangeMask order m) pe } else c
      | _ => c } }

/-- The wait and the checks of `regrp` and `ungrp` (spec/05 R206). -/
def demandSingle (s : State) (w : Nat) : Eff Unit :=
  let x := s.wave w
  if x.outstanding .ld != 0 then .error (.stall .settle s)
  else demand (x.pathCount == 1 && x.lc.regions.all (fun r => !r.valid) && !x.chanting) 0x01#6

/-- `regrp` (spec/05 R207). -/
def execRegrp (s : State) : Out :=
  issue s fun w => do
    demandSingle s w
    let x := s.wave w
    let live := x.live
    let ls := List.range x.id.width
    pure (s.renumberLanes w ((ls.filter fun l => live.getLsbD l) ++ ls.filter fun l => !live.getLsbD l))

/-- `ungrp` (spec/05 R207). -/
def execUngrp (s : State) : Out :=
  issue s fun w => do
    demandSingle s w
    let x := s.wave w
    let ls := List.range x.id.width
    pure ((s.renumberLanes w (ls.map fun i => x.lc.gmap.idxOf i)).modWave w fun y => { y with lc.gmap := ls })

/-! Mask access -/

/-- The lane-control mask that a special names (spec/05 R209). -/
def Wave.laneMask (x : Wave) (n : Nat) : Mask := if n == 4 then x.exec else if n == 5 then x.lc.dead else x.lc.xfault

/-- `maskrd` (spec/05 R209). -/
def execMaskrd (d a b : Opnd) (s : State) : Out :=
  issue s fun w => do
    checkOps s w [(d, .onlyS), (a, { msk := true }), (b, .si)]
    let i ← uni1 s w b
    demand (decide (i.toNat < 32)) 0x02#6 (opndAddr b)
    s.putScalar w d ((((s.wave w).laneMask (regOf a)).extractLsb' (32 * i.toNat) 32).zeroExtend 64)

/-- `maskwr` clears XFAULT bits (spec/05 R209). -/
def execMaskwr (d a b : Opnd) (s : State) : Out :=
  issue s fun w => do
    checkOps s w [(d, { msk := true }), (a, .si), (b, .si)]
    demand (d == .special 6#5) 0x02#6 (opndAddr d)
    let (i, v) ← uni2 s w a b
    demand (decide (i.toNat < 32)) 0x02#6 (opndAddr a)
    let bits : Mask := (v.extractLsb' 0 32).zeroExtend 1024 <<< (32 * i.toNat)
    pure (s.modWave w fun x => { x with lc.xfault := x.lc.xfault &&& ~~~ bits })

/-- `deadrd` (spec/05 R209). -/
def execDeadrd (d : Opnd) (s : State) : Out :=
  issue s fun w => do
    checkOps s w [(d, .onlyP)]
    pure (s.modWave w fun x => x.setP (BitVec.ofNat 3 (regOf d)) (allLanes x.id.width) x.lc.dead)

/-- The branch that a decoded instruction is, for the livelock trap. -/
def branchAct : Instr → Option (State → Nat → Eff State)
  | .bru imm => some (bruAct imm)
  | .brs cc n imm => some (brsAct cc n imm)
  | .jmps a => some (jumpAct a)
  | .ret a => some (jumpAct a)
  | .call d imm => some (callAct d imm)
  | .calls d a => some (callsAct d a)
  | .dbr t r pg => some (dbrAct t r pg)
  | _ => none

/-- LIVELOCK: the backward branch at the wave's position that reaches 2^20 in deterministic mode raises 0x14 in place of being
taken; the count returns to zero (spec/12 R395). The row acts where the branch, given one backward branch less, would go
backward. -/
def execLivelock (wv : Nat) (s : State) : Out :=
  let x := s.wave wv
  let due := (s.waveLaunch wv).r.det && decide (2 ^ 20 ≤ x.sch.backward + 1) && x.resident && x.sch.started &&
    x.sch.stall.isNone && decide (wv < s.waves.length)
  match due, fetchWord s wv x.wordAddr with
  | true, .ok (s', word) =>
    match decodeWord word with
    | .ok i => match branchAct i with
      | some act =>
        let calm := s'.modWave wv fun y => { y with sch.backward := 0, word := word }
        match act calm wv with
        | .ok t => event s ((t.wave wv).sch.backward == 1) fun _ => calm.trapped wv { code := 0x14#6 }
        | .error _ => .next s
      | none => .next s
    | .error _ => .next s
  | _, _ => .next s

end Sys2Proof.Machine
end

