-- ==== Sys2Proof/Machine/MemPipe.lean ====
section
/-! DEFINITION. The memory pipe, class 6: addresses and their checks, loads, stores, limb arrays, atomics, ordered atomics,
fences, prefetches and L1 invalidation (spec/04 R139 to R156). Each `…At` acts for a set of lanes, which a computed word
shares. -/

namespace Sys2Proof.Machine

/-! Addresses (spec/04 R139, R141, R145) -/

/-- The base field of a memory instruction: an S register or an even pair of V registers. -/
def baseOk (s : State) (w : Nat) (a : Opnd) : Bool := !isV a || s.evenPair w a

/-- V registers that a base names. -/
def baseRegs (a : Opnd) : List Opnd :=
  match a with
  | .v n => [.v n, .v (n + 1)]
  | _ => []

/-- V registers of a group. -/
def groupRegs (o : Opnd) (k : Nat) : List Opnd :=
  match o with
  | .v n => (List.range k).map fun i => .v (n + BitVec.ofNat 6 i)
  | _ => []

/-- The address of each active lane, modulo 2^64. -/
def laneAddrs (s : State) (w : Nat) (m : Mask) (a b : Opnd) (n : Nat) : List (Nat × Nat) :=
  let off := immOf b * n
  let at_ := fun (x : Word) => (x + BitVec.ofInt 64 off).toNat
  let ls := lanesOf (s.wave w).id.width m
  match a with
  | .v r =>
    let lo := readV s w 1 r.toNat
    let hi := readV s w 2 (r.toNat + 1)
    ls.map fun l => (l, at_ (hi.lanes.getD l 0 ++ lo.lanes.getD l 0))
  | _ => let x := readS s w 1 (regOf a); ls.map fun l => (l, at_ x)

/-- The window address of each active lane of `lds` and `sts`: a negative offset, or one past the window, names no place
there. -/
def laneOffsets (s : State) (w : Nat) (m : Mask) (a b : Opnd) (n : Nat) : List (Nat × Int) :=
  let off := immOf b * n
  let ls := lanesOf (s.wave w).id.width m
  match a with
  | .v r => let v := readV s w 1 r.toNat; ls.map fun l => (l, ((v.lanes.getD l 0).toNat : Int) + off)
  | .special _ => ls.map fun l => (l, (l : Int) + off)
  | _ => let x := readS s w 1 (regOf a); ls.map fun l => (l, (x + BitVec.ofInt 64 off).toInt)

/-- The lanes of a list, as a mask. -/
def lanesMask (W : Nat) (l : List (Nat × Nat)) : Mask := maskOf W fun i => l.any fun q => q.1 == i

/-- The lanes' places: each with its address. -/
structure Places where
  s : State
  at_ : List (Nat × Nat × Loc)

/-- Lanes that translate, lanes whose page is tiered, lanes that fault; and whether a lane's walk waits in a recovery hold. -/
structure Walked where
  s : State
  good : List (Nat × Nat × Loc) := []
  tiered : List (Nat × Nat) := []
  bad : List (Nat × Nat) := []
  held : Bool := false

/-- Translate one lane's address. -/
def walkLane (w : Nat) (want : Want) (acc : Walked) (q : Nat × Nat) : Walked :=
  let x := acc.s.wave w
  if inWindow q.2 then { acc with good := acc.good ++ [(q.1, q.2, .sp (q.2 - windowBase))] }
  else match acc.s.translate (acc.s.waveDie w) x.id.part x.id.ctx q.2 want with
    | .ok (s', pa) => { acc with s := s', good := acc.good ++ [(q.1, q.2, .mem pa)] }
    | .error (.tiered ..) => { acc with tiered := acc.tiered ++ [q] }
    | .error .bad => { acc with bad := acc.bad ++ [q] }
    | .error .held => { acc with held := true }

/-- Steps 3 to 5 of the checks of R141 over every active lane: misalignment, access violation, translation, where TADDR names the
lowest faulting lane's address (spec/13 R405); a place behind a recovery hold waits (spec/14 R431). `window` says whether the window
is accepted. -/
def resolveLanes (s : State) (w : Nat) (window : Bool) (l : List (Nat × Nat)) (n align : Nat) (want : Want) : Eff Places := do
  let W := (s.wave w).id.width
  let fail := fun (code : BitVec 6) (bad : List (Nat × Nat)) => match bad with
    | [] => (.ok () : Eff Unit)
    | q :: _ => raise code (BitVec.ofNat 64 q.2) (some (lanesMask W bad))
  fail 0x11#6 (l.filter fun q => q.2 % align != 0)
  fail 0x10#6 (l.filter fun q => decide (2 ^ 57 ≤ q.2) ||
    (inWindow q.2 && (!window || decide ((s.waveGroup w).spb < q.2 - windowBase + n))))
  let r := l.foldl (walkLane w want) { s := s }
  let faulting := sortBy (fun (a b : Nat × Nat) => decide (a.1 ≤ b.1)) (r.bad ++ r.tiered)
  if !r.bad.isEmpty then raise 0x10#6 (BitVec.ofNat 64 (faulting.headD (0, 0)).2) (some (lanesMask W r.bad))
  if r.held then .error (.stall .hold s)
  else match r.tiered with
  | [] =>
    if r.good.any fun q => match q.2.2 with | .mem pa => r.s.reach (s.waveDie w) pa == .hold | .sp _ => false then
      .error (.stall .hold s)
    else pure { s := r.s, at_ := r.good }
  | ts => demandFault s w ts (some (lanesMask W ts))

/-- Places in the scratchpad for `lds` and `sts`. -/
def resolveOffsets (s : State) (w : Nat) (l : List (Nat × Int)) (n : Nat) : Eff Places :=
  let abs := l.map fun q => (q.1, (BitVec.ofInt 64 ((windowBase : Int) + q.2)).toNat)
  let W := (s.wave w).id.width
  let inside := fun (q : Nat × Int) => decide (0 ≤ q.2) && decide (q.2 + n ≤ ((s.waveGroup w).spb : Int))
  let outs := (l.zip abs).filter fun q => !inside q.1
  match abs.filter fun q => q.2 % n != 0 with
  | q :: r => raise 0x11#6 (BitVec.ofNat 64 q.2) (some (lanesMask W (q :: r)))
  | [] => match outs with
    | q :: _ => raise 0x10#6 (BitVec.ofNat 64 q.2.2) (some (lanesMask W (outs.map (·.2))))
    | [] => .ok { s := s, at_ := l.map fun q => (q.1, windowBase + q.2.toNat, .sp q.2.toNat) }

/-- Some bytes of a place are lost, or lie behind a broken link: a load of it gives zero and poison (spec/04 R144, spec/14
R432). -/
def State.deadPlace (s : State) (w : Nat) (l : Loc) (n : Nat) : Bool :=
  s.lostPlace w l n || match l with
    | .mem pa => s.reach (s.waveDie w) pa == .broken
    | .sp _ => false

def Places.locs (p : Places) : List Loc := p.at_.map fun q => q.2.2

/-- Addresses with their size, as the race detector takes them. -/
def Places.accesses (p : Places) (n : Nat) : List (Nat × Nat × Nat) := p.at_.map fun q => (q.1, q.2.1, n)

/-- What a memory instruction has done: the state, and the counted operation with the registers it writes. -/
structure MemOut where
  s : State
  op : Option (Cls × List Dest) := none

/-- Count the operation of a memory instruction; a store stays until it is performed. -/
def countMem (w : Nat) (o : MemOut) : State :=
  match o.op with
  | none => o.s
  | some (c, ds) => o.s.modWave w fun x => x.count c (c != .st) ds

/-- The registers of an operation are written at once: a computed word's access (spec/05 R214). -/
def applyMem (w : Nat) (o : MemOut) : State :=
  match o.op with
  | none => o.s
  | some (_, ds) => o.s.modWave w fun x => x.applyDests ds

/-- Issue a memory instruction that counts in class `c`. -/
def memIssue (s : State) (g : Guards) (c : Cls) (act : Mask → State → Nat → Eff MemOut) : Out :=
  issue s fun w => do
    if activeMask s w g != 0 then roomFor s w c
    let o ← act (s.wave w).exec s w
    pure (countMem w o)

/-! Loads (spec/04 R144, R145) -/

/-- The active lanes among `base`. -/
def lanesActive (s : State) (w : Nat) (base : Mask) (g : Guards) : Mask :=
  base &&& guardBits g.ga (readP s w 0 g.ga.p) &&& guardBits g.gb (readP s w 1 g.gb.p)

/-- Metadata that a load keeps and writes, by its width. -/
def loadMd : Width → BitVec 32 × BitVec 32
  | .b | .h => (0, tagMd .u32)
  | .sb | .sh => (0, tagMd .i32)
  | _ => (keepButPoison, 0)

/-- The value that a load brings into a lane. -/
def loadValue (s : State) (w n : Nat) (sgn : Bool) (l : Loc) : Nat :=
  if s.deadPlace w l n then 0
  else
    let v := s.waveLe w l n
    if sgn then wrapTo 32 (signedOf (8 * n) v) else v

/-- Load lanes from their places. -/
def loadLanes (w : Nat) (p : Places) (m : Mask) (d : Opnd) (n regs : Nat) (sgn : Bool) (keep md : BitVec 32) : MemOut :=
  let vals := p.at_.map fun q => (q.1, loadValue p.s w n sgn q.2.2)
  let of := fun l => match vals.find? fun q => q.1 == l with | some q => q.2 | none => 0
  let poison := p.at_.any fun q => p.s.deadPlace w q.2.2 n
  { s := p.s, op := some (.ld, groupDests (regOf d) regs (p.s.wave w).id.width m keep md poison of) }

/-- `ld` and `ldt` over the lanes `base`. -/
def loadAt (g : Guards) (o : Order) (sc : Scope) (d a b : Opnd) (n regs : Nat) (sgn : Bool) (keep md : BitVec 32)
    (base : Mask) (s : State) (w : Nat) : Eff MemOut := do
  checkOps s w [(d, .onlyV), (a, .sv), (b, .onlyImm)]
  demand (s.fits w d regs && baseOk s w a) 0x02#6
  let m := lanesActive s w base g
  if m == 0 then pure { s := s }
  else do
    demandClean s w m (baseRegs a)
    let p ← resolveLanes s w true (laneAddrs s w m a b n) n n .load
    let s' ← demandHome p.s w sc
    let s' ← raceCheck s' w { kind := .load, acq := Order.acquires o, rel := false, sc := sc } (p.accesses n)
    let s' := s'.l1Load w sc (Order.acquires o) (placeBytes p.locs n)
    pure (loadLanes w { p with s := s' } m d n regs sgn keep md)

def ldAt (g : Guards) (o : Order) (sc : Scope) (d a b : Opnd) (wd : Width) : Mask → State → Nat → Eff MemOut :=
  loadAt g o sc d a b (widthBytes wd) (widthRegs wd) (widthSigned wd) (loadMd wd).1 (loadMd wd).2

/-- `ld` (spec/04 R144). The eviction priority changes timing only. -/
def execLd (g : Guards) (o : Order) (sc : Scope) (_ev : BitVec 3) (d a b : Opnd) (wd : Width) (s : State) : Out :=
  memIssue s g .ld (ldAt g o sc d a b wd)

def ldtAt (g : Guards) (o : Order) (sc : Scope) (d a b : Opnd) (t : Tag) : Mask → State → Nat → Eff MemOut :=
  loadAt g o sc d a b 4 1 false 0 (tagMd t)

/-- `ldt` (spec/04 R144). -/
def execLdt (g : Guards) (o : Order) (sc : Scope) (_ev : BitVec 3) (d a b : Opnd) (t : Tag) (s : State) : Out :=
  memIssue s g .ld (ldtAt g o sc d a b t)

/-- `lds` over the lanes `base`; with acquire ordering at a scope wider than the core no older line stays in L1 (spec/04 R145,
R163). -/
def ldsAt (g : Guards) (o : Order) (sc : Scope) (d a b : Opnd) (wd : Width) (base : Mask) (s : State) (w : Nat) : Eff MemOut := do
  let n := widthBytes wd
  checkOps s w [(d, .onlyV), (a, { v := true, s := true, lane := true }), (b, .onlyImm)]
  demand (s.fits w d (widthRegs wd)) 0x02#6 (opndAddr d)
  let m := lanesActive s w base g
  if m == 0 then pure { s := s }
  else do
    demandClean s w m (if isV a then [a] else [])
    let p ← resolveOffsets s w (laneOffsets s w m a b n) n
    let s' := if Order.acquires o && Scope.wide sc then p.s.l1Clear (s.wave w).id.core else p.s
    pure (loadLanes w { p with s := s' } m d n (widthRegs wd) (widthSigned wd) (loadMd wd).1 (loadMd wd).2)

/-- `lds` (spec/04 R145). -/
def execLds (g : Guards) (o : Order) (sc : Scope) (d a b : Opnd) (wd : Width) (s : State) : Out :=
  memIssue s g .ld (ldsAt g o sc d a b wd)

/-! Stores -/

/-- The data operand of a store or atomic, by lane: a V group, LANEID, an S register or an immediate. -/
def dataOf (s : State) (w site : Nat) (c : Opnd) (regs n : Nat) : Nat → Nat :=
  match c with
  | .v r =>
    let vs := (List.range regs).map fun i => (readV s w (site + i) (r.toNat + i)).lanes
    fun l => vs.foldr (fun v acc => (v.getD l 0).toNat + 2 ^ 32 * acc) 0 % 2 ^ (8 * n)
  | .special _ => fun l => l
  | .imm x => fun _ => wrapTo (8 * n) x.toInt
  | _ => let x := readS s w site (regOf c); fun _ => x.toNat % 2 ^ (8 * n)

/-- The banks that a data operand accepts: a group of four takes V only; LANEID is one register. -/
def dataAccept (regs : Nat) : Accept :=
  if regs == 4 then .onlyV else { v := true, s := true, imm := true, lane := regs == 1 }

/-- A V data group lies below the wave's count. -/
def dataFits (s : State) (w : Nat) (c : Opnd) (regs : Nat) : Bool := !isV c || s.fits w c regs

/-- Staging needs no more than its 8192 sectors, counting the stores on their way (spec/15 R453). -/
def stagingFits (s : State) (w : Nat) (pas : List Nat) : Eff Unit :=
  let g := (s.wave w).id.group
  if s.staged g then
    let queued := (s.group g).waves.flatMap fun v => (s.wave v).mem.storeQ.flatMap fun q =>
      if q.sp then [] else q.bytes.map (·.1)
    demand (s.stagingRoom g (queued ++ pas)) 0x17#6 262144
  else .ok ()

/-- The stores of an instruction enter the wave's queue and its signature; `key` is the operation that the last completes. -/
def putStores (w : Nat) (key : Option Nat) (p : Places) (n : Nat) (val : Nat → Nat) : Eff State := do
  let pas := placeBytes p.locs n
  stagingFits p.s w pas
  let s := (p.s.sign w (p.at_.map fun q => { addr := q.2.1, size := n, bytes := leBytes n (val q.1) })).touchCode pas
  let bytes := fun (sp : Bool) => p.at_.flatMap fun q =>
    if q.2.2.isSp == sp then placed q.2.2.num (leBytes n (val q.1)) else []
  let qs := ([(true, bytes true), (false, bytes false)]).filter fun q => !q.2.isEmpty
  let last := qs.length - 1
  pure (s.modWave w fun x => (qs.zipIdx).foldl (fun x q =>
    x.enqueue { key := if q.2 == last then key else none, sp := q.1.1, bytes := q.1.2 }) x)

/-- A release waits for every earlier access of its wave, its held ordered atomics too (spec/04 R152, R169). -/
def releaseWaits (s : State) (w : Nat) (o : Order) : Eff Unit :=
  if Order.releases o && s.aodPending w then .error (.stall .settle s) else .ok ()

/-- The key of the next counted operation, for an instruction that counts. -/
def nextKey (s : State) (w : Nat) (counted : Bool) : Option Nat := if counted then some (s.wave w).num.key else none

def stAt (counted : Bool) (g : Guards) (o : Order) (sc : Scope) (a b c : Opnd) (wd : Width) (base : Mask) (s : State)
    (w : Nat) : Eff MemOut := do
  let n := widthBytes wd
  let regs := widthRegs wd
  checkOps s w [(a, .sv), (b, .onlyImm), (c, dataAccept regs)]
  demand (baseOk s w a && dataFits s w c regs) 0x02#6
  let m := lanesActive s w base g
  if m == 0 then pure { s := s }
  else do
    demandClean s w m (baseRegs a ++ groupRegs c regs)
    let val := dataOf s w 4 c regs n
    let p ← resolveLanes s w true (laneAddrs s w m a b n) n n .store
    releaseWaits s w o
    let s' ← raceCheck p.s w { kind := .store, acq := false, rel := Order.releases o, sc := sc } (p.accesses n)
    let s'' ← putStores w (nextKey s w counted) { p with s := s' } n val
    pure { s := s'', op := some (.st, []) }

/-- `st` (spec/04 R144). -/
def execSt (g : Guards) (o : Order) (sc : Scope) (_ev : BitVec 3) (a b c : Opnd) (wd : Width) (s : State) : Out :=
  memIssue s g .st (stAt true g o sc a b c wd)

def stsAt (counted : Bool) (g : Guards) (o : Order) (a b c : Opnd) (wd : Width) (base : Mask) (s : State) (w : Nat) :
    Eff MemOut := do
  let n := widthBytes wd
  let regs := widthRegs wd
  checkOps s w [(a, { v := true, s := true, lane := true }), (b, .onlyImm), (c, dataAccept regs)]
  demand (dataFits s w c regs) 0x02#6 (opndAddr c)
  let m := lanesActive s w base g
  if m == 0 then pure { s := s }
  else do
    demandClean s w m ((if isV a then [a] else []) ++ groupRegs c regs)
    let val := dataOf s w 4 c regs n
    let p ← resolveOffsets s w (laneOffsets s w m a b n) n
    releaseWaits s w o
    let s' := if Order.releases o then p.s.releaseInterval w else p.s
    let s'' ← putStores w (nextKey s w counted) { p with s := s' } n val
    pure { s := s'', op := some (.st, []) }

/-- `sts` (spec/04 R145). -/
def execSts (g : Guards) (o : Order) (_sc : Scope) (a b c : Opnd) (wd : Width) (s : State) : Out :=
  memIssue s g .st (stsAt true g o a b c wd)

/-! Limb arrays (spec/04 R146) -/

/-- The addresses of `n` limbs, misaligned or window bases refused. -/
def limbPlaces (s : State) (w : Nat) (a b : Opnd) (n : Nat) (want : Want) : Eff Places := do
  let base := (readS s w 1 (regOf a) + BitVec.ofInt 64 (4 * immOf b)).toNat
  demand (base % 4 == 0) 0x11#6 (BitVec.ofNat 64 base)
  demand (!inWindow base && decide (base < 2 ^ 57)) 0x10#6 (BitVec.ofNat 64 base)
  resolveLanes s w false ((List.range n).map fun i => (i, (base + 4 * i) % 2 ^ 64)) 4 4 want

/-- `ldb` acts on the whole number when the mask is not empty. -/
def execLdb (g : Guards) (o : Order) (sc : Scope) (_ev : BitVec 3) (d a b c : Opnd) (s : State) : Out :=
  memIssue s g .ld fun base s w => do
    checkOps s w [(d, .onlyV), (a, .onlyS), (b, .onlyImm), (c, .count)]
    let m := lanesActive s w base g
    if m == 0 then pure { s := s }
    else do
      let W := (s.wave w).id.width
      demandClean s w m [c]
      let n ← uniOf s w m 3 c
      demand (decide (0 ≤ n.toInt) && decide (n.toInt ≤ (W : Int))) 0x18#6 n
      let p ← limbPlaces s w a b n.toNat .load
      let s' ← demandHome p.s w sc
      let s' ← raceCheck s' w { kind := .load, acq := Order.acquires o, rel := false, sc := sc } (p.accesses 4)
      let s' := s'.l1Load w sc (Order.acquires o) (placeBytes p.locs 4)
      let vals := p.at_.map fun q => loadValue s' w 4 false q.2.2
      let len := ((vals.zipIdx).filter fun q => q.1 != 0).foldl (fun acc q => max acc (q.2 + 1)) 0
      let poison := p.at_.any fun q => s'.deadPlace w q.2.2 4
      pure { s := s', op := some (.ld, [.v (regOf d) (allLanes W) ((List.range W).map fun i => BitVec.ofNat 32 (vals.getD i 0)) 0
        (mkMd .limb len false poison 0)]) }

/-- `stb` stores the limbs of a whole number. -/
def execStb (g : Guards) (o : Order) (sc : Scope) (_ev : BitVec 3) (a b c : Opnd) (s : State) : Out :=
  memIssue s g .st fun base s w => do
    checkOps s w [(a, .onlyS), (b, .onlyImm), (c, .onlyV)]
    let m := lanesActive s w base g
    if m == 0 then pure { s := s }
    else do
      demandClean s w m [c]
      let r := readV s w 3 (regOf c)
      demand (mdTag r.md == .limb) 0x05#6 (opndAddr c)
      let p ← limbPlaces s w a b (mdLen r.md) .store
      releaseWaits s w o
      let s' ← raceCheck p.s w { kind := .store, acq := false, rel := Order.releases o, sc := sc } (p.accesses 4)
      let s'' ← putStores w (nextKey s w true) { p with s := s' } 4 fun i => (r.lanes.getD i 0).toNat
      let s'' := if mdLen r.md == 0 then s''.modWave w fun x => x.enqueue { key := nextKey s w true, sp := true, bytes := [] } else s''
      pure { s := s'', op := some (.st, []) }

/-! Atomics (spec/04 R147 to R150) -/

/-- A place behind a broken link (spec/14 R432). -/
def State.brokenPlace (s : State) (w : Nat) : Loc → Bool
  | .mem pa => s.reach (s.waveDie w) pa == .broken
  | .sp _ => false

/-- The value that an atomic of `n` bytes finds: at the home point, or, of one that its core performs, as the core reads it. A
lost location reads as zero. -/
def State.atomRead (s : State) (w n : Nat) (near : Bool) (l : Loc) : Nat :=
  if s.lostPlace w l n then 0
  else if near then s.waveLe w l n
  else leValue (match l with
    | .sp o => (s.waveGroup w).sp.readN o n
    | .mem pa => s.mem.readN pa n)

/-- An atomic's result is written: in one step with its reading, where the L1 copies of its cores follow it, or, where its core
performs it, as a store of the wave on its way to the home point, which the core's accesses see from now on (spec/04 R150). -/
def State.atomWrite (s : State) (w n : Nat) (near : Bool) (l : Loc) (v : Nat) : State :=
  match l with
  | .sp o => s.modGroup (s.wave w).id.group fun g => g.spWrite (placed o (leBytes n v))
  | .mem pa =>
    if near then
      s.modCore (s.wave w).id.core fun k =>
        { k with out := k.out ++ [(w, { key := none, sp := false, bytes := placed pa (leBytes n v) })] }
    else (s.copyCores (s.wave w).id.group).foldl (fun s c => s.l1Store c (placed pa (leBytes n v))) (s.writeMem (placed pa (leBytes n v)))

/-- One lane's operation at its location: the old value, and the state after. Behind a broken link the value returned is zero,
and the effect may or may not happen (spec/14 R432). -/
def atomLane (w n : Nat) (near : Bool) (f : Nat → Nat → Option Nat) (acc : State × List (Nat × Nat)) (q : Nat × Nat × Loc) :
    State × List (Nat × Nat) :=
  let s := acc.1
  let m := s.atomRead w n near q.2.2
  let broken := s.brokenPlace w q.2.2
  let s := match f q.1 m with
    | some v => if broken && s.draw 60 q.1 2 == 0 then s else s.atomWrite w n (near && !broken) q.2.2 v
    | none => s
  (s, acc.2 ++ [(q.1, if broken then 0 else m)])

/-- An atomic over lanes, in ascending order; the wave's queued stores are performed before it. At `.quad` or wider each lane is
one step at the home point; at a narrower scope the core performs it, for a group that is not staged (spec/04 R150). `f` gives the
value written in a lane from the old value, or none. -/
def atomRun (w : Nat) (sc : Scope) (o : Order) (p : Places) (m : Mask) (d : Opnd) (n regs : Nat) (f : Nat → Nat → Option Nat) :
    MemOut :=
  let poison := p.at_.any fun q => p.s.deadPlace w q.2.2 n
  let pas := placeBytes p.locs n
  let s := (((p.s.performAll w).touchCode pas).l1Load w sc false pas).acquiredBy (p.s.wave w).id.group o sc
  let r := p.at_.foldl (atomLane w n (!Scope.wide sc && !s.staged (s.wave w).id.group) f) (s, [])
  let old := fun l => match r.2.find? fun q => q.1 == l with | some q => q.2 | none => 0
  { s := r.1, op := some (.ld, groupDests (regOf d) regs (s.wave w).id.width m keepButPoison 0 poison old) }

/-- The fields of an atomic. -/
structure AtomForm where
  g : Guards
  o : Order
  sc : Scope
  d : Opnd
  a : Opnd
  b : Opnd
  c : Opnd
  wd : Width
  /-- none is `cas` -/
  op : Option AtomOp

/-- The decode checks of an atomic. -/
def AtomForm.check (k : AtomForm) (s : State) (w : Nat) : Eff Unit := do
  let regs := widthRegs k.wd
  checkOps s w [(k.d, .onlyV), (k.a, .sv), (k.b, .onlyImm), (k.c, dataAccept regs)]
  demand (s.fits w k.d regs && baseOk s w k.a && dataFits s w k.c regs) 0x02#6

/-- The format of `fadd` comes from the tag of C (spec/04 R148). -/
def faddFormat (s : State) (w : Nat) (op : Option AtomOp) (c : Opnd) : Eff Tag :=
  if op == some .fadd then
    let t := if isV c then mdTag (readV s w 4 (regOf c)).md else .raw
    if faddTag t then .ok t else raise 0x05#6 (opndAddr c)
  else .ok .raw

/-- An atomic over the lanes `base`, performed at the home points. -/
def atomAt (k : AtomForm) (base : Mask) (s : State) (w : Nat) : Eff MemOut := do
  k.check s w
  let n := widthBytes k.wd
  let regs := widthRegs k.wd
  let m := lanesActive s w base k.g
  if m == 0 then pure { s := s }
  else do
    demandClean s w m (baseRegs k.a ++ groupRegs k.c regs ++ (if k.op.isNone then groupRegs k.d regs else []))
    let t ← faddFormat s w k.op k.c
    let v := dataOf s w 4 k.c regs n
    let new := dataOf s w 8 k.d regs n
    let amr := (s.wave w).amr
    let p ← resolveLanes s w true (laneAddrs s w m k.a k.b n) n n .store
    releaseWaits s w k.o
    demandSent s w
    let s' ← raceCheck p.s w { kind := .atomic, acq := Order.acquires k.o, rel := Order.releases k.o, sc := k.sc } (p.accesses n)
    let f : Nat → Nat → Option Nat := fun l old => match k.op with
      | some op => some (atomValue op k.wd t amr old (v l))
      | none => if old == v l then some (new l) else none
    pure (atomRun w k.sc k.o { p with s := s' } m k.d n regs f)

/-- What an atomic enters into SIG: the operand v of each active lane, and for `cas` the new value, then the comparand
(spec/15 R445). -/
def AtomForm.records (k : AtomForm) (base : Mask) (s : State) (w : Nat) : List SigRec :=
  let n := widthBytes k.wd
  let regs := widthRegs k.wd
  let m := lanesActive s w base k.g
  let v := dataOf s w 4 k.c regs n
  let new := dataOf s w 8 k.d regs n
  (laneAddrs s w m k.a k.b n).map fun q =>
    { addr := q.2, size := n, bytes := if k.op.isNone then leBytes n (new q.1) ++ leBytes n (v q.1) else leBytes n (v q.1) }

/-- The act of an atomic instruction. -/
def atomAct (k : AtomForm) (s : State) (w : Nat) : Eff State := do
  if activeMask s w k.g != 0 then roomFor s w .ld
  let o ← atomAt k (s.wave w).exec s w
  pure (countMem w o)

/-- Issue an atomic: a forcing instruction (spec/15 R446). -/
def atomIssue (k : AtomForm) (s : State) : Out :=
  issue s fun w => forced s w (atomAct k)

/-- `atom.add` (spec/04 R147). -/
def execAtomAdd (g : Guards) (o : Order) (sc : Scope) (_ev : BitVec 3) (d a b c : Opnd) (wd : Width) (s : State) : Out :=
  atomIssue { g, o, sc, d, a, b, c, wd, op := some .add } s

/-- `atom.min` (spec/04 R147). -/
def execAtomMin (g : Guards) (o : Order) (sc : Scope) (_ev : BitVec 3) (d a b c : Opnd) (wd : Width) (s : State) : Out :=
  atomIssue { g, o, sc, d, a, b, c, wd, op := some .min } s

/-- `atom.max` (spec/04 R147). -/
def execAtomMax (g : Guards) (o : Order) (sc : Scope) (_ev : BitVec 3) (d a b c : Opnd) (wd : Width) (s : State) : Out :=
  atomIssue { g, o, sc, d, a, b, c, wd, op := some .max } s

/-- `atom.and` (spec/04 R147). -/
def execAtomAnd (g : Guards) (o : Order) (sc : Scope) (_ev : BitVec 3) (d a b c : Opnd) (wd : Width) (s : State) : Out :=
  atomIssue { g, o, sc, d, a, b, c, wd, op := some .and } s

/-- `atom.or` (spec/04 R147). -/
def execAtomOr (g : Guards) (o : Order) (sc : Scope) (_ev : BitVec 3) (d a b c : Opnd) (wd : Width) (s : State) : Out :=
  atomIssue { g, o, sc, d, a, b, c, wd, op := some .or } s

/-- `atom.xor` (spec/04 R147). -/
def execAtomXor (g : Guards) (o : Order) (sc : Scope) (_ev : BitVec 3) (d a b c : Opnd) (wd : Width) (s : State) : Out :=
  atomIssue { g, o, sc, d, a, b, c, wd, op := some .xor } s

/-- `atom.exch` (spec/04 R147). -/
def execAtomExch (g : Guards) (o : Order) (sc : Scope) (_ev : BitVec 3) (d a b c : Opnd) (wd : Width) (s : State) : Out :=
  atomIssue { g, o, sc, d, a, b, c, wd, op := some .exch } s

/-- `atom.fadd` (spec/04 R148). -/
def execAtomFadd (g : Guards) (o : Order) (sc : Scope) (_ev : BitVec 3) (d a b c : Opnd) (wd : Width) (s : State) : Out :=
  atomIssue { g, o, sc, d, a, b, c, wd, op := some .fadd } s

/-- `cas` (spec/04 R149). -/
def execCas (g : Guards) (o : Order) (sc : Scope) (_ev : BitVec 3) (d a b c : Opnd) (wd : Width) (s : State) : Out :=
  atomIssue { g, o, sc, d, a, b, c, wd, op := none } s

/-- The act of `aod`: it binds to a phase of the barrier and is held (spec/04 R151, R152). -/
def aodAct (g : Guards) (sc : Scope) (op : AtomOp) (d a b c : Opnd) (wd : Width) (s : State) (w : Nat) : Eff State := do
  let n := widthBytes wd
  let regs := widthRegs wd
  checkOps s w [(d, .onlyV), (a, .sv), (b, .onlyImm), (c, dataAccept regs)]
  demand (s.fits w d regs && baseOk s w a && dataFits s w c regs) 0x02#6
  demand (decide (0 ≤ immOf b)) 0x02#6 (opndAddr b)
  checkBarrier s w sc (immOf b).toNat
  let m := lanesActive s w (s.wave w).exec g
  if m == 0 then pure s
  else do
    roomFor s w .ld
    demandClean s w m (baseRegs a ++ groupRegs c regs)
    let t ← faddFormat s w (some op) c
    let v := dataOf s w 4 c regs n
    let p ← resolveLanes s w false (laneAddrs s w m a (.imm 0#6) n) n n .store
    let s' ← raceCheck p.s w { kind := .atomic, acq := false, rel := false, sc := sc } (p.accesses n)
    let s' := s'.touchCode (placeBytes p.locs n)
    let id := BitVec.ofNat 4 (immOf b).toNat
    let (owner, unit) := s'.barrierPlace w sc
    let s' := s'.settle sc owner unit id
    let bar := s'.barrier sc owner unit id
    let phase := match (s'.wave w).pendingArrival sc id with
      | some ph => ph + 1
      | none => bar.phase
    if p.at_.any fun q => s'.brokenPlace w q.2.2 then
      pure (s'.modWave w fun x => x.count .ld true (groupDests (regOf d) regs x.id.width m keepButPoison 0 true fun _ => 0))
    else
      let addrs := p.at_.map fun q => (q.1, q.2.2.num)
      let vals := p.at_.map fun q => BitVec.ofNat 64 (v q.1)
      let x : Aod := { wave := w, key := (s'.wave w).num.key, phase := phase, op := op, width := wd, tag := t,
                       amr := (s'.wave w).amr, dest := regOf d, mask := m, addrs := addrs, vals := vals }
      pure ((s'.setBarrier owner { bar with aods := bar.aods ++ [x] }).modWave w fun y => y.count .ld false [])

/-- What `aod` enters into SIG. -/
def aodRecords (g : Guards) (a c : Opnd) (wd : Width) (s : State) (w : Nat) : List SigRec :=
  let n := widthBytes wd
  let v := dataOf s w 4 c (widthRegs wd) n
  (laneAddrs s w (lanesActive s w (s.wave w).exec g) a (.imm 0#6) n).map fun q => { addr := q.2, size := n, bytes := leBytes n (v q.1) }

/-- `aod` (spec/04 R151). -/
def execAod (g : Guards) (sc : Scope) (op : AtomOp) (d a b c : Opnd) (wd : Width) (s : State) : Out :=
  issue s fun w => forced s w (aodAct g sc op d a b c wd)

/-! Fences, prefetches, L1 (spec/04 R154 to R156) -/

/-- `fence`: the wave's earlier stores are performed before it completes. A release waits for its held ordered atomics and counts
in the race detector; an acquire at a scope wider than the core leaves no line that could be older. -/
def execFence (o : Order) (sc : Scope) (s : State) : Out :=
  issue s fun w => do
    releaseWaits s w o
    demandSent s w
    let s := s.performAll w
    let s := if Order.releases o then s.releaseInterval w else s
    pure (if Order.acquires o && Scope.wide sc then s.l1Clear (s.wave w).id.core else s)

/-- The lines that a prefetch at `.wave` or `.core` fetches: of lanes whose address is aligned, outside the window and
translates. -/
def prefetch (s : State) (w : Nat) (l : List (Nat × Nat)) : State :=
  let r := (l.filter fun q => q.2 % 4 == 0 && decide (q.2 < 2 ^ 57) && !inWindow q.2).foldl (walkLane w .load) { s := s }
  let lines := ((placeBytes (r.good.map fun q => q.2.2) 1).map (· / 128)).eraseDups
  lines.foldl (fun s k => (List.range 4).foldl (fun s i => s.l1Fill (s.wave w).id.core (4 * k + i)) s) r.s

/-- `prf` is a hint: it brings lines into L1 where the core has one. What R141 would refuse of an access, a poisoned base and the
faults of an address, drops it without a trap (DEDUCED from spec/04 R155: log entry 28). -/
def execPrf (g : Guards) (sc : Scope) (_ev : BitVec 3) (a b : Opnd) (s : State) : Out :=
  issue s fun w => do
    checkOps s w [(a, .sv), (b, .onlyImm)]
    demand (baseOk s w a) 0x02#6 (opndAddr a)
    let dropped := (baseRegs a).any (poisonedOp s w)
    pure (if Scope.wide sc || s.l1Sectors (s.wave w).id.core = 0 || dropped then s else prefetch s w (laneAddrs s w (activeMask s w g) a b 4))

/-- `l1inv` discards every line of the core's L1, which holds nothing newer than its home points (spec/04 R138, R156). -/
def execL1inv (s : State) : Out := issue s fun w => .ok (s.l1Clear (s.wave w).id.core)

/-- FAULT_REPLAY: the demand fetches of a stalled instruction have ended; it is replayed (spec/13 R405). -/
def execFaultReplay (wv : Nat) (s : State) : Out :=
  event s ((s.wave wv).sch.stall == some .fault) fun s => s.unstall wv

end Sys2Proof.Machine
end

