-- ==== Sys2Proof/Machine/Monitor.lean ====
section
/-! DEFINITION. Monitor waits: `mwait`, its monitors and its back-off (spec/04 R157 to R160; spec/14 R432; spec/15 R451). -/

namespace Sys2Proof.Machine

/-- Entries of the wait table that a core offers, and those in use (spec/04 R159). -/
def State.monitorRoom (s : State) (w : Nat) : Bool :=
  let c := s.core (s.wave w).id.core
  let used := (List.range s.waves.length).filter fun v =>
    (s.wave v).resident && (s.wave v).mem.monitor.isSome && v != w && (s.core (s.wave v).id.core).phys == c.phys &&
      (!(s.waveLaunch w).r.det || (s.wave v).id.core == (s.wave w).id.core)
  decide (used.length < (if (s.waveLaunch w).r.det then 16 else 64))

/-- The fields of an `mwait`. -/
structure WaitForm where
  o : Order
  sc : Scope
  d : Opnd
  a : Opnd
  b : Opnd
  c : Opnd
  stamp : Bool
  dbl : Bool
  cc : WaitCond

def WaitForm.bytes (k : WaitForm) : Nat := if k.dbl then 8 else 4

/-- The monitored address. -/
def WaitForm.addr (k : WaitForm) (s : State) (w : Nat) : Word :=
  readS s w 1 (regOf k.a) + BitVec.ofInt 64 (k.bytes * immOf k.b)

/-- The condition on a value that was read (spec/04 R158): the value that Sd receives, and whether it holds. -/
def WaitForm.holds (k : WaitForm) (m x : Nat) : Nat × Bool :=
  let n := if k.stamp then 48 else 8 * k.bytes
  let m' := m % 2 ^ n
  let x' := x % 2 ^ n
  (m', match k.cc with
    | .eq => m' == x'
    | .ne => m' != x'
    | .geu => decide (x' ≤ m'))

/-- One evaluation: the value and whether it holds. The location is read at its home point, where a store that satisfies the
condition shows (spec/04 R160). A broken link and a stamp's status raise 0x12, lost data 0x10, once the detector has seen the
access (spec/04 R141, R158, R177). -/
def WaitForm.evaluate (k : WaitForm) (s : State) (w : Nat) : Eff (State × Fwd) := do
  let x ← uni1 s w k.c
  let va := k.addr s w
  demand (va.toNat % k.bytes == 0) 0x11#6 va
  let (s', l) ← placeOf s w va.toNat k.bytes .load
  let reach := match l with
    | .mem pa => s'.reach (s'.waveDie w) pa
    | .sp _ => Reach.ok
  if reach == .hold then .error (.stall .hold s)
  else do
    let s' ← demandHome s' w k.sc
    let pas := placeBytes [l] k.bytes
    let s' := (s'.l1Drop (s'.wave w).id.core ((pas.map (· / 32)).eraseDups)).l1Load w k.sc false pas
    let m := s'.waveLe w l k.bytes
    let trap := if reach == .broken then some (0x12#6, 0#64)
      else if s'.lostPlace w l k.bytes then some (0x10#6, va)
      else if k.stamp && m / 2 ^ 48 % 256 != 0 then some (0x12#6, BitVec.ofNat 64 m)
      else none
    let r := k.holds m x.toNat
    let s'' ← raceCheck s' w
      { kind := .load, acq := Order.acquires k.o, rel := false, sc := k.sc, keep := trap.isSome || !r.2 } [(0, va.toNat, k.bytes)]
    pure (s'', { val := BitVec.ofNat 64 r.1, pred := r.2, trap := trap })

/-- The sector that the address names: a monitor is armed on it. -/
def WaitForm.sector (k : WaitForm) (s : State) (w : Nat) : Bool × Nat :=
  let va := (k.addr s w).toNat
  (inWindow va, va / 32)

/-- A wait has ended: its monitor is released (spec/04 R159). -/
def Wave.disarm (x : Wave) : Wave := { x with mem.monitor := none, mem.polled := none }

/-- An evaluation has failed: the wave parks on a monitor, or polls where the wait table is full (spec/04 R159). -/
def State.armMonitor (s : State) (w : Nat) (sector : Bool × Nat) : State :=
  let slots := (s.core (s.wave w).id.core).slots
  if s.monitorRoom w then s.modWave w fun x => { x with mem.monitor := some sector, mem.polled := none }
  else s.modWave w fun x => { x with mem.monitor := none, mem.polled := some slots }

/-- After a failing evaluation another path of the wave goes on. In normal mode a wave of the core that has waited 4096 issue slots
may then issue: paths that wait within clauses come to no clause start, and waves progress all the same (DEDUCED from spec/05 R196 and
spec/02 R54: log entry 22). -/
def State.pollOn (s : State) (w : Nat) (y : Wave) : State :=
  let s := (s.setWave w y.disarm).pathSlot w
  if !(s.waveLaunch w).r.det && s.agedRival w then s.choiceAt w else s

/-- An evaluation's result enters the wave: its trap; Sd on success; otherwise the path rotates where the wave holds others, or the
wave parks or polls (spec/04 R159, spec/05 R195). -/
def WaitForm.settle (k : WaitForm) (s : State) (w : Nat) (f : Fwd) : Eff State :=
  match f.trap with
  | some (c, a) => .error (.done (s.trapped w { code := c, addr := a }))
  | none =>
  if f.pred then
    let s := s.modWave w Wave.disarm
    (if Order.acquires k.o && Scope.wide k.sc then s.l1Clear (s.wave w).id.core else s).putScalar w k.d f.val
  else
    let x := s.wave w
    let y := if 2 ≤ x.pathCount then x.rotate else x
    if y.cur != x.cur then .error (.done (s.pollOn w y).tick)
    else .error (.stall .monitor (s.armMonitor w (k.sector s w)))

/-- `mwait` (spec/04 R157, R158): the primary evaluates for both copies. -/
def execMwait (o : Order) (sc : Scope) (d a b c : Opnd) (stamp dbl : Bool) (cc : WaitCond) (s : State) : Out :=
  issue s fun w => do
    checkOps s w [(d, .onlyS), (a, .onlyS), (b, .onlyImm), (c, .count)]
    let k : WaitForm := { o, sc, d, a, b, c, stamp, dbl, cc }
    forwarded s w k.evaluate k.settle

/-- MONITOR_FIRE: a parked wave evaluates again; a monitor may fire without a write, and it stays armed until its wait ends
(spec/04 R159). -/
def execMonitorFire (wv : Nat) (s : State) : Out :=
  event s ((s.wave wv).sch.stall == some .monitor && (s.wave wv).mem.monitor.isSome) fun s => s.unstall wv

/-- MWAIT_BACK_OFF: a polling wave evaluates again after 64 issue slots (spec/04 R159). -/
def execMwaitBackOff (wv : Nat) (s : State) : Out :=
  let due := match (s.wave wv).mem.polled with
    | some n => decide (n + 64 ≤ (s.core (s.wave wv).id.core).slots)
    | none => false
  event s ((s.wave wv).sch.stall == some .monitor && due) fun s => s.unstall wv

end Sys2Proof.Machine
end

