-- ==== Sys2Proof/Machine/VecBits.lean ====
section
/-! DEFINITION. Bits, moves, metadata, packing and conversions of class 3, with the stochastic-rounding generator
(spec/03 R122 to R130). -/

namespace Sys2Proof.Machine

/-- The metadata of a bit instruction's result that takes the tag of `md`: under limb LEN and SIGN are free values (spec/03
R93, R122, log entry 10); under modq MIDX is that of the register which gives the tag (spec/10 R321). -/
def keptMd (s : State) (w : Nat) (m : Mask) (md : BitVec 32) (vals : Nat → Lane) : BitVec 32 :=
  let x := s.wave w
  let k := Config.bitMeta x.word (x.v.map fun r => (r.md, r.lanes)) m ((lanesOf x.id.width m).map vals)
  match mdTag md with
  | .limb => mkMd .limb (mdLen k % (x.id.width + 1)) (mdSign k) false 0
  | .modq => mkMd .modq 0 false false (mdMidx md)
  | t => tagMd t

/-- The metadata of the first V source. -/
def firstMd (rs : List Src) : BitVec 32 := match firstV rs with | some (md, _) => md | none => tagMd .raw

/-- The body of a bit instruction that keeps the tag of A, or of the first V source. -/
def bitBody (w : Nat) (f : Lane → Lane → Lane → Lane) (s : State) (m : Mask) (rs : List Src) : Eff LaneOut := do
  srcsClean m rs
  let vals := fun l => f ((src0 rs 0).val l) ((src0 rs 1).val l) ((src0 rs 2).val l)
  pure (plainLanes s w m (keptMd s w m (firstMd rs) vals) vals)

/-- The body of a bit instruction whose result is u32. -/
def countBody (w : Nat) (f : Lane → Lane) (s : State) (m : Mask) (rs : List Src) : Eff LaneOut := do
  srcsClean m rs
  pure (plainLanes s w m (tagMd .u32) fun l => f ((src0 rs 0).val l))

def andAt (base : Mask) (g : Guards) (d a b : Opnd) (e : BitVec 4) (s : State) (w : Nat) : Eff State :=
  laneWise s w base g (checks2 d a b) (namesV s w [a, b]) d [a, b] (some e) (bitBody w fun x y _ => x &&& y)

/-- `and` (spec/03 R122). -/
def execAnd (g : Guards) (d a b : Opnd) (e : BitVec 4) (s : State) : Out :=
  issue s fun w => andAt (s.wave w).exec g d a b e s w

def orAt (base : Mask) (g : Guards) (d a b : Opnd) (e : BitVec 4) (s : State) (w : Nat) : Eff State :=
  laneWise s w base g (checks2 d a b) (namesV s w [a, b]) d [a, b] (some e) (bitBody w fun x y _ => x ||| y)

/-- `or` (spec/03 R122). -/
def execOr (g : Guards) (d a b : Opnd) (e : BitVec 4) (s : State) : Out :=
  issue s fun w => orAt (s.wave w).exec g d a b e s w

def xorAt (base : Mask) (g : Guards) (d a b : Opnd) (e : BitVec 4) (s : State) (w : Nat) : Eff State :=
  laneWise s w base g (checks2 d a b) (namesV s w [a, b]) d [a, b] (some e) (bitBody w fun x y _ => x ^^^ y)

/-- `xor` (spec/03 R122). -/
def execXor (g : Guards) (d a b : Opnd) (e : BitVec 4) (s : State) : Out :=
  issue s fun w => xorAt (s.wave w).exec g d a b e s w

def notAt (base : Mask) (g : Guards) (d a : Opnd) (e : BitVec 4) (s : State) (w : Nat) : Eff State :=
  laneWise s w base g [(d, .dest), (a, .src)] (namesV s w [a]) d [a] (some e) (bitBody w fun x _ _ => ~~~ x)

/-- `not` (spec/03 R122). -/
def execNot (g : Guards) (d a : Opnd) (e : BitVec 4) (s : State) : Out :=
  issue s fun w => notAt (s.wave w).exec g d a e s w

/-- The count of a lane shift: B[7:0]. -/
def shiftCount (b : Lane) : Nat := (b.extractLsb' 0 8).toNat

def shlAt (base : Mask) (g : Guards) (d a b : Opnd) (e : BitVec 4) (s : State) (w : Nat) : Eff State :=
  laneWise s w base g (checks2 d a b) (namesV s w [a, b]) d [a, b] (some e) (bitBody w fun x y _ => x <<< shiftCount y)

/-- `shl` (spec/03 R122). -/
def execShl (g : Guards) (d a b : Opnd) (e : BitVec 4) (s : State) : Out :=
  issue s fun w => shlAt (s.wave w).exec g d a b e s w

def shrAt (base : Mask) (g : Guards) (d a b : Opnd) (e : BitVec 4) (s : State) (w : Nat) : Eff State :=
  laneWise s w base g (checks2 d a b) (namesV s w [a, b]) d [a, b] (some e) (bitBody w fun x y _ => x >>> shiftCount y)

/-- `shr` (spec/03 R122). -/
def execShr (g : Guards) (d a b : Opnd) (e : BitVec 4) (s : State) : Out :=
  issue s fun w => shrAt (s.wave w).exec g d a b e s w

def sarAt (base : Mask) (g : Guards) (d a b : Opnd) (e : BitVec 4) (s : State) (w : Nat) : Eff State :=
  laneWise s w base g (checks2 d a b) (namesV s w [a, b]) d [a, b] (some e) (bitBody w fun x y _ => x.sshiftRight (shiftCount y))

/-- `sar` (spec/03 R122). -/
def execSar (g : Guards) (d a b : Opnd) (e : BitVec 4) (s : State) : Out :=
  issue s fun w => sarAt (s.wave w).exec g d a b e s w

def rotAt (base : Mask) (g : Guards) (d a b : Opnd) (e : BitVec 4) (s : State) (w : Nat) : Eff State :=
  laneWise s w base g (checks2 d a b) (namesV s w [a, b]) d [a, b] (some e)
    (bitBody w fun x y _ => x.rotateLeft (y.toNat % 32))

/-- `rot` (spec/03 R122). -/
def execRot (g : Guards) (d a b : Opnd) (e : BitVec 4) (s : State) : Out :=
  issue s fun w => rotAt (s.wave w).exec g d a b e s w

/-- Extract `n` bits at `pos` of a value of `width` bits (spec/02 R89). -/
def extractField (width : Nat) (sgn : Bool) (x pos n : Nat) : Int :=
  if n = 0 ∨ width ≤ pos then 0
  else
    let k := min (pos + n) width - pos
    let f := (x >>> pos) % 2 ^ k
    if sgn then signedOf k f else f

/-- Insert the low `n` bits of `x` at `pos` into `old` (spec/02 R89). -/
def insertField (width old x pos n : Nat) : Nat :=
  if width ≤ pos then old
  else
    let k := min n (width - pos)
    let hole := (2 ^ k - 1) <<< pos
    old - (old &&& hole) + (x % 2 ^ k) <<< pos

/-- One lane of `bfe`, and of `bfi` into `old`: pos and w from [5:0]. -/
def bfeLane (sgn : Bool) (a b c : Lane) : Lane := BitVec.ofInt 32 (extractField 32 sgn a.toNat (b.toNat % 64) (c.toNat % 64))
def bfiLane (old a b c : Lane) : Lane := BitVec.ofNat 32 (insertField 32 old.toNat a.toNat (b.toNat % 64) (c.toNat % 64))

def bfeAt (base : Mask) (g : Guards) (sgn : Bool) (d a b c : Opnd) (e : BitVec 4) (s : State) (w : Nat) : Eff State :=
  laneWise s w base g (checks3 d a b c) (namesV s w [a, b, c]) d [a, b, c] (some e) (bitBody w (bfeLane sgn))

/-- `bfe` (spec/03 R122). -/
def execBfe (g : Guards) (sgn : Bool) (d a b c : Opnd) (e : BitVec 4) (s : State) : Out :=
  issue s fun w => bfeAt (s.wave w).exec g sgn d a b c e s w

/-- The metadata that gives the tag of `bfi`'s result, D's, and under modq the MIDX, A's (spec/03 R122, spec/10 R321); where A
carries none, D's stays (log entry 10). -/
def bfiMd (rs : List Src) : BitVec 32 :=
  let d := (src0 rs 3).md.getD 0xF#32
  match (src0 rs 0).md with
  | some a => if mdTag d == .modq && mdTag a == .modq then a else d
  | none => d

/-- `bfi` reads D, a V source after C; the result keeps D's tag. -/
def bfiBody (w : Nat) (s : State) (m : Mask) (rs : List Src) : Eff LaneOut := do
  srcsClean m rs
  let d := src0 rs 3
  let vals := fun l => bfiLane (d.val l) ((src0 rs 0).val l) ((src0 rs 1).val l) ((src0 rs 2).val l)
  pure (plainLanes s w m (keptMd s w m (bfiMd rs) vals) vals)

def bfiAt (base : Mask) (g : Guards) (d a b c : Opnd) (e : BitVec 4) (s : State) (w : Nat) : Eff State :=
  laneWise s w base g [(d, .onlyV), (a, .src), (b, .src), (c, .src)] true d [a, b, c, d] (some e) (bfiBody w)

/-- `bfi` (spec/03 R122). -/
def execBfi (g : Guards) (d a b c : Opnd) (e : BitVec 4) (s : State) : Out :=
  issue s fun w => bfiAt (s.wave w).exec g d a b c e s w

def popcAt (base : Mask) (g : Guards) (d a : Opnd) (e : BitVec 4) (s : State) (w : Nat) : Eff State :=
  laneWise s w base g [(d, .dest), (a, .src)] (namesV s w [a]) d [a] (some e)
    (countBody w fun x => BitVec.ofNat 32 (popCount 32 x.toNat))

/-- `popc` (spec/03 R122). -/
def execPopc (g : Guards) (d a : Opnd) (e : BitVec 4) (s : State) : Out :=
  issue s fun w => popcAt (s.wave w).exec g d a e s w

def clzAt (base : Mask) (g : Guards) (d a : Opnd) (e : BitVec 4) (s : State) (w : Nat) : Eff State :=
  laneWise s w base g [(d, .dest), (a, .src)] (namesV s w [a]) d [a] (some e)
    (countBody w fun x => BitVec.ofNat 32 (leadingZeros 32 x.toNat))

/-- `clz` (spec/03 R122). -/
def execClz (g : Guards) (d a : Opnd) (e : BitVec 4) (s : State) : Out :=
  issue s fun w => clzAt (s.wave w).exec g d a e s w

def brevAt (base : Mask) (g : Guards) (d a : Opnd) (e : BitVec 4) (s : State) (w : Nat) : Eff State :=
  laneWise s w base g [(d, .dest), (a, .src)] (namesV s w [a]) d [a] (some e)
    (bitBody w fun x _ _ => BitVec.ofNat 32 (reverseBits 32 x.toNat))

/-- `brev` (spec/03 R122). -/
def execBrev (g : Guards) (d a : Opnd) (e : BitVec 4) (s : State) : Out :=
  issue s fun w => brevAt (s.wave w).exec g d a e s w

/-- `mulhi`: signed under i32, unsigned under u32; the V sources share one tag (spec/03 R111, R122). -/
def mulhiBody (w : Nat) (s : State) (m : Mask) (rs : List Src) : Eff LaneOut := do
  srcsClean m rs
  let t ← srcsTagged rs fun t => t == .i32 || t == .u32
  pure (plainLanes s w m (tagMd t) fun l =>
    let x := (src0 rs 0).val l
    let y := (src0 rs 1).val l
    if t == .i32 then BitVec.ofInt 32 (x.toInt * y.toInt / 2 ^ 32) else BitVec.ofNat 32 (x.toNat * y.toNat / 2 ^ 32))

def mulhiAt (base : Mask) (g : Guards) (d a b : Opnd) (e : BitVec 4) (s : State) (w : Nat) : Eff State :=
  laneWise s w base g (checks2 d a b) (namesV s w [a, b]) d [a, b] (some e) (mulhiBody w)

/-- `mulhi` (spec/03 R122). -/
def execMulhi (g : Guards) (d a b : Opnd) (e : BitVec 4) (s : State) : Out :=
  issue s fun w => mulhiAt (s.wave w).exec g d a b e s w

/-! Moves and metadata -/

/-- `mov` copies bits and the whole metadata word, POISON with it, and consumes nothing (spec/03 R95, R122). -/
def movBody (w : Nat) (s : State) (m : Mask) (rs : List Src) : Eff LaneOut :=
  pure (plainLanes s w m (firstMd rs) fun l => (src0 rs 0).val l)

def movAt (base : Mask) (g : Guards) (d a : Opnd) (e : BitVec 4) (s : State) (w : Nat) : Eff State :=
  laneWise s w base g [(d, .dest), (a, .laneSource)] true d [a] (some e) (movBody w)

/-- `mov` from a V register or LANEID (spec/03 R122). -/
def execMov (g : Guards) (d a : Opnd) (s : State) : Out :=
  issue s fun w => movAt (s.wave w).exec g d a 0 s w

/-- `mov` from a port; E names the predicate of the pop (spec/03 R122, spec/06 R242). -/
def execMovPort (g : Guards) (d a : Opnd) (e : BitVec 4) (s : State) : Out :=
  issue s fun w => movAt (s.wave w).exec g d a e s w

def movTagAt (base : Mask) (g : Guards) (t : Tag) (d a : Opnd) (s : State) (w : Nat) : Eff State :=
  laneWise s w base g [(d, .dest), (a, .si)] true d [a] (some 0)
    fun s m rs => pure (plainLanes s w m (tagMd t) fun l => (src0 rs 0).val l)

/-- `mov.tag` from an S register or an immediate (spec/03 R122). -/
def execMovTag (g : Guards) (t : Tag) (d a : Opnd) (s : State) : Out :=
  issue s fun w => movTagAt (s.wave w).exec g t d a s w

def liAt (base : Mask) (g : Guards) (t : Tag) (d : Opnd) (imm : BitVec 32) (s : State) (w : Nat) : Eff State :=
  laneWise s w base g [(d, .dest)] true d [] (some 0) fun s m _ => pure (plainLanes s w m (tagMd t) fun _ => imm)

/-- `li.tag` (spec/03 R122). -/
def execLi (g : Guards) (t : Tag) (d : Opnd) (imm : BitVec 32) (s : State) : Out :=
  issue s fun w => liAt (s.wave w).exec g t d imm s w

/-- MIDX that B of `tagset.modq` names, 0 to 63; the range is a decode check (spec/03 R112, R123). -/
def tagsetMidx (s : State) (w : Nat) (b : Opnd) : Int := (srcOf s w [] 2 b).word.toInt

/-- `tagset` (spec/03 R123): POISON is copied; limb sets LEN to W; modq takes MIDX from B. -/
def tagsetBody (w : Nat) (t : Tag) (s : State) (m : Mask) (rs : List Src) : Eff LaneOut :=
  let pz := mdPoison (firstMd rs)
  let md := match t with
    | .limb => mkMd .limb (s.wave w).id.width false pz 0
    | .modq => mkMd .modq 0 false pz (src0 rs 1).word.toInt.toNat
    | t => mkMd t 0 false pz 0
  pure (plainLanes s w m md fun l => (src0 rs 0).val l)

def tagsetAt (base : Mask) (g : Guards) (t : Tag) (d a b : Opnd) (e : BitVec 4) (s : State) (w : Nat) : Eff State :=
  let bs := if t == .modq then [(b, Accept.si)] else []
  laneWise s w base g ([(d, .dest), (a, .laneSource)] ++ bs)
    (t != .modq || (decide (0 ≤ tagsetMidx s w b) && decide (tagsetMidx s w b ≤ 63))) d [a, b] (some e) (tagsetBody w t)

/-- `tagset` (spec/03 R123). -/
def execTagset (g : Guards) (t : Tag) (d a b : Opnd) (s : State) : Out :=
  issue s fun w => tagsetAt (s.wave w).exec g t d a b 0 s w

/-- `tagset` of a port's elements (spec/03 R123, spec/06 R242). -/
def execTagsetPort (g : Guards) (t : Tag) (d a b : Opnd) (e : BitVec 4) (s : State) : Out :=
  issue s fun w => tagsetAt (s.wave w).exec g t d a b e s w

/-- The metadata word of a V operand. -/
def mdOf (s : State) (w : Nat) (a : Opnd) : BitVec 32 := (readV s w 1 (regOf a)).md

/-- `tagget` (spec/03 R122): uniform, whatever the mask. -/
def execTagget (d a : Opnd) (s : State) : Out :=
  issue s fun w => do
    checkOps s w [(d, .onlyS), (a, .onlyV)]
    s.putScalar w d (BitVec.ofNat 64 (mdTag (mdOf s w a)).code.toNat)

/-- `metard` (spec/03 R122). -/
def execMetard (d a : Opnd) (s : State) : Out :=
  issue s fun w => do
    checkOps s w [(d, .onlyS), (a, .onlyV)]
    s.putScalar w d ((mdOf s w a).zeroExtend 64)

/-- `metawr` (spec/03 R123): the lanes' bits stay. -/
def execMetawr (d b : Opnd) (s : State) : Out :=
  issue s fun w => do
    checkOps s w [(d, .onlyV), (b, .sv)]
    let v ← uniOf s w (s.wave w).exec 1 b
    let md := v.extractLsb' 0 32
    demand (md.extractLsb' 23 9 == 0#9 && decide (mdLen md ≤ (s.wave w).id.width)) 0x02#6 (opndAddr b)
    pure (s.modWave w fun x => x.setV (regOf d) 0 [] md)

/-- A lane with element j replaced. -/
def replaceElem (t : Tag) (old : Lane) (j x : Nat) : Lane := laneOf t fun i => if i = j then x else elemOf t old i

/-- `pack`: D is read, a V source after A (spec/03 R124). -/
def packBody (w : Nat) (j : BitVec 4) (s : State) (m : Mask) (rs : List Src) : Eff LaneOut := do
  srcsClean m rs
  let a := src0 rs 0
  let d := src0 rs 1
  let t := mdTag (d.md.getD 0xF#32)
  match a.md with
  | some md => demand (mdTag md == .i32 || mdTag md == .u32 || mdTag md == .raw) 0x05#6 (opndAddr a.o)
  | none => .ok ()
  demand (decide (1 < tagElems t)) 0x05#6 (opndAddr d.o)
  demand (decide (j.toNat < tagElems t)) 0x02#6
  pure (plainLanes s w m (tagMd t) fun l => replaceElem t (d.val l) j.toNat (a.val l).toNat)

def packAt (base : Mask) (g : Guards) (d a : Opnd) (j : BitVec 4) (s : State) (w : Nat) : Eff State :=
  laneWise s w base g [(d, .onlyV), (a, .src)] true d [a, d] none (packBody w j)

/-- `pack` (spec/03 R124). -/
def execPack (g : Guards) (d a : Opnd) (j : BitVec 4) (s : State) : Out :=
  issue s fun w => packAt (s.wave w).exec g d a j s w

/-- `unpk`: element j, zero- or sign-extended (spec/03 R124). -/
def unpkBody (w : Nat) (j : BitVec 4) (s : State) (m : Mask) (rs : List Src) : Eff LaneOut := do
  srcsClean m rs
  let a := src0 rs 0
  let t := mdTag (firstMd rs)
  demand (decide (1 < tagElems t)) 0x05#6 (opndAddr a.o)
  demand (decide (j.toNat < tagElems t)) 0x02#6
  pure (plainLanes s w m (tagMd (if (tagFmt t).isSome then .u32 else .i32)) fun l =>
    if (tagFmt t).isSome then BitVec.ofNat 32 (elemOf t (a.val l) j.toNat) else BitVec.ofInt 32 (elemInt t (a.val l) j.toNat))

def unpkAt (base : Mask) (g : Guards) (d a : Opnd) (j : BitVec 4) (s : State) (w : Nat) : Eff State :=
  laneWise s w base g [(d, .dest), (a, .lanes)] true d [a] none (unpkBody w j)

/-- `unpk` (spec/03 R124). -/
def execUnpk (g : Guards) (d a : Opnd) (j : BitVec 4) (s : State) : Out :=
  issue s fun w => unpkAt (s.wave w).exec g d a j s w

/-! Conversions (spec/03 R125 to R130) -/

/-- Next of the conversion generator (spec/03 R129). -/
def genNext (x : BitVec 32) : BitVec 32 :=
  let a := x ^^^ (x <<< 13)
  let b := a ^^^ (a >>> 17)
  b ^^^ (b <<< 5)

/-- The draw of element k of lane i. -/
def genDraw (x : BitVec 32) (i k : Nat) : Nat := (x.rotateLeft ((i + 8 * k) % 32)).toNat

/-- Targets that take stochastic rounding. -/
def stochTarget (t : Tag) : Bool :=
  match t with
  | .bf16x2 | .f16x2 | .e4m3x4 | .e5m2x4 | .mk8x4 | .e2m3x5 | .e3m2x5 | .e2m1x8 => true
  | _ => false

/-- Convert of one element (spec/03 R127); `draw` is that of a stochastic conversion. -/
def convertElem (src dst : Tag) (env : FEnv) (draw : Option Nat) (x : Nat) : Nat × Flags :=
  match tagFmt src, tagFmt dst with
  | some f, some h =>
    let v := f.decode env.flushIn x
    if f == h then h.keep { env with draw := draw } v else h.round { env with draw := draw } v
  | some f, none =>
    let q := (tagRange dst).getD (0, 0)
    let r := FVal.toInt env q.1 q.2 (f.decode env.flushIn x)
    (wrapTo (tagWidth dst) r.1, r.2)
  | none, some h =>
    h.round { env with draw := draw } (.ofInt (if src == .u32 then (x : Int) else signedOf (tagWidth src) x))
  | none, none =>
    let q := (tagRange dst).getD (0, 0)
    (wrapTo (tagWidth dst) (clampInt q.1 q.2 (if src == .u32 then (x : Int) else signedOf (tagWidth src) x)), 0)

/-- The part index of `cvt` lies in range (spec/03 R126). -/
def cvtIndexOk (src dst : Tag) (j : Nat) : Bool :=
  if src == .raw || dst == .raw then j == 0
  else
    let ns := tagElems src
    let nt := tagElems dst
    if nt == ns then j == 0
    else if ns < nt then decide (j < (nt + ns - 1) / ns)
    else decide (j < (ns + nt - 1) / nt)

/-- One lane of `cvt` (spec/03 R126): `draw k` is the draw for element k of the result. -/
def cvtLane (src dst : Tag) (env : FEnv) (draw : Nat → Option Nat) (j : Nat) (old a : Lane) : Lane × Flags :=
  if src == .raw || dst == .raw then (a, 0)
  else
    let ns := tagElems src
    let nt := tagElems dst
    joinElems dst ((List.range nt).map fun k =>
      if ns < nt then
        if j * ns ≤ k ∧ k < j * ns + ns then convertElem src dst env (draw k) (elemOf src a (k - j * ns))
        else (elemOf dst old k, 0)
      else if j * nt + k < ns then convertElem src dst env (draw k) (elemOf src a (j * nt + k))
      else (0, 0))

def cvtBody (w : Nat) (t : Tag) (sr : Bool) (d : Opnd) (j : BitVec 4) (s : State) (m : Mask) (rs : List Src) : Eff LaneOut := do
  srcsClean m rs
  let a := src0 rs 0
  let src := mdTag (firstMd rs)
  demand (src != .limb && src != .modq) 0x05#6 (opndAddr a.o)
  demand (cvtIndexOk src t j.toNat) 0x02#6
  let x := s.wave w
  let stoch := sr || (x.amr.extractLsb' 0 3 == 5#3 && stochTarget t)
  let gen := genNext x.convGen
  let old := x.vreg (regOf d)
  let s' := if stoch then s.setWave w { x with convGen := gen } else s
  flagLanes s' w m (tagMd t) fun l =>
    cvtLane src t (FEnv.ofAmr x.amr) (fun k => if stoch then some (genDraw gen l k) else none) j.toNat (old.lanes.getD l 0) (a.val l)

def cvtAt (base : Mask) (g : Guards) (t : Tag) (sr : Bool) (d a : Opnd) (j : BitVec 4) (s : State) (w : Nat) : Eff State :=
  laneWise s w base g [(d, .dest), (a, .lanes)] true d [a] none (cvtBody w t sr d j)

/-- `cvt` (spec/03 R125 to R128). -/
def execCvt (g : Guards) (t : Tag) (sr : Bool) (d a : Opnd) (j : BitVec 4) (s : State) : Out :=
  issue s fun w => cvtAt (s.wave w).exec g t sr d a j s w

/-! The counter-based generator (spec/03 R134) -/

/-- The value drawn at count c by key (seed, G). -/
def randValue (seed gidx : BitVec 32) (c : Nat) : Lane :=
  let v : Word := gidx ++ BitVec.ofNat 32 c
  let z := v ^^^ (seed.zeroExtend 64 * 0x9E3779B97F4A7C15#64)
  let z := (z ^^^ (z >>> 30)) * 0xBF58476D1CE4E5B9#64
  let z := (z ^^^ (z >>> 27)) * 0x94D049BB133111EB#64
  (z ^^^ (z >>> 31)).extractLsb' 0 32

/-- `rand`: an exhausted counter traps or wraps, then each active lane draws. -/
def randBody (w : Nat) (s : State) (m : Mask) (_ : List Src) : Eff LaneOut := do
  let x := s.wave w
  let out := maskOf x.id.width fun l => m.getLsbD l && x.lc.randC.getD l 0 == 2 ^ 32
  demand (x.amr.getLsbD 13 || out == 0) 0x0F#6 0 (some out)
  let c := fun l => if x.lc.randC.getD l 0 == 2 ^ 32 then 0 else x.lc.randC.getD l 0
  let seed := x.amr.extractLsb' 32 32
  let counts := (List.range x.lc.randC.length).map fun l => if m.getLsbD l then c l + 1 else x.lc.randC.getD l 0
  let s' := s.setWave w { x with lc.randC := counts }
  pure (plainLanes s' w m (tagMd .u32) fun l => randValue seed (x.lc.randG.getD l 0) (c l))

def randAt (base : Mask) (g : Guards) (d : Opnd) (s : State) (w : Nat) : Eff State :=
  laneWise s w base g [(d, .dest)] true d [] (some 0) (randBody w)

/-- `rand` (spec/03 R134). -/
def execRand (g : Guards) (d : Opnd) (s : State) : Out :=
  issue s fun w => randAt (s.wave w).exec g d s w

end Sys2Proof.Machine
end

