-- ==== Sys2Proof/Machine/Special.lean ====
section
/-! DEFINITION. The special functions of class 3 (spec/03 R131 to R133): special operands and exact results as stated; `sqrt`
and the narrow `rcp` and `rsq` correctly rounded; every other result is one of the values inside its bound, and which one is
`Config.sfuPick` of the operation, the format, the input bits and AMR (log entry 11). -/

namespace Sys2Proof.Machine

/-- Binary places of the fixed-point evaluation below, of π in it, and of a logarithm: enough that a value's distance from the bounds
of R132 is told for every operand (log entry 11). -/
def sfuPlaces : Nat := 340
def piPlaces : Nat := 560
def logPlaces : Nat := 300

/-- ⌊π × 2^560⌋ and ⌊ln 2 × 2^340⌋. -/
def piScaled : Nat :=
  0x3243f6a8885a308d313198a2e03707344a4093822299f31d0082efa98ec4e6c89452821e638d01377be5466cf34e90c6cc0ac29b7c97c50dd3f84d5b5b54709179216d5d98979
def ln2Scaled : Nat := 0xb17217f7d1cf79abc9e3b39803f2f6af40f343267298b62d8a0d175b8baafa2be7b876206debac9855955

/-- Σ over k of y^k / k!, `n` terms from index `k` with term `t`, in `sfuPlaces` binary places. -/
def expSeries (y : Nat) : Nat → Nat → Nat → Nat
  | 0, _, _ => 0
  | n + 1, k, t => t + expSeries y n (k + 1) (t * y / 2 ^ sfuPlaces / (k + 1))

/-- 2^f for a fraction f given in `sfuPlaces` places. -/
def exp2Fixed (f : Nat) : Nat := expSeries (f * ln2Scaled / 2 ^ sfuPlaces) 80 0 (2 ^ sfuPlaces)

/-- `n` binary digits of log2 of x / 2^sfuPlaces, 1 ≤ x / 2^sfuPlaces < 2. -/
def log2Digits : Nat → Nat → Nat
  | 0, _ => 0
  | n + 1, x =>
    let y := x * x / 2 ^ sfuPlaces
    if 2 ^ (sfuPlaces + 1) ≤ y then 2 ^ n + log2Digits n (y / 2) else log2Digits n y

/-- Alternating series of sine (from the first power) or cosine (from the zeroth): term `t` of power `k`. -/
def trigSeries (r2 : Nat) : Nat → Nat → Nat → Int
  | 0, _, _ => 0
  | n + 1, k, t => (t : Int) - trigSeries r2 n (k + 2) (t * r2 / 2 ^ sfuPlaces / ((k + 1) * (k + 2)))

/-- Sine or cosine of an angle below π / 2, in `sfuPlaces` places. -/
def sinFixed (r : Nat) : Int := trigSeries (r * r / 2 ^ sfuPlaces) 50 1 r
def cosFixed (r : Nat) : Int := trigSeries (r * r / 2 ^ sfuPlaces) 50 0 (2 ^ sfuPlaces)

/-- Sine of (−1)^neg × m × 2^e, or its cosine, in `sfuPlaces` places. -/
def trigFixed (cosine neg : Bool) (m : Nat) (e : Int) : Int :=
  let x := if 0 ≤ e then m * 2 ^ e.toNat * 2 ^ piPlaces else m * 2 ^ piPlaces / 2 ^ (-e).toNat
  let quarter := piScaled / 2
  let n := x / quarter
  let r := x % quarter / 2 ^ (piPlaces - sfuPlaces)
  let k := (n + (if cosine then 1 else 0)) % 4
  let v := if k == 0 then sinFixed r else if k == 1 then cosFixed r else if k == 2 then -sinFixed r else -cosFixed r
  if neg && !cosine then -v else v

/-- The result of a chosen magnitude code (spec/03 R104, R105; RM is ignored): with the flags of an inexact result. -/
def sfuCode (f : Fmt) (env : FEnv) (neg : Bool) (c : Nat) : Nat × Flags :=
  if f.maxCode < c then f.overflow { env with rm := 0 } neg true
  else if c < 2 ^ f.fb then (if env.sub != 0 then f.zero neg else f.withSign neg c, flagUF ||| flagNX)
  else (f.withSign neg c, flagNX)

/-- The magnitude code at or below m × 2^e, m positive. -/
def floorCode (f : Fmt) (m : Nat) (e : Int) : Nat :=
  let g := f.grid m e
  (((splitAt m e g.1).1 : Int) + g.2).toNat

/-- The value of a magnitude code of an IEEE format, its range above taken as unbounded: (significand, exponent). -/
def codeValue (f : Fmt) (c : Nat) : Nat × Int :=
  let ex := c / 2 ^ f.fb
  let frac := c % 2 ^ f.fb
  if ex == 0 then (frac, 1 - (f.bias : Int) - f.fb) else (2 ^ f.fb + frac, (ex : Int) - f.bias - f.fb)

/-- A code lies within `slack` units in the last place of m × 2^e, a unit being the spacing of the format at m × 2^e. -/
def withinUlps (f : Fmt) (m : Nat) (e : Int) (slack c : Nat) : Bool :=
  let q := (f.grid m e).1
  let v := codeValue f c
  let low := min (min v.2 e) q
  let scale := fun (n : Nat) (x : Int) => ((n * 2 ^ (x - low).toNat : Nat) : Int)
  decide ((scale v.1 v.2 - scale m e).natAbs ≤ (scale slack q).natAbs)

/-- A result whose exact value lies at or above the code below m × 2^e and below the next one: one of the codes within `slack`
units in the last place. Below a power of two the codes stand half a unit apart. -/
def sfuNear (f : Fmt) (env : FEnv) (neg : Bool) (m : Nat) (e : Int) (slack pick : Nat) : Nat × Flags :=
  let c := floorCode f m e
  let lo := c - 2 * slack
  let cs := ((List.range (3 * slack + 2)).map (lo + ·)).filter (withinUlps f m e slack)
  sfuCode f env neg (cs.getD (pick % cs.length) c)

/-- A zero within an absolute error of a value that is not zero: inexact. Its sign is free, and so is underflow unless the
exact value is tiny (log entry 11). -/
def sfuZero (f : Fmt) (tiny : Bool) (pick : Nat) : Nat × Flags :=
  (f.zero (pick % 2 == 1), if tiny || pick / 2 % 2 == 1 then flagUF ||| flagNX else flagNX)

/-- The magnitude, in `sfuPlaces` places, below which a number is tiny; zero where the format's normals reach lower. -/
def tinyBelow (f : Fmt) : Nat := if f.bias - 1 ≤ sfuPlaces then 2 ^ (sfuPlaces - (f.bias - 1)) else 0

/-- A result within the absolute error 2^−b of v × 2^−places: one of the codes from the first at or above the lower end to the last
at or below the upper. -/
def sfuWithin (f : Fmt) (env : FEnv) (v : Int) (b pick : Nat) : Nat × Flags :=
  let slack : Int := 2 ^ (sfuPlaces - b)
  let key := fun (x : Int) (up : Bool) =>
    let c := if x == 0 then 0 else floorCode f x.natAbs (-(sfuPlaces : Int))
    if x < 0 then -((if up then c else c + 1 : Nat) : Int) else ((if up then c else c + 1 : Nat) : Int)
  let lo := key (v - slack) (decide (v - slack < 0))
  let hi := key (v + slack) (decide (0 ≤ v + slack))
  let n := (hi - lo).toNat + 1
  let k := lo + (pick % n : Nat)
  if k == 0 then sfuZero f (decide (v.natAbs < tinyBelow f)) (pick / n) else sfuCode f env (decide (k < 0)) k.natAbs

/-- The special functions. -/
inductive Sfu where
  | rcp | rsq | sqrt | exp2 | log2 | sin | cos
deriving DecidableEq, Repr

def Sfu.index : Sfu → Nat
  | .rcp => 0
  | .rsq => 1
  | .sqrt => 2
  | .exp2 => 3
  | .log2 => 4
  | .sin => 5
  | .cos => 6

/-- A number rounded exactly or to nearest. -/
def sfuNearest (f : Fmt) (env : FEnv) (neg : Bool) (m : Nat) (e : Int) : Nat × Flags :=
  f.roundNum { env with rm := 0, draw := none } neg m e

/-- 1 / (m × 2^e): a quotient with a sticky bit below it, and whether the division is exact. -/
def rcpParts (m : Nat) (e : Int) : Nat × Int × Bool :=
  let q := 2 ^ 100 / m
  let exact := 2 ^ 100 % m == 0
  (if exact then 2 * q else 2 * q + 1, -e - 101, exact)

/-- The square root of m × 2^e: a root with a sticky bit, and whether it is exact. -/
def sqrtParts (m : Nat) (e : Int) : Nat × Int × Bool :=
  let odd := e % 2 != 0
  let m := if odd then 2 * m else m
  let e := if odd then e - 1 else e
  let x := m * 2 ^ 100
  let r := isqrt x
  let exact := r * r == x
  (if exact then 2 * r else 2 * r + 1, e / 2 - 51, exact)

/-- 1 / √(m × 2^e). -/
def rsqParts (m : Nat) (e : Int) : Nat × Int × Bool :=
  let odd := e % 2 != 0
  let m := if odd then 2 * m else m
  let e := if odd then e - 1 else e
  let r := isqrt (2 ^ 200 / m)
  let exact := r * r * m == 2 ^ 200
  (if exact then 2 * r else 2 * r + 1, -(e / 2) - 101, exact)

/-- A result that is exact, correctly rounded (narrow formats), or within one unit in the last place (FP32). -/
def sfuQuotient (f : Fmt) (env : FEnv) (neg : Bool) (p : Nat × Int × Bool) (pick : Nat) : Nat × Flags :=
  let s := splitAt p.1 p.2.1 (f.grid p.1 p.2.1).1
  if f != .fp32 || (p.2.2 && s.2.1 == 0) then sfuNearest f env neg p.1 p.2.1
  else sfuNear f env neg p.1 p.2.1 1 pick

/-- log2 of a positive number, in `logPlaces` places, and whether it is an integer. -/
def log2Parts (m : Nat) (e : Int) : Int × Bool :=
  let k := leadExp m e
  let x := m * 2 ^ sfuPlaces / 2 ^ Nat.log2 m
  (k * 2 ^ logPlaces + log2Digits logPlaces x, m == 2 ^ Nat.log2 m)

/-- 2^k is a value of the format, or overflows. -/
def exp2Exact (f : Fmt) (k : Int) : Bool := decide (1 - (f.bias : Int) - f.fb ≤ k)

/-- A special function of one element (spec/03 R131, R132). No result of exp2 is negative, underflow to −0 within its bound included
(DESIGN CHOICE: log entry 11). -/
def sfuElem (op : Sfu) (f : Fmt) (env : FEnv) (pick : Nat) (v : FVal) : Nat × Flags :=
  let nan := f.nanOf env []
  let one := sfuNearest f env false 1 0
  let slack := if f == .fp32 then 2 else 1
  let absBits := if f == .fp32 then 22 else 9
  match v with
  | .nan .. => f.nanOf env [v]
  | .inf neg =>
    match op with
    | .rcp => (f.zero neg, 0)
    | .rsq => if neg then nan else (f.zero false, 0)
    | .sqrt | .log2 => if neg then nan else (f.infCode, 0)
    | .exp2 => if neg then (f.zero false, 0) else (f.infCode, 0)
    | .sin | .cos => nan
  | .num neg m e =>
    if m == 0 then
      match op with
      | .rcp | .rsq => (f.withSign neg f.infCode, flagDZ)
      | .sqrt | .sin => (f.zero neg, 0)
      | .exp2 | .cos => one
      | .log2 => (f.withSign true f.infCode, flagDZ)
    else match op with
      | .rcp => sfuQuotient f env neg (rcpParts m e) pick
      | .rsq => if neg then nan else sfuQuotient f env false (rsqParts m e) pick
      | .sqrt =>
        if neg then nan
        else let p := sqrtParts m e; f.roundNum env false p.1 p.2.1
      | .exp2 =>
        if 12 < leadExp m e then
          (if neg then sfuNear f env false 1 (-1000) slack pick else f.overflow { env with rm := 0 } false true)
        else
          let x : Int := (if 0 ≤ e then m * 2 ^ e.toNat * 2 ^ sfuPlaces else m * 2 ^ sfuPlaces / 2 ^ (-e).toNat : Nat)
          let x := if neg then -x else x
          let k := x / (2 ^ sfuPlaces : Nat)
          let fr := (x % (2 ^ sfuPlaces : Nat)).toNat
          if fr == 0 && exp2Exact f k then sfuNearest f env false 1 k
          else if fr == 0 then sfuNear f env false 1 k slack pick
          else sfuNear f env false (exp2Fixed fr) (k - sfuPlaces) slack pick
      | .log2 =>
        if neg then nan
        else
          let p := log2Parts m e
          let n := p.1 / 2 ^ logPlaces
          if p.2 then f.round { env with rm := 0 } (.ofInt n)
          else if f == .fp32 && (n == -1 || n == 0) then
            sfuWithin f env (p.1 * 2 ^ (sfuPlaces - logPlaces)) 22 pick
          else
            let mag := if p.1 < 0 then (-p.1 - 1).toNat else p.1.toNat
            sfuNear f env (decide (p.1 < 0)) (2 * mag + 1) (-((logPlaces : Int) + 1)) slack pick
      | .sin => sfuWithin f env (trigFixed false neg m e) absBits pick
      | .cos => sfuWithin f env (trigFixed true neg m e) absBits pick

/-- The number that tells a format apart in the picks: its width and its fraction bits. -/
def sfuFmt (f : Fmt) : Nat := 64 * f.bits + f.fb

def sfuTag (t : Tag) : Bool := t == .f32 || t == .bf16x2 || t == .f16x2

/-- The body of a special function: per element, flags as in R107. RM is taken out of what the picks depend on (R132). -/
def sfuBody (w : Nat) (op : Sfu) (s : State) (m : Mask) (rs : List Src) : Eff LaneOut := do
  let k ← arithOf s w m rs sfuTag
  let f := k.fmt.getD .fp32
  let amr := (s.wave w).amr &&& ~~~ (7#64)
  flagLanes s w m k.md fun l =>
    let x := (src0 rs 0).lane k.env k.t k.p l
    let r := joinElems k.t ((List.range (tagElems k.t)).map fun i =>
      let c := elemOf k.t x.1 i
      sfuElem op f k.env (Config.sfuPick op.index (sfuFmt f) c amr) (f.decode k.env.flushIn c))
    (r.1, r.2 ||| x.2)

def rcpAt (base : Mask) (g : Guards) (d a : Opnd) (e : BitVec 4) (s : State) (w : Nat) : Eff State :=
  laneWise s w base g [(d, .dest), (a, .src)] (namesV s w [a]) d [a] (some e) (sfuBody w .rcp)

/-- `rcp` (spec/03 R131). -/
def execRcp (g : Guards) (d a : Opnd) (e : BitVec 4) (s : State) : Out :=
  issue s fun w => rcpAt (s.wave w).exec g d a e s w

def rsqAt (base : Mask) (g : Guards) (d a : Opnd) (e : BitVec 4) (s : State) (w : Nat) : Eff State :=
  laneWise s w base g [(d, .dest), (a, .src)] (namesV s w [a]) d [a] (some e) (sfuBody w .rsq)

/-- `rsq` (spec/03 R131). -/
def execRsq (g : Guards) (d a : Opnd) (e : BitVec 4) (s : State) : Out :=
  issue s fun w => rsqAt (s.wave w).exec g d a e s w

def sqrtAt (base : Mask) (g : Guards) (d a : Opnd) (e : BitVec 4) (s : State) (w : Nat) : Eff State :=
  laneWise s w base g [(d, .dest), (a, .src)] (namesV s w [a]) d [a] (some e) (sfuBody w .sqrt)

/-- `sqrt` (spec/03 R131). -/
def execSqrt (g : Guards) (d a : Opnd) (e : BitVec 4) (s : State) : Out :=
  issue s fun w => sqrtAt (s.wave w).exec g d a e s w

def exp2At (base : Mask) (g : Guards) (d a : Opnd) (e : BitVec 4) (s : State) (w : Nat) : Eff State :=
  laneWise s w base g [(d, .dest), (a, .src)] (namesV s w [a]) d [a] (some e) (sfuBody w .exp2)

/-- `exp2` (spec/03 R131). -/
def execExp2 (g : Guards) (d a : Opnd) (e : BitVec 4) (s : State) : Out :=
  issue s fun w => exp2At (s.wave w).exec g d a e s w

def log2At (base : Mask) (g : Guards) (d a : Opnd) (e : BitVec 4) (s : State) (w : Nat) : Eff State :=
  laneWise s w base g [(d, .dest), (a, .src)] (namesV s w [a]) d [a] (some e) (sfuBody w .log2)

/-- `log2` (spec/03 R131). -/
def execLog2 (g : Guards) (d a : Opnd) (e : BitVec 4) (s : State) : Out :=
  issue s fun w => log2At (s.wave w).exec g d a e s w

def sinAt (base : Mask) (g : Guards) (d a : Opnd) (e : BitVec 4) (s : State) (w : Nat) : Eff State :=
  laneWise s w base g [(d, .dest), (a, .src)] (namesV s w [a]) d [a] (some e) (sfuBody w .sin)

/-- `sin` (spec/03 R131). -/
def execSin (g : Guards) (d a : Opnd) (e : BitVec 4) (s : State) : Out :=
  issue s fun w => sinAt (s.wave w).exec g d a e s w

def cosAt (base : Mask) (g : Guards) (d a : Opnd) (e : BitVec 4) (s : State) (w : Nat) : Eff State :=
  laneWise s w base g [(d, .dest), (a, .src)] (namesV s w [a]) d [a] (some e) (sfuBody w .cos)

/-- `cos` (spec/03 R131). -/
def execCos (g : Guards) (d a : Opnd) (e : BitVec 4) (s : State) : Out :=
  issue s fun w => cosAt (s.wave w).exec g d a e s w

end Sys2Proof.Machine
end

