-- ==== Sys2Proof/Machine/Chanter.lean ====
section
/-! DEFINITION. The lane-wise instructions of classes 2 and 3 as acts over a set of lanes, and the chanter: `xeq` and its
computed words (spec/05 R210 to R216; spec/15 R446, R448). -/

namespace Sys2Proof.Machine

/-- A lane-wise instruction of class 2 or 3: its destination, its operands, and its act over a set of lanes. -/
structure VecForm where
  d : Opnd
  ops : List Opnd
  act : Mask → State → Nat → Eff State

/-- The lane-wise instructions of classes 2 and 3; `tagget`, `metard` and `metawr` are uniform. -/
def vecForm : Instr → Option VecForm
  | .add g sat d a b e => some { d := d, ops := [d, a, b], act := fun m => addAt m g sat d a b e }
  | .sub g sat d a b e => some { d := d, ops := [d, a, b], act := fun m => subAt m g sat d a b e }
  | .mul g sat d a b e => some { d := d, ops := [d, a, b], act := fun m => mulAt m g sat d a b e }
  | .mad g sat d a b c e => some { d := d, ops := [d, a, b, c], act := fun m => madAt m g sat d a b c e }
  | .min g d a b e => some { d := d, ops := [d, a, b], act := fun m => minAt m g d a b e }
  | .max g d a b e => some { d := d, ops := [d, a, b], act := fun m => maxAt m g d a b e }
  | .neg g sat d a e => some { d := d, ops := [d, a], act := fun m => negAt m g sat d a e }
  | .abs g sat d a e => some { d := d, ops := [d, a], act := fun m => absAt m g sat d a e }
  | .cmp g cc d a b e => some { d := d, ops := [d, a, b], act := fun m => cmpAt m g cc d a b e }
  | .sel g d a b c e => some { d := d, ops := [d, a, b, c], act := fun m => selAt m g d a b c e }
  | .dot g sat d a b c e => some { d := d, ops := [d, a, b, c], act := fun m => dotAt m g sat d a b c e }
  | .acs g d a b c n => some { d := d, ops := [d, a, b, c], act := fun m => acsAt m g d a b c n }
  | .and g d a b e => some { d := d, ops := [d, a, b], act := fun m => andAt m g d a b e }
  | .or g d a b e => some { d := d, ops := [d, a, b], act := fun m => orAt m g d a b e }
  | .xor g d a b e => some { d := d, ops := [d, a, b], act := fun m => xorAt m g d a b e }
  | .not g d a e => some { d := d, ops := [d, a], act := fun m => notAt m g d a e }
  | .shl g d a b e => some { d := d, ops := [d, a, b], act := fun m => shlAt m g d a b e }
  | .shr g d a b e => some { d := d, ops := [d, a, b], act := fun m => shrAt m g d a b e }
  | .sar g d a b e => some { d := d, ops := [d, a, b], act := fun m => sarAt m g d a b e }
  | .rot g d a b e => some { d := d, ops := [d, a, b], act := fun m => rotAt m g d a b e }
  | .bfe g sgn d a b c e => some { d := d, ops := [d, a, b, c], act := fun m => bfeAt m g sgn d a b c e }
  | .bfi g d a b c e => some { d := d, ops := [d, a, b, c], act := fun m => bfiAt m g d a b c e }
  | .popc g d a e => some { d := d, ops := [d, a], act := fun m => popcAt m g d a e }
  | .clz g d a e => some { d := d, ops := [d, a], act := fun m => clzAt m g d a e }
  | .brev g d a e => some { d := d, ops := [d, a], act := fun m => brevAt m g d a e }
  | .mulhi g d a b e => some { d := d, ops := [d, a, b], act := fun m => mulhiAt m g d a b e }
  | .cvt g t sr d a j => some { d := d, ops := [d, a], act := fun m => cvtAt m g t sr d a j }
  | .pack g d a j => some { d := d, ops := [d, a], act := fun m => packAt m g d a j }
  | .unpk g d a j => some { d := d, ops := [d, a], act := fun m => unpkAt m g d a j }
  | .rcp g d a e => some { d := d, ops := [d, a], act := fun m => rcpAt m g d a e }
  | .rsq g d a e => some { d := d, ops := [d, a], act := fun m => rsqAt m g d a e }
  | .sqrt g d a e => some { d := d, ops := [d, a], act := fun m => sqrtAt m g d a e }
  | .exp2 g d a e => some { d := d, ops := [d, a], act := fun m => exp2At m g d a e }
  | .log2 g d a e => some { d := d, ops := [d, a], act := fun m => log2At m g d a e }
  | .sin g d a e => some { d := d, ops := [d, a], act := fun m => sinAt m g d a e }
  | .cos g d a e => some { d := d, ops := [d, a], act := fun m => cosAt m g d a e }
  | .rand g d => some { d := d, ops := [d], act := fun m => randAt m g d }
  | .tagset g t d a b => some { d := d, ops := [d, a, b], act := fun m => tagsetAt m g t d a b 0 }
  | .mov g d a => some { d := d, ops := [d, a], act := fun m => movAt m g d a 0 }
  | .tagsetPort g t d a b e => some { d := d, ops := [d, a, b], act := fun m => tagsetAt m g t d a b e }
  | .movPort g d a e => some { d := d, ops := [d, a], act := fun m => movAt m g d a e }
  | .movTag g t d a => some { d := d, ops := [d, a], act := fun m => movTagAt m g t d a }
  | .li g t d imm => some { d := d, ops := [d], act := fun m => liAt m g t d imm }
  | _ => none

/-- A memory instruction that a computed word may be: its destination registers, its operands, its act, and, for an atomic,
what it enters into SIG (spec/05 R211). -/
structure MemForm where
  dests : List Nat
  ops : List Opnd
  act : Mask → State → Nat → Eff MemOut
  atom : Option (Mask → State → Nat → List SigRec) := none

/-- The registers of a destination group. -/
def destRegs (d : Opnd) (k : Nat) : List Nat := (List.range k).map fun i => regOf d + i

def atomForm (k : AtomForm) : Option MemForm :=
  if k.o == .rlx then
    some { dests := destRegs k.d (widthRegs k.wd), ops := [k.d, k.a, k.b, k.c], act := atomAt k,
           atom := some fun m s w => k.records m s w }
  else none

/-- The class-6 words that a computed word may be: `.rlx` loads, stores, `cas` and atomics. -/
def memForm : Instr → Option MemForm
  | .ld g o sc _ d a b wd =>
    if o == .rlx then some { dests := destRegs d (widthRegs wd), ops := [d, a, b], act := ldAt g o sc d a b wd } else none
  | .ldt g o sc _ d a b t => if o == .rlx then some { dests := destRegs d 1, ops := [d, a, b], act := ldtAt g o sc d a b t } else none
  | .lds g o sc d a b wd =>
    if o == .rlx then some { dests := destRegs d (widthRegs wd), ops := [d, a, b], act := ldsAt g o sc d a b wd } else none
  | .st g o sc _ a b c wd => if o == .rlx then some { dests := [], ops := [a, b, c], act := stAt false g o sc a b c wd } else none
  | .sts g o _ a b c wd => if o == .rlx then some { dests := [], ops := [a, b, c], act := stsAt false g o a b c wd } else none
  | .atomAdd g o sc _ d a b c wd => atomForm { g, o, sc, d, a, b, c, wd, op := some .add }
  | .atomMin g o sc _ d a b c wd => atomForm { g, o, sc, d, a, b, c, wd, op := some .min }
  | .atomMax g o sc _ d a b c wd => atomForm { g, o, sc, d, a, b, c, wd, op := some .max }
  | .atomAnd g o sc _ d a b c wd => atomForm { g, o, sc, d, a, b, c, wd, op := some .and }
  | .atomOr g o sc _ d a b c wd => atomForm { g, o, sc, d, a, b, c, wd, op := some .or }
  | .atomXor g o sc _ d a b c wd => atomForm { g, o, sc, d, a, b, c, wd, op := some .xor }
  | .atomExch g o sc _ d a b c wd => atomForm { g, o, sc, d, a, b, c, wd, op := some .exch }
  | .atomFadd g o sc _ d a b c wd => atomForm { g, o, sc, d, a, b, c, wd, op := some .fadd }
  | .cas g o sc _ d a b c wd => atomForm { g, o, sc, d, a, b, c, wd, op := none }
  | _ => none

/-- A legal computed word: its act over a set of lanes with the result written at once, the registers that it writes, and its
atomic form. -/
structure Computed where
  act : Mask → State → Nat → Eff State
  dests : List Nat
  atom : Option (Mask → State → Nat → List SigRec)

/-- The decode checks of an act pass in the wave's present state: under an empty mask an act makes those only. -/
def decodes {α : Type} (s : State) (w : Nat) (act : Mask → State → Nat → Eff α) : Bool :=
  match act 0 s w with
  | .ok _ => true
  | .error _ => false

/-- A computed word, if it is legal where its registers are Vn and Vn+1 (spec/05 R211). -/
def legalWord (s : State) (w n : Nat) (word : Word) : Option Computed :=
  match decodeWord word with
  | .error _ => none
  | .ok i =>
    match vecForm i, memForm i with
    | some f, _ =>
      if f.ops.any isPort || (isV f.d && (regOf f.d == n || regOf f.d == n + 1)) || !decodes s w f.act then none
      else some { act := f.act, dests := destRegs f.d 1, atom := none }
    | none, some f =>
      if f.ops.any isPort || f.dests.contains n || f.dests.contains (n + 1) || !decodes s w f.act then none
      else some { act := fun m s w => (f.act m s w).map (applyMem w), dests := f.dests, atom := f.atom }
    | none, none => none

/-- The word of a lane: Vn holds the low half. -/
def laneWord (s : State) (w n l : Nat) : Word :=
  (readV s w 2 (n + 1)).lanes.getD l 0 ++ (readV s w 1 n).lanes.getD l 0

/-- The distinct words of the snapshot's lanes, ascending. -/
def chantWords (s : State) (w n : Nat) : List Word :=
  let lo := (readV s w 1 n).lanes
  let hi := (readV s w 2 (n + 1)).lanes
  (sortBy (fun x y => decide (x.toNat ≤ y.toNat))
    ((lanesOf (s.wave w).id.width (s.wave w).lc.xm).map fun l => (hi.getD l 0 ++ lo.getD l 0 : Word))).eraseDups

/-- The lanes of the snapshot that hold a word, less dead ones. -/
def chantLanes (s : State) (w n : Nat) (word : Word) : Mask :=
  let x := s.wave w
  maskOf x.id.width fun l => x.lc.xm.getLsbD l && !x.lc.dead.getLsbD l && laneWord s w n l == word

/-- XPROG with NEXT one higher, and ILL set where the word was illegal. -/
def nextProg (p : BitVec 32) (ill : Bool) : BitVec 32 := (p + 1) ||| (if ill then 0x40000000#32 else 0)

/-- One step of the chanter: the word that NEXT names (spec/05 R213). In a staged group an atomic word arrives at a commit
point instead, and the commit performs it. -/
def chantStep (s : State) (w n : Nat) (word : Word) : Eff State :=
  let m := chantLanes s w n word
  let move := fun (ill : Bool) (s : State) => s.modWave w fun x => { x with lc.xprog := nextProg x.lc.xprog ill }
  match legalWord s w n word with
  | none => .ok (move true (s.modWave w fun x => { x with lc.xfault := x.lc.xfault ||| m }))
  | some f =>
    match f.atom with
    | some _ =>
      if s.staged (s.wave w).id.group then arriveAt s w .forcing
      else do
        let s' ← f.act m s w
        pure (move false s')
    | none => do
      let s' ← f.act m s w
      pure (move false s')

/-- The index of the word that NEXT names. -/
def chantNext (x : Wave) : Nat := (x.lc.xprog.extractLsb' 0 11).toNat

/-- What `xeq` does next: start, one word, or its end (spec/05 R213). Only the end issues the instruction. -/
def xeqAct (g : Guards) (t : Bool) (a : Opnd) (s : State) (w : Nat) : Eff State := do
  checkOps s w [(a, .onlyV)]
  demand (s.evenPair w a) 0x02#6 (opndAddr a)
  let x := s.wave w
  let n := regOf a
  if !x.lc.xprog.getLsbD 31 then
    let m := activeMask s w g
    if m == 0 then pure s
    else do
      demandClean s w m (baseRegs a)
      .error (.done (s.modWave w fun x => { x with lc.xm := m, lc.xprog := 0x80000000#32 }).tick)
  else
    match (chantWords s w n)[chantNext x]? with
    | some word => do
      let s' ← chantStep s w n word
      .error (.done s'.tick)
    | none =>
      let s' := s.modWave w fun x => { x with lc.xprog := 0 }
      if t && x.lc.xprog.getLsbD 30 then
        let s'' := s'.settleDying w
        .error (.done (if (s''.wave w).pos == x.pos && (s''.wave w).resident then
          s''.trapped w { code := 0x09#6, lanes := some (x.lc.xfault &&& x.lc.xm), resume := true } else s''.tick))
      else if x.lc.dying == 0 then pure s'
      else .error (.done (((s'.modWave w Wave.advance).retire w x).settleDying w))

/-- `xeq` (spec/05 R213). -/
def execXeq (g : Guards) (t : Bool) (a : Opnd) (s : State) : Out := issue s (xeqAct g t a s)

/-- How a step of a wave outside its own issue ends. -/
def settleStep (s : State) (w : Nat) (r : Eff State) : Out :=
  match r with
  | .ok s' => .next s'.tick
  | .error (.trap t) => .next (s.trapped w t)
  | .error (.stall why s') => .next (s'.stallWave w why).tick
  | .error (.done s') => .next s'
  | .error (.fault f) => .fault f

/-- COMPUTED_WORD: the next distinct word of a wave's `xeq` in progress (spec/05 R213). -/
def execComputedWord (wv : Nat) (s : State) : Out :=
  let x := s.wave wv
  match decodeWord x.word with
  | .ok (.xeq _ _ a) =>
    if x.lc.xprog.getLsbD 31 && x.resident && x.sch.stall.isNone && decide (wv < s.waves.length) then
      match (chantWords s wv (regOf a))[chantNext x]? with
      | some word => settleStep s wv (chantStep s wv (regOf a) word)
      | none => .next s
    else .next s
  | _ => .next s

end Sys2Proof.Machine
end

