-- ==== Sys2Proof/Machine/Limb.lean ====
section
/-! DEFINITION. The limb unit's register instructions of class 5: whole numbers, words, half-limbs, column sums, residues and
chunks (spec/07 R258 to R269). -/

namespace Sys2Proof.Machine

/-- A register instruction of class 5: decode checks, then nothing under an all-zero mask, then its body (spec/07 R258,
spec/03 R112). -/
def limbIssue (s : State) (g : Guards) (checks : List (Opnd × Accept)) (extra : State → Nat → Bool)
    (body : State → Nat → Mask → Eff State) : Out :=
  issue s fun w => do
    checkOps s w checks
    demand (extra s w) 0x02#6
    let m := activeMask s w g
    if m == 0 then pure s else body s w m

/-- A count or word given as an immediate is not negative. -/
def countImm (o : Opnd) : Bool := decide (0 ≤ immOf o)

/-- A sign given as an immediate is 0 or 1. -/
def signImm (o : Opnd) : Bool := immOf o == 0 || immOf o == 1

/-- Sources resolved; poison first, then the tags of those named "limb V" (spec/07 R259). -/
def limbSrcs (s : State) (w : Nat) (m : Mask) (limbs : List Opnd) (others : List Opnd) : Eff (List Src) := do
  let rs := ((limbs ++ others).zipIdx).map fun q => srcOf s w [] (q.2 + 1) q.1
  srcsClean m rs
  match (rs.take limbs.length).find? fun r => match r.md with | some md => mdTag md != .limb | none => false with
  | some r => raise 0x05#6 (opndAddr r.o)
  | none => pure rs

/-- Write lane values below the capacity, with metadata. -/
def putLimbs (s : State) (w : Nat) (r : Nat) (vals : Nat → Lane) (md : BitVec 32) : State :=
  s.modWave w fun x => x.setV r (allLanes x.capacity) ((List.range x.id.width).map vals) md

/-- Write a whole number, or raise 0x18 (spec/07 R255). -/
def putWhole (s : State) (w : Nat) (d : Opnd) (v : Int) : Eff State := do
  let r ← limbResult s w v
  pure (putLimbs s w (regOf d) r.vals r.md)

/-- A scalar result. -/
def putS (s : State) (w : Nat) (d : Opnd) (v : Int) : State := s.modWave w fun x => x.setS (regOf d) (BitVec.ofInt 64 v)

/-- Significant bits of a number. -/
def bitLength (n : Nat) : Nat := if n = 0 then 0 else Nat.log2 n + 1

/-- Value of source `i` as a whole number. -/
def wholeOf (s : State) (w : Nat) (rs : List Src) (i : Nat) : Int := (src0 rs i).whole (s.wave w).id.width

/-- `blen` (spec/07 R260). -/
def execBlen (g : Guards) (d a : Opnd) (s : State) : Out :=
  limbIssue s g [(d, .onlyS), (a, .onlyV)] (fun _ _ => true) fun s w m => do
    let rs ← limbSrcs s w m [a] []
    limbSources s w rs
    pure (putS s w d (bitLength (wholeOf s w rs 0).natAbs))

/-- `bnorm` (spec/07 R260). -/
def execBnorm (g : Guards) (d a : Opnd) (s : State) : Out :=
  limbIssue s g [(d, .onlyV), (a, .onlyV)] (fun _ _ => true) fun s w m => do
    let rs ← limbSrcs s w m [a] []
    limbSources s w rs
    putWhole s w d (wholeOf s w rs 0)

/-- The magnitude of a value with the value's sign. -/
def withSign (v : Int) (n : Nat) : Int := if v < 0 then -(n : Int) else n

/-- `bshl` (spec/07 R260). -/
def execBshl (g : Guards) (d a b : Opnd) (s : State) : Out :=
  limbIssue s g [(d, .onlyV), (a, .onlyV), (b, .count)] (fun _ _ => countImm b) fun s w m => do
    let rs ← limbSrcs s w m [a] [b]
    let n ← uniOf s w m 2 b
    limbSources s w (rs.take 1)
    let v := wholeOf s w rs 0
    let need := (bitLength v.natAbs + n.toNat + 31) / 32
    if v == 0 then putWhole s w d 0
    else do
      demand (decide (need ≤ (s.wave w).capacity)) 0x18#6 (BitVec.ofNat 64 need)
      putWhole s w d (v * 2 ^ n.toNat)

/-- `bshr` (spec/07 R260). -/
def execBshr (g : Guards) (d a b : Opnd) (s : State) : Out :=
  limbIssue s g [(d, .onlyV), (a, .onlyV), (b, .count)] (fun _ _ => countImm b) fun s w m => do
    let rs ← limbSrcs s w m [a] [b]
    let n ← uniOf s w m 2 b
    limbSources s w (rs.take 1)
    let v := wholeOf s w rs 0
    putWhole s w d (withSign v (if bitLength v.natAbs ≤ n.toNat then 0 else v.natAbs / 2 ^ n.toNat))

/-- −1, 0 or 1 as the first is less than, equal to or greater than the second. -/
def compareInt (a b : Int) : Int := if a < b then -1 else if a = b then 0 else 1

/-- `bcmp` (spec/07 R261). -/
def execBcmp (g : Guards) (mag : Bool) (d a b : Opnd) (s : State) : Out :=
  limbIssue s g [(d, .onlyS), (a, .onlyV), (b, { v := true, s := true, imm := true })] (fun _ _ => true) fun s w m => do
    let rs ← limbSrcs s w m [a, b] []
    limbSources s w rs
    let x := wholeOf s w rs 0
    let y := wholeOf s w rs 1
    pure (putS s w d (if mag then compareInt x.natAbs y.natAbs else compareInt x y))

/-- One Newton step toward ⌊2^(2k) / b⌋ (spec/07 R266). -/
def newtonStep (y b k : Nat) : Int :=
  let e : Int := (2 ^ (2 * k) : Nat) - (b : Int) * y
  y + Int.fdiv (y * e) ((2 ^ (2 * k) : Nat) : Int)

/-- `bdivs` (spec/07 R266). -/
def execBdivs (g : Guards) (d a b c : Opnd) (s : State) : Out :=
  limbIssue s g [(d, .onlyV), (a, .onlyV), (b, .onlyV), (c, .count)] (fun _ _ => countImm c) fun s w m => do
    let rs ← limbSrcs s w m [a, b] [c]
    let k ← uniOf s w m 3 c
    let y := (wholeOf s w rs 0).natAbs
    let x := (wholeOf s w rs 1).natAbs
    demand (x != 0) 0x0A#6
    demand (k != 0 && decide (k.toNat ≤ 16 * (s.wave w).capacity)) 0x02#6 (opndAddr c)
    limbSources s w (rs.take 2)
    putWhole s w d (newtonStep y x k.toNat)

/-- The sign operand of `cres` and `bjoin`, once it is known to be 0 or 1. -/
def signOf (s : State) (w : Nat) (m : Mask) (site : Nat) (o : Opnd) : Eff Bool := do
  let x ← uniOf s w m site o
  demand (x == 0 || x == 1) 0x02#6 (opndAddr o)
  pure (x == 1)

/-- The pair of registers of a source: poison checked, tags ignored, dead positions zero (spec/07 R264). -/
def pairSrcs (s : State) (w : Nat) (m : Mask) (a : Opnd) : Eff ((Nat → Nat) × (Nat → Nat)) := do
  let hi : Opnd := .v (BitVec.ofNat 6 (regOf a + 1))
  let rs ← limbSrcs s w m [] [a, hi]
  let live := fun (f : Nat → Lane) (l : Nat) => if (s.wave w).lc.dead.getLsbD l then 0 else (f l).toNat
  pure (live (src0 rs 0).val, live (src0 rs 1).val)

/-- The sum over the lanes of f(i) × 2^(step × i). -/
def columnSum (step : Nat) (f : Nat → Nat) : Nat → Nat
  | 0 => 0
  | n + 1 => columnSum step f n + f n * 2 ^ (step * n)

/-- `cres` (spec/07 R264). -/
def execCres (g : Guards) (h : Bool) (d a b : Opnd) (s : State) : Out :=
  limbIssue s g [(d, .onlyV), (a, .onlyV), (b, .si)] (fun s w => s.evenPair w a && signImm b) fun s w m => do
    let p ← pairSrcs s w m a
    let neg ← signOf s w m 3 b
    let x := columnSum (if h then 16 else 32) (fun i => p.2 i * 2 ^ 32 + p.1 i) (s.wave w).id.width
    putWhole s w d (if neg then -(x : Int) else x)

/-- Half-limb i of a magnitude. -/
def halfLimb (n i : Nat) : Nat := (n >>> (16 * i)) % 2 ^ 16

/-- `bsplit` (spec/07 R264). -/
def execBsplit (g : Guards) (d a : Opnd) (s : State) : Out :=
  limbIssue s g [(d, .onlyV), (a, .onlyV)] (fun s w => s.evenPair w d) fun s w m => do
    let rs ← limbSrcs s w m [a] []
    limbSources s w rs
    let W := (s.wave w).id.width
    let n := (wholeOf s w rs 0).natAbs
    let cap := (s.wave w).capacity
    let outs := ((List.range W).filter fun i => decide (cap ≤ i) && (halfLimb n i != 0 || halfLimb n (W + i) != 0))
    demand outs.isEmpty 0x18#6 (BitVec.ofNat 64 (outs.getLastD 0 + 1))
    let s := putLimbs s w (regOf d) (fun i => BitVec.ofNat 32 (halfLimb n i)) (tagMd .u32)
    pure (putLimbs s w (regOf d + 1) (fun i => BitVec.ofNat 32 (halfLimb n (W + i))) (tagMd .u32))

/-- `bjoin` (spec/07 R264). -/
def execBjoin (g : Guards) (d a b : Opnd) (s : State) : Out :=
  limbIssue s g [(d, .onlyV), (a, .onlyV), (b, .si)] (fun s w => s.evenPair w a && signImm b) fun s w m => do
    let p ← pairSrcs s w m a
    let neg ← signOf s w m 3 b
    let W := (s.wave w).id.width
    let x := columnSum 16 p.1 W + columnSum 16 p.2 W * 2 ^ (16 * W)
    putWhole s w d (if neg then -(x : Int) else x)

/-- A chunk result and the carry or borrow: it needs the full width (spec/07 R269). -/
def putChunk (s : State) (w : Nat) (d : Opnd) (t : Int) : Eff State := do
  let x := s.wave w
  let W := x.id.width
  demand (x.capacity == W) 0x18#6 (BitVec.ofNat 64 W)
  let v := wrapTo (32 * W) t
  let s := putLimbs s w (regOf d) (limbAt v) (mkMd .limb W false false 0)
  pure (s.modWave w fun y => y.setCarry (decide (t < 0) || decide (((2 ^ (32 * W) : Nat) : Int) ≤ t)))

/-- Two chunks: all W positions of each source. -/
def chunksOf (s : State) (w : Nat) (m : Mask) (a b : Opnd) : Eff (Nat × Nat) := do
  let rs ← limbSrcs s w m [a, b] []
  let W := (s.wave w).id.width
  pure (limbsNat (src0 rs 0).val W, limbsNat (src0 rs 1).val W)

/-- `baddc` (spec/07 R269). -/
def execBaddc (g : Guards) (cin : Bool) (d a b : Opnd) (s : State) : Out :=
  limbIssue s g [(d, .onlyV), (a, .onlyV), (b, .onlyV)] (fun _ _ => true) fun s w m => do
    let q ← chunksOf s w m a b
    putChunk s w d ((q.1 + q.2 + (cin && (s.wave w).carry).toNat : Nat) : Int)

/-- `bsubc` (spec/07 R269). -/
def execBsubc (g : Guards) (cin : Bool) (d a b : Opnd) (s : State) : Out :=
  limbIssue s g [(d, .onlyV), (a, .onlyV), (b, .onlyV)] (fun _ _ => true) fun s w m => do
    let q ← chunksOf s w m a b
    putChunk s w d ((q.1 : Int) - q.2 - (cin && (s.wave w).carry).toNat)

/-- `bmulw` (spec/07 R262). -/
def execBmulw (g : Guards) (d a b c : Opnd) (s : State) : Out :=
  limbIssue s g [(d, .onlyV), (a, .onlyV), (b, .count), (c, .count)] (fun _ _ => countImm b && countImm c) fun s w m => do
    let rs ← limbSrcs s w m [a] [b, c]
    let y ← uniOf s w m 2 b
    let z ← uniOf s w m 3 c
    limbSources s w (rs.take 1)
    putWhole s w d (wholeOf s w rs 0 * ((y.toNat % 2 ^ 32 : Nat) : Int) + ((z.toNat % 2 ^ 32 : Nat) : Int))

/-- `bmodw` (spec/07 R262). -/
def execBmodw (g : Guards) (d a b : Opnd) (s : State) : Out :=
  limbIssue s g [(d, .onlyS), (a, .onlyV), (b, .count)] (fun _ _ => countImm b) fun s w m => do
    let rs ← limbSrcs s w m [a] [b]
    let y ← uniOf s w m 2 b
    let n := y.toNat % 2 ^ 32
    demand (n != 0) 0x0A#6
    limbSources s w (rs.take 1)
    pure (putS s w d (((wholeOf s w rs 0).natAbs % n : Nat) : Int))

/-- `btom` (spec/07 R263). -/
def execBtom (g : Guards) (all : Bool) (d a b c : Opnd) (s : State) : Out :=
  limbIssue s g [(d, .onlyV), (a, .onlyV), (b, .si), (c, if all then .count else .onlyV)] (fun _ _ => !all || countImm c)
    fun s w m => do
    let rs ← limbSrcs s w m [a] (if all then [c] else [])
    let k ← uniOf s w m 2 b
    let n ← if all then uniOf s w m 3 c else pure 1
    let cap := (s.wave w).capacity
    demand (decide (k.toNat < 64)) 0x02#6 (opndAddr b)
    demand (!all || (decide (1 ≤ n.toNat) && decide (n.toNat ≤ cap) && decide (k.toNat + n.toNat ≤ 64))) 0x02#6 (opndAddr c)
    let ps := (List.range n.toNat).map fun j => s.prime w (k.toNat + j)
    demand (ps.all Option.isSome) 0x02#6 (opndAddr b)
    limbSources s w (rs.take 1)
    let v := wholeOf s w rs 0
    let res := fun j => (v % (((ps.getD j none).getD 1 : Nat) : Int))
    if all then pure (putLimbs s w (regOf d) (fun j => if j < n.toNat then BitVec.ofInt 32 (res j) else 0) (tagMd .u32))
    else pure (putLimbs s w (regOf d) (fun _ => BitVec.ofInt 32 (res 0)) (mkMd .modq 0 false false k.toNat))

end Sys2Proof.Machine
end

