-- ==== Sys2Proof/Machine/Matrix.lean ====
section
/-! DEFINITION. The matrix engine, class 8: commands, streams and fences, the matrix loop in its three modes, tile loads and
stores, and the row step (spec/09 R293 to R315). -/

namespace Sys2Proof.Machine

/-! Tiles (spec/09 R293, R294) -/

/-- The place of an element in a tile. -/
def tilePlace (r c : Nat) : Nat := 256 * r + 4 * c

def Matrix.tile (m : Matrix) (t : Nat) : Memory := m.tiles.getD t []

/-- The 32 bits of a tile's element. -/
def Matrix.elem (m : Matrix) (t r c : Nat) : Nat := (m.tile t).readLe (tilePlace r c) 4

/-- The 64 bits of a tile pair's element. -/
def Matrix.pairElem (m : Matrix) (t r c : Nat) : Nat := m.elem t r c + 2 ^ 32 * m.elem (t + 1) r c

/-- Write row `r` of a tile. -/
def Matrix.setRow (m : Matrix) (t r : Nat) (xs : List Nat) : Matrix :=
  { m with tiles := modifyAt m.tiles t fun x => x.writeAll (placed (tilePlace r 0) (xs.flatMap (leBytes 4))) }

/-- Write row `r` of a tile pair. -/
def Matrix.setPairRow (m : Matrix) (t r : Nat) (xs : List Nat) : Matrix :=
  (m.setRow t r (xs.map (· % 2 ^ 32))).setRow (t + 1) r (xs.map fun x => x / 2 ^ 32 % 2 ^ 32)

def State.modMx (s : State) (c : Nat) (f : Matrix → Matrix) : State := s.modCore c fun k => { k with mx := f k.mx }

/-! The loop's operands (spec/09 R299 to R302) -/

/-- MODE and the other operands of `mloop`. -/
structure Loop where
  abase : Word
  astr : Word
  bbase : Word
  bstr : Word
  ainc : Word
  binc : Word
  mode : Nat
  ptsc : Word

def Loop.ofOps (l : List Word) : Loop :=
  { abase := l.getD 0 0, astr := l.getD 1 0, bbase := l.getD 2 0, bstr := l.getD 3 0, ainc := l.getD 4 0, binc := l.getD 5 0,
    mode := (l.getD 6 0).toNat, ptsc := l.getD 7 0 }

def Loop.fa (k : Loop) : Nat := bitsOf k.mode 3 0
def Loop.fb (k : Loop) : Nat := bitsOf k.mode 7 4
def Loop.z (k : Loop) : Bool := k.mode.testBit 11
def Loop.acc (k : Loop) : Bool := k.mode.testBit 12
def Loop.pts (k : Loop) : Bool := k.mode.testBit 13
def Loop.bsb (k : Loop) : Bool := k.mode.testBit 14
def Loop.bsa (k : Loop) : Bool := k.mode.testBit 15
def Loop.sob (k : Loop) : Nat := bitsOf k.mode 22 16
def Loop.soa (k : Loop) : Nat := bitsOf k.mode 29 23
def Loop.row0 (k : Loop) : Nat := bitsOf k.mode 53 30
def Loop.kst (k : Loop) : Nat := bitsOf k.mode 63 54

/-- Classes of formats (spec/09 R301). -/
inductive MxClass where
  | f16 | f8 | f4 | int | limb
deriving DecidableEq, Repr

def mxClass (f : Nat) : Option MxClass :=
  match f with
  | 3 | 4 => some .f16
  | 6 | 7 | 8 | 10 | 11 => some .f8
  | 12 => some .f4
  | 9 => some .int
  | 13 => some .limb
  | _ => none

/-- K0. -/
def MxClass.k0 : MxClass → Nat
  | .f16 => 64
  | .f8 | .int => 128
  | .f4 => 256
  | .limb => 32

def MxClass.float : MxClass → Bool
  | .f16 | .f8 | .f4 => true
  | _ => false

/-- An MXFP6 operand. -/
def isMx6 (f : Nat) : Bool := f == 10 || f == 11

/-- The result is a tile pair. -/
def Loop.pair (k : Loop) (c : MxClass) : Bool := c == .limb || (c == .int && !k.acc)

/-- The block scales of an operand lie within scale memory. -/
def scalesFit (on : Bool) (so kst k0 : Nat) : Bool := !on || decide (256 * so + 64 * (kst + 1) * (k0 / 32) ≤ 32768)

/-- The conditions on MODE and the other operands whose breach raises 0x02. -/
def Loop.legal (k : Loop) (tile : Nat) : Bool :=
  match mxClass k.fa, mxClass k.fb with
  | some c, some c' =>
    c == c' && bitsOf k.mode 10 8 == 0 && !(k.bsa && isMx6 k.fa) && !(k.bsb && isMx6 k.fb) &&
    (c.float || (!k.bsa && !k.bsb && !k.pts)) && (c == .limb || k.row0 == 0) && (c == .int || !k.acc) &&
    (c != .limb || (k.ainc == 0 && decide (1 ≤ k.astr.toNat) && decide (k.astr.toNat ≤ 2 ^ 24))) &&
    (k.pts || k.ptsc == 0) && (!k.pair c || tile % 2 == 0) &&
    scalesFit k.bsa k.soa k.kst c.k0 && scalesFit k.bsb k.sob k.kst c.k0
  | _, _ => false

/-- The alignment of an operand: its format's, on base, stride and increment. -/
def opAlign (f : Nat) : Nat := if isMx6 f then 32 else if f == 3 || f == 4 || f == 13 then 2 else 1

/-- The values that R302 checks, with their alignments. -/
def Loop.aligned (k : Loop) : List (Word × Nat) :=
  let la := if k.fa == 13 then [] else [(k.astr, opAlign k.fa)]
  [(k.abase, opAlign k.fa)] ++ la ++ [(k.ainc, opAlign k.fa), (k.bbase, opAlign k.fb), (k.bstr, opAlign k.fb), (k.binc, opAlign k.fb)]

/-! Reading rows and columns -/

/-- A range of bytes cut where a page may end. -/
def pieces (va n : Nat) : List (Nat × Nat) :=
  let k := 0x10000 - va % 0x10000
  if n ≤ k then [(va, n)] else [(va, k), (va + k, n - k)]

/-- `n` bytes at each of several addresses, for one step of an engine. -/
def engRows (k : Issuer) (s : State) (vas : List Nat) (n : Nat) : Eng (State × List (List Byte)) := do
  let (s, bs) ← engReads k s (vas.flatMap fun va => pieces va n)
  let all := bs.flatMap id
  pure (s, (List.range vas.length).map fun i => takeBytes all (n * i) n)

/-- `n` bytes at an address, for an engine. -/
def engBytes (k : Issuer) (s : State) (va n : Nat) : Eng (State × List Byte) :=
  (engRows k s [va] n).map fun r => (r.1, r.2.headD [])

/-- The address base + i × step. -/
def strideAddr (base step : Word) (i : Nat) : Word := base + BitVec.ofNat 64 i * step

/-- The bytes of the 64 columns of a K-step's B block. -/
def readColumns (q : Issuer) (k : Loop) (n st : Nat) (s : State) : Eng (State × List (List Byte)) :=
  engRows q s ((List.range 64).map fun c => (strideAddr (strideAddr k.bbase k.binc st) k.bstr c).toNat) n

/-- The float format of an operand code. -/
def mxFmt (f : Nat) : Fmt :=
  match f with
  | 3 => .bf16
  | 4 => .fp16
  | 6 => .e4m3
  | 7 => .e5m2
  | 8 => .mk8
  | 10 => .e2m3
  | 11 => .e3m2
  | _ => .e2m1

/-- The exact product of a list of factors, and whether it is invalid: NaN when any factor is NaN, and when it is 0 × ∞. -/
def factorProduct (l : List FVal) : FVal × Bool :=
  if l.any FVal.isNan then (.nan false false 0, false)
  else match l.foldl (fun acc v => acc.bind fun a => mulExact a v) (some (.num false 1 0)) with
    | some v => (v, false)
    | none => (.nan false false 0, true)

/-- Element `i` of the 128 bytes of a row or column, without block scale (spec/09 R301, R302). -/
def mxElem (f : Nat) (flush : Bool) (bs : List Byte) (i : Nat) : FVal :=
  match f with
  | 3 | 4 => (mxFmt f).decode flush (fieldOf bs (2 * i) 2)
  | 10 | 11 =>
    let blk := takeBytes bs (32 * (i / 32)) 32
    let e := fieldOf blk 24 1
    if e == 255 then .nan false false 0
    else match (mxFmt f).decode flush ((fieldOf blk 0 24 >>> (6 * (i % 32))) % 64) with
      | .num n m x => .num n m (x + (e : Int) - 127)
      | v => v
  | 12 => Fmt.e2m1.decode flush ((fieldOf bs (i / 2) 1 >>> (4 * (i % 2))) % 16)
  | _ => (mxFmt f).decode flush (fieldOf bs i 1)

/-- Elements of a row or column, each with its block scale: the factors that it brings into a product. -/
def mxElems (f k0 : Nat) (flush : Bool) (bs : List Byte) (scales : Option (List Byte)) : List (List FVal) :=
  (List.range k0).map fun i =>
    mxElem f flush bs i :: (scales.map fun sc => [Fmt.e4m3.decode flush (fieldOf sc (i / 32) 1)]).getD []

/-- The block scales of row or column `i` in K-step `st`. -/
def Matrix.scalesAt (m : Matrix) (on : Bool) (so k0 st i : Nat) : Option (List Byte) :=
  if on then some (m.scale.readN (256 * so + (st * 64 + i) * (k0 / 32)) (k0 / 32)) else none

/-! One element of a row step (spec/09 R303 to R307) -/

/-- A signalling NaN among the factors of a row or column. -/
def signals (l : List (List FVal)) : Bool := l.any fun x => x.any FVal.isSignalling

/-- The sum a + pp × S, S being the exact sum of the products, with its flags: invalid where a, pp × S and the products hold
both infinities. -/
def loopElem (env : FEnv) (pp : FVal) (a : FVal) (xs : List FVal) : Nat × Flags :=
  let f := Fmt.fp32
  if a.isNan then f.nanOf env [a]
  else if pp.isNan || xs.any FVal.isNan then (f.canonicalNan, 0)
  else match sumExact env.rm xs with
    | none => (f.canonicalNan, flagNV)
    | some sm => match mulExact pp sm with
      | none => (f.canonicalNan, flagNV)
      | some t => match sumExact env.rm ([a, t] ++ xs.filter FVal.isInf) with
        | none => (f.canonicalNan, flagNV)
        | some r =>
          if r.isZero then
            let neg := fun (x : FVal) => x.neg? != pp.neg?
            let zeros := a.isZero && (pp.isZero || xs.all FVal.isZero)
            if zeros && a.neg? && xs.all neg then f.round env (.num true 0 0)
            else if zeros && !a.neg? && xs.all (fun x => !neg x) then f.round env (.num false 0 0)
            else f.round env (.num (env.rm == 3) 0 0)
          else f.round env r

/-- Products of a row and a column, and whether one is 0 × ∞. -/
def products (as bs : List (List FVal)) : List FVal × Bool :=
  let ps := (as.zip bs).map fun q => factorProduct (q.1 ++ q.2)
  (ps.map Prod.fst, ps.any Prod.snd)

/-- The integers of a row or column. -/
def loopInts (c : MxClass) (bs : List Byte) : List Int :=
  if c == .limb then (List.range 32).map fun i => (fieldOf bs (2 * i) 2 : Int)
  else (List.range 128).map fun i => signedOf 8 (fieldOf bs i 1)

/-- The A row of limb mode: half-limbs a_m, m = ROW0 + r − 32 st − k; positions outside 0 to la − 1 touch no memory. -/
def limbRow (q : Issuer) (k : Loop) (s : State) (st r : Nat) : Eng (State × List Int) := do
  let hi : Int := (k.row0 : Int) + r - 32 * st
  let ms := (List.range 32).map fun (i : Nat) => hi - (i : Int)
  let ok := fun (m : Int) => decide (0 ≤ m) && decide (m < (k.astr.toNat : Int))
  let (s, bs) ← engReads q s ((ms.filter ok).map fun m => ((k.abase + BitVec.ofInt 64 (2 * m)).toNat, 2))
  let r := ms.foldl (fun (acc : List (List Byte) × List Int) m =>
    if ok m then (acc.1.drop 1, (leValue (acc.1.headD []) : Int) :: acc.2) else (acc.1, 0 :: acc.2)) (bs, [])
  pure (s, r.2.reverse)

/-- The B block of K-step `st`: as read before its first row, or now (spec/09 R315). -/
def blockOf (q : Issuer) (k : Loop) (c : MxClass) (x : MCmd) (s : State) (st : Nat) : Eng (State × List (List Byte)) :=
  match x.block with
  | some (n, b) => if n == st then .ok (s, b) else readColumns q k (if c == .limb then 64 else 128) st s
  | none => readColumns q k (if c == .limb then 64 else 128) st s

/-- One row step of a loop (spec/09 R303, R306, R307). -/
def loopStep (q : Issuer) (c : Nat) (x : MCmd) (tile : Nat) (k : Loop) (s : State) : Eng (State × MCmd × Flags) := do
  let cls := (mxClass k.fa).getD .int
  let st := x.rows / 64
  let r := x.rows % 64
  let fresh := k.z && st == 0
  let (s, cols) ← blockOf q k cls x s st
  let y := { x with block := some (st, cols) }
  let m := (s.core c).mx
  let env := FEnv.ofAmr x.amr
  if cls.float then
    let (s, row) ← engBytes q s (strideAddr (strideAddr k.abase k.ainc st) k.astr r).toNat 128
    let as := mxElems k.fa cls.k0 env.flushIn row (m.scalesAt k.bsa k.soa cls.k0 st r)
    let one : FVal := .num false 1 0
    let pa := if k.pts then Fmt.fp32.decode env.flushIn (k.ptsc.toNat % 2 ^ 32) else one
    let pb := if k.pts then Fmt.fp32.decode env.flushIn (k.ptsc.toNat / 2 ^ 32) else one
    let pp := factorProduct [pa, pb]
    let res := (cols.zipIdx).map fun e =>
      let bs := mxElems k.fb cls.k0 env.flushIn e.1 (m.scalesAt k.bsb k.sob cls.k0 st e.2)
      let a := if fresh then .num false 0 0 else Fmt.fp32.decode env.flushIn (m.elem tile r e.2)
      let ps := products as bs
      let v := loopElem env pp.1 a ps.1
      (v.1, v.2 ||| (if ps.2 || pp.2 || signals (as ++ bs ++ [[pa, pb]]) then flagNV else 0))
    pure (s.modMx c fun m => m.setRow tile r (res.map (·.1)), y, res.foldl (fun acc e => acc ||| e.2) 0)
  else do
    let (s, as) ← if cls == .limb then limbRow q k s st r
      else do
        let (s, row) ← engBytes q s (strideAddr (strideAddr k.abase k.ainc st) k.astr r).toNat 128
        pure (s, loopInts cls row)
    let sums := cols.map fun b => ((as.zip (loopInts cls b)).foldl (fun acc p => acc + p.1 * p.2) (0 : Int))
    let put := fun (m : Matrix) =>
      if k.pair cls then m.setPairRow tile r ((sums.zipIdx).map fun e =>
        wrapTo 64 ((if fresh then 0 else (m.pairElem tile r e.2 : Int)) + e.1))
      else m.setRow tile r ((sums.zipIdx).map fun e => wrapTo 32 ((if fresh then 0 else (m.elem tile r e.2 : Int)) + e.1))
    pure (s.modMx c put, y, 0)

/-! Loads and stores of tiles (spec/09 R309, R310) -/

/-- The fields of a store mode. -/
def smFmt (m : Word) : Nat := bitsOf m.toNat 3 0
def smPair (m : Word) : Bool := m.getLsbD 4
def smMod (m : Word) : Bool := m.getLsbD 5
def smMidx (m : Word) : Nat := bitsOf m.toNat 13 8

/-- Bytes written per element; none for a combination that the table does not hold. -/
def storeBytes (m : Word) : Option Nat :=
  match smPair m, smMod m, smFmt m with
  | false, false, 0 | false, false, 1 | false, false, 2 | false, false, 15 => some 4
  | false, false, 3 | false, false, 4 | false, false, 5 => some 2
  | false, false, 6 | false, false, 7 | false, false, 8 | false, false, 9 => some 1
  | true, false, 0 | true, false, 1 | true, false, 15 => some 8
  | true, false, 2 | true, true, 1 => some 4
  | _, _, _ => none

/-- The value written, with its flags. -/
def storeValue (env : FEnv) (m : Word) (p : Nat) (one pair : Nat) : Nat × Flags :=
  let f := smFmt m
  if smMod m then ((signedOf 64 pair % (p : Int)).toNat, 0)
  else if smPair m then
    if f == 2 then Fmt.fp32.round env (.ofInt (signedOf 64 pair)) else (pair, 0)
  else if f == 5 then (wrapTo 16 (clampInt (-32768) 32767 (signedOf 32 one)), 0)
  else if f == 9 then (wrapTo 8 (clampInt (-128) 127 (signedOf 32 one)), 0)
  else if f == 3 || f == 4 || f == 6 || f == 7 || f == 8 then
    (mxFmt f).round env (Fmt.fp32.decode env.flushIn one)
  else (one, 0)

/-- The address of element (r, c) of a tile in memory: es bytes each, transposed or not. -/
def tileAddr (a stride : Word) (tr : Bool) (es r c : Nat) : Nat :=
  (if tr then strideAddr a stride c + BitVec.ofNat 64 (es * r) else strideAddr a stride r + BitVec.ofNat 64 (es * c)).toNat

/-- One step of a tile load. -/
def loadStep (q : Issuer) (c : Nat) (x : MCmd) (tile : Nat) (a stride : Word) (tr : Bool) (s : State) :
    Eng (State × MCmd × Flags) := do
  let r := x.rows
  let (s, bs) ← engReads q s ((List.range 64).map fun j => (tileAddr a stride tr 4 r j, 4))
  pure (s.modMx c fun m => m.setRow tile r (bs.map leValue), x, 0)

/-- One step of a tile store. -/
def storeStep (q : Issuer) (c : Nat) (x : MCmd) (tile : Nat) (a stride mode : Word) (tr : Bool) (p : Nat) (s : State) :
    Eng (State × MCmd × Flags) := do
  let r := x.rows
  let m := (s.core c).mx
  let es := (storeBytes mode).getD 4
  let env := FEnv.ofAmr x.amr
  let vals := (List.range 64).map fun j =>
    storeValue env mode p (m.elem tile r j) (if smPair mode then m.pairElem tile r j else 0)
  let (s, crc) ← engWrites q s x.crc ((vals.zipIdx).map fun e => (tileAddr a stride tr es r e.2, leBytes es e.1.1))
  pure (s, { x with crc := crc }, vals.foldl (fun acc e => acc ||| e.2) 0)

/-- The piece of scale memory of a step: its offset from the start, and its length. -/
def scalePiece (rows cnt : Nat) : Nat × Nat := (256 * rows, min 256 (cnt - 256 * rows))

/-- One step of a scale-memory load. -/
def loadScaleStep (q : Issuer) (c : Nat) (x : MCmd) (a : Word) (off cnt : Nat) (s : State) : Eng (State × MCmd × Flags) := do
  let p := scalePiece x.rows cnt
  let (s, bs) ← engBytes q s (a + BitVec.ofNat 64 p.1).toNat p.2
  pure (s.modMx c fun m => { m with scale := m.scale.writeAll (placed (off + p.1) bs) }, x, 0)

/-- One step of a scale-memory store. -/
def storeScaleStep (q : Issuer) (c : Nat) (x : MCmd) (a : Word) (off cnt : Nat) (s : State) : Eng (State × MCmd × Flags) := do
  let p := scalePiece x.rows cnt
  let bs := (s.core c).mx.scale.readN (off + p.1) p.2
  let ps := pieces (a + BitVec.ofNat 64 p.1).toNat p.2
  let ws := ps.foldl (fun (acc : List (Nat × List Byte) × List Byte) e =>
    (acc.1 ++ [(e.1, acc.2.take e.2)], acc.2.drop e.2)) ([], bs)
  let (s, crc) ← engWrites q s x.crc ws.1
  pure (s, { x with crc := crc }, 0)

/-! Streams (spec/09 R311 to R315) -/

def MCmd.issuer (x : MCmd) : Issuer := { wave := x.wave, group := x.group, o := x.o, sc := x.sc, num := x.num, origin := x.origin }

/-- One row step of a command. -/
def MCmd.step (x : MCmd) (c : Nat) (s : State) : Eng (State × MCmd × Flags) :=
  match x.op with
  | .loop t ops => loopStep x.issuer c x t (Loop.ofOps ops) s
  | .zero t pair =>
    let z := List.replicate 64 0
    .ok (s.modMx c fun m => if pair then m.setPairRow t x.rows z else m.setRow t x.rows z, x, 0)
  | .load t a st tr => loadStep x.issuer c x t a st tr s
  | .loadScale a off cnt => loadScaleStep x.issuer c x a off cnt s
  | .store t a st md tr p => storeStep x.issuer c x t a st md tr p s
  | .storeScale a off cnt => storeScaleStep x.issuer c x a off cnt s
  | .prg .. => .ok (s, x, 0)

def Matrix.stream (m : Matrix) (n : Nat) : MStream := m.streams.getD n default

def Matrix.modStream (m : Matrix) (n : Nat) (f : MStream → MStream) : Matrix := { m with streams := modifyAt m.streams n f }

/-- STATUS of a stream's word (spec/09 R313). -/
def MStream.word (t : MStream) : Word :=
  BitVec.ofNat 64 (t.done.toNat * 2 ^ 32 + t.status.toNat * 2 ^ 16 + t.flags.toNat)

/-- The handlers' oldest command, if it is of stream `n`: it does not wait behind the stream's queue. -/
def Matrix.handlerHead (m : Matrix) (n : Nat) : Option MCmd :=
  match m.handlerQ with
  | x :: _ => if x.stream == n then some x else none
  | [] => none

/-- A command is at the head of what may run: of the handlers' queue, else of its stream where the streams are not frozen and
every fence is passed (spec/09 R312, R315). The streams go on only when the handlers' commands are done, which reload the tiles. -/
def Matrix.ready (m : Matrix) (n : Nat) : Option MCmd :=
  match m.handlerHead n, (m.stream n).q with
  | some x, _ => some x
  | none, [] => none
  | none, x :: _ =>
    let waits := m.fences.any fun f => f.1.getLsbD n && decide (f.2 ≤ x.seq) &&
      (List.range 4).any fun k => f.1.getLsbD k && ((m.stream k).q.any fun y => decide (y.seq < f.2))
    if m.frozen || !m.handlerQ.isEmpty || waits then none else some x

/-- The command that `Matrix.ready` names is replaced, or taken off. -/
def Matrix.setHead (m : Matrix) (n : Nat) (x : Option MCmd) : Matrix :=
  let put := fun (q : List MCmd) => match x with
    | some y => y :: q.drop 1
    | none => q.drop 1
  if (m.handlerHead n).isSome then { m with handlerQ := put m.handlerQ }
  else m.modStream n fun t => { t with q := put t.q }

/-- A command of a stream has ended (spec/09 R313, R315). -/
def State.finishMatrix (s : State) (c n : Nat) (x : MCmd) (st : BitVec 8) : State :=
  let word := ((s.core c).mx.stream n).word
  let s := s.modMx c fun m => m.setHead n none
  match x.op with
  | .prg d hb =>
    let s := s.modMx c fun m => m.modStream n fun t => { t with flags := 0, status := 0, done := 0 }
    s.completeOp x.wave x.key false [.s d hb word]
  | _ =>
    let s := s.modMx c fun m => m.modStream n fun t => { t with status := lowestStatus t.status st, done := t.done + 1 }
    let writes := match x.op with | .store .. | .storeScale .. => true | _ => false
    let s := if writes then s.signCommand x.wave x.crc else s
    ((s.releaseDone x.group x.o x.sc).postEvent x.wave st (BitVec.ofNat 8 (4 + n)) x.num).completeOp x.wave x.key false []

/-- MATRIX_ROW_STEP (spec/09 R315): one row step of the command in progress on a stream. One with the acquire flag does not begin
before its wave's earlier ordered atomics (spec/01 R25). -/
def execMatrixRowStep (c : Nat) (n : BitVec 2) (s : State) : Out :=
  let n := n.toNat
  match (s.core c).mx.ready n with
  | none => .next s
  | some x =>
    if !s.alive (s.core c).part || s.acquireWaits x.wave x.key x.o then .next s
    else if x.total ≤ x.rows then .next (s.finishMatrix c n x 0).tick
    else match x.step c s with
      | .ok (s', y, fl) =>
        let y := { y with rows := x.rows + 1 }
        let s' := s'.modMx c fun m => m.modStream n fun t => { t with flags := t.flags ||| fl }
        if y.total ≤ y.rows then .next (s'.finishMatrix c n y 0).tick
        else .next (s'.modMx c fun m => m.setHead n (some y)).tick
      | .error (.status st) => .next (s.finishMatrix c n x st).tick
      | .error .hold => .next s.tick

/-! Issue (spec/09 R296 to R298) -/

/-- The wave's matrix instructions are its restore or pre-emption handler's, beside the frozen streams (spec/09 R315). -/
def State.matrixAside (s : State) (w : Nat) : Bool := (s.wave w).tr.hm && (s.core (s.wave w).id.core).mx.frozen

/-- A matrix command enters its stream's queue, or, in handler mode over frozen streams, the handler's. The command of a wave whose
group does not own the engine goes to its core's engine as an owner's would; the spec gives it no outcome (DESIGN CHOICE: log entry
56; spec/09 R293). A handler's commands over frozen streams have no limit (DESIGN CHOICE: log entry 54; spec/09 R315). -/
def sendMatrix (s : State) (w : Nat) (o : Order) (sc : Scope) (sn : BitVec 2) (op : MOp) : Eff State := do
  let x := s.wave w
  let c := x.id.core
  let m := (s.core c).mx
  let aside := s.matrixAside w
  roomFor s w .tl
  if !aside && decide (16 ≤ (m.stream sn.toNat).q.length) then .error (.stall (s.fullQueue w (m.streams.any fun t => t.q.head?.any fun y => s.acquireWaits y.wave y.key y.o)) s)
  else if s.storesHeld w then .error (.stall .hold s)
  else
    let cmd : MCmd := { op := op, wave := w, group := x.id.group, key := x.num.key, num := x.num.matrix, seq := m.seq, o := o,
                        sc := sc, amr := x.amr, stream := sn.toNat, rows := 0, block := none, crc := none, pos := x.pos }
    let s := (s.performAll w).modWave w fun y => { y.count .tl false [] with num.matrix := y.num.matrix + 1 }
    .ok (s.modMx c fun m =>
      let m := { m with seq := m.seq + 1 }
      if aside then { m with handlerQ := m.handlerQ ++ [cmd] } else m.modStream sn.toNat fun t => { t with q := t.q ++ [cmd] })

/-- A class-8 instruction arrives on its member set, then acts (spec/09 R297). -/
def matrixIssue (s : State) (checks : List (Opnd × Accept)) (b : Opnd) (act : State → Nat → Eff State) : Out :=
  issueMembers s fun w => do
    checkOps s w (checks ++ [(b, .onlyS)])
    let _ ← gather s w ((s.wave w).named (readS s w 2 (regOf b)))
    act s w

/-- A tile operand. -/
def demandTile (t : BitVec 4) : Eff Unit := demand (decide (t.toNat < 8)) 0x02#6

/-- The first misaligned value raises 0x11. -/
def demandAligned (l : List (Word × Nat)) : Eff Unit :=
  match l.find? fun q => q.1.toNat % q.2 != 0 with
  | some q => raise 0x11#6 q.1
  | none => .ok ()

/-- The first base address with high bits raises 0x10. -/
def demandLow (l : List Word) : Eff Unit :=
  match l.find? fun v => decide (2 ^ 57 ≤ v.toNat) with
  | some v => raise 0x10#6 v
  | none => .ok ()

/-- `mloop` (spec/09 R299 to R303). -/
def execMloop (o : Order) (sc : Scope) (sn : BitVec 2) (a b : Opnd) (tile : BitVec 4) (s : State) : Out :=
  matrixIssue s [(a, .onlyS)] b fun s w => do
    demand (regOf a % 8 == 0) 0x02#6 (opndAddr a)
    demandTile tile
    let ops := (List.range 8).map fun i => readS s w (10 + i) (regOf a + i)
    let k := Loop.ofOps ops
    demand (k.legal tile.toNat) 0x02#6
    demandAligned k.aligned
    demandLow [k.abase, k.bbase]
    sendMatrix s w o sc sn (.loop tile.toNat ops)

/-- `mzero` (spec/09 R308). -/
def execMzero (sn : BitVec 2) (pair : Bool) (b : Opnd) (tile : BitVec 4) (s : State) : Out :=
  matrixIssue s [] b fun s w => do
    demandTile tile
    demand (!pair || tile.toNat % 2 == 0) 0x02#6
    sendMatrix s w .rlx .wave sn (.zero tile.toNat pair)

/-- `mldt` (spec/09 R309). -/
def execMldt (o : Order) (sc : Scope) (sn : BitVec 2) (tr : Bool) (a b c : Opnd) (tile : BitVec 4) (s : State) : Out :=
  matrixIssue s [(a, .onlyS), (c, .onlyS)] b fun s w => do
    demandTile tile
    let va := readS s w 1 (regOf a)
    let st := readS s w 3 (regOf c)
    demandAligned [(va, 4), (st, 4)]
    demandLow [va]
    sendMatrix s w o sc sn (.load tile.toNat va st tr)

/-- Offset and count of a scale-memory command. -/
def demandScale (v : Word) (c : Opnd) : Eff (Nat × Nat) := do
  let off := v.toNat / 2 ^ 32
  let cnt := v.toNat % 2 ^ 32
  demand (cnt != 0 && decide (off + cnt ≤ 32768)) 0x02#6 (opndAddr c)
  pure (off, cnt)

/-- `mldt.scale` (spec/09 R309). -/
def execMldtScale (o : Order) (sc : Scope) (sn : BitVec 2) (a b c : Opnd) (s : State) : Out :=
  matrixIssue s [(a, .onlyS), (c, .onlyS)] b fun s w => do
    let va := readS s w 1 (regOf a)
    let q ← demandScale (readS s w 3 (regOf c)) c
    demandLow [va]
    sendMatrix s w o sc sn (.loadScale va q.1 q.2)

/-- `mstt` (spec/09 R310). Bits [7:6] of the store mode, which the table calls reserved and no more, raise 0x02 when they are not
zero, as bits [63:14] do (DESIGN CHOICE: log entry 56). -/
def execMstt (o : Order) (sc : Scope) (sn : BitVec 2) (tr : Bool) (d a b c : Opnd) (tile : BitVec 4) (s : State) : Out :=
  matrixIssue s [(d, .onlyS), (a, .onlyS), (c, .onlyS)] b fun s w => do
    demandTile tile
    let md := readS s w 4 (regOf d)
    let va := readS s w 1 (regOf a)
    let st := readS s w 3 (regOf c)
    let p := if smMod md then s.prime w (smMidx md) else some 1
    demand (md.extractLsb' 14 50 == 0#50 && md.extractLsb' 6 2 == 0#2) 0x02#6 (opndAddr d)
    demand (!smPair md || tile.toNat % 2 == 0) 0x02#6
    match storeBytes md, p with
    | some es, some p => do
      demandAligned [(va, es), (st, es)]
      demandLow [va]
      sendMatrix s w o sc sn (.store tile.toNat va st md tr p)
    | _, _ => raise 0x02#6 (opndAddr d)

/-- `mstt.scale` (spec/09 R310). -/
def execMsttScale (o : Order) (sc : Scope) (sn : BitVec 2) (a b c : Opnd) (s : State) : Out :=
  matrixIssue s [(a, .onlyS), (c, .onlyS)] b fun s w => do
    let va := readS s w 1 (regOf a)
    let q ← demandScale (readS s w 3 (regOf c)) c
    demandLow [va]
    sendMatrix s w o sc sn (.storeScale va q.1 q.2)

/-- `mfence` (spec/09 R312): in handler mode over frozen streams the handler's commands keep their order without it. It binds no
handler's command; of the program's it binds those issued after a freeze too (log entry 55). -/
def execMfence (b : Opnd) (k : BitVec 4) (s : State) : Out :=
  matrixIssue s [] b fun s w =>
    .ok (if s.matrixAside w then s
      else s.modMx (s.wave w).id.core fun m => { m with fences := m.fences ++ [(k, m.seq)] })

/-- `mprg` (spec/09 R313). -/
def execMprg (sn : BitVec 2) (d b : Opnd) (s : State) : Out :=
  matrixIssue s [(d, .onlyS)] b fun s w =>
    let hb := (s.wave w).tr.hm && decide (56 ≤ regOf d)
    sendMatrix s w .rlx .wave sn (.prg (regOf d) hb)

end Sys2Proof.Machine
end

