-- ==== Sys2Proof/Machine/Ntt.lean ====
section
/-! DEFINITION. The modulus table, residues in registers, the NTT unit with its transforms, and the product of limb arrays on
either of its paths (spec/10 R317 to R331, spec/07 R271 to R275). -/

namespace Sys2Proof.Machine

/-! The modulus table (spec/10 R317 to R319) -/

/-- A valid record of 32 bytes. -/
def Modulus.ofBytes (bs : List Byte) : Option Modulus :=
  let f := fieldOf bs
  let p := f 0 4
  let psi := f 4 4
  let ninv := f 8 4
  let logn := f 12 1
  let n := 2 ^ logn
  if f 13 3 == 0 && f 24 8 == 0 && decide (4 ≤ logn) && decide (logn ≤ 17) && decide (97 ≤ p) && isPrime32 p &&
      (p - 1) % (2 * n) == 0 && decide (psi < p) && powMod p 18 psi n == p - 1 && ninv * n % p == 1 && f 16 8 == 2 ^ 64 / p
  then some { p := p, psi := psi, ninv := ninv, logn := logn } else none

/-- `n` records of 32 bytes from an address, read as one load. -/
def readRecords (w : Nat) (o : Order) (sc : Scope) (n : Nat) (va : Word) (s : State) : Eff (State × List (List Byte)) :=
  recordReads s w o sc 32 ((List.range n).map fun i => (va + BitVec.ofNat 64 (32 * i), 32))

/-- Entries m to m + n − 1 replaced. -/
def Context.setMods (x : Context) (m : Nat) (l : List Modulus) : Context :=
  { x with mods := (List.range 64).map fun i =>
      if m ≤ i ∧ i < m + l.length then some (l.getD (i - m) default) else x.mods.getD i none }

/-- `mtab` (spec/10 R319). -/
def execMtab (o : Order) (sc : Scope) (a b c : Opnd) (s : State) : Out :=
  issue s fun w => do
    checkOps s w [(a, .onlyS), (b, .count), (c, .count)]
    let q ← uni2 s w b c
    let n := q.1.toNat
    let m := q.2.toNat
    demand (decide (1 ≤ n) && decide (n ≤ 64) && decide (m < 64) && decide (m + n ≤ 64)) 0x02#6
    let (s', rs) ← readRecords w o sc n (readS s w 1 (regOf a)) s
    let ms := rs.map Modulus.ofBytes
    demand (ms.all Option.isSome) 0x02#6
    pure (s'.modCtx (s.wave w).id.part (s.wave w).id.ctx fun x => x.setMods m (ms.filterMap id))

/-! Residues in registers (spec/10 R321 to R323) -/

/-- The register after an operand's. -/
def nextV (a : Opnd) : Opnd := .v (BitVec.ofNat 6 (regOf a + 1))

/-- `mred` (spec/10 R322). -/
def execMred (g : Guards) (dbl : Bool) (d a b : Opnd) (s : State) : Out :=
  limbIssue s g [(d, .onlyV), (a, .onlyV), (b, .count)] (fun s w => !dbl || s.evenPair w a) fun s w m => do
    let lo := readV s w 1 (regOf a)
    let hi := readV s w 2 (regOf a + 1)
    demandClean s w m ([a] ++ (if dbl then [nextV a] else []) ++ [b])
    let t := mdTag lo.md
    demand (dbl || t == .i32 || t == .u32) 0x05#6 (opndAddr a)
    let k ← uniOf s w m 3 b
    demand (decide (k.toNat < 64)) 0x02#6 (opndAddr b)
    match s.prime w k.toNat with
    | none => raise 0x02#6 (opndAddr b)
    | some p =>
      let x := fun l => if dbl then (((hi.lanes.getD l 0).toNat * 2 ^ 32 + (lo.lanes.getD l 0).toNat : Nat) : Int)
        else elemInt t (lo.lanes.getD l 0) 0
      pure (s.modWave w fun y => y.setV (regOf d) m ((List.range y.id.width).map fun l => BitVec.ofInt 32 (x l % (p : Int)))
        (mkMd .modq 0 false false k.toNat))

/-- `mlift` (spec/10 R323). -/
def execMlift (g : Guards) (sgn : Bool) (d a : Opnd) (s : State) : Out :=
  limbIssue s g [(d, .onlyV), (a, .onlyV)] (fun _ _ => true) fun s w m => do
    let rs := [srcOf s w [] 1 a]
    srcsClean m rs
    let md := (src0 rs 0).md.getD 0
    demand (mdTag md == .modq) 0x05#6 (opndAddr a)
    let (_, p) ← modulusOf s w m rs
    let v := fun l =>
      let x := ((src0 rs 0).val l).toNat % p
      if sgn && decide ((p - 1) / 2 < x) then BitVec.ofInt 32 ((x : Int) - p) else BitVec.ofNat 32 x
    pure (s.modWave w fun y => y.setV (regOf d) m ((List.range y.id.width).map v) (tagMd (if sgn then .i32 else .u32)))

/-! The NTT unit of a quad (spec/10 R324) -/

/-- The number of a core's NTT unit: of its physical quad, or, in deterministic mode, of its logical quad. -/
def State.unitKey (s : State) (c : Nat) (det : Bool) : Nat :=
  let k := s.core c
  if det then 4096 + 512 * k.part + (if k.twin then 256 else 0) + k.logical / 4 else k.phys / 4

/-- The list index of a core's unit, which is listed from its first command on. -/
def State.unitAt (s : State) (c : Nat) (det : Bool) : State × Nat :=
  let key := s.unitKey c det
  match s.quads.findIdx? fun q => q.quad == key with
  | some i => (s, i)
  | none => ({ s with quads := s.quads ++ [{ quad := key, slots := [], phys := (s.core c).phys / 4 }] }, s.quads.length)

def State.modQuad (s : State) (q : Nat) (f : List NCmd → List NCmd) : State :=
  { s with quads := modifyAt s.quads q fun x => { x with slots := f x.slots } }

def State.quadHead (s : State) (q : Nat) : Option NCmd := (s.quads.getD q default).slots.head?

/-- The name of a unit's oldest command: its wave and key. -/
def Quad.headName (q : Quad) : Option (Nat × Nat) := q.slots.head?.map fun x => (x.wave, x.key)

/-- The physical unit serves the logical unit `q` now: it goes on with the command that it has begun, and then serves the logical
units with a command that can begin in ascending order, wrapping around (spec/10 R324, spec/01 R32; one command at a turn: DESIGN
CHOICE, log entry 56). -/
def State.unitTurn (s : State) (q : Nat) : Bool :=
  let u := s.quads.getD q default
  let mates := s.quads.filter fun v => v.phys == u.phys
  let ready := sortBy (fun (a b : Quad) => decide (a.quad ≤ b.quad))
    (mates.filter fun v => v.slots.head?.any fun x => !s.acquireWaits x.wave x.key x.o)
  match ready.find? fun v => v.turn.isSome && v.turn == v.headName with
  | some v => v.quad == u.quad
  | none =>
    let last := (mates.find? fun v => v.turn.isSome).map fun v => v.quad
    match (ready.find? fun v => last.any fun k => decide (k < v.quad)).or ready.head? with
    | some v => v.quad == u.quad
    | none => false

/-- The physical unit serves a logical unit's oldest command. -/
def State.takeUnit (s : State) (q : Nat) : State :=
  let u := s.quads.getD q default
  { s with quads := s.quads.map fun v => if v.phys == u.phys then { v with turn := if v.quad == u.quad then u.headName else none } else v }

/-- A command of a wave enters a slot of its quad's unit: the wave's queued stores are performed first, and the operation is
counted; sixteen commands fill a unit. -/
def sendNtt (s : State) (w : Nat) (o : Order) (sc : Scope) (num : BitVec 32) (op : NOp) (mods : List Modulus) (direct : Bool) :
    Eff State := do
  let x := s.wave w
  roomFor s w .tl
  let (s', q) := s.unitAt x.id.core (s.waveLaunch w).r.det
  if 16 ≤ (s'.quads.getD q default).slots.length then .error (.stall (s.fullQueue w ((s'.quadHead q).any fun y => s.acquireWaits y.wave y.key y.o)) s)
  else
    let cmd : NCmd := { op := op, wave := w, group := x.id.group, key := x.num.key, num := num, o := o, sc := sc, mods := mods,
                        batch := 0, res := 0, stage := 0, work := [], crc := none, pos := x.pos, direct := direct }
    demandSent s w
    let s' := (s'.performAll w).modWave w fun y => y.count .tl false []
    pure (s'.modQuad q fun l => l ++ [cmd])

/-- The write to Q10 is counted. -/
def State.wroteQ10 (s : State) (w : Nat) : State := s.modWave w fun y => { y with num.ntt := y.num.ntt + 1 }

/-! The descriptor (spec/10 R326, R327) -/

structure NttDesc where
  bstr : Nat
  nb : Nat
  nres : Nat
  mbase : Nat
  logn : Nat

def NttDesc.of (v : Word) : NttDesc :=
  let x := v.toNat
  { bstr := bitsOf x 63 40, nb := bitsOf x 39 32 + 1, nres := bitsOf x 23 18 + 1, mbase := bitsOf x 17 12, logn := bitsOf x 4 0 }

/-- The offset of polynomial j of batch b. -/
def polyOffset (bstr logn b j : Nat) : Nat := 64 * bstr * b + 4 * 2 ^ logn * j

/-- The address of polynomial j of batch b. -/
def polyAt (base : Word) (bstr logn b j : Nat) : Word := base + BitVec.ofNat 64 (polyOffset bstr logn b j)

/-- The addresses of every polynomial. -/
def NttDesc.polys (k : NttDesc) (base : Word) : List Word :=
  (List.range k.nb).flatMap fun b => (List.range k.nres).map fun j => polyAt base k.bstr k.logn b j

/-- Two destination polynomials overlap. -/
def NttDesc.selfOverlap (k : NttDesc) : Bool := decide (1 < k.nb) && decide (64 * k.bstr < 4 * 2 ^ k.logn * k.nres)

/-- A destination polynomial overlaps a source polynomial at another address: told by the distance of their indices. -/
def NttDesc.crossOverlap (k : NttDesc) (d a : Word) : Bool :=
  let l : Int := 4 * 2 ^ k.logn
  let step : Int := 64 * k.bstr
  (List.range (2 * k.nb - 1)).any fun i => (List.range (2 * k.nres - 1)).any fun j =>
    let x := (d - a).toInt + step * ((i : Int) - (k.nb - 1)) + l * ((j : Int) - (k.nres - 1))
    x != 0 && decide (-l < x) && decide (x < l)

/-- The entries that a command names, when all are loaded with its LOGN. -/
def State.entries (s : State) (w m n logn : Nat) : Option (List Modulus) :=
  let es := (List.range n).map fun j => (s.waveCtx w).mods.getD (m + j) none
  if es.all fun e => match e with | some x => x.logn == logn | none => false then some (es.filterMap id) else none

/-- An address that a command of the unit may not name: high bits set, or in the scratchpad window. -/
def unitBad (v : Word) : Bool := decide (2 ^ 57 ≤ v.toNat) || inWindow v.toNat

/-- `nttf` and `ntti` at issue (spec/10 R327). Check 4 asks of each polynomial where it starts: one that starts below the scratchpad
window and runs into it is sent (DESIGN CHOICE: log entry 56). -/
def transformAct (inv : Bool) (o : Order) (sc : Scope) (d a c : Opnd) (s : State) (w : Nat) : Eff State := do
  checkOps s w [(d, .onlyS), (a, .onlyS), (c, .onlyS)]
  let dv := readS s w 4 (regOf d)
  let av := readS s w 1 (regOf a)
  let v := readS s w 3 (regOf c)
  let k := NttDesc.of v
  demand (v.extractLsb' 24 8 == 0#8 && v.extractLsb' 5 7 == 0#7 && decide (4 ≤ k.logn) && decide (k.logn ≤ 17) &&
    decide (k.mbase + k.nres ≤ 64)) 0x02#6 (opndAddr c)
  match s.entries w k.mbase k.nres k.logn with
  | none => raise 0x02#6 (opndAddr c)
  | some ms => do
    demand (!k.selfOverlap && !k.crossOverlap dv av) 0x02#6 (opndAddr d)
    demandAligned [(dv, 4), (av, 4)]
    match (k.polys dv ++ k.polys av).find? unitBad with
    | some x => raise 0x10#6 x
    | none => do
      let s' ← sendNtt s w o sc (s.wave w).num.ntt (.transform inv dv av k.bstr k.nb k.nres k.logn) ms false
      pure (s'.wroteQ10 w)

/-- `nttf` (spec/10 R325). -/
def execNttf (o : Order) (sc : Scope) (d a c : Opnd) (s : State) : Out := issue s (transformAct false o sc d a c s)

/-- `ntti` (spec/10 R325). -/
def execNtti (o : Order) (sc : Scope) (d a c : Opnd) (s : State) : Out := issue s (transformAct true o sc d a c s)

/-! Transforms (spec/10 R328) -/

/-- Σ x(k) × y^k mod p. -/
def polyEval (p y : Nat) (xs : List Nat) : Nat := xs.foldr (fun x acc => (x + y * acc) % p) 0

/-- Evaluations at the odd powers of ψ. -/
def forwardNtt (m : Modulus) (xs : List Nat) : List Nat :=
  (List.range xs.length).map fun i => polyEval m.p (powMod m.p 32 m.psi (2 * i + 1)) xs

/-- Coefficients from evaluations. -/
def inverseNtt (m : Modulus) (xs : List Nat) : List Nat :=
  let q := invMod m.p m.psi
  (List.range xs.length).map fun j =>
    let y := powMod m.p 32 q j
    m.ninv * (y * polyEval m.p (y * y % m.p) xs % m.p) % m.p

def NCmd.issuer (x : NCmd) : Issuer := { wave := x.wave, group := x.group, o := x.o, sc := x.sc, num := x.num, origin := x.origin }

/-- `n` words from an address: the ranges that hold them. -/
def wordRanges (a : Word) (n : Nat) : List (Nat × Nat) := (List.range n).map fun i => (limbAddr a i, 4)

/-- Words written from an address. -/
def wordWrites (a : Word) (xs : List Nat) : List (Nat × List Byte) := (xs.zipIdx).map fun q => (limbAddr a q.2, leBytes 4 q.1)

/-- One butterfly stage of one residue polynomial: the first reads it, the last writes the result. The command after the step,
and whether it is complete. -/
def transformStep (s : State) (x : NCmd) (inv : Bool) (d a : Word) (bstr nb nres logn : Nat) : Eng (State × NCmd × Bool) :=
  if x.stage == 0 then do
    let (s, vs) ← engReads x.issuer s (wordRanges (polyAt a bstr logn x.batch x.res) (2 ^ logn))
    pure (s, { x with work := vs.map leValue, stage := 1 }, false)
  else if x.stage + 1 < logn then .ok (s, { x with stage := x.stage + 1 }, false)
  else do
    let m := x.mods.getD x.res default
    let out := if inv then inverseNtt m x.work else forwardNtt m x.work
    let (s, crc) ← engWrites x.issuer s x.crc (wordWrites (polyAt d bstr logn x.batch x.res) out)
    let last := x.res + 1 == nres
    let y := { x with crc := crc, work := [], stage := 0, res := if last then 0 else x.res + 1,
                      batch := if last then x.batch + 1 else x.batch }
    pure (s, y, y.batch == nb)

/-! Rescaling (spec/10 R338) -/

/-- Writes of a rescale: in a staged group they enter the staging of both copies. -/
def rescalePut (s : State) (x : NCmd) (l : List (Nat × List Byte)) (ws : List Loc) : Eng (State × Option Word) := do
  let (s, crc) ← engPut { x.issuer with direct := false } s x.crc l ws
  let b := splitWrites (ws.zip (l.map fun q => q.2))
  pure (match (s.group x.group).sibling with
    | some t => s.engineWriteAll t false b.1 b.2
    | none => s, crc)

/-- A residue after division by the top prime q: `h` is the rounding, `v` comes from the top residue. -/
def rescaled (q p h top x : Nat) : Nat :=
  let v := (top + h) % q
  ((x + h + p * (v / p + 1) - v) % p) * invMod p (q % p) % p

/-- One residue polynomial of one component, and after the last the header. -/
def rescaleStep (s : State) (x : NCmd) (h : Word) (logn res comps cstr : Nat) (rnd : Bool) : Eng (State × NCmd × Bool) :=
  let top := res - 1
  let q := (x.mods.getD top default).p
  if x.batch < comps then do
    let at_ := fun j => polyAt (h + 64 + BitVec.ofNat 64 (cstr * x.batch)) 0 logn 0 j
    let p := (x.mods.getD x.res default).p
    let dst := wordRanges (at_ x.res) (2 ^ logn)
    let (s, got, ws) ← engMove x.issuer s (wordRanges (at_ top) (2 ^ logn) ++ dst) dst
    let out := ((got.take (2 ^ logn)).zip (got.drop (2 ^ logn))).map fun e =>
      rescaled q p (if rnd then q / 2 else 0) (leValue e.1) (leValue e.2)
    let (s, crc) ← rescalePut s x (wordWrites (at_ x.res) out) ws
    let last := x.res + 1 == top
    pure (s, { x with crc := crc, res := if last then 0 else x.res + 1, batch := if last then x.batch + 1 else x.batch }, false)
  else do
    let (s, hd, ws) ← engMove x.issuer s [((h + 4).toNat, 6)] [((h + 8).toNat, 2), ((h + 4).toNat, 4)]
    let f := fieldOf (hd.headD [])
    let scale := wrapTo 16 ((f 4 2 : Int) - log2Floor q)
    let (s, crc) ← rescalePut s x
      [((h + 8).toNat, leBytes 2 scale),
       ((h + 4).toNat, leBytes 1 (f 0 1) ++ leBytes 1 top ++ leBytes 1 (f 2 1 + 255) ++ leBytes 1 (f 3 1 % 128))] ws
    pure (s, { x with crc := crc }, true)

/-! Completion and steps (spec/10 R330, R331) -/

/-- The command in progress is complete, or stopped with a status. -/
def State.finishNtt (s : State) (q : Nat) (x : NCmd) (source st : BitVec 8) : State :=
  let s := s.modQuad q fun l => l.drop 1
  let s := match x.op with
    | .rescale h .. => if st == 0 then s else s.clearBusy x false h
    | _ => s
  let s := s.releaseDone x.group x.o x.sc
  let s := s.signCommand x.wave x.crc
  let s := match (if x.direct then s.twinOf x.wave else none) with
    | some t => s.signCommand t x.crc
    | none => s
  (s.postShared x.wave x.direct st source x.num).completeOp x.wave x.key x.direct []

/-- A step's outcome for the command in progress of a unit. -/
def State.afterNtt (s : State) (q : Nat) (x : NCmd) (source : BitVec 8) (r : Eng (State × NCmd × Bool)) : State :=
  match r with
  | .ok (s', y, fin) => if fin then s'.finishNtt q y source 0 else s'.modQuad q fun l => y :: l.drop 1
  | .error (.status st) => s.finishNtt q x source st
  | .error .hold => s

/-- The unit may take a step of its oldest command: it stands not still, and the physical unit serves it now. -/
def State.unitMay (s : State) (q : Nat) (x : NCmd) : Bool := !s.engineHeld x.group && s.unitTurn q

/-- NTT_STEP (spec/10 R330): one step of the transform or rescale that the unit runs. -/
def execNttStep (q : Nat) (s : State) : Out :=
  match s.quadHead q with
  | none => .next s
  | some x =>
    match x.op with
    | .transform inv d a bstr nb nres logn =>
      event s (s.unitMay q x) fun s =>
        let s := s.takeUnit q
        s.afterNtt q x 0x08#8 (transformStep s x inv d a bstr nb nres logn)
    | .rescale h logn res comps cstr rnd =>
      event s (s.unitMay q x) fun s =>
        let s := s.takeUnit q
        s.afterNtt q x 0x08#8 (rescaleStep s x h logn res comps cstr rnd)
    | .lmul _ => .next s

/-! Products of limb arrays (spec/07 R271 to R274) -/

/-- A range that meets the scratchpad window, or begins there. -/
def meetsWindow (v : Word) (n : Nat) : Bool := inWindow v.toNat || (n != 0 && rangesMeet v.toNat n windowBase 0x100000)

/-- Two ranges of limbs overlap; an empty one overlaps nothing. -/
def limbsMeet (a : Word) (m : Nat) (b : Word) (n : Nat) : Bool := m != 0 && n != 0 && rangesMeet a.toNat (4 * m) b.toNat (4 * n)

/-- `lmulm` (spec/07 R271): on the matrix path below NTTTHR, on the NTT path from it on (R273). The matrix path's queue of a
core has no number at which it is full: DESIGN CHOICE, it takes every product and never blocks (log entry 54). -/
def execLmulm (o : Order) (sc : Scope) (d a b c : Opnd) (s : State) : Out :=
  issue s fun w => do
    checkOps s w [(d, .onlyS), (a, .onlyS), (b, .onlyS), (c, .onlyS)]
    let x := s.wave w
    let dv := readS s w 4 (regOf d)
    let va := readS s w 1 (regOf a)
    let vb := readS s w 2 (regOf b)
    let n := readS s w 3 (regOf c)
    let la := n.toNat % 2 ^ 32
    let lb := n.toNat / 2 ^ 32
    demand (!limbsMeet dv (la + lb) va la && !limbsMeet dv (la + lb) vb lb) 0x02#6 (opndAddr d)
    demandAligned [(dv, 4), (va, 4), (vb, 4)]
    match [(dv, la + lb), (va, la), (vb, lb)].find? fun q => decide (2 ^ 57 ≤ q.1.toNat) || meetsWindow q.1 (4 * q.2) with
    | some q => raise 0x10#6 q.1
    | none => do
      demand (decide (la + lb ≤ 131072)) 0x18#6 (BitVec.ofNat 64 (la + lb))
      let cmd : LMul := { wave := w, group := x.id.group, key := x.num.key, num := x.num.lmulm, o := o, sc := sc, d := dv, a := va,
                          b := vb, la := la, lb := lb, prog := 0, crc := none, pos := x.pos }
      let s' ← if max la lb < x.nttthr.toNat then do
          roomFor s w .tl
          demandSent s w
          let s' := (s.performAll w).modWave w fun y => y.count .tl false []
          pure (s'.modCore x.id.core fun k => { k with lmuls := k.lmuls ++ [cmd] })
        else sendNtt s w o sc x.num.lmulm (.lmul cmd) [] false
      pure (s'.modWave w fun y => { y with num.lmulm := y.num.lmulm + 1 })

def LMul.issuer (x : LMul) : Issuer := { wave := x.wave, group := x.group, o := x.o, sc := x.sc, num := x.num, origin := x.origin }

/-- Steps before the first block: none on the matrix path; on the NTT path the stages of two transforms and their inverse,
modulo three primes. -/
def LMul.stages (x : LMul) (onNtt : Bool) : Nat := if onNtt then 9 * max 10 (log2Ceil (x.la + x.lb)) else 0

/-- Blocks of 64 destination limbs. -/
def LMul.blocks (x : LMul) : Nat := (x.la + x.lb + 63) / 64

/-- Block `k` of the product. -/
def LMul.block (x : LMul) (s : State) (k : Nat) : Eng (State × LMul) := do
  let empty := x.la == 0 || x.lb == 0
  let is := ((List.range 64).map fun i => 64 * k + i).filter fun i => decide (i < x.la + x.lb)
  let (s, got, ws) ← engMove x.issuer s (if empty then [] else wordRanges x.a x.la ++ wordRanges x.b x.lb)
    (is.map fun i => (limbAddr x.d i, 4))
  let v := leValue ((got.take x.la).flatMap id) * leValue ((got.drop x.la).flatMap id)
  let (s, crc) ← engPut x.issuer s x.crc (is.map fun i => (limbAddr x.d i, leBytes 4 (v >>> (32 * i)))) ws
  pure (s, { x with crc := crc })

/-- One step; whether the command is complete. -/
def LMul.step (x : LMul) (onNtt : Bool) (s : State) : Eng (State × LMul × Bool) :=
  let k := x.stages onNtt
  let fin := fun (y : LMul) => decide (k + y.blocks ≤ y.prog)
  if x.prog < k then .ok (s, { x with prog := x.prog + 1 }, fin { x with prog := x.prog + 1 })
  else if k + x.blocks ≤ x.prog then .ok (s, x, true)
  else do
    let (s, y) ← x.block s (x.prog - k)
    let y := { y with prog := y.prog + 1 }
    pure (s, y, fin y)

/-- An `lmulm` of the matrix path has ended. -/
def State.finishLmul (s : State) (c : Nat) (x : LMul) (st : BitVec 8) : State :=
  let s := (s.modCore c fun k => { k with lmuls := k.lmuls.drop 1 }).releaseDone x.group x.o x.sc
  ((s.signCommand x.wave x.crc).postEvent x.wave st 0x10#8 x.num).completeOp x.wave x.key false []

/-- LMULM_STEP (spec/07 R274): one step of the `lmulm` that core `n` runs on the matrix path, or unit `n` on the NTT path. One with
the acquire flag does not begin before its wave's earlier ordered atomics (spec/01 R25). -/
def execLmulmStep (onNtt : Bool) (n : Nat) (s : State) : Out :=
  if onNtt then
    match s.quadHead n with
    | none => .next s
    | some x =>
      match x.op with
      | .lmul c =>
        let lift := fun (r : State × LMul × Bool) => (r.1, { x with op := .lmul r.2.1, crc := r.2.1.crc }, r.2.2)
        event s (s.unitMay n x) fun s =>
          let s := s.takeUnit n
          s.afterNtt n x 0x10#8 ((c.step true s).map lift)
      | _ => .next s
  else
    match (s.core n).lmuls with
    | [] => .next s
    | x :: t =>
      event s (!s.engineHeld x.group && !s.acquireWaits x.wave x.key x.o) fun s => match x.step false s with
        | .ok (s', y, fin) => if fin then s'.finishLmul n y 0 else s'.modCore n fun k => { k with lmuls := y :: t }
        | .error (.status st) => s.finishLmul n x st
        | .error .hold => s

end Sys2Proof.Machine
end

