-- ==== Sys2Proof/Machine/Ciphertext.lean ====
section
/-! DEFINITION. Ciphertext headers: `ctchk`, `ctlvl` and `ctresc` (spec/10 R333 to R339). -/

namespace Sys2Proof.Machine

/-! Headers (spec/10 R333) -/

/-- The fields of a header. -/
structure CtHeader where
  sig : Nat
  logn : Nat
  res : Nat
  level : Nat
  flags : Nat
  scale : Nat
  mbase : Nat
  mset : Nat
  keyid : Nat
  cstr : Nat
  /-- a field or bit that is zero in a valid header is not -/
  dirty : Bool

def CtHeader.ofBytes (bs : List Byte) : CtHeader :=
  let f := fieldOf bs
  { sig := f 0 4, logn := f 4 1 % 32, res := f 5 1, level := f 6 1, flags := f 7 1, scale := f 8 2, mbase := f 10 1 % 64,
    mset := f 12 4, keyid := f 16 8, cstr := f 24 4,
    dirty := f 4 1 / 32 != 0 || bitsOf (f 7 1) 6 2 != 0 || f 10 1 / 64 != 0 || f 11 1 != 0 || (bs.drop 28).any fun b => b != 0 }

def CtHeader.busy (h : CtHeader) : Bool := h.flags.testBit 7
def CtHeader.comps (h : CtHeader) : Nat := if h.flags.testBit 1 then 3 else 2

/-- SIG of a ciphertext. -/
def ctSig : Nat := 0x5A860C7E

/-- CODE of one header: the first in ascending order that applies (spec/10 R335). -/
def CtHeader.code (h : CtHeader) (s : State) (w : Nat) : Nat :=
  if h.sig != ctSig then 1
  else if h.logn < 4 || 17 < h.logn then 2
  else if h.res == 0 || 64 < h.mbase + h.res then 3
  else if h.res ≤ h.level then 4
  else if h.dirty then 5
  else if h.cstr % 64 != 0 || decide (h.cstr < 4 * 2 ^ h.logn * h.res) then 6
  else if (s.entries w h.mbase h.res h.logn).isNone then 7
  else 0

/-- CODE of a pair that are both valid. -/
def CtHeader.pairCode (a b : CtHeader) : Nat :=
  if a.logn != b.logn then 16
  else if a.res != b.res || a.level != b.level then 17
  else if a.mbase != b.mbase || a.mset != b.mset then 18
  else if a.keyid != b.keyid then 19
  else if a.flags.testBit 0 != b.flags.testBit 0 then 20
  else 0

/-- The handles are multiples of 64, and name no place with high bits or in the window (spec/10 R334). -/
def demandHandles (l : List Word) : Eff Unit := do
  demandAligned (l.map fun h => (h, 64))
  match l.find? unitBad with
  | some h => raise 0x10#6 h
  | none => .ok ()

/-! The instructions -/

/-- `ctchk` (spec/10 R335). The code is the first in the order of the rule's list: of an Hb that is invalid and also differs from Ha
it is 32 plus the code for Hb (DEDUCED: log entry 56). -/
def execCtchk (o : Order) (sc : Scope) (t : Bool) (d a b : Opnd) (pair : Bool) (s : State) : Out :=
  issue s fun w => do
    checkOps s w ([(d, .onlyS), (a, .sv)] ++ if pair then [(b, .sv)] else [])
    let q ← if pair then uni2 s w a b else (uni1 s w a).map fun x => (x, x)
    demandHandles (if pair then [q.1, q.2] else [q.1])
    let (s, as) ← recordRead s w o sc q.1 64 64
    let (s, bs) ← if pair then recordRead s w o sc q.2 64 64 else pure (s, as)
    let ha := CtHeader.ofBytes as
    let hb := CtHeader.ofBytes bs
    let ca := ha.code s w
    let cb := hb.code s w
    let code := if ca != 0 || !pair then ca else if cb != 0 then 32 + cb else ha.pairCode hb
    let busy := ha.busy || (pair && hb.busy)
    demand (!t || code == 0) 0x02#6
    pure (putS s w d ((ha.level * 2 ^ 24 + ha.res * 2 ^ 16 + code * 2 ^ 8 + (if busy then 2 else 0) +
      (if code == 0 then 1 else 0) : Nat) : Int))

/-- `ctlvl` (spec/10 R336). SIG is read "with the same access" as bytes 4 to 7: bytes 0 to 7 are one access, for faults and for the
race detector alike (DEDUCED: log entry 56). -/
def execCtlvl (o : Order) (sc : Scope) (d a : Opnd) (s : State) : Out :=
  issue s fun w => do
    checkOps s w [(d, .onlyS), (a, .sv)]
    let h ← uni1 s w a
    demandHandles [h]
    let (s, bs) ← recordRead s w o sc h 8 64
    demand (fieldOf bs 0 4 == ctSig) 0x02#6
    pure (putS s w d ((fieldOf bs 6 1 : Nat) : Int))

/-- An entry below the top residue repeats its prime (spec/10 R337, check 4). -/
def repeatsTop (ms : List Modulus) : Bool :=
  match ms.reverse with
  | [] => false
  | q :: rest => rest.any fun m => m.p == q.p

/-- The decode checks of `ctresc`. -/
def ctrescCheck (sc : Scope) (a : Opnd) (s : State) (w : Nat) : Eff Unit := do
  checkOps s w [(a, .sv)]
  demand (decide (2 ≤ scopeRank sc)) 0x02#6

/-- `ctresc`: the header is claimed in one step, an acquire whatever the ordering of the word, and the command sent (spec/10 R337,
R338). A header that may not be written raises its 0x10 with the faults of its read, before check 1 (DESIGN CHOICE: log entry 56). -/
def ctrescAct (o : Order) (sc : Scope) (rnd : Bool) (a : Opnd) (s : State) (w : Nat) : Eff State := do
  ctrescCheck sc a s w
  let h ← uni1 s w a
  demandHandles [h]
  let (s1, bs) ← recordRead s w (if Order.releases o then .ar else .acq) sc h 64 64
  let (s1, l) ← placeOf s1 w h.toNat 64 .store
  let hd := CtHeader.ofBytes bs
  demand (hd.code s w == 0 && !hd.busy && !(hd.flags.testBit 0)) 0x02#6
  let ms := (s.entries w hd.mbase hd.res hd.logn).getD []
  demand (!repeatsTop ms) 0x02#6
  demand (hd.level != 0) 0x0C#6 h
  let s1 ← raceCheck s1 w { kind := .atomic, acq := true, rel := Order.releases o, sc := sc } [(0, (h + 4).toNat, 4)]
  let s2 ← sendNtt s1 w o sc (s1.wave w).num.ntt (.rescale h hd.logn hd.res hd.comps hd.cstr rnd) ms true
  let s2 := match l with
    | .mem pa => s2.putLe (pa + 7) 1 (hd.flags + 128)
    | .sp _ => s2
  pure (s2.wroteQ10 w)

/-- `ctresc`: a forcing instruction (spec/15 R446). -/
def execCtresc (o : Order) (sc : Scope) (rnd : Bool) (a : Opnd) (s : State) : Out :=
  issue s fun w => do
    ctrescCheck sc a s w
    forced s w (ctrescAct o sc rnd a)

end Sys2Proof.Machine
end

