-- ==== Sys2Proof/Machine/Context.lean ====
section
/-! DEFINITION. The context unit: `trap`, `bkpt`, `rte`, single step, the watchdog, events, pre-emption with its park, save and
restore, `csrd`, `cswr`, `prmt` and `wkill` (spec/11 R344 to R363). -/

namespace Sys2Proof.Machine

/-! Traps that instructions make (spec/11 R349) -/


/-- `trap`. -/
def execTrap (code : BitVec 6) (a : Opnd) (s : State) : Out :=
  issue s fun w => do
    checkOps s w [(a, .count)]
    let v ← uni1 s w a
    .error (.done (s.trapDone w { code := code, addr := v, resume := true, sw := true }))

/-- `bkpt`. -/
def execBkpt (n : BitVec 4) (s : State) : Out :=
  issue s fun w => .error (.done (s.trapDone w { code := 0x1B#6, addr := n.zeroExtend 64, resume := true }))

/-! Return from a handler (spec/11 R348) -/

/-- A region opened in the handler is still open. -/
def Wave.leftOpen (x : Wave) : Bool :=
  (List.range 32).any fun i => x.tr.opened.getLsbD i && (x.region (BitVec.ofNat 6 i)).valid

/-- What `rte` requires: the trapping path with its mask and region as at entry, and no region left open. -/
def Wave.mayReturn (x : Wave) : Bool :=
  x.cur == x.tr.entryPath && x.exec == x.tr.entryMask && x.path.reg == x.tr.entryReg && !x.leftOpen

/-- INDEX and RES of TINF. -/
def Wave.savedIndex (x : Wave) : Nat := (x.tr.tinf.extractLsb' 0 4).toNat
def Wave.resumesAfter (x : Wave) : Bool := x.tr.tinf.getLsbD 4

/-- Where `rte` resumes, and whether that is a clause that has not started: the saved position, or the one after it, for which
the header gives COUNT. -/
def State.returnPos (s : State) (w : Nat) : State × Pos × Bool :=
  let x := s.wave w
  let i := x.savedIndex
  if !x.resumesAfter then (s, { hdr := x.tr.tcla, idx := i }, false)
  else match s.unitRead w x.tr.tcla.toNat .fetch with
    | some (s', hw) =>
      match Header.ofWord hw with
      | some h =>
        if i + 1 < h.count then (s', { hdr := x.tr.tcla, idx := i + 1 }, false)
        else (s', { hdr := x.tr.tcla + BitVec.ofNat 64 (8 * (h.count + 1)), idx := 0 }, true)
      | none => (s', { hdr := x.tr.tcla, idx := i + 1 }, false)
    | none => (s, { hdr := x.tr.tcla, idx := i + 1 }, false)

/-- The program's bank, XPROG and position come back; a `halloc.t` that is replayed finds its reply (spec/08 R287), a `bar` whose
arrival was made its arrival, and a `prmt` or `nrec` how far it was, each where the wave stands at it again (spec/11 R351, R362, spec/12
R387). -/
def Wave.resumeAt (x : Wave) (p : Pos) (fresh : Bool) : Wave :=
  let reply := match x.tr.heapSaved with
    | some (q, k, r) => if q == p then some (k, r) else none
    | none => none
  let y := x.modPath x.cur fun r => { r with pos := p }
  { y with
    lc.xprog := x.tr.txprog, lc.xm := x.tr.txm, tr.hm := false, tr.armed := x.tr.ss, tr.heapSaved := none,
    sch.barArrived := x.tr.barSaved.filter fun q => q == p, sch.prmt := x.tr.prmtSaved.filter fun q => q.1 == p,
    sch.nrec := x.tr.nrecSaved.filter fun q => q.1 == p, tr.barSaved := none,
    tr.prmtSaved := none, tr.nrecSaved := none,
    sch.started := false, sch.resume := p.idx != 0 || (!fresh && x.tr.inClause),
    sch.heapWait := reply.map fun q => q.1, sch.heapReply := reply.bind fun q => q.2 }

/-- The core runs its next restore handler; after the last one it goes on with the wave that ran when its partition was pre-empted
(spec/11 R358). -/
def State.resumeCore (s : State) (c : Nat) : State :=
  match s.restorer c with
  | some v => s.modCore c fun k => { k with running := some v }
  | none => s.modCore c fun k => { k with running := s.keptWave c, kept := none }

/-- The wave leaves its handler. -/
def State.returned (s : State) (w : Nat) : State :=
  let r := s.returnPos w
  ((r.1.modWave w fun x => x.resumeAt r.2.1 r.2.2).thaw (s.wave w).id.group)

/-- The core chooses its wave anew without a switch: rotation stands where it stood (spec/11 R358). -/
def State.rechoose (s : State) (c : Nat) : State := s.modCore c fun k => { k with running := none }

/-- `rte`. A wave that waited when it was interrupted goes on waiting (spec/11 R358). -/
def execRte (s : State) : Out :=
  match s.running with
  | none => .next s
  | some w =>
    let x := s.wave w
    if !x.tr.hm then .next (s.trapped w { code := 0x04#6 })
    else if !x.mayReturn then .next (s.secondError w 0x01#6).tick
    else if x.saving then .next ((s.retire w x).stallWave w .park)
    else
      let t := (s.returned w).retire w x
      .next (if x.restoring then t.resumeCore x.id.core
        else if (t.wave w).sch.waiting.isSome then t.rechoose (t.wave w).id.core else t)

/-- SINGLE_STEP (spec/11 R350): the trap that is due after the instruction that issued; it shows that instruction's word. -/
def execSingleStep (wv : Nat) (s : State) : Out :=
  match (s.wave wv).tr.stepDue with
  | none => .next s
  | some word =>
    event s ((s.wave wv).resident && !(s.wave wv).tr.hm && (s.wave wv).sch.stall != some .park) fun s =>
      (s.modWave wv fun x => { x with word := word, tr.stepDue := none }).take wv { code := 0x1C#6 }


/-! Events (spec/11 R354) -/

/-- An event enters its handler; with none, `unhandled` is what happens. -/
def State.takeEvent (s : State) (w : Nat) (t : TrapReq) (phase : Bool) (unhandled : State) : State :=
  let s := s.settleDying w
  let r := (s.wave w).trapRec t true
  if !(s.wave w).resident || (s.wave w).sch.stall == some .drain then s
  else match s.handler w t.code with
  | none => s.secondErrorOf w 0x10#6 r
  | some (s, h) =>
    if h == 0 then unhandled
    else match s.unitRead w h.toNat .fetch with
      | none => s.secondErrorOf w 0x10#6 r
      | some (s, word) =>
        if h.toNat % 8 != 0 || (Header.ofWord word).isNone then s.secondErrorOf w 0x03#6 r
        else s.enterHandler w t true phase h

/-- A pending event can be delivered: outside handler mode, and not to a wave that parks. -/
def Wave.deliverable (x : Wave) : Bool :=
  !x.tr.hm && x.sch.stall != some .park && (x.tr.pend20.isSome || x.tr.pend21.isSome || x.tr.pend22.isSome)

/-- The pending events of a wave are delivered in the order 0x20, 0x21, 0x22. At a 0x20 without a handler the wave parks, the event taken
in place of a trap 0x1C that was due or to come (spec/11 R350, R357). -/
def State.deliver (s : State) (w : Nat) : State :=
  let x := s.wave w
  match x.tr.pend20, x.tr.pend21, x.tr.pend22 with
  | some q, _, _ =>
    let s := s.modWave w fun y => { y with tr.pend20 := none }
    s.takeEvent w { code := 0x20#6, addr := q.2 } q.1 ((s.modWave w fun y => { y with tr.stepDue := none, tr.armed := false }).stallWave w .park)
  | none, some m, _ =>
    let s := s.modWave w fun y => { y with tr.pend21 := none }
    s.takeEvent w { code := 0x21#6, lanes := some m } false s
  | none, none, some v =>
    let s := s.modWave w fun y => { y with tr.pend22 := none }
    s.takeEvent w { code := 0x22#6, addr := v } false s
  | none, none, none => s

/-- EVENT_DELIVERY. -/
def execEventDelivery (wv : Nat) (s : State) : Out :=
  event s (decide (wv < s.waves.length) && (s.wave wv).resident && (s.wave wv).deliverable) fun s => s.deliver wv

/-- DEBUG_BREAK (spec/11 R344): a requester's value waits in the slot; a full slot keeps what it holds. -/
def execDebugBreak (wv : Nat) (v : BitVec 64) (s : State) : Out :=
  event s (decide (wv < s.waves.length) && !(s.wave wv).sch.ended && !(s.wave wv).sch.halted) fun s =>
    s.modWave wv fun x => { x with tr.pend22 := x.tr.pend22.or (some v) }

/-! Pre-emption (spec/11 R355 to R360) -/

/-- Stage 1: engines and matrix queues stand still, and event 0x20 comes to every wave. -/
def State.requestSave (s : State) (p : Nat) : State :=
  let s := s.modPart p fun x => { x with run := .preempting }
  { s with
    cores := s.cores.map fun k =>
      if k.part == p then { k with kept := k.kept.or k.running, mx := { k.mx with frozen := k.mx.owner.isSome } } else k,
    waves := (s.waves.zipIdx).map fun q =>
      if q.1.id.part == p && !q.1.sch.ended && !q.1.sch.halted then { q.1 with tr.pend20 := some (false, s.saveSlot q.2) } else q.1 }

/-- Restore is requested. -/
def State.requestRestore (s : State) (p : Nat) : State := s.modPart p fun x => { x with run := .restoring }

/-- A partition that can be pre-empted: it runs, and its dies' shadow arrays are empty. -/
def State.canSave (s : State) (p : Nat) : Bool := s.alive p && (s.part p).run == .running && (s.part p).image != .shadow

/-- A partition that can be restored: its image is in the shadow arrays. -/
def State.canRestore (s : State) (p : Nat) : Bool := s.alive p && (s.part p).run == .saved && (s.part p).image == .shadow

/-- PARK (spec/11 R357): the LD and ST counters are zero and the store queue has drained. -/
def execPark (wv : Nat) (s : State) : Out :=
  let x := s.wave wv
  event s (decide (wv < s.waves.length) && x.resident && x.sch.stall == some .park && x.outstanding .ld == 0 &&
      x.outstanding .st == 0 && !s.onItsWay wv) fun s =>
    s.modWave wv fun y => { y with sch.parked := true, sch.stall := none }

/-- Every wave of a partition has parked, ended or halted. -/
def State.allParked (s : State) (p : Nat) : Bool :=
  s.waves.all fun x => x.id.part != p || x.sch.ended || x.sch.halted || x.sch.parked

/-- Heap commands of a partition that have not been applied. -/
def State.heapBusy (s : State) (p : Nat) : Bool := s.dies.any fun d => d.heapQ.any fun c => (s.wave c.wave).id.part == p

/-- Matrix commands of handlers that have still to run (spec/09 R315). -/
def State.handlerBusy (s : State) (p : Nat) : Bool := s.cores.any fun k => k.part == p && !k.mx.handlerQ.isEmpty

/-- PARTITION_SAVE (spec/11 R357): the image is in the shadow arrays; a B block in the engine is read again (spec/09 R315), and
every heap command (spec/08 R287) and every matrix command of a handler has completed. Tiles and scale memory, which hardware does
not move, hold after a restore what they held before, until the handler loads them (DESIGN CHOICE: log entry 56). -/
def execPartitionSave (p : Nat) (s : State) : Out :=
  event s (s.alive p && (s.part p).run == .preempting && s.allParked p && !s.heapBusy p && !s.handlerBusy p) fun s =>
    let s := (s.modPart p fun x => { x with run := .saved, image := .shadow }).endMove p 0
    { s with cores := s.cores.map fun k =>
        if k.part == p then
          { k with mx := { k.mx with streams := k.mx.streams.map fun t => { t with q := t.q.map fun c => { c with block := none } } },
                   l1 := [] }
        else k }

/-- A parked wave resumes: at its restore handler, or, parked without one, where it stood, its header fetched again (spec/11
R358, spec/02 R55). -/
def State.unpark (s : State) (w : Nat) : State :=
  let slots := (s.core (s.wave w).id.core).slots
  let s := s.modWave w fun x => { x with sch.parked := false, sch.wd := 0, sch.readyAt := slots }
  if !(s.wave w).saving then
    s.modWave w fun x => { x with sch.started := false, sch.resume := x.sch.resume || x.sch.started }
  else match s.handler w 0x20#6 with
    | none => s.secondError w 0x10#6
    | some (s, h) =>
      if h == 0 then s.secondError w 0x20#6
      else match s.unitRead w h.toNat .fetch with
        | none => s.secondError w 0x10#6
        | some (s, word) =>
          if h.toNat % 8 != 0 || (Header.ofWord word).isNone then s.secondError w 0x03#6
          else s.modWave w fun x =>
            ({ x with tr.cause := x.tr.cause ||| 0x2000#64, lc.xprog := 0 } : Wave).enterAt h

/-- A rerunnable group migrates: it runs again, on another core where it fits (spec/11 R360, spec/15 R454). -/
def State.migrateGroup (s : State) (p g : Nat) : State :=
  let x := s.group g
  if x.ended || !s.staged g || (s.launch x.launch).part != p || x.copy == .twin then s
  else
    let s := s.abortGroup g
    if (s.group g).ended then s else (s.moveAway g).moveTwin g

/-- Scratchpad of `n` bytes whose contents are free. -/
def freeScratch (stamp n : Nat) : Memory :=
  (List.range n).filterMap fun i =>
    let b : Byte := BitVec.ofNat 8 (Config.choice stamp 66 i)
    if b == 0 then none else some (i, b)

/-- A group of which a wave parked without a 0x20 handler comes back with unpredictable scratchpad (spec/11 R357). -/
def State.blurScratch (s : State) (p : Nat) : State :=
  { s with groups := s.groups.map fun (g : Group) =>
      if (s.launch g.launch).part == p && !g.ended && g.waves.any (fun w => (s.wave w).sch.parked && !(s.wave w).saving) then
        { g with sp := freeScratch s.fresh g.spb }
      else g }

/-- PARTITION_RESTORE (spec/11 R358, R360): every core first runs the restore handlers of its waves. -/
def execPartitionRestore (p : Nat) (migrate : List Nat) (s : State) : Out :=
  event s (s.alive p && (s.part p).run == .restoring && (s.part p).image == .shadow) fun s =>
    let s := ((s.modPart p fun x => { x with run := .running, image := .none }).endMove p 0).blurScratch p
    let s := { s with cores := s.cores.map fun (k : Core) =>
      if k.part == p then { k with running := k.kept, kept := none } else k }
    let s := migrate.foldl (fun s g => s.migrateGroup p g) s
    let s := (List.range s.waves.length).foldl (fun s w =>
      if (s.wave w).id.part == p && (s.wave w).sch.parked then s.unpark w else s) s
    let s := { s with cores := (s.cores.zipIdx).map fun (q : Core × Nat) =>
      match (if q.1.part == p then s.restorer q.2 else none) with
      | some v => { q.1 with kept := q.1.running, running := some v }
      | none => q.1 }
    (List.range s.groups.length).foldl (fun s g =>
      if (s.launch (s.group g).launch).part == p && !(s.group g).ended then s.thaw g else s) s

/-! Context registers (spec/11 R361) -/

/-- PSTAT's code of a partition. -/
def RunState.code : RunState → Nat
  | .running => 0
  | .preempting => 1
  | .saved => 2
  | .restoring => 3

/-- A context register. -/
def State.ctxReg (s : State) (w n : Nat) : Word :=
  let id := (s.wave w).id
  let c := s.waveCtx w
  match n with
  | 0 => BitVec.ofNat 64 id.ctx
  | 1 => c.tbase
  | 2 => c.wdlim.zeroExtend 64
  | 3 => c.savea
  | 4 => BitVec.ofNat 64 id.part
  | _ => BitVec.ofNat 64 (((s.parts.zipIdx).map fun q => q.1.run.code * 4 ^ q.2).sum)

/-- `csrd`. -/
def execCsrd (d b : Opnd) (s : State) : Out :=
  issue s fun w => do
    demandPriv s w
    checkOps s w [(d, .onlyS), (b, .si)]
    let n ← uni1 s w b
    demand (decide (n.toNat < 6)) 0x02#6 (opndAddr b)
    forwarded s w (fun s w => .ok (s, { val := s.ctxReg w n.toNat, pred := false, trap := none })) fun s w f => s.putScalar w d f.val

/-- A value that a context register accepts. -/
def ctxRegOk (n : Nat) (v : Word) : Bool :=
  match n with
  | 1 => v.toNat % 512 == 0
  | 2 => decide (v.toNat < 2 ^ 32)
  | _ => v.toNat % 4096 == 0 && decide (v.toNat < 2 ^ 57)

/-- A context register written. -/
def Context.setReg (c : Context) (n : Nat) (v : Word) : Context :=
  match n with
  | 1 => { c with tbase := v }
  | 2 => { c with wdlim := v.extractLsb' 0 32 }
  | _ => { c with savea := v }

/-- `cswr`. -/
def execCswr (a b : Opnd) (s : State) : Out :=
  issue s fun w => do
    demandPriv s w
    checkOps s w [(a, .count), (b, .si)]
    let q ← uni2 s w a b
    demand (decide (1 ≤ q.2.toNat) && decide (q.2.toNat ≤ 3)) 0x02#6 (opndAddr b)
    demand (ctxRegOk q.2.toNat q.1) 0x02#6 (opndAddr a)
    let id := (s.wave w).id
    pure (s.modCtx id.part id.ctx fun c => c.setReg q.2.toNat q.1)

/-! `prmt` (spec/11 R362) -/

/-- The decode checks of `prmt`. -/
def prmtCheck (d a : Opnd) (s : State) (w : Nat) : Eff Unit := do
  demandPriv s w
  checkOps s w [(d, .onlyS), (a, .onlyS)]

/-- The `n`-th request on a partition has ended: with 0 when it was carried out, with 2 when the partition has stopped meanwhile. -/
def State.prmtResult (s : State) (p n : Nat) : Option Word := (s.part p).moved[n]?

/-- `prmt` is carried out: refused with its status, or requested, whereupon the wave stalls until it is finished. -/
def prmtAct (save : Bool) (d a : Opnd) (s : State) (w : Nat) : Eff State := do
  prmtCheck d a s w
  let x := s.wave w
  let v := readS s w 1 (regOf a)
  demand (decide (v.toNat < 4) && decide (v.toNat < s.parts.length)) 0x02#6 (opndAddr a)
  let p := v.toNat
  if p == x.id.part then s.putScalar w d 1
  else if !(if save then s.canSave p else s.canRestore p) then s.putScalar w d 2
  else
    let n := (s.part p).moved.length
    let s := if save then s.requestSave p else s.requestRestore p
    .error (.stall .prmt (s.modWave w fun y => { y with sch.prmt := some (x.pos, p, n) }))

/-- A `prmt` whose request stands: it ends with the request, and a twin copy receives the primary's result. -/
def prmtAwait (d : Opnd) (p n : Nat) (s : State) (w : Nat) : Eff State := do
  let clear := fun (s : State) (w : Nat) => s.modWave w fun y => { y with sch.prmt := none }
  if (s.waveGroup w).copy == .twin then
    match (s.wave w).fwd with
    | [] => .error (.stall (.twin false) s)
    | f :: rest => (clear (s.modWave w fun x => { x with fwd := rest }) w).putScalar w d f.val
  else match s.prmtResult p n with
    | none => .error (.stall .prmt s)
    | some v =>
      let s := match s.twinOf w with
        | some t => s.modWave t fun x => { x with fwd := x.fwd ++ [{ val := v, pred := false, trap := none }] }
        | none => s
      (clear s w).putScalar w d v

/-- `prmt` issues: a forcing instruction until its request stands. -/
def prmtIssue (save : Bool) (d a : Opnd) (s : State) : Out :=
  issue s fun w => do
    prmtCheck d a s w
    match (s.wave w).sch.prmt with
    | some (pos, p, n) => if pos == (s.wave w).pos then prmtAwait d p n s w else forced s w (prmtAct save d a)
    | none => forced s w (prmtAct save d a)

/-- `prmt.save`. -/
def execPrmtSave (d a : Opnd) (s : State) : Out := prmtIssue true d a s

/-- `prmt.restore`. -/
def execPrmtRestore (d a : Opnd) (s : State) : Out := prmtIssue false d a s

/-! `wkill` (spec/11 R363) -/

/-- The resident wave that a global identifier names in a partition. -/
def State.waveOfId (s : State) (p : Nat) (v : Word) : Option Nat :=
  (List.range s.waves.length).find? fun w =>
    let x := s.wave w
    x.id.part == p && !x.sch.ended && !x.sch.halted && (s.group x.id.group).copy != .twin &&
      (s.core x.id.core).logical == bitsOf v.toNat 14 5 && x.id.slot == bitsOf v.toNat 4 0

/-- The decode checks of `wkill`. -/
def wkillCheck (a : Opnd) (s : State) (w : Nat) : Eff Unit := do
  demandPriv s w
  checkOps s w [(a, .onlyS)]

/-- `wkill` is carried out; an operand with bits above the 21 of an identifier raises 0x02 (DESIGN CHOICE: log entry 47). Where
the issuing wave's own group is aborted, the wave does not go on. -/
def wkillAct (a : Opnd) (s : State) (w : Nat) : Eff State := do
  wkillCheck a s w
  let v := readS s w 1 (regOf a)
  demand (decide (v.toNat < 2 ^ 21) && bitsOf v.toNat 20 15 == s.ctl.podRank.toNat) 0x02#6 (opndAddr a)
  let id := (s.wave w).id
  match s.waveOfId id.part v with
  | none => pure s
  | some t =>
    let g := (s.wave t).id.group
    let s' := (s.addError id.part 2 0 v.toNat 0 0 0 0).abortGroup g
    if g == id.group || (s.group g).sibling == some id.group then .error (.done s'.tick) else pure s'

/-- `wkill`. -/
def execWkill (a : Opnd) (s : State) : Out :=
  issue s fun w => do
    wkillCheck a s w
    forced s w (wkillAct a)

end Sys2Proof.Machine
end

