-- ==== Sys2Proof/Machine/Fatal.lean ====
section
/-! DEFINITION. A partition that is declared fatal, and its dump (spec/11 R364 to R366, spec/16 R470). -/

namespace Sys2Proof.Machine

/-- The lowest byte of each of `n` little-endian words. -/
def maskBytes (m : Mask) : List Byte := leBytes 128 m.toNat

/-- A wave's record of 1024 bytes (spec/11 R365). -/
def State.waveDump (s : State) (w : Nat) : List Byte :=
  let x := s.wave w
  let b := fun (c : Bool) (k : Nat) => if c then 2 ^ k else 0
  let flags := 1 + b x.tr.hm 1 + b x.sch.halted 2 + b x.sch.parked 3 + 2 ^ 8 * x.outstanding .ld + 2 ^ 14 * x.outstanding .st +
    2 ^ 20 * x.outstanding .cp + 2 ^ 26 * x.outstanding .tl
  leBytes 4 x.id.waveid.toNat ++ leBytes 4 x.id.grpid.toNat ++ leBytes 8 flags ++ leBytes 8 x.hdr.toNat ++ leBytes 8 x.pos.idx ++
  ((List.range 8).flatMap fun i => leBytes 8 (s.readSpecial w (16 + i)).toNat) ++ maskBytes x.exec ++ maskBytes x.lc.dead ++
  (x.s.flatMap fun r => leBytes 8 r.toNat) ++ (x.hb.flatMap fun r => leBytes 8 r.toNat) ++ leBytes 96 0

/-- A core state: the physical core, the logical-core field, and the listed cores that make it up. -/
structure CoreState where
  phys : Nat
  logical : Nat
  cores : List Nat

/-- The listed cores of a physical core of a partition. -/
def State.coresAt (s : State) (p phys : Nat) : List Nat :=
  (List.range s.cores.length).filter fun c => (s.core c).part == p && (s.core c).phys == phys

/-- A listed core holds a group of a deterministic launch. -/
def State.holdsDet (s : State) (c : Nat) : Bool :=
  s.groups.any fun g => !g.ended && g.core == c && (s.launch g.launch).r.det

/-- The core states of a partition, in ascending physical core: one per physical core, or one per logical core that a core
with deterministic groups carries. -/
def State.coreStates (s : State) (p : Nat) : List CoreState :=
  let q := s.part p
  (List.range q.coreCount).flatMap fun i =>
    let phys := q.physOf i
    let here := s.coresAt p phys
    if !(here.any s.holdsDet) then [{ phys := phys, logical := 0xFFFF, cores := here }]
    else
      let own := (List.range 768).filter fun l => q.carrier l false == phys
      (own.map fun l => { phys := phys, logical := l, cores := here.filter fun c => !(s.core c).twin && (s.core c).logical == l }) ++
      ((here.filter fun c => (s.core c).twin).map fun c => { phys := phys, logical := (s.core c).logical, cores := [c] })

/-- BOX of the running command of a stream engine of a physical core. -/
def State.sprogAt (s : State) (p phys : Nat) (se : Bool) : Nat :=
  match (s.coresAt p phys).findSome? fun c => ((s.core c).queue se).head? with
  | some x => x.box
  | none => 0

/-- NPROG of the running command of a quad. -/
def State.nprogAt (s : State) (p phys : Nat) : Nat :=
  match s.quads.findSome? fun u => match u.slots with
      | x :: _ => if (s.launch (s.group x.group).launch).part == p && (s.core (s.group x.group).core).phys / 4 == phys / 4 then some x else none
      | [] => none with
  | some x => x.stage + 2 ^ 5 * x.res + 2 ^ 11 * x.batch
  | none => 0

/-- A core record of 33,024 bytes. A wave that halted in place is shown until its slot has a new wave. -/
def State.coreDump (s : State) (p : Nat) (k : CoreState) : List Byte :=
  let ws := (List.range s.waves.length).filter fun w => !(s.wave w).sch.ended && k.cores.contains (s.wave w).id.core
  let mx := match k.cores.find? fun c => (s.core c).mx.owner.isSome with
    | some c => (s.core c).mx
    | none => default
  let slots := (ws.map fun w => (s.wave w).id.slot).eraseDups
  leBytes 2 k.phys ++ leBytes 2 k.logical ++ leBytes 4 ((slots.map (2 ^ ·)).sum) ++ leBytes 8 mx.mprog.toNat ++
  ((List.range 4).flatMap fun n => leBytes 8 (mx.stream n).word.toNat) ++ leBytes 8 (s.sprogAt p k.phys false) ++
  leBytes 8 (s.sprogAt p k.phys true) ++ leBytes 8 (if k.phys % 4 == 0 then s.nprogAt p k.phys else 0) ++ leBytes 184 0 ++
  ((List.range 32).flatMap fun i =>
    let here := ws.filter fun w => (s.wave w).id.slot == i
    match (here.find? fun w => !(s.group (s.wave w).id.group).ended).or here.getLast? with
    | some w => s.waveDump w
    | none => leBytes 1024 0)

/-- A signed quantity in 8 bytes. -/
def intBytes (x : Int) : List Byte := leBytes 8 (wrapTo 64 x)

/-- The bellows record of 64 bytes (spec/16 R470). -/
def State.bellowsDump (s : State) (p : Nat) : List Byte :=
  let x := s.part p
  intBytes x.bellowsB ++ leBytes 8 x.cap ++ leBytes 8 x.rate ++ leBytes 8 (s.commitment p) ++ leBytes 8 x.drained ++
  leBytes 8 x.updated ++ leBytes 16 0

/-- The dies of a partition as a mask. -/
def Partition.dieMask (p : Partition) : Nat := (p.dies.map fun d => 2 ^ d).sum

/-- The device's public-key hash, and a signature made with its key. -/
def keyHash : List Byte := (List.range 48).map Config.keyHashByte
def signatureOf (n : Nat) (bs : List Byte) : List Byte := (List.range 96).map (Config.signatureByte n bs)

/-- The dump of a partition (spec/11 R365, R366). -/
def State.dump (s : State) (p : Nat) (cause : BitVec 32) : List Byte :=
  let x := s.part p
  let ks := s.coreStates p
  let total := 256 + 33024 * ks.length + 64 * x.errs.length + 64 + 96
  let body := leBytes 4 0x5A86DF00 ++ leBytes 2 1 ++ leBytes 1 p ++ leBytes 1 x.dieMask ++ leBytes 8 total ++ leBytes 4 cause.toNat ++
    leBytes 4 ks.length ++ leBytes 4 x.errs.length ++ leBytes 4 0 ++ leBytes 8 s.ctl.osc ++ keyHash ++ leBytes 168 0 ++
    ks.flatMap (s.coreDump p) ++ x.errs.flatten ++ s.bellowsDump p
  body ++ signatureOf s.fresh body

/-- The controller declares a partition fatal: it stops, its memory is kept, the dump is written and signalled (spec/11 R364,
spec/16 R465). -/
def State.declareFatal (s : State) (p : Nat) (cause : BitVec 32) : State :=
  if !s.alive p then s
  else
    let s := s.writeMem (placed (s.ownWindow + (s.part p).dump) (s.dump p cause))
    let s := if (s.part p).run == .preempting || (s.part p).run == .restoring then s.endMove p 2 else s
    let s := (s.modPart p fun x => { x with fatal := some cause }).raiseVector (4 + p)
    { s with waves := s.waves.map fun x => if x.id.part == p then { x with sch.halted := true } else x }

/-- PREEMPTION_TIMEOUT (spec/11 R364): stage 2 has not ended within a second. -/
def execPreemptionTimeout (p : Nat) (s : State) : Out :=
  event s (s.alive p && (s.part p).run == .preempting) fun s => s.declareFatal p 2

/-- FATAL_HOST_REQUEST (spec/11 R364). -/
def execFatalHostRequest (p : Nat) (s : State) : Out := event s (s.alive p) fun s => s.declareFatal p 3

/-- CONTROLLER_INTERNAL_ERROR (spec/11 R364). -/
def execControllerInternalError (p : Nat) (s : State) : Out := event s (s.alive p) fun s => s.declareFatal p 4

end Sys2Proof.Machine
end

