-- ==== Sys2Proof/Machine/Heap.lean ====
section
/-! DEFINITION. The heap engine: arenas, `halloc`, `hfree`, `hstat`, and the command that an engine applies (spec/08 R277 to
R291). -/

namespace Sys2Proof.Machine

/-! Arenas (spec/08 R278, R279, R286) -/

/-- The size class of a request. -/
def heapClass (n : Nat) : Nat := log2Ceil n - 6

/-- Bytes of a block of a class. -/
def blockBytes (c : Nat) : Nat := 64 * 2 ^ c

/-- Bytes in a list of blocks. -/
def blocksBytes (l : List (Nat × Nat)) : Nat := l.foldl (fun acc b => acc + blockBytes b.1) 0

/-- The live block that starts at an address. -/
def Arena.liveAt (r : Arena) (a : Nat) : Option (Nat × Nat) := r.live.find? fun b => b.2 == a

/-- A block is allocated: its address, and the arena after it. -/
def Arena.alloc (r : Arena) (n : Nat) : Option (Nat × Arena) :=
  let c := heapClass n
  (blockAlloc 64 r.free c).map fun q => (q.1, { r with free := q.2, live := (c, q.1) :: r.live })

/-- A live block is freed. -/
def Arena.release (r : Arena) (b : Nat × Nat) : Arena :=
  { r with live := r.live.erase b, free := blockFree 64 r.base 18 19 b.1 b.2 r.free }

/-- A figure of `hstat`. -/
def Arena.figure (r : Option Arena) (k : Nat) : Word :=
  match r with
  | none => 0
  | some r =>
    match k with
    | 0 => BitVec.ofNat 64 (blocksBytes r.free)
    | 1 => BitVec.ofNat 64 (blocksBytes r.live)
    | 2 => BitVec.ofNat 64 (r.free.foldl (fun acc b => max acc (blockBytes b.1)) 0)
    | 3 => r.failures
    | _ => BitVec.ofNat 64 r.size

/-! Issue (spec/08 R281, R282, R290) -/

/-- The die whose heap engine serves a wave's context. -/
def State.heapDie (s : State) (w : Nat) : Nat :=
  match (s.waveCtx w).arena with
  | some r => r.die
  | none => s.waveDie w

/-- A command takes an entry of the allocation log. -/
def HOp.logged : HOp → Bool
  | .alloc .. => true
  | .free a => a != 0
  | .stat _ => false

/-- Entries of a group's allocation log in use: outcomes, and commands on their way. -/
def State.heapEntries (s : State) (g : Nat) : Nat :=
  (s.group g).heapLog.length + ((s.dies.flatMap fun d => d.heapQ).filter fun c => c.group == g && c.op.logged).length

/-- The kind and operands of a command, by which the copies of a checked group are compared. -/
def HOp.what : HOp → Word
  | .alloc n z t _ _ => crc64 (leBytes 1 (1 + (if z then 16 else 0) + (if t then 32 else 0)) ++ leBytes 8 n)
  | .free a => crc64 (leBytes 1 2 ++ leBytes 8 a)
  | .stat k => crc64 (leBytes 1 3 ++ leBytes 8 k)

/-- The registers that a command writes at its completion: Sd, and Pe in every lane of the mask, less the lanes dead by then. -/
def HOp.dests (op : HOp) (dest : Nat) (hb : Bool) (val : Word) (fail : Bool) : List Dest :=
  match op with
  | .alloc _ _ false m pe => [.s dest hb val, .p pe m (if fail then BitVec.allOnes 1024 else 0)]
  | .alloc .. | .stat _ => [.s dest hb val]
  | .free _ => []

/-- A result that the twin of a wave receives, in the order of the primary's instructions. -/
def State.tellTwin (s : State) (w : Nat) (f : Fwd) : State :=
  match s.twinOf w with
  | some t => let hm := (s.wave w).tr.hm; s.modWave t fun x => { x with fwd := x.fwd ++ [{ f with hm := hm }] }
  | none => s

/-- The reply to a command that the twin of a wave awaits. -/
def State.answerTwin (s : State) (w key : Nat) (f : Fwd) : State :=
  match s.twinOf w with
  | some t => s.modWave t fun x => { x with fwd := x.fwd.map fun y => if y.due == some key then { f with hm := y.hm } else y }
  | none => s

/-- A command is counted and goes to its engine; an `hfree` is a release after the wave's earlier accesses (spec/08 R288). The
spec names no number of commands at which Q11 is full for the heap: the queue has no limit and nothing waits for room (DESIGN CHOICE:
log entry 54). -/
def State.pushHeap (s : State) (w : Nat) (op : HOp) (dest : Nat) (hb : Bool) : State :=
  let x := s.wave w
  let cmd : HCmd :=
    { op := op, wave := w, group := x.id.group, key := x.num.key, num := x.num.heap, dest := dest, hb := hb, pos := x.pos }
  let d := s.heapDie w
  let s := match op with
    | .free _ => (s.performAll w).releaseInterval w
    | _ => s
  let s := s.modWave w fun y => { y.count .cp false [] with num.heap := y.num.heap + 1 }
  let s := s.tellTwin w { val := 0, pred := false, trap := none, what := op.what, due := some cmd.key }
  s.modDie d fun e => { e with heapQ := e.heapQ ++ [cmd] }

/-- The 257th entry of an allocation log raises 0x17, in both copies (spec/08 R290). -/
def demandHeapLog (s : State) (w : Nat) (op : HOp) : Eff Unit :=
  let g := (s.wave w).id.group
  if s.staged g && op.logged && decide (256 ≤ s.heapEntries g) then
    .error (.done ((s.tellTwin w { val := 0, pred := false, trap := some (0x17#6, 256), what := op.what }).trapped w
      { code := 0x17#6, addr := 256 }))
  else .ok ()

/-- The result that a twin's heap command takes from its primary: none while it waits, and a command unlike its own is a
mismatch. -/
def twinReply (s : State) (w : Nat) (what : Word) : Eff (Option (State × Fwd)) :=
  let x := s.wave w
  match x.toldOf true with
  | none => .ok none
  | some (f, rest) =>
    if f.what != what then .error (.done ((s.mismatch x.id.group ((s.group x.id.group).waves.idxOf w) false).moveTwin (((s.group x.id.group).sibling).getD x.id.group)).tick)
    else if f.due.isSome then .ok none
    else
      let s := s.modWave w fun y => { y with fwd := rest }
      match f.trap with
      | some (c, a) => .error (.done ((s.modWave w fun y => { y with sch.heapWait := none }).trapped w { code := c, addr := a }))
      | none => .ok (some (s, f))

/-- A twin copy sends no heap command: it waits for its primary's result, and its operation is complete with it. -/
def twinHeap (s : State) (w : Nat) (op : HOp) (dest : Nat) (hb : Bool) : Eff State := do
  match ← twinReply s w op.what with
  | none => .error (.stall (.twin (s.wave w).atListed) s)
  | some (s, f) => .ok (s.modWave w fun y =>
      { y.count .cp true (op.dests dest hb f.val f.pred) with num.heap := y.num.heap + 1 })

/-- A heap command at issue, its operands checked. -/
def heapSend (s : State) (w : Nat) (op : HOp) (dest : Nat) : Eff State := do
  let hb := (s.wave w).tr.hm && decide (56 ≤ dest)
  roomFor s w .cp
  if (s.waveGroup w).copy == .twin then twinHeap s w op dest hb
  else do
    demandHeapLog s w op
    demandSent s w
    pure (s.pushHeap w op dest hb)

/-- `halloc.t` has been sent, its sources read, and stalls until the reply: the address goes to Sd, a failure is a trap at the
instruction (spec/08 R283, R284). A twin waits for what its primary receives, and `heapWait` holds what it asks for
(spec/15 R451). -/
def heapAwait (s : State) (w k : Nat) (d : Opnd) : Eff State :=
  let took := fun (s : State) (a : Word) =>
    s.modWave w fun y => { y.setS (regOf d) a with sch.heapWait := none, sch.heapReply := none }
  if (s.waveGroup w).copy == .twin then do
    match ← twinReply s w (BitVec.ofNat 64 k) with
    | none => .error (.stall (.twin true) s)
    | some (s, f) => .ok (took (s.modWave w fun y => { y.count .cp true [] with num.heap := y.num.heap + 1 }) f.val)
  else match (s.wave w).sch.heapReply with
    | some (.ok a) => .ok (took s a)
    | some (.error e) =>
      .error (.done ((s.modWave w fun y => { y with sch.heapWait := none, sch.heapReply := none }).trapped w
        { code := e.1, addr := e.2 }))
    | none => .error (.stall .reply s)

/-- `halloc.t` is sent, and its wave stalls until the reply. -/
def heapCall (s : State) (w : Nat) (op : HOp) (d : Opnd) : Eff State := do
  let key := (s.wave w).num.key
  if (s.waveGroup w).copy == .twin then do
    roomFor s w .cp
    heapAwait (s.modWave w fun y => { y with sch.heapWait := some op.what.toNat, sch.heapReply := none }) w op.what.toNat d
  else do
    let s' ← heapSend s w op (regOf d)
    .error (.stall .reply (s'.modWave w fun y => { y with sch.heapWait := some key, sch.heapReply := none }))

/-- `halloc` (spec/08 R283, R284). A `halloc.t` that waits reads its source no more (R281). -/
def execHalloc (z t : Bool) (d a : Opnd) (pe : BitVec 3) (s : State) : Out :=
  issue s fun w => do
    match (if t then (s.wave w).sch.heapWait else none) with
    | some k => heapAwait s w k d
    | none => do
      checkOps s w [(d, .onlyS), (a, .count)]
      let n ← uni1 s w a
      demand (decide (1 ≤ n.toNat) && decide (n.toNat ≤ 2 ^ 24)) 0x02#6 (opndAddr a)
      let op : HOp := .alloc n.toNat z t (s.wave w).exec pe
      if t then heapCall s w op d else heapSend s w op (regOf d)

/-- `hfree` (spec/08 R285). -/
def execHfree (a : Opnd) (s : State) : Out :=
  issue s fun w => do
    checkOps s w [(a, .sv)]
    let v ← uni1 s w a
    demand (v == 0 || v.toNat % 64 == 0) 0x11#6 v
    demand (v == 0 || match (s.waveCtx w).arena with
      | some r => decide (r.base ≤ v.toNat) && decide (v.toNat < r.base + r.size)
      | none => false) 0x10#6 v
    heapSend s w (.free v.toNat) 0

/-- `hstat` (spec/08 R286). -/
def execHstat (d a : Opnd) (s : State) : Out :=
  issue s fun w => do
    checkOps s w [(d, .onlyS), (a, .count)]
    let k ← uni1 s w a
    demand (decide (k.toNat ≤ 4)) 0x02#6 (opndAddr a)
    heapSend s w (.stat k.toNat) (regOf d)

/-! The engine (spec/08 R280, R283 to R288) -/

/-- A range of physical memory becomes zero, and no longer lost. -/
def State.zeroMem (s : State) (pa n : Nat) : State :=
  { s with mem := s.mem.filter fun c => !(decide (pa ≤ c.1) && decide (c.1 < pa + n)),
           lost := s.lost.filter fun x => !(decide (pa / 32 ≤ x) && decide (x < (pa + n) / 32)) }

/-- How the zeroing of a block ends: done, waiting on a link, or stopped at an address by a fault or a link error. -/
inductive Zeroing where
  | done
  | hold
  | fault (va : Nat)
  | link (va : Nat)

/-- Zero `n` bytes from an address for a `halloc.z`, in pieces that no page boundary divides; `k` bounds their number. For
the race detector the pieces are engine writes of the wave, at `.pkg` as the acquire that the block returned is (spec/04 R176,
spec/08 R288; log entry 56). -/
def zeroBlock (w : Nat) (by_ : Origin) : Nat → State → Nat → Nat → State × Zeroing
  | 0, s, _, _ => (s, .done)
  | k + 1, s, va, n =>
    if n = 0 then (s, .done)
    else
      let x := s.wave w
      let m := min n (0x10000 - va % 0x10000)
      match s.resolve x.id.group (s.heapDie w) x.id.part x.id.ctx va m .store with
      | none => (s, .fault va)
      | some (s', .sp _) => (s', .fault va)
      | some (s', .mem pa) =>
        match s'.reach (s.heapDie w) pa with
        | .hold => (s, .hold)
        | .broken => (s, .link va)
        | .ok =>
          let s' := s'.raceEngine w { kind := .engineWrite, acq := false, rel := false, sc := .pkg } by_ [(va, m)]
          zeroBlock w by_ k (s'.zeroMem pa m) (va + m) (n - m)

/-- The operation of a command has completed in a wave: a `halloc.t` that waits finds the outcome; in a pre-empted partition the
count falls at once, in the saved state (spec/08 R287). -/
def Wave.heapDone (x : Wave) (c : HCmd) (held : Bool) (val : Word) (fail : Bool) (r : Except (BitVec 6 × Word) Word) : Wave :=
  let y := x.markReady c.key (match c.op with
    | .alloc _ _ true _ _ => []
    | op => op.dests c.dest c.hb val fail)
  let y := if y.sch.heapWait == some c.key then { y with sch.heapReply := some r }
    else { y with tr.heapSaved := y.tr.heapSaved.map fun q => if q.2.1 == c.key then (q.1, q.2.1, some r) else q }
  match (if held then y.mem.outst.find? fun p => p.key == c.key else none) with
  | some p => y.finish p
  | none => y

/-- The engine replies to a command: its operation completes with its registers, and the twin of the wave receives the outcome. A
block returned is an acquire at `.pkg` (spec/08 R288). -/
def State.heapReply (s : State) (c : HCmd) (val : Word) (fail : Bool) (trap : Option (BitVec 6 × Word)) : State :=
  let s := s.answerTwin c.wave c.key { val := val, pred := fail, trap := trap, what := c.op.what }
  let cores := (s.wave c.wave).id.core :: (s.twinOf c.wave).toList.map fun t => (s.wave t).id.core
  let s := match c.op with
    | .alloc .. => cores.foldl State.l1Clear s
    | _ => s
  let held := (s.part (s.wave c.wave).id.part).run != .running
  s.modWave c.wave fun x => x.heapDone c held val fail (match trap with
    | some t => .error t
    | none => .ok val)

/-- A request fails. -/
def State.heapFail (s : State) (c : HCmd) (t : Bool) (code : BitVec 6) (addr : Word) : State :=
  if t then s.heapReply c 0 true (some (code, addr)) else s.heapReply c 0 true none

/-- An allocation. -/
def State.applyAlloc (s : State) (c : HCmd) (n : Nat) (z t : Bool) : Option State :=
  let id := (s.wave c.wave).id
  let size := BitVec.ofNat 64 n
  let put := fun (s : State) (r : Arena) => s.modCtx id.part id.ctx fun x => { x with arena := some r }
  match (s.waveCtx c.wave).arena with
  | none => some (s.heapFail c t 0x0D#6 size)
  | some r =>
    match r.alloc n with
    | none => some ((put s { r with failures := r.failures + 1 }).heapFail c t 0x0D#6 size)
    | some (a, r') =>
      let took := fun (s : State) =>
        let s := put s r'
        let s := if s.staged c.group then s.modGroup c.group fun g => { g with heapLog := g.heapLog ++ [.alloc a] } else s
        s.heapReply c (BitVec.ofNat 64 a) false none
      if !z then some (took s)
      else match zeroBlock c.wave c.origin 300 s a (blockBytes (heapClass n)) with
        | (s', .done) => some (took s')
        | (_, .hold) => none
        | (s', .fault va) =>
          some ((if t then s' else s'.postShared c.wave true 1 0x20#8 c.num).heapFail c t 0x10#6 (BitVec.ofNat 64 va))
        | (s', .link va) =>
          some ((if t then s' else s'.postShared c.wave true 3 0x20#8 c.num).heapFail c t 0x10#6 (BitVec.ofNat 64 va))

/-- A free: deferred in a staged group; refused where no live block starts. -/
def State.applyFree (s : State) (c : HCmd) (a : Nat) : State :=
  let id := (s.wave c.wave).id
  let log := (s.group c.group).heapLog
  let deferred := log.any fun e => match e with
    | .free b => b == a
    | .alloc _ => false
  let done := fun (s : State) => s.heapReply c 0 false none
  if a == 0 then done s
  else match ((s.waveCtx c.wave).arena).bind fun r => (r.liveAt a).map fun b => (r, b) with
    | none => done (s.postShared c.wave true 2 0x20#8 c.num)
    | some (r, b) =>
      if deferred then done (s.postShared c.wave true 2 0x20#8 c.num)
      else if s.staged c.group then done (s.modGroup c.group fun g => { g with heapLog := g.heapLog ++ [.free a] })
      else done (s.modCtx id.part id.ctx fun x => { x with arena := some (r.release b) })

/-- A free waits for the ordered atomics that its wave issued before it (spec/08 R288, spec/01 R25). -/
def State.freeWaits (s : State) (c : HCmd) : Bool := s.heldBefore c.wave c.key

/-- HEAP_COMMAND_APPLY (spec/08 R280): the engine of die `d` applies its oldest command, in a pre-empted partition too (R287);
zeroing that a recovery hold covers waits. The commands of all arenas that a die serves stand in one queue, so a zeroing that a
recovery hold covers, or an `hfree` that waits, keeps back those of other arenas behind it; the spec fixes an order per arena only
(DESIGN CHOICE: log entry 56). -/
def execHeapCommandApply (d : Nat) (s : State) : Out :=
  match (s.die d).heapQ with
  | [] => .next s
  | c :: t =>
    if !s.alive (s.wave c.wave).id.part then .next s
    else
    let s1 := s.modDie d fun e => { e with heapQ := t }
    match c.op with
    | .alloc n z tr _ _ =>
      match s1.applyAlloc c n z tr with
      | some s2 => .next s2.tick
      | none => .next s.tick
    | .free a => if s.freeWaits c then .next s else .next (s1.applyFree c a).tick
    | .stat k => .next (s1.heapReply c (Arena.figure (s1.waveCtx c.wave).arena k) false none).tick

end Sys2Proof.Machine
end

