-- ==== Sys2Proof/Machine/Launches.lean ====
section
/-! DEFINITION. Launches: code objects, launch records and their acceptance, the reproducibility signature, host queues with
their completion records, activation of contexts, `launch`, `nrec`, `nflush`, and the drain of a launch (spec/01 R33, spec/11
R342, spec/12 R367 to R374, R385 to R391). -/

namespace Sys2Proof.Machine

/-! Reading memory for the task engine -/

/-- Bytes at a physical address that system software gave: none where nothing is mapped. -/
def State.physRead (s : State) (pa n : Nat) : Option (List Byte) :=
  if s.mapped pa && s.mapped (pa + n - 1) then some (s.mem.readN pa n) else none

/-- A little-endian value at a physical address, for an engine that cannot report a hole. -/
def physLe (s : State) (pa n : Nat) : Except Fault Nat :=
  match s.physRead pa n with
  | some bs => .ok (leValue bs)
  | none => .error (.physicalHole pa)

/-- Bytes written at a physical address. -/
def physWrite (s : State) (pa : Nat) (bs : List Byte) : Except Fault State :=
  if s.mapped pa && s.mapped (pa + bs.length - 1) then .ok (s.writeMem (placed pa bs)) else .error (.physicalHole pa)

/-- An outcome of a step that may reach a hole. -/
def reached (r : Except Fault State) : Out :=
  match r with
  | .ok s => .next s.tick
  | .error f => .fault f

/-- `n` bytes of a context's virtual memory, in pieces that no page boundary divides; none for a fault or lost data. The fuel
bounds the number of pieces. -/
def State.virtRead (d p c : Nat) : Nat → State → Nat → Nat → Option (State × List Byte)
  | 0, s, _, n => if n = 0 then some (s, []) else none
  | k + 1, s, va, n =>
    if n = 0 then some (s, [])
    else
      let m := min n (0x10000 - va % 0x10000)
      match s.resolve s.groups.length d p c va m .load with
      | some (s', .mem pa) =>
        if (List.range m).any fun i => s'.lostAt (pa + i) then none
        else match State.virtRead d p c k s' (va + m) (n - m) with
          | some (s'', bs) => some (s'', s'.mem.readN pa m ++ bs)
          | none => none
      | _ => none

/-- `n` bytes at a virtual address. -/
def State.virtBytes (s : State) (d p c va n : Nat) : Option (State × List Byte) := State.virtRead d p c (n / 0x10000 + 2) s va n

/-! Code objects (spec/12 R370, R385) -/

/-- What a launch needs of its code object, as far as it can be read: a descriptor that cannot be is none, and the digest is there
only where every byte can be read. -/
structure CodeObject where
  valid : Bool
  size : Nat
  kernels : List (Option Kernel)
  nodes : List (Option (List Byte))
  hash : Option (List Byte)

/-- A kernel descriptor. -/
def Kernel.ofBytes (bs : List Byte) : Kernel :=
  let f := fieldOf bs
  { entry := f 0 8, w := f 8 2, nvreg := f 10 1, wpg := f 11 1, spb := f 12 4, rings := f 16 1, matrix := f 17 1 % 2 == 1,
    node0 := f 18 2, nodes := f 20 2 }

/-- `k` descriptors of `n` bytes that stand one after the other; one that cannot be read is none. -/
def State.descriptors (s : State) (d p c va n k : Nat) : State × List (Option (List Byte)) :=
  (List.range k).foldl (fun acc i => match acc.1.virtBytes d p c (va + n * i) n with
    | some (s', bs) => (s', acc.2 ++ [some bs])
    | none => (acc.1, acc.2 ++ [none])) (s, [])

/-- The code object at a virtual address, none where its header cannot be read; one with a bad header is not read further. -/
def State.codeObject (s : State) (d p c va : Nat) : Option (State × CodeObject) := do
  let (s, h) ← s.virtBytes d p c va 64
  let f := fieldOf h
  if f 0 4 != 0x5A86C0DE || f 4 2 != 1 then
    pure (s, { valid := false, size := f 8 8, kernels := [], nodes := [], hash := some [] })
  else
    let (s, ks) := s.descriptors d p c (va + f 32 8) 64 (f 6 2)
    let (s, ns) := s.descriptors d p c (va + f 40 8) 32 (f 48 2)
    let all := s.virtBytes d p c va (f 8 8)
    let whole := (ks ++ ns).all Option.isSome
    pure ((all.map fun r => r.1).getD s,
      { valid := true, size := f 8 8, kernels := ks.map (fun k => k.map Kernel.ofBytes), nodes := ns,
        hash := if whole then all.map (fun r => sha384 r.2) else none })

/-- A node descriptor obeys R385, as far as its kernel's can be read. -/
def nodeOk (ks : List (Option Kernel)) (bs : List Byte) : Bool :=
  let f := fieldOf bs
  decide (f 0 2 < ks.length) && (ks.getD (f 0 2) none).all (fun k => k.nodes == 0) && f 2 2 == 0 && decide (4 ≤ f 4 2) && decide (f 4 2 ≤ 64) &&
  f 4 2 % 4 == 0 && decide (1 ≤ f 6 2) && decide (f 6 2 ≤ 1024) && decide (1 ≤ f 8 2) && decide (f 8 2 ≤ 256) &&
  decide (2 ≤ f 10 1) && decide (f 10 1 ≤ 64) && f 11 1 == 0 && f 16 16 == 0

/-- A node at the start of a launch, its bins empty. -/
def Node.ofBytes (base : Nat) (bs : List Byte) : Node :=
  let f := fieldOf bs
  { kidx := f 0 2, rsz := f 4 2, c := f 6 2, nbin := f 8 2, nbatch := f 10 1, tmo := f 12 4, base := base,
    bins := List.replicate (f 8 2) (List.replicate (f 10 1) { st := .free, fill := 0 }) }

/-- Bytes of bin memory that a node needs (spec/12 R386). -/
def Node.bytes (n : Node) : Nat := n.batchBytes * n.nbin * n.nbatch

/-- The nodes of a kernel, one after the other in bin memory. -/
def nodesFrom : Nat → List (List Byte) → List Node
  | _, [] => []
  | base, bs :: t => let n := Node.ofBytes base bs; n :: nodesFrom (base + n.bytes) t

/-! Launch records (spec/12 R371, R372) -/

/-- The record in 128 bytes. -/
def LaunchRec.ofBytes (bs : List Byte) : LaunchRec :=
  let f := fieldOf bs
  let w := fun o => BitVec.ofNat 64 (f o 8)
  { prio := f 1 1, ctx := f 2 1, chk := f 3 1 % 2 == 1, det := f 3 1 / 2 % 2 == 1, lpol := f 3 1 / 4 % 2 == 1,
    race := f 3 1 / 8 % 4, wide := f 3 1 / 32 % 4, ngrp := f 4 4, w := f 8 2, wpg := f 10 1, nvreg := f 11 1, spb := f 12 4,
    place := f 16 1, home := f 18 2, kidx := f 20 2, code := w 24, amr := w 32, est := f 40 8, argmask := w 48, argp := w 56,
    binbase := w 64, binsize := w 72, gtag := w 80, crec := w 88, cstamp := w 96 }

/-- Every field of the record is in its range (status 0x01). -/
def LaunchRec.inRange (r : LaunchRec) (bs : List Byte) (device : Bool) : Bool :=
  let f := fieldOf bs
  f 0 1 == 1 && decide (r.prio ≤ 3) && (device || decide (r.ctx < 64)) && decide (f 3 1 < 128) && r.race != 3 && r.wide != 3 &&
  decide (1 ≤ r.ngrp) && decide (r.ngrp ≤ 2 ^ 24) && r.w % 32 == 0 && decide (32 ≤ r.w) && decide (r.w ≤ 1024) &&
  decide (1 ≤ r.wpg) && decide (r.wpg ≤ 16) && r.nvreg % 8 == 0 && decide (16 ≤ r.nvreg) && decide (r.nvreg ≤ 64) &&
  r.spb % 64 == 0 && decide (r.place ≤ 2) && f 17 1 == 0 && (r.wide == 0 || (r.place == 2 && r.home == 0)) &&
  decide (r.kidx < 4096) && f 22 2 == 0 && r.code.toNat % 64 == 0 && amrOk r.amr && r.argmask.extractLsb' 56 8 == 0#8 &&
  r.argp.toNat % 8 == 0 && (r.argmask != 0 || r.argp == 0) && r.binbase.toNat % 64 == 0 &&
  (if device then r.crec.toNat % 64 == 0 && r.cstamp.toNat % 8 == 0 else r.crec == 0 && r.cstamp == 0) &&
  f 104 8 == 0 && f 112 8 == 0 && f 120 8 == 0

/-- A context that has the registration which a launch's race mode needs (spec/04 R173). -/
def Context.suits (c : Context) (race : Nat) : Bool := race == 0 || (c.raceL != 0 && (race != 2 || c.logr != 0))

/-- A descriptor value that a launch must meet: the same, or none given. -/
def agrees (descriptor value : Nat) : Bool := descriptor == 0 || descriptor == value

/-- The descriptor of a kernel, where it can be read. -/
def CodeObject.kernel (o : CodeObject) (k : Nat) : Option Kernel := o.kernels.getD k none

/-- The code object has the kernel, the kernel the launch's shape, and its nodes obey the rules (status 0x02), as far as they can
be read. -/
def CodeObject.suits (o : CodeObject) (r : LaunchRec) : Bool :=
  o.valid && decide (r.kidx < o.kernels.length) && (o.kernel r.kidx).all fun k =>
    agrees k.w r.w && agrees k.nvreg r.nvreg && agrees k.wpg r.wpg && agrees k.spb r.spb &&
    decide (k.node0 + k.nodes ≤ o.nodes.length) &&
    ((o.nodes.drop k.node0).take k.nodes).all fun n => n.all (nodeOk o.kernels)

/-- Units of a placement level, with which HOME is compared (spec/12 R375). -/
def homeUnits (r : LaunchRec) (p : Partition) : Nat :=
  let cores := if r.det then 768 else p.coreCount
  if r.place == 0 then cores else if r.place == 1 then cores / 4 else cores / 192

/-- Launches of a partition that are live. -/
def State.liveLaunches (s : State) (p : Nat) : Nat := (s.launches.filter fun x => x.part == p && !x.complete).length

/-- The 120-byte block and the launch's signature (spec/01 R33). -/
def LaunchRec.signature (r : LaunchRec) (hash : List Byte) : Word :=
  let bit := fun (b : Bool) => leBytes 1 (if b then 1 else 0)
  crc64 (hash ++ leBytes 8 r.amrAt.toNat ++ leBytes 8 0x768 ++ leBytes 4 r.ngrp ++ leBytes 2 r.w ++ leBytes 1 r.wpg ++
    leBytes 1 r.nvreg ++ leBytes 4 r.spb ++ leBytes 1 r.place ++ bit r.lpol ++ bit r.chk ++ bit r.det ++ leBytes 2 r.kidx ++
    leBytes 1 r.wide ++ leBytes 1 r.race ++ leBytes 2 r.home ++ leBytes 2 0 ++ leBytes 8 r.argmask.toNat ++
    leBytes 8 r.argp.toNat ++ leBytes 8 r.binbase.toNat ++ leBytes 8 r.binsize.toNat)

/-- The launch that an accepted record makes. -/
def acceptedLaunch (p : Nat) (r : LaunchRec) (o : CodeObject) (ident : BitVec 32) (who : Submitter) : Launch :=
  let k := (o.kernel r.kidx).getD default
  { Launch.empty with
    r := r, part := p, ident := ident, from_ := who, sig := r.signature (o.hash.getD []),
    kernels := o.kernels.map fun k => k.getD default, codeSize := o.size,
    nodes := nodesFrom r.binbase.toNat (((o.nodes.drop k.node0).take k.nodes).filterMap id), passOver := List.replicate 4 0,
    complete := false }

/-- The argument values of a record can be read. -/
def State.argsReadable (s : State) (p : Nat) (r : LaunchRec) : State × Bool :=
  (List.range 56).foldl (fun acc n =>
    if !acc.2 || !r.argmask.getLsbD n then acc
    else match acc.1.virtBytes ((s.part p).dies.headD 0) p r.ctx (r.argp.toNat + 8 * n) 8 with
      | some (s', _) => (s', true)
      | none => (acc.1, false)) (s, true)

/-- The first failing check of a launch whose code object stands as read (none where its header cannot be read): a check that what
can be read fails comes before the unreadable rest. `args` says that its arguments can be read. Zero when it is accepted. -/
def State.launchStatus (s : State) (p : Nat) (r : LaunchRec) (inRange : Bool) (o : Option CodeObject) (args : Bool) : Nat :=
  let c := s.ctx p r.ctx
  let x := acceptedLaunch p r (o.getD { valid := true, size := 0, kernels := [], nodes := [], hash := none }) 0 .device
  let kernel := fun (k : Nat) => o.bind fun o => o.kernel k
  let suits := o.all fun o => o.suits r
  let needs := x.need r.kidx :: (x.nodes.filter fun n => (kernel n.kidx).isSome).map fun n => x.need n.kidx
  if !inRange || !(c.suits r.race || !c.active) || ((kernel r.kidx).any (fun k => k.nodes == 0) && r.binbase != 0) then 1
  else if c.active && !suits then 2
  else if !c.active then 3
  else if !(needs.all fun n => n.possible (s.part p)) || homeUnits r (s.part p) ≤ r.home then 4
  else if r.binsize.toNat < (x.nodes.map Node.bytes).sum then 5
  else if (s.part p).cap < r.est then 6
  else if 1024 ≤ s.liveLaunches p then 7
  else if !(o.any fun o => o.hash.isSome) || !args then 8
  else 0

/-- A record is checked, and accepted where no check fails: the state, the launch status, the launch identifier (0 when refused)
and the signature. -/
def State.accept (s : State) (p : Nat) (bs : List Byte) (ctx : Option Nat) (who : Submitter) : State × Nat × BitVec 32 :=
  let r0 := LaunchRec.ofBytes bs
  let r := { r0 with ctx := ctx.getD r0.ctx }
  let d := (s.part p).dies.headD 0
  let inRange := r.inRange bs ctx.isSome
  let (s, o) := if inRange && (s.ctx p r.ctx).active then
      match s.codeObject d p r.ctx r.code.toNat with
      | some (s', o) => (s', some o)
      | none => (s, none)
    else (s, none)
  let (s, args) := if o.any fun o => o.hash.isSome then s.argsReadable p r else (s, false)
  match o, s.launchStatus p r inRange o args with
  | some o, 0 =>
    let n := (s.part p).launches + 1
    let s := s.modPart p fun x => { x with launches := n }
    ({ s with launches := s.launches ++ [acceptedLaunch p r o (BitVec.ofNat 32 n) who] }, 0, BitVec.ofNat 32 n)
  | _, st => (s, st, 0)

/-! Completion records (spec/12 R373) -/

/-- The 64 bytes of a record. -/
def completionRecord (sig : Word) (ident : BitVec 32) (status : Nat) (x : Launch) (who : Word) : List Byte :=
  leBytes 8 sig.toNat ++ leBytes 4 ident.toNat ++ leBytes 1 status ++ leBytes 3 0 ++ leBytes 8 x.r.gtag.toNat ++
  leBytes 4 x.done ++ leBytes 4 x.aborted ++ leBytes 4 x.nodeDone ++ leBytes 4 x.nodeAborted ++ leBytes 8 x.energy ++
  leBytes 8 who.toNat ++ leBytes 8 x.r.code.toNat

/-- The word that names a host submitter. -/
def Submitter.word : Submitter → Word
  | .host q e => BitVec.ofNat 64 (q * 2 ^ 56 + e.toNat % 2 ^ 56)
  | .device => 0

def Partition.queue (p : Partition) (q : Nat) : Option HostQ := p.queues.getD q none

def State.modHostQ (s : State) (p q : Nat) (f : HostQ → HostQ) : State :=
  s.modPart p fun x => { x with queues := modifyAt x.queues q fun y => y.map f }

/-- A record waits for its host queue's completion ring. -/
def State.postRecord (s : State) (p q : Nat) (bs : List Byte) : State := s.modHostQ p q fun x => { x with waiting := x.waiting ++ [bs] }

/-- COMPLETION_RECORD_WRITE (spec/12 R368): the oldest waiting record of a queue is written, then CPROD. -/
def execCompletionRecordWrite (p q : Nat) (s : State) : Out :=
  match s.alive p, (s.part p).queue q with
  | true, some h =>
    match h.waiting with
    | [] => .next s
    | bs :: t =>
      let room : Except Fault (Option (Nat × Nat)) := do
        let cbase ← physLe s (h.base + 16) 8
        let clog ← physLe s (h.base + 24) 1
        let cprod ← physLe s (h.base + 32) 8
        let ccons ← physLe s (h.base + 40) 8
        pure (if (cprod + 2 ^ 64 - ccons) % 2 ^ 64 < 2 ^ clog then some (cbase + 64 * (cprod % 2 ^ clog), cprod) else none)
      match room with
      | .error f => .fault f
      | .ok none => .next s
      | .ok (some (at_, cprod)) => reached do
          let s ← physWrite s at_ bs
          let s ← physWrite s (h.base + 32) (leBytes 8 (cprod + 1))
          pure ((s.modHostQ p q fun x => { x with waiting := t }).raiseVector (8 + 8 * p + q))
  | _, _ => .next s

/-! Host queues (spec/12 R367 to R369) -/

/-- After a doorbell the lead task engine reads PROD. -/
def doorbell (p q : Nat) (s : State) : Out :=
  match s.alive p, (s.part p).queue q with
  | true, some h => reached do
      let n ← physLe s h.base 8
      pure (s.modHostQ p q fun x => { x with prod := n })
  | _, _ => .next s

/-- HOST_QUEUE_DOORBELL (spec/12 R368). -/
def execHostQueueDoorbell (p q : Nat) (s : State) : Out := doorbell p q s

/-- Entries of a queue that wait. -/
def State.queued (s : State) (p q : Nat) : Bool :=
  match (s.part p).queue q with
  | some h => decide (s.mem.readLe (h.base + 8) 8 < h.prod)
  | none => false

/-- The queue that the lead task engine takes from next: round robin. -/
def State.queueTurn (s : State) (p : Nat) : Option Nat :=
  ((List.range 8).map fun i => ((s.part p).nextQ + i) % 8).find? fun q => s.queued p q

/-- A queue entry holds data marked lost: of an entry that activates or deactivates, in the sector that says so (spec/12 R372). -/
def State.entryLost (s : State) (pa : Nat) (bs : List Byte) : Bool :=
  s.lostAt pa || (fieldOf bs 0 1 != 2 && fieldOf bs 0 1 != 3 && (List.range 128).any fun i => s.lostAt (pa + i))

/-- Take an entry of a queue: `wants` says which kinds of entry the step takes; `act` gives the state, and, with a status, the
record that ends the entry at once. A lost entry is a launch without bytes. -/
def takeEntry (p q : Nat) (wants : Nat → Bool) (act : State → Nat → List Byte → State × Option Nat) (s : State) : Out :=
  match s.alive p && s.queueTurn p == some q, (s.part p).queue q with
  | true, some h =>
    let entry : Except Fault (Nat × List Byte) := do
      let cons ← physLe s (h.base + 8) 8
      let qlog ← physLe s (h.base + 25) 1
      let pa := h.base + 64 + 128 * (cons % 2 ^ qlog)
      match s.physRead pa 128 with
      | some bs => pure (cons, if s.entryLost pa bs then [] else bs)
      | none => .error (.physicalHole pa)
    match entry with
    | .error f => .fault f
    | .ok (cons, bs) =>
      if !wants (fieldOf bs 0 1) then .next s
      else
        let r := act s cons bs
        let s := r.1.modPart p fun x => { x with nextQ := (q + 1) % 8 }
        let who : Submitter := .host q (BitVec.ofNat 64 cons)
        let s := match r.2 with
          | none => s
          | some st => s.postRecord p q (completionRecord 0 0 st
              { Launch.empty with r := if fieldOf bs 0 1 == 1 then LaunchRec.ofBytes bs else default } who.word)
        reached (physWrite s (h.base + 8) (leBytes 8 (cons + 1)))
  | _, _ => .next s

/-- HOST_LAUNCH (spec/12 R369, R372): an entry of kind 0x01 is checked; one of an unknown kind fails with 0x01. -/
def execHostLaunch (p q : Nat) (s : State) : Out :=
  takeEntry p q (fun k => k != 2 && k != 3) (fun s cons bs =>
    if bs.isEmpty then (s, some 8)
    else
      let r := s.accept p bs none (.host q (BitVec.ofNat 64 cons))
      (r.1, if r.2.1 == 0 then none else some r.2.1)) s

/-! Activation (spec/12 R369, spec/11 R342) -/

/-- A range of bytes is zero. -/
def zeroRange (bs : List Byte) (off n : Nat) : Bool := (takeBytes bs off n).all fun b => b == 0

/-- A physical range lies outside every context's address space, that of the record included. -/
def outsideContexts (s : State) (bs : List Byte) (pa n : Nat) : Bool :=
  !s.contextMaps pa n && !s.tableMaps (fieldOf bs 32 8) pa n

/-- The race-detector field obeys R173. -/
def raceFieldOk (s : State) (bs : List Byte) : Bool :=
  let f := fieldOf bs
  let c0 := f 64 8
  let l := f 72 8
  let sh := f 80 8
  let logr := f 88 8
  if l == 0 then c0 == 0 && sh == 0 && logr == 0
  else c0 % 4096 == 0 && decide (c0 < 2 ^ 57) && l % 4096 == 0 && sh % 4096 == 0 && decide (s.ownWindow ≤ sh) &&
    decide (sh + l / 4 ≤ s.ownWindow + hbmPerDie * s.ctl.form.dies) && outsideContexts s bs sh (l / 4) && (logr == 0 || (decide (4 ≤ logr % 64) && decide (logr % 64 ≤ 20)))

/-- The arena descriptor obeys R277. An HDIE that is no die of the context's own partition breaks it too (DEDUCED: log entry 56). -/
def arenaFieldOk (s : State) (p : Nat) (bs : List Byte) : Bool :=
  let f := fieldOf bs
  let base := f 96 8
  let size := f 104 8
  let hmeta := f 112 8
  let die := f 120 1
  let mib16 := 2 ^ 24
  zeroRange bs 121 7 && decide (die < 4) && base % mib16 == 0 && decide (base < 2 ^ 57) &&
  (size == 0 || (decide (base + size ≤ 2 ^ 57) && size % mib16 == 0 && decide (size ≤ 2 ^ 40) && outsideContexts s bs hmeta (size / 32) &&
    (decide (base + size ≤ windowBase) || decide (windowBase + 0x100000 ≤ base)) && (s.part p).dies.contains die &&
    decide (s.ownWindow + hbmPerDie * die ≤ hmeta) && decide (hmeta + size / 32 ≤ s.ownWindow + hbmPerDie * (die + 1))))

/-- A context record obeys R342 and the rules that it cites. -/
def contextRecordOk (s : State) (p ctx : Nat) (bs : List Byte) : Bool :=
  let f := fieldOf bs
  f 0 4 == ctx && decide (ctx < 64) && decide (f 4 4 < 2) && f 8 8 % 512 == 0 && f 16 8 % 4096 == 0 && decide (f 16 8 < 2 ^ 57) && f 24 4 % 4096 == 0 &&
  f 32 8 % 0x20000 == 0 && zeroRange bs 40 24 && raceFieldOk s bs && arenaFieldOk s p bs && zeroRange bs 128 128

/-- An arena that is wholly free: blocks of 16 MiB. -/
def Arena.whole (base size hmeta die : Nat) : Arena :=
  { base := base, size := size, hmeta := hmeta, die := die, live := [], failures := 0,
    free := (List.range (size / 2 ^ 24)).map fun i => (18, base + 2 ^ 24 * i) }

/-- The context that a record describes, as activation leaves it. -/
def Context.ofBytes (bs : List Byte) : Context :=
  let f := fieldOf bs
  { active := true, priv := f 4 1 % 2 == 1, tbase := BitVec.ofNat 64 (f 8 8), savea := BitVec.ofNat 64 (f 16 8),
    slotsz := BitVec.ofNat 32 (f 24 4), wdlim := BitVec.ofNat 32 (f 28 4), ptroot := BitVec.ofNat 64 (f 32 8), raceC0 := f 64 8,
    raceL := f 72 8, shbase := f 80 8, logr := BitVec.ofNat 64 (f 88 8),
    arena := if f 104 8 == 0 then none else some (Arena.whole (f 96 8) (f 104 8) (f 112 8) (f 120 1)),
    mods := List.replicate 64 none }

/-- Activate a context from an entry: the state and the status. -/
def State.activateCtx (s : State) (p : Nat) (bs : List Byte) : State × Nat :=
  let ctx := fieldOf bs 2 1
  if bs.getD 1 0 != 0 || !zeroRange bs 3 5 || !zeroRange bs 16 112 || 64 ≤ ctx then (s, 1)
  else if (s.ctx p ctx).active then (s, 3)
  else match s.physRead (fieldOf bs 8 8) 256 with
    | none => (s, 8)
    | some r =>
      if !contextRecordOk s p ctx r then (s, 1)
      else (s.modCtx p ctx fun _ => Context.ofBytes r, 0)

/-- ACTIVATE (spec/12 R369). -/
def execActivate (p q : Nat) (s : State) : Out :=
  takeEntry p q (fun k => k == 2) (fun s _ bs => let r := s.activateCtx p bs; (r.1, some r.2)) s

/-- Deactivate a context: not while it has a live launch. -/
def State.deactivateCtx (s : State) (p : Nat) (bs : List Byte) : State × Nat :=
  let ctx := fieldOf bs 2 1
  if bs.getD 1 0 != 0 || !zeroRange bs 3 125 || 64 ≤ ctx then (s, 1)
  else if !(s.ctx p ctx).active || s.launches.any fun x => x.part == p && x.r.ctx == ctx && !x.complete then (s, 3)
  else (s.modCtx p ctx fun c => { c with active := false }, 0)

/-- DEACTIVATE (spec/12 R369). -/
def execDeactivate (p q : Nat) (s : State) : Out :=
  takeEntry p q (fun k => k == 3) (fun s _ bs => let r := s.deactivateCtx p bs; (r.1, some r.2)) s

/-! Device launches (spec/12 R374) -/

/-- How the read of a device launch's record ends. -/
inductive RecordRead where
  | got (s : State) (bs : List Byte)
  | hold
  | failed

/-- The 128-byte record, in two pieces that no page boundary divides. -/
def State.launchRead (s : State) (w : Nat) (o : Order) (sc : Scope) (va : Nat) : RecordRead :=
  let x := s.wave w
  let piece := fun (s : State) (a : Nat) => match s.resolve x.id.group (s.waveDie w) x.id.part x.id.ctx a 64 .load with
    | none => RecordRead.failed
    | some (s', l) =>
      let reach : Reach := match l with
        | .mem pa => s'.reach (s'.waveDie w) pa
        | .sp _ => Reach.ok
      if reach == Reach.hold then RecordRead.hold
      else if reach == Reach.broken || s'.lostPlace w l 64 then .failed
      else
        let s' := s'.l1Load w sc (Order.acquires o) (placeBytes [l] 64)
        .got s' (s'.waveRead w l 64)
  match piece s va with
  | .got s' a => match piece s' (va + 64) with
    | .got s'' b => .got s'' (a ++ b)
    | r => r
  | r => r

/-- The decode checks of `launch`. -/
def launchCheck (d a : Opnd) (s : State) (w : Nat) : Eff Unit := checkOps s w [(d, .onlyS), (a, .onlyS)]

/-- What Sd receives of a launch: status and identifier (spec/12 R374). -/
def launchWord (st : Nat) (ident : BitVec 32) : Word := BitVec.ofNat 64 (st * 2 ^ 56 + ident.toNat)

/-- `launch` is carried out: the record is read and checked, and Sd receives the status and the identifier at completion. One with the
acquire flag behind an ordered atomic of its wave that is held waits for it as a command (spec/01 R25). -/
def launchAct (o : Order) (sc : Scope) (d a : Opnd) (s : State) (w : Nat) : Eff State := do
  launchCheck d a s w
  let va := readS s w 1 (regOf a)
  demand (va.toNat % 64 == 0) 0x11#6 va
  demand (decide (va.toNat < 2 ^ 57)) 0x10#6 va
  roomFor s w .cp
  let done := fun (s : State) (st : Nat) (ident : BitVec 32) =>
    s.modWave w fun x => x.count .cp true [x.destS (regOf d) (launchWord st ident)]
  demandSent s w
  let x := s.wave w
  if s.acquireWaits w x.num.key o then
    let cmd : TCmd := { op := .launch va (regOf d) (x.tr.hm && decide (56 ≤ regOf d)), wave := w, group := x.id.group, key := x.num.key,
                        num := x.num.tier, o := o, sc := sc, pos := x.pos }
    pure (((s.performAll w).modWave w fun y => y.count .cp false []).modPart x.id.part fun p => { p with tierQ := p.tierQ ++ [cmd] })
  else match (s.performAll w).launchRead w o sc va.toNat with
  | .hold => .error (.stall .hold s)
  | .failed => pure (done (s.performAll w) 8 0)
  | .got s bs => do
    let s ← raceCheck s w { kind := .load, acq := Order.acquires o, rel := false, sc := sc } [(0, va.toNat, 128)]
    let r := s.accept (s.wave w).id.part bs (some (s.wave w).id.ctx) .device
    pure (done r.1 r.2.1 r.2.2)

/-- `launch`: a forcing instruction (spec/15 R446). -/
def execLaunch (o : Order) (sc : Scope) (d a : Opnd) (s : State) : Out :=
  issue s fun w => do
    launchCheck d a s w
    forced s w (launchAct o sc d a)

/-! Work graphs (spec/12 R387 to R391) -/

/-- A bin or node operand below a bound. -/
def demandBelow (o : Opnd) (v n : Nat) : Eff Unit := demand (decide (v < n)) 0x02#6 (opndAddr o)

/-- The bin of each lane. -/
def binOf (s : State) (w : Nat) (b : Opnd) : Nat → Nat :=
  match b with
  | .v n => let r := readV s w 2 n.toNat; fun l => (r.lanes.getD l 0).toNat
  | .s n => let x := readS s w 2 n.toNat; fun _ => x.toNat
  | .imm x => fun _ => (x.signExtend 64).toNat
  | _ => fun _ => 0

/-- The record of a lane. -/
def laneRecord (regs : List VReg) (l : Nat) : List Byte := regs.flatMap fun r => leBytes 4 (r.lanes.getD l 0).toNat

/-- Records enter their bins one after the other; the first that finds no free batch stops them, and how many entered. -/
def appendAll (l node : Nat) (q : Sender) : List (Nat × List Byte) → State → Nat → State × Nat × Bool
  | [], s, n => (s, n, true)
  | (bin, bs) :: t, s, n =>
    match s.appendRecord l node bin bs q with
    | none => (s, n, false)
    | some s' => appendAll l node q t s' (n + 1)

/-- Records of a wave go to the log of its staged group, or to the bins; a wave that must wait for a batch keeps how far it is
(spec/12 R387, R391). -/
def sendRecords (s : State) (w node : Nat) (sc : Scope) (rs : List (Nat × List Byte)) : Eff State :=
  let x := s.wave w
  let q : Sender := { wave := w, origin := { pos := x.pos, key := some x.num.key }, sc := sc }
  if s.staged x.id.group then
    .ok ((s.modGroup x.id.group fun g => { g with nodeLog := g.nodeLog ++ rs.map fun r => .record node r.1 r.2 q }).modWave w
      fun y => y.count .cp true [])
  else if s.storesHeld w then .error (.stall .hold s)
  else
    let k := match x.sch.nrec with
      | some (p, k) => if p == x.pos then k else 0
      | none => 0
    match appendAll x.id.launch node q (rs.drop k) (s.performAll w) k with
    | (s', _, true) => .ok (s'.modWave w fun y => { y.count .cp true [] with sch.nrec := none })
    | (s', n, false) => .error (.stall .queue (s'.modWave w fun y => { y with sch.nrec := some (y.pos, n) }))

/-- `nrec` (spec/12 R387). -/
def execNrec (g : Guards) (o : Order) (sc : Scope) (d a b : Opnd) (s : State) : Out :=
  issue s fun w => do
    checkOps s w [(d, .onlyV), (a, .count), (b, .count)]
    let m := activeMask s w g
    if m == 0 then pure s
    else do
      demandClean s w m [a, b]
      let n ← uniOf s w m 1 a
      let nodes := (s.waveLaunch w).nodes
      demandBelow a n.toNat nodes.length
      let nd := (s.waveLaunch w).node n.toNat
      let ls := lanesOf (s.wave w).id.width m
      let bin := binOf s w b
      demand (ls.all fun l => decide (bin l < nd.nbin)) 0x02#6 (opndAddr b)
      demand (s.fits w d (nd.rsz / 4)) 0x02#6 (opndAddr d)
      let os := (List.range (nd.rsz / 4)).map fun i => Opnd.v (BitVec.ofNat 6 (regOf d + i))
      demandClean s w m os
      roomFor s w .cp
      let regs := os.map fun r => readV s w 4 (regOf r)
      let s' ← sendRecords s w n.toNat sc (ls.map fun l => (bin l, laneRecord regs l))
      pure (if Order.releases o then (s'.releaseInterval w).releaseDone (s.wave w).id.group o sc else s')

/-- `nflush` (spec/12 R389). -/
def execNflush (all : Bool) (a b : Opnd) (s : State) : Out :=
  issue s fun w => do
    checkOps s w ([(a, .count)] ++ if all then [] else [(b, .count)])
    let x := s.wave w
    let q ← if all then (uni1 s w a).map fun v => (v, 0) else uni2 s w a b
    demandBelow a q.1.toNat (s.waveLaunch w).nodes.length
    let nd := (s.waveLaunch w).node q.1.toNat
    demandBelow b q.2.toNat (if all then 1 else nd.nbin)
    roomFor s w .cp
    demandSent s w
    let bins := if all then List.range nd.nbin else [q.2.toNat]
    let s := if s.staged x.id.group then
        s.modGroup x.id.group fun g => { g with nodeLog := g.nodeLog ++ bins.map fun i => .flush q.1.toNat i }
      else bins.foldl (fun s i => s.flushBin x.id.launch q.1.toNat i) (s.performAll w)
    pure (s.modWave w fun y => y.count .cp true [])

/-- BIN_TIMEOUT (spec/12 R388): the timer of a bin's open batch expires. -/
def execBinTimeout (l node bin : Nat) (s : State) : Out :=
  let x := s.launch l
  let n := x.node node
  let bs := n.bins.getD bin []
  let run := s.alive x.part && (s.part x.part).run == .running
  match bs.findIdx? fun b => b.st == .opened with
  | none => .next s
  | some b =>
    event s (run && !x.complete && n.tmo != 0 && !x.r.det && (bs.getD b default).fill != 0) fun s => s.closeBatch l node bin b

/-! Drain and completion (spec/12 R373, R374, R390) -/

/-- No group of a launch waits or is resident, and nothing is on its way to a bin. -/
def State.drained (s : State) (l : Nat) : Bool :=
  let x := s.launch l
  !x.complete && decide (x.r.ngrp ≤ x.next) && x.closed.isEmpty && x.inflight.isEmpty &&
  !(s.groups.any fun g => g.launch == l && !g.ended)

/-- Bins of a launch with records in a batch that has not closed, in order. -/
def Launch.openBins (x : Launch) : List (Nat × Nat) :=
  (x.nodes.zipIdx).flatMap fun n => ((n.1.bins.zipIdx).filter fun b =>
    b.1.any fun t => (t.st == .opened || t.st == .held) && t.fill != 0).map fun b => (n.2, b.2)

/-- The final status of a launch. -/
def Launch.finalStatus (x : Launch) : Nat := if x.aborted + x.nodeAborted == 0 then 0 else 9

/-- A launch is complete: its record goes to its host queue, or, with its stamp, to the addresses that a device launch gave. -/
def State.complete (s : State) (l : Nat) : State :=
  let x := s.launch l
  let bs := completionRecord x.sig x.ident x.finalStatus x x.from_.word
  let s := s.modLaunch l fun y => { y with complete := true }
  match x.from_ with
  | .host q _ => s.postRecord x.part q bs
  | .device =>
    let d := s.owningDie l
    let s := if x.r.crec == 0 then s
      else match s.resolve s.groups.length d x.part x.r.ctx x.r.crec.toNat 64 .store with
        | some (s', .mem pa) => s'.writeMem (placed pa bs)
        | _ => s
    if x.r.cstamp == 0 then s
    else s.writeStamp s.groups.length d x.part x.r.ctx true x.r.cstamp (if x.finalStatus == 0 then 0 else 5)

/-- LAUNCH_DRAIN (spec/12 R390). -/
def execLaunchDrain (l : Nat) (s : State) : Out :=
  let x := s.launch l
  event s (decide (l < s.launches.length) && s.alive x.part && s.drained l) fun s =>
    match x.openBins with
    | [] => s.complete l
    | bs => bs.foldl (fun s q => s.flushBin l q.1 q.2) s

end Sys2Proof.Machine
end

