-- ==== Sys2Proof/Machine/Commit.lean ====
section
/-! DEFINITION. The check engine: `cmmt`, commits with their comparison, publication, forcing instructions and snapshot, and
uncorrectable errors (spec/15 R446 to R457). -/

namespace Sys2Proof.Machine

/-- `cmmt` (spec/15 R447). -/
def execCmmt (s : State) : Out :=
  issue s fun w => if s.staged (s.wave w).id.group then arriveAt s w .cmmt else .ok s

/-! Arrival (spec/15 R446) -/

/-- A stall at a core-scope barrier. -/
def Why.coreBarrier : Why → Bool
  | .barrier sc _ => sc == .core
  | _ => false

/-- How a wave has arrived at a commit point, if it has. -/
def Wave.arrival (x : Wave) : Option Arrive :=
  if x.sch.ended then x.sch.arrived
  else if x.sch.stall == some .commit then x.sch.arrived
  else if x.sch.stall.any Why.coreBarrier && x.drained then some .barrier
  else none

/-! Forcing instructions -/

/-- A forcing instruction: what it enters into SIG, its act, and, read from the wave that has performed it, the results that it
writes at once; a computed word of `xeq` leaves the position where it is. -/
structure Forcing where
  word : Bool := false
  records : State → Nat → List SigRec := fun _ _ => []
  act : State → Nat → Eff State
  results : Wave → List Dest := fun _ => []

def atomForcing (k : AtomForm) : Forcing := { records := fun s w => k.records (s.wave w).exec s w, act := atomAct k }

/-- The atomic word that an `xeq` in progress has come to. -/
def chantForcing (s : State) (w n : Nat) : Option Forcing :=
  match (chantWords s w n)[chantNext (s.wave w)]? with
  | none => none
  | some word =>
    match legalWord s w n word with
    | none => none
    | some f =>
      let m := chantLanes s w n word
      f.atom.map fun rs =>
        { word := true, records := rs m,
          results := fun x => f.dests.map fun r => .v r m (x.vreg r).lanes 0 (x.vreg r).md,
          act := fun s w => (f.act m s w).map fun s => s.modWave w fun x => { x with lc.xprog := nextProg x.lc.xprog false } }

/-- The scalar result of an instruction that has performed. -/
def scalarResult (d : Opnd) (x : Wave) : List Dest := [x.destS (regOf d) (x.sreg (regOf d))]

/-- The forcing instruction that a wave has arrived at. -/
def State.forcing (s : State) (w : Nat) : Option Forcing :=
  match decodeWord (s.wave w).word with
  | .error _ => none
  | .ok i =>
    match i with
    | .atomAdd g o sc _ d a b c wd => some (atomForcing { g, o, sc, d, a, b, c, wd, op := some .add })
    | .atomMin g o sc _ d a b c wd => some (atomForcing { g, o, sc, d, a, b, c, wd, op := some .min })
    | .atomMax g o sc _ d a b c wd => some (atomForcing { g, o, sc, d, a, b, c, wd, op := some .max })
    | .atomAnd g o sc _ d a b c wd => some (atomForcing { g, o, sc, d, a, b, c, wd, op := some .and })
    | .atomOr g o sc _ d a b c wd => some (atomForcing { g, o, sc, d, a, b, c, wd, op := some .or })
    | .atomXor g o sc _ d a b c wd => some (atomForcing { g, o, sc, d, a, b, c, wd, op := some .xor })
    | .atomExch g o sc _ d a b c wd => some (atomForcing { g, o, sc, d, a, b, c, wd, op := some .exch })
    | .atomFadd g o sc _ d a b c wd => some (atomForcing { g, o, sc, d, a, b, c, wd, op := some .fadd })
    | .cas g o sc _ d a b c wd => some (atomForcing { g, o, sc, d, a, b, c, wd, op := none })
    | .aod g sc op d a b c wd => some { records := aodRecords g a c wd, act := aodAct g sc op d a b c wd }
    | .launch o sc d a => some { act := launchAct o sc d a }
    | .scmdMcast o sc se a b c => some { act := ({ kind := .mcast, o, sc, se, a, b, c } : ScmdForm).act }
    | .scmdColl o sc se a b c => some { act := ({ kind := .coll, o, sc, se, a, b, c } : ScmdForm).act }
    | .ctresc o sc rnd a => some { act := ctrescAct o sc rnd a }
    | .prmtSave d a => some { act := prmtAct true d a, results := scalarResult d }
    | .prmtRestore d a => some { act := prmtAct false d a, results := scalarResult d }
    | .wkill a => some { act := wkillAct a }
    | .xeq _ _ a => chantForcing s w (regOf a)
    | _ => none

/-! Results in both copies (spec/15 R451) -/

/-- The results of a forcing instruction reach the wave of the other copy: those `now` that it wrote at once, and those that its
counted operation brings. -/
def Wave.receive (old new : Wave) (now : List Dest) (twin : Wave) : Wave :=
  { twin.applyDests now with
    lc.xprog := new.lc.xprog, num := new.num, mem.interval := new.mem.interval, mem.acqs := new.mem.acqs,
    mem.outst := twin.mem.outst ++ new.mem.outst.drop old.mem.outst.length, sch.prmt := new.sch.prmt }

/-- A wave goes on after its commit: past its instruction, or at the `xeq` whose word is done. In deterministic mode a wave of
a checked group that is not the running one still counts as waiting, since its wait was not local (spec/12 R394). -/
def State.goOn (s : State) (w : Nat) (word : Bool) : State :=
  let x := s.wave w
  let held := x.sch.waiting.isSome && (s.waveGroup w).copy != .single && (s.core x.id.core).running != some w
  let s := s.modWave w fun y => { (if word then y else y.advance) with sch.arrived := none }
  let s := if word then s.unstall w else (s.retire w x).unstall w
  s.modWave w fun y => { y with sch.waiting := if held then some .commit else none }

/-- How a forcing instruction ends at its commit: performed, waiting so that the commit has still to wait, or with the group
run again or ended. -/
inductive Performed where
  | ok (s : State)
  | wait
  | gone (s : State)

/-- A wave of the primary has taken a trap, and its twin takes the same. -/
def State.trapTwin (s : State) (w : Nat) : State :=
  let x := s.wave w
  match s.twinOf w with
  | none => s
  | some t => s.take t { code := x.tr.cause.extractLsb' 0 6, addr := x.tr.taddr, lanes := some x.tr.tlanes, resume := x.resumesAfter }

/-- A trap at a forcing instruction: entered in both copies, or a second error that has ended or restarted the group. `old` is the
state before. -/
def State.afterTrap (s : State) (w : Nat) (old : State) : Performed :=
  let again := (s.waveGroup w).ended || (s.waveGroup w).aborts != (old.waveGroup w).aborts
  if !again && !(old.wave w).tr.hm && (s.wave w).tr.hm then .ok (s.trapTwin w) else .gone s

/-- The primary performs a wave's forcing instruction; a demand fetch is served and the act made again. -/
def State.performForcing (w : Nat) (f : Forcing) : Nat → State → Performed
  | 0, _ => .wait
  | n + 1, s =>
    let x := s.wave w
    match f.act s w with
    | .ok s' =>
      let s' := match s'.twinOf w with
        | some t => (s'.modWave t fun y => x.receive (s'.wave w) (f.results (s'.wave w)) y).goOn t f.word
        | none => s'
      .ok (s'.goOn w f.word)
    | .error (.trap t) => (s.take w t).afterTrap w s
    | .error (.done s') => s'.afterTrap w s
    | .error (.stall .fault s') => State.performForcing w f n s'
    | .error (.stall .prmt s') =>
      let stay := fun (y : Wave) => { y with sch.arrived := none, sch.stall := some .prmt }
      let s' := match s'.twinOf w with
        | some t => s'.modWave t fun y => stay (x.receive (s'.wave w) [] y)
        | none => s'
      .ok (s'.modWave w stay)
    | .error _ => .wait

/-- The forcing instructions of a group, in ascending WAVEID. -/
def State.performAllForcing : List Nat → State → Performed
  | [], s => .ok s
  | w :: t, s =>
    match (s.wave w).arrival == some .forcing, s.forcing w with
    | true, some f => match State.performForcing w f 4 s with
      | .ok s' => State.performAllForcing t s'
      | r => r
    | _, _ => State.performAllForcing t s

/-! The commit (spec/15 R448 to R450) -/

/-- Records of the forcing instructions enter the signatures of a copy. -/
def State.signForcing (s : State) (ws : List Nat) : State :=
  ws.foldl (fun s w => match (s.wave w).arrival == some .forcing, s.forcing w with
    | true, some f => s.sign w (f.records s w)
    | _, _ => s) s

/-- The lowest wave at which the copies differ, and whether only in position or arrival kind. -/
def State.difference (s : State) (ws ts : List Nat) : Option (Nat × Bool) :=
  ((ws.zip ts).zipIdx).findSome? fun q =>
    let a := s.wave q.1.1
    let b := s.wave q.1.2
    let place := a.arrival != b.arrival || a.pos != b.pos
    let sig := a.mem.sig != b.mem.sig || a.mem.esig != b.mem.esig
    if sig then some (q.2, false) else if place then some (q.2, true) else none

/-- What an earlier commit left in flight has completed by the next one: no rerun begins it again. -/
def Snapshot.settled (n : Snapshot) : Snapshot :=
  { n with
    rescales := [],
    waves := n.waves.map fun (x : Wave) =>
      { (x.mem.outst.foldl (fun (y : Wave) p => if p.ready then y.applyDests p.dests else y) x) with mem.outst := [] } }

/-- Publication: every staged byte of the primary is performed at its home point in one step, but for what a broken link
loses; a sector that no single write covered stays lost (spec/15 R456); the staging of every copy is empty, and the writes of
rescales that an earlier commit began are final. -/
def State.publish (s : State) (g : Nat) : State :=
  let x := s.group g
  let d := s.dieOfCore x.core
  let bs := x.staging.filter fun c => s.reach d c.1 != Reach.broken
  let s := if bs.length == x.staging.length then s
    else s.addError (s.launch x.launch).part 3 0 0 0 0 0 (BitVec.ofNat 64 (x.staging.headD (0, 0)).1)
  let s := { s with mem := s.mem.writeAll bs, lost := s.lost.filter fun k => !(x.stagedWhole.contains k && bs.any fun c => c.1 / 32 == k) }
  (g :: x.sibling.toList).foldl (fun s h => (s.l1Store (s.group h).core bs).modGroup h fun y =>
    { y with staging := [], stagedWhole := [], stagedOld := [], snap := y.snap.map Snapshot.settled }) s

/-- The heap log: deferred frees are carried out in its order (spec/08 R290). -/
def State.applyHeapLog (s : State) (g : Nat) : State :=
  let (_, p, c) := s.groupCtx g
  let s := (s.group g).heapLog.foldl (fun s e => match e with
    | .alloc _ => s
    | .free a => s.modCtx p c fun x => { x with arena := x.arena.map fun r => match r.liveAt a with
        | some b => r.release b
        | none => r }) s
  s.modGroup g fun x => { x with heapLog := [] }

/-- Staged records of `nrec` and closings of `nflush` go to the bins in issue order (spec/12 R391). -/
def State.releaseNodes (s : State) (g : Nat) : State :=
  let x := s.group g
  let s := (s.modGroup g fun y => { y with nodeLog := [] }).modLaunch x.launch fun l => { l with inflight := l.inflight ++ x.nodeLog }
  State.settleNodes x.launch (s.launch x.launch).inflight.length s

/-- The snapshot of a copy, signatures and counts cleared (spec/15 R449). -/
def State.snapshot (s : State) (g : Nat) : State :=
  let x := s.group g
  let s := x.waves.foldl (fun s w => s.modWave w fun y => { y with mem.sig := 0, mem.esig := 0 }) s
  let mx := (s.core x.core).mx
  let rs := (s.quads.zipIdx).flatMap fun q => (q.1.slots.filter fun c => c.group == g && match c.op with
    | .rescale .. => true
    | _ => false).map fun c => (q.2, c)
  let n : Snapshot := { waves := x.waves.map s.wave, sp := x.sp, spLost := x.spLost, layouts := x.layouts, rings := x.rings, barriers := x.barriers,
                        marker := x.marker, matrix := if mx.owner == some g then some mx else none, rescales := rs,
                        turn := ((s.core x.core).running.bind fun w => x.waves.idxOf? w, (s.core x.core).last), sent := (s.core x.core).sent }
  s.modGroup g fun y => { y with snap := some n, nodeLog := [], heapLog := [], mismatches := 0, aborts := 0 }

/-- What follows the forcing instructions: logs, waves at `cmmt` go on, and the snapshot, or the end of a group whose waves have
all ended. -/
def State.endCommit (s : State) (g : Nat) (copies : List Nat) : State :=
  let s := (s.applyHeapLog g).releaseNodes g
  if copies.all fun h => (s.group h).waves.all fun w => (s.wave w).sch.ended then
    copies.foldl (fun s h => s.closeGroup h false) s
  else
    let s := (copies.flatMap fun h => (s.group h).waves).foldl (fun s w =>
      if (s.wave w).arrival == some .cmmt then s.goOn w false else s) s
    copies.foldl State.snapshot s

/-- Every wave of every copy has arrived, none of them by a barrier whose phase has completed since. -/
def State.commitDue (s : State) (g : Nat) : Bool :=
  let x := s.group g
  decide (g < s.groups.length) && !x.ended && s.staged g && x.copy != .twin && s.alive (s.launch x.launch).part &&
  (g :: x.sibling.toList).all fun h => (s.group h).waves.all fun w => (s.wave w).arrival.isSome && s.atCommit w

/-- A recovery hold keeps a staged byte of a group back (spec/14 R431). -/
def State.stagingHeld (s : State) (g : Nat) : Bool :=
  (s.group g).staging.any fun c => s.reach (s.dieOfCore (s.group g).core) c.1 == .hold

/-- The commit of a group can be tried. -/
def State.commitReady (s : State) (g : Nat) : Bool := !s.stagingHeld g && s.commitDue g

/-- A recovery hold keeps back a forcing instruction that the commit of a group performs. -/
def State.forcingHeld (s : State) (g : Nat) : Bool :=
  let t := s.publish g
  (s.group g).waves.any fun w => (s.wave w).arrival == some .forcing && (s.forcing w).any fun f =>
    match f.act t w with
    | .error (.stall .hold _) => true
    | _ => false

/-- A recovery hold keeps back the commit at which the waves of a group stand: their pending operation (spec/14 R431). -/
def State.commitHeld (s : State) (h : Nat) : Bool :=
  let g := s.primaryOf h
  s.commitDue g && (s.stagingHeld g || s.forcingHeld g)

/-- COMMIT (spec/15 R448); it waits while a forcing instruction cannot be performed. -/
def execCommit (g : Nat) (s : State) : Out :=
  if !s.commitReady g then .next s
  else
    let x := s.group g
    let copies := g :: x.sibling.toList
    let s1 := copies.foldl (fun s h => s.signForcing (s.group h).waves) s
    let differ := match x.sibling with
      | some t => s1.difference x.waves (s1.group t).waves
      | none => none
    match differ with
    | some (i, place) => .next ((s1.mismatch g i place).moveTwin g).tick
    | none =>
      match State.performAllForcing x.waves (s1.publish g) with
      | .ok s2 => .next (s2.endCommit g copies).tick
      | .wait => .next s
      | .gone s2 => .next s2.tick

/-! Soft errors (spec/15 R456, R457) -/

/-- A sector of memory is lost. -/
def State.loseSector (s : State) (pa : Nat) : State :=
  { s with lost := if s.lost.contains (pa / 32) then s.lost else sortBy (fun a b => decide (a ≤ b)) (pa / 32 :: s.lost) }

/-- An error record of kind 3, with the code of the trap, event or fatal cause that the error brings, or 0 where it brings none
(spec/11 R364; log entry 54). -/
def State.hardwareError (s : State) (p code gid : Nat) (addr : Nat) : State := s.addError p 3 code gid 0 0 0 (BitVec.ofNat 64 addr)

/-- A lane of a wave dies: it leaves the wave of a plain group, another group runs again. -/
def State.laneDies (s : State) (w l : Nat) : State :=
  let g := (s.wave w).id.group
  let m : Mask := BitVec.ofNat 1024 (2 ^ l)
  if (s.waveLaunch w).checked then
    let h := if (s.group g).copy == .twin then (s.group g).sibling.getD g else g
    (s.mismatch h ((s.group g).waves.idxOf w) false).moveTwin h
  else if s.staged g then
    let s := s.abortGroup g
    if (s.group g).ended then s else s.moveAway g
  else
    let s := s.modWave w fun x => { x with tr.pend21 := some ((x.tr.pend21.getD 0) ||| m) }
    s.killLanes w m

/-- The next row step of a command reads a tile, or scale memory: a loop its scales, and its tiles but for its first K-step
under Z; a store the tiles that it stores. -/
def MCmd.reads (x : MCmd) (t : Nat) (scale : Bool) : Bool :=
  match x.op with
  | .loop d ops =>
    let k := Loop.ofOps ops
    if scale then k.bsa || k.bsb
    else !(k.z && decide (x.rows < 64)) && (d == t || (k.pair ((mxClass k.fa).getD .f16) && d + 1 == t))
  | .store d _ _ md _ _ => !scale && (d == t || (smPair md && d + 1 == t))
  | .storeScale .. => scale
  | .zero .. | .load .. | .loadScale .. | .prg .. => false

/-- A stream whose next row step reads a tile, or scale memory. -/
def Matrix.reader (m : Matrix) (t : BitVec 3) (scale : Bool) : Option Nat :=
  (List.range 4).find? fun n => (m.ready n).any fun x => x.reads t.toNat scale

/-- The effect of an uncorrectable error where it is read. -/
def State.uncorrectable (s : State) : ErrPlace → State
  | .vreg w l => ((s.hardwareError (s.wave w).id.part 0x21 (s.globalId w) l).laneDies w l)
  | .waveState w => (s.hardwareError (s.wave w).id.part 0x07 (s.globalId w) 0).secondError w 0x07#6
  | .l1 c =>
    let i := (Config.freeWord s.fresh 63 c).toNat % max 1 (s.core c).l1.length
    (s.hardwareError (s.core c).part 0 0 0).modCore c fun k => { k with l1 := k.l1.eraseIdx i }
  | .memory pa | .pageEntry pa =>
    let p := (s.parts.findIdx? fun x => x.dies.contains (pa % windowBytes / hbmPerDie)).getD 0
    (s.hardwareError p 0 0 pa).loseSector pa
  | .scratchpad g off =>
    let s := s.hardwareError (s.launch (s.group g).launch).part 0 0 off
    s.modGroup g fun x => { x with spLost := if x.spLost.contains (off / 32) then x.spLost else (off / 32) :: x.spLost }
  | .code w =>
    let x := s.wave w
    let s := s.hardwareError x.id.part 0x10 (s.globalId w) (if x.sch.started then x.wordAddr else x.hdr).toNat
    if x.sch.started then s.take w { code := 0x10#6, addr := x.wordAddr }
    else s.take w (headerTrap 0x10#6 x.hdr (Config.freeWord s.fresh 51 x.hdr.toNat))
  | .tile c t scale =>
    let s := s.hardwareError (s.core c).part 0 0 0
    match (s.core c).mx.reader t scale with
    | none => s
    | some n => match (s.core c).mx.ready n with
      | some x => s.finishMatrix c n x 4
      | none => s
  | .staging g => (s.hardwareError (s.launch (s.group g).launch).part 0 0 0).abortGroup g
  | .shared p => (s.hardwareError p 1 0 0).declareFatal p 1
  | .corrected d => s.modDie d fun x => { x with corrected := x.corrected + 1 }

/-- The place exists, and something reads it. -/
def State.errPlaceOk (s : State) : ErrPlace → Bool
  | .vreg w l => decide (w < s.waves.length) && (s.wave w).resident && (s.wave w).live.getLsbD l
  | .waveState w | .code w => decide (w < s.waves.length) && (s.wave w).resident
  | .l1 c | .tile c _ _ => decide (c < s.cores.length)
  | .memory pa | .pageEntry pa => s.mapped pa && !s.isHost pa
  | .scratchpad g off => decide (g < s.groups.length) && !(s.group g).ended && decide (off < (s.group g).spb)
  | .staging g => decide (g < s.groups.length) && !(s.group g).ended && s.staged g && (s.group g).copy != .twin
  | .shared p => s.alive p
  | .corrected d => decide (d < s.dies.length)

/-- UNCORRECTABLE_ERROR, and the single-bit error that is corrected where it is read and counted (spec/15 R456). -/
def execUncorrectableError (place : ErrPlace) (s : State) : Out :=
  event s (s.ctl.powered && !s.ctl.halted && s.errPlaceOk place) fun s => s.uncorrectable place

end Sys2Proof.Machine
end

