-- ==== Sys2Proof/Machine/Link.lean ====
section
/-! DEFINITION. The link engine: Ronlo ports with their flits, states and pauses, recovery holds, and errors of a bridge
(spec/14 R423 to R432). -/

namespace Sys2Proof.Machine

/-- A port of a die: 0 to 2 its Ronlo ports, 3 + e its end of the bridge to die e. -/
def State.linkPort (s : State) (d p : Nat) : Port :=
  if p < 3 then (s.die d).ports.getD p Port.reset else (s.die d).bridges.getD (p - 3) Port.reset

def State.modPort (s : State) (d p : Nat) (f : Port → Port) : State :=
  s.modDie d fun x =>
    if p < 3 then { x with ports := modifyAt x.ports p f } else { x with bridges := modifyAt x.bridges (p - 3) f }

/-- The Ronlo port exists, and the package has power. -/
def State.portThere (s : State) (d p : Nat) : Bool := s.ctl.powered && !s.ctl.halted && decide (d < s.dies.length) && decide (p < 3)

/-- The controller is told of a change of state: vector 1 (spec/14 R426, spec/16 R465). -/
def State.portChanged (s : State) : State := s.raiseVector 1

/-- Traffic passes. -/
def Port.carries (x : Port) : Bool := x.st == .up || x.st == .degraded

/-- Channels that carry flits: of a Ronlo port that traffic passes, of a bridge. -/
def State.channelThere (s : State) (d p : Nat) : Bool :=
  s.ctl.powered && !s.ctl.halted && decide (d < s.dies.length) &&
    if p < 3 then (s.linkPort d p).carries else decide (p - 3 < s.dies.length) && p - 3 != d

/-- The code of a port's state in LSTAT (spec/14 R428). -/
def PortState.code : PortState → Nat
  | .down => 0
  | .training => 1
  | .up => 2
  | .degraded => 3
  | .recovery => 4

/-- LSTAT (spec/14 R428). -/
def Port.lstat (x : Port) : Word :=
  BitVec.ofNat 64 (x.recov.toNat * 2 ^ 32 + x.rebuilt.toNat * 2 ^ 16 + x.peer.toNat * 2 ^ 8 + x.st.code * 2 ^ 5 + x.rails.toNat)

/-! Recovery holds (spec/14 R431) -/

/-- Destination ranks whose traffic from a die leaves by a port. -/
def State.ranksVia (s : State) (e d p : Nat) : List Nat := (List.range 64).filter fun n => s.route e n == some (d, p)

/-- Every link engine whose route crosses the port holds its ranks. -/
def State.placeHolds (s : State) (d p : Nat) : State :=
  { s with dies := (s.dies.zipIdx).map fun q => { q.1 with holds := (q.1.holds ++ s.ranksVia q.2 d p).eraseDups } }

/-- The holds that the port caused end; those that had expired are forgotten when traffic passes again. -/
def State.liftHolds (s : State) (d p : Nat) (again : Bool) : State :=
  { s with dies := (s.dies.zipIdx).map fun q =>
      let r := s.ranksVia q.2 d p
      { q.1 with holds := q.1.holds.filter fun n => !r.contains n,
                 expired := if again then q.1.expired.filter fun n => !r.contains n else q.1.expired } }

/-- A die's routes change: it holds the ranks whose new route crosses a port in recovery, but for those that leave by the port
that they left by and whose hold has expired (spec/14 R429, R431, R432). -/
def State.reroute (s : State) (d : Nat) (es : List (BitVec 8)) : State :=
  let t := s.modDie d fun x => { x with routes := es }
  let gone := (s.die d).expired.filter fun n => t.route d n == s.route d n
  let held := (List.range 64).filter fun n => !gone.contains n && (t.route d n).any fun q => (t.linkPort q.1 q.2).st == .recovery
  t.modDie d fun x => { x with holds := held, expired := gone }

/-- RECOVERY_HOLD_EXPIRY (spec/14 R432): from here on traffic to the rank ends as on a broken link. -/
def execRecoveryHoldExpiry (d : Nat) (rank : Nat) (s : State) : Out :=
  event s ((s.die d).holds.contains rank) fun s =>
    s.modDie d fun x => { x with holds := x.holds.filter (· != rank), expired := (rank :: x.expired).eraseDups }

/-! Port states (spec/14 R426) -/

/-- The port enters recovery. -/
def State.recover (s : State) (d p : Nat) (rails : BitVec 5) : State :=
  ((s.modPort d p fun x => { x with st := .recovery, rails := rails, recov := x.recov + 1, replays := 0 }).placeHolds d p).portChanged

/-- RAIL_LOSS: one rail lost leaves the port degraded, a second one sends it into recovery. -/
def execRailLoss (d p : Nat) (rail : Nat) (s : State) : Out :=
  let x := s.linkPort d p
  let rails := x.rails ||| BitVec.ofNat 5 (2 ^ rail)
  event s (s.portThere d p && x.carries && decide (rail < 5) && !x.rails.getLsbD rail) fun s =>
    if x.st == .up then (s.modPort d p fun y => { y with st := .degraded, rails := rails }).portChanged
    else s.recover d p rails

/-- REPLAY_LIMIT: sixteen replays have failed in succession. -/
def execReplayLimit (d p : Nat) (s : State) : Out :=
  let x := s.linkPort d p
  event s (s.portThere d p && x.carries && decide (16 ≤ x.replays)) fun s => s.recover d p x.rails

/-- BRING_PORT_UP: the controller begins to train a port. -/
def execBringPortUp (d p : Nat) (s : State) : Out :=
  event s (s.portThere d p && s.ctl.ready && (s.linkPort d p).st == .down) fun s =>
    (s.modPort d p fun x => { x with st := .training, rails := 0 }).portChanged

/-- The rails carry flits again: after a recovery the unacknowledged ones go out anew, after training the channels begin at their
first flit. -/
def Port.restart (x : Port) : Port :=
  if x.st == .recovery then { x with tx := x.tx ++ x.unacked }
  else { x with rxNext := List.replicate 4 0, rxHeld := [], asked := [], txNext := List.replicate 4 0, unacked := [],
                paused := 0, pausing := 0, past := List.replicate 4 0 }

/-- TRAINING_END: training or recovery ends with the rails `lost`: at most one leaves the port up or degraded, more leave it
down. -/
def execTrainingEnd (d p : Nat) (lost : BitVec 5) (peer : BitVec 8) (s : State) : Out :=
  let x := s.linkPort d p
  let n := popCount 5 lost.toNat
  event s (s.portThere d p && (x.st == .training || x.st == .recovery)) fun s =>
    let s := s.liftHolds d p (decide (n ≤ 1))
    (s.modPort d p fun y =>
      if n == 0 then { y.restart with st := .up, rails := lost, peer := peer, replays := 0 }
      else if n == 1 then { y.restart with st := .degraded, rails := lost, peer := peer, replays := 0 }
      else { y with st := .down, rails := lost, peer := 0xFF#8, replays := 0 }).portChanged

/-! Flits (spec/14 R425) -/

/-- Quarters as they arrive: one on a lost rail is missing. -/
def arrived (rails : BitVec 5) (quarters : List (Option (BitVec 512))) : List (Option (BitVec 512)) :=
  (List.range 5).map fun k => if rails.getLsbD k then none else quarters.getD k none

/-- The XOR of the quarters that are there. -/
def xorOf (l : List (Option (BitVec 512))) : BitVec 512 := l.foldl (fun acc q => acc ^^^ q.getD 0) 0

/-- The flit of five quarters of which at most one is missing: a missing one is the XOR of the others. -/
def flitOf (l : List (Option (BitVec 512))) : BitVec 2048 :=
  let q := fun k => (l.getD k none).getD (xorOf l)
  q 3 ++ (q 2 ++ (q 1 ++ q 0))

/-- The number of the flit that a channel delivers next, and of the one that it sends next. -/
def Port.nextIn (x : Port) (vc : BitVec 2) : Nat := x.rxNext.getD vc.toNat 0
def Port.nextOut (x : Port) (vc : BitVec 2) : Nat := x.txNext.getD vc.toNat 0

/-- A channel's bit. -/
def vcBit (vc : BitVec 2) : BitVec 4 := BitVec.ofNat 4 (2 ^ vc.toNat)

/-- Flits of a channel in its receiving buffer. -/
def Port.occupancy (x : Port) (vc : BitVec 2) : Nat := x.rx.countP fun q => q.1 == vc

/-- The receiver pauses a channel whose buffer passes three quarters full, and lets it go on below one quarter (spec/14 R427). -/
def Port.govern (x : Port) (vc : BitVec 2) : Port :=
  if 3 * Config.flitBuffer < 4 * x.occupancy vc then { x with pausing := x.pausing ||| vcBit vc }
  else if 4 * x.occupancy vc < Config.flitBuffer then { x with pausing := x.pausing &&& ~~~ vcBit vc }
  else x

/-- A channel delivers, in order, the whole flits that are there; the fuel bounds their number. -/
def Port.deliver (vc : BitVec 2) : Nat → Port → Port
  | 0, x => x
  | k + 1, x =>
    let n := x.nextIn vc
    match x.rxHeld.find? fun q => q.1 == vc && q.2.1 == n with
    | none => x
    | some q => Port.deliver vc k { x with rx := x.rx ++ [(vc, q.2.2)], rxNext := x.rxNext.set vc.toNat (n + 1),
                                           rxHeld := x.rxHeld.filter fun e => !(e.1 == vc && e.2.1 == n) }

/-- Flit `n` of a channel is whole: one that is there already is dropped. -/
def Port.take (x : Port) (vc : BitVec 2) (n : Nat) (flit : BitVec 2048) : Port :=
  let known := decide (n < x.nextIn vc) || x.rxHeld.any fun q => q.1 == vc && q.2.1 == n
  let y := if known then x else { x with rxHeld := x.rxHeld ++ [(vc, n, flit)] }
  (Port.deliver vc y.rxHeld.length y).govern vc

/-- Flit `n` of a channel arrives in five quarters: with one bad quarter it is rebuilt, with more it is asked for again. -/
def Port.arrive (x : Port) (vc : BitVec 2) (n : Nat) (quarters : List (Option (BitVec 512))) : Port :=
  let l := arrived x.rails quarters
  let replay := x.asked.contains (vc, n)
  if 2 ≤ l.countP Option.isNone then
    if replay then { x with replays := x.replays + 1 } else { x with asked := x.asked ++ [(vc, n)] }
  else
    ({ x with replays := if replay then 0 else x.replays, asked := x.asked.filter (· != (vc, n)),
              rebuilt := if (l.take 4).any Option.isNone then x.rebuilt + 1 else x.rebuilt } : Port).take vc n (flitOf l)

/-- A flit that arrives over a bridge is whole: UCIe has checked it (spec/14 R422). -/
def bridgeWhole (p : Nat) (quarters : List (Option (BitVec 512))) : Bool :=
  decide (p < 3) || (List.range 5).all fun k => (quarters.getD k none).isSome

/-- A flit of the given number arrives (spec/14 R425). -/
def execFlitArrive (d p : Nat) (vc : BitVec 2) (n : Nat) (quarters : List (Option (BitVec 512))) (s : State) : Out :=
  event s (s.channelThere d p && bridgeWhole p quarters) fun s => s.modPort d p fun y => y.arrive vc n quarters

/-- FLIT_RECEIVE: the flit arrives that its channel delivers next; a later one arrives by `flitArrive`. -/
def execFlitReceive (d p : Nat) (vc : BitVec 2) (quarters : List (Option (BitVec 512))) (s : State) : Out :=
  event s (s.channelThere d p && bridgeWhole p quarters) fun s =>
    s.modPort d p fun y => y.arrive vc (y.nextIn vc) quarters

/-- The oldest flit of a channel leaves its receiving buffer; a drained buffer ends the channel's pause (spec/14 R427). -/
def execFlitTake (d p : Nat) (vc : BitVec 2) (s : State) : Out :=
  event s (s.channelThere d p && (s.linkPort d p).rx.any fun q => q.1 == vc) fun s =>
    s.modPort d p fun x => ({ x with rx := x.rx.eraseIdx ((x.rx.findIdx? fun q => q.1 == vc).getD 0) } : Port).govern vc

/-- A flit leaves on a channel: on a paused one at most 64 more; it stays in the replay buffer until it is acknowledged
(spec/14 R425, R427). -/
def execFlitSend (d p : Nat) (vc : BitVec 2) (flit : BitVec 2048) (s : State) : Out :=
  let x := s.linkPort d p
  let stopped := x.paused &&& vcBit vc != 0 && decide (64 ≤ x.past.getD vc.toNat 0)
  let n := x.nextOut vc
  event s (s.channelThere d p && !stopped) fun s =>
    s.modPort d p fun x => { x with
      txNext := x.txNext.set vc.toNat (n + 1), unacked := x.unacked ++ [(vc, n, flit)], tx := x.tx ++ [(vc, n, flit)],
      past := x.past.set vc.toNat (x.past.getD vc.toNat 0 + 1) }

/-- The far end acknowledges a channel's flits up to number `n` (spec/14 R425). -/
def execFlitAck (d p : Nat) (vc : BitVec 2) (n : Nat) (s : State) : Out :=
  event s (s.channelThere d p) fun s =>
    s.modPort d p fun x => { x with unacked := x.unacked.filter fun q => !(q.1 == vc && decide (q.2.1 ≤ n)) }

/-- The far end asks for flit `n` of a channel again: it goes out from the replay buffer (spec/14 R425). -/
def execFlitAsk (d p : Nat) (vc : BitVec 2) (n : Nat) (s : State) : Out :=
  event s (s.channelThere d p) fun s =>
    s.modPort d p fun x => { x with tx := x.tx ++ x.unacked.filter fun q => q.1 == vc && q.2.1 == n }

/-! Flow control (spec/14 R427) -/

/-- PAUSE: the far end pauses a channel. -/
def execPause (d p : Nat) (vc : BitVec 2) (s : State) : Out :=
  event s (s.channelThere d p) fun s =>
    s.modPort d p fun x => { x with paused := x.paused ||| vcBit vc,
                                    past := if x.paused &&& vcBit vc == 0 then x.past.set vc.toNat 0 else x.past }

/-- RESUME: the far end lets a channel go on. -/
def execResume (d p : Nat) (vc : BitVec 2) (s : State) : Out :=
  event s (s.channelThere d p) fun s => s.modPort d p fun x => { x with paused := x.paused &&& ~~~ vcBit vc }

/-! Bridges (spec/14 R423) -/

/-- BRIDGE_ERROR: an uncorrectable error in the shared state of every partition that spans the bridge between two dies: its error
record, and the partition is fatal with cause 0x01 (spec/14 R423, spec/15 R456). -/
def execBridgeError (a b : Nat) (s : State) : Out :=
  event s (s.ctl.powered && !s.ctl.halted && decide (a < s.dies.length) && decide (b < s.dies.length) && a != b) fun s =>
    (List.range s.parts.length).foldl (fun s p =>
      if (s.part p).dies.contains a && (s.part p).dies.contains b then (s.addError p 3 1 0 0 0 0 0).declareFatal p 1 else s) s

end Sys2Proof.Machine
end

