-- ==== Sys2Proof/Machine/Tier.lean ====
section
/-! DEFINITION. The tier engine: fetch, evict, shootdown and `tlbinv`, screeds with their markers, and `tierq` (spec/13 R405 to
R420). -/

namespace Sys2Proof.Machine

/-! Shootdown (spec/13 R410, R411) -/

/-- Every store on its way from a wave of a partition is performed, but for those that a recovery hold keeps back. -/
def State.settleStores (s : State) (p : Nat) : State :=
  (List.range s.waves.length).foldl (fun s w => if (s.wave w).id.part == p && !s.storesHeld w then s.performAll w else s) s

/-- The accesses that a partition has in flight go to the old generation (spec/13 R410). -/
def State.turnGeneration (s : State) (p : Nat) : State :=
  let mine := fun (l : Nat) => (s.launch l).part == p
  let aods := fun (bs : List Barrier) => bs.map fun (b : Barrier) => { b with aods := b.aods.map fun (a : Aod) => { a with old := true } }
  { s with
    waves := s.waves.map fun (x : Wave) =>
      if x.id.part == p then { x with mem.storeQ := x.mem.storeQ.map fun (q : QStore) => { q with old := true } } else x,
    groups := s.groups.map fun (g : Group) =>
      if mine g.launch then { g with barriers := aods g.barriers, stagedOld := g.staging.map fun b => b.1 } else g,
    launches := s.launches.map fun (l : Launch) => if l.part == p then { l with barriers := aods l.barriers } else l,
    cores := s.cores.map fun (k : Core) => if k.part == p then { k with out := k.out.map fun e => (e.1, { e.2 with old := true }) } else k }

/-- An access of the old generation of a partition, in a physical range, has not been performed: a staged store, a store on its way
into staging or in a recovery hold, an ordered atomic that is held. -/
def State.oldIn (s : State) (p pa n : Nat) : Bool :=
  let within := fun (a : Nat) => decide (pa ≤ a) && decide (a < pa + n)
  let held := fun (bs : List Barrier) => bs.any fun b => b.aods.any fun a => a.old && a.addrs.any fun q => within q.2
  let queued := fun (q : QStore) => q.old && !q.sp && q.bytes.any fun c => within c.1
  (s.groups.any fun g => !g.ended && (s.launch g.launch).part == p && (held g.barriers || g.stagedOld.any within)) ||
  (s.launches.any fun l => l.part == p && held l.barriers) ||
  (s.waves.any fun x => x.id.part == p && x.mem.storeQ.any queued) || s.cores.any fun k => k.part == p && k.out.any fun e => queued e.2

/-- Translations that a shootdown of a partition drops. -/
def State.hits (s : State) (p : Nat) (f : Tlb → Bool) : List Tlb := s.dies.flatMap fun d => d.tlb.filter fun t => t.part == p && f t

/-- A shootdown's first stage: queued stores are performed, the translations are dropped everywhere, and what is in flight is of the
old generation from now on. -/
def State.shootdown (s : State) (p : Nat) (f : Tlb → Bool) : State :=
  ((s.settleStores p).dropTlb fun t => !(t.part == p && f t)).turnGeneration p

/-- A translation of a context that covers an address. -/
def Tlb.covers (c va : Nat) (t : Tlb) : Bool := t.ctx == c && decide (t.va ≤ va) && decide (va < t.va + t.size)

/-- The translations that a shootdown removes. -/
def ShootKind.hit : ShootKind → Tlb → Bool
  | .page c va, t => Tlb.covers c va t
  | .ctx c, t => t.ctx == c
  | .all, _ => true

/-- Commands and screed entries that wait for shootdown `n`, the evict of which a broken link has ended, have status 0x03
(spec/14 R432). -/
def State.evictLost (s : State) (p n : Nat) : State :=
  let lost := fun (c : TCmd) => if c.shoots.contains n then { c with begun := c.begun.map fun st => lowestStatus st 3 } else c
  let s := s.modPart p fun x => { x with tierQ := x.tierQ.map lost }
  { s with launches := s.launches.map fun (l : Launch) => if l.part != p then l else { l with screed := l.screed.map fun z =>
      { z with entries := z.entries.map fun (e : SEntry) =>
          if (e.shoots.getD []).contains n then { e with status := lowestStatus e.status 3 } else e } } }

/-- The end of a shootdown: an evict is finished, or, past a link that has broken since, its page stays as it was. -/
def State.endShoot (s : State) (p : Nat) (x : Shoot) : State :=
  match x.evict with
  | none => s
  | some m => match s.reach m.die m.home with
    | .broken => (s.releasePage m m.was).evictLost p x.seq
    | _ => s.finishEvict p m

/-- The shootdowns of a partition go on, one at a time in order of arrival: the first drops its translations, and is over when every
access of the old generation that obtained one has been performed, and no recovery hold keeps its copy back (spec/13 R410, spec/14
R431). The fuel bounds their steps. -/
def State.settleShoots (p : Nat) : Nat → State → State
  | 0, s => s
  | n + 1, s =>
    match (s.part p).shoots with
    | [] => s
    | x :: t =>
      match x.frames with
      | none =>
        let fs := (x.evict.toList.map fun m => (m.frame, pageSize m.level m.sz)) ++ (s.hits p x.what.hit).map fun t => (t.pa, t.size)
        State.settleShoots p n ((s.shootdown p x.what.hit).modPart p fun y => { y with shoots := { x with frames := some fs } :: t })
      | some fs =>
        if (fs.any fun q => s.oldIn p q.1 q.2) || x.evict.any (fun m => s.reach m.die m.home == .hold) then s
        else State.settleShoots p n ((s.endShoot p x).modPart p fun y => { y with shoots := t })

def State.advanceShoots (s : State) (p : Nat) : State := State.settleShoots p (2 * (s.part p).shoots.length) s

/-- Shootdown `n` of a partition has not completed. -/
def State.shootOpen (s : State) (p n : Nat) : Bool := (s.part p).shoots.any fun x => x.seq == n

/-- A shootdown takes its place behind those that have arrived, and goes on: its number, where it does not complete at once. -/
def State.startShoot (s : State) (p : Nat) (k : ShootKind) (evict : Option Moving := none) : State × Option Nat :=
  let n := (s.part p).nextShoot
  let s := (s.modPart p fun x =>
    { x with nextShoot := n + 1, shoots := x.shoots ++ [{ seq := n, what := k, frames := none, evict := evict }] }).advanceShoots p
  (s, if s.shootOpen p n then some n else none)

/-- A privileged invalidation stalls until its shootdown completes. -/
def invalidate (s : State) (w : Nat) (k : ShootKind) : Eff State :=
  let p := (s.wave w).id.part
  match (s.wave w).sch.shoot with
  | some n =>
    let s := s.advanceShoots p
    if s.shootOpen p n then .error (.stall .settle s) else .ok (s.modWave w fun y => { y with sch.shoot := none })
  | none => match s.startShoot p k with
    | (s, none) => .ok s
    | (s, some n) => .error (.stall .settle (s.modWave w fun y => { y with sch.shoot := some n }))

/-- An active context of the wave's partition. -/
def demandCtx (s : State) (w : Nat) (c : Word) (o : Opnd) : Eff Unit :=
  demand (decide (c.toNat < 64) && (s.ctx (s.wave w).id.part c.toNat).active) 0x02#6 (opndAddr o)

/-- `tlbinv.page` (spec/13 R411). -/
def execTlbinvPage (a b : Opnd) (s : State) : Out :=
  issue s fun w => do
    demandPriv s w
    checkOps s w [(a, .onlyS), (b, .si)]
    let c ← uni1 s w b
    demandCtx s w c b
    let va := readS s w 1 (regOf a)
    demand (decide (va.toNat < 2 ^ 57)) 0x10#6 va
    invalidate s w (.page c.toNat va.toNat)

/-- `tlbinv.ctx` (spec/13 R411). -/
def execTlbinvCtx (b : Opnd) (s : State) : Out :=
  issue s fun w => do
    demandPriv s w
    checkOps s w [(b, .si)]
    let c ← uni1 s w b
    demandCtx s w c b
    invalidate s w (.ctx c.toNat)

/-- `tlbinv.all` (spec/13 R411). -/
def execTlbinvAll (s : State) : Out :=
  issue s fun w => do
    demandPriv s w
    invalidate s w .all

/-! Fetch and evict as steps of the tier engine (spec/13 R407, R408) -/

/-- Evict (spec/13 R408): the page's leaf becomes tiered and busy, and its shootdown takes its place; with that, now or later, the
frame is copied and returned. The status, and the number of a shootdown that waits. -/
def State.evict (s : State) (p c va : Nat) : State × BitVec 8 × Option Nat :=
  match s.evictOf p c va with
  | .inr st => (s, st, none)
  | .inl m =>
    let r := (s.claimPage m).startShoot p (.page c va) (some m)
    (r.1, 0, r.2)

/-- An address of an active context. -/
def State.inContext (s : State) (p c : Nat) (va : Word) : Bool :=
  decide (p < s.parts.length) && (s.ctx p c).active && decide (va.toNat < 2 ^ 57)

/-- FETCH (spec/13 R407): the page of an address is fetched into the pool of a die. -/
def execFetch (p ctx : Nat) (va : BitVec 64) (die : Nat) (pin : Bool) (s : State) : Out :=
  event s (s.alive p && s.inContext p ctx va && (s.part p).dies.contains die && !s.fetchHeld p ctx die va.toNat) fun s =>
    (s.bringPage p ctx die pin va.toNat).1

/-- EVICT (spec/13 R408). -/
def execEvict (p ctx : Nat) (va : BitVec 64) (s : State) : Out :=
  event s (s.alive p && s.inContext p ctx va) fun s => (s.evict p ctx va.toNat).1

/-! Actions on regions (spec/13 R413) -/

/-- One action on the page of an address, other than evict. -/
def actPage (act : TierAct) (p c d : Nat) (s : State) (va : Nat) : State × BitVec 8 :=
  match act with
  | .fetch => s.bringPage p c d false va
  | .pin => s.bringPage p c d true va
  | .evict | .l2pf => (s, 0)
  | .unpin => match s.walk p c va with
    | .leaf pa level e => (s.setPin pa level e false, 0)
    | .tiered .. | .bad => (s, 0)

/-- Evicts of the pages of a region, in page order: the lowest non-zero status, and the shootdowns that wait. The fuel bounds the
number of pages. -/
def State.evictPages (p c stop : Nat) : Nat → State → Nat → BitVec 8 → List Nat → State × BitVec 8 × List Nat
  | 0, s, _, st, ns => (s, st, ns)
  | k + 1, s, va, st, ns =>
    if stop ≤ va || 2 ^ 57 ≤ va then (s, st, ns)
    else
      let size := match s.walk p c va with
        | .leaf _ l e | .tiered _ l e => pageSize l e.sz
        | .bad => 0x10000
      let r := s.evict p c va
      State.evictPages p c stop k r.1 (va / size * size + size) (lowestStatus st r.2.1) (ns ++ r.2.2.toList)

/-- An action on a region of `n` units of 64 KiB: the lowest non-zero status of its pages, and the shootdowns that wait. -/
def State.overRegion (s : State) (act : TierAct) (p c d va n : Nat) : State × BitVec 8 × List Nat :=
  if act == .evict then State.evictPages p c (va + 0x10000 * n) n s va 0 []
  else
    let r := State.overPages p c (actPage act p c d) (va + 0x10000 * n) n s va 0
    (r.1, r.2, [])

/-! Screeds (spec/13 R413 to R417) -/

/-- An action code. -/
def tierActOf (n : Nat) : Option TierAct :=
  match n with
  | 1 => some .fetch
  | 2 => some .evict
  | 3 => some .l2pf
  | 4 => some .pin
  | 5 => some .unpin
  | _ => none

/-- An entry of 32 bytes that obeys R413, its addresses moved by the offset. -/
def SEntry.ofBytes (dies : List Nat) (off : Word) (bs : List Byte) : Option SEntry :=
  let f := fieldOf bs
  let base := BitVec.ofNat 64 (f 8 8) + off
  let stamp := if f 24 8 == 0 then none else some (BitVec.ofNat 64 (f 24 8) + off)
  match tierActOf (f 20 1) with
  | none => none
  | some act =>
    if base.toNat % 0x10000 == 0 && decide (base.toNat < 2 ^ 57) && f 16 4 != 0 && dies.contains (f 21 1) && f 22 2 == 0 &&
        (act == .fetch || act == .pin || f 4 4 == 0) && (match stamp with | some a => a.toNat % 8 == 0 | none => true)
    then some { trig := f 0 4, needby := f 4 4, base := base, npage := f 16 4, action := act, die := f 21 1, stamp := stamp,
                started := false, ended := false, status := 0 }
    else none

/-- The ready marker; none when no marker is ready (spec/13 R416). -/
def Launch.readyMarker (x : Launch) : Option Nat :=
  let late : List Nat := match x.screed with
    | none => []
    | some z => (z.entries.filter fun (e : SEntry) => (e.action == .fetch || e.action == .pin) && !(e.ended && e.status == 0)).map fun e => e.needby
  let n := late.foldl min (2 ^ 32)
  if n = 0 then none else some (n - 1)

/-- `mark` (spec/13 R417): the marker takes effect, and a miss traps with the wave resuming after it; the instruction counts either
way (R420). -/
def execMark (imm : BitVec 32) (s : State) : Out :=
  issue s fun w => do
    let x := s.wave w
    let m := imm.toNat
    demand (decide ((s.waveGroup w).marker.toNat ≤ m)) 0x02#6
    forwarded s w
      (fun s w =>
        let miss := match (s.waveLaunch w).readyMarker with
          | some r => decide (r < m)
          | none => true
        .ok (s, { val := 0, pred := miss, trap := none }))
      fun s w f =>
        let s := (s.modGroup x.id.group fun g => { g with marker := imm }).followMarkers x.id.launch
        if f.pred then .error (.done (s.trapDone w { code := 0x0E#6, addr := imm.zeroExtend 64, resume := true })) else .ok s

/-! Commands (spec/01 R18, spec/13 R414, R418) -/

/-- A command of the tier engine is complete: its operation, with the registers it writes, and its event, in both copies of its wave
(spec/13 R414, spec/15 R451). -/
def State.endTier (s : State) (x : TCmd) (st : BitVec 8) (ds : List Dest) : State :=
  let told : Fwd := { val := st.zeroExtend 64, pred := false, trap := none }
  let s := ((s.modWave x.wave fun y => y.markReady x.key ds).postEvent x.wave st 0x40#8 x.num).modPart (s.wave x.wave).id.part fun p =>
    { p with tierQ := p.tierQ.filter fun y => y.wave != x.wave || y.key != x.key }
  match s.twinOf x.wave, x.twin with
  | some t, some k => (s.modWave t fun y => y.markReady k ds).postEvent t st 0x40#8 x.num
  | some t, none => s.modWave t fun y => { y with fwd := y.fwd.map fun f => if f.due == some x.key && f.what == 0 then { told with hm := f.hm } else f }
  | none, _ => s

/-- The table is read by the tier engine of the launch's owning die, checked and taken; the launch's screed starts. A launch that
holds a screed reads none: the one held changes nothing, another is refused. No value while a recovery hold covers the table. -/
def State.takeScreed (s : State) (x : TCmd) (va off : Word) (n : Nat) : Option (State × BitVec 8) :=
  let y := s.wave x.wave
  match (s.launch y.id.launch).screed with
  | some z => some (s, if z.addr == va && z.n == n && z.off == off then 0 else 2)
  | none =>
    match engReads { wave := x.wave, group := x.group, o := x.o, sc := x.sc, num := x.num, origin := x.origin,
                     die := some (s.owningDie y.id.launch) } s
        ((List.range n).map fun i => ((va + BitVec.ofNat 64 (32 * i)).toNat, 32)) with
    | .error .hold => none
    | .error (.status st) => some (s, st)
    | .ok (s, bs) =>
      let es := bs.map (SEntry.ofBytes (s.part y.id.part).dies off)
      if !(es.all Option.isSome) then some (s, 2)
      else
        let z : Screed := { addr := va, n := n, off := off, entries := es.filterMap id }
        some ((s.modLaunch y.id.launch fun l => { l with screed := some z }).startEntries y.id.launch, 0)

/-- The stamp of a request is written, through the staging of every copy, after its release; then the request is complete. It waits
while a recovery hold covers the stamp. -/
def State.endRegion (s : State) (x : TCmd) (st : BitVec 8) (stamp : Option Word) : State :=
  let id := (s.wave x.wave).id
  let d := s.waveDie x.wave
  match stamp with
  | none => s.endTier x st []
  | some a =>
    if s.stampWaits x.group d id.part id.ctx a then s
    else
      let q := s.stampFor x.group d id.part id.ctx false x.wave x.o x.sc x.origin a st
      let s := match (q.1.group x.group).sibling with
        | some t => q.1.writeStamp t d id.part id.ctx false a st
        | none => q.1
      (s.releaseDone x.group x.o x.sc).endTier x (match q.2 with
        | .ok _ => st
        | .error e => lowestStatus st e) []

/-- A command that has not begun must wait: in a stopped or pre-empted partition, with the acquire flag for its wave's earlier ordered
atomics that are held (spec/01 R25), and for pages that cannot be fetched yet. -/
def State.tierWaits (s : State) (x : TCmd) : Bool :=
  let id := (s.wave x.wave).id
  s.engineHeld x.group || s.acquireWaits x.wave x.key x.o || match x.op with
    | .region act d va n _ => s.regionHeld act id.part id.ctx d va.toNat n
    | .screed .. | .launch .. => false

/-- A command goes as far as it can: it begins, waits for the shootdowns of its evicts, and completes. -/
def State.tierStep (s : State) (x : TCmd) : State :=
  let id := (s.wave x.wave).id
  match x.begun, x.op with
  | some st, .region _ _ _ _ stamp => if x.shoots.any (s.shootOpen id.part) then s else s.endRegion x st stamp
  | some _, _ => s
  | none, op =>
    if s.tierWaits x then s
    else match op with
      | .region act d va n stamp =>
        let r := s.overRegion act id.part id.ctx d va.toNat n
        let y := { x with begun := some r.2.1, shoots := r.2.2 }
        let s := r.1.modPart id.part fun p =>
          { p with tierQ := p.tierQ.map fun c => if c.wave == x.wave && c.key == x.key then y else c }
        if r.2.2.isEmpty then s.endRegion y r.2.1 stamp else s
      | .screed va off n => match s.takeScreed x va off n with
        | none => s
        | some (s, st) => s.endTier x st []
      | .launch va d hb => match s.launchRead x.wave x.o x.sc va.toNat with
        | .hold => s
        | .failed => s.endTier x 0 [.s d hb (launchWord 8 0)]
        | .got s bs =>
          let s := s.raceEngine x.wave { kind := .load, acq := Order.acquires x.o, rel := false, sc := x.sc } x.origin [(va.toNat, 128)]
          let r := s.accept id.part bs (some id.ctx) .device
          r.1.endTier x 0 [.s d hb (launchWord r.2.1 r.2.2)]

/-- What waits in the tier engines of a partition goes on: shootdowns, then commands, in order of arrival. -/
def State.advanceTier (s : State) (p : Nat) : State :=
  let s := s.advanceShoots p
  (s.part p).tierQ.foldl State.tierStep s

/-- SHOOTDOWN: of every translation of a partition; where shootdowns or commands wait, they go on. -/
def execShootdown (p : Nat) (s : State) : Out :=
  let idle := (s.part p).shoots.isEmpty && (s.part p).tierQ.isEmpty
  event s (s.alive p) fun s => if idle then (s.startShoot p .all).1 else s.advanceTier p

/-- A command of a wave is counted, and goes as far as it can at once (spec/01 R18); the wave's queued stores are performed first. A
twin sends none: its operation completes with its primary's (spec/15 R451). -/
def sendTier (op : TOp) (o : Order) (sc : Scope) (s : State) (w : Nat) : Eff State :=
  let x := s.wave w
  let counted := fun (s : State) => s.modWave w fun y => { y.count .cp false [] with num.tier := y.num.tier + 1 }
  let key := x.num.key
  if (s.waveGroup w).copy == .twin then
    match x.told with
    | none => .error (.stall (.twin x.atListed) s)
    | some (f, rest) =>
      let s := counted (s.modWave w fun y => { y with fwd := rest })
      match f.due, s.twinOf w with
      | some k, some v => .ok (s.modPart x.id.part fun p =>
          { p with tierQ := p.tierQ.map fun c => if c.wave == v && c.key == k then { c with twin := some key } else c })
      | _, _ => .ok ((s.modWave w fun y => y.markReady key []).postEvent w (f.val.extractLsb' 0 8) 0x40#8 x.num.tier)
  else do
    demandSent s w
    let s := counted (s.performAll w)
    let s := match s.twinOf w with
      | some t =>
        let f : Fwd := { val := 0, pred := false, trap := none, due := some key, hm := x.tr.hm }
        s.modWave t fun y => { y with fwd := y.fwd ++ [f] }
      | none => s
    let cmd : TCmd := { op := op, wave := w, group := x.id.group, key := key, num := x.num.tier, o := o, sc := sc, pos := x.pos }
    pure ((s.modPart x.id.part fun p => { p with tierQ := p.tierQ ++ [cmd] }).tierStep cmd)

/-- `scrdl` (spec/13 R414). -/
def execScrdl (o : Order) (sc : Scope) (a b c : Opnd) (s : State) : Out :=
  issue s fun w => do
    checkOps s w [(a, .onlyS), (b, .count), (c, .si)]
    demand (zeroImm c) 0x02#6 (opndAddr c)
    let n ← uni1 s w b
    demand (decide (1 ≤ n.toNat) && decide (n.toNat ≤ 4096)) 0x02#6 (opndAddr b)
    let va := readS s w 1 (regOf a)
    demand (va.toNat % 32 == 0) 0x11#6 va
    let off ← uniOf s w (s.wave w).exec 3 c
    roomFor s w .cp
    sendTier (.screed va off n.toNat) o sc s w

/-- SCREED_ENTRY_END (spec/13 R415): a started entry comes to its end: pages that had to wait are fetched, or its evicts begin; once
none of them waits it ends, the ready marker rises, and its stamp is written; in a pre-empted partition and for a complete launch too
(R414, R419). -/
def execScreedEntryEnd (l k : Nat) (s : State) : Out :=
  let x := s.launch l
  match x.screed.bind fun z => z.entries[k]? with
  | none => .next s
  | some e =>
    let put := fun (s : State) (e : SEntry) => s.modLaunch l fun y => { y with screed := y.screed.map fun z =>
      { z with entries := z.entries.set k e } }
    let held := match e.stamp with
      | some a => s.stampWaits s.groups.length (s.owningDie l) x.part x.r.ctx a
      | none => false
    let ends := fun (s : State) (st : BitVec 8) =>
      let s := put s { e with ended := true, status := st }
      match e.stamp with
      | none => s
      | some a => s.writeStamp s.groups.length (s.owningDie l) x.part x.r.ctx true a st
    let waits := match e.shoots with
      | some ns => ns.any (s.shootOpen x.part)
      | none => s.regionHeld e.action x.part x.r.ctx e.die e.base.toNat e.npage
    event s (s.alive x.part && e.started && !e.ended && !held && !waits) fun s =>
      match e.action, e.shoots with
      | .fetch, _ | .pin, _ =>
        let r := if e.late then s.overRegion e.action x.part x.r.ctx e.die e.base.toNat e.npage else (s, 0, [])
        ends r.1 (lowestStatus e.status r.2.1)
      | .evict, some _ => ends s e.status
      | act, _ =>
        let r := s.overRegion act x.part x.r.ctx e.die e.base.toNat e.npage
        if r.2.2.isEmpty then ends r.1 r.2.1 else put r.1 { e with status := r.2.1, shoots := some r.2.2 }

/-! Explicit requests (spec/13 R418) -/

/-- `tierq` (spec/13 R418). -/
def execTierq (o : Order) (sc : Scope) (die : BitVec 2) (a b c : Opnd) (act : TierAct) (s : State) : Out :=
  issue s fun w => do
    checkOps s w [(a, .onlyS), (b, .count), (c, .si)]
    demand (zeroImm c) 0x02#6 (opndAddr c)
    demand ((s.part (s.wave w).id.part).dies.contains die.toNat) 0x02#6
    let n ← uni1 s w b
    demand (decide (1 ≤ n.toNat) && decide (n.toNat < 2 ^ 32)) 0x02#6 (opndAddr b)
    let va := readS s w 1 (regOf a)
    let st ← uniOf s w (s.wave w).exec 3 c
    let stamp := match c with
      | .imm _ => none
      | _ => some st
    demand (va.toNat % 0x10000 == 0) 0x11#6 va
    demand (st.toNat % 8 == 0) 0x11#6 st
    demand (decide (va.toNat < 2 ^ 57)) 0x10#6 va
    roomFor s w .cp
    sendTier (.region act die.toNat va n.toNat stamp) o sc s w

end Sys2Proof.Machine
end

