-- ==== Sys2Proof/Machine/Controller.lean ====
section
/-! DEFINITION. The Stoelion controller: power, boot and attestation, partitions, the register window and the mailbox commands,
the bellows, temperatures, and `enrd` (spec/16 R458 to R472). -/

namespace Sys2Proof.Machine

/-! Power (spec/16 R458, R471) -/

/-- POWER_ON: the ROM checks the firmware image in flash; one that verifies brings the package up. -/
def execPowerOn (s : State) : Out :=
  event s (!s.ctl.powered) fun s =>
    let ok := Config.firmwareVerifies s.ctl.flash
    { s with ctl := { s.ctl with powered := true, ready := ok, fwFailed := !ok, osc := 0 } }

/-- Own memory moves to the window of another rank. -/
def Memory.rerank (m : Memory) (own new : Nat) : Memory :=
  let inOf := fun (r : Nat) (c : Host.Cell) => decide (windowBytes * r ≤ c.1) && decide (c.1 < windowBytes * (r + 1))
  (m.filter (inOf own)).foldl (fun acc c => acc.write (c.1 % windowBytes + windowBytes * new) c.2)
    (m.filter fun c => !inOf own c && !inOf new c)

/-- Memory that is no device's state: that of the host and of other packages. -/
def State.outside (s : State) (c : Host.Cell) : Bool := c.1 / windowBytes != s.ctl.podRank.toNat || s.isHost c.1

/-- LOSS_OF_PACKAGE_POWER: no state of the device survives but the flash. -/
def execLossOfPackagePower (s : State) : Out :=
  event s s.ctl.powered fun s =>
    { State.resetOf s.ctl.form with
      mem := Memory.rerank (s.mem.filter s.outside) s.ctl.podRank.toNat 0,
      ctl := { Ctl.reset with form := s.ctl.form, flash := s.ctl.flash }, fresh := s.fresh }

/-- Every wave stops. -/
def State.stopWaves (s : State) : State := { s with waves := s.waves.map fun x => { x with sch.halted := true } }

/-- The thresholds, in units of 1/16 °C. -/
def throttleAt : Nat := 1600
def haltAt : Nat := 1840

/-- A die's temperature is read; a crossing of 100 °C is signalled by vector 2. -/
def State.readTemp (s : State) (d : Nat) (t : Word) : State :=
  let hot := decide (throttleAt < t.toNat)
  let crossed := (s.die d).throttled != hot
  let s := s.modDie d fun x => { x with temp := t, throttled := hot }
  if crossed then s.raiseVector 2 else s

/-- The controller works, and the die is there. -/
def State.senses (s : State) (d : Nat) : Bool := s.ctl.powered && !s.ctl.halted && decide (d < s.dies.length)

/-- THROTTLE (spec/16 R471): above 100 °C a die's issue rate is lowered, which is timing only. -/
def execThrottle (d : Nat) (t : BitVec 64) (s : State) : Out :=
  event s (s.senses d && decide (throttleAt < t.toNat) && decide (t.toNat < haltAt)) fun s => s.readTemp d t

/-- TEMPERATURE_FALLS (spec/16 R471): the controller reads a temperature of at most 100 °C, of a throttled die or of another. -/
def execTemperatureFalls (d : Nat) (t : BitVec 64) (s : State) : Out :=
  event s (s.senses d && decide (t.toNat ≤ throttleAt)) fun s => s.readTemp d t

/-- THERMAL_HALT (spec/16 R471): at 115 °C the package halts until power is cycled. -/
def execThermalHalt (d : Nat) (t : BitVec 64) (s : State) : Out :=
  event s (s.senses d && decide (haltAt ≤ t.toNat)) fun s =>
    let s := (s.readTemp d t).stopWaves
    { s with ctl.halted := true }

/-! The bellows (spec/16 R467) -/

/-- One partition's account after a µs. -/
def Partition.refill (p : Partition) (drained osc : Nat) : Partition :=
  { p with bellowsB := min (p.cap : Int) (p.bellowsB + p.rate - drained), drained := p.drained + drained, updated := osc }

/-- Energy metered on the cores of the resident groups, which their launches draw (spec/12 R379). -/
def State.meterGroups (s : State) : State :=
  (List.range s.groups.length).foldl (fun s g =>
    if (s.group g).ended then s
    else
      let e := Config.metered s.fresh (4 + g)
      (s.modGroup g fun x => { x with metered := x.metered + e }).modLaunch (s.group g).launch fun l => { l with energy := l.energy + e }) s

/-- BELLOWS_UPDATE: a µs of the oscillator has passed. -/
def execBellowsUpdate (s : State) : Out :=
  event s (s.ctl.ready && !s.ctl.halted) fun s =>
    let osc := s.ctl.osc + 1
    let s := { s with
      ctl.osc := osc,
      parts := (s.parts.zipIdx).map fun (q : Partition × Nat) => q.1.refill (Config.metered s.fresh q.2) osc }
    s.meterGroups

/-- `enrd` (spec/16 R469). -/
def execEnrd (d a : Opnd) (s : State) : Out :=
  issue s fun w => do
    checkOps s w [(d, .onlyS), (a, .count)]
    let k ← uni1 s w a
    demand (decide (k.toNat < 4)) 0x02#6 (opndAddr a)
    forwarded s w
      (fun s w =>
        let n := (s.wave w).id.part
        let p := s.part n
        let v := match k.toNat with
          | 0 => BitVec.ofInt 64 p.bellowsB
          | 1 => BitVec.ofNat 64 p.cap
          | 2 => BitVec.ofNat 64 p.rate
          | _ => BitVec.ofNat 64 (s.commitment n)
        .ok (s, { val := v, pred := false, trap := none }))
      fun s w f => s.putScalar w d f.val

/-! The mailbox (spec/16 R462, R464) -/

/-- Bytes of the mailbox. -/
def Ctl.mail (c : Ctl) (off n : Nat) : Nat := c.mailbox.readLe off n

def State.setMail (s : State) (off : Nat) (bs : List Byte) : State := { s with ctl.mailbox := s.ctl.mailbox.writeAll (placed off bs) }

/-- A command ends: RESULT, then STATUS, then vector 0. -/
def State.answer (s : State) (status : Nat) (result : List (Nat × List Byte)) : State :=
  ((result.foldl (fun s r => s.setMail r.1 r.2) s).setMail 1 (leBytes 1 status)).raiseVector 0

/-- Every byte of OPER that a command does not use is zero. -/
def Ctl.unusedZero (c : Ctl) (used : List (Nat × Nat)) : Bool :=
  (List.range 248).all fun i =>
    let o := 8 + i
    used.any (fun u => decide (u.1 ≤ o) && decide (o < u.1 + u.2)) || c.mailbox.read o == 0

/-- The controller runs a submitted command with a code. -/
def State.submitted (s : State) (code : Nat) : Bool :=
  s.ctl.powered && !s.ctl.halted && (s.ctl.ready || s.ctl.fwFailed) && s.ctl.mail 1 1 == 0xFF && s.ctl.mail 0 1 == code

/-- What a command comes to: a status with results, or it has still to run on. -/
inductive Ran where
  | done (s : State) (status : Nat) (result : List (Nat × List Byte))
  | runs (s : State)

/-- A command that is done at once, without results. -/
def Ran.plain (s : State) : Ran := .done s 0 []
/-- A command that is refused. -/
def Ran.refused (s : State) (status : Nat) : Ran := .done s status []

/-- A mailbox command with the OPER bytes that it uses. Firmware that failed verification leaves only the loading of an image:
the state allows no other command (spec/16 R458, R462). -/
def command (code : Nat) (used : List (Nat × Nat)) (act : State → Ran) (s : State) : Out :=
  event s (s.submitted code) fun s =>
    if !s.ctl.unusedZero used then s.answer 1 []
    else if !s.ctl.ready && code != 0x10 then s.answer 3 []
    else match act s with
      | .done s' st r => s'.answer st r
      | .runs s' => s'

/-- The partition that a command names. -/
def Ctl.partOf (c : Ctl) : Nat := c.mail 8 1

/-- Some context is active. -/
def State.anyActive (s : State) : Bool := s.parts.any fun p => p.ctxs.any fun c => c.active

/-! Partitions (spec/16 R460, R464) -/

/-- The dies of partition `p` of `n`, of a part with `m` dies. -/
def diesOf (m n p : Nat) : List Nat := (List.range (m / n)).map fun i => p * (m / n) + i

/-- The limit that binds the bellows, in W (spec/16 R468). -/
def Ctl.limitNow (c : Ctl) : Nat := if c.form == .m860 then 3000 else c.limit

/-- A region of 32 MiB that the controller reserves in the HBM of a partition's first die: an offset in the window. -/
def reservedRegion (dies : List Nat) (p kind : Nat) : Nat :=
  hbmPerDie * dies.headD 0 + 0x2000000 * (Config.reservedSlot p kind % (hbmPerDie / 0x2000000))

/-- A partition as it is formed. -/
def Partition.formed (c : Ctl) (n p share : Nat) : Partition :=
  let rate := c.limitNow / n
  let dies := diesOf c.form.dies n p
  { dies := dies, l1share := share, run := .running, image := .none, imaged := none, fatal := none, errs := [],
    ctxs := List.replicate 64 default, queues := List.replicate 8 none, launches := 0, pools := [], bellowsB := 1000 * rate,
    cap := 1000 * rate, rate := rate, drained := 0, updated := c.osc, dump := reservedRegion dies p 0,
    imageBase := reservedRegion dies p 1, nextQ := 0 }

/-- FORM_PARTITIONS (code 0x01; spec/16 R460). More partitions than the package has dies are refused with status 0x01: the table of
die sets is that of four dies, and what the one-die 860D does with a count of 2 or 4 the spec does not say (DESIGN CHOICE: log
entry 56). -/
def execFormPartitions (s : State) : Out :=
  let n := s.ctl.mail 8 1
  command 0x01 [(8, 1), (9, if n ≤ 4 then n else 0)] (fun s =>
    if (n != 1 && n != 2 && n != 4) || s.ctl.form.dies < n || (List.range n).any fun p => decide (4 < s.ctl.mail (9 + p) 1) then .refused s 1
    else if s.anyActive || s.parts.any fun p => p.image == .shadow then .refused s 3
    else
      let ps := (List.range n).map fun p => Partition.formed s.ctl n p (s.ctl.mail (9 + p) 1)
      .done { s with parts := ps, ctl.formed := n, quads := [] } 0 ((ps.zipIdx).flatMap fun q =>
        [(256 + 16 * q.2, leBytes 8 (s.ownWindow + q.1.dump)), (264 + 16 * q.2, leBytes 8 (s.ownWindow + q.1.imageBase))])) s

/-- A host queue's header obeys R367. -/
def queueHeaderOk (bs : List Byte) : Bool :=
  let f := fieldOf bs
  f 16 8 % 64 == 0 && decide (4 ≤ f 24 1) && decide (f 24 1 ≤ 16) && decide (4 ≤ f 25 1) && decide (f 25 1 ≤ 16) && f 26 6 == 0 &&
  zeroRange bs 48 16

/-- REGISTER_HOST_QUEUE (code 0x02). -/
def execRegisterHostQueue (s : State) : Out :=
  command 0x02 [(8, 2), (16, 8)] (fun s =>
    let p := s.ctl.partOf
    let q := s.ctl.mail 9 1
    let base := s.ctl.mail 16 8
    if s.parts.length ≤ p || 8 ≤ q || base % 4096 != 0 then .refused s 1
    else if ((s.part p).queue q).isSome then .refused s 2
    else match s.physRead base 64 with
      | none => .refused s 1
      | some bs =>
        if !queueHeaderOk bs then .refused s 1
        else .plain (s.modPart p fun x => { x with queues := x.queues.set q (some { base := base, prod := leValue (takeBytes bs 8 8), waiting := [] }) })) s

/-- UNREGISTER_HOST_QUEUE (code 0x03). -/
def execUnregisterHostQueue (s : State) : Out :=
  command 0x03 [(8, 2)] (fun s =>
    let p := s.ctl.partOf
    let q := s.ctl.mail 9 1
    if s.parts.length ≤ p || 8 ≤ q then .refused s 1
    else match (s.part p).queue q with
      | none => .refused s 3
      | some h =>
        if s.mem.readLe h.base 8 != s.mem.readLe (h.base + 8) 8 || !h.waiting.isEmpty then .refused s 2
        else .plain (s.modPart p fun x => { x with queues := x.queues.set q none })) s

/-- SET_BELLOWS (code 0x04; spec/16 R468). -/
def execSetBellows (s : State) : Out :=
  command 0x04 [(8, 1), (16, 16)] (fun s =>
    let p := s.ctl.partOf
    let cap := s.ctl.mail 16 8
    let rate := s.ctl.mail 24 8
    let others := (((s.parts.zipIdx).filter fun q => q.2 != p).map fun q => q.1.rate).sum
    if s.parts.length ≤ p || s.ctl.limitNow < others + rate || 2 ^ 40 < cap then .refused s 1
    else .plain (s.modPart p fun x => { x with cap := cap, rate := rate })) s

/-- SET_PACKAGE_LIMIT (code 0x05; spec/16 R472). -/
def execSetPackageLimit (s : State) : Out :=
  command 0x05 [(16, 8)] (fun s =>
    let w := s.ctl.mail 16 8
    if s.ctl.form == .m860 || s.ctl.limitWritten then .refused s 3
    else if (if s.ctl.form == .p860 then 2800 else 640) < w then .refused s 1
    else .plain { s with ctl := { s.ctl with limit := w, limitWritten := true } }) s

/-- SET_FRAME_POOL (code 0x06; spec/13 R406). -/
def execSetFramePool (s : State) : Out :=
  command 0x06 [(8, 2), (16, 24)] (fun s =>
    let p := s.ctl.partOf
    let d := s.ctl.mail 9 1
    let base := s.ctl.mail 16 8
    let size := s.ctl.mail 24 8
    let recs := s.ctl.mail 32 8
    let hbm := s.ownWindow + hbmPerDie * d
    let block := 0x2000000
    if s.parts.length ≤ p || !(s.part p).dies.contains d || base % block != 0 || size % block != 0 || base < hbm ||
        hbm + hbmPerDie < base + size || recs % 8 != 0 || !s.mapped recs || (recs < base + size && base < recs + size / 8192) then
      .refused s 1
    else
      let whole := fun (b n : Nat) => (List.range (n / block)).map fun i => (9, b + block * i)
      let taken := match (s.part p).pool d with
        | some q => ((q.free.map fun (f : Nat × Nat) => 0x10000 * 2 ^ f.1).sum) != q.size
        | none => false
      if taken then .refused s 2
      else .plain (s.modPart p fun x => { x with
        pools := (x.pools.filter fun (q : Pool) => q.die != d) ++ [({ die := d, base := base, size := size, recs := recs, free := whole base size } : Pool)] })) s

/-- No partition uses the routes of die `d`: the one that holds the die is saved or idle (spec/14 R429). -/
def State.routesFree (s : State) (d : Nat) : Bool :=
  (List.range s.parts.length).all fun p => !(s.part p).dies.contains d || (s.part p).run == .saved || s.liveLaunches p == 0

/-- WRITE_ROUTE_TABLE (code 0x07). -/
def execWriteRouteTable (s : State) : Out :=
  command 0x07 [(8, 1), (16, 64)] (fun s =>
    let d := s.ctl.mail 8 1
    let es := (List.range 64).map fun n => s.ctl.mailbox.read (16 + n)
    if s.dies.length ≤ d ||
        es.any fun e => e.extractLsb' 4 3 != 0#3 || e.extractLsb' 2 2 == 3#2 || s.dies.length ≤ (e.extractLsb' 0 2).toNat then .refused s 1
    else if !s.routesFree d then .refused s 3
    else .plain (s.reroute d es)) s

/-- SET_POD_RANK (code 0x08): the package's memory is addressed through the window of its new rank (spec/13 R398). -/
def execSetPodRank (s : State) : Out :=
  command 0x08 [(8, 1)] (fun s =>
    let r := s.ctl.mail 8 1
    let own := s.ctl.podRank.toNat
    if 64 ≤ r then .refused s 1
    else if s.anyActive then .refused s 3
    else if r == own then .plain s
    else .plain { s with
      mem := s.mem.rerank own r,
      lost := s.lost.filterMap fun x =>
        if 32 * x / windowBytes == own then some (x % (windowBytes / 32) + windowBytes / 32 * r)
        else if 32 * x / windowBytes == r then none else some x,
      ctl.podRank := BitVec.ofNat 6 r }) s

/-! Pre-emption and images (spec/11 R359, R362) -/

/-- A save or restore by the controller: the result of R362 when it is finished or refused. -/
def moveState (save : Bool) (s : State) : Ran :=
  let p := s.ctl.partOf
  let ended := fun (s : State) (v : Word) => Ran.done { s with ctl.await := none } 0 [(256, leBytes 8 v.toNat)]
  match s.ctl.await with
  | some q => match s.prmtResult q.1 q.2 with
    | some v => ended s v
    | none => .runs s
  | none =>
    if s.parts.length ≤ p then .refused s 1
    else if !(if save then s.canSave p else s.canRestore p) then ended s 2
    else
      let n := (s.part p).moved.length
      let s := if save then s.requestSave p else s.requestRestore p
      .runs { s with ctl.await := some (p, n) }

/-- PRE_EMPT (code 0x09). -/
def execPreEmpt (s : State) : Out := command 0x09 [(8, 1)] (moveState true) s

/-- RESTORE (code 0x0A). -/
def execRestore (s : State) : Out := command 0x0A [(8, 1)] (moveState false) s

/-- MOVE_IMAGE (code 0x0B). -/
def execMoveImage (s : State) : Out :=
  command 0x0B [(8, 2)] (fun s =>
    let p := s.ctl.partOf
    let back := s.ctl.mail 9 1
    if s.parts.length ≤ p || 2 ≤ back then .refused s 1
    else if (s.part p).run != .saved || (s.part p).image != (if back == 0 then ImageAt.shadow else .region) then .refused s 3
    else .plain (s.modPart p fun x =>
      if back == 0 then { x with image := .region, imaged := some s.fresh } else { x with image := .shadow })) s

/-- A fatal partition comes back without contexts, launches or waves. -/
def State.clearPartition (s : State) (p : Nat) : State :=
  let mine := fun (l : Nat) => (s.launch l).part == p
  let s := { s with
    groups := s.groups.map fun (g : Group) => if mine g.launch then { g with ended := true, staging := [], stagedWhole := [], stagedOld := [], snap := none } else g,
    waves := s.waves.map fun (x : Wave) => if x.id.part == p then { x with sch.ended := true } else x,
    launches := s.launches.map fun (l : Launch) => if l.part == p then { l with complete := true } else l,
    cores := s.cores.map fun (k : Core) => if k.part == p then Core.fresh p k.phys k.logical k.twin else k,
    quads := s.quads.map fun (q : Quad) => { q with slots := q.slots.filter fun (x : NCmd) => !mine (s.group x.group).launch },
    insts := s.insts.filter fun (i : CollInst) => !mine i.launch,
    dies := s.dies.map fun (d : Die) =>
      { d with tlb := d.tlb.filter (fun (t : Tlb) => t.part != p), heapQ := d.heapQ.filter (fun (h : HCmd) => !mine (s.group h.group).launch) } }
  s.modPart p fun x => { x with fatal := none, run := .running, image := .none, ctxs := List.replicate 64 default, shoots := [],
                                queues := x.queues.map fun q => q.map fun h => { h with waiting := [] } }

/-- RESET_PARTITION (code 0x0C; spec/11 R364). -/
def execResetPartition (s : State) : Out :=
  command 0x0C [(8, 1)] (fun s =>
    let p := s.ctl.partOf
    if s.parts.length ≤ p then .refused s 1
    else if (s.part p).fatal.isNone then .refused s 3
    else .plain (s.clearPartition p)) s

/-- What an invalidation of the controller names. -/
def shootOf (kind c va : Nat) : ShootKind :=
  match kind with
  | 0 => .page c va
  | 1 => .ctx c
  | _ => .all

/-- INVALIDATE_TRANSLATIONS (code 0x0D; spec/13 R411): the command runs on until its shootdown completes. -/
def execInvalidateTranslations (s : State) : Out :=
  let kind := s.ctl.mail 9 1
  command 0x0D ([(8, 2)] ++ (if kind ≤ 1 then [(10, 1)] else []) ++ if kind == 0 then [(16, 8)] else []) (fun s =>
    let p := s.ctl.partOf
    let c := s.ctl.mail 10 1
    let va := s.ctl.mail 16 8
    match s.ctl.shoot with
    | some q =>
      let s := s.advanceShoots q.1
      if s.shootOpen q.1 q.2 then .runs s else .plain { s with ctl.shoot := none }
    | none =>
      if s.parts.length ≤ p || 3 ≤ kind || 64 ≤ c || 2 ^ 57 ≤ va then .refused s 1
      else match s.startShoot p (shootOf kind c va) with
        | (s, none) => .plain s
        | (s, some n) => .runs { s with ctl.shoot := some (p, n) }) s

/-! Attestation, error records, firmware, aperture -/

/-- The report of R459 on a nonce. -/
def State.report (s : State) (nonce : List Byte) : List Byte :=
  let mask := fun p => leBytes 1 (if p < s.parts.length then (s.part p).dieMask else 0)
  let body := leBytes 4 0x5A86A77E ++ leBytes 4 (Config.firmwareVersion s.ctl.flash).toNat ++ sha384 s.ctl.flash ++ keyHash ++ nonce ++
    leBytes 1 s.parts.length ++ mask 0 ++ mask 1 ++ mask 2 ++ mask 3 ++ leBytes 3 0 ++ leBytes 16 0
  body ++ signatureOf s.fresh body

/-- ATTESTATION_REPORT (code 0x0E). -/
def execAttestationReport (s : State) : Out :=
  command 0x0E [(16, 32)] (fun s => .done s 0 [(256, s.report (s.ctl.mailbox.readN 16 32))]) s

/-- READ_ERROR_RECORDS (code 0x0F). -/
def execReadErrorRecords (s : State) : Out :=
  command 0x0F [(8, 1), (16, 4)] (fun s =>
    let p := s.ctl.partOf
    let i := s.ctl.mail 16 4
    if s.parts.length ≤ p then .refused s 1
    else .done s 0 ((List.range 4).map fun k => (256 + 64 * k, (s.part p).errs.getD (i + k) (List.replicate 64 0#8)))) s

/-- LOAD_FIRMWARE_IMAGE (code 0x10): the image is read from host memory into the flash. -/
def execLoadFirmwareImage (s : State) : Out :=
  command 0x10 [(16, 16)] (fun s =>
    let a := s.ctl.mail 16 8
    let n := s.ctl.mail 24 8
    if !(s.isHost a) || !(s.isHost (a + n - 1)) then .refused s 1
    else .plain { s with ctl.flash := s.mem.readN a n }) s

/-- POSITION_APERTURE (code 0x11). -/
def execPositionAperture (s : State) : Out :=
  command 0x11 [(16, 8)] (fun s =>
    let o := s.ctl.mail 16 8
    if o % 2 ^ 36 != 0 || windowBytes ≤ o then .refused s 1
    else .plain { s with ctl.aperture := o }) s

/-! The windows of the host link (spec/16 R461, R463) -/

/-- The codes of R464. -/
def knownCode (c : Nat) : Bool := decide (1 ≤ c) && decide (c ≤ 0x11)

/-- What a read of BAR0 returns: zero at reserved offsets and of what is only written (spec/16 R463). -/
def State.register (s : State) (o : Nat) : Word :=
  let i := o / 8 % 16
  if 0x1000 ≤ o ∧ o < 0x1200 then BitVec.ofNat 64 (s.ctl.mail (o - 0x1000) 8)
  else if 0x2000 ≤ o ∧ o < 0x2060 ∧ i / 3 < s.dies.length then (s.linkPort (i / 3) (i % 3)).lstat
  else if 0x2100 ≤ o ∧ o < 0x2120 ∧ i < s.dies.length then (s.die i).temp
  else if 0x2200 ≤ o ∧ o < 0x2220 ∧ i < s.dies.length then (s.die i).corrected
  else if o = 0x2300 then
    BitVec.ofNat 64 (s.ctl.ready.toNat + 2 * s.ctl.fwFailed.toNat + 4 * (s.dies.any Die.throttled).toNat + 16 * s.ctl.formed +
      256 * s.ctl.podRank.toNat)
  else if o = 0x2308 then s.ctl.cause.zeroExtend 64
  else 0

/-- The mailbox doorbell: a command is submitted unless one runs; an unknown code ends at once with 0x01. -/
def State.submit (s : State) : State :=
  if s.ctl.mail 1 1 == 0xFF then s
  else if !knownCode (s.ctl.mail 0 1) then s.answer 1 []
  else s.setMail 1 [0xFF#8]

/-- Eight bytes that the host writes into the mailbox; STATUS is the controller's. -/
def State.hostMail (s : State) (o : Nat) (v : Word) : State :=
  let st := s.ctl.mailbox.read 1
  let s := s.setMail o (leBytes 8 v.toNat)
  if o == 0 then s.setMail 1 [st] else s

/-- The host link is up. -/
def Ctl.linked (c : Ctl) : Bool := c.powered && !c.halted && (c.ready || c.fwFailed)

/-- REGISTER_WRITE: eight bytes written at an offset of BAR0. -/
def execRegisterWrite (off : BitVec 24) (v : BitVec 64) (s : State) : Out :=
  let o := off.toNat
  if !s.ctl.linked || o % 8 != 0 then .next s
  else if o < 0x100 then doorbell (o / 64) (o / 8 % 8) s
  else event s true fun s =>
    if o == 0x800 then s.submit
    else if 0x1000 ≤ o && o < 0x1200 then s.hostMail (o - 0x1000) v
    else if o == 0x2308 then { s with ctl.cause := s.ctl.cause &&& ~~~ (v.extractLsb' 0 8) }
    else s

/-- A host read of eight bytes at an offset of BAR0. -/
def execRegisterRead (off : BitVec 24) (s : State) : Out :=
  event s (s.ctl.linked && off.toNat % 8 == 0) fun s => { s with ctl.hostRead := leBytes 8 (s.register off.toNat).toNat }

/-- What the host reads of the package window; a lost byte is free, as the spec gives the host no rule for it (log entry 54). -/
def State.apertureBytes (s : State) (pa n : Nat) : List Byte :=
  (List.range n).map fun i =>
    if s.lostAt (pa + i) then BitVec.ofNat 8 (Config.choice s.fresh 65 (pa + i)) else s.homeByte (pa + i)

/-- APERTURE_ACCESS: bytes of the package window, read (as many as `bytes` has) or written through BAR2. -/
def execApertureAccess (write : Bool) (off : BitVec 36) (bytes : List (BitVec 8)) (s : State) : Out :=
  let pa := s.ownWindow + s.ctl.aperture + off.toNat
  if !s.ctl.linked || !s.ctl.ready || bytes.isEmpty || decide (2 ^ 36 < off.toNat + bytes.length) then .next s
  else if write then reached (physWrite s pa bytes)
  else if s.mapped pa && s.mapped (pa + bytes.length - 1) then
    .next ({ s with ctl.hostRead := s.apertureBytes pa bytes.length } : State).tick
  else .fault (.physicalHole pa)

/-- LOGICAL_CORE_CHANGE (spec/01 R32): a physical core goes over from logical core `c` to the next one that it carries. -/
def execLogicalCoreChange (c : Nat) (s : State) : Out :=
  let k := s.core c
  let others := (List.range s.cores.length).filter fun i => i != c && (s.core i).part == k.part && (s.core i).phys == k.phys
  let byNumber := sortBy (fun (a b : Nat) => decide ((s.core a).logical ≤ (s.core b).logical)) others
  match (byNumber.find? fun i => decide (k.logical < (s.core i).logical)).or byNumber.head? with
  | none => .next s
  | some n => event s (s.acting == c) fun s => { s with acting := n }

end Sys2Proof.Machine
end

