-- ==== Sys2Proof/Machine/Rings.lean ====
section
/-! DEFINITION. The ring instructions, and pops and pushes that waited (spec/06 R238 to R248). -/

namespace Sys2Proof.Machine

/-- A ring that the group declares and, unless `fresh`, that is defined (spec/06 R238). -/
def demandRing (s : State) (w : Nat) (r : Nat) (fresh : Bool) : Eff Unit :=
  demand (decide (r < (s.waveGroup w).rings.length) && (fresh || ((s.waveGroup w).ring r).defined)) 0x02#6

/-- `ringdef` (spec/06 R239). -/
def execRingdef (t : Tag) (a b c : Opnd) (r : BitVec 4) (s : State) : Out :=
  issue s fun w => do
    checkOps s w [(a, .si), (b, .onlyImm), (c, .onlyImm)]
    demandRing s w r.toNat true
    let x := s.wave w
    let off ← uniOf s w x.exec 1 a
    let ls := immOf b
    let lz := immOf c
    demand (decide (0 ≤ immOf a) && off.toNat % 4 == 0) 0x02#6 (opndAddr a)
    demand (decide (1 ≤ ls) && decide (ls ≤ 8)) 0x02#6 (opndAddr b)
    demand (decide (2 ≤ lz) && decide (lz ≤ 12)) 0x02#6 (opndAddr c)
    demand (t != .limb && t != .modq) 0x02#6
    demand (s.ringCommands x.id.core x.id.group r.toNat).isEmpty 0x02#6
    demand (decide (off.toNat + 2 ^ ls.toNat * 2 ^ lz.toNat ≤ (s.waveGroup w).spb)) 0x10#6 (BitVec.ofNat 64 windowBase + off)
    pure (s.modGroup x.id.group fun g => g.modRing r.toNat fun _ =>
      { Ring.fresh with defined := true, off := off.toNat, ls := ls.toNat, lz := lz.toNat, tag := t })

/-- `ringclr.drop` (spec/06 R240): commands that have not started stop at once, one in progress at its next boundary; the wave
waits until none is left. -/
def execRingclrDrop (r : BitVec 4) (s : State) : Out :=
  issue s fun w => do
    demandRing s w r.toNat false
    let x := s.wave w
    let g := x.id.group
    let cmds := s.ringCommands x.id.core g r.toNat
    let s := (cmds.filter fun q => !q.2.started).foldl (fun s q => s.stopStream x.id.core q.1 q.2 5) s
    let s := [false, true].foldl (fun s se => s.modQueue x.id.core se fun q => q.map fun y =>
      if y.onRing g r.toNat then { y with cancel := some 5, claim := none } else y) s
    if (s.ringCommands x.id.core g r.toNat).isEmpty then
      pure (s.modGroup g fun y => y.modRing r.toNat fun q =>
        { q with head := 0, occ := [], eos := none, stopping := false, dropping := false })
    else .error (.stall .settle (s.modGroup g fun y => y.modRing r.toNat fun q => { q with dropping := true }))

/-- `ringclr.stop` (spec/06 R240). -/
def execRingclrStop (r : BitVec 4) (s : State) : Out :=
  issue s fun w => do
    demandRing s w r.toNat false
    let x := s.wave w
    let g := x.id.group
    let fills := (s.ringCommands x.id.core g r.toNat).filter fun q => q.2.kind == .rfill
    let s := (fills.filter fun q => !q.2.started).foldl (fun s q => s.stopStream x.id.core q.1 q.2 5) s
    let s := [false, true].foldl (fun s se => s.modQueue x.id.core se fun q => q.map fun y =>
      if y.onRing g r.toNat && y.kind == .rfill then { y with cancel := some 5 } else y) s
    let s := s.modGroup g fun y => y.modRing r.toNat fun q => { q with stopping := true }
    pure (s.settleStop x.id.core g r.toNat)

/-- The port that D of `qbind` names (spec/06 R241, spec/02 R57). -/
def portNum (s : State) (w : Nat) (d : Opnd) : Eff Nat := do
  checkOps s w [(d, { port := true })]
  pure (regOf d)

/-- `qbind` (spec/06 R241). -/
def execQbind (push : Bool) (d : Opnd) (r : BitVec 4) (s : State) : Out :=
  issue s fun w => do
    let n ← portNum s w d
    demandRing s w r.toNat true
    pure (s.modWave w fun x => { x with ports := x.ports.set n (some (r, push)) })

/-- `qbind.un` (spec/06 R241). -/
def execQbindUn (d : Opnd) (s : State) : Out :=
  issue s fun w => do
    let n ← portNum s w d
    pure (s.modWave w fun x => { x with ports := x.ports.set n none })

/-- `qpeek` over the lanes `m` (spec/06 R246). -/
def peekAt (m : Mask) (d a : Opnd) (pe : BitVec 3) (s : State) (w : Nat) : Eff State := do
  checkOps s w [(d, .onlyV), (a, { pop := true })]
  if m == 0 then pure s
  else do
    let po ← popAll false s w m [a]
    let r := srcOf s w po.pops 1 a
    let s := s.modWave w fun x =>
      if po.m == 0 then x else x.setV (regOf d) po.m ((List.range x.id.width).map r.val) (po.poisons (r.md.getD 0))
    pure (s.modWave w fun x => x.setP pe m po.m)

/-- `qpeek`. -/
def execQpeek (g : Guards) (d a : Opnd) (pe : BitVec 3) (s : State) : Out :=
  issue s fun w => peekAt (activeMask s w g) d a pe s w

/-- `qeos` (spec/06 R245). In deterministic mode the token's place at a ring that an engine command has named does not rest on when
the engine acts: the wave first waits until the core's stream engines can go no further without one (R250; log entry 56). -/
def execQeos (a b : Opnd) (s : State) : Out :=
  issue s fun w => do
    checkOps s w [(a, { push := true }), (b, .count)]
    let v ← uni1 s w b
    match (s.wave w).port (regOf a) with
    | none => raise 0x02#6 (opndAddr a)
    | some (r, _) => do
      if (s.waveLaunch w).r.det && ((s.waveGroup w).ring r).engine && !s.enginesStill (s.wave w).id.core then .error (.stall .settle s)
      demand ((s.waveGroup w).ring r).eos.isNone 0x12#6
      pure (s.modGroup (s.wave w).id.group fun g => g.modRing r fun q => q.endStream (v.extractLsb' 0 8))

/-- What `qstat` reads of a port (spec/06 R247). -/
def State.portState (s : State) (w n : Nat) : Word :=
  match (s.wave w).port n with
  | none => 0
  | some (ri, push) =>
    let r := (s.waveGroup w).ring ri
    let named := 2 ^ 63 + (if push then 2 ^ 62 else 0) + ri * 2 ^ 56
    if !r.defined then BitVec.ofNat 64 named
    else
      let eos := match r.eos with | some (_, st) => 2 ^ 61 + st.toNat * 2 ^ 48 | none => 0
      let atEnd := if r.beforeEos == some 0 then 2 ^ 60 else 0
      BitVec.ofNat 64 (named + eos + atEnd + r.room % 2 ^ 20 * 2 ^ 20 + r.count % 2 ^ 20)

/-- `qstat` (spec/06 R247): a port's state, or the oldest event. -/
def execQstat (d a : Opnd) (s : State) : Out :=
  issue s fun w => do
    checkOps s w [(d, .onlyS), (a, { port := true, evq := true })]
    let put := fun (v : Word) (s : State) => s.modWave w fun x => x.setS (regOf d) v
    match a with
    | .q n =>
      if n.toNat < 8 then pure (put (s.portState w n.toNat) s)
      else if n == 12#4 then
        match (s.wave w).evq with
        | [] => pure (put 0 s)
        | e :: t => pure (put e (s.modWave w fun x => { x with evq := t }))
      else raise 0x02#6 (opndAddr a)
    | _ => raise 0x02#6 (opndAddr a)

/-! Pops and pushes that waited (spec/06 R242, R243, spec/02 R53) -/

/-- A stalled wave may issue: it is the running wave, or, in normal mode, the running wave's stall lets others issue and none of
them is ready (spec/02 R53, spec/12 R380). -/
def State.mayIssue (s : State) (w : Nat) : Bool :=
  let c := (s.wave w).id.core
  (s.wave w).resident && ((s.core c).running == some w || (!s.coreDet c && match (s.core c).running with
    | none => true
    | some v => ((s.wave v).sch.stall.any Why.opens && (s.chooseNormal c).isNone) || !(s.wave v).resident))

/-- The state in which a wave has the issue of its core, and its core acts. -/
def State.giveIssue (s : State) (w : Nat) : State :=
  let c := (s.wave w).id.core
  { s.modCore c fun k => { k with running := some w } with acting := c }

/-- The wave waits at a pop, or at a push. -/
def State.waitsAt (s : State) (w : Nat) (push : Bool) : Bool :=
  let x := s.wave w
  decide (w < s.waves.length) && x.sch.stall == some .ring && match x.sch.need with
    | some (_, p, _) => p == push
    | none => false

/-- The ring has what a stalled access waits for. -/
def State.ringReady (s : State) (w : Nat) : Bool :=
  match (s.wave w).sch.need with
  | some (ri, push, k) =>
    let r := (s.waveGroup w).ring ri
    if push then decide (k ≤ r.room) || r.eos.isSome || r.dropping else (r.popNow k).isSome
  | none => false

/-- The stalled instruction of a wave goes on. -/
def ringGo (s : State) (w : Nat) : Out :=
  let s := s.giveIssue w
  match decodeWord (s.wave w).word with
  | .ok (.qpeek g d a pe) => issue s fun w => peekAt (activeMask s w g) d a pe s w
  | .ok i => match vecForm i with
    | some f => issue s fun w => f.act (s.wave w).exec s w
    | none => .next s
  | .error _ => .next s

/-- RING_POP (spec/06 R242): a pop that waited takes its elements. -/
def execRingPop (wv : Nat) (s : State) : Out :=
  if s.waitsAt wv false && s.ringReady wv && s.mayIssue wv then ringGo s wv else .next s

/-- RING_PUSH (spec/06 R243): a push that waited appends its elements. -/
def execRingPush (wv : Nat) (s : State) : Out :=
  if s.waitsAt wv true && s.ringReady wv && s.mayIssue wv then ringGo s wv else .next s

end Sys2Proof.Machine
end

