-- ==== Sys2Proof/Machine/Scalar.lean ====
section
/-! DEFINITION. Scalar instructions, class 1 (spec/02 R84 to R91). -/

namespace Sys2Proof.Machine

/-- A scalar instruction of one source. -/
def scalar1 (d a : Opnd) (f : Word → Word) (s : State) (w : Nat) : Eff State := do
  checkOps s w [(d, .scalarDest), (a, .uniform)]
  let x ← uni1 s w a
  s.putScalar w d (f x)

/-- A scalar instruction of two sources. -/
def scalar2 (d a b : Opnd) (f : Word → Word → Word) (s : State) (w : Nat) : Eff State := do
  checkOps s w [(d, .scalarDest), (a, .uniform), (b, .uniform)]
  let (x, y) ← uni2 s w a b
  s.putScalar w d (f x y)

/-- A sum or difference (spec/02 R85): D takes the result, then CY the carry or borrow. -/
def scalarCarry (d a b : Opnd) (cin : Bool) (f : Word → Word → Bool → Word × Bool) (s : State) (w : Nat) : Eff State := do
  checkOps s w [(d, .scalarDest), (a, .uniform), (b, .uniform)]
  let (x, y) ← uni2 s w a b
  let r := f x y (cin && (s.wave w).carry)
  let t ← s.putScalar w d r.1
  pure (t.modWave w fun v => v.setCarry r.2)

/-- `sadd` (spec/02 R85). -/
def execSadd (cin : Bool) (d a b : Opnd) (s : State) : Out := issue s (scalarCarry d a b cin addCarry s)

/-- `ssub` (spec/02 R85). -/
def execSsub (cin : Bool) (d a b : Opnd) (s : State) : Out := issue s (scalarCarry d a b cin subBorrow s)

/-- `smul` (spec/02 R85). -/
def execSmul (d a b : Opnd) (s : State) : Out := issue s (scalar2 d a b (fun x y => x * y) s)

/-- Bits [127:64] of a product. -/
def mulHigh (u : Bool) (x y : Word) : Word :=
  if u then BitVec.ofNat 64 (x.toNat * y.toNat / 2 ^ 64) else BitVec.ofInt 64 ((x.toInt * y.toInt) / (2 ^ 64 : Int))

/-- `smulh` (spec/02 R85). -/
def execSmulh (u : Bool) (d a b : Opnd) (s : State) : Out := issue s (scalar2 d a b (mulHigh u) s)

/-- The quotient, truncated toward zero (spec/02 R86). -/
def quotient (u : Bool) (x y : Word) : Word :=
  if u then BitVec.ofNat 64 (x.toNat / y.toNat) else BitVec.ofInt 64 (x.toInt.tdiv y.toInt)

/-- The remainder, with the sign of A. -/
def remainder (u : Bool) (x y : Word) : Word :=
  if u then BitVec.ofNat 64 (x.toNat % y.toNat) else BitVec.ofInt 64 (x.toInt.tmod y.toInt)

/-- A division: a zero divisor raises 0x0A (spec/02 R86). -/
def scalarDiv (d a b : Opnd) (f : Word → Word → Word) (s : State) (w : Nat) : Eff State := do
  checkOps s w [(d, .scalarDest), (a, .uniform), (b, .uniform)]
  let (x, y) ← uni2 s w a b
  demand (y != 0) 0x0A#6
  s.putScalar w d (f x y)

/-- `sdiv` (spec/02 R86). -/
def execSdiv (u : Bool) (d a b : Opnd) (s : State) : Out := issue s (scalarDiv d a b (quotient u) s)

/-- `srem` (spec/02 R86). -/
def execSrem (u : Bool) (d a b : Opnd) (s : State) : Out := issue s (scalarDiv d a b (remainder u) s)

/-- `sand` (spec/02 R85). -/
def execSand (d a b : Opnd) (s : State) : Out := issue s (scalar2 d a b (fun x y => x &&& y) s)

/-- `sor` (spec/02 R85). -/
def execSor (d a b : Opnd) (s : State) : Out := issue s (scalar2 d a b (fun x y => x ||| y) s)

/-- `sxor` (spec/02 R85). -/
def execSxor (d a b : Opnd) (s : State) : Out := issue s (scalar2 d a b (fun x y => x ^^^ y) s)

/-- `sshl` (spec/02 R87). -/
def execSshl (d a b : Opnd) (s : State) : Out := issue s (scalar2 d a b (fun x y => x <<< min 64 y.toNat) s)

/-- `sshr` (spec/02 R87). -/
def execSshr (d a b : Opnd) (s : State) : Out := issue s (scalar2 d a b (fun x y => x >>> min 64 y.toNat) s)

/-- `ssar` (spec/02 R87). -/
def execSsar (d a b : Opnd) (s : State) : Out := issue s (scalar2 d a b (fun x y => x.sshiftRight (min 64 y.toNat)) s)

/-- A is below B, signed or unsigned. -/
def wordLess (u : Bool) (x y : Word) : Bool := if u then decide (x.toNat < y.toNat) else decide (x.toInt < y.toInt)

/-- `smin` (spec/02 R88). -/
def execSmin (u : Bool) (d a b : Opnd) (s : State) : Out :=
  issue s (scalar2 d a b (fun x y => if wordLess u y x then y else x) s)

/-- `smax` (spec/02 R88). -/
def execSmax (u : Bool) (d a b : Opnd) (s : State) : Out :=
  issue s (scalar2 d a b (fun x y => if wordLess u x y then y else x) s)

/-- The conditions of `scmp` (spec/02 R88). -/
def scmpHolds (cc : SCond) (x y : Word) : Bool :=
  match cc with
  | .eq => x == y
  | .ne => x != y
  | .lt => wordLess false x y
  | .le => !wordLess false y x
  | .gt => wordLess false y x
  | .ge => !wordLess false x y
  | .ltu => wordLess true x y
  | .leu => !wordLess true y x
  | .gtu => wordLess true y x
  | .geu => !wordLess true x y

/-- `scmp` (spec/02 R88). -/
def execScmp (cc : SCond) (d a b : Opnd) (s : State) : Out :=
  issue s (scalar2 d a b (fun x y => if scmpHolds cc x y then 1 else 0) s)

/-- A scalar instruction of three sources. -/
def scalar3 (d a b c : Opnd) (f : Word → Word → Word → Word) (s : State) (w : Nat) : Eff State := do
  checkOps s w [(d, .scalarDest), (a, .uniform), (b, .uniform), (c, .uniform)]
  let (x, y, z) ← uni3 s w a b c
  s.putScalar w d (f x y z)

/-- `ssel` (spec/02 R88). -/
def execSsel (d a b c : Opnd) (s : State) : Out := issue s (scalar3 d a b c (fun x y z => if z != 0 then x else y) s)

/-- `smov` (spec/02 R85, R90). -/
def execSmov (d a : Opnd) (s : State) : Out := issue s (scalar1 d a id s)

/-- `sli` (spec/02 R90). -/
def execSli (d : Opnd) (imm : BitVec 32) (s : State) : Out :=
  issue s fun w => do
    checkOps s w [(d, .onlyS)]
    s.putScalar w d (sext64 imm)

/-- `slih` (spec/02 R90). -/
def execSlih (d : Opnd) (imm : BitVec 32) (s : State) : Out :=
  issue s fun w => do
    checkOps s w [(d, .onlyS)]
    s.putScalar w d (imm ++ (readS s w 0 (regOf d)).extractLsb' 0 32)

/-- `spopc` (spec/02 R85). -/
def execSpopc (d a : Opnd) (s : State) : Out := issue s (scalar1 d a (fun x => BitVec.ofNat 64 (popCount 64 x.toNat)) s)

/-- `sclz` (spec/02 R85). -/
def execSclz (d a : Opnd) (s : State) : Out := issue s (scalar1 d a (fun x => BitVec.ofNat 64 (leadingZeros 64 x.toNat)) s)

/-- The field of `sbfe` (spec/02 R89). -/
def scalarField (sgn : Bool) (x b c : Word) : Word :=
  let pos := (b.extractLsb' 0 7).toNat
  let w := (c.extractLsb' 0 7).toNat
  if w == 0 || decide (64 ≤ pos) then 0
  else
    let n := min (pos + w) 64 - pos
    let f := (x.toNat >>> pos) % 2 ^ n
    if sgn then BitVec.ofInt 64 (signedOf n f) else BitVec.ofNat 64 f

/-- `sbfe` (spec/02 R89). -/
def execSbfe (sgn : Bool) (d a b c : Opnd) (s : State) : Out := issue s (scalar3 d a b c (scalarField sgn) s)

/-- The result of `sbfi` on the old value of D (spec/02 R89). -/
def insertWord (old x b c : Word) : Word :=
  let pos := (b.extractLsb' 0 7).toNat
  let w := (c.extractLsb' 0 7).toNat
  let m : Word := BitVec.ofNat 64 ((2 ^ w - 1) * 2 ^ pos)
  (old &&& ~~~ m) ||| (BitVec.ofNat 64 (x.toNat * 2 ^ pos) &&& m)

/-- `sbfi`: D is read and written (spec/02 R89). -/
def execSbfi (d a b c : Opnd) (s : State) : Out :=
  issue s fun w => do
    checkOps s w [(d, .scalarDest), (a, .uniform), (b, .uniform), (c, .uniform)]
    let (x, y, z) ← uni3 s w a b c
    let old ← uniOf s w (s.wave w).exec 4 d
    s.putScalar w d (insertWord old x y z)

/-- The scratchpad offset of `srdsp` and `swrsp` with its checks (spec/02 R91). -/
def spOffset (s : State) (w : Nat) (x : Word) (b : Opnd) : Eff Nat := do
  let off : Int := x.toInt + 8 * immOf b
  let va := BitVec.ofInt 64 (windowBase + off)
  demand (off % 8 == 0) 0x11#6 va
  demand (decide (0 ≤ off) && decide (off + 8 ≤ ((s.waveGroup w).spb : Int))) 0x10#6 va
  pure off.toNat

/-- `srdsp` (spec/02 R91); lost data raises 0x10 (spec/15 R456). -/
def execSrdsp (d a b : Opnd) (s : State) : Out :=
  issue s fun w => do
    checkOps s w [(d, .onlyS), (a, .uniform), (b, .onlyImm)]
    let x ← uni1 s w a
    let off ← spOffset s w x b
    demand (!s.lostPlace w (.sp off) 8) 0x10#6 (BitVec.ofNat 64 (windowBase + off))
    s.putScalar w d (BitVec.ofNat 64 (s.waveLe w (.sp off) 8))

/-- `swrsp`: a relaxed scratchpad store of 8 bytes, not counted (spec/02 R91). -/
def execSwrsp (a b c : Opnd) (s : State) : Out :=
  issue s fun w => do
    checkOps s w [(a, .uniform), (b, .onlyImm), (c, .uniform)]
    let (x, v) ← uni2 s w a c
    let off ← spOffset s w x b
    let bs := leBytes 8 v.toNat
    let s := s.sign w [{ addr := windowBase + off, size := 8, bytes := bs }]
    pure (s.modWave w fun y => y.enqueue { key := none, sp := true, bytes := placed off bs })

end Sys2Proof.Machine
end

