-- ==== Sys2Proof/Machine/Watchdog.lean ====
section
/-! DEFINITION. The watchdog of a wave: what it counts, what a recovery hold keeps back, and when it fires (spec/11 R352; spec/14
R431). -/

namespace Sys2Proof.Machine

/-! Operations that a recovery hold keeps back (spec/14 R431) -/

/-- A step of an engine that waits on a link. -/
def heldStep {α : Type} (r : Eng α) : Bool :=
  match r with
  | .error .hold => true
  | _ => false

/-- The next step of a stream command waits on a link. -/
def State.boxHeld (s : State) (x : SCmd) : Bool :=
  match x.kind with
  | .fill => heldStep (fillStep s x)
  | .drain => heldStep (drainStep s x)
  | .copy => heldStep (copyStep s x)
  | .mcast => heldStep (mcastStep s x)
  | .rfill => match x.claim with
    | some pos => heldStep (rfillStep s x pos)
    | none => heldStep (readBox x.issuer s x.amr x.slot x.box)
  | .rdrain => heldStep (rdrainStep s x (s.cmdRing x).unit)
  | .stamp => false
  | .auto => heldStep (autoStep s x)
  | .bopm => heldStep (bopmStep s x)
  | .coll => match x.coll, x.stage with
    | some _, .reading _ => heldStep (readBox x.issuer s x.amr x.slot x.box)
    | some r, .writing elems flags => heldStep (engWrites x.issuer s x.crc (collWrites x r elems flags))
    | _, _ => false

/-- The next step of a command of an NTT unit waits on a link. -/
def State.nttHeld (s : State) (x : NCmd) : Bool :=
  match x.op with
  | .transform inv d a bstr nb nres logn => heldStep (transformStep s x inv d a bstr nb nres logn)
  | .rescale h logn res comps cstr rnd => heldStep (rescaleStep s x h logn res comps cstr rnd)
  | .lmul c => heldStep (c.step true s)

/-- A command of the wave that an engine has in progress waits on a link. -/
def State.engineHoldsBack (s : State) (w : Nat) : Bool :=
  let c := (s.wave w).id.core
  let k := s.core c
  (k.se.any fun q => q.head?.any fun x => x.wave == w && (s.stampHeld x || (x.started && s.boxHeld x))) ||
  ((List.range 4).any fun n => (k.mx.ready n).any fun x => x.wave == w && decide (x.rows < x.total) && heldStep (x.step c s)) ||
  (k.lmuls.head?.any fun x => x.wave == w && heldStep (x.step false s)) ||
  ((List.range s.quads.length).any fun q => (s.quadHead q).any fun x => x.wave == w && s.nttHeld x)

/-- The `mwait` at which the wave waits names an address behind a hold. -/
def State.monitorHeld (s : State) (w : Nat) : Bool :=
  match decodeWord (s.wave w).word with
  | .ok (.mwait o sc d a b c stamp dbl cc) =>
    let k : WaitForm := { o, sc, d, a, b, c, stamp, dbl, cc }
    match placeOf s w (k.addr s w).toNat k.bytes .load with
    | .ok (s', .mem pa) => s'.reach (s'.waveDie w) pa == .hold
    | _ => false
  | _ => false

/-- An ordered atomic of the wave that is held names an address behind a hold. -/
def State.aodHoldsBack (s : State) (w : Nat) : Bool :=
  ((s.waveGroup w).barriers ++ (s.waveLaunch w).barriers).any fun b => b.aods.any fun a => a.wave == w && s.aodHeld a

/-- A recovery hold covers a pending operation of the wave itself. -/
def State.opHeld (s : State) (w : Nat) : Bool :=
  s.storesHeld w || s.aodHoldsBack w || ((s.wave w).sch.stall == some .monitor && s.monitorHeld w) || s.engineHoldsBack w ||
    ((s.wave w).arrival.isSome && s.atCommit w && s.commitHeld (s.wave w).id.group)

/-- A recovery hold covers the wave's pending operation; of a twin that waits for its primary's result, the primary's. -/
def State.heldBack (s : State) (w : Nat) : Bool :=
  (s.dies.any fun d => !d.holds.isEmpty) &&
    (s.opHeld w || (match (s.wave w).sch.stall, s.otherCopy w with
      | some (.twin _), some t => s.opHeld t
      | _, _ => false))

/-! The counter (spec/11 R352) -/

/-- The wave's watchdog counts. -/
def State.watched (s : State) (w : Nat) : Bool :=
  (s.wave w).resident && (s.wave w).sch.stall.any Why.watched && !s.heldBack w

/-- The clk that passes counts for every wave of a core whose watchdog counts. -/
def State.watch (s : State) (c : Nat) : State :=
  ((s.wavesOf c).filter fun w => s.watched w).foldl (fun s w =>
    s.modWave w fun x => { x with sch.wd := x.sch.wd + Config.clkAdvance s.fresh }) s

/-- The watchdog of a wave has reached its limit while it counts. -/
def State.barks (s : State) (w : Nat) : Bool :=
  let lim := (s.waveCtx w).wdlim
  decide (w < s.waves.length) && s.watched w && lim != 0 && decide (1024 * lim.toNat ≤ (s.wave w).sch.wd)

/-- WATCHDOG: a stalled wave's counter has reached the limit. -/
def execWatchdog (wv : Nat) (s : State) : Out :=
  event s (s.barks wv) fun s => s.take wv { code := 0x15#6, addr := (s.waveCtx wv).wdlim.zeroExtend 64 }

end Sys2Proof.Machine
end

