-- ==== Sys2Proof/Machine/Dispatch.lean ====
section
/-! DEFINITION. The dispatch of every instruction and step of spec/opcode_table.json to its meaning: one direct call per
constructor. -/

namespace Sys2Proof.Machine

/-- One instruction, or one step of another agent, of the whole machine. -/
def exec (i : Instr) (s : State) : Host.Outcome State Fault Refusal :=
  match i with
  | .nop n => Sys2Proof.Machine.execNop n s
  | .bru imm => Sys2Proof.Machine.execBru imm s
  | .brs cc n imm => Sys2Proof.Machine.execBrs cc n imm s
  | .jmps a => Sys2Proof.Machine.execJmps a s
  | .call d imm => Sys2Proof.Machine.execCall d imm s
  | .calls d a => Sys2Proof.Machine.execCalls d a s
  | .ret a => Sys2Proof.Machine.execRet a s
  | .wait nld nst ncp ntl => Sys2Proof.Machine.execWait nld nst ncp ntl s
  | .yield => Sys2Proof.Machine.execYield s
  | .bar sc id => Sys2Proof.Machine.execBar sc id s
  | .bara sc id => Sys2Proof.Machine.execBara sc id s
  | .barw sc id => Sys2Proof.Machine.execBarw sc id s
  | .exitw => Sys2Proof.Machine.execExitw s
  | .clkrd d => Sys2Proof.Machine.execClkrd d s
  | .sadd cin d a b => Sys2Proof.Machine.execSadd cin d a b s
  | .ssub cin d a b => Sys2Proof.Machine.execSsub cin d a b s
  | .smul d a b => Sys2Proof.Machine.execSmul d a b s
  | .smulh u d a b => Sys2Proof.Machine.execSmulh u d a b s
  | .sdiv u d a b => Sys2Proof.Machine.execSdiv u d a b s
  | .srem u d a b => Sys2Proof.Machine.execSrem u d a b s
  | .sand d a b => Sys2Proof.Machine.execSand d a b s
  | .sor d a b => Sys2Proof.Machine.execSor d a b s
  | .sxor d a b => Sys2Proof.Machine.execSxor d a b s
  | .sshl d a b => Sys2Proof.Machine.execSshl d a b s
  | .sshr d a b => Sys2Proof.Machine.execSshr d a b s
  | .ssar d a b => Sys2Proof.Machine.execSsar d a b s
  | .smin u d a b => Sys2Proof.Machine.execSmin u d a b s
  | .smax u d a b => Sys2Proof.Machine.execSmax u d a b s
  | .scmp cc d a b => Sys2Proof.Machine.execScmp cc d a b s
  | .ssel d a b c => Sys2Proof.Machine.execSsel d a b c s
  | .smov d a => Sys2Proof.Machine.execSmov d a s
  | .sli d imm => Sys2Proof.Machine.execSli d imm s
  | .slih d imm => Sys2Proof.Machine.execSlih d imm s
  | .spopc d a => Sys2Proof.Machine.execSpopc d a s
  | .sclz d a => Sys2Proof.Machine.execSclz d a s
  | .sbfe sgn d a b c => Sys2Proof.Machine.execSbfe sgn d a b c s
  | .sbfi d a b c => Sys2Proof.Machine.execSbfi d a b c s
  | .srdsp d a b => Sys2Proof.Machine.execSrdsp d a b s
  | .swrsp a b c => Sys2Proof.Machine.execSwrsp a b c s
  | .add g sat d a b e => Sys2Proof.Machine.execAdd g sat d a b e s
  | .sub g sat d a b e => Sys2Proof.Machine.execSub g sat d a b e s
  | .mul g sat d a b e => Sys2Proof.Machine.execMul g sat d a b e s
  | .mad g sat d a b c e => Sys2Proof.Machine.execMad g sat d a b c e s
  | .min g d a b e => Sys2Proof.Machine.execMin g d a b e s
  | .max g d a b e => Sys2Proof.Machine.execMax g d a b e s
  | .neg g sat d a e => Sys2Proof.Machine.execNeg g sat d a e s
  | .abs g sat d a e => Sys2Proof.Machine.execAbs g sat d a e s
  | .cmp g cc d a b e => Sys2Proof.Machine.execCmp g cc d a b e s
  | .sel g d a b c e => Sys2Proof.Machine.execSel g d a b c e s
  | .dot g sat d a b c e => Sys2Proof.Machine.execDot g sat d a b c e s
  | .acs g d a b c n => Sys2Proof.Machine.execAcs g d a b c n s
  | .and g d a b e => Sys2Proof.Machine.execAnd g d a b e s
  | .or g d a b e => Sys2Proof.Machine.execOr g d a b e s
  | .xor g d a b e => Sys2Proof.Machine.execXor g d a b e s
  | .not g d a e => Sys2Proof.Machine.execNot g d a e s
  | .shl g d a b e => Sys2Proof.Machine.execShl g d a b e s
  | .shr g d a b e => Sys2Proof.Machine.execShr g d a b e s
  | .sar g d a b e => Sys2Proof.Machine.execSar g d a b e s
  | .rot g d a b e => Sys2Proof.Machine.execRot g d a b e s
  | .bfe g sgn d a b c e => Sys2Proof.Machine.execBfe g sgn d a b c e s
  | .bfi g d a b c e => Sys2Proof.Machine.execBfi g d a b c e s
  | .popc g d a e => Sys2Proof.Machine.execPopc g d a e s
  | .clz g d a e => Sys2Proof.Machine.execClz g d a e s
  | .brev g d a e => Sys2Proof.Machine.execBrev g d a e s
  | .mulhi g d a b e => Sys2Proof.Machine.execMulhi g d a b e s
  | .cvt g t sr d a j => Sys2Proof.Machine.execCvt g t sr d a j s
  | .pack g d a j => Sys2Proof.Machine.execPack g d a j s
  | .unpk g d a j => Sys2Proof.Machine.execUnpk g d a j s
  | .rcp g d a e => Sys2Proof.Machine.execRcp g d a e s
  | .rsq g d a e => Sys2Proof.Machine.execRsq g d a e s
  | .sqrt g d a e => Sys2Proof.Machine.execSqrt g d a e s
  | .exp2 g d a e => Sys2Proof.Machine.execExp2 g d a e s
  | .log2 g d a e => Sys2Proof.Machine.execLog2 g d a e s
  | .sin g d a e => Sys2Proof.Machine.execSin g d a e s
  | .cos g d a e => Sys2Proof.Machine.execCos g d a e s
  | .rand g d => Sys2Proof.Machine.execRand g d s
  | .tagset g t d a b => Sys2Proof.Machine.execTagset g t d a b s
  | .tagsetPort g t d a b e => Sys2Proof.Machine.execTagsetPort g t d a b e s
  | .tagget d a => Sys2Proof.Machine.execTagget d a s
  | .metard d a => Sys2Proof.Machine.execMetard d a s
  | .metawr d b => Sys2Proof.Machine.execMetawr d b s
  | .mov g d a => Sys2Proof.Machine.execMov g d a s
  | .movPort g d a e => Sys2Proof.Machine.execMovPort g d a e s
  | .movTag g t d a => Sys2Proof.Machine.execMovTag g t d a s
  | .li g t d imm => Sys2Proof.Machine.execLi g t d imm s
  | .dbr target reconv pg => Sys2Proof.Machine.execDbr target reconv pg s
  | .join => Sys2Proof.Machine.execJoin s
  | .brk g target n => Sys2Proof.Machine.execBrk g target n s
  | .exitl g => Sys2Proof.Machine.execExitl g s
  | .vote md d a b => Sys2Proof.Machine.execVote md d a b s
  | .shfl md d a b c pe => Sys2Proof.Machine.execShfl md d a b c pe s
  | .perm d a b c pe => Sys2Proof.Machine.execPerm d a b c pe s
  | .bcst d a b c pe => Sys2Proof.Machine.execBcst d a b c pe s
  | .scan op excl d a b => Sys2Proof.Machine.execScan op excl d a b s
  | .regrp => Sys2Proof.Machine.execRegrp s
  | .ungrp => Sys2Proof.Machine.execUngrp s
  | .xeq g t a => Sys2Proof.Machine.execXeq g t a s
  | .maskrd d a b => Sys2Proof.Machine.execMaskrd d a b s
  | .maskwr d a b => Sys2Proof.Machine.execMaskwr d a b s
  | .deadrd d => Sys2Proof.Machine.execDeadrd d s
  | .blen g d a => Sys2Proof.Machine.execBlen g d a s
  | .bnorm g d a => Sys2Proof.Machine.execBnorm g d a s
  | .bshl g d a b => Sys2Proof.Machine.execBshl g d a b s
  | .bshr g d a b => Sys2Proof.Machine.execBshr g d a b s
  | .bcmp g mag d a b => Sys2Proof.Machine.execBcmp g mag d a b s
  | .bdivs g d a b c => Sys2Proof.Machine.execBdivs g d a b c s
  | .cres g h d a b => Sys2Proof.Machine.execCres g h d a b s
  | .bsplit g d a => Sys2Proof.Machine.execBsplit g d a s
  | .bjoin g d a b => Sys2Proof.Machine.execBjoin g d a b s
  | .baddc g cin d a b => Sys2Proof.Machine.execBaddc g cin d a b s
  | .bsubc g cin d a b => Sys2Proof.Machine.execBsubc g cin d a b s
  | .bmulw g d a b c => Sys2Proof.Machine.execBmulw g d a b c s
  | .bmodw g d a b => Sys2Proof.Machine.execBmodw g d a b s
  | .btom g all d a b c => Sys2Proof.Machine.execBtom g all d a b c s
  | .lmulm o sc d a b c => Sys2Proof.Machine.execLmulm o sc d a b c s
  | .bopm o sc se d a b c bsub => Sys2Proof.Machine.execBopm o sc se d a b c bsub s
  | .ld g o sc ev d a b wd => Sys2Proof.Machine.execLd g o sc ev d a b wd s
  | .ldt g o sc ev d a b t => Sys2Proof.Machine.execLdt g o sc ev d a b t s
  | .st g o sc ev a b c wd => Sys2Proof.Machine.execSt g o sc ev a b c wd s
  | .lds g o sc d a b wd => Sys2Proof.Machine.execLds g o sc d a b wd s
  | .sts g o sc a b c wd => Sys2Proof.Machine.execSts g o sc a b c wd s
  | .ldb g o sc ev d a b c => Sys2Proof.Machine.execLdb g o sc ev d a b c s
  | .stb g o sc ev a b c => Sys2Proof.Machine.execStb g o sc ev a b c s
  | .atomAdd g o sc ev d a b c wd => Sys2Proof.Machine.execAtomAdd g o sc ev d a b c wd s
  | .atomMin g o sc ev d a b c wd => Sys2Proof.Machine.execAtomMin g o sc ev d a b c wd s
  | .atomMax g o sc ev d a b c wd => Sys2Proof.Machine.execAtomMax g o sc ev d a b c wd s
  | .atomAnd g o sc ev d a b c wd => Sys2Proof.Machine.execAtomAnd g o sc ev d a b c wd s
  | .atomOr g o sc ev d a b c wd => Sys2Proof.Machine.execAtomOr g o sc ev d a b c wd s
  | .atomXor g o sc ev d a b c wd => Sys2Proof.Machine.execAtomXor g o sc ev d a b c wd s
  | .atomExch g o sc ev d a b c wd => Sys2Proof.Machine.execAtomExch g o sc ev d a b c wd s
  | .atomFadd g o sc ev d a b c wd => Sys2Proof.Machine.execAtomFadd g o sc ev d a b c wd s
  | .cas g o sc ev d a b c wd => Sys2Proof.Machine.execCas g o sc ev d a b c wd s
  | .aod g sc op d a b c wd => Sys2Proof.Machine.execAod g sc op d a b c wd s
  | .fence o sc => Sys2Proof.Machine.execFence o sc s
  | .mwait o sc d a b c stamp dbl cc => Sys2Proof.Machine.execMwait o sc d a b c stamp dbl cc s
  | .prf g sc ev a b => Sys2Proof.Machine.execPrf g sc ev a b s
  | .l1inv => Sys2Proof.Machine.execL1inv s
  | .ringdef t a b c r => Sys2Proof.Machine.execRingdef t a b c r s
  | .ringclrDrop r => Sys2Proof.Machine.execRingclrDrop r s
  | .ringclrStop r => Sys2Proof.Machine.execRingclrStop r s
  | .qbind push d r => Sys2Proof.Machine.execQbind push d r s
  | .qbindUn d => Sys2Proof.Machine.execQbindUn d s
  | .qpeek g d a pe => Sys2Proof.Machine.execQpeek g d a pe s
  | .qeos a b => Sys2Proof.Machine.execQeos a b s
  | .qstat d a => Sys2Proof.Machine.execQstat d a s
  | .slay o sc a b c k => Sys2Proof.Machine.execSlay o sc a b c k s
  | .scmdFill o sc se a b c => Sys2Proof.Machine.execScmdFill o sc se a b c s
  | .scmdDrain o sc se a b c => Sys2Proof.Machine.execScmdDrain o sc se a b c s
  | .scmdCopy o sc se a b c => Sys2Proof.Machine.execScmdCopy o sc se a b c s
  | .scmdMcast o sc se a b c => Sys2Proof.Machine.execScmdMcast o sc se a b c s
  | .scmdRfill o sc se a b c eos => Sys2Proof.Machine.execScmdRfill o sc se a b c eos s
  | .scmdRdrain o sc se a b c eos => Sys2Proof.Machine.execScmdRdrain o sc se a b c eos s
  | .scmdStamp o sc se a c => Sys2Proof.Machine.execScmdStamp o sc se a c s
  | .scmdColl o sc se a b c => Sys2Proof.Machine.execScmdColl o sc se a b c s
  | .mloop o sc sn a b tile => Sys2Proof.Machine.execMloop o sc sn a b tile s
  | .mzero sn pair b tile => Sys2Proof.Machine.execMzero sn pair b tile s
  | .mldt o sc sn tr a b c tile => Sys2Proof.Machine.execMldt o sc sn tr a b c tile s
  | .mldtScale o sc sn a b c => Sys2Proof.Machine.execMldtScale o sc sn a b c s
  | .mstt o sc sn tr d a b c tile => Sys2Proof.Machine.execMstt o sc sn tr d a b c tile s
  | .msttScale o sc sn a b c => Sys2Proof.Machine.execMsttScale o sc sn a b c s
  | .mfence b k => Sys2Proof.Machine.execMfence b k s
  | .mprg sn d b => Sys2Proof.Machine.execMprg sn d b s
  | .mtab o sc a b c => Sys2Proof.Machine.execMtab o sc a b c s
  | .mred g dbl d a b => Sys2Proof.Machine.execMred g dbl d a b s
  | .mlift g sgn d a => Sys2Proof.Machine.execMlift g sgn d a s
  | .nttf o sc d a c => Sys2Proof.Machine.execNttf o sc d a c s
  | .ntti o sc d a c => Sys2Proof.Machine.execNtti o sc d a c s
  | .auto o sc se a b c ntt => Sys2Proof.Machine.execAuto o sc se a b c ntt s
  | .ctchk o sc t d a b pair => Sys2Proof.Machine.execCtchk o sc t d a b pair s
  | .ctresc o sc rnd a => Sys2Proof.Machine.execCtresc o sc rnd a s
  | .ctlvl o sc d a => Sys2Proof.Machine.execCtlvl o sc d a s
  | .halloc z t d a pe => Sys2Proof.Machine.execHalloc z t d a pe s
  | .hfree a => Sys2Proof.Machine.execHfree a s
  | .hstat d a => Sys2Proof.Machine.execHstat d a s
  | .mark imm => Sys2Proof.Machine.execMark imm s
  | .scrdl o sc a b c => Sys2Proof.Machine.execScrdl o sc a b c s
  | .tierq o sc die a b c act => Sys2Proof.Machine.execTierq o sc die a b c act s
  | .launch o sc d a => Sys2Proof.Machine.execLaunch o sc d a s
  | .nrec g o sc d a b => Sys2Proof.Machine.execNrec g o sc d a b s
  | .nflush all a b => Sys2Proof.Machine.execNflush all a b s
  | .grow t a pe => Sys2Proof.Machine.execGrow t a pe s
  | .shrink a => Sys2Proof.Machine.execShrink a s
  | .enrd d a => Sys2Proof.Machine.execEnrd d a s
  | .trap code a => Sys2Proof.Machine.execTrap code a s
  | .rte => Sys2Proof.Machine.execRte s
  | .bkpt n => Sys2Proof.Machine.execBkpt n s
  | .csrd d b => Sys2Proof.Machine.execCsrd d b s
  | .cswr a b => Sys2Proof.Machine.execCswr a b s
  | .tlbinvPage a b => Sys2Proof.Machine.execTlbinvPage a b s
  | .tlbinvCtx b => Sys2Proof.Machine.execTlbinvCtx b s
  | .tlbinvAll => Sys2Proof.Machine.execTlbinvAll s
  | .cmmt => Sys2Proof.Machine.execCmmt s
  | .wkill a => Sys2Proof.Machine.execWkill a s
  | .prmtSave d a => Sys2Proof.Machine.execPrmtSave d a s
  | .prmtRestore d a => Sys2Proof.Machine.execPrmtRestore d a s
  | .computedWord wv => Sys2Proof.Machine.execComputedWord wv s
  | .lmulmStep onNtt n => Sys2Proof.Machine.execLmulmStep onNtt n s
  | .monitorFire wv => Sys2Proof.Machine.execMonitorFire wv s
  | .mwaitBackOff wv => Sys2Proof.Machine.execMwaitBackOff wv s
  | .ringPop wv => Sys2Proof.Machine.execRingPop wv s
  | .ringPush wv => Sys2Proof.Machine.execRingPush wv s
  | .streamBoxStep c se => Sys2Proof.Machine.execStreamBoxStep c se s
  | .streamCommandStart c se => Sys2Proof.Machine.execStreamCommandStart c se s
  | .rfillUnitClaim c se => Sys2Proof.Machine.execRfillUnitClaim c se s
  | .rdrainUnitTake c se => Sys2Proof.Machine.execRdrainUnitTake c se s
  | .matrixRowStep c n => Sys2Proof.Machine.execMatrixRowStep c n s
  | .nttStep q => Sys2Proof.Machine.execNttStep q s
  | .heapCommandApply d => Sys2Proof.Machine.execHeapCommandApply d s
  | .clauseStart wv => Sys2Proof.Machine.execClauseStart wv s
  | .agingLimit wv => Sys2Proof.Machine.execAgingLimit wv s
  | .countedOperationComplete wv cls => Sys2Proof.Machine.execCountedOperationComplete wv cls s
  | .storePerform wv => Sys2Proof.Machine.execStorePerform wv s
  | .barrierPhaseCompletion sc owner unit id => Sys2Proof.Machine.execBarrierPhaseCompletion sc owner unit id s
  | .livelock wv => Sys2Proof.Machine.execLivelock wv s
  | .watchdog wv => Sys2Proof.Machine.execWatchdog wv s
  | .singleStep wv => Sys2Proof.Machine.execSingleStep wv s
  | .eventDelivery wv => Sys2Proof.Machine.execEventDelivery wv s
  | .debugBreak wv v => Sys2Proof.Machine.execDebugBreak wv v s
  | .park wv => Sys2Proof.Machine.execPark wv s
  | .partitionSave p => Sys2Proof.Machine.execPartitionSave p s
  | .partitionRestore p migrate => Sys2Proof.Machine.execPartitionRestore p migrate s
  | .preemptionTimeout p => Sys2Proof.Machine.execPreemptionTimeout p s
  | .commit g => Sys2Proof.Machine.execCommit g s
  | .uncorrectableError place => Sys2Proof.Machine.execUncorrectableError place s
  | .hostQueueDoorbell p q => Sys2Proof.Machine.execHostQueueDoorbell p q s
  | .hostLaunch p q => Sys2Proof.Machine.execHostLaunch p q s
  | .activate p q => Sys2Proof.Machine.execActivate p q s
  | .deactivate p q => Sys2Proof.Machine.execDeactivate p q s
  | .completionRecordWrite p q => Sys2Proof.Machine.execCompletionRecordWrite p q s
  | .groupAdmission d => Sys2Proof.Machine.execGroupAdmission d s
  | .passOverLimit d l => Sys2Proof.Machine.execPassOverLimit d l s
  | .growGrant c => Sys2Proof.Machine.execGrowGrant c s
  | .growDeadlockFail c => Sys2Proof.Machine.execGrowDeadlockFail c s
  | .binTimeout l node bin => Sys2Proof.Machine.execBinTimeout l node bin s
  | .launchDrain l => Sys2Proof.Machine.execLaunchDrain l s
  | .fetch p ctx va die pin => Sys2Proof.Machine.execFetch p ctx va die pin s
  | .evict p ctx va => Sys2Proof.Machine.execEvict p ctx va s
  | .shootdown p => Sys2Proof.Machine.execShootdown p s
  | .faultReplay wv => Sys2Proof.Machine.execFaultReplay wv s
  | .screedEntryEnd l k => Sys2Proof.Machine.execScreedEntryEnd l k s
  | .collectiveInstanceStart l cid k => Sys2Proof.Machine.execCollectiveInstanceStart l cid k s
  | .flitReceive d p vc quarters => Sys2Proof.Machine.execFlitReceive d p vc quarters s
  | .flitArrive d p vc n quarters => Sys2Proof.Machine.execFlitArrive d p vc n quarters s
  | .flitTake d p vc => Sys2Proof.Machine.execFlitTake d p vc s
  | .flitSend d p vc flit => Sys2Proof.Machine.execFlitSend d p vc flit s
  | .flitAck d p vc n => Sys2Proof.Machine.execFlitAck d p vc n s
  | .flitAsk d p vc n => Sys2Proof.Machine.execFlitAsk d p vc n s
  | .replayLimit d p => Sys2Proof.Machine.execReplayLimit d p s
  | .railLoss d p rail => Sys2Proof.Machine.execRailLoss d p rail s
  | .trainingEnd d p lost peer => Sys2Proof.Machine.execTrainingEnd d p lost peer s
  | .pause d p vc => Sys2Proof.Machine.execPause d p vc s
  | .resume d p vc => Sys2Proof.Machine.execResume d p vc s
  | .recoveryHoldExpiry d rank => Sys2Proof.Machine.execRecoveryHoldExpiry d rank s
  | .bridgeError a b => Sys2Proof.Machine.execBridgeError a b s
  | .powerOn => Sys2Proof.Machine.execPowerOn s
  | .bellowsUpdate => Sys2Proof.Machine.execBellowsUpdate s
  | .throttle d t => Sys2Proof.Machine.execThrottle d t s
  | .thermalHalt d t => Sys2Proof.Machine.execThermalHalt d t s
  | .formPartitions => Sys2Proof.Machine.execFormPartitions s
  | .registerHostQueue => Sys2Proof.Machine.execRegisterHostQueue s
  | .unregisterHostQueue => Sys2Proof.Machine.execUnregisterHostQueue s
  | .setBellows => Sys2Proof.Machine.execSetBellows s
  | .setPackageLimit => Sys2Proof.Machine.execSetPackageLimit s
  | .setFramePool => Sys2Proof.Machine.execSetFramePool s
  | .writeRouteTable => Sys2Proof.Machine.execWriteRouteTable s
  | .setPodRank => Sys2Proof.Machine.execSetPodRank s
  | .preEmpt => Sys2Proof.Machine.execPreEmpt s
  | .restore => Sys2Proof.Machine.execRestore s
  | .moveImage => Sys2Proof.Machine.execMoveImage s
  | .resetPartition => Sys2Proof.Machine.execResetPartition s
  | .invalidateTranslations => Sys2Proof.Machine.execInvalidateTranslations s
  | .attestationReport => Sys2Proof.Machine.execAttestationReport s
  | .readErrorRecords => Sys2Proof.Machine.execReadErrorRecords s
  | .loadFirmwareImage => Sys2Proof.Machine.execLoadFirmwareImage s
  | .positionAperture => Sys2Proof.Machine.execPositionAperture s
  | .registerWrite off v => Sys2Proof.Machine.execRegisterWrite off v s
  | .logicalCoreChange c => Sys2Proof.Machine.execLogicalCoreChange c s
  | .registerRead off => Sys2Proof.Machine.execRegisterRead off s
  | .apertureAccess write off bytes => Sys2Proof.Machine.execApertureAccess write off bytes s
  | .temperatureFalls d t => Sys2Proof.Machine.execTemperatureFalls d t s
  | .lossOfPackagePower => Sys2Proof.Machine.execLossOfPackagePower s
  | .bringPortUp d p => Sys2Proof.Machine.execBringPortUp d p s
  | .fatalHostRequest p => Sys2Proof.Machine.execFatalHostRequest p s
  | .controllerInternalError p => Sys2Proof.Machine.execControllerInternalError p s

end Sys2Proof.Machine
end

