-- ==== Sys2Proof/Machine/Schedule.lean ====
section
/-! DEFINITION. The schedule: what comes next when the agenda names nothing. The acting core's running wave issues; a core
whose waves all stall goes on from a stall or lets another agent act; at every 64th value of the counter another agent
acts and the turn passes to another core (spec/02 R46 to R54, spec/11 R350, R354; the schedule is the model's own, log entry
2). -/

namespace Sys2Proof.Machine

/-- Trap code of a word that is no instruction (spec/02 R56). -/
def rejectCode : Reject → BitVec 6
  | .headerWord => 0x03#6
  | _ => 0x01#6

/-- The sequencer has a word for a wave: an instruction is executed, another word traps. -/
def State.issueWord (s : State) (w : Nat) (word : Word) : Host.Outcome State Fault Refusal :=
  let s := s.modWave w fun x => { x with word := word }
  match decodeWord word with
  | .ok i => exec i s
  | .error r => .next (s.trapped w { code := rejectCode r })

/-- Fetch the word at the wave's position and issue it; a fetch that fails traps at the position, with a word that nothing
gives (log entry 4). -/
def State.nextInstr (s : State) (w : Nat) : Host.Outcome State Fault Refusal :=
  match fetchWord s w (s.wave w).wordAddr with
  | .ok (s', word) => s'.issueWord w word
  | .error (.trap t) =>
    .next ((s.modWave w fun x => { x with word := Config.freeWord s.fresh 52 x.wordAddr.toNat }).trapped w t)
  | .error (.stall why s') => .next (s'.stallWave w why).tick
  | .error (.done s') => .next s'
  | .error (.fault f) => .fault f

/-- Steps of engines that hold a command of a wave. -/
def State.engineSteps (s : State) (w : Nat) : List Instr :=
  let c := (s.wave w).id.core
  let k := s.core c
  let se := [false, true].flatMap fun e =>
    match k.se.getD e.toNat [] with
    | [] => []
    | h :: t =>
      if (h :: t).any (fun x => x.wave == w) then
        if !h.started then [.streamCommandStart c e]
        else match h.kind with
          | .rfill => [.rfillUnitClaim c e, .streamBoxStep c e]
          | .rdrain => [.rdrainUnitTake c e, .streamBoxStep c e]
          | _ => [.streamBoxStep c e]
      else []
  let mx := (List.range 4).flatMap fun i =>
    if ((k.mx.streams.getD i default).q ++ k.mx.handlerQ).any (fun x => x.wave == w) then [Instr.matrixRowStep c (BitVec.ofNat 2 i)]
    else []
  let lm := if k.lmuls.any (fun x => x.wave == w) then [Instr.lmulmStep false c] else []
  let nt := (List.range s.quads.length).flatMap fun q =>
    if ((s.quads.getD q default).slots).any (fun x => x.wave == w) then [Instr.nttStep q, .lmulmStep true q] else []
  let hp := (List.range s.dies.length).flatMap fun d =>
    if ((s.die d).heapQ).any (fun x => x.wave == w) then [Instr.heapCommandApply d] else []
  se ++ mx ++ lm ++ nt ++ hp

/-- Steps that complete what a wave has outstanding. -/
def State.completions (s : State) (w : Nat) : List Instr :=
  let x := s.wave w
  let ready := [Cls.ld, .st, .cp, .tl].filter fun c =>
    match x.mem.outst.find? fun p => p.cls == c with
    | some p => p.ready
    | none => false
  match ready with
  | c :: _ => [.countedOperationComplete w c]
  | [] => if s.onItsWay w then [.storePerform w] else s.engineSteps w

/-- Rows that end a stall of a wave. -/
def State.stallSteps (s : State) (w : Nat) : List Instr :=
  let x := s.wave w
  match x.sch.stall with
  | some .monitor => [.monitorFire w, .mwaitBackOff w]
  | some .ring => [.ringPop w, .ringPush w]
  | some .grow => [.growGrant x.id.core, .growDeadlockFail x.id.core]
  | some .commit => [.commit x.id.group]
  | some .fault => [.faultReplay w]
  | some .park => [.park w]
  | _ => []

/-- Rows that end a stall of a wave while its core may be at another: in deterministic mode a wave that waits goes on only as the
core's running wave (spec/12 R394). -/
def State.freeStallSteps (s : State) (w : Nat) : List Instr :=
  let x := s.wave w
  if x.sch.waiting.isSome && s.coreDet x.id.core && (s.core x.id.core).running != some w && x.sch.stall != some .commit then []
  else s.stallSteps w

/-- Stalls that end when the instruction, tried again, can go on. -/
def Why.retries : Why → Bool
  | .monitor | .grow | .commit | .fault | .drain | .park => false
  | _ => true

/-- Barriers of which every participant has arrived: a phase that a recovery hold or a group's end left to complete. -/
def State.fullPhases (s : State) : List Instr :=
  let rows := fun (owner : Nat) (bs : List Barrier) => bs.filterMap fun b =>
    if s.phaseFull owner b then some (Instr.barrierPhaseCompletion b.sc owner b.unit b.id) else none
  (s.groups.zipIdx).flatMap (fun (q : Group × Nat) => if q.1.ended then [] else rows q.2 q.1.barriers) ++
    (s.launches.zipIdx).flatMap (fun (q : Launch × Nat) => if q.1.complete then [] else rows q.2 q.1.barriers)

/-- Rows of the agents that act on their own: host queues, task engines, tier engines, contexts, watchdogs, and every wave's
outstanding operations, engine commands and stalls. -/
def State.agentRows (s : State) : List Instr :=
  let host := (s.parts.zipIdx).flatMap fun (p : Partition × Nat) => Instr.partitionSave p.2 ::
    (p.1.queues.zipIdx).flatMap fun (q : Option HostQ × Nat) =>
      if q.1.isNone then [] else
        [Instr.activate p.2 q.2, .deactivate p.2 q.2, .hostLaunch p.2 q.2, .completionRecordWrite p.2 q.2]
  let dies := (List.range s.dies.length).map fun d => Instr.groupAdmission d
  let jobs := (s.launches.zipIdx).flatMap fun (l : Launch × Nat) =>
    let ends := match l.1.screed with
      | none => []
      | some z => (z.entries.zipIdx).filterMap fun (e : SEntry × Nat) =>
        if e.1.started && !e.1.ended then some (Instr.screedEntryEnd l.2 e.2) else none
    if l.1.complete then ends else Instr.launchDrain l.2 :: ends
  let grows := (List.range s.cores.length).flatMap fun c => [Instr.growGrant c, .growDeadlockFail c]
  let colls := s.cores.flatMap fun k => k.se.flatMap fun q => q.filterMap fun x =>
    x.coll.map fun r => Instr.collectiveInstanceStart (s.group x.group).launch r.cid r.k
  let waves := (List.range s.waves.length).flatMap fun w =>
    if (s.wave w).sch.ended then [] else
      s.completions w ++ s.freeStallSteps w ++ (if (s.wave w).deliverable then [Instr.eventDelivery w] else []) ++
        if s.barks w then [Instr.watchdog w] else []
  let shoots := (List.range s.parts.length).filterMap fun p => if (s.part p).shoots.isEmpty && (s.part p).tierQ.isEmpty then none else some (Instr.shootdown p)
  let commits := (List.range s.groups.length).filterMap fun g => if (s.group g).ended || !s.staged g then none else some (Instr.commit g)
  host ++ dies ++ jobs ++ grows ++ colls ++ waves ++ commits ++ s.fullPhases ++ shoots ++ [Instr.bellowsUpdate]

/-- The turn passes to the next core. -/
def State.passTurn (s : State) : State := { s with acting := (s.acting + 1) % max 1 s.cores.length, fresh := s.fresh + 1 }

/-- A row is taken, and the turn passes. -/
def State.takeRow (s : State) (i : Instr) : Host.Outcome State Fault Refusal :=
  match exec i s with
  | .next t => .next { t with acting := s.passTurn.acting, fresh := max t.fresh s.passTurn.fresh }
  | r => r

/-- Another agent acts: row `k` of theirs, taken round. -/
def State.background (s : State) (k : Nat) : Host.Outcome State Fault Refusal :=
  let rows := s.agentRows
  match rows[k % max 1 rows.length]? with
  | some i => s.takeRow i
  | none => .next s.passTurn

/-- The acting core goes on from a stall of one of its waves: row `k` of those that bring the wave on. The core's issue slot is not
used. -/
def State.progress (s : State) (w k : Nat) : Host.Outcome State Fault Refusal :=
  let x := s.wave w
  let rows := s.completions w ++ s.stallSteps w ++ [Instr.watchdog w]
  let s := s.modCore x.id.core fun c => { c with slots := c.slots + 1 }
  match rows[k % (rows.length + 1)]?, x.sch.stall with
  | some i, _ => s.takeRow i
  | none, some .drain => .next (if s.drainedWave w then s.passTurn.leave w else s.passTurn)
  | none, _ => .next s.passTurn

/-- In deterministic mode a wave's stores are performed before the wave issues again, so that no result rests on when they are
(spec/04 R168, spec/12 R393, R397). -/
def State.issueReady (s : State) (w : Nat) : State :=
  if s.coreDet (s.wave w).id.core && !s.storesHeld w then s.performAll w else s

/-- What a wave of the acting core does next; `k` chooses among the rows of a stall. -/
def State.stepWave (s : State) (w k : Nat) : Host.Outcome State Fault Refusal :=
  let x := s.wave w
  if x.deliverable then exec (.eventDelivery w) s
  else if x.tr.stepDue.isSome then exec (.singleStep w) s
  else if x.sch.stall.isSome then s.progress w k
  else if !x.sch.started then exec (.clauseStart w) s
  else (s.issueReady w).nextInstr w

/-- A stalled wave's instruction, tried in the present state as if the wave ran, would not stall again at the same wait. -/
def State.stallOver (s : State) (w : Nat) : Bool :=
  let c := (s.wave w).id.core
  let was := (s.wave w).sch.stall
  let s := { (s.modWave w fun x => { x with sch.stall := none }).modCore c (fun k => { k with running := some w }) with acting := c }
  let r := if (s.wave w).sch.started then (s.issueReady w).nextInstr w else exec (.clauseStart w) s
  match r with
  | .next t => (t.wave w).sch.stall != was
  | _ => true

/-- Stalls of a core that are over end: the waves become ready (spec/12 R380). In deterministic mode only the running wave goes
on; rotation judges the others by their waits (spec/12 R394). -/
def State.wake (s : State) (c : Nat) : State :=
  let ws := if s.coreDet c then (s.core c).running.toList else s.wavesOf c
  (ws.filter fun w => (s.wave w).sch.stall.any Why.retries).foldl (fun s w => if s.stallOver w then s.unstall w else s) s

/-- The acting core's running wave stalls: the core turns to a wave that is ready; else its waves and the other agents take turns
in making progress. In deterministic mode, and at a stall that lets no other wave issue, the core stays with its running wave. -/
def State.stepStalled (s : State) (w : Nat) : Host.Outcome State Fault Refusal :=
  let c := s.acting
  let stay := s.coreDet c || !(s.wave w).sch.stall.any Why.opens
  let k := (s.core c).turn
  let ws := if stay then [w] else s.wavesOf c
  let n := max 1 ws.length
  if !stay && (s.chooseNormal c).isSome then .next (s.switch c).tick
  else
    let s := s.modCore c fun y => { y with turn := k + 1 }
    if k % 2 == 1 then s.background (k / 2) else s.stepWave (ws.getD (k / 2 % n) w) (k / 2 / n)

/-- The acting core has no running wave: it chooses one; in deterministic mode a group that now fits the core is admitted first.
With none to choose, another agent acts. -/
def State.stepIdle (s : State) : Host.Outcome State Fault Refusal :=
  let c := s.acting
  if (s.wavesOf c).isEmpty then s.background s.fresh
  else if !s.coreDet c then .next (s.switch c).tick
  else if s.awaitsGroup c then s.background s.fresh
  else .next (s.takeTurn c).tick

/-- What comes next when the agenda is empty. The acting core's clock goes on for the watchdogs of its waves (spec/11 R352). -/
def State.proceed (s : State) : Host.Outcome State Fault Refusal :=
  let s := (s.wake s.acting).watch s.acting
  match s.running with
  | none => s.stepIdle
  | some w =>
    if s.fresh % 64 == 63 then s.background (s.fresh / 64)
    else if (s.wave w).sch.stall.isSome then s.stepStalled w
    else s.stepWave w 0

end Sys2Proof.Machine
end

