-- ==== Sys2Proof/Machine/Step.lean ====
section
/-! DEFINITION. One step of the package: the agenda's next event, or what the schedule brings (log entry 2). -/

namespace Sys2Proof.Machine

/-- One step. -/
def step (s : State) : Host.Outcome State Fault Refusal :=
  match s.agenda with
  | .event i :: t => exec i { s with agenda := t }
  | .core c :: t => .next { s with agenda := t, acting := c }
  | [] => s.proceed

/-! The placement that the host's table checks use -/

/-- Where the placed clause stands. -/
def placedHeader : Nat := 0x10000

/-- Bytes of the placed header and word, and of the two page-table entries that map the first 16 GiB to themselves. -/
def placedBytes (nbits w : Nat) : List (Nat × Byte) :=
  placed 0x100000 (leBytes 8 0x200001) ++ placed 0x200000 (leBytes 8 0x3F) ++
  placed placedHeader (leBytes 8 0xFCF0FFFFFF800000) ++ placed (placedHeader + 8) (leBytes 8 (w % 2 ^ nbits))

/-- A launch that runs, one wave wide and one group long. -/
def Launch.placed (part : Nat) : Launch :=
  { Launch.empty with
    r := { (default : LaunchRec) with ngrp := 1, w := 32, wpg := 1, nvreg := 16, spb := 1024, code := BitVec.ofNat 64 placedHeader },
    part := part, ident := 1, kernels := [{ (default : Kernel) with entry := 0, w := 32, nvreg := 16, wpg := 1, spb := 1024 }],
    codeSize := 16, next := 1, complete := false }

/-- The state in which the very next step runs a word: the package is formed, a partition, its context, a launch, its one
group and wave stand beside what there was, the clause has started, and its one word is the given one. -/
def State.withFetchWord (s : State) (nbits w : Nat) : State :=
  let p := s.parts.length
  let c := s.cores.length
  let l := s.launches.length
  let g := s.groups.length
  let v := s.waves.length
  let id : WaveId := { core := c, slot := 0, group := g, launch := l, part := p, ctx := 0, widx := 0, width := 32,
                       waveid := 0, grpid := 0 }
  let x := Wave.start id 16 (BitVec.ofNat 64 placedHeader) 0
  { s with
    mem := s.mem.writeAll (placedBytes nbits w),
    ctl := { s.ctl with powered := true, ready := true },
    parts := s.parts ++ [{ (default : Partition) with
      dies := [0], ctxs := [{ (default : Context) with active := true, priv := true, ptroot := 0x100000, mods := List.replicate 64 none }] }],
    cores := s.cores ++ [{ Core.fresh p 0 0 false with running := some v, mx := Matrix.empty (some g) }],
    launches := s.launches ++ [Launch.placed p],
    groups := s.groups ++ [{ Group.empty with launch := l, core := c, waves := [v], spb := 1024, ended := false }],
    waves := s.waves ++ [{ x with sch.started := true, sch.count := 1 }],
    quads := s.quads, agenda := [], acting := c }

end Sys2Proof.Machine
end

