-- ==== Sys2Proof/Certificates/Slice0/Obligations.lean ====
section
/-! DEFINITION. The statements for the provers: what instructions and steps of other agents do, what they leave unchanged, what
the encoding and the whole machine keep. Helpers stand in Sys2Proof.Claims. -/

open Sys2Proof Sys2Proof.Machine

namespace Sys2Proof.Claims

/-- The instruction of wave `w` has completed with the effect `r`: the path moves to the next instruction, and the instruction is
counted as retired. -/
def completed (s : State) (w : Nat) (r : State) : State := (r.modWave w Wave.advance).retire w (s.wave w)

/-- An instruction that sets the position itself has completed with the effect `r`. -/
def jumped (s : State) (w : Nat) (r : State) : State := r.retire w (s.wave w)

/-- The operand checks of a scalar instruction with two sources pass, and the sources have the values `x` and `y`. -/
abbrev scalarReads (s : State) (w : Nat) (d a b : Opnd) (x y : Word) : Prop :=
  checkOps s w [(d, .scalarDest), (a, .uniform), (b, .uniform)] = .ok () ∧ uni2 s w a b = .ok (x, y)

/-- The same with three sources. -/
abbrev scalarReads3 (s : State) (w : Nat) (d a b c : Opnd) (x y z : Word) : Prop :=
  checkOps s w [(d, .scalarDest), (a, .uniform), (b, .uniform), (c, .uniform)] = .ok () ∧ uni3 s w a b c = .ok (x, y, z)

/-- What every instruction of a wave other than a store, an engine command or a ring access leaves alone: memory byte by byte,
every other wave, every group, launch, die, partition, the controller. -/
def onlyWave (s t : State) (w : Nat) : Prop :=
  (∀ a, t.mem.read a = s.mem.read a) ∧ (∀ v, v ≠ w → t.wave v = s.wave v) ∧ t.groups = s.groups ∧ t.launches = s.launches ∧
  t.dies = s.dies ∧ t.quads = s.quads ∧ t.parts = s.parts ∧ t.ctl = s.ctl ∧ t.lost = s.lost

/-- Registers, flags and specials of a wave outside a scalar destination and CY. -/
def scalarFrame (x y : Wave) : Prop :=
  y.v = x.v ∧ y.preds = x.preds ∧ y.fflags = x.fflags ∧ y.mem = x.mem ∧ y.evq = x.evq ∧ y.ports = x.ports ∧ y.convGen = x.convGen ∧
  y.tr.cause = x.tr.cause ∧ y.tr.tword = x.tr.tword ∧ y.tr.taddr = x.tr.taddr ∧ y.tr.hm = x.tr.hm ∧ y.lc.dead = x.lc.dead ∧
  y.lc.regions = x.lc.regions

end Sys2Proof.Claims

open Sys2Proof.Claims

/-- sdiv and srem divide, and raise 0x0A on a zero divisor. With accepted operands of values x and y, y not 0, sdiv writes
the quotient truncated toward zero and srem the remainder with the sign of x, signed or with .u unsigned; −2^63 by −1 gives
−2^63 and 0; y = 0 raises trap 0x0A on the unchanged state; the encoding has M = 1 for .u and 0 otherwise. (R86) -/
def Obligations.ScalarDivisionResults : Prop :=
  ∀ (s : State) (w : Nat) (u : Bool) (d a b : Opnd) (x y : Word), s.running = some w → scalarReads s w d a b x y →
    (∀ r, y ≠ 0 → s.putScalar w d (if u then x / y else x.sdiv y) = .ok r →
      exec (.sdiv u d a b) s = .next (completed s w r)) ∧
    (∀ r, y ≠ 0 → s.putScalar w d (if u then x % y else x.srem y) = .ok r →
      exec (.srem u d a b) s = .next (completed s w r)) ∧
    (y = 0 → exec (.sdiv u d a b) s = .next (s.trapped w { code := 0x0A#6 }) ∧
      exec (.srem u d a b) s = .next (s.trapped w { code := 0x0A#6 })) ∧
    (x = 0x8000000000000000#64 → y = 0xFFFFFFFFFFFFFFFF#64 → x.sdiv y = x ∧ x.srem y = 0) ∧
    (Instr.sdiv u d a b).fields = some { op := 0x044#10, d := d.code, a := a.code, b := b.code, m := if u then 1#8 else 0#8 } ∧
    (Instr.srem u d a b).fields = some { op := 0x045#10, d := d.code, a := a.code, b := b.code, m := if u then 1#8 else 0#8 }

/-- sshl, sshr and ssar shift by an unsigned 64-bit count. With accepted operands of values x and y, sshl and sshr write x
shifted left or right with zeros, 0 for a count of 64 or more; ssar shifts right with copies of bit 63, 64 copies for a count
of 64 or more; operands are D, A and B with M = 0. (R87) -/
def Obligations.ScalarShiftResults : Prop :=
  ∀ (s : State) (w : Nat) (d a b : Opnd) (x y : Word), s.running = some w → scalarReads s w d a b x y →
    (∀ r, s.putScalar w d (if 64 ≤ y.toNat then 0 else BitVec.ofNat 64 (x.toNat * 2 ^ y.toNat)) = .ok r →
      exec (.sshl d a b) s = .next (completed s w r)) ∧
    (∀ r, s.putScalar w d (if 64 ≤ y.toNat then 0 else BitVec.ofNat 64 (x.toNat / 2 ^ y.toNat)) = .ok r →
      exec (.sshr d a b) s = .next (completed s w r)) ∧
    (∀ r, s.putScalar w d (if 64 ≤ y.toNat then (if x.msb then BitVec.allOnes 64 else 0)
        else BitVec.ofInt 64 (x.toInt / 2 ^ y.toNat)) = .ok r → exec (.ssar d a b) s = .next (completed s w r)) ∧
    (Instr.sshl d a b).fields = some { op := 0x049#10, d := d.code, a := a.code, b := b.code, m := 0#8 } ∧
    (Instr.sshr d a b).fields = some { op := 0x04A#10, d := d.code, a := a.code, b := b.code, m := 0#8 } ∧
    (Instr.ssar d a b).fields = some { op := 0x04B#10, d := d.code, a := a.code, b := b.code, m := 0#8 }

/-- smov, sli, slih, spopc, sclz, ssel, sbfe and sbfi write their values. Moves and immediates write the value, slih the
upper half only; spopc counts 1 bits and sclz leading 0 bits; ssel picks A when C is not 0; sbfe gives the field of A cut at
bit 63, zero- or sign-extended, and 0 for width 0 or a position of 64 or more; sbfi replaces the field in the old value of D.
D of sli and slih must be an S register, else 0x02. (R84, R85, R88, R89, R90) -/
def Obligations.ScalarMovesAndFields : Prop :=
  ∀ (s : State) (w : Nat) (g : Bool) (d a b c : Opnd) (imm : BitVec 32) (x y z old : Word), s.running = some w →
    let gives := fun (i : Instr) (v : Word) => ∀ r, s.putScalar w d v = .ok r → exec i s = .next (completed s w r)
    (checkOps s w [(d, .scalarDest), (a, .uniform)] = .ok () → uni1 s w a = .ok x →
      gives (.smov d a) x ∧ gives (.spopc d a) (BitVec.ofNat 64 ((List.range 64).filter fun i => x.getLsbD i).length) ∧
      gives (.sclz d a) (BitVec.ofNat 64 (((List.range 64).reverse.takeWhile fun i => !x.getLsbD i).length))) ∧
    (∀ n, d = .s n → gives (.sli d imm) (imm.signExtend 64) ∧
      gives (.slih d imm) (imm ++ (readS s w 0 n.toNat).extractLsb' 0 32)) ∧
    (scalarReads3 s w d a b c x y z → gives (.ssel d a b c) (if z = 0 then y else x) ∧
      (let p := y.toNat % 128
       let k := min (p + z.toNat % 128) 64 - p
       gives (.sbfe g d a b c) (if z.toNat % 128 = 0 ∨ 64 ≤ p then 0
         else if g then (BitVec.ofNat k (x.toNat / 2 ^ p)).signExtend 64 else (BitVec.ofNat k (x.toNat / 2 ^ p)).zeroExtend 64)) ∧
      (∀ v : Word, uniOf s w (s.wave w).exec 4 d = .ok old →
        (∀ i, i < 64 → v.getLsbD i = if y.toNat % 128 ≤ i ∧ i < y.toNat % 128 + z.toNat % 128 then x.getLsbD (i - y.toNat % 128)
          else old.getLsbD i) → gives (.sbfi d a b c) v)) ∧
    ((∀ n, d ≠ .s n) → ¬ (namesTrapState d ∧ (s.wave w).tr.hm = false) →
      exec (.sli d imm) s = .next (s.trapped w { code := 0x02#6, addr := d.code.zeroExtend 64 }) ∧
      exec (.slih d imm) s = .next (s.trapped w { code := 0x02#6, addr := d.code.zeroExtend 64 }))

/-- What a write to each kind of scalar destination leaves. smov of a value v to an accepted destination completes, and then:
the S register of the bank in force reads v, every other one and the other bank as before; CY is bit 0, FFLAGS the low five
bits; AMR takes v but for DET, which keeps its value; NTTTHR, XPROG and TXPROG take the low 32 bits; MPROG sets the rows of
the commands that a freeze has suspended, 16 bits each, and nothing otherwise; TCLA takes v, TINF all but HDR, TCTL the
single-step bit. A reserved value of AMR, NTTTHR above 131,072 or a reserved bit set raises 0x02 with the field of D in
TADDR, and nothing changes. No other wave and no memory changes. (R40, R90, R101, R212, R273, R295, R345, R346, R350) -/
def Obligations.ScalarDestinations : Prop :=
  ∀ (s : State) (w : Nat) (d a : Opnd) (v : Word), s.running = some w → w < s.waves.length →
    checkOps s w [(d, .scalarDest), (a, .uniform)] = .ok () → uni1 s w a = .ok v →
    let x := s.wave w
    let gives := fun (ok : Bool) (f : Wave → Wave) =>
      (ok = true → exec (.smov d a) s = .next (completed s w (s.modWave w f)) ∧ onlyWave s (s.modWave w f) w) ∧
      (ok = false → exec (.smov d a) s = .next (s.trapped w { code := 0x02#6, addr := d.code.zeroExtend 64 }))
    let part := fun (lo n : Nat) => v.toNat / 2 ^ lo % 2 ^ n
    (∀ n, d = .s n → x.s.length = 64 → x.hb.length = 8 → ∃ y, exec (.smov d a) s = .next (completed s w (s.setWave w y)) ∧
      y.sreg n.toNat = v ∧ (∀ k, k < 64 → k ≠ n.toNat → y.sreg k = x.sreg k) ∧
      (if x.tr.hm = true ∧ 56 ≤ n.toNat then y.s = x.s else y.hb = x.hb) ∧ scalarFrame x y ∧ y.cy = x.cy ∧ y.hcy = x.hcy ∧ y.amr = x.amr) ∧
    (d = .special 7 → gives true fun y => if y.tr.hm then { y with hcy := v.getLsbD 0 } else { y with cy := v.getLsbD 0 }) ∧
    (d = .special 8 → gives true fun y => { y with fflags := v.extractLsb' 0 5 }) ∧
    (d = .special 9 → ∃ z : Word, (∀ k, k < 64 → z.getLsbD k = if k = 14 then x.amr.getLsbD 14 else v.getLsbD k) ∧
      gives (decide (part 0 3 < 6 ∧ part 3 2 ≠ 3 ∧ part 5 2 < 2 ∧ part 15 17 = 0)) fun y => { y with amr := z }) ∧
    (d = .special 12 → gives (decide (part 0 18 ≤ 131072 ∧ part 18 14 = 0)) fun y => { y with nttthr := v.extractLsb' 0 32 }) ∧
    (d = .special 10 → gives (decide (part 11 19 = 0)) fun y => { y with lc.xprog := v.extractLsb' 0 32 }) ∧
    (d = .special 11 → ∃ r, exec (.smov d a) s = .next (completed s w r) ∧ onlyWave s r w ∧ r.wave w = x ∧
      ∀ i, (((r.core x.id.core).mx.streams.getD i default).q) = match ((s.core x.id.core).mx.streams.getD i default).q with
        | [] => []
        | c :: q => (if (s.core x.id.core).mx.frozen then { c with rows := part (16 * i) 16 } else c) :: q) ∧
    (d = .special 17 → gives (decide (part 0 3 = 0 ∧ part 57 7 = 0)) fun y => { y with tr.tcla := v }) ∧
    (d = .special 18 → ∃ z : Word, (∀ k, k < 64 → z.getLsbD k = if k = 5 then x.tr.tinf.getLsbD 5 else v.getLsbD k) ∧
      gives (decide (part 6 10 = 0 ∧ part 21 43 = 0)) fun y => { y with tr.tinf := z }) ∧
    (d = .special 22 → gives (decide (part 11 19 = 0)) fun y => { y with tr.txprog := v.extractLsb' 0 32 }) ∧
    (d = .special 23 → gives (decide (part 1 4 = 0 ∧ part 8 56 = 0)) fun y => { y with tr.ss := v.getLsbD 0 })

/-- srdsp and swrsp read and queue 8 bytes of the allocation. With A of value x and e = 8 × B, an offset x + e that is a
multiple of 8 and whose 8 bytes lie within the allocation: srdsp writes the 8 bytes as the wave reads them, with its own
queued stores, and swrsp queues the 8 bytes of C as one scratchpad store and counts nothing. For both an offset not a
multiple of 8 raises 0x11 and one outside raises 0x10, with TADDR the window address that the offset stands for (the model's
choice, log entry 17), and of srdsp a lost sector raises 0x10. (R91) -/
def Obligations.ScalarScratchpadAccess : Prop :=
  ∀ (s : State) (w : Nat) (n : BitVec 6) (a c : Opnd) (e : BitVec 6) (x v : Word), s.running = some w →
    let off := x.toInt + 8 * e.toInt
    let inside := 0 ≤ off ∧ off + 8 ≤ ((s.waveGroup w).spb : Int)
    let traps := fun (i : Instr) (code : BitVec 6) => exec i s = .next (s.trapped w { code := code, addr := BitVec.ofInt 64 (windowBase + off) })
    (checkOps s w [(.s n, .onlyS), (a, .uniform), (.imm e, .onlyImm)] = .ok () → uni1 s w a = .ok x →
      (off % 8 = 0 → inside → s.lostPlace w (.sp off.toNat) 8 = false →
        exec (.srdsp (.s n) a (.imm e)) s = .next (completed s w
          (s.modWave w fun y => y.setS n.toNat (BitVec.ofNat 64 (s.waveLe w (.sp off.toNat) 8))))) ∧
      (off % 8 = 0 → inside → s.lostPlace w (.sp off.toNat) 8 = true → traps (.srdsp (.s n) a (.imm e)) 0x10#6) ∧
      (off % 8 ≠ 0 → traps (.srdsp (.s n) a (.imm e)) 0x11#6) ∧
      (off % 8 = 0 → ¬ inside → traps (.srdsp (.s n) a (.imm e)) 0x10#6)) ∧
    (checkOps s w [(a, .uniform), (.imm e, .onlyImm), (c, .uniform)] = .ok () → uni2 s w a c = .ok (x, v) →
      (off % 8 ≠ 0 → traps (.swrsp a (.imm e) c) 0x11#6) ∧ (off % 8 = 0 → ¬ inside → traps (.swrsp a (.imm e) c) 0x10#6) ∧
      (off % 8 = 0 → inside → ∃ r, exec (.swrsp a (.imm e) c) s = .next (completed s w r) ∧ r.mem = s.mem ∧ r.groups = s.groups ∧
        (r.wave w).mem.storeQ = (s.wave w).mem.storeQ ++
          (if w < s.waves.length then [{ key := none, sp := true, bytes := placed off.toNat (leBytes 8 v.toNat) }] else []) ∧
        (r.wave w).mem.outst = (s.wave w).mem.outst))

namespace Sys2Proof.Claims

/-- A branch of the path of wave `w` to `t` is taken: it is aligned, and it is forward, or outside deterministic mode, or not
the backward branch at which livelock trap 0x14 is due. -/
abbrev mayBranch (s : State) (w : Nat) (t : Word) : Prop :=
  t.extractLsb' 0 3 = 0 ∧ ((s.wave w).hdr.toNat < t.toNat ∨ (s.waveLaunch w).r.det = false ∨ (s.wave w).sch.backward + 1 < 2 ^ 20)

/-- The branch taken in the state `s`, `x` being the wave at issue: the path stands at the header `t`; a backward one is counted,
and rotation follows, which takes one issue slot where another path becomes current (spec/05 R186). -/
def landed (x : Wave) (w : Nat) (t : Word) (s : State) : State :=
  let r := s.modWave w fun y => y.goto { hdr := t, idx := 0 }
  let u := r.modWave w fun y => ({ y with sch.backward := x.sch.backward + 1 } : Wave).rotate
  if x.hdr.toNat < t.toNat then r
  else if (u.wave w).cur = x.cur then u
  else u.modCore x.id.core fun k => { k with slots := k.slots + 1 }

/-- The primary copy, with wave `x` at issue, tells its twin a result, with its mode; a group without copies tells nobody. -/
def told (x : Wave) (s : State) (w : Nat) (f : Fwd) : State :=
  match s.twinOf w with
  | some t => s.modWave t fun y => { y with fwd := y.fwd ++ [{ f with hm := x.tr.hm }] }
  | none => s

/-- `f` is the oldest result that a twin has been told for an instruction of its mode, of a heap command or of another operation, and
`rest` is what else it has been told. -/
abbrev nextTold (x : Wave) (heap : Bool) (f : Fwd) (rest : List Fwd) : Prop :=
  ∃ before after, x.fwd = before ++ f :: after ∧ rest = before ++ after ∧ f.hm = x.tr.hm ∧ (f.what ≠ 0 ↔ heap = true) ∧
    ∀ e ∈ before, ¬ (e.hm = x.tr.hm ∧ (e.what ≠ 0 ↔ heap = true))

/-- The twin has taken a result and is left with `rest`. -/
def took (s : State) (w : Nat) (rest : List Fwd) : State := s.modWave w fun x => { x with fwd := rest }

/-- What an arrival at a barrier does: the wave's stores are performed, its interval rises, it is counted in the open phase, and
the phase completes if it was the last; the number is that phase's. -/
def arrivedAt (s : State) (w : Nat) (sc : Scope) (id : BitVec 4) : State × Nat :=
  let at_ := s.barrierPlace w sc
  let s := ((s.settle sc at_.1 at_.2 id).performAll w).releaseInterval w
  let b := s.barrier sc at_.1 at_.2 id
  ((s.setBarrier at_.1 { b with arrived := b.arrived ++ [w] }).settle sc at_.1 at_.2 id, b.phase)

/-- The state after an arrival as `bara` leaves it in a core-scope barrier or in a group without a twin's part. -/
def joined (s : State) (w : Nat) (sc : Scope) (id : BitVec 4) : State :=
  let r := arrivedAt s w sc id
  let t := if sc = .core then r.1 else told (s.wave w) r.1 w { val := BitVec.ofNat 64 r.2, pred := false, trap := none }
  t.modWave w fun x => x.setArrival sc id (if sc = .core then r.2 else (BitVec.ofNat 64 r.2 : Word).toNat)

/-- The instruction names a barrier that the launch has. -/
abbrev namesBarrier (s : State) (w : Nat) (sc : Scope) (id : BitVec 4) : Prop :=
  sc ≠ .wave ∧ sc ≠ .sys ∧ id.toNat < (if sc = .core then 16 else 4) ∧ scopeRank sc ≤ (s.waveLaunch w).r.level

end Sys2Proof.Claims

/-- bara, barw and bar arrive at and wait for a barrier phase. With a barrier the launch has, and no store kept back by a
recovery hold: bara, when the wave holds no pending arrival there, performs the wave's stores, counts the wave in the open
phase and sets its pending-arrival bit; in a twin at a wider scope it takes the phase its primary told. barw with no pending
arrival, or with one whose phase is complete, completes and clears the bit, at a scope wider than core with the L1 of its
core discarded; else it stalls. bar does both, completing when its own arrival completes the phase; once its arrival is made
it is barw. A second arrival raises 0x02. That a twin takes its phase from its primary is the model's reading of R443 and
R451 (log entry 51). (R77, R78, R79, R80, R443, R451) -/
def Obligations.BarriersComplete : Prop :=
  ∀ (s : State) (w : Nat) (sc : Scope) (id : BitVec 4) (p : Nat), s.running = some w → namesBarrier s w sc id →
    let at_ := s.barrierPlace w sc
    let still := s.settle sc at_.1 at_.2 id
    let passed := fun (r : State) => completed s w
      ((if sc = .core then r else r.l1Clear (r.wave w).id.core).modWave w fun x => x.clearArrival sc id)
    (s.storesHeld w = false → (s.wave w).pendingArrival sc id = none → (sc = .core ∨ (s.waveGroup w).copy ≠ .twin) →
      exec (.bara sc id) s = .next (completed s w (joined s w sc id))) ∧
    (∀ f rest, s.storesHeld w = false → (s.wave w).pendingArrival sc id = none → sc ≠ .core → (s.waveGroup w).copy = .twin → nextTold (s.wave w) false f rest →
      f.trap = none → exec (.bara sc id) s = .next (completed s w ((took s w rest).modWave w fun x => x.setArrival sc id f.val.toNat))) ∧
    ((s.wave w).pendingArrival sc id ≠ none →
      exec (.bara sc id) s = .next (s.trapped w { code := 0x02#6 }) ∧
      ((s.wave w).sch.barArrived ≠ some (s.wave w).pos → exec (.bar sc id) s = .next (s.trapped w { code := 0x02#6 }))) ∧
    ((still.wave w).pendingArrival sc id = none → exec (.barw sc id) s = .next (completed s w
      (still.modWave w fun x => { x with sch.barArrived := none }))) ∧
    ((still.wave w).pendingArrival sc id = some p →
      exec (.barw sc id) s = .next (if still.phasePast w sc id p then passed still else (still.stallWave w (.barrier sc id)).tick)) ∧
    ((s.wave w).sch.barArrived = some (s.wave w).pos → exec (.bar sc id) s = exec (.barw sc id) s) ∧
    (let r := (joined s w sc id).modWave w fun x => { x with sch.barArrived := some x.pos }
     let place := r.barrierPlace w sc
     let t := r.settle sc place.1 place.2 id
     s.storesHeld w = false → (s.wave w).pendingArrival sc id = none → (s.wave w).sch.barArrived ≠ some (s.wave w).pos →
      (sc = .core ∨ (s.waveGroup w).copy ≠ .twin) → (t.wave w).pendingArrival sc id = some p → t.phasePast w sc id p = true →
      exec (.bar sc id) s = .next (passed t))

namespace Sys2Proof.Claims

/-- The parts of a lane-wise instruction of classes 2 and 3 that come before its own work: guards, the banks that its fields
accept, what else must hold of them, the destination, the sources in order, and E where it may name the predicate of a pop. -/
structure LaneForm where
  g : Guards
  checks : List (Opnd × Accept)
  extra : State → Nat → Bool := fun _ _ => true
  d : Opnd
  srcs : List Opnd
  pe : Option (BitVec 4)

def form1 (g : Guards) (d a : Opnd) (e : BitVec 4) : LaneForm :=
  { g := g, checks := [(d, .dest), (a, .src)], extra := fun s w => namesV s w [a], d := d, srcs := [a], pe := some e }

def form2 (g : Guards) (d a b : Opnd) (e : BitVec 4) : LaneForm :=
  { g := g, checks := [(d, .dest), (a, .src), (b, .src)], extra := fun s w => namesV s w [a, b], d := d, srcs := [a, b], pe := some e }

def form3 (g : Guards) (d a b c : Opnd) (e : BitVec 4) : LaneForm :=
  { g := g, checks := [(d, .dest), (a, .src), (b, .src), (c, .src)], extra := fun s w => namesV s w [a, b, c], d := d,
    srcs := [a, b, c], pe := some e }

/-- The form of tagset: under modq B is an S register or an immediate whose value is 0 to 63 (R112, R123). -/
def tagsetForm (g : Guards) (t : Tag) (d a b : Opnd) (e : BitVec 4) : LaneForm :=
  { g := g, checks := [(d, .dest), (a, .laneSource)] ++ (if t == .modq then [(b, Accept.si)] else []),
    extra := fun s w => t != .modq || (decide (0 ≤ tagsetMidx s w b) && decide (tagsetMidx s w b ≤ 63)),
    d := d, srcs := [a, b], pe := some e }

/-- The form of every lane-wise instruction of classes 2 and 3 (R114, R122, R125, R131, R134). -/
def form : Instr → Option LaneForm
  | .add g _ d a b e | .sub g _ d a b e | .mul g _ d a b e | .min g d a b e | .max g d a b e | .and g d a b e | .or g d a b e
  | .xor g d a b e | .shl g d a b e | .shr g d a b e | .sar g d a b e | .rot g d a b e | .mulhi g d a b e => some (form2 g d a b e)
  | .mad g _ d a b c e | .dot g _ d a b c e | .bfe g _ d a b c e => some (form3 g d a b c e)
  | .neg g _ d a e | .abs g _ d a e | .not g d a e | .popc g d a e | .clz g d a e | .brev g d a e | .rcp g d a e | .rsq g d a e
  | .sqrt g d a e | .exp2 g d a e | .log2 g d a e | .sin g d a e | .cos g d a e => some (form1 g d a e)
  | .cmp g _ d a b e => some { form2 g d a b e with checks := [(d, { Accept.dest with p := true }), (a, .src), (b, .src)], extra := fun s w => cmpNames s w d a b }
  | .sel g d a b c e => some { form3 g d a b c e with checks := [(d, .dest), (a, .src), (b, .src), (c, { v := true, p := true, lane := true, pop := true })], extra := fun s w => namesV s w [a, b] }
  | .acs g d a b c n => some { form3 g d a b c 0 with extra := fun s w => namesV s w [a, b, c] && decide (n.toNat ≤ 5), pe := none }
  | .bfi g d a b c e => some { g := g, checks := [(d, .onlyV), (a, .src), (b, .src), (c, .src)], d := d, srcs := [a, b, c, d], pe := some e }
  | .cvt g _ _ d a _ => some { g := g, checks := [(d, .dest), (a, .lanes)], d := d, srcs := [a], pe := none }
  | .pack g d a _ => some { g := g, checks := [(d, .onlyV), (a, .src)], d := d, srcs := [a, d], pe := none }
  | .unpk g d a _ => some { g := g, checks := [(d, .dest), (a, .lanes)], d := d, srcs := [a], pe := none }
  | .rand g d => some { g := g, checks := [(d, .dest)], d := d, srcs := [], pe := some 0 }
  | .tagset g t d a b => some (tagsetForm g t d a b 0)
  | .tagsetPort g t d a b e => some (tagsetForm g t d a b e)
  | .mov g d a => some { g := g, checks := [(d, .dest), (a, .laneSource)], d := d, srcs := [a], pe := some 0 }
  | .movPort g d a e => some { g := g, checks := [(d, .dest), (a, .laneSource)], d := d, srcs := [a], pe := some e }
  | .movTag g _ d a => some { g := g, checks := [(d, .dest), (a, .si)], d := d, srcs := [a], pe := some 0 }
  | .li g _ d _ => some { g := g, checks := [(d, .dest)], d := d, srcs := [], pe := some 0 }
  | _ => none

/-- The decode checks of a form pass. -/
abbrev LaneForm.decodes (f : LaneForm) (s : State) (w : Nat) : Prop :=
  checkOps s w f.checks = .ok () ∧ f.extra s w = true ∧ (f.pe.isSome = true ∨ (f.d :: f.srcs).any isPort = false)

/-- A form comes to its own work: the checks pass, a lane is active, and the pops give `po`, at least one element where there is
a port. -/
abbrev LaneForm.enters (f : LaneForm) (s : State) (w : Nat) (po : PopOut) : Prop :=
  s.running = some w ∧ f.decodes s w ∧ activeMask s w f.g ≠ 0 ∧ popAll true s w (activeMask s w f.g) f.srcs = .ok po ∧ po.m ≠ 0

/-- The state after the pops: the predicate that E names tells which active lanes received an element (R242). -/
def LaneForm.popped (f : LaneForm) (s : State) (w : Nat) (po : PopOut) : State :=
  if po.any then po.s.modWave w fun x => x.setP ((f.pe.getD 0).extractLsb' 0 3) (activeMask s w f.g) po.m else po.s

/-- What a lane-wise result comes to: where an element that was popped lies in a lost sector, a V register is written poisoned and any
other destination raises 0x10 with the window address of the first such element of the lowest lane served (R456); else the destination
takes it. -/
def LaneForm.puts (f : LaneForm) (s : State) (w : Nat) (po : PopOut) (o : LaneOut) : Eff State :=
  match (lanesOf 1024 po.m).findSome? fun l => po.pops.findSome? fun q => q.lost l, f.d with
  | none, _ => putLanes s w po.m f.d o
  | some _, .v _ => putLanes s w po.m f.d { o with md := o.md ||| 0x10000#32 }
  | some a, _ => .error (.trap { code := 0x10#6, addr := BitVec.ofNat 64 a })

/-- The instruction ends as `e` says: it completes with its effect, or traps. -/
abbrev comesTo (i : Instr) (s : State) (w : Nat) (e : Eff State) : Prop :=
  (∀ r, e = .ok r → exec i s = .next (completed s w r)) ∧ ∀ t, e = .error (.trap t) → exec i s = .next (s.trapped w t)

/-- The sources as the form reads them. -/
def LaneForm.sources (f : LaneForm) (s : State) (w : Nat) (po : PopOut) : List Src :=
  (f.srcs.zipIdx).map fun q => srcOf s w po.pops (q.2 + 1) q.1

/-- No source is poisoned. -/
abbrev clean (rs : List Src) : Prop := ∀ r ∈ rs, (r.md.all fun md => !mdPoison md) = true

/-- The operand tag: there is a V source, and every one carries it. -/
abbrev tagged (rs : List Src) (t : Tag) : Prop := (∃ r ∈ rs, r.md.isSome) ∧ ∀ r ∈ rs, (r.md.all fun md => mdTag md == t) = true

/-- Under modq every V source has the modulus index `i`, whose entry holds the prime `p`. -/
abbrev modulus (s : State) (w : Nat) (rs : List Src) (t : Tag) (i p : Nat) : Prop :=
  if t = .modq then (∀ r ∈ rs, (r.md.all fun md => mdMidx md == i) = true) ∧ s.prime w i = some p else i = 0 ∧ p = 1

/-- What the operand tag settles in a wave. -/
def arith (s : State) (w : Nat) (t : Tag) (i p : Nat) : Arith :=
  { t := t, midx := i, p := p, env := FEnv.ofAmr (s.wave w).amr, fmt := tagFmt t }

/-- Tags that an instruction of R115 or R131 accepts for lane results (limb results have rules of their own). -/
def laneTag (i : Instr) (t : Tag) : Bool :=
  t != .raw && t != .limb && match i with
  | .add .. | .sub .. | .mul .. | .mad .. | .neg .. => true
  | .min .. | .max .. | .abs .. => t != .modq
  | .rcp .. | .rsq .. | .sqrt .. | .exp2 .. | .log2 .. | .sin .. | .cos .. => t == .f32 || t == .bf16x2 || t == .f16x2
  | _ => false

/-- Each element of a lane through a special function (R131 to R133); within its bound the value is free (log entry 11), and it does
not depend on RM (R132). -/
def sfuLane (k : Arith) (amr : Word) (op : Sfu) (x : Lane) : Lane × Flags :=
  let f := k.fmt.getD .fp32
  joinElems k.t ((List.range (tagElems k.t)).map fun i =>
    sfuElem op f k.env (Config.sfuPick op.index (64 * f.bits + f.fb) (elemOf k.t x i) (amr &&& ~~~ 7#64)) (f.decode k.env.flushIn (elemOf k.t x i)))

/-- The value and flags that one lane of such an instruction gives for its source values. -/
def laneValue (k : Arith) (amr : Word) (i : Instr) (x y z : Lane) : Lane × Flags :=
  match i with
  | .add _ sat .. => AriOp.lane k .add sat x y
  | .sub _ sat .. => AriOp.lane k .sub sat x y
  | .mul _ sat .. => AriOp.lane k .mul sat x y
  | .mad _ sat .. => madLane k sat x y z
  | .min .. => pickLane k false x y
  | .max .. => pickLane k true x y
  | .neg _ sat .. => (signLane k false sat x, 0)
  | .abs _ sat .. => (signLane k true sat x, 0)
  | .rcp .. => sfuLane k amr .rcp x
  | .rsq .. => sfuLane k amr .rsq x
  | .sqrt .. => sfuLane k amr .sqrt x
  | .exp2 .. => sfuLane k amr .exp2 x
  | .log2 .. => sfuLane k amr .log2 x
  | .sin .. => sfuLane k amr .sin x
  | .cos .. => sfuLane k amr .cos x
  | _ => (0, 0)

/-- The OR of the flags of the lanes of a mask. -/
def allFlags (n : Nat) (m : Mask) (fl : Nat → Flags) : Flags := (lanesOf n m).foldl (fun acc l => acc ||| fl l) 0

/-- Bits p to p + n − 1 of a lane, cut at bit 31, extended. -/
def laneField (g : Bool) (x : Lane) (p n : Nat) : Lane :=
  if n = 0 ∨ 32 ≤ p then 0
  else let k := min (p + n) 32 - p
    if g then (BitVec.ofNat k (x.toNat / 2 ^ p)).signExtend 32 else (BitVec.ofNat k (x.toNat / 2 ^ p)).zeroExtend 32

/-- The value that one lane of a bit instruction gives; `o` is the old value of D, which bfi reads. -/
def bitValue (i : Instr) (x y z o : Lane) : Option Lane :=
  match i with
  | .and .. => some (x &&& y)
  | .or .. => some (x ||| y)
  | .xor .. => some (x ^^^ y)
  | .not .. => some (~~~ x)
  | .shl .. => some (if 32 ≤ y.toNat % 256 then 0 else BitVec.ofNat 32 (x.toNat * 2 ^ (y.toNat % 256)))
  | .shr .. => some (if 32 ≤ y.toNat % 256 then 0 else BitVec.ofNat 32 (x.toNat / 2 ^ (y.toNat % 256)))
  | .sar .. => some (if 32 ≤ y.toNat % 256 then (if x.msb then BitVec.allOnes 32 else 0) else BitVec.ofInt 32 (x.toInt / 2 ^ (y.toNat % 256)))
  | .rot .. => some (x.rotateLeft (y.toNat % 32))
  | .bfe _ g .. => some (laneField g x (y.toNat % 64) (z.toNat % 64))
  | .bfi .. => let hole : Lane := BitVec.ofNat 32 ((2 ^ (z.toNat % 64) - 1) * 2 ^ (y.toNat % 64))
      some ((o &&& ~~~ hole) ||| ((x <<< (y.toNat % 64)) &&& hole))
  | .popc .. => some (BitVec.ofNat 32 ((List.range 32).filter fun j => x.getLsbD j).length)
  | .clz .. => some (BitVec.ofNat 32 (((List.range 32).reverse.takeWhile fun j => !x.getLsbD j).length))
  | .brev .. => some x.reverse
  | _ => none

/-- The state after a lane-wise instruction other than its destination: the flags of its lanes are in FFLAGS. -/
def flagged (s : State) (w : Nat) (m : Mask) (fl : Nat → Flags) : State :=
  s.modWave w fun x => x.raiseFlags (allFlags x.id.width m fl)

end Sys2Proof.Claims

namespace Sys2Proof.Claims

/-- A number as a fraction; what is none counts as zero. -/
def ratOf : FVal → ℚ
  | .num n m e => (if n then -1 else 1) * (m : ℚ) * (2 : ℚ) ^ e
  | _ => 0

/-- Neither a NaN nor an infinity. -/
abbrev finite (v : FVal) : Prop := v.isNan = false ∧ v.isInf = false

/-- `r` is the exact result `x` rounded once; an exact zero has the sign `z` and no flag. -/
def roundedOnce (f : Fmt) (env : FEnv) (x : ℚ) (z : Bool) (r : Nat × Flags) : Prop :=
  if x = 0 then r = (f.zero z, 0) else ∃ (m : Nat) (e : Int), 0 < m ∧ (m : ℚ) * (2 : ℚ) ^ e = |x| ∧ r = f.roundNum env (decide (x < 0)) m e

/-- The sign of an exact zero sum of two terms: theirs when both are zeros of one sign, else + or, under RM 3, − (R116). -/
def zeroSign (env : FEnv) (a b : Bool × Bool) : Bool := if a.1 && b.1 && a.2 == b.2 then a.2 else env.rm == 3

/-- The value at a magnitude code of a format, and that at the next one, which above the largest finite value goes on with its
quantum, in MK8 with the next power of two (R97, R98, R105). -/
def magOf (f : Fmt) (c : Nat) : ℚ := ratOf (f.decode false c)
def nextMag (f : Fmt) (c : Nat) : ℚ :=
  if c < f.maxCode then magOf f (c + 1) else if f.kind = .mk8 then 2 * magOf f c else 2 * magOf f c - magOf f (c - 1)

end Sys2Proof.Claims

/-- Round gives the neighbour that the rounding mode chooses, with the flags of R103 to R105. A positive magnitude x that
lies from the value lo of a magnitude code c up to the value hi of the next one rounds to c when x is lo, and else to c or
the next code as the mode says: to nearest with ties to the even code or away, toward zero, +∞ or −∞. Inexact is raised
unless x is lo; below the least normal underflow with it, and under SUB 1 and 2 the result is zero then. MK8 raises both
below 2^−12 and has no −0. A result above the largest finite value overflows: IEEE formats by mode, the others to the largest
value or, under SAT 1, to infinity or NaN. (R97, R98, R102, R103, R104, R105) -/
def Obligations.RoundingMeetsTheSpec : Prop :=
  ∀ (f : Fmt) (env : FEnv) (neg : Bool) (m c : Nat) (e : Int),
    f ∈ [Fmt.fp32, .bf16, .fp16, .e4m3, .e5m2, .e2m3, .e3m2, .e2m1, .mk8] → env.draw = none → 0 < m →
    let x : ℚ := (m : ℚ) * (2 : ℚ) ^ e
    let r := f.roundNum env neg m e
    let lo := magOf f c
    let hi := nextMag f c
    let mk8 := f.kind = .mk8
    let up := decide (x ≠ lo) && match env.rm with
      | 1 => false
      | 2 => !neg
      | 3 => neg
      | 4 => decide (hi - x ≤ x - lo)
      | _ => decide (hi - x < x - lo) || decide (hi - x = x - lo ∧ c % 2 = 1)
    let d := if up then c + 1 else c
    let most := f.withSign neg f.maxCode
    let top := f.withSign neg f.infCode
    (c ≤ f.maxCode → lo ≤ x → x < hi →
      (mk8 ∨ 2 ^ f.fb ≤ c ∨ env.sub = 0 →
        (d ≤ f.maxCode → r.1 = if mk8 ∧ d = 0 then 0 else f.withSign neg d) ∧
        (f.maxCode < d → r = (if f.kind = .ieee then top else if f.kind = .small ∨ env.sat = 0 then most else top, 0b10100#5))) ∧
      (d ≤ f.maxCode → (mk8 → r.2 = if x < (2 : ℚ) ^ (-12 : Int) then 0b11000#5 else if x = lo then 0 else 0b10000#5) ∧
        (¬ mk8 → 2 ^ f.fb ≤ c → r.2 = if x = lo then 0 else 0b10000#5) ∧
        (¬ mk8 → c + 1 < 2 ^ f.fb → env.sub = 0 → r.2 = if x = lo then 0 else 0b11000#5)) ∧
      (¬ mk8 → c + 1 < 2 ^ f.fb → env.sub ≠ 0 → r = (f.withSign neg 0, 0b11000#5))) ∧
    (nextMag f f.maxCode ≤ x → r = (if f.kind = .ieee then
        (if env.rm = 1 ∨ env.rm = 2 ∧ neg = true ∨ env.rm = 3 ∧ neg = false then most else top)
      else if f.kind = .small ∨ env.sat = 0 then most else top, 0b10100#5))

/-- The bit instructions write their lanes and keep the tag. and, or, xor, not, shl, shr, sar, rot, bfe, bfi, popc, clz, brev
and mulhi with clean sources write every active lane; popc and clz give tag u32, bfi keeps D's tag, the others the tag of
their first V source, LEN and SIGN of a limb result being free values (log entry 10) and MIDX of a residue that of the
register which gives the tag, in bfi that of A, D's own staying where A carries none (log entry 10); mulhi, whose V sources
share one tag, gives the high half, signed under i32 and unsigned under u32. (R93, R122, R89, R111, R321) -/
def Obligations.VectorBitsComplete : Prop :=
  ∀ (s : State) (w : Nat) (i : Instr) (f : LaneForm) (po : PopOut), form i = some f → f.enters s w po →
    let s1 := f.popped s w po
    let rs := f.sources s w po
    let v := fun (j l : Nat) => (src0 rs j).val l
    clean rs →
    (∀ (val : Nat → Lane), (∀ l, bitValue i (v 0 l) (v 1 l) (v 2 l) (v 3 l) = some (val l)) →
      let md := match i with
        | .popc .. | .clz .. => tagMd .u32
        | .bfi .. =>
          let d := (src0 rs 3).md.getD 0xF#32
          keptMd s1 w po.m (match (src0 rs 0).md with
            | some a => if mdTag d = .modq ∧ mdTag a = .modq then a else d
            | none => d) val
        | _ => keptMd s1 w po.m (firstMd rs) val
      comesTo i s w (f.puts s w po { s := s1, vals := val, md := md })) ∧
    (∀ g d a b e, i = .mulhi g d a b e → tagged rs .i32 →
      comesTo i s w (f.puts s w po { s := s1, vals := fun l => BitVec.ofInt 32 ((v 0 l).toInt * (v 1 l).toInt / 2 ^ 32), md := tagMd .i32 })) ∧
    (∀ g d a b e, i = .mulhi g d a b e → tagged rs .u32 →
      comesTo i s w (f.puts s w po { s := s1, vals := fun l => BitVec.ofNat 32 ((v 0 l).toNat * (v 1 l).toNat / 2 ^ 32), md := tagMd .u32 }))

/-- cmp, sel, dot and acs write their results. With clean sources of one accepted tag, not limb: cmp writes to P whether
every element meets the condition, or to V a mask of elements; sel takes A where C holds, by lane for P, the whole lane with
bits [31:30] of 6-bit tags too, which is the model's choice (log entry 53), and by element for V, under modq as a residue;
dot gives the sum of products and C under f32 or i32; acs gives the saturated minima and the survivor bits in P(n) and
P(n+1). No enabled flag is raised. (R114, R117, R118, R119, R121) -/
def Obligations.VectorSelectsComplete : Prop :=
  ∀ (s : State) (w : Nat) (i : Instr) (f : LaneForm) (po : PopOut) (t : Tag) (mi p : Nat), form i = some f → f.enters s w po →
    let s1 := f.popped s w po
    let rs := f.sources s w po
    let put := fun (o : LaneOut) => comesTo i s w (f.puts s w po o)
    clean rs →
    let ready := tagged (rs.take 2) t ∧ modulus s1 w (rs.take 2) t mi p
    let k := arith s1 w t mi p
    let x := s1.wave w
    let v := fun (j l : Nat) => (src0 rs j).lane k.env t p l
    let quiet := fun (fl : Nat → Flags) => allFlags x.id.width po.m fl &&& trapEnables x.amr = 0
    (∀ g cc d a b e, i = .cmp g cc d a b e → ready → t ≠ .raw → t ≠ .limb → (t = .modq → cc = .eq ∨ cc = .ne) →
      let es := fun (l : Nat) => cmpElems k cc (v 0 l).1 (v 1 l).1
      let fl := fun (l : Nat) => (es l).foldl (fun acc e => acc ||| e.2) ((v 0 l).2 ||| (v 1 l).2)
      quiet fl →
      (∀ n, d = .p n → put { s := flagged s1 w po.m fl, vals := fun _ => 0, md := 0, preds := [(n, maskOf x.id.width fun l => po.m.getLsbD l && (es l).all fun e => e.1)] }) ∧
      ((∀ n, d ≠ .p n) → put { s := flagged s1 w po.m fl, md := tagMd .raw, vals := fun l => BitVec.ofNat 32 (packElems t ((es l).map fun e => if e.1 then 2 ^ tagWidth t - 1 else 0)) })) ∧
    (∀ g d a b c e, i = .sel g d a b c e → ready → t ≠ .limb →
      let fl := fun (l : Nat) => (v 0 l).2 ||| (v 1 l).2
      let taken := fun (l : Nat) => match c with
        | .p n => if (readP s1 w 3 n).getLsbD l then (v 0 l).1 else (v 1 l).1
        | _ => laneOf t fun j => if elemOf t ((src0 rs 2).val l) j != 0 then elemOf t (v 0 l).1 j else elemOf t (v 1 l).1 j
      let out := fun (l : Nat) => if t = .modq then BitVec.ofNat 32 ((taken l).toNat % p) else taken l
      quiet fl → put { s := flagged s1 w po.m fl, vals := out, md := mkMd t 0 false false mi }) ∧
    (∀ g sat d a b c e, i = .dot g sat d a b c e → ready → dotTag t = true →
      (∀ md, (src0 rs 2).md = some md → mdTag md = if (tagFmt t).isSome then .f32 else .i32) →
      let out := fun (l : Nat) => dotLane k sat (v 0 l).1 (v 1 l).1 (src0 rs 2) l
      let fl := fun (l : Nat) => (out l).2 ||| (v 0 l).2 ||| (v 1 l).2
      quiet fl → put { s := flagged s1 w po.m fl, vals := fun l => (out l).1, md := tagMd (if (tagFmt t).isSome then .f32 else .i32) }) ∧
    (∀ g d a b c n, i = .acs g d a b c n → tagged rs .i16x2 →
      let e := fun (j l : Nat) => ((src0 rs j).lane k.env .i16x2 1 l).1
      let out := fun (l : Nat) => acsLane (e 0 l) (e 1 l) (e 2 l)
      let q := n.extractLsb' 0 3
      put { s := s1, vals := fun l => (out l).1, md := tagMd .i16x2, preds := [(q, maskOf x.id.width fun l => po.m.getLsbD l && (out l).2.1), (q + 1, maskOf x.id.width fun l => po.m.getLsbD l && (out l).2.2)] })

/-- add, sub, mul, min, max, neg, abs, cmp and sel on limb registers act on whole numbers. With clean sources whose operand
tag is limb and none longer than the capacity, the destination holds the whole-number result in every position below the
capacity, normal, when it needs no more limbs than the capacity; else 0x18 with the limbs needed. cmp writes its one answer
to every active lane of P; sel with a P that agrees on the active lanes takes one whole source, neither being longer than the
capacity. (R117, R118, R120, R254, R255, R257) -/
def Obligations.WholeNumberArithmeticCompletes : Prop :=
  ∀ (s : State) (w : Nat) (i : Instr) (f : LaneForm) (po : PopOut), form i = some f → f.enters s w po →
    let s1 := f.popped s w po
    let rs := f.sources s w po
    let x := s1.wave w
    let cap := x.capacity
    let n := fun (j : Nat) => (src0 rs j).whole x.id.width
    let short := fun (l : List Src) => ∀ r ∈ l, ∀ md ∈ r.md, mdLen md ≤ cap
    let number := fun (v : Int) => ({ s := s1, vals := fun l => BitVec.ofNat 32 (v.natAbs / 2 ^ (32 * l)), md := mkMd .limb (limbCount v.natAbs) (decide (v < 0)) false 0, lanes := some (allLanes cap) } : LaneOut)
    (clean rs → tagged rs .limb → short rs → ∀ v : Int,
      (match i with
        | .add .. => v = n 0 + n 1
        | .sub .. => v = n 0 - n 1
        | .mul .. => v = n 0 * n 1
        | .min .. => v = min (n 0) (n 1)
        | .max .. => v = max (n 0) (n 1)
        | .neg .. => v = -n 0
        | .abs .. => v = (n 0).natAbs
        | _ => False) →
      (limbCount v.natAbs ≤ cap → comesTo i s w (f.puts s w po (number v))) ∧
      (cap < limbCount v.natAbs → exec i s = .next (s.trapped w { code := 0x18#6, addr := BitVec.ofNat 64 (limbCount v.natAbs) }))) ∧
    (∀ g cc q a b e, i = .cmp g cc (.p q) a b e → clean rs → tagged rs .limb → short rs →
      comesTo i s w (f.puts s w po { s := s1, vals := fun _ => 0, md := 0, preds := [(q, if condInt cc (n 0) (n 1) then po.m else 0)] })) ∧
    (∀ g d a b q e, i = .sel g d a b (.p q) e → clean rs → tagged (rs.take 2) .limb →
      let bits := readP s1 w 3 q &&& po.m
      let j := if bits = po.m then 0 else 1
      (bits = 0 ∨ bits = po.m) → short [src0 rs 0, src0 rs 1] → (∀ md, (src0 rs j).md = some md →
        comesTo i s w (f.puts s w po { s := s1, vals := (src0 rs j).val, md := md, lanes := some (allLanes cap) })) ∧
      ((src0 rs j).md = none → limbCount (n j).natAbs ≤ cap → comesTo i s w (f.puts s w po (number (n j)))))

/-- mov, mov.tag, li, tagset, pack, unpk, cvt and rand write their lanes and metadata. mov, from a register, LANEID or a
port, copies bits and the whole metadata word, poison with it, a lost element as zero and poison to a V register while any
other destination raises 0x10; mov.tag and li write the value and the tag; tagset keeps the bits and POISON and sets the tag,
LEN = W for limb and MIDX from B for modq; pack replaces element j of D; unpk extracts it, extended; cvt converts by R126
with the generator stepped when stochastic; rand writes each active lane's draw and steps its count. (R95, R122, R123, R124,
R125, R126, R128, R129, R134, R179, R456) -/
def Obligations.VectorMovesComplete : Prop :=
  ∀ (s : State) (w : Nat) (i : Instr) (f : LaneForm) (po : PopOut), form i = some f → f.enters s w po →
    let s1 := f.popped s w po
    let x := s1.wave w
    let rs := f.sources s w po
    let v := fun (j l : Nat) => (src0 rs j).val l
    let put := fun (o : LaneOut) => comesTo i s w (f.puts s w po o)
    (∀ g d a e, i = .mov g d a ∨ i = .movPort g d a e → put { s := s1, vals := v 0, md := firstMd rs }) ∧
    (∀ g t d a, i = .movTag g t d a → put { s := s1, vals := v 0, md := tagMd t }) ∧
    (∀ g t d n, i = .li g t d n → put { s := s1, vals := fun _ => n, md := tagMd t }) ∧
    (∀ g t d a b e, i = .tagset g t d a b ∨ i = .tagsetPort g t d a b e →
      put { s := s1, vals := v 0, md := mkMd t (if t = .limb then x.id.width else 0) false (mdPoison (firstMd rs)) (if t = .modq then (src0 rs 1).word.toInt.toNat else 0) }) ∧
    (∀ g d a j, i = .pack g d a j → clean rs →
      let t := mdTag ((src0 rs 1).md.getD 0xF#32)
      (∀ md, (src0 rs 0).md = some md → mdTag md = .i32 ∨ mdTag md = .u32 ∨ mdTag md = .raw) → 1 < tagElems t → j.toNat < tagElems t →
      put { s := s1, md := tagMd t, vals := fun l => laneOf t fun e => if e = j.toNat then (v 0 l).toNat else elemOf t (v 1 l) e }) ∧
    (∀ g d a j, i = .unpk g d a j → clean rs →
      let t := mdTag (firstMd rs)
      1 < tagElems t → j.toNat < tagElems t → put { s := s1, md := tagMd (if (tagFmt t).isSome then .u32 else .i32), vals := fun l => if (tagFmt t).isSome then BitVec.ofNat 32 (elemOf t (v 0 l) j.toNat) else BitVec.ofInt 32 (elemInt t (v 0 l) j.toNat) }) ∧
    (∀ g t sr d a j, i = .cvt g t sr d a j → clean rs →
      let u := mdTag (firstMd rs)
      let stoch := sr || (x.amr.extractLsb' 0 3 == 5#3 && stochTarget t)
      let gen := genNext x.convGen
      let s2 := if stoch then s1.setWave w { x with convGen := gen } else s1
      let out := fun (l : Nat) => cvtLane u t (FEnv.ofAmr x.amr) (fun e => if stoch then some (genDraw gen l e) else none) j.toNat
        ((x.vreg (regOf d)).lanes.getD l 0) (v 0 l)
      u ≠ .limb → u ≠ .modq → cvtIndexOk u t j.toNat = true →
      allFlags x.id.width po.m (fun l => (out l).2) &&& trapEnables x.amr = 0 →
      put { s := flagged s2 w po.m fun l => (out l).2, vals := fun l => (out l).1, md := tagMd t }) ∧
    (∀ g d, i = .rand g d →
      let spent := fun (l : Nat) => x.lc.randC.getD l 0 == 2 ^ 32
      let c := fun (l : Nat) => if spent l then 0 else x.lc.randC.getD l 0
      (x.amr.getLsbD 13 = true ∨ maskOf x.id.width (fun l => po.m.getLsbD l && spent l) = 0) →
      put { s := s1.setWave w { x with lc.randC := (List.range x.lc.randC.length).map fun l => if po.m.getLsbD l then c l + 1 else x.lc.randC.getD l 0 },
            vals := fun l => randValue (x.amr.extractLsb' 32 32) (x.lc.randG.getD l 0) (c l), md := tagMd .u32 })

/-- What a lane-wise result does to a V register, to predicates and through a push port. Where D is a V register below the
count, the active lanes hold the result, the inactive ones what they held, the metadata word is the new one, and other
registers, waves and memory stand; of a predicate the active lanes take their bits, P7 discards them. Where D is a push-bound
port: more active lanes than C raise 0x02; else an end of stream present, or a drop in progress, 0x12; else too little room
stalls at the ring with the need noted, in deterministic mode an access that must block once too (log entry 55), and a
recovery hold or a held ordered atomic of the wave stalls; else the wave's stores are performed, its interval rises, and the
active lanes' results follow the occupied elements in ascending lane order. li, as every lane-wise instruction, ends with
what its destination raises. (R25, R38, R93, R112, R242, R243, R249, R394) -/
def Obligations.LaneDestinations : Prop :=
  ∀ (s u : State) (w : Nat) (m : Mask) (vals : Nat → Lane) (md : BitVec 32) (ps : List (BitVec 3 × Mask)) (d : Opnd), w < u.waves.length →
    let x := u.wave w
    let W := x.id.width
    let put := putLanes s w m d { s := u, vals := vals, md := md, preds := ps }
    (∀ n, d = .v n → n.toNat < x.v.length → (x.vreg n.toNat).lanes.length = W → ∃ r, put = .ok r ∧ onlyWave u r w ∧
      let y := r.wave w
      (∀ l, l < W → (y.vreg n.toNat).lanes.getD l 0 = if m.getLsbD l then vals l else (x.vreg n.toNat).lanes.getD l 0) ∧
      (y.vreg n.toNat).lanes.length = W ∧ (y.vreg n.toNat).md = md ∧ (∀ k, k ≠ n.toNat → y.vreg k = x.vreg k) ∧
      y.s = x.s ∧ y.hb = x.hb ∧ y.fflags = x.fflags ∧ y.mem = x.mem ∧ (ps = [] → y.preds = x.preds)) ∧
    (∀ p bits, isPort d = false → ps = [(p, bits)] → x.preds.length = 7 → ∃ r, put = .ok r ∧ onlyWave u r w ∧
      let y := r.wave w
      (∀ l, (y.pred p).getLsbD l = if p ≠ 7 ∧ m.getLsbD l then bits.getLsbD l else (x.pred p).getLsbD l) ∧
      (∀ q, q ≠ p → y.pred q = x.pred q) ∧ ((∀ n, d ≠ .v n) → y.v = x.v)) ∧
    (∀ n ri push, d = .q n → ps = [] → x.port n.toNat = some (ri, push) →
      let ring := (u.waveGroup w).ring ri
      let ls := lanesOf W m
      let v := u.performAll w
      let g := x.id.group
      (ring.cap < ls.length → put = .error (.trap { code := 0x02#6, addr := opndAddr (.q n) })) ∧
      (ls.length ≤ ring.cap →
        (ring.eos ≠ none ∨ ring.dropping = true → put = .error (.trap { code := 0x12#6 })) ∧
        (ring.eos = none → ring.dropping = false →
          (ring.room < ls.length ∨ s.blocksOnce w ring = true → put = .error (.stall .ring (s.modWave w fun y => { y with sch.need := some (ri, true, ls.length) }))) ∧
          (ls.length ≤ ring.room → s.blocksOnce w ring = false →
            (s.storesHeld w = true → put = .error (.stall .hold s)) ∧
            (s.storesHeld w = false → s.aodPending w = true → put = .error (.stall .settle s)) ∧
            (s.storesHeld w = false → s.aodPending w = false → g < u.groups.length → ri < (u.group g).rings.length → (v.group g).sp.wf = true →
              ∃ r, put = .ok r ∧ r.mem = v.mem ∧ (r.wave w).mem.interval = (v.wave w).mem.interval + 1 ∧ (∀ k, k ≠ g → r.group k = v.group k) ∧
                (r.group g).ring ri = { ring with occ := ring.occ ++ List.replicate ls.length true } ∧ (∀ k, k ≠ ri → (r.group g).ring k = (v.group g).ring k) ∧
                (∀ k, k < ls.length → BitVec.ofNat 32 ((r.group g).sp.readLe (ring.place (ring.head + ring.occ.length + k)) 4) = vals (ls.getD k 0)) ∧
                (∀ a, (∀ k, k < ls.length → a < ring.place (ring.head + ring.occ.length + k) ∨ ring.place (ring.head + ring.occ.length + k) + 4 ≤ a) →
                  (r.group g).sp.read a = (v.group g).sp.read a)))))) ∧
    (∀ i f po gs t k, i = Instr.li gs t d k → form i = some f → f.enters s w po →
      (∀ e, putLanes s w po.m d { s := f.popped s w po, vals := fun _ => k, md := tagMd t } = .error (.trap e) → exec i s = .next (s.trapped w e)) ∧
      (∀ why q, putLanes s w po.m d { s := f.popped s w po, vals := fun _ => k, md := tagMd t } = .error (.stall why q) → exec i s = .next (q.stallWave w why).tick))

/-- tagget, metard and metawr read and write the metadata word. tagget writes the tag code and metard the whole metadata word
of a V register to S, whatever the mask; metawr replaces the word, leaving the lanes, when bits 31:23 are zero and LEN is at
most W, and else raises 0x02. (R92, R122, R123) -/
def Obligations.MetadataAccessCompletes : Prop :=
  ∀ (s : State) (w : Nat) (n : BitVec 6) (a : Opnd) (x : Word), s.running = some w →
    let md := (readV s w 1 (regOf a)).md
    (checkOps s w [(.s n, .onlyS), (a, .onlyV)] = .ok () →
      exec (.tagget (.s n) a) s = .next (completed s w (s.modWave w fun y => y.setS n.toNat (BitVec.ofNat 64 (mdTag md).code.toNat))) ∧
      exec (.metard (.s n) a) s = .next (completed s w (s.modWave w fun y => y.setS n.toNat (md.zeroExtend 64)))) ∧
    (checkOps s w [(.v n, .onlyV), (a, .sv)] = .ok () → uniOf s w (s.wave w).exec 1 a = .ok x →
      let m : BitVec 32 := x.extractLsb' 0 32
      if m.toNat < 2 ^ 23 ∧ m.toNat / 16 % 2 ^ 11 ≤ (s.wave w).id.width then
        exec (.metawr (.v n) a) s = .next (completed s w (s.modWave w fun y =>
          { y with v := y.v.set n.toNat { lanes := (y.vreg n.toNat).lanes, md := m } }))
      else exec (.metawr (.v n) a) s = .next (s.trapped w { code := 0x02#6, addr := opndAddr a }))

namespace Sys2Proof.Claims

/-- A member-set instruction has acted with the effect `r`: the waiting paths become PEND after it, the current one moves on. -/
def released (s : State) (w : Nat) (r : State) : State := (r.modWave w Wave.release).retire w (s.wave w)

/-- F of the current clause. -/
def after (x : Wave) : Pos := { hdr := x.hdr + BitVec.ofNat 64 (8 * (x.sch.count + 1)), idx := 0 }

/-- Lanes leave LIVE of each region of a list. -/
def leaveRegions (m : Mask) (x : Wave) (rs : List (BitVec 6)) : Wave :=
  rs.foldl (fun y r => y.modRegion r fun e => { e with live := e.live &&& ~~~ m }) x

/-- What follows when the current path of the wave `y` has no lane left: the next path is current, which takes one issue slot
(R186), or the wave, drained, ends. -/
def nextPath (s : State) (w : Nat) (y : Wave) : Option State :=
  match y.pathEnded y.cur with
  | some z => some ((s.setWave w z).pathSlot w)
  | none => if s.drainedWave w then some (s.leave w) else none

/-- The lane that a member lane of a set gives in `shfl`: the lane number computed, when it is a member. -/
def member (W : Nat) (m : Mask) (k : Int) : Option Nat := if 0 ≤ k ∧ k < (W : Int) ∧ m.getLsbD k.toNat then some k.toNat else none

/-- The result of a permute: one LD operation that brings each participant the source lane's value, 0 and a false predicate where
there is none. -/
def moved (s : State) (w d : Nat) (pe : BitVec 3) (parts : Mask) (a : VReg) (src : Nat → Option Nat) : State :=
  let W := (s.wave w).id.width
  let t := mdTag a.md
  s.modWave w fun y => y.count .ld true
    [.v d parts ((List.range W).map fun l => match src l with | some k => a.lanes.getD k 0 | none => 0) 0
      (mkMd t 0 false false (if t = .modq then mdMidx a.md else 0)),
     .p pe parts (maskOf W fun l => (src l).isSome)]

/-- The prefix of the member lanes below `n`. -/
def scanned (op : ScanOp) (sgn : Bool) (m : Mask) (lanes : List Lane) (n : Nat) : Lane :=
  ((List.range n).filter fun l => m.getLsbD l).foldl (fun acc l => scanOp op sgn acc (lanes.getD l 0)) (scanIdentity op sgn)

/-- The lanes of wave `w` have moved: place `k` holds what stood at place `o k`, and the masks of what outstanding operations and
heap commands of the wave have still to write have moved with them; memory, the S registers and the other waves stand. -/
def follows (s t : State) (w : Nat) (o : List Nat) : Prop :=
  let x := s.wave w
  let y := t.wave w
  (∀ k r, k < o.length → mdTag (x.vreg r).md ≠ .limb → (y.vreg r).lanes.getD k 0 = (x.vreg r).lanes.getD (o.getD k 0) 0 ∧ (y.vreg r).md = (x.vreg r).md) ∧
  (∀ r, mdTag (x.vreg r).md = .limb → y.vreg r = x.vreg r) ∧
  (∀ k p, k < o.length → k < 1024 → (y.preds.getD p 0).getLsbD k = (x.preds.getD p 0).getLsbD (o.getD k 0)) ∧
  (∀ k, k < o.length → k < 1024 → y.lc.dead.getLsbD k = x.lc.dead.getLsbD (o.getD k 0) ∧
    y.lc.exited.getLsbD k = x.lc.exited.getLsbD (o.getD k 0) ∧ y.lc.xfault.getLsbD k = x.lc.xfault.getLsbD (o.getD k 0) ∧
    y.exec.getLsbD k = x.exec.getLsbD (o.getD k 0)) ∧
  (∀ k, k < o.length → y.lc.gmap.getD k 0 = x.lc.gmap.getD (o.getD k 0) 0 ∧ y.lc.randG.getD k 0 = x.lc.randG.getD (o.getD k 0) 0 ∧
    y.lc.randC.getD k 0 = x.lc.randC.getD (o.getD k 0) 0) ∧
  y.mem.outst = x.mem.outst.map (fun c => { c with dests := c.dests.map (Dest.renumber o) }) ∧
  (∀ d, (t.die d).heapQ = (s.die d).heapQ.map fun c => match c.op with
    | .alloc n z f m pe => if c.wave = w then { c with op := .alloc n z f (rearrangeMask o m) pe } else c
    | _ => c) ∧
  y.s = x.s ∧ t.mem = s.mem ∧ ∀ u, u ≠ w → t.wave u = s.wave u

/-- The wave holds one path, no region, no `xeq` in progress and no LD operation outstanding. -/
abbrev single (x : Wave) : Prop :=
  x.outstanding .ld = 0 ∧ x.pathCount = 1 ∧ x.lc.regions.all (fun r => !r.valid) = true ∧ x.chanting = false

end Sys2Proof.Claims

/-- dbr, join, brk and exitl move lanes between paths and regions. dbr goes to the target or to F when no lane or every lane
fails the predicate, and else opens the lowest free region, leaves the failing lanes as a PEND path at F and goes on at the
target with the others, or raises 0x1D. join ends the path into ARR of its region, and raises 0x01 in ROOT. brk takes lanes
out of the n innermost regions, exitl ends lanes; the rest goes on at F, or the next path runs, its change taking an issue
slot, or the wave ends. (R186, R187, R191, R192, R193, R194, R195) -/
def Obligations.DivergenceCompletes : Prop :=
  ∀ (s : State) (w : Nat) (t rc : BitVec 16) (pg : Guard) (g : Guards) (n : BitVec 4), s.running = some w →
    let x := s.wave w
    let m := x.exec
    let to_ : Word := x.hdr + BitVec.ofInt 64 (8 * t.toInt)
    let ends := fun (i : Instr) (y : Wave) => ∀ r, nextPath s w y = some r → exec i s = .next (jumped s w r)
    (let yes := m &&& guardBits pg (readP s w 0 pg.p)
     let no := m &&& ~~~ guardBits pg (readP s w 0 pg.p)
     (no = 0 → mayBranch s w to_ → exec (.dbr t rc pg) s = .next (jumped s w (landed x w to_ s))) ∧
     (no ≠ 0 → yes = 0 → mayBranch s w (after x).hdr → exec (.dbr t rc pg) s = .next (jumped s w (landed x w (after x).hdr s))) ∧
     (no ≠ 0 → yes ≠ 0 →
       (∀ q i, x.freeRegion = some q → x.freePath = some i →
         let r := BitVec.ofNat 6 q
         let e : Region := { valid := true, ra := (x.hdr + BitVec.ofInt 64 (8 * rc.toInt)).extractLsb' 3 61, par := x.path.reg, live := m, arr := 0 }
         let y := (x.modRegion r fun _ => e).setPath i { st := .pend, pos := after x, mask := no, reg := r, mset := 0 }
         let z := y.modPath x.cur fun p => { p with mask := yes, reg := r }
         let z : Wave := { z with tr.opened := if x.tr.hm then z.tr.opened ||| BitVec.ofNat 32 (2 ^ q) else z.tr.opened }
         exec (.dbr t rc pg) s = .next (jumped s w (s.setWave w (z.goto { hdr := to_, idx := 0 })))) ∧
       (x.freeRegion = none ∨ x.freePath = none → exec (.dbr t rc pg) s = .next (s.trapped w { code := 0x1D#6 })))) ∧
    (x.path.reg = root → exec .join s = .next (s.trapped w { code := 0x01#6 })) ∧
    (x.path.reg ≠ root → ends .join (x.modRegion x.path.reg fun r => { r with arr := r.arr ||| m, live := r.live &&& ~~~ m })) ∧
    (let mb := activeMask s w g
     let chain := x.chain 33 x.path.reg
     let gone := leaveRegions mb { x with lc.exited := x.lc.exited ||| mb } chain
     (mb = 0 → exec (.brk g t n) s = .next (jumped s w (s.setWave w (x.goto (after x)))) ∧
       exec (.exitl g) s = .next (jumped s w (s.setWave w (x.goto (after x))))) ∧
     (mb ≠ 0 → n.toNat ≤ chain.length → ∀ z i,
       (leaveRegions mb x (chain.take n.toNat)).pendLanes to_ ((chain.drop n.toNat).headD root) mb = some (z, i) →
       (m &&& ~~~ mb ≠ 0 → exec (.brk g t n) s = .next (jumped s w (s.setWave w
         ((z.modPath x.cur fun p => { p with mask := m &&& ~~~ mb }).goto (after x))))) ∧
       (m &&& ~~~ mb = 0 → ends (.brk g t n) z)) ∧
     (mb ≠ 0 → gone.live = 0 → s.drainedWave w = true → exec (.exitl g) s = .next (jumped s w ((s.setWave w gone).leave w))) ∧
     (mb ≠ 0 → gone.live ≠ 0 → m &&& ~~~ mb ≠ 0 → exec (.exitl g) s = .next (jumped s w (s.setWave w
       ((gone.modPath x.cur fun p => { p with mask := m &&& ~~~ mb }).goto (after x))))) ∧
     (mb ≠ 0 → gone.live ≠ 0 → m &&& ~~~ mb = 0 → ends (.exitl g) gone))

/-- A member-set instruction acts when every named lane has come, waits until then, and traps on a set that cannot. With m
the live lanes that the set names and the paths that wait at the same place: the instruction acts for all their lanes once
they cover m. Otherwise, when another path can still come, the path waits: its record becomes MWAIT with the set v, its
position, mask and region unchanged, Select makes another path current, which takes one issue slot of the core, and nothing
else changes but the count of steps. An exited named lane, a lane of the path outside the set, a waiting path with another
set, and a set that no path can complete raise 0x08 with the set in TADDR; so does, with its own set, a waiting path that
Select made current. (R197, R198, R199, R200, R186) -/
def Obligations.MemberSetsGather : Prop :=
  ∀ (s : State) (w : Nat) (v : Word), s.running = some w → w < s.waves.length → (s.wave w).cur < (s.wave w).lc.paths.length →
    let x := s.wave w
    let m := maskOf x.id.width fun l => v.getLsbD (l / 32) && v.getLsbD (32 + l % 32) && !x.lc.dead.getLsbD l
    let all := x.waiters.foldl (fun acc i => acc ||| (x.lc.paths.getD i PathRec.none).mask) x.exec
    let other := x.waiters.any fun i => x.members (x.lc.paths.getD i PathRec.none).mset != m
    let hope := (x.lc.paths.any fun p => p.st == .pend) || ((x.lc.paths.take x.cur).any fun p => p.st == .mwait)
    (x.path.due = some (x.pos, false) → gather s w v = .error (.trap { code := 0x08#6, addr := x.path.mset })) ∧
    (x.path.due ≠ some (x.pos, false) →
      (m &&& x.lc.exited ≠ 0 ∨ x.exec &&& ~~~ m ≠ 0 ∨ other = true → gather s w v = .error (.trap { code := 0x08#6, addr := v })) ∧
      (m &&& x.lc.exited = 0 → x.exec &&& ~~~ m = 0 → other = false →
        (m &&& ~~~ all = 0 → gather s w v = .ok all) ∧
        (m &&& ~~~ all ≠ 0 → hope = false → gather s w v = .error (.trap { code := 0x08#6, addr := v })) ∧
        (m &&& ~~~ all ≠ 0 → hope = true → ∃ y : Wave,
          (x.setPath x.cur { x.path with st := .mwait, mset := v }).select x.cur = some y ∧
          gather s w v = .error (.done ((s.setWave w y).pathSlot w).tick) ∧
          y.lc.paths.getD x.cur PathRec.none = { x.path with st := .mwait, mset := v } ∧
          (∃ i, i ≠ x.cur ∧ (y.lc.paths.getD i PathRec.none).st = .run) ∧
          y.v = x.v ∧ y.s = x.s ∧ y.preds = x.preds ∧ y.mem = x.mem ∧ y.lc.regions = x.lc.regions)))

/-- vote, shfl, perm, bcst and scan give their results to the participants. Once the member set is complete: vote.any and
vote.all write the OR or AND over the members to Pd of every participant, vote.ballot word l mod 32 of the member bits to
lane l with tag u32; shfl, perm and bcst bring each participant the named member lane's value by one LD operation, and 0 with
a false predicate where there is none, perm preferring the highest sender; scan writes inclusive or exclusive prefixes in
ascending lane order. Each waits or traps as its member set says, before the LD counter is looked at. The set is the one in
C, or, where a lane death completed the set of a waiting path, that path's own, which is the model's reading (log entries 23
and 55), as is the index of bcst as an unsigned 32-bit number (log entry 25). (R201, R202, R203, R204, R205, R18) -/
def Obligations.VotesAndPermutesComplete : Prop :=
  ∀ (s : State) (w : Nat) (a b : Opnd) (n : BitVec 6) (q pa : BitVec 3) (pe : BitVec 3) (c : BitVec 6) (md : ShflMode) (op : ScanOp) (ex : Bool) (k : Word)
    (parts : Mask), s.running = some w →
    let x := s.wave w
    let set := fun (site : Nat) => if x.path.due = some (x.pos, true) then x.path.mset else readS s w site c.toNat
    let stops := fun (i : Instr) (site : Nat) => (∀ t, gather s w (set site) = .error (.done t) → exec i s = .next t) ∧
      (∀ e, gather s w (set site) = .error (.trap e) → exec i s = .next (s.trapped w e))
    (checkOps s w [(.p q, .onlyP), (.p pa, .onlyP), (.s c, .onlyS)] = .ok () →
      stops (.vote .any (.p q) (.p pa) (.s c)) 2 ∧ stops (.vote .all (.p q) (.p pa) (.s c)) 2) ∧
    (checkOps s w [(.v n, .onlyV), (.p pa, .onlyP), (.s c, .onlyS)] = .ok () → stops (.vote .ballot (.v n) (.p pa) (.s c)) 2) ∧
    (checkOps s w [(.v n, .onlyV), (a, .lanes), (.s c, .onlyS)] = .ok () → stops (.scan op ex (.v n) a (.s c)) 2) ∧
    (checkOps s w [(.v n, .onlyV), (a, .lanes), (b, .count), (.s c, .onlyS)] = .ok () →
      stops (.bcst (.v n) a b (.s c) pe) 3) ∧
    (checkOps s w [(.v n, .onlyV), (a, .lanes), (b, { v := true, s := true, imm := true, lane := true }), (.s c, .onlyS)] = .ok () →
      stops (.shfl md (.v n) a b (.s c) pe) 3 ∧ stops (.perm (.v n) a b (.s c) pe) 3) ∧
    (checkOps s w [(.p q, .onlyP), (.p pa, .onlyP), (.s c, .onlyS)] = .ok () → gather s w (set 2) = .ok parts →
      let m := x.members (set 2)
      let bits := readP s w 1 pa
      exec (.vote .any (.p q) (.p pa) (.s c)) s = .next (released s w (s.modWave w fun y => y.setP q parts (if m &&& bits = 0 then 0 else BitVec.allOnes 1024))) ∧
      exec (.vote .all (.p q) (.p pa) (.s c)) s = .next (released s w (s.modWave w fun y => y.setP q parts (if m &&& ~~~ bits = 0 then BitVec.allOnes 1024 else 0)))) ∧
    (checkOps s w [(.v n, .onlyV), (.p pa, .onlyP), (.s c, .onlyS)] = .ok () → gather s w (set 2) = .ok parts →
      exec (.vote .ballot (.v n) (.p pa) (.s c)) s = .next (released s w (s.modWave w fun y => y.setV n.toNat parts
        ((List.range x.id.width).map fun l => (x.members (set 2) &&& readP s w 1 pa).extractLsb' (32 * (l % 32)) 32) (tagMd .u32)))) ∧
    (let W := x.id.width
     let ra := vSource s w 1 a
     let bs := srcOf s w [] 2 b
     let m := x.members (set 3)
     let quiet := roomFor s w .ld = .ok () ∧ gather s w (set 3) = .ok parts ∧ demandClean s w parts [a, b] = .ok () ∧ mdTag ra.md ≠ .limb
     let put := fun (i : Instr) (src : Nat → Option Nat) => exec i s = .next (released s w (moved s w n.toNat pe parts ra src))
     let byLane : Accept := { v := true, s := true, imm := true, lane := true }
     (checkOps s w [(.v n, .onlyV), (a, .lanes), (b, byLane), (.s c, .onlyS)] = .ok () → quiet →
       put (.shfl md (.v n) a b (.s c) pe) (fun l => member W m (match md with
         | .idx => (bs.val l).toNat
         | .up => (l : Int) - (bs.val l).toNat
         | .down => (l : Int) + (bs.val l).toNat
         | .xor => (l ^^^ (bs.val l).toNat : Nat))) ∧
       put (.perm (.v n) a b (.s c) pe) (fun l => (lanesOf W parts).reverse.find? fun e => member W m (bs.val e).toNat == some l)) ∧
     (checkOps s w [(.v n, .onlyV), (a, .lanes), (b, .count), (.s c, .onlyS)] = .ok () → quiet → uniOf s w parts 2 b = .ok k →
       put (.bcst (.v n) a b (.s c) pe) (fun _ => member W m (k.extractLsb' 0 32).toNat))) ∧
    (let ra := vSource s w 1 a
     let t := mdTag ra.md
     let sgn := decide (t = .i32)
     checkOps s w [(.v n, .onlyV), (a, .lanes), (.s c, .onlyS)] = .ok () → gather s w (set 2) = .ok parts → demandClean s w parts [a] = .ok () →
     (t = .i32 ∨ t = .u32) →
     exec (.scan op ex (.v n) a (.s c)) s = .next (released s w (s.modWave w fun y => y.setV n.toNat parts
       ((List.range ra.lanes.length).map fun l => scanned op sgn (x.members (set 2)) ra.lanes (if ex then l else l + 1)) (tagMd t))))

/-- regrp, ungrp, maskrd, maskwr and deadrd renumber lanes and give access to the masks. In a wave with one path, no region,
no xeq in progress and no LD operation outstanding, regrp completes and places the live lanes first in their order, and ungrp
completes and places every lane at its launch index, resetting the map; registers but limb ones, predicates, DEAD, XFAULT,
EXEC, the lane map and the key and count of rand move with them, and so do the masks of what outstanding operations and heap
commands of the wave have still to write (R283). maskrd reads word i of EXEC, DEAD or XFAULT, maskwr clears XFAULT bits of
word i, deadrd writes DEAD to P; an index of 32 or more raises 0x02 with its operand field in TADDR. (R206, R207, R208, R209,
R283, R344) -/
def Obligations.CompactionAndMasksComplete : Prop :=
  ∀ (s : State) (w : Nat) (n : BitVec 6) (q : BitVec 3) (k : BitVec 5) (a b : Opnd) (i v : Word), s.running = some w →
    let x := s.wave w
    let lanes := List.range x.id.width
    let front := (lanes.filter fun l => x.live.getLsbD l) ++ lanes.filter fun l => !x.live.getLsbD l
    let home := lanes.map fun l => x.lc.gmap.idxOf l
    (single x →
      exec .regrp s = .next (completed s w (s.renumberLanes w front)) ∧ (w < s.waves.length → follows s (s.renumberLanes w front) w front) ∧
      exec .ungrp s = .next (completed s w ((s.renumberLanes w home).modWave w fun y => { y with lc.gmap := lanes })) ∧
      (w < s.waves.length → follows s (s.renumberLanes w home) w home)) ∧
    (x.outstanding .ld = 0 → ¬ single x → exec .regrp s = .next (s.trapped w { code := 0x01#6 }) ∧
      exec .ungrp s = .next (s.trapped w { code := 0x01#6 })) ∧
    (checkOps s w [(.s n, .onlyS), (.special k, { msk := true }), (b, .si)] = .ok () → uni1 s w b = .ok i →
      let m := if k = 4#5 then x.exec else if k = 5#5 then x.lc.dead else x.lc.xfault
      (i.toNat < 32 → exec (.maskrd (.s n) (.special k) b) s =
        .next (completed s w (s.modWave w fun y => y.setS n.toNat ((m.extractLsb' (32 * i.toNat) 32).zeroExtend 64)))) ∧
      (32 ≤ i.toNat → exec (.maskrd (.s n) (.special k) b) s = .next (s.trapped w { code := 0x02#6, addr := b.code.zeroExtend 64 }))) ∧
    (checkOps s w [(.special 6#5, { msk := true }), (a, .si), (b, .si)] = .ok () → uni2 s w a b = .ok (i, v) →
      (i.toNat < 32 → exec (.maskwr (.special 6#5) a b) s = .next (completed s w (s.modWave w fun y =>
        { y with lc.xfault := y.lc.xfault &&& ~~~ ((v.extractLsb' 0 32).zeroExtend 1024 <<< (32 * i.toNat)) }))) ∧
      (32 ≤ i.toNat → exec (.maskwr (.special 6#5) a b) s = .next (s.trapped w { code := 0x02#6, addr := a.code.zeroExtend 64 }))) ∧
    (checkOps s w [(.p q, .onlyP)] = .ok () →
      exec (.deadrd (.p q)) s = .next (completed s w (s.modWave w fun y => y.setP q (allLanes x.id.width) x.lc.dead)))

/-- xeq starts, runs one computed word at a time and ends. On an even pair of V registers: xeq with no active lane completes
with no effect; else it takes the lane snapshot and sets BUSY of XPROG, without moving on; each step then performs the lowest
distinct word not yet done, by xeq itself or as COMPUTED_WORD, an illegal word marking its lanes in XFAULT and setting ILL;
with no word left it clears XPROG and completes, or raises 0x09 for .t when ILL was set; lanes that died meanwhile leave at
that boundary, before the trap. That 0x09 names the XFAULT lanes within XM is the model's reading (log entry 24), and so is
that lanes dying during an xeq leave when it ends (log entry 55). (R210, R211, R212, R213, R214, R217, R344) -/
def Obligations.ChanterCompletes : Prop :=
  ∀ (s r : State) (w : Nat) (g : Guards) (t : Bool) (n : BitVec 6) (word : Word), s.running = some w → w < s.waves.length →
    let x := s.wave w
    let m := activeMask s w g
    let words := chantWords s w n.toNat
    let done_ := s.modWave w fun y => { y with lc.xprog := 0 }
    let step_ := fun (b : Bool) (q : State) => (q.modWave w fun y =>
      { y with lc.xprog := (y.lc.xprog + 1) ||| (if b then 0x40000000#32 else 0) }).tick
    checkOps s w [(.v n, .onlyV)] = .ok () → n.toNat % 2 = 0 → n.toNat + 2 ≤ x.v.length →
    (x.lc.xprog.getLsbD 31 = false → m = 0 → exec (.xeq g t (.v n)) s = .next (completed s w s)) ∧
    (x.lc.xprog.getLsbD 31 = false → m ≠ 0 → demandClean s w m [.v n, .v (n + 1)] = .ok () →
      exec (.xeq g t (.v n)) s = .next (s.modWave w fun y => { y with lc.xm := m, lc.xprog := 0x80000000#32 }).tick) ∧
    (x.lc.xprog.getLsbD 31 = true → words[(x.lc.xprog.extractLsb' 0 11).toNat]? = none →
      let left := done_.settleDying w
      exec (.xeq g t (.v n)) s = .next (if t && x.lc.xprog.getLsbD 30 then
        (if (left.wave w).pos == x.pos && (left.wave w).resident then
          left.trapped w { code := 0x09#6, lanes := some (x.lc.xfault &&& x.lc.xm), resume := true } else left.tick)
        else (completed s w done_).settleDying w)) ∧
    (x.lc.xprog.getLsbD 31 = true → words[(x.lc.xprog.extractLsb' 0 11).toNat]? = some word →
      let hit := chantLanes s w n.toNat word
      let both := fun (q : State) => exec (.xeq g t (.v n)) s = .next q ∧
        (decodeWord x.word = .ok (.xeq g t (.v n)) → x.sch.stall = none → exec (.computedWord w) s = .next q)
      (legalWord s w n.toNat word = none → both (step_ true (s.modWave w fun y => { y with lc.xfault := y.lc.xfault ||| hit }))) ∧
      (∀ f, legalWord s w n.toNat word = some f → (f.atom = none ∨ s.staged x.id.group = false) → f.act hit s w = .ok r →
        both (step_ false r)))

namespace Sys2Proof.Claims

/-- A register instruction of class 5 comes to its work: its operands are accepted, what else its fields must satisfy holds, and a
lane is active. -/
abbrev limbReady (s : State) (w : Nat) (g : Guards) (checks : List (Opnd × Accept)) (extra : Bool) : Prop :=
  s.running = some w ∧ checkOps s w checks = .ok () ∧ extra = true ∧ activeMask s w g ≠ 0

/-- The limb sources `limbs` and the others are clean, the former carry limb, and no limb source is longer than the capacity. -/
abbrev limbReads (s : State) (w : Nat) (g : Guards) (limbs others : List Opnd) (rs : List Src) : Prop :=
  limbSrcs s w (activeMask s w g) limbs others = .ok rs ∧ ∀ r ∈ rs.take limbs.length, (r.md.all fun md => decide (mdLen md ≤ (s.wave w).capacity)) = true

/-- The whole number `v` is written to V register d: normal, in every position below the capacity. -/
def wroteWhole (s : State) (w d : Nat) (v : Int) : State :=
  s.modWave w fun x => x.setV d (allLanes x.capacity) ((List.range x.id.width).map fun l => BitVec.ofNat 32 (v.natAbs / 2 ^ (32 * l)))
    (mkMd .limb (limbCount v.natAbs) (decide (v < 0)) false 0)

/-- What an instruction that gives the whole number `v` does: it writes it, or raises 0x18 with the limbs needed. -/
def givesWhole (i : Instr) (s : State) (w : Nat) (d : BitVec 6) (v : Int) : Prop :=
  exec i s = .next (if limbCount v.natAbs ≤ (s.wave w).capacity then completed s w (wroteWhole s w d.toNat v)
    else s.trapped w { code := 0x18#6, addr := BitVec.ofNat 64 (limbCount v.natAbs) })

/-- What an instruction that writes the number `v` to an S register does. -/
def givesS (i : Instr) (s : State) (w : Nat) (n : BitVec 6) (v : Int) : Prop :=
  exec i s = .next (completed s w (s.modWave w fun x => x.setS n.toNat (BitVec.ofInt 64 v)))

/-- The pairColumn values of a pair of registers: dead positions count as zero. -/
def pairColumn (s : State) (w site : Nat) (n : BitVec 6) (l : Nat) : Nat :=
  if (s.wave w).lc.dead.getLsbD l then 0 else ((srcOf s w [] site (.v n)).val l).toNat

end Sys2Proof.Claims

/-- blen, bnorm, bshl, bshr, bcmp, bmulw and bmodw compute on whole numbers. With an active lane and clean limb sources no
longer than the capacity: blen gives the bit length of the magnitude; bnorm the same number, normal; bshl and bshr the
magnitude shifted with its sign, a zero without; bcmp −1, 0 or 1, by magnitude with .m; bmulw A × B[31:0] + C[31:0]; bmodw
|A| mod B[31:0], 0x0A for a zero modulus. A result with more limbs than the capacity raises 0x18. (R254, R255, R258, R259,
R260, R261, R262) -/
def Obligations.WholeNumberRegistersComplete : Prop :=
  ∀ (s : State) (w : Nat) (g : Guards) (mag : Bool) (d n : BitVec 6) (a b c : Opnd) (rs : List Src) (k j : Word),
    let m := activeMask s w g
    let v := wholeOf s w rs 0
    let u := wholeOf s w rs 1
    (limbReady s w g [(.s n, .onlyS), (a, .onlyV)] true → limbReads s w g [a] [] rs →
      givesS (.blen g (.s n) a) s w n (if v = 0 then 0 else (Nat.log2 v.natAbs + 1 : Nat))) ∧
    (limbReady s w g [(.v d, .onlyV), (a, .onlyV)] true → limbReads s w g [a] [] rs → givesWhole (.bnorm g (.v d) a) s w d v) ∧
    (limbReady s w g [(.v d, .onlyV), (a, .onlyV), (b, .count)] (countImm b) → limbReads s w g [a] [b] rs → uniOf s w m 2 b = .ok k →
      givesWhole (.bshl g (.v d) a b) s w d (v * 2 ^ k.toNat) ∧
      givesWhole (.bshr g (.v d) a b) s w d (if v < 0 then -(v.natAbs / 2 ^ k.toNat : Nat) else (v.natAbs / 2 ^ k.toNat : Nat))) ∧
    (limbReady s w g [(.s n, .onlyS), (a, .onlyV), (b, { v := true, s := true, imm := true })] true → limbReads s w g [a, b] [] rs →
      givesS (.bcmp g mag (.s n) a b) s w n (if mag then (if v.natAbs < u.natAbs then -1 else if v.natAbs = u.natAbs then 0 else 1)
        else (if v < u then -1 else if v = u then 0 else 1))) ∧
    (limbReady s w g [(.v d, .onlyV), (a, .onlyV), (b, .count), (c, .count)] (countImm b && countImm c) → limbReads s w g [a] [b, c] rs →
      uniOf s w m 2 b = .ok k → uniOf s w m 3 c = .ok j →
      givesWhole (.bmulw g (.v d) a b c) s w d (v * (k.toNat % 2 ^ 32 : Nat) + (j.toNat % 2 ^ 32 : Nat))) ∧
    (limbReady s w g [(.s n, .onlyS), (a, .onlyV), (b, .count)] (countImm b) → limbReads s w g [a] [b] rs → uniOf s w m 2 b = .ok k →
      (k.toNat % 2 ^ 32 ≠ 0 → givesS (.bmodw g (.s n) a b) s w n (v.natAbs % (k.toNat % 2 ^ 32) : Nat)) ∧
      (k.toNat % 2 ^ 32 = 0 → exec (.bmodw g (.s n) a b) s = .next (s.trapped w { code := 0x0A#6 })))

/-- bdivs, cres, bsplit, bjoin, baddc, bsubc and btom are the steps of wide arithmetic. bdivs gives one Newton step Y +
floor(Y × (2^2k − |B| × Y) / 2^2k); cres the sum of the columns, 32 or with .h 16 bits apart; bsplit the half-limbs of A into
a pair; bjoin the number of a pair's half-limbs; baddc and bsubc one chunk of W limbs and CY; btom the residues of A at one
entry or at n entries from k. Signs come from B; results longer than the capacity raise 0x18. (R254, R255, R263, R264, R266,
R269) -/
def Obligations.WideNumberStepsComplete : Prop :=
  ∀ (s : State) (w : Nat) (g : Guards) (h cin : Bool) (d p : BitVec 6) (a b c : Opnd) (rs : List Src) (k j : Word) (primes : List Nat), 
    let m := activeMask s w g
    let x := s.wave w
    let W := x.id.width
    let cap := x.capacity
    let clean_ := limbSrcs s w m [] [.v p, .v (BitVec.ofNat 6 (p.toNat + 1))] = .ok rs
    let col := fun (site : Nat) (r : BitVec 6) => pairColumn s w site r
    (limbReady s w g [(.v d, .onlyV), (a, .onlyV), (b, .onlyV), (c, .count)] (countImm c) → limbReads s w g [a, b] [c] rs →
      uniOf s w m 3 c = .ok k → wholeOf s w rs 1 ≠ 0 → k.toNat ≠ 0 → k.toNat ≤ 16 * cap →
      let y : Int := (wholeOf s w rs 0).natAbs
      let t : Int := 2 ^ (2 * k.toNat)
      givesWhole (.bdivs g (.v d) a b c) s w d (y + (y * (t - (wholeOf s w rs 1).natAbs * y)).fdiv t)) ∧
    (limbReady s w g [(.v d, .onlyV), (.v p, .onlyV), (b, .si)] (s.evenPair w (.v p) && signImm b) → clean_ → uniOf s w m 3 b = .ok k → k.toNat ≤ 1 →
      let sum := fun (f : Nat → Nat) => ((List.range W).map f).sum
      let sign := fun (n : Nat) => if k = 1 then -(n : Int) else n
      givesWhole (.cres g h (.v d) (.v p) b) s w d (sign (sum fun l =>
        (col 2 (BitVec.ofNat 6 (p.toNat + 1)) l * 2 ^ 32 + col 1 p l) * 2 ^ ((if h then 16 else 32) * l))) ∧
      givesWhole (.bjoin g (.v d) (.v p) b) s w d (sign (sum (fun l => col 1 p l * 2 ^ (16 * l)) +
        sum (fun l => col 2 (BitVec.ofNat 6 (p.toNat + 1)) l * 2 ^ (16 * l)) * 2 ^ (16 * W)))) ∧
    (limbReady s w g [(.v d, .onlyV), (a, .onlyV)] (s.evenPair w (.v d)) → limbReads s w g [a] [] rs →
      let half := fun (l : Nat) => (wholeOf s w rs 0).natAbs / 2 ^ (16 * l) % 2 ^ 16
      (∀ l, cap ≤ l → l < W → half l = 0 ∧ half (W + l) = 0) →
      let put := fun (r : Nat) (o : Nat) (q : State) => q.modWave w fun y => y.setV r (allLanes y.capacity)
        ((List.range y.id.width).map fun l => BitVec.ofNat 32 (half (o + l))) (tagMd .u32)
      exec (.bsplit g (.v d) a) s = .next (completed s w (put (d.toNat + 1) W (put d.toNat 0 s)))) ∧
    (limbReady s w g [(.v d, .onlyV), (a, .onlyV), (b, .onlyV)] true → limbSrcs s w m [a, b] [] = .ok rs →
      let n := fun (i : Nat) => limbsNat (src0 rs i).val W
      let ci := if cin && x.carry then 1 else 0
      let put := fun (t : Nat) (out : Bool) => completed s w ((s.modWave w fun y => y.setV d.toNat (allLanes y.capacity)
        ((List.range y.id.width).map fun l => BitVec.ofNat 32 (t / 2 ^ (32 * l))) (mkMd .limb W false false 0)).modWave w fun y => y.setCarry out)
      (cap = W →
        exec (.baddc g cin (.v d) a b) s = .next (put ((n 0 + n 1 + ci) % 2 ^ (32 * W)) (decide (2 ^ (32 * W) ≤ n 0 + n 1 + ci))) ∧
        exec (.bsubc g cin (.v d) a b) s = .next (put ((2 * 2 ^ (32 * W) + n 0 - n 1 - ci) % 2 ^ (32 * W)) (decide (n 0 < n 1 + ci)))) ∧
      (cap ≠ W → exec (.baddc g cin (.v d) a b) s = .next (s.trapped w { code := 0x18#6, addr := BitVec.ofNat 64 W }) ∧
        exec (.bsubc g cin (.v d) a b) s = .next (s.trapped w { code := 0x18#6, addr := BitVec.ofNat 64 W }))) ∧
    (limbReady s w g [(.v d, .onlyV), (a, .onlyV), (b, .si), (c, .onlyV)] true → limbReads s w g [a] [] rs → uniOf s w m 2 b = .ok k →
      k.toNat < 64 → primes = [(s.prime w k.toNat).getD 1] → (s.prime w k.toNat).isSome = true →
      exec (.btom g false (.v d) a b c) s = .next (completed s w (s.modWave w fun y => y.setV d.toNat (allLanes y.capacity)
        ((List.range y.id.width).map fun _ => BitVec.ofInt 32 (wholeOf s w rs 0 % (primes.headD 1 : Nat))) (mkMd .modq 0 false false k.toNat)))) ∧
    (limbReady s w g [(.v d, .onlyV), (a, .onlyV), (b, .si), (c, .count)] (countImm c) → limbReads s w g [a] [c] rs → uniOf s w m 2 b = .ok k →
      uniOf s w m 3 c = .ok j → 1 ≤ j.toNat → j.toNat ≤ cap → k.toNat + j.toNat ≤ 64 →
      (List.range j.toNat).map (fun e => s.prime w (k.toNat + e)) = primes.map some →
      exec (.btom g true (.v d) a b c) s = .next (completed s w (s.modWave w fun y => y.setV d.toNat (allLanes y.capacity)
        ((List.range y.id.width).map fun l => if l < j.toNat then BitVec.ofInt 32 (wholeOf s w rs 0 % (primes.getD l 1 : Nat)) else 0) (tagMd .u32))))

namespace Sys2Proof.Claims

/-- A memory instruction of the running wave comes to its accesses: a lane is active, its class has room, its operands are accepted,
what else its fields must satisfy holds, and no register that it consumes is poisoned. -/
abbrev pipeReady (s : State) (w : Nat) (g : Guards) (c : Cls) (checks : List (Opnd × Accept)) (ok : Bool) (rs : List Opnd) : Prop :=
  s.running = some w ∧ activeMask s w g ≠ 0 ∧ (s.wave w).outstanding c < 62 ∧ checkOps s w checks = .ok () ∧ ok = true ∧
  demandClean s w (activeMask s w g) rs = .ok ()

/-- What a load brings from a place: zero from lost or unreachable bytes, else the bytes that the wave obtains, sign-extended for
`sgn`. -/
def placeValue (s : State) (w n : Nat) (sgn : Bool) (l : Loc) : Nat :=
  if s.deadPlace w l n then 0
  else if sgn then (BitVec.ofInt 32 (signedOf (8 * n) (s.waveLe w l n))).toNat else s.waveLe w l n

/-- The physical bytes of the lanes' places. -/
def laneBytesAt (p : List (Nat × Nat × Loc)) (n : Nat) : List Nat :=
  p.flatMap fun q => match q.2.2 with
    | .mem pa => (List.range n).map (pa + ·)
    | .sp _ => []

/-- What the load of lane `l` brings, its place being in `p`. -/
def loaded (s : State) (w : Nat) (p : List (Nat × Nat × Loc)) (n : Nat) (sgn : Bool) (l : Nat) : Nat :=
  match p.find? fun q => q.1 == l with
  | some q => placeValue s w n sgn q.2.2
  | none => 0

/-- The wave `w` has one more LD operation outstanding, complete, which brings the registers `ds`. -/
def brings (s : State) (w : Nat) (ds : List Dest) : State := s.modWave w fun x => x.count .ld true ds

/-- A read of the wave at a scope, its accesses `l` being `how`, comes to the state `u`: at `.quad` or wider the results of atomics
that its core has on their way have been performed first (R169, log entry 12), then the race detector has passed. -/
abbrev readsHome (s u : State) (w : Nat) (sc : Scope) (how : Access) (l : List (Nat × Nat × Nat)) : Prop :=
  ∃ h, demandHome s w sc = .ok h ∧ raceCheck h w how l = .ok u

/-- The metadata that a load of a width keeps and writes (R144). -/
def widthMd (wd : Width) : BitVec 32 × BitVec 32 :=
  match wd with
  | .b | .h => (0, tagMd .u32)
  | .sb | .sh => (0, tagMd .i32)
  | _ => (~~~ 0x10000#32, 0)

/-- Bytes that a list of lanes' values stores to memory, or to scratchpad, in lane order. -/
def laneBytes (sp : Bool) (p : List (Nat × Nat × Loc)) (n : Nat) (val : Nat → Nat) : List (Nat × Byte) :=
  p.flatMap fun q => match q.2.2 with
    | .mem pa => if sp then [] else placed pa (leBytes n (val q.1))
    | .sp off => if sp then placed off (leBytes n (val q.1)) else []

/-- After the store instruction at `s`, whose checks left the state `u`: memory and scratchpad are as they were, the wave's queue
has grown by the bytes of its lanes, and one ST operation is outstanding until they are performed. -/
def queued (u r : State) (w : Nat) (p : List (Nat × Nat × Loc)) (n : Nat) (val : Nat → Nat) : Prop :=
  r.mem = u.mem ∧ r.groups = u.groups ∧ ∃ new, (r.wave w).mem.storeQ = (u.wave w).mem.storeQ ++ new ∧
    (new.filter fun q => !q.sp).flatMap (fun q => q.bytes) = laneBytes false p n val ∧
    (new.filter fun q => q.sp).flatMap (fun q => q.bytes) = laneBytes true p n val ∧
    (new.filterMap fun q => q.key) = [(u.wave w).num.key] ∧
    (r.wave w).mem.outst = (u.wave w).mem.outst ++ [{ cls := .st, key := (u.wave w).num.key, ready := false, dests := [] }]

/-- The atomics of R147 and R149 with their operation, none for cas. -/
def atomOf : Instr → Option AtomForm
  | .atomAdd g o sc _ d a b c wd => some { g, o, sc, d, a, b, c, wd, op := some .add }
  | .atomMin g o sc _ d a b c wd => some { g, o, sc, d, a, b, c, wd, op := some .min }
  | .atomMax g o sc _ d a b c wd => some { g, o, sc, d, a, b, c, wd, op := some .max }
  | .atomAnd g o sc _ d a b c wd => some { g, o, sc, d, a, b, c, wd, op := some .and }
  | .atomOr g o sc _ d a b c wd => some { g, o, sc, d, a, b, c, wd, op := some .or }
  | .atomXor g o sc _ d a b c wd => some { g, o, sc, d, a, b, c, wd, op := some .xor }
  | .atomExch g o sc _ d a b c wd => some { g, o, sc, d, a, b, c, wd, op := some .exch }
  | .atomFadd g o sc _ d a b c wd => some { g, o, sc, d, a, b, c, wd, op := some .fadd }
  | .cas g o sc _ d a b c wd => some { g, o, sc, d, a, b, c, wd, op := none }
  | _ => none

/-- The value that an atomic writes over `m`, `v` being the operand and `new` D's old value, with tag `t` for fadd. -/
def atomNew (k : AtomForm) (t : Tag) (amr : Word) (m v new : Nat) : Option Nat :=
  let bits := 8 * widthBytes k.wd
  let less := if k.wd = .uw ∨ k.wd = .ud then decide (m < v) else decide (signedOf bits m < signedOf bits v)
  match k.op with
  | none => if m = v then some new else none
  | some .add => some ((m + v) % 2 ^ bits)
  | some .min => some (if less then m else v)
  | some .max => some (if less then v else m)
  | some .and => some (m &&& v)
  | some .or => some (m ||| v)
  | some .xor => some (m ^^^ v)
  | some .exch => some v
  | some .fadd => some (atomValue .fadd k.wd t amr m v)

end Sys2Proof.Claims

/-- ld, ldt, lds and ldb bring their lanes by one LD operation. With room, accepted operands, clean bases and every active
lane's address aligned, inside and translated (places p, the race detector passed in state u, and the L1 of its core met):
ld, ldt and lds count one LD operation that brings each active lane the bytes the wave obtains there, its own queued stores
first, zero and POISON from lost or unreachable bytes, with the metadata of the width or tag; ldb brings n limbs to every
position of a normal limb register. An acquire at a scope wider than core leaves no older L1 line, of lds too. That a load
obtains its value at issue, and which copy an L1 serves, are the model's choices (log entry 12); zero with POISON from
unreachable bytes is R432 (log entry 19). (R18, R139, R141, R144, R145, R146, R163, R168, R169, R432, R456) -/
def Obligations.LoadsComplete : Prop :=
  ∀ (s u : State) (w : Nat) (g : Guards) (o : Order) (sc : Scope) (ev : BitVec 3) (d : BitVec 6) (a b c : Opnd) (wd : Width) (t : Tag) (p : Places) (k : Word),
    let m := activeMask s w g
    let n := widthBytes wd
    let regs := widthRegs wd
    let base := if isV a then s.evenPair w a else true
    let how : Access := { kind := .load, acq := Order.acquires o, rel := false, sc := sc }
    let met := fun (n : Nat) => u.l1Load w sc (Order.acquires o) (laneBytesAt p.at_ n)
    let out := fun (v : State) (n regs : Nat) (sgn : Bool) (md : BitVec 32 × BitVec 32) => brings v w
      (groupDests d.toNat regs (v.wave w).id.width m md.1 md.2 (p.at_.any fun q => v.deadPlace w q.2.2 n) (loaded v w p.at_ n sgn))
    (pipeReady s w g .ld [(.v d, .onlyV), (a, .sv), (b, .onlyImm)] (s.fits w (.v d) regs && base) (baseRegs a) →
      resolveLanes s w true (laneAddrs s w m a b n) n n .load = .ok p → readsHome p.s u w sc how (p.accesses n) →
      exec (.ld g o sc ev (.v d) a b wd) s = .next (completed s w (out (met n) n regs (widthSigned wd) (widthMd wd)))) ∧
    (pipeReady s w g .ld [(.v d, .onlyV), (a, .sv), (b, .onlyImm)] (s.fits w (.v d) 1 && base) (baseRegs a) →
      resolveLanes s w true (laneAddrs s w m a b 4) 4 4 .load = .ok p → readsHome p.s u w sc how (p.accesses 4) →
      exec (.ldt g o sc ev (.v d) a b t) s = .next (completed s w (out (met 4) 4 1 false (0, tagMd t)))) ∧
    (pipeReady s w g .ld [(.v d, .onlyV), (a, { v := true, s := true, lane := true }), (b, .onlyImm)] (s.fits w (.v d) regs) (if isV a then [a] else []) →
      resolveOffsets s w (laneOffsets s w m a b n) n = .ok p →
      exec (.lds g o sc (.v d) a b wd) s = .next (completed s w
        (out (if (o = .acq ∨ o = .ar) ∧ sc ≠ .wave ∧ sc ≠ .core then p.s.l1Clear (s.wave w).id.core else p.s) n regs (widthSigned wd) (widthMd wd)))) ∧
    (pipeReady s w g .ld [(.v d, .onlyV), (a, .onlyS), (b, .onlyImm), (c, .count)] true [c] → uniOf s w m 3 c = .ok k → k.toNat ≤ (s.wave w).id.width →
      (s.wave w).id.width ≤ 1024 → limbPlaces s w a b k.toNat .load = .ok p → readsHome p.s u w sc how (p.accesses 4) →
      let v := met 4
      let vals := p.at_.map fun q => placeValue v w 4 false q.2.2
      let W := (s.wave w).id.width
      let len := ((vals.zipIdx).filter fun q => q.1 != 0).foldl (fun acc q => max acc (q.2 + 1)) 0
      exec (.ldb g o sc ev (.v d) a b c) s = .next (completed s w (brings v w [.v d.toNat (allLanes W)
        ((List.range W).map fun i => BitVec.ofNat 32 (vals.getD i 0)) 0 (mkMd .limb len false (p.at_.any fun q => v.deadPlace w q.2.2 4) 0)])))

/-- st, sts and stb queue their bytes and write nothing yet. With room, accepted and clean operands, translated places p, for
a release no ordered atomic of the wave still held, the race detector passed (state u) and staging room: st and sts queue,
for each active lane in order, the width's bytes of C at that lane's place, and stb the LEN limbs of C; one ST operation
stays outstanding until the last of them is performed; memory and scratchpad are unchanged until then. (R18, R139, R141,
R142, R144, R145, R146, R168, R453) -/
def Obligations.StoresComplete : Prop :=
  ∀ (s u : State) (w : Nat) (g : Guards) (o : Order) (sc : Scope) (ev : BitVec 3) (a b c : Opnd) (wd : Width) (p : Places), w < s.waves.length →
    let m := activeMask s w g
    let n := widthBytes wd
    let regs := widthRegs wd
    let val := dataOf s w 4 c regs n
    let how : Access := { kind := .store, acq := false, rel := Order.releases o, sc := sc }
    (Order.releases o = true → s.aodPending w = false) →
    let room := fun (n : Nat) => stagingFits u w (p.at_.flatMap fun q => match q.2.2 with | .mem pa => (List.range n).map (pa + ·) | .sp _ => []) = .ok ()
    (pipeReady s w g .st [(a, .sv), (b, .onlyImm), (c, dataAccept regs)] (baseOk s w a && dataFits s w c regs) (baseRegs a ++ groupRegs c regs) →
      resolveLanes s w true (laneAddrs s w m a b n) n n .store = .ok p → raceCheck p.s w how (p.accesses n) = .ok u → room n → p.at_ ≠ [] →
      ∃ r, exec (.st g o sc ev a b c wd) s = .next (completed s w r) ∧ queued u r w p.at_ n val) ∧
    (pipeReady s w g .st [(a, { v := true, s := true, lane := true }), (b, .onlyImm), (c, dataAccept regs)] (dataFits s w c regs)
        ((if isV a then [a] else []) ++ groupRegs c regs) →
      resolveOffsets s w (laneOffsets s w m a b n) n = .ok p → u = (if Order.releases o then p.s.releaseInterval w else p.s) → room n → p.at_ ≠ [] →
      ∃ r, exec (.sts g o sc a b c wd) s = .next (completed s w r) ∧ queued u r w p.at_ n val) ∧
    (pipeReady s w g .st [(a, .onlyS), (b, .onlyImm), (c, .onlyV)] true [c] → mdTag (readV s w 3 (regOf c)).md = .limb →
      limbPlaces s w a b (mdLen (readV s w 3 (regOf c)).md) .store = .ok p → raceCheck p.s w how (p.accesses 4) = .ok u → room 4 →
      ∃ r, exec (.stb g o sc ev a b c) s = .next (completed s w r) ∧
        queued u r w p.at_ 4 fun i => ((readV s w 3 (regOf c)).lanes.getD i 0).toNat)

/-- A queued store writes exactly its bytes when performed, and a completion writes its registers. STORE_PERFORM of the
oldest store of a wave whose stores no recovery hold keeps back first performs the results of atomics that its core has on
their way, and takes the store off the queue; where there are none, in a plain group with every byte reachable, each of its
bytes then reads as the newest value the store gives it and every other byte of memory as before; a scratchpad or staged
store leaves all memory as it was; the operation it completes becomes ready. COUNTED_OPERATION_COMPLETE takes the oldest
operation of a class, when ready, off the counter and writes its registers; of a group whose engines stand still in a pre-
empted partition CP waits, and nothing changes. That results of atomics on their way go before the next store is the model's
choice (log entry 12). (R19, R20, R21, R142, R168, R169, R315, R355) -/
def Obligations.StoresAndCompletionsPerform : Prop :=
  ∀ (s : State) (w : Nat) (q : QStore) (rest : List QStore), w < s.waves.length → s.memOk → s.alive (s.wave w).id.part = true →
    ((s.wave w).mem.storeQ = q :: rest → s.storesHeld w = false →
      ∃ t, exec (.storePerform w) s = .next t ∧ t = ((s.performOut (s.wave w).id.core).performOne w).tick ∧ (t.wave w).mem.storeQ = rest ∧
        ((s.core (s.wave w).id.core).out = [] →
          (q.sp = true → ∀ a, t.mem.read a = s.mem.read a) ∧
          (q.sp = false → s.staged (s.wave w).id.group = true → ∀ a, t.mem.read a = s.mem.read a) ∧
          (q.sp = false → s.staged (s.wave w).id.group = false → (∀ c ∈ q.bytes, s.reach (s.waveDie w) c.1 ≠ Reach.broken) →
            ∀ a, t.mem.read a = ((q.bytes.reverse.find? fun c => c.1 == a).map fun c => c.2).getD (s.mem.read a))) ∧
        (∀ k, q.key = some k → ∀ e ∈ (t.wave w).mem.outst, e.key = k → e.ready = true)) ∧
    (∀ cls e, (s.wave w).mem.outst.find? (fun e => e.cls == cls) = some e → e.ready = true →
      exec (.countedOperationComplete w cls) s = .next (if cls = .cp ∧ s.engineHeld (s.wave w).id.group = true then s
        else (s.modWave w fun x => ({ x with mem.outst := x.mem.outst.erase e, sch.raced := x.sch.raced.filter fun q => q.1.key != some e.key } : Wave).applyDests
          e.dests).tick))

/-- The atomics and cas read, write and bring the old value in one step. In a plain group, with accepted and clean operands,
translated places and no store kept back by a recovery hold, an atomic (for a release, once no ordered atomic of the wave is
held) first has the wave's queued stores performed, then acts on the lanes in ascending order, and brings the old values by
one LD operation. With a single active lane on reachable, readable memory and no store on its way: at .quad or wider the
location holds the new value at its home point in the same step and every other byte is unchanged; at .wave or .core the new
value is a store of the core on its way there and memory is unchanged; the lane receives the old value. In a checked group a
drained wave arrives at a commit point. That queued stores are performed first and that a wide atomic is one step at the home
point are the model's choices (log entry 12). (R18, R142, R147, R148, R149, R150, R168, R446) -/
def Obligations.AtomicsComplete : Prop :=
  ∀ (s u : State) (w : Nat) (i : Instr) (k : AtomForm) (t : Tag) (p : Places), atomOf i = some k →
    let m := activeMask s w k.g
    let n := widthBytes k.wd
    let regs := widthRegs k.wd
    let v := dataOf s w 4 k.c regs n
    let new := dataOf s w 8 k.d regs n
    let how : Access := { kind := .atomic, acq := Order.acquires k.o, rel := Order.releases k.o, sc := k.sc }
    let f := fun (l old : Nat) => atomNew k t (s.wave w).amr old (v l) (new l)
    (s.running = some w → s.staged (s.wave w).id.group = true → s.drainedWave w = true →
      exec i s = .next ((s.modWave w fun x => { x with sch.arrived := some Arrive.forcing }).stallWave w .commit).tick) ∧
    (s.staged (s.wave w).id.group = false →
      pipeReady s w k.g .ld [(k.d, .onlyV), (k.a, .sv), (k.b, .onlyImm), (k.c, dataAccept regs)] (s.fits w k.d regs && baseOk s w k.a && dataFits s w k.c regs)
        (baseRegs k.a ++ groupRegs k.c regs ++ (if k.op.isNone then groupRegs k.d regs else [])) →
      faddFormat s w k.op k.c = .ok t → resolveLanes s w true (laneAddrs s w m k.a k.b n) n n .store = .ok p →
      (Order.releases k.o = true → s.aodPending w = false) → s.storesHeld w = false →
      raceCheck p.s w how (p.accesses n) = .ok u →
      let r := countMem w (atomRun w k.sc k.o { p with s := u } m k.d n regs f)
      exec i s = .next (completed s w r) ∧
      (∀ l va pa, p.at_ = [(l, va, .mem pa)] → u.memOk → (u.wave w).mem.storeQ = [] → (u.core (u.wave w).id.core).out = [] →
        u.deadPlace w (.mem pa) n = false → u.staged (u.wave w).id.group = false →
        let near := k.sc = .wave ∨ k.sc = .core
        let old := if near then (u.l1Load w k.sc false ((List.range n).map (pa + ·))).waveLe w (.mem pa) n
          else leValue (u.mem.readN pa n)
        (¬ near → ∀ a, r.mem.read a = match f l old with
          | some x => if pa ≤ a ∧ a < pa + n then BitVec.ofNat 8 (x / 2 ^ (8 * (a - pa))) else u.mem.read a
          | none => u.mem.read a) ∧
        (near → (∀ a, r.mem.read a = u.mem.read a) ∧ ((u.wave w).id.core < u.cores.length → (r.core (u.wave w).id.core).out =
          match f l old with
          | some x => [(w, { key := none, sp := false, bytes := placed pa (leBytes n x) })]
          | none => [])) ∧
        (w < u.waves.length → ∃ ds, (r.wave w).mem.outst = (u.wave w).mem.outst ++ [{ cls := .ld, key := (u.wave w).num.key, ready := true, dests := ds }] ∧
          ds = groupDests (regOf k.d) regs (u.wave w).id.width m (~~~ 0x10000#32) 0 false fun e => if e = l then old else 0)))

/-- aod binds to a phase; fence, prf and l1inv complete. aod with a barrier the launch has and reachable places holds its
lanes' operands with the phase that its wave has not passed, and counts one LD operation that stays outstanding. in a checked
group a drained wave arrives at a commit point instead. fence, with no store kept back by a hold and for a release no ordered
atomic of the wave held, performs the wave's earlier stores, of an acquire too by the model's choice (log entry 12); a
release raises its interval, and an acquire at a scope wider than core discards its core's L1. prf whose operands are
accepted completes, at a wide scope, where the core has no L1, or with a poisoned base (log entry 28), with no effect; else
memory is left as the translation of its aligned addresses outside the window leaves it, which writes accessed bits alone;
l1inv discards every line of the core's L1 and changes no byte of memory. FAULT_REPLAY ends the stall of an instruction that
waited for its pages. (R151, R152, R154, R155, R156, R405) -/
def Obligations.OrderedAtomicsAndHintsComplete : Prop :=
  ∀ (s u : State) (w : Nat) (g : Guards) (o : Order) (sc : Scope) (ev : BitVec 3) (op : AtomOp) (d : BitVec 6) (a c : Opnd) (e : BitVec 6) (wd : Width) (t : Tag)
    (p : Places),
    let m := activeMask s w g
    let n := widthBytes wd
    let regs := widthRegs wd
    let id := BitVec.ofNat 4 e.toNat
    let u' := u.touchCode (laneBytesAt p.at_ n)
    let at_ := u'.barrierPlace w sc
    let r := u'.settle sc at_.1 at_.2 id
    let b := r.barrier sc at_.1 at_.2 id
    (s.staged (s.wave w).id.group = false → e.toNat < 16 → namesBarrier s w sc id →
      pipeReady s w g .ld [(.v d, .onlyV), (a, .sv), (.imm e, .onlyImm), (c, dataAccept regs)] (s.fits w (.v d) regs && baseOk s w a && dataFits s w c regs)
        (baseRegs a ++ groupRegs c regs) →
      faddFormat s w (some op) c = .ok t → resolveLanes s w false (laneAddrs s w m a (.imm 0#6) n) n n .store = .ok p →
      raceCheck p.s w { kind := .atomic, acq := false, rel := false, sc := sc } (p.accesses n) = .ok u →
      (∀ q ∈ p.at_, ∃ pa, q.2.2 = .mem pa ∧ r.reach (r.waveDie w) pa ≠ Reach.broken) →
      let x : Aod := { wave := w, key := (r.wave w).num.key, phase := match (r.wave w).pendingArrival sc id with | some ph => ph + 1 | none => b.phase,
                       op := op, width := wd, tag := t, amr := (r.wave w).amr, dest := d.toNat, mask := m, addrs := p.at_.map fun q => (q.1, q.2.2.num),
                       vals := p.at_.map fun q => BitVec.ofNat 64 (dataOf s w 4 c regs n q.1) }
      exec (.aod g sc op (.v d) a (.imm e) c wd) s = .next (completed s w
        ((r.setBarrier at_.1 { b with aods := b.aods ++ [x] }).modWave w fun y => y.count .ld false []))) ∧
    (s.running = some w → s.staged (s.wave w).id.group = true → s.drainedWave w = true →
      exec (.aod g sc op (.v d) a (.imm e) c wd) s =
        .next ((s.modWave w fun x => { x with sch.arrived := some Arrive.forcing }).stallWave w .commit).tick) ∧
    (s.running = some w → (o = .rel ∨ o = .ar → s.aodPending w = false) → s.storesHeld w = false →
      let q := s.performAll w
      let q := if o = .rel ∨ o = .ar then q.modWave w fun x => { x with mem.interval := x.mem.interval + 1 } else q
      exec (.fence o sc) s = .next (completed s w
        (if (o = .acq ∨ o = .ar) ∧ sc ≠ .wave ∧ sc ≠ .core then q.l1Clear (q.wave w).id.core else q))) ∧
    (s.running = some w → let r := s.l1Clear (s.wave w).id.core
      exec .l1inv s = .next (completed s w r) ∧ (r.core (s.wave w).id.core).l1 = [] ∧ r.mem = s.mem ∧ r.waves = s.waves) ∧
    (s.running = some w → checkOps s w [(a, .sv), (.imm e, .onlyImm)] = .ok () → baseOk s w a = true →
      let l := (laneAddrs s w m a (.imm e) 4).filter fun q => q.2 % 4 == 0 && decide (q.2 < 2 ^ 57) && !inWindow q.2
      let walked := l.foldl (walkLane w .load) { s := s }
      ∃ r, exec (.prf g sc ev a (.imm e)) s = .next (completed s w r) ∧ r.waves = s.waves ∧ r.groups = s.groups ∧
        (sc ≠ .wave ∧ sc ≠ .core ∨ s.l1Sectors (s.wave w).id.core = 0 ∨ (baseRegs a).any (poisonedOp s w) = true → r = s) ∧
        (¬ (sc ≠ .wave ∧ sc ≠ .core ∨ s.l1Sectors (s.wave w).id.core = 0 ∨ (baseRegs a).any (poisonedOp s w) = true) → r.mem = walked.s.mem) ∧
        ((∀ q ∈ l, ∀ v x, State.translate v (v.waveDie w) (s.wave w).id.part (s.wave w).id.ctx q.2 .load = .ok x → x.1.mem = v.mem) →
          r.mem = s.mem)) ∧
    ((s.wave w).sch.stall = some .fault → exec (.faultReplay w) s = .next (s.modWave w fun x =>
      { x with sch.stall := none, sch.readyAt := (s.core x.id.core).slots }).tick)

/-- mwait completes when its condition holds; else the path rotates, or the wave parks on a monitor or polls. In a group
without copies or the primary copy, with an aligned and translated location, read at its home point, the race detector
passed: behind a broken link it raises 0x12, of lost data 0x10, and for .st with a status that is not 0 0x12 with the stamp;
else when the value read meets the condition with C, over 48 bits for .st and the width otherwise, mwait completes with it in
Sd, the primary having told its twin. When it does not, and rotation gives no other path, the wave stalls: while its core's
wait table has room a monitor is armed on the location's sector, and when the table is full the wave notes the issue slot for
its back-off. With another path to run, rotation makes that path current and takes an issue slot, and in normal mode a wave
of the core that has waited 4096 issue slots may then issue (log entry 22). A twin does the same with the result its primary
told it. The model's choices: TADDR 0 of the 0x12 behind a broken link (log entry 19), the checked read of a failing
evaluation that acquires nothing (log entry 20), the twin's part (log entry 51). MONITOR_FIRE makes a parked wave ready, the
monitor staying armed; MWAIT_BACK_OFF one that polls, 64 issue slots on. (R157, R158, R159, R160, R163, R177, R195, R432,
R451, R456) -/
def Obligations.MwaitCompletes : Prop :=
  ∀ (s v h u : State) (w : Nat) (o : Order) (sc : Scope) (n a : BitVec 6) (e : BitVec 6) (c : Opnd) (stamp dbl : Bool) (cc : WaitCond) (x : Word) (l : Loc),
    let i : Instr := .mwait o sc (.s n) (.s a) (.imm e) c stamp dbl cc
    let size : Nat := if dbl then 8 else 4
    let addr := fun (q : State) => (readS q w 1 a.toNat + BitVec.ofInt 64 ((size : Int) * e.toInt)).toNat
    let va := addr s
    let pas := match l with | .mem pa => (List.range size).map (pa + ·) | .sp _ => []
    let v1 := (h.l1Drop (h.wave w).id.core ((pas.map (· / 32)).eraseDups)).l1Load w sc false pas
    let bits := if stamp then 48 else 8 * size
    let m := v1.waveLe w l size % 2 ^ bits
    let y := x.toNat % 2 ^ bits
    let holds := match cc with
      | .eq => decide (m = y)
      | .ne => decide (m ≠ y)
      | .geu => decide (y ≤ m)
    let reads := s.running = some w ∧ checkOps s w [(.s n, .onlyS), (.s a, .onlyS), (.imm e, .onlyImm), (c, .count)] = .ok () ∧ uni1 s w c = .ok x ∧
      va % size = 0 ∧ placeOf s w va size .load = .ok (v, l) ∧ (∀ pa, l = .mem pa → v.reach (v.waveDie w) pa ≠ .hold) ∧ demandHome v w sc = .ok h
    let broken : Bool := match l with | .mem pa => v.reach (v.waveDie w) pa == .broken | .sp _ => false
    let trap : Option (BitVec 6 × Word) := if broken then some (0x12#6, 0#64)
      else if v1.lostPlace w l size then some (0x10#6, BitVec.ofNat 64 va)
      else if stamp && v1.waveLe w l size / 2 ^ 48 % 256 != 0 then some (0x12#6, BitVec.ofNat 64 (v1.waveLe w l size)) else none
    let access := fun (keep : Bool) => raceCheck v1 w { kind := .load, acq := Order.acquires o, rel := false, sc := sc, keep := keep } [(0, va, size)]
    let done_ := fun (q : State) (r : Word) =>
      let q := q.modWave w fun z => { z with mem.monitor := none, mem.polled := none }
      completed s w ((if (o = .acq ∨ o = .ar) ∧ sc ≠ .wave ∧ sc ≠ .core then q.l1Clear (q.wave w).id.core else q).modWave w fun z => z.setS n.toNat r)
    let fails := fun (q : State) =>
      let z := q.wave w
      let z' := if 2 ≤ z.pathCount then z.rotate else z
      let core := z.id.core
      let p := (q.setWave w { z' with mem.monitor := none, mem.polled := none }).modCore core fun k => { k with slots := k.slots + 1 }
      let aged := (p.wavesOf core).any fun v => v != w && (p.wave v).sch.stall.isNone && decide (4096 ≤ (p.core core).slots - (p.wave v).sch.readyAt)
      if z'.cur ≠ z.cur then
        (if (p.waveLaunch w).r.det = false ∧ aged = true then
          (p.modWave w fun k => { k with sch.y := true, sch.readyAt := (p.core core).slots }).switch core else p).tick
      else ((q.modWave w fun k => if q.monitorRoom w then { k with mem.monitor := some (inWindow (addr q), addr q / 32), mem.polled := none }
        else { k with mem.monitor := none, mem.polled := some (q.core (q.wave w).id.core).slots }).stallWave w .monitor).tick
    (reads → (s.waveGroup w).copy ≠ .twin → trap = none → holds = true → access false = .ok u →
      exec i s = .next (done_ (told (s.wave w) u w { val := BitVec.ofNat 64 m, pred := true, trap := none }) (BitVec.ofNat 64 m))) ∧
    (reads → (s.waveGroup w).copy ≠ .twin → trap = none → holds = false → access true = .ok u →
      exec i s = .next (fails (told (s.wave w) u w { val := BitVec.ofNat 64 m, pred := false, trap := none }))) ∧
    (∀ q, reads → (s.waveGroup w).copy ≠ .twin → trap = some q → access true = .ok u →
      exec i s = .next ((told (s.wave w) u w { val := BitVec.ofNat 64 m, pred := holds, trap := trap }).trapped w { code := q.1, addr := q.2 })) ∧
    (∀ f rest, s.running = some w → checkOps s w [(.s n, .onlyS), (.s a, .onlyS), (.imm e, .onlyImm), (c, .count)] = .ok () →
      (s.waveGroup w).copy = .twin → nextTold (s.wave w) false f rest → f.trap = none →
      exec i s = .next (if f.pred then done_ (took s w rest) f.val else fails (took s w rest))) ∧
    (let slots := (s.core (s.wave w).id.core).slots
     let woken := (s.modWave w fun q => { q with sch.stall := none, sch.readyAt := slots }).tick
     (s.wave w).sch.stall = some .monitor →
      ((s.wave w).mem.monitor.isSome = true → exec (.monitorFire w) s = .next woken) ∧
      (∀ k, (s.wave w).mem.polled = some k → exec (.mwaitBackOff w) s = .next (if k + 64 ≤ slots then woken else s)))

/-- Misaligned and outside accesses of ld and st trap before any lane acts. For ld and st with a lane active: a misaligned
address raises 0x11 with the lowest such lane's address and all such lanes; with none, an address at or beyond 2^57 or
outside the allocation in the window raises 0x10 likewise; with no active lane each of them completes with no effect. (R141,
R137, R139) -/
def Obligations.MemoryAccessTraps : Prop :=
  ∀ (s : State) (w : Nat) (i : Instr) (g : Guards) (cls : Cls) (checks : List (Opnd × Accept)) (ok : Bool) (rs : List Opnd) (a b : Opnd) (n : Nat) (q : Nat × Nat)
    (bad : List (Nat × Nat)),
    (match i with
      | .ld g' _ _ _ d a' b' wd => g = g' ∧ cls = .ld ∧ checks = [(d, .onlyV), (a', .sv), (b', .onlyImm)] ∧
          ok = (s.fits w d (widthRegs wd) && baseOk s w a') ∧ rs = baseRegs a' ∧ a = a' ∧ b = b' ∧ n = widthBytes wd
      | .st g' _ _ _ a' b' c wd => g = g' ∧ cls = .st ∧ checks = [(a', .sv), (b', .onlyImm), (c, dataAccept (widthRegs wd))] ∧
          ok = (baseOk s w a' && dataFits s w c (widthRegs wd)) ∧ rs = baseRegs a' ++ groupRegs c (widthRegs wd) ∧ a = a' ∧ b = b' ∧ n = widthBytes wd
      | _ => False) →
    let m := activeMask s w g
    let W := (s.wave w).id.width
    let addrs := laneAddrs s w m a b n
    let outside := fun (e : Nat × Nat) => decide (2 ^ 57 ≤ e.2) || (inWindow e.2 && decide ((s.waveGroup w).spb < e.2 - windowBase + n))
    (pipeReady s w g cls checks ok rs → addrs.filter (fun e => e.2 % n != 0) = q :: bad →
      exec i s = .next (s.trapped w { code := 0x11#6, addr := BitVec.ofNat 64 q.2, lanes := some (lanesMask W (q :: bad)) })) ∧
    (pipeReady s w g cls checks ok rs → addrs.filter (fun e => e.2 % n != 0) = [] → addrs.filter outside = q :: bad →
      exec i s = .next (s.trapped w { code := 0x10#6, addr := BitVec.ofNat 64 q.2, lanes := some (lanesMask W (q :: bad)) })) ∧
    (s.running = some w → m = 0 → checkOps s w checks = .ok () → ok = true → exec i s = .next (completed s w s))

namespace Sys2Proof.Claims

/-- The fields of an scmd (R227, R228). -/
def scmdOf : Instr → Option ScmdForm
  | .scmdFill o sc se a b c => some { kind := .fill, o, sc, se, a, b, c }
  | .scmdDrain o sc se a b c => some { kind := .drain, o, sc, se, a, b, c }
  | .scmdCopy o sc se a b c => some { kind := .copy, o, sc, se, a, b, c }
  | .scmdMcast o sc se a b c => some { kind := .mcast, o, sc, se, a, b, c }
  | .scmdRfill o sc se a b c eos => some { kind := .rfill, o, sc, se, a, b, c, eos }
  | .scmdRdrain o sc se a b c eos => some { kind := .rdrain, o, sc, se, a, b, c, eos }
  | .scmdStamp o sc se a c => some { kind := .stamp, o, sc, se, a, b := .imm 0, c }
  | .scmdColl o sc se a b c => some { kind := .coll, o, sc, se, a, b, c }
  | _ => none

/-- A stream engine has a slot for a command of the wave; and in deterministic mode the engine's eighth command back is no collective
after which the wave still has to wait (log entry 40). -/
abbrev engineRoom (s : State) (w : Nat) (se : Bool) : Prop :=
  ((s.core (s.wave w).id.core).queue se).length < 8 ∧ s.afterColl w se = false

/-- An scmd passes the checks of R229 with A of value `av`, C of value `cv`, source layout `l` and, for copy, destination `dst`;
its class and its engine have room, and no recovery hold keeps a store of the wave back. -/
abbrev scmdReady (k : ScmdForm) (s : State) (w : Nat) (av cv : Word) (l dst : Layout) : Prop :=
  let g := s.waveGroup w
  let inSp := k.kind = .fill ∨ k.kind = .drain ∨ k.kind = .mcast
  s.running = some w ∧ k.check s w = .ok () ∧ demandClean s w (s.wave w).exec [k.a, k.c] = .ok () ∧
  uniOf s w (s.wave w).exec 1 k.a = .ok av ∧ uniOf s w (s.wave w).exec 3 k.c = .ok cv ∧
  (if k.kind = .stamp then l = default else g.slotAt (immOf k.b) = some l) ∧
  (if k.kind = .copy then g.slotAt (immOf k.a) = some dst else dst = default) ∧
  (inSp → 0 ≤ immOf k.a ∧ av.toNat + l.nBoxes * l.boxBytes ≤ g.spb) ∧ k.suits g l dst (immOf k.a) = true ∧
  (k.kind = .coll → av.toNat % 32 = 0) ∧ cv.toNat % 8 = 0 ∧ cv.toNat < 2 ^ 57 ∧ (s.wave w).outstanding .cp < 62 ∧
  engineRoom s w k.se ∧ s.storesHeld w = false

/-- The command as it stands in its slot. -/
def scmdCmd (k : ScmdForm) (s : State) (w : Nat) (av cv : Word) (l dst : Layout) (coll : Option CollRec) : SCmd :=
  { SCmd.blank s w k.kind k.o k.sc with
    a := av.toNat, slot := l, dst := dst, eos := k.eos, coll := coll,
    stamp := match k.c with | .imm _ => none | _ => some cv,
    status := if k.kind = .stamp then av.extractLsb' 0 8 else 0, direct := k.kind == .mcast || k.kind == .coll }

/-- A command `x` of wave `w` is sent to stream engine `se`: the wave's queued stores are performed first, one CP operation is
outstanding, the command is the last of the engine's slots; the core notes whether it is a collective (log entry 40). -/
def sentTo (s : State) (w : Nat) (se : Bool) (x : SCmd) : State :=
  (((s.performAll w).modWave w fun y => { y.count .cp false [] with num.scmd := y.num.scmd + 1 }).modQueue (s.wave w).id.core se
    fun q => q ++ [x]).modCore (s.wave w).id.core fun k =>
      { k with sent := modifyAt k.sent se.toNat fun l => ((x.kind == .coll) :: l).take 8 }

/-- The oldest command of a stream engine is `x`, its group is not held, and no recovery hold keeps its stamp back. -/
abbrev headOf (s : State) (c : Nat) (se : Bool) (x : SCmd) : Prop :=
  ((s.core c).queue se).head? = some x ∧ s.engineHeld x.group = false ∧ s.stampHeld x = false

end Sys2Proof.Claims

/-- ringdef defines an empty ring; ringclr.drop and ringclr.stop clear one. ringdef of a ring that the group declares, with a
multiple of 4 as offset, LS 1 to 8, LZ 2 to 12, a tag other than limb and modq, no outstanding command that names it and a
storage within the allocation, completes and leaves the ring defined, empty and without a token. ringclr.drop of a defined
ring stops the commands that have not started and cancels those in progress; when none is left then it completes with the
ring empty and without a token, else the wave waits and the ring accepts nothing. ringclr.stop of a defined ring completes:
its fills that have not started stop, those in progress are cancelled at their unit boundary, and once no claimed unit is
left the stream has ended with 0x05. Where a command not started stops, and one in progress at its next boundary, is the
model's reading of R240 (log entry 29); that the ring accepts nothing meanwhile is R243. (R238, R239, R240, R243) -/
def Obligations.RingDefinitionAndClearing : Prop :=
  ∀ (s : State) (w : Nat) (t : Tag) (a b c : Opnd) (r : BitVec 4) (off : Word), s.running = some w → r.toNat < (s.waveGroup w).rings.length →
    let x := s.wave w
    let grp := x.id.group
    let cmds := s.ringCommands x.id.core grp r.toNat
    let stopping := fun (keep : SCmd → Bool) => (cmds.filter fun e => keep e.2 && !e.2.started).foldl (fun u e => u.stopStream x.id.core e.1 e.2 5) s
    let cancels := fun (u : State) (f : SCmd → SCmd) => [false, true].foldl (fun u se => u.modQueue x.id.core se fun q => q.map f) u
    (checkOps s w [(a, .si), (b, .onlyImm), (c, .onlyImm)] = .ok () → uniOf s w x.exec 1 a = .ok off → 0 ≤ immOf a → off.toNat % 4 = 0 →
      1 ≤ immOf b → immOf b ≤ 8 → 2 ≤ immOf c → immOf c ≤ 12 → t ≠ .limb → t ≠ .modq → cmds = [] →
      off.toNat + 2 ^ (immOf b).toNat * 2 ^ (immOf c).toNat ≤ (s.waveGroup w).spb →
      exec (.ringdef t a b c r) s = .next (completed s w (s.modGroup grp fun y => y.modRing r.toNat fun _ => { Ring.fresh with defined := true, off := off.toNat, ls := (immOf b).toNat, lz := (immOf c).toNat, tag := t }))) ∧
    (((s.waveGroup w).ring r.toNat).defined = true →
      (cmds = [] → exec (.ringclrDrop r) s = .next (completed s w
        ((cancels s id).modGroup grp fun y => y.modRing r.toNat fun q =>
          { q with head := 0, occ := [], eos := none, stopping := false, dropping := false }))) ∧
      (let u := cancels (stopping fun _ => true) fun y => if y.onRing grp r.toNat then { y with cancel := some 5, claim := none } else y
       exec (.ringclrDrop r) s = .next (if u.ringCommands x.id.core grp r.toNat = [] then completed s w
           (u.modGroup grp fun y => y.modRing r.toNat fun q => { q with head := 0, occ := [], eos := none, stopping := false, dropping := false })
         else ((u.modGroup grp fun y => y.modRing r.toNat fun q => { q with dropping := true }).stallWave w .settle).tick)) ∧
      (let u := cancels (stopping fun y => y.kind == .rfill) fun y => if y.onRing grp r.toNat && y.kind == .rfill then { y with cancel := some 5 } else y
       exec (.ringclrStop r) s = .next (completed s w
         ((u.modGroup grp fun y => y.modRing r.toNat fun q => { q with stopping := true }).settleStop x.id.core grp r.toNat))))

/-- slay loads a layout; scmd, bopm and auto send a command to a stream engine. slay with a readable record that obeys R218
loads the slot. An scmd that passes R229 completes with its command in the last slot of its engine, holding the operands and
layouts as they stand, one CP operation outstanding and the wave's stores performed; ring kinds mark the ring; mcast and coll
of a drained wave of a checked group arrive at a commit point instead; a coll whose instance an abort has stopped is sent
cancelled (R441). That a command holds its layouts as at issue is log entry 27, that the wave's stores are performed first
log entry 12, that in deterministic mode the eighth command after a collective waits once log entry 40. bopm and auto send
likewise, with n limbs from 1 to 2^28 and 4-byte addresses, and with fitting slots and loaded primes. (R218, R226, R227,
R228, R229, R232, R244, R270, R332, R433, R441, R446) -/
def Obligations.StreamCommandsSend : Prop :=
  ∀ (s u : State) (w : Nat) (i : Instr) (k : ScmdForm) (av cv : Word) (l dst cd : Layout) (rec_ : CollRec) (o : Order) (sc : Scope) (se sub ntt : Bool) (n : BitVec 4)
    (d a b : BitVec 6) (e f : BitVec 6) (c : Opnd) (bs : List Byte),
    let x := s.wave w
    let plain := s.staged x.id.group = false
    let forces := k.kind = .mcast ∨ k.kind = .coll
    let mark := fun (r : State) => if k.kind = .rfill ∨ k.kind = .rdrain then r.modGroup x.id.group fun g => g.modRing av.toNat fun q => { q with engine := true } else r
    (scmdOf i = some k → scmdReady k s w av cv l dst → (forces → plain) →
      (k.kind ≠ .coll → exec i s = .next (completed s w (mark (sentTo s w k.se (scmdCmd k s w av cv l dst none))))) ∧
      (k.kind = .coll → collOf s w k av = .ok (u, rec_, cd) → (u.wave w).outstanding .cp < 62 → engineRoom u w k.se → u.storesHeld w = false →
        let r := sentTo u w k.se { scmdCmd k u w av cv l cd (some rec_) with cancel := if u.collStopped x.id.launch rec_ then some 5 else none }
        exec i s = .next (completed s w { r with collIssued := r.collIssued ++ [(x.id.launch, rec_.cid, rec_.rank)] }))) ∧
    (scmdOf i = some k → s.running = some w → forces → k.check s w = .ok () → s.staged x.id.group = true → s.drainedWave w = true →
      exec i s = .next ((s.modWave w fun y => { y with sch.arrived := some Arrive.forcing }).stallWave w .commit).tick) ∧
    (s.running = some w → n.toNat < 8 →
      (let va := readS s w 1 a.toNat + BitVec.ofInt 64 (64 * e.toInt)
       let base := match c with
        | .s q => some (readS s w 3 q.toNat)
        | _ => none
       checkOps s w [(.s a, .onlyS), (.imm e, .onlyImm), (c, .si)] = .ok () → zeroImm c = true → recordRead s w o sc va 64 64 = .ok (u, bs) →
       (Layout.ofBytes bs base).ok bs = true → exec (.slay o sc (.s a) (.imm e) c n) s = .next (completed s w
         (u.modGroup x.id.group fun g => { g with layouts := modifyAt g.layouts n.toNat fun _ => some (Layout.ofBytes bs base) })))) ∧
    (s.running = some w → x.outstanding .cp < 62 → engineRoom s w se → s.storesHeld w = false →
      (let dv := readS s w 4 d.toNat
       let va := readS s w 1 a.toNat
       let vb := readS s w 2 b.toNat
       let limbs := cv.toNat
       let apart := fun (v : Word) => v = dv ∨ ¬ (dv.toNat < v.toNat + 4 * limbs ∧ v.toNat < dv.toNat + 4 * (limbs + 1))
       let fits := fun (v : Word) (m : Nat) => v.toNat % 4 = 0 ∧ rangeBad s w v (4 * m) = false
       checkOps s w [(.s d, .onlyS), (.s a, .onlyS), (.s b, .onlyS), (c, .count)] = .ok () → uni1 s w c = .ok cv → 1 ≤ limbs → limbs ≤ 2 ^ 28 →
       apart va → apart vb → fits dv (limbs + 1) → fits va limbs → fits vb limbs →
       exec (.bopm o sc se (.s d) (.s a) (.s b) c sub) s = .next (completed s w (sentTo s w se
         { SCmd.blank s w .bopm o sc with bops := (dv, va, vb), limbs := limbs, bsub := sub }))) ∧
      (let cnt := if l.rank = 2 then l.sizes.getD 1 1 else 1
       let ps := (List.range cnt).map fun j => s.prime w (cv.toNat + j)
       checkOps s w [(.imm e, .onlyImm), (.imm f, .onlyImm), (c, .count)] = .ok () → 0 ≤ immOf c → uni1 s w c = .ok cv →
       (s.waveGroup w).slotAt e.toInt = some dst → (s.waveGroup w).slotAt f.toInt = some l → autoSlots dst l = true → cv.toNat + cnt ≤ 64 →
       (∀ q ∈ ps, q.isSome = true) → exec (.auto o sc se (.imm e) (.imm f) c ntt) s = .next (completed s w (sentTo s w se
         { SCmd.blank s w .auto o sc with slot := l, dst := dst, ntt := ntt, primes := ps.map fun q => q.getD 1 }))))

namespace Sys2Proof.Claims

/-- A slot whose elements move as they stand: no conversion, permutation or swizzle, and whole bytes to an element (R219 to R222). -/
def plainSlot (l : Layout) : Prop :=
  l.conv = 0 ∧ l.logn = 0 ∧ l.swz = 0 ∧ (l.sfmt ≤ 9 ∨ l.sfmt = 15) ∧ 1 ≤ l.rank ∧ l.rank ≤ 5 ∧ ∀ d < 5, l.rank ≤ d → l.boxes.getD d 1 = 1

/-- Bytes of an element (R219). -/
def elementBytes (l : Layout) : Nat := if l.sfmt ≤ 2 then 4 else if l.sfmt ≤ 5 then 2 else 1

/-- Elements of a box. -/
def boxElements (l : Layout) : Nat := ((List.range 5).map fun d => l.boxes.getD d 1).foldl (· * ·) 1

/-- Digit `d` of `n` in the mixed radix `r`, the first digit running fastest. -/
def mixedDigit (r : Nat → Nat) (n d : Nat) : Nat := n / ((List.range d).map r).foldl (· * ·) 1 % r d

/-- The address of element `i` of box `b`, none outside the tensor (R219, R223). -/
def elementAddress (l : Layout) (b i : Nat) : Option Nat :=
  let bd := fun d => l.boxes.getD d 1
  let gd := fun d => if d < l.rank then (l.sizes.getD d 0 + bd d - 1) / bd d else 1
  let x := fun d => mixedDigit gd b d * bd d + mixedDigit bd i d
  if (List.range l.rank).all fun d => decide (x d < l.sizes.getD d 0) then
    let off := (List.range l.rank).foldl (fun (acc : Int) d =>
      acc + (x d : Int) * (if d = 0 then (elementBytes l : Int) else l.strides.getD d 0)) 0
    some (((l.base.toNat : Int) + off) % 2 ^ 64).toNat
  else none

/-- The elements of a box in the tensor: each with its address and size. -/
def elementRanges (l : Layout) (b : Nat) : List (Nat × Nat) :=
  (List.range (boxElements l)).filterMap fun i => (elementAddress l b i).map fun a => (a, elementBytes l)

/-- How many elements before element `i` of a box lie in the tensor. -/
def elementRank (l : Layout) (b i : Nat) : Nat := ((List.range i).filter fun j => (elementAddress l b j).isSome).length

end Sys2Proof.Claims

namespace Sys2Proof.Claims

/-- A class-8 instruction comes to its work: operands accepted, the member set complete: the one in Sb, or the record's where the
wave's path waited here and was made current (R200). -/
abbrev matrixReady (s : State) (w : Nat) (checks : List (Opnd × Accept)) (b : BitVec 6) : Prop :=
  s.running = some w ∧ checkOps s w (checks ++ [(.s b, .onlyS)]) = .ok () ∧ (gather s w ((s.wave w).named (readS s w 2 b.toNat))).isOk = true

/-- TL and the stream's queue have room, and no recovery hold keeps a store of the wave back. -/
abbrev matrixRoom (s : State) (w : Nat) (sn : BitVec 2) : Prop :=
  (s.wave w).outstanding .tl < 62 ∧ s.storesHeld w = false ∧
  (s.matrixAside w = true ∨ ((s.core (s.wave w).id.core).mx.stream sn.toNat).q.length < 16)

/-- The command `op` of wave `w` has entered stream `sn`, or the handler's queue: the wave's stores are performed first, one TL
operation is outstanding, the engine's sequence number and the wave's matrix number rise. -/
def sentMatrix (s : State) (w : Nat) (o : Order) (sc : Scope) (sn : BitVec 2) (op : MOp) : State :=
  let x := s.wave w
  let m := (s.core x.id.core).mx
  let cmd : MCmd := { op := op, wave := w, group := x.id.group, key := x.num.key, num := x.num.matrix, seq := m.seq, o := o, sc := sc, amr := x.amr,
                      stream := sn.toNat, rows := 0, block := none, crc := none, pos := x.pos }
  ((s.performAll w).modWave w fun y => { y.count .tl false [] with num.matrix := y.num.matrix + 1 }).modMx x.id.core fun m =>
    let m := { m with seq := m.seq + 1 }
    if s.matrixAside w then { m with handlerQ := m.handlerQ ++ [cmd] } else m.modStream sn.toNat fun t => { t with q := t.q ++ [cmd] }

/-- The unit of wave w's quad has a free slot, TL has room, and no recovery hold keeps a store of the wave back. -/
abbrev nttRoom (s : State) (w : Nat) : Prop :=
  (s.wave w).outstanding .tl < 62 ∧ s.storesHeld w = false ∧
  ((s.unitAt (s.wave w).id.core (s.waveLaunch w).r.det).1.quads.getD
    (s.unitAt (s.wave w).id.core (s.waveLaunch w).r.det).2 default).slots.length < 16

/-- The command `op` of wave `w` has entered the unit of its quad. -/
def sentNtt (s : State) (w : Nat) (o : Order) (sc : Scope) (num : BitVec 32) (op : NOp) (ms : List Modulus) (direct : Bool) : State :=
  let x := s.wave w
  let u := s.unitAt x.id.core (s.waveLaunch w).r.det
  let cmd : NCmd := { op := op, wave := w, group := x.id.group, key := x.num.key, num := num, o := o, sc := sc, mods := ms, batch := 0, res := 0,
                      stage := 0, work := [], crc := none, pos := x.pos, direct := direct }
  ((u.1.performAll w).modWave w fun y => y.count .tl false []).modQuad u.2 fun l => l ++ [cmd]

/-- A range of limbs lies below 2^57, begins at a multiple of 4 and does not meet the scratchpad window. -/
abbrev limbRange (v : Word) (n : Nat) : Prop := v.toNat % 4 = 0 ∧ v.toNat < 2 ^ 57 ∧ meetsWindow v (4 * n) = false

end Sys2Proof.Claims

/-- The class-8 instructions send a command once their member set is complete. With the member set complete, room in TL and
in the stream: mloop with eight legal, aligned operands below 2^57 from a register that is a multiple of 8, mzero, mldt,
mldt.scale, mstt with a legal mode and, for residues, a loaded prime, mstt.scale and mprg enter their stream, or the
handler's queue over frozen streams; mfence marks the streams it names, but not from a handler over frozen streams. Tiles are
0 to 7, pairs even; a scale range lies within 32,768 bytes. That the wave's stores are performed before the command, whatever
its ordering, is log entry 12; that bits 7 and 6 of a store mode must be zero, and that a group which does not own the engine
sends as the owner does, log entry 56; that a handler's commands have no limit, log entry 54. (R296, R297, R298, R299, R300,
R302, R308, R309, R310, R312, R313, R315) -/
def Obligations.MatrixCommandsSend : Prop :=
  ∀ (s : State) (w : Nat) (o : Order) (sc : Scope) (sn : BitVec 2) (d a b c : BitVec 6) (tile k : BitVec 4) (tr pair : Bool) (es p : Nat),
    let va := readS s w 1 a.toNat
    let st := readS s w 3 c.toNat
    let md := readS s w 4 d.toNat
    let sends := fun (i : Instr) (o : Order) (sc : Scope) (op : MOp) => exec i s = .next (released s w (sentMatrix s w o sc sn op))
    (matrixRoom s w sn →
      (let ops := (List.range 8).map fun i => readS s w (10 + i) (a.toNat + i)
       let l := Loop.ofOps ops
       matrixReady s w [(.s a, .onlyS)] b → a.toNat % 8 = 0 → tile.toNat < 8 → l.legal tile.toNat = true → (∀ q ∈ l.aligned, q.1.toNat % q.2 = 0) →
       l.abase.toNat < 2 ^ 57 → l.bbase.toNat < 2 ^ 57 → sends (.mloop o sc sn (.s a) (.s b) tile) o sc (.loop tile.toNat ops)) ∧
      (matrixReady s w [] b → tile.toNat < 8 → (pair = true → tile.toNat % 2 = 0) →
       sends (.mzero sn pair (.s b) tile) .rlx .wave (.zero tile.toNat pair)) ∧
      (matrixReady s w [(.s a, .onlyS), (.s c, .onlyS)] b → va.toNat < 2 ^ 57 →
       (tile.toNat < 8 → va.toNat % 4 = 0 → st.toNat % 4 = 0 → sends (.mldt o sc sn tr (.s a) (.s b) (.s c) tile) o sc (.load tile.toNat va st tr)) ∧
       (let off := st.toNat / 2 ^ 32
        let cnt := st.toNat % 2 ^ 32
        cnt ≠ 0 → off + cnt ≤ 32768 →
        sends (.mldtScale o sc sn (.s a) (.s b) (.s c)) o sc (.loadScale va off cnt) ∧
        sends (.msttScale o sc sn (.s a) (.s b) (.s c)) o sc (.storeScale va off cnt))) ∧
      (matrixReady s w [(.s d, .onlyS), (.s a, .onlyS), (.s c, .onlyS)] b → tile.toNat < 8 → md.extractLsb' 14 50 = 0 → md.extractLsb' 6 2 = 0 →
       (md.getLsbD 4 = true → tile.toNat % 2 = 0) → storeBytes md = some es → (if md.getLsbD 5 then s.prime w (md.toNat / 2 ^ 8 % 2 ^ 6) = some p else p = 1) →
       va.toNat % es = 0 → st.toNat % es = 0 → va.toNat < 2 ^ 57 →
       sends (.mstt o sc sn tr (.s d) (.s a) (.s b) (.s c) tile) o sc (.store tile.toNat va st md tr p)) ∧
      (matrixReady s w [(.s d, .onlyS)] b → sends (.mprg sn (.s d) (.s b)) .rlx .wave (.prg d.toNat ((s.wave w).tr.hm && decide (56 ≤ d.toNat))))) ∧
    (matrixReady s w [] b → exec (.mfence (.s b) k) s = .next (released s w (s.modMx (s.wave w).id.core fun m =>
      if s.matrixAside w then m else { m with fences := m.fences ++ [(k, m.seq)] })))

namespace Sys2Proof.Claims

/-- The address of the element in row `r` and column `j` of a tile in memory, of `es` bytes (R309, R310). -/
def tileElemAddr (a st : Word) (tr : Bool) (es r j : Nat) : Nat :=
  (a.toNat + (if tr then j else r) * st.toNat + es * (if tr then r else j)) % 2 ^ 64

/-- The bytes that an engine of group `g` reads at places that ranges have been opened at, one after the other. -/
def bytesAt (v : State) (g : Nat) (ls : List Loc) (rs : List (Nat × Nat)) : List Byte := (ls.zip rs).flatMap fun q => v.engineRead g q.1 q.2.2

/-- A row of 128 bytes of A, or a column of B, of a K-step: where it lies (R302). -/
def operandRow (base inc str : Word) (st i n : Nat) : List (Nat × Nat) := pieces ((base.toNat + st * inc.toNat + i * str.toNat) % 2 ^ 64) n

/-- The value that mstt writes for an element `one`, or for a pair's 64 bits, in format `md` (R310). -/
def storedElem (env : FEnv) (md : Word) (p one pair : Nat) : Nat :=
  let n := (BitVec.ofNat 64 pair).toInt
  let e := (BitVec.ofNat 32 one).toInt
  let fm := md.toNat % 16
  if md.getLsbD 5 then (n % (p : Int)).toNat
  else if md.getLsbD 4 then if fm = 2 then (Fmt.fp32.round env (.ofInt n)).1 else pair
  else if fm = 5 then (BitVec.ofInt 16 (max (-32768) (min 32767 e))).toNat
  else if fm = 9 then (BitVec.ofInt 8 (max (-128) (min 127 e))).toNat
  else if fm = 3 ∨ fm = 4 ∨ fm = 6 ∨ fm = 7 ∨ fm = 8 then ((mxFmt fm).round env (Fmt.fp32.decode env.flushIn one)).1
  else one

/-- Element `i` of a row or column of the matrix loop with its E4M3 block scale, the scales of the row lying at `sc` in scale memory,
as the factors that it brings into a product (R302, R303). -/
def loopFactors (f : Nat) (flush : Bool) (bs : List Byte) (scale : Option (Memory × Nat)) (i : Nat) : List FVal :=
  mxElem f flush bs i :: match scale with
    | some (m, sc) => [Fmt.e4m3.decode flush (m.read (sc + i / 32)).toNat]
    | none => []

/-- The product of factors that are finite, and its sign. -/
def ratProduct (l : List FVal) : ℚ := (l.map ratOf).foldl (· * ·) 1
def signProduct (l : List FVal) : Bool := l.foldl (fun acc x => acc != x.neg?) false

end Sys2Proof.Claims

/-- mtab loads moduli; mred and mlift move between integers and residues. mtab with n from 1 to 64 and m + n at most 64 reads
n records and, all valid, replaces entries m to m + n − 1 of the context. mred with a loaded entry k writes each active
lane's integer, or the 64-bit pair, reduced modulo the prime, with tag modq and MIDX k; mlift writes the least residue as
u32, or, signed, the representative of least magnitude as i32. (R318, R319, R321, R322, R323) -/
def Obligations.ResiduesComplete : Prop :=
  ∀ (s u : State) (w : Nat) (o : Order) (sc : Scope) (g : Guards) (dbl sgn : Bool) (a : BitVec 6) (d v : BitVec 6) (b c : Opnd) (n m : Word) (rs : List (List Byte))
    (ms : List Modulus) (k : Word) (p i : Nat),
    let act := activeMask s w g
    let lo := readV s w 1 v.toNat
    let hi := readV s w 2 (v.toNat + 1)
    let put := fun (f : Nat → Lane) (md : BitVec 32) => completed s w (s.modWave w fun y => y.setV d.toNat act ((List.range y.id.width).map f) md)
    (s.running = some w → checkOps s w [(.s a, .onlyS), (b, .count), (c, .count)] = .ok () → uni2 s w b c = .ok (n, m) → 1 ≤ n.toNat → n.toNat ≤ 64 → m.toNat < 64 →
      m.toNat + n.toNat ≤ 64 → readRecords w o sc n.toNat (readS s w 1 a.toNat) s = .ok (u, rs) → rs.map Modulus.ofBytes = ms.map some →
      exec (.mtab o sc (.s a) b c) s = .next (completed s w (u.modCtx (s.wave w).id.part (s.wave w).id.ctx fun x =>
        { x with mods := (List.range 64).map fun e => if m.toNat ≤ e ∧ e < m.toNat + ms.length then ms[e - m.toNat]? else x.mods.getD e none }))) ∧
    (limbReady s w g [(.v d, .onlyV), (.v v, .onlyV), (b, .count)] (!dbl || s.evenPair w (.v v)) →
      demandClean s w act ([.v v] ++ (if dbl then [.v (BitVec.ofNat 6 (v.toNat + 1))] else []) ++ [b]) = .ok () →
      (dbl = true ∨ mdTag lo.md = .i32 ∨ mdTag lo.md = .u32) → uniOf s w act 3 b = .ok k → k.toNat < 64 → s.prime w k.toNat = some p →
      exec (.mred g dbl (.v d) (.v v) b) s = .next (put (fun l => BitVec.ofInt 32 ((if dbl then (((hi.lanes.getD l 0).toNat * 2 ^ 32 + (lo.lanes.getD l 0).toNat : Nat) : Int)
        else elemInt (mdTag lo.md) (lo.lanes.getD l 0) 0) % (p : Int))) (mkMd .modq 0 false false k.toNat))) ∧
    (limbReady s w g [(.v d, .onlyV), (.v v, .onlyV)] true → mdPoison lo.md = false → mdTag lo.md = .modq → mdMidx lo.md = i → s.prime w i = some p →
      let r := fun (l : Nat) => (lo.lanes.getD l 0).toNat % p
      exec (.mlift g sgn (.v d) (.v v)) s = .next (put (fun l => if sgn = true ∧ (p - 1) / 2 < r l then BitVec.ofInt 32 ((r l : Int) - p) else BitVec.ofNat 32 (r l))
        (tagMd (if sgn then .i32 else .u32))))

/-- nttf, ntti, lmulm and ctresc send a command to the NTT unit or the matrix path. nttf and ntti with a descriptor of LOGN 4
to 17, entries loaded with that LOGN and polynomials that do not overlap enter the unit of the quad; lmulm with at most
131,072 limbs runs on the matrix path of its core below NTTTHR and in the unit from it on; ctresc of a valid, idle plaintext-
free ciphertext above level 0 sets BUSY, an acquire whatever the ordering, and enters the unit. The model's choices: the
wave's stores are performed before the command, whatever its ordering (log entry 12); a polynomial that begins below the
scratchpad window and runs into it is sent (log entry 56); the queue of lmulm has no limit (log entry 54). ctresc of a
checked group arrives at a commit point. (R271, R273, R324, R325, R326, R327, R334, R337, R338, R446) -/
def Obligations.TransformsAndProductsSend : Prop :=
  ∀ (s u t v : State) (w : Nat) (o : Order) (sc : Scope) (rnd : Bool) (d a b c : BitVec 6) (q : Opnd) (h : Word) (bs : List Byte) (l : Loc) (ms : List Modulus),
    let x := s.wave w
    let dv := readS s w 4 d.toNat
    let av := readS s w 1 a.toNat
    let bv := readS s w 2 b.toNat
    let cv := readS s w 3 c.toNat
    let k := NttDesc.of cv
    let bump := fun (r : State) => r.modWave w fun y => { y with num.ntt := y.num.ntt + 1 }
    (s.running = some w → nttRoom s w → cv.extractLsb' 24 8 = 0 → cv.extractLsb' 5 7 = 0 → 4 ≤ k.logn → k.logn ≤ 17 → k.mbase + k.nres ≤ 64 →
      s.entries w k.mbase k.nres k.logn = some ms → k.selfOverlap = false → k.crossOverlap dv av = false → dv.toNat % 4 = 0 → av.toNat % 4 = 0 →
      (∀ e ∈ k.polys dv ++ k.polys av, unitBad e = false) →
      exec (.nttf o sc (.s d) (.s a) (.s c)) s = .next (completed s w (bump (sentNtt s w o sc x.num.ntt (.transform false dv av k.bstr k.nb k.nres k.logn) ms false))) ∧
      exec (.ntti o sc (.s d) (.s a) (.s c)) s = .next (completed s w (bump (sentNtt s w o sc x.num.ntt (.transform true dv av k.bstr k.nb k.nres k.logn) ms false)))) ∧
    (let la := cv.toNat % 2 ^ 32
     let lb := cv.toNat / 2 ^ 32
     let cmd : LMul := { wave := w, group := x.id.group, key := x.num.key, num := x.num.lmulm, o := o, sc := sc, d := dv, a := av, b := bv, la := la, lb := lb,
                         prog := 0, crc := none, pos := x.pos }
     let bump := fun (r : State) => r.modWave w fun y => { y with num.lmulm := y.num.lmulm + 1 }
     s.running = some w → limbsMeet dv (la + lb) av la = false → limbsMeet dv (la + lb) bv lb = false → limbRange dv (la + lb) → limbRange av la → limbRange bv lb →
     la + lb ≤ 131072 →
     (max la lb < x.nttthr.toNat → x.outstanding .tl < 62 → s.storesHeld w = false → exec (.lmulm o sc (.s d) (.s a) (.s b) (.s c)) s = .next (completed s w (bump
       (((s.performAll w).modWave w fun y => y.count .tl false []).modCore x.id.core fun e => { e with lmuls := e.lmuls ++ [cmd] })))) ∧
     (x.nttthr.toNat ≤ max la lb → nttRoom s w → exec (.lmulm o sc (.s d) (.s a) (.s b) (.s c)) s = .next (completed s w (bump
       (sentNtt s w o sc x.num.lmulm (.lmul cmd) [] false))))) ∧
    (s.running = some w → checkOps s w [(q, .sv)] = .ok () → sc ≠ .wave → sc ≠ .core →
      (s.staged x.id.group = true → s.drainedWave w = true →
        exec (.ctresc o sc rnd q) s = .next ((s.modWave w fun y => { y with sch.arrived := some Arrive.forcing }).stallWave w .commit).tick) ∧
      (s.staged x.id.group = false → uni1 s w q = .ok h → h.toNat % 64 = 0 → unitBad h = false → recordRead s w (if Order.releases o then .ar else .acq) sc h 64 64 = .ok (u, bs) →
        placeOf u w h.toNat 64 .store = .ok (t, l) →
        let hd := CtHeader.ofBytes bs
        let ms := (s.entries w hd.mbase hd.res hd.logn).getD []
        hd.code s w = 0 → hd.busy = false → hd.flags.testBit 0 = false → repeatsTop ms = false →
        (hd.level = 0 → exec (.ctresc o sc rnd q) s = .next (s.trapped w { code := 0x0C#6, addr := h })) ∧
        (hd.level ≠ 0 → raceCheck t w { kind := .atomic, acq := true, rel := Order.releases o, sc := sc } [(0, (h + 4).toNat, 4)] = .ok v → nttRoom v w →
          ∀ pa, l = .mem pa → exec (.ctresc o sc rnd q) s = .next (completed s w (bump
            ((sentNtt v w o sc (v.wave w).num.ntt (.rescale h hd.logn hd.res hd.comps hd.cstr rnd) ms true).putLe (pa + 7) 1 (hd.flags + 128)))))))

/-- ctchk and ctlvl report on ciphertext headers. With handles that are multiples of 64 below 2^57 outside the window and
readable headers: ctchk writes LEVEL, RES, CODE, BUSY and VALID to Sd, CODE being that of A, 32 more than that of B, or of
the pair, the first that applies; with .t a non-zero CODE raises 0x02; that 32 more than the code of B comes before the codes
of the pair is the model's reading of R335 (log entry 56). ctlvl writes LEVEL when SIG is right and raises 0x02 otherwise;
that it reads bytes 0 to 7 as one access is the model's reading of R336 (log entry 56). (R333, R334, R335, R336) -/
def Obligations.CiphertextHeadersRead : Prop :=
  ∀ (s u v : State) (w : Nat) (o : Order) (sc : Scope) (t : Bool) (n : BitVec 6) (a b : Opnd) (x y : Word) (as bs : List Byte), s.running = some w →
    let handle := fun (h : Word) => h.toNat % 64 = 0 ∧ unitBad h = false
    let word := fun (l r c : Nat) (busy : Bool) => BitVec.ofNat 64 (l * 2 ^ 24 + r * 2 ^ 16 + c * 2 ^ 8 + (if busy then 2 else 0) + (if c = 0 then 1 else 0))
    let ha := CtHeader.ofBytes as
    let hb := CtHeader.ofBytes bs
    let result := fun (i : Instr) (r : State) (c : Nat) (busy : Bool) =>
      (t = true → c ≠ 0 → exec i s = .next (s.trapped w { code := 0x02#6 })) ∧
      ((t = true → c = 0) → exec i s = .next (completed s w (r.modWave w fun q => q.setS n.toNat (word ha.level ha.res c busy))))
    (checkOps s w [(.s n, .onlyS), (a, .sv)] = .ok () → uni1 s w a = .ok x → handle x →
      (recordRead s w o sc x 64 64 = .ok (u, as) → result (.ctchk o sc t (.s n) a b false) u (ha.code u w) ha.busy) ∧
      (recordRead s w o sc x 8 64 = .ok (u, as) →
        exec (.ctlvl o sc (.s n) a) s = .next (if fieldOf as 0 4 = 0x5A860C7E then completed s w (u.modWave w fun q => q.setS n.toNat (BitVec.ofNat 64 (fieldOf as 6 1)))
          else s.trapped w { code := 0x02#6 }))) ∧
    (checkOps s w [(.s n, .onlyS), (a, .sv), (b, .sv)] = .ok () → uni2 s w a b = .ok (x, y) → handle x → handle y →
      recordRead s w o sc x 64 64 = .ok (u, as) → recordRead u w o sc y 64 64 = .ok (v, bs) →
      result (.ctchk o sc t (.s n) a b true) v (if ha.code v w ≠ 0 then ha.code v w else if hb.code v w ≠ 0 then 32 + hb.code v w else ha.pairCode hb) (ha.busy || hb.busy))

namespace Sys2Proof.Claims

/-- A heap command at issue in a group other than a twin: CP has room, no recovery hold keeps a store of the wave back, and a
staged group has an entry of its log left. -/
abbrev heapReady (s : State) (w : Nat) (op : HOp) : Prop :=
  s.running = some w ∧ (s.wave w).outstanding .cp < 62 ∧ (s.waveGroup w).copy ≠ .twin ∧ s.storesHeld w = false ∧
  (s.staged (s.wave w).id.group = true → op.logged = true → s.heapEntries (s.wave w).id.group < 256)

/-- The command goes to the engine of the arena's die: a free first has the wave's stores performed and its interval raised; one CP
operation is outstanding, the twin is told that its reply is due, and the command is the engine's last. -/
def heapSent (s : State) (w : Nat) (op : HOp) (dest : Nat) : State :=
  let x := s.wave w
  let free := match op with
    | .free _ => true
    | _ => false
  let r := if free then (s.performAll w).releaseInterval w else s
  (told x (r.modWave w fun y => { y.count .cp false [] with num.heap := y.num.heap + 1 }) w
    { val := 0, pred := false, trap := none, what := op.what, due := some x.num.key }).modDie (s.heapDie w) fun e =>
    { e with heapQ := e.heapQ ++ [{ op := op, wave := w, group := x.id.group, key := x.num.key, num := x.num.heap, dest := dest,
                                    hb := x.tr.hm && decide (56 ≤ dest), pos := x.pos }] }

/-- The engine's reply to command `c`: the twin's due result becomes it, a block returned is an acquire of both copies' cores, the
operation of the wave has its registers, and in a pre-empted partition completes at once. -/
def heapAnswer (s : State) (c : HCmd) (val : Word) (fail : Bool) : State :=
  let f : Fwd := { val := val, pred := fail, trap := none, what := c.op.what }
  let u := match s.twinOf c.wave with
    | some t => s.modWave t fun x => { x with fwd := x.fwd.map fun y => if y.due = some c.key then { f with hm := y.hm } else y }
    | none => s
  let alloc := match c.op with
    | .alloc .. => true
    | _ => false
  let v := if alloc then ((u.wave c.wave).id.core :: (u.twinOf c.wave).toList.map fun t => (u.wave t).id.core).foldl State.l1Clear u else u
  v.modWave c.wave fun x =>
    let y := x.markReady c.key (c.op.dests c.dest c.hb val fail)
    match y.mem.outst.find? fun p => p.key == c.key with
    | some p => if (v.part (v.wave c.wave).id.part).run = .running then y else y.finish p
    | none => y

/-- A tier-engine command at issue: the wave's stores are performed (log entry 12), a CP operation is outstanding, the twin is told
that its result is due, and the command is the engine's last: the state, and the command. -/
def tierSent (s : State) (w : Nat) (op : TOp) (o : Order) (sc : Scope) : State × TCmd :=
  let x := s.wave w
  let cmd : TCmd := { op := op, wave := w, group := x.id.group, key := x.num.key, num := x.num.tier, o := o, sc := sc, pos := x.pos }
  ((told x ((s.performAll w).modWave w fun y => { y.count .cp false [] with num.tier := y.num.tier + 1 }) w
    { val := 0, pred := false, trap := none, due := some x.num.key }).modPart x.id.part fun p => { p with tierQ := p.tierQ ++ [cmd] }, cmd)

/-- The command is complete with a status: its operation has the registers `ds`, a status other than zero posts its event, it leaves
the engine, and the twin's due result is there. -/
def tierAnswered (s : State) (c : TCmd) (st : BitVec 8) (ds : List Dest) : State :=
  let r := ((s.modWave c.wave fun y => y.markReady c.key ds).postEvent c.wave st 0x40 c.num).modPart (s.wave c.wave).id.part fun p =>
    { p with tierQ := p.tierQ.filter fun y => y.wave != c.wave || y.key != c.key }
  match r.twinOf c.wave with
  | some t => r.modWave t fun y => { y with fwd := y.fwd.map fun f => if f.due == some c.key && f.what == 0 then { val := st.zeroExtend 64, pred := false, trap := none, hm := f.hm } else f }
  | none => r

/-- The command begins in the engine of partition `k`: it has a status, and the shootdowns that it waits for. -/
def tierBegun (s : State) (k : Nat) (c : TCmd) (st : BitVec 8) (shoots : List Nat) : State × TCmd :=
  let y : TCmd := { c with begun := some st, shoots := shoots }
  (s.modPart k fun p => { p with tierQ := p.tierQ.map fun e => if e.wave == c.wave && e.key == c.key then y else e }, y)

/-- A shootdown of a partition that finds no other before it drops what `f` names: it takes its number, the stores on their way are
performed, the translations are gone, and what is still in flight is of the old generation. -/
def dropping (s : State) (p : Nat) (k : ShootKind) (m : Option Moving) : State :=
  let q := s.modPart p fun x => { x with nextShoot := x.nextShoot + 1, shoots := [{ seq := x.nextShoot, what := k, frames := none, evict := m }] }
  ((q.settleStores p).dropTlb fun t => !(t.part == p && k.hit t)).turnGeneration p

/-- The physical ranges whose accesses it waits for. -/
def dropped (s : State) (p : Nat) (k : ShootKind) (m : Option Moving) : List (Nat × Nat) :=
  m.toList.map (fun e => (e.frame, pageSize e.level e.sz)) ++
    (s.dies.flatMap fun d => d.tlb.filter fun t => t.part == p && k.hit t).map fun t => (t.pa, t.size)

/-- Nothing of the old generation is in flight there: the shootdown is acted. -/
abbrev quietAfter (s : State) (p : Nat) (k : ShootKind) (m : Option Moving) : Prop :=
  (s.part p).shoots = [] ∧ ∀ q ∈ dropped s p k m, (dropping s p k m).oldIn p q.1 q.2 = false

end Sys2Proof.Claims

/-- halloc, hfree and hstat send a command, and the heap engine applies it. In a group that is not a twin, with room in CP
and in the allocation log, halloc of 1 to 2^24 bytes, hfree of 0 or a multiple of 64 inside the arena and hstat of 0 to 4
complete with the command sent; halloc.t instead waits, reads its source no more, and completes with the address, in a twin
with what its primary received (log entry 51). The engine's oldest command takes effect, in a pre-empted partition too: hstat
replies the figure; hfree of 0 does nothing, of a live block frees it, or defers the free in a staged group; an allocation
that fits takes a block, one that does not is a failure. The queue without a limit is log entry 54, the die HDIE that serves
and a free already deferred log entry 37, one queue for the arenas of a die log entry 56. (R278, R280, R281, R282, R283,
R284, R285, R286, R287, R288, R290) -/
def Obligations.HeapCommandsComplete : Prop :=
  ∀ (s : State) (w : Nat) (z t : Bool) (d : BitVec 6) (a : Opnd) (pe : BitVec 3) (v : Word),
    let x := s.wave w
    let op : HOp := .alloc v.toNat z t x.exec pe
    (checkOps s w [(.s d, .onlyS), (a, .count)] = .ok () → uni1 s w a = .ok v →
      (1 ≤ v.toNat → v.toNat ≤ 2 ^ 24 →
        (t = false → heapReady s w op → exec (.halloc z t (.s d) a pe) s = .next (completed s w (heapSent s w op d.toNat))) ∧
        (t = true → heapReady s w op → x.sch.heapWait = none → exec (.halloc z t (.s d) a pe) s = .next (((heapSent s w op d.toNat).modWave w fun y =>
          { y with sch.heapWait := some x.num.key, sch.heapReply := none }).stallWave w .reply).tick)) ∧
      (v.toNat ≤ 4 → heapReady s w (.stat v.toNat) → exec (.hstat (.s d) a) s = .next (completed s w (heapSent s w (.stat v.toNat) d.toNat)))) ∧
    (s.running = some w → ∀ k r, x.sch.heapWait = some k →
      let done := fun (u : State) => completed s w (u.modWave w fun y => { y.setS d.toNat r with sch.heapWait := none, sch.heapReply := none })
      ((s.waveGroup w).copy ≠ .twin → x.sch.heapReply = some (.ok r) → exec (.halloc z true (.s d) a pe) s = .next (done s)) ∧
      (∀ f rest, (s.waveGroup w).copy = .twin → nextTold x true f rest → f.what = BitVec.ofNat 64 k → f.due = none → f.trap = none → f.val = r →
        exec (.halloc z true (.s d) a pe) s = .next (done ((s.modWave w fun y => { y with fwd := rest }).modWave w fun y =>
          { y.count .cp true [] with num.heap := y.num.heap + 1 })))) ∧
    (checkOps s w [(a, .sv)] = .ok () → uni1 s w a = .ok v → heapReady s w (.free v.toNat) →
      (v = 0 ∨ v.toNat % 64 = 0 ∧ ∃ r, (s.waveCtx w).arena = some r ∧ r.base ≤ v.toNat ∧ v.toNat < r.base + r.size) →
      exec (.hfree a) s = .next (completed s w (heapSent s w (.free v.toNat) 0))) ∧
    (∀ (die : Nat) (c : HCmd) (rest : List HCmd), (s.die die).heapQ = c :: rest → s.alive (s.wave c.wave).id.part = true →
      (s.wave c.wave).sch.heapWait ≠ some c.key → (∀ q, (s.wave c.wave).tr.heapSaved = some q → q.2.1 ≠ c.key) →
      let u := s.modDie die fun e => { e with heapQ := rest }
      let y := s.wave c.wave
      let reply := fun (u : State) (val : Word) (fail : Bool) => heapAnswer u c val fail
      let keep := fun (u : State) (r : Arena) => u.modCtx y.id.part y.id.ctx fun q => { q with arena := some r }
      let log := (s.group c.group).heapLog
      (∀ k, c.op = .stat k → exec (.heapCommandApply die) s = .next (reply u (Arena.figure (u.waveCtx c.wave).arena k) false).tick) ∧
      (c.op = .free 0 → s.freeWaits c = false → exec (.heapCommandApply die) s = .next (reply u 0 false).tick) ∧
      (∀ p r b, c.op = .free p → s.freeWaits c = false → p ≠ 0 → (u.waveCtx c.wave).arena = some r → r.liveAt p = some b → HeapLog.free p ∉ log →
        (u.staged c.group = false → exec (.heapCommandApply die) s = .next (reply (keep u (r.release b)) 0 false).tick) ∧
        (u.staged c.group = true → exec (.heapCommandApply die) s = .next (reply (u.modGroup c.group fun g => { g with heapLog := g.heapLog ++ [.free p] }) 0 false).tick)) ∧
      (∀ n m q r, c.op = .alloc n false false m q → (u.waveCtx c.wave).arena = some r →
        (∀ p r', r.alloc n = some (p, r') → exec (.heapCommandApply die) s = .next (reply (let k := keep u r'
          if u.staged c.group then k.modGroup c.group fun g => { g with heapLog := g.heapLog ++ [.alloc p] } else k) (BitVec.ofNat 64 p) false).tick) ∧
        (r.alloc n = none → exec (.heapCommandApply die) s = .next (reply (keep u { r with failures := r.failures + 1 }) 0 true).tick)))

/-- mark, scrdl and tierq take effect and are counted, tlbinv drops translations. In a group that is not a twin: mark m not
below the group marker sets it and moves the launch marker, and traps 0x0E resuming after it exactly when no ready marker
reaches m. scrdl and tierq complete with the wave's stores performed (log entry 12), one CP outstanding, and the command
sent; nothing keeping it, it goes on at once: scrdl of a readable table of valid entries takes it as the launch's screed, and
where the launch holds one the same has no effect and another is refused with status 0x02, as an invalid entry is; tierq acts
on its region and, once no shootdown of an evict of it waits, writes its stamp in every copy and completes. That it starts at
once is the model's choice (log entry 38), as is what tells the twin (log entry 51). tlbinv in a privileged context, with no
shootdown before it and no access in flight to a dropped frame, drops the matching translations of the partition after its
stores (log entry 38). (R18, R410, R411, R413, R414, R415, R416, R417, R418, R420, R451) -/
def Obligations.TierInstructionsComplete : Prop :=
  ∀ (s u : State) (w : Nat) (imm : BitVec 32) (o : Order) (sc : Scope) (dn : BitVec 2) (act : TierAct) (a : BitVec 6) (b c : Opnd) (n off : Word)
    (bs : List (List Byte)), s.running = some w → (s.waveGroup w).copy ≠ .twin →
    let x := s.wave w
    let va := readS s w 1 a.toNat
    ((s.waveGroup w).marker.toNat ≤ imm.toNat →
      let miss := match (s.waveLaunch w).readyMarker with
        | some r => decide (r < imm.toNat)
        | none => true
      let r := ((told x s w { val := 0, pred := miss, trap := none }).modGroup x.id.group fun g => { g with marker := imm }).followMarkers x.id.launch
      let t := r.trapped w { code := 0x0E, addr := imm.zeroExtend 64, resume := true }
      exec (.mark imm) s = .next (if miss then if x.tr.hm = false ∧ (t.wave w).tr.hm = true then t.countRetired w (r.wave w) else t else completed s w r)) ∧
    ((s.waveGroup w).marker.toNat > imm.toNat → exec (.mark imm) s = .next (s.trapped w { code := 0x02 })) ∧
    (x.outstanding .cp < 62 → checkOps s w [(.s a, .onlyS), (b, .count), (c, .si)] = .ok () → zeroImm c = true → uni1 s w b = .ok n →
      uniOf s w x.exec 3 c = .ok off → s.storesHeld w = false →
      (1 ≤ n.toNat → n.toNat ≤ 4096 → va.toNat % 32 = 0 →
        let r := tierSent s w (.screed va off n.toNat) o sc
        exec (.scrdl o sc (.s a) b c) s = .next (completed s w (r.1.tierStep r.2)) ∧
        (r.1.engineHeld x.id.group = false → r.1.acquireWaits w x.num.key o = false →
          (∀ z, (r.1.launch (r.1.wave w).id.launch).screed = some z →
            r.1.tierStep r.2 = tierAnswered r.1 r.2 (if z.addr = va ∧ z.n = n.toNat ∧ z.off = off then 0 else 2) []) ∧
          ((r.1.launch (r.1.wave w).id.launch).screed = none →
            engReads { wave := w, group := x.id.group, o := o, sc := sc, num := x.num.tier, origin := { pos := x.pos, key := some x.num.key },
                       die := some (r.1.owningDie (r.1.wave w).id.launch) } r.1
              ((List.range n.toNat).map fun i => ((va + BitVec.ofNat 64 (32 * i)).toNat, 32)) = .ok (u, bs) →
            let es := bs.map (SEntry.ofBytes (u.part (r.1.wave w).id.part).dies off)
            (none ∈ es → r.1.tierStep r.2 = tierAnswered u r.2 2 []) ∧
            (none ∉ es → r.1.tierStep r.2 = tierAnswered ((u.modLaunch (r.1.wave w).id.launch fun l => { l with screed := some {
              addr := va, n := n.toNat, off := off, entries := es.filterMap id } }).startEntries (r.1.wave w).id.launch) r.2 0 [])))) ∧
      ((s.part x.id.part).dies.contains dn.toNat = true → 1 ≤ n.toNat → n.toNat < 2 ^ 32 → va.toNat % 0x10000 = 0 → off.toNat % 8 = 0 → va.toNat < 2 ^ 57 →
        let stamp := match c with
          | .imm _ => none
          | _ => some off
        let r := tierSent s w (.region act dn.toNat va n.toNat stamp) o sc
        let id := (r.1.wave w).id
        exec (.tierq o sc dn (.s a) b c act) s = .next (completed s w (r.1.tierStep r.2)) ∧
        (r.1.engineHeld x.id.group = false → r.1.acquireWaits w x.num.key o = false → r.1.regionHeld act id.part id.ctx dn.toNat va.toNat n.toNat = false →
          let q := r.1.overRegion act id.part id.ctx dn.toNat va.toNat n.toNat
          let v := tierBegun q.1 id.part r.2 q.2.1 q.2.2
          (q.2.2 ≠ [] → r.1.tierStep r.2 = v.1) ∧
          (q.2.2 = [] →
            (stamp = none → r.1.tierStep r.2 = tierAnswered v.1 v.2 q.2.1 []) ∧
            (stamp = some off → v.1.stampWaits x.id.group (v.1.waveDie w) (v.1.wave w).id.part (v.1.wave w).id.ctx off = false →
              let id := (v.1.wave w).id
              let d := v.1.waveDie w
              let p := v.1.putStamp x.id.group d id.part id.ctx false off q.2.1
              let y : State := match p.2 with
                | .ok _ => p.1.raceEngine w { kind := .stamp, acq := false, rel := Order.releases o, sc := sc } { pos := x.pos, key := some x.num.key } [(off.toNat, 8)]
                | .error _ => p.1
              let both := (match (y.group x.id.group).sibling with
                | some t => (y.putStamp t d id.part id.ctx false off q.2.1).1
                | none => y).releaseDone x.id.group o sc
              r.1.tierStep r.2 = tierAnswered both v.2 (match p.2 with
                | .ok _ => q.2.1
                | .error e => lowestStatus q.2.1 e) []))))) ∧
    ((s.waveCtx w).priv = true → x.id.part < s.parts.length → x.sch.shoot = none →
      let p := x.id.part
      let gone := fun (k : ShootKind) => (dropping s p k none).modPart p fun y => { y with shoots := [] }
      let named := n.toNat < 64 ∧ (s.ctx p n.toNat).active = true
      (checkOps s w [(.s a, .onlyS), (b, .si)] = .ok () → uni1 s w b = .ok n → named → va.toNat < 2 ^ 57 → quietAfter s p (.page n.toNat va.toNat) none →
        exec (.tlbinvPage (.s a) b) s = .next (completed s w (gone (.page n.toNat va.toNat)))) ∧
      (checkOps s w [(b, .si)] = .ok () → uni1 s w b = .ok n → named → quietAfter s p (.ctx n.toNat) none →
        exec (.tlbinvCtx b) s = .next (completed s w (gone (.ctx n.toNat)))) ∧
      (quietAfter s p .all none → exec .tlbinvAll s = .next (completed s w (gone .all)))) ∧
    ((s.waveCtx w).priv = false → exec (.tlbinvPage (.s a) b) s = .next (s.trapped w { code := 0x04 }) ∧
      exec (.tlbinvCtx b) s = .next (s.trapped w { code := 0x04 }) ∧ exec .tlbinvAll s = .next (s.trapped w { code := 0x04 }))

/-- fetch, evict, shootdown and the end of a screed entry. FETCH brings the page of an address of an active context to a die
of the partition, unless a claim or a link holds it: a tiered page takes a frame of the pool, and every entry of its leaf is
present (bit 0), fetched, pinned if asked, and holds the frame. EVICT of a fetched page that is not pinned claims it, its
entries tiered and busy, and its shootdown takes its place; with no shootdown before it and nothing in flight to its frame
the step ends with the entries tiered with their home and the translations gone. Each is one step (log entries 34, 38: the
model's choice). SHOOTDOWN performs the partition's stores and drops its translations; where shootdowns or commands wait,
they go on. A started entry ends, in a pre-empted partition too: a fetch or pin with the status it found, with pages that had
to wait brought first, another action with that of its region, an evict once its shootdowns are over; the status is kept and
the stamp is written. (R407, R408, R410, R413, R415, R419) -/
def Obligations.TierEngineSteps : Prop :=
  ∀ (s : State) (p c die l k : Nat) (va : BitVec 64) (pin : Bool),
    (s.alive p = true → (s.ctx p c).active = true → va.toNat < 2 ^ 57 →
      ((s.part p).dies.contains die = true → s.fetchHeld p c die va.toNat = false →
        exec (.fetch p c va die pin) s = .next (s.bringPage p c die pin va.toNat).1.tick ∧
        (Memory.wf s.mem = true → ∀ pa level e q frame free, s.walk p c va.toNat = .tiered pa level e → e.busy = false → (s.part p).pool die = some q →
          s.moveReach die p c va.toNat e.addr ≠ .broken → blockAlloc 0x10000 q.free (frameClass (pageSize level e.sz)) = some (frame, free) →
          (∀ a ∈ s.lost, ¬ (e.addr / 32 ≤ a ∧ a < (e.addr + pageSize level e.sz) / 32)) →
          ∃ u, exec (.fetch p c va die pin) s = .next u ∧ ((u.part p).pool die).map (fun q => q.free) = some free ∧
            ∀ g ∈ groupEntries pa level e.sz, u.mem.readLe g 8 =
              (frame + (e.raw &&& (2 ^ 2 + 2 ^ 3 + 2 ^ 6)) + 3 + 2 ^ 8 + (if pin then 2 ^ 7 else 0)) % 2 ^ 64) ∧
        (∀ pa level e, s.walk p c va.toNat = .leaf pa level e → pin = false ∨ e.tf = false → exec (.fetch p c va die pin) s = .next s.tick)) ∧
      (∀ pa level e q, s.walk p c va.toNat = .leaf pa level e →
        (e.tf = false ∨ e.pin = true → exec (.evict p c va) s = .next s.tick) ∧
        (e.tf = true → e.pin = false → (s.part p).poolAt e.addr = some q →
          let home := s.mem.readLe (q.recs + 8 * ((e.addr - q.base) / 0x10000)) 8
          let keep := home + (e.raw &&& (2 ^ 2 + 2 ^ 3 + 2 ^ 6)) + 2 + 2 ^ 9
          let m : Moving := { pa := pa, level := level, sz := e.sz, frame := e.addr, home := home, die := q.die, was := e.raw,
                              dirty := (groupEntries pa level e.sz).any fun r => (s.pte r).d }
          let claimed := (s.writeGroup pa level e.sz (keep + 2 ^ 10)).modDie q.die fun x => { x with claims := x.claims ++ groupEntries pa level e.sz }
          (s.moveReach q.die p c va.toNat home = .broken → exec (.evict p c va) s = .next s.tick) ∧
          (s.moveReach q.die p c va.toNat home ≠ .broken →
            exec (.evict p c va) s = .next (claimed.startShoot p (.page c va.toNat) (some m)).1.tick ∧
            (Memory.wf s.mem = true → ∀ g ∈ groupEntries pa level e.sz, claimed.mem.readLe g 8 = (keep + 2 ^ 10) % 2 ^ 64) ∧
            (Memory.wf s.mem = true → quietAfter claimed p (.page c va.toNat) (some m) → (dropping claimed p (.page c va.toNat) (some m)).reach q.die home = .ok →
              ∃ u, exec (.evict p c va) s = .next u ∧ (∀ g ∈ groupEntries pa level e.sz, u.mem.readLe g 8 = keep % 2 ^ 64) ∧
                ∀ d ∈ u.dies, ∀ x ∈ d.tlb, x.part = p → Tlb.covers c va.toNat x = false))))) ∧
    (s.alive p = true → ((s.part p).shoots = [] → (s.part p).tierQ = [] → quietAfter s p .all none →
        exec (.shootdown p) s = .next ((dropping s p .all none).modPart p fun y => { y with shoots := [] }).tick) ∧
      ((s.part p).shoots ≠ [] ∨ (s.part p).tierQ ≠ [] →
        exec (.shootdown p) s = .next (((s.advanceShoots p).part p).tierQ.foldl State.tierStep (s.advanceShoots p)).tick)) ∧
    (∀ z e, (s.launch l).screed = some z → z.entries[k]? = some e → s.alive (s.launch l).part = true → e.started = true → e.ended = false →
      (∀ a, e.stamp = some a → s.stampWaits s.groups.length (s.owningDie l) (s.launch l).part (s.launch l).r.ctx a = false) →
      let q := (s.launch l).part
      let put := fun (r : State) (e : SEntry) => r.modLaunch l fun y => { y with screed := y.screed.map fun z => { z with entries := z.entries.set k e } }
      let acted := s.overRegion e.action q (s.launch l).r.ctx e.die e.base.toNat e.npage
      let ends := fun (r : State) (st : BitVec 8) =>
        let u := put r { e with ended := true, status := st }
        exec (.screedEntryEnd l k) s = .next (match e.stamp with
          | none => u
          | some a => u.writeStamp u.groups.length (u.owningDie l) q (s.launch l).r.ctx true a st).tick
      (e.shoots = none → s.regionHeld e.action q (s.launch l).r.ctx e.die e.base.toNat e.npage = false →
        (e.action = .fetch ∨ e.action = .pin → ends (if e.late then acted.1 else s) (lowestStatus e.status (if e.late then acted.2.1 else 0))) ∧
        (e.action ≠ .fetch → e.action ≠ .pin → acted.2.2 = [] → ends acted.1 acted.2.1) ∧
        (e.action ≠ .fetch → e.action ≠ .pin → acted.2.2 ≠ [] →
          exec (.screedEntryEnd l k) s = .next (put acted.1 { e with status := acted.2.1, shoots := some acted.2.2 }).tick)) ∧
      (∀ ns, e.shoots = some ns → e.action = .evict → (∀ n ∈ ns, ∀ x ∈ (s.part q).shoots, x.seq ≠ n) → ends s e.status))

/-- trap and bkpt take their exception; taking one saves the position and enters the handler. trap with an accepted A takes
its code with A's value in TADDR, SW set and resumption after it; bkpt takes 0x1B with its number; each counts as retired
when its handler is entered. Outside handler mode, where the table entry of the code reads as an aligned address of a header,
the wave then is in handler mode at that header with TCAUSE, TCLA, TINF, TWORD, TADDR and the lane mask as given, XPROG saved
and zero; registers, predicates and masks are unchanged. In handler mode it is a second error, recorded with what the entry
would have put into the trap registers (log entry 33). (R82, R344, R345, R346, R347, R349, R353) -/
def Obligations.TrapsEnterTheHandler : Prop :=
  ∀ (s : State) (w : Nat) (code : BitVec 6) (a : Opnd) (v : Word) (n : BitVec 4), s.running = some w → w < s.waves.length →
    let x := s.wave w
    let entered := fun (t : TrapReq) => let r := s.trapped w t
      if x.tr.hm = false ∧ (r.wave w).tr.hm = true then r.countRetired w x else r
    (checkOps s w [(a, .count)] = .ok () → uni1 s w a = .ok v →
      exec (.trap code a) s = .next (entered { code := code, addr := v, resume := true, sw := true })) ∧
    exec (.bkpt n) s = .next (entered { code := 0x1B, addr := n.zeroExtend 64, resume := true }) ∧
    (∀ t : TrapReq, x.lc.dying = 0 →
      (x.tr.hm = true → s.trapped w t = (s.secondErrorOf w t.code (x.trapRec t false)).tick) ∧
      (x.tr.hm = false → (∀ u, s.handler w t.code = some (u, 0) → s.trapped w t = (u.secondErrorOf w t.code (x.trapRec t false)).tick) ∧
        (∀ u v h word, s.handler w t.code = some (u, h) → h ≠ 0 → h.toNat % 8 = 0 → u.unitRead w h.toNat .fetch = some (v, word) →
          (Header.ofWord word).isSome = true →
          let y := (s.trapped w t).wave w
          y.tr.hm = true ∧ y.tr.cause = BitVec.ofNat 64 (t.code.toNat + if t.sw then 2 ^ 14 else 0) ∧ y.tr.tcla = x.hdr ∧
          y.tr.tinf = BitVec.ofNat 64 (x.pos.idx % 16 + (if t.resume then 16 else 0) + if t.hdr.isSome then 32 else 0) ∧
          y.tr.tword = t.hdr.getD x.word ∧ y.tr.taddr = t.addr ∧ y.tr.tlanes = t.lanes.getD x.exec ∧ y.tr.txprog = x.lc.xprog ∧ y.lc.xprog = 0 ∧
          y.s = x.s ∧ y.hb = x.hb ∧ y.v = x.v ∧ y.preds = x.preds ∧ y.fflags = x.fflags ∧ y.mem.outst = x.mem.outst ∧ y.lc.dead = x.lc.dead ∧
          (x.cur < x.lc.paths.length → y.pos = { hdr := h, idx := 0 } ∧ y.exec = x.exec))))

/-- rte resumes the program, single step is taken after it, and events enter their handlers. rte in a handler on the trapping
path with its mask and region as at entry and no region left open resumes at the saved position, or the one after it, out of
handler mode with XPROG restored and single step armed by SS, and goes on waiting where it waited at entry (log entry 48);
from a restore handler its core goes on with the next wave that has one to leave, else with the wave that it ran before; a
save handler parks instead; other paths or masks are a second error 0x01; outside a handler it raises 0x04. SINGLE_STEP takes
trap 0x1C with the stepped word, of a wave that does not park. EVENT_DELIVERY delivers 0x20, 0x21, 0x22 in this order, a wave
without a handler for 0x20 parking instead, with no single step due; DEBUG_BREAK fills an empty slot, and a full one keeps
its value (log entry 43); WATCHDOG takes 0x15 with the limit. (R344, R348, R350, R352, R354, R358) -/
def Obligations.HandlersReturn : Prop :=
  ∀ (s : State) (w : Nat) (v : BitVec 64),
    let x := s.wave w
    let u := (s.returned w).wave w
    (s.running = some w →
      (x.tr.hm = false → exec .rte s = .next (s.trapped w { code := 0x04 })) ∧
      (x.tr.hm = true → x.mayReturn = false → exec .rte s = .next (s.secondError w 0x01).tick) ∧
      (x.tr.hm = true → x.mayReturn = true → x.saving = true → exec .rte s = .next ((s.retire w x).stallWave w .park)) ∧
      (x.tr.hm = true → x.mayReturn = true → x.saving = false → exec .rte s = .next (let t := jumped s w (s.returned w)
          if x.restoring = true then t.modCore x.id.core fun k => match t.restorer x.id.core with
            | some v => { k with running := some v }
            | none => { k with running := t.keptWave x.id.core, kept := none }
          else if (t.wave w).sch.waiting.isSome then t.modCore (t.wave w).id.core fun k => { k with running := none } else t) ∧
        (w < s.waves.length → x.lc.dying = 0 → u.tr.hm = false ∧ u.lc.xprog = x.tr.txprog ∧ u.tr.armed = x.tr.ss ∧ u.s = x.s ∧ u.v = x.v ∧ u.preds = x.preds ∧
          (x.resumesAfter = false → x.cur < x.lc.paths.length → u.pos = { hdr := x.tr.tcla, idx := x.savedIndex })))) ∧
    (∀ word, x.tr.stepDue = some word → x.resident = true → x.tr.hm = false → x.sch.stall ≠ some .park → exec (.singleStep w) s =
      .next ((s.modWave w fun y => { y with word := word, tr.stepDue := none }).take w { code := 0x1C }).tick) ∧
    (w < s.waves.length → x.resident = true → x.tr.hm = false → x.sch.stall ≠ some .park →
      (∀ ph a, x.tr.pend20 = some (ph, a) → exec (.eventDelivery w) s = .next ((s.modWave w fun y => { y with tr.pend20 := none }).takeEvent w
        { code := 0x20, addr := a } ph ((s.modWave w fun y => { y with tr.pend20 := none, tr.stepDue := none, tr.armed := false }).stallWave w .park)).tick) ∧
      (∀ m, x.tr.pend20 = none → x.tr.pend21 = some m → exec (.eventDelivery w) s = .next ((s.modWave w fun y => { y with tr.pend21 := none }).takeEvent w
        { code := 0x21, lanes := some m } false (s.modWave w fun y => { y with tr.pend21 := none })).tick) ∧
      (∀ a, x.tr.pend20 = none → x.tr.pend21 = none → x.tr.pend22 = some a → exec (.eventDelivery w) s = .next ((s.modWave w fun y =>
        { y with tr.pend22 := none }).takeEvent w { code := 0x22, addr := a } false (s.modWave w fun y => { y with tr.pend22 := none })).tick)) ∧
    (w < s.waves.length → x.sch.ended = false → x.sch.halted = false → exec (.debugBreak w v) s =
      .next (s.modWave w fun y => { y with tr.pend22 := y.tr.pend22.or (some v) }).tick) ∧
    (w < s.waves.length → s.watched w = true → (s.waveCtx w).wdlim ≠ 0 →
      1024 * (s.waveCtx w).wdlim.toNat ≤ x.sch.wd → exec (.watchdog w) s =
      .next (s.take w { code := 0x15, addr := (s.waveCtx w).wdlim.zeroExtend 64 }).tick)

/-- csrd, cswr and wkill act in a privileged context, and trap 0x04 in another. In a privileged context and a group that is
not a twin: csrd of 0 to 5 writes the context register to Sd; cswr of TBASE, WDLIM or SAVEA with a value that the register
takes writes it. Reserved numbers, registers that are read-only and other values raise 0x02. What an identifier names is log
entry 47. wkill of a plain group's wave that names no resident wave does nothing; one that names a wave of another group
records an error of kind 2 with code 0 (log entry 33) and aborts that group. (R343, R361, R363) -/
def Obligations.ContextRegistersComplete : Prop :=
  ∀ (s : State) (w : Nat) (d c : BitVec 6) (a b : Opnd) (n v : Word), s.running = some w →
    let x := s.wave w
    let id := x.id
    let ctx := s.waveCtx w
    (ctx.priv = false → exec (.csrd (.s d) b) s = .next (s.trapped w { code := 0x04 }) ∧ exec (.cswr a b) s = .next (s.trapped w { code := 0x04 }) ∧
      exec (.wkill (.s c)) s = .next (s.trapped w { code := 0x04 })) ∧
    (ctx.priv = true → checkOps s w [(.s d, .onlyS), (b, .si)] = .ok () → uni1 s w b = .ok n →
      (n.toNat < 6 → (s.waveGroup w).copy ≠ .twin →
        let val : Word := if n = 0 then BitVec.ofNat 64 id.ctx else if n = 1 then ctx.tbase else if n = 2 then ctx.wdlim.zeroExtend 64 else
          if n = 3 then ctx.savea else if n = 4 then BitVec.ofNat 64 id.part else
          BitVec.ofNat 64 (((s.parts.zipIdx).map fun q => q.1.run.code * 4 ^ q.2).sum)
        exec (.csrd (.s d) b) s = .next (completed s w ((told (s.wave w) s w { val := val, pred := false, trap := none }).modWave w fun y => y.setS d.toNat val))) ∧
      (6 ≤ n.toNat → exec (.csrd (.s d) b) s = .next (s.trapped w { code := 0x02, addr := opndAddr b }))) ∧
    (ctx.priv = true → checkOps s w [(a, .count), (b, .si)] = .ok () → uni2 s w a b = .ok (v, n) →
      let put := fun (f : Context → Context) => exec (.cswr a b) s = .next (completed s w (s.modCtx id.part id.ctx f))
      let no := fun (o : Opnd) => exec (.cswr a b) s = .next (s.trapped w { code := 0x02, addr := opndAddr o })
      (n = 1 → (v.toNat % 512 = 0 → put fun k => { k with tbase := v }) ∧ (v.toNat % 512 ≠ 0 → no a)) ∧
      (n = 2 → (v.toNat < 2 ^ 32 → put fun k => { k with wdlim := v.extractLsb' 0 32 }) ∧ (2 ^ 32 ≤ v.toNat → no a)) ∧
      (n = 3 → (v.toNat % 4096 = 0 → v.toNat < 2 ^ 57 → put fun k => { k with savea := v }) ∧ ((v.toNat % 4096 ≠ 0 ∨ 2 ^ 57 ≤ v.toNat) → no a)) ∧
      (n = 0 ∨ 3 < n.toNat → no b)) ∧
    (ctx.priv = true → checkOps s w [(.s c, .onlyS)] = .ok () → s.staged id.group = false →
      let g := readS s w 1 c.toNat
      g.toNat < 2 ^ 21 → bitsOf g.toNat 20 15 = s.ctl.podRank.toNat →
      (s.waveOfId id.part g = none → exec (.wkill (.s c)) s = .next (completed s w s)) ∧
      (∀ t, s.waveOfId id.part g = some t → (s.wave t).id.group ≠ id.group → (s.group (s.wave t).id.group).sibling ≠ some id.group →
        exec (.wkill (.s c)) s = .next (completed s w ((s.addError id.part 2 0 g.toNat 0 0 0 0).abortGroup (s.wave t).id.group))))

/-- prmt requests a save or a restore, waves park, and the partition is saved, restored or fatal. prmt of a plain group in a
privileged context names a formed partition: its own gives 1, one that cannot be saved or restored 2, another is requested
and the wave waits for what the request ends with (log entry 47): 0 once the partition is saved, or runs, 2 where that has
stopped. PARK ends the wait of a drained parking wave; PARTITION_SAVE saves a pre-empted partition whose waves have all
parked and whose heap commands, and handlers' matrix commands, are done; PARTITION_RESTORE makes it run with its parked waves
resumed, restore handlers first, and scratchpad that no save handler kept free (log entry 44); PREEMPTION_TIMEOUT declares it
fatal with cause 0x02. (R287, R355, R356, R357, R358, R359, R362, R364) -/
def Obligations.PreEmptionProceeds : Prop :=
  ∀ (s : State) (w p : Nat) (d a : BitVec 6), 
    let x := s.wave w
    let v := readS s w 1 a.toNat
    let op := fun (save : Bool) => if save then Instr.prmtSave (.s d) (.s a) else Instr.prmtRestore (.s d) (.s a)
    let can := fun (save : Bool) (p : Nat) => s.alive p = true ∧ (if save then (s.part p).run = .running ∧ (s.part p).image ≠ .shadow else
      (s.part p).run = .saved ∧ (s.part p).image = .shadow)
    let asked := fun (save : Bool) (p : Nat) => if save then s.requestSave p else s.requestRestore p
    (∀ save, s.running = some w → (s.waveCtx w).priv = true → checkOps s w [(.s d, .onlyS), (.s a, .onlyS)] = .ok () →
      (x.sch.prmt = none → s.staged x.id.group = false → v.toNat < 4 → v.toNat < s.parts.length →
        (v.toNat = x.id.part → exec (op save) s = .next (completed s w (s.modWave w fun y => y.setS d.toNat 1))) ∧
        (v.toNat ≠ x.id.part → ¬ can save v.toNat → exec (op save) s = .next (completed s w (s.modWave w fun y => y.setS d.toNat 2))) ∧
        (v.toNat ≠ x.id.part → can save v.toNat → exec (op save) s =
          .next (((asked save v.toNat).modWave w fun y => { y with sch.prmt := some (x.pos, v.toNat, (s.part v.toNat).moved.length) }).stallWave w .prmt).tick)) ∧
      (∀ q n, x.sch.prmt = some (x.pos, q, n) → (s.waveGroup w).copy ≠ .twin →
        let done := fun (v : Word) => exec (op save) s = .next (completed s w (((told (s.wave w) s w { val := v, pred := false, trap := none }).modWave w fun y =>
          { y with sch.prmt := none }).modWave w fun y => y.setS d.toNat v))
        (∀ v, (s.part q).moved[n]? = some v → done v) ∧ ((s.part q).moved[n]? = none → exec (op save) s = .next (s.stallWave w .prmt).tick))) ∧
    (w < s.waves.length → x.resident = true → x.sch.stall = some .park → x.outstanding .ld = 0 → x.outstanding .st = 0 → x.mem.storeQ = [] →
      (∀ e ∈ (s.core x.id.core).out, e.1 ≠ w) → exec (.park w) s = .next (s.modWave w fun y => { y with sch.parked := true, sch.stall := none }).tick) ∧
    (s.alive p = true → (s.part p).run = .preempting →
      exec (.preemptionTimeout p) s = .next (s.declareFatal p 2).tick ∧
      (p < s.parts.length → ((s.declareFatal p 2).part p).moved = (s.part p).moved ++ [2]) ∧
      (s.allParked p = true → s.heapBusy p = false → s.handlerBusy p = false → ∃ t, exec (.partitionSave p) s = .next t ∧ (p < s.parts.length → (t.part p).run = .saved ∧ (t.part p).image = .shadow ∧
        (t.part p).moved = (s.part p).moved ++ [0]) ∧ t.mem = s.mem ∧ t.waves = s.waves)) ∧
    (s.alive p = true → (s.part p).run = .restoring → (s.part p).image = .shadow →
      let u := (s.modPart p fun y => { y with run := .running, image := .none, moved := y.moved ++ [0] }).blurScratch p
      let u : State := { u with cores := u.cores.map fun (k : Core) => if k.part == p then { k with running := k.kept, kept := none } else k }
      let u := (List.range u.waves.length).foldl (fun (u : State) v => if (u.wave v).id.part == p && (u.wave v).sch.parked then u.unpark v else u) u
      let u : State := { u with cores := (u.cores.zipIdx).map fun (k : Core × Nat) => match (if k.1.part == p then u.restorer k.2 else none) with | some v => { k.1 with kept := k.1.running, running := some v } | none => k.1 }
      exec (.partitionRestore p []) s = .next ((List.range u.groups.length).foldl (fun (u : State) g =>
        if (u.launch (u.group g).launch).part == p && !(u.group g).ended then u.thaw g else u) u).tick)

namespace Sys2Proof.Claims

/-- The entry at the head of host queue `q`, whose turn it is: its 128 bytes, none of them lost, and the consumer index. -/
def hostEntry (s : State) (p q : Nat) (h : HostQ) (cons : Nat) (bs : List Byte) : Prop :=
  s.alive p = true ∧ s.queueTurn p = some q ∧ (s.part p).queue q = some h ∧ physLe s (h.base + 8) 8 = .ok cons ∧
  ∃ qlog, physLe s (h.base + 25) 1 = .ok qlog ∧ s.physRead (h.base + 64 + 128 * (cons % 2 ^ qlog)) 128 = some bs ∧ bs ≠ [] ∧
    s.entryLost (h.base + 64 + 128 * (cons % 2 ^ qlog)) bs = false

/-- What an engine leaves of an entry in the state `r`: the turn passes to the next queue, an entry that ends at once has its
completion record waiting, and CONS rises by one. -/
def entryTaken (r : State) (p q : Nat) (h : HostQ) (cons : Nat) (bs : List Byte) (end_ : Option Nat) : Except Fault State :=
  let s := r.modPart p fun x => { x with nextQ := (q + 1) % 8 }
  let s := match end_ with
    | none => s
    | some st => s.postRecord p q (completionRecord 0 0 st { Launch.empty with r := if fieldOf bs 0 1 = 1 then LaunchRec.ofBytes bs else default }
        (Submitter.host q (BitVec.ofNat 64 cons)).word)
  physWrite s (h.base + 8) (leBytes 8 (cons + 1))

end Sys2Proof.Claims

/-- launch, nrec, nflush, grow and shrink complete. In a plain group launch, the wave's stores performed first (log entry
12), reads its record and counts one CP as complete with the status and identifier for Sd: 8 where the record cannot be read,
else as its acceptance says; with the acquire flag behind a held ordered atomic of its wave it is sent as a command, which
does the same once that is over. nrec and nflush outside a staged group perform the wave's stores first too (log entry 12).
nrec with no lane does nothing; else each lane's record enters its bin, or the log of a staged group; nflush closes bins or
logs the closing. grow with room adds zero registers, true in Pe; where it fails, false, or 0x1A with .t. shrink in an idle
wave drops the highest registers. (R25, R374, R381, R382, R384, R387, R389, R391, R446) -/
def Obligations.LaunchesAndRecordsComplete : Prop :=
  ∀ (s u v2 : State) (w : Nat) (o : Order) (sc : Scope) (d a : BitVec 6) (g : Guards) (x1 x2 : Opnd) (pe : BitVec 3) (t all : Bool) (bs : List Byte)
    (n k : Word) (done : Nat), s.running = some w →
    let x := s.wave w
    let va := readS s w 1 a.toNat
    let said := fun (u : State) (st : Nat) (ident : BitVec 32) => u.modWave w fun y =>
      y.count .cp true [y.destS d.toNat (BitVec.ofNat 64 (st * 2 ^ 56 + ident.toNat))]
    (checkOps s w [(.s d, .onlyS), (.s a, .onlyS)] = .ok () → s.staged x.id.group = false → va.toNat % 64 = 0 → va.toNat < 2 ^ 57 → x.outstanding .cp < 62 →
      s.storesHeld w = false →
      (s.acquireWaits w x.num.key o = true → exec (.launch o sc (.s d) (.s a)) s = .next (completed s w
        (((s.performAll w).modWave w fun y => y.count .cp false []).modPart x.id.part fun p => { p with tierQ := p.tierQ ++ [ { op := .launch va d.toNat (x.tr.hm && decide (56 ≤ d.toNat)), wave := w, group := x.id.group, key := x.num.key, num := x.num.tier, o := o, sc := sc, pos := x.pos }] }))) ∧
      (s.acquireWaits w x.num.key o = false → (s.performAll w).launchRead w o sc va.toNat = .failed → exec (.launch o sc (.s d) (.s a)) s = .next (completed s w (said (s.performAll w) 8 0))) ∧
      (s.acquireWaits w x.num.key o = false → (s.performAll w).launchRead w o sc va.toNat = .got u bs →
        raceCheck u w { kind := .load, acq := Order.acquires o, rel := false, sc := sc } [(0, va.toNat, 128)] = .ok v2 →
        let r := v2.accept (v2.wave w).id.part bs (some (v2.wave w).id.ctx) .device
        exec (.launch o sc (.s d) (.s a)) s = .next (completed s w (said r.1 r.2.1 r.2.2)))) ∧
    (∀ (c : TCmd) (dn : Nat) (hb : Bool), c.op = .launch va dn hb → c.begun = none → c.twin = none → s.engineHeld c.group = false →
      s.acquireWaits c.wave c.key c.o = false →
      (s.launchRead c.wave c.o c.sc va.toNat = .failed → s.tierStep c = tierAnswered s c 0 [.s dn hb (BitVec.ofNat 64 (8 * 2 ^ 56))]) ∧
      (s.launchRead c.wave c.o c.sc va.toNat = .got u bs →
        let v := u.raceEngine c.wave { kind := .load, acq := Order.acquires c.o, rel := false, sc := c.sc } { pos := c.pos, key := some c.key } [(va.toNat, 128)]
        let r := v.accept (s.wave c.wave).id.part bs (some (s.wave c.wave).id.ctx) .device
        s.tierStep c = tierAnswered r.1 c 0 [.s dn hb (BitVec.ofNat 64 (r.2.1 * 2 ^ 56 + r.2.2.toNat))])) ∧
    (let m := activeMask s w g
     let l := x.id.launch
     let nd := (s.waveLaunch w).node n.toNat
     let os := (List.range (nd.rsz / 4)).map fun i => Opnd.v (BitVec.ofNat 6 (d.toNat + i))
     let ls := lanesOf x.id.width m
     let rs := ls.map fun e => (binOf s w x2 e, laneRecord (os.map fun r => readV s w 4 (regOf r)) e)
     let op := Instr.nrec g o sc (.v d) x1 x2
     let q : Sender := { wave := w, origin := { pos := x.pos, key := some x.num.key }, sc := sc }
     let ends := fun (u : State) => exec op s = .next (completed s w (if Order.releases o then
       let r := u.releaseInterval w
       if Scope.wide sc then (r.copyCores x.id.group).foldl State.l1Clear r else r else u))
     checkOps s w [(.v d, .onlyV), (x1, .count), (x2, .count)] = .ok () →
     (m = 0 → exec op s = .next (completed s w s)) ∧
     (m ≠ 0 → demandClean s w m [x1, x2] = .ok () → uniOf s w m 1 x1 = .ok n → n.toNat < (s.waveLaunch w).nodes.length →
      (∀ e ∈ ls, binOf s w x2 e < nd.nbin) → s.fits w (.v d) (nd.rsz / 4) = true → demandClean s w m os = .ok () → x.outstanding .cp < 62 →
      (s.staged x.id.group = true → ends ((s.modGroup x.id.group fun y => { y with nodeLog := y.nodeLog ++ rs.map fun r => .record n.toNat r.1 r.2 q }).modWave w
        fun y => y.count .cp true [])) ∧
      (s.staged x.id.group = false → s.storesHeld w = false → x.sch.nrec = none → appendAll l n.toNat q rs (s.performAll w) 0 = (u, done, true) →
        ends (u.modWave w fun y => { y.count .cp true [] with sch.nrec := none })))) ∧
    (let nd := (s.waveLaunch w).node n.toNat
     let bins := if all then List.range nd.nbin else [k.toNat]
     let fl := fun (u : State) => exec (.nflush all x1 x2) s = .next (completed s w (u.modWave w fun y => y.count .cp true []))
     (if all then checkOps s w [(x1, .count)] = .ok () ∧ uni1 s w x1 = .ok n else checkOps s w [(x1, .count), (x2, .count)] = .ok () ∧ uni2 s w x1 x2 = .ok (n, k)) →
     n.toNat < (s.waveLaunch w).nodes.length → (all = true ∨ k.toNat < nd.nbin) → x.outstanding .cp < 62 → s.storesHeld w = false →
     (s.staged x.id.group = true → fl (s.modGroup x.id.group fun y => { y with nodeLog := y.nodeLog ++ bins.map fun i => .flush n.toNat i })) ∧
     (s.staged x.id.group = false → fl (bins.foldl (fun (u : State) i => u.flushBin x.id.launch n.toNat i) (s.performAll w)))) ∧
    (checkOps s w [(x1, .count)] = .ok () → uni1 s w x1 = .ok k → k.toNat % 8 = 0 → 8 ≤ k.toNat → k.toNat ≤ 56 →
      (let add := s.modWave w fun y =>
        let z := { y with v := y.v ++ List.replicate k.toNat { lanes := List.replicate y.id.width 0, md := 0xF }, sch.growWant := none, sch.growGrant := none }
        if t then z else z.setP pe y.exec (BitVec.allOnes 1024)
       let bare := s.modWave w fun y => { y with sch.growWant := none, sch.growGrant := none }
       let op := Instr.grow t x1 pe
       x.v.length + k.toNat ≤ 64 →
        (x.sch.growGrant = some true ∨ (x.sch.growGrant = none ∧ s.growFits w k.toNat = true) → exec op s = .next (completed s w add)) ∧
        (x.sch.growGrant = some false ∨ (x.sch.growGrant = none ∧ s.growFits w k.toNat = false ∧ (s.waveLaunch w).r.det = true) →
          exec op s = .next (if t then bare.trapped w { code := 0x1A, addr := BitVec.ofNat 64 k.toNat, resume := true }
            else completed s w (bare.modWave w fun y => y.setP pe y.exec 0))) ∧
        (x.sch.growGrant = none → s.growFits w k.toNat = false → (s.waveLaunch w).r.det = false →
          exec op s = .next ((s.modWave w fun y => { y with sch.growWant := some k.toNat }).stallWave w .grow).tick)) ∧
      (16 + k.toNat ≤ x.v.length → x.idle = true →
        exec (.shrink x1) s = .next (completed s w (s.modWave w fun y => { y with v := y.v.take (y.v.length - k.toNat) }))))

/-- Host queues, activation, admission, grants of grow, bins and the drain of a launch. HOST_QUEUE_DOORBELL reads PROD. The
entry at the head of the queue whose turn it is is taken: a launch is accepted or ends with its status, ACTIVATE and
DEACTIVATE end with theirs; CONS rises. COMPLETION_RECORD_WRITE writes the oldest record where the ring has room, then CPROD,
and raises the queue's vector. GROUP_ADMISSION and PASS_OVER_LIMIT admit the first group that has a place; grow requests are
granted in order while they fit, the last one fails in a deadlock; a bin's timer closes its batch; a drained launch flushes
its bins or completes. (R368, R369, R372, R373, R377, R382, R383, R388, R390, R465) -/
def Obligations.TaskEngineSteps : Prop :=
  ∀ (s u v2 : State) (p q : Nat) (h : HostQ) (cons n : Nat) (bs : List Byte),
    (s.alive p = true → (s.part p).queue q = some h → physLe s h.base 8 = .ok n →
      exec (.hostQueueDoorbell p q) s = .next (s.modHostQ p q fun y => { y with prod := n }).tick) ∧
    (hostEntry s p q h cons bs →
      (let r := s.accept p bs none (.host q (BitVec.ofNat 64 cons))
       fieldOf bs 0 1 ≠ 2 → fieldOf bs 0 1 ≠ 3 → entryTaken r.1 p q h cons bs (if r.2.1 = 0 then none else some r.2.1) = .ok u → exec (.hostLaunch p q) s = .next u.tick) ∧
      (fieldOf bs 0 1 = 2 → entryTaken (s.activateCtx p bs).1 p q h cons bs (some (s.activateCtx p bs).2) = .ok u → exec (.activate p q) s = .next u.tick) ∧
      (fieldOf bs 0 1 = 3 → entryTaken (s.deactivateCtx p bs).1 p q h cons bs (some (s.deactivateCtx p bs).2) = .ok u → exec (.deactivate p q) s = .next u.tick)) ∧
    (∀ cbase clog cprod ccons rest, s.alive p = true → (s.part p).queue q = some h → h.waiting = bs :: rest → physLe s (h.base + 16) 8 = .ok cbase →
      physLe s (h.base + 24) 1 = .ok clog → physLe s (h.base + 32) 8 = .ok cprod → physLe s (h.base + 40) 8 = .ok ccons →
      (cprod + 2 ^ 64 - ccons) % 2 ^ 64 < 2 ^ clog → physWrite s (cbase + 64 * (cprod % 2 ^ clog)) bs = .ok u → physWrite u (h.base + 32) (leBytes 8 (cprod + 1)) = .ok v2 →
      exec (.completionRecordWrite p q) s = .next ((v2.modHostQ p q fun y => { y with waiting := rest }).raiseVector (8 + 8 * p + q)).tick) ∧
    (∀ (d l : Nat) (wt : Waiting) (t : Site × Option Site), ((s.candidates d).findSome? fun l => (s.plan d l).map fun t => (l, t)) = some (l, wt, t) →
      let r := (s.passed d l).takeIn l wt t
      exec (.groupAdmission d) s = .next r.tick ∧
      (∀ k, (s.candidates d).contains k = true → 65536 ≤ (s.launch k).passOver.getD d 0 → exec (.passOverLimit d k) s = .next r.tick)) ∧
    (∀ c, (s.growReady c = true → exec (.growGrant c) s = .next (s.grantGrows (s.growers c)).tick) ∧
      (∀ w, (s.growers c).getLast? = some w → (s.growers c).length = (s.wavesOf c).length → (∀ v ∈ s.growers c, s.growFits v ((s.wave v).sch.growWant.getD 0) = false) →
        exec (.growDeadlockFail c) s = .next ((s.modWave w fun y => { y with sch.growGrant := some false }).unstall w).tick)) ∧
    (∀ l node bin b, let x := s.launch l
      s.alive x.part = true →
      ((s.part x.part).run = .running → x.complete = false → (x.node node).tmo ≠ 0 → x.r.det = false → (((x.node node).bins.getD bin []).findIdx? fun y => y.st == .opened) = some b →
        (((x.node node).bins.getD bin []).getD b default).fill ≠ 0 → exec (.binTimeout l node bin) s = .next (s.closeBatch l node bin b).tick) ∧
      (l < s.launches.length → s.drained l = true → exec (.launchDrain l) s = .next (if x.openBins = [] then s.complete l
        else x.openBins.foldl (fun (r : State) y => r.flushBin l y.1 y.2) s).tick))

/-- Clause starts, aging, barrier phases and the livelock limit. A running wave at a header that fetches and is well formed,
with words of one class and the waits met, starts the clause with its COUNT, when no switch opportunity is due; where one is,
the sequencer first chooses a wave anew; a header that is none or a clause that is not well formed traps 0x03 with the header
word; unmet waits stall. AGING_LIMIT chooses anew where another ready wave has waited 4096 slots. A full phase settles.
LIVELOCK takes 0x14 where the branch at the wave's position would go backward for the 2^20th time. (R48, R50, R51, R54, R55,
R56, R78, R395) -/
def Obligations.SequencerSteps : Prop :=
  ∀ (s u v t : State) (w : Nat) (hw : Word) (h : Header) (ws : List Word),
    let x := s.wave w
    (w < s.waves.length → x.resident = true → x.sch.stall = none → x.sch.started = false → (s.core x.id.core).running = some w →
      fetchWord s w x.hdr = .ok (u, hw) →
      (Header.ofWord hw = none → exec (.clauseStart w) s = .next (u.trapped w { code := 0x03, hdr := some hw })) ∧
      (Header.ofWord hw = some h → fetchWords u w h.count (x.hdr + 8) = .ok (v, ws) →
        let fine := clauseOk h ws (v.waveLaunch w).r.chk = true ∧ x.pos.idx < h.count
        let waits := x.sch.resume = true ∨ x.waitsMet h.wld h.wst h.wcp h.wtl = true
        (¬ fine → exec (.clauseStart w) s = .next (v.trapped w { code := 0x03, hdr := some hw })) ∧
        (fine → ¬ waits → exec (.clauseStart w) s = .next (v.stallWave w .clause).tick) ∧
        let start := fun (u : State) => u.modWave w fun y => { y with sch.started := true, sch.count := h.count, sch.y := false }
        let slots := (v.core x.id.core).slots
        let anew := (v.modWave w fun y => { y with sch.y := true, sch.readyAt := slots }).switch x.id.core
        let goes := (v.waveLaunch w).r.det = true ∨ x.sch.y = true ∨ x.sch.resume = true ∨ (h.y = false ∧ v.agedRival w = false)
        (fine → waits → goes → exec (.clauseStart w) s = .next (start v).tick) ∧
        (fine → waits → ¬ goes → exec (.clauseStart w) s = .next (if (anew.core x.id.core).running = some w then start anew else anew).tick))) ∧
    (w < s.waves.length → x.resident = true → x.sch.stall = none → x.sch.started = false → (s.core x.id.core).running = some w →
      (s.waveLaunch w).r.det = false → x.sch.y = false → s.agedRival w = true →
      let slots := (s.core x.id.core).slots
      exec (.agingLimit w) s = .next ((s.modWave w fun y => { y with sch.y := true, sch.readyAt := slots }).switch x.id.core).tick) ∧
    (∀ (sc : Scope) (owner unit : Nat) (id : BitVec 4), s.phaseFull owner (s.barrier sc owner unit id) = true →
      exec (.barrierPhaseCompletion sc owner unit id) s = .next (s.settle sc owner unit id).tick) ∧
    (∀ i act, w < s.waves.length → x.resident = true → x.sch.started = true → x.sch.stall = none → (s.waveLaunch w).r.det = true → 2 ^ 20 ≤ x.sch.backward + 1 →
      fetchWord s w x.wordAddr = .ok (u, hw) → decodeWord hw = .ok i → branchAct i = some act →
      let calm := u.modWave w fun y => { y with sch.backward := 0, word := hw }
      act calm w = .ok t → (t.wave w).sch.backward = 1 → exec (.livelock w) s = .next (calm.trapped w { code := 0x14 }).tick)

namespace Sys2Proof.Claims

/-- A submitted mailbox command whose unused bytes are zero ends with a status and results in the state `r`. -/
def ends (i : Instr) (s r : State) (status : Nat) (result : List (Nat × List Byte)) : Prop := exec i s = .next (r.answer status result).tick

/-- A mailbox command stands submitted, every byte that it does not use is zero, and the package works, but for the loading of an
image, which needs it not. -/
abbrev asked (s : State) (code : Nat) (used : List (Nat × Nat)) : Prop :=
  s.submitted code = true ∧ s.ctl.unusedZero used = true ∧ (code = 16 ∨ s.ctl.ready = true)

end Sys2Proof.Claims

/-- cmmt, COMMIT and uncorrectable errors. cmmt in a plain group does nothing else; in a staged one a drained wave arrives
and waits. COMMIT of a group whose waves have all arrived, with no copies or equal ones, publishes the staged bytes, performs
the forcing instructions in order and ends with the snapshot, or the end of the group; unequal copies are a mismatch. An
uncorrectable error of a package that is powered and not halted records an error of kind 3, with the code of the trap, event
or fatal cause that it brings or 0, and the lane or address as TADDR (log entry 33), and acts where it is read: a lane dies,
a sector is lost, a wave ends, a core gives up a line of its L1; a corrected one is counted. (R446, R447, R448, R449, R450,
R452, R456, R457) -/
def Obligations.CommitsComplete : Prop :=
  ∀ (s u : State) (w g pa l c : Nat), 
    (s.running = some w →
      (s.staged (s.wave w).id.group = false → exec .cmmt s = .next (completed s w s)) ∧
      (s.staged (s.wave w).id.group = true → s.drainedWave w = true →
        exec .cmmt s = .next ((s.modWave w fun y => { y with sch.arrived := some Arrive.cmmt }).stallWave w .commit).tick)) ∧
    (s.commitReady g = true →
      let x := s.group g
      let copies := g :: x.sibling.toList
      let s1 := copies.foldl (fun s h => s.signForcing (s.group h).waves) s
      (∀ i place t, x.sibling = some t → s1.difference x.waves (s1.group t).waves = some (i, place) →
        exec (.commit g) s = .next ((s1.mismatch g i place).moveTwin g).tick) ∧
      ((∀ t, x.sibling = some t → s1.difference x.waves (s1.group t).waves = none) →
        (State.performAllForcing x.waves (s1.publish g) = .ok u → exec (.commit g) s = .next (u.endCommit g copies).tick) ∧
        ((∀ v ∈ x.waves, (s.wave v).arrival ≠ some .forcing) → exec (.commit g) s = .next ((s1.publish g).endCommit g copies).tick))) ∧
    (s.ctl.powered = true → s.ctl.halted = false →
      let bad := fun (p : ErrPlace) (r : State) => exec (.uncorrectableError p) s = .next r.tick
      let gid := s.globalId w
      (w < s.waves.length → (s.wave w).resident = true →
        ((s.wave w).live.getLsbD l = true → bad (.vreg w l) ((s.addError (s.wave w).id.part 3 0x21 gid 0 0 0 (BitVec.ofNat 64 l)).laneDies w l)) ∧
        bad (.waveState w) ((s.addError (s.wave w).id.part 3 0x07 gid 0 0 0 0).secondError w 0x07) ∧
        ((s.wave w).sch.started = true → bad (.code w) ((s.addError (s.wave w).id.part 3 0x10 gid 0 0 0 (s.wave w).wordAddr).take w
          { code := 0x10, addr := (s.wave w).wordAddr }))) ∧
      (c < s.cores.length → ∃ k, bad (.l1 c) ((s.addError (s.core c).part 3 0 0 0 0 0 0).modCore c fun y => { y with l1 := y.l1.eraseIdx k })) ∧
      (∀ d, d < s.dies.length → bad (.corrected d) (s.modDie d fun y => { y with corrected := y.corrected + 1 })) ∧
      (s.mapped pa = true → s.isHost pa = false →
        let p := (s.parts.findIdx? fun x => x.dies.contains (pa % windowBytes / hbmPerDie)).getD 0
        bad (.memory pa) ((s.addError p 3 0 0 0 0 0 (BitVec.ofNat 64 pa)).loseSector pa)) ∧
      (g < s.groups.length → (s.group g).ended = false → s.staged g = true → (s.group g).copy ≠ .twin →
        bad (.staging g) ((s.addError (s.launch (s.group g).launch).part 3 0 0 0 0 0 0).abortGroup g)) ∧
      (∀ p, s.alive p = true → bad (.shared p) ((s.addError p 3 1 0 0 0 0 0).declareFatal p 1)))

/-- Power, temperatures, the bellows, ports and the windows of the host link. POWER_ON brings the package up when its
firmware verifies; LOSS_OF_PACKAGE_POWER leaves the reset state with flash and foreign memory; a temperature read is the
die's, throttles above 100 °C (1600 in the register) and halts at 115 °C (1840, log entry 50); BELLOWS_UPDATE adds a µs of
the oscillator (log entry 49); memory after a loss of power is log entry 44, flit numbering log entry 54. A flit of one
missing quarter is rebuilt, one of more asked for again and a failed replay counted; flits are sent, acknowledged and sent
again, and a paused channel sends at most 64 more; ports degrade, recover, train, pause and resume; holds expire; a bridge
error and causes 3 and 4 are fatal. BAR0 and BAR2 reads and writes and a logical-core change have the effect of their rule.
(R32, R364, R423, R425, R426, R427, R432, R458, R461, R463, R467, R471) -/
def Obligations.PowerLinkAndHostEvents : Prop :=
  ∀ (s u : State) (d p rail rank a b c n : Nat) (t v : BitVec 64) (vc : BitVec 2) (lost : BitVec 5) (peer : BitVec 8) (off : BitVec 24) (o2 : BitVec 36)
    (qs : List (Option (BitVec 512))) (flit : BitVec 2048) (bytes : List Byte),
    let x := s.linkPort d p
    let told1 := fun (r : State) => { r with ctl.raised := r.ctl.raised ++ [1], ctl.cause := r.ctl.cause ||| 2 }
    let goes := fun (i : Instr) (r : State) => exec i s = .next r.tick
    let bit := BitVec.ofNat 4 (2 ^ vc.toNat)
    let gets := fun (y : Port) (n : Nat) =>
      let l := arrived y.rails qs
      let again := y.asked.contains (vc, n)
      if 2 ≤ l.countP Option.isNone then
        if again then { y with replays := y.replays + 1 } else { y with asked := y.asked ++ [(vc, n)] }
      else ({ y with replays := if again then 0 else y.replays, asked := y.asked.filter (· != (vc, n)),
                     rebuilt := if (l.take 4).any Option.isNone then y.rebuilt + 1 else y.rebuilt } : Port).take vc n (flitOf l)
    (s.ctl.powered = false → goes .powerOn { s with ctl := { s.ctl with powered := true, ready := Config.firmwareVerifies s.ctl.flash, fwFailed := !Config.firmwareVerifies s.ctl.flash, osc := 0 } }) ∧
    (s.ctl.powered = true → goes .lossOfPackagePower { State.resetOf s.ctl.form with mem := Memory.rerank (s.mem.filter s.outside) s.ctl.podRank.toNat 0, ctl := { Ctl.reset with form := s.ctl.form, flash := s.ctl.flash }, fresh := s.fresh }) ∧
    (s.senses d = true →
      (1600 < t.toNat → t.toNat < 1840 → goes (.throttle d t) (s.readTemp d t)) ∧
      (t.toNat ≤ 1600 → goes (.temperatureFalls d t) (s.readTemp d t)) ∧
      (d < s.dies.length → ((s.readTemp d t).die d).temp = t ∧ ((s.readTemp d t).die d).throttled = decide (1600 < t.toNat)) ∧
      (1840 ≤ t.toNat → goes (.thermalHalt d t) (let r := s.readTemp d t
        { r with waves := r.waves.map fun y => { y with sch.halted := true }, ctl.halted := true }))) ∧
    (s.ctl.ready = true → s.ctl.halted = false → goes .bellowsUpdate (State.meterGroups { s with ctl.osc := s.ctl.osc + 1, parts := (s.parts.zipIdx).map fun (q : Partition × Nat) => q.1.refill (Config.metered s.fresh q.2) (s.ctl.osc + 1) })) ∧
    (s.channelThere d p = true →
      (p < 3 ∨ (∀ k, k < 5 → (qs.getD k none).isSome = true) →
        goes (.flitArrive d p vc n qs) (s.modPort d p fun y => gets y n) ∧
        goes (.flitReceive d p vc qs) (s.modPort d p fun y => gets y (y.nextIn vc))) ∧
      (x.rx.any (fun e => e.1 == vc) = true → goes (.flitTake d p vc) (s.modPort d p fun y =>
        ({ y with rx := y.rx.eraseIdx ((y.rx.findIdx? fun e => e.1 == vc).getD 0) } : Port).govern vc)) ∧
      (x.paused &&& bit = 0 ∨ x.past.getD vc.toNat 0 < 64 → goes (.flitSend d p vc flit) (s.modPort d p fun y => { y with txNext := y.txNext.set vc.toNat (x.nextOut vc + 1), unacked := y.unacked ++ [(vc, x.nextOut vc, flit)], tx := y.tx ++ [(vc, x.nextOut vc, flit)], past := y.past.set vc.toNat (y.past.getD vc.toNat 0 + 1) })) ∧
      goes (.flitAck d p vc n) (s.modPort d p fun y => { y with unacked := y.unacked.filter fun e => !(e.1 == vc && decide (e.2.1 ≤ n)) }) ∧
      goes (.flitAsk d p vc n) (s.modPort d p fun y => { y with tx := y.tx ++ y.unacked.filter fun e => e.1 == vc && e.2.1 == n }) ∧
      goes (.pause d p vc) (s.modPort d p fun y => { y with paused := y.paused ||| bit, past := if y.paused &&& bit = 0 then y.past.set vc.toNat 0 else y.past }) ∧
      goes (.resume d p vc) (s.modPort d p fun y => { y with paused := y.paused &&& ~~~ bit })) ∧
    (s.portThere d p = true →
      (x.carries = true →
        (16 ≤ x.replays → goes (.replayLimit d p) (s.recover d p x.rails)) ∧
        (rail < 5 → x.rails.getLsbD rail = false →
          let rails := x.rails ||| BitVec.ofNat 5 (2 ^ rail)
          goes (.railLoss d p rail) (if x.st = .up then told1 (s.modPort d p fun y => { y with st := .degraded, rails := rails }) else s.recover d p rails))) ∧
      (s.ctl.ready = true → x.st = .down → goes (.bringPortUp d p) (told1 (s.modPort d p fun y => { y with st := .training, rails := 0 }))) ∧
      (x.st = .training ∨ x.st = .recovery →
        let k := popCount 5 lost.toNat
        goes (.trainingEnd d p lost peer) (told1 ((s.liftHolds d p (decide (k ≤ 1))).modPort d p fun y =>
          if k = 0 then { y.restart with st := .up, rails := lost, peer := peer, replays := 0 }
          else if k = 1 then { y.restart with st := .degraded, rails := lost, peer := peer, replays := 0 }
          else { y with st := .down, rails := lost, peer := 0xFF, replays := 0 })))) ∧
    ((s.die d).holds.contains rank = true → goes (.recoveryHoldExpiry d rank) (s.modDie d fun y => { y with holds := y.holds.filter (· != rank), expired := (rank :: y.expired).eraseDups })) ∧
    (s.ctl.powered = true → s.ctl.halted = false → a < s.dies.length → b < s.dies.length → a ≠ b → goes (.bridgeError a b) ((List.range s.parts.length).foldl (fun (r : State) q =>
      if (r.part q).dies.contains a && (r.part q).dies.contains b then (r.addError q 3 1 0 0 0 0 0).declareFatal q 1 else r) s)) ∧
    (s.alive n = true → goes (.fatalHostRequest n) (s.declareFatal n 3) ∧ goes (.controllerInternalError n) (s.declareFatal n 4)) ∧
    (s.ctl.linked = true → off.toNat % 8 = 0 →
      (off.toNat = 0x800 → goes (.registerWrite off v) s.submit) ∧
      (0x1000 ≤ off.toNat → off.toNat < 0x1200 → goes (.registerWrite off v) (s.hostMail (off.toNat - 0x1000) v)) ∧
      (off.toNat = 0x2308 → goes (.registerWrite off v) { s with ctl.cause := s.ctl.cause &&& ~~~ (v.extractLsb' 0 8) }) ∧
      goes (.registerRead off) { s with ctl.hostRead := leBytes 8 (s.register off.toNat).toNat } ∧
      (off.toNat < 0x1000 → s.register off.toNat = 0) ∧ (off.toNat = 0x2308 → s.register off.toNat = s.ctl.cause.zeroExtend 64) ∧
      (s.ctl.ready = true → bytes ≠ [] → o2.toNat + bytes.length ≤ 2 ^ 36 →
        (physWrite s (s.ownWindow + s.ctl.aperture + o2.toNat) bytes = .ok u → goes (.apertureAccess true o2 bytes) u) ∧
        (let pa := s.ownWindow + s.ctl.aperture + o2.toNat
         s.mapped pa = true → s.mapped (pa + bytes.length - 1) = true →
           goes (.apertureAccess false o2 bytes) { s with ctl.hostRead := s.apertureBytes pa bytes.length }))) ∧
    (s.acting = c →
      let others := (List.range s.cores.length).filter fun i => i != c && (s.core i).part == (s.core c).part && (s.core i).phys == (s.core c).phys
      let next := sortBy (fun (a b : Nat) => decide ((s.core a).logical ≤ (s.core b).logical)) others
      (next.find? fun i => decide ((s.core c).logical < (s.core i).logical)).or next.head? = some n → goes (.logicalCoreChange c) { s with acting := n })

/-- The mailbox commands of the Stoelion controller end with their status and effect. A submitted command whose unused OPER
bytes are zero ends: FORM_PARTITIONS with 1, 2 or 4 partitions, no more than the dies (log entry 56), queues registered and
unregistered, bellows, package limit, frame pools, routes and pod rank set, PRE_EMPT and RESTORE requested or answered,
images moved, a fatal partition reset, translations dropped, reports and error records read, firmware loaded and the aperture
positioned, each under the conditions that are stated, and some with a refusal: 3 for partitions in use, a limit that stands,
routes in use, a pod rank while partitions work, a reset of a partition that is not fatal and, for the commands named, failed
firmware. Statuses of queues and pools are log entry 42, what reset, rank and image moves leave log entry 44. Every end
raises vector 0. (R362, R364, R367, R406, R411, R429, R459, R464, R468, R472) -/
def Obligations.MailboxCommandsComplete : Prop :=
  ∀ (s : State), let m := fun (o n : Nat) => s.ctl.mail o n
    let p := s.ctl.mail 8 1
    let here := p < s.parts.length
    let onP := fun (f : Partition → Partition) => s.modPart p f
    (∀ n, n = s.ctl.mail 8 1 → asked s 1 [(8, 1), (9, if n ≤ 4 then n else 0)] → (n = 1 ∨ n = 2 ∨ n = 4) → n ≤ s.ctl.form.dies → (∀ q, q < n → m (9 + q) 1 ≤ 4) →
      (s.anyActive = false → (∀ y ∈ s.parts, y.image ≠ .shadow) →
        let ps := (List.range n).map fun q => Partition.formed s.ctl n q (m (9 + q) 1)
        ends .formPartitions s { s with parts := ps, ctl.formed := n, quads := [] } 0 ((ps.zipIdx).flatMap fun q =>
          [(256 + 16 * q.2, leBytes 8 (s.ownWindow + q.1.dump)), (264 + 16 * q.2, leBytes 8 (s.ownWindow + q.1.imageBase))])) ∧
      (s.anyActive = true → ends .formPartitions s s 3 [])) ∧
    (∀ bs, asked s 2 [(8, 2), (16, 8)] → here → m 9 1 < 8 → m 16 8 % 4096 = 0 → (s.part p).queue (m 9 1) = none → s.physRead (m 16 8) 64 = some bs →
      queueHeaderOk bs = true → ends .registerHostQueue s (onP fun y => { y with queues := y.queues.set (m 9 1) (some {
        base := m 16 8, prod := leValue (takeBytes bs 8 8), waiting := [] }) }) 0 []) ∧
    (∀ h, asked s 3 [(8, 2)] → here → m 9 1 < 8 → (s.part p).queue (m 9 1) = some h → s.mem.readLe h.base 8 = s.mem.readLe (h.base + 8) 8 → h.waiting = [] →
      ends .unregisterHostQueue s (onP fun y => { y with queues := y.queues.set (m 9 1) none }) 0 []) ∧
    (asked s 4 [(8, 1), (16, 16)] → here → (((s.parts.zipIdx).filter fun q => q.2 != p).map fun q => q.1.rate).sum + m 24 8 ≤ s.ctl.limitNow →
      m 16 8 ≤ 2 ^ 40 → ends .setBellows s (onP fun y => { y with cap := m 16 8, rate := m 24 8 }) 0 []) ∧
    (asked s 5 [(16, 8)] → s.ctl.form ≠ .m860 →
      (s.ctl.limitWritten = true → ends .setPackageLimit s s 3 []) ∧
      (s.ctl.limitWritten = false → m 16 8 ≤ (if s.ctl.form = .p860 then 2800 else 640) →
        ends .setPackageLimit s { s with ctl := { s.ctl with limit := m 16 8, limitWritten := true } } 0 [])) ∧
    (asked s 6 [(8, 2), (16, 24)] → here → (s.part p).dies.contains (m 9 1) = true → m 16 8 % 0x2000000 = 0 → m 24 8 % 0x2000000 = 0 →
      s.ownWindow + hbmPerDie * m 9 1 ≤ m 16 8 → m 16 8 + m 24 8 ≤ s.ownWindow + hbmPerDie * m 9 1 + hbmPerDie → m 32 8 % 8 = 0 → s.mapped (m 32 8) = true →
      (m 16 8 + m 24 8 ≤ m 32 8 ∨ m 32 8 + m 24 8 / 8192 ≤ m 16 8) → (s.part p).pool (m 9 1) = none →
      ends .setFramePool s (onP fun y => { y with pools := (y.pools.filter fun (q : Pool) => q.die != m 9 1) ++ [({
        die := m 9 1, base := m 16 8, size := m 24 8, recs := m 32 8,
        free := (List.range (m 24 8 / 0x2000000)).map fun i => (9, m 16 8 + 0x2000000 * i) } : Pool)] }) 0 []) ∧
    (let es := (List.range 64).map fun n => s.ctl.mailbox.read (16 + n)
     asked s 7 [(8, 1), (16, 64)] → p < s.dies.length → (∀ e ∈ es, e.extractLsb' 4 3 = 0#3 ∧ e.extractLsb' 2 2 ≠ 3#2 ∧ (e.extractLsb' 0 2).toNat < s.dies.length) →
     (s.routesFree p = true → ends .writeRouteTable s (s.reroute p es) 0 [] ∧ ((s.reroute p es).die p).routes = es) ∧ (s.routesFree p = false → ends .writeRouteTable s s 3 [])) ∧
    (asked s 8 [(8, 1)] → p < 64 → (s.anyActive = true → ends .setPodRank s s 3 []) ∧ (s.anyActive = false → ∃ r, ends .setPodRank s r 0 [] ∧ r.ctl.podRank.toNat = p)) ∧
    (let run := fun (i : Instr) (save : Bool) =>
      (∀ q v, s.ctl.await = some q → (s.part q.1).moved[q.2]? = some v → ends i s { s with ctl.await := none } 0 [(256, leBytes 8 v.toNat)]) ∧
      (s.ctl.await = none → here → (if save then s.canSave p else s.canRestore p) = false → ends i s { s with ctl.await := none } 0 [(256, leBytes 8 2)]) ∧
      (s.ctl.await = none → here → (if save then s.canSave p else s.canRestore p) = true →
        exec i s = .next ({ (if save then s.requestSave p else s.requestRestore p) with ctl.await := some (p, (s.part p).moved.length) } : State).tick)
     (asked s 9 [(8, 1)] → run .preEmpt true) ∧ (asked s 10 [(8, 1)] → run .restore false)) ∧
    (asked s 11 [(8, 2)] → here → m 9 1 < 2 → (s.part p).run = .saved → (s.part p).image = (if m 9 1 = 0 then ImageAt.shadow else .region) →
      ends .moveImage s (onP fun y =>
      if m 9 1 = 0 then { y with image := .region, imaged := some s.fresh } else { y with image := .shadow }) 0 []) ∧
    (asked s 12 [(8, 1)] → here → ((s.part p).fatal ≠ none → ends .resetPartition s (s.clearPartition p) 0 []) ∧
      ((s.part p).fatal = none → ends .resetPartition s s 3 [])) ∧
    (asked s 13 [(8, 2)] → here → m 9 1 = 2 → m 10 1 < 64 → m 16 8 < 2 ^ 57 → s.ctl.shoot = none → quietAfter s p .all none →
      ends .invalidateTranslations s ((dropping s p .all none).modPart p fun y => { y with shoots := [] }) 0 []) ∧
    (asked s 14 [(16, 32)] → ends .attestationReport s s 0 [(256, s.report (s.ctl.mailbox.readN 16 32))]) ∧
    (asked s 15 [(8, 1), (16, 4)] → here → ends .readErrorRecords s s 0 ((List.range 4).map fun k =>
      (256 + 64 * k, (s.part p).errs.getD (m 16 4 + k) (List.replicate 64 0#8)))) ∧
    (asked s 16 [(16, 16)] → s.isHost (m 16 8) = true → s.isHost (m 16 8 + m 24 8 - 1) = true →
      ends .loadFirmwareImage s { s with ctl.flash := s.mem.readN (m 16 8) (m 24 8) } 0 []) ∧
    (∀ code i, (code, i) ∈ [(1, Instr.formPartitions), (9, .preEmpt), (12, .resetPartition), (14, .attestationReport)] → s.submitted code = true →
      s.ctl.unusedZero (if code = 14 then [(16, 32)] else [(8, 1)]) = true → s.ctl.ready = false → (code = 1 → m 8 1 = 0) → ends i s s 3 []) ∧
    (asked s 17 [(16, 8)] → m 16 8 % 2 ^ 36 = 0 → m 16 8 < windowBytes → ends .positionAperture s { s with ctl.aperture := m 16 8 } 0 [])

/-- Decoding the word of a well-formed instruction gives the instruction back. For every well-formed instruction that has an
encoding and every value of the scheduling bits, the decoder reads from the encoder's word exactly that instruction, with
every operand, modifier and immediate; and the word holds the scheduling bits it was given. So no two well-formed
instructions share a word, and no bit of an operand is dropped. (R37, R38, R39, R40, R41, R43, R44, R45) -/
def Obligations.DecodeReadsWhatEncodeWrites : Prop :=
  ∀ (i : Instr) (sc : BitVec 2) (word : Word), i.wellFormed = true → encode i sc = some word →
    decodeWord word = .ok i ∧ schedBits word = sc

/-- Every step keeps the canonical form of memory. From any state whose memory lists strictly rising addresses and no byte
equal to what an unlisted address reads as, a step that answers a next state answers one whose memory has that form too,
whatever the step does: an instruction, an engine, the task engine, a mailbox command or a loss of power. So equal contents
are equal data. The form is the model's own (log entry 1). (01_machine.md, 04_memory_pipe.md) -/
def Obligations.EveryStepKeepsMemoryCanonical : Prop :=
  ∀ (s t : State), s.memOk → step s = .next t → t.memOk

/-- What reset leaves, and what a wave holds when it is admitted. At reset no partition is formed, no wave is resident, the
package has no power, every port is down and the memory, which lists nothing, is canonical. An admitted wave is outside
handler mode with every special of its trap state zero, FFLAGS zero, one running path with all lanes at the entry, no dead or
exited lane, no open region, every V register zero with TAG 0xF and every other field of its metadata word 0 (R92), lane l's
physical lane l, no port bound and no operation outstanding. That memory and mailbox list nothing is the model's choice (log
entry 1), and the four dies are the 860P form's (log entry 6). (01_machine.md, 02_clause_sequencer.md, 03_vector_datapath.md,
05_lane_control.md, 11_context_unit.md, 12_task_engine.md, 16_stoelion_controller.md) -/
def Obligations.ResetAndAdmissionLeave : Prop :=
  State.reset.memOk ∧ State.reset.mem = [] ∧ State.reset.parts = [] ∧ State.reset.waves = [] ∧ State.reset.ctl.powered = false ∧ State.reset.ctl.ready = false ∧
    State.reset.ctl.mailbox = [] ∧ (∀ d ∈ State.reset.dies, ∀ p ∈ d.ports, p.st = .down) ∧ State.reset.dies.length = 4 ∧
    (∀ (id : WaveId) (n : Nat) (entry amr : Word), let x := Wave.start id n entry amr
      x.tr.hm = false ∧ x.tr.cause = 0 ∧ x.tr.tcla = 0 ∧ x.tr.tinf = 0 ∧ x.tr.tword = 0 ∧ x.tr.taddr = 0 ∧ x.tr.tlanes = 0 ∧ x.tr.txprog = 0 ∧
      x.fflags = 0 ∧ x.amr = amr ∧ x.hb = List.replicate 8 0 ∧ x.exec = allLanes id.width ∧ x.hdr = entry ∧ x.cur = 0 ∧ x.lc.dead = 0 ∧ x.lc.exited = 0 ∧
      x.lc.xprog = 0 ∧ (∀ r ∈ x.lc.regions, r.valid = false) ∧ x.v.length = n ∧ (∀ r ∈ x.v, r.lanes = List.replicate id.width 0 ∧ r.md = 0xF#32) ∧
      x.lc.gmap = List.range id.width ∧ (∀ p ∈ x.ports, p = none) ∧ x.mem.outst = [] ∧ x.mem.storeQ = [] ∧ x.mem.interval = 0)

/-- A step runs the instruction decoded from the word at the wave's position. With the agenda empty, the stalls of the acting
core that are over ended and the watchdogs of its stalled waves counted, no turn of another agent due, and the acting core's
running wave within a clause, not stalled, with no event to deliver and no single step due, a step fetches the word at its
position, records it, and is exec of the decoded instruction; in deterministic mode the wave's stores have been performed
first. A word that is no instruction traps 0x01, a header 0x03. A step with an event on the agenda is exec of that event. The
schedule is the model's choice (log entry 2). (02_clause_sequencer.md) -/
def Obligations.StepRunsTheDecodedInstruction : Prop :=
  ∀ (s u : State) (w : Nat) (word : Word) (i : Instr) (r : Reject) (rest : List Choice),
    let z := (s.wake s.acting).watch s.acting
    let x := z.wave w
    let ready := z.issueReady w
    (s.agenda = [] → z.running = some w → z.fresh % 64 ≠ 63 → x.sch.stall = none → x.sch.started = true → x.deliverable = false → x.tr.stepDue = none →
      fetchWord ready w (ready.wave w).wordAddr = .ok (u, word) →
      (decodeWord word = .ok i → step s = exec i (u.modWave w fun y => { y with word := word })) ∧
      (decodeWord word = .error r → step s = .next ((u.modWave w fun y => { y with word := word }).trapped w
        { code := if r = .headerWord then 0x03 else 0x01 }))) ∧
    (z.coreDet x.id.core = false → ready = z) ∧ ((∀ v, (s.wave v).sch.stall = none) → z = s) ∧
    (s.agenda = .event i :: rest → step s = exec i { s with agenda := rest }) ∧
    (∀ c, s.agenda = .core c :: rest → step s = .next { s with agenda := rest, acting := c })

/-- Words that the spec writes out decode to the instructions they stand for. Eighteen example words of the spec, one or more
of each of the classes 0 to 11, decode to the instruction that the spec gives beside them; that of mark is in R417.
(02_clause_sequencer.md, 03_vector_datapath.md, 04_memory_pipe.md, 05_lane_control.md, 06_stream_engines.md, 07_limb_unit.md,
08_heap_engine.md, 09_matrix_engine.md, 10_ntt_and_ciphertexts.md, 11_context_unit.md, 15_check_engine.md,
16_stoelion_controller.md) -/
def Obligations.ExampleWordsDecode : Prop :=
  decodeWord 0x101DD11130400000 = .ok (.sadd false (.s 4) (.s 4) (.imm 1)) ∧
    decodeWord 0x009DD14000000004 = .ok (.brs .ne0 (.s 5) 0) ∧
    decodeWord 0x201DC0C040800000 = .ok (.add { ga := { p := 7, neg := false }, gb := { p := 7, neg := false } } false (.v 3) (.v 1) (.v 2) 0) ∧
    decodeWord 0x401DC000C0024400 = .ok (.dbr 3 9 { neg := false, p := 1 }) ∧ decodeWord 0x425DC00000000000 = .ok .regrp ∧
    decodeWord 0xB01DC03140000028 = .ok (.trap 0x0A (.imm 5)) ∧ decodeWord 0xB09DC00000000C00 = .ok (.bkpt 3) ∧ decodeWord 0xB05DC00000000000 = .ok .rte ∧
    decodeWord 0xB19DC00000000000 = .ok .cmmt ∧ decodeWord 0xA0DDC000000000C0 = .ok (.mark 3) ∧ decodeWord 0xA2DDD13000000000 = .ok (.enrd (.s 4) (.imm 0)) ∧
    decodeWord 0xA01DD11040000400 = .ok (.halloc false false (.s 4) (.s 1) 1) ∧
    (let all : Guards := { ga := { p := 7, neg := false }, gb := { p := 7, neg := false } }
     decodeWord 0x339DC1410000004C = .ok (.cvt all .bf16x2 true (.v 5) (.v 4) 0) ∧ decodeWord 0x509DC14134400000 = .ok (.bshl all (.v 5) (.v 4) (.imm 17)) ∧
     decodeWord 0x601DC09234001168 = .ok (.ld all .acq .die 2 (.v 2) (.s 8) (.imm 16) .w) ∧
     decodeWord 0x71DDC03030117000 = .ok (.scmdRfill .rlx .wave false (.imm 0) (.imm 0) (.s 5) true) ∧
     decodeWord 0x801DC01410400808 = .ok (.mloop .rlx .wave 1 (.s 16) (.s 1) 2) ∧ decodeWord 0x91DDC01580000344 = .ok (.ctresc .ar .quad true (.s 22)))

/-- nop, wait and yield, and the reads of counters, complete. nop takes n further issue slots of the core and changes nothing
else; wait completes with no effect when each counter is at most its field, 0x3F not waiting, and otherwise stalls the wave;
yield completes, moves the path on, makes the wave ready anew and lets the core choose, except in a handler whose stalls are
no switch points in deterministic mode. In deterministic mode clkrd writes the retired count of the logical core. Otherwise,
in a group without copies and in the primary copy, it writes the clock of the core, advanced by a free amount (log entry 4),
and the primary tells its twin; the twin writes the value that it was told. enrd with A = 0 to 3 writes the balance, the cap,
the refill rate or the commitment of the partition likewise; another A raises 0x02. (R75, R76, R83, R82, R451, R469) -/
def Obligations.UniformWaitsAndReadsComplete : Prop :=
  (∀ (s : State) (w : Nat) (n : BitVec 4) (l t c k : BitVec 6), s.running = some w →
    let x := s.wave w
    let met := fun (f : BitVec 6) (cls : Cls) => f = 0x3F#6 ∨ x.outstanding cls ≤ f.toNat
    exec (.nop n) s = .next (completed s w (s.modCore x.id.core fun q => { q with slots := q.slots + n.toNat })) ∧
    onlyWave s (completed s w (s.modCore x.id.core fun q => { q with slots := q.slots + n.toNat })) w ∧
    (met l .ld ∧ met t .st ∧ met c .cp ∧ met k .tl → exec (.wait l t c k) s = .next (completed s w s)) ∧
    (¬ (met l .ld ∧ met t .st ∧ met c .cp ∧ met k .tl) → exec (.wait l t c k) s = .next (s.stallWave w .waitOp).tick) ∧
    (let r := completed s w s
     exec .yield s = .next (if (s.waveLaunch w).r.det && x.quietHandler then r
       else (r.modWave w fun y => { y with sch.readyAt := (r.core x.id.core).slots, sch.backward := 0 }).switch x.id.core))) ∧
  (∀ (s : State) (w : Nat) (n : BitVec 6) (a : Opnd) (v : Word), s.running = some w →
    let c := (s.wave w).id.core
    ((s.waveLaunch w).r.det = true → exec (.clkrd (.s n)) s = .next (completed s w
      (s.modWave w fun x => x.setS n.toNat (BitVec.ofNat 64 (s.core c).retired)))) ∧
    ((s.waveLaunch w).r.det = false → (s.waveGroup w).copy ≠ .twin →
      let now := (s.core c).clk + Config.clkAdvance s.fresh
      let r := told (s.wave w) (s.modCore c fun k => { k with clk := now }) w { val := BitVec.ofNat 64 now, pred := false, trap := none }
      exec (.clkrd (.s n)) s = .next (completed s w (r.modWave w fun x => x.setS n.toNat (BitVec.ofNat 64 now)))) ∧
    (∀ f rest, (s.waveLaunch w).r.det = false → (s.waveGroup w).copy = .twin → nextTold (s.wave w) false f rest → f.trap = none →
      exec (.clkrd (.s n)) s = .next (completed s w ((took s w rest).modWave w fun x => x.setS n.toNat f.val))) ∧
    (checkOps s w [(.s n, .onlyS), (a, .count)] = .ok () → uni1 s w a = .ok v →
      (v.toNat < 4 → (s.waveGroup w).copy ≠ .twin →
        let p := s.part (s.wave w).id.part
        let out : Word := if v = 0 then BitVec.ofInt 64 p.bellowsB else if v = 1 then BitVec.ofNat 64 p.cap else
          if v = 2 then BitVec.ofNat 64 p.rate else BitVec.ofNat 64 (s.commitment (s.wave w).id.part)
        exec (.enrd (.s n) a) s = .next (completed s w ((told (s.wave w) s w { val := out, pred := false, trap := none }).modWave w
          fun x => x.setS n.toNat out))) ∧
      (4 ≤ v.toNat → exec (.enrd (.s n) a) s = .next (s.trapped w { code := 0x02, addr := opndAddr a }))))

/-- Branches, calls and returns go to their target; exitw ends the wave. A running wave whose branch may be taken stands
afterwards at the target: H + 8 × imm32 for the I-form rows, the value of A for the others; brs branches only when its
condition holds on Sn and else falls through; call and calls write the address after the clause to Sd before they branch. A
branch that is not forward counts toward the limit of R395 and is followed by the rotation of R195, which takes one issue
slot where another path becomes current (R186). A target that is not a multiple of 8 raises 0x11 with the target in TADDR. A
running wave whose four counters are zero, whose stores are performed and of which its core has no result of an atomic on its
way leaves its barriers and ends by exitw; when another wave of its group still runs and no wave stands counted in an open
phase of a barrier of the group or its launch, this wave alone is marked ended, nothing else of it remains queued and memory
is unchanged; the open phase of a core barrier of the group at which all that remain have arrived completes with it, when no
ordered atomic is held there. A wave that is not drained stalls at exitw. (R72, R73, R74, R195, R395, R81, R78) -/
def Obligations.ControlTransfersAndExitComplete : Prop :=
  (∀ (s : State) (w : Nat) (d a : Opnd) (n : BitVec 6) (cc : BrCond) (imm : BitVec 32) (t x : Word), s.running = some w →
    let here := s.wave w
    let to_ : Word := here.hdr + BitVec.ofInt 64 (8 * imm.toInt)
    let v := readS s w 1 n.toNat
    let holds := match cc with
      | .eq0 => v = 0
      | .ne0 => v ≠ 0
      | .lt0 => v.toInt < 0
      | .ge0 => 0 ≤ v.toInt
    let linked := s.modWave w fun y => y.setS n.toNat (y.hdr + BitVec.ofNat 64 (8 * (y.sch.count + 1)))
    (mayBranch s w to_ →
      exec (.bru imm) s = .next (jumped s w (landed here w to_ s)) ∧
      (holds → exec (.brs cc (.s n) imm) s = .next (jumped s w (landed here w to_ s))) ∧
      exec (.call (.s n) imm) s = .next (jumped s w (landed here w to_ linked))) ∧
    (¬ holds → exec (.brs cc (.s n) imm) s = .next (completed s w s)) ∧
    (checkOps s w [(a, .sv)] = .ok () → uni1 s w a = .ok t →
      (mayBranch s w t → exec (.jmps a) s = .next (jumped s w (landed here w t s)) ∧
        exec (.ret a) s = .next (jumped s w (landed here w t s))) ∧
      (t.extractLsb' 0 3 ≠ 0 → exec (.jmps a) s = .next (s.trapped w { code := 0x11#6, addr := t }) ∧
        exec (.ret a) s = .next (s.trapped w { code := 0x11#6, addr := t }))) ∧
    (d = .s n → checkOps s w [(d, .onlyS), (a, .sv)] = .ok () → uni1 s w a = .ok x → mayBranch s w x →
      exec (.calls d a) s = .next (jumped s w (landed here w x linked)))) ∧
  (∀ (s : State) (w v : Nat), s.running = some w →
    let drained := (s.wave w).mem.outst = [] ∧ (s.wave w).mem.storeQ = [] ∧ ∀ e ∈ (s.core (s.wave w).id.core).out, e.1 ≠ w
    (drained →
      exec .exitw s = .next (jumped s w (s.leave w)) ∧
      (w < s.waves.length → v ≠ w → v ∈ (s.waveGroup w).waves → (s.wave v).sch.ended = false →
        (∀ b ∈ (s.waveGroup w).barriers ++ (s.launch (s.waveGroup w).launch).barriers, b.arrived = []) →
        ((jumped s w (s.leave w)).wave w).sch.ended = true ∧ ((jumped s w (s.leave w)).wave v) = s.wave v ∧
        ((jumped s w (s.leave w)).wave w).evq = [] ∧ ∀ a, (jumped s w (s.leave w)).mem.read a = s.mem.read a) ∧
      (∀ id, let g := (s.wave w).id.group
        let b := s.barrier .core g 0 id
        w < s.waves.length → v ≠ w → v ∈ (s.group g).waves → (s.wave v).sch.ended = false → b.aods = [] →
        (∀ u ∈ (s.group g).waves, u ≠ w → (s.wave u).sch.ended = false → u ∈ b.arrived) →
        ((jumped s w (s.leave w)).barrier .core g 0 id).phase = b.phase + 1)) ∧
    (¬ drained → exec .exitw s = .next (s.stallWave w .ending).tick))

/-- The steps of the matrix engine, of transforms and of products. With a command at the head that no fence holds and no
acquire of it that waits for an earlier ordered atomic of its wave: its row step completes one row with its effect, the flags
enter the stream's, and the row count rises; after the last row the command leaves the stream, its status and count enter the
stream word, its TL operation completes. A failing step ends the command with its status. An mzero row holds zeros in the
tile, or in both tiles of a pair, and leaves every other row. A row of mldt whose elements open holds the words of memory,
transposed or not; a row of mstt in a plain group with the race detector off writes each element in the format of the store
mode, residues, 64-bit pairs and saturated integers among them, and no other byte. A K-step of mloop reads the columns of B
once, before its first row; then row r of the tile, or the pair, adds to each element, or under Z in the first K-step to
zero, the sum of the products of the row of A and the column: of bytes modulo 2^64 or 2^32, of half-limbs modulo 2^64, and of
finite floats pa × pb times their exact sum, scales included, rounded once into FP32, an exact zero with the sign of R303;
the flags are those of the elements. Every other row and tile stays. The oldest command of a unit, its group not held and its
logical unit the one that the physical unit serves now, in ascending order, one command at a turn (the model's choice, log
entry 56), performs one stage of a transform or one residue of a rescale by NTT_STEP, and one step of a product by
LMULM_STEP; so does the oldest product of a core on the matrix path. After the last step the command leaves and its operation
completes; a step that fails ends it with its status. (R294, R308, R311, R312, R313, R315, R302, R303, R306, R307, R309,
R310) -/
def Obligations.RowAndStageSteps : Prop :=
  (∀ (s u : State) (c : Nat) (n : BitVec 2) (x y : MCmd) (fl : Flags) (st : BitVec 8), (s.core c).mx.ready n.toNat = some x → s.alive (s.core c).part = true →
    s.acquireWaits x.wave x.key x.o = false →
    (x.rows < x.total → x.step c s = .ok (u, y, fl) →
      let z := { y with rows := x.rows + 1 }
      let v := u.modMx c fun m => m.modStream n.toNat fun t => { t with flags := t.flags ||| fl }
      exec (.matrixRowStep c n) s = .next (if z.total ≤ z.rows then v.finishMatrix c n.toNat z 0 else v.modMx c fun m => m.setHead n.toNat (some z)).tick) ∧
    (x.rows < x.total → x.step c s = .error (.status st) → exec (.matrixRowStep c n) s = .next (s.finishMatrix c n.toNat x st).tick) ∧
    (x.total ≤ x.rows → exec (.matrixRowStep c n) s = .next (s.finishMatrix c n.toNat x 0).tick) ∧
    (∀ t pair, x.op = .zero t pair → x.rows < 64 → t < (s.core c).mx.tiles.length → (pair = true → t + 1 < (s.core c).mx.tiles.length) → c < s.cores.length → (∀ m ∈ (s.core c).mx.tiles, m.wf = true) →
      ∃ v, exec (.matrixRowStep c n) s = .next v ∧ v.mem = s.mem ∧
        ∀ r j, r < 64 → j < 64 → (v.core c).mx.elem t r j = (if r = x.rows then 0 else (s.core c).mx.elem t r j) ∧
          (v.core c).mx.elem (t + 1) r j = (if r = x.rows ∧ pair = true then 0 else (s.core c).mx.elem (t + 1) r j))) ∧
  (∀ (s v : State) (c : Nat) (x : MCmd) (ls : List Loc), c < s.cores.length → (∀ m ∈ (s.core c).mx.tiles, m.wf = true) →
    let mx := (s.core c).mx
    let k := x.issuer
    let cell := fun (u : State) (t r j : Nat) => (u.core c).mx.elem t r j
    let pair := fun (u : State) (t r j : Nat) => cell u t r j + 2 ^ 32 * cell u (t + 1) r j
    let rest := fun (u : State) (ts : List Nat) (r : Nat) => ∀ t' r' j, r' < 64 → j < 64 → (t' ∉ ts ∨ r' ≠ r) → cell u t' r' j = cell s t' r' j
    (∀ t a st tr, x.op = .load t a st tr → x.rows < 64 → t < mx.tiles.length →
      engOpen k s ((List.range 64).map fun j => (tileElemAddr a st tr 4 x.rows j, 4)) [] = .ok (v, ls, []) →
      ∃ u, x.step c s = .ok (u, x, 0) ∧ (∀ j, j < 64 → cell u t x.rows j = leValue (v.engineRead x.group (ls.getD j (.sp 0)) 4)) ∧ rest u [t] x.rows) ∧
    (∀ t a st md tr p es, x.op = .store t a st md tr p → storeBytes md = some es → s.memOk → v.staged x.group = false →
      (v.waveLaunch x.wave).r.race = 0 → engOpen k s [] ((List.range 64).map fun j => (tileElemAddr a st tr es x.rows j, es)) = .ok (v, [], ls) →
      let written := (List.range 64).flatMap fun j => match (ls[j]? : Option Loc) with
        | some (Loc.mem pa) => placed pa (leBytes es (storedElem (FEnv.ofAmr x.amr) md p (cell s t x.rows j) (pair s t x.rows j)))
        | _ => []
      ∃ u y fl, x.step c s = .ok (u, y, fl) ∧ (u.core c).mx = mx ∧
        ∀ a, u.mem.read a = ((written.reverse.find? fun q => q.1 == a).map fun q => q.2).getD (v.mem.read a)) ∧
    (∀ t ops cls, x.op = .loop t ops → t < mx.tiles.length → let l := Loop.ofOps ops
      mxClass l.fa = some cls →
      let st := x.rows / 64
      let r := x.rows % 64
      let fresh := l.z = true ∧ st = 0
      let n := if cls = .limb then 64 else 128
      let columns := (List.range 64).flatMap fun i => operandRow l.bbase l.binc l.bstr st i n
      let row := operandRow l.abase l.ainc l.astr st r 128
      ((∀ b, x.block = some b → b.1 ≠ st) → engOpen k s columns [] = .ok (v, ls, []) → (v.waveLaunch x.wave).r.race = 0 →
        x.step c s = { x with block := some (st, (List.range 64).map fun i => ((bytesAt v x.group ls columns).drop (n * i)).take n) }.step c v) ∧
      (∀ cols, x.block = some (st, cols) → cols.length = 64 →
        let col := fun (j : Nat) => cols.getD j []
        (cls = .int → engOpen k s row [] = .ok (v, ls, []) →
          let sum := fun (j : Nat) => ((List.range 128).map fun i => ((bytesAt v x.group ls row).getD i 0).toInt * ((col j).getD i 0).toInt).sum
          ∃ u, x.step c s = .ok (u, x, 0) ∧ ∀ j, j < 64 →
            (l.acc = false → t + 1 < mx.tiles.length → (pair u t r j : Int) = ((if fresh then 0 else (pair s t r j : Int)) + sum j) % 2 ^ 64 ∧ rest u [t, t + 1] r) ∧
            (l.acc = true → (cell u t r j : Int) = ((if fresh then 0 else (cell s t r j : Int)) + sum j) % 2 ^ 32 ∧ rest u [t] r)) ∧
        (cls = .limb → t + 1 < mx.tiles.length →
          let m := fun (i : Nat) => (l.row0 : Int) + r - 32 * st - i
          let reads := fun (i : Nat) => decide (0 ≤ m i) && decide (m i < l.astr.toNat)
          let place := fun (i : Nat) => ls.getD ((List.range i).filter reads).length (.sp 0)
          let a := fun (i : Nat) => if reads i then leValue (v.engineRead x.group (place i) 2) else 0
          let sum := fun (j : Nat) => ((List.range 32).map fun i => a i * (((col j).getD (2 * i) 0).toNat + 256 * ((col j).getD (2 * i + 1) 0).toNat)).sum
          engOpen k s (((List.range 32).filter reads).map fun i => ((l.abase.toNat + 2 * (m i).toNat) % 2 ^ 64, 2)) [] = .ok (v, ls, []) →
          ∃ u, x.step c s = .ok (u, x, 0) ∧ rest u [t, t + 1] r ∧
            ∀ j, j < 64 → pair u t r j = ((if fresh then 0 else pair s t r j) + sum j) % 2 ^ 64) ∧
        (cls.float = true → engOpen k s row [] = .ok (v, ls, []) →
          let env := FEnv.ofAmr x.amr
          let scale := fun (on : Bool) (so i : Nat) => if on then some (mx.scale, 256 * so + (64 * st + i) * (cls.k0 / 32)) else none
          let fs := fun (j i : Nat) => loopFactors l.fa env.flushIn (bytesAt v x.group ls row) (scale l.bsa l.soa r) i ++
            loopFactors l.fb env.flushIn (col j) (scale l.bsb l.sob j) i
          let pp := if l.pts then [Fmt.fp32.decode env.flushIn (l.ptsc.toNat % 2 ^ 32), Fmt.fp32.decode env.flushIn (l.ptsc.toNat / 2 ^ 32)] else []
          let a := fun (j : Nat) => if fresh then FVal.num false 0 0 else Fmt.fp32.decode env.flushIn (cell s t r j)
          let zero := fun (j : Nat) => decide ((a j).isZero = true ∧ ∀ i, i < cls.k0 → ratProduct pp * ratProduct (fs j i) = 0 ∧
            (signProduct pp != signProduct (fs j i)) = (a j).neg?)
          ∃ u fl, ∃ res : Nat → Nat × Flags, x.step c s = .ok (u, x, fl) ∧ rest u [t] r ∧ (∀ j, j < 64 → cell u t r j = (res j).1) ∧
            fl = (List.range 64).foldl (fun acc j => acc ||| (res j).2) 0 ∧
            ∀ j, j < 64 → finite (a j) → (∀ q ∈ pp, finite q) → (∀ i, i < cls.k0 → ∀ q ∈ fs j i, finite q) →
              roundedOnce Fmt.fp32 env (ratOf (a j) + ratProduct pp * ((List.range cls.k0).map fun i => ratProduct (fs j i)).sum)
                (if zero j then (a j).neg? else env.rm == 3) (res j))))) ∧
  (∀ (s u : State) (q n : Nat) (x y : NCmd) (fin : Bool) (st : BitVec 8) (m z : LMul) (rest : List LMul),
    ((s.quads.getD q default).slots.head? = some x → s.unitMay q x = true →
      let before := s
      (let s := s.takeUnit q
       let step_ : Option (Eng (State × NCmd × Bool)) := match x.op with
        | .transform inv d a bstr nb nres logn => some (transformStep s x inv d a bstr nb nres logn)
        | .rescale h logn res comps cstr rnd => some (rescaleStep s x h logn res comps cstr rnd)
        | .lmul _ => none
       (step_ = some (.ok (u, y, fin)) → exec (.nttStep q) before = .next (if fin then u.finishNtt q y 8 0 else u.modQuad q fun l => y :: l.drop 1).tick) ∧
       (step_ = some (.error (.status st)) → exec (.nttStep q) before = .next (s.finishNtt q x 8 st).tick)) ∧
      (x.op = .lmul m →
       let s := s.takeUnit q
       (m.step true s = .ok (u, z, fin) → let y := { x with op := .lmul z, crc := z.crc }
         exec (.lmulmStep true q) before = .next (if fin then u.finishNtt q y 16 0 else u.modQuad q fun l => y :: l.drop 1).tick) ∧
       (m.step true s = .error (.status st) → exec (.lmulmStep true q) before = .next (s.finishNtt q x 16 st).tick))) ∧
    ((s.core n).lmuls = m :: rest → s.engineHeld m.group = false → s.acquireWaits m.wave m.key m.o = false →
      (m.step false s = .ok (u, z, fin) → exec (.lmulmStep false n) s = .next (if fin then u.finishLmul n z 0 else u.modCore n fun k => { k with lmuls := z :: rest }).tick) ∧
      (m.step false s = .error (.status st) → exec (.lmulmStep false n) s = .next (s.finishLmul n m st).tick)))

/-- What scalar and vector computations leave unchanged. When sadd, ssub, a scalar operation of R85 to R90, or sli, slih or
srdsp answers a next state for a running wave, it has trapped, or it has completed with one write to D, followed for sadd and
ssub by one of CY: memory reads as before, every other wave and every group, die, partition, launch and the controller are
unchanged; with an S register as D every special, flag, predicate, V register and every other S register is unchanged. When a
lane-wise instruction of class 2 or 3 answers a next state for a running wave it has trapped, or stalled in a state that is
unchanged but for the need that it has noted, or it has moved on and then memory, every other wave, every S register, every V
register but D, and every lane of a D register outside the active lanes (for tags other than limb) are unchanged, and so are
the specials but FFLAGS. The pops take elements from the heads of rings that source ports name, and change nothing else of
the groups; without a port as D the groups are those after the pops, without a source port too those before, and the cores
but for the counts as before. Where D is a port and an element is pushed, the wave's stores on their way are performed first
(R249), its interval rises, and the scratchpad changes where the ring of D after the pops has room next, in ascending lane
order. (R84, R85, R86, R87, R88, R89, R90, R91, R92, R110, R112, R122) -/
def Obligations.ComputationsFrame : Prop :=
  (∀ (s t : State) (w : Nat) (i : Instr) (d : Opnd), s.running = some w → w < s.waves.length → exec i s = .next t →
    (match i with
      | .sadd _ e _ _ | .ssub _ e _ _ | .smul e _ _ | .smulh _ e _ _ | .sdiv _ e _ _ | .srem _ e _ _ | .sand e _ _ | .sor e _ _
      | .sxor e _ _ | .sshl e _ _ | .sshr e _ _ | .ssar e _ _ | .smin _ e _ _ | .smax _ e _ _ | .scmp _ e _ _ | .ssel e _ _ _
      | .smov e _ | .sli e _ | .slih e _ | .spopc e _ | .sclz e _ | .sbfe _ e _ _ _ | .sbfi e _ _ _ | .srdsp e _ _ => e = d
      | _ => False) →
    let sum := match i with
      | .sadd .. | .ssub .. => true
      | _ => false
    (∃ r, t = s.trapped w r) ∨
    (onlyWave s t w ∧ ∃ (b : Bool) (v : Word) (r : State),
      s.putScalar w d v = .ok r ∧ t = completed s w (if sum then r.modWave w fun x => x.setCarry b else r)) ∧
    (∀ n, d = .s n → let x := s.wave w; let y := t.wave w
      scalarFrame x y ∧ y.amr = x.amr ∧ y.nttthr = x.nttthr ∧ y.lc.xprog = x.lc.xprog ∧ y.lc.exited = x.lc.exited ∧ y.num = x.num ∧
      (sum = false → y.cy = x.cy ∧ y.hcy = x.hcy) ∧
      (∀ k, k ≠ n.toNat → y.s.getD k 0 = x.s.getD k 0) ∧ (∀ k, k + 56 ≠ n.toNat → y.hb.getD k 0 = x.hb.getD k 0))) ∧
  (∀ (s t : State) (w : Nat) (i : Instr) (f : LaneForm), form i = some f → s.running = some w → w < s.waves.length → exec i s = .next t →
    (∃ q, t = s.trapped w q) ∨ (∃ why u, (u = s ∨ ∃ n, u = s.modWave w fun x => { x with sch.need := n }) ∧ t = (State.stallWave u w why).tick) ∨
    (let x := s.wave w
     let y := t.wave w
     let g := x.id.group
     let counted := fun (u : State) => (u.modCore x.id.core fun k => { k with slots := k.slots + 1, retired := k.retired + if x.counts then 1 else 0 }).cores
     let still := fun (u : State) => (∀ a, t.mem.read a = s.mem.read a) ∧ t.groups = u.groups ∧ t.cores = counted s ∧
       (∀ v, v ≠ w → t.wave v = s.wave v) ∧ t.parts = s.parts ∧ t.ctl = s.ctl ∧ y.mem = x.mem
     ((activeMask s w f.g = 0 ∧ still s) ∨ ∃ po, popAll true s w (activeMask s w f.g) f.srcs = .ok po ∧
       (f.srcs.any isPort = false → po.s = s) ∧
       (po.s = { s with groups := po.s.groups } ∧ (∀ h, h ≠ g → po.s.group h = s.group h) ∧ po.s.group g = { s.group g with rings := (po.s.group g).rings } ∧
         ∀ r, ∃ c, (po.s.group g).ring r = ((s.group g).ring r).take c ∧
           ((∀ n push, Opnd.q n ∈ f.srcs → x.port n.toNat ≠ some (r, push)) → (po.s.group g).ring r = (s.group g).ring r)) ∧
       (isPort f.d = false ∨ po.m = 0 → still po.s) ∧
       (∀ n, f.d = .q n → po.m ≠ 0 → ∃ (z : Wave) (vals : Nat → Lane) (ri : Nat) (push : Bool), z.id = x.id ∧ z.mem = x.mem ∧ z.ports = x.ports ∧
         x.port n.toNat = some (ri, push) ∧
         let v := (po.s.setWave w z).performAll w
         let ring := (po.s.group g).ring ri
         let ls := lanesOf x.id.width po.m
         t.mem = v.mem ∧ t.cores = counted v ∧ (∀ k, k ≠ w → t.wave k = v.wave k) ∧
         y.mem = { (v.wave w).mem with interval := (v.wave w).mem.interval + 1 } ∧
         t.groups = (v.modGroup g fun q => { q.modRing ri (fun k => { k with occ := k.occ ++ List.replicate ls.length true }) with sp := q.sp.writeAll ((ls.zipIdx).flatMap fun e => placed (ring.place (ring.head + ring.occ.length + e.2)) (leBytes 4 (vals e.1).toNat)) }).groups)) ∧
     t.launches = s.launches ∧ t.dies = s.dies ∧ t.quads = s.quads ∧ y.s = x.s ∧ y.hb = x.hb ∧ y.cy = x.cy ∧ y.hcy = x.hcy ∧
     y.amr = x.amr ∧ y.nttthr = x.nttthr ∧ y.evq = x.evq ∧ y.ports = x.ports ∧ y.tr.hm = x.tr.hm ∧ y.tr.cause = x.tr.cause ∧
     y.lc.regions = x.lc.regions ∧ y.lc.dead = x.lc.dead ∧
     (∀ k, f.d ≠ .v (BitVec.ofNat 6 k) → k < 64 → y.v.getD k ⟨[], 0⟩ = x.v.getD k ⟨[], 0⟩) ∧
     (∀ n l, f.d = .v n → (activeMask s w f.g).getLsbD l = false → mdTag (y.v.getD n.toNat ⟨[], 0⟩).md ≠ .limb →
       (y.v.getD n.toNat ⟨[], 0⟩).lanes.getD l 0 = (x.v.getD n.toNat ⟨[], 0⟩).lanes.getD l 0)))

/-- A vector instruction with no lane does nothing; a checked one traps. When the decode checks of a lane-wise instruction of
class 2 or 3 pass and no lane is active, the instruction completes with no effect: no lane, tag, flag, generator, ring or
predicate changes. For add, sub, mul, mad, min, max, neg, abs and the special functions: a poisoned source raises 0x07 with
the first one in TADDR and the active lanes in TLANES; with clean sources, V sources of differing tags raise 0x05 with the
first that differs in TADDR, and an operand tag that the instruction does not accept raises 0x05 with the first V source; an
instruction without a V source raises 0x02. Each leaves everything else as it was. (R112, R95, R110, R111) -/
def Obligations.VectorMasksAndChecks : Prop :=
  (∀ (s : State) (w : Nat) (i : Instr) (f : LaneForm), form i = some f → s.running = some w → f.decodes s w → activeMask s w f.g = 0 →
    exec i s = .next (completed s w s) ∧ onlyWave s (completed s w s) w ∧
    let y := (completed s w s).wave w
    w < s.waves.length → y.v = (s.wave w).v ∧ y.s = (s.wave w).s ∧ y.preds = (s.wave w).preds ∧ y.fflags = (s.wave w).fflags ∧
      y.convGen = (s.wave w).convGen ∧ y.lc.randC = (s.wave w).lc.randC) ∧
  (∀ (s : State) (w : Nat) (i : Instr) (f : LaneForm) (po : PopOut) (r q : Src) (t : Tag) (md : BitVec 32), form i = some f →
    (match i with
      | .add .. | .sub .. | .mul .. | .mad .. | .min .. | .max .. | .neg .. | .abs .. | .rcp .. | .rsq .. | .sqrt .. | .exp2 .. | .log2 ..
      | .sin .. | .cos .. => True
      | _ => False) →
    (f.enters s w po → let rs := f.sources s w po
      let bad := fun (e : Src) => match e.md with
        | some m => mdPoison m
        | none => false
      (rs.find? bad = some r → exec i s = .next (s.trapped w { code := 0x07#6, addr := opndAddr r.o, lanes := some po.m })) ∧
      (clean rs → rs.find? (fun e => e.md.isSome) = some q → q.md = some md →
        rs.find? (fun e => match e.md with | some m => mdTag m != mdTag md | none => false) = some r →
        exec i s = .next (s.trapped w { code := 0x05#6, addr := opndAddr r.o })) ∧
      (clean rs → tagged rs t → t ≠ .limb → laneTag i t = false → rs.find? (fun e => e.md.isSome) = some q →
        exec i s = .next (s.trapped w { code := 0x05#6, addr := opndAddr q.o }))) ∧
    (s.running = some w → checkOps s w f.checks = .ok () → f.extra s w = false → exec i s = .next (s.trapped w { code := 0x02#6 })))

/-- sadd, ssub, products, logic and comparisons write their values. A running wave whose operands are accepted and have the
values x and y completes sadd with (x + y + cin) mod 2^64 and CY set when the unbounded sum reaches 2^64, and ssub with (x −
y − cin) mod 2^64 and CY set on a borrow; cin is CY with .c, else 0. The destination is written first and CY last, so that a
sum or difference into CY itself leaves the carry or borrow there. With accepted operands of values x and y these
instructions complete with the low or high half of the product, the bitwise result, the smaller or larger value (signed, or
unsigned with .u), and for scmp 1 when the condition holds, else 0. (R84, R85, R88) -/
def Obligations.ScalarSumsAndLogic : Prop :=
  (∀ (s : State) (w : Nat) (c : Bool) (d a b : Opnd) (x y : Word), s.running = some w → scalarReads s w d a b x y →
    let cin := if c && (s.wave w).carry then 1 else 0
    (∀ r, s.putScalar w d (BitVec.ofNat 64 (x.toNat + y.toNat + cin)) = .ok r → exec (.sadd c d a b) s =
      .next (completed s w (r.modWave w fun v => v.setCarry (decide (2 ^ 64 ≤ x.toNat + y.toNat + cin))))) ∧
    (∀ r, s.putScalar w d (x - y - BitVec.ofNat 64 cin) = .ok r → exec (.ssub c d a b) s =
      .next (completed s w (r.modWave w fun v => v.setCarry (decide (x.toNat < y.toNat + cin)))))) ∧
  (∀ (s : State) (w : Nat) (u : Bool) (cc : SCond) (d a b : Opnd) (x y : Word), s.running = some w → scalarReads s w d a b x y →
    let less := fun (p q : Word) => if u then decide (p.toNat < q.toNat) else decide (p.toInt < q.toInt)
    let holds := match cc with
      | .eq => decide (x = y)
      | .ne => decide (x ≠ y)
      | .lt => decide (x.toInt < y.toInt)
      | .le => decide (x.toInt ≤ y.toInt)
      | .gt => decide (y.toInt < x.toInt)
      | .ge => decide (y.toInt ≤ x.toInt)
      | .ltu => decide (x.toNat < y.toNat)
      | .leu => decide (x.toNat ≤ y.toNat)
      | .gtu => decide (y.toNat < x.toNat)
      | .geu => decide (y.toNat ≤ x.toNat)
    let gives := fun (i : Instr) (v : Word) => ∀ r, s.putScalar w d v = .ok r → exec i s = .next (completed s w r)
    gives (.smul d a b) (BitVec.ofNat 64 (x.toNat * y.toNat)) ∧
    gives (.smulh u d a b) (if u then BitVec.ofNat 64 (x.toNat * y.toNat / 2 ^ 64) else BitVec.ofInt 64 (x.toInt * y.toInt / 2 ^ 64)) ∧
    gives (.sand d a b) (x &&& y) ∧ gives (.sor d a b) (x ||| y) ∧ gives (.sxor d a b) (x ^^^ y) ∧
    gives (.smin u d a b) (if less y x then y else x) ∧ gives (.smax u d a b) (if less x y then y else x) ∧
    gives (.scmp cc d a b) (if holds then 1 else 0))

/-- Arithmetic and special functions write every active lane under the operand tag. add, sub, mul, mad, min, max, neg, abs,
rcp, rsq, sqrt, exp2, log2, sin and cos with clean sources, one accepted operand tag, not limb, and one loaded modulus under
modq: every active lane gets its value, the tag is the operand tag, and the flags of the lanes enter FFLAGS when none of them
is enabled to trap; an enabled one raises 0x0B with every flag in TADDR, reporting the lanes that raised an enabled one.
Destinations are V registers and ports; lost elements among those popped poison the one and raise 0x10 for the other. The
values of the special functions within the bounds of R132 are the model's pick (log entry 11); that neg and abs flush no
subnormal is its choice (log entry 53). Under i32 and u32 add, sub and mul give the low 32 bits, with .sat under i32 the
exact result clamped to the range and under u32 clamped to 0 and 2^32 − 1; under modq they give the exact result modulo p of
the operands reduced; mad multiplies and adds before one narrowing; no flag is raised. Under a float tag every element of
add, sub, mul and mad has, for finite operands, the exact result rounded once, and an exact zero the sign of R116; a NaN
operand or an invalid combination gives the NaN of R106 and any other infinity is the infinite value of R105; min and max
keep the smaller or larger operand, −0 below +0, one NaN giving the other operand, and raise invalid for a signalling NaN;
the flags of a lane are those of its elements. (R107, R108, R110, R111, R115, R116, R131, R132, R133, R242, R456, R104) -/
def Obligations.LaneArithmeticCompletes : Prop :=
  (∀ (s : State) (w : Nat) (i : Instr) (f : LaneForm) (po : PopOut) (t : Tag) (mi p : Nat), form i = some f → f.enters s w po →
    let s1 := f.popped s w po
    let rs := f.sources s w po
    clean rs → tagged rs t → laneTag i t = true → modulus s1 w rs t mi p →
    let k := arith s1 w t mi p
    let x := s1.wave w
    let v := fun (j l : Nat) => (src0 rs j).lane k.env t p l
    let out := fun (l : Nat) => laneValue k x.amr i (v 0 l).1 (v 1 l).1 (v 2 l).1
    let fl := fun (l : Nat) => (out l).2 ||| (v 0 l).2 ||| (v 1 l).2 ||| (v 2 l).2
    let all := allFlags x.id.width po.m fl
    (all &&& trapEnables x.amr = 0 →
      comesTo i s w (f.puts s w po { s := flagged s1 w po.m fl, vals := fun l => (out l).1, md := mkMd t 0 false false mi })) ∧
    (all &&& trapEnables x.amr ≠ 0 → exec i s = .next (s.trapped w { code := 0x0B#6, addr := all.zeroExtend 64, lanes := some (maskOf x.id.width fun l => po.m.getLsbD l && fl l &&& trapEnables x.amr != 0) }))) ∧
  (∀ (k : Arith) (a b c : Lane), k.fmt = tagFmt k.t →
    ((k.t = .i32 ∨ k.t = .u32) → AriOp.lane k .add false a b = (a + b, 0) ∧ AriOp.lane k .sub false a b = (a - b, 0) ∧
      AriOp.lane k .mul false a b = (a * b, 0) ∧ madLane k false a b c = (a * b + c, 0)) ∧
    (k.t = .i32 → ∀ op : AriOp, AriOp.lane k op true a b = (BitVec.ofInt 32 (max (-(2 ^ 31)) (min (2 ^ 31 - 1) (op.int a.toInt b.toInt))), 0)) ∧
    (k.t = .u32 → ∀ op : AriOp, AriOp.lane k op true a b = (BitVec.ofInt 32 (max 0 (min (2 ^ 32 - 1) (op.int a.toNat b.toNat))), 0)) ∧
    (k.t = .modq → 0 < k.p → k.p < 2 ^ 32 → ∀ op sat, ((AriOp.lane k op sat a b).1.toNat : Int) = op.int a.toNat b.toNat % (k.p : Int) ∧
      (AriOp.lane k op sat a b).2 = 0 ∧ (madLane k sat a b c).1.toNat = (a.toNat * b.toNat + c.toNat) % k.p)) ∧
  (∀ (k : Arith) (f : Fmt) (a b c : Lane) (sat : Bool), k.fmt = tagFmt k.t → k.fmt = some f →
    let el := fun (x : Lane) (j : Nat) => f.decode k.env.flushIn (elemOf k.t x j)
    let lane := fun (out : Lane × Flags) (p : Nat → Nat × Flags → Prop) => ∃ r : Nat → Nat × Flags,
      out = (laneOf k.t (fun j => (r j).1), (List.range (tagElems k.t)).foldl (fun acc j => acc ||| (r j).2) 0) ∧ ∀ j, j < tagElems k.t → p j (r j)
    let sign := fun (v : FVal) => (v.isZero, v.neg?)
    let sum := fun (x y : FVal) (minus : Bool) (r : Nat × Flags) =>
      let t := if minus then y.negate else y
      (finite x → finite y → roundedOnce f k.env (ratOf x + ratOf t) (zeroSign k.env (sign x) (sign t)) r) ∧
      (x.isNan = true ∨ y.isNan = true → r = f.nanOf k.env [x, y]) ∧
      (∀ u v, x = .inf u → t = .inf v → r = if u = v then f.overflow k.env u false else f.nanOf k.env []) ∧
      (∀ u, (x = .inf u ∧ finite y) ∨ (t = .inf u ∧ finite x) → r = f.overflow k.env u false)
    lane (AriOp.lane k .add sat a b) (fun j r => sum (el a j) (el b j) false r) ∧
    lane (AriOp.lane k .sub sat a b) (fun j r => sum (el a j) (el b j) true r) ∧
    lane (AriOp.lane k .mul sat a b) (fun j r => let x := el a j; let y := el b j
      (finite x → finite y → roundedOnce f k.env (ratOf x * ratOf y) (x.neg? != y.neg?) r) ∧
      (x.isNan = true ∨ y.isNan = true → r = f.nanOf k.env [x, y]) ∧
      (x.isNan = false → y.isNan = false → x.isInf = true ∨ y.isInf = true →
        r = if x.isZero = true ∨ y.isZero = true then f.nanOf k.env [] else f.overflow k.env (x.neg? != y.neg?) false)) ∧
    lane (madLane k sat a b c) (fun j r => let x := el a j; let y := el b j; let z := el c j
      let s := x.neg? != y.neg?
      (finite x → finite y → finite z → roundedOnce f k.env (ratOf x * ratOf y + ratOf z) (zeroSign k.env (x.isZero || y.isZero, s) (sign z)) r) ∧
      (x.isNan = true ∨ y.isNan = true ∨ z.isNan = true → r = f.nanOf k.env [x, y, z]) ∧
      (x.isNan = false → y.isNan = false → z.isNan = false → x.isInf = true ∨ y.isInf = true →
        r = if x.isZero = true ∨ y.isZero = true ∨ z = .inf (!s) then f.nanOf k.env [] else f.overflow k.env s false) ∧
      (∀ u, finite x → finite y → z = .inf u → r = f.overflow k.env u false)) ∧
    (∀ larger, lane (pickLane k larger a b) fun j r => let x := el a j; let y := el b j
      let below := fun (u v : FVal) => u = .inf true ∧ v ≠ .inf true ∨ v = .inf false ∧ u ≠ .inf false ∨
        finite u ∧ finite v ∧ (ratOf u < ratOf v ∨ u.isZero = true ∧ v.isZero = true ∧ u.neg? = true ∧ v.neg? = false)
      (x.isNan = false → y.isNan = false → r = f.keep k.env (if larger then (if below x y then y else x) else (if below y x then y else x))) ∧
      (x.isNan = true → y.isNan = true → (r.1 = (f.nanOf k.env [x, y]).1)) ∧
      (x.isNan = true → y.isNan = false → r.1 = (f.keep k.env y).1 ∧ r.2 = (f.keep k.env y).2 ||| (if x.isSignalling then 1#5 else 0)) ∧
      (x.isNan = false → y.isNan = true → r.1 = (f.keep k.env x).1 ∧ r.2 = (f.keep k.env x).2 ||| (if y.isSignalling then 1#5 else 0))))

/-- qbind, qunbind and qpeek complete; waves that wait at a ring go on when it can serve them. qbind and qbind.un set and
clear a port; qpeek shows the elements at the head and takes none, poisoned where one of them is lost; qeos ends the stream
of the ring a push port names, in deterministic mode at a ring with engine commands once the engines of the core can go no
further (the model's choice, log entry 56); qstat reads a port's state, or the oldest event, which leaves Q12, or 0 when
there is none. When the ring has what a stalled pop or push waits for and its core may issue, RING_POP and RING_PUSH run the
wave's instruction, qpeek or a lane-wise one, as the running wave: with its effect r the instruction completes and the wave
moves on. (R241, R245, R246, R247, R456, R242, R243, R53) -/
def Obligations.RingsComplete : Prop :=
  (∀ (s : State) (w : Nat) (b : Opnd) (r : BitVec 4) (v : Word) (n : BitVec 4) (d : BitVec 6) (q : BitVec 6) (pe : BitVec 3) (g : Guards)
    (po : PopOut) (ri : Nat), s.running = some w →
    let x := s.wave w
    let grp := x.id.group
    let onRing := fun (u : State) (f : Ring → Ring) (k : Nat) => u.modGroup grp fun y => y.modRing k f
    let declared := r.toNat < (s.waveGroup w).rings.length
    (∀ push, n.toNat < 8 → declared → exec (.qbind push (.q n) r) s = .next (completed s w (s.modWave w fun y => { y with ports := y.ports.set n.toNat (some (r, push)) }))) ∧
    (n.toNat < 8 → exec (.qbindUn (.q n)) s = .next (completed s w (s.modWave w fun y => { y with ports := y.ports.set n.toNat none }))) ∧
    (let m := activeMask s w g
     checkOps s w [(.v d, .onlyV), (.q n, { pop := true })] = .ok () →
     (m = 0 → exec (.qpeek g (.v d) (.q n) pe) s = .next (completed s w s)) ∧
     (m ≠ 0 → popAll false s w m [.q n] = .ok po →
      let e := srcOf s w po.pops 1 (.q n)
      exec (.qpeek g (.v d) (.q n) pe) s = .next (completed s w ((s.modWave w fun y => if po.m = 0 then y
        else y.setV d.toNat po.m ((List.range y.id.width).map e.val)
          (if po.lost.isSome then e.md.getD 0 ||| 0x10000#32 else e.md.getD 0)).modWave w fun y => y.setP pe m po.m)))) ∧
    (checkOps s w [(.q n, { push := true }), (b, .count)] = .ok () → uni1 s w b = .ok v → x.port n.toNat = some (ri, true) →
      ((s.waveLaunch w).r.det = true → ((s.waveGroup w).ring ri).engine = true → s.enginesStill x.id.core = true) →
      (((s.waveGroup w).ring ri).eos = none → exec (.qeos (.q n) b) s = .next (completed s w (onRing s (fun y =>
        { y with stopping := false, eos := some (y.head + y.occ.length, v.extractLsb' 0 8) }) ri))) ∧
      (((s.waveGroup w).ring ri).eos ≠ none → exec (.qeos (.q n) b) s = .next (s.trapped w { code := 0x12#6 }))) ∧
    (n.toNat < 8 → exec (.qstat (.s q) (.q n)) s = .next (completed s w (s.modWave w fun y => y.setS q.toNat (s.portState w n.toNat)))) ∧
    (exec (.qstat (.s q) (.q 12#4)) s = .next (completed s w ((s.modWave w fun y => { y with evq := y.evq.tail }).modWave w fun y => y.setS q.toNat (x.evq.headD 0))))) ∧
  (∀ (s r : State) (w : Nat) (i : Instr) (f : VecForm) (g : Guards) (d a : Opnd) (pe : BitVec 3), (s.ringReady w && s.mayIssue w) = true →
    let u := s.giveIssue w
    let ev := fun (push : Bool) => if push then Instr.ringPush w else .ringPop w
    ∀ push, s.waitsAt w push = true → decodeWord (s.wave w).word = .ok i → u.running = some w →
      (vecForm i = some f → f.act (u.wave w).exec u w = .ok r → exec (ev push) s = .next (completed u w r) ∧ exec i u = .next (completed u w r)) ∧
      (i = .qpeek g d a pe → peekAt (activeMask u w g) d a pe u w = .ok r → exec (ev push) s = .next (completed u w r) ∧ exec i u = .next (completed u w r)))

/-- The steps of the stream engines, the boxes of a fill and a drain, and the start of a collective instance. The oldest
command of an engine, where no hold keeps its stamp back, starts, completes at once as a stamp, or stops when it is
cancelled. A box step moves one box by its kind and counts it; the last box completes the command, and a failing one stops it
with its status. rfill takes the next unit of positions at the tail as its claim when its box is readable (log entry 29),
waits where no unit is free and stops with 0x05 at an ended ring; rdrain writes a full unit of elements, or the rest before
the end, as its box, and they leave the head; in deterministic mode both take turns in order of issue (the model's choice,
log entry 56). A box of a collective enters the rank's source, and the last rank's last box sends the result to all; a box of
the result is written, and the last completes the command. A collective instance with a command of every rank begins to read,
or every command is refused when they disagree. A box of a plain fill, its elements opened at their places, leaves in the
scratchpad at A + b × Bb each element of the tensor as the engine reads it, in box order, zero for elements outside the
tensor, and every other byte of the scratchpad as it was. A box of a plain drain in a group without staging writes each
element of the tensor from that place of the scratchpad, nothing outside the tensor, the later of two elements at one address
staying, and no other byte of memory where the race detector is off. (R230, R231, R235, R236, R240, R244, R435, R441, R219,
R222, R223, R228) -/
def Obligations.StreamEngineSteps : Prop :=
  (∀ (s u : State) (c : Nat) (se : Bool) (x y : SCmd) (st : BitVec 8), headOf s c se x →
    (let begun : State := match x.cancel with
      | some e => s.stopStream c se x e
      | none => if x.kind = SKind.stamp then s.finishStream c se x x.status else s.modQueue c se fun q => { x with started := true } :: q.drop 1
     x.started = false → (x.cancel ≠ none ∨ s.acquireWaits x.wave x.key x.o = false) → exec (.streamCommandStart c se) s = .next begun.tick) ∧
    (x.started = true → x.cancel = some st → x.claim = none → exec (.streamBoxStep c se) s = .next (s.stopStream c se x st).tick) ∧
    (∀ pos, x.started = true → x.kind = .rfill → x.claim = some pos →
      exec (.streamBoxStep c se) s = .next ((s.afterBox c se x (rfillStep s x pos)).settleStop c x.group x.a).tick) ∧
    (x.started = true → x.cancel = none →
      (let act : Option (Eng (State × SCmd)) := match x.kind with
        | .fill => some (fillStep s x)
        | .drain => some (drainStep s x)
        | .copy => some (copyStep s x)
        | .mcast => some (mcastStep s x)
        | .auto => some (autoStep s x)
        | .bopm => some (bopmStep s x)
        | _ => none
       (act = some (.ok (u, y)) → exec (.streamBoxStep c se) s = .next (if y.box + 1 < y.boxes then
          u.modQueue c se fun q => { y with box := y.box + 1 } :: q.drop 1
          else u.finishStream c se { y with box := y.box + 1 } y.status).tick) ∧
       (act = some (.error .hold) → exec (.streamBoxStep c se) s = .next s.tick) ∧
       (act = some (.error (.status st)) → exec (.streamBoxStep c se) s = .next (s.stopStream c se x st).tick)) ∧
      (∀ r, x.kind = .coll → x.coll = some r →
        let boxed := fun (v : State) (z : SCmd) => v.modQueue c se fun q => { z with box := x.box + 1 } :: q.drop 1
        (x.stage = .refused → exec (.streamBoxStep c se) s = .next (s.finishStream c se x 2).tick) ∧
        (∀ elems cells i, x.stage = .reading elems → readBox x.issuer s x.amr x.slot x.box = .ok (u, cells) → u.insts.find? (u.instOf x r) = some i →
          let all := enterBox x.slot x.box cells elems
          let v := ({ u with insts := u.insts.map fun j => if u.instOf x r j then { j with got := j.got ++ [(r.rank, all)] } else j }).modQueue c se fun q =>
            { x with stage := .read } :: q.drop 1
          let srcs := (sortBy (fun (a b : Nat × List Nat) => decide (a.1 ≤ b.1)) (i.got ++ [(r.rank, all)])).map fun q => q.2
          let res := collResult r x.slot.outFmt (FEnv.ofAmr x.amr) ((v.prime x.wave r.midx).getD 1) i.primes srcs
          let done := v.modMembers (v.members (v.group x.group).launch r.cid r.k) fun z => { z with stage := .writing res.1 res.2, box := 0 }
          let t := if i.got.length < i.nrm then v else { done with insts := done.insts.filter fun j => !v.instOf x r j }
          (x.box + 1 < x.slot.nBoxes → exec (.streamBoxStep c se) s = .next (boxed u { x with stage := .reading all }).tick) ∧
          (x.slot.nBoxes ≤ x.box + 1 → exec (.streamBoxStep c se) s = .next (if r.receives then t else t.finishStream c se x 0).tick)) ∧
        (∀ elems fl crc, x.stage = .writing elems fl → engWrites x.issuer s x.crc (collWrites x r elems fl) = .ok (u, crc) →
          exec (.streamBoxStep c se) s = .next (if x.box + 1 < x.dst.nBoxes then boxed u { x with crc := crc }
            else u.finishStream c se { x with box := x.box + 1, crc := crc } 0).tick)) ∧
      (s.ringTurn c se x = true →
        let r := (s.group x.group).ring x.a
        let onRing := fun (v : State) (f : Ring → Ring) => v.modGroup x.group fun g => g.modRing x.a f
        (x.kind = .rfill → x.claim = none →
          (r.eos ≠ none → exec (.rfillUnitClaim c se) s = .next (s.stopStream c se x 5).tick) ∧
          (r.eos = none → r.room < r.unit → exec (.rfillUnitClaim c se) s = .next s.tick) ∧
          (∀ cells, r.eos = none → r.unit ≤ r.room → readBox x.issuer s x.amr x.slot x.box = .ok (u, cells) →
            exec (.rfillUnitClaim c se) s = .next ((onRing s fun q => { q with occ := q.occ ++ List.replicate q.unit false }).modQueue c se fun q =>
              { x with claim := some (r.head + r.occ.length) } :: q.drop 1).tick) ∧
          (r.eos = none → r.unit ≤ r.room → readBox x.issuer s x.amr x.slot x.box = .error (.status st) →
            exec (.rfillUnitClaim c se) s = .next (s.stopStream c se x st).tick)) ∧
        (x.kind = .rdrain → ∀ (n : Nat) (v : State) (rs ws : List Loc) (crc : Option Word),
          let full := decide (r.unit ≤ r.count)
          let out := boxWrites x.slot x.box (unplaced x.slot ((List.range n).flatMap fun i => leBytes 4 ((s.group x.group).elemAt r (r.head + i)).toNat))
          (if full then n = r.unit else r.beforeEos = some n) → engOpen x.issuer s [] (rangesOf out) (s.headLost x n) = .ok (u, rs, ws) →
          engPut x.issuer u x.crc out ws = .ok (v, crc) →
          let t := onRing v fun q => { q with head := q.head + n, occ := q.occ.drop n }
          let own := match r.eos with | some e => e.2 | none => 0
          exec (.rdrainUnitTake c se) s = .next (if full then
              if x.box + 1 < x.boxes then t.modQueue c se fun q => { x with box := x.box + 1, crc := crc } :: q.drop 1
              else t.finishStream c se { x with box := x.box + 1, crc := crc } x.status
            else t.finishStream c se { x with crc := crc } (if x.eos = true ∧ own ≠ 0 then own else x.status)).tick) ∧
        (x.kind = .rdrain → r.count < r.unit → r.beforeEos = none → exec (.rdrainUnitTake c se) s = .next s.tick))) ∧
    (∀ (l k : Nat) (cid : BitVec 32) (h : Member) (rest : List Member),
      let ms := sortBy (fun (a b : Member) => decide (a.rec_.rank ≤ b.rec_.rank))
        ((s.members l cid k).filter fun m => m.cmd.stage == .waiting && m.cmd.cancel.isNone)
      ms = h :: rest → (∀ m ∈ ms, s.engineHeld m.cmd.group = false) → (∀ r, r ≤ h.rec_.nrm → ∃ m ∈ ms, m.rec_.rank = r) →
      exec (.collectiveInstanceStart l cid k) s = .next (if collAgrees s ms h then
          let v := s.modMembers ms fun x => { x with stage := .reading (List.replicate x.slot.cellCount 0) }
          { v with insts := v.insts ++ [{ launch := l, cid := cid, k := k, nrm := h.rec_.nrm, primes := ms.map fun m => (s.rankPrimes m).map fun p => p.getD 1, got := [],
                                             groups := ms.map fun m => m.cmd.group }] }
        else s.modMembers ms fun x => { x with stage := .refused }).tick)) ∧
  (∀ (s v u : State) (x y : SCmd) (rs ws : List Loc),
    let l := x.slot
    let es := elementBytes l
    let n := boxElements l
    let o := x.a + x.box * (es * n)
    let inTensor := fun i => (elementAddress l x.box i).isSome
    plainSlot l → x.box < l.nBoxes → x.group < s.groups.length → (s.group x.group).sp.wf = true → s.memOk →
    (engOpen x.issuer s (elementRanges l x.box) [(windowBase + o, es * n)] = .ok (v, rs, [.sp o]) → fillStep s x = .ok (u, y) →
      ∀ off, (u.group x.group).sp.read off =
        if o ≤ off ∧ off < o + es * n then
          let i := (off - o) / es
          if inTensor i then v.engineByte x.group ((rs.getD (elementRank l x.box i) (.sp 0)).plus ((off - o) % es)) else 0
        else (s.group x.group).sp.read off) ∧
    (engOpen x.issuer s [(windowBase + o, es * n)] (elementRanges l x.box) = .ok (v, [.sp o], ws) → drainStep s x = .ok (u, y) →
      v.staged x.group = false → (v.waveLaunch x.wave).r.race = 0 →
      let written := (List.range n).flatMap fun i => if inTensor i then
          match ws[elementRank l x.box i]? with
          | some (.mem pa) => placed pa ((List.range es).map fun k => (s.group x.group).sp.read (o + es * i + k))
          | _ => []
        else []
      ∀ a, u.mem.read a = ((written.reverse.find? fun c => c.1 == a).map fun c => c.2).getD (v.mem.read a)))
end

