-- ==== Sys2Proof/Laws/Encoding.lean ====
section
/-! SUPPORT. What a code of a field names is what was encoded: one lemma per code, and per shape of the modifier field
(spec/02 R37 to R45). -/

namespace Sys2Proof.Laws

@[simp] theorem opnd_ofCode_code (o : Opnd) : Opnd.ofCode o.code = o := by
  cases o with
  | v n => revert n; decide
  | s n => revert n; decide
  | p n => revert n; decide
  | rsvd n => revert n; decide
  | q n => revert n; decide
  | special n => revert n; decide
  | imm n => revert n; decide

@[simp] theorem isVField_code (o : Opnd) : isVField o.code = o.isV := by
  cases o with
  | v n => revert n; decide
  | s n => revert n; decide
  | p n => revert n; decide
  | rsvd n => revert n; decide
  | q n => revert n; decide
  | special n => revert n; decide
  | imm n => revert n; decide

@[simp] theorem isQField_code (o : Opnd) : isQField o.code = o.isQ := by
  cases o with
  | v n => revert n; decide
  | s n => revert n; decide
  | p n => revert n; decide
  | rsvd n => revert n; decide
  | q n => revert n; decide
  | special n => revert n; decide
  | imm n => revert n; decide

/-- A port is no V register. -/
theorem isV_of_isQ {o : Opnd} (h : o.isQ = true) : o.isV = false := by cases o <;> simp_all [Opnd.isQ, Opnd.isV]

@[simp] theorem guard_ofCode_code (g : Guard) : Guard.ofCode g.code = g := by
  obtain ⟨n, p⟩ := g
  revert n p; decide

@[simp] theorem brCond_ofCode_code (c : BrCond) : BrCond.ofCode c.code = some c := by cases c <;> rfl
@[simp] theorem sCond_ofCode_code (c : SCond) : SCond.ofCode c.code = some c := by cases c <;> rfl
@[simp] theorem vCond_ofCode_code (c : VCond) : VCond.ofCode c.code = some c := by cases c <;> rfl
@[simp] theorem vote_ofCode_code (c : VoteMode) : VoteMode.ofCode c.code = some c := by cases c <;> rfl
@[simp] theorem shfl_ofCode_code (c : ShflMode) : ShflMode.ofCode c.code = some c := by cases c <;> rfl
@[simp] theorem tierAct_ofCode_code (c : TierAct) : TierAct.ofCode c.code = some c := by cases c <;> rfl
@[simp] theorem width_ofCode_code (c : Width) : Width.ofCode c.code = some c := by cases c <;> rfl
@[simp] theorem tag_ofCode_code (c : Tag) : Tag.ofCode c.code = c := by cases c <;> rfl
@[simp] theorem scope_ofCode_code (c : Scope) : Scope.ofCode c.code = some c := by cases c <;> rfl
@[simp] theorem order_ofCode_code (c : Order) : Order.ofCode c.code = c := by cases c <;> rfl

/-- The 32 bits of an I-form immediate come back. -/
@[simp] theorem iForm_imm (op : BitVec 10) (ga gb : BitVec 4) (d : BitVec 8) (imm : BitVec 32) (md : BitVec 4) :
    (Fields.iForm op ga gb d imm md).imm = imm := by
  apply BitVec.eq_of_getLsbD_eq
  intro i hi
  unfold Fields.imm Fields.iForm
  simp only [BitVec.getLsbD_append, BitVec.getLsbD_extractLsb']
  interval_cases i <;> simp

@[simp] theorem iForm_modifier (op : BitVec 10) (ga gb : BitVec 4) (d : BitVec 8) (imm : BitVec 32) (md : BitVec 4) :
    (Fields.iForm op ga gb d imm md).m.extractLsb' 0 4 = md := by
  apply BitVec.eq_of_getLsbD_eq
  intro i hi
  unfold Fields.iForm
  simp only [BitVec.getLsbD_append, BitVec.getLsbD_extractLsb']
  interval_cases i <;> simp

@[simp] theorem iForm_op (op : BitVec 10) (ga gb : BitVec 4) (d : BitVec 8) (imm : BitVec 32) (md : BitVec 4) :
    (Fields.iForm op ga gb d imm md).op = op := rfl
@[simp] theorem iForm_ga (op : BitVec 10) (ga gb : BitVec 4) (d : BitVec 8) (imm : BitVec 32) (md : BitVec 4) :
    (Fields.iForm op ga gb d imm md).ga = ga := rfl
@[simp] theorem iForm_gb (op : BitVec 10) (ga gb : BitVec 4) (d : BitVec 8) (imm : BitVec 32) (md : BitVec 4) :
    (Fields.iForm op ga gb d imm md).gb = gb := rfl
@[simp] theorem iForm_d (op : BitVec 10) (ga gb : BitVec 4) (d : BitVec 8) (imm : BitVec 32) (md : BitVec 4) :
    (Fields.iForm op ga gb d imm md).d = d := rfl

/-! The modifier field, by shape -/

@[simp] theorem encOS_order (o : Order) (sc : Scope) (low : BitVec 3) : (encOS o sc low).extractLsb' 6 2 = o.code := by
  cases o <;> cases sc <;> revert low <;> decide
@[simp] theorem encOS_scope (o : Order) (sc : Scope) (low : BitVec 3) : (encOS o sc low).extractLsb' 3 3 = sc.code := by
  cases o <;> cases sc <;> revert low <;> decide
@[simp] theorem encOS_low (o : Order) (sc : Scope) (low : BitVec 3) : (encOS o sc low).extractLsb' 0 3 = low := by
  cases o <;> cases sc <;> revert low <;> decide
@[simp] theorem encFlag_rest (b : Bool) : (encFlag b).extractLsb' 1 7 = 0#7 := by cases b <;> rfl
@[simp] theorem encFlag_bit (b : Bool) : (encFlag b)[0] = b := by cases b <;> rfl
@[simp] theorem encFlag4_rest (b : Bool) : (encFlag4 b).extractLsb' 1 3 = 0#3 := by cases b <;> rfl
@[simp] theorem encFlag4_bit (b : Bool) : (encFlag4 b)[0] = b := by cases b <;> rfl
@[simp] theorem encLow_rest (b : Bool) : (encLow b).extractLsb' 1 2 = 0#2 := by cases b <;> rfl
@[simp] theorem encLow_bit (b : Bool) : (encLow b)[0] = b := by cases b <;> rfl
@[simp] theorem encTag_rest (c : Tag) : (encTag c).extractLsb' 4 4 = 0#4 := by cases c <;> rfl
@[simp] theorem encTag_code (c : Tag) : (encTag c).extractLsb' 0 4 = c.code := by cases c <;> rfl
@[simp] theorem encCvt_rest (c : Tag) (b : Bool) : (encCvt c b).extractLsb' 5 3 = 0#3 := by cases c <;> cases b <;> rfl
@[simp] theorem encCvt_code (c : Tag) (b : Bool) : (encCvt c b).extractLsb' 0 4 = c.code := by cases c <;> cases b <;> rfl
@[simp] theorem encCvt_bit (c : Tag) (b : Bool) : (encCvt c b)[4] = b := by cases c <;> cases b <;> rfl
@[simp] theorem encScope_top (sc : Scope) : (encScope sc).extractLsb' 6 2 = 0#2 := by cases sc <;> rfl
@[simp] theorem encScope_low (sc : Scope) : (encScope sc).extractLsb' 0 3 = 0#3 := by cases sc <;> rfl
@[simp] theorem encScope_code (sc : Scope) : (encScope sc).extractLsb' 3 3 = sc.code := by cases sc <;> rfl
@[simp] theorem encStream_number (n : BitVec 2) (b : Bool) : (encStream n b).extractLsb' 1 2 = n := by
  cases b <;> revert n <;> decide
@[simp] theorem encStream_bit (n : BitVec 2) (b : Bool) : (encStream n b)[0] = b := by
  cases b <;> revert n <;> decide
@[simp] theorem pred_in_e (p : BitVec 3) : (p.setWidth 4).extractLsb' 0 3 = p := by revert p; decide
@[simp] theorem pred_in_e_top (p : BitVec 3) : (p.setWidth 4)[3] = false := by revert p; decide
@[simp] theorem encFlag_second (b : Bool) : (encFlag b)[1] = false := by cases b <;> rfl
@[simp] theorem encScan_top (op : ScanOp) (b : Bool) : (encScan op b).extractLsb' 4 4 = 0#4 := by cases op <;> cases b <;> rfl
@[simp] theorem encScan_op (op : ScanOp) (b : Bool) : (encScan op b).extractLsb' 0 3 = op.code := by cases op <;> cases b <;> rfl
@[simp] theorem encScan_bit (op : ScanOp) (b : Bool) : (encScan op b)[3] = b := by cases op <;> cases b <;> rfl
@[simp] theorem scanOp_ofCode_code (c : ScanOp) : ScanOp.ofCode c.code = some c := by cases c <;> rfl
@[simp] theorem atomOp_ofCode_code (c : AtomOp) : AtomOp.ofCode c.code = c := by cases c <;> rfl
@[simp] theorem waitCond_ofCode_code (c : WaitCond) : WaitCond.ofCode c.code = some c := by cases c <;> rfl
@[simp] theorem encMwaitE_cond (a b : Bool) (c : WaitCond) : (encMwaitE a b c).extractLsb' 0 2 = c.code := by
  cases a <;> cases b <;> cases c <;> rfl
@[simp] theorem encMwaitE_stamp (a b : Bool) (c : WaitCond) : (encMwaitE a b c)[3] = a := by
  cases a <;> cases b <;> cases c <;> rfl
@[simp] theorem encMwaitE_double (a b : Bool) (c : WaitCond) : (encMwaitE a b c)[2] = b := by
  cases a <;> cases b <;> cases c <;> rfl
@[simp] theorem encHalloc_rest (a b : Bool) : (encHalloc a b).extractLsb' 3 5 = 0#5 := by cases a <;> cases b <;> rfl
@[simp] theorem encHalloc_zero (a b : Bool) : (encHalloc a b)[2] = a := by cases a <;> cases b <;> rfl
@[simp] theorem encHalloc_middle (a b : Bool) : (encHalloc a b)[1] = false := by cases a <;> cases b <;> rfl
@[simp] theorem encHalloc_trap (a b : Bool) : (encHalloc a b)[0] = b := by cases a <;> cases b <;> rfl
@[simp] theorem encKind_rfill (b : Bool) : (encKind 4#4 b).extractLsb' 0 3 = 4#3 := by cases b <;> rfl
@[simp] theorem encKind_rdrain (b : Bool) : (encKind 5#4 b).extractLsb' 0 3 = 5#3 := by cases b <;> rfl
@[simp] theorem encKind_rfill_eos (b : Bool) : (encKind 4#4 b)[3] = b := by cases b <;> rfl
@[simp] theorem encKind_rdrain_eos (b : Bool) : (encKind 5#4 b)[3] = b := by cases b <;> rfl
@[simp] theorem bytes_of_half (x : BitVec 16) : x.extractLsb' 8 8 ++ x.extractLsb' 0 8 = x := by
  apply BitVec.eq_of_getLsbD_eq
  intro i hi
  simp only [BitVec.getLsbD_append, BitVec.getLsbD_extractLsb']
  interval_cases i <;> simp
@[simp] theorem wait_top (a b c d : BitVec 6) : (0#8 ++ a ++ b ++ c ++ d).extractLsb' 24 8 = 0#8 := by
  apply BitVec.eq_of_getLsbD_eq
  intro i hi
  simp only [BitVec.getLsbD_append, BitVec.getLsbD_extractLsb']
  interval_cases i <;> simp
@[simp] theorem wait_ld (a b c d : BitVec 6) : (0#8 ++ a ++ b ++ c ++ d).extractLsb' 18 6 = a := by
  apply BitVec.eq_of_getLsbD_eq
  intro i hi
  simp only [BitVec.getLsbD_append, BitVec.getLsbD_extractLsb']
  interval_cases i <;> simp
@[simp] theorem wait_st (a b c d : BitVec 6) : (0#8 ++ a ++ b ++ c ++ d).extractLsb' 12 6 = b := by
  apply BitVec.eq_of_getLsbD_eq
  intro i hi
  simp only [BitVec.getLsbD_append, BitVec.getLsbD_extractLsb']
  interval_cases i <;> simp
@[simp] theorem wait_cp (a b c d : BitVec 6) : (0#8 ++ a ++ b ++ c ++ d).extractLsb' 6 6 = c := by
  apply BitVec.eq_of_getLsbD_eq
  intro i hi
  simp only [BitVec.getLsbD_append, BitVec.getLsbD_extractLsb']
  interval_cases i <;> simp
@[simp] theorem wait_tl (a b c d : BitVec 6) : (0#8 ++ a ++ b ++ c ++ d).extractLsb' 0 6 = d := by
  apply BitVec.eq_of_getLsbD_eq
  intro i hi
  simp only [BitVec.getLsbD_append, BitVec.getLsbD_extractLsb']
  interval_cases i <;> simp
@[simp] theorem code_in_m_top (c : BitVec 6) : (c.setWidth 8).extractLsb' 6 2 = 0#2 := by revert c; decide
@[simp] theorem code_in_m (c : BitVec 6) : (c.setWidth 8).extractLsb' 0 6 = c := by revert c; decide
@[simp] theorem encOS_plain_top (low : BitVec 3) : (encOS .rlx .wave low).extractLsb' 3 5 = 0#5 := by revert low; decide
@[simp] theorem encOS_plain_bit (low : BitVec 3) : (encOS .rlx .wave low)[0] = low[0] := by revert low; decide
@[simp] theorem die_in_m (d : BitVec 2) : (d.setWidth 3).extractLsb' 0 2 = d := by revert d; decide

end Sys2Proof.Laws
end

