-- ==== Sys2Proof/Laws/Memory.lean ====
section
/-! SUPPORT. Memory as a canonical list of bytes: what a read after each operation gives, and that every memory operation
keeps the canonical form (log entry 1). -/

namespace Sys2Proof.Machine

theorem Memory.above_iff (a : Nat) (m : Memory) : Memory.above a m = true ↔ ∀ c ∈ m, a < c.1 := by
  simp [Memory.above]

theorem Memory.wf_cons (a : Nat) (x : Byte) (t : Memory) :
    Memory.wf ((a, x) :: t) = true ↔ x ≠ 0#8 ∧ Memory.above a t = true ∧ Memory.wf t = true := by
  simp [Memory.wf, and_assoc]

theorem Memory.above_le {a b : Nat} {m : Memory} (h : a ≤ b) (hb : Memory.above b m = true) : Memory.above a m = true := by
  rw [Memory.above_iff] at *
  exact fun c hc => lt_of_le_of_lt h (hb c hc)

/-! Putting a byte in front -/

theorem Memory.wf_of_cons {a : Nat} {x : Byte} {m : Memory} (ha : Memory.above a m = true) (hm : Memory.wf m = true) :
    Memory.wf (Memory.cons a x m) = true := by
  unfold Memory.cons
  split
  · exact hm
  · exact (Memory.wf_cons ..).2 ⟨‹_›, ha, hm⟩

theorem Memory.above_of_cons {k a : Nat} {x : Byte} {m : Memory} (hk : k < a) (hm : Memory.above k m = true) :
    Memory.above k (Memory.cons a x m) = true := by
  unfold Memory.cons
  split
  · exact hm
  · simp [Memory.above] at *; exact ⟨hk, hm⟩

theorem Memory.read_of_above {a : Nat} {m : Memory} (h : Memory.above a m = true) : m.read a = 0#8 := by
  cases m with
  | nil => rfl
  | cons c t =>
    obtain ⟨k, b⟩ := c
    have hk := (Memory.above_iff ..).1 h (k, b) (by simp)
    simp only at hk
    simp [Memory.read, hk, Nat.ne_of_gt hk]

theorem Memory.read_cons_same {a : Nat} {x : Byte} {m : Memory} (h : Memory.above a m = true) :
    Memory.read (Memory.cons a x m) a = x := by
  unfold Memory.cons
  split
  · rw [Memory.read_of_above h]; exact (‹x = _›).symm
  · simp [Memory.read]

theorem Memory.read_cons_ne {a b : Nat} {x : Byte} {m : Memory} (h : Memory.above a m = true) (hb : b ≠ a) :
    Memory.read (Memory.cons a x m) b = m.read b := by
  unfold Memory.cons
  split
  · rfl
  · simp only [Memory.read]
    rw [if_neg (Ne.symm hb)]
    split
    · exact (Memory.read_of_above (Memory.above_le (Nat.le_of_lt ‹_›) h)).symm
    · rfl

/-! One byte written -/

theorem Memory.above_write {k a : Nat} {x : Byte} {m : Memory} (hk : k < a) (hm : Memory.above k m = true) :
    Memory.above k (m.write a x) = true := by
  induction m with
  | nil => exact Memory.above_of_cons hk rfl
  | cons c t ih =>
    obtain ⟨j, b⟩ := c
    have ht : Memory.above k t = true := by simp [Memory.above] at *; exact hm.2
    have hj : k < j := (Memory.above_iff ..).1 hm (j, b) (by simp)
    simp only [Memory.write]
    split
    · exact Memory.above_of_cons hk hm
    · split
      · exact Memory.above_of_cons hk ht
      · have := ih ht
        simp [Memory.above] at *
        exact ⟨hj, this⟩

theorem Memory.write_wf {m : Memory} (h : m.wf = true) (a : Nat) (x : Byte) : (m.write a x).wf = true := by
  induction m with
  | nil => exact Memory.wf_of_cons rfl rfl
  | cons c t ih =>
    obtain ⟨k, b⟩ := c
    obtain ⟨hb, ha, ht⟩ := (Memory.wf_cons ..).1 h
    simp only [Memory.write]
    split
    · refine Memory.wf_of_cons ?_ h
      have := Memory.above_le (Nat.le_of_lt ‹a < k›) ha
      simp [Memory.above] at *
      exact ⟨‹a < k›, this⟩
    · split
      · exact Memory.wf_of_cons (‹a = k› ▸ ha) ht
      · exact (Memory.wf_cons ..).2 ⟨hb, Memory.above_write (by omega) ha, ih ht⟩

theorem Memory.read_write_same {m : Memory} (h : m.wf = true) (a : Nat) (x : Byte) : (m.write a x).read a = x := by
  induction m with
  | nil => exact Memory.read_cons_same rfl
  | cons c t ih =>
    obtain ⟨k, b⟩ := c
    obtain ⟨hb, ha, ht⟩ := (Memory.wf_cons ..).1 h
    simp only [Memory.write]
    split
    · refine Memory.read_cons_same ?_
      have := Memory.above_le (Nat.le_of_lt ‹a < k›) ha
      simp [Memory.above] at *
      exact ⟨‹a < k›, this⟩
    · split
      · exact Memory.read_cons_same (‹a = k› ▸ ha)
      · simp only [Memory.read]
        rw [if_neg (by omega), if_neg (by omega)]
        exact ih ht

theorem Memory.read_write_ne {m : Memory} (h : m.wf = true) {a b : Nat} (x : Byte) (hab : b ≠ a) :
    (m.write a x).read b = m.read b := by
  induction m with
  | nil => exact Memory.read_cons_ne rfl hab
  | cons c t ih =>
    obtain ⟨k, y⟩ := c
    obtain ⟨hb, ha, ht⟩ := (Memory.wf_cons ..).1 h
    simp only [Memory.write]
    split
    · refine Memory.read_cons_ne ?_ hab
      have := Memory.above_le (Nat.le_of_lt ‹a < k›) ha
      simp [Memory.above] at *
      exact ⟨‹a < k›, this⟩
    · split
      · rw [Memory.read_cons_ne (‹a = k› ▸ ha) hab]
        simp only [Memory.read]
        rw [if_neg (by omega)]
        split
        · exact Memory.read_of_above (Memory.above_le (Nat.le_of_lt ‹_›) ha)
        · rfl
      · simp only [Memory.read, ih ht]

/-- A write of one byte, read anywhere. -/
theorem Memory.read_write {m : Memory} (h : m.wf = true) (a b : Nat) (x : Byte) :
    (m.write a x).read b = if b = a then x else m.read b := by
  split
  · rw [‹b = a›, Memory.read_write_same h]
  · exact Memory.read_write_ne h x ‹_›

/-! Several bytes written -/

theorem Memory.foldl_write_wf {α : Type} (l : List α) (p : α → Nat) (q : α → Byte) {m : Memory} (h : m.wf = true) :
    Memory.wf (l.foldl (fun acc c => Memory.write acc (p c) (q c)) m) = true := by
  induction l generalizing m with
  | nil => exact h
  | cons c t ih => exact ih (Memory.write_wf h ..)

theorem Memory.writeAll_wf {m : Memory} (h : m.wf = true) (bs : List (Nat × Byte)) : (m.writeAll bs).wf = true :=
  Memory.foldl_write_wf bs Prod.fst Prod.snd h

/-- A write leaves every other byte alone. -/
theorem Memory.read_writeAll_other {m : Memory} (h : m.wf = true) (bs : List (Nat × Byte)) {a : Nat}
    (ha : ∀ c ∈ bs, c.1 ≠ a) : (m.writeAll bs).read a = m.read a := by
  induction bs generalizing m with
  | nil => rfl
  | cons c t ih =>
    have hc : a ≠ c.1 := fun e => ha c (by simp) e.symm
    have ht : ∀ d ∈ t, d.1 ≠ a := fun d hd => ha d (by simp [hd])
    calc (m.writeAll (c :: t)).read a = ((m.write c.1 c.2).writeAll t).read a := rfl
      _ = (m.write c.1 c.2).read a := ih (Memory.write_wf h ..) ht
      _ = m.read a := Memory.read_write_ne h _ hc

/-- The last byte written at an address is what it reads. -/
theorem Memory.read_writeAll_last {m : Memory} (h : m.wf = true) (bs cs : List (Nat × Byte)) (a : Nat) (x : Byte)
    (ha : ∀ c ∈ cs, c.1 ≠ a) : (m.writeAll (bs ++ (a, x) :: cs)).read a = x := by
  have e : m.writeAll (bs ++ (a, x) :: cs) = ((m.writeAll bs).write a x).writeAll cs := by
    simp [Memory.writeAll, List.foldl_append]
  rw [e, Memory.read_writeAll_other (Memory.write_wf (Memory.writeAll_wf h bs) ..) _ ha,
    Memory.read_write_same (Memory.writeAll_wf h bs)]

/-! Parts of memory dropped, copied, or moved to another rank's window -/

theorem Memory.filter_wf {m : Memory} (h : m.wf = true) (f : Host.Cell → Bool) : Memory.wf (m.filter f) = true := by
  induction m with
  | nil => rfl
  | cons c t ih =>
    obtain ⟨k, b⟩ := c
    obtain ⟨hb, ha, ht⟩ := (Memory.wf_cons ..).1 h
    simp only [List.filter]
    split
    · refine (Memory.wf_cons ..).2 ⟨hb, ?_, ih ht⟩
      rw [Memory.above_iff] at *
      exact fun c hc => ha c (List.mem_filter.1 hc).1
    · exact ih ht

theorem Memory.copy_wf {m : Memory} (h : m.wf = true) (src dst n : Nat) : (m.copy src dst n).wf = true :=
  Memory.foldl_write_wf _ _ _ (Memory.filter_wf h _)

theorem Memory.rerank_wf {m : Memory} (h : m.wf = true) (own new : Nat) : (m.rerank own new).wf = true :=
  Memory.foldl_write_wf _ _ _ (Memory.filter_wf h _)

/-! Two canonical memories that read alike are one -/

theorem Memory.ext {m n : Memory} (hm : m.wf = true) (hn : n.wf = true) (h : ∀ a, m.read a = n.read a) : m = n := by
  induction m generalizing n with
  | nil =>
    cases n with
    | nil => rfl
    | cons c t =>
      obtain ⟨k, b⟩ := c
      have := h k
      simp [Memory.read] at this
      exact absurd this.symm ((Memory.wf_cons ..).1 hn).1
  | cons c t ih =>
    obtain ⟨k, b⟩ := c
    obtain ⟨hb, ha, ht⟩ := (Memory.wf_cons ..).1 hm
    cases n with
    | nil =>
      have := h k
      simp [Memory.read] at this
      exact absurd this hb
    | cons d u =>
      obtain ⟨j, e⟩ := d
      obtain ⟨he, hj, hu⟩ := (Memory.wf_cons ..).1 hn
      have kj : k = j := by
        rcases Nat.lt_trichotomy k j with l | l | l
        · have := h k
          simp [Memory.read, l, Nat.ne_of_gt l] at this
          exact absurd this hb
        · exact l
        · have := h j
          simp [Memory.read, l, Nat.ne_of_gt l] at this
          exact absurd this.symm he
      subst kj
      have be : b = e := by simpa [Memory.read] using h k
      subst be
      congr 1
      refine ih ht hu fun a => ?_
      rcases Nat.lt_trichotomy a k with l | l | l
      · rw [Memory.read_of_above (Memory.above_le (Nat.le_of_lt l) ha), Memory.read_of_above (Memory.above_le (Nat.le_of_lt l) hj)]
      · subst l; rw [Memory.read_of_above ha, Memory.read_of_above hj]
      · have := h a
        simpa [Memory.read, Nat.ne_of_lt l, Nat.not_lt.2 (Nat.le_of_lt l)] using this

/-! The machine's memory -/

theorem reset_mem_wf : Memory.wf State.reset.mem = true := rfl

theorem writeMem_wf {s : State} (h : s.mem.wf = true) (bs : List (Nat × Byte)) : (s.writeMem bs).mem.wf = true :=
  Memory.writeAll_wf h bs

/-- A write of bytes leaves every byte outside them alone. -/
theorem writeMem_read_other {s : State} (h : s.mem.wf = true) (bs : List (Nat × Byte)) {a : Nat} (ha : ∀ c ∈ bs, c.1 ≠ a) :
    (s.writeMem bs).mem.read a = s.mem.read a := Memory.read_writeAll_other h bs ha

theorem putLe_wf {s : State} (h : s.mem.wf = true) (pa n x : Nat) : (s.putLe pa n x).mem.wf = true := writeMem_wf h _

theorem foldl_putLe_wf {α : Type} (l : List α) (p n x : α → Nat) {s : State} (h : s.mem.wf = true) :
    (l.foldl (fun s q => s.putLe (p q) (n q) (x q)) s).mem.wf = true := by
  induction l generalizing s with
  | nil => exact h
  | cons c t ih => exact ih (putLe_wf h ..)

theorem writeGroup_wf {s : State} (h : s.mem.wf = true) (pa level : Nat) (sz : Bool) (raw : Nat) :
    (s.writeGroup pa level sz raw).mem.wf = true := foldl_putLe_wf _ id (fun _ => 8) (fun _ => raw) h

end Sys2Proof.Machine
end

