-- ==== Sys2Proof/Laws/State.lean ====
section
/-! SUPPORT. Each update of State and of a wave, field by field: what it changes and what it leaves, so that no later proof
unfolds a record update. -/

namespace Sys2Proof.Machine

/-! Updates of State: the fields each leaves alone -/

@[simp] theorem setWave_mem (s : State) (w : Nat) (x : Wave) : (s.setWave w x).mem = s.mem := rfl
@[simp] theorem setWave_lost (s : State) (w : Nat) (x : Wave) : (s.setWave w x).lost = s.lost := rfl
@[simp] theorem setWave_ctl (s : State) (w : Nat) (x : Wave) : (s.setWave w x).ctl = s.ctl := rfl
@[simp] theorem setWave_dies (s : State) (w : Nat) (x : Wave) : (s.setWave w x).dies = s.dies := rfl
@[simp] theorem setWave_quads (s : State) (w : Nat) (x : Wave) : (s.setWave w x).quads = s.quads := rfl
@[simp] theorem setWave_parts (s : State) (w : Nat) (x : Wave) : (s.setWave w x).parts = s.parts := rfl
@[simp] theorem setWave_launches (s : State) (w : Nat) (x : Wave) : (s.setWave w x).launches = s.launches := rfl
@[simp] theorem setWave_insts (s : State) (w : Nat) (x : Wave) : (s.setWave w x).insts = s.insts := rfl
@[simp] theorem setWave_collIssued (s : State) (w : Nat) (x : Wave) : (s.setWave w x).collIssued = s.collIssued := rfl
@[simp] theorem setWave_collGone (s : State) (w : Nat) (x : Wave) : (s.setWave w x).collGone = s.collGone := rfl
@[simp] theorem setWave_groups (s : State) (w : Nat) (x : Wave) : (s.setWave w x).groups = s.groups := rfl
@[simp] theorem setWave_cores (s : State) (w : Nat) (x : Wave) : (s.setWave w x).cores = s.cores := rfl
@[simp] theorem setWave_agenda (s : State) (w : Nat) (x : Wave) : (s.setWave w x).agenda = s.agenda := rfl
@[simp] theorem setWave_acting (s : State) (w : Nat) (x : Wave) : (s.setWave w x).acting = s.acting := rfl
@[simp] theorem setWave_fresh (s : State) (w : Nat) (x : Wave) : (s.setWave w x).fresh = s.fresh := rfl

@[simp] theorem modWave_mem (s : State) (w : Nat) (f : Wave → Wave) : (s.modWave w f).mem = s.mem := rfl
@[simp] theorem modWave_lost (s : State) (w : Nat) (f : Wave → Wave) : (s.modWave w f).lost = s.lost := rfl
@[simp] theorem modWave_ctl (s : State) (w : Nat) (f : Wave → Wave) : (s.modWave w f).ctl = s.ctl := rfl
@[simp] theorem modWave_dies (s : State) (w : Nat) (f : Wave → Wave) : (s.modWave w f).dies = s.dies := rfl
@[simp] theorem modWave_quads (s : State) (w : Nat) (f : Wave → Wave) : (s.modWave w f).quads = s.quads := rfl
@[simp] theorem modWave_parts (s : State) (w : Nat) (f : Wave → Wave) : (s.modWave w f).parts = s.parts := rfl
@[simp] theorem modWave_launches (s : State) (w : Nat) (f : Wave → Wave) : (s.modWave w f).launches = s.launches := rfl
@[simp] theorem modWave_insts (s : State) (w : Nat) (f : Wave → Wave) : (s.modWave w f).insts = s.insts := rfl
@[simp] theorem modWave_collIssued (s : State) (w : Nat) (f : Wave → Wave) : (s.modWave w f).collIssued = s.collIssued := rfl
@[simp] theorem modWave_collGone (s : State) (w : Nat) (f : Wave → Wave) : (s.modWave w f).collGone = s.collGone := rfl
@[simp] theorem modWave_groups (s : State) (w : Nat) (f : Wave → Wave) : (s.modWave w f).groups = s.groups := rfl
@[simp] theorem modWave_cores (s : State) (w : Nat) (f : Wave → Wave) : (s.modWave w f).cores = s.cores := rfl
@[simp] theorem modWave_agenda (s : State) (w : Nat) (f : Wave → Wave) : (s.modWave w f).agenda = s.agenda := rfl
@[simp] theorem modWave_acting (s : State) (w : Nat) (f : Wave → Wave) : (s.modWave w f).acting = s.acting := rfl
@[simp] theorem modWave_fresh (s : State) (w : Nat) (f : Wave → Wave) : (s.modWave w f).fresh = s.fresh := rfl

@[simp] theorem setGroup_mem (s : State) (g : Nat) (x : Group) : (s.setGroup g x).mem = s.mem := rfl
@[simp] theorem setGroup_lost (s : State) (g : Nat) (x : Group) : (s.setGroup g x).lost = s.lost := rfl
@[simp] theorem setGroup_ctl (s : State) (g : Nat) (x : Group) : (s.setGroup g x).ctl = s.ctl := rfl
@[simp] theorem setGroup_dies (s : State) (g : Nat) (x : Group) : (s.setGroup g x).dies = s.dies := rfl
@[simp] theorem setGroup_quads (s : State) (g : Nat) (x : Group) : (s.setGroup g x).quads = s.quads := rfl
@[simp] theorem setGroup_parts (s : State) (g : Nat) (x : Group) : (s.setGroup g x).parts = s.parts := rfl
@[simp] theorem setGroup_launches (s : State) (g : Nat) (x : Group) : (s.setGroup g x).launches = s.launches := rfl
@[simp] theorem setGroup_insts (s : State) (g : Nat) (x : Group) : (s.setGroup g x).insts = s.insts := rfl
@[simp] theorem setGroup_collIssued (s : State) (g : Nat) (x : Group) : (s.setGroup g x).collIssued = s.collIssued := rfl
@[simp] theorem setGroup_collGone (s : State) (g : Nat) (x : Group) : (s.setGroup g x).collGone = s.collGone := rfl
@[simp] theorem setGroup_cores (s : State) (g : Nat) (x : Group) : (s.setGroup g x).cores = s.cores := rfl
@[simp] theorem setGroup_waves (s : State) (g : Nat) (x : Group) : (s.setGroup g x).waves = s.waves := rfl
@[simp] theorem setGroup_agenda (s : State) (g : Nat) (x : Group) : (s.setGroup g x).agenda = s.agenda := rfl
@[simp] theorem setGroup_acting (s : State) (g : Nat) (x : Group) : (s.setGroup g x).acting = s.acting := rfl
@[simp] theorem setGroup_fresh (s : State) (g : Nat) (x : Group) : (s.setGroup g x).fresh = s.fresh := rfl

@[simp] theorem modGroup_mem (s : State) (g : Nat) (f : Group → Group) : (s.modGroup g f).mem = s.mem := rfl
@[simp] theorem modGroup_lost (s : State) (g : Nat) (f : Group → Group) : (s.modGroup g f).lost = s.lost := rfl
@[simp] theorem modGroup_ctl (s : State) (g : Nat) (f : Group → Group) : (s.modGroup g f).ctl = s.ctl := rfl
@[simp] theorem modGroup_dies (s : State) (g : Nat) (f : Group → Group) : (s.modGroup g f).dies = s.dies := rfl
@[simp] theorem modGroup_quads (s : State) (g : Nat) (f : Group → Group) : (s.modGroup g f).quads = s.quads := rfl
@[simp] theorem modGroup_parts (s : State) (g : Nat) (f : Group → Group) : (s.modGroup g f).parts = s.parts := rfl
@[simp] theorem modGroup_launches (s : State) (g : Nat) (f : Group → Group) : (s.modGroup g f).launches = s.launches := rfl
@[simp] theorem modGroup_insts (s : State) (g : Nat) (f : Group → Group) : (s.modGroup g f).insts = s.insts := rfl
@[simp] theorem modGroup_collIssued (s : State) (g : Nat) (f : Group → Group) : (s.modGroup g f).collIssued = s.collIssued := rfl
@[simp] theorem modGroup_collGone (s : State) (g : Nat) (f : Group → Group) : (s.modGroup g f).collGone = s.collGone := rfl
@[simp] theorem modGroup_cores (s : State) (g : Nat) (f : Group → Group) : (s.modGroup g f).cores = s.cores := rfl
@[simp] theorem modGroup_waves (s : State) (g : Nat) (f : Group → Group) : (s.modGroup g f).waves = s.waves := rfl
@[simp] theorem modGroup_agenda (s : State) (g : Nat) (f : Group → Group) : (s.modGroup g f).agenda = s.agenda := rfl
@[simp] theorem modGroup_acting (s : State) (g : Nat) (f : Group → Group) : (s.modGroup g f).acting = s.acting := rfl
@[simp] theorem modGroup_fresh (s : State) (g : Nat) (f : Group → Group) : (s.modGroup g f).fresh = s.fresh := rfl

@[simp] theorem setLaunch_mem (s : State) (l : Nat) (x : Launch) : (s.setLaunch l x).mem = s.mem := rfl
@[simp] theorem setLaunch_lost (s : State) (l : Nat) (x : Launch) : (s.setLaunch l x).lost = s.lost := rfl
@[simp] theorem setLaunch_ctl (s : State) (l : Nat) (x : Launch) : (s.setLaunch l x).ctl = s.ctl := rfl
@[simp] theorem setLaunch_dies (s : State) (l : Nat) (x : Launch) : (s.setLaunch l x).dies = s.dies := rfl
@[simp] theorem setLaunch_quads (s : State) (l : Nat) (x : Launch) : (s.setLaunch l x).quads = s.quads := rfl
@[simp] theorem setLaunch_parts (s : State) (l : Nat) (x : Launch) : (s.setLaunch l x).parts = s.parts := rfl
@[simp] theorem setLaunch_insts (s : State) (l : Nat) (x : Launch) : (s.setLaunch l x).insts = s.insts := rfl
@[simp] theorem setLaunch_collIssued (s : State) (l : Nat) (x : Launch) : (s.setLaunch l x).collIssued = s.collIssued := rfl
@[simp] theorem setLaunch_collGone (s : State) (l : Nat) (x : Launch) : (s.setLaunch l x).collGone = s.collGone := rfl
@[simp] theorem setLaunch_groups (s : State) (l : Nat) (x : Launch) : (s.setLaunch l x).groups = s.groups := rfl
@[simp] theorem setLaunch_cores (s : State) (l : Nat) (x : Launch) : (s.setLaunch l x).cores = s.cores := rfl
@[simp] theorem setLaunch_waves (s : State) (l : Nat) (x : Launch) : (s.setLaunch l x).waves = s.waves := rfl
@[simp] theorem setLaunch_agenda (s : State) (l : Nat) (x : Launch) : (s.setLaunch l x).agenda = s.agenda := rfl
@[simp] theorem setLaunch_acting (s : State) (l : Nat) (x : Launch) : (s.setLaunch l x).acting = s.acting := rfl
@[simp] theorem setLaunch_fresh (s : State) (l : Nat) (x : Launch) : (s.setLaunch l x).fresh = s.fresh := rfl

@[simp] theorem modLaunch_mem (s : State) (l : Nat) (f : Launch → Launch) : (s.modLaunch l f).mem = s.mem := rfl
@[simp] theorem modLaunch_lost (s : State) (l : Nat) (f : Launch → Launch) : (s.modLaunch l f).lost = s.lost := rfl
@[simp] theorem modLaunch_ctl (s : State) (l : Nat) (f : Launch → Launch) : (s.modLaunch l f).ctl = s.ctl := rfl
@[simp] theorem modLaunch_dies (s : State) (l : Nat) (f : Launch → Launch) : (s.modLaunch l f).dies = s.dies := rfl
@[simp] theorem modLaunch_quads (s : State) (l : Nat) (f : Launch → Launch) : (s.modLaunch l f).quads = s.quads := rfl
@[simp] theorem modLaunch_parts (s : State) (l : Nat) (f : Launch → Launch) : (s.modLaunch l f).parts = s.parts := rfl
@[simp] theorem modLaunch_insts (s : State) (l : Nat) (f : Launch → Launch) : (s.modLaunch l f).insts = s.insts := rfl
@[simp] theorem modLaunch_collIssued (s : State) (l : Nat) (f : Launch → Launch) : (s.modLaunch l f).collIssued = s.collIssued := rfl
@[simp] theorem modLaunch_collGone (s : State) (l : Nat) (f : Launch → Launch) : (s.modLaunch l f).collGone = s.collGone := rfl
@[simp] theorem modLaunch_groups (s : State) (l : Nat) (f : Launch → Launch) : (s.modLaunch l f).groups = s.groups := rfl
@[simp] theorem modLaunch_cores (s : State) (l : Nat) (f : Launch → Launch) : (s.modLaunch l f).cores = s.cores := rfl
@[simp] theorem modLaunch_waves (s : State) (l : Nat) (f : Launch → Launch) : (s.modLaunch l f).waves = s.waves := rfl
@[simp] theorem modLaunch_agenda (s : State) (l : Nat) (f : Launch → Launch) : (s.modLaunch l f).agenda = s.agenda := rfl
@[simp] theorem modLaunch_acting (s : State) (l : Nat) (f : Launch → Launch) : (s.modLaunch l f).acting = s.acting := rfl
@[simp] theorem modLaunch_fresh (s : State) (l : Nat) (f : Launch → Launch) : (s.modLaunch l f).fresh = s.fresh := rfl

@[simp] theorem setCore_mem (s : State) (c : Nat) (x : Core) : (s.setCore c x).mem = s.mem := rfl
@[simp] theorem setCore_lost (s : State) (c : Nat) (x : Core) : (s.setCore c x).lost = s.lost := rfl
@[simp] theorem setCore_ctl (s : State) (c : Nat) (x : Core) : (s.setCore c x).ctl = s.ctl := rfl
@[simp] theorem setCore_dies (s : State) (c : Nat) (x : Core) : (s.setCore c x).dies = s.dies := rfl
@[simp] theorem setCore_quads (s : State) (c : Nat) (x : Core) : (s.setCore c x).quads = s.quads := rfl
@[simp] theorem setCore_parts (s : State) (c : Nat) (x : Core) : (s.setCore c x).parts = s.parts := rfl
@[simp] theorem setCore_launches (s : State) (c : Nat) (x : Core) : (s.setCore c x).launches = s.launches := rfl
@[simp] theorem setCore_insts (s : State) (c : Nat) (x : Core) : (s.setCore c x).insts = s.insts := rfl
@[simp] theorem setCore_collIssued (s : State) (c : Nat) (x : Core) : (s.setCore c x).collIssued = s.collIssued := rfl
@[simp] theorem setCore_collGone (s : State) (c : Nat) (x : Core) : (s.setCore c x).collGone = s.collGone := rfl
@[simp] theorem setCore_groups (s : State) (c : Nat) (x : Core) : (s.setCore c x).groups = s.groups := rfl
@[simp] theorem setCore_waves (s : State) (c : Nat) (x : Core) : (s.setCore c x).waves = s.waves := rfl
@[simp] theorem setCore_agenda (s : State) (c : Nat) (x : Core) : (s.setCore c x).agenda = s.agenda := rfl
@[simp] theorem setCore_acting (s : State) (c : Nat) (x : Core) : (s.setCore c x).acting = s.acting := rfl
@[simp] theorem setCore_fresh (s : State) (c : Nat) (x : Core) : (s.setCore c x).fresh = s.fresh := rfl

@[simp] theorem modCore_mem (s : State) (c : Nat) (f : Core → Core) : (s.modCore c f).mem = s.mem := rfl
@[simp] theorem modCore_lost (s : State) (c : Nat) (f : Core → Core) : (s.modCore c f).lost = s.lost := rfl
@[simp] theorem modCore_ctl (s : State) (c : Nat) (f : Core → Core) : (s.modCore c f).ctl = s.ctl := rfl
@[simp] theorem modCore_dies (s : State) (c : Nat) (f : Core → Core) : (s.modCore c f).dies = s.dies := rfl
@[simp] theorem modCore_quads (s : State) (c : Nat) (f : Core → Core) : (s.modCore c f).quads = s.quads := rfl
@[simp] theorem modCore_parts (s : State) (c : Nat) (f : Core → Core) : (s.modCore c f).parts = s.parts := rfl
@[simp] theorem modCore_launches (s : State) (c : Nat) (f : Core → Core) : (s.modCore c f).launches = s.launches := rfl
@[simp] theorem modCore_insts (s : State) (c : Nat) (f : Core → Core) : (s.modCore c f).insts = s.insts := rfl
@[simp] theorem modCore_collIssued (s : State) (c : Nat) (f : Core → Core) : (s.modCore c f).collIssued = s.collIssued := rfl
@[simp] theorem modCore_collGone (s : State) (c : Nat) (f : Core → Core) : (s.modCore c f).collGone = s.collGone := rfl
@[simp] theorem modCore_groups (s : State) (c : Nat) (f : Core → Core) : (s.modCore c f).groups = s.groups := rfl
@[simp] theorem modCore_waves (s : State) (c : Nat) (f : Core → Core) : (s.modCore c f).waves = s.waves := rfl
@[simp] theorem modCore_agenda (s : State) (c : Nat) (f : Core → Core) : (s.modCore c f).agenda = s.agenda := rfl
@[simp] theorem modCore_acting (s : State) (c : Nat) (f : Core → Core) : (s.modCore c f).acting = s.acting := rfl
@[simp] theorem modCore_fresh (s : State) (c : Nat) (f : Core → Core) : (s.modCore c f).fresh = s.fresh := rfl

@[simp] theorem modMx_mem (s : State) (c : Nat) (f : Matrix → Matrix) : (s.modMx c f).mem = s.mem := rfl
@[simp] theorem modMx_lost (s : State) (c : Nat) (f : Matrix → Matrix) : (s.modMx c f).lost = s.lost := rfl
@[simp] theorem modMx_ctl (s : State) (c : Nat) (f : Matrix → Matrix) : (s.modMx c f).ctl = s.ctl := rfl
@[simp] theorem modMx_dies (s : State) (c : Nat) (f : Matrix → Matrix) : (s.modMx c f).dies = s.dies := rfl
@[simp] theorem modMx_quads (s : State) (c : Nat) (f : Matrix → Matrix) : (s.modMx c f).quads = s.quads := rfl
@[simp] theorem modMx_parts (s : State) (c : Nat) (f : Matrix → Matrix) : (s.modMx c f).parts = s.parts := rfl
@[simp] theorem modMx_launches (s : State) (c : Nat) (f : Matrix → Matrix) : (s.modMx c f).launches = s.launches := rfl
@[simp] theorem modMx_insts (s : State) (c : Nat) (f : Matrix → Matrix) : (s.modMx c f).insts = s.insts := rfl
@[simp] theorem modMx_collIssued (s : State) (c : Nat) (f : Matrix → Matrix) : (s.modMx c f).collIssued = s.collIssued := rfl
@[simp] theorem modMx_collGone (s : State) (c : Nat) (f : Matrix → Matrix) : (s.modMx c f).collGone = s.collGone := rfl
@[simp] theorem modMx_groups (s : State) (c : Nat) (f : Matrix → Matrix) : (s.modMx c f).groups = s.groups := rfl
@[simp] theorem modMx_waves (s : State) (c : Nat) (f : Matrix → Matrix) : (s.modMx c f).waves = s.waves := rfl
@[simp] theorem modMx_agenda (s : State) (c : Nat) (f : Matrix → Matrix) : (s.modMx c f).agenda = s.agenda := rfl
@[simp] theorem modMx_acting (s : State) (c : Nat) (f : Matrix → Matrix) : (s.modMx c f).acting = s.acting := rfl
@[simp] theorem modMx_fresh (s : State) (c : Nat) (f : Matrix → Matrix) : (s.modMx c f).fresh = s.fresh := rfl

@[simp] theorem setPart_mem (s : State) (p : Nat) (x : Partition) : (s.setPart p x).mem = s.mem := rfl
@[simp] theorem setPart_lost (s : State) (p : Nat) (x : Partition) : (s.setPart p x).lost = s.lost := rfl
@[simp] theorem setPart_ctl (s : State) (p : Nat) (x : Partition) : (s.setPart p x).ctl = s.ctl := rfl
@[simp] theorem setPart_dies (s : State) (p : Nat) (x : Partition) : (s.setPart p x).dies = s.dies := rfl
@[simp] theorem setPart_quads (s : State) (p : Nat) (x : Partition) : (s.setPart p x).quads = s.quads := rfl
@[simp] theorem setPart_launches (s : State) (p : Nat) (x : Partition) : (s.setPart p x).launches = s.launches := rfl
@[simp] theorem setPart_insts (s : State) (p : Nat) (x : Partition) : (s.setPart p x).insts = s.insts := rfl
@[simp] theorem setPart_collIssued (s : State) (p : Nat) (x : Partition) : (s.setPart p x).collIssued = s.collIssued := rfl
@[simp] theorem setPart_collGone (s : State) (p : Nat) (x : Partition) : (s.setPart p x).collGone = s.collGone := rfl
@[simp] theorem setPart_groups (s : State) (p : Nat) (x : Partition) : (s.setPart p x).groups = s.groups := rfl
@[simp] theorem setPart_cores (s : State) (p : Nat) (x : Partition) : (s.setPart p x).cores = s.cores := rfl
@[simp] theorem setPart_waves (s : State) (p : Nat) (x : Partition) : (s.setPart p x).waves = s.waves := rfl
@[simp] theorem setPart_agenda (s : State) (p : Nat) (x : Partition) : (s.setPart p x).agenda = s.agenda := rfl
@[simp] theorem setPart_acting (s : State) (p : Nat) (x : Partition) : (s.setPart p x).acting = s.acting := rfl
@[simp] theorem setPart_fresh (s : State) (p : Nat) (x : Partition) : (s.setPart p x).fresh = s.fresh := rfl

@[simp] theorem modPart_mem (s : State) (p : Nat) (f : Partition → Partition) : (s.modPart p f).mem = s.mem := rfl
@[simp] theorem modPart_lost (s : State) (p : Nat) (f : Partition → Partition) : (s.modPart p f).lost = s.lost := rfl
@[simp] theorem modPart_ctl (s : State) (p : Nat) (f : Partition → Partition) : (s.modPart p f).ctl = s.ctl := rfl
@[simp] theorem modPart_dies (s : State) (p : Nat) (f : Partition → Partition) : (s.modPart p f).dies = s.dies := rfl
@[simp] theorem modPart_quads (s : State) (p : Nat) (f : Partition → Partition) : (s.modPart p f).quads = s.quads := rfl
@[simp] theorem modPart_launches (s : State) (p : Nat) (f : Partition → Partition) : (s.modPart p f).launches = s.launches := rfl
@[simp] theorem modPart_insts (s : State) (p : Nat) (f : Partition → Partition) : (s.modPart p f).insts = s.insts := rfl
@[simp] theorem modPart_collIssued (s : State) (p : Nat) (f : Partition → Partition) : (s.modPart p f).collIssued = s.collIssued := rfl
@[simp] theorem modPart_collGone (s : State) (p : Nat) (f : Partition → Partition) : (s.modPart p f).collGone = s.collGone := rfl
@[simp] theorem modPart_groups (s : State) (p : Nat) (f : Partition → Partition) : (s.modPart p f).groups = s.groups := rfl
@[simp] theorem modPart_cores (s : State) (p : Nat) (f : Partition → Partition) : (s.modPart p f).cores = s.cores := rfl
@[simp] theorem modPart_waves (s : State) (p : Nat) (f : Partition → Partition) : (s.modPart p f).waves = s.waves := rfl
@[simp] theorem modPart_agenda (s : State) (p : Nat) (f : Partition → Partition) : (s.modPart p f).agenda = s.agenda := rfl
@[simp] theorem modPart_acting (s : State) (p : Nat) (f : Partition → Partition) : (s.modPart p f).acting = s.acting := rfl
@[simp] theorem modPart_fresh (s : State) (p : Nat) (f : Partition → Partition) : (s.modPart p f).fresh = s.fresh := rfl

@[simp] theorem modCtx_mem (s : State) (p c : Nat) (f : Context → Context) : (s.modCtx p c f).mem = s.mem := rfl
@[simp] theorem modCtx_lost (s : State) (p c : Nat) (f : Context → Context) : (s.modCtx p c f).lost = s.lost := rfl
@[simp] theorem modCtx_ctl (s : State) (p c : Nat) (f : Context → Context) : (s.modCtx p c f).ctl = s.ctl := rfl
@[simp] theorem modCtx_dies (s : State) (p c : Nat) (f : Context → Context) : (s.modCtx p c f).dies = s.dies := rfl
@[simp] theorem modCtx_quads (s : State) (p c : Nat) (f : Context → Context) : (s.modCtx p c f).quads = s.quads := rfl
@[simp] theorem modCtx_launches (s : State) (p c : Nat) (f : Context → Context) : (s.modCtx p c f).launches = s.launches := rfl
@[simp] theorem modCtx_insts (s : State) (p c : Nat) (f : Context → Context) : (s.modCtx p c f).insts = s.insts := rfl
@[simp] theorem modCtx_collIssued (s : State) (p c : Nat) (f : Context → Context) : (s.modCtx p c f).collIssued = s.collIssued := rfl
@[simp] theorem modCtx_collGone (s : State) (p c : Nat) (f : Context → Context) : (s.modCtx p c f).collGone = s.collGone := rfl
@[simp] theorem modCtx_groups (s : State) (p c : Nat) (f : Context → Context) : (s.modCtx p c f).groups = s.groups := rfl
@[simp] theorem modCtx_cores (s : State) (p c : Nat) (f : Context → Context) : (s.modCtx p c f).cores = s.cores := rfl
@[simp] theorem modCtx_waves (s : State) (p c : Nat) (f : Context → Context) : (s.modCtx p c f).waves = s.waves := rfl
@[simp] theorem modCtx_agenda (s : State) (p c : Nat) (f : Context → Context) : (s.modCtx p c f).agenda = s.agenda := rfl
@[simp] theorem modCtx_acting (s : State) (p c : Nat) (f : Context → Context) : (s.modCtx p c f).acting = s.acting := rfl
@[simp] theorem modCtx_fresh (s : State) (p c : Nat) (f : Context → Context) : (s.modCtx p c f).fresh = s.fresh := rfl

@[simp] theorem modDie_mem (s : State) (d : Nat) (f : Die → Die) : (s.modDie d f).mem = s.mem := rfl
@[simp] theorem modDie_lost (s : State) (d : Nat) (f : Die → Die) : (s.modDie d f).lost = s.lost := rfl
@[simp] theorem modDie_ctl (s : State) (d : Nat) (f : Die → Die) : (s.modDie d f).ctl = s.ctl := rfl
@[simp] theorem modDie_quads (s : State) (d : Nat) (f : Die → Die) : (s.modDie d f).quads = s.quads := rfl
@[simp] theorem modDie_parts (s : State) (d : Nat) (f : Die → Die) : (s.modDie d f).parts = s.parts := rfl
@[simp] theorem modDie_launches (s : State) (d : Nat) (f : Die → Die) : (s.modDie d f).launches = s.launches := rfl
@[simp] theorem modDie_insts (s : State) (d : Nat) (f : Die → Die) : (s.modDie d f).insts = s.insts := rfl
@[simp] theorem modDie_collIssued (s : State) (d : Nat) (f : Die → Die) : (s.modDie d f).collIssued = s.collIssued := rfl
@[simp] theorem modDie_collGone (s : State) (d : Nat) (f : Die → Die) : (s.modDie d f).collGone = s.collGone := rfl
@[simp] theorem modDie_groups (s : State) (d : Nat) (f : Die → Die) : (s.modDie d f).groups = s.groups := rfl
@[simp] theorem modDie_cores (s : State) (d : Nat) (f : Die → Die) : (s.modDie d f).cores = s.cores := rfl
@[simp] theorem modDie_waves (s : State) (d : Nat) (f : Die → Die) : (s.modDie d f).waves = s.waves := rfl
@[simp] theorem modDie_agenda (s : State) (d : Nat) (f : Die → Die) : (s.modDie d f).agenda = s.agenda := rfl
@[simp] theorem modDie_acting (s : State) (d : Nat) (f : Die → Die) : (s.modDie d f).acting = s.acting := rfl
@[simp] theorem modDie_fresh (s : State) (d : Nat) (f : Die → Die) : (s.modDie d f).fresh = s.fresh := rfl

@[simp] theorem modQuad_mem (s : State) (q : Nat) (f : List NCmd → List NCmd) : (s.modQuad q f).mem = s.mem := rfl
@[simp] theorem modQuad_lost (s : State) (q : Nat) (f : List NCmd → List NCmd) : (s.modQuad q f).lost = s.lost := rfl
@[simp] theorem modQuad_ctl (s : State) (q : Nat) (f : List NCmd → List NCmd) : (s.modQuad q f).ctl = s.ctl := rfl
@[simp] theorem modQuad_dies (s : State) (q : Nat) (f : List NCmd → List NCmd) : (s.modQuad q f).dies = s.dies := rfl
@[simp] theorem modQuad_parts (s : State) (q : Nat) (f : List NCmd → List NCmd) : (s.modQuad q f).parts = s.parts := rfl
@[simp] theorem modQuad_launches (s : State) (q : Nat) (f : List NCmd → List NCmd) : (s.modQuad q f).launches = s.launches := rfl
@[simp] theorem modQuad_insts (s : State) (q : Nat) (f : List NCmd → List NCmd) : (s.modQuad q f).insts = s.insts := rfl
@[simp] theorem modQuad_collIssued (s : State) (q : Nat) (f : List NCmd → List NCmd) : (s.modQuad q f).collIssued = s.collIssued := rfl
@[simp] theorem modQuad_collGone (s : State) (q : Nat) (f : List NCmd → List NCmd) : (s.modQuad q f).collGone = s.collGone := rfl
@[simp] theorem modQuad_groups (s : State) (q : Nat) (f : List NCmd → List NCmd) : (s.modQuad q f).groups = s.groups := rfl
@[simp] theorem modQuad_cores (s : State) (q : Nat) (f : List NCmd → List NCmd) : (s.modQuad q f).cores = s.cores := rfl
@[simp] theorem modQuad_waves (s : State) (q : Nat) (f : List NCmd → List NCmd) : (s.modQuad q f).waves = s.waves := rfl
@[simp] theorem modQuad_agenda (s : State) (q : Nat) (f : List NCmd → List NCmd) : (s.modQuad q f).agenda = s.agenda := rfl
@[simp] theorem modQuad_acting (s : State) (q : Nat) (f : List NCmd → List NCmd) : (s.modQuad q f).acting = s.acting := rfl
@[simp] theorem modQuad_fresh (s : State) (q : Nat) (f : List NCmd → List NCmd) : (s.modQuad q f).fresh = s.fresh := rfl

@[simp] theorem tick_mem (s : State) : (s.tick).mem = s.mem := rfl
@[simp] theorem tick_lost (s : State) : (s.tick).lost = s.lost := rfl
@[simp] theorem tick_ctl (s : State) : (s.tick).ctl = s.ctl := rfl
@[simp] theorem tick_dies (s : State) : (s.tick).dies = s.dies := rfl
@[simp] theorem tick_quads (s : State) : (s.tick).quads = s.quads := rfl
@[simp] theorem tick_parts (s : State) : (s.tick).parts = s.parts := rfl
@[simp] theorem tick_launches (s : State) : (s.tick).launches = s.launches := rfl
@[simp] theorem tick_insts (s : State) : (s.tick).insts = s.insts := rfl
@[simp] theorem tick_collIssued (s : State) : (s.tick).collIssued = s.collIssued := rfl
@[simp] theorem tick_collGone (s : State) : (s.tick).collGone = s.collGone := rfl
@[simp] theorem tick_groups (s : State) : (s.tick).groups = s.groups := rfl
@[simp] theorem tick_cores (s : State) : (s.tick).cores = s.cores := rfl
@[simp] theorem tick_waves (s : State) : (s.tick).waves = s.waves := rfl
@[simp] theorem tick_agenda (s : State) : (s.tick).agenda = s.agenda := rfl
@[simp] theorem tick_acting (s : State) : (s.tick).acting = s.acting := rfl

@[simp] theorem writeMem_ctl (s : State) (bs : List (Nat × Byte)) : (s.writeMem bs).ctl = s.ctl := rfl
@[simp] theorem writeMem_dies (s : State) (bs : List (Nat × Byte)) : (s.writeMem bs).dies = s.dies := rfl
@[simp] theorem writeMem_quads (s : State) (bs : List (Nat × Byte)) : (s.writeMem bs).quads = s.quads := rfl
@[simp] theorem writeMem_parts (s : State) (bs : List (Nat × Byte)) : (s.writeMem bs).parts = s.parts := rfl
@[simp] theorem writeMem_launches (s : State) (bs : List (Nat × Byte)) : (s.writeMem bs).launches = s.launches := rfl
@[simp] theorem writeMem_insts (s : State) (bs : List (Nat × Byte)) : (s.writeMem bs).insts = s.insts := rfl
@[simp] theorem writeMem_collIssued (s : State) (bs : List (Nat × Byte)) : (s.writeMem bs).collIssued = s.collIssued := rfl
@[simp] theorem writeMem_collGone (s : State) (bs : List (Nat × Byte)) : (s.writeMem bs).collGone = s.collGone := rfl
@[simp] theorem writeMem_groups (s : State) (bs : List (Nat × Byte)) : (s.writeMem bs).groups = s.groups := rfl
@[simp] theorem writeMem_cores (s : State) (bs : List (Nat × Byte)) : (s.writeMem bs).cores = s.cores := rfl
@[simp] theorem writeMem_waves (s : State) (bs : List (Nat × Byte)) : (s.writeMem bs).waves = s.waves := rfl
@[simp] theorem writeMem_agenda (s : State) (bs : List (Nat × Byte)) : (s.writeMem bs).agenda = s.agenda := rfl
@[simp] theorem writeMem_acting (s : State) (bs : List (Nat × Byte)) : (s.writeMem bs).acting = s.acting := rfl
@[simp] theorem writeMem_fresh (s : State) (bs : List (Nat × Byte)) : (s.writeMem bs).fresh = s.fresh := rfl

/-! Updates of State: what each changes -/

@[simp] theorem tick_fresh (s : State) : s.tick.fresh = s.fresh + 1 := rfl
@[simp] theorem writeMem_mem (s : State) (bs : List (Nat × Byte)) : (s.writeMem bs).mem = s.mem.writeAll bs := rfl
@[simp] theorem setWave_waves (s : State) (w : Nat) (x : Wave) : (s.setWave w x).waves = s.waves.set w x := rfl
@[simp] theorem setGroup_groups (s : State) (g : Nat) (x : Group) : (s.setGroup g x).groups = s.groups.set g x := rfl
@[simp] theorem setLaunch_launches (s : State) (l : Nat) (x : Launch) : (s.setLaunch l x).launches = s.launches.set l x := rfl
@[simp] theorem setCore_cores (s : State) (c : Nat) (x : Core) : (s.setCore c x).cores = s.cores.set c x := rfl
@[simp] theorem setPart_parts (s : State) (p : Nat) (x : Partition) : (s.setPart p x).parts = s.parts.set p x := rfl

@[simp] theorem modWave_waves (s : State) (w : Nat) (f : Wave → Wave) : (s.modWave w f).waves = s.waves.set w (f (s.wave w)) := rfl
@[simp] theorem modWave_length (s : State) (w : Nat) (f : Wave → Wave) : (s.modWave w f).waves.length = s.waves.length := by simp
theorem wave_setWave_same (s : State) (w : Nat) (x : Wave) (h : w < s.waves.length) : (s.setWave w x).wave w = x := by
  simp [State.wave, State.setWave, h]
theorem wave_setWave_other (s : State) (w i : Nat) (x : Wave) (h : i ≠ w) : (s.setWave w x).wave i = s.wave i := by
  simp [State.wave, State.setWave, List.getD, List.getElem?_set_ne (Ne.symm h)]
theorem wave_modWave_same (s : State) (w : Nat) (f : Wave → Wave) (h : w < s.waves.length) :
    (s.modWave w f).wave w = f (s.wave w) := wave_setWave_same s w _ h
theorem wave_modWave_other (s : State) (w i : Nat) (f : Wave → Wave) (h : i ≠ w) :
    (s.modWave w f).wave i = s.wave i := wave_setWave_other s w i _ h

@[simp] theorem modGroup_groups (s : State) (g : Nat) (f : Group → Group) : (s.modGroup g f).groups = s.groups.set g (f (s.group g)) := rfl
@[simp] theorem modGroup_length (s : State) (g : Nat) (f : Group → Group) : (s.modGroup g f).groups.length = s.groups.length := by simp
theorem group_setGroup_same (s : State) (g : Nat) (x : Group) (h : g < s.groups.length) : (s.setGroup g x).group g = x := by
  simp [State.group, State.setGroup, h]
theorem group_setGroup_other (s : State) (g i : Nat) (x : Group) (h : i ≠ g) : (s.setGroup g x).group i = s.group i := by
  simp [State.group, State.setGroup, List.getD, List.getElem?_set_ne (Ne.symm h)]
theorem group_modGroup_same (s : State) (g : Nat) (f : Group → Group) (h : g < s.groups.length) :
    (s.modGroup g f).group g = f (s.group g) := group_setGroup_same s g _ h
theorem group_modGroup_other (s : State) (g i : Nat) (f : Group → Group) (h : i ≠ g) :
    (s.modGroup g f).group i = s.group i := group_setGroup_other s g i _ h

@[simp] theorem modLaunch_launches (s : State) (l : Nat) (f : Launch → Launch) : (s.modLaunch l f).launches = s.launches.set l (f (s.launch l)) := rfl
@[simp] theorem modLaunch_length (s : State) (l : Nat) (f : Launch → Launch) : (s.modLaunch l f).launches.length = s.launches.length := by simp
theorem launch_setLaunch_same (s : State) (l : Nat) (x : Launch) (h : l < s.launches.length) : (s.setLaunch l x).launch l = x := by
  simp [State.launch, State.setLaunch, h]
theorem launch_setLaunch_other (s : State) (l i : Nat) (x : Launch) (h : i ≠ l) : (s.setLaunch l x).launch i = s.launch i := by
  simp [State.launch, State.setLaunch, List.getD, List.getElem?_set_ne (Ne.symm h)]
theorem launch_modLaunch_same (s : State) (l : Nat) (f : Launch → Launch) (h : l < s.launches.length) :
    (s.modLaunch l f).launch l = f (s.launch l) := launch_setLaunch_same s l _ h
theorem launch_modLaunch_other (s : State) (l i : Nat) (f : Launch → Launch) (h : i ≠ l) :
    (s.modLaunch l f).launch i = s.launch i := launch_setLaunch_other s l i _ h

@[simp] theorem modCore_cores (s : State) (c : Nat) (f : Core → Core) : (s.modCore c f).cores = s.cores.set c (f (s.core c)) := rfl
@[simp] theorem modCore_length (s : State) (c : Nat) (f : Core → Core) : (s.modCore c f).cores.length = s.cores.length := by simp
theorem core_setCore_same (s : State) (c : Nat) (x : Core) (h : c < s.cores.length) : (s.setCore c x).core c = x := by
  simp [State.core, State.setCore, h]
theorem core_setCore_other (s : State) (c i : Nat) (x : Core) (h : i ≠ c) : (s.setCore c x).core i = s.core i := by
  simp [State.core, State.setCore, List.getD, List.getElem?_set_ne (Ne.symm h)]
theorem core_modCore_same (s : State) (c : Nat) (f : Core → Core) (h : c < s.cores.length) :
    (s.modCore c f).core c = f (s.core c) := core_setCore_same s c _ h
theorem core_modCore_other (s : State) (c i : Nat) (f : Core → Core) (h : i ≠ c) :
    (s.modCore c f).core i = s.core i := core_setCore_other s c i _ h

@[simp] theorem modPart_parts (s : State) (p : Nat) (f : Partition → Partition) : (s.modPart p f).parts = s.parts.set p (f (s.part p)) := rfl
@[simp] theorem modPart_length (s : State) (p : Nat) (f : Partition → Partition) : (s.modPart p f).parts.length = s.parts.length := by simp
theorem part_setPart_same (s : State) (p : Nat) (x : Partition) (h : p < s.parts.length) : (s.setPart p x).part p = x := by
  simp [State.part, State.setPart, h]
theorem part_setPart_other (s : State) (p i : Nat) (x : Partition) (h : i ≠ p) : (s.setPart p x).part i = s.part i := by
  simp [State.part, State.setPart, List.getD, List.getElem?_set_ne (Ne.symm h)]
theorem part_modPart_same (s : State) (p : Nat) (f : Partition → Partition) (h : p < s.parts.length) :
    (s.modPart p f).part p = f (s.part p) := part_setPart_same s p _ h
theorem part_modPart_other (s : State) (p i : Nat) (f : Partition → Partition) (h : i ≠ p) :
    (s.modPart p f).part i = s.part i := part_setPart_other s p i _ h

/-! Accessors see through updates of other fields -/

@[simp] theorem setWave_group (s : State) (w : Nat) (x : Wave) (i : Nat) : (s.setWave w x).group i = s.group i := rfl
@[simp] theorem setWave_launch (s : State) (w : Nat) (x : Wave) (i : Nat) : (s.setWave w x).launch i = s.launch i := rfl
@[simp] theorem setWave_core (s : State) (w : Nat) (x : Wave) (i : Nat) : (s.setWave w x).core i = s.core i := rfl
@[simp] theorem setWave_part (s : State) (w : Nat) (x : Wave) (i : Nat) : (s.setWave w x).part i = s.part i := rfl
@[simp] theorem setWave_die (s : State) (w : Nat) (x : Wave) (i : Nat) : (s.setWave w x).die i = s.die i := rfl
@[simp] theorem modWave_group (s : State) (w : Nat) (f : Wave → Wave) (i : Nat) : (s.modWave w f).group i = s.group i := rfl
@[simp] theorem modWave_launch (s : State) (w : Nat) (f : Wave → Wave) (i : Nat) : (s.modWave w f).launch i = s.launch i := rfl
@[simp] theorem modWave_core (s : State) (w : Nat) (f : Wave → Wave) (i : Nat) : (s.modWave w f).core i = s.core i := rfl
@[simp] theorem modWave_part (s : State) (w : Nat) (f : Wave → Wave) (i : Nat) : (s.modWave w f).part i = s.part i := rfl
@[simp] theorem modWave_die (s : State) (w : Nat) (f : Wave → Wave) (i : Nat) : (s.modWave w f).die i = s.die i := rfl
@[simp] theorem setGroup_wave (s : State) (g : Nat) (x : Group) (i : Nat) : (s.setGroup g x).wave i = s.wave i := rfl
@[simp] theorem setGroup_launch (s : State) (g : Nat) (x : Group) (i : Nat) : (s.setGroup g x).launch i = s.launch i := rfl
@[simp] theorem setGroup_core (s : State) (g : Nat) (x : Group) (i : Nat) : (s.setGroup g x).core i = s.core i := rfl
@[simp] theorem setGroup_part (s : State) (g : Nat) (x : Group) (i : Nat) : (s.setGroup g x).part i = s.part i := rfl
@[simp] theorem setGroup_die (s : State) (g : Nat) (x : Group) (i : Nat) : (s.setGroup g x).die i = s.die i := rfl
@[simp] theorem modGroup_wave (s : State) (g : Nat) (f : Group → Group) (i : Nat) : (s.modGroup g f).wave i = s.wave i := rfl
@[simp] theorem modGroup_launch (s : State) (g : Nat) (f : Group → Group) (i : Nat) : (s.modGroup g f).launch i = s.launch i := rfl
@[simp] theorem modGroup_core (s : State) (g : Nat) (f : Group → Group) (i : Nat) : (s.modGroup g f).core i = s.core i := rfl
@[simp] theorem modGroup_part (s : State) (g : Nat) (f : Group → Group) (i : Nat) : (s.modGroup g f).part i = s.part i := rfl
@[simp] theorem modGroup_die (s : State) (g : Nat) (f : Group → Group) (i : Nat) : (s.modGroup g f).die i = s.die i := rfl
@[simp] theorem setLaunch_wave (s : State) (l : Nat) (x : Launch) (i : Nat) : (s.setLaunch l x).wave i = s.wave i := rfl
@[simp] theorem setLaunch_group (s : State) (l : Nat) (x : Launch) (i : Nat) : (s.setLaunch l x).group i = s.group i := rfl
@[simp] theorem setLaunch_core (s : State) (l : Nat) (x : Launch) (i : Nat) : (s.setLaunch l x).core i = s.core i := rfl
@[simp] theorem setLaunch_part (s : State) (l : Nat) (x : Launch) (i : Nat) : (s.setLaunch l x).part i = s.part i := rfl
@[simp] theorem setLaunch_die (s : State) (l : Nat) (x : Launch) (i : Nat) : (s.setLaunch l x).die i = s.die i := rfl
@[simp] theorem modLaunch_wave (s : State) (l : Nat) (f : Launch → Launch) (i : Nat) : (s.modLaunch l f).wave i = s.wave i := rfl
@[simp] theorem modLaunch_group (s : State) (l : Nat) (f : Launch → Launch) (i : Nat) : (s.modLaunch l f).group i = s.group i := rfl
@[simp] theorem modLaunch_core (s : State) (l : Nat) (f : Launch → Launch) (i : Nat) : (s.modLaunch l f).core i = s.core i := rfl
@[simp] theorem modLaunch_part (s : State) (l : Nat) (f : Launch → Launch) (i : Nat) : (s.modLaunch l f).part i = s.part i := rfl
@[simp] theorem modLaunch_die (s : State) (l : Nat) (f : Launch → Launch) (i : Nat) : (s.modLaunch l f).die i = s.die i := rfl
@[simp] theorem setCore_wave (s : State) (c : Nat) (x : Core) (i : Nat) : (s.setCore c x).wave i = s.wave i := rfl
@[simp] theorem setCore_group (s : State) (c : Nat) (x : Core) (i : Nat) : (s.setCore c x).group i = s.group i := rfl
@[simp] theorem setCore_launch (s : State) (c : Nat) (x : Core) (i : Nat) : (s.setCore c x).launch i = s.launch i := rfl
@[simp] theorem setCore_part (s : State) (c : Nat) (x : Core) (i : Nat) : (s.setCore c x).part i = s.part i := rfl
@[simp] theorem setCore_die (s : State) (c : Nat) (x : Core) (i : Nat) : (s.setCore c x).die i = s.die i := rfl
@[simp] theorem modCore_wave (s : State) (c : Nat) (f : Core → Core) (i : Nat) : (s.modCore c f).wave i = s.wave i := rfl
@[simp] theorem modCore_group (s : State) (c : Nat) (f : Core → Core) (i : Nat) : (s.modCore c f).group i = s.group i := rfl
@[simp] theorem modCore_launch (s : State) (c : Nat) (f : Core → Core) (i : Nat) : (s.modCore c f).launch i = s.launch i := rfl
@[simp] theorem modCore_part (s : State) (c : Nat) (f : Core → Core) (i : Nat) : (s.modCore c f).part i = s.part i := rfl
@[simp] theorem modCore_die (s : State) (c : Nat) (f : Core → Core) (i : Nat) : (s.modCore c f).die i = s.die i := rfl
@[simp] theorem modMx_wave (s : State) (c : Nat) (f : Matrix → Matrix) (i : Nat) : (s.modMx c f).wave i = s.wave i := rfl
@[simp] theorem modMx_group (s : State) (c : Nat) (f : Matrix → Matrix) (i : Nat) : (s.modMx c f).group i = s.group i := rfl
@[simp] theorem modMx_launch (s : State) (c : Nat) (f : Matrix → Matrix) (i : Nat) : (s.modMx c f).launch i = s.launch i := rfl
@[simp] theorem modMx_part (s : State) (c : Nat) (f : Matrix → Matrix) (i : Nat) : (s.modMx c f).part i = s.part i := rfl
@[simp] theorem modMx_die (s : State) (c : Nat) (f : Matrix → Matrix) (i : Nat) : (s.modMx c f).die i = s.die i := rfl
@[simp] theorem setPart_wave (s : State) (p : Nat) (x : Partition) (i : Nat) : (s.setPart p x).wave i = s.wave i := rfl
@[simp] theorem setPart_group (s : State) (p : Nat) (x : Partition) (i : Nat) : (s.setPart p x).group i = s.group i := rfl
@[simp] theorem setPart_launch (s : State) (p : Nat) (x : Partition) (i : Nat) : (s.setPart p x).launch i = s.launch i := rfl
@[simp] theorem setPart_core (s : State) (p : Nat) (x : Partition) (i : Nat) : (s.setPart p x).core i = s.core i := rfl
@[simp] theorem setPart_die (s : State) (p : Nat) (x : Partition) (i : Nat) : (s.setPart p x).die i = s.die i := rfl
@[simp] theorem modPart_wave (s : State) (p : Nat) (f : Partition → Partition) (i : Nat) : (s.modPart p f).wave i = s.wave i := rfl
@[simp] theorem modPart_group (s : State) (p : Nat) (f : Partition → Partition) (i : Nat) : (s.modPart p f).group i = s.group i := rfl
@[simp] theorem modPart_launch (s : State) (p : Nat) (f : Partition → Partition) (i : Nat) : (s.modPart p f).launch i = s.launch i := rfl
@[simp] theorem modPart_core (s : State) (p : Nat) (f : Partition → Partition) (i : Nat) : (s.modPart p f).core i = s.core i := rfl
@[simp] theorem modPart_die (s : State) (p : Nat) (f : Partition → Partition) (i : Nat) : (s.modPart p f).die i = s.die i := rfl
@[simp] theorem modCtx_wave (s : State) (p c : Nat) (f : Context → Context) (i : Nat) : (s.modCtx p c f).wave i = s.wave i := rfl
@[simp] theorem modCtx_group (s : State) (p c : Nat) (f : Context → Context) (i : Nat) : (s.modCtx p c f).group i = s.group i := rfl
@[simp] theorem modCtx_launch (s : State) (p c : Nat) (f : Context → Context) (i : Nat) : (s.modCtx p c f).launch i = s.launch i := rfl
@[simp] theorem modCtx_core (s : State) (p c : Nat) (f : Context → Context) (i : Nat) : (s.modCtx p c f).core i = s.core i := rfl
@[simp] theorem modCtx_die (s : State) (p c : Nat) (f : Context → Context) (i : Nat) : (s.modCtx p c f).die i = s.die i := rfl
@[simp] theorem modDie_wave (s : State) (d : Nat) (f : Die → Die) (i : Nat) : (s.modDie d f).wave i = s.wave i := rfl
@[simp] theorem modDie_group (s : State) (d : Nat) (f : Die → Die) (i : Nat) : (s.modDie d f).group i = s.group i := rfl
@[simp] theorem modDie_launch (s : State) (d : Nat) (f : Die → Die) (i : Nat) : (s.modDie d f).launch i = s.launch i := rfl
@[simp] theorem modDie_core (s : State) (d : Nat) (f : Die → Die) (i : Nat) : (s.modDie d f).core i = s.core i := rfl
@[simp] theorem modDie_part (s : State) (d : Nat) (f : Die → Die) (i : Nat) : (s.modDie d f).part i = s.part i := rfl
@[simp] theorem modQuad_wave (s : State) (q : Nat) (f : List NCmd → List NCmd) (i : Nat) : (s.modQuad q f).wave i = s.wave i := rfl
@[simp] theorem modQuad_group (s : State) (q : Nat) (f : List NCmd → List NCmd) (i : Nat) : (s.modQuad q f).group i = s.group i := rfl
@[simp] theorem modQuad_launch (s : State) (q : Nat) (f : List NCmd → List NCmd) (i : Nat) : (s.modQuad q f).launch i = s.launch i := rfl
@[simp] theorem modQuad_core (s : State) (q : Nat) (f : List NCmd → List NCmd) (i : Nat) : (s.modQuad q f).core i = s.core i := rfl
@[simp] theorem modQuad_part (s : State) (q : Nat) (f : List NCmd → List NCmd) (i : Nat) : (s.modQuad q f).part i = s.part i := rfl
@[simp] theorem modQuad_die (s : State) (q : Nat) (f : List NCmd → List NCmd) (i : Nat) : (s.modQuad q f).die i = s.die i := rfl
@[simp] theorem tick_wave (s : State) (i : Nat) : (s.tick).wave i = s.wave i := rfl
@[simp] theorem tick_group (s : State) (i : Nat) : (s.tick).group i = s.group i := rfl
@[simp] theorem tick_launch (s : State) (i : Nat) : (s.tick).launch i = s.launch i := rfl
@[simp] theorem tick_core (s : State) (i : Nat) : (s.tick).core i = s.core i := rfl
@[simp] theorem tick_part (s : State) (i : Nat) : (s.tick).part i = s.part i := rfl
@[simp] theorem tick_die (s : State) (i : Nat) : (s.tick).die i = s.die i := rfl
@[simp] theorem writeMem_wave (s : State) (bs : List (Nat × Byte)) (i : Nat) : (s.writeMem bs).wave i = s.wave i := rfl
@[simp] theorem writeMem_group (s : State) (bs : List (Nat × Byte)) (i : Nat) : (s.writeMem bs).group i = s.group i := rfl
@[simp] theorem writeMem_launch (s : State) (bs : List (Nat × Byte)) (i : Nat) : (s.writeMem bs).launch i = s.launch i := rfl
@[simp] theorem writeMem_core (s : State) (bs : List (Nat × Byte)) (i : Nat) : (s.writeMem bs).core i = s.core i := rfl
@[simp] theorem writeMem_part (s : State) (bs : List (Nat × Byte)) (i : Nat) : (s.writeMem bs).part i = s.part i := rfl
@[simp] theorem writeMem_die (s : State) (bs : List (Nat × Byte)) (i : Nat) : (s.writeMem bs).die i = s.die i := rfl

/-! Updates of a wave: the fields each leaves alone -/

@[simp] theorem setS_id (x : Wave) (n : Nat) (y : Word) : (x.setS n y).id = x.id := by unfold Wave.setS; split <;> rfl
@[simp] theorem setS_cy (x : Wave) (n : Nat) (y : Word) : (x.setS n y).cy = x.cy := by unfold Wave.setS; split <;> rfl
@[simp] theorem setS_hcy (x : Wave) (n : Nat) (y : Word) : (x.setS n y).hcy = x.hcy := by unfold Wave.setS; split <;> rfl
@[simp] theorem setS_fflags (x : Wave) (n : Nat) (y : Word) : (x.setS n y).fflags = x.fflags := by unfold Wave.setS; split <;> rfl
@[simp] theorem setS_amr (x : Wave) (n : Nat) (y : Word) : (x.setS n y).amr = x.amr := by unfold Wave.setS; split <;> rfl
@[simp] theorem setS_nttthr (x : Wave) (n : Nat) (y : Word) : (x.setS n y).nttthr = x.nttthr := by unfold Wave.setS; split <;> rfl
@[simp] theorem setS_convGen (x : Wave) (n : Nat) (y : Word) : (x.setS n y).convGen = x.convGen := by unfold Wave.setS; split <;> rfl
@[simp] theorem setS_preds (x : Wave) (n : Nat) (y : Word) : (x.setS n y).preds = x.preds := by unfold Wave.setS; split <;> rfl
@[simp] theorem setS_v (x : Wave) (n : Nat) (y : Word) : (x.setS n y).v = x.v := by unfold Wave.setS; split <;> rfl
@[simp] theorem setS_lc (x : Wave) (n : Nat) (y : Word) : (x.setS n y).lc = x.lc := by unfold Wave.setS; split <;> rfl
@[simp] theorem setS_tr (x : Wave) (n : Nat) (y : Word) : (x.setS n y).tr = x.tr := by unfold Wave.setS; split <;> rfl
@[simp] theorem setS_mem (x : Wave) (n : Nat) (y : Word) : (x.setS n y).mem = x.mem := by unfold Wave.setS; split <;> rfl
@[simp] theorem setS_num (x : Wave) (n : Nat) (y : Word) : (x.setS n y).num = x.num := by unfold Wave.setS; split <;> rfl
@[simp] theorem setS_sch (x : Wave) (n : Nat) (y : Word) : (x.setS n y).sch = x.sch := by unfold Wave.setS; split <;> rfl
@[simp] theorem setS_evq (x : Wave) (n : Nat) (y : Word) : (x.setS n y).evq = x.evq := by unfold Wave.setS; split <;> rfl
@[simp] theorem setS_ovf (x : Wave) (n : Nat) (y : Word) : (x.setS n y).ovf = x.ovf := by unfold Wave.setS; split <;> rfl
@[simp] theorem setS_ports (x : Wave) (n : Nat) (y : Word) : (x.setS n y).ports = x.ports := by unfold Wave.setS; split <;> rfl
@[simp] theorem setS_fwd (x : Wave) (n : Nat) (y : Word) : (x.setS n y).fwd = x.fwd := by unfold Wave.setS; split <;> rfl
@[simp] theorem setS_word (x : Wave) (n : Nat) (y : Word) : (x.setS n y).word = x.word := by unfold Wave.setS; split <;> rfl

@[simp] theorem setCarry_id (x : Wave) (b : Bool) : (x.setCarry b).id = x.id := by unfold Wave.setCarry; split <;> rfl
@[simp] theorem setCarry_s (x : Wave) (b : Bool) : (x.setCarry b).s = x.s := by unfold Wave.setCarry; split <;> rfl
@[simp] theorem setCarry_hb (x : Wave) (b : Bool) : (x.setCarry b).hb = x.hb := by unfold Wave.setCarry; split <;> rfl
@[simp] theorem setCarry_fflags (x : Wave) (b : Bool) : (x.setCarry b).fflags = x.fflags := by unfold Wave.setCarry; split <;> rfl
@[simp] theorem setCarry_amr (x : Wave) (b : Bool) : (x.setCarry b).amr = x.amr := by unfold Wave.setCarry; split <;> rfl
@[simp] theorem setCarry_nttthr (x : Wave) (b : Bool) : (x.setCarry b).nttthr = x.nttthr := by unfold Wave.setCarry; split <;> rfl
@[simp] theorem setCarry_convGen (x : Wave) (b : Bool) : (x.setCarry b).convGen = x.convGen := by unfold Wave.setCarry; split <;> rfl
@[simp] theorem setCarry_preds (x : Wave) (b : Bool) : (x.setCarry b).preds = x.preds := by unfold Wave.setCarry; split <;> rfl
@[simp] theorem setCarry_v (x : Wave) (b : Bool) : (x.setCarry b).v = x.v := by unfold Wave.setCarry; split <;> rfl
@[simp] theorem setCarry_lc (x : Wave) (b : Bool) : (x.setCarry b).lc = x.lc := by unfold Wave.setCarry; split <;> rfl
@[simp] theorem setCarry_tr (x : Wave) (b : Bool) : (x.setCarry b).tr = x.tr := by unfold Wave.setCarry; split <;> rfl
@[simp] theorem setCarry_mem (x : Wave) (b : Bool) : (x.setCarry b).mem = x.mem := by unfold Wave.setCarry; split <;> rfl
@[simp] theorem setCarry_num (x : Wave) (b : Bool) : (x.setCarry b).num = x.num := by unfold Wave.setCarry; split <;> rfl
@[simp] theorem setCarry_sch (x : Wave) (b : Bool) : (x.setCarry b).sch = x.sch := by unfold Wave.setCarry; split <;> rfl
@[simp] theorem setCarry_evq (x : Wave) (b : Bool) : (x.setCarry b).evq = x.evq := by unfold Wave.setCarry; split <;> rfl
@[simp] theorem setCarry_ovf (x : Wave) (b : Bool) : (x.setCarry b).ovf = x.ovf := by unfold Wave.setCarry; split <;> rfl
@[simp] theorem setCarry_ports (x : Wave) (b : Bool) : (x.setCarry b).ports = x.ports := by unfold Wave.setCarry; split <;> rfl
@[simp] theorem setCarry_fwd (x : Wave) (b : Bool) : (x.setCarry b).fwd = x.fwd := by unfold Wave.setCarry; split <;> rfl
@[simp] theorem setCarry_word (x : Wave) (b : Bool) : (x.setCarry b).word = x.word := by unfold Wave.setCarry; split <;> rfl

@[simp] theorem setP_id (x : Wave) (p : BitVec 3) (m b : Mask) : (x.setP p m b).id = x.id := by unfold Wave.setP; split <;> rfl
@[simp] theorem setP_s (x : Wave) (p : BitVec 3) (m b : Mask) : (x.setP p m b).s = x.s := by unfold Wave.setP; split <;> rfl
@[simp] theorem setP_hb (x : Wave) (p : BitVec 3) (m b : Mask) : (x.setP p m b).hb = x.hb := by unfold Wave.setP; split <;> rfl
@[simp] theorem setP_cy (x : Wave) (p : BitVec 3) (m b : Mask) : (x.setP p m b).cy = x.cy := by unfold Wave.setP; split <;> rfl
@[simp] theorem setP_hcy (x : Wave) (p : BitVec 3) (m b : Mask) : (x.setP p m b).hcy = x.hcy := by unfold Wave.setP; split <;> rfl
@[simp] theorem setP_fflags (x : Wave) (p : BitVec 3) (m b : Mask) : (x.setP p m b).fflags = x.fflags := by unfold Wave.setP; split <;> rfl
@[simp] theorem setP_amr (x : Wave) (p : BitVec 3) (m b : Mask) : (x.setP p m b).amr = x.amr := by unfold Wave.setP; split <;> rfl
@[simp] theorem setP_nttthr (x : Wave) (p : BitVec 3) (m b : Mask) : (x.setP p m b).nttthr = x.nttthr := by unfold Wave.setP; split <;> rfl
@[simp] theorem setP_convGen (x : Wave) (p : BitVec 3) (m b : Mask) : (x.setP p m b).convGen = x.convGen := by unfold Wave.setP; split <;> rfl
@[simp] theorem setP_v (x : Wave) (p : BitVec 3) (m b : Mask) : (x.setP p m b).v = x.v := by unfold Wave.setP; split <;> rfl
@[simp] theorem setP_lc (x : Wave) (p : BitVec 3) (m b : Mask) : (x.setP p m b).lc = x.lc := by unfold Wave.setP; split <;> rfl
@[simp] theorem setP_tr (x : Wave) (p : BitVec 3) (m b : Mask) : (x.setP p m b).tr = x.tr := by unfold Wave.setP; split <;> rfl
@[simp] theorem setP_mem (x : Wave) (p : BitVec 3) (m b : Mask) : (x.setP p m b).mem = x.mem := by unfold Wave.setP; split <;> rfl
@[simp] theorem setP_num (x : Wave) (p : BitVec 3) (m b : Mask) : (x.setP p m b).num = x.num := by unfold Wave.setP; split <;> rfl
@[simp] theorem setP_sch (x : Wave) (p : BitVec 3) (m b : Mask) : (x.setP p m b).sch = x.sch := by unfold Wave.setP; split <;> rfl
@[simp] theorem setP_evq (x : Wave) (p : BitVec 3) (m b : Mask) : (x.setP p m b).evq = x.evq := by unfold Wave.setP; split <;> rfl
@[simp] theorem setP_ovf (x : Wave) (p : BitVec 3) (m b : Mask) : (x.setP p m b).ovf = x.ovf := by unfold Wave.setP; split <;> rfl
@[simp] theorem setP_ports (x : Wave) (p : BitVec 3) (m b : Mask) : (x.setP p m b).ports = x.ports := by unfold Wave.setP; split <;> rfl
@[simp] theorem setP_fwd (x : Wave) (p : BitVec 3) (m b : Mask) : (x.setP p m b).fwd = x.fwd := by unfold Wave.setP; split <;> rfl
@[simp] theorem setP_word (x : Wave) (p : BitVec 3) (m b : Mask) : (x.setP p m b).word = x.word := by unfold Wave.setP; split <;> rfl

@[simp] theorem setV_id (x : Wave) (r : Nat) (m : Mask) (l : List Lane) (md : BitVec 32) : (x.setV r m l md).id = x.id := rfl
@[simp] theorem setV_s (x : Wave) (r : Nat) (m : Mask) (l : List Lane) (md : BitVec 32) : (x.setV r m l md).s = x.s := rfl
@[simp] theorem setV_hb (x : Wave) (r : Nat) (m : Mask) (l : List Lane) (md : BitVec 32) : (x.setV r m l md).hb = x.hb := rfl
@[simp] theorem setV_cy (x : Wave) (r : Nat) (m : Mask) (l : List Lane) (md : BitVec 32) : (x.setV r m l md).cy = x.cy := rfl
@[simp] theorem setV_hcy (x : Wave) (r : Nat) (m : Mask) (l : List Lane) (md : BitVec 32) : (x.setV r m l md).hcy = x.hcy := rfl
@[simp] theorem setV_fflags (x : Wave) (r : Nat) (m : Mask) (l : List Lane) (md : BitVec 32) : (x.setV r m l md).fflags = x.fflags := rfl
@[simp] theorem setV_amr (x : Wave) (r : Nat) (m : Mask) (l : List Lane) (md : BitVec 32) : (x.setV r m l md).amr = x.amr := rfl
@[simp] theorem setV_nttthr (x : Wave) (r : Nat) (m : Mask) (l : List Lane) (md : BitVec 32) : (x.setV r m l md).nttthr = x.nttthr := rfl
@[simp] theorem setV_convGen (x : Wave) (r : Nat) (m : Mask) (l : List Lane) (md : BitVec 32) : (x.setV r m l md).convGen = x.convGen := rfl
@[simp] theorem setV_preds (x : Wave) (r : Nat) (m : Mask) (l : List Lane) (md : BitVec 32) : (x.setV r m l md).preds = x.preds := rfl
@[simp] theorem setV_lc (x : Wave) (r : Nat) (m : Mask) (l : List Lane) (md : BitVec 32) : (x.setV r m l md).lc = x.lc := rfl
@[simp] theorem setV_tr (x : Wave) (r : Nat) (m : Mask) (l : List Lane) (md : BitVec 32) : (x.setV r m l md).tr = x.tr := rfl
@[simp] theorem setV_mem (x : Wave) (r : Nat) (m : Mask) (l : List Lane) (md : BitVec 32) : (x.setV r m l md).mem = x.mem := rfl
@[simp] theorem setV_num (x : Wave) (r : Nat) (m : Mask) (l : List Lane) (md : BitVec 32) : (x.setV r m l md).num = x.num := rfl
@[simp] theorem setV_sch (x : Wave) (r : Nat) (m : Mask) (l : List Lane) (md : BitVec 32) : (x.setV r m l md).sch = x.sch := rfl
@[simp] theorem setV_evq (x : Wave) (r : Nat) (m : Mask) (l : List Lane) (md : BitVec 32) : (x.setV r m l md).evq = x.evq := rfl
@[simp] theorem setV_ovf (x : Wave) (r : Nat) (m : Mask) (l : List Lane) (md : BitVec 32) : (x.setV r m l md).ovf = x.ovf := rfl
@[simp] theorem setV_ports (x : Wave) (r : Nat) (m : Mask) (l : List Lane) (md : BitVec 32) : (x.setV r m l md).ports = x.ports := rfl
@[simp] theorem setV_fwd (x : Wave) (r : Nat) (m : Mask) (l : List Lane) (md : BitVec 32) : (x.setV r m l md).fwd = x.fwd := rfl
@[simp] theorem setV_word (x : Wave) (r : Nat) (m : Mask) (l : List Lane) (md : BitVec 32) : (x.setV r m l md).word = x.word := rfl

@[simp] theorem raiseFlags_id (x : Wave) (f : Flags) : (x.raiseFlags f).id = x.id := rfl
@[simp] theorem raiseFlags_s (x : Wave) (f : Flags) : (x.raiseFlags f).s = x.s := rfl
@[simp] theorem raiseFlags_hb (x : Wave) (f : Flags) : (x.raiseFlags f).hb = x.hb := rfl
@[simp] theorem raiseFlags_cy (x : Wave) (f : Flags) : (x.raiseFlags f).cy = x.cy := rfl
@[simp] theorem raiseFlags_hcy (x : Wave) (f : Flags) : (x.raiseFlags f).hcy = x.hcy := rfl
@[simp] theorem raiseFlags_amr (x : Wave) (f : Flags) : (x.raiseFlags f).amr = x.amr := rfl
@[simp] theorem raiseFlags_nttthr (x : Wave) (f : Flags) : (x.raiseFlags f).nttthr = x.nttthr := rfl
@[simp] theorem raiseFlags_convGen (x : Wave) (f : Flags) : (x.raiseFlags f).convGen = x.convGen := rfl
@[simp] theorem raiseFlags_preds (x : Wave) (f : Flags) : (x.raiseFlags f).preds = x.preds := rfl
@[simp] theorem raiseFlags_v (x : Wave) (f : Flags) : (x.raiseFlags f).v = x.v := rfl
@[simp] theorem raiseFlags_lc (x : Wave) (f : Flags) : (x.raiseFlags f).lc = x.lc := rfl
@[simp] theorem raiseFlags_tr (x : Wave) (f : Flags) : (x.raiseFlags f).tr = x.tr := rfl
@[simp] theorem raiseFlags_mem (x : Wave) (f : Flags) : (x.raiseFlags f).mem = x.mem := rfl
@[simp] theorem raiseFlags_num (x : Wave) (f : Flags) : (x.raiseFlags f).num = x.num := rfl
@[simp] theorem raiseFlags_sch (x : Wave) (f : Flags) : (x.raiseFlags f).sch = x.sch := rfl
@[simp] theorem raiseFlags_evq (x : Wave) (f : Flags) : (x.raiseFlags f).evq = x.evq := rfl
@[simp] theorem raiseFlags_ovf (x : Wave) (f : Flags) : (x.raiseFlags f).ovf = x.ovf := rfl
@[simp] theorem raiseFlags_ports (x : Wave) (f : Flags) : (x.raiseFlags f).ports = x.ports := rfl
@[simp] theorem raiseFlags_fwd (x : Wave) (f : Flags) : (x.raiseFlags f).fwd = x.fwd := rfl
@[simp] theorem raiseFlags_word (x : Wave) (f : Flags) : (x.raiseFlags f).word = x.word := rfl

@[simp] theorem setPath_id (x : Wave) (i : Nat) (p : PathRec) : (x.setPath i p).id = x.id := rfl
@[simp] theorem setPath_s (x : Wave) (i : Nat) (p : PathRec) : (x.setPath i p).s = x.s := rfl
@[simp] theorem setPath_hb (x : Wave) (i : Nat) (p : PathRec) : (x.setPath i p).hb = x.hb := rfl
@[simp] theorem setPath_cy (x : Wave) (i : Nat) (p : PathRec) : (x.setPath i p).cy = x.cy := rfl
@[simp] theorem setPath_hcy (x : Wave) (i : Nat) (p : PathRec) : (x.setPath i p).hcy = x.hcy := rfl
@[simp] theorem setPath_fflags (x : Wave) (i : Nat) (p : PathRec) : (x.setPath i p).fflags = x.fflags := rfl
@[simp] theorem setPath_amr (x : Wave) (i : Nat) (p : PathRec) : (x.setPath i p).amr = x.amr := rfl
@[simp] theorem setPath_nttthr (x : Wave) (i : Nat) (p : PathRec) : (x.setPath i p).nttthr = x.nttthr := rfl
@[simp] theorem setPath_convGen (x : Wave) (i : Nat) (p : PathRec) : (x.setPath i p).convGen = x.convGen := rfl
@[simp] theorem setPath_preds (x : Wave) (i : Nat) (p : PathRec) : (x.setPath i p).preds = x.preds := rfl
@[simp] theorem setPath_v (x : Wave) (i : Nat) (p : PathRec) : (x.setPath i p).v = x.v := rfl
@[simp] theorem setPath_tr (x : Wave) (i : Nat) (p : PathRec) : (x.setPath i p).tr = x.tr := rfl
@[simp] theorem setPath_mem (x : Wave) (i : Nat) (p : PathRec) : (x.setPath i p).mem = x.mem := rfl
@[simp] theorem setPath_num (x : Wave) (i : Nat) (p : PathRec) : (x.setPath i p).num = x.num := rfl
@[simp] theorem setPath_sch (x : Wave) (i : Nat) (p : PathRec) : (x.setPath i p).sch = x.sch := rfl
@[simp] theorem setPath_evq (x : Wave) (i : Nat) (p : PathRec) : (x.setPath i p).evq = x.evq := rfl
@[simp] theorem setPath_ovf (x : Wave) (i : Nat) (p : PathRec) : (x.setPath i p).ovf = x.ovf := rfl
@[simp] theorem setPath_ports (x : Wave) (i : Nat) (p : PathRec) : (x.setPath i p).ports = x.ports := rfl
@[simp] theorem setPath_fwd (x : Wave) (i : Nat) (p : PathRec) : (x.setPath i p).fwd = x.fwd := rfl
@[simp] theorem setPath_word (x : Wave) (i : Nat) (p : PathRec) : (x.setPath i p).word = x.word := rfl

@[simp] theorem modPath_id (x : Wave) (i : Nat) (f : PathRec → PathRec) : (x.modPath i f).id = x.id := rfl
@[simp] theorem modPath_s (x : Wave) (i : Nat) (f : PathRec → PathRec) : (x.modPath i f).s = x.s := rfl
@[simp] theorem modPath_hb (x : Wave) (i : Nat) (f : PathRec → PathRec) : (x.modPath i f).hb = x.hb := rfl
@[simp] theorem modPath_cy (x : Wave) (i : Nat) (f : PathRec → PathRec) : (x.modPath i f).cy = x.cy := rfl
@[simp] theorem modPath_hcy (x : Wave) (i : Nat) (f : PathRec → PathRec) : (x.modPath i f).hcy = x.hcy := rfl
@[simp] theorem modPath_fflags (x : Wave) (i : Nat) (f : PathRec → PathRec) : (x.modPath i f).fflags = x.fflags := rfl
@[simp] theorem modPath_amr (x : Wave) (i : Nat) (f : PathRec → PathRec) : (x.modPath i f).amr = x.amr := rfl
@[simp] theorem modPath_nttthr (x : Wave) (i : Nat) (f : PathRec → PathRec) : (x.modPath i f).nttthr = x.nttthr := rfl
@[simp] theorem modPath_convGen (x : Wave) (i : Nat) (f : PathRec → PathRec) : (x.modPath i f).convGen = x.convGen := rfl
@[simp] theorem modPath_preds (x : Wave) (i : Nat) (f : PathRec → PathRec) : (x.modPath i f).preds = x.preds := rfl
@[simp] theorem modPath_v (x : Wave) (i : Nat) (f : PathRec → PathRec) : (x.modPath i f).v = x.v := rfl
@[simp] theorem modPath_tr (x : Wave) (i : Nat) (f : PathRec → PathRec) : (x.modPath i f).tr = x.tr := rfl
@[simp] theorem modPath_mem (x : Wave) (i : Nat) (f : PathRec → PathRec) : (x.modPath i f).mem = x.mem := rfl
@[simp] theorem modPath_num (x : Wave) (i : Nat) (f : PathRec → PathRec) : (x.modPath i f).num = x.num := rfl
@[simp] theorem modPath_sch (x : Wave) (i : Nat) (f : PathRec → PathRec) : (x.modPath i f).sch = x.sch := rfl
@[simp] theorem modPath_evq (x : Wave) (i : Nat) (f : PathRec → PathRec) : (x.modPath i f).evq = x.evq := rfl
@[simp] theorem modPath_ovf (x : Wave) (i : Nat) (f : PathRec → PathRec) : (x.modPath i f).ovf = x.ovf := rfl
@[simp] theorem modPath_ports (x : Wave) (i : Nat) (f : PathRec → PathRec) : (x.modPath i f).ports = x.ports := rfl
@[simp] theorem modPath_fwd (x : Wave) (i : Nat) (f : PathRec → PathRec) : (x.modPath i f).fwd = x.fwd := rfl
@[simp] theorem modPath_word (x : Wave) (i : Nat) (f : PathRec → PathRec) : (x.modPath i f).word = x.word := rfl

@[simp] theorem goto_id (x : Wave) (p : Pos) : (x.goto p).id = x.id := by unfold Wave.goto; split <;> rfl
@[simp] theorem goto_s (x : Wave) (p : Pos) : (x.goto p).s = x.s := by unfold Wave.goto; split <;> rfl
@[simp] theorem goto_hb (x : Wave) (p : Pos) : (x.goto p).hb = x.hb := by unfold Wave.goto; split <;> rfl
@[simp] theorem goto_cy (x : Wave) (p : Pos) : (x.goto p).cy = x.cy := by unfold Wave.goto; split <;> rfl
@[simp] theorem goto_hcy (x : Wave) (p : Pos) : (x.goto p).hcy = x.hcy := by unfold Wave.goto; split <;> rfl
@[simp] theorem goto_fflags (x : Wave) (p : Pos) : (x.goto p).fflags = x.fflags := by unfold Wave.goto; split <;> rfl
@[simp] theorem goto_amr (x : Wave) (p : Pos) : (x.goto p).amr = x.amr := by unfold Wave.goto; split <;> rfl
@[simp] theorem goto_nttthr (x : Wave) (p : Pos) : (x.goto p).nttthr = x.nttthr := by unfold Wave.goto; split <;> rfl
@[simp] theorem goto_convGen (x : Wave) (p : Pos) : (x.goto p).convGen = x.convGen := by unfold Wave.goto; split <;> rfl
@[simp] theorem goto_preds (x : Wave) (p : Pos) : (x.goto p).preds = x.preds := by unfold Wave.goto; split <;> rfl
@[simp] theorem goto_v (x : Wave) (p : Pos) : (x.goto p).v = x.v := by unfold Wave.goto; split <;> rfl
@[simp] theorem goto_tr (x : Wave) (p : Pos) : (x.goto p).tr = x.tr := by unfold Wave.goto; split <;> rfl
@[simp] theorem goto_mem (x : Wave) (p : Pos) : (x.goto p).mem = x.mem := by unfold Wave.goto; split <;> rfl
@[simp] theorem goto_num (x : Wave) (p : Pos) : (x.goto p).num = x.num := by unfold Wave.goto; split <;> rfl
@[simp] theorem goto_evq (x : Wave) (p : Pos) : (x.goto p).evq = x.evq := by unfold Wave.goto; split <;> rfl
@[simp] theorem goto_ovf (x : Wave) (p : Pos) : (x.goto p).ovf = x.ovf := by unfold Wave.goto; split <;> rfl
@[simp] theorem goto_ports (x : Wave) (p : Pos) : (x.goto p).ports = x.ports := by unfold Wave.goto; split <;> rfl
@[simp] theorem goto_fwd (x : Wave) (p : Pos) : (x.goto p).fwd = x.fwd := by unfold Wave.goto; split <;> rfl
@[simp] theorem goto_word (x : Wave) (p : Pos) : (x.goto p).word = x.word := by unfold Wave.goto; split <;> rfl

@[simp] theorem advance_id (x : Wave) : (x.advance).id = x.id := goto_id x _
@[simp] theorem advance_s (x : Wave) : (x.advance).s = x.s := goto_s x _
@[simp] theorem advance_hb (x : Wave) : (x.advance).hb = x.hb := goto_hb x _
@[simp] theorem advance_cy (x : Wave) : (x.advance).cy = x.cy := goto_cy x _
@[simp] theorem advance_hcy (x : Wave) : (x.advance).hcy = x.hcy := goto_hcy x _
@[simp] theorem advance_fflags (x : Wave) : (x.advance).fflags = x.fflags := goto_fflags x _
@[simp] theorem advance_amr (x : Wave) : (x.advance).amr = x.amr := goto_amr x _
@[simp] theorem advance_nttthr (x : Wave) : (x.advance).nttthr = x.nttthr := goto_nttthr x _
@[simp] theorem advance_convGen (x : Wave) : (x.advance).convGen = x.convGen := goto_convGen x _
@[simp] theorem advance_preds (x : Wave) : (x.advance).preds = x.preds := goto_preds x _
@[simp] theorem advance_v (x : Wave) : (x.advance).v = x.v := goto_v x _
@[simp] theorem advance_tr (x : Wave) : (x.advance).tr = x.tr := goto_tr x _
@[simp] theorem advance_mem (x : Wave) : (x.advance).mem = x.mem := goto_mem x _
@[simp] theorem advance_num (x : Wave) : (x.advance).num = x.num := goto_num x _
@[simp] theorem advance_evq (x : Wave) : (x.advance).evq = x.evq := goto_evq x _
@[simp] theorem advance_ovf (x : Wave) : (x.advance).ovf = x.ovf := goto_ovf x _
@[simp] theorem advance_ports (x : Wave) : (x.advance).ports = x.ports := goto_ports x _
@[simp] theorem advance_fwd (x : Wave) : (x.advance).fwd = x.fwd := goto_fwd x _
@[simp] theorem advance_word (x : Wave) : (x.advance).word = x.word := goto_word x _

@[simp] theorem count_id (x : Wave) (c : Cls) (r : Bool) (ds : List Dest) : (x.count c r ds).id = x.id := rfl
@[simp] theorem count_s (x : Wave) (c : Cls) (r : Bool) (ds : List Dest) : (x.count c r ds).s = x.s := rfl
@[simp] theorem count_hb (x : Wave) (c : Cls) (r : Bool) (ds : List Dest) : (x.count c r ds).hb = x.hb := rfl
@[simp] theorem count_cy (x : Wave) (c : Cls) (r : Bool) (ds : List Dest) : (x.count c r ds).cy = x.cy := rfl
@[simp] theorem count_hcy (x : Wave) (c : Cls) (r : Bool) (ds : List Dest) : (x.count c r ds).hcy = x.hcy := rfl
@[simp] theorem count_fflags (x : Wave) (c : Cls) (r : Bool) (ds : List Dest) : (x.count c r ds).fflags = x.fflags := rfl
@[simp] theorem count_amr (x : Wave) (c : Cls) (r : Bool) (ds : List Dest) : (x.count c r ds).amr = x.amr := rfl
@[simp] theorem count_nttthr (x : Wave) (c : Cls) (r : Bool) (ds : List Dest) : (x.count c r ds).nttthr = x.nttthr := rfl
@[simp] theorem count_convGen (x : Wave) (c : Cls) (r : Bool) (ds : List Dest) : (x.count c r ds).convGen = x.convGen := rfl
@[simp] theorem count_preds (x : Wave) (c : Cls) (r : Bool) (ds : List Dest) : (x.count c r ds).preds = x.preds := rfl
@[simp] theorem count_v (x : Wave) (c : Cls) (r : Bool) (ds : List Dest) : (x.count c r ds).v = x.v := rfl
@[simp] theorem count_lc (x : Wave) (c : Cls) (r : Bool) (ds : List Dest) : (x.count c r ds).lc = x.lc := rfl
@[simp] theorem count_tr (x : Wave) (c : Cls) (r : Bool) (ds : List Dest) : (x.count c r ds).tr = x.tr := rfl
@[simp] theorem count_sch (x : Wave) (c : Cls) (r : Bool) (ds : List Dest) : (x.count c r ds).sch = x.sch := rfl
@[simp] theorem count_evq (x : Wave) (c : Cls) (r : Bool) (ds : List Dest) : (x.count c r ds).evq = x.evq := rfl
@[simp] theorem count_ovf (x : Wave) (c : Cls) (r : Bool) (ds : List Dest) : (x.count c r ds).ovf = x.ovf := rfl
@[simp] theorem count_ports (x : Wave) (c : Cls) (r : Bool) (ds : List Dest) : (x.count c r ds).ports = x.ports := rfl
@[simp] theorem count_fwd (x : Wave) (c : Cls) (r : Bool) (ds : List Dest) : (x.count c r ds).fwd = x.fwd := rfl
@[simp] theorem count_word (x : Wave) (c : Cls) (r : Bool) (ds : List Dest) : (x.count c r ds).word = x.word := rfl

@[simp] theorem markReady_id (x : Wave) (k : Nat) (ds : List Dest) : (x.markReady k ds).id = x.id := rfl
@[simp] theorem markReady_s (x : Wave) (k : Nat) (ds : List Dest) : (x.markReady k ds).s = x.s := rfl
@[simp] theorem markReady_hb (x : Wave) (k : Nat) (ds : List Dest) : (x.markReady k ds).hb = x.hb := rfl
@[simp] theorem markReady_cy (x : Wave) (k : Nat) (ds : List Dest) : (x.markReady k ds).cy = x.cy := rfl
@[simp] theorem markReady_hcy (x : Wave) (k : Nat) (ds : List Dest) : (x.markReady k ds).hcy = x.hcy := rfl
@[simp] theorem markReady_fflags (x : Wave) (k : Nat) (ds : List Dest) : (x.markReady k ds).fflags = x.fflags := rfl
@[simp] theorem markReady_amr (x : Wave) (k : Nat) (ds : List Dest) : (x.markReady k ds).amr = x.amr := rfl
@[simp] theorem markReady_nttthr (x : Wave) (k : Nat) (ds : List Dest) : (x.markReady k ds).nttthr = x.nttthr := rfl
@[simp] theorem markReady_convGen (x : Wave) (k : Nat) (ds : List Dest) : (x.markReady k ds).convGen = x.convGen := rfl
@[simp] theorem markReady_preds (x : Wave) (k : Nat) (ds : List Dest) : (x.markReady k ds).preds = x.preds := rfl
@[simp] theorem markReady_v (x : Wave) (k : Nat) (ds : List Dest) : (x.markReady k ds).v = x.v := rfl
@[simp] theorem markReady_lc (x : Wave) (k : Nat) (ds : List Dest) : (x.markReady k ds).lc = x.lc := rfl
@[simp] theorem markReady_tr (x : Wave) (k : Nat) (ds : List Dest) : (x.markReady k ds).tr = x.tr := rfl
@[simp] theorem markReady_num (x : Wave) (k : Nat) (ds : List Dest) : (x.markReady k ds).num = x.num := rfl
@[simp] theorem markReady_sch (x : Wave) (k : Nat) (ds : List Dest) : (x.markReady k ds).sch = x.sch := rfl
@[simp] theorem markReady_evq (x : Wave) (k : Nat) (ds : List Dest) : (x.markReady k ds).evq = x.evq := rfl
@[simp] theorem markReady_ovf (x : Wave) (k : Nat) (ds : List Dest) : (x.markReady k ds).ovf = x.ovf := rfl
@[simp] theorem markReady_ports (x : Wave) (k : Nat) (ds : List Dest) : (x.markReady k ds).ports = x.ports := rfl
@[simp] theorem markReady_fwd (x : Wave) (k : Nat) (ds : List Dest) : (x.markReady k ds).fwd = x.fwd := rfl
@[simp] theorem markReady_word (x : Wave) (k : Nat) (ds : List Dest) : (x.markReady k ds).word = x.word := rfl

/-! Registers read after they are written -/

theorem sreg_setS_same (x : Wave) (n : Nat) (v : Word) (hs : n < x.s.length) (hb : n - 56 < x.hb.length) :
    (x.setS n v).sreg n = v := by
  unfold Wave.setS Wave.sreg
  split <;> simp_all

theorem carry_setCarry (x : Wave) (b : Bool) : (x.setCarry b).carry = b := by
  unfold Wave.setCarry Wave.carry
  split <;> simp_all

@[simp] theorem pred_seven (x : Wave) : x.pred 7#3 = BitVec.allOnes 1024 := rfl

@[simp] theorem setP_seven (x : Wave) (m b : Mask) : x.setP 7#3 m b = x := rfl

@[simp] theorem raiseFlags_fflags (x : Wave) (f : Flags) : (x.raiseFlags f).fflags = x.fflags ||| f := rfl

end Sys2Proof.Machine
end

