-- ==== Sys2Proof/Laws/Issue.lean ====
section
/-! SUPPORT. What the shared operations can do, said once each: issuing an instruction, a step of another agent, taking a
trap, stalling, and what they leave of memory (spec/02 R53, R57, spec/11 R346, R353). -/

namespace Sys2Proof.Machine

/-! Operations that leave memory as it is -/

@[simp] theorem addError_mem (s : State) (p kind code gid : Nat) (a b c d : Word) :
    (s.addError p kind code gid a b c d).mem = s.mem := rfl

@[simp] theorem switch_mem (s : State) (c : Nat) : (s.switch c).mem = s.mem := by
  unfold State.switch
  simp only []
  split <;> simp

theorem ite_mem {c : Prop} [Decidable c] {a b : State} {m : Memory} (ha : a.mem = m) (hb : b.mem = m) :
    (if c then a else b).mem = m := by split <;> assumption

theorem ite_wf {α : Type} {p : α → Prop} {c : Prop} [Decidable c] {a b : α} (ha : p a) (hb : p b) : p (if c then a else b) := by
  split <;> assumption

@[simp] theorem stallWave_mem (s : State) (w : Nat) (y : Why) : (s.stallWave w y).mem = s.mem := by
  unfold State.stallWave
  exact ite_mem ((switch_mem ..).trans rfl) rfl

@[simp] theorem unstall_mem (s : State) (w : Nat) : (s.unstall w).mem = s.mem := rfl
@[simp] theorem retire_mem (s : State) (w : Nat) (x : Wave) : (s.retire w x).mem = s.mem := rfl
@[simp] theorem endWave_mem (s : State) (w : Nat) : (s.endWave w).mem = s.mem := rfl
@[simp] theorem dropTlb_mem (s : State) (k : Tlb → Bool) : (s.dropTlb k).mem = s.mem := rfl
@[simp] theorem modQueue_mem (s : State) (c : Nat) (se : Bool) (f : List SCmd → List SCmd) : (s.modQueue c se f).mem = s.mem := rfl
@[simp] theorem modBatch_mem (s : State) (l n b k : Nat) (f : Batch → Batch) : (s.modBatch l n b k f).mem = s.mem := rfl
@[simp] theorem closeBatch_mem (s : State) (l n b k : Nat) : (s.closeBatch l n b k).mem = s.mem := rfl
@[simp] theorem redoRescales_mem (s : State) (g : Nat) (l : List (Nat × NCmd)) : (s.redoRescales g l).mem = s.mem := rfl

@[simp] theorem postEvent_mem (s : State) (w : Nat) (a b : BitVec 8) (n : BitVec 32) : (s.postEvent w a b n).mem = s.mem := by
  unfold State.postEvent
  split <;> simp

@[simp] theorem completeOp_mem (s : State) (w k : Nat) (sh : Bool) (ds : List Dest) : (s.completeOp w k sh ds).mem = s.mem := by
  unfold State.completeOp
  simp only []
  split
  · split <;> simp
  · simp

/-- A fold of updates that leave memory as it is. -/
theorem foldl_mem {α : Type} (f : State → α → State) (hf : ∀ s a, (f s a).mem = s.mem) (l : List α) (s : State) :
    (l.foldl f s).mem = s.mem := by
  induction l generalizing s with
  | nil => rfl
  | cons a t ih => rw [List.foldl_cons, ih, hf]

@[simp] theorem modMembers_mem (s : State) (ms : List Member) (f : SCmd → SCmd) : (s.modMembers ms f).mem = s.mem := by
  unfold State.modMembers
  exact foldl_mem _ (fun _ _ => modQueue_mem ..) ms s

@[simp] theorem raiseVector_mem (s : State) (v : Nat) : (s.raiseVector v).mem = s.mem := rfl

@[simp] theorem stopMembers_mem (s : State) (l : Nat) (cid : BitVec 32) (k : Nat) (st : BitVec 8) :
    (s.stopMembers l cid k st).mem = s.mem := modMembers_mem ..

@[simp] theorem stopInstance_mem (s : State) (x : SCmd) (r : CollRec) (st : BitVec 8) : (s.stopInstance x r st).mem = s.mem :=
  stopMembers_mem ..

@[simp] theorem abandonInstances_mem (s : State) (g : Nat) : (s.abandonInstances g).mem = s.mem := by
  refine (foldl_mem _ (fun s a => ?_) _ _).trans (foldl_mem _ (fun s a => stopMembers_mem ..) _ s)
  split
  · exact stopMembers_mem ..
  · rfl

@[simp] theorem undoHeap_mem (s : State) (g : Nat) : (s.undoHeap g).mem = s.mem := by
  unfold State.undoHeap
  simp only [modGroup_mem]
  generalize (s.group g).heapLog = l
  induction l with
  | nil => rfl
  | cons e t ih =>
    rw [List.foldr_cons]
    cases e <;> simpa using ih

@[simp] theorem settleSnapshot_mem (s : State) (w k : Nat) (ds : List Dest) : (s.settleSnapshot w k ds).mem = s.mem := by
  unfold State.settleSnapshot
  simp only []
  split <;> simp

@[simp] theorem dropLines_mem (s : State) (pa n : Nat) : (s.dropLines pa n).mem = s.mem := rfl
@[simp] theorem l1Store_mem (s : State) (c : Nat) (bs : List (Nat × Byte)) : (s.l1Store c bs).mem = s.mem := ite_mem rfl rfl
@[simp] theorem l1Drop_mem (s : State) (c : Nat) (ks : List Nat) : (s.l1Drop c ks).mem = s.mem := ite_mem rfl rfl
@[simp] theorem touchCode_mem (s : State) (bs : List Nat) : (s.touchCode bs).mem = s.mem := ite_mem rfl rfl

/-! Operations that keep the canonical form of memory -/

theorem blurAlias_wf {s : State} (h : s.mem.wf = true) (b : Bool) (pa n : Nat) : (s.blurAlias b pa n).mem.wf = true := by
  unfold State.blurAlias
  split
  · exact Memory.writeAll_wf h _
  · exact h

/-- A fold of updates that keep the form. -/
theorem foldl_wf {α : Type} (f : State → α → State) (hf : ∀ s a, s.mem.wf = true → (f s a).mem.wf = true) (l : List α)
    {s : State} (h : s.mem.wf = true) : (l.foldl f s).mem.wf = true := by
  induction l generalizing s with
  | nil => exact h
  | cons a t ih => exact ih (hf s a h)

theorem fetchPage_wf {s : State} (h : s.mem.wf = true) (p c va d : Nat) (pin : Bool) :
    (s.fetchPage p c va d pin).1.mem.wf = true := by
  unfold State.fetchPage
  split
  · exact h
  split
  · exact h
  · exact h
  · split
    · exact h
    split
    · exact h
    dsimp only
    split
    · exact h
    · split
      · exact h
      · split
        · exact h
        · exact writeGroup_wf (putLe_wf (by rw [dropLines_mem]; exact blurAlias_wf (Memory.copy_wf h ..) ..) ..) ..

theorem claimPage_wf {s : State} (h : s.mem.wf = true) (m : Moving) : (s.claimPage m).mem.wf = true := writeGroup_wf h ..

theorem releasePage_wf {s : State} (h : s.mem.wf = true) (m : Moving) (raw : Nat) : (s.releasePage m raw).mem.wf = true :=
  writeGroup_wf h ..

theorem finishEvict_wf {s : State} (h : s.mem.wf = true) (p : Nat) (m : Moving) : (s.finishEvict p m).mem.wf = true := by
  unfold State.finishEvict
  refine releasePage_wf ?_ ..
  simp only [modPart_mem, dropLines_mem]
  refine blurAlias_wf ?_ ..
  split
  · exact Memory.copy_wf h ..
  · exact h

theorem useLeaf_wf {s t : State} (h : s.mem.wf = true) {d p c va : Nat} {want : Want} {pa level out : Nat} {e : Pte}
    (ht : s.useLeaf d p c va want pa level e = .ok (t, out)) : t.mem.wf = true := by
  unfold State.useLeaf at ht
  simp only [] at ht
  split at ht
  · cases ht
  · cases ht
    have hm : ∀ raw, (if raw == e.raw then s else s.putLe pa 8 raw).mem.wf = true := by
      intro raw
      split
      · exact h
      · exact putLe_wf h ..
    exact hm _

theorem translate_wf {s t : State} (h : s.mem.wf = true) {d p c va out : Nat} {want : Want}
    (ht : s.translate d p c va want = .ok (t, out)) : t.mem.wf = true := by
  unfold State.translate at ht
  simp only [] at ht
  have walked : ∀ {u o}, (match s.walkReach d p c va, s.walk p c va with
      | .hold, _ => .error .held
      | .broken, _ => .error .bad
      | .ok, .leaf pa level e => s.useLeaf d p c va want pa level e
      | .ok, .tiered pa level _ => .error (.tiered pa level va)
      | .ok, .bad => .error .bad) = Except.ok (u, o) → u.mem.wf = true := by
    intro u o hu
    split at hu
    · cases hu
    · cases hu
    · exact useLeaf_wf h hu
    · cases hu
    · cases hu
  split at ht
  · exact walked ht
  · split at ht
    · split at ht
      · cases ht; exact h
      · split at ht
        · cases ht; exact h
        · cases ht; exact walked ‹_›
    · split at ht
      · cases ht; exact h
      · cases ht

theorem resolve_wf {s t : State} (h : s.mem.wf = true) {g d p c va n : Nat} {want : Want} {l : Loc}
    (ht : s.resolve g d p c va n want = some (t, l)) : t.mem.wf = true := by
  unfold State.resolve at ht
  split at ht
  · cases ht
  · split at ht
    · split at ht
      · cases ht; exact h
      · cases ht
    · split at ht
      · cases ht; exact translate_wf h ‹_›
      · cases ht
      · cases ht
      · have hf := fetchPage_wf h p c va d false
        split at ht
        · rename_i hp
          rw [hp] at hf
          split at ht
          · cases ht; exact translate_wf hf ‹_›
          · cases ht
        · cases ht

theorem unitRead_wf {s t : State} (h : s.mem.wf = true) {w va : Nat} {want : Want} {x : Word}
    (ht : s.unitRead w va want = some (t, x)) : t.mem.wf = true := by
  unfold State.unitRead at ht
  simp only [] at ht
  split at ht
  · split at ht
    · cases ht
    · cases ht; exact resolve_wf h ‹_›
  · split at ht
    · cases ht
    · cases ht; exact resolve_wf h ‹_›
  · cases ht

/-- A write of an engine of a group keeps the form: in the scratchpads, in staging, or at the home points. -/
theorem engineWriteAll_wf {s : State} (h : s.mem.wf = true) (g : Nat) (direct : Bool) (spb mb : List (Nat × Byte)) :
    (s.engineWriteAll g direct spb mb).mem.wf = true := by
  unfold State.engineWriteAll
  have ite := fun {c : Prop} [Decidable c] {a b : State} => @ite_wf State (fun x => x.mem.wf = true) c _ a b
  dsimp only
  generalize hu : (if spb.isEmpty = true then s else _) = u
  have h1 : u.mem.wf = true := by
    subst hu
    refine ite h ?_
    split <;> exact h
  exact ite h1 (ite (by simpa using h1) (foldl_wf _ (fun u a hu => by simpa using hu) _ (writeMem_wf (by simpa using h1) _)))

theorem engineWrite_wf {s : State} (h : s.mem.wf = true) (g : Nat) (direct : Bool) (l : Loc) (bs : List Byte) :
    (s.engineWrite g direct l bs).mem.wf = true := by
  unfold State.engineWrite
  split <;> exact engineWriteAll_wf h ..

theorem putStamp_wf {s : State} (h : s.mem.wf = true) (g d p c : Nat) (direct : Bool) (va : Word) (st : BitVec 8) :
    (s.putStamp g d p c direct va st).1.mem.wf = true := by
  unfold State.putStamp
  split
  · exact h
  · rename_i u l e
    have hu : u.mem.wf = true := resolve_wf h e
    dsimp only
    have ite := fun {c : Prop} [Decidable c] {a b : State × Except (BitVec 8) (List Byte)} =>
      @ite_wf _ (fun q => q.1.mem.wf = true) c _ a b
    exact ite h (ite h (ite h (engineWrite_wf hu ..)))

theorem writeStamp_wf {s : State} (h : s.mem.wf = true) (g d p c : Nat) (direct : Bool) (va : Word) (st : BitVec 8) :
    (s.writeStamp g d p c direct va st).mem.wf = true := putStamp_wf h ..

/-! The race detector -/

theorem logRace_wf {s : State} (h : s.mem.wf = true) (w : Nat) (a : Access) (pos : Pos) (lane va entry : Nat) :
    (s.logRace w a pos lane va entry).mem.wf = true := by
  unfold State.logRace
  have put : ∀ {u : State} (x : Nat) (bs : List Byte), u.mem.wf = true →
      (match u.resolve (s.wave w).id.group (u.waveDie w) (s.wave w).id.part (s.wave w).id.ctx x bs.length .store with
        | some (s', .mem pa) => s'.writeMem (placed pa bs)
        | some (s', .sp _) => s'
        | none => u).mem.wf = true := by
    intro u x bs hu
    split
    · exact writeMem_wf (resolve_wf hu ‹_›) _
    · exact resolve_wf hu ‹_›
    · exact hu
  exact ite_wf (p := fun x : State => x.mem.wf = true) (put _ _ h) (put _ _ (put _ _ h))

theorem recordAccesses_wf {s : State} (h : s.mem.wf = true) (w : Nat) (a : Access) (l : List (Nat × Nat × Nat)) :
    (s.recordAccesses w a l).mem.wf = true := by
  unfold State.recordAccesses
  have ite := fun {c : Prop} [Decidable c] {a b : State} => @ite_wf State (fun x => x.mem.wf = true) c _ a b
  dsimp only
  refine ite ?_ (foldl_wf _ (fun v k hv => putLe_wf hv ..) _ ?_) <;>
  · refine ite ?_ ?_ <;>
    · try simp only [State.releaseInterval, modWave_mem]
      refine ite (foldl_wf _ (fun v k hv => ?_) _ h) h
      exact ite hv hv

theorem logConflicts_wf {s : State} (h : s.mem.wf = true) (w : Nat) (a : Access) (by_ : Origin)
    (cs : List (Nat × Nat × Nat × Nat)) : (s.logConflicts w a by_ cs).mem.wf = true := by
  have each : ∀ ks : List Nat, (ks.foldl (fun (u : State) k => match cs.find? fun q => q.2.2.1 == k with
      | some q => u.logRace w a by_.pos q.1 q.2.1 q.2.2.2
      | none => u) s).mem.wf = true := fun ks => foldl_wf _ (fun u k hu => by
    split
    · exact logRace_wf hu ..
    · exact hu) ks h
  unfold State.logConflicts
  dsimp only
  split
  · exact each _
  · rw [modWave_mem]; exact each _

theorem raceEngine_wf {s : State} (h : s.mem.wf = true) (w : Nat) (a : Access) (by_ : Origin) (l : List (Nat × Nat)) :
    (s.raceEngine w a by_ l).mem.wf = true := by
  unfold State.raceEngine
  refine ite_wf (p := fun x : State => x.mem.wf = true) h (recordAccesses_wf ?_ ..)
  exact ite_wf (p := fun x : State => x.mem.wf = true) (logConflicts_wf h ..) h

theorem stampFor_wf {s : State} (h : s.mem.wf = true) (g d p c : Nat) (direct : Bool) (w : Nat) (o : Order) (sc : Scope)
    (by_ : Origin) (va : Word) (st : BitVec 8) : (s.stampFor g d p c direct w o sc by_ va st).1.mem.wf = true := by
  unfold State.stampFor
  have hp := putStamp_wf h g d p c direct va st
  split
  · rename_i e; rw [e] at hp; exact raceEngine_wf hp ..
  · exact hp

theorem clearBusy_wf {s : State} (h : s.mem.wf = true) (x : NCmd) (direct : Bool) (a : Word) :
    (s.clearBusy x direct a).mem.wf = true := by
  unfold State.clearBusy
  simp only []
  split
  · exact h
  · have hr := raceEngine_wf (resolve_wf h ‹_›) x.wave
      { kind := .engineWrite, acq := false, rel := false, sc := x.sc } x.origin [((a + 7).toNat, 1)]
    split
    · exact engineWrite_wf (engineWrite_wf hr ..) ..
    · exact engineWrite_wf hr ..

theorem abandonRescales_wf {s : State} (h : s.mem.wf = true) (g : Nat) : (s.abandonRescales g).mem.wf = true := by
  unfold State.abandonRescales
  refine foldl_wf _ (fun s a hs => ?_) _ h
  split
  · exact clearBusy_wf hs ..
  · exact hs

theorem dropCommands_wf {s : State} (h : s.mem.wf = true) (g : Nat) (stamps : Bool) :
    (s.dropCommands g stamps).mem.wf = true := by
  unfold State.dropCommands
  simp only []
  split
  · refine foldl_wf _ (fun s a hs => ?_) _ ?_
    · split
      · exact stampFor_wf hs ..
      · exact hs
    · exact abandonRescales_wf (by simpa using h) g
  · exact h

@[simp] theorem renewSave_mem (s : State) (g : Nat) : (s.renewSave g).mem = s.mem :=
  ite_mem rfl (by refine foldl_mem _ ?_ _ s; intros; rfl)

@[simp] theorem restoreTurn_mem (s : State) (g : Nat) (sn : Snapshot) : (s.restoreTurn g sn).mem = s.mem := by
  unfold State.restoreTurn
  refine ite_mem (ite_mem (switch_mem ..) rfl) (ite_mem rfl ?_)
  dsimp only
  rw [modCore_mem]
  refine foldl_mem _ ?_ _ s
  intros; rfl

@[simp] theorem thaw_mem (s : State) (g : Nat) : (s.thaw g).mem = s.mem := ite_mem rfl rfl
@[simp] theorem pathSlot_mem (s : State) (w : Nat) : (s.pathSlot w).mem = s.mem := rfl

@[simp] theorem restoreRotation_mem (s : State) (g : Nat) : (s.restoreRotation g).mem = s.mem := by
  unfold State.restoreRotation
  split
  · exact restoreTurn_mem ..
  · rfl

@[simp] theorem takeSlots_mem (s : State) (g : Nat) (l : List Nat) : (s.takeSlots g l).mem = s.mem := by
  refine foldl_mem _ (fun u w => ?_) _ s
  refine ite_mem ?_ rfl
  split <;> rfl

theorem restoreCopy_wf {s : State} (h : s.mem.wf = true) (g : Nat) : (s.restoreCopy g).mem.wf = true := by
  unfold State.restoreCopy
  have hd : ((s.dropCommands g false).undoHeap g).mem.wf = true := by simpa using dropCommands_wf h g false
  generalize (s.dropCommands g false).undoHeap g = u at hd
  have hr : (match (u.group g).snap with | some sn => u.redoRescales g sn.rescales | none => u).mem = u.mem := by
    split
    · exact redoRescales_mem ..
    · rfl
  have hv := hr ▸ hd
  dsimp only
  have hf : ∀ (l : List (Nat × Wave)) (f : Nat × Wave → Wave → Wave) (x : State),
      (l.foldl (fun s q => s.modWave q.1 (f q)) x).mem = x.mem := fun l f x => by refine foldl_mem _ ?_ l x; intros; rfl
  split
  · exact hv
  · rw [renewSave_mem]
    split
    · rw [modGroup_mem, takeSlots_mem, hf, modCore_mem]; exact hv
    · rw [modCore_mem, modGroup_mem, takeSlots_mem, hf, modCore_mem]; exact hv

theorem rerun_wf {s : State} (h : s.mem.wf = true) (g : Nat) : (s.rerun g).mem.wf = true := by
  unfold State.rerun
  exact foldl_wf _ (fun u a hu => by simpa using hu) _ (foldl_wf _ (fun u a hu => restoreCopy_wf hu a) _ h)

theorem overPages_wf (p c : Nat) (f : State → Nat → State × BitVec 8)
    (hf : ∀ s a, s.mem.wf = true → (f s a).1.mem.wf = true) (stop k : Nat) {s : State} (h : s.mem.wf = true) (va : Nat)
    (st : BitVec 8) : (State.overPages p c f stop k s va st).1.mem.wf = true := by
  induction k generalizing s va st with
  | zero => exact h
  | succ k ih =>
    unfold State.overPages
    simp only []
    split
    · exact h
    · exact ih (hf _ _ h) ..

theorem setPin_wf {s : State} (h : s.mem.wf = true) (pa level : Nat) (e : Pte) (b : Bool) :
    (s.setPin pa level e b).mem.wf = true := by
  unfold State.setPin
  split
  · exact foldl_wf _ (fun s a hs => putLe_wf hs ..) _ h
  · exact h

theorem bringPage_wf (p c d : Nat) (pin : Bool) (s : State) (va : Nat) (h : s.mem.wf = true) :
    (State.bringPage p c d pin s va).1.mem.wf = true := by
  unfold State.bringPage
  split
  · have hf := fetchPage_wf h p c va d pin
    split
    · rename_i e; rw [e] at hf; exact hf
    · rename_i e; rw [e] at hf; exact hf
  · simp only []
    split
    · exact setPin_wf h ..
    · exact h
  · exact h

theorem startEntry_wf {s : State} (h : s.mem.wf = true) (l k : Nat) (e : SEntry) : (s.startEntry l k e).mem.wf = true := by
  unfold State.startEntry
  simp only [modLaunch_mem]
  split
  · exact overPages_wf _ _ _ (fun s a hs => bringPage_wf _ _ _ _ s a hs) _ _ h ..
  · exact overPages_wf _ _ _ (fun s a hs => bringPage_wf _ _ _ _ s a hs) _ _ h ..
  · exact h

theorem startEntries_wf {s : State} (h : s.mem.wf = true) (l : Nat) : (s.startEntries l).mem.wf = true := by
  unfold State.startEntries
  split
  · exact h
  · refine foldl_wf _ (fun s a hs => ?_) _ h
    split
    · exact startEntry_wf hs ..
    · exact hs

theorem followMarkers_wf {s : State} (h : s.mem.wf = true) (l : Nat) : (s.followMarkers l).mem.wf = true := by
  unfold State.followMarkers
  simp only []
  split
  · exact h
  · split
    · exact h
    · exact startEntries_wf (by simpa using h) l

@[simp] theorem flushBin_mem (s : State) (l n b : Nat) : (s.flushBin l n b).mem = s.mem := by
  unfold State.flushBin
  refine foldl_mem _ (fun s a => ?_) _ s
  split <;> simp

theorem virtWrite_wf (q : Sender) (d p c k : Nat) {s : State} (h : s.mem.wf = true) (va : Nat) (bs : List Byte) :
    (State.virtWrite q d p c k s va bs).mem.wf = true := by
  induction k generalizing s va bs with
  | zero => exact h
  | succ k ih =>
    unfold State.virtWrite
    have drop : ∀ (ks cs : List Nat) (u : State), u.mem.wf = true → (cs.foldl (fun (s : State) c => s.l1Drop c ks) u).mem.wf = true :=
      fun ks cs u hu => foldl_wf _ (fun v a hv => by simpa using hv) cs hu
    have h1 : (match s.resolve s.groups.length d p c va (min (0x10000 - va % 0x10000) bs.length) .store with
        | some (s', .mem pa) =>
          let b := placed pa (bs.take (0x10000 - va % 0x10000))
          let s' := s'.raceEngine q.wave { kind := .engineWrite, acq := false, rel := false, sc := q.sc } q.origin
            [(va, min (0x10000 - va % 0x10000) bs.length)]
          let s' := (s'.touchCode ((List.range (min (0x10000 - va % 0x10000) bs.length)).map (pa + ·))).writeMem b
          (s'.copyCores (s'.wave q.wave).id.group).foldl (fun (s : State) c => s.l1Drop c ((b.map fun (q : Nat × Byte) => q.1 / 32).eraseDups)) s'
        | _ => s).mem.wf = true := by
      split
      · exact drop _ _ _ (writeMem_wf (by simpa using raceEngine_wf (resolve_wf h ‹_›) ..) _)
      · exact h
    exact ite_wf (p := fun x : State => x.mem.wf = true) h1 (ih h1 _ _)

theorem appendRecord_wf {s t : State} (h : s.mem.wf = true) {l n b : Nat} {bs : List Byte}
    {q : Sender} (ht : s.appendRecord l n b bs q = some t) : t.mem.wf = true := by
  unfold State.appendRecord at ht
  simp only [] at ht
  split at ht
  · cases ht
  · cases ht
    split <;> simp only [closeBatch_mem, modBatch_mem] <;> exact virtWrite_wf _ _ _ _ _ h _ _

theorem settleNodes_wf (l k : Nat) {s : State} (h : s.mem.wf = true) : (State.settleNodes l k s).mem.wf = true := by
  induction k generalizing s with
  | zero => exact h
  | succ k ih =>
    unfold State.settleNodes
    split
    · exact h
    · exact ih (by simpa using h)
    · split
      · exact h
      · exact ih (by simpa using appendRecord_wf h ‹_›)

theorem freeBatch_wf {s : State} (h : s.mem.wf = true) (l : Nat) (nb : Nat × Nat × Nat × Nat) :
    (s.freeBatch l nb).mem.wf = true := settleNodes_wf l _ (by simpa using h)

theorem perform_wf {s : State} (h : s.mem.wf = true) (w : Nat) (q : QStore) : (s.perform w q).mem.wf = true := by
  unfold State.perform
  rcases q.key with _ | k
  all_goals
    simp only []
    split
    · simpa using h
    · split
      · simpa using h
      · rw [l1Store_mem]
        refine writeMem_wf ?_ _
        split <;> simpa using h

theorem performOut_wf {s : State} (h : s.mem.wf = true) (c : Nat) : (s.performOut c).mem.wf = true :=
  foldl_wf _ (fun _ _ hs => perform_wf hs ..) _ (ite_wf (p := fun x : State => x.mem.wf = true) h h)

theorem performOne_wf {s : State} (h : s.mem.wf = true) (w : Nat) : (s.performOne w).mem.wf = true := by
  unfold State.performOne
  split
  · exact h
  · exact perform_wf (by simpa using h) ..

theorem performAll_wf {s : State} (h : s.mem.wf = true) (w : Nat) : (s.performAll w).mem.wf = true :=
  foldl_wf _ (fun _ _ hs => performOne_wf hs w) _ (performOut_wf h _)

theorem abandonStores_wf {s : State} (h : s.mem.wf = true) (w : Nat) : (s.abandonStores w).mem.wf = true := by
  unfold State.abandonStores
  have h1 := performOut_wf h (s.wave w).id.core
  exact ite_wf (p := fun x : State => x.mem.wf = true) h1 (foldl_wf _ (fun _ _ hs => performOne_wf hs w) _ h1)

/-! Barriers -/

theorem applyAodLane_wf {s : State} (h : s.mem.wf = true) (a : Aod) (l pa v : Nat) : (s.applyAodLane a l pa v).1.mem.wf = true := by
  unfold State.applyAodLane
  refine ite_wf (p := fun q : State × Nat => q.1.mem.wf = true) h ?_
  exact foldl_wf _ (fun u c hu => by simpa using hu) _ (putLe_wf h ..)

theorem applyAod_wf {s : State} (h : s.mem.wf = true) (a : Aod) : (s.applyAod a).mem.wf = true := by
  unfold State.applyAod
  have hf : ∀ (l : List ((Nat × Nat) × Word)) (u : State) (xs : List (Nat × Nat)), u.mem.wf = true →
      (l.foldl (fun (acc : State × List (Nat × Nat)) q =>
        let r := acc.1.applyAodLane a q.1.1 q.1.2 q.2.toNat
        (r.1, acc.2 ++ [(q.1.1, r.2)])) (u, xs)).1.mem.wf = true := by
    intro l
    induction l with
    | nil => intro u xs hu; exact hu
    | cons q t ih => intro u xs hu; exact ih _ _ (applyAodLane_wf hu ..)
  simpa using hf _ s [] h

@[simp] theorem setBarrier_mem (s : State) (owner : Nat) (b : Barrier) : (s.setBarrier owner b).mem = s.mem := ite_mem rfl rfl

theorem completePhase_wf {s : State} (h : s.mem.wf = true) (owner : Nat) (b : Barrier) : (s.completePhase owner b).mem.wf = true := by
  unfold State.completePhase
  have h1 := foldl_wf State.applyAod (fun u a hu => applyAod_wf hu a) (sortBy s.aodBefore (b.aods.filter fun a => a.phase == b.phase)) h
  dsimp only
  split
  · rw [setBarrier_mem]; exact h1
  · rw [modLaunch_mem, setBarrier_mem]; exact h1

/-- Settling a barrier keeps the form of memory, into which a phase puts its ordered atomics. -/
theorem settle_wf {s : State} (h : s.mem.wf = true) (sc : Scope) (owner unit : Nat) (id : BitVec 4) :
    (s.settle sc owner unit id).mem.wf = true :=
  ite_wf (p := fun x : State => x.mem.wf = true) (completePhase_wf h ..) h

theorem settlePhases_wf {s : State} (h : s.mem.wf = true) (g : Nat) : (s.settlePhases g).mem.wf = true :=
  foldl_wf _ (fun _ _ hu => settle_wf hu ..) _ (foldl_wf _ (fun _ _ hu => settle_wf hu ..) _ h)

theorem closeGroup_wf {s : State} (h : s.mem.wf = true) (g : Nat) (a : Bool) : (s.closeGroup g a).mem.wf = true := by
  unfold State.closeGroup
  have h1 := foldl_wf (fun (s : State) w => if (s.wave w).sch.halted then s.modWave w Wave.still else s.endWave w)
    (fun u v hu => ite_wf (p := fun x : State => x.mem.wf = true) hu hu) (s.group g).waves h
  simp only []
  split
  · exact followMarkers_wf (settlePhases_wf (by simpa using h1) g) _
  · refine followMarkers_wf ?_ _
    rw [modLaunch_mem]
    split
    · exact freeBatch_wf (settlePhases_wf (by simpa using h1) g) ..
    · exact settlePhases_wf (by simpa using h1) g

theorem abortGroup_wf {s : State} (h : s.mem.wf = true) (g : Nat) : (s.abortGroup g).mem.wf = true := by
  unfold State.abortGroup
  generalize s.primaryOf g = g
  simp only []
  split
  · exact h
  · split
    · refine rerun_wf ?_ _
      split <;> simpa using h
    · have h1 : (if s.staged g = true then s else (s.group g).waves.foldl State.abandonStores s).mem.wf = true := by
        split
        · exact h
        · exact foldl_wf _ (fun _ _ hs => abandonStores_wf hs _) _ h
      have hc : ∀ {u : State} (v : Nat) (b : Bool), u.mem.wf = true → (((u.undoHeap v).dropCommands v b).closeGroup v true).mem.wf = true :=
        fun v b hu => closeGroup_wf (dropCommands_wf (by simpa using hu) v b) v true
      split
      · exact hc _ _ (hc _ _ h1)
      · exact hc _ _ h1

/-! Traps -/

theorem secondErrorOf_wf {s : State} (h : s.mem.wf = true) (w : Nat) (c : BitVec 6) (r : TrapRec) :
    (s.secondErrorOf w c r).mem.wf = true := abortGroup_wf (by simpa using h) _

theorem handler_wf {s t : State} (h : s.mem.wf = true) {w : Nat} {c : BitVec 6} {x : Word}
    (ht : s.handler w c = some (t, x)) : t.mem.wf = true := by
  unfold State.handler at ht
  simp only [] at ht
  split at ht
  · cases ht; exact h
  · exact unitRead_wf h ht

theorem leave_wf {s : State} (h : s.mem.wf = true) (w : Nat) : (s.leave w).mem.wf = true := by
  unfold State.leave
  dsimp only
  refine ite_wf (p := fun x : State => x.mem.wf = true) (closeGroup_wf ?_ ..) ?_
  · exact h
  · rw [thaw_mem]; refine settlePhases_wf ?_ _; exact h

theorem removeLanes_wf {s : State} (h : s.mem.wf = true) (w : Nat) (m : Mask) : (s.removeLanes w m).mem.wf = true := by
  have set : ∀ y, (s.setWave w y).mem.wf = true := fun y => by rw [setWave_mem]; exact h
  unfold State.removeLanes
  dsimp only
  split
  · split
    · exact set _
    · rw [pathSlot_mem]; exact set _
  · split
    · exact leave_wf (set _) w
    · exact set _

theorem settleDying_wf {s : State} (h : s.mem.wf = true) (w : Nat) : (s.settleDying w).mem.wf = true := by
  unfold State.settleDying
  refine ite_wf (p := fun x : State => x.mem.wf = true) h (removeLanes_wf ?_ ..)
  rw [modWave_mem]; exact h

theorem take_wf {s : State} (h : s.mem.wf = true) (w : Nat) (t : TrapReq) : (s.take w t).mem.wf = true := by
  unfold State.take
  have h0 := settleDying_wf h w
  generalize s.settleDying w = u at h0
  simp only []
  split
  · exact h0
  · split
    · exact secondErrorOf_wf h0 ..
    · split
      · exact secondErrorOf_wf h0 ..
      · have h1 := handler_wf h0 ‹_›
        split
        · exact secondErrorOf_wf h1 ..
        · split
          · exact secondErrorOf_wf h1 ..
          · have h2 := unitRead_wf h1 ‹_›
            split
            · exact secondErrorOf_wf h2 ..
            · exact h2

theorem trapped_wf {s : State} (h : s.mem.wf = true) (w : Nat) (t : TrapReq) : (s.trapped w t).mem.wf = true := take_wf h w t

/-! Issue -/

/-- Everything an issued instruction can come to: nothing runs; its effect and the move of the path; a trap; a stall; a next
state that it made itself. -/
theorem issueWith_next {s t : State} {move : Wave → Wave} {f : Nat → Eff State} (h : issueWith s move f = .next t) :
    (s.running = none ∧ t = s) ∨ ∃ w, s.running = some w ∧
      ((∃ u, f w = .ok u ∧ t = (u.modWave w move).retire w (s.wave w)) ∨ (∃ r, f w = .error (.trap r) ∧ t = s.trapped w r) ∨
       (∃ y u, f w = .error (.stall y u) ∧ t = (u.stallWave w y).tick) ∨ f w = .error (.done t)) := by
  unfold issueWith at h
  split at h
  · cases h; exact .inl ⟨‹_›, rfl⟩
  · refine .inr ⟨_, ‹_›, ?_⟩
    split at h
    · cases h; exact .inl ⟨_, ‹_›, rfl⟩
    · cases h; exact .inr (.inl ⟨_, ‹_›, rfl⟩)
    · cases h; exact .inr (.inr (.inl ⟨_, _, ‹_›, rfl⟩))
    · cases h; exact .inr (.inr (.inr ‹_›))
    · cases h

/-- A next state follows when the effect is computed. -/
theorem issueWith_ok {s u : State} {w : Nat} (move : Wave → Wave) {f : Nat → Eff State} (hw : s.running = some w)
    (hf : f w = .ok u) : issueWith s move f = .next ((u.modWave w move).retire w (s.wave w)) := by
  simp [issueWith, hw, hf]

theorem issueWith_trap {s : State} {w : Nat} (move : Wave → Wave) {f : Nat → Eff State} {r : TrapReq}
    (hw : s.running = some w) (hf : f w = .error (.trap r)) : issueWith s move f = .next (s.trapped w r) := by
  simp [issueWith, hw, hf]

theorem issueWith_stall {s u : State} {w : Nat} (move : Wave → Wave) {f : Nat → Eff State} {y : Why}
    (hw : s.running = some w) (hf : f w = .error (.stall y u)) : issueWith s move f = .next (u.stallWave w y).tick := by
  simp [issueWith, hw, hf]

/-- An issued instruction keeps the form of memory if its effect does. -/
theorem issueWith_wf {s t : State} (h : s.mem.wf = true) {move : Wave → Wave} {f : Nat → Eff State}
    (hok : ∀ w u, f w = .ok u → u.mem.wf = true) (hst : ∀ w y u, f w = .error (.stall y u) → u.mem.wf = true)
    (hdone : ∀ w u, f w = .error (.done u) → u.mem.wf = true) (ht : issueWith s move f = .next t) : t.mem.wf = true := by
  obtain ⟨-, rfl⟩ | ⟨w, -, ⟨u, hu, rfl⟩ | ⟨r, -, rfl⟩ | ⟨y, u, hu, rfl⟩ | hd⟩ := issueWith_next ht
  · exact h
  · exact hok w u hu
  · exact trapped_wf h w r
  · simpa using hst w y u hu
  · exact hdone w t hd

/-- Everything a step of another agent can come to. -/
theorem event_next {s t : State} {e : Bool} {f : State → State} (h : event s e f = .next t) :
    (e = false ∧ t = s) ∨ (e = true ∧ t = (f s).tick) := by
  unfold event at h
  split at h
  · cases h; exact .inr ⟨‹_›, rfl⟩
  · cases h; exact .inl ⟨by simpa using ‹¬ e = true›, rfl⟩

theorem event_ok {s : State} {f : State → State} : event s true f = .next (f s).tick := rfl

theorem event_wf {s t : State} (h : s.mem.wf = true) {e : Bool} {f : State → State} (hf : (f s).mem.wf = true)
    (ht : event s e f = .next t) : t.mem.wf = true := by
  obtain ⟨-, rfl⟩ | ⟨-, rfl⟩ := event_next ht
  · exact h
  · exact hf

end Sys2Proof.Machine
end

