-- ==== Sys2Proof/Laws/PerInstr.lean ====
section
/-! SUPPORT. The family FieldRoundTrip: the decoder, given the fields that the encoder writes for a well-formed instruction, gives
that instruction back; one lemma per constructor. The statement about whole words rests on it. -/

set_option Elab.async false
set_option linter.unusedSimpArgs false
set_option linter.unusedVariables false

namespace Sys2Proof.Laws.FieldRoundTrip

/-- The fields of a well-formed instruction decode to it; a step of another agent has no fields. -/
def Statement (i : Instr) : Prop := i.wellFormed = true → ∀ f, i.fields = some f → decodeFields f = .ok i

theorem nop a0 : Statement (.nop a0) := by
  intro h f hf; cases hf; (try simp [Instr.wellFormed] at h)
  simp [decodeFields, Fields.cls, decodeClass0, Fields.operation, noGuards, modZero, unused, unused4, must, named, modFlag, modTag, modCvt, modScope, modOS, lowFlag, lowStream, lowFlag4, lowPred, mwaitE, Fields.guards, bind, Except.bind, pure, Except.pure, *]

theorem bru a0 : Statement (.bru a0) := by
  intro h f hf; cases hf; (try simp [Instr.wellFormed] at h)
  simp [decodeFields, Fields.cls, decodeClass0, Fields.operation, noGuards, modZero, unused, unused4, must, named, modFlag, modTag, modCvt, modScope, modOS, lowFlag, lowStream, lowFlag4, lowPred, mwaitE, Fields.guards, bind, Except.bind, pure, Except.pure, *]

theorem brs a0 a1 a2 : Statement (.brs a0 a1 a2) := by
  intro h f hf; cases hf; (try simp [Instr.wellFormed] at h)
  simp [decodeFields, Fields.cls, decodeClass0, Fields.operation, noGuards, modZero, unused, unused4, must, named, modFlag, modTag, modCvt, modScope, modOS, lowFlag, lowStream, lowFlag4, lowPred, mwaitE, Fields.guards, bind, Except.bind, pure, Except.pure, *]

theorem jmps a0 : Statement (.jmps a0) := by
  intro h f hf; cases hf; (try simp [Instr.wellFormed] at h)
  simp [decodeFields, Fields.cls, decodeClass0, Fields.operation, noGuards, modZero, unused, unused4, must, named, modFlag, modTag, modCvt, modScope, modOS, lowFlag, lowStream, lowFlag4, lowPred, mwaitE, Fields.guards, bind, Except.bind, pure, Except.pure, *]

theorem call a0 a1 : Statement (.call a0 a1) := by
  intro h f hf; cases hf; (try simp [Instr.wellFormed] at h)
  simp [decodeFields, Fields.cls, decodeClass0, Fields.operation, noGuards, modZero, unused, unused4, must, named, modFlag, modTag, modCvt, modScope, modOS, lowFlag, lowStream, lowFlag4, lowPred, mwaitE, Fields.guards, bind, Except.bind, pure, Except.pure, *]

theorem calls a0 a1 : Statement (.calls a0 a1) := by
  intro h f hf; cases hf; (try simp [Instr.wellFormed] at h)
  simp [decodeFields, Fields.cls, decodeClass0, Fields.operation, noGuards, modZero, unused, unused4, must, named, modFlag, modTag, modCvt, modScope, modOS, lowFlag, lowStream, lowFlag4, lowPred, mwaitE, Fields.guards, bind, Except.bind, pure, Except.pure, *]

theorem ret a0 : Statement (.ret a0) := by
  intro h f hf; cases hf; (try simp [Instr.wellFormed] at h)
  simp [decodeFields, Fields.cls, decodeClass0, Fields.operation, noGuards, modZero, unused, unused4, must, named, modFlag, modTag, modCvt, modScope, modOS, lowFlag, lowStream, lowFlag4, lowPred, mwaitE, Fields.guards, bind, Except.bind, pure, Except.pure, *]

theorem wait a0 a1 a2 a3 : Statement (.wait a0 a1 a2 a3) := by
  intro h f hf; cases hf; (try simp [Instr.wellFormed] at h)
  simp [decodeFields, Fields.cls, decodeClass0, Fields.operation, noGuards, modZero, unused, unused4, must, named, modFlag, modTag, modCvt, modScope, modOS, lowFlag, lowStream, lowFlag4, lowPred, mwaitE, Fields.guards, bind, Except.bind, pure, Except.pure, *]

theorem yield  : Statement (.yield ) := by
  intro h f hf; cases hf; (try simp [Instr.wellFormed] at h)
  simp [decodeFields, Fields.cls, decodeClass0, Fields.operation, noGuards, modZero, unused, unused4, must, named, modFlag, modTag, modCvt, modScope, modOS, lowFlag, lowStream, lowFlag4, lowPred, mwaitE, Fields.guards, bind, Except.bind, pure, Except.pure, *]

theorem bar a0 a1 : Statement (.bar a0 a1) := by
  intro h f hf; cases hf; (try simp [Instr.wellFormed] at h)
  simp [decodeFields, Fields.cls, decodeClass0, Fields.operation, noGuards, modZero, unused, unused4, must, named, modFlag, modTag, modCvt, modScope, modOS, lowFlag, lowStream, lowFlag4, lowPred, mwaitE, Fields.guards, bind, Except.bind, pure, Except.pure, *]

theorem bara a0 a1 : Statement (.bara a0 a1) := by
  intro h f hf; cases hf; (try simp [Instr.wellFormed] at h)
  simp [decodeFields, Fields.cls, decodeClass0, Fields.operation, noGuards, modZero, unused, unused4, must, named, modFlag, modTag, modCvt, modScope, modOS, lowFlag, lowStream, lowFlag4, lowPred, mwaitE, Fields.guards, bind, Except.bind, pure, Except.pure, *]

theorem barw a0 a1 : Statement (.barw a0 a1) := by
  intro h f hf; cases hf; (try simp [Instr.wellFormed] at h)
  simp [decodeFields, Fields.cls, decodeClass0, Fields.operation, noGuards, modZero, unused, unused4, must, named, modFlag, modTag, modCvt, modScope, modOS, lowFlag, lowStream, lowFlag4, lowPred, mwaitE, Fields.guards, bind, Except.bind, pure, Except.pure, *]

theorem exitw  : Statement (.exitw ) := by
  intro h f hf; cases hf; (try simp [Instr.wellFormed] at h)
  simp [decodeFields, Fields.cls, decodeClass0, Fields.operation, noGuards, modZero, unused, unused4, must, named, modFlag, modTag, modCvt, modScope, modOS, lowFlag, lowStream, lowFlag4, lowPred, mwaitE, Fields.guards, bind, Except.bind, pure, Except.pure, *]

theorem clkrd a0 : Statement (.clkrd a0) := by
  intro h f hf; cases hf; (try simp [Instr.wellFormed] at h)
  simp [decodeFields, Fields.cls, decodeClass0, Fields.operation, noGuards, modZero, unused, unused4, must, named, modFlag, modTag, modCvt, modScope, modOS, lowFlag, lowStream, lowFlag4, lowPred, mwaitE, Fields.guards, bind, Except.bind, pure, Except.pure, *]

theorem sadd a0 a1 a2 a3 : Statement (.sadd a0 a1 a2 a3) := by
  intro h f hf; cases hf; (try simp [Instr.wellFormed] at h)
  simp [decodeFields, Fields.cls, decodeClass1, Fields.operation, noGuards, modZero, unused, unused4, must, named, modFlag, modTag, modCvt, modScope, modOS, lowFlag, lowStream, lowFlag4, lowPred, mwaitE, Fields.guards, bind, Except.bind, pure, Except.pure, *]

theorem ssub a0 a1 a2 a3 : Statement (.ssub a0 a1 a2 a3) := by
  intro h f hf; cases hf; (try simp [Instr.wellFormed] at h)
  simp [decodeFields, Fields.cls, decodeClass1, Fields.operation, noGuards, modZero, unused, unused4, must, named, modFlag, modTag, modCvt, modScope, modOS, lowFlag, lowStream, lowFlag4, lowPred, mwaitE, Fields.guards, bind, Except.bind, pure, Except.pure, *]

theorem smul a0 a1 a2 : Statement (.smul a0 a1 a2) := by
  intro h f hf; cases hf; (try simp [Instr.wellFormed] at h)
  simp [decodeFields, Fields.cls, decodeClass1, Fields.operation, noGuards, modZero, unused, unused4, must, named, modFlag, modTag, modCvt, modScope, modOS, lowFlag, lowStream, lowFlag4, lowPred, mwaitE, Fields.guards, bind, Except.bind, pure, Except.pure, *]

theorem smulh a0 a1 a2 a3 : Statement (.smulh a0 a1 a2 a3) := by
  intro h f hf; cases hf; (try simp [Instr.wellFormed] at h)
  simp [decodeFields, Fields.cls, decodeClass1, Fields.operation, noGuards, modZero, unused, unused4, must, named, modFlag, modTag, modCvt, modScope, modOS, lowFlag, lowStream, lowFlag4, lowPred, mwaitE, Fields.guards, bind, Except.bind, pure, Except.pure, *]

theorem sdiv a0 a1 a2 a3 : Statement (.sdiv a0 a1 a2 a3) := by
  intro h f hf; cases hf; (try simp [Instr.wellFormed] at h)
  simp [decodeFields, Fields.cls, decodeClass1, Fields.operation, noGuards, modZero, unused, unused4, must, named, modFlag, modTag, modCvt, modScope, modOS, lowFlag, lowStream, lowFlag4, lowPred, mwaitE, Fields.guards, bind, Except.bind, pure, Except.pure, *]

theorem srem a0 a1 a2 a3 : Statement (.srem a0 a1 a2 a3) := by
  intro h f hf; cases hf; (try simp [Instr.wellFormed] at h)
  simp [decodeFields, Fields.cls, decodeClass1, Fields.operation, noGuards, modZero, unused, unused4, must, named, modFlag, modTag, modCvt, modScope, modOS, lowFlag, lowStream, lowFlag4, lowPred, mwaitE, Fields.guards, bind, Except.bind, pure, Except.pure, *]

theorem sand a0 a1 a2 : Statement (.sand a0 a1 a2) := by
  intro h f hf; cases hf; (try simp [Instr.wellFormed] at h)
  simp [decodeFields, Fields.cls, decodeClass1, Fields.operation, noGuards, modZero, unused, unused4, must, named, modFlag, modTag, modCvt, modScope, modOS, lowFlag, lowStream, lowFlag4, lowPred, mwaitE, Fields.guards, bind, Except.bind, pure, Except.pure, *]

theorem sor a0 a1 a2 : Statement (.sor a0 a1 a2) := by
  intro h f hf; cases hf; (try simp [Instr.wellFormed] at h)
  simp [decodeFields, Fields.cls, decodeClass1, Fields.operation, noGuards, modZero, unused, unused4, must, named, modFlag, modTag, modCvt, modScope, modOS, lowFlag, lowStream, lowFlag4, lowPred, mwaitE, Fields.guards, bind, Except.bind, pure, Except.pure, *]

theorem sxor a0 a1 a2 : Statement (.sxor a0 a1 a2) := by
  intro h f hf; cases hf; (try simp [Instr.wellFormed] at h)
  simp [decodeFields, Fields.cls, decodeClass1, Fields.operation, noGuards, modZero, unused, unused4, must, named, modFlag, modTag, modCvt, modScope, modOS, lowFlag, lowStream, lowFlag4, lowPred, mwaitE, Fields.guards, bind, Except.bind, pure, Except.pure, *]

theorem sshl a0 a1 a2 : Statement (.sshl a0 a1 a2) := by
  intro h f hf; cases hf; (try simp [Instr.wellFormed] at h)
  simp [decodeFields, Fields.cls, decodeClass1, Fields.operation, noGuards, modZero, unused, unused4, must, named, modFlag, modTag, modCvt, modScope, modOS, lowFlag, lowStream, lowFlag4, lowPred, mwaitE, Fields.guards, bind, Except.bind, pure, Except.pure, *]

theorem sshr a0 a1 a2 : Statement (.sshr a0 a1 a2) := by
  intro h f hf; cases hf; (try simp [Instr.wellFormed] at h)
  simp [decodeFields, Fields.cls, decodeClass1, Fields.operation, noGuards, modZero, unused, unused4, must, named, modFlag, modTag, modCvt, modScope, modOS, lowFlag, lowStream, lowFlag4, lowPred, mwaitE, Fields.guards, bind, Except.bind, pure, Except.pure, *]

theorem ssar a0 a1 a2 : Statement (.ssar a0 a1 a2) := by
  intro h f hf; cases hf; (try simp [Instr.wellFormed] at h)
  simp [decodeFields, Fields.cls, decodeClass1, Fields.operation, noGuards, modZero, unused, unused4, must, named, modFlag, modTag, modCvt, modScope, modOS, lowFlag, lowStream, lowFlag4, lowPred, mwaitE, Fields.guards, bind, Except.bind, pure, Except.pure, *]

theorem smin a0 a1 a2 a3 : Statement (.smin a0 a1 a2 a3) := by
  intro h f hf; cases hf; (try simp [Instr.wellFormed] at h)
  simp [decodeFields, Fields.cls, decodeClass1, Fields.operation, noGuards, modZero, unused, unused4, must, named, modFlag, modTag, modCvt, modScope, modOS, lowFlag, lowStream, lowFlag4, lowPred, mwaitE, Fields.guards, bind, Except.bind, pure, Except.pure, *]

theorem smax a0 a1 a2 a3 : Statement (.smax a0 a1 a2 a3) := by
  intro h f hf; cases hf; (try simp [Instr.wellFormed] at h)
  simp [decodeFields, Fields.cls, decodeClass1, Fields.operation, noGuards, modZero, unused, unused4, must, named, modFlag, modTag, modCvt, modScope, modOS, lowFlag, lowStream, lowFlag4, lowPred, mwaitE, Fields.guards, bind, Except.bind, pure, Except.pure, *]

theorem scmp a0 a1 a2 a3 : Statement (.scmp a0 a1 a2 a3) := by
  intro h f hf; cases hf; (try simp [Instr.wellFormed] at h)
  simp [decodeFields, Fields.cls, decodeClass1, Fields.operation, noGuards, modZero, unused, unused4, must, named, modFlag, modTag, modCvt, modScope, modOS, lowFlag, lowStream, lowFlag4, lowPred, mwaitE, Fields.guards, bind, Except.bind, pure, Except.pure, *]

theorem ssel a0 a1 a2 a3 : Statement (.ssel a0 a1 a2 a3) := by
  intro h f hf; cases hf; (try simp [Instr.wellFormed] at h)
  simp [decodeFields, Fields.cls, decodeClass1, Fields.operation, noGuards, modZero, unused, unused4, must, named, modFlag, modTag, modCvt, modScope, modOS, lowFlag, lowStream, lowFlag4, lowPred, mwaitE, Fields.guards, bind, Except.bind, pure, Except.pure, *]

theorem smov a0 a1 : Statement (.smov a0 a1) := by
  intro h f hf; cases hf; (try simp [Instr.wellFormed] at h)
  simp [decodeFields, Fields.cls, decodeClass1, Fields.operation, noGuards, modZero, unused, unused4, must, named, modFlag, modTag, modCvt, modScope, modOS, lowFlag, lowStream, lowFlag4, lowPred, mwaitE, Fields.guards, bind, Except.bind, pure, Except.pure, *]

theorem sli a0 a1 : Statement (.sli a0 a1) := by
  intro h f hf; cases hf; (try simp [Instr.wellFormed] at h)
  simp [decodeFields, Fields.cls, decodeClass1, Fields.operation, noGuards, modZero, unused, unused4, must, named, modFlag, modTag, modCvt, modScope, modOS, lowFlag, lowStream, lowFlag4, lowPred, mwaitE, Fields.guards, bind, Except.bind, pure, Except.pure, *]

theorem slih a0 a1 : Statement (.slih a0 a1) := by
  intro h f hf; cases hf; (try simp [Instr.wellFormed] at h)
  simp [decodeFields, Fields.cls, decodeClass1, Fields.operation, noGuards, modZero, unused, unused4, must, named, modFlag, modTag, modCvt, modScope, modOS, lowFlag, lowStream, lowFlag4, lowPred, mwaitE, Fields.guards, bind, Except.bind, pure, Except.pure, *]

theorem spopc a0 a1 : Statement (.spopc a0 a1) := by
  intro h f hf; cases hf; (try simp [Instr.wellFormed] at h)
  simp [decodeFields, Fields.cls, decodeClass1, Fields.operation, noGuards, modZero, unused, unused4, must, named, modFlag, modTag, modCvt, modScope, modOS, lowFlag, lowStream, lowFlag4, lowPred, mwaitE, Fields.guards, bind, Except.bind, pure, Except.pure, *]

theorem sclz a0 a1 : Statement (.sclz a0 a1) := by
  intro h f hf; cases hf; (try simp [Instr.wellFormed] at h)
  simp [decodeFields, Fields.cls, decodeClass1, Fields.operation, noGuards, modZero, unused, unused4, must, named, modFlag, modTag, modCvt, modScope, modOS, lowFlag, lowStream, lowFlag4, lowPred, mwaitE, Fields.guards, bind, Except.bind, pure, Except.pure, *]

theorem sbfe a0 a1 a2 a3 a4 : Statement (.sbfe a0 a1 a2 a3 a4) := by
  intro h f hf; cases hf; (try simp [Instr.wellFormed] at h)
  simp [decodeFields, Fields.cls, decodeClass1, Fields.operation, noGuards, modZero, unused, unused4, must, named, modFlag, modTag, modCvt, modScope, modOS, lowFlag, lowStream, lowFlag4, lowPred, mwaitE, Fields.guards, bind, Except.bind, pure, Except.pure, *]

theorem sbfi a0 a1 a2 a3 : Statement (.sbfi a0 a1 a2 a3) := by
  intro h f hf; cases hf; (try simp [Instr.wellFormed] at h)
  simp [decodeFields, Fields.cls, decodeClass1, Fields.operation, noGuards, modZero, unused, unused4, must, named, modFlag, modTag, modCvt, modScope, modOS, lowFlag, lowStream, lowFlag4, lowPred, mwaitE, Fields.guards, bind, Except.bind, pure, Except.pure, *]

theorem srdsp a0 a1 a2 : Statement (.srdsp a0 a1 a2) := by
  intro h f hf; cases hf; (try simp [Instr.wellFormed] at h)
  simp [decodeFields, Fields.cls, decodeClass1, Fields.operation, noGuards, modZero, unused, unused4, must, named, modFlag, modTag, modCvt, modScope, modOS, lowFlag, lowStream, lowFlag4, lowPred, mwaitE, Fields.guards, bind, Except.bind, pure, Except.pure, *]

theorem swrsp a0 a1 a2 : Statement (.swrsp a0 a1 a2) := by
  intro h f hf; cases hf; (try simp [Instr.wellFormed] at h)
  simp [decodeFields, Fields.cls, decodeClass1, Fields.operation, noGuards, modZero, unused, unused4, must, named, modFlag, modTag, modCvt, modScope, modOS, lowFlag, lowStream, lowFlag4, lowPred, mwaitE, Fields.guards, bind, Except.bind, pure, Except.pure, *]

theorem add a0 a1 a2 a3 a4 a5 : Statement (.add a0 a1 a2 a3 a4 a5) := by
  intro h f hf; cases hf; (try simp [Instr.wellFormed] at h)
  simp [decodeFields, Fields.cls, decodeClass2, Fields.operation, noGuards, modZero, unused, unused4, must, named, modFlag, modTag, modCvt, modScope, modOS, lowFlag, lowStream, lowFlag4, lowPred, mwaitE, Fields.guards, bind, Except.bind, pure, Except.pure, *]

theorem sub a0 a1 a2 a3 a4 a5 : Statement (.sub a0 a1 a2 a3 a4 a5) := by
  intro h f hf; cases hf; (try simp [Instr.wellFormed] at h)
  simp [decodeFields, Fields.cls, decodeClass2, Fields.operation, noGuards, modZero, unused, unused4, must, named, modFlag, modTag, modCvt, modScope, modOS, lowFlag, lowStream, lowFlag4, lowPred, mwaitE, Fields.guards, bind, Except.bind, pure, Except.pure, *]

theorem mul a0 a1 a2 a3 a4 a5 : Statement (.mul a0 a1 a2 a3 a4 a5) := by
  intro h f hf; cases hf; (try simp [Instr.wellFormed] at h)
  simp [decodeFields, Fields.cls, decodeClass2, Fields.operation, noGuards, modZero, unused, unused4, must, named, modFlag, modTag, modCvt, modScope, modOS, lowFlag, lowStream, lowFlag4, lowPred, mwaitE, Fields.guards, bind, Except.bind, pure, Except.pure, *]

theorem mad a0 a1 a2 a3 a4 a5 a6 : Statement (.mad a0 a1 a2 a3 a4 a5 a6) := by
  intro h f hf; cases hf; (try simp [Instr.wellFormed] at h)
  simp [decodeFields, Fields.cls, decodeClass2, Fields.operation, noGuards, modZero, unused, unused4, must, named, modFlag, modTag, modCvt, modScope, modOS, lowFlag, lowStream, lowFlag4, lowPred, mwaitE, Fields.guards, bind, Except.bind, pure, Except.pure, *]

theorem min a0 a1 a2 a3 a4 : Statement (.min a0 a1 a2 a3 a4) := by
  intro h f hf; cases hf; (try simp [Instr.wellFormed] at h)
  simp [decodeFields, Fields.cls, decodeClass2, Fields.operation, noGuards, modZero, unused, unused4, must, named, modFlag, modTag, modCvt, modScope, modOS, lowFlag, lowStream, lowFlag4, lowPred, mwaitE, Fields.guards, bind, Except.bind, pure, Except.pure, *]

theorem max a0 a1 a2 a3 a4 : Statement (.max a0 a1 a2 a3 a4) := by
  intro h f hf; cases hf; (try simp [Instr.wellFormed] at h)
  simp [decodeFields, Fields.cls, decodeClass2, Fields.operation, noGuards, modZero, unused, unused4, must, named, modFlag, modTag, modCvt, modScope, modOS, lowFlag, lowStream, lowFlag4, lowPred, mwaitE, Fields.guards, bind, Except.bind, pure, Except.pure, *]

theorem neg a0 a1 a2 a3 a4 : Statement (.neg a0 a1 a2 a3 a4) := by
  intro h f hf; cases hf; (try simp [Instr.wellFormed] at h)
  simp [decodeFields, Fields.cls, decodeClass2, Fields.operation, noGuards, modZero, unused, unused4, must, named, modFlag, modTag, modCvt, modScope, modOS, lowFlag, lowStream, lowFlag4, lowPred, mwaitE, Fields.guards, bind, Except.bind, pure, Except.pure, *]

theorem abs a0 a1 a2 a3 a4 : Statement (.abs a0 a1 a2 a3 a4) := by
  intro h f hf; cases hf; (try simp [Instr.wellFormed] at h)
  simp [decodeFields, Fields.cls, decodeClass2, Fields.operation, noGuards, modZero, unused, unused4, must, named, modFlag, modTag, modCvt, modScope, modOS, lowFlag, lowStream, lowFlag4, lowPred, mwaitE, Fields.guards, bind, Except.bind, pure, Except.pure, *]

theorem cmp a0 a1 a2 a3 a4 a5 : Statement (.cmp a0 a1 a2 a3 a4 a5) := by
  intro h f hf; cases hf; (try simp [Instr.wellFormed] at h)
  simp [decodeFields, Fields.cls, decodeClass2, Fields.operation, noGuards, modZero, unused, unused4, must, named, modFlag, modTag, modCvt, modScope, modOS, lowFlag, lowStream, lowFlag4, lowPred, mwaitE, Fields.guards, bind, Except.bind, pure, Except.pure, *]

theorem sel a0 a1 a2 a3 a4 a5 : Statement (.sel a0 a1 a2 a3 a4 a5) := by
  intro h f hf; cases hf; (try simp [Instr.wellFormed] at h)
  simp [decodeFields, Fields.cls, decodeClass2, Fields.operation, noGuards, modZero, unused, unused4, must, named, modFlag, modTag, modCvt, modScope, modOS, lowFlag, lowStream, lowFlag4, lowPred, mwaitE, Fields.guards, bind, Except.bind, pure, Except.pure, *]

theorem dot a0 a1 a2 a3 a4 a5 a6 : Statement (.dot a0 a1 a2 a3 a4 a5 a6) := by
  intro h f hf; cases hf; (try simp [Instr.wellFormed] at h)
  simp [decodeFields, Fields.cls, decodeClass2, Fields.operation, noGuards, modZero, unused, unused4, must, named, modFlag, modTag, modCvt, modScope, modOS, lowFlag, lowStream, lowFlag4, lowPred, mwaitE, Fields.guards, bind, Except.bind, pure, Except.pure, *]

theorem acs a0 a1 a2 a3 a4 a5 : Statement (.acs a0 a1 a2 a3 a4 a5) := by
  intro h f hf; cases hf; (try simp [Instr.wellFormed] at h)
  simp [decodeFields, Fields.cls, decodeClass2, Fields.operation, noGuards, modZero, unused, unused4, must, named, modFlag, modTag, modCvt, modScope, modOS, lowFlag, lowStream, lowFlag4, lowPred, mwaitE, Fields.guards, bind, Except.bind, pure, Except.pure, *]

theorem and a0 a1 a2 a3 a4 : Statement (.and a0 a1 a2 a3 a4) := by
  intro h f hf; cases hf; (try simp [Instr.wellFormed] at h)
  simp [decodeFields, Fields.cls, decodeClass3, Fields.operation, noGuards, modZero, unused, unused4, must, named, modFlag, modTag, modCvt, modScope, modOS, lowFlag, lowStream, lowFlag4, lowPred, mwaitE, Fields.guards, bind, Except.bind, pure, Except.pure, *]

theorem or a0 a1 a2 a3 a4 : Statement (.or a0 a1 a2 a3 a4) := by
  intro h f hf; cases hf; (try simp [Instr.wellFormed] at h)
  simp [decodeFields, Fields.cls, decodeClass3, Fields.operation, noGuards, modZero, unused, unused4, must, named, modFlag, modTag, modCvt, modScope, modOS, lowFlag, lowStream, lowFlag4, lowPred, mwaitE, Fields.guards, bind, Except.bind, pure, Except.pure, *]

theorem xor a0 a1 a2 a3 a4 : Statement (.xor a0 a1 a2 a3 a4) := by
  intro h f hf; cases hf; (try simp [Instr.wellFormed] at h)
  simp [decodeFields, Fields.cls, decodeClass3, Fields.operation, noGuards, modZero, unused, unused4, must, named, modFlag, modTag, modCvt, modScope, modOS, lowFlag, lowStream, lowFlag4, lowPred, mwaitE, Fields.guards, bind, Except.bind, pure, Except.pure, *]

theorem not a0 a1 a2 a3 : Statement (.not a0 a1 a2 a3) := by
  intro h f hf; cases hf; (try simp [Instr.wellFormed] at h)
  simp [decodeFields, Fields.cls, decodeClass3, Fields.operation, noGuards, modZero, unused, unused4, must, named, modFlag, modTag, modCvt, modScope, modOS, lowFlag, lowStream, lowFlag4, lowPred, mwaitE, Fields.guards, bind, Except.bind, pure, Except.pure, *]

theorem shl a0 a1 a2 a3 a4 : Statement (.shl a0 a1 a2 a3 a4) := by
  intro h f hf; cases hf; (try simp [Instr.wellFormed] at h)
  simp [decodeFields, Fields.cls, decodeClass3, Fields.operation, noGuards, modZero, unused, unused4, must, named, modFlag, modTag, modCvt, modScope, modOS, lowFlag, lowStream, lowFlag4, lowPred, mwaitE, Fields.guards, bind, Except.bind, pure, Except.pure, *]

theorem shr a0 a1 a2 a3 a4 : Statement (.shr a0 a1 a2 a3 a4) := by
  intro h f hf; cases hf; (try simp [Instr.wellFormed] at h)
  simp [decodeFields, Fields.cls, decodeClass3, Fields.operation, noGuards, modZero, unused, unused4, must, named, modFlag, modTag, modCvt, modScope, modOS, lowFlag, lowStream, lowFlag4, lowPred, mwaitE, Fields.guards, bind, Except.bind, pure, Except.pure, *]

theorem sar a0 a1 a2 a3 a4 : Statement (.sar a0 a1 a2 a3 a4) := by
  intro h f hf; cases hf; (try simp [Instr.wellFormed] at h)
  simp [decodeFields, Fields.cls, decodeClass3, Fields.operation, noGuards, modZero, unused, unused4, must, named, modFlag, modTag, modCvt, modScope, modOS, lowFlag, lowStream, lowFlag4, lowPred, mwaitE, Fields.guards, bind, Except.bind, pure, Except.pure, *]

theorem rot a0 a1 a2 a3 a4 : Statement (.rot a0 a1 a2 a3 a4) := by
  intro h f hf; cases hf; (try simp [Instr.wellFormed] at h)
  simp [decodeFields, Fields.cls, decodeClass3, Fields.operation, noGuards, modZero, unused, unused4, must, named, modFlag, modTag, modCvt, modScope, modOS, lowFlag, lowStream, lowFlag4, lowPred, mwaitE, Fields.guards, bind, Except.bind, pure, Except.pure, *]

theorem bfe a0 a1 a2 a3 a4 a5 a6 : Statement (.bfe a0 a1 a2 a3 a4 a5 a6) := by
  intro h f hf; cases hf; (try simp [Instr.wellFormed] at h)
  simp [decodeFields, Fields.cls, decodeClass3, Fields.operation, noGuards, modZero, unused, unused4, must, named, modFlag, modTag, modCvt, modScope, modOS, lowFlag, lowStream, lowFlag4, lowPred, mwaitE, Fields.guards, bind, Except.bind, pure, Except.pure, *]

theorem bfi a0 a1 a2 a3 a4 a5 : Statement (.bfi a0 a1 a2 a3 a4 a5) := by
  intro h f hf; cases hf; (try simp [Instr.wellFormed] at h)
  simp [decodeFields, Fields.cls, decodeClass3, Fields.operation, noGuards, modZero, unused, unused4, must, named, modFlag, modTag, modCvt, modScope, modOS, lowFlag, lowStream, lowFlag4, lowPred, mwaitE, Fields.guards, bind, Except.bind, pure, Except.pure, *]

theorem popc a0 a1 a2 a3 : Statement (.popc a0 a1 a2 a3) := by
  intro h f hf; cases hf; (try simp [Instr.wellFormed] at h)
  simp [decodeFields, Fields.cls, decodeClass3, Fields.operation, noGuards, modZero, unused, unused4, must, named, modFlag, modTag, modCvt, modScope, modOS, lowFlag, lowStream, lowFlag4, lowPred, mwaitE, Fields.guards, bind, Except.bind, pure, Except.pure, *]

theorem clz a0 a1 a2 a3 : Statement (.clz a0 a1 a2 a3) := by
  intro h f hf; cases hf; (try simp [Instr.wellFormed] at h)
  simp [decodeFields, Fields.cls, decodeClass3, Fields.operation, noGuards, modZero, unused, unused4, must, named, modFlag, modTag, modCvt, modScope, modOS, lowFlag, lowStream, lowFlag4, lowPred, mwaitE, Fields.guards, bind, Except.bind, pure, Except.pure, *]

theorem brev a0 a1 a2 a3 : Statement (.brev a0 a1 a2 a3) := by
  intro h f hf; cases hf; (try simp [Instr.wellFormed] at h)
  simp [decodeFields, Fields.cls, decodeClass3, Fields.operation, noGuards, modZero, unused, unused4, must, named, modFlag, modTag, modCvt, modScope, modOS, lowFlag, lowStream, lowFlag4, lowPred, mwaitE, Fields.guards, bind, Except.bind, pure, Except.pure, *]

theorem mulhi a0 a1 a2 a3 a4 : Statement (.mulhi a0 a1 a2 a3 a4) := by
  intro h f hf; cases hf; (try simp [Instr.wellFormed] at h)
  simp [decodeFields, Fields.cls, decodeClass3, Fields.operation, noGuards, modZero, unused, unused4, must, named, modFlag, modTag, modCvt, modScope, modOS, lowFlag, lowStream, lowFlag4, lowPred, mwaitE, Fields.guards, bind, Except.bind, pure, Except.pure, *]

theorem cvt a0 a1 a2 a3 a4 a5 : Statement (.cvt a0 a1 a2 a3 a4 a5) := by
  intro h f hf; cases hf; (try simp [Instr.wellFormed] at h)
  simp [decodeFields, Fields.cls, decodeClass3, Fields.operation, noGuards, modZero, unused, unused4, must, named, modFlag, modTag, modCvt, modScope, modOS, lowFlag, lowStream, lowFlag4, lowPred, mwaitE, Fields.guards, bind, Except.bind, pure, Except.pure, *]

theorem pack a0 a1 a2 a3 : Statement (.pack a0 a1 a2 a3) := by
  intro h f hf; cases hf; (try simp [Instr.wellFormed] at h)
  simp [decodeFields, Fields.cls, decodeClass3, Fields.operation, noGuards, modZero, unused, unused4, must, named, modFlag, modTag, modCvt, modScope, modOS, lowFlag, lowStream, lowFlag4, lowPred, mwaitE, Fields.guards, bind, Except.bind, pure, Except.pure, *]

theorem unpk a0 a1 a2 a3 : Statement (.unpk a0 a1 a2 a3) := by
  intro h f hf; cases hf; (try simp [Instr.wellFormed] at h)
  simp [decodeFields, Fields.cls, decodeClass3, Fields.operation, noGuards, modZero, unused, unused4, must, named, modFlag, modTag, modCvt, modScope, modOS, lowFlag, lowStream, lowFlag4, lowPred, mwaitE, Fields.guards, bind, Except.bind, pure, Except.pure, *]

theorem rcp a0 a1 a2 a3 : Statement (.rcp a0 a1 a2 a3) := by
  intro h f hf; cases hf; (try simp [Instr.wellFormed] at h)
  simp [decodeFields, Fields.cls, decodeClass3, Fields.operation, noGuards, modZero, unused, unused4, must, named, modFlag, modTag, modCvt, modScope, modOS, lowFlag, lowStream, lowFlag4, lowPred, mwaitE, Fields.guards, bind, Except.bind, pure, Except.pure, *]

theorem rsq a0 a1 a2 a3 : Statement (.rsq a0 a1 a2 a3) := by
  intro h f hf; cases hf; (try simp [Instr.wellFormed] at h)
  simp [decodeFields, Fields.cls, decodeClass3, Fields.operation, noGuards, modZero, unused, unused4, must, named, modFlag, modTag, modCvt, modScope, modOS, lowFlag, lowStream, lowFlag4, lowPred, mwaitE, Fields.guards, bind, Except.bind, pure, Except.pure, *]

theorem sqrt a0 a1 a2 a3 : Statement (.sqrt a0 a1 a2 a3) := by
  intro h f hf; cases hf; (try simp [Instr.wellFormed] at h)
  simp [decodeFields, Fields.cls, decodeClass3, Fields.operation, noGuards, modZero, unused, unused4, must, named, modFlag, modTag, modCvt, modScope, modOS, lowFlag, lowStream, lowFlag4, lowPred, mwaitE, Fields.guards, bind, Except.bind, pure, Except.pure, *]

theorem exp2 a0 a1 a2 a3 : Statement (.exp2 a0 a1 a2 a3) := by
  intro h f hf; cases hf; (try simp [Instr.wellFormed] at h)
  simp [decodeFields, Fields.cls, decodeClass3, Fields.operation, noGuards, modZero, unused, unused4, must, named, modFlag, modTag, modCvt, modScope, modOS, lowFlag, lowStream, lowFlag4, lowPred, mwaitE, Fields.guards, bind, Except.bind, pure, Except.pure, *]

theorem log2 a0 a1 a2 a3 : Statement (.log2 a0 a1 a2 a3) := by
  intro h f hf; cases hf; (try simp [Instr.wellFormed] at h)
  simp [decodeFields, Fields.cls, decodeClass3, Fields.operation, noGuards, modZero, unused, unused4, must, named, modFlag, modTag, modCvt, modScope, modOS, lowFlag, lowStream, lowFlag4, lowPred, mwaitE, Fields.guards, bind, Except.bind, pure, Except.pure, *]

theorem sin a0 a1 a2 a3 : Statement (.sin a0 a1 a2 a3) := by
  intro h f hf; cases hf; (try simp [Instr.wellFormed] at h)
  simp [decodeFields, Fields.cls, decodeClass3, Fields.operation, noGuards, modZero, unused, unused4, must, named, modFlag, modTag, modCvt, modScope, modOS, lowFlag, lowStream, lowFlag4, lowPred, mwaitE, Fields.guards, bind, Except.bind, pure, Except.pure, *]

theorem cos a0 a1 a2 a3 : Statement (.cos a0 a1 a2 a3) := by
  intro h f hf; cases hf; (try simp [Instr.wellFormed] at h)
  simp [decodeFields, Fields.cls, decodeClass3, Fields.operation, noGuards, modZero, unused, unused4, must, named, modFlag, modTag, modCvt, modScope, modOS, lowFlag, lowStream, lowFlag4, lowPred, mwaitE, Fields.guards, bind, Except.bind, pure, Except.pure, *]

theorem rand a0 a1 : Statement (.rand a0 a1) := by
  intro h f hf; cases hf; (try simp [Instr.wellFormed] at h)
  simp [decodeFields, Fields.cls, decodeClass3, Fields.operation, noGuards, modZero, unused, unused4, must, named, modFlag, modTag, modCvt, modScope, modOS, lowFlag, lowStream, lowFlag4, lowPred, mwaitE, Fields.guards, bind, Except.bind, pure, Except.pure, *]

theorem tagset a0 a1 a2 a3 a4 : Statement (.tagset a0 a1 a2 a3 a4) := by
  intro h f hf; cases hf; (try simp [Instr.wellFormed] at h)
  simp [decodeFields, Fields.cls, decodeClass3, Fields.operation, noGuards, modZero, unused, unused4, must, named, modFlag, modTag, modCvt, modScope, modOS, lowFlag, lowStream, lowFlag4, lowPred, mwaitE, Fields.guards, bind, Except.bind, pure, Except.pure, *]

theorem tagsetPort a0 a1 a2 a3 a4 a5 : Statement (.tagsetPort a0 a1 a2 a3 a4 a5) := by
  intro h f hf; cases hf; (try simp [Instr.wellFormed] at h)
  simp [decodeFields, Fields.cls, decodeClass3, Fields.operation, noGuards, modZero, unused, unused4, must, named, modFlag, modTag, modCvt, modScope, modOS, lowFlag, lowStream, lowFlag4, lowPred, mwaitE, Fields.guards, bind, Except.bind, pure, Except.pure, *]

theorem tagget a0 a1 : Statement (.tagget a0 a1) := by
  intro h f hf; cases hf; (try simp [Instr.wellFormed] at h)
  simp [decodeFields, Fields.cls, decodeClass3, Fields.operation, noGuards, modZero, unused, unused4, must, named, modFlag, modTag, modCvt, modScope, modOS, lowFlag, lowStream, lowFlag4, lowPred, mwaitE, Fields.guards, bind, Except.bind, pure, Except.pure, *]

theorem metard a0 a1 : Statement (.metard a0 a1) := by
  intro h f hf; cases hf; (try simp [Instr.wellFormed] at h)
  simp [decodeFields, Fields.cls, decodeClass3, Fields.operation, noGuards, modZero, unused, unused4, must, named, modFlag, modTag, modCvt, modScope, modOS, lowFlag, lowStream, lowFlag4, lowPred, mwaitE, Fields.guards, bind, Except.bind, pure, Except.pure, *]

theorem metawr a0 a1 : Statement (.metawr a0 a1) := by
  intro h f hf; cases hf; (try simp [Instr.wellFormed] at h)
  simp [decodeFields, Fields.cls, decodeClass3, Fields.operation, noGuards, modZero, unused, unused4, must, named, modFlag, modTag, modCvt, modScope, modOS, lowFlag, lowStream, lowFlag4, lowPred, mwaitE, Fields.guards, bind, Except.bind, pure, Except.pure, *]

theorem mov a0 a1 a2 : Statement (.mov a0 a1 a2) := by
  intro h f hf; cases hf; (try simp [Instr.wellFormed] at h)
  simp [decodeFields, Fields.cls, decodeClass3, Fields.operation, noGuards, modZero, unused, unused4, must, named, modFlag, modTag, modCvt, modScope, modOS, lowFlag, lowStream, lowFlag4, lowPred, mwaitE, Fields.guards, bind, Except.bind, pure, Except.pure, *]

theorem movPort a0 a1 a2 a3 : Statement (.movPort a0 a1 a2 a3) := by
  intro h f hf; cases hf; (try simp [Instr.wellFormed] at h)
  have hv := isV_of_isQ h.1
  simp [decodeFields, Fields.cls, decodeClass3, Fields.operation, noGuards, modZero, unused, unused4, must, named, modFlag, modTag, modCvt, modScope, modOS, lowFlag, lowStream, lowFlag4, lowPred, mwaitE, Fields.guards, bind, Except.bind, pure, Except.pure, *]

theorem movTag a0 a1 a2 a3 : Statement (.movTag a0 a1 a2 a3) := by
  intro h f hf; cases hf; (try simp [Instr.wellFormed, Opnd.isLaneSource] at h)
  simp [decodeFields, Fields.cls, decodeClass3, Fields.operation, noGuards, modZero, unused, unused4, must, named, modFlag, modTag, modCvt, modScope, modOS, lowFlag, lowStream, lowFlag4, lowPred, mwaitE, Fields.guards, bind, Except.bind, pure, Except.pure, *]

theorem li a0 a1 a2 a3 : Statement (.li a0 a1 a2 a3) := by
  intro h f hf; cases hf; (try simp [Instr.wellFormed] at h)
  simp [decodeFields, Fields.cls, decodeClass3, Fields.operation, noGuards, modZero, unused, unused4, must, named, modFlag, modTag, modCvt, modScope, modOS, lowFlag, lowStream, lowFlag4, lowPred, mwaitE, Fields.guards, bind, Except.bind, pure, Except.pure, *]

theorem dbr a0 a1 a2 : Statement (.dbr a0 a1 a2) := by
  intro h f hf; cases hf; (try simp [Instr.wellFormed] at h)
  simp [decodeFields, Fields.cls, decodeClass4, Fields.operation, noGuards, modZero, unused, unused4, must, named, modFlag, modTag, modCvt, modScope, modOS, lowFlag, lowStream, lowFlag4, lowPred, mwaitE, Fields.guards, bind, Except.bind, pure, Except.pure, *]

theorem join  : Statement (.join ) := by
  intro h f hf; cases hf; (try simp [Instr.wellFormed] at h)
  simp [decodeFields, Fields.cls, decodeClass4, Fields.operation, noGuards, modZero, unused, unused4, must, named, modFlag, modTag, modCvt, modScope, modOS, lowFlag, lowStream, lowFlag4, lowPred, mwaitE, Fields.guards, bind, Except.bind, pure, Except.pure, *]

theorem brk a0 a1 a2 : Statement (.brk a0 a1 a2) := by
  intro h f hf; cases hf; (try simp [Instr.wellFormed] at h)
  simp [decodeFields, Fields.cls, decodeClass4, Fields.operation, noGuards, modZero, unused, unused4, must, named, modFlag, modTag, modCvt, modScope, modOS, lowFlag, lowStream, lowFlag4, lowPred, mwaitE, Fields.guards, bind, Except.bind, pure, Except.pure, *]

theorem exitl a0 : Statement (.exitl a0) := by
  intro h f hf; cases hf; (try simp [Instr.wellFormed] at h)
  simp [decodeFields, Fields.cls, decodeClass4, Fields.operation, noGuards, modZero, unused, unused4, must, named, modFlag, modTag, modCvt, modScope, modOS, lowFlag, lowStream, lowFlag4, lowPred, mwaitE, Fields.guards, bind, Except.bind, pure, Except.pure, *]

theorem vote a0 a1 a2 a3 : Statement (.vote a0 a1 a2 a3) := by
  intro h f hf; cases hf; (try simp [Instr.wellFormed] at h)
  simp [decodeFields, Fields.cls, decodeClass4, Fields.operation, noGuards, modZero, unused, unused4, must, named, modFlag, modTag, modCvt, modScope, modOS, lowFlag, lowStream, lowFlag4, lowPred, mwaitE, Fields.guards, bind, Except.bind, pure, Except.pure, *]

theorem shfl a0 a1 a2 a3 a4 a5 : Statement (.shfl a0 a1 a2 a3 a4 a5) := by
  intro h f hf; cases hf; (try simp [Instr.wellFormed] at h)
  simp [decodeFields, Fields.cls, decodeClass4, Fields.operation, noGuards, modZero, unused, unused4, must, named, modFlag, modTag, modCvt, modScope, modOS, lowFlag, lowStream, lowFlag4, lowPred, mwaitE, Fields.guards, bind, Except.bind, pure, Except.pure, *]

theorem perm a0 a1 a2 a3 a4 : Statement (.perm a0 a1 a2 a3 a4) := by
  intro h f hf; cases hf; (try simp [Instr.wellFormed] at h)
  simp [decodeFields, Fields.cls, decodeClass4, Fields.operation, noGuards, modZero, unused, unused4, must, named, modFlag, modTag, modCvt, modScope, modOS, lowFlag, lowStream, lowFlag4, lowPred, mwaitE, Fields.guards, bind, Except.bind, pure, Except.pure, *]

theorem bcst a0 a1 a2 a3 a4 : Statement (.bcst a0 a1 a2 a3 a4) := by
  intro h f hf; cases hf; (try simp [Instr.wellFormed] at h)
  simp [decodeFields, Fields.cls, decodeClass4, Fields.operation, noGuards, modZero, unused, unused4, must, named, modFlag, modTag, modCvt, modScope, modOS, lowFlag, lowStream, lowFlag4, lowPred, mwaitE, Fields.guards, bind, Except.bind, pure, Except.pure, *]

theorem scan a0 a1 a2 a3 a4 : Statement (.scan a0 a1 a2 a3 a4) := by
  intro h f hf; cases hf; (try simp [Instr.wellFormed] at h)
  simp [decodeFields, Fields.cls, decodeClass4, Fields.operation, noGuards, modZero, unused, unused4, must, named, modFlag, modTag, modCvt, modScope, modOS, lowFlag, lowStream, lowFlag4, lowPred, mwaitE, Fields.guards, bind, Except.bind, pure, Except.pure, *]

theorem regrp  : Statement (.regrp ) := by
  intro h f hf; cases hf; (try simp [Instr.wellFormed] at h)
  simp [decodeFields, Fields.cls, decodeClass4, Fields.operation, noGuards, modZero, unused, unused4, must, named, modFlag, modTag, modCvt, modScope, modOS, lowFlag, lowStream, lowFlag4, lowPred, mwaitE, Fields.guards, bind, Except.bind, pure, Except.pure, *]

theorem ungrp  : Statement (.ungrp ) := by
  intro h f hf; cases hf; (try simp [Instr.wellFormed] at h)
  simp [decodeFields, Fields.cls, decodeClass4, Fields.operation, noGuards, modZero, unused, unused4, must, named, modFlag, modTag, modCvt, modScope, modOS, lowFlag, lowStream, lowFlag4, lowPred, mwaitE, Fields.guards, bind, Except.bind, pure, Except.pure, *]

theorem xeq a0 a1 a2 : Statement (.xeq a0 a1 a2) := by
  intro h f hf; cases hf; (try simp [Instr.wellFormed] at h)
  simp [decodeFields, Fields.cls, decodeClass4, Fields.operation, noGuards, modZero, unused, unused4, must, named, modFlag, modTag, modCvt, modScope, modOS, lowFlag, lowStream, lowFlag4, lowPred, mwaitE, Fields.guards, bind, Except.bind, pure, Except.pure, *]

theorem maskrd a0 a1 a2 : Statement (.maskrd a0 a1 a2) := by
  intro h f hf; cases hf; (try simp [Instr.wellFormed] at h)
  simp [decodeFields, Fields.cls, decodeClass4, Fields.operation, noGuards, modZero, unused, unused4, must, named, modFlag, modTag, modCvt, modScope, modOS, lowFlag, lowStream, lowFlag4, lowPred, mwaitE, Fields.guards, bind, Except.bind, pure, Except.pure, *]

theorem maskwr a0 a1 a2 : Statement (.maskwr a0 a1 a2) := by
  intro h f hf; cases hf; (try simp [Instr.wellFormed] at h)
  simp [decodeFields, Fields.cls, decodeClass4, Fields.operation, noGuards, modZero, unused, unused4, must, named, modFlag, modTag, modCvt, modScope, modOS, lowFlag, lowStream, lowFlag4, lowPred, mwaitE, Fields.guards, bind, Except.bind, pure, Except.pure, *]

theorem deadrd a0 : Statement (.deadrd a0) := by
  intro h f hf; cases hf; (try simp [Instr.wellFormed] at h)
  simp [decodeFields, Fields.cls, decodeClass4, Fields.operation, noGuards, modZero, unused, unused4, must, named, modFlag, modTag, modCvt, modScope, modOS, lowFlag, lowStream, lowFlag4, lowPred, mwaitE, Fields.guards, bind, Except.bind, pure, Except.pure, *]

theorem blen a0 a1 a2 : Statement (.blen a0 a1 a2) := by
  intro h f hf; cases hf; (try simp [Instr.wellFormed] at h)
  simp [decodeFields, Fields.cls, decodeClass5, Fields.operation, noGuards, modZero, unused, unused4, must, named, modFlag, modTag, modCvt, modScope, modOS, lowFlag, lowStream, lowFlag4, lowPred, mwaitE, Fields.guards, bind, Except.bind, pure, Except.pure, *]

theorem bnorm a0 a1 a2 : Statement (.bnorm a0 a1 a2) := by
  intro h f hf; cases hf; (try simp [Instr.wellFormed] at h)
  simp [decodeFields, Fields.cls, decodeClass5, Fields.operation, noGuards, modZero, unused, unused4, must, named, modFlag, modTag, modCvt, modScope, modOS, lowFlag, lowStream, lowFlag4, lowPred, mwaitE, Fields.guards, bind, Except.bind, pure, Except.pure, *]

theorem bshl a0 a1 a2 a3 : Statement (.bshl a0 a1 a2 a3) := by
  intro h f hf; cases hf; (try simp [Instr.wellFormed] at h)
  simp [decodeFields, Fields.cls, decodeClass5, Fields.operation, noGuards, modZero, unused, unused4, must, named, modFlag, modTag, modCvt, modScope, modOS, lowFlag, lowStream, lowFlag4, lowPred, mwaitE, Fields.guards, bind, Except.bind, pure, Except.pure, *]

theorem bshr a0 a1 a2 a3 : Statement (.bshr a0 a1 a2 a3) := by
  intro h f hf; cases hf; (try simp [Instr.wellFormed] at h)
  simp [decodeFields, Fields.cls, decodeClass5, Fields.operation, noGuards, modZero, unused, unused4, must, named, modFlag, modTag, modCvt, modScope, modOS, lowFlag, lowStream, lowFlag4, lowPred, mwaitE, Fields.guards, bind, Except.bind, pure, Except.pure, *]

theorem bcmp a0 a1 a2 a3 a4 : Statement (.bcmp a0 a1 a2 a3 a4) := by
  intro h f hf; cases hf; (try simp [Instr.wellFormed] at h)
  simp [decodeFields, Fields.cls, decodeClass5, Fields.operation, noGuards, modZero, unused, unused4, must, named, modFlag, modTag, modCvt, modScope, modOS, lowFlag, lowStream, lowFlag4, lowPred, mwaitE, Fields.guards, bind, Except.bind, pure, Except.pure, *]

theorem bdivs a0 a1 a2 a3 a4 : Statement (.bdivs a0 a1 a2 a3 a4) := by
  intro h f hf; cases hf; (try simp [Instr.wellFormed] at h)
  simp [decodeFields, Fields.cls, decodeClass5, Fields.operation, noGuards, modZero, unused, unused4, must, named, modFlag, modTag, modCvt, modScope, modOS, lowFlag, lowStream, lowFlag4, lowPred, mwaitE, Fields.guards, bind, Except.bind, pure, Except.pure, *]

theorem cres a0 a1 a2 a3 a4 : Statement (.cres a0 a1 a2 a3 a4) := by
  intro h f hf; cases hf; (try simp [Instr.wellFormed] at h)
  simp [decodeFields, Fields.cls, decodeClass5, Fields.operation, noGuards, modZero, unused, unused4, must, named, modFlag, modTag, modCvt, modScope, modOS, lowFlag, lowStream, lowFlag4, lowPred, mwaitE, Fields.guards, bind, Except.bind, pure, Except.pure, *]

theorem bsplit a0 a1 a2 : Statement (.bsplit a0 a1 a2) := by
  intro h f hf; cases hf; (try simp [Instr.wellFormed] at h)
  simp [decodeFields, Fields.cls, decodeClass5, Fields.operation, noGuards, modZero, unused, unused4, must, named, modFlag, modTag, modCvt, modScope, modOS, lowFlag, lowStream, lowFlag4, lowPred, mwaitE, Fields.guards, bind, Except.bind, pure, Except.pure, *]

theorem bjoin a0 a1 a2 a3 : Statement (.bjoin a0 a1 a2 a3) := by
  intro h f hf; cases hf; (try simp [Instr.wellFormed] at h)
  simp [decodeFields, Fields.cls, decodeClass5, Fields.operation, noGuards, modZero, unused, unused4, must, named, modFlag, modTag, modCvt, modScope, modOS, lowFlag, lowStream, lowFlag4, lowPred, mwaitE, Fields.guards, bind, Except.bind, pure, Except.pure, *]

theorem baddc a0 a1 a2 a3 a4 : Statement (.baddc a0 a1 a2 a3 a4) := by
  intro h f hf; cases hf; (try simp [Instr.wellFormed] at h)
  simp [decodeFields, Fields.cls, decodeClass5, Fields.operation, noGuards, modZero, unused, unused4, must, named, modFlag, modTag, modCvt, modScope, modOS, lowFlag, lowStream, lowFlag4, lowPred, mwaitE, Fields.guards, bind, Except.bind, pure, Except.pure, *]

theorem bsubc a0 a1 a2 a3 a4 : Statement (.bsubc a0 a1 a2 a3 a4) := by
  intro h f hf; cases hf; (try simp [Instr.wellFormed] at h)
  simp [decodeFields, Fields.cls, decodeClass5, Fields.operation, noGuards, modZero, unused, unused4, must, named, modFlag, modTag, modCvt, modScope, modOS, lowFlag, lowStream, lowFlag4, lowPred, mwaitE, Fields.guards, bind, Except.bind, pure, Except.pure, *]

theorem bmulw a0 a1 a2 a3 a4 : Statement (.bmulw a0 a1 a2 a3 a4) := by
  intro h f hf; cases hf; (try simp [Instr.wellFormed] at h)
  simp [decodeFields, Fields.cls, decodeClass5, Fields.operation, noGuards, modZero, unused, unused4, must, named, modFlag, modTag, modCvt, modScope, modOS, lowFlag, lowStream, lowFlag4, lowPred, mwaitE, Fields.guards, bind, Except.bind, pure, Except.pure, *]

theorem bmodw a0 a1 a2 a3 : Statement (.bmodw a0 a1 a2 a3) := by
  intro h f hf; cases hf; (try simp [Instr.wellFormed] at h)
  simp [decodeFields, Fields.cls, decodeClass5, Fields.operation, noGuards, modZero, unused, unused4, must, named, modFlag, modTag, modCvt, modScope, modOS, lowFlag, lowStream, lowFlag4, lowPred, mwaitE, Fields.guards, bind, Except.bind, pure, Except.pure, *]

theorem btom a0 a1 a2 a3 a4 a5 : Statement (.btom a0 a1 a2 a3 a4 a5) := by
  intro h f hf; cases hf; (try simp [Instr.wellFormed] at h)
  simp [decodeFields, Fields.cls, decodeClass5, Fields.operation, noGuards, modZero, unused, unused4, must, named, modFlag, modTag, modCvt, modScope, modOS, lowFlag, lowStream, lowFlag4, lowPred, mwaitE, Fields.guards, bind, Except.bind, pure, Except.pure, *]

theorem lmulm a0 a1 a2 a3 a4 a5 : Statement (.lmulm a0 a1 a2 a3 a4 a5) := by
  intro h f hf; cases hf; (try simp [Instr.wellFormed] at h)
  simp [decodeFields, Fields.cls, decodeClass5, Fields.operation, noGuards, modZero, unused, unused4, must, named, modFlag, modTag, modCvt, modScope, modOS, lowFlag, lowStream, lowFlag4, lowPred, mwaitE, Fields.guards, bind, Except.bind, pure, Except.pure, *]

theorem bopm a0 a1 a2 a3 a4 a5 a6 a7 : Statement (.bopm a0 a1 a2 a3 a4 a5 a6 a7) := by
  intro h f hf; cases hf; (try simp [Instr.wellFormed] at h)
  simp [decodeFields, Fields.cls, decodeClass5, Fields.operation, noGuards, modZero, unused, unused4, must, named, modFlag, modTag, modCvt, modScope, modOS, lowFlag, lowStream, lowFlag4, lowPred, mwaitE, Fields.guards, bind, Except.bind, pure, Except.pure, *]

theorem ld a0 a1 a2 a3 a4 a5 a6 a7 : Statement (.ld a0 a1 a2 a3 a4 a5 a6 a7) := by
  intro h f hf; cases hf; (try simp [Instr.wellFormed] at h)
  simp [decodeFields, Fields.cls, decodeClass6, Fields.operation, noGuards, modZero, unused, unused4, must, named, modFlag, modTag, modCvt, modScope, modOS, lowFlag, lowStream, lowFlag4, lowPred, mwaitE, Fields.guards, bind, Except.bind, pure, Except.pure, *]

theorem ldt a0 a1 a2 a3 a4 a5 a6 a7 : Statement (.ldt a0 a1 a2 a3 a4 a5 a6 a7) := by
  intro h f hf; cases hf; (try simp [Instr.wellFormed] at h)
  simp [decodeFields, Fields.cls, decodeClass6, Fields.operation, noGuards, modZero, unused, unused4, must, named, modFlag, modTag, modCvt, modScope, modOS, lowFlag, lowStream, lowFlag4, lowPred, mwaitE, Fields.guards, bind, Except.bind, pure, Except.pure, *]

theorem st a0 a1 a2 a3 a4 a5 a6 a7 : Statement (.st a0 a1 a2 a3 a4 a5 a6 a7) := by
  intro h f hf; cases hf; (try simp [Instr.wellFormed] at h)
  simp [decodeFields, Fields.cls, decodeClass6, Fields.operation, noGuards, modZero, unused, unused4, must, named, modFlag, modTag, modCvt, modScope, modOS, lowFlag, lowStream, lowFlag4, lowPred, mwaitE, Fields.guards, bind, Except.bind, pure, Except.pure, *]

theorem lds a0 a1 a2 a3 a4 a5 a6 : Statement (.lds a0 a1 a2 a3 a4 a5 a6) := by
  intro h f hf; cases hf; (try simp [Instr.wellFormed] at h)
  simp [decodeFields, Fields.cls, decodeClass6, Fields.operation, noGuards, modZero, unused, unused4, must, named, modFlag, modTag, modCvt, modScope, modOS, lowFlag, lowStream, lowFlag4, lowPred, mwaitE, Fields.guards, bind, Except.bind, pure, Except.pure, *]

theorem sts a0 a1 a2 a3 a4 a5 a6 : Statement (.sts a0 a1 a2 a3 a4 a5 a6) := by
  intro h f hf; cases hf; (try simp [Instr.wellFormed] at h)
  simp [decodeFields, Fields.cls, decodeClass6, Fields.operation, noGuards, modZero, unused, unused4, must, named, modFlag, modTag, modCvt, modScope, modOS, lowFlag, lowStream, lowFlag4, lowPred, mwaitE, Fields.guards, bind, Except.bind, pure, Except.pure, *]

theorem ldb a0 a1 a2 a3 a4 a5 a6 a7 : Statement (.ldb a0 a1 a2 a3 a4 a5 a6 a7) := by
  intro h f hf; cases hf; (try simp [Instr.wellFormed] at h)
  simp [decodeFields, Fields.cls, decodeClass6, Fields.operation, noGuards, modZero, unused, unused4, must, named, modFlag, modTag, modCvt, modScope, modOS, lowFlag, lowStream, lowFlag4, lowPred, mwaitE, Fields.guards, bind, Except.bind, pure, Except.pure, *]

theorem stb a0 a1 a2 a3 a4 a5 a6 : Statement (.stb a0 a1 a2 a3 a4 a5 a6) := by
  intro h f hf; cases hf; (try simp [Instr.wellFormed] at h)
  simp [decodeFields, Fields.cls, decodeClass6, Fields.operation, noGuards, modZero, unused, unused4, must, named, modFlag, modTag, modCvt, modScope, modOS, lowFlag, lowStream, lowFlag4, lowPred, mwaitE, Fields.guards, bind, Except.bind, pure, Except.pure, *]

theorem atomAdd a0 a1 a2 a3 a4 a5 a6 a7 a8 : Statement (.atomAdd a0 a1 a2 a3 a4 a5 a6 a7 a8) := by
  intro h f hf; cases hf; (try simp [Instr.wellFormed] at h)
  simp [decodeFields, Fields.cls, decodeClass6, Fields.operation, noGuards, modZero, unused, unused4, must, named, modFlag, modTag, modCvt, modScope, modOS, lowFlag, lowStream, lowFlag4, lowPred, mwaitE, Fields.guards, bind, Except.bind, pure, Except.pure, *]

theorem atomMin a0 a1 a2 a3 a4 a5 a6 a7 a8 : Statement (.atomMin a0 a1 a2 a3 a4 a5 a6 a7 a8) := by
  intro h f hf; cases hf; (try simp [Instr.wellFormed] at h)
  simp [decodeFields, Fields.cls, decodeClass6, Fields.operation, noGuards, modZero, unused, unused4, must, named, modFlag, modTag, modCvt, modScope, modOS, lowFlag, lowStream, lowFlag4, lowPred, mwaitE, Fields.guards, bind, Except.bind, pure, Except.pure, *]

theorem atomMax a0 a1 a2 a3 a4 a5 a6 a7 a8 : Statement (.atomMax a0 a1 a2 a3 a4 a5 a6 a7 a8) := by
  intro h f hf; cases hf; (try simp [Instr.wellFormed] at h)
  simp [decodeFields, Fields.cls, decodeClass6, Fields.operation, noGuards, modZero, unused, unused4, must, named, modFlag, modTag, modCvt, modScope, modOS, lowFlag, lowStream, lowFlag4, lowPred, mwaitE, Fields.guards, bind, Except.bind, pure, Except.pure, *]

theorem atomAnd a0 a1 a2 a3 a4 a5 a6 a7 a8 : Statement (.atomAnd a0 a1 a2 a3 a4 a5 a6 a7 a8) := by
  intro h f hf; cases hf; (try simp [Instr.wellFormed] at h)
  simp [decodeFields, Fields.cls, decodeClass6, Fields.operation, noGuards, modZero, unused, unused4, must, named, modFlag, modTag, modCvt, modScope, modOS, lowFlag, lowStream, lowFlag4, lowPred, mwaitE, Fields.guards, bind, Except.bind, pure, Except.pure, *]

theorem atomOr a0 a1 a2 a3 a4 a5 a6 a7 a8 : Statement (.atomOr a0 a1 a2 a3 a4 a5 a6 a7 a8) := by
  intro h f hf; cases hf; (try simp [Instr.wellFormed] at h)
  simp [decodeFields, Fields.cls, decodeClass6, Fields.operation, noGuards, modZero, unused, unused4, must, named, modFlag, modTag, modCvt, modScope, modOS, lowFlag, lowStream, lowFlag4, lowPred, mwaitE, Fields.guards, bind, Except.bind, pure, Except.pure, *]

theorem atomXor a0 a1 a2 a3 a4 a5 a6 a7 a8 : Statement (.atomXor a0 a1 a2 a3 a4 a5 a6 a7 a8) := by
  intro h f hf; cases hf; (try simp [Instr.wellFormed] at h)
  simp [decodeFields, Fields.cls, decodeClass6, Fields.operation, noGuards, modZero, unused, unused4, must, named, modFlag, modTag, modCvt, modScope, modOS, lowFlag, lowStream, lowFlag4, lowPred, mwaitE, Fields.guards, bind, Except.bind, pure, Except.pure, *]

theorem atomExch a0 a1 a2 a3 a4 a5 a6 a7 a8 : Statement (.atomExch a0 a1 a2 a3 a4 a5 a6 a7 a8) := by
  intro h f hf; cases hf; (try simp [Instr.wellFormed] at h)
  simp [decodeFields, Fields.cls, decodeClass6, Fields.operation, noGuards, modZero, unused, unused4, must, named, modFlag, modTag, modCvt, modScope, modOS, lowFlag, lowStream, lowFlag4, lowPred, mwaitE, Fields.guards, bind, Except.bind, pure, Except.pure, *]

theorem atomFadd a0 a1 a2 a3 a4 a5 a6 a7 a8 : Statement (.atomFadd a0 a1 a2 a3 a4 a5 a6 a7 a8) := by
  intro h f hf; cases hf; (try simp [Instr.wellFormed] at h)
  simp [decodeFields, Fields.cls, decodeClass6, Fields.operation, noGuards, modZero, unused, unused4, must, named, modFlag, modTag, modCvt, modScope, modOS, lowFlag, lowStream, lowFlag4, lowPred, mwaitE, Fields.guards, bind, Except.bind, pure, Except.pure, *]

theorem cas a0 a1 a2 a3 a4 a5 a6 a7 a8 : Statement (.cas a0 a1 a2 a3 a4 a5 a6 a7 a8) := by
  intro h f hf; cases hf; (try simp [Instr.wellFormed] at h)
  simp [decodeFields, Fields.cls, decodeClass6, Fields.operation, noGuards, modZero, unused, unused4, must, named, modFlag, modTag, modCvt, modScope, modOS, lowFlag, lowStream, lowFlag4, lowPred, mwaitE, Fields.guards, bind, Except.bind, pure, Except.pure, *]

theorem aod a0 a1 a2 a3 a4 a5 a6 a7 : Statement (.aod a0 a1 a2 a3 a4 a5 a6 a7) := by
  intro h f hf; cases hf; (try simp [Instr.wellFormed] at h)
  simp [decodeFields, Fields.cls, decodeClass6, Fields.operation, noGuards, modZero, unused, unused4, must, named, modFlag, modTag, modCvt, modScope, modOS, lowFlag, lowStream, lowFlag4, lowPred, mwaitE, Fields.guards, bind, Except.bind, pure, Except.pure, *]

theorem fence a0 a1 : Statement (.fence a0 a1) := by
  intro h f hf; cases hf; (try simp [Instr.wellFormed] at h)
  simp [decodeFields, Fields.cls, decodeClass6, Fields.operation, noGuards, modZero, unused, unused4, must, named, modFlag, modTag, modCvt, modScope, modOS, lowFlag, lowStream, lowFlag4, lowPred, mwaitE, Fields.guards, bind, Except.bind, pure, Except.pure, *]

theorem mwait a0 a1 a2 a3 a4 a5 a6 a7 a8 : Statement (.mwait a0 a1 a2 a3 a4 a5 a6 a7 a8) := by
  intro h f hf; cases hf; cases a6 <;> cases a7 <;> (try simp [Instr.wellFormed] at h) <;> simp [decodeFields, Fields.cls, decodeClass6, Fields.operation, noGuards, modZero, unused, unused4, must, named, modFlag, modTag, modCvt, modScope, modOS, lowFlag, lowStream, lowFlag4, lowPred, mwaitE, Fields.guards, bind, Except.bind, pure, Except.pure, *]

theorem prf a0 a1 a2 a3 a4 : Statement (.prf a0 a1 a2 a3 a4) := by
  intro h f hf; cases hf; (try simp [Instr.wellFormed] at h)
  simp [decodeFields, Fields.cls, decodeClass6, Fields.operation, noGuards, modZero, unused, unused4, must, named, modFlag, modTag, modCvt, modScope, modOS, lowFlag, lowStream, lowFlag4, lowPred, mwaitE, Fields.guards, bind, Except.bind, pure, Except.pure, *]

theorem l1inv  : Statement (.l1inv ) := by
  intro h f hf; cases hf; (try simp [Instr.wellFormed] at h)
  simp [decodeFields, Fields.cls, decodeClass6, Fields.operation, noGuards, modZero, unused, unused4, must, named, modFlag, modTag, modCvt, modScope, modOS, lowFlag, lowStream, lowFlag4, lowPred, mwaitE, Fields.guards, bind, Except.bind, pure, Except.pure, *]

theorem ringdef a0 a1 a2 a3 a4 : Statement (.ringdef a0 a1 a2 a3 a4) := by
  intro h f hf; cases hf; (try simp [Instr.wellFormed] at h)
  simp [decodeFields, Fields.cls, decodeClass7, Fields.operation, noGuards, modZero, unused, unused4, must, named, modFlag, modTag, modCvt, modScope, modOS, lowFlag, lowStream, lowFlag4, lowPred, mwaitE, Fields.guards, bind, Except.bind, pure, Except.pure, *]

theorem ringclrDrop a0 : Statement (.ringclrDrop a0) := by
  intro h f hf; cases hf; (try simp [Instr.wellFormed] at h)
  simp [decodeFields, Fields.cls, decodeClass7, Fields.operation, noGuards, modZero, unused, unused4, must, named, modFlag, modTag, modCvt, modScope, modOS, lowFlag, lowStream, lowFlag4, lowPred, mwaitE, Fields.guards, bind, Except.bind, pure, Except.pure, *]

theorem ringclrStop a0 : Statement (.ringclrStop a0) := by
  intro h f hf; cases hf; (try simp [Instr.wellFormed] at h)
  simp [decodeFields, Fields.cls, decodeClass7, Fields.operation, noGuards, modZero, unused, unused4, must, named, modFlag, modTag, modCvt, modScope, modOS, lowFlag, lowStream, lowFlag4, lowPred, mwaitE, Fields.guards, bind, Except.bind, pure, Except.pure, *]

theorem qbind a0 a1 a2 : Statement (.qbind a0 a1 a2) := by
  intro h f hf; cases hf; (try simp [Instr.wellFormed] at h)
  simp [decodeFields, Fields.cls, decodeClass7, Fields.operation, noGuards, modZero, unused, unused4, must, named, modFlag, modTag, modCvt, modScope, modOS, lowFlag, lowStream, lowFlag4, lowPred, mwaitE, Fields.guards, bind, Except.bind, pure, Except.pure, *]

theorem qbindUn a0 : Statement (.qbindUn a0) := by
  intro h f hf; cases hf; (try simp [Instr.wellFormed] at h)
  simp [decodeFields, Fields.cls, decodeClass7, Fields.operation, noGuards, modZero, unused, unused4, must, named, modFlag, modTag, modCvt, modScope, modOS, lowFlag, lowStream, lowFlag4, lowPred, mwaitE, Fields.guards, bind, Except.bind, pure, Except.pure, *]

theorem qpeek a0 a1 a2 a3 : Statement (.qpeek a0 a1 a2 a3) := by
  intro h f hf; cases hf; (try simp [Instr.wellFormed] at h)
  simp [decodeFields, Fields.cls, decodeClass7, Fields.operation, noGuards, modZero, unused, unused4, must, named, modFlag, modTag, modCvt, modScope, modOS, lowFlag, lowStream, lowFlag4, lowPred, mwaitE, Fields.guards, bind, Except.bind, pure, Except.pure, *]

theorem qeos a0 a1 : Statement (.qeos a0 a1) := by
  intro h f hf; cases hf; (try simp [Instr.wellFormed] at h)
  simp [decodeFields, Fields.cls, decodeClass7, Fields.operation, noGuards, modZero, unused, unused4, must, named, modFlag, modTag, modCvt, modScope, modOS, lowFlag, lowStream, lowFlag4, lowPred, mwaitE, Fields.guards, bind, Except.bind, pure, Except.pure, *]

theorem qstat a0 a1 : Statement (.qstat a0 a1) := by
  intro h f hf; cases hf; (try simp [Instr.wellFormed] at h)
  simp [decodeFields, Fields.cls, decodeClass7, Fields.operation, noGuards, modZero, unused, unused4, must, named, modFlag, modTag, modCvt, modScope, modOS, lowFlag, lowStream, lowFlag4, lowPred, mwaitE, Fields.guards, bind, Except.bind, pure, Except.pure, *]

theorem slay a0 a1 a2 a3 a4 a5 : Statement (.slay a0 a1 a2 a3 a4 a5) := by
  intro h f hf; cases hf; (try simp [Instr.wellFormed] at h)
  simp [decodeFields, Fields.cls, decodeClass7, Fields.operation, noGuards, modZero, unused, unused4, must, named, modFlag, modTag, modCvt, modScope, modOS, lowFlag, lowStream, lowFlag4, lowPred, mwaitE, Fields.guards, bind, Except.bind, pure, Except.pure, *]

theorem scmdFill a0 a1 a2 a3 a4 a5 : Statement (.scmdFill a0 a1 a2 a3 a4 a5) := by
  intro h f hf; cases hf; (try simp [Instr.wellFormed] at h)
  simp [decodeFields, Fields.cls, decodeClass7, Fields.operation, noGuards, modZero, unused, unused4, must, named, modFlag, modTag, modCvt, modScope, modOS, lowFlag, lowStream, lowFlag4, lowPred, mwaitE, Fields.guards, bind, Except.bind, pure, Except.pure, *]

theorem scmdDrain a0 a1 a2 a3 a4 a5 : Statement (.scmdDrain a0 a1 a2 a3 a4 a5) := by
  intro h f hf; cases hf; (try simp [Instr.wellFormed] at h)
  simp [decodeFields, Fields.cls, decodeClass7, Fields.operation, noGuards, modZero, unused, unused4, must, named, modFlag, modTag, modCvt, modScope, modOS, lowFlag, lowStream, lowFlag4, lowPred, mwaitE, Fields.guards, bind, Except.bind, pure, Except.pure, *]

theorem scmdCopy a0 a1 a2 a3 a4 a5 : Statement (.scmdCopy a0 a1 a2 a3 a4 a5) := by
  intro h f hf; cases hf; (try simp [Instr.wellFormed] at h)
  simp [decodeFields, Fields.cls, decodeClass7, Fields.operation, noGuards, modZero, unused, unused4, must, named, modFlag, modTag, modCvt, modScope, modOS, lowFlag, lowStream, lowFlag4, lowPred, mwaitE, Fields.guards, bind, Except.bind, pure, Except.pure, *]

theorem scmdMcast a0 a1 a2 a3 a4 a5 : Statement (.scmdMcast a0 a1 a2 a3 a4 a5) := by
  intro h f hf; cases hf; (try simp [Instr.wellFormed] at h)
  simp [decodeFields, Fields.cls, decodeClass7, Fields.operation, noGuards, modZero, unused, unused4, must, named, modFlag, modTag, modCvt, modScope, modOS, lowFlag, lowStream, lowFlag4, lowPred, mwaitE, Fields.guards, bind, Except.bind, pure, Except.pure, *]

theorem scmdRfill a0 a1 a2 a3 a4 a5 a6 : Statement (.scmdRfill a0 a1 a2 a3 a4 a5 a6) := by
  intro h f hf; cases hf; (try simp [Instr.wellFormed] at h)
  simp [decodeFields, Fields.cls, decodeClass7, Fields.operation, noGuards, modZero, unused, unused4, must, named, modFlag, modTag, modCvt, modScope, modOS, lowFlag, lowStream, lowFlag4, lowPred, mwaitE, Fields.guards, bind, Except.bind, pure, Except.pure, *]

theorem scmdRdrain a0 a1 a2 a3 a4 a5 a6 : Statement (.scmdRdrain a0 a1 a2 a3 a4 a5 a6) := by
  intro h f hf; cases hf; (try simp [Instr.wellFormed] at h)
  simp [decodeFields, Fields.cls, decodeClass7, Fields.operation, noGuards, modZero, unused, unused4, must, named, modFlag, modTag, modCvt, modScope, modOS, lowFlag, lowStream, lowFlag4, lowPred, mwaitE, Fields.guards, bind, Except.bind, pure, Except.pure, *]

theorem scmdStamp a0 a1 a2 a3 a4 : Statement (.scmdStamp a0 a1 a2 a3 a4) := by
  intro h f hf; cases hf; (try simp [Instr.wellFormed] at h)
  simp [decodeFields, Fields.cls, decodeClass7, Fields.operation, noGuards, modZero, unused, unused4, must, named, modFlag, modTag, modCvt, modScope, modOS, lowFlag, lowStream, lowFlag4, lowPred, mwaitE, Fields.guards, bind, Except.bind, pure, Except.pure, *]

theorem scmdColl a0 a1 a2 a3 a4 a5 : Statement (.scmdColl a0 a1 a2 a3 a4 a5) := by
  intro h f hf; cases hf; (try simp [Instr.wellFormed] at h)
  simp [decodeFields, Fields.cls, decodeClass7, Fields.operation, noGuards, modZero, unused, unused4, must, named, modFlag, modTag, modCvt, modScope, modOS, lowFlag, lowStream, lowFlag4, lowPred, mwaitE, Fields.guards, bind, Except.bind, pure, Except.pure, *]

theorem mloop a0 a1 a2 a3 a4 a5 : Statement (.mloop a0 a1 a2 a3 a4 a5) := by
  intro h f hf; cases hf; (try simp [Instr.wellFormed] at h)
  simp [decodeFields, Fields.cls, decodeClass8, Fields.operation, noGuards, modZero, unused, unused4, must, named, modFlag, modTag, modCvt, modScope, modOS, lowFlag, lowStream, lowFlag4, lowPred, mwaitE, Fields.guards, bind, Except.bind, pure, Except.pure, *]

theorem mzero a0 a1 a2 a3 : Statement (.mzero a0 a1 a2 a3) := by
  intro h f hf; cases hf; (try simp [Instr.wellFormed] at h)
  simp [decodeFields, Fields.cls, decodeClass8, Fields.operation, noGuards, modZero, unused, unused4, must, named, modFlag, modTag, modCvt, modScope, modOS, lowFlag, lowStream, lowFlag4, lowPred, mwaitE, Fields.guards, bind, Except.bind, pure, Except.pure, *]

theorem mldt a0 a1 a2 a3 a4 a5 a6 a7 : Statement (.mldt a0 a1 a2 a3 a4 a5 a6 a7) := by
  intro h f hf; cases hf; (try simp [Instr.wellFormed] at h)
  simp [decodeFields, Fields.cls, decodeClass8, Fields.operation, noGuards, modZero, unused, unused4, must, named, modFlag, modTag, modCvt, modScope, modOS, lowFlag, lowStream, lowFlag4, lowPred, mwaitE, Fields.guards, bind, Except.bind, pure, Except.pure, *]

theorem mldtScale a0 a1 a2 a3 a4 a5 : Statement (.mldtScale a0 a1 a2 a3 a4 a5) := by
  intro h f hf; cases hf; (try simp [Instr.wellFormed] at h)
  simp [decodeFields, Fields.cls, decodeClass8, Fields.operation, noGuards, modZero, unused, unused4, must, named, modFlag, modTag, modCvt, modScope, modOS, lowFlag, lowStream, lowFlag4, lowPred, mwaitE, Fields.guards, bind, Except.bind, pure, Except.pure, *]

theorem mstt a0 a1 a2 a3 a4 a5 a6 a7 a8 : Statement (.mstt a0 a1 a2 a3 a4 a5 a6 a7 a8) := by
  intro h f hf; cases hf; (try simp [Instr.wellFormed] at h)
  simp [decodeFields, Fields.cls, decodeClass8, Fields.operation, noGuards, modZero, unused, unused4, must, named, modFlag, modTag, modCvt, modScope, modOS, lowFlag, lowStream, lowFlag4, lowPred, mwaitE, Fields.guards, bind, Except.bind, pure, Except.pure, *]

theorem msttScale a0 a1 a2 a3 a4 a5 : Statement (.msttScale a0 a1 a2 a3 a4 a5) := by
  intro h f hf; cases hf; (try simp [Instr.wellFormed] at h)
  simp [decodeFields, Fields.cls, decodeClass8, Fields.operation, noGuards, modZero, unused, unused4, must, named, modFlag, modTag, modCvt, modScope, modOS, lowFlag, lowStream, lowFlag4, lowPred, mwaitE, Fields.guards, bind, Except.bind, pure, Except.pure, *]

theorem mfence a0 a1 : Statement (.mfence a0 a1) := by
  intro h f hf; cases hf; (try simp [Instr.wellFormed] at h)
  simp [decodeFields, Fields.cls, decodeClass8, Fields.operation, noGuards, modZero, unused, unused4, must, named, modFlag, modTag, modCvt, modScope, modOS, lowFlag, lowStream, lowFlag4, lowPred, mwaitE, Fields.guards, bind, Except.bind, pure, Except.pure, *]

theorem mprg a0 a1 a2 : Statement (.mprg a0 a1 a2) := by
  intro h f hf; cases hf; (try simp [Instr.wellFormed] at h)
  simp [decodeFields, Fields.cls, decodeClass8, Fields.operation, noGuards, modZero, unused, unused4, must, named, modFlag, modTag, modCvt, modScope, modOS, lowFlag, lowStream, lowFlag4, lowPred, mwaitE, Fields.guards, bind, Except.bind, pure, Except.pure, *]

theorem mtab a0 a1 a2 a3 a4 : Statement (.mtab a0 a1 a2 a3 a4) := by
  intro h f hf; cases hf; (try simp [Instr.wellFormed] at h)
  simp [decodeFields, Fields.cls, decodeClass9, Fields.operation, noGuards, modZero, unused, unused4, must, named, modFlag, modTag, modCvt, modScope, modOS, lowFlag, lowStream, lowFlag4, lowPred, mwaitE, Fields.guards, bind, Except.bind, pure, Except.pure, *]

theorem mred a0 a1 a2 a3 a4 : Statement (.mred a0 a1 a2 a3 a4) := by
  intro h f hf; cases hf; (try simp [Instr.wellFormed] at h)
  simp [decodeFields, Fields.cls, decodeClass9, Fields.operation, noGuards, modZero, unused, unused4, must, named, modFlag, modTag, modCvt, modScope, modOS, lowFlag, lowStream, lowFlag4, lowPred, mwaitE, Fields.guards, bind, Except.bind, pure, Except.pure, *]

theorem mlift a0 a1 a2 a3 : Statement (.mlift a0 a1 a2 a3) := by
  intro h f hf; cases hf; (try simp [Instr.wellFormed] at h)
  simp [decodeFields, Fields.cls, decodeClass9, Fields.operation, noGuards, modZero, unused, unused4, must, named, modFlag, modTag, modCvt, modScope, modOS, lowFlag, lowStream, lowFlag4, lowPred, mwaitE, Fields.guards, bind, Except.bind, pure, Except.pure, *]

theorem nttf a0 a1 a2 a3 a4 : Statement (.nttf a0 a1 a2 a3 a4) := by
  intro h f hf; cases hf; (try simp [Instr.wellFormed] at h)
  simp [decodeFields, Fields.cls, decodeClass9, Fields.operation, noGuards, modZero, unused, unused4, must, named, modFlag, modTag, modCvt, modScope, modOS, lowFlag, lowStream, lowFlag4, lowPred, mwaitE, Fields.guards, bind, Except.bind, pure, Except.pure, *]

theorem ntti a0 a1 a2 a3 a4 : Statement (.ntti a0 a1 a2 a3 a4) := by
  intro h f hf; cases hf; (try simp [Instr.wellFormed] at h)
  simp [decodeFields, Fields.cls, decodeClass9, Fields.operation, noGuards, modZero, unused, unused4, must, named, modFlag, modTag, modCvt, modScope, modOS, lowFlag, lowStream, lowFlag4, lowPred, mwaitE, Fields.guards, bind, Except.bind, pure, Except.pure, *]

theorem auto a0 a1 a2 a3 a4 a5 a6 : Statement (.auto a0 a1 a2 a3 a4 a5 a6) := by
  intro h f hf; cases hf; (try simp [Instr.wellFormed] at h)
  simp [decodeFields, Fields.cls, decodeClass9, Fields.operation, noGuards, modZero, unused, unused4, must, named, modFlag, modTag, modCvt, modScope, modOS, lowFlag, lowStream, lowFlag4, lowPred, mwaitE, Fields.guards, bind, Except.bind, pure, Except.pure, *]

theorem ctchk a0 a1 a2 a3 a4 a5 a6 : Statement (.ctchk a0 a1 a2 a3 a4 a5 a6) := by
  intro h f hf; cases hf; (try simp [Instr.wellFormed] at h)
  simp [decodeFields, Fields.cls, decodeClass9, Fields.operation, noGuards, modZero, unused, unused4, must, named, modFlag, modTag, modCvt, modScope, modOS, lowFlag, lowStream, lowFlag4, lowPred, mwaitE, Fields.guards, bind, Except.bind, pure, Except.pure, *]

theorem ctresc a0 a1 a2 a3 : Statement (.ctresc a0 a1 a2 a3) := by
  intro h f hf; cases hf; (try simp [Instr.wellFormed] at h)
  simp [decodeFields, Fields.cls, decodeClass9, Fields.operation, noGuards, modZero, unused, unused4, must, named, modFlag, modTag, modCvt, modScope, modOS, lowFlag, lowStream, lowFlag4, lowPred, mwaitE, Fields.guards, bind, Except.bind, pure, Except.pure, *]

theorem ctlvl a0 a1 a2 a3 : Statement (.ctlvl a0 a1 a2 a3) := by
  intro h f hf; cases hf; (try simp [Instr.wellFormed] at h)
  simp [decodeFields, Fields.cls, decodeClass9, Fields.operation, noGuards, modZero, unused, unused4, must, named, modFlag, modTag, modCvt, modScope, modOS, lowFlag, lowStream, lowFlag4, lowPred, mwaitE, Fields.guards, bind, Except.bind, pure, Except.pure, *]

theorem halloc a0 a1 a2 a3 a4 : Statement (.halloc a0 a1 a2 a3 a4) := by
  intro h f hf; cases hf; (try simp [Instr.wellFormed] at h)
  simp [decodeFields, Fields.cls, decodeClass10, Fields.operation, noGuards, modZero, unused, unused4, must, named, modFlag, modTag, modCvt, modScope, modOS, lowFlag, lowStream, lowFlag4, lowPred, mwaitE, Fields.guards, bind, Except.bind, pure, Except.pure, *]

theorem hfree a0 : Statement (.hfree a0) := by
  intro h f hf; cases hf; (try simp [Instr.wellFormed] at h)
  simp [decodeFields, Fields.cls, decodeClass10, Fields.operation, noGuards, modZero, unused, unused4, must, named, modFlag, modTag, modCvt, modScope, modOS, lowFlag, lowStream, lowFlag4, lowPred, mwaitE, Fields.guards, bind, Except.bind, pure, Except.pure, *]

theorem hstat a0 a1 : Statement (.hstat a0 a1) := by
  intro h f hf; cases hf; (try simp [Instr.wellFormed] at h)
  simp [decodeFields, Fields.cls, decodeClass10, Fields.operation, noGuards, modZero, unused, unused4, must, named, modFlag, modTag, modCvt, modScope, modOS, lowFlag, lowStream, lowFlag4, lowPred, mwaitE, Fields.guards, bind, Except.bind, pure, Except.pure, *]

theorem mark a0 : Statement (.mark a0) := by
  intro h f hf; cases hf; (try simp [Instr.wellFormed] at h)
  simp [decodeFields, Fields.cls, decodeClass10, Fields.operation, noGuards, modZero, unused, unused4, must, named, modFlag, modTag, modCvt, modScope, modOS, lowFlag, lowStream, lowFlag4, lowPred, mwaitE, Fields.guards, bind, Except.bind, pure, Except.pure, *]

theorem scrdl a0 a1 a2 a3 a4 : Statement (.scrdl a0 a1 a2 a3 a4) := by
  intro h f hf; cases hf; (try simp [Instr.wellFormed] at h)
  simp [decodeFields, Fields.cls, decodeClass10, Fields.operation, noGuards, modZero, unused, unused4, must, named, modFlag, modTag, modCvt, modScope, modOS, lowFlag, lowStream, lowFlag4, lowPred, mwaitE, Fields.guards, bind, Except.bind, pure, Except.pure, *]

theorem tierq a0 a1 a2 a3 a4 a5 a6 : Statement (.tierq a0 a1 a2 a3 a4 a5 a6) := by
  intro h f hf; cases hf; (try simp [Instr.wellFormed] at h)
  simp [decodeFields, Fields.cls, decodeClass10, Fields.operation, noGuards, modZero, unused, unused4, must, named, modFlag, modTag, modCvt, modScope, modOS, lowFlag, lowStream, lowFlag4, lowPred, mwaitE, Fields.guards, bind, Except.bind, pure, Except.pure, *]

theorem launch a0 a1 a2 a3 : Statement (.launch a0 a1 a2 a3) := by
  intro h f hf; cases hf; (try simp [Instr.wellFormed] at h)
  simp [decodeFields, Fields.cls, decodeClass10, Fields.operation, noGuards, modZero, unused, unused4, must, named, modFlag, modTag, modCvt, modScope, modOS, lowFlag, lowStream, lowFlag4, lowPred, mwaitE, Fields.guards, bind, Except.bind, pure, Except.pure, *]

theorem nrec a0 a1 a2 a3 a4 a5 : Statement (.nrec a0 a1 a2 a3 a4 a5) := by
  intro h f hf; cases hf; (try simp [Instr.wellFormed] at h)
  simp [decodeFields, Fields.cls, decodeClass10, Fields.operation, noGuards, modZero, unused, unused4, must, named, modFlag, modTag, modCvt, modScope, modOS, lowFlag, lowStream, lowFlag4, lowPred, mwaitE, Fields.guards, bind, Except.bind, pure, Except.pure, *]

theorem nflush a0 a1 a2 : Statement (.nflush a0 a1 a2) := by
  intro h f hf; cases hf; (try simp [Instr.wellFormed] at h)
  simp [decodeFields, Fields.cls, decodeClass10, Fields.operation, noGuards, modZero, unused, unused4, must, named, modFlag, modTag, modCvt, modScope, modOS, lowFlag, lowStream, lowFlag4, lowPred, mwaitE, Fields.guards, bind, Except.bind, pure, Except.pure, *]

theorem grow a0 a1 a2 : Statement (.grow a0 a1 a2) := by
  intro h f hf; cases hf; (try simp [Instr.wellFormed] at h)
  simp [decodeFields, Fields.cls, decodeClass10, Fields.operation, noGuards, modZero, unused, unused4, must, named, modFlag, modTag, modCvt, modScope, modOS, lowFlag, lowStream, lowFlag4, lowPred, mwaitE, Fields.guards, bind, Except.bind, pure, Except.pure, *]

theorem shrink a0 : Statement (.shrink a0) := by
  intro h f hf; cases hf; (try simp [Instr.wellFormed] at h)
  simp [decodeFields, Fields.cls, decodeClass10, Fields.operation, noGuards, modZero, unused, unused4, must, named, modFlag, modTag, modCvt, modScope, modOS, lowFlag, lowStream, lowFlag4, lowPred, mwaitE, Fields.guards, bind, Except.bind, pure, Except.pure, *]

theorem enrd a0 a1 : Statement (.enrd a0 a1) := by
  intro h f hf; cases hf; (try simp [Instr.wellFormed] at h)
  simp [decodeFields, Fields.cls, decodeClass10, Fields.operation, noGuards, modZero, unused, unused4, must, named, modFlag, modTag, modCvt, modScope, modOS, lowFlag, lowStream, lowFlag4, lowPred, mwaitE, Fields.guards, bind, Except.bind, pure, Except.pure, *]

theorem trap a0 a1 : Statement (.trap a0 a1) := by
  intro h f hf; cases hf; (try simp [Instr.wellFormed] at h)
  simp [decodeFields, Fields.cls, decodeClass11, Fields.operation, noGuards, modZero, unused, unused4, must, named, modFlag, modTag, modCvt, modScope, modOS, lowFlag, lowStream, lowFlag4, lowPred, mwaitE, Fields.guards, bind, Except.bind, pure, Except.pure, *]

theorem rte  : Statement (.rte ) := by
  intro h f hf; cases hf; (try simp [Instr.wellFormed] at h)
  simp [decodeFields, Fields.cls, decodeClass11, Fields.operation, noGuards, modZero, unused, unused4, must, named, modFlag, modTag, modCvt, modScope, modOS, lowFlag, lowStream, lowFlag4, lowPred, mwaitE, Fields.guards, bind, Except.bind, pure, Except.pure, *]

theorem bkpt a0 : Statement (.bkpt a0) := by
  intro h f hf; cases hf; (try simp [Instr.wellFormed] at h)
  simp [decodeFields, Fields.cls, decodeClass11, Fields.operation, noGuards, modZero, unused, unused4, must, named, modFlag, modTag, modCvt, modScope, modOS, lowFlag, lowStream, lowFlag4, lowPred, mwaitE, Fields.guards, bind, Except.bind, pure, Except.pure, *]

theorem csrd a0 a1 : Statement (.csrd a0 a1) := by
  intro h f hf; cases hf; (try simp [Instr.wellFormed] at h)
  simp [decodeFields, Fields.cls, decodeClass11, Fields.operation, noGuards, modZero, unused, unused4, must, named, modFlag, modTag, modCvt, modScope, modOS, lowFlag, lowStream, lowFlag4, lowPred, mwaitE, Fields.guards, bind, Except.bind, pure, Except.pure, *]

theorem cswr a0 a1 : Statement (.cswr a0 a1) := by
  intro h f hf; cases hf; (try simp [Instr.wellFormed] at h)
  simp [decodeFields, Fields.cls, decodeClass11, Fields.operation, noGuards, modZero, unused, unused4, must, named, modFlag, modTag, modCvt, modScope, modOS, lowFlag, lowStream, lowFlag4, lowPred, mwaitE, Fields.guards, bind, Except.bind, pure, Except.pure, *]

theorem tlbinvPage a0 a1 : Statement (.tlbinvPage a0 a1) := by
  intro h f hf; cases hf; (try simp [Instr.wellFormed] at h)
  simp [decodeFields, Fields.cls, decodeClass11, Fields.operation, noGuards, modZero, unused, unused4, must, named, modFlag, modTag, modCvt, modScope, modOS, lowFlag, lowStream, lowFlag4, lowPred, mwaitE, Fields.guards, bind, Except.bind, pure, Except.pure, *]

theorem tlbinvCtx a0 : Statement (.tlbinvCtx a0) := by
  intro h f hf; cases hf; (try simp [Instr.wellFormed] at h)
  simp [decodeFields, Fields.cls, decodeClass11, Fields.operation, noGuards, modZero, unused, unused4, must, named, modFlag, modTag, modCvt, modScope, modOS, lowFlag, lowStream, lowFlag4, lowPred, mwaitE, Fields.guards, bind, Except.bind, pure, Except.pure, *]

theorem tlbinvAll  : Statement (.tlbinvAll ) := by
  intro h f hf; cases hf; (try simp [Instr.wellFormed] at h)
  simp [decodeFields, Fields.cls, decodeClass11, Fields.operation, noGuards, modZero, unused, unused4, must, named, modFlag, modTag, modCvt, modScope, modOS, lowFlag, lowStream, lowFlag4, lowPred, mwaitE, Fields.guards, bind, Except.bind, pure, Except.pure, *]

theorem cmmt  : Statement (.cmmt ) := by
  intro h f hf; cases hf; (try simp [Instr.wellFormed] at h)
  simp [decodeFields, Fields.cls, decodeClass11, Fields.operation, noGuards, modZero, unused, unused4, must, named, modFlag, modTag, modCvt, modScope, modOS, lowFlag, lowStream, lowFlag4, lowPred, mwaitE, Fields.guards, bind, Except.bind, pure, Except.pure, *]

theorem wkill a0 : Statement (.wkill a0) := by
  intro h f hf; cases hf; (try simp [Instr.wellFormed] at h)
  simp [decodeFields, Fields.cls, decodeClass11, Fields.operation, noGuards, modZero, unused, unused4, must, named, modFlag, modTag, modCvt, modScope, modOS, lowFlag, lowStream, lowFlag4, lowPred, mwaitE, Fields.guards, bind, Except.bind, pure, Except.pure, *]

theorem prmtSave a0 a1 : Statement (.prmtSave a0 a1) := by
  intro h f hf; cases hf; (try simp [Instr.wellFormed] at h)
  simp [decodeFields, Fields.cls, decodeClass11, Fields.operation, noGuards, modZero, unused, unused4, must, named, modFlag, modTag, modCvt, modScope, modOS, lowFlag, lowStream, lowFlag4, lowPred, mwaitE, Fields.guards, bind, Except.bind, pure, Except.pure, *]

theorem prmtRestore a0 a1 : Statement (.prmtRestore a0 a1) := by
  intro h f hf; cases hf; (try simp [Instr.wellFormed] at h)
  simp [decodeFields, Fields.cls, decodeClass11, Fields.operation, noGuards, modZero, unused, unused4, must, named, modFlag, modTag, modCvt, modScope, modOS, lowFlag, lowStream, lowFlag4, lowPred, mwaitE, Fields.guards, bind, Except.bind, pure, Except.pure, *]

theorem computedWord a0 : Statement (.computedWord a0) := by
  intro _ f h; simp [Instr.fields] at h

theorem lmulmStep a0 a1 : Statement (.lmulmStep a0 a1) := by
  intro _ f h; simp [Instr.fields] at h

theorem monitorFire a0 : Statement (.monitorFire a0) := by
  intro _ f h; simp [Instr.fields] at h

theorem mwaitBackOff a0 : Statement (.mwaitBackOff a0) := by
  intro _ f h; simp [Instr.fields] at h

theorem ringPop a0 : Statement (.ringPop a0) := by
  intro _ f h; simp [Instr.fields] at h

theorem ringPush a0 : Statement (.ringPush a0) := by
  intro _ f h; simp [Instr.fields] at h

theorem streamBoxStep a0 a1 : Statement (.streamBoxStep a0 a1) := by
  intro _ f h; simp [Instr.fields] at h

theorem streamCommandStart a0 a1 : Statement (.streamCommandStart a0 a1) := by
  intro _ f h; simp [Instr.fields] at h

theorem rfillUnitClaim a0 a1 : Statement (.rfillUnitClaim a0 a1) := by
  intro _ f h; simp [Instr.fields] at h

theorem rdrainUnitTake a0 a1 : Statement (.rdrainUnitTake a0 a1) := by
  intro _ f h; simp [Instr.fields] at h

theorem matrixRowStep a0 a1 : Statement (.matrixRowStep a0 a1) := by
  intro _ f h; simp [Instr.fields] at h

theorem nttStep a0 : Statement (.nttStep a0) := by
  intro _ f h; simp [Instr.fields] at h

theorem heapCommandApply a0 : Statement (.heapCommandApply a0) := by
  intro _ f h; simp [Instr.fields] at h

theorem clauseStart a0 : Statement (.clauseStart a0) := by
  intro _ f h; simp [Instr.fields] at h

theorem agingLimit a0 : Statement (.agingLimit a0) := by
  intro _ f h; simp [Instr.fields] at h

theorem countedOperationComplete a0 a1 : Statement (.countedOperationComplete a0 a1) := by
  intro _ f h; simp [Instr.fields] at h

theorem storePerform a0 : Statement (.storePerform a0) := by
  intro _ f h; simp [Instr.fields] at h

theorem barrierPhaseCompletion a0 a1 a2 a3 : Statement (.barrierPhaseCompletion a0 a1 a2 a3) := by
  intro _ f h; simp [Instr.fields] at h

theorem livelock a0 : Statement (.livelock a0) := by
  intro _ f h; simp [Instr.fields] at h

theorem watchdog a0 : Statement (.watchdog a0) := by
  intro _ f h; simp [Instr.fields] at h

theorem singleStep a0 : Statement (.singleStep a0) := by
  intro _ f h; simp [Instr.fields] at h

theorem eventDelivery a0 : Statement (.eventDelivery a0) := by
  intro _ f h; simp [Instr.fields] at h

theorem debugBreak a0 a1 : Statement (.debugBreak a0 a1) := by
  intro _ f h; simp [Instr.fields] at h

theorem park a0 : Statement (.park a0) := by
  intro _ f h; simp [Instr.fields] at h

theorem partitionSave a0 : Statement (.partitionSave a0) := by
  intro _ f h; simp [Instr.fields] at h

theorem partitionRestore a0 a1 : Statement (.partitionRestore a0 a1) := by
  intro _ f h; simp [Instr.fields] at h

theorem preemptionTimeout a0 : Statement (.preemptionTimeout a0) := by
  intro _ f h; simp [Instr.fields] at h

theorem commit a0 : Statement (.commit a0) := by
  intro _ f h; simp [Instr.fields] at h

theorem uncorrectableError a0 : Statement (.uncorrectableError a0) := by
  intro _ f h; simp [Instr.fields] at h

theorem hostQueueDoorbell a0 a1 : Statement (.hostQueueDoorbell a0 a1) := by
  intro _ f h; simp [Instr.fields] at h

theorem hostLaunch a0 a1 : Statement (.hostLaunch a0 a1) := by
  intro _ f h; simp [Instr.fields] at h

theorem activate a0 a1 : Statement (.activate a0 a1) := by
  intro _ f h; simp [Instr.fields] at h

theorem deactivate a0 a1 : Statement (.deactivate a0 a1) := by
  intro _ f h; simp [Instr.fields] at h

theorem completionRecordWrite a0 a1 : Statement (.completionRecordWrite a0 a1) := by
  intro _ f h; simp [Instr.fields] at h

theorem groupAdmission a0 : Statement (.groupAdmission a0) := by
  intro _ f h; simp [Instr.fields] at h

theorem passOverLimit a0 a1 : Statement (.passOverLimit a0 a1) := by
  intro _ f h; simp [Instr.fields] at h

theorem growGrant a0 : Statement (.growGrant a0) := by
  intro _ f h; simp [Instr.fields] at h

theorem growDeadlockFail a0 : Statement (.growDeadlockFail a0) := by
  intro _ f h; simp [Instr.fields] at h

theorem binTimeout a0 a1 a2 : Statement (.binTimeout a0 a1 a2) := by
  intro _ f h; simp [Instr.fields] at h

theorem launchDrain a0 : Statement (.launchDrain a0) := by
  intro _ f h; simp [Instr.fields] at h

theorem fetch a0 a1 a2 a3 a4 : Statement (.fetch a0 a1 a2 a3 a4) := by
  intro _ f h; simp [Instr.fields] at h

theorem evict a0 a1 a2 : Statement (.evict a0 a1 a2) := by
  intro _ f h; simp [Instr.fields] at h

theorem shootdown a0 : Statement (.shootdown a0) := by
  intro _ f h; simp [Instr.fields] at h

theorem faultReplay a0 : Statement (.faultReplay a0) := by
  intro _ f h; simp [Instr.fields] at h

theorem screedEntryEnd a0 a1 : Statement (.screedEntryEnd a0 a1) := by
  intro _ f h; simp [Instr.fields] at h

theorem collectiveInstanceStart a0 a1 a2 : Statement (.collectiveInstanceStart a0 a1 a2) := by
  intro _ f h; simp [Instr.fields] at h

theorem flitReceive a0 a1 a2 a3 : Statement (.flitReceive a0 a1 a2 a3) := by
  intro _ f h; simp [Instr.fields] at h

theorem flitArrive a0 a1 a2 a3 a4 : Statement (.flitArrive a0 a1 a2 a3 a4) := by
  intro _ f h; simp [Instr.fields] at h

theorem flitTake a0 a1 a2 : Statement (.flitTake a0 a1 a2) := by
  intro _ f h; simp [Instr.fields] at h

theorem flitSend a0 a1 a2 a3 : Statement (.flitSend a0 a1 a2 a3) := by
  intro _ f h; simp [Instr.fields] at h

theorem flitAck a0 a1 a2 a3 : Statement (.flitAck a0 a1 a2 a3) := by
  intro _ f h; simp [Instr.fields] at h

theorem flitAsk a0 a1 a2 a3 : Statement (.flitAsk a0 a1 a2 a3) := by
  intro _ f h; simp [Instr.fields] at h

theorem replayLimit a0 a1 : Statement (.replayLimit a0 a1) := by
  intro _ f h; simp [Instr.fields] at h

theorem railLoss a0 a1 a2 : Statement (.railLoss a0 a1 a2) := by
  intro _ f h; simp [Instr.fields] at h

theorem trainingEnd a0 a1 a2 a3 : Statement (.trainingEnd a0 a1 a2 a3) := by
  intro _ f h; simp [Instr.fields] at h

theorem pause a0 a1 a2 : Statement (.pause a0 a1 a2) := by
  intro _ f h; simp [Instr.fields] at h

theorem resume a0 a1 a2 : Statement (.resume a0 a1 a2) := by
  intro _ f h; simp [Instr.fields] at h

theorem recoveryHoldExpiry a0 a1 : Statement (.recoveryHoldExpiry a0 a1) := by
  intro _ f h; simp [Instr.fields] at h

theorem bridgeError a0 a1 : Statement (.bridgeError a0 a1) := by
  intro _ f h; simp [Instr.fields] at h

theorem powerOn : Statement (.powerOn) := by
  intro _ f h; simp [Instr.fields] at h

theorem bellowsUpdate : Statement (.bellowsUpdate) := by
  intro _ f h; simp [Instr.fields] at h

theorem throttle a0 a1 : Statement (.throttle a0 a1) := by
  intro _ f h; simp [Instr.fields] at h

theorem thermalHalt a0 a1 : Statement (.thermalHalt a0 a1) := by
  intro _ f h; simp [Instr.fields] at h

theorem formPartitions : Statement (.formPartitions) := by
  intro _ f h; simp [Instr.fields] at h

theorem registerHostQueue : Statement (.registerHostQueue) := by
  intro _ f h; simp [Instr.fields] at h

theorem unregisterHostQueue : Statement (.unregisterHostQueue) := by
  intro _ f h; simp [Instr.fields] at h

theorem setBellows : Statement (.setBellows) := by
  intro _ f h; simp [Instr.fields] at h

theorem setPackageLimit : Statement (.setPackageLimit) := by
  intro _ f h; simp [Instr.fields] at h

theorem setFramePool : Statement (.setFramePool) := by
  intro _ f h; simp [Instr.fields] at h

theorem writeRouteTable : Statement (.writeRouteTable) := by
  intro _ f h; simp [Instr.fields] at h

theorem setPodRank : Statement (.setPodRank) := by
  intro _ f h; simp [Instr.fields] at h

theorem preEmpt : Statement (.preEmpt) := by
  intro _ f h; simp [Instr.fields] at h

theorem restore : Statement (.restore) := by
  intro _ f h; simp [Instr.fields] at h

theorem moveImage : Statement (.moveImage) := by
  intro _ f h; simp [Instr.fields] at h

theorem resetPartition : Statement (.resetPartition) := by
  intro _ f h; simp [Instr.fields] at h

theorem invalidateTranslations : Statement (.invalidateTranslations) := by
  intro _ f h; simp [Instr.fields] at h

theorem attestationReport : Statement (.attestationReport) := by
  intro _ f h; simp [Instr.fields] at h

theorem readErrorRecords : Statement (.readErrorRecords) := by
  intro _ f h; simp [Instr.fields] at h

theorem loadFirmwareImage : Statement (.loadFirmwareImage) := by
  intro _ f h; simp [Instr.fields] at h

theorem positionAperture : Statement (.positionAperture) := by
  intro _ f h; simp [Instr.fields] at h

theorem registerWrite a0 a1 : Statement (.registerWrite a0 a1) := by
  intro _ f h; simp [Instr.fields] at h

theorem logicalCoreChange a0 : Statement (.logicalCoreChange a0) := by
  intro _ f h; simp [Instr.fields] at h

theorem registerRead a0 : Statement (.registerRead a0) := by
  intro _ f h; simp [Instr.fields] at h

theorem apertureAccess a0 a1 a2 : Statement (.apertureAccess a0 a1 a2) := by
  intro _ f h; simp [Instr.fields] at h

theorem temperatureFalls a0 a1 : Statement (.temperatureFalls a0 a1) := by
  intro _ f h; simp [Instr.fields] at h

theorem lossOfPackagePower : Statement (.lossOfPackagePower) := by
  intro _ f h; simp [Instr.fields] at h

theorem bringPortUp a0 a1 : Statement (.bringPortUp a0 a1) := by
  intro _ f h; simp [Instr.fields] at h

theorem fatalHostRequest a0 : Statement (.fatalHostRequest a0) := by
  intro _ f h; simp [Instr.fields] at h

theorem controllerInternalError a0 : Statement (.controllerInternalError a0) := by
  intro _ f h; simp [Instr.fields] at h

end Sys2Proof.Laws.FieldRoundTrip
end

