-- ==== Sys2Proof/Tests/Slice0.lean ====
section
/-! SUPPORT. The model's own tests: words of the spec decode to what they stand for, ill-formed instructions are refused, and
for every statement with hypotheses concrete states and operands that meet them. -/

set_option Elab.async false

open Sys2Proof Sys2Proof.Machine Sys2Proof.Claims

namespace Sys2Proof.Tests

/-! Checks of results that may fail -/

def okB {ε α : Type} (r : Except ε α) (f : α → Bool) : Bool :=
  match r with
  | .ok x => f x
  | .error _ => false

def someB {α : Type} (r : Option α) (f : α → Bool) : Bool :=
  match r with
  | some x => f x
  | none => false

def nextB (r : Out) : Bool :=
  match r with
  | .next _ => true
  | _ => false

theorem exists_of_okB {ε α : Type} {r : Except ε α} {f : α → Bool} (h : okB r f = true) : ∃ x, r = .ok x ∧ f x = true := by
  cases r with
  | ok x => exact ⟨x, rfl, h⟩
  | error _ => cases h

theorem exists_of_someB {α : Type} {r : Option α} {f : α → Bool} (h : someB r f = true) : ∃ x, r = some x ∧ f x = true := by
  cases r with
  | some x => exact ⟨x, rfl, h⟩
  | none => cases h

/-- A lane-wise instruction comes to its own work in a state, and more holds there. -/
def enterB (i : Instr) (s : State) (w : Nat) (q : LaneForm → PopOut → Bool) : Bool :=
  someB (form i) fun f => decide (s.running = some w) && decide (f.decodes s w) && decide (activeMask s w f.g ≠ 0) &&
    okB (popAll true s w (activeMask s w f.g) f.srcs) fun po => decide (po.m ≠ 0) && q f po

theorem enters_of_enterB {i : Instr} {s : State} {w : Nat} {q : LaneForm → PopOut → Bool} (h : enterB i s w q = true) :
    ∃ f po, form i = some f ∧ f.enters s w po ∧ q f po = true := by
  obtain ⟨f, hf, h⟩ := exists_of_someB h
  simp only [Bool.and_eq_true, decide_eq_true_eq] at h
  obtain ⟨⟨⟨h1, h2⟩, h3⟩, h4⟩ := h
  obtain ⟨po, h5, h6⟩ := exists_of_okB h4
  simp only [Bool.and_eq_true, decide_eq_true_eq] at h6
  exact ⟨f, po, hf, ⟨h1, h2, h3, h5, h6.1⟩, h6.2⟩

/-! States of the tests -/

/-- Both guards P7: every lane. -/
def noGuards : Guards := { ga := { neg := false, p := 7 }, gb := { neg := false, p := 7 } }
/-- No lane. -/
def zeroGuards : Guards := { ga := { neg := true, p := 7 }, gb := { neg := false, p := 7 } }
/-- The lanes of P2. -/
def oneLane : Guards := { ga := { neg := false, p := 2 }, gb := { neg := false, p := 7 } }

/-- One wave of 32 lanes at `sadd S4, S4, 1`. -/
def demo : State := State.reset.withFetchWord 64 0x101DD11130400000
/-- The same at `bru 0`. -/
def demoB : State := State.reset.withFetchWord 64 ((encode (.bru 0) 0).getD 0).toNat
/-- A second wave in the group. -/
def demo2 : State :=
  let x := demo.wave 0
  { demo with waves := [x, { x with id := { x.id with slot := 1, widx := 1, waveid := 1 } }],
              groups := demo.groups.map fun g => { g with waves := [0, 1] } }
/-- S5 = 3. -/
def demo3 : State := demo.modWave 0 fun x => x.setS 5 3
/-- A handler for code 0x0A in a table at 0x20000. -/
def demoT : State :=
  let s := demo.modCtx 0 0 fun c => { c with tbase := 0x20000 }
  { s with mem := s.mem.writeAll (placed 0x20050 (leBytes 8 0x10000)) }
/-- Registers, a modulus, a ring with two ports and the matrix engine in use. -/
def demoU : State :=
  let u : VReg := { lanes := (List.range 32).map (BitVec.ofNat 32), md := tagMd .u32 }
  let five : VReg := { lanes := 5 :: List.replicate 31 0, md := mkMd .limb 1 false false 0 }
  let q : VReg := { lanes := List.replicate 32 0, md := mkMd .modq 0 false false 0 }
  let s := demo.modWave 0 fun x => { x with
    v := [u, u, u, u, five, q] ++ List.replicate 10 u,
    preds := [0, 15, 1, 0, 0, 0, 0],
    s := (x.s.set 6 0xFFFFFFFF00000001#64).set 7 0x20000 |>.set 8 0x20001 |>.set 9 (BitVec.ofNat 64 (2 ^ 57)) |>.set 11 256 |>.set 12 4,
    ports := (List.replicate 8 none).set 0 (some (0, false)) |>.set 1 (some (0, true)) }
  let r : Ring := { Ring.fresh with defined := true, off := 0, ls := 2, lz := 4, tag := .u32, occ := [true] }
  let s := s.modGroup 0 fun g => { g with rings := [r, Ring.fresh] }
  let s := s.modCtx 0 0 fun c => { c with mods := some { p := 97, psi := 28, ninv := 91, logn := 4 } :: List.replicate 63 none }
  { s with quads := [{ quad := 0, slots := [] }] }

/-! Decoding: words from the spec's own examples and encoding tables -/


/-- spec/02. -/
theorem test_decode_scmp : decodeWord 0x139DD15111800008#64 = .ok (.scmp .lt (.s 5) (.s 4) (.s 6)) := by decide +kernel

/-- spec/03. -/
theorem test_decode_cvt : decodeWord 0x339DC1410000004C#64 = .ok (.cvt noGuards .bf16x2 true (.v 5) (.v 4) 0) := by decide +kernel

/-- spec/04. -/
theorem test_decode_ld : decodeWord 0x601DC09234001168#64 = .ok (.ld noGuards .acq .die 2 (.v 2) (.s 8) (.imm 16) .w) := by decide +kernel

/-- spec/05. -/
theorem test_decode_vote : decodeWord 0x411DC161D0800008#64 = .ok (.vote .ballot (.v 5) (.p 7) (.s 2)) := by decide +kernel

/-- spec/05. -/
theorem test_decode_exitl : decodeWord 0x40E5C00000000000#64 = .ok (.exitl { ga := { neg := true, p := 1 }, gb := { neg := false, p := 7 } }) := by decide +kernel

/-- spec/07. -/
theorem test_decode_bshl : decodeWord 0x509DC14134400000#64 = .ok (.bshl noGuards (.v 5) (.v 4) (.imm 17)) := by decide +kernel

/-- spec/09. -/
theorem test_decode_mloop : decodeWord 0x801DC01410400808#64 = .ok (.mloop .rlx .wave 1 (.s 16) (.s 1) 2) := by decide +kernel

/-- spec/10. -/
theorem test_decode_ctresc : decodeWord 0x91DDC01580000344#64 = .ok (.ctresc .ar .quad true (.s 22)) := by decide +kernel

/-- spec/12. -/
theorem test_decode_launch : decodeWord 0xA19DD11180000000#64 = .ok (.launch .rlx .wave (.s 4) (.s 6)) := by decide +kernel

/-- spec/12. -/
theorem test_decode_grow : decodeWord 0xA25DC03400000400#64 = .ok (.grow false (.imm 16) 1) := by decide +kernel

/-- spec/04. -/
theorem test_decode_st : decodeWord 0x609DC01234011220#64 = .ok (.st noGuards .rel .core 0 (.s 8) (.imm 16) (.v 4) .w) := by decide +kernel

/-- spec/06. -/
theorem test_decode_or : decodeWord 0x305DC06430000800#64 = .ok (.or noGuards (.v 1) (.q 0) (.imm 0) 2) := by decide +kernel

/-- spec/06. -/
theorem test_decode_rfill : decodeWord 0x71DDC03030117000#64 = .ok (.scmdRfill .rlx .wave false (.imm 0) (.imm 0) (.s 5) true) := by decide +kernel

/-- spec/06. -/
theorem test_decode_mov_port : decodeWord 0x375DC06400000800#64 = .ok (.movPort noGuards (.v 1) (.q 0) 2) := by decide +kernel

/-- spec/12. -/
theorem test_decode_nrec : decodeWord 0xA1DDC21080C00000#64 = .ok (.nrec noGuards .rlx .wave (.v 8) (.s 2) (.v 3)) := by decide +kernel

/-- spec/13. -/
theorem test_decode_tierq : decodeWord 0xA15DC01130914580#64 = .ok (.tierq .acq .pkg 0 (.s 4) (.imm 2) (.s 5) .fetch) := by decide +kernel

theorem test_decode_by_fields : decodeWord ((0x040#10 ++ 7#4 ++ 7#4 ++ 0x44#8 ++ 0x44#8 ++ 0xC1#8 ++ 0#8 ++ 0#4 ++ 0#8 ++ 0#2 : BitVec 64)) =
    .ok (.sadd false (.s 4) (.s 4) (.imm 1)) := by decide +kernel

theorem test_scheduling_bits_change_nothing : decodeWord (0x101DD11130400003#64) = .ok (.sadd false (.s 4) (.s 4) (.imm 1)) := by decide +kernel

theorem test_reserved_words_refused : decodeWord 0xFCF0FFFFFF800000#64 = .error .headerWord ∧ decodeTableWord 64 0xFFFFFFFFFFFFFFFF = none ∧
    decodeTableWord 64 0x3FFDC00000000000 = none := by decide +kernel

theorem test_ill_formed_lanes : Instr.wellFormed (.add noGuards false (.v 1) (.v 2) (.v 3) 1) = false ∧
    Instr.wellFormed (.li noGuards .limb (.v 1) 0) = false ∧
    Instr.wellFormed (.cvt noGuards .f32 true (.v 1) (.v 2) 0) = false ∧
    Instr.wellFormed (.tagset noGuards .f32 (.v 1) (.v 2) (.s 1)) = false ∧
    Instr.wellFormed (.mov noGuards (.v 1) (.s 2)) = false ∧
    Instr.wellFormed (.mov noGuards (.v 1) (.q 2)) = false ∧
    Instr.wellFormed (.movPort noGuards (.v 1) (.v 2) 0) = false ∧
    Instr.wellFormed (.movPort noGuards (.v 1) (.q 2) 8) = false ∧
    Instr.wellFormed (.tagset noGuards .f32 (.v 1) (.q 2) (.v 0)) = false ∧
    Instr.wellFormed (.tagsetPort noGuards .f32 (.v 1) (.v 2) (.v 0) 0) = false ∧
    Instr.wellFormed (.movTag noGuards .f32 (.v 1) (.v 2)) = false ∧
    Instr.wellFormed (.movTag noGuards .f32 (.v 1) (.q 2)) = false ∧
    Instr.wellFormed (.brk noGuards 0 0) = false ∧
    Instr.wellFormed (.btom noGuards false (.s 1) (.s 2) (.v 3) (.v 4)) = false := by decide +kernel

theorem test_ill_formed_memory : Instr.wellFormed (.ld noGuards .rel .core 0 (.v 1) (.s 2) (.imm 0) .w) = false ∧
    Instr.wellFormed (.ld noGuards .rlx .core 0 (.v 1) (.s 2) (.imm 0) .uw) = false ∧
    Instr.wellFormed (.st noGuards .acq .core 0 (.s 1) (.imm 0) (.v 2) .w) = false ∧
    Instr.wellFormed (.st noGuards .rlx .core 0 (.s 1) (.imm 0) (.v 2) .sb) = false ∧
    Instr.wellFormed (.atomAdd noGuards .rlx .core 0 (.v 1) (.s 2) (.imm 0) (.v 3) .b) = false ∧
    Instr.wellFormed (.atomMin noGuards .rlx .core 0 (.v 1) (.s 2) (.imm 0) (.v 3) .q) = false ∧
    Instr.wellFormed (.cas noGuards .rlx .core 0 (.v 1) (.s 2) (.imm 0) (.v 3) .h) = false ∧
    Instr.wellFormed (.atomFadd noGuards .rlx .core 0 (.v 1) (.s 2) (.imm 0) (.v 3) .d) = false ∧
    Instr.wellFormed (.aod noGuards .core .fadd (.v 1) (.s 2) (.v 3) (.imm 0) .d) = false ∧
    Instr.wellFormed (.fence .rlx .core) = false := by decide +kernel

theorem test_ill_formed_rest : Instr.wellFormed (.mwait .rlx .core (.s 1) (.s 2) (.imm 0) (.imm 0) true false .eq) = false ∧
    Instr.wellFormed (.mldt .rlx .core 0 false (.s 1) (.s 2) (.s 3) 8) = false ∧
    Instr.wellFormed (.mfence (.s 0) 0) = false ∧
    Instr.wellFormed (.ctchk .rlx .core false (.s 1) (.s 2) (.s 3) false) = false ∧
    Instr.wellFormed (.halloc false true (.s 1) (.s 2) 1) = false ∧
    Instr.wellFormed (.nflush true (.s 1) (.s 2)) = false ∧
    Instr.wellFormed (.grow true (.imm 8) 1) = false ∧
    Instr.wellFormed (.trap 0x1E (.imm 0)) = false ∧
    Instr.wellFormed (.trap 0 (.imm 0)) = false ∧
    Instr.wellFormed (.slay .rel .core (.s 1) (.imm 0) (.imm 0) 0) = false := by decide +kernel

/-! Witnesses of the statements' hypotheses -/

theorem witness_ScalarDivisionResults :
    (demo.running = some 0 ∧ scalarReads demo 0 (.s 4#6) (.imm 7#6) (.imm 2#6) 7 2 ∧ scalarReads demo 0 (.s 4#6) (.imm 7#6) (.imm 0#6) 7 0) ∧
    (demo.putScalar 0 (.s 4#6) 3).isOk = true := by decide +kernel

theorem witness_ScalarShiftResults :
    (demo.running = some 0 ∧ scalarReads demo 0 (.s 4#6) (.imm 63#6) (.imm 31#6) (BitVec.allOnes 64) 31) ∧
    (demo.putScalar 0 (.s 4#6) 3).isOk = true := by decide +kernel

theorem witness_ScalarMovesAndFields :
    demo.running = some 0 ∧ checkOps demo 0 [(.s 4#6, .scalarDest), (.imm 5#6, .uniform)] = .ok () ∧ uni1 demo 0 (.imm 5#6) = .ok 5 ∧
    scalarReads3 demo 0 (.s 4#6) (.imm 5#6) (.imm 1#6) (.imm 31#6) 5 1 31 ∧ uniOf demo 0 (demo.wave 0).exec 4 (.s 4#6) = .ok 0 ∧
    (demo.putScalar 0 (.s 4#6) 3).isOk = true := by decide +kernel

theorem witness_ScalarDestinations :
    (demo.running = some 0 ∧ 0 < demo.waves.length ∧ (demo.wave 0).s.length = 64 ∧ (demo.wave 0).hb.length = 8 ∧ uni1 demo 0 (.imm 5#6) = .ok 5) ∧
    (([Opnd.s 4#6, .special 7#5, .special 8#5, .special 9#5, .special 12#5]).all fun d =>
      decide (checkOps demo 0 [(d, .scalarDest), (.imm 5#6, .uniform)] = .ok ())) = true ∧
    (let s := demo.modWave 0 fun x => { x with tr.hm := true }
     s.running = some 0 ∧ uni1 s 0 (.imm 5#6) = .ok 5 ∧
       (([Opnd.s 60#6, .special 10#5, .special 11#5, .special 17#5, .special 18#5, .special 22#5, .special 23#5]).all fun d =>
         decide (checkOps s 0 [(d, .scalarDest), (.imm 5#6, .uniform)] = .ok ())) = true) := by decide +kernel

theorem witness_ScalarScratchpadAccess :
    demo.running = some 0 ∧ checkOps demo 0 [(.s 4#6, .onlyS), (.s 0#6, .uniform), (.imm 1#6, .onlyImm)] = .ok () ∧
    uni1 demo 0 (.s 0#6) = .ok 0 ∧ demo.lostPlace 0 (.sp 8) 8 = false ∧ (demo.waveGroup 0).spb = 1024 ∧
    checkOps demo 0 [(.s 0#6, .uniform), (.imm 1#6, .onlyImm), (.imm 5#6, .uniform)] = .ok () ∧ uni2 demo 0 (.s 0#6) (.imm 5#6) = .ok (0, 5) := by decide +kernel

theorem witness_BarriersComplete :
    (demo.running = some 0 ∧ namesBarrier demo 0 .core 3#4 ∧ demo.storesHeld 0 = false ∧ (demo.wave 0).pendingArrival .core 3#4 = none ∧
    ((demo.settle .core 0 0 3#4).wave 0).pendingArrival .core 3#4 = none ∧ (demo.wave 0).sch.barArrived ≠ some (demo.wave 0).pos) ∧
    (let r := (joined demo 0 .core 3#4).modWave 0 fun x => { x with sch.barArrived := some x.pos }
     let t := r.settle .core 0 0 3#4
     (t.wave 0).pendingArrival .core 3#4 = some 0 ∧ t.phasePast 0 .core 3#4 0 = true) := by decide +kernel

theorem witness_RoundingMeetsTheSpec :
    (Fmt.mk8 ∈ [Fmt.fp32, .bf16, .fp16, .e4m3, .e5m2, .e2m3, .e3m2, .e2m1, .mk8] ∧ ({ rm := 0, sub := 0, sat := 0, nanp := false } : FEnv).draw = none) := by decide +kernel

theorem witness_VectorBitsComplete :
    (enterB (.bfi noGuards (.v 3#6) (.v 1#6) (.v 2#6) (.imm 4#6) 0) demoU 0 (fun f po => decide (clean (f.sources demoU 0 po))) = true) ∧
    (enterB (.mulhi noGuards (.v 3#6) (.v 1#6) (.v 2#6) 0) demoU 0 (fun f po => decide (clean (f.sources demoU 0 po) ∧
      tagged (f.sources demoU 0 po) .u32)) = true) := by decide +kernel

theorem witness_VectorSelectsComplete :
    (enterB (.cmp noGuards .lt (.p 1#3) (.v 1#6) (.v 2#6) 0) demoU 0 (fun f po => decide (clean (f.sources demoU 0 po) ∧
      tagged ((f.sources demoU 0 po).take 2) .u32 ∧ modulus (f.popped demoU 0 po) 0 ((f.sources demoU 0 po).take 2) .u32 0 1)) = true) := by decide +kernel

theorem witness_WholeNumberArithmeticCompletes :
    (enterB (.mul noGuards false (.v 3#6) (.v 4#6) (.imm 2#6) 0) demoU 0 (fun f po => decide (clean (f.sources demoU 0 po) ∧
      tagged (f.sources demoU 0 po) .limb ∧ (demoU.wave 0).capacity = 32)) = true) := by decide +kernel

theorem witness_VectorMovesComplete :
    (enterB (.mov noGuards (.v 3#6) (.v 1#6)) demoU 0 (fun _ _ => decide (True)) = true) ∧
    (enterB (.cvt noGuards .f32 false (.v 3#6) (.v 1#6) 0) demoU 0 (fun f po => decide (clean (f.sources demoU 0 po) ∧
      mdTag (firstMd (f.sources demoU 0 po)) = .u32)) = true) ∧ (enterB (.rand noGuards (.v 3#6)) demoU 0 (fun _ _ => decide (True)) = true) := by decide +kernel

theorem witness_LaneDestinations :
    (0 < demoU.waves.length ∧ 3 < (demoU.wave 0).v.length ∧ ((demoU.wave 0).vreg 3).lanes.length = (demoU.wave 0).id.width ∧ (demoU.wave 0).preds.length = 7 ∧
      (demoU.wave 0).port 1 = some (0, true)) ∧
    (let ring := (demoU.waveGroup 0).ring 0
     ring.cap < (lanesOf 32 (allLanes 32)).length ∧ (lanesOf 32 1).length ≤ ring.cap ∧ ring.eos = none ∧ ring.dropping = false ∧ (lanesOf 32 1).length ≤ ring.room ∧
       demoU.blocksOnce 0 ring = false ∧ demoU.storesHeld 0 = false ∧ demoU.aodPending 0 = false ∧ 0 < demoU.groups.length ∧ 0 < (demoU.group 0).rings.length ∧
       ((demoU.performAll 0).group 0).sp.wf = true) ∧
    (let s := demoU.modGroup 0 fun g => g.modRing 0 fun r => { r with occ := List.replicate 16 true }
     ((s.waveGroup 0).ring 0).room < (lanesOf 32 1).length ∧ ((s.waveGroup 0).ring 0).eos = none) ∧
    (let s := demoU.modGroup 0 fun g => g.modRing 0 fun r => { r with eos := some (1, 0) }
     ((s.waveGroup 0).ring 0).eos ≠ none ∧ (lanesOf 32 1).length ≤ ((s.waveGroup 0).ring 0).cap) ∧
    (let b : Barrier := ⟨.core, 0, 1#4, 0, [], [{ wave := 0, key := 0, phase := 0, op := .fadd, width := .w, tag := .raw, amr := 0, addrs := [], vals := [], mask := 0, dest := 0 }]⟩
     let s := demoU.modGroup 0 fun g => { g with barriers := [b] }
     s.aodPending 0 = true ∧ s.storesHeld 0 = false) ∧
    (let s := demoU.modWave 0 fun x => { x with mem.storeQ := [{ key := none, sp := false, bytes := [(3 * windowBytes, 7)] }] }
     let s := s.modDie 0 fun y => { y with routes := (List.range 128).map fun _ => 0x80#8, ports := y.ports.map fun p => { p with st := .recovery } }
     s.storesHeld 0 = true) ∧
    (enterB (.li noGuards .u32 (.q 1#4) 5) demoU 0 (fun _ _ => decide (True)) = true) := by decide +kernel

theorem witness_MetadataAccessCompletes :
    demoU.running = some 0 ∧ checkOps demoU 0 [(.s 4#6, .onlyS), (.v 1#6, .onlyV)] = .ok () ∧
    checkOps demoU 0 [(.v 3#6, .onlyV), (.s 1#6, .sv)] = .ok () ∧ uniOf demoU 0 (demoU.wave 0).exec 1 (.s 1#6) = .ok 0 := by decide +kernel

theorem witness_DivergenceCompletes :
    (demoU.running = some 0 ∧ mayBranch demoU 0 ((demoU.wave 0).hdr + BitVec.ofInt 64 (8 * (0#16).toInt)) ∧
      (demoU.wave 0).freeRegion = some 0 ∧ (demoU.wave 0).freePath = some 1 ∧ (demoU.wave 0).path.reg = root ∧
      (demoU.wave 0).exec ≠ 0 ∧ demoU.drainedWave 0 = true) ∧
    ((demoU.wave 0).exec &&& guardBits { p := 1#3, neg := false } (readP demoU 0 0 1#3) = 15 ∧ activeMask demoU 0 zeroGuards = 0) := by decide +kernel

theorem witness_MemberSetsGather :
    demoU.running = some 0 ∧ 0 < demoU.waves.length ∧ (demoU.wave 0).cur < (demoU.wave 0).lc.paths.length ∧
    gather demoU 0 0xFFFFFFFF00000001#64 = .ok (allLanes 32) ∧
    (let paths := fun (m : Mask) (l : List PathRec) => demoU.modWave 0 fun x => { x with lc.paths := { x.path with mask := m } :: l }
     let at_ := (demoU.wave 0).pos
     let waiting := fun (m : Mask) (v : Word) => ({ st := .mwait, pos := at_, mask := m, reg := (demoU.wave 0).path.reg, mset := v } : PathRec)
     let set := fun (n : Nat) => BitVec.ofNat 64 (n * 2 ^ 32 + 1)
     let two := paths 1 [waiting 2 (set 3)]
     let other := paths 1 [waiting 2 (set 7)]
     let alone := paths 1 []
     let hope := paths 1 [{ waiting 2 0 with st := .pend, pos := { hdr := 0x40000, idx := 0 } }]
     let due := demoU.modWave 0 fun x => x.setPath x.cur { x.path with due := some (x.pos, false), mset := 7 }
     let gone := demoU.modWave 0 fun x => { x with lc.exited := 1 }
     (due.running = some 0 ∧ (due.wave 0).path.due = some ((due.wave 0).pos, false)) ∧
     ((gone.wave 0).path.due = none ∧ (gone.wave 0).members (set 1) &&& (gone.wave 0).lc.exited ≠ 0) ∧
     ((demoU.wave 0).exec &&& ~~~ (demoU.wave 0).members (set 1) ≠ 0) ∧
     ((other.wave 0).waiters = [1] ∧ (other.wave 0).exec = 1 ∧ (other.wave 0).members (set 7) ≠ (other.wave 0).members (set 3) ∧
       (other.wave 0).exec &&& ~~~ (other.wave 0).members (set 3) = 0) ∧
     ((two.wave 0).waiters = [1] ∧ gather two 0 (set 3) = .ok 3) ∧
     ((alone.wave 0).members (set 3) &&& ~~~ (alone.wave 0).exec ≠ 0 ∧ (alone.wave 0).lc.paths.length = 1 ∧ (alone.wave 0).cur = 0) ∧
     (hope.running = some 0 ∧ (hope.wave 0).waiters = [] ∧ (hope.wave 0).lc.exited = 0 ∧ (hope.wave 0).members (set 3) &&& ~~~ (hope.wave 0).exec ≠ 0 ∧
       ((hope.wave 0).lc.paths.any fun p => p.st == .pend) = true ∧ ((hope.wave 0).select 0).isSome = true)) := by decide +kernel

theorem witness_VotesAndPermutesComplete :
    demoU.running = some 0 ∧ gather demoU 0 (readS demoU 0 2 6) = .ok (allLanes 32) ∧ gather demoU 0 (readS demoU 0 3 6) = .ok (allLanes 32) ∧
    checkOps demoU 0 [(.p 1#3, .onlyP), (.p 1#3, .onlyP), (.s 6#6, .onlyS)] = .ok () ∧
    checkOps demoU 0 [(.v 3#6, .onlyV), (.v 1#6, .lanes), (.s 6#6, .onlyS)] = .ok () ∧
    checkOps demoU 0 [(.v 3#6, .onlyV), (.v 1#6, .lanes), (.imm 2#6, .count), (.s 6#6, .onlyS)] = .ok () ∧
    roomFor demoU 0 .ld = .ok () ∧ demandClean demoU 0 (allLanes 32) [.v 1#6, .imm 2#6] = .ok () ∧
    mdTag (vSource demoU 0 1 (.v 1#6)).md = .u32 ∧ uniOf demoU 0 (allLanes 32) 2 (.imm 2#6) = .ok 2 := by decide +kernel

theorem witness_CompactionAndMasksComplete :
    demoU.running = some 0 ∧ single (demoU.wave 0) ∧ checkOps demoU 0 [(.s 4#6, .onlyS), (.special 4#5, { msk := true }), (.imm 1#6, .si)] = .ok () ∧
    uni1 demoU 0 (.imm 1#6) = .ok 1 ∧ checkOps demoU 0 [(.special 6#5, { msk := true }), (.imm 1#6, .si), (.imm 2#6, .si)] = .ok () ∧
    uni2 demoU 0 (.imm 1#6) (.imm 2#6) = .ok (1, 2) ∧ checkOps demoU 0 [(.p 1#3, .onlyP)] = .ok () := by decide +kernel

theorem witness_ChanterCompletes :
    (demoU.running = some 0 ∧ 0 < demoU.waves.length ∧ checkOps demoU 0 [(.v 2#6, .onlyV)] = .ok () ∧ (demoU.wave 0).v.length = 16 ∧
      (demoU.wave 0).lc.xprog.getLsbD 31 = false ∧ demandClean demoU 0 (activeMask demoU 0 noGuards) [.v 2#6, .v 3#6] = .ok ()) ∧
    (let r := demoU.modWave 0 fun y => { y with lc.xm := 1, lc.xprog := 0x80000000#32 }
     r.running = some 0 ∧ someB (chantWords r 0 2)[0]? (fun word => (legalWord r 0 2 word).isNone) = true) := by decide +kernel

theorem witness_WholeNumberRegistersComplete :
    (limbReady demoU 0 noGuards [(.v 5#6, .onlyV), (.v 4#6, .onlyV), (.imm 3#6, .count)] (countImm (.imm 3#6)) ∧
      okB (limbSrcs demoU 0 (activeMask demoU 0 noGuards) [.v 4#6] [.imm 3#6]) (fun rs => decide (wholeOf demoU 0 rs 0 = 5)) = true) ∧
    uniOf demoU 0 (activeMask demoU 0 noGuards) 2 (.imm 3#6) = .ok 3 := by decide +kernel

theorem witness_WideNumberStepsComplete :
    (limbReady demoU 0 noGuards [(.v 5#6, .onlyV), (.v 4#6, .onlyV), (.v 4#6, .onlyV)] true ∧ (demoU.wave 0).capacity = (demoU.wave 0).id.width ∧
      okB (limbSrcs demoU 0 (activeMask demoU 0 noGuards) [.v 4#6, .v 4#6] []) (fun rs => decide (wholeOf demoU 0 rs 1 ≠ 0)) = true) ∧
    (limbReady demoU 0 noGuards [(.v 5#6, .onlyV), (.v 2#6, .onlyV), (.imm 0#6, .si)] (demoU.evenPair 0 (.v 2#6) && signImm (.imm 0#6)) ∧
      okB (limbSrcs demoU 0 (activeMask demoU 0 noGuards) [] [.v 2#6, .v 3#6]) (fun _ => true) = true) := by decide +kernel

theorem witness_LoadsComplete :
    pipeReady demoU 0 noGuards .ld [(.v 3#6, .onlyV), (.s 7#6, .sv), (.imm 0#6, .onlyImm)] (demoU.fits 0 (.v 3#6) 1 && true) [] ∧
    okB (resolveLanes demoU 0 true (laneAddrs demoU 0 (activeMask demoU 0 noGuards) (.s 7#6) (.imm 0#6) 4) 4 4 .load) (fun p =>
      (raceCheck p.s 0 { kind := .load, acq := false, rel := false, sc := .wave } (p.accesses 4)).isOk) = true ∧
    (resolveOffsets demoU 0 (laneOffsets demoU 0 (activeMask demoU 0 noGuards) (.s 0#6) (.imm 0#6) 4) 4).isOk = true ∧
    (limbPlaces demoU 0 (.s 7#6) (.imm 0#6) 2 .load).isOk = true := by decide +kernel

theorem witness_StoresComplete :
    (0 < demoU.waves.length ∧ pipeReady demoU 0 noGuards .st [(.s 7#6, .sv), (.imm 0#6, .onlyImm), (.v 1#6, dataAccept 1)] (baseOk demoU 0 (.s 7#6) && dataFits demoU 0 (.v 1#6) 1)
      (baseRegs (.s 7#6) ++ groupRegs (.v 1#6) 1)) ∧
    okB (resolveLanes demoU 0 true (laneAddrs demoU 0 (activeMask demoU 0 noGuards) (.s 7#6) (.imm 0#6) 4) 4 4 .store) (fun p =>
      (raceCheck p.s 0 { kind := .store, acq := false, rel := false, sc := .wave } (p.accesses 4)).isOk && !p.at_.isEmpty) = true ∧
    mdTag (readV demoU 0 3 4).md = .limb ∧ demoU.storesHeld 0 = false ∧ demoU.aodPending 0 = false ∧ demoU.drainedWave 0 = true := by decide +kernel

theorem witness_StoresAndCompletionsPerform :
    (let s := demoU.modWave 0 fun x => { x with mem.storeQ := [{ key := none, sp := false, bytes := [(0x20000, 7)] }] }
     0 < s.waves.length ∧ s.mem.wf = true ∧ s.alive (s.wave 0).id.part = true ∧ s.staged (s.wave 0).id.group = false ∧ s.reach (s.waveDie 0) 0x20000 ≠ Reach.broken) ∧
    (let s := demoU.modWave 0 fun x => x.count .ld true []
     someB ((s.wave 0).mem.outst.find? (fun e => e.cls == .ld)) (fun e => e.ready) = true) ∧ demoU.storesHeld 0 = false ∧ demoU.aodPending 0 = false ∧ demoU.drainedWave 0 = true := by decide +kernel

theorem witness_AtomicsComplete :
    okB (resolveLanes demoU 0 true (laneAddrs demoU 0 (activeMask demoU 0 oneLane) (.s 7#6) (.imm 0#6) 4) 4 4 .store) (fun p => decide (
      p.at_ = [(0, 0x20000, .mem 0x20000)] ∧ p.s.deadPlace 0 (.mem 0x20000) 4 = false)) = true ∧
    pipeReady demoU 0 oneLane .ld [(.v 3#6, .onlyV), (.s 7#6, .sv), (.imm 0#6, .onlyImm), (.v 1#6, dataAccept 1)] true (baseRegs (.s 7#6) ++ groupRegs (.v 1#6) 1) ∧
    faddFormat demoU 0 (some .add) (.v 1#6) = .ok .raw ∧ demoU.staged (demoU.wave 0).id.group = false ∧ demoU.storesHeld 0 = false ∧ demoU.aodPending 0 = false ∧ demoU.drainedWave 0 = true := by decide +kernel

theorem witness_OrderedAtomicsAndHintsComplete :
    (namesBarrier demoU 0 .core 1#4 ∧ demoU.staged (demoU.wave 0).id.group = false ∧
      okB (resolveLanes demoU 0 false (laneAddrs demoU 0 (activeMask demoU 0 oneLane) (.s 7#6) (.imm 0#6) 4) 4 4 .store) (fun p => decide (
        p.at_ = [(0, 0x20000, .mem 0x20000)] ∧ p.s.reach (p.s.waveDie 0) 0x20000 ≠ Reach.broken)) = true) ∧
    checkOps demoU 0 [(.s 7#6, .sv), (.imm 1#6, .onlyImm)] = .ok () ∧
    ((demoU.modWave 0 fun x => { x with sch.stall := some .fault }).wave 0).sch.stall = some .fault ∧ demoU.storesHeld 0 = false ∧ demoU.aodPending 0 = false ∧ demoU.drainedWave 0 = true := by decide +kernel

theorem witness_MwaitCompletes :
    (checkOps demoU 0 [(.s 4#6, .onlyS), (.s 7#6, .onlyS), (.imm 0#6, .onlyImm), (.imm 0#6, .count)] = .ok () ∧ uni1 demoU 0 (.imm 0#6) = .ok 0 ∧
      (demoU.waveGroup 0).copy ≠ .twin ∧ (demoU.wave 0).pathCount ≤ 1 ∧ okB (placeOf demoU 0 0x20000 4 .load) (fun q => decide (q.2 = .mem 0x20000 ∧
      q.1.lostPlace 0 (.mem 0x20000) 4 = false ∧ q.1.reach (q.1.waveDie 0) 0x20000 = .ok ∧ q.1.waveLe 0 (.mem 0x20000) 4 = 0)) = true) ∧
    ((demoU.modWave 0 fun x => { x with sch.stall := some .monitor, mem.polled := some 0 }).wave 0).sch.stall = some .monitor := by decide +kernel

theorem witness_MemoryAccessTraps :
    pipeReady demoU 0 noGuards .ld [(.v 3#6, .onlyV), (.s 8#6, .sv), (.imm 0#6, .onlyImm)] true (baseRegs (.s 8#6)) ∧
    (laneAddrs demoU 0 (activeMask demoU 0 noGuards) (.s 8#6) (.imm 0#6) 4).filter (fun e => e.2 % 4 != 0) ≠ [] ∧
    (let l := laneAddrs demoU 0 (activeMask demoU 0 noGuards) (.s 9#6) (.imm 0#6) 4
     l.filter (fun e => e.2 % 4 != 0) = [] ∧ l.filter (fun e => decide (2 ^ 57 ≤ e.2)) ≠ []) := by decide +kernel

theorem witness_RingDefinitionAndClearing :
    demoU.running = some 0 ∧ checkOps demoU 0 [(.imm 0#6, .si), (.imm 2#6, .onlyImm), (.imm 4#6, .onlyImm)] = .ok () ∧ 1 < (demoU.waveGroup 0).rings.length ∧
      uniOf demoU 0 (demoU.wave 0).exec 1 (.imm 0#6) = .ok 0 ∧ demoU.ringCommands 0 0 1 = [] ∧ demoU.ringCommands 0 0 0 = [] ∧
      ((demoU.waveGroup 0).ring 0).defined = true ∧ (demoU.waveGroup 0).spb = 1024 := by decide +kernel

theorem witness_StreamCommandsSend :
    someB (scmdOf (.scmdStamp .rlx .wave false (.imm 0#6) (.s 7#6))) (fun k => decide (scmdReady k demoU 0 0 0x20000 default default)) = true ∧
    (checkOps demoU 0 [(.s 7#6, .onlyS), (.s 7#6, .onlyS), (.s 7#6, .onlyS), (.imm 2#6, .count)] = .ok () ∧ uni1 demoU 0 (.imm 2#6) = .ok 2 ∧
      rangeBad demoU 0 0x20000 12 = false) := by decide +kernel

theorem witness_MatrixCommandsSend :
    (matrixRoom demoU 0 1 ∧ matrixReady demoU 0 [] 6 ∧ matrixReady demoU 0 [(.s 7#6, .onlyS), (.s 11#6, .onlyS)] 6 ∧
      matrixReady demoU 0 [(.s 4#6, .onlyS), (.s 7#6, .onlyS), (.s 7#6, .onlyS)] 6 ∧ storeBytes (readS demoU 0 4 4) = some 4) ∧
    (readS demoU 0 1 7).toNat % 4 = 0 ∧ (readS demoU 0 3 11).toNat % 2 ^ 32 = 256 := by decide +kernel

theorem witness_ResiduesComplete :
    (limbReady demoU 0 noGuards [(.v 3#6, .onlyV), (.v 1#6, .onlyV), (.imm 0#6, .count)] true ∧ mdTag (readV demoU 0 1 1).md = .u32 ∧
      demoU.prime 0 0 = some 97) ∧
    (limbReady demoU 0 noGuards [(.v 3#6, .onlyV), (.v 5#6, .onlyV)] true ∧ mdTag (readV demoU 0 1 5).md = .modq ∧ mdMidx (readV demoU 0 1 5).md = 0) := by decide +kernel

theorem witness_TransformsAndProductsSend :
    (nttRoom demoU 0 ∧ limbRange 0x20000 4 ∧ limbsMeet 0x20000 4 0x30000 2 = false) ∧
    (let v := readS demoU 0 3 12; let k := NttDesc.of v
     v.extractLsb' 24 8 = 0 ∧ v.extractLsb' 5 7 = 0 ∧ k.logn = 4 ∧ k.mbase + k.nres ≤ 64 ∧ (demoU.entries 0 k.mbase k.nres k.logn).isSome ∧ k.selfOverlap = false ∧
      k.crossOverlap 0x20000 0x30000 = false) := by decide +kernel

theorem witness_CiphertextHeadersRead :
    checkOps demoU 0 [(.s 4#6, .onlyS), (.s 7#6, .sv)] = .ok () ∧ uni1 demoU 0 (.s 7#6) = .ok 0x20000 ∧ unitBad 0x20000 = false ∧
    (recordRead demoU 0 .rlx .wave 0x20000 64 64).isOk = true ∧ (recordRead demoU 0 .rlx .wave 0x20000 8 64).isOk = true := by decide +kernel

theorem witness_HeapCommandsComplete :
    (checkOps demo 0 [(.s 4#6, .onlyS), (.imm 4#6, .count)] = .ok () ∧ uni1 demo 0 (.imm 4#6) = .ok 4 ∧ heapReady demo 0 (.alloc 4 true true 1 1) ∧
      (demo.wave 0).sch.heapWait = none ∧ checkOps demo 0 [(.s 1#6, .sv)] = .ok () ∧ uni1 demo 0 (.s 1#6) = .ok 0) ∧
    (let s := heapSent demo 0 (.free 0) 0
     ((s.die 0).heapQ.map fun c => (c.op, s.alive (s.wave c.wave).id.part, s.freeWaits c)) = [(.free 0, true, false)]) := by decide +kernel

theorem witness_TierInstructionsComplete :
    (demo.running = some 0 ∧ (demo.waveGroup 0).copy ≠ .twin ∧ (demo.waveGroup 0).marker.toNat ≤ 3 ∧ (demo.wave 0).outstanding .cp < 62 ∧
      checkOps demo 0 [(.s 1#6, .onlyS), (.imm 2#6, .count), (.imm 0#6, .si)] = .ok () ∧ uni1 demo 0 (.imm 2#6) = .ok 2 ∧
      uniOf demo 0 (demo.wave 0).exec 3 (.imm 0#6) = .ok 0 ∧ (demo.waveCtx 0).priv = true ∧ (demo.wave 0).id.part < demo.parts.length ∧ (demo.wave 0).sch.shoot = none ∧
      quietAfter demo 0 .all none ∧ quietAfter demo 0 (.ctx 0) none ∧ quietAfter demo 0 (.page 0 0) none ∧
      checkOps demo 0 [(.s 1#6, .onlyS), (.imm 0#6, .si)] = .ok () ∧ uni1 demo 0 (.imm 0#6) = .ok 0 ∧ (demo.ctx 0 0).active = true ∧
      (demo.part 0).dies.contains 0 = true) ∧
    (let r := tierSent demo 0 (.region .l2pf 0 0 2 none) .rlx .wave
     r.1.engineHeld 0 = false ∧ r.1.acquireWaits 0 0 .rlx = false ∧ r.1.regionHeld .l2pf 0 0 0 0 2 = false ∧ (r.1.overRegion .l2pf 0 0 0 0 2).2.2 = []) ∧
    (let r := tierSent demo 0 (.screed 0 0 2) .rlx .wave
     r.1.engineHeld 0 = false ∧ (r.1.launch 0).screed = none ∧ (match engReads { wave := 0, group := 0, o := .rlx, sc := .wave, num := 0, origin := { pos := (demo.wave 0).pos, key := some 0 }, die := some 0 } r.1
       ((List.range 2).map fun i => (32 * i, 32)) with
       | .ok _ => true
       | .error _ => false) = true) ∧ demo.storesHeld 0 = false ∧ demo.drainedWave 0 = true := by decide +kernel

theorem witness_TierEngineSteps :
    (demo.alive 0 = true ∧ (demo.ctx 0 0).active = true ∧ (demo.part 0).dies.contains 0 = true ∧ demo.fetchHeld 0 0 0 0 = false ∧
      (demo.part 0).shoots = [] ∧ (demo.part 0).tierQ = [] ∧ quietAfter demo 0 .all none) ∧
    (let s := (tierSent demo 0 (.screed 0 0 2) .rlx .wave).1
     s.alive 0 = true ∧ (s.part 0).tierQ ≠ []) ∧
    (let e : SEntry := { trig := 0, needby := 0, base := 0, npage := 1, action := .l2pf, die := 0, stamp := none, started := true, ended := false, status := 0 }
     let s := demo.modLaunch 0 fun l => { l with screed := some { addr := 0, n := 1, off := 0, entries := [e] } }
     s.alive (s.launch 0).part = true ∧ (s.launch 0).screed = some { addr := 0, n := 1, off := 0, entries := [e] } ∧
       s.regionHeld .l2pf 0 0 0 0 1 = false) := by decide +kernel

theorem witness_TrapsEnterTheHandler :
    (demoT.running = some 0 ∧ 0 < demoT.waves.length ∧ checkOps demoT 0 [(.imm 5#6, .count)] = .ok () ∧ uni1 demoT 0 (.imm 5#6) = .ok 5 ∧ (demoT.wave 0).tr.hm = false ∧
      someB (demoT.handler 0 0x0A#6) (fun q => decide (q.2 = 0x10000#64) && someB (q.1.unitRead 0 0x10000 .fetch) (fun r => (Header.ofWord r.2).isSome)) = true) ∧
    ((demoT.trapped 0 { code := 0x0A#6 }).wave 0).tr.hm = true := by decide +kernel

theorem witness_HandlersReturn :
    (let s := demoT.trapped 0 { code := 0x0A#6 }
     s.running = some 0 ∧ (s.wave 0).tr.hm = true ∧ (s.wave 0).mayReturn = true ∧ (s.wave 0).saving = false ∧ (s.wave 0).resumesAfter = false) ∧
    (let s := demo.modWave 0 fun x => { x with tr.stepDue := some 1#64, tr.pend21 := some 1#1024, sch.stall := some .reply, sch.wd := 1024 }
     let s := s.modCtx 0 0 fun c => { c with wdlim := 1 }
     (s.wave 0).resident = true ∧ (s.wave 0).tr.hm = false ∧ (s.wave 0).tr.pend20 = none ∧ (s.waveCtx 0).wdlim = 1#32 ∧ s.watched 0 = true ∧
       1024 * (s.waveCtx 0).wdlim.toNat ≤ (s.wave 0).sch.wd) := by decide +kernel

theorem witness_ContextRegistersComplete :
    demo.running = some 0 ∧ (demo.waveCtx 0).priv = true ∧ (demo.waveGroup 0).copy ≠ .twin ∧ checkOps demo 0 [(.s 4#6, .onlyS), (.imm 5#6, .si)] = .ok () ∧
    uni1 demo 0 (.imm 5#6) = .ok 5 ∧ checkOps demo 0 [(.s 1#6, .count), (.imm 1#6, .si)] = .ok () ∧ uni2 demo 0 (.s 1#6) (.imm 1#6) = .ok (0, 1) ∧
    demo.staged 0 = false ∧ bitsOf 0 20 15 = demo.ctl.podRank.toNat := by decide +kernel

theorem witness_PreEmptionProceeds :
    (demo.running = some 0 ∧ (demo.waveCtx 0).priv = true ∧ checkOps demo 0 [(.s 4#6, .onlyS), (.s 1#6, .onlyS)] = .ok () ∧ (demo.wave 0).sch.prmt = none ∧
      demo.staged 0 = false ∧ (readS demo 0 1 1).toNat = (demo.wave 0).id.part) ∧
    (let s := demo.modWave 0 fun x => { x with sch.stall := some .park }
     (s.wave 0).resident = true ∧ (s.wave 0).outstanding .ld = 0 ∧ (s.wave 0).outstanding .st = 0 ∧ (s.wave 0).mem.storeQ = [] ∧ (s.core (s.wave 0).id.core).out = []) ∧
    (let s := (demo.modPart 0 fun x => { x with run := .preempting }).modWave 0 fun x => { x with sch.parked := true }
     s.alive 0 = true ∧ (s.part 0).run = .preempting ∧ s.allParked 0 = true ∧ s.heapBusy 0 = false ∧ s.handlerBusy 0 = false) ∧
    (let s := demo.modPart 0 fun x => { x with run := .restoring, image := .shadow }
     s.alive 0 = true ∧ (s.part 0).run = .restoring ∧ (s.part 0).image = .shadow) := by decide +kernel

theorem witness_LaunchesAndRecordsComplete :
    (demo.running = some 0 ∧ checkOps demo 0 [(.s 4#6, .onlyS), (.s 1#6, .onlyS)] = .ok () ∧ demo.staged 0 = false ∧ (demo.wave 0).outstanding .cp < 62 ∧
      (match (demo.performAll 0).launchRead 0 .rlx .wave 0 with
        | .got u _ => (raceCheck u 0 { kind := .load, acq := false, rel := false, sc := .wave } [(0, 0, 128)]).isOk
        | _ => false) = true) ∧
    (let s := demo.modLaunch 0 fun l => { l with nodes := [{ kidx := 0, rsz := 4, c := 1, nbin := 1, nbatch := 2, tmo := 0, base := 0x40000, bins := [[{ st := .free, fill := 0 }, { st := .free, fill := 0 }]] } ] }
     checkOps s 0 [(.v 3#6, .onlyV), (.imm 0#6, .count), (.imm 0#6, .count)] = .ok () ∧ uniOf s 0 (activeMask s 0 noGuards) 1 (.imm 0#6) = .ok 0 ∧
       activeMask s 0 noGuards ≠ 0 ∧ demandClean s 0 (activeMask s 0 noGuards) [.v 3#6] = .ok () ∧
       s.fits 0 (.v 3#6) 1 = true ∧ (appendAll 0 0 { wave := 0, origin := { pos := (demo.wave 0).pos }, sc := .wave } [(0, [1, 2, 3, 4])] (s.performAll 0) 0).2 = (1, true) ∧ checkOps s 0 [(.imm 0#6, .count)] = .ok () ∧ uni1 s 0 (.imm 0#6) = .ok 0 ∧ 0 < (s.waveLaunch 0).nodes.length) ∧
    (checkOps demo 0 [(.imm 16#6, .count)] = .ok () ∧ uni1 demo 0 (.imm 16#6) = .ok 16 ∧ (demo.wave 0).sch.growGrant = none ∧ demo.growFits 0 16 = true ∧
      (demo.wave 0).idle = true) ∧ demo.storesHeld 0 = false ∧ demo.drainedWave 0 = true := by decide +kernel

theorem witness_TaskEngineSteps :
    (let q : HostQ := { base := 0x30000, prod := 1, waiting := [[1]] }
     let s := demo.modPart 0 fun p => { p with queues := [some q] }
     let s := { s with mem := s.mem.writeAll (placed 0x30018 [4, 4] ++ placed 0x30010 (leBytes 8 0x38000) ++ placed 0x30040 [2]) }
     s.alive 0 = true ∧ physLe s 0x30000 8 = .ok 0 ∧ s.queueTurn 0 = some 0 ∧ (s.part 0).queue 0 = some q ∧ physLe s 0x30008 8 = .ok 0 ∧
       physLe s 0x30019 1 = .ok 4 ∧ someB (s.physRead 0x30040 128) (fun bs => decide (fieldOf bs 0 1 = 2)) = true ∧
       physLe s 0x30018 1 = .ok 4 ∧ (match physWrite s 0x38000 [1] with | .ok _ => true | .error _ => false) = true) ∧
    (let s := demo.modWave 0 fun x => { x with sch.stall := some .grow, sch.growWant := some 8 }
     s.growReady 0 = true ∧ s.growers 0 = [0]) ∧
    (let s := (demo.modGroup 0 fun g => { g with ended := true })
     s.alive 0 = true ∧ 0 < s.launches.length ∧ s.drained 0 = true ∧ (s.launch 0).openBins = []) := by decide +kernel

theorem witness_SequencerSteps :
    (let s := demo.modWave 0 fun x => { x with sch.started := false, sch.y := true }
     0 < s.waves.length ∧ (s.wave 0).resident = true ∧ (s.core (s.wave 0).id.core).running = some 0 ∧
     okB (fetchWord s 0 (s.wave 0).hdr) (fun q => someB (Header.ofWord q.2) fun h => okB (fetchWords q.1 0 h.count ((s.wave 0).hdr + 8)) fun r =>
       decide (clauseOk h r.2 (r.1.waveLaunch 0).r.chk = true ∧ (s.wave 0).pos.idx < h.count ∧ (s.wave 0).waitsMet h.wld h.wst h.wcp h.wtl = true ∧ (s.wave 0).sch.y = true)) = true) ∧
    (let s := (demoB.modLaunch 0 fun l => { l with r := { l.r with det := true } }).modWave 0 fun x => { x with sch.backward := 2 ^ 20 - 1 }
     okB (fetchWord s 0 (s.wave 0).wordAddr) (fun q => match decodeWord q.2 with
       | .ok i => someB (branchAct i) fun act => okB (act (q.1.modWave 0 fun y => { y with sch.backward := 0, word := q.2 }) 0) fun t =>
           (t.wave 0).sch.backward == 1
       | .error _ => false) = true) ∧
    (let at_ := demo.modWave 0 fun x => { x with sch.started := false }
     let with_ := fun (f : Header → Header) => okB (fetchWord at_ 0 (at_.wave 0).hdr) fun q => someB (Header.ofWord q.2) fun h =>
       let s := { at_ with mem := at_.mem.writeAll (placed (at_.wave 0).hdr.toNat (leBytes 8 (f h).toWord.toNat)) }
       let late := s.modWave 0 fun x => x.count .ld false []
       okB (fetchWord late 0 (late.wave 0).hdr) fun r => someB (Header.ofWord r.2) fun k => okB (fetchWords r.1 0 k.count ((late.wave 0).hdr + 8)) fun v =>
         decide (clauseOk k v.2 (v.1.waveLaunch 0).r.chk = true ∧ (late.wave 0).pos.idx < k.count ∧ (v.1.waveLaunch 0).r.det = false ∧ (late.wave 0).sch.resume = false) &&
           ((decide (k.wld = 0) && !(late.wave 0).waitsMet k.wld k.wst k.wcp k.wtl) || (k.y && (late.wave 0).waitsMet k.wld k.wst k.wcp k.wtl))
     let none_ := { at_ with mem := at_.mem.writeAll (placed (at_.wave 0).hdr.toNat [0, 0, 0, 0, 0, 0, 0, 0]) }
     let past := at_.modWave 0 fun x => x.setPath 0 { x.path with pos := { x.pos with idx := 15 } }
     okB (fetchWord none_ 0 (none_.wave 0).hdr) (fun q => (Header.ofWord q.2).isNone) = true ∧
     okB (fetchWord past 0 (past.wave 0).hdr) (fun q => someB (Header.ofWord q.2) fun h => okB (fetchWords q.1 0 h.count ((past.wave 0).hdr + 8)) fun _ =>
       decide (h.count ≤ (past.wave 0).pos.idx)) = true ∧
     with_ (fun h => { h with wld := 0 }) = true ∧ with_ (fun h => { h with y := true }) = true) ∧
    (let s := (demo2.modWave 0 fun x => { x with sch.started := false }).modCore 0 fun k => { k with slots := 4096 }
     (s.wave 0).sch.stall = none ∧ (s.core (s.wave 0).id.core).running = some 0 ∧ (s.waveLaunch 0).r.det = false ∧ (s.wave 0).sch.y = false ∧ s.agedRival 0 = true) ∧
    (let s := demo.setBarrier 0 { demo.barrier .core 0 0 1#4 with arrived := [0] }
     s.phaseFull 0 (s.barrier .core 0 0 1#4) = true) := by decide +kernel

theorem witness_CommitsComplete :
    (demo.running = some 0 ∧ demo.staged 0 = false ∧ demo.ctl.powered = true ∧ demo.ctl.halted = false ∧ (demo.wave 0).resident = true ∧ (demo.wave 0).live.getLsbD 0 = true ∧
      0 < demo.cores.length ∧ demo.mapped 0 = true ∧ demo.isHost 0 = false ∧ demo.alive 0 = true) ∧
    (let s := demo.modLaunch 0 fun l => { l with r := { l.r with lpol := true } }
     let s := s.modWave 0 fun x => { x with sch.stall := some .commit, sch.arrived := some .cmmt }
     s.staged 0 = true ∧ (s.wave 0).drained = true ∧ s.commitReady 0 = true ∧ (s.group 0).sibling = none ∧ (s.group 0).waves = [0] ∧
       (s.wave 0).arrival = some .cmmt) ∧ demo.storesHeld 0 = false ∧ demo.drainedWave 0 = true := by decide +kernel

theorem witness_PowerLinkAndHostEvents :
    (State.reset.ctl.powered = false ∧ demo.ctl.powered = true ∧ demo.senses 0 = true ∧ demo.ctl.ready = true ∧ demo.ctl.halted = false ∧ demo.portThere 0 0 = true ∧
      demo.alive 0 = true ∧ demo.ctl.linked = true ∧ demo.mapped (demo.ownWindow + demo.ctl.aperture) = true ∧ demo.acting = 0) ∧
    (let s := demo.modPort 0 0 fun x => { x with st := .up, rails := 0, replays := 16, rx := [(0, 5)] }
     (s.linkPort 0 0).carries = true ∧ 16 ≤ (s.linkPort 0 0).replays ∧ s.channelThere 0 0 = true ∧ (s.linkPort 0 0).rx.any (fun e => e.1 == 0) = true ∧ (s.linkPort 0 0).paused = 0 ∧ (s.linkPort 0 0).rails.getLsbD 0 = false ∧
       (arrived (s.linkPort 0 0).rails [some 1#512, none, some 2, some 3, some 0]).countP Option.isNone = 1) ∧
    (let s := demo.modDie 0 fun y => { y with holds := [3], throttled := true }
     (s.die 0).holds.contains 3 = true ∧ (s.die 0).throttled = true) := by decide +kernel

theorem witness_MailboxCommandsComplete :
    ∀ code ∈ [1, 2, 3, 4, 5, 6, 7, 8, 9, 10, 11, 12, 13, 14, 15, 16, 17],
      let s := { demo with ctl.mailbox := Memory.writeAll [] [(0, BitVec.ofNat 8 code), (1, 0xFF), (8, if code = 1 then 1 else 0), (9, if code = 13 then 2 else 0)] }
      asked s code [(8, 2)] ∧ s.ctl.mail 8 1 < s.parts.length + 1 := by decide +kernel

theorem witness_DecodeReadsWhatEncodeWrites :
    Instr.wellFormed (.sadd false (.s 4#6) (.s 4#6) (.imm 1#6)) = true ∧ encode (.sadd false (.s 4#6) (.s 4#6) (.imm 1#6)) 0#2 = some 0x101DD11130400000#64 := by decide +kernel

theorem witness_EveryStepKeepsMemoryCanonical :
    Memory.wf State.reset.mem = true ∧ nextB (step demo) = true ∧ Memory.wf demo.mem = true := by decide +kernel

theorem witness_StepRunsTheDecodedInstruction :
    (demo.wake demo.acting).watch demo.acting = demo ∧ demo.agenda = [] ∧ demo.running = some 0 ∧ demo.fresh % 64 ≠ 63 ∧ (demo.wave 0).sch.stall = none ∧ (demo.wave 0).sch.started = true ∧
    (demo.wave 0).deliverable = false ∧ (demo.wave 0).tr.stepDue = none ∧
    okB (fetchWord (demo.issueReady 0) 0 ((demo.issueReady 0).wave 0).wordAddr) (fun q => q.2 == 0x101DD11130400000#64) = true ∧
    decodeWord 0x101DD11130400000#64 = .ok (.sadd false (.s 4#6) (.s 4#6) (.imm 1#6)) := by decide +kernel

theorem witness_UniformWaitsAndReadsComplete :
    (demo.running = some 0) ∧
    (demo.running = some 0 ∧ (demo.waveLaunch 0).r.det = false ∧ (demo.waveGroup 0).copy ≠ .twin ∧
    checkOps demo 0 [(.s 4#6, .onlyS), (.imm 3#6, .count)] = .ok () ∧ uni1 demo 0 (.imm 3#6) = .ok 3) := by decide +kernel

theorem witness_ControlTransfersAndExitComplete :
    ((demo.running = some 0 ∧ mayBranch demo 0 ((demo.wave 0).hdr + BitVec.ofInt 64 (8 * (0#32).toInt)) ∧
    checkOps demo 0 [(.s 4#6, .sv)] = .ok () ∧ uni1 demo 0 (.s 4#6) = .ok 0 ∧ mayBranch demo 0 0 ∧
    checkOps demo 0 [(.s 4#6, .onlyS), (.s 4#6, .sv)] = .ok () ∧ readS demo 0 1 4 = 0) ∧
    (checkOps demo3 0 [(.s 5#6, .sv)] = .ok () ∧ uni1 demo3 0 (.s 5#6) = .ok 3 ∧ (3#64).extractLsb' 0 3 ≠ 0)) ∧
    ((demo.running = some 0 ∧ (demo.wave 0).mem.outst = [] ∧ (demo.wave 0).mem.storeQ = [] ∧ (demo.core (demo.wave 0).id.core).out = []) ∧
    (demo2.running = some 0 ∧ (demo2.wave 0).mem.outst = [] ∧ (demo2.wave 0).mem.storeQ = [] ∧ (demo2.core (demo2.wave 0).id.core).out = [] ∧ 1 ∈ (demo2.waveGroup 0).waves ∧
      (demo2.wave 1).sch.ended = false ∧ 0 < demo2.waves.length ∧
      ((demo2.waveGroup 0).barriers ++ (demo2.launch (demo2.waveGroup 0).launch).barriers).all (fun b => b.arrived.isEmpty) = true) ∧
    (let s := demo2.setBarrier 0 { sc := .core, unit := 0, id := 3#4, phase := 0, arrived := [1], aods := [] }
     s.running = some 0 ∧ (s.wave 0).mem.outst = [] ∧ (s.wave 0).mem.storeQ = [] ∧ (s.core (s.wave 0).id.core).out = [] ∧ 0 < s.waves.length ∧
      (s.group 0).waves = [0, 1] ∧ (s.wave 0).id.group = 0 ∧ (s.wave 1).sch.ended = false ∧ (s.barrier .core 0 0 3#4).arrived = [1] ∧
      (s.barrier .core 0 0 3#4).aods = [])) ∧ demo.storesHeld 0 = false ∧ demo.drainedWave 0 = true := by decide +kernel

theorem witness_RowAndStageSteps :
    (let s := sentMatrix demoU 0 .rlx .wave 1 (.zero 2 true)
     someB ((s.core 0).mx.ready 1) (fun x => decide (x.op = .zero 2 true ∧ x.rows < 64 ∧ x.rows < x.total)) = true ∧ s.alive (s.core 0).part = true ∧
       0 < s.cores.length ∧ 3 < (s.core 0).mx.tiles.length ∧ s.acquireWaits 0 0 .rlx = false) ∧
    (let s := sentNtt demoU 0 .rlx .wave 0 (.transform false 0x20000 0x30000 0 1 1 4) [⟨97, 28, 91, 4⟩] false
     someB ((s.quads.getD 0 default).slots.head?) (fun x => s.unitMay 0 x && x.stage == 0) = true) := by decide +kernel

theorem witness_ComputationsFrame :
    (demo.running = some 0 ∧ 0 < demo.waves.length ∧ nextB (exec (.smov (.s 4#6) (.imm 1#6)) demo) = true) ∧
    ((form (.add noGuards false (.v 3#6) (.v 1#6) (.v 2#6) 0)).isSome = true ∧ demoU.running = some 0 ∧ 0 < demoU.waves.length ∧
      nextB (exec (.add noGuards false (.v 3#6) (.v 1#6) (.v 2#6) 0) demoU) = true) := by decide +kernel

theorem witness_VectorMasksAndChecks :
    ((enterB (.add noGuards false (.v 3#6) (.v 1#6) (.v 2#6) 0) demoU 0 (fun f po => decide (clean (f.sources demoU 0 po))) = true)) ∧
    someB (form (.add noGuards false (.v 3#6) (.s 1#6) (.imm 2#6) 0)) (fun f => decide (checkOps demoU 0 f.checks = .ok () ∧ f.extra demoU 0 = false)) = true ∧
    someB (form (.add zeroGuards false (.v 3#6) (.v 1#6) (.v 2#6) 0)) (fun f => decide (f.decodes demoU 0 ∧ activeMask demoU 0 f.g = 0)) = true ∧
    demoU.running = some 0 := by decide +kernel

theorem witness_ScalarSumsAndLogic :
    ((demo.running = some 0 ∧ scalarReads demo 0 (.s 4#6) (.s 4#6) (.imm 1#6) 0 1) ∧
    (demo.putScalar 0 (.s 4#6) 1).isOk = true) ∧
    ((demo.running = some 0 ∧ scalarReads demo 0 (.s 4#6) (.imm 63#6) (.imm 31#6) (BitVec.allOnes 64) 31) ∧
    (demo.putScalar 0 (.s 4#6) 3).isOk = true) := by decide +kernel

theorem witness_LaneArithmeticCompletes :
    ((enterB (.add noGuards false (.v 3#6) (.v 1#6) (.v 2#6) 0) demoU 0 (fun f po => decide (clean (f.sources demoU 0 po) ∧
      tagged (f.sources demoU 0 po) .u32 ∧ modulus (f.popped demoU 0 po) 0 (f.sources demoU 0 po) .u32 0 1)) = true)) ∧
    ((tagFmt .i32 = none ∧ tagFmt .u32 = none ∧ tagFmt .modq = none ∧ (0 : Nat) < 12289 ∧ 12289 < 2 ^ 32)) ∧
    ((tagFmt .f32 = some .fp32 ∧ tagFmt .mk8x4 = some .mk8)) := by decide +kernel

theorem witness_RingsComplete :
    (demoU.running = some 0 ∧ 1 < (demoU.waveGroup 0).rings.length) ∧
    (checkOps demoU 0 [(.v 3#6, .onlyV), (.q 0#4, { pop := true })] = .ok () ∧ (popAll false demoU 0 (activeMask demoU 0 oneLane) [.q 0#4]).isOk = true) ∧
    (checkOps demoU 0 [(.q 1#4, { push := true }), (.imm 1#6, .count)] = .ok () ∧ uni1 demoU 0 (.imm 1#6) = .ok 1 ∧ (demoU.wave 0).port 1 = some (0, true) ∧
      ((demoU.waveGroup 0).ring 0).eos = none) := by decide +kernel

theorem witness_StreamEngineSteps :
    ((let l : Layout := { (default : Layout) with base := 0x20000, rank := 1, sizes := [2, 0, 0, 0, 0], strides := [0, 0, 0, 0, 0], boxes := [4, 1, 1, 1, 1], sfmt := 1 }
     let s := { demoU with mem := demoU.mem.writeAll [(0x20000, 5), (0x20004, 6)] }
     let x : SCmd := { scmdCmd { kind := .fill, o := .rlx, sc := .wave, se := false, a := .imm 0#6, b := .imm 0#6, c := .imm 0#6 } s 0 0 0 l default none with stamp := none }
     let y : SCmd := { x with kind := .drain }
     (l.conv = 0 ∧ l.logn = 0 ∧ l.swz = 0 ∧ l.sfmt = 1 ∧ l.rank = 1 ∧ boxElements l = 4 ∧ l.nBoxes = 1 ∧ elementRanges l 0 = [(0x20000, 4), (0x20004, 4)]) ∧
     (s.group 0).sp.wf = true ∧ s.mem.wf = true ∧
     okB (engOpen x.issuer s (elementRanges l 0) [(windowBase, 16)]) (fun q => decide (q.2 = ([.mem 0x20000, .mem 0x20004], [.sp 0]))) = true ∧
     okB (fillStep s x) (fun q => decide ((q.1.group 0).sp.readN 0 16 = [5, 0, 0, 0, 6, 0, 0, 0, 0, 0, 0, 0, 0, 0, 0, 0])) = true ∧
     okB (engOpen y.issuer s [(windowBase, 16)] (elementRanges l 0)) (fun q => decide (q.2 = ([.sp 0], [.mem 0x20000, .mem 0x20004]) ∧
       q.1.staged 0 = false ∧ (q.1.waveLaunch 0).r.race = 0)) = true ∧
     (drainStep s y).isOk = true)) ∧
    ((let x : SCmd := scmdCmd { kind := .stamp, o := .rlx, sc := .wave, se := false, a := .imm 0#6, b := .imm 0#6, c := .s 7#6 } demoU 0 0 0x20000 default default none
     headOf (sentTo demoU 0 false x) 0 false x ∧ x.started = false ∧ headOf (sentTo demoU 0 false { x with started := true, kind := .fill }) 0 false { x with started := true, kind := .fill })) := by decide +kernel

theorem witness_MailboxCommandsComplete_1 :
    let on := fun (s : State) (code : Nat) (l : List (Nat × Nat × Nat)) =>
       { s with ctl.ready := true, ctl.powered := true, ctl.mailbox := Memory.writeAll [] ([(0, BitVec.ofNat 8 code), (1, 0xFF)] ++ l.flatMap fun q => placed q.1 (leBytes q.2.1 q.2.2)) }
    let part := fun (f : Partition → Partition) => demo.modPart 0 f
    let header := placed 0x30018 [4, 4]
    let queues := part fun x => { x with queues := List.replicate 8 none }
    let bound := part fun x => { x with queues := some { base := 0x30000, prod := 0, waiting := [] } :: List.replicate 7 none }
    (let s := on State.reset 1 [(8, 1, 1), (9, 1, 2)]
     asked s 1 [(8, 1), (9, 1)] ∧ s.anyActive = false ∧ (∀ y ∈ s.parts, y.image ≠ .shadow) ∧ s.ctl.mail 9 1 ≤ 4) ∧
    (let s := on demo 1 [(8, 1, 1)]
     asked s 1 [(8, 1), (9, 1)] ∧ s.anyActive = true) ∧
    (let s := on { queues with mem := queues.mem.writeAll header } 2 [(9, 1, 1), (16, 8, 0x30000)]
     asked s 2 [(8, 2), (16, 8)] ∧ 0 < s.parts.length ∧ (s.part 0).queue 1 = none ∧ someB (s.physRead 0x30000 64) queueHeaderOk = true) ∧
    (let s := on bound 3 []
     asked s 3 [(8, 2)] ∧ someB ((s.part 0).queue 0) (fun h => h.waiting.isEmpty && s.mem.readLe h.base 8 == s.mem.readLe (h.base + 8) 8) = true) ∧
    (let s := on { demo with ctl.limit := 2800 } 4 [(16, 8, 5), (24, 8, 1)]
     asked s 4 [(8, 1), (16, 16)] ∧ (((s.parts.zipIdx).filter fun q => q.2 != 0).map fun q => q.1.rate).sum + s.ctl.mail 24 8 ≤ s.ctl.limitNow) := by decide +kernel

theorem witness_MailboxCommandsComplete_2 :
    let on := fun (s : State) (code : Nat) (l : List (Nat × Nat × Nat)) =>
       { s with ctl.ready := true, ctl.powered := true, ctl.mailbox := Memory.writeAll [] ([(0, BitVec.ofNat 8 code), (1, 0xFF)] ++ l.flatMap fun q => placed q.1 (leBytes q.2.1 q.2.2)) }
    let part := fun (f : Partition → Partition) => demo.modPart 0 f
    let header := placed 0x30018 [4, 4]
    let queues := part fun x => { x with queues := List.replicate 8 none }
    let bound := part fun x => { x with queues := some { base := 0x30000, prod := 0, waiting := [] } :: List.replicate 7 none }
    (let s := on demo 5 [(16, 8, 640)]
     let t := { s with ctl.limitWritten := true }
     asked s 5 [(16, 8)] ∧ s.ctl.form ≠ .m860 ∧ s.ctl.limitWritten = false ∧ asked t 5 [(16, 8)] ∧ t.ctl.limitWritten = true) ∧
    (let s := on demo 6 [(16, 8, 0x2000000), (24, 8, 0x2000000), (32, 8, 0x1000000)]
     asked s 6 [(8, 2), (16, 24)] ∧ (s.part 0).dies.contains 0 = true ∧ s.ownWindow + hbmPerDie * 0 ≤ 0x2000000 ∧ s.mapped 0x1000000 = true ∧ (s.part 0).pool 0 = none) ∧
    (let s := on demo 7 []
     let t := s.modPart 0 fun x => { x with run := .saved }
     asked s 7 [(8, 1), (16, 64)] ∧ 0 < s.dies.length ∧ s.routesFree 0 = false ∧ t.routesFree 0 = true) ∧
    (let s := on State.reset 8 [(8, 1, 3)]
     asked s 8 [(8, 1)] ∧ s.anyActive = false ∧ asked (on demo 8 []) 8 [(8, 1)] ∧ demo.anyActive = true) ∧
    (let s := on demo 9 []
     let t := { (s.modPart 0 fun x => { x with moved := [0] }) with ctl.await := some (0, 0) }
     asked s 9 [(8, 1)] ∧ s.ctl.await = none ∧ s.canSave 0 = true ∧ t.ctl.await = some (0, 0) ∧ (t.part 0).moved[0]? = some 0) := by decide +kernel

theorem witness_MailboxCommandsComplete_3 :
    let on := fun (s : State) (code : Nat) (l : List (Nat × Nat × Nat)) =>
       { s with ctl.ready := true, ctl.powered := true, ctl.mailbox := Memory.writeAll [] ([(0, BitVec.ofNat 8 code), (1, 0xFF)] ++ l.flatMap fun q => placed q.1 (leBytes q.2.1 q.2.2)) }
    let part := fun (f : Partition → Partition) => demo.modPart 0 f
    let header := placed 0x30018 [4, 4]
    let queues := part fun x => { x with queues := List.replicate 8 none }
    let bound := part fun x => { x with queues := some { base := 0x30000, prod := 0, waiting := [] } :: List.replicate 7 none }
    (let s := on demo 10 []
     let t := s.modPart 0 fun x => { x with run := .saved, image := .shadow }
     asked s 10 [(8, 1)] ∧ s.ctl.await = none ∧ s.canRestore 0 = false ∧ t.canRestore 0 = true ∧ t.canSave 0 = false) ∧
    (let s := on (part fun x => { x with run := .saved, image := .shadow }) 11 []
     asked s 11 [(8, 2)] ∧ (s.part 0).run = .saved ∧ (s.part 0).image = .shadow) ∧
    (let s := on (part fun x => { x with run := .saved, image := .region }) 11 [(9, 1, 1)]
     asked s 11 [(8, 2)] ∧ (s.part 0).run = .saved ∧ (s.part 0).image = .region) ∧
    (let s := on (part fun x => { x with fatal := some 1 }) 12 []
     asked s 12 [(8, 1)] ∧ (s.part 0).fatal ≠ none ∧ asked (on demo 12 []) 12 [(8, 1)] ∧ (demo.part 0).fatal = none) ∧
    (let s := on demo 13 [(9, 1, 2)]
     asked s 13 [(8, 2)] ∧ s.ctl.mail 9 1 = 2 ∧ s.ctl.shoot = none ∧ quietAfter s 0 .all none) := by decide +kernel

theorem witness_MailboxCommandsComplete_4 :
    let on := fun (s : State) (code : Nat) (l : List (Nat × Nat × Nat)) =>
       { s with ctl.ready := true, ctl.powered := true, ctl.mailbox := Memory.writeAll [] ([(0, BitVec.ofNat 8 code), (1, 0xFF)] ++ l.flatMap fun q => placed q.1 (leBytes q.2.1 q.2.2)) }
    let part := fun (f : Partition → Partition) => demo.modPart 0 f
    let header := placed 0x30018 [4, 4]
    let queues := part fun x => { x with queues := List.replicate 8 none }
    let bound := part fun x => { x with queues := some { base := 0x30000, prod := 0, waiting := [] } :: List.replicate 7 none }
    asked (on demo 14 []) 14 [(16, 32)] ∧ asked (on demo 15 []) 15 [(8, 1), (16, 4)] ∧
    (let s := on demo 16 [(16, 8, 0x100000000000), (24, 8, 16)]
     asked s 16 [(16, 16)] ∧ s.isHost 0x100000000000 = true ∧ s.isHost (0x100000000000 + 16 - 1) = true) ∧
    (let s := { on demo 9 [] with ctl.ready := false, ctl.fwFailed := true }
     s.submitted 9 = true ∧ s.ctl.unusedZero [(8, 1)] = true ∧ s.ctl.ready = false) ∧
    (let s := on demo 17 [(16, 8, 2 ^ 36)]
     asked s 17 [(16, 8)] ∧ s.ctl.mail 16 8 % 2 ^ 36 = 0 ∧ s.ctl.mail 16 8 < windowBytes) := by decide +kernel

end Sys2Proof.Tests
end

section
/-! PROOF. Power, temperatures, the bellows, ports with their channels, and the windows of the host link: what each step of the
controller and of a link engine comes to (spec/14 R423 to R432, spec/16 R458 to R471). -/

open Sys2Proof Sys2Proof.Machine Sys2Proof.Claims

namespace Sys2Proof.Proofs

/-- A step of another agent whose condition holds has its effect. -/
theorem event_of {s r : State} {e : Bool} {f : State → State} (he : e = true) (hr : f s = r) : event s e f = .next r.tick := by
  rw [he, ← hr]; rfl

/-! Power and temperatures -/

theorem exec_powerOn {s : State} (h : s.ctl.powered = false) : exec .powerOn s = .next (State.tick { s with ctl := { s.ctl with
    powered := true, ready := Config.firmwareVerifies s.ctl.flash, fwFailed := !Config.firmwareVerifies s.ctl.flash, osc := 0 } }) := by
  show execPowerOn s = _
  exact event_of (by rw [h]; rfl) rfl

theorem exec_lossOfPackagePower {s : State} (h : s.ctl.powered = true) : exec .lossOfPackagePower s = .next (State.tick
    { State.resetOf s.ctl.form with mem := Memory.rerank (s.mem.filter s.outside) s.ctl.podRank.toNat 0,
                                    ctl := { Ctl.reset with form := s.ctl.form, flash := s.ctl.flash }, fresh := s.fresh }) := by
  show execLossOfPackagePower s = _
  exact event_of h rfl

theorem exec_throttle {s : State} {d : Nat} {t : Word} (h : s.senses d = true) (lo : 1600 < t.toNat) (hi : t.toNat < 1840) :
    exec (.throttle d t) s = .next (s.readTemp d t).tick := by
  show execThrottle d t s = _
  exact event_of (by simp [h, throttleAt, haltAt, lo, hi]) rfl

theorem exec_temperatureFalls {s : State} {d : Nat} {t : Word} (h : s.senses d = true) (hi : t.toNat ≤ 1600) :
    exec (.temperatureFalls d t) s = .next (s.readTemp d t).tick := by
  show execTemperatureFalls d t s = _
  exact event_of (by simp [h, throttleAt, hi]) rfl

theorem exec_thermalHalt {s : State} {d : Nat} {t : Word} (h : s.senses d = true) (lo : 1840 ≤ t.toNat) :
    exec (.thermalHalt d t) s = .next (let r := s.readTemp d t
      ({ r with waves := r.waves.map fun y => { y with sch.halted := true }, ctl.halted := true } : State).tick) := by
  show execThermalHalt d t s = _
  exact event_of (by simp [h, haltAt, lo]) rfl

theorem getD_modifyAt_same {α : Type} (l : List α) (i : Nat) (f : α → α) (z : α) (h : i < l.length) :
    (modifyAt l i f).getD i z = f (l.getD i z) := by
  induction l generalizing i with
  | nil => simp at h
  | cons x t ih =>
    cases i with
    | zero => rfl
    | succ i => simpa [modifyAt] using ih i (by simpa using h)

theorem die_modDie_same (s : State) (d : Nat) (f : Die → Die) (h : d < s.dies.length) : (s.modDie d f).die d = f (s.die d) :=
  getD_modifyAt_same _ d f _ h

@[simp] theorem raiseVector_die (s : State) (v d : Nat) : (s.raiseVector v).die d = s.die d := rfl

/-- The die's register holds what was read, and the die is throttled above the threshold. -/
theorem readTemp_die {s : State} {d : Nat} (t : Word) (h : d < s.dies.length) :
    (s.readTemp d t).die d = { s.die d with temp := t, throttled := decide (1600 < t.toNat) } := by
  have key : ∀ b : Bool, (if b then (s.modDie d fun x => { x with temp := t, throttled := decide (throttleAt < t.toNat) }).raiseVector 2
      else s.modDie d fun x => { x with temp := t, throttled := decide (throttleAt < t.toNat) }).die d =
      { s.die d with temp := t, throttled := decide (1600 < t.toNat) } := by
    intro b
    cases b <;> exact die_modDie_same _ _ _ h
  exact key _

theorem exec_bellowsUpdate {s : State} (h : s.ctl.ready = true) (h' : s.ctl.halted = false) :
    exec .bellowsUpdate s = .next (State.meterGroups { s with
      ctl.osc := s.ctl.osc + 1,
      parts := (s.parts.zipIdx).map fun (q : Partition × Nat) => q.1.refill (Config.metered s.fresh q.2) (s.ctl.osc + 1) }).tick := by
  show execBellowsUpdate s = _
  exact event_of (by rw [h, h']; rfl) rfl

/-! Channels -/

theorem bridgeWhole_of {p : Nat} {qs : List (Option (BitVec 512))} (h : p < 3 ∨ ∀ k, k < 5 → (qs.getD k none).isSome = true) :
    bridgeWhole p qs = true := by
  obtain h | h := h
  · simp [bridgeWhole, h]
  · simp only [bridgeWhole, Bool.or_eq_true, List.all_eq_true, List.mem_range]
    exact .inr h

section channel
variable {s : State} {d p : Nat} {vc : BitVec 2} (h : s.channelThere d p = true)
include h

theorem exec_flitArrive {n : Nat} {qs : List (Option (BitVec 512))} (hq : bridgeWhole p qs = true) :
    exec (.flitArrive d p vc n qs) s = .next (s.modPort d p fun y => y.arrive vc n qs).tick := by
  show execFlitArrive d p vc n qs s = _
  exact event_of (by rw [h, hq]; rfl) rfl

theorem exec_flitReceive {qs : List (Option (BitVec 512))} (hq : bridgeWhole p qs = true) :
    exec (.flitReceive d p vc qs) s = .next (s.modPort d p fun y => y.arrive vc (y.nextIn vc) qs).tick := by
  show execFlitReceive d p vc qs s = _
  exact event_of (by rw [h, hq]; rfl) rfl

theorem exec_flitTake (hr : (s.linkPort d p).rx.any (fun e => e.1 == vc) = true) : exec (.flitTake d p vc) s = .next
    (s.modPort d p fun y => ({ y with rx := y.rx.eraseIdx ((y.rx.findIdx? fun e => e.1 == vc).getD 0) } : Port).govern vc).tick := by
  show execFlitTake d p vc s = _
  exact event_of (by rw [h, hr]; rfl) rfl

/-- A channel that is not paused sends, and a paused one up to its 64th flit (R427). -/
theorem exec_flitSend (flit : BitVec 2048)
    (hp : (s.linkPort d p).paused &&& vcBit vc = 0 ∨ (s.linkPort d p).past.getD vc.toNat 0 < 64) :
    exec (.flitSend d p vc flit) s = .next (s.modPort d p fun y => { y with
      txNext := y.txNext.set vc.toNat ((s.linkPort d p).nextOut vc + 1), unacked := y.unacked ++ [(vc, (s.linkPort d p).nextOut vc, flit)],
      tx := y.tx ++ [(vc, (s.linkPort d p).nextOut vc, flit)], past := y.past.set vc.toNat (y.past.getD vc.toNat 0 + 1) }).tick := by
  have goesOn : ((s.linkPort d p).paused &&& vcBit vc != 0 && decide (64 ≤ (s.linkPort d p).past.getD vc.toNat 0)) = false := by
    obtain hp | hp := hp
    · rw [hp]; rfl
    · rw [Bool.and_eq_false_iff]
      exact .inr (decide_eq_false (by omega))
  show execFlitSend d p vc flit s = _
  simp only [execFlitSend]
  exact event_of (by rw [h, goesOn]; rfl) rfl

theorem exec_flitAck (n : Nat) : exec (.flitAck d p vc n) s = .next
    (s.modPort d p fun y => { y with unacked := y.unacked.filter fun e => !(e.1 == vc && decide (e.2.1 ≤ n)) }).tick := by
  show execFlitAck d p vc n s = _
  exact event_of h rfl

theorem exec_flitAsk (n : Nat) : exec (.flitAsk d p vc n) s = .next
    (s.modPort d p fun y => { y with tx := y.tx ++ y.unacked.filter fun e => e.1 == vc && e.2.1 == n }).tick := by
  show execFlitAsk d p vc n s = _
  exact event_of h rfl

theorem exec_pause : exec (.pause d p vc) s = .next (s.modPort d p fun y => { y with
    paused := y.paused ||| vcBit vc, past := if y.paused &&& vcBit vc = 0 then y.past.set vc.toNat 0 else y.past }).tick := by
  show execPause d p vc s = _
  exact event_of h (by simp only [beq_iff_eq])

theorem exec_resume : exec (.resume d p vc) s = .next (s.modPort d p fun y => { y with paused := y.paused &&& ~~~ vcBit vc }).tick := by
  show execResume d p vc s = _
  exact event_of h rfl

end channel

/-! Ports and bridges -/

section port
variable {s : State} {d p : Nat} (h : s.portThere d p = true)
include h

theorem exec_replayLimit (hc : (s.linkPort d p).carries = true) (hr : 16 ≤ (s.linkPort d p).replays) :
    exec (.replayLimit d p) s = .next (s.recover d p (s.linkPort d p).rails).tick := by
  show execReplayLimit d p s = _
  simp only [execReplayLimit]
  exact event_of (by simp [h, hc, hr]) rfl

theorem exec_railLoss {rail : Nat} (hc : (s.linkPort d p).carries = true) (hr : rail < 5)
    (hl : (s.linkPort d p).rails.getLsbD rail = false) :
    exec (.railLoss d p rail) s = .next (let rails := (s.linkPort d p).rails ||| BitVec.ofNat 5 (2 ^ rail)
      (if (s.linkPort d p).st = .up then (s.modPort d p fun y => { y with st := .degraded, rails := rails }).portChanged
        else s.recover d p rails).tick) := by
  show execRailLoss d p rail s = _
  simp only [execRailLoss]
  exact event_of (by rw [h, hc, hl, decide_eq_true hr]; rfl) (by simp only [beq_iff_eq])

theorem exec_bringPortUp (hr : s.ctl.ready = true) (hd : (s.linkPort d p).st = .down) :
    exec (.bringPortUp d p) s = .next (s.modPort d p fun y => { y with st := .training, rails := 0 }).portChanged.tick := by
  show execBringPortUp d p s = _
  exact event_of (by simp [h, hr, hd]) rfl

theorem exec_trainingEnd (lost : BitVec 5) (peer : BitVec 8)
    (hs : (s.linkPort d p).st = .training ∨ (s.linkPort d p).st = .recovery) :
    exec (.trainingEnd d p lost peer) s = .next (let k := popCount 5 lost.toNat
      ((s.liftHolds d p (decide (k ≤ 1))).modPort d p fun y =>
        if k = 0 then { y.restart with st := .up, rails := lost, peer := peer, replays := 0 }
        else if k = 1 then { y.restart with st := .degraded, rails := lost, peer := peer, replays := 0 }
        else { y with st := .down, rails := lost, peer := 0xFF, replays := 0 }).portChanged.tick) := by
  show execTrainingEnd d p lost peer s = _
  simp only [execTrainingEnd]
  exact event_of (by simp [h, hs]) (by simp only [beq_iff_eq]; rfl)

end port

theorem exec_bridgeError {s : State} {a b : Nat} (hp : s.ctl.powered = true) (hh : s.ctl.halted = false) (ha : a < s.dies.length)
    (hb : b < s.dies.length) (hab : a ≠ b) :
    exec (.bridgeError a b) s = .next ((List.range s.parts.length).foldl (fun (r : State) q =>
      if (r.part q).dies.contains a && (r.part q).dies.contains b then (r.addError q 3 1 0 0 0 0 0).declareFatal q 1 else r) s).tick := by
  show execBridgeError a b s = _
  exact event_of (by simp [hp, hh, ha, hb, hab]) rfl

theorem exec_recoveryHoldExpiry {s : State} {d rank : Nat} (h : (s.die d).holds.contains rank = true) :
    exec (.recoveryHoldExpiry d rank) s = .next (s.modDie d fun y => { y with
      holds := y.holds.filter (· != rank), expired := (rank :: y.expired).eraseDups }).tick := by
  show execRecoveryHoldExpiry d rank s = _
  exact event_of h rfl

theorem exec_fatalHostRequest {s : State} {p : Nat} (h : s.alive p = true) :
    exec (.fatalHostRequest p) s = .next (s.declareFatal p 3).tick := by
  show execFatalHostRequest p s = _
  exact event_of h rfl

theorem exec_controllerInternalError {s : State} {p : Nat} (h : s.alive p = true) :
    exec (.controllerInternalError p) s = .next (s.declareFatal p 4).tick := by
  show execControllerInternalError p s = _
  exact event_of h rfl

/-! The windows of the host link -/

/-- A write above the doorbells of a link that is up. -/
theorem exec_registerWrite {s : State} {off : BitVec 24} (v : Word) (hl : s.ctl.linked = true) (h8 : off.toNat % 8 = 0)
    (hd : 0x100 ≤ off.toNat) : exec (.registerWrite off v) s = .next (State.tick
      (if off.toNat = 0x800 then s.submit
       else if 0x1000 ≤ off.toNat ∧ off.toNat < 0x1200 then s.hostMail (off.toNat - 0x1000) v
       else if off.toNat = 0x2308 then { s with ctl.cause := s.ctl.cause &&& ~~~ (v.extractLsb' 0 8) } else s)) := by
  show execRegisterWrite off v s = _
  have low : ¬ off.toNat < 0x100 := by omega
  simp only [execRegisterWrite, hl, h8, low, Bool.not_true, bne_self_eq_false, Bool.or_self, Bool.false_eq_true, if_false]
  exact event_of rfl (by simp only [beq_iff_eq, Bool.and_eq_true, decide_eq_true_eq])

theorem exec_registerRead {s : State} {off : BitVec 24} (hl : s.ctl.linked = true) (h8 : off.toNat % 8 = 0) :
    exec (.registerRead off) s = .next (State.tick { s with ctl.hostRead := leBytes 8 (s.register off.toNat).toNat }) := by
  show execRegisterRead off s = _
  exact event_of (by simp [hl, h8]) rfl

/-- Below the mailbox nothing is read. -/
theorem register_low {s : State} {o : Nat} (h : o < 0x1000) : s.register o = 0 := by
  simp only [State.register]
  rw [if_neg (by omega), if_neg (by omega), if_neg (by omega), if_neg (by omega), if_neg (by omega), if_neg (by omega)]

theorem register_cause (s : State) : s.register 0x2308 = s.ctl.cause.zeroExtend 64 := by
  simp [State.register]

section aperture
variable {s : State} {o : BitVec 36} {bytes : List Byte} (hl : s.ctl.linked = true) (hr : s.ctl.ready = true) (hb : bytes ≠ [])
  (ho : o.toNat + bytes.length ≤ 2 ^ 36)
include hl hr hb ho

/-- The link is up, and the access lies in the window of BAR2. -/
theorem aperture_open : (!s.ctl.linked || !s.ctl.ready || bytes.isEmpty || decide (2 ^ 36 < o.toNat + bytes.length)) = false := by
  rw [hl, hr, decide_eq_false (Nat.not_lt.2 ho), List.isEmpty_eq_false_iff.2 hb]
  rfl

theorem exec_apertureWrite {u : State} (hw : physWrite s (s.ownWindow + s.ctl.aperture + o.toNat) bytes = .ok u) :
    exec (.apertureAccess true o bytes) s = .next u.tick := by
  show execApertureAccess true o bytes s = _
  rw [execApertureAccess, aperture_open hl hr hb ho, if_neg Bool.false_ne_true, if_pos rfl, hw, reached]

theorem exec_apertureRead (h1 : s.mapped (s.ownWindow + s.ctl.aperture + o.toNat) = true)
    (h2 : s.mapped (s.ownWindow + s.ctl.aperture + o.toNat + bytes.length - 1) = true) :
    exec (.apertureAccess false o bytes) s =
      .next (State.tick { s with ctl.hostRead := s.apertureBytes (s.ownWindow + s.ctl.aperture + o.toNat) bytes.length }) := by
  show execApertureAccess false o bytes s = _
  rw [execApertureAccess, aperture_open hl hr hb ho, if_neg Bool.false_ne_true, if_neg Bool.false_ne_true, h1, h2, Bool.and_self, if_pos rfl]

end aperture

theorem exec_logicalCoreChange {s : State} {c n : Nat} (hc : s.acting = c)
    (hn : (let others := (List.range s.cores.length).filter fun i => i != c && (s.core i).part == (s.core c).part && (s.core i).phys == (s.core c).phys
      let next := sortBy (fun (a b : Nat) => decide ((s.core a).logical ≤ (s.core b).logical)) others
      (next.find? fun i => decide ((s.core c).logical < (s.core i).logical)).or next.head?) = some n) :
    exec (.logicalCoreChange c) s = .next (State.tick { s with acting := n }) := by
  show execLogicalCoreChange c s = _
  dsimp only at hn
  simp only [execLogicalCoreChange, hn]
  exact event_of (by simp [hc]) rfl

/-- Settles O45: each step of the controller and of the link engines by the lemma that says what it comes to. -/
theorem powerLinkAndHostEvents : Obligations.PowerLinkAndHostEvents := by
  intro s u d p rail rank a b c n t v vc lost peer off o2 qs flit bytes
  refine ⟨exec_powerOn, exec_lossOfPackagePower, fun h => ⟨exec_throttle h, exec_temperatureFalls h, ?_, exec_thermalHalt h⟩,
    exec_bellowsUpdate, fun h => ⟨fun hq => ⟨exec_flitArrive h (bridgeWhole_of hq), exec_flitReceive h (bridgeWhole_of hq)⟩,
      exec_flitTake h, exec_flitSend h flit, exec_flitAck h n, exec_flitAsk h n, exec_pause h, exec_resume h⟩,
    fun h => ⟨fun hc => ⟨exec_replayLimit h hc, exec_railLoss h hc⟩, exec_bringPortUp h, exec_trainingEnd h lost peer⟩,
    exec_recoveryHoldExpiry, exec_bridgeError, fun h => ⟨exec_fatalHostRequest h, exec_controllerInternalError h⟩, ?_, exec_logicalCoreChange⟩
  · intro hd
    rw [readTemp_die t hd]
    exact ⟨rfl, rfl⟩
  · intro hl h8
    refine ⟨fun h => ?_, fun lo hi => ?_, fun h => ?_, exec_registerRead hl h8, register_low, fun h => h ▸ register_cause s,
      fun hr hb ho => ⟨exec_apertureWrite hl hr hb ho, exec_apertureRead hl hr hb ho⟩⟩
    · exact (exec_registerWrite v hl h8 (by omega)).trans (by rw [if_pos h])
    · exact (exec_registerWrite v hl h8 (by omega)).trans (by rw [if_neg (by omega), if_pos ⟨lo, hi⟩])
    · exact (exec_registerWrite v hl h8 (by omega)).trans (by rw [if_neg (by omega), if_neg (by omega), if_pos h])

end Sys2Proof.Proofs
end

section
/-! PROOF. The shape of an issued instruction: its checks pass one after the other, and what is left is its effect (spec/02 R53,
R57). -/

open Sys2Proof Sys2Proof.Machine Sys2Proof.Claims

namespace Sys2Proof.Proofs

/-! Sequences of checks -/

@[simp] theorem eff_ok_bind {α β : Type} (a : α) (f : α → Eff β) : ((Except.ok a : Eff α) >>= f) = f a := rfl
@[simp] theorem eff_error_bind {α β : Type} (e : Stop) (f : α → Eff β) : ((Except.error e : Eff α) >>= f) = .error e := rfl
@[simp] theorem eff_pure {α : Type} (a : α) : (pure a : Eff α) = .ok a := rfl

/-- A demand that holds lets the instruction go on. -/
theorem demand_of {ok : Bool} (h : ok = true) (code : BitVec 6) (addr : Word) (lanes : Option Mask) : demand ok code addr lanes = .ok () := by
  rw [h]; rfl

theorem demand_of_not {ok : Bool} (h : ok = false) (code : BitVec 6) (addr : Word) (lanes : Option Mask) :
    demand ok code addr lanes = .error (.trap { code := code, addr := addr, lanes := lanes }) := by
  rw [h]; rfl

/-- A demand that fails is what the instruction comes to. -/
theorem demand_stops {ok : Bool} (h : ok = false) (code : BitVec 6) (addr : Word) (lanes : Option Mask) {α : Type} (f : Unit → Eff α) :
    (demand ok code addr lanes >>= f) = .error (.trap { code := code, addr := addr, lanes := lanes }) := by
  rw [demand_of_not h]; rfl

theorem roomFor_of {s : State} {w : Nat} {c : Cls} (h : (s.wave w).outstanding c < 62) : roomFor s w c = .ok () := if_pos h

theorem demandSent_of {s : State} {w : Nat} (h : s.storesHeld w = false) : demandSent s w = .ok () := by
  rw [demandSent, h]; rfl

/-- A release with no ordered atomic of its wave held, and any other access, does not wait. -/
theorem releaseWaits_of {s : State} {w : Nat} {o : Order} (h : Order.releases o = true → s.aodPending w = false) :
    releaseWaits s w o = .ok () := by
  have go : (Order.releases o && s.aodPending w) = false := by
    cases ho : Order.releases o with
    | false => rfl
    | true => rw [h ho]; rfl
  rw [releaseWaits, go]; rfl

theorem forced_plain {s : State} {w : Nat} (h : s.staged (s.wave w).id.group = false) (act : State → Nat → Eff State) :
    forced s w act = act s w := by
  rw [forced, h]; rfl

/-- In a staged group a drained wave arrives at the commit point. -/
theorem forced_staged {s : State} {w : Nat} (h : s.staged (s.wave w).id.group = true) (hd : s.drainedWave w = true)
    (act : State → Nat → Eff State) : forced s w act = .error (.stall .commit (s.modWave w fun x => { x with sch.arrived := some Arrive.forcing })) := by
  rw [forced, h, if_pos rfl, arriveAt, demandDrained, hd]; rfl

/-! What an issued instruction comes to -/

section issue
variable {s u : State} {w : Nat} {f : Nat → Eff State} (hw : s.running = some w)
include hw

theorem issue_completes (h : f w = .ok u) : issue s f = .next (completed s w u) := issueWith_ok Wave.advance hw h
theorem issue_traps {t : TrapReq} (h : f w = .error (.trap t)) : issue s f = .next (s.trapped w t) := issueWith_trap Wave.advance hw h
theorem issue_stalls {y : Why} (h : f w = .error (.stall y u)) : issue s f = .next (u.stallWave w y).tick := issueWith_stall Wave.advance hw h

theorem issue_done (h : f w = .error (.done u)) : issue s f = .next u := by
  simp [issue, issueWith, hw, h]

end issue

end Sys2Proof.Proofs
end

section
/-! PROOF. Commands of the tier engine: what a command that nothing keeps back comes to (spec/13 R414, R418; spec/01 R25). -/

open Sys2Proof Sys2Proof.Machine Sys2Proof.Claims

namespace Sys2Proof.Proofs

/-- A command of a group without a twin's part ends as its answer. -/
theorem endTier_eq {c : TCmd} (h : c.twin = none) (s : State) (st : BitVec 8) (ds : List Dest) :
    s.endTier c st ds = tierAnswered s c st ds := by
  simp only [State.endTier, tierAnswered, h]
  split <;> simp_all

/-! A command that has not begun -/

section fresh
variable {s : State} {c : TCmd} (hb : c.begun = none) (ht : c.twin = none) (he : s.engineHeld c.group = false)
  (ha : s.acquireWaits c.wave c.key c.o = false)
include hb he ha

theorem tierStep_launch {va : Word} {d : Nat} {b : Bool} (ho : c.op = .launch va d b) :
    s.tierStep c = match s.launchRead c.wave c.o c.sc va.toNat with
      | .hold => s
      | .failed => s.endTier c 0 [.s d b (launchWord 8 0)]
      | .got u bs =>
        let v := u.raceEngine c.wave { kind := .load, acq := Order.acquires c.o, rel := false, sc := c.sc } c.origin [(va.toNat, 128)]
        let r := v.accept (s.wave c.wave).id.part bs (some (s.wave c.wave).id.ctx) .device
        r.1.endTier c 0 [.s d b (launchWord r.2.1 r.2.2)] := by
  have go : s.tierWaits c = false := by simp [State.tierWaits, he, ha, ho]
  simp only [State.tierStep, hb, ho, go]
  rfl

theorem tierStep_screed {va off : Word} {n : Nat} (ho : c.op = .screed va off n) :
    s.tierStep c = match s.takeScreed c va off n with
      | none => s
      | some (u, st) => u.endTier c st [] := by
  have go : s.tierWaits c = false := by simp [State.tierWaits, he, ha, ho]
  simp only [State.tierStep, hb, ho, go]
  rfl

theorem tierStep_region {act : TierAct} {d n : Nat} {va : Word} {stamp : Option Word} (ho : c.op = .region act d va n stamp)
    (hr : s.regionHeld act (s.wave c.wave).id.part (s.wave c.wave).id.ctx d va.toNat n = false) :
    s.tierStep c =
      let q := s.overRegion act (s.wave c.wave).id.part (s.wave c.wave).id.ctx d va.toNat n
      let v := tierBegun q.1 (s.wave c.wave).id.part c q.2.1 q.2.2
      if q.2.2.isEmpty then v.1.endRegion v.2 q.2.1 stamp else v.1 := by
  have go : s.tierWaits c = false := by simp [State.tierWaits, he, ha, ho, hr]
  simp only [State.tierStep, tierBegun, hb, ho, go]
  rfl

end fresh

end Sys2Proof.Proofs
end

section
/-! PROOF. Device launches, records of nodes, and registers that grow and shrink (spec/12 R374 to R391). -/

open Sys2Proof Sys2Proof.Machine Sys2Proof.Claims

namespace Sys2Proof.Proofs

/-! Launches -/

/-- What a launch of the record at `va` does once its checks have passed, `d` being the register that receives its status. -/
def launchActs (s : State) (w : Nat) (o : Order) (sc : Scope) (d : Nat) (va : Word) : Eff State :=
  let x := s.wave w
  let said := fun (u : State) (st : Nat) (ident : BitVec 32) => u.modWave w fun y =>
    y.count .cp true [y.destS d (BitVec.ofNat 64 (st * 2 ^ 56 + ident.toNat))]
  if s.acquireWaits w x.num.key o then
    .ok (((s.performAll w).modWave w fun y => y.count .cp false []).modPart x.id.part fun p => { p with tierQ := p.tierQ ++
      [{ op := .launch va d (x.tr.hm && decide (56 ≤ d)), wave := w, group := x.id.group, key := x.num.key,
         num := x.num.tier, o := o, sc := sc, pos := x.pos }] })
  else match (s.performAll w).launchRead w o sc va.toNat with
    | .hold => .error (.stall .hold s)
    | .failed => .ok (said (s.performAll w) 8 0)
    | .got u bs => do
      let v ← raceCheck u w { kind := .load, acq := Order.acquires o, rel := false, sc := sc } [(0, va.toNat, 128)]
      let r := v.accept (v.wave w).id.part bs (some (v.wave w).id.ctx) .device
      .ok (said r.1 r.2.1 r.2.2)

theorem launchAct_of {s : State} {w : Nat} {d a : Opnd} (o : Order) (sc : Scope) (hc : launchCheck d a s w = .ok ())
    (h64 : (readS s w 1 (regOf a)).toNat % 64 = 0) (h57 : (readS s w 1 (regOf a)).toNat < 2 ^ 57)
    (hr : (s.wave w).outstanding .cp < 62) (hh : s.storesHeld w = false) :
    launchAct o sc d a s w = launchActs s w o sc (regOf d) (readS s w 1 (regOf a)) := by
  simp only [launchAct, hc, eff_ok_bind, demand_of (beq_iff_eq.2 h64), demand_of (decide_eq_true h57), roomFor_of hr, demandSent_of hh]
  rfl

theorem exec_launch {s u : State} {w : Nat} {d a : BitVec 6} (o : Order) (sc : Scope) (hw : s.running = some w)
    (hc : checkOps s w [(.s d, .onlyS), (.s a, .onlyS)] = .ok ()) (hs : s.staged (s.wave w).id.group = false)
    (h64 : (readS s w 1 a.toNat).toNat % 64 = 0) (h57 : (readS s w 1 a.toNat).toNat < 2 ^ 57)
    (hr : (s.wave w).outstanding .cp < 62) (hh : s.storesHeld w = false)
    (h : launchActs s w o sc d.toNat (readS s w 1 a.toNat) = .ok u) :
    exec (.launch o sc (.s d) (.s a)) s = .next (completed s w u) := by
  have hl : launchCheck (.s d) (.s a) s w = .ok () := hc
  show execLaunch o sc (.s d) (.s a) s = _
  refine issue_completes hw ?_
  rw [hl, eff_ok_bind, forced_plain hs]
  exact (launchAct_of o sc hl h64 h57 hr hh).trans h

section tierLaunch
variable {s : State} {c : TCmd} {va : Word} {d : Nat} {b : Bool} (ho : c.op = .launch va d b) (hb : c.begun = none) (ht : c.twin = none)
  (he : s.engineHeld c.group = false) (ha : s.acquireWaits c.wave c.key c.o = false)
include ho hb ht he ha

/-- A launch in the tier engine whose record cannot be read ends with status 8. -/
theorem tierStep_launch_failed (hf : s.launchRead c.wave c.o c.sc va.toNat = .failed) :
    s.tierStep c = tierAnswered s c 0 [.s d b (BitVec.ofNat 64 (8 * 2 ^ 56))] := by
  rw [tierStep_launch hb he ha ho, hf]
  exact endTier_eq ht ..

theorem tierStep_launch_got {u : State} {bs : List Byte} (hg : s.launchRead c.wave c.o c.sc va.toNat = .got u bs) :
    s.tierStep c =
      let v := u.raceEngine c.wave { kind := .load, acq := Order.acquires c.o, rel := false, sc := c.sc } { pos := c.pos, key := some c.key } [(va.toNat, 128)]
      let r := v.accept (s.wave c.wave).id.part bs (some (s.wave c.wave).id.ctx) .device
      tierAnswered r.1 c 0 [.s d b (BitVec.ofNat 64 (r.2.1 * 2 ^ 56 + r.2.2.toNat))] := by
  rw [tierStep_launch hb he ha ho, hg]
  exact endTier_eq ht ..

end tierLaunch

/-! Records of nodes -/

/-- What `sendRecords` adds to the log of a staged group. -/
theorem sendRecords_staged {s : State} {w : Nat} (hs : s.staged (s.wave w).id.group = true) (n : Nat) (sc : Scope) (rs : List (Nat × List Byte)) :
    sendRecords s w n sc rs = .ok ((s.modGroup (s.wave w).id.group fun y => { y with
      nodeLog := y.nodeLog ++ rs.map fun r => .record n r.1 r.2
        { wave := w, origin := { pos := (s.wave w).pos, key := some (s.wave w).num.key }, sc := sc } }).modWave w
      fun y => y.count .cp true []) := by
  rw [sendRecords, hs, if_pos rfl]

/-- Records that all find room in their bins have entered. -/
theorem sendRecords_plain {s u : State} {w : Nat} (hs : s.staged (s.wave w).id.group = false) (hh : s.storesHeld w = false)
    (hn : (s.wave w).sch.nrec = none) {n k : Nat} {sc : Scope} {rs : List (Nat × List Byte)}
    (ha : appendAll (s.wave w).id.launch n { wave := w, origin := { pos := (s.wave w).pos, key := some (s.wave w).num.key }, sc := sc }
      rs (s.performAll w) 0 = (u, k, true)) :
    sendRecords s w n sc rs = .ok (u.modWave w fun y => { y.count .cp true [] with sch.nrec := none }) := by
  simp only [sendRecords, hs, hh, hn, List.drop_zero, ha]
  rfl

section nrec
variable {s : State} {w : Nat} {g : Guards} {o : Order} {sc : Scope} {d : BitVec 6} {a b : Opnd} (hw : s.running = some w)
  (hc : checkOps s w [(.v d, .onlyV), (a, .count), (b, .count)] = .ok ())
include hw hc

theorem exec_nrec_none (hm : activeMask s w g = 0) : exec (.nrec g o sc (.v d) a b) s = .next (completed s w s) := by
  show execNrec g o sc (.v d) a b s = _
  refine issue_completes hw ?_
  simp only [hc, hm, eff_ok_bind, beq_self_eq_true, if_true, eff_pure]

/-- nrec whose operands are in order sends its lanes' records, and counts as a release where its ordering says so. -/
theorem exec_nrec {n : Word} {u : State} (hm : activeMask s w g ≠ 0) (hd : demandClean s w (activeMask s w g) [a, b] = .ok ())
    (hn : uniOf s w (activeMask s w g) 1 a = .ok n) (hl : n.toNat < (s.waveLaunch w).nodes.length)
    (hb : ∀ e ∈ lanesOf (s.wave w).id.width (activeMask s w g), binOf s w b e < ((s.waveLaunch w).node n.toNat).nbin)
    (hf : s.fits w (.v d) (((s.waveLaunch w).node n.toNat).rsz / 4) = true)
    (hp : demandClean s w (activeMask s w g)
      ((List.range (((s.waveLaunch w).node n.toNat).rsz / 4)).map fun i => Opnd.v (BitVec.ofNat 6 (d.toNat + i))) = .ok ())
    (hr : (s.wave w).outstanding .cp < 62)
    (hs : sendRecords s w n.toNat sc ((lanesOf (s.wave w).id.width (activeMask s w g)).map fun e => (binOf s w b e,
      laneRecord (((List.range (((s.waveLaunch w).node n.toNat).rsz / 4)).map fun i => Opnd.v (BitVec.ofNat 6 (d.toNat + i))).map
        fun r => readV s w 4 (regOf r)) e)) = .ok u) :
    exec (.nrec g o sc (.v d) a b) s = .next (completed s w (if Order.releases o then
      let r := u.releaseInterval w
      if Scope.wide sc then (r.copyCores (s.wave w).id.group).foldl State.l1Clear r else r else u)) := by
  have hd' : regOf (.v d) = d.toNat := rfl
  have some_ : (activeMask s w g == 0) = false := beq_eq_false_iff_ne.2 hm
  have bins : ((lanesOf (s.wave w).id.width (activeMask s w g)).all fun l =>
      decide (binOf s w b l < ((s.waveLaunch w).node n.toNat).nbin)) = true := List.all_eq_true.2 fun e he => decide_eq_true (hb e he)
  show execNrec g o sc (.v d) a b s = _
  refine issue_completes hw ?_
  simp only [hc, some_, hd, hn, demandBelow, demand_of (decide_eq_true hl), demand_of bins, demand_of hf, hd', hp, roomFor_of hr,
    hs, eff_ok_bind, eff_pure, Bool.false_eq_true, if_false]
  cases hO : Order.releases o with
  | false => rfl
  | true => cases hS : Scope.wide sc <;> simp [State.releaseDone, hO, hS]

end nrec

theorem exec_nflush {s : State} {w : Nat} {all : Bool} {a b : Opnd} {n k : Word} (hw : s.running = some w)
    (hq : if all then checkOps s w [(a, .count)] = .ok () ∧ uni1 s w a = .ok n
      else checkOps s w [(a, .count), (b, .count)] = .ok () ∧ uni2 s w a b = .ok (n, k))
    (hl : n.toNat < (s.waveLaunch w).nodes.length) (hk : all = true ∨ k.toNat < ((s.waveLaunch w).node n.toNat).nbin)
    (hr : (s.wave w).outstanding .cp < 62) (hh : s.storesHeld w = false) :
    let nd := (s.waveLaunch w).node n.toNat
    let bins := if all then List.range nd.nbin else [k.toNat]
    exec (.nflush all a b) s = .next (completed s w ((if s.staged (s.wave w).id.group then
        s.modGroup (s.wave w).id.group fun y => { y with nodeLog := y.nodeLog ++ bins.map fun i => .flush n.toNat i }
      else bins.foldl (fun (u : State) i => u.flushBin (s.wave w).id.launch n.toNat i) (s.performAll w)).modWave w
        fun y => y.count .cp true [])) := by
  intro nd bins
  show execNflush all a b s = _
  refine issue_completes hw ?_
  cases all with
  | true =>
    obtain ⟨hc, hu⟩ := hq
    simp only [if_true, List.append_nil, hc, hu, Except.map, demandBelow, demand_of (decide_eq_true hl), roomFor_of hr, demandSent_of hh,
      eff_ok_bind]
    rfl
  | false =>
    obtain ⟨hc, hu⟩ := hq
    have hk' := hk.resolve_left Bool.false_ne_true
    simp only [Bool.false_eq_true, if_false, List.cons_append, List.nil_append, hc, hu, demandBelow, demand_of (decide_eq_true hl),
      demand_of (decide_eq_true hk'), roomFor_of hr, demandSent_of hh, eff_ok_bind]
    rfl

/-! Registers that grow and shrink -/

/-- With .t a grow that has failed traps, resuming after it; without, it completes with false in Pe. -/
theorem issue_growFailed {s : State} {w : Nat} (hw : s.running = some w) (k : Nat) (t : Bool) (pe : BitVec 3) :
    issue s (fun w => growFailed s w k t pe) = .next
      (let bare := s.modWave w fun y => { y with sch.growWant := none, sch.growGrant := none }
       if t then bare.trapped w { code := 0x1A, addr := BitVec.ofNat 64 k, resume := true }
       else completed s w (bare.modWave w fun y => y.setP pe y.exec 0)) := by
  cases t with
  | true => exact issue_done hw rfl
  | false => exact issue_completes hw rfl

section grow
variable {s : State} {w : Nat} {a : Opnd} {k : Word} (hw : s.running = some w) (hc : checkOps s w [(a, .count)] = .ok ())
  (hu : uni1 s w a = .ok k) (h8 : k.toNat % 8 = 0) (lo : 8 ≤ k.toNat) (hi : k.toNat ≤ 56)
include hw hc hu h8 lo hi

omit hw in
theorem growCount_of : growCount s w a = .ok k.toNat := by
  have ok : (k.toNat % 8 == 0 && decide (8 ≤ k.toNat) && decide (k.toNat ≤ 56)) = true := by simp [h8, lo, hi]
  simp only [growCount, hc, hu, demand_of ok, eff_ok_bind, eff_pure]

/-- What grow comes to by its grant, or by the room that its core has. -/
theorem exec_grow (t : Bool) (pe : BitVec 3) (hv : (s.wave w).v.length + k.toNat ≤ 64) :
    exec (.grow t a pe) s = issue s fun w => match (s.wave w).sch.growGrant with
      | some true => .ok (grown s w k.toNat t pe)
      | some false => growFailed s w k.toNat t pe
      | none => if s.growFits w k.toNat then .ok (grown s w k.toNat t pe)
        else if (s.waveLaunch w).r.det then growFailed s w k.toNat t pe
        else .error (.stall .grow (s.modWave w fun y => { y with sch.growWant := some k.toNat })) := by
  show execGrow t a pe s = _
  unfold execGrow issue issueWith
  simp only [hw, growCount_of hc hu h8 lo hi, demand_of (decide_eq_true hv), eff_ok_bind]
  rfl

section room
variable (hv : (s.wave w).v.length + k.toNat ≤ 64)
include hv

theorem exec_grow_granted (t : Bool) (pe : BitVec 3)
    (h : (s.wave w).sch.growGrant = some true ∨ ((s.wave w).sch.growGrant = none ∧ s.growFits w k.toNat = true)) :
    exec (.grow t a pe) s = .next (completed s w (grown s w k.toNat t pe)) := by
  rw [exec_grow hw hc hu h8 lo hi t pe hv]
  obtain h | ⟨h, hf⟩ := h
  · exact issue_completes hw (by rw [h])
  · exact issue_completes hw (by rw [h, hf]; rfl)

theorem exec_grow_failed (t : Bool) (pe : BitVec 3) (h : (s.wave w).sch.growGrant = some false ∨
      ((s.wave w).sch.growGrant = none ∧ s.growFits w k.toNat = false ∧ (s.waveLaunch w).r.det = true)) :
    exec (.grow t a pe) s = issue s fun w => growFailed s w k.toNat t pe := by
  rw [exec_grow hw hc hu h8 lo hi t pe hv, issue, issueWith, issue, issueWith, hw]
  obtain h | ⟨h, hf, hd⟩ := h
  · simp only [h]
  · simp only [h, hf, hd, Bool.false_eq_true, if_false, if_true]

theorem exec_grow_waits (t : Bool) (pe : BitVec 3) (h : (s.wave w).sch.growGrant = none) (hf : s.growFits w k.toNat = false)
    (hd : (s.waveLaunch w).r.det = false) :
    exec (.grow t a pe) s = .next ((s.modWave w fun y => { y with sch.growWant := some k.toNat }).stallWave w .grow).tick := by
  rw [exec_grow hw hc hu h8 lo hi t pe hv]
  exact issue_stalls hw (by rw [h, hf, hd]; rfl)

end room

theorem exec_shrink (hv : 16 + k.toNat ≤ (s.wave w).v.length) (hi' : (s.wave w).idle = true) :
    exec (.shrink a) s = .next (completed s w (s.modWave w fun y => { y with v := y.v.take (y.v.length - k.toNat) })) := by
  show execShrink a s = _
  refine issue_completes hw ?_
  simp only [growCount_of hc hu h8 lo hi, demand_of (decide_eq_true hv), hi', eff_ok_bind, if_true, eff_pure]

end grow

/-- Settles O41: launch as an instruction and as a command, nrec and nflush by what they send, grow by its grant. -/
theorem launchesAndRecordsComplete : Obligations.LaunchesAndRecordsComplete := by
  intro s u v2 w o sc d a g x1 x2 pe t all bs n k done hw
  refine ⟨fun hc hs h64 h57 hr hh => ⟨fun ha => ?_, fun ha hf => ?_, fun ha hg hrace => ?_⟩,
    fun c dn hb ho hb' ht he ha => ⟨tierStep_launch_failed ho hb' ht he ha, tierStep_launch_got ho hb' ht he ha⟩,
    fun hc => ⟨exec_nrec_none hw hc, fun hm hd hn hl hb hf hp hr => ⟨fun hs => ?_, fun hs hh hn' happ => ?_⟩⟩,
    fun hq hl hk hr hh => ⟨fun hs => ?_, fun hs => ?_⟩,
    fun hc hu h8 lo hi => ⟨fun hv => ⟨exec_grow_granted hw hc hu h8 lo hi hv t pe, fun h => ?_, exec_grow_waits hw hc hu h8 lo hi hv t pe⟩,
      exec_shrink hw hc hu h8 lo hi⟩⟩
  · exact exec_launch o sc hw hc hs h64 h57 hr hh (by rw [launchActs, ha]; rfl)
  · exact exec_launch o sc hw hc hs h64 h57 hr hh (by simp only [launchActs, ha, hf]; rfl)
  · exact exec_launch o sc hw hc hs h64 h57 hr hh (by simp only [launchActs, ha, hg, hrace]; rfl)
  · exact exec_nrec hw hc hm hd hn hl hb hf hp hr (sendRecords_staged hs ..)
  · exact exec_nrec hw hc hm hd hn hl hb hf hp hr (sendRecords_plain hs hh hn' happ)
  · exact (exec_nflush hw hq hl hk hr hh).trans (by rw [hs, if_pos rfl])
  · exact (exec_nflush hw hq hl hk hr hh).trans (by rw [hs, if_neg Bool.false_ne_true])
  · exact (exec_grow_failed hw hc hu h8 lo hi hv t pe h).trans (issue_growFailed hw _ t pe)

end Sys2Proof.Proofs
end

section
/-! PROOF. What the shared operations leave of the waves: fetches, translations and the race detector, and the performance of stores
(spec/04 R168, R173 to R178, spec/13 R403, R407). -/

open Sys2Proof Sys2Proof.Machine Sys2Proof.Claims

namespace Sys2Proof.Proofs

/-- A fold of updates that keep what `p` reads of a state. -/
theorem foldl_keeps {α β : Type} (p : State → β) (f : State → α → State) (hf : ∀ s a, p (f s a) = p s) (l : List α) (s : State) :
    p (l.foldl f s) = p s := by
  induction l generalizing s with
  | nil => rfl
  | cons a t ih => rw [List.foldl_cons, ih, hf]

theorem ite_keeps {β : Type} (p : State → β) {c : Prop} [Decidable c] {a b : State} {x : β} (ha : p a = x) (hb : p b = x) :
    p (if c then a else b) = x := by split <;> assumption

/-! Pages and translations change no wave -/

@[simp] theorem putLe_waves (s : State) (pa n x : Nat) : (s.putLe pa n x).waves = s.waves := rfl

@[simp] theorem writeGroup_waves (s : State) (pa level : Nat) (sz : Bool) (raw : Nat) : (s.writeGroup pa level sz raw).waves = s.waves := by
  unfold State.writeGroup
  refine foldl_keeps State.waves _ ?_ _ s
  intros
  rfl

@[simp] theorem blurAlias_waves (s : State) (b : Bool) (pa n : Nat) : (s.blurAlias b pa n).waves = s.waves :=
  ite_keeps State.waves rfl rfl

@[simp] theorem dropLines_waves (s : State) (pa n : Nat) : (s.dropLines pa n).waves = s.waves := rfl

theorem fetchPage_waves (s : State) (p c va d : Nat) (pin : Bool) : (s.fetchPage p c va d pin).1.waves = s.waves := by
  unfold State.fetchPage
  split
  · rfl
  split
  · rfl
  · rfl
  · split
    · rfl
    split
    · rfl
    dsimp only
    split
    · rfl
    · split
      · rfl
      · split
        · rfl
        · simp

theorem setPin_waves (s : State) (pa level : Nat) (e : Pte) (b : Bool) : (s.setPin pa level e b).waves = s.waves := by
  unfold State.setPin
  refine ite_keeps State.waves (foldl_keeps State.waves _ ?_ _ s) rfl
  intros
  rfl

theorem bringPage_waves (p c d : Nat) (pin : Bool) (s : State) (va : Nat) : (s.bringPage p c d pin va).1.waves = s.waves := by
  unfold State.bringPage
  split
  · have hf := fetchPage_waves s p c va d pin
    split <;> rename_i e <;> rw [e] at hf <;> exact hf
  · exact ite_keeps State.waves (setPin_waves ..) rfl
  · rfl

theorem overPages_waves (p c : Nat) (f : State → Nat → State × BitVec 8) (hf : ∀ s a, (f s a).1.waves = s.waves) (stop k : Nat)
    (s : State) (va : Nat) (st : BitVec 8) : (State.overPages p c f stop k s va st).1.waves = s.waves := by
  induction k generalizing s va st with
  | zero => rfl
  | succ k ih =>
    unfold State.overPages
    simp only []
    split
    · rfl
    · rw [ih, hf]

theorem startEntry_waves (s : State) (l k : Nat) (e : SEntry) : (s.startEntry l k e).waves = s.waves := by
  unfold State.startEntry
  simp only [modLaunch_waves]
  split
  · exact overPages_waves _ _ _ (fun s a => bringPage_waves _ _ _ _ s a) _ _ s _ _
  · exact overPages_waves _ _ _ (fun s a => bringPage_waves _ _ _ _ s a) _ _ s _ _
  · rfl

theorem startEntries_waves (s : State) (l : Nat) : (s.startEntries l).waves = s.waves := by
  unfold State.startEntries
  split
  · rfl
  · exact foldl_keeps State.waves _ (fun s a => ite_keeps State.waves (startEntry_waves ..) rfl) _ s

theorem followMarkers_waves (s : State) (l : Nat) : (s.followMarkers l).waves = s.waves := by
  unfold State.followMarkers
  simp only []
  split
  · rfl
  · exact ite_keeps State.waves rfl (startEntries_waves ..)

theorem markLeaf_waves (s : State) (pa : Nat) (e : Pte) (b : Bool) : (s.markLeaf pa e b).waves = s.waves :=
  ite_keeps State.waves rfl rfl

theorem useLeaf_waves {s t : State} {d p c va pa level out : Nat} {want : Want} {e : Pte}
    (h : s.useLeaf d p c va want pa level e = .ok (t, out)) : t.waves = s.waves := by
  unfold State.useLeaf at h
  dsimp only at h
  split at h
  · cases h
  · cases h
    exact markLeaf_waves ..

theorem translate_waves {s t : State} {d p c va out : Nat} {want : Want} (h : s.translate d p c va want = .ok (t, out)) :
    t.waves = s.waves := by
  unfold State.translate at h
  simp only [] at h
  have walked : ∀ {u o}, (match s.walkReach d p c va, s.walk p c va with
      | .hold, _ => .error .held
      | .broken, _ => .error .bad
      | .ok, .leaf pa level e => s.useLeaf d p c va want pa level e
      | .ok, .tiered pa level _ => .error (.tiered pa level va)
      | .ok, .bad => .error .bad) = Except.ok (u, o) → u.waves = s.waves := by
    intro u o hu
    split at hu
    · cases hu
    · cases hu
    · exact useLeaf_waves hu
    · cases hu
    · cases hu
  split at h
  · exact walked h
  · split at h
    · split at h
      · cases h; rfl
      · split at h
        · cases h; rfl
        · cases h; exact walked ‹_›
    · split at h
      · cases h; rfl
      · cases h

theorem resolve_waves {s t : State} {g d p c va n : Nat} {want : Want} {l : Loc} (h : s.resolve g d p c va n want = some (t, l)) :
    t.waves = s.waves := by
  unfold State.resolve at h
  split at h
  · cases h
  · split at h
    · split at h
      · cases h; rfl
      · cases h
    · split at h
      · cases h; exact translate_waves ‹_›
      · cases h
      · cases h
      · have hf := fetchPage_waves s p c va d false
        split at h
        · rename_i hp
          rw [hp] at hf
          split at h
          · cases h; exact (translate_waves ‹_›).trans hf
          · cases h
        · cases h

end Sys2Proof.Proofs
end

section
/-! PROOF. What the performance of stores leaves alone: a part of the state that none of its elementary updates changes (spec/04
R168, R169; spec/15 R444). -/

open Sys2Proof Sys2Proof.Machine Sys2Proof.Claims

namespace Sys2Proof.Proofs

/-- A field that an update of a wave keeps is kept in every wave. -/
theorem wave_modWave_keeps {β : Type} (p : Wave → β) {f : Wave → Wave} (s : State) (w v : Nat) (hf : p (f (s.wave w)) = p (s.wave w)) :
    p ((s.modWave w f).wave v) = p (s.wave v) := by
  by_cases hv : v = w
  · subst hv
    by_cases hl : v < s.waves.length
    · rw [wave_modWave_same s v f hl, hf]
    · rw [State.modWave, State.setWave, List.set_eq_of_length_le (by omega)]
  · rw [wave_modWave_other s w v f hv]

/-- A field that an update of a group keeps is kept in every group. -/
theorem group_modGroup_keeps {β : Type} (p : Group → β) {f : Group → Group} (s : State) (g h : Nat) (hf : p (f (s.group g)) = p (s.group g)) :
    p ((s.modGroup g f).group h) = p (s.group h) := by
  by_cases hv : h = g
  · subst hv
    by_cases hl : h < s.groups.length
    · rw [group_modGroup_same s h f hl, hf]
    · rw [State.modGroup, State.setGroup, List.set_eq_of_length_le (by omega)]
  · rw [group_modGroup_other s g h f hv]

/-- `p` reads nothing that a store changes when it is performed. -/
structure PerformFrame {β : Type} (p : State → β) : Prop where
  marked : ∀ s w k, p (s.modWave w fun x => x.markReady k []) = p s
  scratch : ∀ s g bs, p (s.modGroup g fun x => x.spWrite bs) = p s
  staged : ∀ s g bs old, p (s.modGroup g fun x => { x.stage bs with stagedOld := x.stagedOld ++ old }) = p s
  lost : ∀ s k a b c d e f g, p (s.addError k a b c d e f g) = p s
  home : ∀ s bs, p (s.writeMem bs) = p s
  lines : ∀ s c bs, p (s.l1Store c bs) = p s

/-- `p` reads nothing that the performance of the stores of a wave changes. -/
structure StoresFrame {β : Type} (p : State → β) : Prop extends PerformFrame p where
  sent : ∀ s c, p (s.modCore c fun k => { k with out := [] }) = p s
  queue : ∀ s w q, p (s.modWave w fun x => { x with mem.storeQ := q }) = p s

section frame
variable {β : Type} {p : State → β}

theorem PerformFrame.perform (h : PerformFrame p) (s : State) (w : Nat) (q : QStore) : p (s.perform w q) = p s := by
  unfold State.perform
  extract_lets g t d through u
  have hm : p t = p s := by
    unfold t
    split
    · exact h.marked ..
    · rfl
  have hu : p u = p s := by
    unfold u
    split
    · exact hm
    · exact (h.lost ..).trans hm
  split
  · exact (h.scratch ..).trans hm
  split
  · exact (h.staged ..).trans hm
  · rw [h.lines, h.home, hu]

theorem PerformFrame.performOut (h : PerformFrame p) (sent : ∀ s c, p (s.modCore c fun k => { k with out := [] }) = p s) (s : State)
    (c : Nat) : p (s.performOut c) = p s := by
  unfold State.performOut
  refine (foldl_keeps p _ (fun s e => ?_) _ _).trans (ite_keeps p rfl (sent ..))
  exact h.perform ..

theorem StoresFrame.performOne (h : StoresFrame p) (s : State) (w : Nat) : p (s.performOne w) = p s := by
  unfold State.performOne
  split
  · rfl
  · rw [h.perform, h.queue]

theorem StoresFrame.performAll (h : StoresFrame p) (s : State) (w : Nat) : p (s.performAll w) = p s := by
  unfold State.performAll
  rw [foldl_keeps p _ (fun s _ => h.performOne s w), h.performOut h.sent]

theorem StoresFrame.settleStores (h : StoresFrame p) (s : State) (k : Nat) : p (s.settleStores k) = p s := by
  unfold State.settleStores
  exact foldl_keeps p _ (fun s w => ite_keeps p (h.performAll s w) rfl) _ s

end frame

/-! Parts of the state that stand -/

@[simp] theorem l1Store_waves (s : State) (c : Nat) (bs : List (Nat × Byte)) : (s.l1Store c bs).waves = s.waves := ite_keeps State.waves rfl rfl
@[simp] theorem l1Store_groups (s : State) (c : Nat) (bs : List (Nat × Byte)) : (s.l1Store c bs).groups = s.groups := ite_keeps State.groups rfl rfl
@[simp] theorem l1Store_parts (s : State) (c : Nat) (bs : List (Nat × Byte)) : (s.l1Store c bs).parts = s.parts := ite_keeps State.parts rfl rfl

theorem frame_partCount : StoresFrame fun s => s.parts.length where
  marked _ _ _ := rfl
  scratch _ _ _ := rfl
  staged _ _ _ _ := rfl
  lost s k _ _ _ _ _ _ _ := List.length_set (as := s.parts) (i := k)
  home _ _ := rfl
  lines s c bs := congrArg List.length (l1Store_parts s c bs)
  sent _ _ := rfl
  queue _ _ _ := rfl

theorem frame_waveCount : StoresFrame fun s => s.waves.length where
  marked s w _ := modWave_length s w _
  scratch _ _ _ := rfl
  staged _ _ _ _ := rfl
  lost _ _ _ _ _ _ _ _ _ := rfl
  home _ _ := rfl
  lines s c bs := congrArg List.length (l1Store_waves s c bs)
  sent _ _ := rfl
  queue s w _ := modWave_length s w _

theorem frame_groupCount : StoresFrame fun s => s.groups.length where
  marked _ _ _ := rfl
  scratch s g _ := modGroup_length s g _
  staged s g _ _ := modGroup_length s g _
  lost _ _ _ _ _ _ _ _ _ := rfl
  home _ _ := rfl
  lines s c bs := congrArg List.length (l1Store_groups s c bs)
  sent _ _ := rfl
  queue _ _ _ := rfl

/-- A field of a wave that neither the end of an operation nor its queue of stores touches. -/
theorem frame_wave {β : Type} (p : Wave → β) (hm : ∀ x k, p (Wave.markReady x k []) = p x)
    (hq : ∀ (x : Wave) q, p { x with mem.storeQ := q } = p x) (v : Nat) : StoresFrame fun s => p (s.wave v) where
  marked s w k := wave_modWave_keeps p s w v (hm _ k)
  scratch _ _ _ := rfl
  staged _ _ _ _ := rfl
  lost _ _ _ _ _ _ _ _ _ := rfl
  home _ _ := rfl
  lines s c bs := by simp only [State.wave, l1Store_waves]
  sent _ _ := rfl
  queue s w q := wave_modWave_keeps p s w v (hq _ q)

end Sys2Proof.Proofs
end

section
/-! PROOF. Markers, the commands of the tier engine at issue, and the invalidation of translations (spec/13 R410, R411, R413 to
R418). -/

open Sys2Proof Sys2Proof.Machine Sys2Proof.Claims

namespace Sys2Proof.Proofs

/-! Markers -/

/-- What a copy other than a twin produces, it tells its twin and receives. -/
theorem forwarded_of {s u : State} {w : Nat} {f : Fwd} {produce : State → Nat → Eff (State × Fwd)} (hc : (s.waveGroup w).copy ≠ .twin)
    (hp : produce s w = .ok (u, f)) (receive : State → Nat → Fwd → Eff State) :
    forwarded s w produce receive = receive (told (s.wave w) u w f) w f := by
  rw [forwarded, if_neg (by simpa using hc), hp]
  rfl

theorem told_mode (x : Wave) (s : State) (w v : Nat) (f : Fwd) : ((told x s w f).wave v).tr.hm = (s.wave v).tr.hm := by
  unfold told
  split
  · exact wave_modWave_keeps (fun y => y.tr.hm) s _ v rfl
  · rfl

theorem followMarkers_wave (s : State) (l w : Nat) : (s.followMarkers l).wave w = s.wave w := by
  simp only [State.wave, followMarkers_waves]

/-- The trap that completes an instruction retires it where it enters its handler. -/
theorem trapDone_eq (s : State) (w : Nat) (t : TrapReq) :
    s.trapDone w t = if (s.wave w).tr.hm = false ∧ ((s.trapped w t).wave w).tr.hm = true
      then (s.trapped w t).countRetired w (s.wave w) else s.trapped w t := by
  simp only [State.trapDone, Bool.and_eq_true, Bool.not_eq_true']

/-- No ready marker reaches `m`. -/
def markMisses (s : State) (w m : Nat) : Bool :=
  match (s.waveLaunch w).readyMarker with
  | some r => decide (r < m)
  | none => true

/-- The marker has taken effect. -/
def markedAt (s : State) (w : Nat) (imm : BitVec 32) : State :=
  ((told (s.wave w) s w { val := 0, pred := markMisses s w imm.toNat, trap := none }).modGroup (s.wave w).id.group fun g =>
    { g with marker := imm }).followMarkers (s.wave w).id.launch

theorem markedAt_mode (s : State) (w : Nat) (imm : BitVec 32) : ((markedAt s w imm).wave w).tr.hm = (s.wave w).tr.hm := by
  rw [markedAt, followMarkers_wave]
  exact told_mode ..

/-- The trap of a mark that no ready marker reaches. -/
abbrev markTrap (imm : BitVec 32) : TrapReq := { code := 0x0E, addr := imm.zeroExtend 64, resume := true }

theorem forwarded_mark {s : State} {w : Nat} {imm : BitVec 32} (hc : (s.waveGroup w).copy ≠ .twin) :
    forwarded s w (fun s w => .ok (s, { val := 0, pred := markMisses s w imm.toNat, trap := none })) (fun s' w f =>
      let u := (s'.modGroup (s.wave w).id.group fun g => { g with marker := imm }).followMarkers (s.wave w).id.launch
      if f.pred then .error (.done (u.trapDone w (markTrap imm))) else .ok u) =
    if markMisses s w imm.toNat then .error (.done ((markedAt s w imm).trapDone w (markTrap imm))) else .ok (markedAt s w imm) :=
  forwarded_of (f := { val := 0, pred := _, trap := none }) hc rfl _

section mark
variable {s : State} {w : Nat} {imm : BitVec 32} (hw : s.running = some w)
include hw

section taken
variable (hc : (s.waveGroup w).copy ≠ .twin) (hm : (s.waveGroup w).marker.toNat ≤ imm.toNat)
include hc hm

theorem exec_mark_met (hr : markMisses s w imm.toNat = false) : exec (.mark imm) s = .next (completed s w (markedAt s w imm)) := by
  show execMark imm s = _
  refine issue_completes hw ?_
  simp only [demand_of (decide_eq_true hm), eff_ok_bind]
  exact (forwarded_mark hc).trans (by rw [hr, if_neg Bool.false_ne_true])

theorem exec_mark_missed (hr : markMisses s w imm.toNat = true) :
    exec (.mark imm) s = .next (
      let t := (markedAt s w imm).trapped w (markTrap imm)
      if (s.wave w).tr.hm = false ∧ (t.wave w).tr.hm = true then t.countRetired w ((markedAt s w imm).wave w) else t) := by
  show execMark imm s = _
  refine issue_done hw ?_
  simp only [demand_of (decide_eq_true hm), eff_ok_bind, ← markedAt_mode s w imm, ← trapDone_eq]
  exact (forwarded_mark hc).trans (by rw [hr, if_pos rfl])

end taken

theorem exec_mark_below (hm : imm.toNat < (s.waveGroup w).marker.toNat) : exec (.mark imm) s = .next (s.trapped w { code := 0x02 }) := by
  have no : decide ((s.waveGroup w).marker.toNat ≤ imm.toNat) = false := decide_eq_false (by omega)
  show execMark imm s = _
  exact issue_traps hw (demand_stops no ..)

end mark

/-! Commands of the tier engine at issue -/

/-- A command of a group other than a twin's goes on as far as it can at once. -/
theorem sendTier_of {s : State} {w : Nat} (hc : (s.waveGroup w).copy ≠ .twin) (hh : s.storesHeld w = false) (op : TOp) (o : Order) (sc : Scope) :
    sendTier op o sc s w = .ok ((tierSent s w op o sc).1.tierStep (tierSent s w op o sc).2) := by
  have go : ((s.waveGroup w).copy == .twin) = false := beq_eq_false_iff_ne.2 hc
  simp only [sendTier, go, demandSent_of hh, eff_ok_bind]
  rfl

section send
variable {s : State} {w : Nat} {a : BitVec 6} {b c : Opnd} {n off : Word} (hw : s.running = some w) (hcp : (s.waveGroup w).copy ≠ .twin)
  (hr : (s.wave w).outstanding .cp < 62) (hc : checkOps s w [(.s a, .onlyS), (b, .count), (c, .si)] = .ok ()) (hz : zeroImm c = true)
  (hn : uni1 s w b = .ok n) (ho : uniOf s w (s.wave w).exec 3 c = .ok off) (hh : s.storesHeld w = false) (h1 : 1 ≤ n.toNat)
include hw hcp hr hc hz hn ho hh h1

theorem exec_scrdl (o : Order) (sc : Scope) (h2 : n.toNat ≤ 4096) (h32 : (readS s w 1 a.toNat).toNat % 32 = 0) :
    let r := tierSent s w (.screed (readS s w 1 a.toNat) off n.toNat) o sc
    exec (.scrdl o sc (.s a) b c) s = .next (completed s w (r.1.tierStep r.2)) := by
  have ha : regOf (.s a) = a.toNat := rfl
  have many : (decide (1 ≤ n.toNat) && decide (n.toNat ≤ 4096)) = true := by simp [h1, h2]
  show execScrdl o sc (.s a) b c s = _
  refine issue_completes hw ?_
  simp only [hc, demand_of hz, hn, demand_of many, ha, demand_of (beq_iff_eq.2 h32), ho, roomFor_of hr, sendTier_of hcp hh, eff_ok_bind]

theorem exec_tierq (o : Order) (sc : Scope) (act : TierAct) {dn : BitVec 2} (hd : (s.part (s.wave w).id.part).dies.contains dn.toNat = true)
    (h2 : n.toNat < 2 ^ 32) (h64 : (readS s w 1 a.toNat).toNat % 0x10000 = 0) (h8 : off.toNat % 8 = 0)
    (h57 : (readS s w 1 a.toNat).toNat < 2 ^ 57) :
    let stamp := match c with
      | .imm _ => none
      | _ => some off
    let r := tierSent s w (.region act dn.toNat (readS s w 1 a.toNat) n.toNat stamp) o sc
    exec (.tierq o sc dn (.s a) b c act) s = .next (completed s w (r.1.tierStep r.2)) := by
  have ha : regOf (.s a) = a.toNat := rfl
  have many : (decide (1 ≤ n.toNat) && decide (n.toNat < 2 ^ 32)) = true := by rw [decide_eq_true h1, decide_eq_true h2]; rfl
  show execTierq o sc dn (.s a) b c act s = _
  refine issue_completes hw ?_
  simp only [hc, demand_of hz, demand_of hd, hn, demand_of many, ha, ho, demand_of (beq_iff_eq.2 h64), demand_of (beq_iff_eq.2 h8),
    demand_of (decide_eq_true h57), roomFor_of hr, sendTier_of hcp hh, eff_ok_bind] <;> rfl

end send

/-! Screeds and regions in the tier engine -/

/-- A launch that holds a screed reads none: the one held changes nothing, another is refused. -/
theorem takeScreed_held {s : State} {c : TCmd} {va off : Word} {n : Nat} {z : Screed} (h : (s.launch (s.wave c.wave).id.launch).screed = some z) :
    s.takeScreed c va off n = some (s, if z.addr = va ∧ z.n = n ∧ z.off = off then 0 else 2) := by
  simp only [State.takeScreed, h, Bool.and_eq_true, beq_iff_eq, and_assoc]

/-- The tier engine of the launch's owning die, which reads a command's table. -/
abbrev tableIssuer (s : State) (c : TCmd) : Issuer :=
  { wave := c.wave, group := c.group, o := c.o, sc := c.sc, num := c.num, origin := c.origin, die := some (s.owningDie (s.wave c.wave).id.launch) }

section table
variable {s u : State} {c : TCmd} {va off : Word} {n : Nat} {bs : List (List Byte)} (h : (s.launch (s.wave c.wave).id.launch).screed = none)
  (hr : engReads (tableIssuer s c) s ((List.range n).map fun i => ((va + BitVec.ofNat 64 (32 * i)).toNat, 32)) = .ok (u, bs))
include h hr

theorem takeScreed_invalid (hes : none ∈ bs.map (SEntry.ofBytes (u.part (s.wave c.wave).id.part).dies off)) :
    s.takeScreed c va off n = some (u, 2) := by
  have bad : (!(bs.map (SEntry.ofBytes (u.part (s.wave c.wave).id.part).dies off)).all Option.isSome) = true := by
    simpa using hes
  simp only [State.takeScreed, h, hr, bad, if_true]

theorem takeScreed_valid (hes : none ∉ bs.map (SEntry.ofBytes (u.part (s.wave c.wave).id.part).dies off)) :
    s.takeScreed c va off n = some ((u.modLaunch (s.wave c.wave).id.launch fun l => { l with screed := some {
      addr := va, n := n, off := off,
      entries := (bs.map (SEntry.ofBytes (u.part (s.wave c.wave).id.part).dies off)).filterMap id } }).startEntries (s.wave c.wave).id.launch, 0) := by
  have good : (!(bs.map (SEntry.ofBytes (u.part (s.wave c.wave).id.part).dies off)).all Option.isSome) = false := by
    simp only [Bool.not_eq_false', List.all_eq_true]
    intro e he
    exact Option.isSome_iff_ne_none.2 fun hn => hes (hn ▸ he)
  simp only [State.takeScreed, h, hr, good, Bool.false_eq_true, if_false]

end table

/-- A request without a stamp is complete. -/
theorem endRegion_bare {c : TCmd} (ht : c.twin = none) (s : State) (st : BitVec 8) : s.endRegion c st none = tierAnswered s c st [] :=
  endTier_eq ht ..

theorem stampFor_eq (s : State) (g d p c : Nat) (direct : Bool) (w : Nat) (o : Order) (sc : Scope) (by_ : Origin) (va : Word) (st : BitVec 8) :
    s.stampFor g d p c direct w o sc by_ va st =
      let q := s.putStamp g d p c direct va st
      (match q.2 with
        | .ok _ => q.1.raceEngine w { kind := .stamp, acq := false, rel := Order.releases o, sc := sc } by_ [(va.toNat, 8)]
        | .error _ => q.1, q.2) := by
  unfold State.stampFor
  generalize s.putStamp g d p c direct va st = q
  obtain ⟨u, r⟩ := q
  cases r <;> rfl

/-- A request's stamp is written in every copy, and the race detector sees the one of the primary. -/
theorem endRegion_stamp {s : State} {c : TCmd} (ht : c.twin = none) {a : Word} (st : BitVec 8)
    (hw : s.stampWaits c.group (s.waveDie c.wave) (s.wave c.wave).id.part (s.wave c.wave).id.ctx a = false) :
    let id := (s.wave c.wave).id
    let d := s.waveDie c.wave
    let p := s.putStamp c.group d id.part id.ctx false a st
    let y : State := match p.2 with
      | .ok _ => p.1.raceEngine c.wave { kind := .stamp, acq := false, rel := Order.releases c.o, sc := c.sc } c.origin [(a.toNat, 8)]
      | .error _ => p.1
    let both := (match (y.group c.group).sibling with
      | some t => (y.putStamp t d id.part id.ctx false a st).1
      | none => y).releaseDone c.group c.o c.sc
    s.endRegion c st (some a) = tierAnswered both c (match p.2 with
      | .ok _ => st
      | .error e => lowestStatus st e) [] := by
  intro id d p y both
  simp only [State.endRegion, hw, Bool.false_eq_true, if_false, stampFor_eq, endTier_eq ht]
  rfl

end Sys2Proof.Proofs
end

section
/-! PROOF. The invalidation of translations by a shootdown that nothing keeps waiting, and the instructions of the tier engine
together (spec/13 R410, R411, R413 to R418). -/

open Sys2Proof Sys2Proof.Machine Sys2Proof.Claims

namespace Sys2Proof.Proofs

/-! A shootdown that finds no other and waits for nothing -/

@[simp] theorem modPart_modPart (s : State) (p : Nat) (f g : Partition → Partition) (h : p < s.parts.length) :
    (s.modPart p f).modPart p g = s.modPart p fun x => g (f x) := by
  rw [State.modPart, part_modPart_same s p f h]
  simp only [State.modPart, State.setPart, List.set_set]

/-- What a shootdown in flight is when it has taken its place behind none. -/
def arrivedShoot (s : State) (p : Nat) (k : ShootKind) : State :=
  s.modPart p fun x => { x with nextShoot := x.nextShoot + 1, shoots := [{ seq := x.nextShoot, what := k, frames := none, evict := none }] }

theorem dropping_parts (s : State) (p : Nat) (k : ShootKind) : (dropping s p k none).parts.length = s.parts.length :=
  (frame_partCount.settleStores (arrivedShoot s p k) p).trans (modPart_length s p _)

section alone
variable {s : State} {p : Nat} {k : ShootKind} (hp : p < s.parts.length) (hs : (s.part p).shoots = [])
  (hq : ∀ q ∈ dropped s p k none, (dropping s p k none).oldIn p q.1 q.2 = false)
include hp hs

omit hs in
theorem arrivedShoot_shoots : ((arrivedShoot s p k).part p).shoots =
    [{ seq := (s.part p).nextShoot, what := k, frames := none, evict := none }] := by
  rw [arrivedShoot, part_modPart_same s p _ hp]

omit hp in
theorem arrivedShoot_eq : (s.modPart p fun x => { x with
      nextShoot := (s.part p).nextShoot + 1
      shoots := x.shoots ++ [{ seq := (s.part p).nextShoot, what := k, frames := none, evict := none }] }) = arrivedShoot s p k := by
  simp only [arrivedShoot, State.modPart, hs, List.nil_append]

include hq

omit hs in
/-- With no shootdown before it and nothing in flight that it waits for, a shootdown is over at once. -/
theorem advanceShoots_alone : (arrivedShoot s p k).advanceShoots p = (dropping s p k none).modPart p fun y => { y with shoots := [] } := by
  have hl : p < (dropping s p k none).parts.length := by rw [dropping_parts]; exact hp
  have quiet : ((dropped s p k none).any fun q => (dropping s p k none).oldIn p q.1 q.2) = false := List.any_eq_false.2 fun q hm => by
    rw [hq q hm]; exact Bool.false_ne_true
  have ends : ∀ fs : List (Nat × Nat), ((fs.any fun q => (dropping s p k none).oldIn p q.1 q.2) = false) →
      State.settleShoots p 1 ((dropping s p k none).modPart p fun y => { y with
        shoots := [{ seq := (s.part p).nextShoot, what := k, frames := some fs, evict := none }] }) =
      (dropping s p k none).modPart p fun y => { y with shoots := [] } := by
    intro fs hfs
    have keep : ∀ q : Nat × Nat, ((dropping s p k none).modPart p fun y => { y with
        shoots := [{ seq := (s.part p).nextShoot, what := k, frames := some fs, evict := none }] }).oldIn p q.1 q.2 =
        (dropping s p k none).oldIn p q.1 q.2 := fun _ => rfl
    simp only [State.settleShoots, part_modPart_same _ p _ hl, keep, hfs, State.endShoot, modPart_modPart _ _ _ _ hl, Option.any_none,
      Bool.or_false, Bool.false_eq_true, if_false]
  rw [State.advanceShoots, arrivedShoot_shoots hp]
  show State.settleShoots p 2 _ = _
  simp only [State.settleShoots, arrivedShoot_shoots hp]
  exact ends _ quiet

theorem startShoot_alone : s.startShoot p k = ((dropping s p k none).modPart p fun y => { y with shoots := [] }, none) := by
  have hl : p < (dropping s p k none).parts.length := by rw [dropping_parts]; exact hp
  have done : ((dropping s p k none).modPart p fun y => { y with shoots := [] }).shootOpen p (s.part p).nextShoot = false := by
    rw [State.shootOpen, part_modPart_same _ p _ hl]; rfl
  simp only [State.startShoot, arrivedShoot_eq hs, advanceShoots_alone hp hq, done, Bool.false_eq_true, if_false]

end alone

section tlbinv
variable {s : State} {w : Nat} (hw : s.running = some w)
include hw

section privileged
variable (hpv : (s.waveCtx w).priv = true) (hp : (s.wave w).id.part < s.parts.length) (hn : (s.wave w).sch.shoot = none)
include hpv hp hn

omit hw hpv in
theorem invalidate_of {k : ShootKind} (hq : quietAfter s (s.wave w).id.part k none) :
    invalidate s w k = .ok ((dropping s (s.wave w).id.part k none).modPart (s.wave w).id.part fun y => { y with shoots := [] }) := by
  simp only [invalidate, hn, startShoot_alone hp hq.1 hq.2]

theorem exec_tlbinvAll (hq : quietAfter s (s.wave w).id.part .all none) :
    exec .tlbinvAll s = .next (completed s w ((dropping s (s.wave w).id.part .all none).modPart (s.wave w).id.part fun y => { y with shoots := [] })) := by
  show execTlbinvAll s = _
  refine issue_completes hw ?_
  simp only [demandPriv, demand_of hpv, eff_ok_bind, invalidate_of hp hn hq]

section context
variable {a : BitVec 6} {b : Opnd} {n : Word} (hu : uni1 s w b = .ok n)
  (hx : n.toNat < 64 ∧ (s.ctx (s.wave w).id.part n.toNat).active = true)
include hu hx

omit hw hpv hp hn hu in
theorem demandCtx_of (b : Opnd) : demandCtx s w n b = .ok () := demand_of (by rw [decide_eq_true hx.1, hx.2]; rfl) ..

theorem exec_tlbinvCtx (hc : checkOps s w [(b, .si)] = .ok ()) (hq : quietAfter s (s.wave w).id.part (.ctx n.toNat) none) :
    exec (.tlbinvCtx b) s = .next (completed s w ((dropping s (s.wave w).id.part (.ctx n.toNat) none).modPart (s.wave w).id.part fun y =>
      { y with shoots := [] })) := by
  show execTlbinvCtx b s = _
  refine issue_completes hw ?_
  simp only [demandPriv, demand_of hpv, hc, hu, demandCtx_of hx, eff_ok_bind, invalidate_of hp hn hq]

theorem exec_tlbinvPage (hc : checkOps s w [(.s a, .onlyS), (b, .si)] = .ok ()) (h57 : (readS s w 1 a.toNat).toNat < 2 ^ 57)
    (hq : quietAfter s (s.wave w).id.part (.page n.toNat (readS s w 1 a.toNat).toNat) none) :
    exec (.tlbinvPage (.s a) b) s = .next (completed s w ((dropping s (s.wave w).id.part (.page n.toNat (readS s w 1 a.toNat).toNat) none).modPart
      (s.wave w).id.part fun y => { y with shoots := [] })) := by
  have ha : regOf (.s a) = a.toNat := rfl
  show execTlbinvPage (.s a) b s = _
  refine issue_completes hw ?_
  simp only [demandPriv, demand_of hpv, hc, hu, demandCtx_of hx, ha, demand_of (decide_eq_true h57), eff_ok_bind, invalidate_of hp hn hq]

end context
end privileged

end tlbinv

/-! Commands that nothing keeps back -/

section fresh
variable {s : State} {c : TCmd} (hb : c.begun = none) (ht : c.twin = none) (he : s.engineHeld c.group = false)
  (ha : s.acquireWaits c.wave c.key c.o = false)
include hb ht he ha

section screed
variable {va off : Word} {n : Nat} (hop : c.op = .screed va off n)
include hop

theorem tierStep_screed_of {u : State} {st : BitVec 8} (h : s.takeScreed c va off n = some (u, st)) :
    s.tierStep c = tierAnswered u c st [] := by
  rw [tierStep_screed hb he ha hop, h]
  exact endTier_eq ht ..

end screed

section region
variable {act : TierAct} {d n : Nat} {va : Word} {stamp : Option Word} (hop : c.op = .region act d va n stamp)
  (hr : s.regionHeld act (s.wave c.wave).id.part (s.wave c.wave).id.ctx d va.toNat n = false)
include hop hr

/-- The request has begun: its region's pages are acted on. -/
abbrev regionBegun (s : State) (c : TCmd) (act : TierAct) (d va n : Nat) : State × TCmd :=
  let q := s.overRegion act (s.wave c.wave).id.part (s.wave c.wave).id.ctx d va n
  tierBegun q.1 (s.wave c.wave).id.part c q.2.1 q.2.2

omit ht in
/-- A request that waits for shootdowns has begun. -/
theorem tierStep_region_waits (hq : (s.overRegion act (s.wave c.wave).id.part (s.wave c.wave).id.ctx d va.toNat n).2.2 ≠ []) :
    s.tierStep c = (regionBegun s c act d va.toNat n).1 := by
  rw [tierStep_region hb he ha hop hr]
  exact if_neg (by simpa using hq)

section ends
variable (hq : (s.overRegion act (s.wave c.wave).id.part (s.wave c.wave).id.ctx d va.toNat n).2.2 = [])
include hq

omit ht in
theorem tierStep_region_ends :
    s.tierStep c = (regionBegun s c act d va.toNat n).1.endRegion (regionBegun s c act d va.toNat n).2
      (s.overRegion act (s.wave c.wave).id.part (s.wave c.wave).id.ctx d va.toNat n).2.1 stamp := by
  rw [tierStep_region hb he ha hop hr]
  exact if_pos (List.isEmpty_iff.2 hq)

theorem tierStep_region_bare (hst : stamp = none) :
    s.tierStep c = tierAnswered (regionBegun s c act d va.toNat n).1 (regionBegun s c act d va.toNat n).2
      (s.overRegion act (s.wave c.wave).id.part (s.wave c.wave).id.ctx d va.toNat n).2.1 [] := by
  rw [tierStep_region_ends hb he ha hop hr hq, hst]
  exact endRegion_bare (c := (regionBegun s c act d va.toNat n).2) ht ..

theorem tierStep_region_stamped {a : Word} (hst : stamp = some a) :
    let st := (s.overRegion act (s.wave c.wave).id.part (s.wave c.wave).id.ctx d va.toNat n).2.1
    let v := regionBegun s c act d va.toNat n
    v.1.stampWaits c.group (v.1.waveDie c.wave) (v.1.wave c.wave).id.part (v.1.wave c.wave).id.ctx a = false →
      let id := (v.1.wave c.wave).id
      let e := v.1.waveDie c.wave
      let p := v.1.putStamp c.group e id.part id.ctx false a st
      let y : State := match p.2 with
        | .ok _ => p.1.raceEngine c.wave { kind := .stamp, acq := false, rel := Order.releases c.o, sc := c.sc } c.origin [(a.toNat, 8)]
        | .error _ => p.1
      let both := (match (y.group c.group).sibling with
        | some t => (y.putStamp t e id.part id.ctx false a st).1
        | none => y).releaseDone c.group c.o c.sc
      s.tierStep c = tierAnswered both v.2 (match p.2 with
        | .ok _ => st
        | .error f => lowestStatus st f) [] := by
  intro st v hw
  rw [tierStep_region_ends hb he ha hop hr hq, hst]
  exact endRegion_stamp (c := v.2) ht st hw

end ends
end region
end fresh

/-- Settles O35: marks by their two outcomes, scrdl and tierq by what the tier engine does with the command sent, tlbinv by a shootdown
that is over at once. -/
theorem tierInstructionsComplete : Obligations.TierInstructionsComplete := by
  intro s u w imm o sc dn act a b c n off bs hw hcp x va
  refine ⟨fun hm => ?_, exec_mark_below hw, fun hr hc hz hn ho hh => ⟨fun h1 h2 h32 => ⟨exec_scrdl hw hcp hr hc hz hn ho hh h1 o sc h2 h32,
    fun he ha => ?_⟩,
    fun hd h1 h2 h64 h8 h57 => ⟨exec_tierq hw hcp hr hc hz hn ho hh h1 o sc act hd h2 h64 h8 h57,
      fun he ha hrh => ?_⟩⟩,
    fun hpv hp hno => ⟨fun hc hu hx h57 hq => exec_tlbinvPage hw hpv hp hno hu hx hc h57 hq, fun hc hu hx hq => exec_tlbinvCtx hw hpv hp hno hu hx hc hq,
      exec_tlbinvAll hw hpv hp hno⟩,
    fun hpv => ?_⟩
  · intro miss r t
    cases hmiss : markMisses s w imm.toNat with
    | true => exact (exec_mark_missed hw hcp hm hmiss).trans (congrArg Host.Outcome.next (if_pos hmiss).symm)
    | false => exact (exec_mark_met hw hcp hm hmiss).trans (congrArg Host.Outcome.next (if_neg (Bool.eq_false_iff.1 hmiss)).symm)
  · have step := @tierStep_screed_of _ (tierSent s w (.screed va off n.toNat) o sc).2 rfl rfl he ha va off n.toNat rfl
    exact ⟨fun z hz => step (takeScreed_held hz), fun hno hrd => ⟨fun hes => step (takeScreed_invalid hno hrd hes),
      fun hes => step (takeScreed_valid hno hrd hes)⟩⟩
  · intro q v
    exact ⟨fun hq => tierStep_region_waits (c := (tierSent s w _ o sc).2) rfl he ha rfl hrh hq,
      fun hq => ⟨tierStep_region_bare (c := (tierSent s w _ o sc).2) rfl rfl he ha rfl hrh hq,
        tierStep_region_stamped (c := (tierSent s w _ o sc).2) rfl rfl he ha rfl hrh hq⟩⟩
  · refine ⟨?_, ?_, ?_⟩
    · show execTlbinvPage (.s a) b s = _
      exact issue_traps hw (demand_stops hpv ..)
    · show execTlbinvCtx b s = _
      exact issue_traps hw (demand_stops hpv ..)
    · show execTlbinvAll s = _
      exact issue_traps hw (demand_stops hpv ..)

end Sys2Proof.Proofs
end

section
/-! PROOF. Memory instructions come to their accesses, and loads bring their lanes by one LD operation (spec/04 R141, R144 to R146). -/

open Sys2Proof Sys2Proof.Machine Sys2Proof.Claims

namespace Sys2Proof.Proofs

/-! The shape of a memory instruction -/

theorem lanesActive_exec (s : State) (w : Nat) (g : Guards) : lanesActive s w (s.wave w).exec g = activeMask s w g := rfl

theorem baseOk_eq (s : State) (w : Nat) (a : Opnd) : baseOk s w a = if isV a then s.evenPair w a else true := by
  unfold baseOk
  cases isV a <;> rfl

section issue
variable {s : State} {w : Nat} {g : Guards} {c : Cls} (hw : s.running = some w) (hm : activeMask s w g ≠ 0)
  (hr : (s.wave w).outstanding c < 62)
include hw hm hr

/-- A memory instruction whose act passes leaves what the act does, its operation counted. -/
theorem memIssue_of {act : Mask → State → Nat → Eff MemOut} {o : MemOut} (ha : act (s.wave w).exec s w = .ok o) :
    memIssue s g c act = .next (completed s w (countMem w o)) := by
  have some_ : (activeMask s w g != 0) = true := bne_iff_ne.2 hm
  refine issue_completes hw ?_
  simp only [some_, if_true, roomFor_of hr, ha, eff_ok_bind, eff_pure]

end issue

theorem mask_nonzero {m : Mask} (h : m ≠ 0) : (m == 0) = false := beq_eq_false_iff_ne.2 h

theorem acquiresWide_iff (o : Order) (sc : Scope) :
    (Order.acquires o && Scope.wide sc) = true ↔ (o = .acq ∨ o = .ar) ∧ sc ≠ .wave ∧ sc ≠ .core := by
  cases o <;> cases sc <;> decide

/-! What a load brings -/

theorem placeBytes_locs (p : Places) (n : Nat) : placeBytes p.locs n = laneBytesAt p.at_ n := by
  rw [placeBytes, Places.locs, List.flatMap_map]
  rfl

theorem loadMd_eq (wd : Width) : loadMd wd = widthMd wd := by cases wd <;> rfl

theorem loadValue_eq (s : State) (w n : Nat) (sgn : Bool) (l : Loc) : loadValue s w n sgn l = placeValue s w n sgn l := by
  simp only [loadValue, placeValue, wrapTo, BitVec.toNat_ofInt]

/-- What a load keeps for its lanes, as it is looked up. -/
theorem find_loadValue (v : State) (w n : Nat) (sgn : Bool) (at_ : List (Nat × Nat × Loc)) (i : Nat) :
    ((at_.map fun q => (q.1, loadValue v w n sgn q.2.2)).find? fun q => q.1 == i) =
      (at_.find? fun q => q.1 == i).map fun q => (q.1, placeValue v w n sgn q.2.2) := by
  simp only [loadValue_eq]
  exact List.find?_map ..

/-- A load counts one LD operation with its lanes' registers. -/
theorem countMem_loadLanes (v : State) (w : Nat) (p : Places) (m : Mask) (d : Opnd) (n regs : Nat) (sgn : Bool) (md : BitVec 32 × BitVec 32) :
    countMem w (loadLanes w { p with s := v } m d n regs sgn md.1 md.2) = brings v w
      (groupDests (regOf d) regs (v.wave w).id.width m md.1 md.2 (p.at_.any fun q => v.deadPlace w q.2.2 n) (loaded v w p.at_ n sgn)) := by
  have same : (fun l => match (p.at_.map fun q => (q.1, loadValue v w n sgn q.2.2)).find? fun q => q.1 == l with
      | some q => q.2
      | none => 0) = loaded v w p.at_ n sgn := by
    funext l
    rw [find_loadValue, loaded]
    cases p.at_.find? fun q => q.1 == l <;> rfl
  exact congrArg (fun f => brings v w (groupDests (regOf d) regs (v.wave w).id.width m md.1 md.2 _ f)) same

section load
variable {s u : State} {w : Nat} {g : Guards} {o : Order} {sc : Scope} {d : BitVec 6} {a b : Opnd} {p : Places}

/-- ld and ldt, by the bytes and registers of a lane. -/
theorem loadIssue_of {n regs : Nat} (sgn : Bool) (md : BitVec 32 × BitVec 32)
    (hp : pipeReady s w g .ld [(.v d, .onlyV), (a, .sv), (b, .onlyImm)] (s.fits w (.v d) regs && if isV a then s.evenPair w a else true) (baseRegs a))
    (hl : resolveLanes s w true (laneAddrs s w (activeMask s w g) a b n) n n .load = .ok p)
    (hu : readsHome p.s u w sc { kind := .load, acq := Order.acquires o, rel := false, sc := sc } (p.accesses n)) :
    let v := u.l1Load w sc (Order.acquires o) (laneBytesAt p.at_ n)
    memIssue s g .ld (loadAt g o sc (.v d) a b n regs sgn md.1 md.2) = .next (completed s w (brings v w
      (groupDests d.toNat regs (v.wave w).id.width (activeMask s w g) md.1 md.2 (p.at_.any fun q => v.deadPlace w q.2.2 n) (loaded v w p.at_ n sgn)))) := by
  obtain ⟨hw, hm, hr, hc, hf, hd⟩ := hp
  obtain ⟨h, hh, hrace⟩ := hu
  rw [← baseOk_eq] at hf
  intro v
  refine (memIssue_of hw hm hr ?_).trans (congrArg (fun t => Host.Outcome.next (completed s w t)) (countMem_loadLanes v w p _ (.v d) n regs sgn md))
  simp only [loadAt, hc, demand_of hf, lanesActive_exec, mask_nonzero hm, hd, hl, hh, hrace, placeBytes_locs, eff_ok_bind, eff_pure,
    Bool.false_eq_true, if_false]
  rfl

theorem exec_lds {wd : Width} (hp : pipeReady s w g .ld [(.v d, .onlyV), (a, { v := true, s := true, lane := true }), (b, .onlyImm)]
      (s.fits w (.v d) (widthRegs wd)) (if isV a then [a] else []))
    (hl : resolveOffsets s w (laneOffsets s w (activeMask s w g) a b (widthBytes wd)) (widthBytes wd) = .ok p) :
    let v := if (o = .acq ∨ o = .ar) ∧ sc ≠ .wave ∧ sc ≠ .core then p.s.l1Clear (s.wave w).id.core else p.s
    exec (.lds g o sc (.v d) a b wd) s = .next (completed s w (brings v w
      (groupDests d.toNat (widthRegs wd) (v.wave w).id.width (activeMask s w g) (widthMd wd).1 (widthMd wd).2
        (p.at_.any fun q => v.deadPlace w q.2.2 (widthBytes wd)) (loaded v w p.at_ (widthBytes wd) (widthSigned wd))))) := by
  obtain ⟨hw, hm, hr, hc, hf, hd⟩ := hp
  intro v
  show memIssue s g .ld (ldsAt g o sc (.v d) a b wd) = _
  refine (memIssue_of hw hm hr ?_).trans (congrArg (fun t => Host.Outcome.next (completed s w t))
    (countMem_loadLanes v w p _ (.v d) (widthBytes wd) (widthRegs wd) (widthSigned wd) (widthMd wd)))
  simp only [ldsAt, hc, demand_of hf, lanesActive_exec, mask_nonzero hm, hd, hl, acquiresWide_iff, loadMd_eq, eff_ok_bind, eff_pure,
    Bool.false_eq_true, if_false]
  rfl

theorem exec_ldb {ev : BitVec 3} {c : Opnd} {k : Word} (hp : pipeReady s w g .ld [(.v d, .onlyV), (a, .onlyS), (b, .onlyImm), (c, .count)] true [c])
    (hk : uniOf s w (activeMask s w g) 3 c = .ok k) (hkW : k.toNat ≤ (s.wave w).id.width) (hW : (s.wave w).id.width ≤ 1024)
    (hl : limbPlaces s w a b k.toNat .load = .ok p)
    (hu : readsHome p.s u w sc { kind := .load, acq := Order.acquires o, rel := false, sc := sc } (p.accesses 4)) :
    let v := u.l1Load w sc (Order.acquires o) (laneBytesAt p.at_ 4)
    let vals := p.at_.map fun q => placeValue v w 4 false q.2.2
    let W := (s.wave w).id.width
    let len := ((vals.zipIdx).filter fun q => q.1 != 0).foldl (fun acc q => max acc (q.2 + 1)) 0
    exec (.ldb g o sc ev (.v d) a b c) s = .next (completed s w (brings v w [.v d.toNat (allLanes W)
      ((List.range W).map fun i => BitVec.ofNat 32 (vals.getD i 0)) 0 (mkMd .limb len false (p.at_.any fun q => v.deadPlace w q.2.2 4) 0)])) := by
  obtain ⟨hw, hm, hr, hc, -, hd⟩ := hp
  obtain ⟨h, hh, hrace⟩ := hu
  have int : k.toInt = k.toNat := BitVec.toInt_eq_toNat_of_lt (by omega)
  have fits : (decide (0 ≤ k.toInt) && decide (k.toInt ≤ ((s.wave w).id.width : Int))) = true := by
    rw [int, decide_eq_true (Int.natCast_nonneg _), decide_eq_true (Int.ofNat_le.2 hkW)]; rfl
  intro v vals W len
  show execLdb g o sc ev (.v d) a b c s = _
  refine memIssue_of (o := { s := v, op := some (.ld, _) }) hw hm hr ?_
  simp only [hc, lanesActive_exec, mask_nonzero hm, hd, hk, demand_of fits, hl, hh, hrace, placeBytes_locs, loadValue_eq, eff_ok_bind,
    eff_pure, Bool.false_eq_true, if_false]
  rfl

end load

/-- Settles O21: the four loads, each by the lanes it brings. -/
theorem loadsComplete : Obligations.LoadsComplete := by
  intro s u w g o sc ev d a b c wd t p k m n regs base how met out
  refine ⟨fun hp hl hu => ?_, fun hp hl hu => ?_, fun hp hl => exec_lds hp hl, fun hp hk hkW hW hl hu => exec_ldb hp hk hkW hW hl hu⟩
  · show memIssue s g .ld (ldAt g o sc (.v d) a b wd) = _
    rw [ldAt, loadMd_eq]
    exact loadIssue_of (widthSigned wd) (widthMd wd) hp hl hu
  · exact loadIssue_of false (0, tagMd t) hp hl hu

end Sys2Proof.Proofs
end

section
/-! PROOF. What the performance of one store does, and the two events that perform stores and complete operations (spec/01 R19 to R21,
spec/04 R142, R168, R169). -/

open Sys2Proof Sys2Proof.Machine Sys2Proof.Claims

namespace Sys2Proof.Proofs

/-! Bytes written together -/

/-- After a write of several bytes each address reads the newest value written to it. -/
theorem read_writeAll {m : Memory} (h : m.wf = true) (bs : List (Nat × Byte)) (a : Nat) :
    (m.writeAll bs).read a = ((bs.reverse.find? fun c => c.1 == a).map fun c => c.2).getD (m.read a) := by
  induction bs using List.reverseRecOn with
  | nil => rfl
  | append_singleton bs c ih =>
    have e : m.writeAll (bs ++ [c]) = (m.writeAll bs).write c.1 c.2 := by simp [Memory.writeAll]
    rw [e, Memory.read_write (Memory.writeAll_wf h bs), ih, List.reverse_append, List.reverse_singleton, List.singleton_append, List.find?_cons]
    by_cases hc : a = c.1
    · simp [hc]
    · have no : (c.1 == a) = false := beq_eq_false_iff_ne.2 (Ne.symm hc)
      simp [hc, no]

/-! One store -/

/-- The operation that a store completes is ready. -/
def readied (s : State) (w : Nat) (q : QStore) : State :=
  match q.key with
  | some k => s.modWave w fun x => x.markReady k []
  | none => s

section readied
variable (s : State) (w : Nat) (q : QStore)

@[simp] theorem readied_mem : (readied s w q).mem = s.mem := by unfold readied; split <;> rfl
@[simp] theorem readied_staged (g : Nat) : (readied s w q).staged g = s.staged g := by unfold readied; split <;> rfl
@[simp] theorem readied_reach (d a : Nat) : (readied s w q).reach d a = s.reach d a := by unfold readied; split <;> rfl

/-- A field of a wave that the end of an operation does not touch. -/
theorem readied_wave {β : Type} (p : Wave → β) (hp : ∀ x k, p (Wave.markReady x k []) = p x) (v : Nat) :
    p ((readied s w q).wave v) = p (s.wave v) := by
  unfold readied
  split
  · exact wave_modWave_keeps p s w v (hp _ _)
  · rfl

@[simp] theorem readied_waveDie : (readied s w q).waveDie w = s.waveDie w := by
  have cores : (readied s w q).cores = s.cores := by unfold readied; split <;> rfl
  simp only [State.waveDie, State.dieOfCore, State.core, cores, readied_wave s w q (fun x => x.id.core) fun _ _ => rfl]

/-- The operation of a store that completes it is ready in its wave. -/
theorem readied_ready (hw : w < s.waves.length) {k : Nat} (hk : q.key = some k) {e : Pend} (he : e ∈ ((readied s w q).wave w).mem.outst)
    (hek : e.key = k) : e.ready = true := by
  simp only [readied, hk, wave_modWave_same s w _ hw, Wave.markReady, List.mem_map] at he
  obtain ⟨a, -, rfl⟩ := he
  by_cases ha : a.key = k
  · simp [ha]
  · simp [ha] at hek

end readied

/-- A store of a plain group goes to its home points, but for what a broken link loses. -/
def sentHome (u : State) (w : Nat) (q : QStore) : State :=
  let through := q.bytes.filter fun c => u.reach (u.waveDie w) c.1 != Reach.broken
  let v := if through.length == q.bytes.length then u
    else u.addError (u.wave w).id.part 3 0 (u.globalId w) (u.wave w).hdr 0 0 (BitVec.ofNat 64 ((q.bytes.headD (0, 0)).1))
  (v.writeMem through).l1Store (v.wave w).id.core through

theorem sentHome_waves (u : State) (w : Nat) (q : QStore) : (sentHome u w q).waves = u.waves := by
  unfold sentHome
  rw [l1Store_waves, writeMem_waves]
  exact ite_keeps State.waves rfl rfl

theorem sentHome_mem {u : State} {w : Nat} {q : QStore} (hr : ∀ c ∈ q.bytes, u.reach (u.waveDie w) c.1 ≠ Reach.broken) :
    (sentHome u w q).mem = u.mem.writeAll q.bytes := by
  have all : (q.bytes.filter fun c => u.reach (u.waveDie w) c.1 != Reach.broken) = q.bytes :=
    List.filter_eq_self.2 fun c hc => bne_iff_ne.2 (hr c hc)
  rw [sentHome, all, beq_self_eq_true, if_pos rfl, l1Store_mem, writeMem_mem]

section perform
variable {s : State} {w : Nat} {q : QStore}

theorem perform_scratch (hq : q.sp = true) :
    s.perform w q = (readied s w q).modGroup (s.wave w).id.group fun x => x.spWrite q.bytes := if_pos hq

theorem perform_staged (hq : q.sp = false) (hs : s.staged (s.wave w).id.group = true) :
    s.perform w q = (readied s w q).modGroup (s.wave w).id.group fun x =>
      { x.stage q.bytes with stagedOld := x.stagedOld ++ if q.old then q.bytes.map fun c => c.1 else [] } :=
  (if_neg (by rw [hq]; exact Bool.false_ne_true)).trans (if_pos ((readied_staged s w q _).trans hs))

theorem perform_home (hq : q.sp = false) (hs : s.staged (s.wave w).id.group = false) :
    s.perform w q = sentHome (readied s w q) w q :=
  (if_neg (by rw [hq]; exact Bool.false_ne_true)).trans (if_neg (by rw [Bool.not_eq_true]; exact (readied_staged s w q _).trans hs))

variable (s w q)

/-- Of the waves a store changes only the operation that it completes. -/
theorem perform_waves : (s.perform w q).waves = (readied s w q).waves := by
  by_cases hq : q.sp = true
  · rw [perform_scratch hq, modGroup_waves]
  · by_cases hs : s.staged (s.wave w).id.group = true
    · rw [perform_staged (Bool.eq_false_iff.2 hq) hs, modGroup_waves]
    · rw [perform_home (Bool.eq_false_iff.2 hq) (Bool.eq_false_iff.2 hs), sentHome_waves]

theorem perform_wave (v : Nat) : (s.perform w q).wave v = (readied s w q).wave v := by simp only [State.wave, perform_waves]

end perform

/-! The oldest store of a wave -/

/-- The store is taken off the queue. -/
abbrev dequeued (s : State) (w : Nat) (rest : List QStore) : State := s.modWave w fun x => { x with mem.storeQ := rest }

theorem performOne_cons {s : State} {w : Nat} {q : QStore} {rest : List QStore} (h : (s.wave w).mem.storeQ = q :: rest) :
    s.performOne w = (dequeued s w rest).perform w q := by
  rw [State.performOne, h]

theorem frame_storeQ (v : Nat) : PerformFrame fun s => (s.wave v).mem.storeQ where
  marked s w _ := wave_modWave_keeps (fun x => x.mem.storeQ) s w v rfl
  scratch _ _ _ := rfl
  staged _ _ _ _ := rfl
  lost _ _ _ _ _ _ _ _ _ := rfl
  home _ _ := rfl
  lines s c bs := by simp only [State.wave, l1Store_waves]

theorem performOut_storeQ (s : State) (c w : Nat) : ((s.performOut c).wave w).mem.storeQ = (s.wave w).mem.storeQ :=
  (frame_storeQ w).performOut (fun _ _ => rfl) s c

/-- With no result of an atomic on its way, a core has nothing to perform before a store. -/
theorem performOut_nil {s : State} {c : Nat} (h : (s.core c).out = []) : s.performOut c = s := by
  rw [State.performOut, h]
  rfl

section oldest
variable {s : State} {w : Nat} {q : QStore} {rest : List QStore} (hw : w < s.waves.length) (hq : (s.wave w).mem.storeQ = q :: rest)
include hq

include hw in
theorem performOne_storeQ : ((s.performOne w).wave w).mem.storeQ = rest := by
  rw [performOne_cons hq, perform_wave, readied_wave _ w q (fun x => x.mem.storeQ) fun _ _ => rfl, dequeued, wave_modWave_same s w _ hw]

include hw in
theorem performOne_ready {k : Nat} (hk : q.key = some k) {e : Pend} (he : e ∈ ((s.performOne w).wave w).mem.outst) (hek : e.key = k) :
    e.ready = true := by
  rw [performOne_cons hq, perform_wave] at he
  exact readied_ready _ w q (by rwa [dequeued, modWave_length]) hk he hek

theorem performOne_mem_scratch (hs : q.sp = true) : (s.performOne w).mem = s.mem := by
  rw [performOne_cons hq, perform_scratch hs, modGroup_mem, readied_mem, modWave_mem]

omit hq in
theorem dequeued_group : ((dequeued s w rest).wave w).id = (s.wave w).id := wave_modWave_keeps (fun x => x.id) s w w rfl

theorem performOne_mem_staged (hs : q.sp = false) (hg : s.staged (s.wave w).id.group = true) : (s.performOne w).mem = s.mem := by
  rw [performOne_cons hq, perform_staged hs (by rw [dequeued_group]; exact hg), modGroup_mem, readied_mem, modWave_mem]

theorem performOne_mem_home (hs : q.sp = false) (hg : s.staged (s.wave w).id.group = false)
    (hr : ∀ c ∈ q.bytes, s.reach (s.waveDie w) c.1 ≠ Reach.broken) : (s.performOne w).mem = s.mem.writeAll q.bytes := by
  have die : (dequeued s w rest).waveDie w = s.waveDie w := congrArg (fun i : WaveId => s.dieOfCore i.core) (dequeued_group)
  rw [performOne_cons hq, perform_home hs (by rw [dequeued_group]; exact hg), sentHome_mem, readied_mem, modWave_mem]
  intro c hc
  rw [readied_waveDie, readied_reach, die]
  exact hr c hc

end oldest

/-! The two events -/

theorem exec_storePerform {s : State} {w : Nat} {q : QStore} {rest : List QStore} (ha : s.alive (s.wave w).id.part = true)
    (hq : (s.wave w).mem.storeQ = q :: rest) (hh : s.storesHeld w = false) :
    exec (.storePerform w) s = .next ((s.performOut (s.wave w).id.core).performOne w).tick := by
  show execStorePerform w s = _
  refine event_of ?_ rfl
  simp [ha, hh, State.onItsWay, hq]

/-- The oldest operation of a class, when ready, completes; CP waits where the group's engines stand still. -/
theorem exec_countedOperationComplete {s : State} {w : Nat} {cls : Cls} {e : Pend} (ha : s.alive (s.wave w).id.part = true)
    (hf : ((s.wave w).mem.outst.find? fun e => e.cls == cls) = some e) (hr : e.ready = true) :
    exec (.countedOperationComplete w cls) s = .next (if cls = .cp ∧ s.engineHeld (s.wave w).id.group = true then s
      else (s.modWave w fun x => x.finish e).tick) := by
  show execCountedOperationComplete w cls s = _
  simp only [execCountedOperationComplete, hf, hr, ha]
  by_cases hc : cls = .cp ∧ s.engineHeld (s.wave w).id.group = true
  · rw [if_pos hc]
    simp [event, hc.1, hc.2]
  · rw [if_neg hc]
    refine event_of ?_ rfl
    by_cases h : cls = .cp
    · simp_all
    · simp [h]

/-- Settles O23: a store through the equation of its kind, a completion by its event. -/
theorem storesAndCompletionsPerform : Obligations.StoresAndCompletionsPerform := by
  intro s w q rest hw hm ha
  have long : w < (s.performOut (s.wave w).id.core).waves.length := by
    rw [frame_waveCount.performOut frame_waveCount.sent]; exact hw
  have queue : ((s.performOut (s.wave w).id.core).wave w).mem.storeQ = (s.wave w).mem.storeQ := performOut_storeQ ..
  refine ⟨fun hq hh => ⟨_, exec_storePerform ha hq hh, rfl, ?_, fun ho => ⟨fun hs a => ?_, fun hs hg a => ?_, fun hs hg hr a => ?_⟩,
    fun k hk e he hek => ?_⟩, fun cls e hf hr => exec_countedOperationComplete ha hf hr⟩
  · exact performOne_storeQ long (queue.trans hq)
  · rw [performOut_nil ho, tick_mem, performOne_mem_scratch hq hs]
  · rw [performOut_nil ho, tick_mem, performOne_mem_staged hq hs hg]
  · rw [performOut_nil ho, tick_mem, performOne_mem_home hq hs hg hr, read_writeAll hm]
  · exact performOne_ready long (queue.trans hq) hk he hek

end Sys2Proof.Proofs
end

section
/-! PROOF. What the checks of a memory instruction leave of its wave: translations change no wave, the race detector only the wave's
own tables (spec/04 R141, R175 to R177). -/

open Sys2Proof Sys2Proof.Machine Sys2Proof.Claims

namespace Sys2Proof.Proofs

/-! The race detector -/

/-- `p` reads the waves alone, and there nothing that the race detector keeps. -/
structure RaceFrame {β : Type} (p : State → β) : Prop where
  waves : ∀ {s t : State}, t.waves = s.waves → p t = p s
  interval : ∀ s w, p (s.releaseInterval w) = p s
  acquired : ∀ s w (l : Wave → List (BitVec 21 × BitVec 22)), p (s.modWave w fun x => { x with mem.acqs := l x }) = p s
  logged : ∀ s w (l : Wave → List (Origin × Nat)), p (s.modWave w fun x => { x with sch.raced := l x }) = p s

theorem logRace_waves (s : State) (w : Nat) (a : Access) (pos : Pos) (lane va entry : Nat) :
    (s.logRace w a pos lane va entry).waves = s.waves := by
  unfold State.logRace
  have put : ∀ {u : State} (x : Nat) (bs : List Byte), u.waves = s.waves →
      (match u.resolve (s.wave w).id.group (u.waveDie w) (s.wave w).id.part (s.wave w).id.ctx x bs.length .store with
        | some (s', .mem pa) => s'.writeMem (placed pa bs)
        | some (s', .sp _) => s'
        | none => u).waves = s.waves := by
    intro u x bs hu
    split
    · rw [writeMem_waves, resolve_waves ‹_›, hu]
    · rw [resolve_waves ‹_›, hu]
    · exact hu
  exact ite_keeps State.waves (put _ _ rfl) (put _ _ (put _ _ rfl))

section frame
variable {β : Type} {p : State → β} (h : RaceFrame p)
include h

theorem RaceFrame.recordAccesses (s : State) (w : Nat) (a : Access) (l : List (Nat × Nat × Nat)) : p (s.recordAccesses w a l) = p s := by
  unfold State.recordAccesses
  extract_lets c ks t u sc e
  have ht : p t = p s := ite_keeps p (foldl_keeps p _ (fun v k => ite_keeps p (h.acquired ..) rfl) _ s) rfl
  have hu : p u = p s := ite_keeps p ((h.interval ..).trans ht) ht
  exact ite_keeps p hu ((foldl_keeps p _ (fun v k => h.waves (putLe_waves ..)) _ u).trans hu)

theorem RaceFrame.logConflicts (s : State) (w : Nat) (a : Access) (by_ : Origin) (cs : List (Nat × Nat × Nat × Nat)) :
    p (s.logConflicts w a by_ cs) = p s := by
  have each : ∀ ks : List Nat, p (ks.foldl (fun (u : State) k => match cs.find? fun q => q.2.2.1 == k with
      | some q => u.logRace w a by_.pos q.1 q.2.1 q.2.2.2
      | none => u) s) = p s := fun ks => foldl_keeps p _ (fun u k => by
    split
    · exact h.waves (logRace_waves ..)
    · rfl) ks s
  unfold State.logConflicts
  dsimp only
  split
  · exact each _
  · rw [h.logged]
    exact each _

theorem RaceFrame.raceCheck {s u : State} {w : Nat} {a : Access} {l : List (Nat × Nat × Nat)} (hu : raceCheck s w a l = .ok u) : p u = p s := by
  unfold Machine.raceCheck at hu
  dsimp only at hu
  split at hu
  · cases hu
    exact ite_keeps p (h.interval ..) rfl
  split at hu
  · cases hu
    exact h.recordAccesses ..
  split at hu
  · cases hu
  · cases hu
    exact (h.recordAccesses ..).trans (h.logConflicts ..)

end frame

theorem raceFrame_waveCount : RaceFrame fun s => s.waves.length where
  waves h := congrArg List.length h
  interval s w := modWave_length s w _
  acquired s w _ := modWave_length s w _
  logged s w _ := modWave_length s w _

/-- A field of a wave that the detector's tables are not. -/
theorem raceFrame_wave {β : Type} (p : Wave → β) (hi : ∀ (x : Wave) i, p { x with mem.interval := i } = p x)
    (ha : ∀ (x : Wave) l, p { x with mem.acqs := l } = p x) (hl : ∀ (x : Wave) l, p { x with sch.raced := l } = p x) (v : Nat) :
    RaceFrame fun s => p (s.wave v) where
  waves h := by simp only [State.wave, h]
  interval s w := wave_modWave_keeps p s w v (hi ..)
  acquired s w _ := wave_modWave_keeps p s w v (ha ..)
  logged s w _ := wave_modWave_keeps p s w v (hl ..)

/-! Places of lanes -/

/-- A walk has met a lane. -/
def Walked.met (r : Walked) : Prop := r.good ≠ [] ∨ r.tiered ≠ [] ∨ r.bad ≠ [] ∨ r.held = true

theorem walkLane_met (w : Nat) (want : Want) (r : Walked) (q : Nat × Nat) : Walked.met (walkLane w want r q) := by
  unfold walkLane
  dsimp only
  split
  · exact .inl (by simp)
  · split
    · exact .inl (by simp)
    · exact .inr (.inl (by simp))
    · exact .inr (.inr (.inl (by simp)))
    · exact .inr (.inr (.inr rfl))

theorem walkLane_waves (w : Nat) (want : Want) (r : Walked) (q : Nat × Nat) : (walkLane w want r q).s.waves = r.s.waves := by
  unfold walkLane
  dsimp only
  split
  · rfl
  · split
    · exact translate_waves ‹_›
    · rfl
    · rfl
    · rfl

theorem walk_waves (w : Nat) (want : Want) (l : List (Nat × Nat)) (r : Walked) : (l.foldl (walkLane w want) r).s.waves = r.s.waves := by
  induction l generalizing r with
  | nil => rfl
  | cons q t ih => rw [List.foldl_cons, ih, walkLane_waves]

/-- A walk over some lane meets one. -/
theorem walk_met {w : Nat} {want : Want} {l : List (Nat × Nat)} (hl : l ≠ []) (r : Walked) : Walked.met (l.foldl (walkLane w want) r) := by
  obtain ⟨t, q, rfl⟩ := List.eq_nil_or_concat l |>.resolve_left hl
  rw [List.concat_eq_append, List.foldl_append]
  exact walkLane_met ..

/-- A sequence of checks passes where each does. -/
theorem eff_bind_ok {α β : Type} {x : Eff α} {f : α → Eff β} {b : β} : (x >>= f) = .ok b ↔ ∃ a, x = .ok a ∧ f a = .ok b := by
  cases x with
  | ok a => simp
  | error e => simp

/-- The places of lanes are those of a walk in which none fails. -/
theorem resolveLanes_ok {s : State} {w n align : Nat} {window : Bool} {l : List (Nat × Nat)} {want : Want} {p : Places}
    (h : resolveLanes s w window l n align want = .ok p) :
    ∃ r : Walked, r = l.foldl (walkLane w want) { s := s } ∧ p = { s := r.s, at_ := r.good } ∧ r.bad = [] ∧ r.tiered = [] ∧ r.held = false := by
  simp only [resolveLanes, eff_bind_ok] at h
  obtain ⟨_, -, _, -, h⟩ := h
  split at h
  · cases h
  · rename_i hb
    split at h
    · cases h
    · rename_i hh
      split at h
      · rename_i ht
        split at h
        · cases h
        · cases h
          exact ⟨_, rfl, rfl, by simpa using hb, ht, Bool.eq_false_iff.2 hh⟩
      · unfold demandFault at h
        split at h <;> cases h

end Sys2Proof.Proofs
end

section
/-! PROOF. Stores enter their wave's queue and write nothing yet (spec/04 R142, R144 to R146, R168). -/

open Sys2Proof Sys2Proof.Machine Sys2Proof.Claims

namespace Sys2Proof.Proofs

/-! Places -/

theorem resolveLanes_waves {s : State} {w n align : Nat} {window : Bool} {l : List (Nat × Nat)} {want : Want} {p : Places}
    (h : resolveLanes s w window l n align want = .ok p) : p.s.waves = s.waves := by
  obtain ⟨r, rfl, rfl, -⟩ := resolveLanes_ok h
  exact walk_waves ..

/-- Lanes that resolve have places. -/
theorem resolveLanes_ne_nil {s : State} {w n align : Nat} {window : Bool} {l : List (Nat × Nat)} {want : Want} {p : Places}
    (h : resolveLanes s w window l n align want = .ok p) (hl : l ≠ []) : p.at_ ≠ [] := by
  obtain ⟨r, hr, rfl, hb, ht, hh⟩ := resolveLanes_ok h
  have met : Walked.met r := hr ▸ walk_met hl _
  simp only [Walked.met, hb, ht, hh] at met
  simpa using met

theorem resolveOffsets_state {s : State} {w n : Nat} {l : List (Nat × Int)} {p : Places} (h : resolveOffsets s w l n = .ok p) : p.s = s := by
  unfold resolveOffsets at h
  dsimp only at h
  split at h
  · cases h
  · split at h <;> cases h
    rfl

theorem limbPlaces_lanes {s : State} {w n : Nat} {a b : Opnd} {want : Want} {p : Places} (h : limbPlaces s w a b n want = .ok p) :
    ∃ base, resolveLanes s w false ((List.range n).map fun i => (i, (base + 4 * i) % 2 ^ 64)) 4 4 want = .ok p := by
  simp only [limbPlaces, eff_bind_ok] at h
  obtain ⟨_, -, _, -, h⟩ := h
  exact ⟨_, h⟩

/-! The wave of a store after its checks -/

theorem raceCheck_num {s u : State} {w : Nat} {a : Access} {l : List (Nat × Nat × Nat)} (h : raceCheck s w a l = .ok u) (v : Nat) :
    (u.wave v).num = (s.wave v).num :=
  (raceFrame_wave (fun x => x.num) (fun _ _ => rfl) (fun _ _ => rfl) (fun _ _ => rfl) v).raceCheck h

theorem raceCheck_waveCount {s u : State} {w : Nat} {a : Access} {l : List (Nat × Nat × Nat)} (h : raceCheck s w a l = .ok u) :
    u.waves.length = s.waves.length := raceFrame_waveCount.raceCheck h

/-! The stores of an instruction -/

/-- The bytes of a list's lanes in scratchpad or in memory, as they are queued. -/
theorem queuedBytes_eq (sp : Bool) (at_ : List (Nat × Nat × Loc)) (n : Nat) (val : Nat → Nat) :
    (at_.flatMap fun q => if q.2.2.isSp == sp then placed q.2.2.num (leBytes n (val q.1)) else []) = laneBytes sp at_ n val := by
  refine congrArg (fun f => at_.flatMap f) (funext fun q => ?_)
  obtain ⟨l, va, x⟩ := q
  cases x <;> cases sp <;> rfl

/-- The stores that an instruction queues: its scratchpad bytes, then its bytes of memory; the last completes operation `key`. -/
def newStores (key : Option Nat) (sb mb : List (Nat × Byte)) : List QStore :=
  let qs := ([(true, sb), (false, mb)]).filter fun q => !q.2.isEmpty
  (qs.zipIdx).map fun q => { key := if q.2 == qs.length - 1 then key else none, sp := q.1.1, bytes := q.1.2 }

theorem foldl_enqueue {α : Type} (f : α → QStore) (l : List α) (x : Wave) :
    l.foldl (fun x q => x.enqueue (f q)) x = { x with mem.storeQ := x.mem.storeQ ++ l.map f } := by
  induction l generalizing x with
  | nil => simp
  | cons a t ih => rw [List.foldl_cons, ih, Wave.enqueue, List.map_cons, List.append_assoc, List.singleton_append]

/-- What the checks of staging leave to be done. -/
theorem putStores_of {w n : Nat} {key : Option Nat} {p : Places} {val : Nat → Nat} (h : stagingFits p.s w (placeBytes p.locs n) = .ok ()) :
    putStores w key p n val = .ok (((p.s.sign w (p.at_.map fun q => { addr := q.2.1, size := n, bytes := leBytes n (val q.1) })).touchCode
      (placeBytes p.locs n)).modWave w fun x => { x with
        mem.storeQ := x.mem.storeQ ++ newStores key (laneBytes true p.at_ n val) (laneBytes false p.at_ n val) }) := by
  simp only [putStores, h, queuedBytes_eq, foldl_enqueue, eff_ok_bind, eff_pure]
  rfl

section new
variable (k : Nat) (sb mb : List (Nat × Byte))

theorem newStores_mem (key : Option Nat) : ((newStores key sb mb).filter fun q => !q.sp).flatMap (fun q => q.bytes) = mb := by
  cases sb <;> cases mb <;> simp [newStores, List.zipIdx]

theorem newStores_scratch (key : Option Nat) : ((newStores key sb mb).filter fun q => q.sp).flatMap (fun q => q.bytes) = sb := by
  cases sb <;> cases mb <;> simp [newStores, List.zipIdx]

/-- Where there is a byte to store, one store completes the operation. -/
theorem newStores_key (h : sb ++ mb ≠ []) : ((newStores (some k) sb mb).filterMap fun q => q.key) = [k] := by
  cases sb <;> cases mb <;> simp_all [newStores, List.zipIdx]

end new

theorem placed_ne_nil {n : Nat} (hn : 0 < n) (a x : Nat) : placed a (leBytes n x) ≠ [] := by
  obtain ⟨m, rfl⟩ := Nat.exists_eq_succ_of_ne_zero hn.ne'
  simp [placed, leBytes, List.range_succ_eq_map]

theorem laneBytes_ne_nil {at_ : List (Nat × Nat × Loc)} {n : Nat} (hn : 0 < n) (val : Nat → Nat) (h : at_ ≠ []) :
    laneBytes true at_ n val ++ laneBytes false at_ n val ≠ [] := by
  obtain ⟨⟨l, va, x⟩, t, rfl⟩ := List.exists_cons_of_ne_nil h
  have some_ := placed_ne_nil hn x.num (val l)
  cases x <;> simp_all [laneBytes, Loc.num]

theorem widthBytes_pos (wd : Width) : 0 < widthBytes wd := by cases wd <;> decide

@[simp] theorem touchCode_waves (s : State) (bs : List Nat) : (s.touchCode bs).waves = s.waves := ite_keeps State.waves rfl rfl
@[simp] theorem touchCode_groups (s : State) (bs : List Nat) : (s.touchCode bs).groups = s.groups := ite_keeps State.groups rfl rfl
@[simp] theorem sign_mem (s : State) (w : Nat) (rs : List SigRec) : (s.sign w rs).mem = s.mem := ite_keeps State.mem rfl rfl
@[simp] theorem sign_groups (s : State) (w : Nat) (rs : List SigRec) : (s.sign w rs).groups = s.groups := ite_keeps State.groups rfl rfl

@[simp] theorem sign_waveCount (s : State) (w : Nat) (rs : List SigRec) : (s.sign w rs).waves.length = s.waves.length :=
  ite_keeps (fun s : State => s.waves.length) (modWave_length ..) rfl

theorem sign_wave {β : Type} (p : Wave → β) (hp : ∀ (x : Wave) c, p { x with mem.sig := c } = p x) (s : State) (w : Nat) (rs : List SigRec) :
    p ((s.sign w rs).wave w) = p (s.wave w) := by
  unfold State.sign
  split
  · exact wave_modWave_keeps p s w w (hp ..)
  · rfl

/-- Stores have entered the wave's queue and its signature. -/
def entered (u : State) (w : Nat) (rs : List SigRec) (pas : List Nat) (new : List QStore) : State :=
  ((u.sign w rs).touchCode pas).modWave w fun x => { x with mem.storeQ := x.mem.storeQ ++ new }

theorem modWave_modWave {s : State} {w : Nat} (hw : w < s.waves.length) (f g : Wave → Wave) :
    (s.modWave w f).modWave w g = s.modWave w fun x => g (f x) := by
  rw [State.modWave, wave_modWave_same s w f hw]
  simp only [State.modWave, State.setWave, List.set_set]

theorem enqueue_entered {u : State} {w : Nat} (hw : w < u.waves.length) (rs : List SigRec) (pas : List Nat) (new : List QStore) (q : QStore) :
    ((entered u w rs pas new).modWave w fun x => x.enqueue q) = entered u w rs pas (new ++ [q]) := by
  rw [entered, modWave_modWave (by rw [touchCode_waves, sign_waveCount]; exact hw)]
  simp only [entered, Wave.enqueue, List.append_assoc]

/-- Stores entered, and the operation that they complete counted, leave what an instruction's stores leave. -/
theorem queued_entered {u : State} {w : Nat} (hw : w < u.waves.length) (rs : List SigRec) (pas : List Nat) {new : List QStore}
    {at_ : List (Nat × Nat × Loc)} {n : Nat} {val : Nat → Nat}
    (hmem : (new.filter fun q => !q.sp).flatMap (fun q => q.bytes) = laneBytes false at_ n val)
    (hsp : (new.filter fun q => q.sp).flatMap (fun q => q.bytes) = laneBytes true at_ n val)
    (hkey : (new.filterMap fun q => q.key) = [(u.wave w).num.key]) :
    queued u (countMem w { s := entered u w rs pas new, op := some (.st, []) }) w at_ n val := by
  have long : w < ((u.sign w rs).touchCode pas).waves.length := by rw [touchCode_waves, sign_waveCount]; exact hw
  have same : ((u.sign w rs).touchCode pas).wave w = (u.sign w rs).wave w := by simp only [State.wave, touchCode_waves]
  have wave : (countMem w { s := entered u w rs pas new, op := some (.st, []) }).wave w =
      ({ (u.sign w rs).wave w with mem.storeQ := ((u.sign w rs).wave w).mem.storeQ ++ new } : Wave).count .st false [] := by
    rw [countMem, wave_modWave_same _ _ _ (by rw [entered, modWave_length]; exact long), entered, wave_modWave_same _ _ _ long, same]
    rfl
  refine ⟨by simp [countMem, entered], by simp [countMem, entered], new, ?_, hmem, hsp, hkey, ?_⟩
  · rw [wave, ← sign_wave (fun x => x.mem.storeQ) (fun _ _ => rfl) u w rs]
    rfl
  · rw [wave, ← sign_wave (fun x => x.mem.outst) (fun _ _ => rfl) u w rs, ← sign_wave (fun x => x.num) (fun _ _ => rfl) u w rs]
    rfl

section stores
variable {s u : State} {w n : Nat} {p : Places} {val : Nat → Nat} (hw : w < u.waves.length) (hk : (u.wave w).num = (s.wave w).num)
  (hroom : stagingFits u w (laneBytesAt p.at_ n) = .ok ())
include hroom

theorem putStores_entered (key : Option Nat) : putStores w key { p with s := u } n val = .ok (entered u w
    (p.at_.map fun q => { addr := q.2.1, size := n, bytes := leBytes n (val q.1) }) (laneBytesAt p.at_ n)
    (newStores key (laneBytes true p.at_ n val) (laneBytes false p.at_ n val))) := by
  have pas : placeBytes ({ p with s := u } : Places).locs n = laneBytesAt p.at_ n := placeBytes_locs { p with s := u } n
  rw [putStores_of (by rw [pas]; exact hroom), pas]
  rfl

include hw hk

/-- The stores of lanes that have a place: they are queued. -/
theorem putStores_queued (hn : 0 < n) (hne : p.at_ ≠ []) : ∃ r, putStores w (some (s.wave w).num.key) { p with s := u } n val = .ok r ∧
    queued u (countMem w { s := r, op := some (.st, []) }) w p.at_ n val :=
  ⟨_, putStores_entered hroom _, queued_entered hw _ _ (newStores_mem ..) (newStores_scratch ..)
    (by rw [newStores_key _ _ _ (laneBytes_ne_nil hn val hne), hk])⟩

end stores

section issue
variable {s u : State} {w : Nat} {g : Guards} {o : Order} {sc : Scope} {ev : BitVec 3} {a b c : Opnd} {p : Places}
  (hw : w < s.waves.length) (hrel : Order.releases o = true → s.aodPending w = false)
include hw hrel

/-- st, by the bytes and registers of a lane. -/
theorem exec_st {wd : Width} (hp : pipeReady s w g .st [(a, .sv), (b, .onlyImm), (c, dataAccept (widthRegs wd))]
      (baseOk s w a && dataFits s w c (widthRegs wd)) (baseRegs a ++ groupRegs c (widthRegs wd)))
    (hl : resolveLanes s w true (laneAddrs s w (activeMask s w g) a b (widthBytes wd)) (widthBytes wd) (widthBytes wd) .store = .ok p)
    (hu : raceCheck p.s w { kind := .store, acq := false, rel := Order.releases o, sc := sc } (p.accesses (widthBytes wd)) = .ok u)
    (hroom : stagingFits u w (laneBytesAt p.at_ (widthBytes wd)) = .ok ()) (hne : p.at_ ≠ []) :
    ∃ r, exec (.st g o sc ev a b c wd) s = .next (completed s w r) ∧
      queued u r w p.at_ (widthBytes wd) (dataOf s w 4 c (widthRegs wd) (widthBytes wd)) := by
  obtain ⟨hrun, hm, hr, hc, hf, hd⟩ := hp
  have long : w < u.waves.length := by rw [raceCheck_waveCount hu, resolveLanes_waves hl]; exact hw
  have num : (u.wave w).num = (s.wave w).num := by rw [raceCheck_num hu, State.wave, resolveLanes_waves hl]; rfl
  obtain ⟨r, hput, hq⟩ := putStores_queued (s := s) (val := dataOf s w 4 c (widthRegs wd) (widthBytes wd)) long num hroom (widthBytes_pos wd) hne
  refine ⟨_, ?_, hq⟩
  show memIssue s g .st (stAt true g o sc a b c wd) = _
  refine memIssue_of hrun hm hr ?_
  simp only [stAt, hc, demand_of hf, lanesActive_exec, mask_nonzero hm, hd, hl, releaseWaits_of hrel, hu, nextKey, if_true, hput, eff_ok_bind,
    eff_pure, Bool.false_eq_true, if_false]

theorem exec_sts {wd : Width} (hp : pipeReady s w g .st [(a, { v := true, s := true, lane := true }), (b, .onlyImm), (c, dataAccept (widthRegs wd))]
      (dataFits s w c (widthRegs wd)) ((if isV a then [a] else []) ++ groupRegs c (widthRegs wd)))
    (hl : resolveOffsets s w (laneOffsets s w (activeMask s w g) a b (widthBytes wd)) (widthBytes wd) = .ok p)
    (hu : u = if Order.releases o then p.s.releaseInterval w else p.s)
    (hroom : stagingFits u w (laneBytesAt p.at_ (widthBytes wd)) = .ok ()) (hne : p.at_ ≠ []) :
    ∃ r, exec (.sts g o sc a b c wd) s = .next (completed s w r) ∧
      queued u r w p.at_ (widthBytes wd) (dataOf s w 4 c (widthRegs wd) (widthBytes wd)) := by
  obtain ⟨hrun, hm, hr, hc, hf, hd⟩ := hp
  rw [resolveOffsets_state hl] at hu
  have count : u.waves.length = s.waves.length := by
    rw [hu]
    exact ite_keeps (fun t : State => t.waves.length) (raceFrame_waveCount.interval ..) rfl
  have long : w < u.waves.length := by rw [count]; exact hw
  have num : (u.wave w).num = (s.wave w).num := by
    rw [hu]
    exact ite_keeps (fun t : State => (t.wave w).num) (wave_modWave_keeps (fun x => x.num) s w w rfl) rfl
  obtain ⟨r, hput, hq⟩ := putStores_queued (s := s) (val := dataOf s w 4 c (widthRegs wd) (widthBytes wd)) long num hroom (widthBytes_pos wd) hne
  refine ⟨_, ?_, hq⟩
  show memIssue s g .st (stsAt true g o a b c wd) = _
  refine memIssue_of hrun hm hr ?_
  simp only [stsAt, hc, demand_of hf, lanesActive_exec, mask_nonzero hm, hd, hl, resolveOffsets_state hl, ← hu, releaseWaits_of hrel, nextKey,
    if_true, hput, eff_ok_bind, eff_pure, Bool.false_eq_true, if_false]

/-- stb of a number of some limbs stores them; of none it still counts its operation. -/
theorem exec_stb (hp : pipeReady s w g .st [(a, .onlyS), (b, .onlyImm), (c, .onlyV)] true [c]) (ht : mdTag (readV s w 3 (regOf c)).md = .limb)
    (hl : limbPlaces s w a b (mdLen (readV s w 3 (regOf c)).md) .store = .ok p)
    (hu : raceCheck p.s w { kind := .store, acq := false, rel := Order.releases o, sc := sc } (p.accesses 4) = .ok u)
    (hroom : stagingFits u w (laneBytesAt p.at_ 4) = .ok ()) :
    ∃ r, exec (.stb g o sc ev a b c) s = .next (completed s w r) ∧
      queued u r w p.at_ 4 fun i => ((readV s w 3 (regOf c)).lanes.getD i 0).toNat := by
  obtain ⟨hrun, hm, hr, hc, -, hd⟩ := hp
  obtain ⟨base, hlanes⟩ := limbPlaces_lanes hl
  have long : w < u.waves.length := by rw [raceCheck_waveCount hu, resolveLanes_waves hlanes]; exact hw
  have num : (u.wave w).num = (s.wave w).num := by rw [raceCheck_num hu, State.wave, resolveLanes_waves hlanes]; rfl
  have shape : ∀ {r v : State}, putStores w (some (s.wave w).num.key) { p with s := u } 4 (fun i => ((readV s w 3 (regOf c)).lanes.getD i 0).toNat) = .ok v →
      r = (if mdLen (readV s w 3 (regOf c)).md == 0 then v.modWave w fun x => x.enqueue { key := some (s.wave w).num.key, sp := true, bytes := [] } else v) →
      exec (.stb g o sc ev a b c) s = .next (completed s w (countMem w { s := r, op := some (.st, []) })) := by
    intro r v hput hv
    show execStb g o sc ev a b c s = _
    refine memIssue_of hrun hm hr ?_
    simp only [hc, lanesActive_exec, mask_nonzero hm, hd, demand_of (beq_iff_eq.2 ht), hl, releaseWaits_of hrel, hu, nextKey, if_true, hput, ← hv,
      eff_ok_bind, eff_pure, Bool.false_eq_true, if_false]
  by_cases hlen : mdLen (readV s w 3 (regOf c)).md = 0
  · have none_ : p.at_ = [] := by
      obtain ⟨r, rfl, rfl, -⟩ := resolveLanes_ok hlanes
      rw [hlen]
      rfl
    refine ⟨_, shape (putStores_entered hroom _) (if_pos (beq_iff_eq.2 hlen)).symm, ?_⟩
    rw [none_, enqueue_entered long]
    exact queued_entered long _ _ rfl rfl (by rw [num]; rfl)
  · have some_ : p.at_ ≠ [] := resolveLanes_ne_nil hlanes (by simpa using hlen)
    obtain ⟨r, hput, hq⟩ := putStores_queued long num hroom (by decide) some_
    exact ⟨_, shape hput (if_neg (by simpa using hlen)).symm, hq⟩

end issue

/-- Settles O22: the three stores, each by what it queues. -/
theorem storesComplete : Obligations.StoresComplete := by
  intro s u w g o sc ev a b c wd p hw m n regs val how hrel room
  exact ⟨exec_st hw hrel, exec_sts hw hrel, exec_stb hw hrel⟩

end Sys2Proof.Proofs
end

section
/-! PROOF. What the L1 of a core and the marks of stores to code leave alone, and bytes written at one place (spec/02 R46, spec/04 R138,
R150). -/

open Sys2Proof Sys2Proof.Machine Sys2Proof.Claims

namespace Sys2Proof.Proofs

/-! Bytes at one place -/

theorem placed_append (a : Nat) (bs : List Byte) (c : Byte) : placed a (bs ++ [c]) = placed a bs ++ [(a + bs.length, c)] := by
  simp [placed, List.range_succ, List.zipWith_append]

/-- What an address holds of bytes placed from another on. -/
theorem find_placed (a b : Nat) (bs : List Byte) :
    (((placed a bs).reverse.find? fun c => c.1 == b).map fun c => c.2) = if a ≤ b then bs[b - a]? else none := by
  induction bs using List.reverseRecOn with
  | nil => simp [placed]
  | append_singleton bs c ih =>
    rw [placed_append, List.reverse_append, List.reverse_singleton, List.singleton_append, List.find?_cons]
    by_cases h : a + bs.length = b
    · subst h
      simp
    · rw [beq_eq_false_iff_ne.2 h, ih]
      by_cases hab : a ≤ b
      · simp only [if_pos hab]
        by_cases hl : b - a < bs.length
        · rw [List.getElem?_append_left hl]
        · rw [List.getElem?_eq_none (by omega), List.getElem?_eq_none (by simp; omega)]
      · simp only [if_neg hab]

@[simp] theorem leBytes_length (n x : Nat) : (leBytes n x).length = n := by
  induction n generalizing x with
  | zero => rfl
  | succ n ih => simp [leBytes, ih]

theorem getElem?_leBytes (n x i : Nat) : (leBytes n x)[i]? = if i < n then some (BitVec.ofNat 8 (x / 2 ^ (8 * i))) else none := by
  induction n generalizing x i with
  | zero => rfl
  | succ n ih =>
    cases i with
    | zero => simp [leBytes]
    | succ i =>
      have step : x / 256 / 2 ^ (8 * i) = x / 2 ^ (8 * (i + 1)) := by
        rw [Nat.div_div_eq_div_mul, show 8 * (i + 1) = 8 + 8 * i by omega, Nat.pow_add]
      simp [leBytes, ih, step]

/-- Memory after a value has been written at a place. -/
theorem read_writeAll_value {m : Memory} (h : m.wf = true) (pa n x a : Nat) :
    (m.writeAll (placed pa (leBytes n x))).read a =
      if pa ≤ a ∧ a < pa + n then BitVec.ofNat 8 (x / 2 ^ (8 * (a - pa))) else m.read a := by
  rw [read_writeAll h, find_placed]
  by_cases hp : pa ≤ a
  · by_cases hn : a < pa + n
    · rw [if_pos hp, if_pos ⟨hp, hn⟩, getElem?_leBytes, if_pos (by omega)]; rfl
    · rw [if_pos hp, if_neg (by omega), getElem?_leBytes, if_neg (by omega)]; rfl
  · rw [if_neg hp, if_neg (by omega)]; rfl

/-! Lines of L1 -/

theorem core_modCore_keeps {β : Type} (p : Core → β) {f : Core → Core} (s : State) (c d : Nat) (hf : p (f (s.core c)) = p (s.core c)) :
    p ((s.modCore c f).core d) = p (s.core d) := by
  by_cases hd : d = c
  · subst hd
    by_cases hl : d < s.cores.length
    · rw [core_modCore_same s d f hl, hf]
    · rw [State.modCore, State.setCore, List.set_eq_of_length_le (by omega)]
  · rw [core_modCore_other s c d f hd]

/-- `p` reads no line of an L1. -/
def LineFrame {β : Type} (p : State → β) : Prop := ∀ s c (l : Core → List (Nat × List Byte)), p (s.modCore c fun k => { k with l1 := l k }) = p s

theorem lineFrame_of {β : Type} {p : State → β} (h : ∀ (s : State) cs, p { s with cores := cs } = p s) : LineFrame p := fun s _ _ => h s _

theorem lineFrame_core {β : Type} (p : Core → β) (h : ∀ (k : Core) l, p { k with l1 := l } = p k) (d : Nat) : LineFrame fun s => p (s.core d) :=
  fun s c _ => core_modCore_keeps p s c d (h ..)

section lines
variable {β : Type} {p : State → β} (h : LineFrame p) (s : State)
include h

theorem LineFrame.l1Clear (c : Nat) : p (s.l1Clear c) = p s := ite_keeps p rfl (h ..)
theorem LineFrame.l1Drop (c : Nat) (ks : List Nat) : p (s.l1Drop c ks) = p s := ite_keeps p rfl (h ..)
theorem LineFrame.l1Store (c : Nat) (bs : List (Nat × Byte)) : p (s.l1Store c bs) = p s := ite_keeps p rfl (h ..)
theorem LineFrame.l1Fill (c k : Nat) : p (s.l1Fill c k) = p s := ite_keeps p (h ..) rfl

theorem LineFrame.acquiredBy (g : Nat) (o : Order) (sc : Scope) : p (s.acquiredBy g o sc) = p s :=
  ite_keeps p (foldl_keeps p _ (fun t c => h.l1Clear t c) _ s) rfl

end lines

/-- A sector as a load at a narrow scope meets it. -/
def l1Meet (c : Nat) (s : State) (k : Nat) : State :=
  match (s.core c).l1.find? fun q => q.1 == k with
  | none => s.l1Fill c k
  | some q => if q.2 == s.mem.readN (32 * k) 32 || s.draw 61 k 2 == 0 then s else s.l1Fill c k

theorem l1Load_narrow {sc : Scope} (hs : Scope.wide sc = false) (s : State) (w : Nat) (acq : Bool) (pas : List Nat) :
    s.l1Load w sc acq pas = if s.l1Sectors (s.wave w).id.core = 0 then s
      else ((pas.map (· / 32)).eraseDups).foldl (l1Meet (s.wave w).id.core) s := by
  rw [State.l1Load, hs]
  rfl

theorem l1Load_wide {sc : Scope} (hs : Scope.wide sc = true) (s : State) (w : Nat) (acq : Bool) (pas : List Nat) :
    s.l1Load w sc acq pas = if s.l1Sectors (s.wave w).id.core = 0 then s
      else if acq then s.l1Clear (s.wave w).id.core else s.l1Drop (s.wave w).id.core ((pas.map (· / 32)).eraseDups) := by
  rw [State.l1Load, hs]
  rfl

theorem LineFrame.l1Meet {β : Type} {p : State → β} (h : LineFrame p) (s : State) (c k : Nat) : p (Proofs.l1Meet c s k) = p s := by
  unfold Proofs.l1Meet
  split
  · exact h.l1Fill ..
  · exact ite_keeps p rfl (h.l1Fill ..)

theorem LineFrame.l1Load {β : Type} {p : State → β} (h : LineFrame p) (s : State) (w : Nat) (sc : Scope) (acq : Bool) (pas : List Nat) :
    p (s.l1Load w sc acq pas) = p s := by
  cases hs : Scope.wide sc with
  | false =>
    rw [l1Load_narrow hs]
    exact ite_keeps p rfl (foldl_keeps p _ (fun t k => h.l1Meet t _ k) _ s)
  | true =>
    rw [l1Load_wide hs]
    exact ite_keeps p rfl (ite_keeps p (h.l1Clear ..) (h.l1Drop ..))

/-! Marks of stores to code -/

/-- The state with other launches. -/
abbrev relaunched (s : State) (l : List Launch) : State := { s with launches := l }

theorem touchCode_eq (s : State) (bs : List Nat) : ∃ l, s.touchCode bs = relaunched s l := by
  unfold State.touchCode
  dsimp only
  split
  · exact ⟨_, rfl⟩
  · exact ⟨s.launches, rfl⟩

theorem l1Fill_relaunched (s : State) (l : List Launch) (c k : Nat) : (relaunched s l).l1Fill c k = relaunched (s.l1Fill c k) l := by
  have same : (relaunched s l).cacheable ((relaunched s l).dieOfCore c) k = s.cacheable (s.dieOfCore c) k := rfl
  rw [State.l1Fill, same, State.l1Fill]
  split <;> rfl

theorem l1Meet_relaunched (s : State) (l : List Launch) (c k : Nat) : l1Meet c (relaunched s l) k = relaunched (l1Meet c s k) l := by
  have fill := l1Fill_relaunched s l c k
  unfold l1Meet
  show (match (s.core c).l1.find? fun q => q.1 == k with
    | none => (relaunched s l).l1Fill c k
    | some q => if q.2 == s.mem.readN (32 * k) 32 || s.draw 61 k 2 == 0 then relaunched s l else (relaunched s l).l1Fill c k) = _
  cases (s.core c).l1.find? fun q => q.1 == k with
  | none => exact fill
  | some q =>
    dsimp only
    rw [fill]
    exact (apply_ite (fun t => relaunched t l) _ _ _).symm

/-- What a load at a narrow scope leaves in L1 does not depend on the launches. -/
theorem l1Load_relaunched {sc : Scope} (hs : Scope.wide sc = false) (s : State) (l : List Launch) (w : Nat) (acq : Bool) (pas : List Nat) :
    (relaunched s l).l1Load w sc acq pas = relaunched (s.l1Load w sc acq pas) l := by
  have fold : ∀ (c : Nat) (ks : List Nat) (t : State), ks.foldl (l1Meet c) (relaunched t l) = relaunched (ks.foldl (l1Meet c) t) l := by
    intro c ks
    induction ks with
    | nil => exact fun _ => rfl
    | cons k ks ih => exact fun t => by rw [List.foldl_cons, l1Meet_relaunched, ih, List.foldl_cons]
  rw [l1Load_narrow hs, l1Load_narrow hs]
  exact (congrArg (fun t => if s.l1Sectors (s.wave w).id.core = 0 then relaunched s l else t) (fold _ _ s)).trans
    (apply_ite (fun t => relaunched t l) _ _ _).symm

theorem touchCode_staged (s : State) (bs : List Nat) (g : Nat) : (s.touchCode bs).staged g = s.staged g := by
  unfold State.touchCode
  dsimp only
  split
  · show Launch.rerunnable ((s.launches.map _).getD (s.group g).launch Launch.empty) =
      Launch.rerunnable (s.launches.getD (s.group g).launch Launch.empty)
    rw [List.getD, List.getElem?_map, List.getD]
    cases s.launches[(s.group g).launch]? with
    | none => rfl
    | some x =>
      rw [Option.map_some, Option.getD_some, Option.getD_some]
      split <;> rfl
  · rfl

end Sys2Proof.Proofs
end

section
/-! PROOF. The atomics and cas (spec/04 R147 to R150). -/

open Sys2Proof Sys2Proof.Machine Sys2Proof.Claims

namespace Sys2Proof.Proofs

/-! The form of an atomic -/

theorem exec_atom {i : Instr} {k : AtomForm} (h : atomOf i = some k) (s : State) : exec i s = atomIssue k s := by
  unfold atomOf at h
  split at h <;> cases h <;> rfl

/-- What an atomic writes, as its claim states it. -/
theorem atomNew_eq (k : AtomForm) (t : Tag) (amr : Word) (m v new : Nat) :
    (match k.op with
      | some op => some (atomValue op k.wd t amr m v)
      | none => if m == v then some new else none) = atomNew k t amr m v new := by
  cases h : k.op with
  | none => simp [atomNew, h]
  | some op => cases op <;> simp [atomNew, atomValue, h]

theorem atomAt_of {s u : State} {w : Nat} {k : AtomForm} {t : Tag} {p : Places} (hm : activeMask s w k.g ≠ 0)
    (hc : checkOps s w [(k.d, .onlyV), (k.a, .sv), (k.b, .onlyImm), (k.c, dataAccept (widthRegs k.wd))] = .ok ())
    (hf : (s.fits w k.d (widthRegs k.wd) && baseOk s w k.a && dataFits s w k.c (widthRegs k.wd)) = true)
    (hd : demandClean s w (activeMask s w k.g) (baseRegs k.a ++ groupRegs k.c (widthRegs k.wd) ++
      (if k.op.isNone then groupRegs k.d (widthRegs k.wd) else [])) = .ok ())
    (ht : faddFormat s w k.op k.c = .ok t)
    (hl : resolveLanes s w true (laneAddrs s w (activeMask s w k.g) k.a k.b (widthBytes k.wd)) (widthBytes k.wd) (widthBytes k.wd) .store = .ok p)
    (hrel : Order.releases k.o = true → s.aodPending w = false) (hh : s.storesHeld w = false)
    (hu : raceCheck p.s w { kind := .atomic, acq := Order.acquires k.o, rel := Order.releases k.o, sc := k.sc } (p.accesses (widthBytes k.wd)) = .ok u) :
    atomAt k (s.wave w).exec s w = .ok (atomRun w k.sc k.o { p with s := u } (activeMask s w k.g) k.d (widthBytes k.wd) (widthRegs k.wd)
      fun l old => atomNew k t (s.wave w).amr old (dataOf s w 4 k.c (widthRegs k.wd) (widthBytes k.wd) l)
        (dataOf s w 8 k.d (widthRegs k.wd) (widthBytes k.wd) l)) := by
  simp only [atomAt, AtomForm.check, hc, demand_of hf, lanesActive_exec, mask_nonzero hm, hd, ht, hl, releaseWaits_of hrel, demandSent_of hh, hu,
    ← atomNew_eq, eff_ok_bind, eff_pure, Bool.false_eq_true, if_false] <;> rfl

/-! An atomic of one lane -/

theorem performAll_nil {s : State} {w : Nat} (hq : (s.wave w).mem.storeQ = []) (ho : (s.core (s.wave w).id.core).out = []) : s.performAll w = s := by
  rw [State.performAll, hq, performOut_nil ho]
  rfl

/-- Where an atomic's lanes act: the L1 of its core has been met, and an acquire has discarded it. -/
def atomStart (u : State) (w : Nat) (o : Order) (sc : Scope) (pas : List Nat) : State :=
  ((u.touchCode pas).l1Load w sc false pas).acquiredBy (u.wave w).id.group o sc

/-- What reads neither L1 nor the marks of stores to code stands. -/
theorem atomStart_keeps {β : Type} {p : State → β} (hl : LineFrame p) (ht : ∀ s bs, p (State.touchCode s bs) = p s) (u : State) (w : Nat)
    (o : Order) (sc : Scope) (pas : List Nat) : p (atomStart u w o sc pas) = p u := by
  rw [atomStart, hl.acquiredBy, hl.l1Load, ht]

/-- A part of the state that is neither in its cores nor in its launches. -/
theorem atomStart_field {β : Type} (p : State → β) (hc : ∀ (s : State) cs, p { s with cores := cs } = p s) (hl : ∀ s l, p (relaunched s l) = p s)
    (u : State) (w : Nat) (o : Order) (sc : Scope) (pas : List Nat) : p (atomStart u w o sc pas) = p u :=
  atomStart_keeps (lineFrame_of hc) (fun s bs => by obtain ⟨l, hs⟩ := touchCode_eq s bs; rw [hs, hl]) u w o sc pas

section start
variable (u : State) (w : Nat) (o : Order) (sc : Scope) (pas : List Nat)

theorem atomStart_mem : (atomStart u w o sc pas).mem = u.mem := atomStart_field State.mem (fun _ _ => rfl) (fun _ _ => rfl) u w o sc pas
theorem atomStart_waves : (atomStart u w o sc pas).waves = u.waves := atomStart_field State.waves (fun _ _ => rfl) (fun _ _ => rfl) u w o sc pas

theorem atomStart_wave (v : Nat) : (atomStart u w o sc pas).wave v = u.wave v := by simp only [State.wave, atomStart_waves]

theorem atomStart_lostPlace (l : Loc) (n : Nat) : (atomStart u w o sc pas).lostPlace w l n = u.lostPlace w l n :=
  atomStart_field (fun s => s.lostPlace w l n) (fun _ _ => rfl) (fun _ _ => rfl) u w o sc pas

theorem atomStart_core {β : Type} (p : Core → β) (hp : ∀ (k : Core) l, p { k with l1 := l } = p k) (c : Nat) :
    p ((atomStart u w o sc pas).core c) = p (u.core c) :=
  atomStart_keeps (lineFrame_core p hp c) (fun s bs => by obtain ⟨l, hs⟩ := touchCode_eq s bs; rw [hs]; rfl) u w o sc pas

theorem atomStart_coreCount : (atomStart u w o sc pas).cores.length = u.cores.length :=
  atomStart_keeps (p := fun s => s.cores.length) (fun s c l => modCore_length s c _)
    (fun s bs => by obtain ⟨l, hs⟩ := touchCode_eq s bs; rw [hs]) u w o sc pas

theorem atomStart_staged (g : Nat) : (atomStart u w o sc pas).staged g = u.staged g :=
  atomStart_keeps (p := fun s => s.staged g) (lineFrame_of fun _ _ => rfl) (fun s bs => touchCode_staged s bs g) u w o sc pas

theorem atomStart_reach (pa : Nat) : (atomStart u w o sc pas).reach ((atomStart u w o sc pas).waveDie w) pa = u.reach (u.waveDie w) pa := by
  have die : (atomStart u w o sc pas).waveDie w = u.waveDie w := by
    simp only [State.waveDie, State.dieOfCore, atomStart_wave, atomStart_core u w o sc pas (fun k => k.phys) fun _ _ => rfl]
  rw [die]
  exact atomStart_field (fun s => s.reach (u.waveDie w) pa) (fun _ _ => rfl) (fun _ _ => rfl) u w o sc pas

/-- At a narrow scope the bytes that the atomic finds are those of a load that has met L1. -/
theorem atomStart_waveLe {sc : Scope} (hs : Scope.wide sc = false) (l : Loc) (n : Nat) :
    (atomStart u w o sc pas).waveLe w l n = (u.l1Load w sc false pas).waveLe w l n := by
  obtain ⟨x, hx⟩ := touchCode_eq u pas
  have narrow : (Order.acquires o && Scope.wide sc) = false := by rw [hs, Bool.and_false]
  rw [atomStart, hx, l1Load_relaunched hs, State.acquiredBy, narrow]
  rfl

end start

section single
variable {u : State} {w l va pa n : Nat} {o : Order} {sc : Scope} {p : Places} (hp : p.at_ = [(l, va, .mem pa)])
  (hq : (u.wave w).mem.storeQ = []) (ho : (u.core (u.wave w).id.core).out = []) (hdead : u.deadPlace w (.mem pa) n = false)
  (hst : u.staged (u.wave w).id.group = false)

/-- What the lane of an atomic finds. -/
def atomOld (u : State) (w : Nat) (sc : Scope) (pa n : Nat) : Nat :=
  if sc = .wave ∨ sc = .core then (u.l1Load w sc false ((List.range n).map (pa + ·))).waveLe w (.mem pa) n else leValue (u.mem.readN pa n)

theorem wide_eq (sc : Scope) : Scope.wide sc = !decide (sc = .wave ∨ sc = .core) := by cases sc <;> rfl

include hdead in
theorem atomStart_atomRead : (atomStart u w o sc ((List.range n).map (pa + ·))).atomRead w n (!Scope.wide sc) (.mem pa) = atomOld u w sc pa n := by
  have found : u.lostPlace w (.mem pa) n = false := (Bool.or_eq_false_iff.1 hdead).1
  rw [State.atomRead, atomStart_lostPlace, found, if_neg Bool.false_ne_true, atomOld]
  by_cases hn : sc = .wave ∨ sc = .core
  · have narrow : Scope.wide sc = false := by rw [wide_eq, decide_eq_true hn]; rfl
    rw [if_pos hn, narrow, Bool.not_false, if_pos rfl, atomStart_waveLe _ _ _ _ narrow]
  · have wide : Scope.wide sc = true := by rw [wide_eq, decide_eq_false hn]; rfl
    rw [if_neg hn, wide, Bool.not_true, if_neg Bool.false_ne_true, atomStart_mem]

/-- The state after an atomic of one lane: what it writes, from what it finds. -/
def atomDone (u : State) (w : Nat) (o : Order) (sc : Scope) (l pa n : Nat) (f : Nat → Nat → Option Nat) : State :=
  let v := atomStart u w o sc ((List.range n).map (pa + ·))
  match f l (atomOld u w sc pa n) with
  | some x => v.atomWrite w n (!Scope.wide sc) (.mem pa) x
  | none => v

include hp hq ho hdead hst in
theorem atomRun_single (m : Mask) (d : Opnd) (regs : Nat) (f : Nat → Nat → Option Nat) :
    atomRun w sc o { p with s := u } m d n regs f = { s := atomDone u w o sc l pa n f, op := some (.ld,
      groupDests (regOf d) regs (u.wave w).id.width m (~~~ 0x10000#32) 0 false fun e => if e = l then atomOld u w sc pa n else 0) } := by
  have pas : placeBytes ({ p with s := u } : Places).locs n = (List.range n).map (pa + ·) := by
    rw [placeBytes_locs]
    simp [laneBytesAt, hp]
  have calm : (u.reach (u.waveDie w) pa == Reach.broken) = false := (Bool.or_eq_false_iff.1 hdead).2
  have whole : (atomStart u w o sc ((List.range n).map (pa + ·))).brokenPlace w (.mem pa) = false := by
    rw [State.brokenPlace, atomStart_reach, calm]
  have start : (((u.performAll w).touchCode ((List.range n).map (pa + ·))).l1Load w sc false ((List.range n).map (pa + ·))).acquiredBy
      (u.wave w).id.group o sc = atomStart u w o sc ((List.range n).map (pa + ·)) := by rw [performAll_nil hq ho]; rfl
  have lane : atomLane w n (!Scope.wide sc) f (atomStart u w o sc ((List.range n).map (pa + ·)), []) (l, va, .mem pa) =
      (atomDone u w o sc l pa n f, [(l, atomOld u w sc pa n)]) := by
    simp only [atomLane, whole, atomStart_atomRead hdead, Bool.false_and, Bool.false_eq_true, if_false, Bool.not_false, Bool.and_true, atomDone]
    rfl
  have dests : (fun e => match ([(l, atomOld u w sc pa n)] : List (Nat × Nat)).find? fun q => q.1 == e with
      | some q => q.2
      | none => 0) = fun e => if e = l then atomOld u w sc pa n else 0 := by
    funext e
    by_cases h : e = l
    · simp [h]
    · simp [h, Ne.symm h]
  unfold atomRun
  dsimp only
  rw [pas, start, hp, atomStart_wave, atomStart_staged, hst, Bool.not_false, Bool.and_true, List.foldl_cons, List.foldl_nil, lane, List.any_cons,
    List.any_nil, hdead, ← dests]
  rfl

end single

/-! What an atomic of one lane has done -/

theorem atomWrite_narrow (s : State) (w n pa v : Nat) : s.atomWrite w n true (.mem pa) v = s.modCore (s.wave w).id.core fun k =>
    { k with out := k.out ++ [(w, { key := none, sp := false, bytes := placed pa (leBytes n v) })] } := rfl

theorem atomWrite_wide_mem (s : State) (w n pa v : Nat) : (s.atomWrite w n false (.mem pa) v).mem = s.mem.writeAll (placed pa (leBytes n v)) :=
  (foldl_keeps State.mem _ (fun _ _ => l1Store_mem ..) _ _).trans rfl

theorem atomWrite_waves (s : State) (w n pa v : Nat) (near : Bool) : (s.atomWrite w n near (.mem pa) v).waves = s.waves := by
  cases near with
  | true => rfl
  | false => exact (foldl_keeps State.waves _ (fun _ _ => l1Store_waves ..) _ _).trans rfl

section done
variable (u : State) (w : Nat) (o : Order) (sc : Scope) (l pa n : Nat) (f : Nat → Nat → Option Nat)

theorem atomDone_wave (v : Nat) : (atomDone u w o sc l pa n f).wave v = u.wave v := by
  have waves : (atomDone u w o sc l pa n f).waves = u.waves := by
    unfold atomDone
    dsimp only
    split
    · rw [atomWrite_waves, atomStart_waves]
    · exact atomStart_waves ..
  simp only [State.wave, waves]

theorem atomDone_waveCount : (atomDone u w o sc l pa n f).waves.length = u.waves.length := by
  unfold atomDone
  dsimp only
  split
  · rw [atomWrite_waves, atomStart_waves]
  · rw [atomStart_waves]

variable {u w o sc l pa n f}

theorem atomDone_some {x : Nat} (h : f l (atomOld u w sc pa n) = some x) :
    atomDone u w o sc l pa n f = (atomStart u w o sc ((List.range n).map (pa + ·))).atomWrite w n (!Scope.wide sc) (.mem pa) x := by
  rw [atomDone, h]

theorem atomDone_none (h : f l (atomOld u w sc pa n) = none) : atomDone u w o sc l pa n f = atomStart u w o sc ((List.range n).map (pa + ·)) := by
  rw [atomDone, h]

/-- At a wide scope the new value is at its home point, and every other byte is as it was. -/
theorem atomDone_read_wide (hm : u.memOk) (hs : Scope.wide sc = true) (a : Nat) : (atomDone u w o sc l pa n f).mem.read a =
    match f l (atomOld u w sc pa n) with
    | some x => if pa ≤ a ∧ a < pa + n then BitVec.ofNat 8 (x / 2 ^ (8 * (a - pa))) else u.mem.read a
    | none => u.mem.read a := by
  cases h : f l (atomOld u w sc pa n) with
  | none => rw [atomDone_none h, atomStart_mem]
  | some x => rw [atomDone_some h, hs, Bool.not_true, atomWrite_wide_mem, atomStart_mem, read_writeAll_value hm]

theorem atomDone_mem_narrow (hs : Scope.wide sc = false) : (atomDone u w o sc l pa n f).mem = u.mem := by
  cases h : f l (atomOld u w sc pa n) with
  | none => rw [atomDone_none h, atomStart_mem]
  | some x => rw [atomDone_some h, hs, Bool.not_false, atomWrite_narrow, modCore_mem, atomStart_mem]

/-- At a narrow scope the new value is a store of the core on its way. -/
theorem atomDone_out_narrow (hs : Scope.wide sc = false) (ho : (u.core (u.wave w).id.core).out = [])
    (hc : (u.wave w).id.core < u.cores.length) : ((atomDone u w o sc l pa n f).core (u.wave w).id.core).out =
    match f l (atomOld u w sc pa n) with
    | some x => [(w, { key := none, sp := false, bytes := placed pa (leBytes n x) })]
    | none => [] := by
  have before : ((atomStart u w o sc ((List.range n).map (pa + ·))).core (u.wave w).id.core).out = [] :=
    (atomStart_core u w o sc _ (fun k => k.out) (fun _ _ => rfl) _).trans ho
  cases h : f l (atomOld u w sc pa n) with
  | none => rw [atomDone_none h, before]
  | some x =>
    rw [atomDone_some h, hs, Bool.not_false, atomWrite_narrow, atomStart_wave, core_modCore_same _ _ _ (by rw [atomStart_coreCount]; exact hc), before]
    rfl

end done

/-- Settles O24: an atomic's checks, then what its lanes do, and one lane by what it finds and writes. -/
theorem atomicsComplete : Obligations.AtomicsComplete := by
  intro s u w i k t p hk m n regs v new how f
  refine ⟨fun hw hs hd => (exec_atom hk s).trans (issue_stalls hw (forced_staged hs hd _)), fun hs hp ht hl hrel hh hu => ?_⟩
  obtain ⟨hw, hm, hr, hc, hf, hd⟩ := hp
  intro r
  refine ⟨?_, fun l va pa hat hmem hq ho hdead hst => ?_⟩
  · have some_ : (activeMask s w k.g != 0) = true := bne_iff_ne.2 hm
    rw [exec_atom hk]
    refine issue_completes hw ?_
    rw [forced_plain hs]
    simp only [atomAct, some_, if_true, roomFor_of hr, atomAt_of hm hc hf hd ht hl hrel hh hu, eff_ok_bind, eff_pure]
    rfl
  · have single := atomRun_single (o := k.o) (sc := k.sc) hat hq ho hdead hst m k.d regs f
    intro near old
    have hr : r = (atomDone u w k.o k.sc l pa n f).modWave w fun x => x.count .ld true
        (groupDests (regOf k.d) regs (u.wave w).id.width m (~~~ 0x10000#32) 0 false fun e => if e = l then old else 0) :=
      congrArg (countMem w) single
    refine ⟨fun hn a => ?_, fun hn => ⟨fun a => ?_, fun hc => ?_⟩, fun hw => ⟨_, ?_, rfl⟩⟩
    · rw [hr, modWave_mem]
      exact atomDone_read_wide hmem (by rw [wide_eq, decide_eq_false hn]; rfl) a
    · rw [hr, modWave_mem, atomDone_mem_narrow (by rw [wide_eq, decide_eq_true hn]; rfl)]
    · rw [hr, modWave_core]
      exact atomDone_out_narrow (by rw [wide_eq, decide_eq_true hn]; rfl) ho hc
    · rw [hr, wave_modWave_same _ _ _ (by rw [atomDone_waveCount]; exact hw), atomDone_wave]
      rfl

end Sys2Proof.Proofs
end

section
/-! PROOF. Results of lane-wise instructions in V registers and predicates (spec/02 R38, spec/03 R93, R112). -/

open Sys2Proof Sys2Proof.Machine Sys2Proof.Claims

namespace Sys2Proof.Proofs

/-! Lanes of a mask -/

@[simp] theorem blend_length (m : Mask) (i : Nat) (old new : List Lane) : (blend m i old new).length = old.length := by
  induction old generalizing i new with
  | nil => cases new <;> rfl
  | cons o os ih => cases new <;> simp [blend, ih]

/-- The lanes of a mask are replaced, the others stand. -/
theorem getD_blend (m : Mask) (i : Nat) {old new : List Lane} (h : new.length = old.length) (l : Nat) :
    (blend m i old new).getD l 0 = if m.getLsbD (i + l) then new.getD l 0 else old.getD l 0 := by
  induction old generalizing i new l with
  | nil => cases new with
    | nil => simp [blend]
    | cons n ns => simp at h
  | cons o os ih => cases new with
    | nil => simp at h
    | cons n ns =>
      cases l with
      | zero => simp only [blend, List.getD_cons_zero, Nat.add_zero]
      | succ l => rw [blend, List.getD_cons_succ, ih (i + 1) (by simpa using h) l, List.getD_cons_succ, List.getD_cons_succ,
          Nat.add_right_comm, Nat.add_assoc]

section setV
variable {x : Wave} {n : Nat} {m : Mask} {vals : List Lane} {md : BitVec 32}

theorem setV_vreg_same (hn : n < x.v.length) : (x.setV n m vals md).vreg n = { lanes := blend m 0 (x.vreg n).lanes vals, md := md } := by
  simp [Wave.vreg, Wave.setV, hn]

theorem setV_vreg_other {k : Nat} (hk : k ≠ n) : (x.setV n m vals md).vreg k = x.vreg k := by
  simp [Wave.vreg, Wave.setV, List.getD, List.getElem?_set_ne (Ne.symm hk)]

end setV

/-! Predicates -/

section setP
variable (x : Wave) (p : BitVec 3) (m bits : Mask)

theorem setP_seven : x.setP 7 m bits = x := rfl

variable {p}

theorem setP_pred_same (hp : p ≠ 7) (hx : x.preds.length = 7) : (x.setP p m bits).pred p = (x.pred p &&& ~~~ m) ||| (bits &&& m) := by
  have no : (p == 7#3) = false := beq_eq_false_iff_ne.2 hp
  have lt : p.toNat < x.preds.length := by
    have := p.isLt
    have ne : p.toNat ≠ 7 := fun h => hp (BitVec.eq_of_toNat_eq h)
    omega
  simp [Wave.pred, Wave.setP, no, lt]

theorem setP_pred_other {q : BitVec 3} (hq : q ≠ p) : (x.setP p m bits).pred q = x.pred q := by
  have ne : p.toNat ≠ q.toNat := fun h => hq (BitVec.eq_of_toNat_eq h.symm)
  unfold Wave.pred Wave.setP
  split
  · rfl
  · split
    · rfl
    · simp [List.getD, List.getElem?_set_ne ne]

end setP

/-- The predicates that a result writes. -/
def setPreds (m : Mask) (ps : List (BitVec 3 × Mask)) (x : Wave) : Wave := ps.foldl (fun y q => y.setP q.1 m q.2) x

/-- What no predicate is stands. -/
theorem setPreds_keeps {β : Type} (p : Wave → β) (hp : ∀ (x : Wave) l, p { x with preds := l } = p x) (m : Mask) (ps : List (BitVec 3 × Mask)) (x : Wave) :
    p (setPreds m ps x) = p x := by
  unfold setPreds
  induction ps generalizing x with
  | nil => rfl
  | cons q t ih =>
    rw [List.foldl_cons, ih, Wave.setP]
    split
    · rfl
    · exact hp ..

/-! Results -/

theorem onlyWave_modWave (s : State) (w : Nat) (f : Wave → Wave) : onlyWave s (s.modWave w f) w :=
  ⟨fun _ => rfl, fun v hv => wave_modWave_other s w v f hv, rfl, rfl, rfl, rfl, rfl, rfl, rfl⟩

section put
variable {s u : State} {w : Nat} {m : Mask} {vals : Nat → Lane} {md : BitVec 32} {ps : List (BitVec 3 × Mask)} (hw : w < u.waves.length)
include hw

/-- A result in a V register: its lanes and metadata, then its predicates. -/
theorem putLanes_v (n : BitVec 6) : putLanes s w m (.v n) { s := u, vals := vals, md := md, preds := ps } =
    .ok (u.modWave w fun x => setPreds m ps (x.setV n.toNat m ((List.range x.id.width).map vals) md)) := by
  rw [← modWave_modWave hw]
  rfl

omit hw in
/-- A result that neither a V register nor a port receives: its predicates. -/
theorem putLanes_other {d : Opnd} (hd : isPort d = false) (hv : ∀ n, d ≠ .v n) :
    putLanes s w m d { s := u, vals := vals, md := md, preds := ps } = .ok (u.modWave w (setPreds m ps)) := by
  cases d with
  | v n => exact absurd rfl (hv n)
  | q n => cases hd
  | _ => rfl

/-- The active lanes of a V register hold the result. -/
theorem putLanes_vreg {n : BitVec 6} (hn : n.toNat < (u.wave w).v.length) (hl : ((u.wave w).vreg n.toNat).lanes.length = (u.wave w).id.width) :
    ∃ r, putLanes s w m (.v n) { s := u, vals := vals, md := md, preds := ps } = .ok r ∧ onlyWave u r w ∧
      let x := u.wave w
      let y := r.wave w
      (∀ l, l < x.id.width → (y.vreg n.toNat).lanes.getD l 0 = if m.getLsbD l then vals l else (x.vreg n.toNat).lanes.getD l 0) ∧
      (y.vreg n.toNat).lanes.length = x.id.width ∧ (y.vreg n.toNat).md = md ∧ (∀ k, k ≠ n.toNat → y.vreg k = x.vreg k) ∧
      y.s = x.s ∧ y.hb = x.hb ∧ y.fflags = x.fflags ∧ y.mem = x.mem ∧ (ps = [] → y.preds = x.preds) := by
  refine ⟨_, putLanes_v hw n, onlyWave_modWave .., ?_⟩
  intro x y
  have hy : y = setPreds m ps (x.setV n.toNat m ((List.range x.id.width).map vals) md) := wave_modWave_same u w _ hw
  have regs : ∀ k, y.vreg k = (x.setV n.toNat m ((List.range x.id.width).map vals) md).vreg k := fun k => by
    rw [hy]
    exact setPreds_keeps (fun z => z.vreg k) (fun _ _ => rfl) ..
  have own : y.vreg n.toNat = { lanes := blend m 0 (x.vreg n.toNat).lanes ((List.range x.id.width).map vals), md := md } :=
    (regs _).trans (setV_vreg_same hn)
  refine ⟨fun l hlt => ?_, ?_, ?_, fun k hk => (regs k).trans (setV_vreg_other hk), ?_, ?_, ?_, ?_, fun hps => ?_⟩
  · rw [own, getD_blend m 0 (by rw [List.length_map, List.length_range]; exact hl.symm) l, Nat.zero_add]
    simp [hlt]
  · rw [own, blend_length]
    exact hl
  · rw [own]
  · rw [hy]; exact setPreds_keeps (fun z => z.s) (fun _ _ => rfl) ..
  · rw [hy]; exact setPreds_keeps (fun z => z.hb) (fun _ _ => rfl) ..
  · rw [hy]; exact setPreds_keeps (fun z => z.fflags) (fun _ _ => rfl) ..
  · rw [hy]; exact setPreds_keeps (fun z => z.mem) (fun _ _ => rfl) ..
  · rw [hy, hps]; rfl

omit hw in
/-- The bits of a predicate after its active lanes have taken theirs. -/
theorem getLsbD_setP {x : Wave} (hx : x.preds.length = 7) (p : BitVec 3) (m bits : Mask) (l : Nat) :
    ((x.setP p m bits).pred p).getLsbD l = if p ≠ 7 ∧ m.getLsbD l = true then bits.getLsbD l else (x.pred p).getLsbD l := by
  by_cases hp : p = 7
  · rw [hp, setP_seven, if_neg (fun h => h.1 rfl)]
  · rw [setP_pred_same x m bits hp hx]
    by_cases hm : m.getLsbD l = true
    · rw [if_pos ⟨hp, hm⟩]
      simp [hm]
    · rw [if_neg (fun h => hm h.2)]
      have lt := (x.pred p).getLsbD_of_ge l
      simp [Bool.eq_false_iff.2 hm]
      intro h
      by_contra hge
      rw [lt (by omega)] at h
      cases h

/-- A result with one predicate and no port sets that predicate in the wave, after what its V register does there. -/
theorem putLanes_setP {d : Opnd} (hd : isPort d = false) (p : BitVec 3) (bits : Mask) : ∃ f : Wave → Wave, (∀ x, (f x).preds = x.preds) ∧
    ((∀ n, d ≠ .v n) → ∀ x, (f x).v = x.v) ∧
    putLanes s w m d { s := u, vals := vals, md := md, preds := [(p, bits)] } = .ok (u.modWave w fun x => (f x).setP p m bits) := by
  by_cases hv : ∃ n, d = .v n
  · obtain ⟨n, rfl⟩ := hv
    exact ⟨fun x => x.setV n.toNat m ((List.range x.id.width).map vals) md, fun _ => rfl, fun h => absurd rfl (h n), putLanes_v hw n⟩
  · exact ⟨id, fun _ => rfl, fun _ _ => rfl, putLanes_other hd fun n h => hv ⟨n, h⟩⟩

/-- The active lanes of a predicate take their bits. -/
theorem putLanes_pred {d : Opnd} {p : BitVec 3} {bits : Mask} (hd : isPort d = false) (hx : (u.wave w).preds.length = 7) :
    ∃ r, putLanes s w m d { s := u, vals := vals, md := md, preds := [(p, bits)] } = .ok r ∧ onlyWave u r w ∧
      let x := u.wave w
      let y := r.wave w
      (∀ l, (y.pred p).getLsbD l = if p ≠ 7 ∧ m.getLsbD l = true then bits.getLsbD l else (x.pred p).getLsbD l) ∧
      (∀ q, q ≠ p → y.pred q = x.pred q) ∧ ((∀ n, d ≠ .v n) → y.v = x.v) := by
  obtain ⟨f, hf, hv, hput⟩ := putLanes_setP (s := s) (m := m) (vals := vals) (md := md) hw hd p bits
  have read : ∀ q, (f (u.wave w)).pred q = (u.wave w).pred q := fun q => by simp only [Wave.pred, hf]
  refine ⟨_, hput, onlyWave_modWave .., ?_⟩
  rw [wave_modWave_same u w _ hw]
  refine ⟨fun l => ?_, fun q hq => ?_, fun hd' => ?_⟩
  · rw [getLsbD_setP (by rw [hf, hx]), read]
  · rw [setP_pred_other _ _ _ hq, read]
  · rw [setP_v, hv hd']

end put

end Sys2Proof.Proofs
end

section
/-! PROOF. Pushes into rings, and what lane-wise instructions do to their destinations (spec/06 R242, R243, R249). -/

open Sys2Proof Sys2Proof.Machine Sys2Proof.Claims

namespace Sys2Proof.Proofs

/-! Little-endian values -/

theorem leValue_leBytes (n x : Nat) : leValue (leBytes n x) = x % 256 ^ n := by
  induction n generalizing x with
  | zero => simp [leBytes, leValue, Nat.mod_one]
  | succ n ih =>
    rw [leBytes, leValue, ih, Nat.pow_succ', Nat.mod_mul, BitVec.toNat_ofNat]

theorem leBytes_eq_map (n x : Nat) : leBytes n x = (List.range n).map fun i => BitVec.ofNat 8 (x / 2 ^ (8 * i)) := by
  refine List.ext_getElem? fun i => ?_
  rw [getElem?_leBytes]
  by_cases h : i < n <;> simp [h]

/-! Blocks of bytes -/

theorem writeAll_append (m : Memory) (a b : List (Nat × Byte)) : m.writeAll (a ++ b) = (m.writeAll a).writeAll b := List.foldl_append ..

theorem mem_placed {a : Nat} {bs : List Byte} {c : Nat × Byte} (h : c ∈ placed a bs) : a ≤ c.1 ∧ c.1 < a + bs.length := by
  rw [placed] at h
  obtain ⟨i, hi, rfl⟩ := List.mem_iff_getElem.1 h
  simp at hi
  simp
  omega

section blocks
variable {m : Memory} (hm : m.wf = true) (ls : List Nat) (at_ : Nat → Nat) (n : Nat) (val : Nat → Nat)

/-- The bytes of the values of a list's lanes, the one of index `i` from `at_ i` on. -/
def blocks (at_ : Nat → Nat) (n : Nat) (val : Nat → Nat) (l : List (Nat × Nat)) : List (Nat × Byte) :=
  l.flatMap fun q => placed (at_ q.2) (leBytes n (val q.1))

theorem mem_blocks {at_ : Nat → Nat} {n : Nat} {val : Nat → Nat} {l : List (Nat × Nat)} {c : Nat × Byte} (h : c ∈ blocks at_ n val l) :
    ∃ q ∈ l, at_ q.2 ≤ c.1 ∧ c.1 < at_ q.2 + n := by
  obtain ⟨q, hq, hc⟩ := List.mem_flatMap.1 h
  have := mem_placed hc
  rw [leBytes_length] at this
  exact ⟨q, hq, this⟩

include hm

/-- Blocks leave every byte outside them alone. -/
theorem read_blocks_other {a : Nat} (h : ∀ k, k < ls.length → a < at_ k ∨ at_ k + n ≤ a) :
    (m.writeAll (blocks at_ n val ls.zipIdx)).read a = m.read a := by
  refine Memory.read_writeAll_other hm _ fun c hc => ?_
  obtain ⟨q, hq, hlo, hhi⟩ := mem_blocks hc
  have lt : q.2 < ls.length := by simpa using List.snd_lt_of_mem_zipIdx hq
  have := h q.2 lt
  omega

/-- Where no two blocks meet, a byte of the `k`th is that of its value. -/
theorem read_blocks {k i : Nat} (hk : k < ls.length) (hi : i < n)
    (hd : ∀ j, j < ls.length → j ≠ k → at_ j + n ≤ at_ k ∨ at_ k + n ≤ at_ j) :
    (m.writeAll (blocks at_ n val ls.zipIdx)).read (at_ k + i) = BitVec.ofNat 8 (val (ls.getD k 0) / 2 ^ (8 * i)) := by
  have long : k < ls.zipIdx.length := by rw [List.length_zipIdx]; exact hk
  have parts : ls.zipIdx = ls.zipIdx.take k ++ (ls.getD k 0, k) :: ls.zipIdx.drop (k + 1) := by
    calc ls.zipIdx = ls.zipIdx.take k ++ ls.zipIdx.drop k := (List.take_append_drop ..).symm
      _ = _ := by rw [List.drop_eq_getElem_cons long, List.getElem_zipIdx, Nat.zero_add, List.getD_eq_getElem _ _ hk]
  have after : ∀ c ∈ blocks at_ n val (ls.zipIdx.drop (k + 1)), c.1 ≠ at_ k + i := by
    intro c hc
    obtain ⟨q, hq, hlo, hhi⟩ := mem_blocks hc
    obtain ⟨e, he, rfl⟩ := List.mem_iff_getElem.1 hq
    simp only [List.length_drop, List.length_zipIdx, List.getElem_drop, List.getElem_zipIdx] at he hlo hhi
    have := hd (0 + (k + 1 + e)) (by omega) (by omega)
    omega
  have bytes : blocks at_ n val ls.zipIdx = blocks at_ n val (ls.zipIdx.take k) ++ (placed (at_ k) (leBytes n (val (ls.getD k 0))) ++
      blocks at_ n val (ls.zipIdx.drop (k + 1))) := by
    conv_lhs => rw [parts]
    simp [blocks]
  rw [bytes, writeAll_append, writeAll_append, Memory.read_writeAll_other (Memory.writeAll_wf (Memory.writeAll_wf hm _) _) _ after,
    read_writeAll_value (Memory.writeAll_wf hm _), if_pos (by omega), Nat.add_sub_cancel_left]

/-- Where no two blocks meet, the `k`th reads as its value. -/
theorem readLe_blocks {k : Nat} (hk : k < ls.length) (hd : ∀ j, j < ls.length → j ≠ k → at_ j + n ≤ at_ k ∨ at_ k + n ≤ at_ j) :
    (m.writeAll (blocks at_ n val ls.zipIdx)).readLe (at_ k) n = val (ls.getD k 0) % 256 ^ n := by
  rw [← leValue_leBytes, leBytes_eq_map, Memory.readLe, Memory.readN]
  exact congrArg leValue (List.map_congr_left fun i hi => read_blocks hm ls at_ n val hk (List.mem_range.1 hi) hd)

end blocks

/-! Rings -/

theorem getD_modifyAt_other {α : Type} (l : List α) (i k : Nat) (f : α → α) (z : α) (h : k ≠ i) :
    (modifyAt l i f).getD k z = l.getD k z := by
  induction l generalizing i k with
  | nil => rfl
  | cons x t ih =>
    cases i with
    | zero => cases k with
      | zero => exact absurd rfl h
      | succ k => rfl
    | succ i => cases k with
      | zero => rfl
      | succ k => exact ih i k (by omega)

/-- Positions that lie less than a round apart have places that do not meet. -/
theorem place_apart (r : Ring) {p k j : Nat} (hk : k < r.cap) (hj : j < r.cap) (h : j ≠ k) :
    r.place (p + j) + 4 ≤ r.place (p + k) ∨ r.place (p + k) + 4 ≤ r.place (p + j) := by
  have ne : (p + j) % r.cap ≠ (p + k) % r.cap := by
    intro e
    have : j ≡ k [MOD r.cap] := Nat.ModEq.add_left_cancel' p e
    exact h (Nat.ModEq.eq_of_lt_of_lt this hj hk)
  unfold Ring.place
  omega

/-! What the wave's stores leave of rings -/

theorem frame_rings (g : Nat) : StoresFrame fun s => (s.group g).rings where
  marked _ _ _ := rfl
  scratch s h _ := group_modGroup_keeps (fun x => x.rings) s h g rfl
  staged s h _ _ := group_modGroup_keeps (fun x => x.rings) s h g rfl
  lost _ _ _ _ _ _ _ _ _ := rfl
  home _ _ := rfl
  lines s c bs := by simp only [State.group, l1Store_groups]
  sent _ _ := rfl
  queue _ _ _ := rfl

/-! A push -/

/-- The state after a push of the lanes `ls` into ring `ri`, the wave's stores performed in `v`. -/
def pushed (v : State) (w ri : Nat) (ring : Ring) (ls : List Nat) (vals : Nat → Lane) : State :=
  (v.releaseInterval w).modGroup ((v.releaseInterval w).wave w).id.group fun g =>
    { (g.modRing ri fun r => { r with occ := r.occ ++ List.replicate ls.length true }) with
      sp := g.sp.writeAll (blocks (fun k => ring.place (ring.head + ring.occ.length + k)) 4 (fun l => (vals l).toNat) ls.zipIdx) }

section push
variable {s u : State} {w ri : Nat} {m : Mask} {vals : Nat → Lane} {n : BitVec 4} {push : Bool} (hp : (u.wave w).port n.toNat = some (ri, push))
include hp

theorem pushPort_eq : pushPort s u w n.toNat m vals =
    let ring := (u.waveGroup w).ring ri
    let ls := lanesOf (u.wave w).id.width m
    if ring.cap < ls.length then .error (.trap { code := 0x02#6, addr := opndAddr (.q n) })
    else if ring.eos.isSome || ring.dropping then .error (.trap { code := 0x12#6 })
    else if ring.room < ls.length || s.blocksOnce w ring then .error (.stall .ring (needs s w ri true ls.length))
    else if s.storesHeld w then .error (.stall .hold s)
    else if s.aodPending w then .error (.stall .settle s)
    else .ok (pushed (u.performAll w) w ri ring ls vals) := by
  rw [pushPort, hp]
  dsimp only
  rw [BitVec.ofNat_toNat, BitVec.setWidth_eq]
  rfl

section checks
variable (hc : (lanesOf (u.wave w).id.width m).length ≤ ((u.waveGroup w).ring ri).cap)

theorem pushPort_wide (hc : ((u.waveGroup w).ring ri).cap < (lanesOf (u.wave w).id.width m).length) :
    pushPort s u w n.toNat m vals = .error (.trap { code := 0x02#6, addr := opndAddr (.q n) }) := by
  rw [pushPort_eq hp]
  exact if_pos hc

include hc

theorem pushPort_ended (he : ((u.waveGroup w).ring ri).eos ≠ none ∨ ((u.waveGroup w).ring ri).dropping = true) :
    pushPort s u w n.toNat m vals = .error (.trap { code := 0x12#6 }) := by
  have ended : (((u.waveGroup w).ring ri).eos.isSome || ((u.waveGroup w).ring ri).dropping) = true := by
    simpa [Option.isSome_iff_ne_none] using he
  rw [pushPort_eq hp]
  exact (if_neg (by omega)).trans (if_pos ended)

variable (he : ((u.waveGroup w).ring ri).eos = none) (hd : ((u.waveGroup w).ring ri).dropping = false)
include he hd

theorem pushPort_open : pushPort s u w n.toNat m vals =
    let ring := (u.waveGroup w).ring ri
    let ls := lanesOf (u.wave w).id.width m
    if ring.room < ls.length || s.blocksOnce w ring then .error (.stall .ring (needs s w ri true ls.length))
    else if s.storesHeld w then .error (.stall .hold s)
    else if s.aodPending w then .error (.stall .settle s)
    else .ok (pushed (u.performAll w) w ri ring ls vals) := by
  rw [pushPort_eq hp]
  exact (if_neg (by omega)).trans (if_neg (by simp [he, hd]))

theorem pushPort_waits (h : ((u.waveGroup w).ring ri).room < (lanesOf (u.wave w).id.width m).length ∨ s.blocksOnce w ((u.waveGroup w).ring ri) = true) :
    pushPort s u w n.toNat m vals = .error (.stall .ring (needs s w ri true (lanesOf (u.wave w).id.width m).length)) := by
  rw [pushPort_open hp hc he hd]
  exact if_pos (by simpa using h)

variable (hr : (lanesOf (u.wave w).id.width m).length ≤ ((u.waveGroup w).ring ri).room) (hb : s.blocksOnce w ((u.waveGroup w).ring ri) = false)
include hr hb

theorem pushPort_room : pushPort s u w n.toNat m vals =
    if s.storesHeld w then .error (.stall .hold s)
    else if s.aodPending w then .error (.stall .settle s)
    else .ok (pushed (u.performAll w) w ri ((u.waveGroup w).ring ri) (lanesOf (u.wave w).id.width m) vals) := by
  rw [pushPort_open hp hc he hd]
  exact if_neg (by simp [hb, hr])

end checks
end push

/-- A check that stops an instruction stops it whatever would follow. -/
theorem ite_stops {α : Type} {c : Prop} [Decidable c] {a b b' : Eff α} {e : Stop} (hb : b = .error e → b' = .error e)
    (h : (if c then a else b) = .error e) : (if c then a else b') = .error e := by
  by_cases hc : c
  · rwa [if_pos hc] at h ⊢
  · rw [if_neg hc] at h ⊢
    exact hb h

/-- Whether a push stops, and where, does not rest on the values pushed. -/
theorem pushPort_stops {s u : State} {w : Nat} {n : BitVec 4} {m : Mask} {vals : Nat → Lane} {e : Stop} (h : pushPort s u w n.toNat m vals = .error e)
    (vals' : Nat → Lane) : pushPort s u w n.toNat m vals' = .error e := by
  cases hp : (u.wave w).port n.toNat with
  | none =>
    rw [pushPort, hp] at h ⊢
    exact h
  | some q =>
    obtain ⟨ri, push⟩ := q
    rw [pushPort_eq hp] at h ⊢
    exact ite_stops (ite_stops (ite_stops (ite_stops (ite_stops fun h => by cases h)))) h

section pushed
variable {v : State} {w g ri : Nat} {ring : Ring} {ls : List Nat} {vals : Nat → Lane} (hid : (v.wave w).id.group = g)
include hid

theorem pushed_eq : pushed v w ri ring ls vals = (v.releaseInterval w).modGroup g fun x =>
    { (x.modRing ri fun r => { r with occ := r.occ ++ List.replicate ls.length true }) with
      sp := x.sp.writeAll (blocks (fun k => ring.place (ring.head + ring.occ.length + k)) 4 (fun l => (vals l).toNat) ls.zipIdx) } := by
  have same : ((v.releaseInterval w).wave w).id = (v.wave w).id := wave_modWave_keeps (fun x => x.id) v w w rfl
  rw [pushed, same, hid]

theorem pushed_group_other {k : Nat} (hk : k ≠ g) : (pushed v w ri ring ls vals).group k = v.group k := by
  rw [pushed_eq hid, group_modGroup_other _ g k _ hk]
  rfl

theorem pushed_interval (hw : w < v.waves.length) : ((pushed v w ri ring ls vals).wave w).mem.interval = (v.wave w).mem.interval + 1 := by
  rw [pushed_eq hid]
  show ((v.releaseInterval w).wave w).mem.interval = _
  rw [State.releaseInterval, wave_modWave_same v w _ hw]

variable (hg : g < v.groups.length)
include hg

theorem pushed_group : (pushed v w ri ring ls vals).group g =
    { ((v.group g).modRing ri fun r => { r with occ := r.occ ++ List.replicate ls.length true }) with
      sp := (v.group g).sp.writeAll (blocks (fun k => ring.place (ring.head + ring.occ.length + k)) 4 (fun l => (vals l).toNat) ls.zipIdx) } := by
  rw [pushed_eq hid, group_modGroup_same (v.releaseInterval w) g _ hg]
  rfl

theorem pushed_ring (hri : ri < (v.group g).rings.length) (hr : (v.group g).ring ri = ring) :
    ((pushed v w ri ring ls vals).group g).ring ri = { ring with occ := ring.occ ++ List.replicate ls.length true } := by
  rw [pushed_group hid hg, ← hr]
  exact getD_modifyAt_same (v.group g).rings ri _ Ring.fresh hri

theorem pushed_ring_other {k : Nat} (hk : k ≠ ri) : ((pushed v w ri ring ls vals).group g).ring k = (v.group g).ring k := by
  rw [pushed_group hid hg]
  exact getD_modifyAt_other (v.group g).rings ri k _ Ring.fresh hk

variable (hsp : (v.group g).sp.wf = true)
include hsp

/-- Each lane's result stands at its place after the occupied elements. -/
theorem pushed_elem (hl : ls.length ≤ ring.room) {k : Nat} (hk : k < ls.length) :
    BitVec.ofNat 32 (((pushed v w ri ring ls vals).group g).sp.readLe (ring.place (ring.head + ring.occ.length + k)) 4) = vals (ls.getD k 0) := by
  have le : ring.room ≤ ring.cap := Nat.sub_le ..
  rw [pushed_group hid hg]
  dsimp only
  rw [readLe_blocks hsp ls _ 4 _ hk fun j hj hne => place_apart ring (by omega) (by omega) hne, show 256 ^ 4 = 2 ^ 32 by norm_num,
    Nat.mod_eq_of_lt (vals (ls.getD k 0)).isLt, BitVec.ofNat_toNat, BitVec.setWidth_eq]

theorem pushed_sp_other {a : Nat} (h : ∀ k, k < ls.length → a < ring.place (ring.head + ring.occ.length + k) ∨
    ring.place (ring.head + ring.occ.length + k) + 4 ≤ a) : ((pushed v w ri ring ls vals).group g).sp.read a = (v.group g).sp.read a := by
  rw [pushed_group hid hg]
  exact read_blocks_other hsp ls _ 4 _ h

end pushed

/-! Destinations -/

/-- A result for a push-bound port, without predicates, is what the push does. -/
theorem putLanes_q {s u : State} {w : Nat} {m : Mask} {vals : Nat → Lane} {md : BitVec 32} (n : BitVec 4) :
    putLanes s w m (.q n) { s := u, vals := vals, md := md } = (pushPort s u w n.toNat m vals).map fun r => r.modWave w id := by
  show (pushPort s u w n.toNat m vals >>= fun r => pure (r.modWave w fun x => x)) = _
  cases pushPort s u w n.toNat m vals <;> rfl

theorem putLanes_push_stops {s u : State} {w : Nat} {m : Mask} {vals : Nat → Lane} {md : BitVec 32} {n : BitVec 4} {e : Stop}
    (h : pushPort s u w n.toNat m vals = .error e) : putLanes s w m (.q n) { s := u, vals := vals, md := md } = .error e := by
  rw [putLanes_q, h]
  rfl

theorem putLanes_push_goes {s u r : State} {w : Nat} {m : Mask} {vals : Nat → Lane} {md : BitVec 32} {n : BitVec 4}
    (h : pushPort s u w n.toNat m vals = .ok r) : putLanes s w m (.q n) { s := u, vals := vals, md := md } = .ok (r.modWave w id) := by
  rw [putLanes_q, h]
  rfl

/-- Whether a result stops at its destination does not rest on its values. -/
theorem putLanes_stops {s u : State} {w : Nat} {m : Mask} {d : Opnd} {vals : Nat → Lane} {md : BitVec 32} {e : Stop}
    (h : putLanes s w m d { s := u, vals := vals, md := md } = .error e) (vals' : Nat → Lane) (md' : BitVec 32) :
    putLanes s w m d { s := u, vals := vals', md := md' } = .error e := by
  cases d with
  | q n =>
    refine putLanes_push_stops (pushPort_stops (vals := vals) ?_ vals')
    rw [putLanes_q] at h
    cases hpush : pushPort s u w n.toNat m vals with
    | error f => rw [hpush] at h; exact h
    | ok r => rw [hpush] at h; cases h
  | _ => cases h

/-! li -/

/-- Without sources nothing is popped. -/
theorem popAll_nil {s : State} {w : Nat} {m : Mask} {po : PopOut} (h : popAll true s w m [] = .ok po) :
    po = { s := s, m := m, pops := [], any := false } := (Except.ok.inj h).symm

/-- li comes to its result, which its destination takes. -/
theorem liAt_stops {s : State} {w : Nat} {gs : Guards} {t : Tag} {d : Opnd} {k : BitVec 32} {f : LaneForm} {po : PopOut} {e : Stop}
    (hf : form (.li gs t d k) = some f) (he : f.enters s w po)
    (h : putLanes s w po.m d { s := f.popped s w po, vals := fun _ => k, md := tagMd t } = .error e) :
    liAt (s.wave w).exec gs t d k s w = .error e := by
  cases hf
  obtain ⟨-, ⟨hc, -, -⟩, hm, hpop, hne⟩ := he
  obtain rfl := popAll_nil hpop
  have put := putLanes_stops h
  have lost : PopOut.lost { s := s, m := activeMask s w gs, pops := [], any := false } = none :=
    List.findSome?_eq_none_iff.2 fun _ _ => rfl
  have active : (s.wave w).exec &&& guardBits gs.ga (readP s w 0 gs.ga.p) &&& guardBits gs.gb (readP s w 1 gs.gb.p) = activeMask s w gs := rfl
  simp only [liAt, laneWise, hc, active, mask_nonzero hm, hpop, lost, demand, eff_ok_bind, eff_pure, Bool.false_eq_true, if_false,
    Option.isSome_some, Bool.true_or, Option.isNone_none, Bool.or_true, if_true, plainLanes, PopOut.poisons, Option.isSome_none]
  exact put _ _

/-- Settles O12: V registers and predicates by what they hold, ports by the push, li by its destination. -/
theorem laneDestinations : Obligations.LaneDestinations := by
  intro s u w m vals md ps d hw x W put
  refine ⟨?_, ?_, ?_, ?_⟩
  · rintro n rfl hn hl
    exact putLanes_vreg hw hn hl
  · rintro p bits hd rfl hx
    exact putLanes_pred hw hd hx
  · rintro n ri push rfl rfl hp ring ls v g
    refine ⟨fun hc => putLanes_push_stops (pushPort_wide hp hc), fun hc => ⟨fun he => putLanes_push_stops (pushPort_ended hp hc he),
      fun he hd => ⟨fun hr => putLanes_push_stops (pushPort_waits hp hc he hd hr), fun hr hb => ⟨fun hh => ?_, fun hh ha => ?_,
        fun hh ha hg hri hsp => ?_⟩⟩⟩⟩
    · exact putLanes_push_stops ((pushPort_room hp hc he hd hr hb).trans (if_pos hh))
    · exact putLanes_push_stops ((pushPort_room hp hc he hd hr hb).trans ((if_neg (Bool.eq_false_iff.1 hh)).trans (if_pos ha)))
    · have go : pushPort s u w n.toNat m vals = .ok (pushed v w ri ring ls vals) :=
        (pushPort_room hp hc he hd hr hb).trans ((if_neg (Bool.eq_false_iff.1 hh)).trans (if_neg (Bool.eq_false_iff.1 ha)))
      have hid : (v.wave w).id.group = g := congrArg WaveId.group ((frame_wave (fun x => x.id) (fun _ _ => rfl) (fun _ _ => rfl) w).performAll u w)
      have groups : v.groups.length = u.groups.length := frame_groupCount.performAll u w
      have waves : v.waves.length = u.waves.length := frame_waveCount.performAll u w
      have rings : (v.group g).rings = (u.group g).rings := (frame_rings g).performAll u w
      have hg' : g < v.groups.length := by rw [groups]; exact hg
      have hri' : ri < (v.group g).rings.length := by rw [rings]; exact hri
      have hring : (v.group g).ring ri = ring := by rw [Group.ring, rings]; rfl
      refine ⟨(pushed v w ri ring ls vals).modWave w id, putLanes_push_goes go, rfl, ?_⟩
      rw [wave_modWave_keeps (fun x => x.mem.interval) (pushed v w ri ring ls vals) w w rfl]
      simp only [modWave_group]
      exact ⟨pushed_interval hid (by rw [waves]; exact hw), fun k hk => pushed_group_other hid hk, pushed_ring hid hg' hri' hring,
        fun k hk => pushed_ring_other hid hg' hk, fun k hk => pushed_elem hid hg' hsp hr hk, fun a ha' => pushed_sp_other hid hg' hsp ha'⟩
  · rintro i f po gs t k rfl hf he
    refine ⟨fun e h => ?_, fun why q h => ?_⟩
    · show execLi gs t d k s = _
      exact issue_traps he.1 (liAt_stops hf he h)
    · show execLi gs t d k s = _
      exact issue_stalls he.1 (liAt_stops hf he h)

end Sys2Proof.Proofs
end

section
/-! PROOF. Words of instructions: the fields are read back from their word, and the fields of a well-formed instruction decode to it
(spec/02 R37 to R45). -/

open Sys2Proof Sys2Proof.Laws

namespace Sys2Proof.Proofs

/-- Reading the fields of a word gives the fields that it was made of. -/
theorem ofWord_toWord (f : Fields) (sc : BitVec 2) : Fields.ofWord (f.toWord sc) = f := by
  obtain ⟨op, ga, gb, d, a, b, c, e, m⟩ := f
  simp only [Fields.ofWord, Fields.toWord, Fields.mk.injEq]
  refine ⟨?_, ?_, ?_, ?_, ?_, ?_, ?_, ?_, ?_⟩ <;>
  · ext i hi
    simp only [BitVec.getElem_extractLsb', BitVec.getLsbD_append]
    interval_cases i <;> simp

theorem schedBits_toWord (f : Fields) (sc : BitVec 2) : schedBits (f.toWord sc) = sc := by
  ext i hi
  simp only [schedBits, Fields.toWord, BitVec.getElem_extractLsb', BitVec.getLsbD_append]
  interval_cases i <;> simp

/-- The fields of a well-formed instruction decode to it. -/
theorem decodeFields_fields (i : Instr) : FieldRoundTrip.Statement i := by
  cases i with
  | nop => exact FieldRoundTrip.nop _
  | bru => exact FieldRoundTrip.bru _
  | brs => exact FieldRoundTrip.brs _ _ _
  | jmps => exact FieldRoundTrip.jmps _
  | call => exact FieldRoundTrip.call _ _
  | calls => exact FieldRoundTrip.calls _ _
  | ret => exact FieldRoundTrip.ret _
  | wait => exact FieldRoundTrip.wait _ _ _ _
  | yield => exact FieldRoundTrip.yield
  | bar => exact FieldRoundTrip.bar _ _
  | bara => exact FieldRoundTrip.bara _ _
  | barw => exact FieldRoundTrip.barw _ _
  | exitw => exact FieldRoundTrip.exitw
  | clkrd => exact FieldRoundTrip.clkrd _
  | sadd => exact FieldRoundTrip.sadd _ _ _ _
  | ssub => exact FieldRoundTrip.ssub _ _ _ _
  | smul => exact FieldRoundTrip.smul _ _ _
  | smulh => exact FieldRoundTrip.smulh _ _ _ _
  | sdiv => exact FieldRoundTrip.sdiv _ _ _ _
  | srem => exact FieldRoundTrip.srem _ _ _ _
  | sand => exact FieldRoundTrip.sand _ _ _
  | sor => exact FieldRoundTrip.sor _ _ _
  | sxor => exact FieldRoundTrip.sxor _ _ _
  | sshl => exact FieldRoundTrip.sshl _ _ _
  | sshr => exact FieldRoundTrip.sshr _ _ _
  | ssar => exact FieldRoundTrip.ssar _ _ _
  | smin => exact FieldRoundTrip.smin _ _ _ _
  | smax => exact FieldRoundTrip.smax _ _ _ _
  | scmp => exact FieldRoundTrip.scmp _ _ _ _
  | ssel => exact FieldRoundTrip.ssel _ _ _ _
  | smov => exact FieldRoundTrip.smov _ _
  | sli => exact FieldRoundTrip.sli _ _
  | slih => exact FieldRoundTrip.slih _ _
  | spopc => exact FieldRoundTrip.spopc _ _
  | sclz => exact FieldRoundTrip.sclz _ _
  | sbfe => exact FieldRoundTrip.sbfe _ _ _ _ _
  | sbfi => exact FieldRoundTrip.sbfi _ _ _ _
  | srdsp => exact FieldRoundTrip.srdsp _ _ _
  | swrsp => exact FieldRoundTrip.swrsp _ _ _
  | add => exact FieldRoundTrip.add _ _ _ _ _ _
  | sub => exact FieldRoundTrip.sub _ _ _ _ _ _
  | mul => exact FieldRoundTrip.mul _ _ _ _ _ _
  | mad => exact FieldRoundTrip.mad _ _ _ _ _ _ _
  | min => exact FieldRoundTrip.min _ _ _ _ _
  | max => exact FieldRoundTrip.max _ _ _ _ _
  | neg => exact FieldRoundTrip.neg _ _ _ _ _
  | abs => exact FieldRoundTrip.abs _ _ _ _ _
  | cmp => exact FieldRoundTrip.cmp _ _ _ _ _ _
  | sel => exact FieldRoundTrip.sel _ _ _ _ _ _
  | dot => exact FieldRoundTrip.dot _ _ _ _ _ _ _
  | acs => exact FieldRoundTrip.acs _ _ _ _ _ _
  | and => exact FieldRoundTrip.and _ _ _ _ _
  | or => exact FieldRoundTrip.or _ _ _ _ _
  | xor => exact FieldRoundTrip.xor _ _ _ _ _
  | not => exact FieldRoundTrip.not _ _ _ _
  | shl => exact FieldRoundTrip.shl _ _ _ _ _
  | shr => exact FieldRoundTrip.shr _ _ _ _ _
  | sar => exact FieldRoundTrip.sar _ _ _ _ _
  | rot => exact FieldRoundTrip.rot _ _ _ _ _
  | bfe => exact FieldRoundTrip.bfe _ _ _ _ _ _ _
  | bfi => exact FieldRoundTrip.bfi _ _ _ _ _ _
  | popc => exact FieldRoundTrip.popc _ _ _ _
  | clz => exact FieldRoundTrip.clz _ _ _ _
  | brev => exact FieldRoundTrip.brev _ _ _ _
  | mulhi => exact FieldRoundTrip.mulhi _ _ _ _ _
  | cvt => exact FieldRoundTrip.cvt _ _ _ _ _ _
  | pack => exact FieldRoundTrip.pack _ _ _ _
  | unpk => exact FieldRoundTrip.unpk _ _ _ _
  | rcp => exact FieldRoundTrip.rcp _ _ _ _
  | rsq => exact FieldRoundTrip.rsq _ _ _ _
  | sqrt => exact FieldRoundTrip.sqrt _ _ _ _
  | exp2 => exact FieldRoundTrip.exp2 _ _ _ _
  | log2 => exact FieldRoundTrip.log2 _ _ _ _
  | sin => exact FieldRoundTrip.sin _ _ _ _
  | cos => exact FieldRoundTrip.cos _ _ _ _
  | rand => exact FieldRoundTrip.rand _ _
  | tagset => exact FieldRoundTrip.tagset _ _ _ _ _
  | tagsetPort => exact FieldRoundTrip.tagsetPort _ _ _ _ _ _
  | tagget => exact FieldRoundTrip.tagget _ _
  | metard => exact FieldRoundTrip.metard _ _
  | metawr => exact FieldRoundTrip.metawr _ _
  | mov => exact FieldRoundTrip.mov _ _ _
  | movPort => exact FieldRoundTrip.movPort _ _ _ _
  | movTag => exact FieldRoundTrip.movTag _ _ _ _
  | li => exact FieldRoundTrip.li _ _ _ _
  | dbr => exact FieldRoundTrip.dbr _ _ _
  | join => exact FieldRoundTrip.join
  | brk => exact FieldRoundTrip.brk _ _ _
  | exitl => exact FieldRoundTrip.exitl _
  | vote => exact FieldRoundTrip.vote _ _ _ _
  | shfl => exact FieldRoundTrip.shfl _ _ _ _ _ _
  | perm => exact FieldRoundTrip.perm _ _ _ _ _
  | bcst => exact FieldRoundTrip.bcst _ _ _ _ _
  | scan => exact FieldRoundTrip.scan _ _ _ _ _
  | regrp => exact FieldRoundTrip.regrp
  | ungrp => exact FieldRoundTrip.ungrp
  | xeq => exact FieldRoundTrip.xeq _ _ _
  | maskrd => exact FieldRoundTrip.maskrd _ _ _
  | maskwr => exact FieldRoundTrip.maskwr _ _ _
  | deadrd => exact FieldRoundTrip.deadrd _
  | blen => exact FieldRoundTrip.blen _ _ _
  | bnorm => exact FieldRoundTrip.bnorm _ _ _
  | bshl => exact FieldRoundTrip.bshl _ _ _ _
  | bshr => exact FieldRoundTrip.bshr _ _ _ _
  | bcmp => exact FieldRoundTrip.bcmp _ _ _ _ _
  | bdivs => exact FieldRoundTrip.bdivs _ _ _ _ _
  | cres => exact FieldRoundTrip.cres _ _ _ _ _
  | bsplit => exact FieldRoundTrip.bsplit _ _ _
  | bjoin => exact FieldRoundTrip.bjoin _ _ _ _
  | baddc => exact FieldRoundTrip.baddc _ _ _ _ _
  | bsubc => exact FieldRoundTrip.bsubc _ _ _ _ _
  | bmulw => exact FieldRoundTrip.bmulw _ _ _ _ _
  | bmodw => exact FieldRoundTrip.bmodw _ _ _ _
  | btom => exact FieldRoundTrip.btom _ _ _ _ _ _
  | lmulm => exact FieldRoundTrip.lmulm _ _ _ _ _ _
  | bopm => exact FieldRoundTrip.bopm _ _ _ _ _ _ _ _
  | ld => exact FieldRoundTrip.ld _ _ _ _ _ _ _ _
  | ldt => exact FieldRoundTrip.ldt _ _ _ _ _ _ _ _
  | st => exact FieldRoundTrip.st _ _ _ _ _ _ _ _
  | lds => exact FieldRoundTrip.lds _ _ _ _ _ _ _
  | sts => exact FieldRoundTrip.sts _ _ _ _ _ _ _
  | ldb => exact FieldRoundTrip.ldb _ _ _ _ _ _ _ _
  | stb => exact FieldRoundTrip.stb _ _ _ _ _ _ _
  | atomAdd => exact FieldRoundTrip.atomAdd _ _ _ _ _ _ _ _ _
  | atomMin => exact FieldRoundTrip.atomMin _ _ _ _ _ _ _ _ _
  | atomMax => exact FieldRoundTrip.atomMax _ _ _ _ _ _ _ _ _
  | atomAnd => exact FieldRoundTrip.atomAnd _ _ _ _ _ _ _ _ _
  | atomOr => exact FieldRoundTrip.atomOr _ _ _ _ _ _ _ _ _
  | atomXor => exact FieldRoundTrip.atomXor _ _ _ _ _ _ _ _ _
  | atomExch => exact FieldRoundTrip.atomExch _ _ _ _ _ _ _ _ _
  | atomFadd => exact FieldRoundTrip.atomFadd _ _ _ _ _ _ _ _ _
  | cas => exact FieldRoundTrip.cas _ _ _ _ _ _ _ _ _
  | aod => exact FieldRoundTrip.aod _ _ _ _ _ _ _ _
  | fence => exact FieldRoundTrip.fence _ _
  | mwait => exact FieldRoundTrip.mwait _ _ _ _ _ _ _ _ _
  | prf => exact FieldRoundTrip.prf _ _ _ _ _
  | l1inv => exact FieldRoundTrip.l1inv
  | ringdef => exact FieldRoundTrip.ringdef _ _ _ _ _
  | ringclrDrop => exact FieldRoundTrip.ringclrDrop _
  | ringclrStop => exact FieldRoundTrip.ringclrStop _
  | qbind => exact FieldRoundTrip.qbind _ _ _
  | qbindUn => exact FieldRoundTrip.qbindUn _
  | qpeek => exact FieldRoundTrip.qpeek _ _ _ _
  | qeos => exact FieldRoundTrip.qeos _ _
  | qstat => exact FieldRoundTrip.qstat _ _
  | slay => exact FieldRoundTrip.slay _ _ _ _ _ _
  | scmdFill => exact FieldRoundTrip.scmdFill _ _ _ _ _ _
  | scmdDrain => exact FieldRoundTrip.scmdDrain _ _ _ _ _ _
  | scmdCopy => exact FieldRoundTrip.scmdCopy _ _ _ _ _ _
  | scmdMcast => exact FieldRoundTrip.scmdMcast _ _ _ _ _ _
  | scmdRfill => exact FieldRoundTrip.scmdRfill _ _ _ _ _ _ _
  | scmdRdrain => exact FieldRoundTrip.scmdRdrain _ _ _ _ _ _ _
  | scmdStamp => exact FieldRoundTrip.scmdStamp _ _ _ _ _
  | scmdColl => exact FieldRoundTrip.scmdColl _ _ _ _ _ _
  | mloop => exact FieldRoundTrip.mloop _ _ _ _ _ _
  | mzero => exact FieldRoundTrip.mzero _ _ _ _
  | mldt => exact FieldRoundTrip.mldt _ _ _ _ _ _ _ _
  | mldtScale => exact FieldRoundTrip.mldtScale _ _ _ _ _ _
  | mstt => exact FieldRoundTrip.mstt _ _ _ _ _ _ _ _ _
  | msttScale => exact FieldRoundTrip.msttScale _ _ _ _ _ _
  | mfence => exact FieldRoundTrip.mfence _ _
  | mprg => exact FieldRoundTrip.mprg _ _ _
  | mtab => exact FieldRoundTrip.mtab _ _ _ _ _
  | mred => exact FieldRoundTrip.mred _ _ _ _ _
  | mlift => exact FieldRoundTrip.mlift _ _ _ _
  | nttf => exact FieldRoundTrip.nttf _ _ _ _ _
  | ntti => exact FieldRoundTrip.ntti _ _ _ _ _
  | auto => exact FieldRoundTrip.auto _ _ _ _ _ _ _
  | ctchk => exact FieldRoundTrip.ctchk _ _ _ _ _ _ _
  | ctresc => exact FieldRoundTrip.ctresc _ _ _ _
  | ctlvl => exact FieldRoundTrip.ctlvl _ _ _ _
  | halloc => exact FieldRoundTrip.halloc _ _ _ _ _
  | hfree => exact FieldRoundTrip.hfree _
  | hstat => exact FieldRoundTrip.hstat _ _
  | mark => exact FieldRoundTrip.mark _
  | scrdl => exact FieldRoundTrip.scrdl _ _ _ _ _
  | tierq => exact FieldRoundTrip.tierq _ _ _ _ _ _ _
  | launch => exact FieldRoundTrip.launch _ _ _ _
  | nrec => exact FieldRoundTrip.nrec _ _ _ _ _ _
  | nflush => exact FieldRoundTrip.nflush _ _ _
  | grow => exact FieldRoundTrip.grow _ _ _
  | shrink => exact FieldRoundTrip.shrink _
  | enrd => exact FieldRoundTrip.enrd _ _
  | trap => exact FieldRoundTrip.trap _ _
  | rte => exact FieldRoundTrip.rte
  | bkpt => exact FieldRoundTrip.bkpt _
  | csrd => exact FieldRoundTrip.csrd _ _
  | cswr => exact FieldRoundTrip.cswr _ _
  | tlbinvPage => exact FieldRoundTrip.tlbinvPage _ _
  | tlbinvCtx => exact FieldRoundTrip.tlbinvCtx _
  | tlbinvAll => exact FieldRoundTrip.tlbinvAll
  | cmmt => exact FieldRoundTrip.cmmt
  | wkill => exact FieldRoundTrip.wkill _
  | prmtSave => exact FieldRoundTrip.prmtSave _ _
  | prmtRestore => exact FieldRoundTrip.prmtRestore _ _
  | _ => intro _ _ h; cases h

/-- Settles O47: the word gives the fields back, and the fields the instruction. -/
theorem decodeReadsWhatEncodeWrites : Obligations.DecodeReadsWhatEncodeWrites := by
  intro i sc word hi he
  obtain ⟨f, hf, rfl⟩ := Option.map_eq_some_iff.1 he
  exact ⟨(congrArg decodeFields (ofWord_toWord f sc)).trans (decodeFields_fields i hi f hf), schedBits_toWord f sc⟩

end Sys2Proof.Proofs
end

section
/-! PROOF. Scalar instructions that compute: each writes its value to D, with the values of sums, products, quotients, shifts, counts and
fields as the spec gives them (spec/02 R84 to R90). -/

open Sys2Proof Sys2Proof.Machine Sys2Proof.Claims

namespace Sys2Proof.Proofs

/-! The shape of a scalar instruction -/

section shape
variable {s r : State} {w : Nat} {d a b c : Opnd} {x y z v : Word} (hw : s.running = some w)
include hw

theorem scalar1_completes {f : Word → Word} (hc : checkOps s w [(d, .scalarDest), (a, .uniform)] = .ok ())
    (hx : uni1 s w a = .ok x) (hv : f x = v) (hr : s.putScalar w d v = .ok r) :
    issue s (scalar1 d a f s) = .next (completed s w r) :=
  issue_completes hw (by simp only [scalar1, hc, hx, eff_ok_bind, hv, hr])

theorem scalar2_completes {f : Word → Word → Word} (h : scalarReads s w d a b x y) (hv : f x y = v)
    (hr : s.putScalar w d v = .ok r) : issue s (scalar2 d a b f s) = .next (completed s w r) :=
  issue_completes hw (by simp only [scalar2, h.1, h.2, eff_ok_bind, hv, hr])

theorem scalar3_completes {f : Word → Word → Word → Word} (h : scalarReads3 s w d a b c x y z)
    (hv : f x y z = v) (hr : s.putScalar w d v = .ok r) : issue s (scalar3 d a b c f s) = .next (completed s w r) :=
  issue_completes hw (by simp only [scalar3, h.1, h.2, eff_ok_bind, hv, hr])

/-- A sum or difference writes D, then CY. -/
theorem scalarCarry_completes {f : Word → Word → Bool → Word × Bool} {cin k : Bool}
    (h : scalarReads s w d a b x y) (hv : f x y (cin && (s.wave w).carry) = (v, k)) (hr : s.putScalar w d v = .ok r) :
    issue s (scalarCarry d a b cin f s) = .next (completed s w (r.modWave w fun q => q.setCarry k)) :=
  issue_completes hw (by simp only [scalarCarry, h.1, h.2, eff_ok_bind, hv, hr, eff_pure])

theorem scalarDiv_completes {f : Word → Word → Word} (h : scalarReads s w d a b x y) (hy : y ≠ 0)
    (hv : f x y = v) (hr : s.putScalar w d v = .ok r) : issue s (scalarDiv d a b f s) = .next (completed s w r) :=
  issue_completes hw (by simp only [scalarDiv, h.1, h.2, eff_ok_bind, demand_of (bne_iff_ne.2 hy), hv, hr])

theorem scalarDiv_by_zero {f : Word → Word → Word} (h : scalarReads s w d a b x y) (hy : y = 0) :
    issue s (scalarDiv d a b f s) = .next (s.trapped w { code := 0x0A#6 }) :=
  issue_traps hw (by simp only [scalarDiv, h.1, h.2, eff_ok_bind]; exact demand_stops (by simp [hy]) ..)

end shape

/-! Sums and differences -/

theorem addCarry_eq (x y : Word) (cin : Bool) : addCarry x y cin =
    (BitVec.ofNat 64 (x.toNat + y.toNat + if cin then 1 else 0), decide (2 ^ 64 ≤ x.toNat + y.toNat + if cin then 1 else 0)) := by
  cases cin <;> rfl

theorem subBorrow_eq (x y : Word) (cin : Bool) : subBorrow x y cin =
    (x - y - BitVec.ofNat 64 (if cin then 1 else 0), decide (x.toNat < y.toNat + if cin then 1 else 0)) := by
  cases cin <;> simp [subBorrow, Int.sub_eq_add_neg, BitVec.ofInt_add, BitVec.ofInt_neg, BitVec.sub_eq_add_neg]

/-! Products, quotients and remainders -/

theorem mulHigh_eq (u : Bool) (x y : Word) : mulHigh u x y =
    if u then BitVec.ofNat 64 (x.toNat * y.toNat / 2 ^ 64) else BitVec.ofInt 64 (x.toInt * y.toInt / 2 ^ 64) := rfl

theorem quotient_eq (u : Bool) (x y : Word) : quotient u x y = if u then x / y else x.sdiv y := by
  cases u with
  | true => exact BitVec.udiv_def.symm
  | false => exact BitVec.eq_of_toInt_eq (by simp [quotient, BitVec.toInt_sdiv])

theorem remainder_eq (u : Bool) (x y : Word) : remainder u x y = if u then x % y else x.srem y := by
  cases u with
  | true => exact BitVec.umod_def.symm
  | false =>
    refine BitVec.eq_of_toInt_eq ?_
    simp only [remainder, Bool.false_eq_true, if_false]
    rw [BitVec.toInt_ofInt, ← BitVec.toInt_srem, BitVec.toInt_bmod_cancel]

/-! Comparisons -/

theorem scmpHolds_iff (cc : SCond) (x y : Word) : scmpHolds cc x y = match cc with
    | .eq => decide (x = y)
    | .ne => decide (x ≠ y)
    | .lt => decide (x.toInt < y.toInt)
    | .le => decide (x.toInt ≤ y.toInt)
    | .gt => decide (y.toInt < x.toInt)
    | .ge => decide (y.toInt ≤ x.toInt)
    | .ltu => decide (x.toNat < y.toNat)
    | .leu => decide (x.toNat ≤ y.toNat)
    | .gtu => decide (y.toNat < x.toNat)
    | .geu => decide (y.toNat ≤ x.toNat) := by
  rw [Bool.eq_iff_iff]
  cases cc <;> simp [scmpHolds, wordLess]

/-- Settles O57: sums write D and then CY; the other instructions write the value of their operands. -/
theorem scalarSumsAndLogic : Obligations.ScalarSumsAndLogic := by
  refine ⟨fun s w c d a b x y hw h => ⟨fun r hr => ?_, fun r hr => ?_⟩, fun s w u cc d a b x y hw h => ?_⟩
  · exact scalarCarry_completes hw h (addCarry_eq ..) hr
  · exact scalarCarry_completes hw h (subBorrow_eq ..) hr
  · refine ⟨fun r hr => ?_, fun r hr => ?_, fun r hr => ?_, fun r hr => ?_, fun r hr => ?_, fun r hr => ?_, fun r hr => ?_, fun r hr => ?_⟩
    · exact scalar2_completes hw h (by simp [BitVec.ofNat_mul]) hr
    · exact scalar2_completes hw h (mulHigh_eq ..) hr
    · exact scalar2_completes hw h rfl hr
    · exact scalar2_completes hw h rfl hr
    · exact scalar2_completes hw h rfl hr
    · exact scalar2_completes hw h rfl hr
    · exact scalar2_completes hw h rfl hr
    · exact scalar2_completes hw h (congrArg (fun k : Bool => if k then (1 : Word) else 0) (scmpHolds_iff cc x y)) hr

/-- Settles O1: a quotient or a remainder is written where the divisor is not 0, and 0x0A raised where it is. -/
theorem scalarDivisionResults : Obligations.ScalarDivisionResults := by
  intro s w u d a b x y hw h
  refine ⟨fun r hy hr => ?_, fun r hy hr => ?_, fun hy => ⟨?_, ?_⟩, ?_, ?_, ?_⟩
  · exact scalarDiv_completes hw h hy (quotient_eq u x y) hr
  · exact scalarDiv_completes hw h hy (remainder_eq u x y) hr
  · exact scalarDiv_by_zero hw h hy
  · exact scalarDiv_by_zero hw h hy
  · rintro rfl rfl
    decide
  · cases u <;> rfl
  · cases u <;> rfl



/-! Shifts -/

theorem shiftLeft_min (x : Word) (n : Nat) : x <<< min 64 n = if 64 ≤ n then 0 else BitVec.ofNat 64 (x.toNat * 2 ^ n) := by
  split
  · rw [min_eq_left ‹_›]; exact BitVec.shiftLeft_eq_zero le_rfl
  · rw [min_eq_right (by omega)]; exact BitVec.eq_of_toNat_eq (by simp [Nat.shiftLeft_eq])

theorem shiftRight_min (x : Word) (n : Nat) : x >>> min 64 n = if 64 ≤ n then 0 else BitVec.ofNat 64 (x.toNat / 2 ^ n) := by
  split
  · rw [min_eq_left ‹_›]; exact BitVec.ushiftRight_eq_zero le_rfl
  · rw [min_eq_right (by omega)]
    refine BitVec.eq_of_toNat_eq ?_
    rw [BitVec.toNat_ushiftRight, Nat.shiftRight_eq_div_pow, BitVec.toNat_ofNat, Nat.mod_eq_of_lt]
    exact (Nat.div_le_self ..).trans_lt x.isLt

theorem sshiftRight_min (x : Word) (n : Nat) : x.sshiftRight (min 64 n) =
    if 64 ≤ n then (if x.msb then BitVec.allOnes 64 else 0) else BitVec.ofInt 64 (x.toInt / 2 ^ n) := by
  split
  · rw [min_eq_left ‹_›]
    ext i hi
    rw [BitVec.getElem_sshiftRight]
    cases x.msb <;> simp [-BitVec.reduceAllOnes]
  · rw [min_eq_right (by omega), ← BitVec.ofInt_toInt (x := x.sshiftRight n), BitVec.toInt_sshiftRight, Int.shiftRight_eq_div_pow]
    rfl

/-- Settles O2: a count of 64 or more shifts every bit out. -/
theorem scalarShiftResults : Obligations.ScalarShiftResults := by
  intro s w d a b x y hw h
  exact ⟨fun r hr => scalar2_completes hw h (shiftLeft_min ..) hr, fun r hr => scalar2_completes hw h (shiftRight_min ..) hr,
    fun r hr => scalar2_completes hw h (sshiftRight_min ..) hr, rfl, rfl, rfl⟩

/-! Counts of bits -/

theorem popCount_eq (n x : Nat) : popCount n x = ((List.range n).filter fun i => x.testBit i).length := by
  induction n generalizing x with
  | zero => rfl
  | succ n ih =>
    rw [popCount, ih, List.range_succ_eq_map, List.filter_cons, List.filter_map, Nat.testBit_zero]
    have hf : ((fun i => x.testBit i) ∘ Nat.succ) = fun i => (x / 2).testBit i := funext fun i => Nat.testBit_succ x i
    rw [hf]
    rcases Nat.mod_two_eq_zero_or_one x with h | h <;> simp [h, Nat.add_comm]

theorem leadingZeros_eq (n x : Nat) : leadingZeros n x = ((List.range n).reverse.takeWhile fun i => !x.testBit i).length := by
  induction n with
  | zero => rfl
  | succ n ih =>
    rw [leadingZeros, List.range_succ, List.reverse_append, List.reverse_singleton, List.singleton_append, List.takeWhile_cons]
    cases h : x.testBit n <;> simp [ih, Nat.add_comm]

/-! Fields -/

theorem count7 (y : Word) : (y.extractLsb' 0 7).toNat = y.toNat % 128 := by simp [BitVec.extractLsb'_toNat]

theorem signedOf_eq (k n : Nat) : signedOf k n = (BitVec.ofNat k n).toInt := by
  rw [BitVec.toInt_eq_toNat_cond, BitVec.toNat_ofNat]
  rfl

theorem scalarField_eq (g : Bool) (x y z : Word) : scalarField g x y z =
    let p := y.toNat % 128
    let k := min (p + z.toNat % 128) 64 - p
    if z.toNat % 128 = 0 ∨ 64 ≤ p then 0
    else if g then (BitVec.ofNat k (x.toNat / 2 ^ p)).signExtend 64 else (BitVec.ofNat k (x.toNat / 2 ^ p)).zeroExtend 64 := by
  have hmod : ∀ k n, BitVec.ofNat k (n % 2 ^ k) = BitVec.ofNat k n := fun k n => BitVec.eq_of_toNat_eq (by simp)
  simp only [scalarField, count7, Bool.or_eq_true, beq_iff_eq, decide_eq_true_eq, Nat.shiftRight_eq_div_pow, signedOf_eq, hmod]
  split
  · rfl
  · cases g with
    | true => rfl
    | false => exact BitVec.eq_of_toNat_eq (by simp)

theorem getLsbD_insertWord (old x y z : Word) {i : Nat} (hi : i < 64) : (insertWord old x y z).getLsbD i =
    if y.toNat % 128 ≤ i ∧ i < y.toNat % 128 + z.toNat % 128 then x.getLsbD (i - y.toNat % 128) else old.getLsbD i := by
  simp only [insertWord, count7, BitVec.getLsbD_or, BitVec.getLsbD_and, BitVec.getLsbD_not, BitVec.getLsbD_ofNat, hi, decide_true,
    Bool.true_and, Nat.testBit_mul_two_pow, Nat.testBit_two_pow_sub_one]
  by_cases h1 : y.toNat % 128 ≤ i
  · by_cases h2 : i - y.toNat % 128 < z.toNat % 128
    · rw [if_pos ⟨h1, by omega⟩]; simp [h1, h2, BitVec.getLsbD]
    · rw [if_neg (by omega)]; simp [h1, h2]
  · rw [if_neg (by omega)]; simp [h1]

/-! Immediates -/

theorem checkOps_sreg (s : State) (w : Nat) (n : BitVec 6) : checkOps s w [(.s n, .onlyS)] = .ok () := by
  simp [checkOps, namesTrapState, State.accepts, Accept.onlyS]

/-- Another destination than an S register is none of an immediate's. -/
theorem checkOps_onlyS_refused {s : State} {w : Nat} {d : Opnd} (hd : ∀ n, d ≠ .s n) (ht : ¬ (namesTrapState d ∧ (s.wave w).tr.hm = false)) :
    checkOps s w [(d, .onlyS)] = .error (.trap { code := 0x02#6, addr := d.code.zeroExtend 64 }) := by
  have hx : s.accepts w .onlyS d = false := by
    cases d with
    | s n => exact absurd rfl (hd n)
    | q n => simp [State.accepts, Accept.onlyS]
    | _ => simp [State.accepts, Accept.onlyS]
  have hn : (!(s.wave w).tr.hm && namesTrapState d) = false := by
    cases hm : (s.wave w).tr.hm <;> simp_all
  simp only [checkOps, List.any_cons, List.any_nil, Bool.or_false, hn, Bool.false_eq_true, if_false, List.find?_cons, hx, Bool.not_false]
  rfl

/-- Settles O3: each instruction by the value of its function, sli and slih by the check of their destination. -/
theorem scalarMovesAndFields : Obligations.ScalarMovesAndFields := by
  intro s w g d a b c imm x y z old hw gives
  refine ⟨fun hc hx => ⟨fun r hr => ?_, fun r hr => ?_, fun r hr => ?_⟩, fun n hn => ⟨fun r hr => ?_, fun r hr => ?_⟩,
    fun h => ⟨fun r hr => ?_, fun r hr => ?_, fun v ho hv r hr => ?_⟩, fun hd ht => ⟨?_, ?_⟩⟩
  · exact scalar1_completes hw hc hx rfl hr
  · exact scalar1_completes hw hc hx (congrArg (BitVec.ofNat 64) (popCount_eq 64 x.toNat)) hr
  · exact scalar1_completes hw hc hx (congrArg (BitVec.ofNat 64) (leadingZeros_eq 64 x.toNat)) hr
  · subst hn
    exact issue_completes hw (by simp only [checkOps_sreg, eff_ok_bind]; exact hr)
  · subst hn
    exact issue_completes hw (by simp only [checkOps_sreg, eff_ok_bind]; exact hr)
  · exact scalar3_completes hw h (by by_cases hz : z = 0 <;> simp [hz]) hr
  · exact scalar3_completes hw h (scalarField_eq g x y z) hr
  · have go : insertWord old x y z = v :=
      BitVec.eq_of_getLsbD_eq fun i hi => (getLsbD_insertWord old x y z hi).trans (hv i hi).symm
    exact issue_completes hw (by simp only [h.1, h.2, ho, eff_ok_bind, go, hr])
  · exact issue_traps hw (by rw [checkOps_onlyS_refused hd ht]; rfl)
  · exact issue_traps hw (by rw [checkOps_onlyS_refused hd ht]; rfl)

end Sys2Proof.Proofs
end

section
/-! PROOF. What a write to each kind of scalar destination leaves (spec/02 R40, R90, spec/03 R101, spec/05 R212, spec/09 R295, spec/11
R345 to R350). -/

open Sys2Proof Sys2Proof.Machine Sys2Proof.Claims

namespace Sys2Proof.Proofs

/-! Fields of a word -/

theorem field_eq (v : Word) (lo n : Nat) : (v.extractLsb' lo n).toNat = v.toNat / 2 ^ lo % 2 ^ n := by
  rw [BitVec.extractLsb'_toNat, Nat.shiftRight_eq_div_pow]

theorem field_beq (v : Word) (lo n : Nat) (k : BitVec n) : (v.extractLsb' lo n == k) = decide (v.toNat / 2 ^ lo % 2 ^ n = k.toNat) := by
  rw [← field_eq, Bool.eq_iff_iff, beq_iff_eq, decide_eq_true_eq, BitVec.toNat_inj]

/-- One bit of a word is taken from another word. -/
theorem getLsbD_keepBit (v old : Word) {n k : Nat} (hk : k < 64) :
    ((v &&& ~~~ (BitVec.twoPow 64 n)) ||| (old &&& BitVec.twoPow 64 n)).getLsbD k = if k = n then old.getLsbD n else v.getLsbD k := by
  by_cases h : k = n
  · subst h; simp [hk]
  · simp [hk, h]

/-! Values that specials accept -/

theorem amrOk_eq (v : Word) : amrOk v = decide (v.toNat / 2 ^ 0 % 2 ^ 3 < 6 ∧ v.toNat / 2 ^ 3 % 2 ^ 2 ≠ 3 ∧ v.toNat / 2 ^ 5 % 2 ^ 2 < 2 ∧
    v.toNat / 2 ^ 15 % 2 ^ 17 = 0) := by
  have h6 : (!v.getLsbD 6) = decide (v.toNat / 2 ^ 5 % 2 ^ 2 < 2) := by
    rw [BitVec.getLsbD, Nat.testBit_eq_decide_div_mod_eq, ← decide_not, decide_eq_decide]
    omega
  rw [amrOk, h6, bne, field_beq, field_beq, field_eq]
  simp [Bool.and_assoc]

theorem xprogOk_eq (v : Word) : xprogOk v = decide (v.toNat / 2 ^ 11 % 2 ^ 19 = 0) := field_beq v 11 19 0

theorem nttthrOk_eq (v : Word) : (v.extractLsb' 18 14 == 0#14 && decide ((v.extractLsb' 0 18).toNat ≤ 131072)) =
    decide (v.toNat / 2 ^ 0 % 2 ^ 18 ≤ 131072 ∧ v.toNat / 2 ^ 18 % 2 ^ 14 = 0) := by
  rw [field_beq, field_eq, Bool.and_comm, Bool.decide_and]; rfl

/-- Two fields that have to be zero. -/
theorem fieldsZero_eq (v : Word) (lo n lo' n' : Nat) : (v.extractLsb' lo n == 0 && v.extractLsb' lo' n' == 0) =
    decide (v.toNat / 2 ^ lo % 2 ^ n = 0 ∧ v.toNat / 2 ^ lo' % 2 ^ n' = 0) := by
  rw [field_beq, field_beq, Bool.decide_and]; rfl

theorem fieldsZero_comm (v : Word) (lo n lo' n' : Nat) : (v.extractLsb' lo n == 0 && v.extractLsb' lo' n' == 0) =
    decide (v.toNat / 2 ^ lo' % 2 ^ n' = 0 ∧ v.toNat / 2 ^ lo % 2 ^ n = 0) := by
  rw [Bool.and_comm, fieldsZero_eq]

/-! The write of a special -/

theorem demand_ok_eq {α : Type} (ok : Bool) (code : BitVec 6) (addr : Word) (t : α) :
    (demand ok code addr >>= fun _ => (.ok t : Eff α)) = if ok then .ok t else .error (.trap { code := code, addr := addr }) := by
  cases ok <;> rfl

/-- smov writes what its destination accepts, and traps on a value that it refuses. -/
theorem smov_gives {s : State} {w : Nat} {d a : Opnd} {v : Word} {ok : Bool} {f : Wave → Wave} (hw : s.running = some w)
    (hc : checkOps s w [(d, .scalarDest), (a, .uniform)] = .ok ()) (hx : uni1 s w a = .ok v)
    (h : s.putScalar w d v = demand ok 0x02#6 (opndAddr d) >>= fun _ => .ok (s.modWave w f)) :
    (ok = true → exec (.smov d a) s = .next (completed s w (s.modWave w f)) ∧ onlyWave s (s.modWave w f) w) ∧
    (ok = false → exec (.smov d a) s = .next (s.trapped w { code := 0x02#6, addr := d.code.zeroExtend 64 })) := by
  refine ⟨fun hok => ⟨scalar1_completes hw hc hx rfl (by rw [id, h, hok]; rfl), onlyWave_modWave s w f⟩, fun hok => ?_⟩
  subst hok
  exact issue_traps hw (by simp only [scalar1, hc, hx, eff_ok_bind, id, h]; rfl)

/-! The streams of an engine after a write of MPROG -/

theorem getD_range_map (l : List MStream) (f : Nat → MStream → MStream) (hf : ∀ i, f i default = default) (i : Nat) :
    ((List.range l.length).map fun i => f i (l.getD i default)).getD i default = f i (l.getD i default) := by
  by_cases h : i < l.length
  · simp [List.getD, h]
  · simp [List.getD, Nat.le_of_not_lt h, hf i]

/-- A stream whose head has completed `rows` rows. -/
def headAt (rows : Nat) (t : MStream) : MStream :=
  match t.q with
  | [] => t
  | c :: q => { t with q := { c with rows := rows } :: q }

theorem setMprog_streams (m : Matrix) (v : Word) (h : m.frozen = true) : (m.setMprog v).streams =
    (List.range m.streams.length).map fun i => headAt (v.toNat >>> (16 * i) % 2 ^ 16) (m.streams.getD i default) := by
  unfold Matrix.setMprog
  rw [h]
  rfl

theorem headAt_q (rows : Nat) (t : MStream) : (headAt rows t).q = match t.q with
    | [] => []
    | c :: q => { c with rows := rows } :: q := by
  unfold headAt
  cases h : t.q <;> simp [h]

theorem setMprog_q (m : Matrix) (v : Word) (i : Nat) : ((m.setMprog v).streams.getD i default).q =
    match (m.streams.getD i default).q with
    | [] => []
    | c :: q => (if m.frozen then { c with rows := v.toNat / 2 ^ (16 * i) % 2 ^ 16 } else c) :: q := by
  cases hf : m.frozen with
  | false =>
    have same : m.setMprog v = m := by unfold Matrix.setMprog; rw [hf]; rfl
    rw [same]
    cases (m.streams.getD i default).q <;> rfl
  | true =>
    rw [setMprog_streams m v hf, getD_range_map m.streams (fun i t => headAt (v.toNat >>> (16 * i) % 2 ^ 16) t) (fun _ => rfl), headAt_q,
      Nat.shiftRight_eq_div_pow]
    rfl

/-- A write of MPROG reaches the engine of the wave's core, where there is one. -/
theorem core_setMprog_q (s : State) (c i : Nat) (v : Word) :
    ((((s.modCore c fun k => { k with mx := k.mx.setMprog v }).core c).mx.streams.getD i default).q) =
    match ((s.core c).mx.streams.getD i default).q with
    | [] => []
    | k :: q => (if (s.core c).mx.frozen then { k with rows := v.toNat / 2 ^ (16 * i) % 2 ^ 16 } else k) :: q := by
  by_cases hl : c < s.cores.length
  · rw [core_modCore_same s c _ hl]; exact setMprog_q ..
  · have hd : s.core c = default := by simp [State.core, List.getD, Nat.le_of_not_lt hl]
    have hm : (s.modCore c fun k => { k with mx := k.mx.setMprog v }).core c = default := by
      simp [State.core, List.getD, Nat.le_of_not_lt hl]
    rw [hd, hm]; rfl

theorem sreg_setS_other (x : Wave) (n k : Nat) (v : Word) (h : k ≠ n) : (x.setS n v).sreg k = x.sreg k := by
  unfold Wave.setS Wave.sreg
  cases hm : x.tr.hm with
  | false => simp [hm, List.getElem?_set_ne (Ne.symm h)]
  | true =>
    by_cases hb : 56 ≤ n <;> by_cases hk : 56 ≤ k
    · simp [hm, hb, hk, List.getElem?_set_ne (show n - 56 ≠ k - 56 by omega)]
    all_goals simp [hm, hb, hk, List.getElem?_set_ne (Ne.symm h)]

/-- A write of an S register leaves the other registers of its bank and the other bank. -/
theorem setS_banks (x : Wave) (n : BitVec 6) (v : Word) (hs : x.s.length = 64) (hb : x.hb.length = 8) :
    (x.setS n.toNat v).sreg n.toNat = v ∧ (∀ k, k < 64 → k ≠ n.toNat → (x.setS n.toNat v).sreg k = x.sreg k) ∧
    (if x.tr.hm = true ∧ 56 ≤ n.toNat then (x.setS n.toNat v).s = x.s else (x.setS n.toNat v).hb = x.hb) := by
  have hn := n.isLt
  refine ⟨sreg_setS_same x n.toNat v (by omega) (by omega), fun k hk hn => sreg_setS_other x n.toNat k v hn, ?_⟩
  by_cases h : x.tr.hm = true ∧ 56 ≤ n.toNat <;> simp [Wave.setS, h]

/-- Settles O4: each destination by the write that it takes. -/
theorem scalarDestinations : Obligations.ScalarDestinations := by
  intro s w d a v hw hl hc hx x gives part
  have put := fun (ok : Bool) (f : Wave → Wave) => @smov_gives s w d a v ok f hw hc hx
  refine ⟨fun n hd hs hb => ?_, fun hd => ?_, fun hd => ?_, fun hd => ?_, fun hd => ?_, fun hd => ?_, fun hd => ?_, fun hd => ?_, fun hd => ?_,
    fun hd => ?_, fun hd => ?_⟩ <;> subst hd
  · obtain ⟨same, other, bank⟩ := setS_banks (s.wave w) n v hs hb
    exact ⟨_, scalar1_completes hw hc hx rfl rfl, same, other, bank, by simp [scalarFrame, x], by simp [x]⟩
  · exact put true _ rfl
  · exact put true _ rfl
  · exact ⟨_, fun k hk => getLsbD_keepBit v _ hk, put _ _ (by rw [← amrOk_eq]; rfl)⟩
  · exact put _ _ (by rw [← nttthrOk_eq]; rfl)
  · exact put _ _ (by rw [← xprogOk_eq]; rfl)
  · exact ⟨_, scalar1_completes hw hc hx rfl rfl, by simp [onlyWave], by simp [x], fun i => core_setMprog_q ..⟩
  · exact put _ _ (by rw [← fieldsZero_eq]; rfl)
  · exact ⟨_, fun k hk => getLsbD_keepBit v _ hk, put _ _ (by rw [← fieldsZero_comm]; rfl)⟩
  · exact put _ _ (by rw [← xprogOk_eq]; rfl)
  · exact put _ _ (by rw [← fieldsZero_comm]; rfl)

end Sys2Proof.Proofs
end

section
/-! PROOF. The two scalar accesses of the scratchpad (spec/02 R91). -/

open Sys2Proof Sys2Proof.Machine Sys2Proof.Claims

namespace Sys2Proof.Proofs

section offset
variable {s : State} {w : Nat} {x : Word} {e : BitVec 6} {off : Int} (ho : off = x.toInt + 8 * e.toInt)
include ho

theorem spOffset_misaligned (h : off % 8 ≠ 0) :
    spOffset s w x (.imm e) = .error (.trap { code := 0x11#6, addr := BitVec.ofInt 64 (windowBase + off) }) := by
  subst ho
  exact demand_stops (by simpa using h) ..

theorem spOffset_outside (h : off % 8 = 0) (hi : ¬ (0 ≤ off ∧ off + 8 ≤ ((s.waveGroup w).spb : Int))) :
    spOffset s w x (.imm e) = .error (.trap { code := 0x10#6, addr := BitVec.ofInt 64 (windowBase + off) }) := by
  subst ho
  unfold spOffset
  dsimp only [immOf]
  rw [demand_of (by simpa using h), eff_ok_bind]
  exact demand_stops (by simpa using hi) ..

theorem spOffset_inside (h : off % 8 = 0) (hi : 0 ≤ off ∧ off + 8 ≤ ((s.waveGroup w).spb : Int)) :
    spOffset s w x (.imm e) = .ok off.toNat := by
  subst ho
  unfold spOffset
  dsimp only [immOf]
  rw [demand_of (by simpa using h), eff_ok_bind, demand_of (by simpa using hi), eff_ok_bind, eff_pure]

end offset

theorem windowAddr_eq {off : Int} (h : 0 ≤ off) : BitVec.ofNat 64 (windowBase + off.toNat) = BitVec.ofInt 64 (windowBase + off) := by
  conv_rhs => rw [← Int.toNat_of_nonneg h]
  rfl

/-- A store that enters the queue of a wave that there is. -/
theorem storeQ_enqueue (s : State) (w : Nat) (q : QStore) : ((s.modWave w fun y => y.enqueue q).wave w).mem.storeQ =
    (s.wave w).mem.storeQ ++ if w < s.waves.length then [q] else [] := by
  by_cases h : w < s.waves.length
  · rw [wave_modWave_same s w _ h, if_pos h]; rfl
  · simp [State.wave, List.getD, Nat.le_of_not_lt h]

section access
variable {s : State} {w : Nat} {n e : BitVec 6} {a c : Opnd} {x v : Word} (hw : s.running = some w)
include hw

section read
variable (hc : checkOps s w [(.s n, .onlyS), (a, .uniform), (.imm e, .onlyImm)] = .ok ()) (hx : uni1 s w a = .ok x)
include hc hx

theorem srdsp_traps {t : TrapReq} (h : spOffset s w x (.imm e) = .error (.trap t)) :
    exec (.srdsp (.s n) a (.imm e)) s = .next (s.trapped w t) :=
  issue_traps hw (by simp only [hc, hx, h, eff_ok_bind, eff_error_bind])

theorem srdsp_lost {off : Nat} (h : spOffset s w x (.imm e) = .ok off) (hl : s.lostPlace w (.sp off) 8 = true) :
    exec (.srdsp (.s n) a (.imm e)) s =
      .next (s.trapped w { code := 0x10#6, addr := BitVec.ofNat 64 (windowBase + off) }) :=
  issue_traps hw (by simp only [hc, hx, h, eff_ok_bind, hl]; rfl)

theorem srdsp_reads {off : Nat} (h : spOffset s w x (.imm e) = .ok off) (hl : s.lostPlace w (.sp off) 8 = false) :
    exec (.srdsp (.s n) a (.imm e)) s =
      .next (completed s w (s.modWave w fun y => y.setS n.toNat (BitVec.ofNat 64 (s.waveLe w (.sp off) 8)))) :=
  issue_completes hw (by simp only [hc, hx, h, eff_ok_bind, hl]; rfl)

end read

section write
variable (hc : checkOps s w [(a, .uniform), (.imm e, .onlyImm), (c, .uniform)] = .ok ()) (hx : uni2 s w a c = .ok (x, v))
include hc hx

theorem swrsp_traps {t : TrapReq} (h : spOffset s w x (.imm e) = .error (.trap t)) :
    exec (.swrsp a (.imm e) c) s = .next (s.trapped w t) :=
  issue_traps hw (by simp only [hc, hx, h, eff_ok_bind, eff_error_bind])

theorem swrsp_queues {off : Nat} (h : spOffset s w x (.imm e) = .ok off) :
    exec (.swrsp a (.imm e) c) s = .next (completed s w
      ((s.sign w [{ addr := windowBase + off, size := 8, bytes := leBytes 8 v.toNat }]).modWave w fun y =>
        y.enqueue { key := none, sp := true, bytes := placed off (leBytes 8 v.toNat) })) :=
  issue_completes hw (by simp only [hc, hx, h, eff_ok_bind]; rfl)

end write
end access

/-- Settles O5: the offset is checked first, then a lost sector. -/
theorem scalarScratchpadAccess : Obligations.ScalarScratchpadAccess := by
  intro s w n a c e x v hw off inside traps
  have misaligned (h : off % 8 ≠ 0) := spOffset_misaligned (s := s) (w := w) (x := x) (e := e) rfl h
  have outside (h : off % 8 = 0) (hi : ¬ inside) := spOffset_outside (s := s) (w := w) (x := x) (e := e) rfl h hi
  have within (h : off % 8 = 0) (hi : inside) := spOffset_inside (s := s) (w := w) (x := x) (e := e) rfl h hi
  refine ⟨fun hc hx => ⟨fun h hi hl => ?_, fun h hi hl => ?_, fun h => ?_, fun h hi => ?_⟩, fun hc hx => ⟨fun h => ?_, fun h hi => ?_, fun h hi => ?_⟩⟩
  · exact srdsp_reads hw hc hx (within h hi) hl
  · exact (srdsp_lost hw hc hx (within h hi) hl).trans (by rw [windowAddr_eq hi.1])
  · exact srdsp_traps hw hc hx (misaligned h)
  · exact srdsp_traps hw hc hx (outside h hi)
  · exact swrsp_traps hw hc hx (misaligned h)
  · exact swrsp_traps hw hc hx (outside h hi)
  · refine ⟨_, swrsp_queues hw hc hx (within h hi), sign_mem .., sign_groups .., ?_, ?_⟩
    · rw [storeQ_enqueue, sign_waveCount]
      exact congrArg (· ++ _) (sign_wave (fun y => y.mem.storeQ) (fun _ _ => rfl) s w _)
    · exact (wave_modWave_keeps (fun y => y.mem.outst) _ w w rfl).trans (sign_wave (fun y => y.mem.outst) (fun _ _ => rfl) s w _)

end Sys2Proof.Proofs
end

section
/-! PROOF. Arrival and wait at barriers, and what a twin is told (spec/02 R77 to R80, spec/15 R443, R451). -/

open Sys2Proof Sys2Proof.Machine Sys2Proof.Claims

namespace Sys2Proof.Proofs

/-! What a twin has been told -/

theorem findIdx?_first {α : Type} (p : α → Bool) (before : List α) (f : α) (after : List α) (hf : p f = true) (hb : ∀ e ∈ before, p e = false) :
    (before ++ f :: after).findIdx? p = some before.length := by
  rw [List.findIdx?_append, List.findIdx?_eq_none_iff.2 hb, List.findIdx?_cons, hf]
  simp

theorem toldOf_next {x : Wave} {heap : Bool} {f : Fwd} {rest : List Fwd} (h : nextTold x heap f rest) : x.toldOf heap = some (f, rest) := by
  obtain ⟨before, after, hx, hrest, hm, hh, hb⟩ := h
  have hit (e : Fwd) : (e.hm == x.tr.hm && (e.what != 0) == heap) = decide (e.hm = x.tr.hm ∧ (e.what ≠ 0 ↔ heap = true)) := by
    rw [Bool.eq_iff_iff]
    cases heap <;> simp
  unfold Wave.toldOf
  simp only [hit]
  rw [hx, findIdx?_first _ before f after (decide_eq_true ⟨hm, hh⟩) (fun e he => decide_eq_false (hb e he))]
  simp [hrest, List.eraseIdx_append_of_length_le]

/-- A twin takes the oldest result that it has been told. -/
theorem forwarded_twin {s : State} {w : Nat} {f : Fwd} {rest : List Fwd} (hc : (s.waveGroup w).copy = .twin)
    (h : nextTold (s.wave w) false f rest) (hf : f.trap = none) (produce : State → Nat → Eff (State × Fwd))
    (receive : State → Nat → Fwd → Eff State) : forwarded s w produce receive = receive (took s w rest) w f := by
  rw [forwarded, if_pos (by simpa using hc), Wave.told, toldOf_next h]
  simp only [hf]
  rfl

/-! Arrival -/

section arrive
variable {s : State} {w : Nat} {sc : Scope} {id : BitVec 4}

theorem checkBarrier_of (h : namesBarrier s w sc id) : checkBarrier s w sc id.toNat = .ok () := by
  obtain ⟨hwave, hsys, hid, hlevel⟩ := h
  exact demand_of (by simp [hwave, hsys, hid, hlevel, barrierIds]) ..

theorem arriveBarrier_joined (hh : s.storesHeld w = false) (hc : sc = .core ∨ (s.waveGroup w).copy ≠ .twin) :
    arriveBarrier s w sc id = .ok (joined s w sc id) := by
  rw [arriveBarrier, hh]
  by_cases h : sc = .core
  · subst h; rfl
  · have hs : (sc == .core) = false := by simpa using h
    dsimp only
    rw [if_neg Bool.false_ne_true, hs, if_neg Bool.false_ne_true, forwarded_of (hc.resolve_left h) rfl, joined, if_neg h, if_neg h]
    rfl

theorem arriveBarrier_twin {f : Fwd} {rest : List Fwd} (hh : s.storesHeld w = false) (h : sc ≠ .core) (hc : (s.waveGroup w).copy = .twin)
    (hn : nextTold (s.wave w) false f rest) (hf : f.trap = none) :
    arriveBarrier s w sc id = .ok ((took s w rest).modWave w fun x => x.setArrival sc id f.val.toNat) := by
  have hs : (sc == .core) = false := by simpa using h
  rw [arriveBarrier, hh]
  dsimp only
  rw [if_neg Bool.false_ne_true, hs, if_neg Bool.false_ne_true, forwarded_twin hc hn hf]

end arrive

/-! Wait -/

/-- The wait is over: the bit is cleared, at a scope wider than core with the L1 of the core discarded. -/
def waited (t : State) (w : Nat) (sc : Scope) (id : BitVec 4) : State :=
  (if sc = .core then t else t.l1Clear (t.wave w).id.core).modWave w fun x => x.clearArrival sc id

section wait
variable {s t : State} {w p : Nat} {sc : Scope} {id : BitVec 4} (ht : s.settle sc (s.barrierPlace w sc).1 (s.barrierPlace w sc).2 id = t)
include ht

theorem waitBarrier_none (h : (t.wave w).pendingArrival sc id = none) :
    waitBarrier s w sc id = .ok (t.modWave w fun x => { x with sch.barArrived := none }) := by
  subst ht
  simp only [waitBarrier, h]

theorem waitBarrier_some (hw : sc ≠ .wave) (h : (t.wave w).pendingArrival sc id = some p) :
    waitBarrier s w sc id = if t.phasePast w sc id p then .ok (waited t w sc id) else .error (.stall (.barrier sc id) t) := by
  subst ht
  have wide : Scope.wide sc = !decide (sc = .core) := by rw [wide_eq]; simp [hw]
  simp only [waitBarrier, h, wide, waited, Bool.not_eq_true', decide_eq_false_iff_not, ite_not]

end wait

/-- The running wave issues alike what has the same effect for it. -/
theorem issue_same {s : State} {w : Nat} {f g : Nat → Eff State} (hw : s.running = some w) (h : f w = g w) : issue s f = issue s g := by
  simp only [issue, issueWith, hw, h]

/-- Settles O6: an arrival is `joined` or what the twin took, a wait ends by the phase that the wave has joined. -/
theorem barriersComplete : Obligations.BarriersComplete := by
  intro s w sc id p hw hn at_ still passed
  have names := checkBarrier_of hn
  have second (x : Eff State) (h : (s.wave w).pendingArrival sc id ≠ none) :
      (demand ((s.wave w).pendingArrival sc id).isNone 0x02#6 >>= fun _ => x) = .error (.trap { code := 0x02#6 }) :=
    demand_stops (by simpa using Option.ne_none_iff_isSome.1 h) ..
  refine ⟨fun hh ha hc => ?_, fun f rest hh ha hs hc hf htrap => ?_, fun ha => ⟨?_, fun hb => ?_⟩, fun ha => ?_, fun ha => ?_, fun hb => ?_, ?_⟩
  · exact issue_completes hw (by simp only [names, ha, arriveBarrier_joined hh hc]; rfl)
  · exact issue_completes hw (by simp only [names, ha, arriveBarrier_twin hh hs hc hf htrap]; rfl)
  · exact issue_traps hw (by simp only [names, eff_ok_bind]; exact second _ ha)
  · exact issue_traps hw (by simp only [names, eff_ok_bind]; rw [if_neg (by simpa using hb)]; exact second _ ha)
  · exact issue_completes hw (by simp only [names, eff_ok_bind]; exact waitBarrier_none rfl ha)
  · have wait := waitBarrier_some rfl hn.1 ha
    by_cases hp : still.phasePast w sc id p
    · rw [if_pos hp] at wait ⊢
      exact issue_completes hw (by simp only [names, eff_ok_bind]; exact wait)
    · rw [if_neg hp] at wait ⊢
      exact issue_stalls hw (by simp only [names, eff_ok_bind]; exact wait)
  · exact issue_same hw (by simp only [names, eff_ok_bind]; exact if_pos (by simpa using hb))
  · intro r place t hh ha hb hc hp hpast
    have wait := waitBarrier_some (s := r) (t := t) rfl hn.1 hp
    rw [if_pos hpast] at wait
    refine issue_completes hw ?_
    simp only [names, eff_ok_bind]
    rw [if_neg (by simpa using hb), ha, Option.isNone_none, demand_of rfl, eff_ok_bind, arriveBarrier_joined hh hc, eff_ok_bind]
    exact wait

end Sys2Proof.Proofs
end

section
/-! PROOF. Traps of trap and bkpt, and the entry of a handler (spec/02 R82, spec/11 R344 to R353). -/

open Sys2Proof Sys2Proof.Machine Sys2Proof.Claims

namespace Sys2Proof.Proofs

/-! Reads of a unit keep the waves -/

theorem unitRead_waves {s u : State} {w va : Nat} {want : Want} {word : Word} (h : s.unitRead w va want = some (u, word)) :
    u.waves = s.waves := by
  unfold State.unitRead at h
  dsimp only at h
  split at h
  next t pa hr =>
    split at h
    · simp at h
    · cases h; exact resolve_waves hr
  next t off hr =>
    split at h
    · simp at h
    · cases h; exact resolve_waves hr
  next => simp at h

theorem handler_waves {s u : State} {w : Nat} {code : BitVec 6} {h : Word} (hh : s.handler w code = some (u, h)) : u.waves = s.waves := by
  unfold State.handler at hh
  dsimp only at hh
  split at hh
  · cases hh; rfl
  · exact unitRead_waves hh

/-! Taking a trap -/

section take
variable {s u v : State} {w : Nat} {t : TrapReq} (hd : (s.wave w).lc.dying = 0)
include hd

theorem settleDying_none : s.settleDying w = s := if_pos (by simp [hd])

theorem trapped_inHandler (hm : (s.wave w).tr.hm = true) :
    s.trapped w t = (s.secondErrorOf w t.code ((s.wave w).trapRec t false)).tick := by
  simp [State.trapped, State.take, settleDying_none hd, hd, hm]

theorem trapped_noHandler (hm : (s.wave w).tr.hm = false) (hh : s.handler w t.code = some (u, 0)) :
    s.trapped w t = (u.secondErrorOf w t.code ((s.wave w).trapRec t false)).tick := by
  simp [State.trapped, State.take, settleDying_none hd, hd, hm, hh]

theorem trapped_enters {h word : Word} (hm : (s.wave w).tr.hm = false) (hh : s.handler w t.code = some (u, h)) (h0 : h ≠ 0)
    (h8 : h.toNat % 8 = 0) (hr : u.unitRead w h.toNat .fetch = some (v, word)) (hp : (Header.ofWord word).isSome = true) :
    s.trapped w t = (v.enterHandler w t false false h).tick := by
  have formed : (Header.ofWord word).isNone = false := by simpa using hp
  have some_handler : (h == 0) = false := by simpa using h0
  simp only [State.trapped, State.take, settleDying_none hd, hd, hm, hh, some_handler, hr, h8, formed, bne_self_eq_false, Bool.false_and,
    Bool.or_self, Bool.false_eq_true, if_false]

end take

/-! The wave in its handler -/

theorem trapRec_inf (x : Wave) (t : TrapReq) (event : Bool) : (x.trapRec t event).inf =
    BitVec.ofNat 64 (x.pos.idx % 16 + (if t.resume then 16 else 0) + if t.hdr.isSome then 32 else 0) :=
  congrArg (BitVec.ofNat 64) (by omega)

theorem enter_cause (x : Wave) (t : TrapReq) (h : Word) : (x.enter t false false h).tr.cause = BitVec.ofNat 64 (t.code.toNat + if t.sw then 2 ^ 14 else 0) :=
  congrArg (BitVec.ofNat 64) (by cases t.sw <;> simp; omega)

/-- A change of an element that keeps what is looked for keeps the place where it is found. -/
theorem findIdx_set_same {α : Type} (p : α → Bool) (l : List α) (i : Nat) (a : α) (hi : i < l.length) (ha : p a = p l[i]) :
    (l.set i a).findIdx p = l.findIdx p := by
  have look (k : List α) : k.findIdx p = (k.map p).findIdx id := by rw [List.findIdx_map]; rfl
  have same : (l.map p)[i]'(by simpa using hi) = p l[i] := List.getElem_map ..
  rw [look, look l, List.map_set, ha, ← same, List.set_getElem_self]

theorem modPath_cur {x : Wave} {f : PathRec → PathRec} (hc : x.cur < x.lc.paths.length) (hf : ∀ p, (f p).st = p.st) : (x.modPath x.cur f).cur = x.cur := by
  refine findIdx_set_same _ _ _ _ hc ?_
  rw [hf, List.getD_eq_getElem _ _ hc]

theorem modPath_path {x : Wave} {f : PathRec → PathRec} (hc : x.cur < x.lc.paths.length) (hf : ∀ p, (f p).st = p.st) :
    (x.modPath x.cur f).path = f x.path := by
  rw [Wave.path, modPath_cur hc hf]
  simp [Wave.modPath, Wave.setPath, Wave.path, List.getD, hc]

theorem enterAt_path {x : Wave} (h : Word) (hc : x.cur < x.lc.paths.length) : (x.enterAt h).path = { x.path with pos := { hdr := h, idx := 0 } } :=
  modPath_path (f := fun r => { r with pos := { hdr := h, idx := 0 } }) hc fun _ => rfl

theorem undue_enterAt_path {y : Wave} (h : Word) (hc : y.cur < y.lc.paths.length) :
    ((y.modPath y.cur fun p => { p with due := none }).enterAt h).path = { y.path with pos := { hdr := h, idx := 0 }, due := none } := by
  have cur := modPath_cur (f := fun p => { p with due := none }) hc fun _ => rfl
  have path := modPath_path (f := fun p => { p with due := none }) hc fun _ => rfl
  rw [enterAt_path h (by rw [cur]; simpa [Wave.modPath, Wave.setPath] using hc), path]

/-- The path of a wave that enters a handler by a trap. -/
theorem enter_path {x : Wave} (t : TrapReq) (h : Word) (hc : x.cur < x.lc.paths.length) :
    (x.enter t false false h).path = { x.path with pos := { hdr := h, idx := 0 }, due := none } :=
  undue_enterAt_path h hc

/-- What a trap leaves in the wave that enters its handler, whenever that wave becomes ready. -/
theorem enter_fields (x : Wave) (t : TrapReq) (h : Word) (k : Nat) :
    let y : Wave := { x.enter t false false h with sch.readyAt := k }
    y.tr.hm = true ∧ y.tr.cause = BitVec.ofNat 64 (t.code.toNat + if t.sw then 2 ^ 14 else 0) ∧ y.tr.tcla = x.hdr ∧
      y.tr.tinf = BitVec.ofNat 64 (x.pos.idx % 16 + (if t.resume then 16 else 0) + if t.hdr.isSome then 32 else 0) ∧
      y.tr.tword = t.hdr.getD x.word ∧ y.tr.taddr = t.addr ∧ y.tr.tlanes = t.lanes.getD x.exec ∧ y.tr.txprog = x.lc.xprog ∧ y.lc.xprog = 0 ∧
      y.s = x.s ∧ y.hb = x.hb ∧ y.v = x.v ∧ y.preds = x.preds ∧ y.fflags = x.fflags ∧ y.mem.outst = x.mem.outst ∧ y.lc.dead = x.lc.dead ∧
      (x.cur < x.lc.paths.length → y.pos = { hdr := h, idx := 0 } ∧ y.exec = x.exec) := by
  refine ⟨rfl, enter_cause x t h, rfl, trapRec_inf x t false, rfl, rfl, rfl, rfl, rfl, rfl, rfl, rfl, rfl, rfl, rfl, rfl, fun hc => ?_⟩
  have path := enter_path t h hc
  exact ⟨congrArg PathRec.pos path, (congrArg PathRec.mask path :)⟩

theorem enterHandler_wave (s : State) {w : Nat} (t : TrapReq) (h : Word) (hl : w < s.waves.length) : (s.enterHandler w t false false h).wave w =
    { (s.wave w).enter t false false h with sch.readyAt :=
        if (s.wave w).sch.stall.isSome then (s.core (s.wave w).id.core).slots else (s.wave w).sch.readyAt } :=
  wave_modWave_same s w _ hl

/-- Settles O37: the trap is taken by its branches, and the entry sets the fields. -/
theorem trapsEnterTheHandler : Obligations.TrapsEnterTheHandler := by
  intro s w code a v n hw hl x entered
  refine ⟨fun hc hx => ?_, ?_, fun t hd => ⟨fun hm => trapped_inHandler hd hm, fun hm => ⟨fun u hh => trapped_noHandler hd hm hh,
    fun u v h word hh h0 h8 hr hp => ?_⟩⟩⟩
  · exact (issue_done hw (by simp only [hc, hx, eff_ok_bind])).trans (congrArg _ (trapDone_eq ..))
  · exact (issue_done (f := fun w => .error (.done (s.trapDone w { code := 0x1B#6, addr := n.zeroExtend 64, resume := true }))) hw rfl).trans (congrArg _ (trapDone_eq ..))
  · have waves : v.waves = s.waves := (unitRead_waves hr).trans (handler_waves hh)
    have wave : v.wave w = x := congrArg (·.getD w default) waves
    have there : w < v.waves.length := by rw [waves]; exact hl
    obtain ⟨k, hk⟩ : ∃ k, (s.trapped w t).wave w = { x.enter t false false h with sch.readyAt := k } :=
      ⟨_, by rw [trapped_enters hd hm hh h0 h8 hr hp]; exact (enterHandler_wave v t h there).trans (by rw [wave])⟩
    intro y
    rw [show y = _ from hk]
    exact enter_fields (s.wave w) t h k

end Sys2Proof.Proofs
end

section
/-! PROOF. Clause starts, aging, barrier phases and the livelock limit (spec/02 R48 to R56, R78, spec/12 R395). -/

open Sys2Proof Sys2Proof.Machine Sys2Proof.Claims

namespace Sys2Proof.Proofs

/-! Fetches keep the waves -/

theorem demandFault_stops {α : Type} (s : State) (w : Nat) (l : List (Nat × Nat)) (m : Option Mask) (a : α) : demandFault s w l m ≠ .ok a := by
  unfold demandFault
  split <;> exact nofun

theorem placeOf_waves {s t : State} {w va n : Nat} {want : Want} {l : Loc} (h : placeOf s w va n want = .ok (t, l)) : t.waves = s.waves := by
  unfold placeOf at h
  dsimp only at h
  split at h
  · exact nomatch h
  split at h
  · split at h
    · cases h; rfl
    · exact nomatch h
  split at h
  · exact nomatch h
  · exact (demandFault_stops s w _ _ _ h).elim
  · exact nomatch h
  next ht => cases h; exact translate_waves ht

theorem fetchWord_waves {s t : State} {w : Nat} {va word : Word} (h : fetchWord s w va = .ok (t, word)) : t.waves = s.waves := by
  obtain ⟨⟨u, l⟩, hp, h⟩ := eff_bind_ok.1 h
  have keep := placeOf_waves hp
  cases l with
  | sp off =>
    obtain ⟨-, -, h⟩ := eff_bind_ok.1 h
    cases h; exact keep
  | mem pa =>
    obtain ⟨-, -, h⟩ := eff_bind_ok.1 h
    split at h <;> (cases h; exact keep)

theorem fetchWords_waves {n : Nat} {s t : State} {w : Nat} {va : Word} {ws : List Word} (h : fetchWords s w n va = .ok (t, ws)) :
    t.waves = s.waves := by
  induction n generalizing s va ws with
  | zero => cases h; rfl
  | succ n ih =>
    obtain ⟨⟨u, x⟩, hu, h⟩ := eff_bind_ok.1 h
    obtain ⟨⟨v, xs⟩, hv, h⟩ := eff_bind_ok.1 h
    cases h
    exact (ih hv).trans (fetchWord_waves hu)

/-! A clause start -/

section start
variable {s u v : State} {w : Nat} {word : Word} {h : Header} {ws : List Word}

theorem atClauseStart_of (hl : w < s.waves.length) (hr : (s.wave w).resident = true) (hs : (s.wave w).sch.stall = none)
    (hn : (s.wave w).sch.started = false) (hc : (s.core (s.wave w).id.core).running = some w) : s.atClauseStart w = true := by
  simp [State.atClauseStart, hl, hr, hs, hn, hc]

theorem clauseStart_begins (at_ : s.atClauseStart w = true) : exec (.clauseStart w) s = .next (s.beginClause w) := if_pos at_

variable (hf : fetchWord s w (s.wave w).hdr = .ok (u, word))
include hf

theorem beginClause_noHeader (hh : Header.ofWord word = none) : s.beginClause w = u.trapped w { code := 0x03#6, hdr := some word } := by
  simp only [State.beginClause, hf, hh]; rfl

variable (hh : Header.ofWord word = some h) (hws : fetchWords u w h.count ((s.wave w).hdr + 8) = .ok (v, ws))
include hh hws

theorem beginClause_notFine (hn : ¬ (clauseOk h ws (v.waveLaunch w).r.chk = true ∧ (s.wave w).pos.idx < h.count)) :
    s.beginClause w = v.trapped w { code := 0x03#6, hdr := some word } := by
  have bad : (!clauseOk h ws (v.waveLaunch w).r.chk || decide (h.count ≤ (s.wave w).pos.idx)) = true := by
    simpa [Nat.not_lt, ← Bool.not_eq_true, Decidable.imp_iff_not_or] using hn
  simp only [State.beginClause, hf, hh, hws, bad]; rfl

variable (fine : clauseOk h ws (v.waveLaunch w).r.chk = true ∧ (s.wave w).pos.idx < h.count)
include fine

/-- A well-formed clause waits, or starts, or is a switch opportunity. -/
theorem beginClause_fine : s.beginClause w =
    if !(s.wave w).sch.resume && !(s.wave w).waitsMet h.wld h.wst h.wcp h.wtl then (v.stallWave w .clause).tick
    else if !(v.waveLaunch w).r.det && !(s.wave w).sch.y && !(s.wave w).sch.resume && (h.y || v.agedRival w) then
      (if ((v.choiceAt w).core (s.wave w).id.core).running = some w then (v.choiceAt w).startClause w h else v.choiceAt w).tick
    else (v.startClause w h).tick := by
  have bad : (!clauseOk h ws (v.waveLaunch w).r.chk || decide (h.count ≤ (s.wave w).pos.idx)) = false := by
    simpa using fine
  simp only [State.beginClause, hf, hh, hws, bad, Bool.false_eq_true, if_false, beq_iff_eq, apply_ite State.tick]

end start

theorem choiceAt_eq {s v : State} (h : v.waves = s.waves) (w : Nat) : v.choiceAt w =
    (v.modWave w fun y => { y with sch.y := true, sch.readyAt := (v.core (s.wave w).id.core).slots }).switch (s.wave w).id.core := by
  have wave : v.wave w = s.wave w := congrArg (·.getD w default) h
  rw [← wave]; rfl

theorem switchDue_iff (det y resume hy aged : Bool) : (!det && !y && !resume && (hy || aged)) = true ↔
    ¬ (det = true ∨ y = true ∨ resume = true ∨ (hy = false ∧ aged = false)) := by
  cases det <;> cases y <;> cases resume <;> cases hy <;> simp

/-- The branch at the position, given one backward branch less, goes backward. -/
theorem livelock_fires {s u t : State} {w : Nat} {word : Word} {i : Instr} {act : State → Nat → Eff State}
    (hdue : ((s.waveLaunch w).r.det && decide (2 ^ 20 ≤ (s.wave w).sch.backward + 1) && (s.wave w).resident && (s.wave w).sch.started &&
      (s.wave w).sch.stall.isNone && decide (w < s.waves.length)) = true)
    (hf : fetchWord s w (s.wave w).wordAddr = .ok (u, word)) (hi : decodeWord word = .ok i) (ha : branchAct i = some act)
    (ht : act (u.modWave w fun y => { y with sch.backward := 0, word := word }) w = .ok t) (hb : (t.wave w).sch.backward = 1) :
    exec (.livelock w) s =
      .next ((u.modWave w fun y => { y with sch.backward := 0, word := word }).trapped w { code := 0x14#6 }).tick := by
  simp only [exec, execLivelock, hdue, hf, hi, ha, ht, hb]
  rfl

/-- Settles O43: the branches of a clause start, and the enabled events. -/
theorem sequencerSteps : Obligations.SequencerSteps := by
  intro s u v t w word h ws x
  refine ⟨fun hl hr hs hn hc hf => ?_, fun hl hr hs hn hc hdet hy haged => ?_, fun sc owner unit id hfull => ?_, fun i act hl hr hs hst hdet hb hf hi ha => ?_⟩
  · have begins := clauseStart_begins (atClauseStart_of hl hr hs hn hc)
    refine ⟨fun hh => begins.trans (congrArg _ (beginClause_noHeader hf hh)), fun hh hws => ⟨fun hfine => ?_, fun hfine hwait => ?_, ?_⟩⟩
    · exact begins.trans (congrArg _ (beginClause_notFine hf hh hws hfine))
    · rw [begins, beginClause_fine hf hh hws hfine, if_pos (by simpa [not_or] using hwait)]
    · intro start slots anew goes
      have chosen : v.choiceAt w = anew := choiceAt_eq ((fetchWords_waves hws).trans (fetchWord_waves hf)) w
      have met (hwait : x.sch.resume = true ∨ x.waitsMet h.wld h.wst h.wcp h.wtl = true) :
          (!x.sch.resume && !x.waitsMet h.wld h.wst h.wcp h.wtl) = false := by
        simpa [← Bool.not_eq_true, Decidable.imp_iff_not_or] using hwait
      refine ⟨fun hfine hwait hgo => ?_, fun hfine hwait hgo => ?_⟩ <;>
        rw [begins, beginClause_fine hf hh hws hfine, met hwait, if_neg Bool.false_ne_true]
      · rw [if_neg (by rw [switchDue_iff]; exact not_not_intro hgo)]; rfl
      · rw [if_pos ((switchDue_iff ..).2 hgo), chosen]; rfl
  · have at_ := atClauseStart_of hl hr hs hn hc
    have enabled : (s.atClauseStart w && !(s.waveLaunch w).r.det && !(s.wave w).sch.y && s.agedRival w) = true := by
      simp [at_, hdet, haged]; exact hy
    exact if_pos enabled
  · exact event_of hfull rfl
  · intro calm hact hback
    have due : ((s.waveLaunch w).r.det && decide (2 ^ 20 ≤ x.sch.backward + 1) && x.resident && x.sch.started && x.sch.stall.isNone &&
        decide (w < s.waves.length)) = true := by
      simp only [hdet, hr, hs, hst, hl, decide_eq_true hb, decide_true, Option.isNone_none, Bool.and_self]
    exact livelock_fires due hf hi ha hact hback

end Sys2Proof.Proofs
end

section
/-! PROOF. nop, wait and yield, and the reads of counters (spec/02 R75, R76, R82, R83, spec/15 R451, spec/16 R469). -/

open Sys2Proof Sys2Proof.Machine Sys2Proof.Claims

namespace Sys2Proof.Proofs

/-! What completing leaves to other waves -/

theorem retire_wave_other (s : State) (w v : Nat) (x : Wave) (hv : v ≠ w) : (s.retire w x).wave v = s.wave v := by
  unfold State.retire State.countRetired
  simp [wave_modWave_other _ _ _ _ hv]

section completed
variable (s r : State) (w : Nat)

@[simp] theorem completed_mem : (completed s w r).mem = r.mem := by simp [completed, State.retire, State.countRetired]
@[simp] theorem completed_groups : (completed s w r).groups = r.groups := by simp [completed, State.retire, State.countRetired]
@[simp] theorem completed_launches : (completed s w r).launches = r.launches := by simp [completed, State.retire, State.countRetired]
@[simp] theorem completed_dies : (completed s w r).dies = r.dies := by simp [completed, State.retire, State.countRetired]
@[simp] theorem completed_quads : (completed s w r).quads = r.quads := by simp [completed, State.retire, State.countRetired]
@[simp] theorem completed_parts : (completed s w r).parts = r.parts := by simp [completed, State.retire, State.countRetired]
@[simp] theorem completed_ctl : (completed s w r).ctl = r.ctl := by simp [completed, State.retire, State.countRetired]
@[simp] theorem completed_lost : (completed s w r).lost = r.lost := by simp [completed, State.retire, State.countRetired]

theorem completed_wave_other {v : Nat} (hv : v ≠ w) : (completed s w r).wave v = r.wave v := by
  rw [completed, retire_wave_other _ _ _ _ hv, wave_modWave_other _ _ _ _ hv]

theorem onlyWave_completed (h : onlyWave s r w) : onlyWave s (completed s w r) w := by
  unfold onlyWave at h ⊢
  rw [completed_mem, completed_groups, completed_launches, completed_dies, completed_quads, completed_parts, completed_ctl, completed_lost]
  exact ⟨h.1, fun v hv => (completed_wave_other s r w hv).trans (h.2.1 v hv), h.2.2⟩

end completed

/-! Waits -/

theorem waitsMet_iff (x : Wave) (l t c k : BitVec 6) : x.waitsMet l t c k = true ↔
    (l = 0x3F#6 ∨ x.outstanding .ld ≤ l.toNat) ∧ (t = 0x3F#6 ∨ x.outstanding .st ≤ t.toNat) ∧
    (c = 0x3F#6 ∨ x.outstanding .cp ≤ c.toNat) ∧ (k = 0x3F#6 ∨ x.outstanding .tl ≤ k.toNat) := by
  simp [Wave.waitsMet]

/-! Reads of counters -/

section read
variable {s : State} {w : Nat} {n : BitVec 6} {a : Opnd} {v : Word} (hw : s.running = some w)
include hw

theorem clkrd_det (hd : (s.waveLaunch w).r.det = true) : exec (.clkrd (.s n)) s = .next (completed s w
    (s.modWave w fun x => x.setS n.toNat (BitVec.ofNat 64 (s.core (s.wave w).id.core).retired))) :=
  issue_completes hw (by rw [checkOps_sreg, eff_ok_bind, if_pos hd]; rfl)

theorem clkrd_forwarded {r : State} (hd : (s.waveLaunch w).r.det = false)
    (hr : forwarded s w clkReading (fun s w f => s.putScalar w (.s n) f.val) = .ok r) : exec (.clkrd (.s n)) s = .next (completed s w r) :=
  issue_completes hw (by rw [checkOps_sreg, eff_ok_bind, if_neg (by simp [hd]), hr])

section enrd
variable (hc : checkOps s w [(.s n, .onlyS), (a, .count)] = .ok ()) (hx : uni1 s w a = .ok v)
include hc hx

theorem enrd_refuses (h : 4 ≤ v.toNat) : exec (.enrd (.s n) a) s = .next (s.trapped w { code := 0x02#6, addr := opndAddr a }) :=
  issue_traps hw (by simp only [hc, hx, eff_ok_bind]; exact demand_stops (by simpa using h) ..)

/-- The counter of an energy read. -/
def energyCounter (s : State) (w k : Nat) : Word :=
  let p := s.part (s.wave w).id.part
  match k with
  | 0 => BitVec.ofInt 64 p.bellowsB
  | 1 => BitVec.ofNat 64 p.cap
  | 2 => BitVec.ofNat 64 p.rate
  | _ => BitVec.ofNat 64 (s.commitment (s.wave w).id.part)

theorem enrd_reads (hv : v.toNat < 4) (ht : (s.waveGroup w).copy ≠ .twin) : exec (.enrd (.s n) a) s = .next (completed s w
    ((told (s.wave w) s w { val := energyCounter s w v.toNat, pred := false, trap := none }).modWave w fun x =>
      x.setS n.toNat (energyCounter s w v.toNat))) := by
  refine issue_completes hw ?_
  rw [hc, eff_ok_bind, hx, eff_ok_bind, demand_of (by simpa using hv), eff_ok_bind, forwarded_of ht rfl]
  rfl

end enrd
end read

/-- Settles O52. -/
theorem uniformWaitsAndReadsComplete : Obligations.UniformWaitsAndReadsComplete := by
  refine ⟨fun s w n l t c k hw => ?_, fun s w n a v hw => ⟨fun hd => clkrd_det hw hd, fun hd hc => ?_, fun f rest hd hc hn hf => ?_, fun hc hx => ⟨fun hv ht => ?_, fun hv => enrd_refuses hw hc hx hv⟩⟩⟩
  · intro x met
    refine ⟨issue_completes (f := fun w => .ok (s.modCore (s.wave w).id.core fun k => { k with slots := k.slots + n.toNat })) hw rfl, onlyWave_completed _ _ _ ⟨fun _ => rfl, fun _ _ => rfl, rfl, rfl, rfl, rfl, rfl, rfl, rfl⟩, fun h => ?_, fun h => ?_, ?_⟩
    · exact issue_completes hw (if_pos ((waitsMet_iff ..).2 h))
    · exact issue_stalls hw (if_neg (mt (waitsMet_iff ..).1 h))
    · intro r
      simp only [exec, execYield, hw, apply_ite Host.Outcome.next]
      rfl
  · exact clkrd_forwarded hw hd (by rw [forwarded_of hc rfl]; rfl)
  · exact clkrd_forwarded hw hd (by rw [forwarded_twin hc hn hf]; rfl)
  · intro p out
    have value : energyCounter s w v.toNat = out := by
      obtain h | h | h | h : v = 0 ∨ v = 1 ∨ v = 2 ∨ v = 3 := by bv_omega
      all_goals subst h; rfl
    rw [enrd_reads hw hc hx hv ht, value]

end Sys2Proof.Proofs
end

section
/-! PROOF. The end of a wave where its group lists a barrier that another launch holds (spec/02 R78, R81). -/

open Sys2Proof Sys2Proof.Machine Sys2Proof.Claims

namespace Sys2Proof.Proofs

/-- A barrier of scope quad at which nobody has arrived. -/
def listedBarrier : Barrier := { sc := .quad, unit := 0, id := 0, phase := 0, arrived := [], aods := [] }

/-- A barrier of the same name: a wave has arrived, and an ordered atomic of wave 1 is held. -/
def namesakeBarrier : Barrier :=
  { listedBarrier with
    arrived := [7],
    aods := [{ wave := 1, key := 0, phase := 0, op := .add, width := .w, tag := .u32, amr := 0, dest := 0, mask := 0, addrs := [], vals := [] }] }

/-- Two waves of one group, wave 1 with an operation outstanding. The group, whose number is 0, belongs to launch 1, which has no
barrier, and lists a barrier wider than the core; launch 0 holds its namesake. -/
def misplacedState : State :=
  let s := State.reset.withFetchWord 64 0
  let x := s.wave 0
  { s with
    waves := [x, { x with mem.outst := [{ cls := .ld, key := 0, ready := false, dests := [] }] }],
    groups := s.groups.map fun g => { g with launch := 1, waves := [0, 1], barriers := [listedBarrier] },
    launches := s.launches.map fun l => { l with barriers := [namesakeBarrier] } }

/-- Whether the operations of a wave have completed. -/
def completions (s : State) (w : Nat) : List Bool := (s.wave w).mem.outst.map fun p => p.ready

theorem misplaced_running : misplacedState.running = some 0 := by decide

theorem misplaced_drained : (misplacedState.wave 0).mem.outst = [] ∧ (misplacedState.wave 0).mem.storeQ = [] ∧
    ∀ e ∈ (misplacedState.core (misplacedState.wave 0).id.core).out, e.1 ≠ 0 := by decide

theorem misplaced_mate : 1 ∈ (misplacedState.waveGroup 0).waves ∧ (misplacedState.wave 1).sch.ended = false := by decide

/-- No barrier of the group or its launch has an arrival. -/
theorem misplaced_open : ∀ b ∈ (misplacedState.waveGroup 0).barriers ++ (misplacedState.launch (misplacedState.waveGroup 0).launch).barriers,
    b.arrived = [] := by decide

theorem misplaced_before : completions misplacedState 1 = [false] := by decide

/-- The end of wave 0 completes the phase of the namesake, and with it the operation of wave 1. -/
theorem misplaced_after : completions (jumped misplacedState 0 (misplacedState.leave 0)) 1 = [true] := by decide

/-- Refutes O53: the end of a wave settles each barrier that its group lists, by scope, under the group's own number. A group that lists
a barrier wider than the core so completes a phase of the launch of that number, and with it an operation of another wave. -/
theorem not_controlTransfersAndExitComplete : ¬ Obligations.ControlTransfersAndExitComplete := by
  intro h
  obtain ⟨-, leaves, -⟩ := (h.2 misplacedState 0 1 misplaced_running).1 misplaced_drained
  obtain ⟨-, same, -⟩ := leaves (by decide) (by decide) misplaced_mate.1 misplaced_mate.2 misplaced_open
  have kept : completions (jumped misplacedState 0 (misplacedState.leave 0)) 1 = completions misplacedState 1 :=
    by simp only [completions, same]
  rw [misplaced_after, misplaced_before] at kept
  exact absurd kept (by decide)

end Sys2Proof.Proofs
end

section
/-! PROOF. What an effect can come to: a value with a property, a trap, or a stall in a state with a property; and what an issued
instruction then comes to (spec/02 R57). -/

open Sys2Proof Sys2Proof.Machine Sys2Proof.Claims

namespace Sys2Proof.Proofs

/-- An effect gives a value with `Q`, or traps, or stalls in a state with `stay`. -/
def Gives {α : Type} (stay : State → Prop) (Q : α → Prop) : Eff α → Prop
  | .ok a => Q a
  | .error (.trap _) => True
  | .error (.stall _ u) => stay u
  | .error _ => False

/-- No state: an effect that does not stall. -/
abbrev never : State → Prop := fun _ => False

section rules
variable {α β : Type} {stay : State → Prop} {P : α → Prop} {Q : β → Prop}

theorem gives_ok {a : α} (h : P a) : Gives stay P (.ok a) := h

theorem gives_raise (code : BitVec 6) (addr : Word) (lanes : Option Mask) : Gives stay P (raise code addr lanes) := trivial

theorem Gives.value {x : Eff α} (h : Gives stay P x) {a : α} (hx : x = .ok a) : P a := by subst hx; exact h

/-- A value that is named may be used for what follows. -/
theorem Gives.bind_eq {x : Eff α} {f : α → Eff β} (h : Gives stay P x) (hf : ∀ a, x = .ok a → P a → Gives stay Q (f a)) : Gives stay Q (x >>= f) := by
  cases x with
  | ok a => exact hf a rfl h
  | error e => cases e <;> exact h

theorem Gives.bind {x : Eff α} {f : α → Eff β} (h : Gives stay P x) (hf : ∀ a, P a → Gives stay Q (f a)) : Gives stay Q (x >>= f) :=
  h.bind_eq fun a _ => hf a

theorem Gives.imp {x : Eff α} {P' : α → Prop} (h : Gives stay P x) (imp : ∀ a, P a → P' a) : Gives stay P' x := by
  cases x with
  | ok a => exact imp a h
  | error e => cases e <;> exact h

theorem gives_ite {c : Prop} [Decidable c] {x y : Eff α} (hx : c → Gives stay P x) (hy : ¬ c → Gives stay P y) :
    Gives stay P (if c then x else y) := by
  by_cases h : c
  · rw [if_pos h]; exact hx h
  · rw [if_neg h]; exact hy h

theorem gives_demand (ok : Bool) (code : BitVec 6) (addr : Word) (lanes : Option Mask) :
    Gives stay (fun _ => ok = true) (demand ok code addr lanes) := gives_ite (fun h => h) fun _ => trivial

theorem gives_foldlM {γ : Type} {f : α → γ → Eff α} (l : List γ) (hf : ∀ c ∈ l, ∀ a, P a → Gives stay P (f a c)) {a : α} (h : P a) :
    Gives stay P (l.foldlM f a) := by
  induction l generalizing a with
  | nil => exact h
  | cons c t ih =>
    rw [List.foldlM_cons]
    exact (hf c (List.mem_cons_self ..) a h).bind fun b hb => ih (fun d hd => hf d (List.mem_cons_of_mem _ hd)) hb

end rules

/-! Issue -/

/-- An issued instruction has trapped, stalled, or completed with its effect. -/
theorem issue_gives {s t : State} {w : Nat} {f : Nat → Eff State} {stay Q : State → Prop} (hw : s.running = some w) (hf : Gives stay Q (f w))
    (h : issue s f = .next t) :
    (∃ r, t = s.trapped w r) ∨ (∃ why u, stay u ∧ t = (u.stallWave w why).tick) ∨ ∃ r, Q r ∧ t = completed s w r := by
  obtain ⟨hn, -⟩ | ⟨v, hv, ⟨u, hu, rfl⟩ | ⟨r, -, rfl⟩ | ⟨y, u, hu, rfl⟩ | hd⟩ := issueWith_next h
  · rw [hw] at hn; cases hn
  all_goals
    obtain rfl : w = v := by rw [hw] at hv; exact Option.some.inj hv
  · exact .inr (.inr ⟨u, hf.value hu, rfl⟩)
  · exact .inl ⟨r, rfl⟩
  · rw [hu] at hf
    exact .inr (.inl ⟨y, u, hf, rfl⟩)
  · rw [hd] at hf
    exact hf.elim

/-! Operands -/

section operands
variable {stay : State → Prop} (s : State) (w : Nat)

theorem gives_checkOps (l : List (Opnd × Accept)) : Gives stay (fun _ => True) (checkOps s w l) := by
  refine gives_ite (fun _ => trivial) fun _ => ?_
  split <;> trivial

theorem gives_demandClean (m : Mask) (os : List Opnd) : Gives stay (fun _ => True) (demandClean s w m os) := by
  unfold demandClean
  split <;> trivial

theorem gives_uniOf (m : Mask) (site : Nat) (o : Opnd) : Gives stay (fun _ => True) (uniOf s w m site o) := by
  cases o with
  | v n =>
    unfold uniOf
    dsimp only
    split
    · trivial
    · exact gives_ite (fun _ => trivial) fun _ => trivial
  | _ => trivial

theorem gives_uni1 (a : Opnd) : Gives stay (fun _ => True) (uni1 s w a) :=
  (gives_demandClean ..).bind fun _ _ => gives_uniOf ..

theorem gives_uni2 (a b : Opnd) : Gives stay (fun _ => True) (uni2 s w a b) :=
  (gives_demandClean ..).bind fun _ _ => (gives_uniOf ..).bind fun _ _ => (gives_uniOf ..).bind fun _ _ => trivial

theorem gives_uni3 (a b c : Opnd) : Gives stay (fun _ => True) (uni3 s w a b c) :=
  (gives_demandClean ..).bind fun _ _ => (gives_uniOf ..).bind fun _ _ => (gives_uniOf ..).bind fun _ _ =>
    (gives_uniOf ..).bind fun _ _ => trivial

end operands

end Sys2Proof.Proofs
end

section
/-! PROOF. What scalar computations leave unchanged (spec/02 R84 to R91). -/

open Sys2Proof Sys2Proof.Machine Sys2Proof.Claims

namespace Sys2Proof.Proofs

/-! The write of a destination -/

theorem onlyWave_refl (s : State) (w : Nat) : onlyWave s s w := ⟨fun _ => rfl, fun _ _ => rfl, rfl, rfl, rfl, rfl, rfl, rfl, rfl⟩

theorem onlyWave_modCore (s : State) (w c : Nat) (f : Core → Core) : onlyWave s (s.modCore c f) w :=
  ⟨fun _ => rfl, fun _ _ => rfl, rfl, rfl, rfl, rfl, rfl, rfl, rfl⟩

theorem onlyWave_trans {s t u : State} {w : Nat} (h : onlyWave s t w) (k : onlyWave t u w) : onlyWave s u w := by
  obtain ⟨m, v, g, l, d, q, p, c, x⟩ := h
  obtain ⟨m', v', g', l', d', q', p', c', x'⟩ := k
  exact ⟨fun a => (m' a).trans (m a), fun i hi => (v' i hi).trans (v i hi), g'.trans g, l'.trans l, d'.trans d, q'.trans q, p'.trans p, c'.trans c,
    x'.trans x⟩

section put
variable {stay : State → Prop} (s : State) (w : Nat) (v code : Word)

theorem gives_writeSpecial (n : Nat) : Gives stay (fun r => onlyWave s r w) (s.writeSpecial w n v code) := by
  have put (ok : Bool) (y : Wave) : Gives stay (fun r => onlyWave s r w) (demand ok 0x02#6 code >>= fun _ => .ok (s.setWave w y)) :=
    (gives_demand ..).bind fun _ _ => onlyWave_modWave s w fun _ => y
  have plain (y : Wave) : Gives stay (fun r => onlyWave s r w) (.ok (s.setWave w y)) := onlyWave_modWave s w fun _ => y
  unfold State.writeSpecial
  dsimp only
  split
  · exact plain _
  · exact plain _
  · exact put ..
  · exact put ..
  · exact onlyWave_modCore ..
  · exact put ..
  · exact put ..
  · exact put ..
  · exact put ..
  · exact put ..
  · exact onlyWave_refl s w

/-- A scalar destination is written in its wave alone. -/
theorem gives_putScalar (d : Opnd) : Gives stay (fun r => onlyWave s r w ∧ s.putScalar w d v = .ok r) (s.putScalar w d v) := by
  have only : Gives stay (fun r => onlyWave s r w) (s.putScalar w d v) := by
    cases d with
    | s n => exact onlyWave_modWave s w _
    | special n => exact gives_writeSpecial ..
    | _ => exact onlyWave_refl s w
  cases h : s.putScalar w d v with
  | ok r => exact ⟨only.value h, rfl⟩
  | error e => rw [h] at only; cases e <;> exact only

end put

/-! The instructions -/

/-- One write to D, followed for sums and differences by one of CY. -/
def Written (s : State) (w : Nat) (d : Opnd) (sum : Bool) (r : State) : Prop :=
  onlyWave s r w ∧ ∃ (b : Bool) (v : Word) (u : State), s.putScalar w d v = .ok u ∧ r = if sum then u.modWave w fun x => x.setCarry b else u

section written
variable {stay : State → Prop} {s : State} {w : Nat} {d : Opnd}

theorem gives_written (v : Word) : Gives stay (Written s w d false) (s.putScalar w d v) :=
  (gives_putScalar s w v d).imp fun r h => ⟨h.1, false, v, r, h.2, rfl⟩

theorem gives_scalar1 (a : Opnd) (f : Word → Word) : Gives stay (Written s w d false) (scalar1 d a f s w) :=
  (gives_checkOps ..).bind fun _ _ => (gives_uni1 ..).bind fun _ _ => gives_written _

theorem gives_scalar2 (a b : Opnd) (f : Word → Word → Word) : Gives stay (Written s w d false) (scalar2 d a b f s w) :=
  (gives_checkOps ..).bind fun _ _ => (gives_uni2 ..).bind fun _ _ => gives_written _

theorem gives_scalar3 (a b c : Opnd) (f : Word → Word → Word → Word) : Gives stay (Written s w d false) (scalar3 d a b c f s w) :=
  (gives_checkOps ..).bind fun _ _ => (gives_uni3 ..).bind fun _ _ => gives_written _

theorem gives_scalarDiv (a b : Opnd) (f : Word → Word → Word) : Gives stay (Written s w d false) (scalarDiv d a b f s w) :=
  (gives_checkOps ..).bind fun _ _ => (gives_uni2 ..).bind fun _ _ => (gives_demand ..).bind fun _ _ => gives_written _

theorem gives_scalarCarry (a b : Opnd) (cin : Bool) (f : Word → Word → Bool → Word × Bool) :
    Gives stay (Written s w d true) (scalarCarry d a b cin f s w) :=
  (gives_checkOps ..).bind fun _ _ => (gives_uni2 ..).bind fun _ _ => (gives_putScalar ..).bind fun u h =>
    gives_ok ⟨onlyWave_trans h.1 (onlyWave_modWave u w _), _, _, u, h.2, rfl⟩

theorem gives_immediate {v : Word} : Gives stay (Written s w d false) (checkOps s w [(d, .onlyS)] >>= fun _ => s.putScalar w d v) :=
  (gives_checkOps ..).bind fun _ _ => gives_written _

theorem gives_sbfi {a b c : Opnd} : Gives stay (Written s w d false) (do
    checkOps s w [(d, .scalarDest), (a, .uniform), (b, .uniform), (c, .uniform)]
    let (x, y, z) ← uni3 s w a b c
    let old ← uniOf s w (s.wave w).exec 4 d
    s.putScalar w d (insertWord old x y z)) :=
  (gives_checkOps ..).bind fun _ _ => (gives_uni3 ..).bind fun _ _ => (gives_uniOf ..).bind fun _ _ => gives_written _

theorem gives_spOffset (x : Word) (b : Opnd) : Gives stay (fun _ => True) (spOffset s w x b) :=
  (gives_demand ..).bind fun _ _ => (gives_demand ..).bind fun _ _ => trivial

theorem gives_srdsp {a b : Opnd} : Gives stay (Written s w d false) (do
    checkOps s w [(d, .onlyS), (a, .uniform), (b, .onlyImm)]
    let x ← uni1 s w a
    let off ← spOffset s w x b
    demand (!s.lostPlace w (.sp off) 8) 0x10#6 (BitVec.ofNat 64 (windowBase + off))
    s.putScalar w d (BitVec.ofNat 64 (s.waveLe w (.sp off) 8))) :=
  (gives_checkOps ..).bind fun _ _ => (gives_uni1 ..).bind fun _ _ => (gives_spOffset ..).bind fun _ _ => (gives_demand ..).bind fun _ _ =>
    gives_written _

end written

/-! What completing leaves of the wave -/

/-- A wave without what completing an instruction changes: its position, its scheduling and its single step. -/
def Wave.standing (x : Wave) : Wave := { x with sch := default, lc.paths := [], tr.armed := false, tr.stepDue := none }

theorem goto_standing (x : Wave) (p : Pos) : Wave.standing (x.goto p) = Wave.standing x := by
  unfold Wave.goto
  dsimp only
  split <;> rfl

theorem completed_standing (s r : State) (w : Nat) : Wave.standing ((completed s w r).wave w) = Wave.standing (r.wave w) := by
  unfold completed State.retire State.countRetired
  simp only [tick_wave]
  rw [wave_modWave_keeps Wave.standing _ w w rfl, wave_modWave_keeps Wave.standing _ w w rfl, modCore_wave]
  exact wave_modWave_keeps Wave.standing r w w (goto_standing ..)

/-! The frame -/

/-- The scalar registers of the wave `y` that another write than of S register `n` leaves, and what no such write changes, as in `x`. -/
def OthersStand (x y : Wave) (n : Nat) (sum : Bool) : Prop :=
  scalarFrame x y ∧ y.amr = x.amr ∧ y.nttthr = x.nttthr ∧ y.lc.xprog = x.lc.xprog ∧ y.lc.exited = x.lc.exited ∧ y.num = x.num ∧
  (sum = false → y.cy = x.cy ∧ y.hcy = x.hcy) ∧
  (∀ k, k ≠ n → y.s.getD k 0 = x.s.getD k 0) ∧ (∀ k, k + 56 ≠ n → y.hb.getD k 0 = x.hb.getD k 0)

theorem othersStand_setS (x : Wave) (n : Nat) (v : Word) : OthersStand x (x.setS n v) n false := by
  refine ⟨by simp [scalarFrame], by simp, by simp, by simp, by simp, by simp, by simp, fun k hk => ?_, fun k hk => ?_⟩ <;> unfold Wave.setS
  · split
    · rfl
    · simp [List.getD, List.getElem?_set_ne (Ne.symm hk)]
  · split
    next h =>
      have apart : n - 56 ≠ k := by simp at h; omega
      simp [List.getD, List.getElem?_set_ne apart]
    · rfl

theorem othersStand_setCarry {x y : Wave} {n : Nat} (b : Bool) (h : OthersStand x y n false) : OthersStand x (y.setCarry b) n true := by
  obtain ⟨frame, amr, thr, xprog, exited, num, -, regs, bank⟩ := h
  exact ⟨by simpa [scalarFrame] using frame, by simpa, by simpa, by simpa, by simpa, by simpa, nofun, by simpa, by simpa⟩

theorem othersStand_of_standing {x y z : Wave} {n : Nat} {sum : Bool} (h : OthersStand x y n sum) (hz : Wave.standing z = Wave.standing y) :
    OthersStand x z n sum := by
  show OthersStand x (Wave.standing z) n sum
  rw [hz]
  exact h

/-- What the frame says of a scalar computation that answers `t`. -/
def ScalarFrame (s t : State) (w : Nat) (d : Opnd) (sum : Bool) : Prop :=
  (∃ r, t = s.trapped w r) ∨
  (onlyWave s t w ∧ ∃ (b : Bool) (v : Word) (r : State),
    s.putScalar w d v = .ok r ∧ t = completed s w (if sum then r.modWave w fun x => x.setCarry b else r)) ∧
  (∀ n, d = .s n → OthersStand (s.wave w) (t.wave w) n.toNat sum)

theorem written_frame {s r : State} {w : Nat} {d : Opnd} {sum : Bool} (hl : w < s.waves.length) (h : Written s w d sum r) :
    ScalarFrame s (completed s w r) w d sum := by
  obtain ⟨only, b, v, u, hu, rfl⟩ := h
  refine .inr ⟨⟨onlyWave_completed _ _ _ only, b, v, u, hu, rfl⟩, fun n hd => ?_⟩
  subst hd
  cases hu
  refine othersStand_of_standing ?_ (completed_standing ..)
  cases sum with
  | false =>
    rw [if_neg Bool.false_ne_true, wave_modWave_same s w _ hl]
    exact othersStand_setS ..
  | true =>
    rw [if_pos rfl, modWave_modWave hl, wave_modWave_same s w _ hl]
    exact othersStand_setCarry b (othersStand_setS ..)

theorem scalar_frame {s t : State} {w : Nat} {d : Opnd} {sum : Bool} {f : Nat → Eff State} (hw : s.running = some w) (hl : w < s.waves.length)
    (hf : Gives never (Written s w d sum) (f w)) (ht : issue s f = .next t) : ScalarFrame s t w d sum := by
  obtain ⟨r, hr⟩ | ⟨-, u, hu, -⟩ | ⟨r, hr, rfl⟩ := issue_gives hw hf ht
  · exact .inl ⟨r, hr⟩
  · exact (hu : False).elim
  · exact written_frame hl hr

end Sys2Proof.Proofs
end

section
/-! PROOF. What the bodies of lane-wise instructions do to the state: flags and generators of their wave, and nothing else (spec/03
R114 to R134). -/

open Sys2Proof Sys2Proof.Machine Sys2Proof.Claims

namespace Sys2Proof.Proofs

/-! Effects of a body -/

/-- A wave with other flags and other states of its generators. -/
def drawn (fl : Flags) (gen : BitVec 32) (counts : List Nat) (x : Wave) : Wave := { x with fflags := fl, convGen := gen, lc.randC := counts }

/-- The state but for flags and generators of wave `w`. -/
def Drawn (s : State) (w : Nat) (u : State) : Prop := ∃ fl gen counts, u = s.modWave w (drawn fl gen counts)

theorem setWave_wave (s : State) (w : Nat) : s.setWave w (s.wave w) = s := by
  show { s with waves := s.waves.set w (s.wave w) } = s
  by_cases h : w < s.waves.length
  · rw [State.wave, List.getD_eq_getElem _ _ h, List.set_getElem_self]
  · rw [List.set_eq_of_length_le (Nat.le_of_not_lt h)]

theorem drawn_refl (s : State) (w : Nat) : Drawn s w s :=
  ⟨(s.wave w).fflags, (s.wave w).convGen, (s.wave w).lc.randC, (setWave_wave s w).symm⟩

theorem drawn_trans {s u v : State} {w : Nat} (hw : w < s.waves.length) (h : Drawn s w u) (k : Drawn u w v) : Drawn s w v := by
  obtain ⟨fl, gen, counts, rfl⟩ := h
  obtain ⟨fl', gen', counts', rfl⟩ := k
  exact ⟨fl', gen', counts', modWave_modWave hw _ _⟩

/-- What a body gives: its lanes are the active ones, but for a whole number. -/
def BodyOut (s : State) (w : Nat) (o : LaneOut) : Prop := Drawn s w o.s ∧ (o.lanes ≠ none → mdTag o.md = .limb)

/-- A body that leaves all else alone, and does not stall. -/
def Quiet (w : Nat) (body : State → Mask → List Src → Eff LaneOut) : Prop :=
  ∀ (stay : State → Prop) (s : State) (m : Mask) (rs : List Src), w < s.waves.length → Gives stay (BodyOut s w) (body s m rs)

theorem bodyOut_plain {s u : State} {w : Nat} (h : Drawn s w u) (m : Mask) (md : BitVec 32) (f : Nat → Lane) : BodyOut s w (plainLanes u w m md f) :=
  ⟨h, fun hl => absurd rfl hl⟩

/-! Checks -/

theorem mdTag_mkMd (t : Tag) (len : Nat) (sign poison : Bool) (midx : Nat) : mdTag (mkMd t len sign poison midx) = t := by
  have code : (mkMd t len sign poison midx).extractLsb' 0 4 = t.code := BitVec.extractLsb'_append_eq_right
  rw [mdTag, code]
  cases t <;> rfl

section checks
variable {stay : State → Prop} {s : State} {w : Nat} {m : Mask} {rs : List Src}

theorem gives_srcsClean : Gives stay (fun _ => True) (srcsClean m rs) := by
  unfold srcsClean
  split <;> trivial

/-- Every source with metadata carries the tag. -/
def Tagged (rs : List Src) (t : Tag) : Prop := ∀ r ∈ rs, ∀ md, r.md = some md → mdTag md = t

theorem gives_srcsTagged {ok : Tag → Bool} : Gives stay (Tagged rs) (srcsTagged rs ok) := by
  unfold srcsTagged
  split
  · trivial
  next md o hf =>
    dsimp only
    split
    · trivial
    next hn =>
      refine (gives_demand ..).bind fun _ _ => gives_ok fun r hr k hk => ?_
      have := List.find?_eq_none.1 hn r hr
      simpa [hk] using this

theorem gives_modulusOf : Gives stay (fun _ => True) (modulusOf s w m rs) := by
  unfold modulusOf
  dsimp only
  split
  · trivial
  · split <;> trivial

theorem gives_arithOf {ok : Tag → Bool} : Gives stay (fun k => Tagged rs k.t) (arithOf s w m rs ok) := by
  refine gives_srcsClean.bind fun _ _ => gives_srcsTagged.bind fun t ht => gives_ite (fun _ => ?_) fun _ => gives_ok ht
  exact gives_modulusOf.bind fun _ _ => gives_ok ht

theorem gives_settleFlags {fl : Nat → Flags} : Gives stay (Drawn s w) (settleFlags s w m fl) := by
  refine gives_ite (fun _ => gives_ok ?_) fun _ => trivial
  split
  · exact drawn_refl s w
  · exact ⟨_, _, _, rfl⟩

theorem gives_flagLanes {md : BitVec 32} {f : Nat → Lane × Flags} : Gives stay (BodyOut s w) (flagLanes s w m md f) :=
  gives_settleFlags.bind fun _ h => gives_ok ⟨h, fun hl => absurd rfl hl⟩

theorem gives_limbSources : Gives stay (fun _ => True) (limbSources s w rs) := by
  unfold limbSources
  dsimp only
  split <;> trivial

theorem gives_limbResult {v : Int} : Gives stay (BodyOut s w) (limbResult s w v) :=
  (gives_demand ..).bind fun _ _ => gives_ok ⟨drawn_refl s w, fun _ => mdTag_mkMd ..⟩

end checks

/-! The bodies -/

section bodies
variable (w : Nat)

theorem quiet_ari (op : AriOp) (sat : Bool) : Quiet w (ariBody w op sat) := fun _ _ _ _ _ =>
  gives_arithOf.bind fun _ _ => gives_ite (fun _ => gives_limbSources.bind fun _ _ => gives_limbResult) fun _ => gives_flagLanes

theorem quiet_mad (sat : Bool) : Quiet w (madBody w sat) := fun _ _ _ _ _ => gives_arithOf.bind fun _ _ => gives_flagLanes

theorem quiet_pick (larger : Bool) : Quiet w (pickBody w larger) := fun _ _ _ _ _ =>
  gives_arithOf.bind fun _ _ => gives_ite (fun _ => gives_limbSources.bind fun _ _ => gives_limbResult) fun _ => gives_flagLanes

theorem quiet_sign (clear sat : Bool) : Quiet w (signBody w clear sat) := fun _ s _ _ _ =>
  gives_arithOf.bind fun _ _ => gives_ite (fun _ => gives_limbSources.bind fun _ _ => gives_limbResult) fun _ =>
    gives_ok (bodyOut_plain (drawn_refl s w) ..)

theorem quiet_cmp (cc : VCond) (d : Opnd) : Quiet w (cmpBody w cc d) := by
  intro stay s m rs _
  refine gives_arithOf.bind fun k _ => gives_ite (fun _ => ?_) fun _ => gives_settleFlags.bind fun u hu => ?_
  · split
    · exact gives_limbSources.bind fun _ _ => gives_ok ⟨drawn_refl s w, fun hl => absurd rfl hl⟩
    · trivial
  · split <;> exact gives_ok ⟨hu, fun hl => absurd rfl hl⟩

theorem quiet_dot (sat : Bool) : Quiet w (dotBody w sat) := by
  intro stay s m rs _
  refine gives_srcsClean.bind fun _ _ => gives_arithOf.bind fun k _ => Gives.bind (P := fun _ => True) ?_ fun _ _ => gives_flagLanes
  unfold dotCheck
  dsimp only
  split
  · exact (gives_demand ..).imp fun _ _ => trivial
  · trivial

theorem quiet_acs (n : BitVec 4) : Quiet w (acsBody w n) := fun _ s _ _ _ =>
  gives_arithOf.bind fun _ _ => gives_ok ⟨drawn_refl s w, fun hl => absurd rfl hl⟩

theorem quiet_bit (f : Lane → Lane → Lane → Lane) : Quiet w (bitBody w f) := fun _ s _ _ _ =>
  gives_srcsClean.bind fun _ _ => gives_ok (bodyOut_plain (drawn_refl s w) ..)

theorem quiet_count (f : Lane → Lane) : Quiet w (countBody w f) := fun _ s _ _ _ =>
  gives_srcsClean.bind fun _ _ => gives_ok (bodyOut_plain (drawn_refl s w) ..)

theorem quiet_bfi : Quiet w (bfiBody w) := fun _ s _ _ _ => gives_srcsClean.bind fun _ _ => gives_ok (bodyOut_plain (drawn_refl s w) ..)

theorem quiet_mulhi : Quiet w (mulhiBody w) := fun _ s _ _ _ =>
  gives_srcsClean.bind fun _ _ => gives_srcsTagged.bind fun _ _ => gives_ok (bodyOut_plain (drawn_refl s w) ..)

theorem quiet_mov : Quiet w (movBody w) := fun _ s _ _ _ => gives_ok (bodyOut_plain (drawn_refl s w) ..)

theorem quiet_plain (md : BitVec 32) (f : List Src → Nat → Lane) : Quiet w fun s m rs => pure (plainLanes s w m md (f rs)) :=
  fun _ s _ _ _ => gives_ok (bodyOut_plain (drawn_refl s w) ..)

theorem quiet_tagset (t : Tag) : Quiet w (tagsetBody w t) := fun _ s _ _ _ => gives_ok (bodyOut_plain (drawn_refl s w) ..)

theorem quiet_pack (j : BitVec 4) : Quiet w (packBody w j) := by
  intro stay s m rs _
  have rest (t : Tag) (o : Opnd) (f : Nat → Lane) : Gives stay (BodyOut s w) (do
      demand (decide (1 < tagElems t)) 0x05#6 (opndAddr o)
      demand (decide (j.toNat < tagElems t)) 0x02#6
      pure (plainLanes s w m (tagMd t) f)) :=
    (gives_demand ..).bind fun _ _ => (gives_demand ..).bind fun _ _ => gives_ok (bodyOut_plain (drawn_refl s w) ..)
  refine gives_srcsClean.bind fun _ _ => ?_
  dsimp only
  split
  · exact (gives_demand ..).bind fun _ _ => rest ..
  · exact rest ..

theorem quiet_unpk (j : BitVec 4) : Quiet w (unpkBody w j) := fun _ s _ _ _ =>
  gives_srcsClean.bind fun _ _ => (gives_demand ..).bind fun _ _ => (gives_demand ..).bind fun _ _ => gives_ok (bodyOut_plain (drawn_refl s w) ..)

theorem quiet_cvt (t : Tag) (sr : Bool) (d : Opnd) (j : BitVec 4) : Quiet w (cvtBody w t sr d j) := by
  intro stay s m rs hw
  refine gives_srcsClean.bind fun _ _ => (gives_demand ..).bind fun _ _ => (gives_demand ..).bind fun _ _ => gives_flagLanes.imp fun o ho =>
    ⟨drawn_trans hw ?_ ho.1, ho.2⟩
  split
  · exact ⟨_, _, _, rfl⟩
  · exact drawn_refl s w

theorem quiet_rand : Quiet w (randBody w) := fun _ _ _ _ _ => (gives_demand ..).bind fun _ _ => gives_ok (bodyOut_plain ⟨_, _, _, rfl⟩ ..)

theorem quiet_sfu (op : Sfu) : Quiet w (sfuBody w op) := fun _ _ _ _ _ => gives_arithOf.bind fun _ _ => gives_flagLanes

theorem tagged_src0 {rs : List Src} {n i : Nat} {t : Tag} {md : BitVec 32} (h : Tagged (rs.take n) t) (hi : i < n) (hmd : (src0 rs i).md = some md) :
    mdTag md = t := by
  by_cases hl : i < rs.length
  · rw [src0, List.getD_eq_getElem _ _ hl] at hmd
    exact h _ (List.mem_take_iff_getElem.2 ⟨i, by omega, rfl⟩) md hmd
  · rw [src0, List.getD_eq_default _ _ (Nat.le_of_not_lt hl)] at hmd
    cases hmd

theorem quiet_sel (c : Opnd) : Quiet w (selBody w c) := by
  intro stay s m rs _
  refine gives_srcsClean.bind fun _ _ => gives_arithOf.bind fun k hk => gives_ite (fun hl => ?_) fun _ => gives_flagLanes
  split
  next p =>
    dsimp only
    refine gives_ite (fun _ => trivial) fun _ => gives_limbSources.bind fun _ _ => ?_
    split
    next md hmd =>
      refine gives_ok ⟨drawn_refl s w, fun _ => ?_⟩
      have limb : mdTag md = k.t := by
        split at hmd
        · exact tagged_src0 hk (by decide) hmd
        · exact tagged_src0 hk (by decide) hmd
      exact limb.trans (eq_of_beq hl)
    · exact gives_limbResult
  · trivial

end bodies

end Sys2Proof.Proofs
end

section
/-! PROOF. Lane-wise instructions as one shape: checks, pops, a body, a destination (spec/03 R112, spec/06 R242, R243). -/

open Sys2Proof Sys2Proof.Machine Sys2Proof.Claims

namespace Sys2Proof.Proofs

/-! The shape -/

/-- An instruction of the form `f` is the shape over the current path, with a quiet body and a check of its own (that of dot asks for a V
source among A and B). -/
def Shaped (i : Instr) (f : LaneForm) : Prop :=
  ∃ (extra : State → Nat → Bool) (body : Nat → State → Mask → List Src → Eff LaneOut), (∀ w, Quiet w (body w)) ∧
    ∀ s, exec i s = issue s fun w => laneWise s w (s.wave w).exec f.g f.checks (extra s w) f.d f.srcs f.pe (body w)

theorem form_shaped {i : Instr} {f : LaneForm} (h : form i = some f) : Shaped i f := by
  cases i with
  | add g sat d a b e => cases h; exact ⟨_, _, fun w => quiet_ari w .add sat, fun _ => rfl⟩
  | sub g sat d a b e => cases h; exact ⟨_, _, fun w => quiet_ari w .sub sat, fun _ => rfl⟩
  | mul g sat d a b e => cases h; exact ⟨_, _, fun w => quiet_ari w .mul sat, fun _ => rfl⟩
  | min g d a b e => cases h; exact ⟨_, _, fun w => quiet_pick w false, fun _ => rfl⟩
  | max g d a b e => cases h; exact ⟨_, _, fun w => quiet_pick w true, fun _ => rfl⟩
  | mad g sat d a b c e => cases h; exact ⟨_, _, fun w => quiet_mad w sat, fun _ => rfl⟩
  | dot g sat d a b c e => cases h; exact ⟨_, _, fun w => quiet_dot w sat, fun _ => rfl⟩
  | neg g sat d a e => cases h; exact ⟨_, _, fun w => quiet_sign w false sat, fun _ => rfl⟩
  | abs g sat d a e => cases h; exact ⟨_, _, fun w => quiet_sign w true sat, fun _ => rfl⟩
  | cmp g cc d a b e => cases h; exact ⟨_, _, fun w => quiet_cmp w cc d, fun _ => rfl⟩
  | sel g d a b c e => cases h; exact ⟨_, _, fun w => quiet_sel w c, fun _ => rfl⟩
  | acs g d a b c n => cases h; exact ⟨_, _, fun w => quiet_acs w n, fun _ => rfl⟩
  | and g d a b e => cases h; exact ⟨_, _, fun w => quiet_bit w _, fun _ => rfl⟩
  | or g d a b e => cases h; exact ⟨_, _, fun w => quiet_bit w _, fun _ => rfl⟩
  | xor g d a b e => cases h; exact ⟨_, _, fun w => quiet_bit w _, fun _ => rfl⟩
  | not g d a e => cases h; exact ⟨_, _, fun w => quiet_bit w _, fun _ => rfl⟩
  | shl g d a b e => cases h; exact ⟨_, _, fun w => quiet_bit w _, fun _ => rfl⟩
  | shr g d a b e => cases h; exact ⟨_, _, fun w => quiet_bit w _, fun _ => rfl⟩
  | sar g d a b e => cases h; exact ⟨_, _, fun w => quiet_bit w _, fun _ => rfl⟩
  | rot g d a b e => cases h; exact ⟨_, _, fun w => quiet_bit w _, fun _ => rfl⟩
  | bfe g sgn d a b c e => cases h; exact ⟨_, _, fun w => quiet_bit w _, fun _ => rfl⟩
  | bfi g d a b c e => cases h; exact ⟨_, _, quiet_bfi, fun _ => rfl⟩
  | popc g d a e => cases h; exact ⟨_, _, fun w => quiet_count w _, fun _ => rfl⟩
  | clz g d a e => cases h; exact ⟨_, _, fun w => quiet_count w _, fun _ => rfl⟩
  | brev g d a e => cases h; exact ⟨_, _, fun w => quiet_bit w _, fun _ => rfl⟩
  | mulhi g d a b e => cases h; exact ⟨_, _, quiet_mulhi, fun _ => rfl⟩
  | rcp g d a e => cases h; exact ⟨_, _, fun w => quiet_sfu w .rcp, fun _ => rfl⟩
  | rsq g d a e => cases h; exact ⟨_, _, fun w => quiet_sfu w .rsq, fun _ => rfl⟩
  | sqrt g d a e => cases h; exact ⟨_, _, fun w => quiet_sfu w .sqrt, fun _ => rfl⟩
  | exp2 g d a e => cases h; exact ⟨_, _, fun w => quiet_sfu w .exp2, fun _ => rfl⟩
  | log2 g d a e => cases h; exact ⟨_, _, fun w => quiet_sfu w .log2, fun _ => rfl⟩
  | sin g d a e => cases h; exact ⟨_, _, fun w => quiet_sfu w .sin, fun _ => rfl⟩
  | cos g d a e => cases h; exact ⟨_, _, fun w => quiet_sfu w .cos, fun _ => rfl⟩
  | cvt g t sr d a j => cases h; exact ⟨_, _, fun w => quiet_cvt w t sr d j, fun _ => rfl⟩
  | pack g d a j => cases h; exact ⟨_, _, fun w => quiet_pack w j, fun _ => rfl⟩
  | unpk g d a j => cases h; exact ⟨_, _, fun w => quiet_unpk w j, fun _ => rfl⟩
  | rand g d => cases h; exact ⟨_, _, quiet_rand, fun _ => rfl⟩
  | tagset g t d a b => cases h; exact ⟨_, _, fun w => quiet_tagset w t, fun _ => rfl⟩
  | tagsetPort g t d a b e => cases h; exact ⟨_, _, fun w => quiet_tagset w t, fun _ => rfl⟩
  | mov g d a => cases h; exact ⟨_, _, quiet_mov, fun _ => rfl⟩
  | movPort g d a e => cases h; exact ⟨_, _, quiet_mov, fun _ => rfl⟩
  | movTag g t d a => cases h; exact ⟨_, _, fun w => quiet_plain w (tagMd t) fun rs l => (src0 rs 0).val l, fun _ => rfl⟩
  | li g t d imm => cases h; exact ⟨_, _, fun w => quiet_plain w (tagMd t) fun _ _ => imm, fun _ => rfl⟩
  | _ => cases h

/-! Pops -/

/-- A stall leaves the state, but for the need that it has noted. -/
def Stays (s : State) (w : Nat) (u : State) : Prop := u = s ∨ ∃ n, u = s.modWave w fun x => { x with sch.need := n }

theorem take_zero (r : Ring) : r.take 0 = r := rfl

theorem take_take (r : Ring) (a b : Nat) : (r.take a).take b = r.take (a + b) := by
  simp [Ring.take, Nat.add_assoc]

theorem modGroup_out {s : State} {g : Nat} {f : Group → Group} (h : ¬ g < s.groups.length) : s.modGroup g f = s := by
  show { s with groups := s.groups.set g (f (s.group g)) } = s
  rw [List.set_eq_of_length_le (Nat.le_of_not_lt h)]

theorem modifyAt_out {α : Type} (l : List α) (i : Nat) (f : α → α) (h : ¬ i < l.length) : modifyAt l i f = l := by
  induction l generalizing i with
  | nil => rfl
  | cons x t ih =>
    cases i with
    | zero => simp at h
    | succ i => rw [modifyAt, ih i (by simpa using h)]

/-- A ring after another, or the same one, has taken elements. -/
theorem ring_modRing_take (g : Group) (i c r : Nat) : (g.modRing i fun q => q.take c).ring r = (g.ring r).take (if r = i ∧ i < g.rings.length then c else 0) := by
  by_cases hr : r = i
  · subst hr
    by_cases hl : r < g.rings.length
    · rw [if_pos ⟨rfl, hl⟩]
      exact getD_modifyAt_same g.rings r _ Ring.fresh hl
    · rw [if_neg (fun h => hl h.2), take_zero, Group.modRing, modifyAt_out _ _ _ hl]
  · rw [if_neg (fun h => hr h.1), take_zero]
    exact getD_modifyAt_other g.rings i r _ Ring.fresh hr

/-- What pops leave: elements are taken from the heads of rings that the sources name, for lanes of `m`. -/
def PopsFrom (s : State) (w : Nat) (m : Mask) (os : List Opnd) (po : PopOut) : Prop :=
  let x := s.wave w
  let g := x.id.group
  (∃ gs, po.s = { s with groups := gs }) ∧ (∀ h, h ≠ g → po.s.group h = s.group h) ∧
  po.s.group g = { s.group g with rings := (po.s.group g).rings } ∧
  (∀ r, ∃ c, (po.s.group g).ring r = ((s.group g).ring r).take c ∧
    ((∀ n push, Opnd.q n ∈ os → x.port n.toNat ≠ some (r, push)) → (po.s.group g).ring r = (s.group g).ring r)) ∧
  ∀ l, m.getLsbD l = false → po.m.getLsbD l = false

theorem mem_portsOf {os : List Opnd} {n : Nat} : n ∈ portsOf os ↔ ∃ k, Opnd.q k ∈ os ∧ k.toNat = n := by
  rw [portsOf, List.mem_eraseDups, List.mem_filterMap]
  constructor
  · rintro ⟨o, ho, h⟩
    split at h
    · cases h; exact ⟨_, ho, rfl⟩
    · cases h
  · rintro ⟨k, hk, rfl⟩
    exact ⟨_, hk, rfl⟩

theorem popsFrom_take {s : State} {w : Nat} {m got : Mask} {os : List Opnd} {acc po : PopOut} {k : BitVec 4} {ri c : Nat} {push : Bool}
    (h : PopsFrom s w m os acc) (hk : Opnd.q k ∈ os) (hp : (s.wave w).port k.toNat = some (ri, push))
    (hs : po.s = acc.s.modGroup (s.wave w).id.group fun g => g.modRing ri fun r => r.take c) (hm : po.m = acc.m &&& got) :
    PopsFrom s w m os po := by
  obtain ⟨⟨gs, hgs⟩, others, own, rings, lanes⟩ := h
  have lanes' : ∀ l, m.getLsbD l = false → po.m.getLsbD l = false := fun l hl => by
    rw [hm, BitVec.getLsbD_and, lanes l hl, Bool.false_and]
  by_cases hg : (s.wave w).id.group < acc.s.groups.length
  · have group := group_modGroup_same acc.s (s.wave w).id.group (fun g => g.modRing ri fun r => r.take c) hg
    rw [← hs] at group
    refine ⟨⟨po.s.groups, ?_⟩, fun h hh => ?_, ?_, fun r => ?_, lanes'⟩
    · rw [hs, hgs]; rfl
    · rw [hs, group_modGroup_other _ _ _ _ hh, others h hh]
    · rw [group, Group.modRing, own]
    · obtain ⟨a, ha, unnamed⟩ := rings r
      refine ⟨_, by rw [group, ring_modRing_take, ha, take_take], fun hn => ?_⟩
      have apart : r ≠ ri := fun e => hn k push hk (e ▸ hp)
      rw [group, ring_modRing_take, if_neg (fun e => apart e.1), take_zero, unnamed hn]
  · rw [modGroup_out hg] at hs
    exact ⟨⟨gs, hs.trans hgs⟩, hs ▸ others, hs ▸ own, hs ▸ rings, lanes'⟩

theorem gives_popPort {s : State} {w : Nat} {m : Mask} {os : List Opnd} {acc : PopOut} {n : Nat} (hn : n ∈ portsOf os) (h : PopsFrom s w m os acc) :
    Gives (Stays s w) (PopsFrom s w m os) (popPort true s w m acc n) := by
  obtain ⟨k, hk, rfl⟩ := mem_portsOf.1 hn
  unfold popPort
  split
  · trivial
  next ri push hp =>
    refine gives_ite (fun _ => trivial) fun _ => ?_
    split
    · exact .inr ⟨_, rfl⟩
    · exact gives_ite (fun _ => .inr ⟨_, rfl⟩) fun _ => gives_ok (popsFrom_take h hk hp rfl rfl)

theorem gives_popAll (s : State) (w : Nat) (m : Mask) (os : List Opnd) : Gives (Stays s w) (PopsFrom s w m os) (popAll true s w m os) :=
  gives_foldlM _ (fun _ hn _ h => gives_popPort hn h)
    ⟨⟨s.groups, rfl⟩, fun _ _ => rfl, rfl, fun _ => ⟨0, rfl, fun _ => rfl⟩, fun _ h => h⟩

/-- Without ports nothing is popped. -/
theorem popAll_portless {s : State} {w : Nat} {m : Mask} {os : List Opnd} {po : PopOut} (h : popAll true s w m os = .ok po)
    (hos : os.any isPort = false) : po.s = s := by
  have none : portsOf os = [] := by
    refine List.eq_nil_iff_forall_not_mem.2 fun n hn => ?_
    obtain ⟨k, hk, -⟩ := mem_portsOf.1 hn
    exact List.any_eq_false.1 hos _ hk rfl
  rw [popAll, none] at h
  cases h
  rfl

/-! What lane-wise instructions leave of the wave -/

/-- A wave without what a lane-wise instruction may change in it: also V registers, predicates, flags, generators and the memory
interface. -/
def Wave.laneStanding (x : Wave) : Wave :=
  { Wave.standing x with v := [], preds := [], fflags := 0, convGen := 0, lc.randC := [], mem := default }

/-- The state `u` is `t` with wave `w` such that only predicates, flags and generators may differ from `x`. -/
def Moved (t : State) (w : Nat) (x : Wave) (u : State) : Prop :=
  ∃ y, u = t.setWave w y ∧ Wave.laneStanding y = Wave.laneStanding x ∧ y.mem = x.mem ∧ y.v = x.v

section moved
variable {t u : State} {w : Nat} {x : Wave} {f : Wave → Wave}

theorem setWave_modWave (hw : w < t.waves.length) (y : Wave) : (t.setWave w y).modWave w f = t.setWave w (f y) :=
  modWave_modWave hw (fun _ => y) f

theorem wave_setWave_same (hw : w < t.waves.length) (y : Wave) : (t.setWave w y).wave w = y := wave_modWave_same t w (fun _ => y) hw

theorem moved_modWave (hw : w < t.waves.length) (h : Moved t w x u) (hs : ∀ y, Wave.laneStanding (f y) = Wave.laneStanding y)
    (hm : ∀ y, (f y).mem = y.mem) (hv : ∀ y, (f y).v = y.v) : Moved t w x (u.modWave w f) := by
  obtain ⟨y, rfl, standing, mem, v⟩ := h
  exact ⟨f y, setWave_modWave hw y, (hs y).trans standing, (hm y).trans mem, (hv y).trans v⟩

theorem setP_eq_setPreds (p : BitVec 3) (m bits : Mask) (y : Wave) : y.setP p m bits = setPreds m [(p, bits)] y := rfl

theorem setPreds_laneStanding (m : Mask) (ps : List (BitVec 3 × Mask)) (y : Wave) : Wave.laneStanding (setPreds m ps y) = Wave.laneStanding y :=
  setPreds_keeps Wave.laneStanding (fun _ _ => rfl) ..

theorem setPreds_mem (m : Mask) (ps : List (BitVec 3 × Mask)) (y : Wave) : (setPreds m ps y).mem = y.mem :=
  setPreds_keeps (fun y => y.mem) (fun _ _ => rfl) ..

theorem setPreds_v (m : Mask) (ps : List (BitVec 3 × Mask)) (y : Wave) : (setPreds m ps y).v = y.v :=
  setPreds_keeps (fun y => y.v) (fun _ _ => rfl) ..

theorem moved_setPreds (hw : w < t.waves.length) (h : Moved t w x u) (m : Mask) (ps : List (BitVec 3 × Mask)) :
    Moved t w x (u.modWave w (setPreds m ps)) :=
  moved_modWave hw h (setPreds_laneStanding m ps) (setPreds_mem m ps) (setPreds_v m ps)

theorem moved_drawn {v : State} (hw : w < t.waves.length) (h : Moved t w x u) (hd : Drawn u w v) : Moved t w x v := by
  obtain ⟨fl, gen, counts, rfl⟩ := hd
  exact moved_modWave hw h (fun _ => rfl) (fun _ => rfl) fun _ => rfl

end moved

/-! V registers -/

/-- The V registers but D, and the lanes of D outside `m` where D does not hold a whole number, stand. -/
def VStands (d : Opnd) (m : Mask) (x y : Wave) : Prop :=
  (∀ k, d ≠ .v (BitVec.ofNat 6 k) → k < 64 → y.v.getD k ⟨[], 0⟩ = x.v.getD k ⟨[], 0⟩) ∧
  ∀ n l, d = .v n → m.getLsbD l = false → mdTag (y.v.getD n.toNat ⟨[], 0⟩).md ≠ .limb →
    (y.v.getD n.toNat ⟨[], 0⟩).lanes.getD l 0 = (x.v.getD n.toNat ⟨[], 0⟩).lanes.getD l 0

theorem vStands_refl {d : Opnd} {m : Mask} {x y : Wave} (h : y.v = x.v) : VStands d m x y :=
  ⟨fun k _ _ => by rw [h], fun n l _ _ _ => by rw [h]⟩

/-- Lanes outside the mask stand, whatever is written. -/
theorem getD_blend_outside (m : Mask) (i : Nat) (old new : List Lane) (l : Nat) (h : m.getLsbD (i + l) = false) :
    (blend m i old new).getD l 0 = old.getD l 0 := by
  induction old generalizing i new l with
  | nil => cases new <;> rfl
  | cons o os ih =>
    cases new with
    | nil =>
      cases l with
      | zero => rfl
      | succ l => exact ih (i + 1) [] l (by rw [← h]; congr 1; omega)
    | cons n ns =>
      cases l with
      | zero =>
        have out : m.getLsbD i = false := h
        simp [blend, out]
      | succ l => exact ih (i + 1) ns l (by rw [← h]; congr 1; omega)

theorem vStands_setV {n : BitVec 6} {m mask : Mask} {x y : Wave} {vals : List Lane} {md : BitVec 32} (hv : y.v = (x.setV n.toNat mask vals md).v)
    (hm : mdTag md = .limb ∨ ∀ l, m.getLsbD l = false → mask.getLsbD l = false) : VStands (.v n) m x y := by
  refine ⟨fun k hk _ => ?_, fun k l hd hl ht => ?_⟩
  · have apart : n.toNat ≠ k := fun e => hk (by rw [← e, BitVec.ofNat_toNat, BitVec.setWidth_eq])
    rw [hv]
    simp [Wave.setV, List.getD, List.getElem?_set_ne apart]
  · cases hd
    rw [hv] at ht ⊢
    by_cases hn : n.toNat < x.v.length
    · have same : ((x.setV n.toNat mask vals md).v.getD n.toNat ⟨[], 0⟩) = { lanes := blend mask 0 (x.vreg n.toNat).lanes vals, md := md } := by
        simp [Wave.setV, List.getD, hn]
      have old : x.vreg n.toNat = x.v.getD n.toNat ⟨[], 0⟩ := by
        simp [Wave.vreg, List.getD, hn]
      rw [same] at ht ⊢
      obtain hm | hm := hm
      · exact absurd hm ht
      · rw [← old]
        exact getD_blend_outside mask 0 _ _ l (by rw [Nat.zero_add]; exact hm l hl)
    · rw [Wave.setV, List.set_eq_of_length_le (Nat.le_of_not_lt hn)]

end Sys2Proof.Proofs
end

section
/-! PROOF. What a lane-wise instruction comes to (spec/03 R112, spec/06 R242, R243, R249). -/

open Sys2Proof Sys2Proof.Machine Sys2Proof.Claims

namespace Sys2Proof.Proofs

/-! Results at their destination -/

/-- A result that no port receives: only wave `w` differs from `t`. -/
def Settled (t : State) (w : Nat) (x : Wave) (d : Opnd) (m : Mask) (r : State) : Prop :=
  ∃ y, r = t.setWave w y ∧ Wave.laneStanding y = Wave.laneStanding x ∧ y.mem = x.mem ∧ VStands d m x y

/-- A result that is pushed: the stores of the wave are performed, then ring `ri` takes the lanes `ls`. -/
def Pushes (t : State) (w : Nat) (x : Wave) (d : Opnd) (m : Mask) (r : State) : Prop :=
  ∃ (n : BitVec 4) (z : Wave) (vals : Nat → Lane) (ri : Nat) (push : Bool) (ps : List (BitVec 3 × Mask)), d = .q n ∧
    (Wave.laneStanding z = Wave.laneStanding x ∧ z.mem = x.mem ∧ z.v = x.v) ∧ x.port n.toNat = some (ri, push) ∧
    r = (pushed ((t.setWave w z).performAll w) w ri ((t.group x.id.group).ring ri) (lanesOf x.id.width m) vals).modWave w (setPreds m ps)

theorem moved_settled {t u : State} {w : Nat} {x : Wave} {d : Opnd} {m : Mask} (h : Moved t w x u) : Settled t w x d m u := by
  obtain ⟨y, hu, standing, mem, v⟩ := h
  exact ⟨y, hu, standing, mem, vStands_refl v⟩

section put
variable {s t : State} {w : Nat} {x : Wave} {m base : Mask} {o : LaneOut} (hw : w < t.waves.length) (hm : Moved t w x o.s)
include hw hm

theorem gives_putLanes_port (n : BitVec 4) : Gives (Stays s w) (Pushes t w x (.q n) m) (putLanes s w m (.q n) o) := by
  obtain ⟨z, hz, standing⟩ := hm
  have here : o.s.wave w = z := by rw [hz]; exact wave_setWave_same hw z
  have id : z.id = x.id := (congrArg Wave.id standing.1 :)
  have ports : z.ports = x.ports := (congrArg Wave.ports standing.1 :)
  show Gives _ _ (pushPort s o.s w n.toNat m o.vals >>= fun r => .ok (r.modWave w (setPreds m o.preds)))
  cases hp : (o.s.wave w).port n.toNat with
  | none => rw [pushPort, hp]; trivial
  | some q =>
    obtain ⟨ri, push⟩ := q
    rw [pushPort_eq hp]
    refine Gives.bind (P := fun r => r = pushed ((t.setWave w z).performAll w) w ri ((t.group x.id.group).ring ri) (lanesOf x.id.width m) o.vals)
      (gives_ite (fun _ => trivial) fun _ => gives_ite (fun _ => trivial) fun _ => gives_ite (fun _ => .inr ⟨_, rfl⟩) fun _ =>
        gives_ite (fun _ => .inl rfl) fun _ => gives_ite (fun _ => .inl rfl) fun _ => gives_ok ?_) fun r hr => ?_
    · have group : (o.s.waveGroup w).ring ri = (t.group x.id.group).ring ri := by
        rw [State.waveGroup, here, id, hz]; rfl
      rw [group, here, id, hz]
    · refine gives_ok ⟨n, z, o.vals, ri, push, o.preds, rfl, standing, ?_, by rw [hr]⟩
      rw [here] at hp
      rw [← hp, Wave.port, Wave.port, ports]

theorem gives_putLanes (hl : o.lanes ≠ none → mdTag o.md = .limb) (hbase : ∀ l, base.getLsbD l = false → m.getLsbD l = false) (d : Opnd) :
    Gives (Stays s w) (fun r => isPort d = false ∧ Settled t w x d base r ∨ Pushes t w x d m r) (putLanes s w m d o) := by
  have others : Moved t w x (o.s.modWave w (setPreds m o.preds)) := moved_setPreds hw hm m o.preds
  cases d with
  | v n =>
    refine gives_ok (.inl ⟨rfl, ?_⟩)
    obtain ⟨z, hz, standing, mem, v⟩ := hm
    have same : (z.setV n.toNat (o.lanes.getD m) ((List.range z.id.width).map o.vals) o.md).v =
        (x.setV n.toNat (o.lanes.getD m) ((List.range z.id.width).map o.vals) o.md).v := by
      simp only [Wave.setV, Wave.vreg, v]
    have written : mdTag o.md = .limb ∨ ∀ l, base.getLsbD l = false → (o.lanes.getD m).getLsbD l = false := by
      cases ho : o.lanes with
      | none => exact .inr hbase
      | some k => exact .inl (hl (by rw [ho]; nofun))
    refine ⟨setPreds m o.preds (z.setV n.toNat (o.lanes.getD m) ((List.range z.id.width).map o.vals) o.md), ?_,
      (setPreds_laneStanding ..).trans standing, (setPreds_mem ..).trans mem, vStands_setV ((setPreds_v ..).trans same) written⟩
    rw [hz, setWave_modWave hw]
    exact setWave_modWave hw _
  | q n => exact (gives_putLanes_port hw hm n).imp fun _ h => .inr h
  | _ => exact gives_ok (.inl ⟨rfl, moved_settled others⟩)

end put

/-! The whole instruction -/

/-- What a lane-wise instruction over the lanes `m` comes to: nothing, where no lane is active; else its pops, and where a lane is served
its result. -/
def LaneDone (s : State) (w : Nat) (d : Opnd) (srcs : List Opnd) (m : Mask) (r : State) : Prop :=
  (m = 0 ∧ r = s) ∨ ∃ po, popAll true s w m srcs = .ok po ∧ PopsFrom s w m srcs po ∧
    ((isPort d = false ∨ po.m = 0) ∧ Settled po.s w (s.wave w) d m r ∨ po.m ≠ 0 ∧ Pushes po.s w (s.wave w) d po.m r)

theorem poisons_tag (po : PopOut) (md : BitVec 32) : mdTag (po.poisons md) = mdTag md := by
  have kept : (md ||| 0x10000#32).extractLsb' 0 4 = md.extractLsb' 0 4 := by
    rw [BitVec.extractLsb'_or]
    exact BitVec.or_zero
  unfold PopOut.poisons
  split
  · rw [mdTag, mdTag, kept]
  · rfl

/-- The body over the lanes served, and its result at the destination. -/
theorem gives_served {s t u : State} {w : Nat} {x : Wave} {base : Mask} {d : Opnd} {rs : List Src} {body : State → Mask → List Src → Eff LaneOut}
    (hw : w < t.waves.length) (hu : Moved t w x u) (hb : Quiet w body) (po : PopOut) (lanes : ∀ l, base.getLsbD l = false → po.m.getLsbD l = false) :
    Gives (Stays s w) (fun r => isPort d = false ∧ Settled t w x d base r ∨ Pushes t w x d po.m r) (do
      let out ← body u po.m rs
      demand (isV d || po.lost.isNone) 0x10#6 (BitVec.ofNat 64 (po.lost.getD 0))
      putLanes s w po.m d { out with md := po.poisons out.md }) := by
  have there : w < u.waves.length := by
    obtain ⟨y, rfl, -⟩ := hu
    show w < (t.waves.set w y).length
    rwa [List.length_set]
  refine (hb _ u po.m rs there).bind fun o ho => (gives_demand ..).bind fun _ _ => ?_
  have tag := poisons_tag po o.md
  generalize po.poisons o.md = md at tag ⊢
  exact gives_putLanes (o := { o with md := md }) hw (moved_drawn hw hu ho.1) (fun h => tag.trans (ho.2 h)) lanes d

theorem gives_laneWise {s : State} {w : Nat} {base : Mask} {g : Guards} {checks : List (Opnd × Accept)} {extra : Bool} {d : Opnd} {srcs : List Opnd}
    {pe : Option (BitVec 4)} {body : State → Mask → List Src → Eff LaneOut} (hw : w < s.waves.length) (hb : Quiet w body) :
    Gives (Stays s w) (LaneDone s w d srcs (base &&& guardBits g.ga (readP s w 0 g.ga.p) &&& guardBits g.gb (readP s w 1 g.gb.p)))
      (laneWise s w base g checks extra d srcs pe body) := by
  unfold laneWise
  extract_lets m
  refine (gives_checkOps ..).bind fun _ _ => (gives_demand ..).bind fun _ _ => (gives_demand ..).bind fun _ _ =>
    gives_ite (fun h => gives_ok (.inl ⟨eq_of_beq h, rfl⟩)) fun _ => (gives_popAll ..).bind_eq fun po hpop hfrom => ?_
  obtain ⟨⟨gs, hgs⟩, -, -, -, lanes⟩ := id hfrom
  have hwp : w < po.s.waves.length := by rw [hgs]; exact hw
  have wave : po.s.wave w = s.wave w := by rw [hgs]; rfl
  have start : Moved po.s w (s.wave w) po.s := ⟨po.s.wave w, (setWave_wave ..).symm, by rw [wave], by rw [wave], by rw [wave]⟩
  extract_lets s1
  have after : Moved po.s w (s.wave w) s1 := by
    unfold s1
    split
    · exact moved_setPreds hwp start _ [(_, po.m)]
    · exact start
  refine gives_ite (fun h => gives_ok (.inr ⟨po, hpop, hfrom, .inl ⟨.inr (eq_of_beq h), moved_settled after⟩⟩)) fun h => ?_
  have served : po.m ≠ 0 := fun e => h (beq_iff_eq.2 e)
  refine (gives_served hwp after hb po lanes).imp fun r hr => .inr ⟨po, hpop, hfrom, ?_⟩
  exact hr.imp (fun h => ⟨.inl h.1, h.2⟩) fun h => ⟨served, h⟩

end Sys2Proof.Proofs
end

section
/-! PROOF. The frame of scalar and vector computations (spec/02 R84 to R92, spec/03 R110, R112, R122, spec/06 R242, R243, R249). -/

open Sys2Proof Sys2Proof.Machine Sys2Proof.Claims

namespace Sys2Proof.Proofs

/-! What the performance of stores leaves -/

theorem frame_launches : StoresFrame fun s => s.launches where
  marked _ _ _ := rfl
  scratch _ _ _ := rfl
  staged _ _ _ _ := rfl
  lost _ _ _ _ _ _ _ _ _ := rfl
  home _ _ := rfl
  lines _ _ _ := ite_keeps State.launches rfl rfl
  sent _ _ := rfl
  queue _ _ _ := rfl

theorem frame_dies : StoresFrame fun s => s.dies where
  marked _ _ _ := rfl
  scratch _ _ _ := rfl
  staged _ _ _ _ := rfl
  lost _ _ _ _ _ _ _ _ _ := rfl
  home _ _ := rfl
  lines _ _ _ := ite_keeps State.dies rfl rfl
  sent _ _ := rfl
  queue _ _ _ := rfl

theorem frame_quads : StoresFrame fun s => s.quads where
  marked _ _ _ := rfl
  scratch _ _ _ := rfl
  staged _ _ _ _ := rfl
  lost _ _ _ _ _ _ _ _ _ := rfl
  home _ _ := rfl
  lines _ _ _ := ite_keeps State.quads rfl rfl
  sent _ _ := rfl
  queue _ _ _ := rfl

theorem frame_laneStanding (v : Nat) : StoresFrame fun s => Wave.laneStanding (s.wave v) := frame_wave _ (fun _ _ => rfl) (fun _ _ => rfl) v

theorem frame_v (v : Nat) : StoresFrame fun s => (s.wave v).v := frame_wave _ (fun _ _ => rfl) (fun _ _ => rfl) v

/-! What completing adds -/

/-- The cores after an instruction of wave `x` has counted. -/
def counted (x : Wave) (u : State) : List Core :=
  (u.modCore x.id.core fun k => { k with slots := k.slots + 1, retired := k.retired + if x.counts then 1 else 0 }).cores

theorem counted_congr (x : Wave) {u v : State} (h : u.cores = v.cores) : counted x u = counted x v := by
  simp only [counted, modCore_cores, State.core, h]

theorem completed_cores (s r : State) (w : Nat) : (completed s w r).cores = counted (s.wave w) r := by
  unfold completed State.retire State.countRetired counted
  simp [State.core]

theorem completed_laneStanding (s r : State) (w : Nat) : Wave.laneStanding ((completed s w r).wave w) = Wave.laneStanding (r.wave w) :=
  congrArg (fun y : Wave => { y with v := [], preds := [], fflags := 0, convGen := 0, lc.randC := [], mem := default }) (completed_standing s r w)

theorem completed_waveMem (s r : State) (w : Nat) : ((completed s w r).wave w).mem = (r.wave w).mem := (congrArg Wave.mem (completed_standing s r w) :)

theorem completed_v (s r : State) (w : Nat) : ((completed s w r).wave w).v = (r.wave w).v := (congrArg Wave.v (completed_standing s r w) :)

theorem vStands_congr {d : Opnd} {m : Mask} {x y z : Wave} (h : VStands d m x y) (hz : z.v = y.v) : VStands d m x z := by
  unfold VStands
  rw [hz]
  exact h

/-! What each outcome leaves -/

/-- Nothing but the rings of `u` and wave `w` differs from `s`, and of the wave's memory interface nothing. -/
def Still (s u t : State) (w : Nat) : Prop :=
  (∀ a, t.mem.read a = s.mem.read a) ∧ t.groups = u.groups ∧ t.cores = counted (s.wave w) s ∧ (∀ v, v ≠ w → t.wave v = s.wave v) ∧
  t.parts = s.parts ∧ t.ctl = s.ctl ∧ (t.wave w).mem = (s.wave w).mem

/-- What no lane-wise instruction changes, wherever its result goes. -/
def Bystanders (s t : State) (w : Nat) (d : Opnd) (m : Mask) : Prop :=
  (t.launches = s.launches ∧ t.dies = s.dies ∧ t.quads = s.quads) ∧ Wave.laneStanding (t.wave w) = Wave.laneStanding (s.wave w) ∧
  VStands d m (s.wave w) (t.wave w)

theorem still_nothing (s : State) (w : Nat) : Still s s (completed s w s) w :=
  ⟨fun _ => by rw [completed_mem], completed_groups .., completed_cores .., fun _ hv => completed_wave_other _ _ _ hv, completed_parts ..,
    completed_ctl .., completed_waveMem ..⟩

theorem bystanders_nothing (s : State) (w : Nat) (d : Opnd) (m : Mask) : Bystanders s (completed s w s) w d m :=
  ⟨⟨completed_launches .., completed_dies .., completed_quads ..⟩, completed_laneStanding .., vStands_refl (completed_v ..)⟩

section settled
variable {s r : State} {w : Nat} {gs : List Group} {d : Opnd} {m : Mask} (hw : w < s.waves.length)
  (h : Settled { s with groups := gs } w (s.wave w) d m r)
include hw h

theorem settled_still : Still s { s with groups := gs } (completed s w r) w := by
  obtain ⟨y, rfl, -, mem, -⟩ := h
  have own := wave_setWave_same (t := { s with groups := gs }) hw y
  refine ⟨fun _ => by rw [completed_mem]; rfl, completed_groups .., ?_, fun v hv => ?_, completed_parts .., completed_ctl .., ?_⟩
  · exact (completed_cores ..).trans (counted_congr _ rfl)
  · exact (completed_wave_other _ _ _ hv).trans (wave_modWave_other _ w v (fun _ => y) hv)
  · rw [completed_waveMem, own, mem]

theorem settled_bystanders : Bystanders s (completed s w r) w d m := by
  obtain ⟨y, rfl, standing, -, v⟩ := h
  have own := wave_setWave_same (t := { s with groups := gs }) hw y
  refine ⟨⟨completed_launches .., completed_dies .., completed_quads ..⟩, ?_, vStands_congr v ?_⟩
  · rw [completed_laneStanding, own, standing]
  · rw [completed_v, own]

end settled

section pushes
variable {t : State} {w g ri : Nat} {ring : Ring} {ls : List Nat} {vals : Nat → Lane} {m : Mask} {ps : List (BitVec 3 × Mask)}

/-- The state after a push and the predicates of its instruction. -/
def pushedWith (v : State) (w ri : Nat) (ring : Ring) (ls : List Nat) (vals : Nat → Lane) (m : Mask) (ps : List (BitVec 3 × Mask)) : State :=
  (pushed v w ri ring ls vals).modWave w (setPreds m ps)

theorem pushedWith_groups {v : State} (hid : (v.wave w).id.group = g) : (pushedWith v w ri ring ls vals m ps).groups =
    (v.modGroup g fun x => { (x.modRing ri fun k => { k with occ := k.occ ++ List.replicate ls.length true }) with
      sp := x.sp.writeAll (ls.zipIdx.flatMap fun e => placed (ring.place (ring.head + ring.occ.length + e.2)) (leBytes 4 (vals e.1).toNat)) }).groups := by
  rw [pushedWith, modWave_groups, pushed_eq hid]
  rfl

section parts
variable (v : State)

theorem pushedWith_memory : (pushedWith v w ri ring ls vals m ps).mem = v.mem := by simp [pushedWith, pushed, State.releaseInterval]
theorem pushedWith_cores : (pushedWith v w ri ring ls vals m ps).cores = v.cores := by simp [pushedWith, pushed, State.releaseInterval]
theorem pushedWith_launches : (pushedWith v w ri ring ls vals m ps).launches = v.launches := by simp [pushedWith, pushed, State.releaseInterval]
theorem pushedWith_dies : (pushedWith v w ri ring ls vals m ps).dies = v.dies := by simp [pushedWith, pushed, State.releaseInterval]
theorem pushedWith_quads : (pushedWith v w ri ring ls vals m ps).quads = v.quads := by simp [pushedWith, pushed, State.releaseInterval]

end parts

theorem pushed_wave (v : State) (k : Nat) : (pushed v w ri ring ls vals).wave k = (v.releaseInterval w).wave k := rfl

theorem pushedWith_wave_other (v : State) {k : Nat} (hk : k ≠ w) : (pushedWith v w ri ring ls vals m ps).wave k = v.wave k := by
  rw [pushedWith, wave_modWave_other _ w k _ hk, pushed_wave, State.releaseInterval, wave_modWave_other v w k _ hk]

theorem pushedWith_keeps {β : Type} (p : Wave → β) (hi : ∀ (x : Wave) n, p { x with mem.interval := n } = p x) (hp : ∀ (x : Wave) l, p { x with preds := l } = p x)
    (v : State) : p ((pushedWith v w ri ring ls vals m ps).wave w) = p (v.wave w) := by
  rw [pushedWith, wave_modWave_keeps p _ w w (setPreds_keeps p hp ..), pushed_wave]
  exact wave_modWave_keeps p v w w (hi ..)

theorem pushedWith_mem (v : State) (hw : w < v.waves.length) : ((pushedWith v w ri ring ls vals m ps).wave w).mem =
    { (v.wave w).mem with interval := (v.wave w).mem.interval + 1 } := by
  rw [pushedWith, wave_modWave_keeps (fun x => x.mem) _ w w (setPreds_mem ..), pushed_wave, State.releaseInterval, wave_modWave_same v w _ hw]

end pushes

/-- What a push leaves, the pops of its instruction having led to `u`. -/
def PushLeft (s u t : State) (w : Nat) (d : Opnd) (m : Mask) : Prop :=
  ∀ n, d = .q n → m ≠ 0 → ∃ (z : Wave) (vals : Nat → Lane) (ri : Nat) (push : Bool), z.id = (s.wave w).id ∧ z.mem = (s.wave w).mem ∧
    z.ports = (s.wave w).ports ∧ (s.wave w).port n.toNat = some (ri, push) ∧
    let v := (u.setWave w z).performAll w
    let ring := (u.group (s.wave w).id.group).ring ri
    let ls := lanesOf (s.wave w).id.width m
    t.mem = v.mem ∧ t.cores = counted (s.wave w) v ∧ (∀ k, k ≠ w → t.wave k = v.wave k) ∧
    (t.wave w).mem = { (v.wave w).mem with interval := (v.wave w).mem.interval + 1 } ∧
    t.groups = (v.modGroup (s.wave w).id.group fun q =>
      { q.modRing ri (fun k => { k with occ := k.occ ++ List.replicate ls.length true }) with
        sp := q.sp.writeAll ((ls.zipIdx).flatMap fun e => placed (ring.place (ring.head + ring.occ.length + e.2)) (leBytes 4 (vals e.1).toNat)) }).groups

section push
variable {s r : State} {w : Nat} {gs : List Group} {d : Opnd} {m : Mask} (hw : w < s.waves.length)
  (h : Pushes { s with groups := gs } w (s.wave w) d m r)
include hw h

theorem pushes_left : PushLeft s { s with groups := gs } (completed s w r) w d m := by
  obtain ⟨n, z, vals, ri, push, ps, rfl, ⟨standing, mem, -⟩, port, hr⟩ := h
  have own := wave_setWave_same (t := { s with groups := gs }) hw z
  rintro _ ⟨⟩ -
  refine ⟨z, vals, ri, push, (congrArg Wave.id standing :), mem, (congrArg Wave.ports standing :), port, ?_⟩
  extract_lets v ring ls
  have hr : r = pushedWith v w ri ring ls vals m ps := hr
  have waves : w < v.waves.length := by
    have : v.waves.length = _ := frame_waveCount.performAll _ w
    rw [this]
    show w < (s.waves.set w z).length
    rwa [List.length_set]
  have hid : (v.wave w).id.group = (s.wave w).id.group := by
    have : Wave.laneStanding (v.wave w) = _ := (frame_laneStanding w).performAll _ w
    rw [own, standing] at this
    exact (congrArg (fun y : Wave => y.id.group) this :)
  refine ⟨?_, ?_, fun k hk => ?_, ?_, ?_⟩
  · rw [completed_mem, hr, pushedWith_memory]
  · rw [completed_cores, hr, counted_congr _ (pushedWith_cores v)]
  · rw [completed_wave_other _ _ _ hk, hr, pushedWith_wave_other _ hk]
  · rw [completed_waveMem, hr, pushedWith_mem _ waves]
  · rw [completed_groups, hr, pushedWith_groups hid]

theorem pushes_bystanders (base : Mask) : Bystanders s (completed s w r) w d base := by
  obtain ⟨n, z, vals, ri, push, ps, rfl, ⟨standing, -, v⟩, -, hr⟩ := h
  have hr : r = pushedWith _ w ri _ _ vals m ps := hr
  have own := wave_setWave_same (t := { s with groups := gs }) hw z
  refine ⟨⟨?_, ?_, ?_⟩, ?_, vStands_refl ?_⟩
  · rw [completed_launches, hr, pushedWith_launches]; exact frame_launches.performAll _ w
  · rw [completed_dies, hr, pushedWith_dies]; exact frame_dies.performAll _ w
  · rw [completed_quads, hr, pushedWith_quads]; exact frame_quads.performAll _ w
  · rw [completed_laneStanding, hr, pushedWith_keeps Wave.laneStanding (fun _ _ => rfl) (fun _ _ => rfl)]
    exact ((frame_laneStanding w).performAll _ w).trans (by rw [own, standing])
  · rw [completed_v, hr, pushedWith_keeps Wave.v (fun _ _ => rfl) (fun _ _ => rfl)]
    exact ((frame_v w).performAll _ w).trans (by rw [own, v])

end push

/-- What a lane-wise instruction over the lanes `m` leaves, by its outcome. -/
theorem laneDone_frame {s r : State} {w : Nat} {d : Opnd} {srcs : List Opnd} {m : Mask} (hw : w < s.waves.length) (h : LaneDone s w d srcs m r) :
    Bystanders s (completed s w r) w d m ∧ ((m = 0 ∧ Still s s (completed s w r) w) ∨ ∃ po, popAll true s w m srcs = .ok po ∧ PopsFrom s w m srcs po ∧
      (isPort d = false ∨ po.m = 0 → Still s po.s (completed s w r) w) ∧ PushLeft s po.s (completed s w r) w d po.m) := by
  obtain ⟨hm, rfl⟩ | ⟨po, hpop, hfrom, h⟩ := h
  · exact ⟨bystanders_nothing .., .inl ⟨hm, still_nothing ..⟩⟩
  · obtain ⟨gs, hgs⟩ := hfrom.1
    rw [hgs] at h
    obtain ⟨hd, h⟩ | ⟨hm, h⟩ := h
    · refine ⟨settled_bystanders hw h, .inr ⟨po, hpop, hfrom, fun _ => hgs ▸ settled_still hw h, ?_⟩⟩
      rintro n rfl hm
      exact (hd.elim nofun fun h0 => (hm h0).elim)
    · refine ⟨pushes_bystanders hw h m, .inr ⟨po, hpop, hfrom, fun hd => ?_, hgs ▸ pushes_left hw h⟩⟩
      obtain ⟨n, -, -, -, -, -, rfl, -⟩ := h
      exact (hd.elim nofun fun h0 => (hm h0).elim)

/-- Settles O55: a scalar computation is one write; a lane-wise one pops, changes flags and generators, and writes D. -/
theorem computationsFrame : Obligations.ComputationsFrame := by
  refine ⟨fun s t w i d hw hl ht hi => ?_, fun s t w i f hf hw hl ht => ?_⟩
  · split at hi
    case h_25 => exact hi.elim
    all_goals subst hi
    · exact scalar_frame hw hl (gives_scalarCarry ..) ht
    · exact scalar_frame hw hl (gives_scalarCarry ..) ht
    · exact scalar_frame hw hl (gives_scalar2 ..) ht
    · exact scalar_frame hw hl (gives_scalar2 ..) ht
    · exact scalar_frame hw hl (gives_scalarDiv ..) ht
    · exact scalar_frame hw hl (gives_scalarDiv ..) ht
    · exact scalar_frame hw hl (gives_scalar2 ..) ht
    · exact scalar_frame hw hl (gives_scalar2 ..) ht
    · exact scalar_frame hw hl (gives_scalar2 ..) ht
    · exact scalar_frame hw hl (gives_scalar2 ..) ht
    · exact scalar_frame hw hl (gives_scalar2 ..) ht
    · exact scalar_frame hw hl (gives_scalar2 ..) ht
    · exact scalar_frame hw hl (gives_scalar2 ..) ht
    · exact scalar_frame hw hl (gives_scalar2 ..) ht
    · exact scalar_frame hw hl (gives_scalar2 ..) ht
    · exact scalar_frame hw hl (gives_scalar3 ..) ht
    · exact scalar_frame hw hl (gives_scalar1 ..) ht
    · exact scalar_frame hw hl gives_immediate ht
    · exact scalar_frame hw hl gives_immediate ht
    · exact scalar_frame hw hl (gives_scalar1 ..) ht
    · exact scalar_frame hw hl (gives_scalar1 ..) ht
    · exact scalar_frame hw hl (gives_scalar3 ..) ht
    · exact scalar_frame hw hl gives_sbfi ht
    · exact scalar_frame hw hl gives_srdsp ht
  · obtain ⟨extra, body, quiet, shape⟩ := form_shaped hf
    rw [shape] at ht
    obtain htrap | hstall | ⟨r, hr, hrt⟩ := issue_gives hw (gives_laneWise hl (quiet w)) ht
    · exact .inl htrap
    · exact .inr (.inl hstall)
    · have frame := laneDone_frame hl hr
      rw [← hrt] at frame
      obtain ⟨⟨⟨launches, dies, quads⟩, stands, vreg, vlane⟩, outcome⟩ := frame
      refine .inr (.inr ⟨?_, launches, dies, quads, (congrArg Wave.s stands :), (congrArg Wave.hb stands :), (congrArg Wave.cy stands :),
        (congrArg Wave.hcy stands :), (congrArg Wave.amr stands :), (congrArg Wave.nttthr stands :), (congrArg Wave.evq stands :),
        (congrArg Wave.ports stands :), (congrArg (fun z : Wave => z.tr.hm) stands :), (congrArg (fun z : Wave => z.tr.cause) stands :),
        (congrArg (fun z : Wave => z.lc.regions) stands :), (congrArg (fun z : Wave => z.lc.dead) stands :), vreg, vlane⟩)
      refine outcome.imp id fun ⟨po, hpop, hfrom, still, push⟩ => ⟨po, hpop, popAll_portless hpop, ?_, still, push⟩
      obtain ⟨⟨gs, hgs⟩, others, own, rings, -⟩ := hfrom
      exact ⟨by rw [hgs], others, own, rings⟩

end Sys2Proof.Proofs
end

section
/-! PROOF. Where a positive number lies between two codes of a format, and whether it is rounded up (spec/03 R97, R98, R102). -/

open Sys2Proof Sys2Proof.Machine Sys2Proof.Claims

namespace Sys2Proof.Proofs

/-! Numbers between two bounds -/

/-- `x` lies `rem / den` of the way from `lo` to `hi`. -/
def Lies (x lo hi : ℚ) (rem den : Nat) : Prop := rem < den ∧ (x - lo) * den = (hi - lo) * rem

section lies
variable {x lo hi : ℚ} {rem den : Nat} (h : Lies x lo hi rem den) (hl : lo < hi)
include h hl

omit hl in
theorem lies_den_pos : (0 : ℚ) < den := by exact_mod_cast Nat.lt_of_le_of_lt (Nat.zero_le _) h.1

theorem lies_rem_zero : rem = 0 ↔ x = lo := by
  obtain ⟨hlt, heq⟩ := h
  have den0 : (den : ℚ) ≠ 0 := by exact_mod_cast Nat.ne_zero_of_lt hlt
  have gap : hi - lo ≠ 0 := sub_ne_zero.2 hl.ne'
  constructor
  · rintro rfl
    have : (x - lo) * den = 0 := by rw [heq]; simp
    exact sub_eq_zero.1 ((mul_eq_zero.1 this).resolve_right den0)
  · rintro rfl
    rw [sub_self, zero_mul] at heq
    exact_mod_cast (mul_eq_zero.1 heq.symm).resolve_left gap

theorem lies_bounds : lo ≤ x ∧ x < hi := by
  have den0 := lies_den_pos h
  obtain ⟨hlt, heq⟩ := h
  have rem_lt : (rem : ℚ) < den := by exact_mod_cast hlt
  have rem0 : (0 : ℚ) ≤ rem := by positivity
  have gap : 0 < hi - lo := sub_pos.2 hl
  constructor
  · refine sub_nonneg.1 (nonneg_of_mul_nonneg_left ?_ den0)
    rw [heq]; positivity
  · have : (x - lo) * den < (hi - lo) * den := by rw [heq]; exact mul_lt_mul_of_pos_left rem_lt gap
    linarith [lt_of_mul_lt_mul_right this den0.le]

/-- Twice the remainder compares with the denominator as the distances to the two bounds do. -/
theorem lies_half : (den < 2 * rem ↔ hi - x < x - lo) ∧ (den ≤ 2 * rem ↔ hi - x ≤ x - lo) := by
  have den0 := lies_den_pos h
  obtain ⟨-, heq⟩ := h
  have gap : 0 < hi - lo := sub_pos.2 hl
  have twice : (hi - lo) * (2 * rem - den) = ((x - lo) - (hi - x)) * den := by linear_combination -2 * heq
  constructor
  · rw [← sub_pos (b := hi - x), ← mul_pos_iff_of_pos_right den0, ← twice, mul_pos_iff_of_pos_left gap, sub_pos]
    exact_mod_cast Iff.rfl
  · rw [← sub_nonneg (b := hi - x), ← mul_nonneg_iff_of_pos_right den0, ← twice, mul_nonneg_iff_of_pos_left gap, sub_nonneg]
    exact_mod_cast Iff.rfl

end lies

/-- Whether the rounding mode takes `x`, between `lo` of the code `c` and `hi` of the next, up (spec/03 R102). -/
def goesUp (env : FEnv) (neg : Bool) (c : Nat) (x lo hi : ℚ) : Bool :=
  decide (x ≠ lo) && match env.rm with
    | 1 => false
    | 2 => !neg
    | 3 => neg
    | 4 => decide (hi - x ≤ x - lo)
    | _ => decide (hi - x < x - lo) || decide (hi - x = x - lo ∧ c % 2 = 1)

theorem roundsUp_eq {env : FEnv} {neg : Bool} {c rem den : Nat} {x lo hi : ℚ} (hd : env.draw = none) (h : Lies x lo hi rem den) (hl : lo < hi) :
    roundsUp env neg (c % 2 == 1) rem den = goesUp env neg c x lo hi := by
  have zero := lies_rem_zero h hl
  obtain ⟨past, half⟩ := lies_half h hl
  have tie : 2 * rem = den ↔ hi - x = x - lo := by
    rw [eq_comm (a := 2 * rem), eq_iff_le_not_lt, eq_iff_le_not_lt, half, past]
  unfold roundsUp goesUp
  by_cases hx : x = lo
  · simp [zero.2 hx, hx]
  · have rem0 : rem ≠ 0 := fun e => hx (zero.1 e)
    simp only [rem0, hd, ne_eq, hx, not_false_eq_true, decide_true, Bool.true_and, past, half, tie, beq_eq_decide, Bool.decide_and]
    rfl

/-! Positive numbers -/

/-- The number m × 2^e. -/
def scaled (m : Nat) (e : Int) : ℚ := (m : ℚ) * (2 : ℚ) ^ e

theorem two_zpow_pos (e : Int) : (0 : ℚ) < 2 ^ e := zpow_pos two_pos e

theorem two_zpow_sub (a b : Int) : (2 : ℚ) ^ (a - b) = 2 ^ a / 2 ^ b := zpow_sub₀ two_ne_zero a b

theorem zpow_toNat {n : Int} (h : 0 ≤ n) : (2 : ℚ) ^ n.toNat = 2 ^ n := by
  rw [← zpow_natCast, Int.toNat_of_nonneg h]

/-- What `splitAt` leaves lies between the count of quanta and the next one. -/
theorem splitAt_lies {m : Nat} {e q : Int} {s : Nat × Nat × Nat} (hs : splitAt m e q = s) :
    Lies (scaled m e) (scaled s.1 q) (scaled (s.1 + 1) q) s.2.1 s.2.2 := by
  subst hs
  unfold splitAt
  split
  next h =>
    refine ⟨Nat.one_pos, ?_⟩
    simp only [scaled, Nat.cast_mul, Nat.cast_pow, Nat.cast_ofNat, zpow_toNat (sub_nonneg.2 h), two_zpow_sub]
    field_simp
    simp
  next h =>
    have le : 0 ≤ q - e := by omega
    refine ⟨Nat.mod_lt _ (by positivity), ?_⟩
    have div : (m : ℚ) = 2 ^ (q - e) * (m / 2 ^ (q - e).toNat : Nat) + (m % 2 ^ (q - e).toNat : Nat) := by
      rw [← zpow_toNat le]
      exact_mod_cast (Nat.div_add_mod m _).symm
    simp only [scaled, Nat.cast_add, Nat.cast_one, Nat.cast_pow, Nat.cast_ofNat, zpow_toNat le]
    generalize ((m / 2 ^ (q - e).toNat : Nat) : ℚ) = a at div ⊢
    generalize ((m % 2 ^ (q - e).toNat : Nat) : ℚ) = b at div ⊢
    rw [div, two_zpow_sub]
    field_simp
    ring

theorem leadExp_le {m : Nat} {e : Int} (hm : 0 < m) : 2 ^ leadExp m e ≤ scaled m e := by
  rw [leadExp, zpow_add₀ two_ne_zero, zpow_natCast, scaled]
  refine mul_le_mul_of_nonneg_right ?_ (two_zpow_pos e).le
  exact_mod_cast Nat.log2_self_le hm.ne'

theorem lt_leadExp {m : Nat} {e : Int} : scaled m e < 2 ^ (leadExp m e + 1) := by
  rw [leadExp, add_right_comm, zpow_add₀ two_ne_zero, scaled]
  refine mul_lt_mul_of_pos_right ?_ (two_zpow_pos e)
  exact_mod_cast Nat.lt_log2_self

/-- The exponent of the leading bit, by the number's bounds. -/
theorem leadExp_lt_iff {m : Nat} {e k : Int} (hm : 0 < m) : leadExp m e < k ↔ scaled m e < 2 ^ k := by
  constructor
  · intro h
    exact lt_of_lt_of_le lt_leadExp (zpow_le_zpow_right₀ one_le_two h)
  · intro h
    exact (zpow_lt_zpow_iff_right₀ one_lt_two).1 (lt_of_le_of_lt (leadExp_le hm) h)

theorem scaled_strictMono (q : Int) : StrictMono fun n => scaled n q := fun a b h =>
  mul_lt_mul_of_pos_right (by exact_mod_cast h) (two_zpow_pos q)

theorem scaled_two_pow (k : Nat) (q : Int) : scaled (2 ^ k) q = 2 ^ (q + k) := by
  rw [scaled, zpow_add₀ two_ne_zero, mul_comm, zpow_natCast]
  push_cast
  rfl

/-- The count of quanta, by the leading bit of the number. -/
theorem splitAt_lt {m k : Nat} {e q : Int} (hm : 0 < m) (h : leadExp m e ≤ q + k) : (splitAt m e q).1 < 2 ^ (k + 1) := by
  obtain ⟨lo, -⟩ := lies_bounds (splitAt_lies (m := m) (e := e) (q := q) rfl) (scaled_strictMono q (Nat.lt_succ_self _))
  refine (scaled_strictMono q).lt_iff_lt.1 (lo.trans_lt ?_)
  rw [scaled_two_pow, ← leadExp_lt_iff hm]
  push_cast
  omega

theorem le_splitAt {m k : Nat} {e q : Int} (hm : 0 < m) (h : q + k ≤ leadExp m e) : 2 ^ k ≤ (splitAt m e q).1 := by
  obtain ⟨-, hi⟩ := lies_bounds (splitAt_lies (m := m) (e := e) (q := q) rfl) (scaled_strictMono q (Nat.lt_succ_self _))
  refine Nat.le_of_lt_succ ((scaled_strictMono q).lt_iff_lt.1 (lt_of_le_of_lt ?_ hi))
  rw [scaled_two_pow]
  exact (zpow_le_zpow_right₀ one_le_two h).trans (leadExp_le hm)

end Sys2Proof.Proofs
end

section
/-! PROOF. The codes of a format as a line of values: where `place` puts a number on it (spec/03 R97, R98, R102, R105). -/

open Sys2Proof Sys2Proof.Machine Sys2Proof.Claims

namespace Sys2Proof.Proofs

/-- `mag` goes on with the values of the magnitude codes of `f` above the largest finite one, and `place` finds each positive number
between two of them. -/
structure CodeLine (f : Fmt) (mag : Nat → ℚ) : Prop where
  mono : StrictMono mag
  finite : ∀ c, c ≤ f.maxCode → magOf f c = mag c
  above : nextMag f f.maxCode = mag (f.maxCode + 1)
  place : ∀ m e, 0 < m → Lies (scaled m e) (mag (f.place m e).1) (mag ((f.place m e).1 + 1)) (f.place m e).2.1 (f.place m e).2.2

section line
variable {f : Fmt} {mag : Nat → ℚ} (h : CodeLine f mag)
include h

theorem CodeLine.next {c : Nat} (hc : c ≤ f.maxCode) : nextMag f c = mag (c + 1) := by
  obtain lt | rfl := Nat.lt_or_eq_of_le hc
  · rw [nextMag, if_pos lt, h.finite _ lt]
  · exact h.above

theorem CodeLine.gap (c : Nat) : mag c < mag (c + 1) := h.mono (Nat.lt_succ_self c)

/-- The code between whose value and the next the number lies is the one that `place` gives. -/
theorem CodeLine.place_eq {m c : Nat} {e : Int} (hm : 0 < m) (lo : mag c ≤ scaled m e) (hi : scaled m e < mag (c + 1)) : (f.place m e).1 = c := by
  obtain ⟨lo', hi'⟩ := lies_bounds (h.place m e hm) (h.gap _)
  have le := h.mono.lt_iff_lt.1 (lo'.trans_lt hi)
  have ge := h.mono.lt_iff_lt.1 (lo.trans_lt hi')
  omega

theorem CodeLine.le_place {m c : Nat} {e : Int} (hm : 0 < m) (lo : mag c ≤ scaled m e) : c ≤ (f.place m e).1 := by
  obtain ⟨-, hi'⟩ := lies_bounds (h.place m e hm) (h.gap _)
  have := h.mono.lt_iff_lt.1 (lo.trans_lt hi')
  omega

end line

/-! Formats other than MK8 -/

/-- The exponent of the least quantum. -/
def leastQuantum (f : Fmt) : Int := 1 - (f.bias : Int) - f.fb

/-- How often the quantum has doubled at a magnitude code. -/
def doublings (f : Fmt) (c : Nat) : Nat := c / 2 ^ f.fb - 1

/-- The value at a magnitude code where every block of codes doubles the quantum. -/
def blockMag (f : Fmt) (c : Nat) : ℚ := scaled (c - doublings f c * 2 ^ f.fb) (leastQuantum f + doublings f c)

theorem doublings_block {f : Fmt} {n k : Nat} (hk : k = 0 ∨ 2 ^ f.fb ≤ n) (hn : n < 2 ^ (f.fb + 1)) : doublings f (n + k * 2 ^ f.fb) = k := by
  have pos : 0 < 2 ^ f.fb := by positivity
  rw [Nat.pow_succ] at hn
  have below : n / 2 ^ f.fb < 2 := (Nat.div_lt_iff_lt_mul pos).2 (by omega)
  rw [doublings, Nat.add_mul_div_right _ _ pos]
  obtain rfl | hk := hk
  · omega
  · have := Nat.div_pos hk pos
    omega

theorem blockMag_block {f : Fmt} {n k : Nat} (hk : k = 0 ∨ 2 ^ f.fb ≤ n) (hn : n < 2 ^ (f.fb + 1)) :
    blockMag f (n + k * 2 ^ f.fb) = scaled n (leastQuantum f + k) := by
  rw [blockMag, doublings_block hk hn, Nat.add_sub_cancel]

/-- The same at the end of a block, which begins the next. -/
theorem blockMag_block_end (f : Fmt) (k : Nat) : blockMag f (2 ^ (f.fb + 1) + k * 2 ^ f.fb) = scaled (2 ^ (f.fb + 1)) (leastQuantum f + k) := by
  have next : 2 ^ (f.fb + 1) + k * 2 ^ f.fb = 2 ^ f.fb + (k + 1) * 2 ^ f.fb := by ring
  rw [next, blockMag_block (.inr le_rfl) (Nat.pow_lt_pow_right one_lt_two (Nat.lt_succ_self _)), scaled, scaled]
  push_cast
  rw [← add_assoc, zpow_add_one₀ two_ne_zero, pow_succ]
  ring

theorem blockMag_block_succ {f : Fmt} {n k : Nat} (hk : k = 0 ∨ 2 ^ f.fb ≤ n) (hn : n < 2 ^ (f.fb + 1)) :
    blockMag f (n + k * 2 ^ f.fb + 1) = scaled (n + 1) (leastQuantum f + k) := by
  rw [Nat.add_right_comm]
  obtain lt | eq := Nat.lt_or_eq_of_le (Nat.succ_le_of_lt hn)
  · exact blockMag_block (hk.imp_right fun h => h.trans (Nat.le_succ n)) lt
  · rw [← Nat.succ_eq_add_one, eq]
    exact blockMag_block_end f k

/-- Every code lies in a block. -/
theorem code_block (f : Fmt) (c : Nat) : ∃ n, c = n + doublings f c * 2 ^ f.fb ∧ (doublings f c = 0 ∨ 2 ^ f.fb ≤ n) ∧ n < 2 ^ (f.fb + 1) := by
  have div := Nat.div_add_mod c (2 ^ f.fb)
  have mod := Nat.mod_lt c (show 0 < 2 ^ f.fb by positivity)
  rw [Nat.mul_comm] at div
  rw [Nat.pow_succ]
  unfold doublings
  cases hq : c / 2 ^ f.fb with
  | zero => exact ⟨c, by simp, .inl rfl, by rw [hq] at div; omega⟩
  | succ k =>
    rw [hq, Nat.succ_mul] at div
    exact ⟨2 ^ f.fb + c % 2 ^ f.fb, by rw [Nat.add_sub_cancel]; omega, .inr (by omega), by omega⟩

theorem blockMag_succ (f : Fmt) (c : Nat) : blockMag f (c + 1) = blockMag f c + 2 ^ (leastQuantum f + doublings f c) := by
  obtain ⟨n, hc, hk, hn⟩ := code_block f c
  generalize doublings f c = k at hc hk
  rw [hc, blockMag_block_succ hk hn, blockMag_block hk hn, scaled, scaled]
  push_cast
  ring

theorem blockMag_strictMono (f : Fmt) : StrictMono (blockMag f) :=
  strictMono_nat_of_lt_succ fun c => by rw [blockMag_succ]; exact lt_add_of_pos_right _ (two_zpow_pos _)

/-- How often the quantum doubles below the block of a number. -/
def doublingsAt (f : Fmt) (m : Nat) (e : Int) : Nat := (leadExp m e - f.fb - leastQuantum f).toNat

theorem place_block {f : Fmt} (hk : f.kind ≠ .mk8) (m : Nat) (e : Int) :
    f.place m e = ((splitAt m e (leastQuantum f + doublingsAt f m e)).1 + doublingsAt f m e * 2 ^ f.fb,
      (splitAt m e (leastQuantum f + doublingsAt f m e)).2) := by
  have grid : f.grid m e = (leastQuantum f + doublingsAt f m e, ((doublingsAt f m e * 2 ^ f.fb : Nat) : Int)) := by
    have quantum : max (leadExp m e - f.fb) (leastQuantum f) = leastQuantum f + doublingsAt f m e := by
      unfold doublingsAt
      omega
    have := quantum
    unfold leastQuantum at this
    unfold Fmt.grid
    split
    · contradiction
    · dsimp only
      rw [this, ← leastQuantum]
      push_cast
      rw [add_sub_cancel_left]
  unfold Fmt.place
  rw [if_neg (by simp [hk]), grid]
  rfl

/-- A number lies in its block. -/
theorem splitAt_block (f : Fmt) {m : Nat} (hm : 0 < m) (e : Int) :
    let n := (splitAt m e (leastQuantum f + doublingsAt f m e)).1
    (doublingsAt f m e = 0 ∨ 2 ^ f.fb ≤ n) ∧ n < 2 ^ (f.fb + 1) := by
  refine ⟨?_, splitAt_lt hm ?_⟩
  · by_cases h : doublingsAt f m e = 0
    · exact .inl h
    · exact .inr (le_splitAt hm (by unfold doublingsAt at h ⊢; omega))
  · unfold doublingsAt
    omega

/-- What a listed format other than MK8 satisfies: its finite codes lie below the sign bit and below its infinity and NaN, and the largest is
not the first of its block. -/
theorem block_formats {f : Fmt} (hf : f ∈ [Fmt.fp32, .bf16, .fp16, .e4m3, .e5m2, .e2m3, .e3m2, .e2m1, .mk8]) (hk : f.kind ≠ .mk8) :
    f.maxCode < f.signBit ∧ f.maxCode < f.infCode ∧ (f.kind = .e4m3 → f.maxCode < 0x7F) ∧ 1 ≤ f.maxCode % 2 ^ f.fb ∧ 2 ^ f.fb ≤ f.maxCode := by
  revert hk
  revert f
  decide

theorem decode_block {f : Fmt} (hk : f.kind ≠ .mk8) {c : Nat} (sign : c < f.signBit) (inf : c < f.infCode) (nan : f.kind = .e4m3 → c < 0x7F) :
    f.decode false c = if c / 2 ^ f.fb = 0 then .num false (c % 2 ^ f.fb) (leastQuantum f)
      else .num false (2 ^ f.fb + c % 2 ^ f.fb) ((c / 2 ^ f.fb : Nat) - (f.bias : Int) - f.fb) := by
  have past : ¬ f.infCode < c := by omega
  have off : c ≠ f.infCode := by omega
  unfold Fmt.decode
  rw [Nat.div_eq_of_lt sign, Nat.mod_eq_of_lt sign]
  cases hf : f.kind with
  | mk8 => exact absurd hf hk
  | e4m3 => simp [(nan hf).ne, leastQuantum]
  | _ => simp [past, off, leastQuantum]

theorem magOf_block {f : Fmt} (hk : f.kind ≠ .mk8) (sign : f.maxCode < f.signBit) (inf : f.maxCode < f.infCode)
    (nan : f.kind = .e4m3 → f.maxCode < 0x7F) {c : Nat} (hc : c ≤ f.maxCode) : magOf f c = blockMag f c := by
  have div := Nat.div_add_mod c (2 ^ f.fb)
  rw [magOf, decode_block hk (hc.trans_lt sign) (hc.trans_lt inf) (fun h => hc.trans_lt (nan h)), blockMag, doublings]
  cases hq : c / 2 ^ f.fb with
  | zero =>
    rw [hq, Nat.mul_zero, Nat.zero_add] at div
    simp [ratOf, scaled, div]
  | succ k =>
    rw [hq, Nat.mul_comm, Nat.succ_mul] at div
    have low : c - k * 2 ^ f.fb = 2 ^ f.fb + c % 2 ^ f.fb := by omega
    have exponent : ((k + 1 : Nat) : Int) - f.bias - f.fb = leastQuantum f + k := by
      unfold leastQuantum
      push_cast
      ring
    rw [if_neg (Nat.succ_ne_zero k), exponent]
    simp [ratOf, scaled, low]

theorem doublings_pred {f : Fmt} {c : Nat} (h : 1 ≤ c % 2 ^ f.fb) : doublings f (c - 1) = doublings f c := by
  have : (c - 1) / 2 ^ f.fb = c / 2 ^ f.fb := by
    have div := Nat.div_add_mod c (2 ^ f.fb)
    have mod := Nat.mod_lt c (show 0 < 2 ^ f.fb by positivity)
    rw [Nat.mul_comm] at div
    refine Nat.div_eq_of_lt_le (by omega) ?_
    rw [Nat.succ_mul]
    omega
  rw [doublings, doublings, this]

theorem codeLine_block {f : Fmt} (hf : f ∈ [Fmt.fp32, .bf16, .fp16, .e4m3, .e5m2, .e2m3, .e3m2, .e2m1, .mk8]) (hk : f.kind ≠ .mk8) :
    CodeLine f (blockMag f) := by
  obtain ⟨sign, inf, nan, inside, -⟩ := block_formats hf hk
  refine ⟨blockMag_strictMono f, fun c hc => magOf_block hk sign inf nan hc, ?_, fun m e hm => ?_⟩
  · have most := blockMag_succ f (f.maxCode - 1)
    have pos : 1 ≤ f.maxCode := by
      by_contra h
      rw [Nat.lt_one_iff.1 (Nat.lt_of_not_le h)] at inside
      simp at inside
    rw [Nat.sub_add_cancel pos, doublings_pred inside] at most
    rw [nextMag, if_neg (lt_irrefl _), if_neg hk, magOf_block hk sign inf nan le_rfl, magOf_block hk sign inf nan (Nat.sub_le ..),
      blockMag_succ]
    linear_combination most
  · obtain ⟨block, below⟩ := splitAt_block f hm e
    rw [place_block hk]
    dsimp only
    rw [blockMag_block_succ block below, blockMag_block block below]
    exact splitAt_lies rfl

end Sys2Proof.Proofs
end

section
/-! PROOF. The codes of MK8 as a line of values (spec/03 R98). -/

open Sys2Proof Sys2Proof.Machine Sys2Proof.Claims

namespace Sys2Proof.Proofs

/-- The value at a magnitude code of MK8 in units of 2^−12; above 2^10 the codes go on by powers of two. -/
def mk8Units (c : Nat) : Nat :=
  if c = 0 then 0
  else if c ≤ 126 then (mk8Value c).1 * 2 ^ ((mk8Value c).2 + 12).toNat
  else 2 ^ (22 + (c - 126))

def mk8Mag (c : Nat) : ℚ := scaled (mk8Units c) (-12)

theorem scaled_units {a : Nat} {q : Int} (h : -12 ≤ q) : scaled (a * 2 ^ (q + 12).toNat) (-12) = scaled a q := by
  have exponent : q = (q + 12).toNat + -12 := by omega
  rw [scaled, scaled, exponent, zpow_add₀ two_ne_zero, zpow_natCast]
  push_cast
  rw [← exponent]
  ring

theorem mk8Units_lt : ∀ c, c < 126 → mk8Units c < mk8Units (c + 1) := by decide

theorem mk8Units_past (k : Nat) : mk8Units (126 + k) = 2 ^ (22 + k) := by
  cases k with
  | zero => decide
  | succ k => simp [mk8Units, show ¬ 126 + (k + 1) ≤ 126 by omega]

theorem mk8Mag_strictMono : StrictMono mk8Mag :=
  strictMono_nat_of_lt_succ fun c => scaled_strictMono _ <| by
    by_cases h : c < 126
    · exact mk8Units_lt c h
    · obtain ⟨k, rfl⟩ := Nat.exists_eq_add_of_le (Nat.le_of_not_lt h)
      rw [Nat.add_assoc, mk8Units_past, mk8Units_past]
      exact Nat.pow_lt_pow_right one_lt_two (Nat.lt_succ_self _)

theorem mk8Value_exponent : ∀ c, 1 ≤ c → c ≤ 126 → -12 ≤ (mk8Value c).2 := by decide

theorem magOf_mk8 {c : Nat} (hc : c ≤ 126) : magOf .mk8 c = mk8Mag c := by
  have sign : Fmt.mk8.signBit = 128 := rfl
  rw [magOf, Fmt.decode, sign, Nat.div_eq_of_lt (by omega), Nat.mod_eq_of_lt (by omega)]
  by_cases h : c = 0
  · subst h
    decide +kernel
  · have code : c ≠ 0x7F := by omega
    have exponent := mk8Value_exponent c (Nat.pos_of_ne_zero h) hc
    simp only [Fmt.mk8, h, code, mk8Mag, mk8Units, hc, if_true, if_false, scaled_units exponent, beq_iff_eq]
    simp [ratOf, scaled]

/-- The codes of a segment hold its significands in order. -/
theorem mk8Segment_units : ∀ k < 21, let s := mk8Segment ((k : Nat) - 10)
    s.2 ≤ k + 2 ∧ ∀ n < 2 ^ (s.2 + 1), 2 ^ s.2 ≤ n → 2 ^ s.2 ≤ n + s.1 ∧
      mk8Units (n + s.1 - 2 ^ s.2) = n * 2 ^ (k + 2 - s.2) ∧ mk8Units (n + s.1 - 2 ^ s.2 + 1) = (n + 1) * 2 ^ (k + 2 - s.2) := by decide +kernel

/-! Where a number lies -/

section lies
variable {m : Nat} {e : Int} (hm : 0 < m)

/-- `place` finds the number between a code of MK8 and the next. -/
def Placed (m : Nat) (e : Int) : Prop :=
  let p := Fmt.place .mk8 m e
  Lies (scaled m e) (mk8Mag p.1) (mk8Mag (p.1 + 1)) p.2.1 p.2.2

/-- Outside the gap from 2^−12 to 2^−10, `place` counts quanta of the segment. -/
theorem placed_of_grid {q g : Int} {c : Nat} (hgap : leadExp m e ≠ -12 ∧ leadExp m e ≠ -11) (hg : Fmt.grid .mk8 m e = (q, g))
    (hc : ((splitAt m e q).1 : Int) + g = c) (lo : mk8Mag c = scaled (splitAt m e q).1 q) (hi : mk8Mag (c + 1) = scaled ((splitAt m e q).1 + 1) q) :
    Placed m e := by
  have place : Fmt.place .mk8 m e = (c, (splitAt m e q).2) := by
    unfold Fmt.place
    rw [if_neg (by simp [hgap]), hg]
    dsimp only
    rw [hc, Int.toNat_natCast]
  unfold Placed
  rw [place]
  dsimp only
  rw [lo, hi]
  exact splitAt_lies rfl

include hm

theorem placed_low (h : leadExp m e < -12) : Placed m e := by
  have none : (splitAt m e (-12)).1 = 0 := by
    obtain ⟨lo, -⟩ := lies_bounds (splitAt_lies (m := m) (e := e) (q := -12) rfl) (scaled_strictMono _ (Nat.lt_succ_self _))
    have below := lo.trans_lt ((leadExp_lt_iff hm).1 h)
    rw [← one_mul ((2 : ℚ) ^ (-12 : Int)), ← Nat.cast_one] at below
    exact Nat.lt_one_iff.1 ((scaled_strictMono (-12)).lt_iff_lt.1 below)
  refine placed_of_grid (c := 0) (by omega) (if_pos h) (by rw [none]; rfl) ?_ ?_ <;> rw [none] <;> rfl

theorem placed_gap (h : -12 ≤ leadExp m e) (h' : leadExp m e < -10) : Placed m e := by
  have some : 1 ≤ (splitAt m e (-12)).1 := le_splitAt (k := 0) hm (by simpa using h)
  obtain ⟨below, at_⟩ := splitAt_lies (m := m) (e := e) (q := -12) rfl
  have few := splitAt_lt (e := e) (k := 1) (q := -12) hm (by omega)
  have place : Fmt.place .mk8 m e = (1, ((splitAt m e (-12)).1 - 1) * (splitAt m e (-12)).2.2 + (splitAt m e (-12)).2.1, 3 * (splitAt m e (-12)).2.2) := by
    unfold Fmt.place
    rw [if_pos]
    simp only [Fmt.mk8, beq_self_eq_true, Bool.true_and, Bool.or_eq_true, beq_iff_eq]
    omega
  have one : mk8Units 1 = 1 := by decide
  have two : mk8Units 2 = 4 := by decide
  unfold Placed mk8Mag
  rw [place]
  dsimp only
  rw [one, two]
  obtain ⟨n, hn⟩ := Nat.exists_eq_add_of_le some
  rw [hn] at at_ few ⊢
  generalize (splitAt m e (-12)).2.2 = den at *
  generalize (splitAt m e (-12)).2.1 = rem at *
  constructor
  · have : n * den ≤ 2 * den := Nat.mul_le_mul_right _ (by omega)
    rw [Nat.add_sub_cancel_left]
    omega
  · rw [Nat.add_sub_cancel_left]
    unfold scaled at at_ ⊢
    push_cast at at_ ⊢
    linear_combination 3 * at_

theorem placed_segment {k : Nat} (h : leadExp m e = (k : Int) - 10) (hk : k < 21) : Placed m e := by
  obtain ⟨fits, units⟩ := mk8Segment_units k hk
  have grid : Fmt.grid .mk8 m e = (leadExp m e - (mk8Segment (leadExp m e)).2, ((mk8Segment (leadExp m e)).1 : Int) - (2 ^ (mk8Segment (leadExp m e)).2 : Nat)) := by
    unfold Fmt.grid
    simp only [Fmt.mk8]
    rw [if_neg (by omega), if_neg (by omega)]
  rw [h] at grid
  generalize mk8Segment ((k : Int) - 10) = segment at fits units grid
  obtain ⟨start, bits⟩ := segment
  dsimp only at fits units grid
  have few := splitAt_lt (e := e) (k := bits) (q := (k : Int) - 10 - bits) hm (by omega)
  have many := le_splitAt (e := e) (k := bits) (q := (k : Int) - 10 - bits) hm (by omega)
  obtain ⟨there, lo, hi⟩ := units _ few many
  have quantum : k + 2 - bits = ((k : Int) - 10 - bits + 12).toNat := by omega
  rw [quantum] at lo hi
  refine placed_of_grid (by omega) grid (c := (splitAt m e ((k : Int) - 10 - bits)).1 + start - 2 ^ bits) ?_ ?_ ?_
  · rw [Int.ofNat_sub there]
    push_cast
    ring
  · rw [mk8Mag, lo, scaled_units (by omega)]
  · rw [mk8Mag, hi, scaled_units (by omega)]

theorem placed_past {k : Nat} (h : leadExp m e = 11 + k) : Placed m e := by
  have few := splitAt_lt (e := e) (k := 0) (q := 11 + k) hm (by omega)
  have many := le_splitAt (e := e) (k := 0) (q := 11 + k) hm (by omega)
  have one : (splitAt m e (11 + k)).1 = 1 := by omega
  have grid : Fmt.grid .mk8 m e = ((11 + k : Int), (126 + k : Int)) := by
    unfold Fmt.grid
    simp only [Fmt.mk8]
    rw [if_neg (by omega), if_pos (by omega), h]
    congr 1
    omega
  have units (j : Nat) : mk8Mag (126 + j) = 2 ^ ((10 : Int) + j) := by
    rw [mk8Mag, mk8Units_past, scaled_two_pow]
    congr 1
    push_cast
    ring
  refine placed_of_grid (c := 126 + (k + 1)) (by omega) grid (by rw [one]; push_cast; ring) ?_ ?_
  · rw [units, one, scaled]
    push_cast
    rw [one_mul]
    congr 1
    ring
  · rw [Nat.add_assoc, units, one, show 1 + 1 = 2 ^ 1 from rfl, scaled_two_pow]
    congr 1
    push_cast
    ring

end lies

theorem codeLine_mk8 : CodeLine .mk8 mk8Mag := by
  refine ⟨mk8Mag_strictMono, fun c hc => magOf_mk8 hc, ?_, fun m e hm => ?_⟩
  · rw [nextMag, if_neg (lt_irrefl _), if_pos (show Fmt.mk8.kind = .mk8 from rfl), magOf_mk8 (c := Fmt.maxCode .mk8) le_rfl]
    have most : mk8Units (Fmt.maxCode .mk8) = 2 ^ 22 := mk8Units_past 0
    have next : mk8Units (Fmt.maxCode .mk8 + 1) = 2 ^ 23 := mk8Units_past 1
    rw [mk8Mag, mk8Mag, most, next, scaled, scaled]
    push_cast
    ring
  · show Placed m e
    obtain low | high := lt_or_ge (leadExp m e) (-12)
    · exact placed_low hm low
    obtain gap | high' := lt_or_ge (leadExp m e) (-10)
    · exact placed_gap hm high gap
    obtain ⟨k, hk⟩ := Int.eq_ofNat_of_zero_le (sub_nonneg.2 high')
    obtain inside | past := Nat.lt_or_ge k 21
    · exact placed_segment (k := k) hm (by omega) inside
    · exact placed_past (k := k - 21) hm (by omega)

end Sys2Proof.Proofs
end

section
/-! PROOF. Rounding: the neighbour that the mode chooses and the flags (spec/03 R102 to R105). -/

open Sys2Proof Sys2Proof.Machine Sys2Proof.Claims

namespace Sys2Proof.Proofs

/-! What `roundNum` comes to -/

/-- The code that the mode chooses. -/
def chosen (f : Fmt) (env : FEnv) (neg : Bool) (m : Nat) (e : Int) : Nat :=
  if roundsUp env neg ((f.place m e).1 % 2 == 1) (f.place m e).2.1 (f.place m e).2.2 then (f.place m e).1 + 1 else (f.place m e).1

/-- The number is below the least normal value when it is rounded with an unbounded exponent range (spec/03 R104). -/
def tiny (f : Fmt) (env : FEnv) (neg : Bool) (m : Nat) (e : Int) : Bool :=
  decide (leadExp (roundUnbounded f env neg m e).1 (roundUnbounded f env neg m e).2 < 1 - (f.bias : Int))

section cases
variable {f : Fmt} {env : FEnv} {neg : Bool} {m : Nat} {e : Int} (hm : 0 < m)
include hm

theorem roundNum_over (h : f.maxCode < chosen f env neg m e) : f.roundNum env neg m e = f.overflow env neg true := by
  unfold Fmt.roundNum
  rw [if_neg (by simp [hm.ne'])]
  exact if_pos h

theorem roundNum_mk8 (hk : f.kind = .mk8) (h : chosen f env neg m e ≤ f.maxCode) : f.roundNum env neg m e =
    if leadExp m e < -12 then (if chosen f env neg m e = 0 then 0 else f.withSign neg (chosen f env neg m e), flagUF ||| flagNX)
    else (f.withSign neg (chosen f env neg m e), if (f.place m e).2.1 = 0 then 0 else flagNX) := by
  unfold Fmt.roundNum
  rw [if_neg (by simp [hm.ne'])]
  refine (if_neg (Nat.not_lt.2 h)).trans ?_
  rw [hk]
  simp only [beq_iff_eq, bne_iff_ne, ne_eq, ite_not]
  rfl

theorem roundNum_block (hk : f.kind ≠ .mk8) (h : chosen f env neg m e ≤ f.maxCode) : f.roundNum env neg m e =
    if tiny f env neg m e && env.sub != 0 then (f.withSign neg 0, flagUF ||| flagNX)
    else (f.withSign neg (chosen f env neg m e),
      (if (f.place m e).2.1 != 0 then flagNX else 0) ||| if tiny f env neg m e && (f.place m e).2.1 != 0 then flagUF else 0) := by
  have zero : f.zero neg = f.withSign neg 0 := if_neg (by simp [hk])
  unfold Fmt.roundNum
  rw [if_neg (by simp [hm.ne'])]
  refine (if_neg (Nat.not_lt.2 h)).trans ?_
  rw [zero]
  cases hf : f.kind with
  | mk8 => exact absurd hf hk
  | _ => rfl

end cases

/-! Numbers below the least normal one -/

section tiny
variable {f : Fmt} {env : FEnv} {neg : Bool} {m : Nat} {e : Int} (hm : 0 < m)

/-- The significand rounded with the unbounded range is the one below or the next. -/
theorem roundUnbounded_fst : ∃ up ≤ 1, (roundUnbounded f env neg m e).1 = (splitAt m e (leadExp m e - f.fb)).1 + up := by
  unfold roundUnbounded
  dsimp only
  split
  · exact ⟨1, le_rfl, rfl⟩
  · exact ⟨0, Nat.zero_le _, rfl⟩

include hm

theorem not_tiny (h : 2 ^ (1 - (f.bias : Int)) ≤ scaled m e) : tiny f env neg m e = false := by
  obtain ⟨up, -, hup⟩ := roundUnbounded_fst (f := f) (env := env) (neg := neg) (m := m) (e := e)
  have least := le_splitAt (e := e) (k := f.fb) (q := leadExp m e - f.fb) hm (by omega)
  have normal := not_lt.2 h
  rw [← leadExp_lt_iff hm] at normal
  have lead : f.fb ≤ Nat.log2 (roundUnbounded f env neg m e).1 := by
    rw [hup, Nat.le_log2 (by have := Nat.two_pow_pos f.fb; omega)]
    omega
  rw [tiny, decide_eq_false_iff_not, leadExp, show (roundUnbounded f env neg m e).2 = leadExp m e - f.fb from rfl]
  omega

/-- Below the last subnormal value no rounding reaches the least normal one. -/
theorem tiny_of_lt (h : scaled m e < scaled (2 ^ f.fb - 1) (leastQuantum f)) : tiny f env neg m e = true := by
  obtain ⟨up, hle, hup⟩ := roundUnbounded_fst (f := f) (env := env) (neg := neg) (m := m) (e := e)
  have few := splitAt_lt (e := e) (k := f.fb) (q := leadExp m e - f.fb) hm (by omega)
  have pos := le_splitAt (e := e) (k := f.fb) (q := leadExp m e - f.fb) hm (by omega)
  have exponent : (roundUnbounded f env neg m e).2 = leadExp m e - f.fb := rfl
  have below : leadExp m e < 1 - (f.bias : Int) := by
    rw [leadExp_lt_iff hm]
    refine h.trans_le ?_
    have : (1 - (f.bias : Int)) = leastQuantum f + f.fb := by unfold leastQuantum; ring
    rw [this, ← scaled_two_pow]
    exact (scaled_strictMono _).monotone (Nat.sub_le ..)
  have lead {k : Nat} (hn : (roundUnbounded f env neg m e).1 < 2 ^ k) : Nat.log2 (roundUnbounded f env neg m e).1 < k :=
    (Nat.log2_lt (by have := Nat.two_pow_pos f.fb; omega)).2 hn
  rw [tiny, decide_eq_true_iff, leadExp, exponent]
  obtain lt | eq := (Int.le_sub_one_of_lt below).lt_or_eq
  · have := lead (k := f.fb + 2) (by rw [hup, Nat.pow_succ]; omega)
    omega
  · have last : (splitAt m e (leadExp m e - f.fb)).1 < 2 * (2 ^ f.fb - 1) := by
      obtain ⟨lo, -⟩ := lies_bounds (splitAt_lies (m := m) (e := e) (q := leadExp m e - f.fb) rfl) (scaled_strictMono _ (Nat.lt_succ_self _))
      refine (scaled_strictMono (leadExp m e - f.fb)).lt_iff_lt.1 ((lo.trans_lt h).trans_eq ?_)
      have half : leastQuantum f = leadExp m e - f.fb + 1 := by unfold leastQuantum; omega
      rw [half, scaled, scaled, zpow_add_one₀ two_ne_zero]
      push_cast
      ring
    have := lead (k := f.fb + 1) (by rw [hup, Nat.pow_succ]; omega)
    omega

end tiny

/-! Overflow -/

theorem overflow_finite (f : Fmt) (env : FEnv) (neg : Bool) : f.overflow env neg true = (if f.kind = .ieee then
      (if env.rm = 1 ∨ env.rm = 2 ∧ neg = true ∨ env.rm = 3 ∧ neg = false then f.withSign neg f.maxCode else f.withSign neg f.infCode)
    else if f.kind = .small ∨ env.sat = 0 then f.withSign neg f.maxCode else f.withSign neg f.infCode, 0b10100#5) := by
  unfold Fmt.overflow
  cases hf : f.kind with
  | ieee => simp [flagOF, flagNX, or_assoc]
  | small => simp [flagOF, flagNX]
  | _ =>
    by_cases hs : env.sat = 0 <;> simp [hs, flagOF, flagNX]

/-- A number that the mode takes up past the largest finite value does not clip. -/
theorem goesUp_mode {env : FEnv} {neg : Bool} {c : Nat} {x lo hi : ℚ} (h : goesUp env neg c x lo hi = true) :
    ¬ (env.rm = 1 ∨ env.rm = 2 ∧ neg = true ∨ env.rm = 3 ∧ neg = false) := by
  have mode := (Bool.and_eq_true_iff.1 h).2
  rintro (h1 | ⟨h2, rfl⟩ | ⟨h3, rfl⟩)
  · simp [h1] at mode
  · simp [h2] at mode
  · simp [h3] at mode

/-! A number between two codes -/

section between
variable {f : Fmt} {env : FEnv} {neg : Bool} {m c : Nat} {e : Int} {mag : Nat → ℚ} (line : CodeLine f mag) (hm : 0 < m) (hc : c ≤ f.maxCode)
  (lo : magOf f c ≤ scaled m e) (hi : scaled m e < nextMag f c)
include line hc

theorem between_gap : magOf f c < nextMag f c := by
  rw [line.finite c hc, line.next hc]
  exact line.gap c

include hm lo hi

theorem between_lies : (f.place m e).1 = c ∧ Lies (scaled m e) (magOf f c) (nextMag f c) (f.place m e).2.1 (f.place m e).2.2 := by
  rw [line.finite c hc, line.next hc] at *
  have here := line.place_eq hm lo hi
  have lies := line.place m e hm
  rw [here] at lies
  exact ⟨here, lies⟩

theorem between_exact : (f.place m e).2.1 = 0 ↔ scaled m e = magOf f c :=
  lies_rem_zero (between_lies line hm hc lo hi).2 (between_gap line hc)

theorem between_chosen (hd : env.draw = none) :
    chosen f env neg m e = if goesUp env neg c (scaled m e) (magOf f c) (nextMag f c) then c + 1 else c := by
  obtain ⟨here, lies⟩ := between_lies line hm hc lo hi
  rw [chosen, here, roundsUp_eq hd lies (between_gap line hc)]

theorem between_over (hd : env.draw = none) (h : f.maxCode < chosen f env neg m e) : f.roundNum env neg m e =
    (if f.kind = .ieee then f.withSign neg f.infCode else if f.kind = .small ∨ env.sat = 0 then f.withSign neg f.maxCode
      else f.withSign neg f.infCode, 0b10100#5) := by
  have up : goesUp env neg c (scaled m e) (magOf f c) (nextMag f c) = true := by
    by_contra down
    rw [between_chosen line hm hc lo hi hd, if_neg down] at h
    exact absurd hc (Nat.not_le.2 h)
  rw [roundNum_over hm h, overflow_finite, if_neg (goesUp_mode up)]

end between

/-- MK8: both flags below 2^−12, and no −0. -/
theorem between_mk8 {env : FEnv} {neg : Bool} {m c : Nat} {e : Int} (hm : 0 < m) (hc : c ≤ Fmt.maxCode .mk8) (lo : magOf .mk8 c ≤ scaled m e)
    (hi : scaled m e < nextMag .mk8 c) (h : chosen .mk8 env neg m e ≤ Fmt.maxCode .mk8) : Fmt.roundNum .mk8 env neg m e =
      (if chosen .mk8 env neg m e = 0 then 0 else Fmt.withSign .mk8 neg (chosen .mk8 env neg m e),
        if scaled m e < 2 ^ (-12 : Int) then 0b11000#5 else if scaled m e = magOf .mk8 c then 0 else 0b10000#5) := by
  rw [roundNum_mk8 hm rfl h]
  simp only [leadExp_lt_iff hm, between_exact codeLine_mk8 hm hc lo hi]
  split
  · rfl
  next large =>
    have first : mk8Mag 1 = 2 ^ (-12 : Int) := one_mul _
    have code := codeLine_mk8.le_place (c := 1) hm (by rw [first]; exact not_lt.1 large)
    have some : chosen .mk8 env neg m e ≠ 0 := by
      unfold chosen
      split <;> omega
    rw [if_neg some]
    rfl

section block
variable {f : Fmt} {env : FEnv} {neg : Bool} {m c : Nat} {e : Int} (line : CodeLine f (blockMag f)) (hk : f.kind ≠ .mk8) (hm : 0 < m)
  (hc : c ≤ f.maxCode) (lo : magOf f c ≤ scaled m e) (hi : scaled m e < nextMag f c)
include line hk hm hc lo hi

/-- The other formats: from the least normal value up only inexact is raised. -/
theorem between_normal (normal : 2 ^ f.fb ≤ c) (h : chosen f env neg m e ≤ f.maxCode) :
    f.roundNum env neg m e = (f.withSign neg (chosen f env neg m e), if scaled m e = magOf f c then 0 else 0b10000#5) := by
  have least : blockMag f (2 ^ f.fb) = 2 ^ (1 - (f.bias : Int)) := by
    have := blockMag_block (f := f) (n := 2 ^ f.fb) (k := 0) (.inl rfl) (Nat.pow_lt_pow_right one_lt_two (Nat.lt_succ_self _))
    rw [Nat.zero_mul, Nat.add_zero, scaled_two_pow] at this
    rw [this]
    congr 1
    unfold leastQuantum
    push_cast
    ring
  have large : 2 ^ (1 - (f.bias : Int)) ≤ scaled m e := by
    rw [line.finite c hc] at lo
    rw [← least]
    exact (line.mono.monotone normal).trans lo
  rw [roundNum_block hm hk h, not_tiny hm large]
  simp only [Bool.false_and, Bool.false_eq_true, if_false, bne_iff_ne, ne_eq, ite_not, between_exact line hm hc lo hi]
  split <;> rfl

/-- Below it inexact and underflow are raised together, and a flushed result is zero. -/
theorem between_subnormal (below : c + 1 < 2 ^ f.fb) (h : chosen f env neg m e ≤ f.maxCode) :
    f.roundNum env neg m e = if env.sub = 0 then (f.withSign neg (chosen f env neg m e), if scaled m e = magOf f c then 0 else 0b11000#5)
      else (f.withSign neg 0, 0b11000#5) := by
  have small : scaled m e < scaled (2 ^ f.fb - 1) (leastQuantum f) := by
    have last := blockMag_block (f := f) (n := 2 ^ f.fb - 1) (k := 0) (.inl rfl) (by rw [Nat.pow_succ]; omega)
    rw [Nat.zero_mul, Nat.add_zero, Nat.cast_zero, add_zero] at last
    rw [line.next hc] at hi
    rw [← last]
    exact hi.trans_le (line.mono.monotone (by omega))
  rw [roundNum_block hm hk h, tiny_of_lt hm small]
  by_cases hs : env.sub = 0
  · simp only [hs, Bool.true_and, bne_self_eq_false, Bool.false_eq_true, if_false, if_true, bne_iff_ne, ne_eq, ite_not, between_exact line hm hc lo hi]
    split <;> rfl
  · simp [hs, flagUF, flagNX]

end block

/-- Between the last subnormal value and the least normal one the value is still the one chosen. -/
theorem roundNum_fst {f : Fmt} {env : FEnv} {neg : Bool} {m : Nat} {e : Int} (hk : f.kind ≠ .mk8) (hm : 0 < m) (hs : env.sub = 0)
    (h : chosen f env neg m e ≤ f.maxCode) : (f.roundNum env neg m e).1 = f.withSign neg (chosen f env neg m e) := by
  rw [roundNum_block hm hk h]
  simp [hs]

theorem listed_mk8 {f : Fmt} (hf : f ∈ [Fmt.fp32, .bf16, .fp16, .e4m3, .e5m2, .e2m3, .e3m2, .e2m1, .mk8]) (hk : f.kind = .mk8) : f = .mk8 := by
  revert hk
  revert f
  decide

theorem codeLine_listed {f : Fmt} (hf : f ∈ [Fmt.fp32, .bf16, .fp16, .e4m3, .e5m2, .e2m3, .e3m2, .e2m1, .mk8]) : ∃ mag, CodeLine f mag := by
  by_cases hk : f.kind = .mk8
  · rw [listed_mk8 hf hk]
    exact ⟨_, codeLine_mk8⟩
  · exact ⟨_, codeLine_block hf hk⟩

/-- From the value that follows the largest finite one on, every mode finds an overflow. -/
theorem roundNum_above {f : Fmt} {env : FEnv} {neg : Bool} {m : Nat} {e : Int} {mag : Nat → ℚ} (line : CodeLine f mag) (hm : 0 < m)
    (h : nextMag f f.maxCode ≤ scaled m e) : f.roundNum env neg m e = f.overflow env neg true := by
  have past := line.le_place hm (by rw [← line.above]; exact h)
  refine roundNum_over hm ?_
  unfold chosen
  split <;> omega

/-- Settles O7: `place` finds the two neighbours on the line of codes, the remainder compares as the distances to them do, and each case of
`roundNum` is the rule of the spec. -/
theorem roundingMeetsTheSpec : Obligations.RoundingMeetsTheSpec := by
  intro f env neg m c e hf hd hm x r lo hi mk8 up d most top
  obtain ⟨mag, line⟩ := codeLine_listed hf
  refine ⟨fun hc hlo hhi => ?_, fun above => (roundNum_above line hm above).trans (overflow_finite f env neg)⟩
  have code : chosen f env neg m e = d := between_chosen line hm hc hlo hhi hd
  have past (h : f.maxCode < d) := between_over (neg := neg) line hm hc hlo hhi hd (by rw [code]; exact h)
  by_cases hk : f.kind = .mk8
  · obtain rfl := listed_mk8 hf hk
    have inside (h : d ≤ Fmt.maxCode .mk8) := between_mk8 (env := env) (neg := neg) hm hc hlo hhi (by rw [code]; exact h)
    rw [code] at inside
    refine ⟨fun _ => ⟨fun h => ?_, past⟩, fun h => ⟨fun _ => congrArg Prod.snd (inside h), fun no => absurd hk no, fun no => absurd hk no⟩,
      fun no => absurd hk no⟩
    simp only [r, inside h, mk8, hk, true_and]
  · have blocks := codeLine_block hf hk
    obtain ⟨-, -, -, -, most⟩ := block_formats hf hk
    have d_le : d ≤ c + 1 := by
      unfold d
      split <;> omega
    refine ⟨fun kept => ⟨fun h => ?_, past⟩, fun h => ⟨fun yes => absurd yes hk, fun _ normal => ?_, fun _ below hs => ?_⟩, fun _ below hs => ?_⟩
    · rw [if_neg fun yes => hk yes.1, ← code]
      obtain yes | normal | hs := kept
      · exact absurd yes hk
      · exact congrArg Prod.fst (between_normal blocks hk hm hc hlo hhi normal (by rw [code]; exact h))
      · exact roundNum_fst hk hm hs (by rw [code]; exact h)
    · exact congrArg Prod.snd (between_normal blocks hk hm hc hlo hhi normal (by rw [code]; exact h))
    · have flags := between_subnormal (env := env) (neg := neg) blocks hk hm hc hlo hhi below (by rw [code]; exact h)
      rw [if_pos hs] at flags
      exact congrArg Prod.snd flags
    · have flags := between_subnormal (env := env) (neg := neg) blocks hk hm hc hlo hhi below (by rw [code]; omega)
      rwa [if_neg hs] at flags

end Sys2Proof.Proofs
end

section
/-! PROOF. What a lane-wise instruction comes to where its body gives lanes or traps: only the values of the active lanes count, and
their flags (spec/03 R93, R107, R108, R112, spec/15 R456). -/

open Sys2Proof Sys2Proof.Machine Sys2Proof.Claims

namespace Sys2Proof.Proofs

/-! The body of each instruction -/

/-- The part of a lane-wise instruction between its pops and its destination. -/
def laneBody (i : Instr) (w : Nat) : State → Mask → List Src → Eff LaneOut :=
  match i with
  | .add _ sat .. => ariBody w .add sat
  | .sub _ sat .. => ariBody w .sub sat
  | .mul _ sat .. => ariBody w .mul sat
  | .mad _ sat .. => madBody w sat
  | .min .. => pickBody w false
  | .max .. => pickBody w true
  | .neg _ sat .. => signBody w false sat
  | .abs _ sat .. => signBody w true sat
  | .cmp _ cc d .. => cmpBody w cc d
  | .sel _ _ _ _ c _ => selBody w c
  | .dot _ sat .. => dotBody w sat
  | .acs _ _ _ _ _ n => acsBody w n
  | .and .. => bitBody w fun x y _ => x &&& y
  | .or .. => bitBody w fun x y _ => x ||| y
  | .xor .. => bitBody w fun x y _ => x ^^^ y
  | .not .. => bitBody w fun x _ _ => ~~~ x
  | .shl .. => bitBody w fun x y _ => x <<< shiftCount y
  | .shr .. => bitBody w fun x y _ => x >>> shiftCount y
  | .sar .. => bitBody w fun x y _ => x.sshiftRight (shiftCount y)
  | .rot .. => bitBody w fun x y _ => x.rotateLeft (y.toNat % 32)
  | .bfe _ sgn .. => bitBody w (bfeLane sgn)
  | .bfi .. => bfiBody w
  | .popc .. => countBody w fun x => BitVec.ofNat 32 (popCount 32 x.toNat)
  | .clz .. => countBody w fun x => BitVec.ofNat 32 (leadingZeros 32 x.toNat)
  | .brev .. => bitBody w fun x _ _ => BitVec.ofNat 32 (reverseBits 32 x.toNat)
  | .mulhi .. => mulhiBody w
  | .cvt _ t sr d _ j => cvtBody w t sr d j
  | .pack _ _ _ j => packBody w j
  | .unpk _ _ _ j => unpkBody w j
  | .rcp .. => sfuBody w .rcp
  | .rsq .. => sfuBody w .rsq
  | .sqrt .. => sfuBody w .sqrt
  | .exp2 .. => sfuBody w .exp2
  | .log2 .. => sfuBody w .log2
  | .sin .. => sfuBody w .sin
  | .cos .. => sfuBody w .cos
  | .rand .. => randBody w
  | .tagset _ t .. | .tagsetPort _ t .. => tagsetBody w t
  | .mov .. | .movPort .. => movBody w
  | .movTag _ t .. => fun s m rs => pure (plainLanes s w m (tagMd t) fun l => (src0 rs 0).val l)
  | .li _ t _ n => fun s m _ => pure (plainLanes s w m (tagMd t) fun _ => n)
  | _ => fun _ _ _ => raise 0

/-- What an instruction of the form `f` checks of its operands beyond their banks: dot asks for a V source among A and B. -/
def laneExtra (i : Instr) (f : LaneForm) (s : State) (w : Nat) : Bool :=
  match i with
  | .dot _ _ _ a b _ _ => namesV s w [a, b]
  | _ => f.extra s w

/-- An instruction of the form `f` is the shape over the current path, with its body. -/
theorem exec_form {i : Instr} {f : LaneForm} (h : form i = some f) (s : State) :
    exec i s = issue s fun w => laneWise s w (s.wave w).exec f.g f.checks (laneExtra i f s w) f.d f.srcs f.pe (laneBody i w) := by
  cases i <;> cases h <;> rfl

/-! From the body to the destination -/

/-- The body works on the lanes served, and its result goes to the destination. -/
theorem laneWise_entered {f : LaneForm} {s : State} {w : Nat} {po : PopOut} {extra : Bool} {body : State → Mask → List Src → Eff LaneOut}
    (he : f.enters s w po) (hx : extra = true) : laneWise s w (s.wave w).exec f.g f.checks extra f.d f.srcs f.pe body =
      body (f.popped s w po) po.m (f.sources s w po) >>= f.puts s w po := by
  obtain ⟨-, ⟨checks, -, ports⟩, hm, hpop, served⟩ := he
  have active : (s.wave w).exec &&& guardBits f.g.ga (readP s w 0 f.g.ga.p) &&& guardBits f.g.gb (readP s w 1 f.g.gb.p) = activeMask s w f.g := rfl
  have portless : (f.pe.isSome || !(isPort f.d || f.srcs.any isPort)) = true := by
    rw [List.any_cons] at ports
    rcases ports with h | h <;> simp [h]
  have ends (out : LaneOut) : (do
      demand (isV f.d || po.lost.isNone) 0x10#6 (BitVec.ofNat 64 (po.lost.getD 0))
      putLanes s w po.m f.d { out with md := po.poisons out.md }) = f.puts s w po out := by
    unfold LaneForm.puts PopOut.poisons
    rw [← PopOut.lost]
    cases po.lost with
    | none => simp [demand]
    | some a => cases f.d <;> rfl
  unfold laneWise
  simp only [checks, eff_ok_bind, active, demand_of hx, demand_of portless, mask_nonzero hm, Bool.false_eq_true, if_false, hpop,
    mask_nonzero served]
  exact congrArg _ (funext ends)

section body
variable {i : Instr} {f : LaneForm} {s : State} {w : Nat} {po : PopOut} (hf : form i = some f) (he : f.enters s w po)
  (hx : f.extra s w = true → laneExtra i f s w = true)
include hf he hx

theorem exec_entered : ∃ act : Nat → Eff State, exec i s = issue s act ∧
    act w = laneBody i w (f.popped s w po) po.m (f.sources s w po) >>= f.puts s w po :=
  ⟨_, exec_form hf s, laneWise_entered he (hx he.2.1.2.1)⟩

/-- What the body gives, the destination takes. -/
theorem comesTo_of_body {o : LaneOut} (h : laneBody i w (f.popped s w po) po.m (f.sources s w po) = .ok o) : comesTo i s w (f.puts s w po o) := by
  obtain ⟨_, run, act⟩ := exec_entered hf he hx
  rw [h, eff_ok_bind] at act
  exact ⟨fun r hr => run.trans (issue_completes he.1 (act.trans hr)), fun t ht => run.trans (issue_traps he.1 (act.trans ht))⟩

/-- A trap of the body is the instruction's. -/
theorem traps_of_body {t : TrapReq} (h : laneBody i w (f.popped s w po) po.m (f.sources s w po) = .error (.trap t)) :
    exec i s = .next (s.trapped w t) := by
  obtain ⟨_, run, act⟩ := exec_entered hf he hx
  rw [h] at act
  exact run.trans (issue_traps he.1 act)

end body

/-! Only the active lanes count -/

theorem blend_congr (m : Mask) {new new' : List Lane} (h : new.length = new'.length) (i : Nat) (old : List Lane)
    (active : ∀ l, m.getLsbD (i + l) = true → new[l]? = new'[l]?) : blend m i old new = blend m i old new' := by
  induction old generalizing i new new' with
  | nil => rfl
  | cons o os ih =>
    cases new with
    | nil => cases new' with
      | nil => rfl
      | cons b bs => cases h
    | cons a as => cases new' with
      | nil => cases h
      | cons b bs =>
        have rest := ih (i := i + 1) (Nat.succ.inj h) fun l hl => active (l + 1) (by rwa [Nat.add_comm l 1, ← Nat.add_assoc])
        have head : (if m.getLsbD i then a else o) = if m.getLsbD i then b else o := by
          split
          next on => exact Option.some.inj (active 0 on)
          · rfl
        simp only [blend, rest, head]

/-- Values agree on the active lanes of a wave. -/
def Agree (n : Nat) (m : Mask) (f g : Nat → Lane) : Prop := ∀ l, l < n → m.getLsbD l = true → f l = g l

theorem mem_lanesOf {n l : Nat} {m : Mask} : l ∈ lanesOf n m ↔ l < n ∧ m.getLsbD l = true := by
  simp [lanesOf]

theorem pushed_active {v : State} {w ri n : Nat} {ring : Ring} {m : Mask} {f g : Nat → Lane} (h : Agree n m f g) :
    pushed v w ri ring (lanesOf n m) f = pushed v w ri ring (lanesOf n m) g := by
  have bytes : blocks (fun k => ring.place (ring.head + ring.occ.length + k)) 4 (fun l => (f l).toNat) (lanesOf n m).zipIdx =
      blocks (fun k => ring.place (ring.head + ring.occ.length + k)) 4 (fun l => (g l).toNat) (lanesOf n m).zipIdx :=
    List.flatMap_congr fun q hq => by
      obtain ⟨lt, on⟩ := mem_lanesOf.1 (List.fst_mem_of_mem_zipIdx hq)
      dsimp only
      rw [h _ lt on]
  unfold pushed
  rw [bytes]

theorem pushPort_active {s u : State} {w : Nat} {n : BitVec 4} {m : Mask} {f g : Nat → Lane} (h : Agree (u.wave w).id.width m f g) :
    pushPort s u w n.toNat m f = pushPort s u w n.toNat m g := by
  cases hp : (u.wave w).port n.toNat with
  | none => rw [pushPort, pushPort, hp]
  | some q =>
    obtain ⟨ri, push⟩ := q
    rw [pushPort_eq hp, pushPort_eq hp]
    dsimp only
    rw [pushed_active h]

/-- A destination takes no other lane. -/
theorem putLanes_active {s u : State} {w : Nat} {m : Mask} {f g : Nat → Lane} (h : Agree (u.wave w).id.width m f g) (d : Opnd) (md : BitVec 32)
    (ps : List (BitVec 3 × Mask)) : putLanes s w m d { s := u, vals := f, md := md, preds := ps } = putLanes s w m d { s := u, vals := g, md := md, preds := ps } := by
  cases d with
  | v n =>
    have same : blend m 0 ((u.wave w).vreg n.toNat).lanes ((List.range (u.wave w).id.width).map f) =
        blend m 0 ((u.wave w).vreg n.toNat).lanes ((List.range (u.wave w).id.width).map g) :=
      blend_congr m (by simp) 0 _ fun l on => by
        rw [Nat.zero_add] at on
        by_cases lt : l < (u.wave w).id.width
        · simp [lt, h l lt on]
        · simp [lt]
    have written : u.modWave w (fun x => x.setV n.toNat m ((List.range x.id.width).map f) md) =
        u.modWave w fun x => x.setV n.toNat m ((List.range x.id.width).map g) md :=
      congrArg (fun b => u.modWave w fun x => { x with v := x.v.set n.toNat { lanes := b, md := md } }) same
    unfold putLanes
    simp only [Option.getD_none, written]
  | q n =>
    unfold putLanes
    simp only [pushPort_active h]
  | _ => rfl

theorem puts_active {f : LaneForm} {s u : State} {w : Nat} {po : PopOut} {vals vals' : Nat → Lane} (h : Agree (u.wave w).id.width po.m vals vals')
    (md : BitVec 32) (ps : List (BitVec 3 × Mask)) : f.puts s w po { s := u, vals := vals, md := md, preds := ps } =
      f.puts s w po { s := u, vals := vals', md := md, preds := ps } := by
  unfold LaneForm.puts
  simp only [putLanes_active h]


/-! Lanes with and without flags -/

section lanes
variable {f : LaneForm} {s u : State} {w : Nat} {po : PopOut}

theorem tabulated {α : Type} {n l : Nat} (lt : l < n) (g : Nat → α) (d : α) : ((List.range n).map g).getD l d = g l := by
  simp [List.getD, lt]

/-- A destination takes plain lanes as they are computed. -/
theorem puts_plain (md : BitVec 32) (g : Nat → Lane) (ps : List (BitVec 3 × Mask)) :
    f.puts s w po { plainLanes u w po.m md g with preds := ps } = f.puts s w po { s := u, vals := g, md := md, preds := ps } :=
  puts_active (fun _ lt on => (tabulated lt ..).trans (if_pos on)) md ps

theorem allFlags_congr {n : Nat} {m : Mask} {fl fl' : Nat → Flags} (h : ∀ l, l < n → m.getLsbD l = true → fl l = fl' l) :
    allFlags n m fl = allFlags n m fl' := by
  unfold allFlags
  refine List.foldl_ext _ _ _ fun _ l hl => ?_
  obtain ⟨lt, on⟩ := mem_lanesOf.1 hl
  rw [h l lt on]

theorem maskNat_congr {n : Nat} {f g : Nat → Bool} (h : ∀ l, l < n → f l = g l) : maskNat f n = maskNat g n := by
  induction n with
  | zero => rfl
  | succ n ih => rw [maskNat, maskNat, ih fun l lt => h l (lt.trans (Nat.lt_succ_self n)), h n (Nat.lt_succ_self n)]

theorem maskOf_congr {n : Nat} {f g : Nat → Bool} (h : ∀ l, l < n → f l = g l) : maskOf n f = maskOf n g :=
  congrArg (BitVec.ofNat 1024) (maskNat_congr h)

theorem flagged_congr {m : Mask} {fl fl' : Nat → Flags} (h : ∀ l, l < (u.wave w).id.width → m.getLsbD l = true → fl l = fl' l) :
    flagged u w m fl = flagged u w m fl' :=
  congrArg (fun all => u.setWave w ((u.wave w).raiseFlags all)) (allFlags_congr h)

/-- Raising no flag changes nothing. -/
theorem flagged_zero {m : Mask} {fl : Nat → Flags} (h : allFlags (u.wave w).id.width m fl = 0) : flagged u w m fl = u := by
  have same : (u.wave w).raiseFlags (allFlags (u.wave w).id.width m fl) = u.wave w := by
    rw [h, Wave.raiseFlags, show (u.wave w).fflags ||| 0 = (u.wave w).fflags from BitVec.or_zero]
  exact (congrArg (u.setWave w) same).trans (setWave_wave u w)

/-- The flags of the lanes enter FFLAGS, unless one is enabled to trap. -/
theorem settleFlags_eq (m : Mask) (fl : Nat → Flags) : settleFlags u w m fl =
    if allFlags (u.wave w).id.width m fl &&& trapEnables (u.wave w).amr = 0 then .ok (flagged u w m fl)
    else .error (.trap { code := 0x0B#6, addr := (allFlags (u.wave w).id.width m fl).zeroExtend 64,
                         lanes := some (maskOf (u.wave w).id.width fun l => m.getLsbD l && fl l &&& trapEnables (u.wave w).amr != 0) }) := by
  unfold settleFlags
  dsimp only
  rw [← allFlags]
  simp only [beq_iff_eq]
  split
  · split
    next h => rw [flagged_zero h]
    · rfl
  · rfl

/-- Each lane once computed is the lane. -/
theorem settled_table {α : Type} {m : Mask} {n l : Nat} {g : Nat → α} {z : α} (lt : l < n) (on : m.getLsbD l = true) :
    ((List.range n).map fun l => if m.getLsbD l then g l else z).getD l z = g l :=
  (tabulated lt ..).trans (if_pos on)

theorem settleFlags_active {m : Mask} {fl fl' : Nat → Flags} (h : ∀ l, l < (u.wave w).id.width → m.getLsbD l = true → fl l = fl' l) :
    settleFlags u w m fl = settleFlags u w m fl' := by
  have lanes : (maskOf (u.wave w).id.width fun l => m.getLsbD l && fl l &&& trapEnables (u.wave w).amr != 0) =
      maskOf (u.wave w).id.width fun l => m.getLsbD l && fl' l &&& trapEnables (u.wave w).amr != 0 :=
    maskOf_congr fun l lt => by
      cases on : m.getLsbD l with
      | false => rfl
      | true => rw [h l lt on]
  rw [settleFlags_eq, settleFlags_eq, allFlags_congr h, flagged_congr h, lanes]

/-- Lanes with flags: the flags of the active lanes settle, and their values stay. -/
theorem flagLanes_eq (m : Mask) (md : BitVec 32) (g : Nat → Lane × Flags) : ∃ vals, Agree (u.wave w).id.width m vals (fun l => (g l).1) ∧
    flagLanes u w m md g = settleFlags u w m (fun l => (g l).2) >>= fun v => .ok { s := v, vals := vals, md := md } := by
  refine ⟨fun l => (((List.range (u.wave w).id.width).map fun l => if m.getLsbD l then g l else (0, 0)).getD l (0, 0)).1,
    fun _ lt on => congrArg Prod.fst (settled_table lt on), ?_⟩
  have flags := settleFlags_active (u := u) (w := w) (m := m)
    (fl := fun l => (((List.range (u.wave w).id.width).map fun l => if m.getLsbD l then g l else (0, 0)).getD l (0, 0)).2) (fl' := fun l => (g l).2)
    fun _ lt on => congrArg Prod.snd (settled_table lt on)
  rw [← flags]
  rfl

theorem flagged_width (m : Mask) (fl : Nat → Flags) : ((flagged u w m fl).wave w).id.width = (u.wave w).id.width :=
  congrArg WaveId.width (wave_modWave_keeps (fun x => x.id) u w w rfl)

end lanes

section comes
variable {i : Instr} {f : LaneForm} {s u : State} {w : Nat} {po : PopOut} (hf : form i = some f) (he : f.enters s w po)
  (hx : f.extra s w = true → laneExtra i f s w = true)
include hf he hx

/-- A body of plain lanes. -/
theorem comesTo_of_plain {md : BitVec 32} {g : Nat → Lane} {ps : List (BitVec 3 × Mask)}
    (hb : laneBody i w (f.popped s w po) po.m (f.sources s w po) = .ok { plainLanes u w po.m md g with preds := ps }) :
    comesTo i s w (f.puts s w po { s := u, vals := g, md := md, preds := ps }) := by
  rw [← puts_plain]
  exact comesTo_of_body hf he hx hb

section flags
variable {md : BitVec 32} {g : Nat → Lane × Flags}
  (hb : laneBody i w (f.popped s w po) po.m (f.sources s w po) = flagLanes u w po.m md g)
include hb

/-- A body of lanes with flags, none of them enabled to trap. -/
theorem comesTo_of_flagLanes (quiet : allFlags (u.wave w).id.width po.m (fun l => (g l).2) &&& trapEnables (u.wave w).amr = 0) :
    comesTo i s w (f.puts s w po { s := flagged u w po.m fun l => (g l).2, vals := fun l => (g l).1, md := md }) := by
  obtain ⟨vals, agree, lanes⟩ := flagLanes_eq (u := u) (w := w) po.m md g
  rw [settleFlags_eq, if_pos quiet, eff_ok_bind] at lanes
  rw [← puts_active (vals := vals) (by rwa [flagged_width])]
  exact comesTo_of_body hf he hx (hb.trans lanes)

/-- The same with one enabled. -/
theorem traps_of_flagLanes (loud : allFlags (u.wave w).id.width po.m (fun l => (g l).2) &&& trapEnables (u.wave w).amr ≠ 0) :
    exec i s = .next (s.trapped w
      { code := 0x0B#6, addr := (allFlags (u.wave w).id.width po.m fun l => (g l).2).zeroExtend 64,
        lanes := some (maskOf (u.wave w).id.width fun l => po.m.getLsbD l && (g l).2 &&& trapEnables (u.wave w).amr != 0) }) := by
  obtain ⟨vals, -, lanes⟩ := flagLanes_eq (u := u) (w := w) po.m md g
  rw [settleFlags_eq, if_neg loud] at lanes
  exact traps_of_body hf he hx (hb.trans lanes)

end flags
end comes

end Sys2Proof.Proofs
end

section
/-! PROOF. dot over no lane where only C is a V source (spec/03 R110, R112, R119). -/

open Sys2Proof Sys2Proof.Machine Sys2Proof.Claims

namespace Sys2Proof.Proofs

/-- One wave of 32 lanes with 16 V registers. -/
def plainState : State := State.reset.withFetchWord 64 0

/-- `dot V3, S1, S2, V1` under a guard that no lane meets. -/
def dotOfScalars : Instr := .dot { ga := { neg := true, p := 7 }, gb := { neg := false, p := 7 } } false (.v 3) (.s 1) (.s 2) (.v 1) 0

/-- Its form. -/
def dotForm : LaneForm := form3 { ga := { neg := true, p := 7 }, gb := { neg := false, p := 7 } } (.v 3) (.s 1) (.s 2) (.v 1) 0

theorem dotOfScalars_form : form dotOfScalars = some dotForm := rfl

/-- The decode checks of the form pass: C is a V source. -/
theorem dotOfScalars_decodes : dotForm.decodes plainState 0 := by decide +kernel

theorem dotOfScalars_no_lane : activeMask plainState 0 dotForm.g = 0 := by decide +kernel

theorem plainState_running : plainState.running = some 0 := by decide +kernel

/-- The instruction itself asks for a V source among A and B, and raises 0x02. -/
theorem dotOfScalars_traps : exec dotOfScalars plainState = .next (plainState.trapped 0 { code := 0x02#6 }) :=
  (exec_form dotOfScalars_form plainState).trans (issue_traps plainState_running (by decide +kernel))

/-- A trap leaves the path where it stands, and a completed instruction moves it. -/
theorem plainState_positions : ((plainState.trapped 0 { code := 0x02#6 }).wave 0).pos ≠ ((completed plainState 0 plainState).wave 0).pos := by
  decide +kernel

/-- Refutes O56: dot with S registers as A and B and a V register as C passes the checks of its form, but with no lane active it raises 0x02
instead of completing. -/
theorem not_vectorMasksAndChecks : ¬ Obligations.VectorMasksAndChecks := by
  intro h
  obtain ⟨completes, -⟩ := h.1 plainState 0 dotOfScalars dotForm dotOfScalars_form plainState_running dotOfScalars_decodes dotOfScalars_no_lane
  rw [dotOfScalars_traps, Host.Outcome.next.injEq] at completes
  exact plainState_positions (congrArg (fun t => (t.wave 0).pos) completes)

end Sys2Proof.Proofs
end

section
/-! PROOF. The checks of sources pass where the sources are clean and share an accepted tag, and one modulus (spec/03 R95, R110, R111,
R115). -/

open Sys2Proof Sys2Proof.Machine Sys2Proof.Claims

namespace Sys2Proof.Proofs

section checks
variable {s : State} {w mi p : Nat} {m : Mask} {rs : List Src} {t : Tag} {ok : Tag → Bool}

theorem srcsClean_ok (h : clean rs) : srcsClean m rs = .ok () := by
  unfold srcsClean
  split
  next r hr =>
    have poisoned := List.find?_some hr
    have fine := h r (List.mem_of_find?_eq_some hr)
    cases hm : r.md <;> simp [hm] at poisoned fine
    exact absurd poisoned (by simp [fine])
  · rfl

theorem clean_take (n : Nat) (h : clean rs) : clean (rs.take n) := fun r hr => h r (List.mem_of_mem_take hr)

/-- The first V source carries the tag. -/
theorem firstV_tagged (h : tagged rs t) : ∃ md o, firstV rs = some (md, o) ∧ mdTag md = t ∧ ∃ r ∈ rs, r.md = some md := by
  obtain ⟨⟨r, hr, hs⟩, all⟩ := h
  cases hf : firstV rs with
  | none =>
    have := List.findSome?_eq_none_iff.1 hf r hr
    cases hm : r.md <;> simp [hm] at hs this
  | some q =>
    obtain ⟨md, o⟩ := q
    obtain ⟨x, hx, hq⟩ := List.exists_of_findSome?_eq_some hf
    cases hm : x.md with
    | none => simp [hm] at hq
    | some k =>
      obtain ⟨rfl, -⟩ : k = md ∧ x.o = o := by simpa [hm] using hq
      have := all x hx
      exact ⟨k, o, rfl, by simpa [hm] using this, x, hx, hm⟩

theorem srcsTagged_ok (h : tagged rs t) (hok : ok t = true) : srcsTagged rs ok = .ok t := by
  obtain ⟨md, o, first, rfl, -⟩ := firstV_tagged h
  unfold srcsTagged
  rw [first]
  dsimp only
  split
  next r hr =>
    have differs := List.find?_some hr
    have same := h.2 r (List.mem_of_find?_eq_some hr)
    cases hm : r.md <;> simp [hm] at differs same
    exact absurd same differs
  · rw [demand_of hok, eff_ok_bind, eff_pure]

theorem modulusOf_ok (hv : ∃ r ∈ rs, r.md.isSome) (h : ∀ r ∈ rs, (r.md.all fun md => mdMidx md == mi) = true) (hp : s.prime w mi = some p) :
    modulusOf s w m rs = .ok (mi, p) := by
  have all : ∀ i ∈ (rs.filterMap fun r => r.md.map mdMidx), i = mi := fun i hi => by
    obtain ⟨r, hr, hm⟩ := List.mem_filterMap.1 hi
    have := h r hr
    cases hd : r.md <;> simp_all
  have head : (rs.filterMap fun r => r.md.map mdMidx).headD 0 = mi := by
    obtain ⟨r, hr, hs⟩ := hv
    obtain ⟨md, hm⟩ := Option.isSome_iff_exists.1 hs
    have mem : mdMidx md ∈ rs.filterMap fun r => r.md.map mdMidx := List.mem_filterMap.2 ⟨r, hr, by rw [hm]; rfl⟩
    cases hl : (rs.filterMap fun r => r.md.map mdMidx) with
    | nil => rw [hl] at mem; cases mem
    | cons a as => exact all a (by rw [hl]; exact List.mem_cons_self ..)
  have same : (rs.filterMap fun r => r.md.map mdMidx).find? (· != mi) = none :=
    List.find?_eq_none.2 fun i hi => by simp [all i hi]
  unfold modulusOf
  dsimp only
  rw [head, same]
  dsimp only
  rw [hp]
  rfl

/-- All checks of an arithmetic instruction. -/
theorem arithOf_ok (hc : clean rs) (ht : tagged rs t) (hok : ok t = true) (hm : modulus s w rs t mi p) :
    arithOf s w m rs ok = .ok (arith s w t mi p) := by
  unfold arithOf
  rw [srcsClean_ok hc, eff_ok_bind, srcsTagged_ok ht hok, eff_ok_bind]
  unfold modulus at hm
  by_cases h : t = .modq
  · rw [if_pos h] at hm
    rw [if_pos (beq_iff_eq.2 h), modulusOf_ok ht.1 hm.1 hm.2]
    rfl
  · rw [if_neg h] at hm
    obtain ⟨rfl, rfl⟩ := hm
    rw [if_neg (by simpa using h)]
    rfl

end checks

end Sys2Proof.Proofs
end

section
/-! PROOF. The bit instructions of class 3: their values and their metadata (spec/03 R89, R93, R111, R122). -/

open Sys2Proof Sys2Proof.Machine Sys2Proof.Claims

namespace Sys2Proof.Proofs

/-! Values -/

theorem shiftCount_eq (y : Lane) : shiftCount y = y.toNat % 256 := by simp [shiftCount, BitVec.extractLsb'_toNat]

theorem laneShl_eq (x : Lane) (n : Nat) : x <<< n = if 32 ≤ n then 0 else BitVec.ofNat 32 (x.toNat * 2 ^ n) := by
  split
  · exact BitVec.shiftLeft_eq_zero ‹_›
  · exact BitVec.eq_of_toNat_eq (by simp [Nat.shiftLeft_eq])

theorem laneShr_eq (x : Lane) (n : Nat) : x >>> n = if 32 ≤ n then 0 else BitVec.ofNat 32 (x.toNat / 2 ^ n) := by
  split
  · exact BitVec.ushiftRight_eq_zero ‹_›
  · refine BitVec.eq_of_toNat_eq ?_
    rw [BitVec.toNat_ushiftRight, Nat.shiftRight_eq_div_pow, BitVec.toNat_ofNat, Nat.mod_eq_of_lt]
    exact (Nat.div_le_self ..).trans_lt x.isLt

theorem laneSar_eq (x : Lane) (n : Nat) : x.sshiftRight n =
    if 32 ≤ n then (if x.msb then BitVec.allOnes 32 else 0) else BitVec.ofInt 32 (x.toInt / 2 ^ n) := by
  split
  next h =>
    ext i hi
    rw [BitVec.getElem_sshiftRight, dif_neg (by omega)]
    cases x.msb <;> simp [-BitVec.reduceAllOnes]
  · rw [← BitVec.ofInt_toInt (x := x.sshiftRight n), BitVec.toInt_sshiftRight, Int.shiftRight_eq_div_pow]
    rfl

theorem bfeLane_eq (g : Bool) (x y z : Lane) : bfeLane g x y z = laneField g x (y.toNat % 64) (z.toNat % 64) := by
  have hmod : ∀ k n, BitVec.ofNat k (n % 2 ^ k) = BitVec.ofNat k n := fun k n => BitVec.eq_of_toNat_eq (by simp)
  simp only [bfeLane, extractField, laneField, Nat.shiftRight_eq_div_pow, signedOf_eq, hmod]
  split
  · rfl
  · cases g with
    | true => rfl
    | false =>
      rw [if_neg Bool.false_ne_true, if_neg Bool.false_ne_true, BitVec.ofInt_natCast]
      exact BitVec.eq_of_toNat_eq (by simp)

/-- Clearing the bits of a mask. -/
theorem sub_and_eq (a h : Lane) : a - (a &&& h) = a &&& ~~~ h := by
  have parts : (a &&& ~~~ h) + (a &&& h) = a := by
    rw [BitVec.add_eq_or_of_and_eq_zero]
    · ext i hi
      simp only [BitVec.getElem_or, BitVec.getElem_and, BitVec.getElem_not]
      cases a[i] <;> cases h[i] <;> rfl
    · ext i hi
      simp only [BitVec.getElem_and, BitVec.getElem_not, BitVec.getElem_zero]
      cases a[i] <;> cases h[i] <;> rfl
  rw [BitVec.sub_eq_iff_eq_add, parts]

/-- `n` ones from place `p` on. -/
def fieldHole (p n : Nat) : Lane := BitVec.ofNat 32 ((2 ^ n - 1) * 2 ^ p)

theorem getLsbD_hole (p n i : Nat) : (fieldHole p n).getLsbD i = (decide (i < 32) && decide (p ≤ i) && decide (i - p < n)) := by
  rw [fieldHole, BitVec.getLsbD_ofNat, Nat.testBit_mul_two_pow, Nat.testBit_two_pow_sub_one, Bool.and_assoc]

/-- Ones beyond bit 31 do not count. -/
theorem fieldHole_cut (p n : Nat) : fieldHole p n = fieldHole p (min n (32 - p)) := BitVec.eq_of_getLsbD_eq fun i hi => by
  rw [Bool.eq_iff_iff, getLsbD_hole, getLsbD_hole]
  simp only [Bool.and_eq_true, decide_eq_true_eq]
  omega

theorem fieldHole_toNat {p n : Nat} (h : n + p ≤ 32) : (fieldHole p n).toNat = (2 ^ n - 1) <<< p := by
  rw [fieldHole, BitVec.toNat_ofNat, Nat.shiftLeft_eq, Nat.mod_eq_of_lt]
  calc (2 ^ n - 1) * 2 ^ p < 2 ^ n * 2 ^ p := Nat.mul_lt_mul_of_pos_right (by have := Nat.two_pow_pos n; omega) (by positivity)
    _ ≤ 2 ^ 32 := by rw [← Nat.pow_add]; exact Nat.pow_le_pow_right two_pos h

theorem bfiLane_eq (o x y z : Lane) : bfiLane o x y z =
    (o &&& ~~~ fieldHole (y.toNat % 64) (z.toNat % 64)) ||| ((x <<< (y.toNat % 64)) &&& fieldHole (y.toNat % 64) (z.toNat % 64)) := by
  unfold bfiLane insertField
  generalize y.toNat % 64 = p
  generalize z.toNat % 64 = n
  split
  next past =>
    refine BitVec.eq_of_getLsbD_eq fun i hi => ?_
    have out : ¬ p ≤ i := by omega
    simp only [BitVec.getLsbD_or, BitVec.getLsbD_and, BitVec.getLsbD_not, getLsbD_hole, out, hi, BitVec.ofNat_toNat, BitVec.setWidth_eq,
      decide_true, decide_false, Bool.and_false, Bool.false_and, Bool.not_false, Bool.and_true, Bool.or_false]
  next within =>
    rw [fieldHole_cut p n]
    have fits : min n (32 - p) + p ≤ 32 := by omega
    generalize min n (32 - p) = k at fits
    have field : BitVec.ofNat 32 ((x.toNat % 2 ^ k) <<< p) = (x <<< p) &&& fieldHole p k := BitVec.eq_of_getLsbD_eq fun i hi => by
      rw [BitVec.getLsbD_and, getLsbD_hole, BitVec.getLsbD_ofNat, BitVec.getLsbD_shiftLeft, Nat.testBit_shiftLeft, Nat.testBit_mod_two_pow]
      by_cases below : p ≤ i
      · simp [hi, below, Nat.not_lt.2 below, BitVec.getLsbD, Bool.and_comm]
      · simp [hi, below]
    have cleared : BitVec.ofNat 32 (o.toNat - (o.toNat &&& (2 ^ k - 1) <<< p)) = o &&& ~~~ fieldHole p k := by
      rw [← sub_and_eq, ← fieldHole_toNat fits, ← BitVec.toNat_and, ← BitVec.toNat_sub_of_le, BitVec.ofNat_toNat, BitVec.setWidth_eq]
      rw [BitVec.le_def, BitVec.toNat_and]
      exact Nat.and_le_left
    dsimp only
    rw [BitVec.ofNat_add, cleared, field, BitVec.add_eq_or_of_and_eq_zero]
    ext i hi
    simp only [BitVec.getElem_and, BitVec.getElem_not, BitVec.getElem_zero]
    cases (fieldHole p k)[i] <;> simp

theorem reverseBits_lt (n x : Nat) : reverseBits n x < 2 ^ n := by
  induction n generalizing x with
  | zero => exact Nat.one_pos
  | succ n ih =>
    have := ih (x / 2)
    have bit : x % 2 * 2 ^ n ≤ 1 * 2 ^ n := Nat.mul_le_mul_right _ (by omega)
    rw [reverseBits, Nat.pow_succ]
    omega

theorem testBit_reverseBits {n i : Nat} (x : Nat) (h : i < n) : (reverseBits n x).testBit i = x.testBit (n - 1 - i) := by
  induction n generalizing x with
  | zero => cases h
  | succ n ih =>
    rw [reverseBits, Nat.mul_comm, Nat.testBit_two_pow_mul_add _ (reverseBits_lt ..)]
    split
    next lt =>
      rw [ih _ lt, Nat.testBit_div_two]
      congr 1
      omega
    next ge =>
      obtain rfl : i = n := by omega
      simp [Nat.testBit_zero]

theorem reverse_eq (x : Lane) : BitVec.ofNat 32 (reverseBits 32 x.toNat) = x.reverse := by
  refine BitVec.eq_of_getLsbD_eq fun i hi => ?_
  rw [BitVec.getLsbD_ofNat, BitVec.getLsbD_reverse, BitVec.getMsbD, testBit_reverseBits _ hi]
  simp [hi, BitVec.getLsbD]

/-! The instructions -/

section bits
variable {i : Instr} {f : LaneForm} {s : State} {w : Nat} {po : PopOut} {val : Nat → Lane} (hf : form i = some f) (he : f.enters s w po)
  (hx : f.extra s w = true → laneExtra i f s w = true) (hc : clean (f.sources s w po))
include hf he hx hc

/-- A bit instruction that keeps the tag of its first V source. -/
theorem bits_comesTo {g : Lane → Lane → Lane → Lane} (hb : laneBody i w = bitBody w g)
    (hv : ∀ l, val l = g ((src0 (f.sources s w po) 0).val l) ((src0 (f.sources s w po) 1).val l) ((src0 (f.sources s w po) 2).val l)) :
    comesTo i s w (f.puts s w po
      { s := f.popped s w po, vals := val, md := keptMd (f.popped s w po) w po.m (firstMd (f.sources s w po)) val }) := by
  obtain rfl := funext hv
  refine comesTo_of_plain hf he hx ?_
  rw [hb, bitBody, srcsClean_ok hc]
  rfl

/-- A count has tag u32. -/
theorem count_comesTo {g : Lane → Lane} (hb : laneBody i w = countBody w g) (hv : ∀ l, val l = g ((src0 (f.sources s w po) 0).val l)) :
    comesTo i s w (f.puts s w po { s := f.popped s w po, vals := val, md := tagMd .u32 }) := by
  obtain rfl := funext hv
  refine comesTo_of_plain hf he hx ?_
  rw [hb, countBody, srcsClean_ok hc]
  rfl

end bits

theorem bfi_comesTo {g : Guards} {d a b c : Opnd} {e : BitVec 4} {f : LaneForm} {s : State} {w : Nat} {po : PopOut} {val : Nat → Lane}
    (hf : form (.bfi g d a b c e) = some f) (he : f.enters s w po) (hc : clean (f.sources s w po))
    (hv : ∀ l, val l = bfiLane ((src0 (f.sources s w po) 3).val l) ((src0 (f.sources s w po) 0).val l) ((src0 (f.sources s w po) 1).val l)
      ((src0 (f.sources s w po) 2).val l)) :
    comesTo (.bfi g d a b c e) s w (f.puts s w po
      { s := f.popped s w po, vals := val, md := keptMd (f.popped s w po) w po.m (bfiMd (f.sources s w po)) val }) := by
  obtain rfl := funext hv
  refine comesTo_of_plain hf he id ?_
  rw [laneBody, bfiBody, srcsClean_ok hc]
  rfl

/-- The register that gives the tag of a bfi, and under modq the modulus index. -/
theorem bfiMd_eq (rs : List Src) : bfiMd rs = match (src0 rs 0).md with
    | some a => if mdTag ((src0 rs 3).md.getD 0xF#32) = .modq ∧ mdTag a = .modq then a else (src0 rs 3).md.getD 0xF#32
    | none => (src0 rs 3).md.getD 0xF#32 := by
  unfold bfiMd
  cases (src0 rs 0).md <;> simp

theorem mulhi_comesTo {g : Guards} {d a b : Opnd} {e : BitVec 4} {f : LaneForm} {s : State} {w : Nat} {po : PopOut} {t : Tag} {high : Lane → Lane → Lane}
    (hf : form (.mulhi g d a b e) = some f) (he : f.enters s w po) (hc : clean (f.sources s w po)) (ht : tagged (f.sources s w po) t)
    (hok : (t == .i32 || t == .u32) = true)
    (hv : ∀ x y : Lane, (if t == .i32 then BitVec.ofInt 32 (x.toInt * y.toInt / 2 ^ 32) else BitVec.ofNat 32 (x.toNat * y.toNat / 2 ^ 32)) = high x y) :
    comesTo (.mulhi g d a b e) s w (f.puts s w po
      { s := f.popped s w po, vals := fun l => high ((src0 (f.sources s w po) 0).val l) ((src0 (f.sources s w po) 1).val l), md := tagMd t }) := by
  refine comesTo_of_plain hf he id ?_
  rw [laneBody, mulhiBody, srcsClean_ok hc, eff_ok_bind, srcsTagged_ok ht hok, eff_ok_bind, eff_pure]
  simp only [hv]
  rfl

/-- Settles O8: each instruction is a bit body with its own function of the lane. -/
theorem vectorBitsComplete : Obligations.VectorBitsComplete := by
  intro s w i f po hf he s1 rs v hc
  refine ⟨fun val hv => ?_, ?_, ?_⟩
  · have value {x : Lane} {l : Nat} (hl : bitValue i (v 0 l) (v 1 l) (v 2 l) (v 3 l) = some x) : val l = x := Option.some.inj ((hv l).symm.trans hl)
    cases i with
    | and => exact bits_comesTo (g := fun x y _ => x &&& y) hf he id hc rfl fun l => value rfl
    | or => exact bits_comesTo (g := fun x y _ => x ||| y) hf he id hc rfl fun l => value rfl
    | xor => exact bits_comesTo (g := fun x y _ => x ^^^ y) hf he id hc rfl fun l => value rfl
    | not => exact bits_comesTo (g := fun x _ _ => ~~~ x) hf he id hc rfl fun l => value rfl
    | shl => exact bits_comesTo (g := fun x y _ => x <<< shiftCount y) hf he id hc rfl fun l => value (by rw [shiftCount_eq, laneShl_eq]; rfl)
    | shr => exact bits_comesTo (g := fun x y _ => x >>> shiftCount y) hf he id hc rfl fun l => value (by rw [shiftCount_eq, laneShr_eq]; rfl)
    | sar => exact bits_comesTo (g := fun x y _ => x.sshiftRight (shiftCount y)) hf he id hc rfl fun l => value (by rw [shiftCount_eq, laneSar_eq]; rfl)
    | rot => exact bits_comesTo (g := fun x y _ => x.rotateLeft (y.toNat % 32)) hf he id hc rfl fun l => value rfl
    | bfe _ sgn => exact bits_comesTo (g := bfeLane sgn) hf he id hc rfl fun l => value (by rw [bfeLane_eq]; rfl)
    | brev => exact bits_comesTo (g := fun x _ _ => BitVec.ofNat 32 (reverseBits 32 x.toNat)) hf he id hc rfl fun l => value (by rw [reverse_eq]; rfl)
    | popc => exact count_comesTo (g := fun x => BitVec.ofNat 32 (popCount 32 x.toNat)) hf he id hc rfl fun l => value (by rw [popCount_eq]; rfl)
    | clz => exact count_comesTo (g := fun x => BitVec.ofNat 32 (leadingZeros 32 x.toNat)) hf he id hc rfl fun l => value (by rw [leadingZeros_eq]; rfl)
    | bfi =>
      have done := bfi_comesTo (val := val) hf he hc fun l => value (by rw [bfiLane_eq]; rfl)
      rw [bfiMd_eq] at done
      exact done
    | _ => cases hv 0
  · rintro g d a b e rfl ht
    exact mulhi_comesTo (high := fun x y => BitVec.ofInt 32 (x.toInt * y.toInt / 2 ^ 32)) hf he hc ht rfl fun _ _ => if_pos rfl
  · rintro g d a b e rfl ht
    exact mulhi_comesTo (high := fun x y => BitVec.ofNat 32 (x.toNat * y.toNat / 2 ^ 32)) hf he hc ht rfl fun _ _ => if_neg (by decide)

end Sys2Proof.Proofs
end

section
/-! PROOF. tagget, metard and metawr (spec/03 R92, R122, R123). -/

open Sys2Proof Sys2Proof.Machine Sys2Proof.Claims

namespace Sys2Proof.Proofs

theorem mdLen_eq (md : BitVec 32) : mdLen md = md.toNat / 16 % 2 ^ 11 := by
  rw [mdLen, BitVec.extractLsb'_toNat, Nat.shiftRight_eq_div_pow]

/-- Bits 31:23 are zero. -/
theorem metaHigh_eq (md : BitVec 32) : md.extractLsb' 23 9 = 0#9 ↔ md.toNat < 2 ^ 23 := by
  have lt := md.isLt
  rw [← BitVec.toNat_inj, BitVec.extractLsb'_toNat, Nat.shiftRight_eq_div_pow, BitVec.toNat_ofNat]
  omega

/-- A write of no lane. -/
theorem blend_zero (i : Nat) (old new : List Lane) : blend 0 i old new = old := by
  induction old generalizing i new with
  | nil => cases new <;> rfl
  | cons o os ih =>
    cases new with
    | nil => rw [blend, ih]
    | cons n ns => rw [blend, ih, if_neg (by simp)]

/-- Settles O13: the reads give the metadata word; the write checks it and leaves the lanes. -/
theorem metadataAccessCompletes : Obligations.MetadataAccessCompletes := by
  intro s w n a x hw md
  refine ⟨fun hc => ⟨?_, ?_⟩, ?_⟩
  · exact issue_completes hw (by rw [hc]; rfl)
  · exact issue_completes hw (by rw [hc]; rfl)
  · intro hc hx m
    split
    next h =>
      have fine : (m.extractLsb' 23 9 == 0#9 && decide (mdLen m ≤ (s.wave w).id.width)) = true := by
        rw [Bool.and_eq_true, beq_iff_eq, decide_eq_true_eq, metaHigh_eq, mdLen_eq]
        exact h
      refine issue_completes hw ?_
      simp only [hc, hx, eff_ok_bind]
      rw [demand_of fine, eff_ok_bind]
      simp only [Wave.setV, blend_zero, eff_pure]
      rfl
    next h =>
      have bad : (m.extractLsb' 23 9 == 0#9 && decide (mdLen m ≤ (s.wave w).id.width)) = false := by
        rw [← Bool.not_eq_true, Bool.and_eq_true, beq_iff_eq, decide_eq_true_eq, metaHigh_eq, mdLen_eq]
        exact h
      refine issue_traps hw ?_
      simp only [hc, hx, eff_ok_bind]
      exact demand_stops bad ..

end Sys2Proof.Proofs
end

section
/-! PROOF. Moves, tags, packing, conversions and draws (spec/03 R95, R122 to R130, R134). -/

open Sys2Proof Sys2Proof.Machine Sys2Proof.Claims

namespace Sys2Proof.Proofs

/-- The metadata word that tagset writes. -/
theorem tagsetBody_eq (w : Nat) (t : Tag) (s : State) (m : Mask) (rs : List Src) : tagsetBody w t s m rs =
    .ok (plainLanes s w m (mkMd t (if t = .limb then (s.wave w).id.width else 0) false (mdPoison (firstMd rs))
      (if t = .modq then (src0 rs 1).word.toInt.toNat else 0)) fun l => (src0 rs 0).val l) := by
  cases t <;> rfl

section moves
variable {s : State} {w : Nat} {f : LaneForm} {po : PopOut} {rs : List Src} (hs : f.sources s w po = rs) (he : f.enters s w po)
include hs he

theorem pack_comesTo {g : Guards} {d a : Opnd} {j : BitVec 4} (hf : form (.pack g d a j) = some f) (hc : clean rs)
    (src : ∀ md, (src0 rs 0).md = some md → mdTag md = .i32 ∨ mdTag md = .u32 ∨ mdTag md = .raw)
    (many : 1 < tagElems (mdTag ((src0 rs 1).md.getD 0xF#32))) (there : j.toNat < tagElems (mdTag ((src0 rs 1).md.getD 0xF#32))) :
    comesTo (.pack g d a j) s w (f.puts s w po
      { s := f.popped s w po, md := tagMd (mdTag ((src0 rs 1).md.getD 0xF#32)),
        vals := fun l => replaceElem (mdTag ((src0 rs 1).md.getD 0xF#32)) ((src0 rs 1).val l) j.toNat ((src0 rs 0).val l).toNat }) := by
  refine comesTo_of_plain hf he id ?_
  rw [hs, laneBody, packBody, srcsClean_ok hc, eff_ok_bind]
  dsimp only
  rw [demand_of (decide_eq_true many), demand_of (decide_eq_true there)]
  cases hm : (src0 rs 0).md with
  | none => rfl
  | some md =>
    have accepted : (mdTag md == .i32 || mdTag md == .u32 || mdTag md == .raw) = true := by
      simpa [or_assoc] using src md hm
    dsimp only
    rw [demand_of accepted]
    rfl

theorem unpk_comesTo {g : Guards} {d a : Opnd} {j : BitVec 4} (hf : form (.unpk g d a j) = some f) (hc : clean rs)
    (many : 1 < tagElems (mdTag (firstMd rs))) (there : j.toNat < tagElems (mdTag (firstMd rs))) :
    comesTo (.unpk g d a j) s w (f.puts s w po
      { s := f.popped s w po, md := tagMd (if (tagFmt (mdTag (firstMd rs))).isSome then .u32 else .i32),
        vals := fun l => if (tagFmt (mdTag (firstMd rs))).isSome then BitVec.ofNat 32 (elemOf (mdTag (firstMd rs)) ((src0 rs 0).val l) j.toNat)
          else BitVec.ofInt 32 (elemInt (mdTag (firstMd rs)) ((src0 rs 0).val l) j.toNat) }) := by
  refine comesTo_of_plain hf he id ?_
  rw [hs, laneBody, unpkBody, srcsClean_ok hc, eff_ok_bind]
  dsimp only
  rw [demand_of (decide_eq_true many), demand_of (decide_eq_true there)]
  rfl

end moves

/-- Settles O11: the bodies of the moves give their lanes directly, those of pack, unpk, cvt and rand after their checks. -/
theorem vectorMovesComplete : Obligations.VectorMovesComplete := by
  intro s w i f po hf he s1 x rs v put
  refine ⟨?_, ?_, ?_, ?_, ?_, ?_, ?_, ?_⟩
  · rintro g d a e (rfl | rfl)
    · exact comesTo_of_plain hf he id rfl
    · exact comesTo_of_plain hf he id rfl
  · rintro g t d a rfl
    exact comesTo_of_plain hf he id rfl
  · rintro g t d n rfl
    exact comesTo_of_plain hf he id rfl
  · rintro g t d a b e (rfl | rfl)
    · exact comesTo_of_plain hf he id (tagsetBody_eq ..)
    · exact comesTo_of_plain hf he id (tagsetBody_eq ..)
  · rintro g d a j rfl hc t src many there
    exact pack_comesTo rfl he hf hc src many there
  · rintro g d a j rfl hc t many there
    exact unpk_comesTo rfl he hf hc many there
  · rintro g t sr d a j rfl hc u stoch gen s2 out limb modq index quiet
    have keeps {β : Type} (p : Wave → β) (hp : p { x with convGen := gen } = p x) : p (s2.wave w) = p x := by
      unfold s2
      split
      · exact wave_modWave_keeps p (f := fun _ => { x with convGen := gen }) s1 w w hp
      · rfl
    have convertible : (u != .limb && u != .modq) = true := by simp [limb, modq]
    refine comesTo_of_flagLanes (u := s2) (g := out) hf he id ?_ ?_
    · rw [laneBody, cvtBody, srcsClean_ok hc, eff_ok_bind]
      dsimp only
      rw [demand_of convertible, demand_of index]
      rfl
    · rw [keeps (fun y => y.id) rfl, keeps (fun y => y.amr) rfl]
      exact quiet
  · intro g d hi spent c free
    subst hi
    refine comesTo_of_plain hf he id ?_
    rw [laneBody, randBody]
    dsimp only
    rw [demand_of (Bool.or_eq_true_iff.2 (free.imp_right beq_iff_eq.2))]
    rfl

end Sys2Proof.Proofs
end

section
/-! PROOF. Whole numbers in limb registers (spec/03 R117, R118, R120, spec/07 R254, R255, R257). -/

open Sys2Proof Sys2Proof.Machine Sys2Proof.Claims

namespace Sys2Proof.Proofs

/-- No V source is longer than the capacity. -/
def Short (cap : Nat) (rs : List Src) : Prop := ∀ r ∈ rs, ∀ md ∈ r.md, mdLen md ≤ cap

theorem limbSources_ok {s : State} {w : Nat} {rs : List Src} (h : Short (s.wave w).capacity rs) : limbSources s w rs = .ok () := by
  unfold limbSources
  dsimp only
  split
  next r hr =>
    have long := List.find?_some hr
    have fine := h r (List.mem_of_find?_eq_some hr)
    cases hm : r.md with
    | none => simp [hm] at long
    | some md =>
      have := fine md hm
      simp [hm] at long
      omega
  · rfl

/-- A whole number as a result. -/
def numberOut (s : State) (w : Nat) (v : Int) : LaneOut :=
  { s := s, vals := fun l => BitVec.ofNat 32 (v.natAbs / 2 ^ (32 * l)), md := mkMd .limb (limbCount v.natAbs) (decide (v < 0)) false 0,
    lanes := some (allLanes (s.wave w).capacity) }

theorem limbResult_fits {s : State} {w : Nat} {v : Int} (h : limbCount v.natAbs ≤ (s.wave w).capacity) :
    limbResult s w v = .ok (numberOut s w v) := by
  have limbs : limbAt v.natAbs = fun l => BitVec.ofNat 32 (v.natAbs / 2 ^ (32 * l)) :=
    funext fun l => by rw [limbAt, Nat.shiftRight_eq_div_pow]
  unfold limbResult
  dsimp only
  rw [demand_of (decide_eq_true h), limbs]
  rfl

theorem limbResult_long {s : State} {w : Nat} {v : Int} (h : (s.wave w).capacity < limbCount v.natAbs) :
    limbResult s w v = .error (.trap { code := 0x18#6, addr := BitVec.ofNat 64 (limbCount v.natAbs) }) :=
  demand_stops (decide_eq_false (Nat.not_le.2 h)) ..

section whole
variable {i : Instr} {f : LaneForm} {s : State} {w : Nat} {po : PopOut} {rs : List Src}

theorem arithOf_limb {u : State} {m : Mask} {ok : Tag → Bool} (hc : clean rs) (ht : tagged rs .limb) (hok : ok .limb = true) :
    arithOf u w m rs ok = .ok (arith u w .limb 0 1) := arithOf_ok hc ht hok ⟨rfl, rfl⟩

variable (hf : form i = some f) (he : f.enters s w po) (hx : f.extra s w = true → laneExtra i f s w = true)
include hf he hx

/-- A body that gives a whole number: written where it fits, else 0x18. -/
theorem number_comesTo {v : Int} (hb : laneBody i w (f.popped s w po) po.m (f.sources s w po) = limbResult (f.popped s w po) w v) :
    (limbCount v.natAbs ≤ ((f.popped s w po).wave w).capacity → comesTo i s w (f.puts s w po (numberOut (f.popped s w po) w v))) ∧
    (((f.popped s w po).wave w).capacity < limbCount v.natAbs →
      exec i s = .next (s.trapped w { code := 0x18#6, addr := BitVec.ofNat 64 (limbCount v.natAbs) })) :=
  ⟨fun h => comesTo_of_body hf he hx (hb.trans (limbResult_fits h)), fun h => traps_of_body hf he hx (hb.trans (limbResult_long h))⟩

end whole

section bodies
variable {u : State} {w : Nat} {m : Mask} {rs : List Src} (hc : clean rs) (ht : tagged rs .limb) (hs : Short (u.wave w).capacity rs)
include hc ht hs

theorem ariBody_limb (op : AriOp) (sat : Bool) : ariBody w op sat u m rs =
    limbResult u w (op.int ((src0 rs 0).whole (u.wave w).id.width) ((src0 rs 1).whole (u.wave w).id.width)) := by
  rw [ariBody, arithOf_limb hc ht rfl, eff_ok_bind]
  dsimp only
  rw [if_pos (by rfl), limbSources_ok hs]
  rfl

theorem pickBody_limb (larger : Bool) : pickBody w larger u m rs =
    limbResult u w (if larger then max ((src0 rs 0).whole (u.wave w).id.width) ((src0 rs 1).whole (u.wave w).id.width)
      else min ((src0 rs 0).whole (u.wave w).id.width) ((src0 rs 1).whole (u.wave w).id.width)) := by
  rw [pickBody, arithOf_limb hc ht rfl, eff_ok_bind]
  dsimp only
  rw [if_pos (by rfl), limbSources_ok hs]
  rfl

theorem signBody_limb (clear sat : Bool) : signBody w clear sat u m rs =
    limbResult u w (if clear then (((src0 rs 0).whole (u.wave w).id.width).natAbs : Int) else -(src0 rs 0).whole (u.wave w).id.width) := by
  rw [signBody, arithOf_limb hc ht (by cases clear <;> rfl), eff_ok_bind]
  dsimp only
  rw [if_pos (by rfl), limbSources_ok hs]
  rfl

theorem cmpBody_limb (cc : VCond) (q : BitVec 3) : cmpBody w cc (.p q) u m rs = .ok
    { s := u, vals := fun _ => 0, md := 0,
      preds := [(q, if condInt cc ((src0 rs 0).whole (u.wave w).id.width) ((src0 rs 1).whole (u.wave w).id.width) then m else 0)] } := by
  rw [cmpBody, arithOf_limb hc ht (by cases cc <;> rfl), eff_ok_bind]
  dsimp only
  rw [if_pos (by rfl), limbSources_ok hs]
  rfl

end bodies

/-- sel with a predicate that agrees on the active lanes. -/
theorem selBody_limb {u : State} {w : Nat} {m : Mask} {rs : List Src} {q : BitVec 3} (hc : clean rs) (ht : tagged (rs.take 2) .limb)
    (agree : readP u w 3 q &&& m = 0 ∨ readP u w 3 q &&& m = m) (hs : Short (u.wave w).capacity [src0 rs 0, src0 rs 1]) :
    let r := src0 rs (if readP u w 3 q &&& m = m then 0 else 1)
    selBody w (.p q) u m rs = match r.md with
      | some md => .ok { s := u, vals := r.val, md := md, lanes := some (allLanes (u.wave w).capacity) }
      | none => limbResult u w (r.whole (u.wave w).id.width) := by
  intro r
  have agrees : (readP u w 3 q &&& m != 0 && readP u w 3 q &&& m != m) = false := by
    rcases agree with h | h <;> simp [h]
  rw [selBody, srcsClean_ok hc, eff_ok_bind, arithOf_limb (clean_take 2 hc) ht rfl, eff_ok_bind]
  dsimp only
  rw [if_pos (by rfl), agrees, limbSources_ok hs]
  simp only [beq_iff_eq, Bool.false_eq_true, if_false, eff_ok_bind, ← apply_ite (src0 rs)]
  rfl

/-- Settles O10: each body gives the whole number of its operation, or takes one source whole. -/
theorem wholeNumberArithmeticCompletes : Obligations.WholeNumberArithmeticCompletes := by
  intro s w i f po hf he s1 rs x cap n short number
  refine ⟨fun hc ht hs v hv => ?_, ?_, ?_⟩
  · cases i with
    | add => subst hv; exact number_comesTo hf he id (ariBody_limb hc ht hs .add _)
    | sub => subst hv; exact number_comesTo hf he id (ariBody_limb hc ht hs .sub _)
    | mul => subst hv; exact number_comesTo hf he id (ariBody_limb hc ht hs .mul _)
    | min => subst hv; exact number_comesTo hf he id (pickBody_limb hc ht hs false)
    | max => subst hv; exact number_comesTo hf he id (pickBody_limb hc ht hs true)
    | neg => subst hv; exact number_comesTo hf he id (signBody_limb hc ht hs false _)
    | abs => subst hv; exact number_comesTo hf he id (signBody_limb hc ht hs true _)
    | _ => exact hv.elim
  · rintro g cc q a b e rfl hc ht hs
    exact comesTo_of_body hf he id (cmpBody_limb hc ht hs cc q)
  · rintro g d a b q e rfl hc ht bits j agree hs
    have body := selBody_limb hc ht agree hs
    refine ⟨fun md hm => ?_, fun hm fits => ?_⟩
    · exact comesTo_of_body hf he id (body.trans (by rw [show (src0 rs _).md = some md from hm]))
    · exact (number_comesTo hf he id (body.trans (by rw [show (src0 rs _).md = none from hm]))).1 fits

end Sys2Proof.Proofs
end

section
/-! PROOF. cmp, sel, dot and acs on lanes (spec/03 R114, R117 to R119, R121). -/

open Sys2Proof Sys2Proof.Machine Sys2Proof.Claims

namespace Sys2Proof.Proofs

/-! V sources -/

/-- Decode checks that pass accept each operand. -/
theorem accepts_of_checkOps {s : State} {w : Nat} {l : List (Opnd × Accept)} (h : checkOps s w l = .ok ()) {q : Opnd × Accept} (hq : q ∈ l) :
    s.accepts w q.2 q.1 = true := by
  unfold checkOps at h
  split at h
  · cases h
  split at h
  · cases h
  next hn => simpa using List.find?_eq_none.1 hn q hq

/-- A source with metadata is an operand that gives a V source. -/
theorem namesV_of_md {s t : State} {w site : Nat} {pops : List Popped} {o : Opnd} {os : List Opnd} (ho : o ∈ os)
    (ha : s.accepts w .src o = true) (hm : (srcOf t w pops site o).md.isSome = true) : namesV s w os = true := by
  refine List.any_eq_true.2 ⟨o, ho, ?_⟩
  cases o with
  | v n => rfl
  | q n =>
    simp only [State.accepts, Accept.src] at ha
    split at ha
    · simpa using ha
    · simp at ha
  | special n =>
    by_cases h : (n == 0#5) = true
    · exact h
    · simp [srcOf, h] at hm
  | _ => cases hm

/-! Comparisons -/

section cmp
variable {u : State} {w : Nat} {m : Mask} {rs : List Src} {t : Tag} {mi p : Nat} {cc : VCond}

/-- The conditions of the elements of a lane. -/
def cmpLane (k : Arith) (cc : VCond) (rs : List Src) (l : Nat) : List (Bool × Flags) :=
  cmpElems k cc ((src0 rs 0).lane k.env k.t k.p l).1 ((src0 rs 1).lane k.env k.t k.p l).1

/-- The flags of a compared lane. -/
def cmpFlags (k : Arith) (cc : VCond) (rs : List Src) (l : Nat) : Flags :=
  (cmpLane k cc rs l).foldl (fun acc e => acc ||| e.2) (((src0 rs 0).lane k.env k.t k.p l).2 ||| ((src0 rs 1).lane k.env k.t k.p l).2)

/-- A lane once compared. -/
def cmpTable (n : Nat) (m : Mask) (k : Arith) (cc : VCond) (rs : List Src) : List (List Bool × Flags) :=
  (List.range n).map fun l => if m.getLsbD l then ((cmpLane k cc rs l).map (·.1), cmpFlags k cc rs l) else ([], 0)

theorem cmpBody_eq (d : Opnd) (hc : clean rs) (ht : tagged rs t) (raw : t ≠ .raw) (limb : t ≠ .limb) (hm : modulus u w rs t mi p)
    (hq : t = .modq → cc = .eq ∨ cc = .ne)
    (quiet : allFlags (u.wave w).id.width m (cmpFlags (arith u w t mi p) cc rs) &&& trapEnables (u.wave w).amr = 0) :
    let k := arith u w t mi p
    let tab := cmpTable (u.wave w).id.width m k cc rs
    cmpBody w cc d u m rs = match d with
      | .p n => .ok { s := flagged u w m (cmpFlags k cc rs), vals := fun _ => 0, md := 0,
                      preds := [(n, maskOf (u.wave w).id.width fun l => m.getLsbD l && (tab.getD l ([], 0)).1.all id)] }
      | _ => .ok { s := flagged u w m (cmpFlags k cc rs), md := tagMd .raw,
                   vals := fun l => BitVec.ofNat 32 (packElems t ((tab.getD l ([], 0)).1.map fun b => if b then 2 ^ tagWidth t - 1 else 0)) } := by
  intro k tab
  have accepted : (t != .raw && !(t == .modq && cc != .eq && cc != .ne)) = true := by
    by_cases h : t = .modq
    · rcases hq h with rfl | rfl <;> simp [h]
    · simp [raw, h]
  have flags : settleFlags u w m (fun l => (tab.getD l ([], 0)).2) = .ok (flagged u w m (cmpFlags k cc rs)) := by
    rw [settleFlags_active (fl' := cmpFlags k cc rs) fun l lt on => congrArg Prod.snd (settled_table lt on), settleFlags_eq, if_pos quiet]
  unfold cmpBody
  rw [arithOf_ok hc ht accepted hm, eff_ok_bind]
  dsimp only
  rw [if_neg (show ¬ ((arith u w t mi p).t == Tag.limb) = true from (by simpa using limb : ¬ (t == Tag.limb) = true))]
  show (settleFlags u w m (fun l => (tab.getD l ([], 0)).2) >>= _) = _
  rw [flags, eff_ok_bind]
  cases d <;> rfl

variable (hc : clean rs) (ht : tagged rs t) (raw : t ≠ .raw) (limb : t ≠ .limb) (hm : modulus u w rs t mi p)
  (hq : t = .modq → cc = .eq ∨ cc = .ne)
  (quiet : allFlags (u.wave w).id.width m (cmpFlags (arith u w t mi p) cc rs) &&& trapEnables (u.wave w).amr = 0)
include hc ht raw limb hm hq quiet

/-- A predicate register takes whether every element meets the condition. -/
theorem cmpBody_p (n : BitVec 3) : cmpBody w cc (.p n) u m rs = .ok
    { s := flagged u w m (cmpFlags (arith u w t mi p) cc rs), vals := fun _ => 0, md := 0,
      preds := [(n, maskOf (u.wave w).id.width fun l => m.getLsbD l && (cmpLane (arith u w t mi p) cc rs l).all fun e => e.1)] } := by
  have lanes : (maskOf (u.wave w).id.width fun l => m.getLsbD l &&
        ((cmpTable (u.wave w).id.width m (arith u w t mi p) cc rs).getD l ([], 0)).1.all id) =
      maskOf (u.wave w).id.width fun l => m.getLsbD l && (cmpLane (arith u w t mi p) cc rs l).all fun e => e.1 :=
    maskOf_congr fun l lt => by
      cases on : m.getLsbD l with
      | false => rfl
      | true =>
        rw [cmpTable, settled_table lt on, List.all_map]
        rfl
  rw [← lanes]
  exact cmpBody_eq (.p n) hc ht raw limb hm hq quiet

/-- Another destination takes a raw mask of elements. -/
theorem cmpBody_mask {d : Opnd} (hd : ∀ n, d ≠ .p n) : ∃ vals,
    Agree (u.wave w).id.width m vals (fun l => BitVec.ofNat 32 (packElems t ((cmpLane (arith u w t mi p) cc rs l).map fun e => if e.1 then 2 ^ tagWidth t - 1 else 0))) ∧
    cmpBody w cc d u m rs = .ok { s := flagged u w m (cmpFlags (arith u w t mi p) cc rs), md := tagMd .raw, vals := vals } := by
  have body := cmpBody_eq d hc ht raw limb hm hq quiet
  refine ⟨fun l => BitVec.ofNat 32 (packElems t (((cmpTable (u.wave w).id.width m (arith u w t mi p) cc rs).getD l ([], 0)).1.map
    fun b => if b then 2 ^ tagWidth t - 1 else 0)), fun l lt on => ?_, ?_⟩
  · dsimp only
    rw [cmpTable, settled_table lt on, List.map_map]
    rfl
  · cases d with
    | p n => exact absurd rfl (hd n)
    | _ => exact body

end cmp

/-- dot names a V source among A and B where one of the two carries metadata. -/
theorem dot_names {s : State} {w : Nat} {po : PopOut} {g : Guards} {d a b c : Opnd} {e : BitVec 4}
    (he : (form3 g d a b c e).enters s w po) (hv : ∃ r ∈ ((form3 g d a b c e).sources s w po).take 2, r.md.isSome) : namesV s w [a, b] = true := by
  obtain ⟨-, ⟨checks, -, -⟩, -, -, -⟩ := he
  obtain ⟨r, hr, hm⟩ := hv
  rcases (List.mem_pair.1 hr : _ ∨ _) with rfl | rfl
  · exact namesV_of_md (.head _) (accepts_of_checkOps checks (.tail _ (.head _))) hm
  · exact namesV_of_md (.tail _ (.head _)) (accepts_of_checkOps checks (.tail _ (.tail _ (.head _)))) hm

section bodies
variable {u : State} {w : Nat} {m : Mask} {rs : List Src} {t : Tag} {mi p : Nat}

theorem selBody_eq (c : Opnd) (hc : clean rs) (ht : tagged (rs.take 2) t) (limb : t ≠ .limb) (hm : modulus u w (rs.take 2) t mi p) :
    let k := arith u w t mi p
    let v := fun (j l : Nat) => (src0 rs j).lane k.env t p l
    let taken := fun (l : Nat) => match c with
      | .p n => if (readP u w 3 n).getLsbD l then (v 0 l).1 else (v 1 l).1
      | _ => laneOf t fun j => if elemOf t ((src0 rs 2).val l) j != 0 then elemOf t (v 0 l).1 j else elemOf t (v 1 l).1 j
    selBody w c u m rs = flagLanes u w m (mkMd t 0 false false mi) fun l =>
      (if t = .modq then BitVec.ofNat 32 ((taken l).toNat % p) else taken l, (v 0 l).2 ||| (v 1 l).2) := by
  intro k v taken
  rw [selBody, srcsClean_ok hc, eff_ok_bind, arithOf_ok (clean_take 2 hc) ht rfl hm, eff_ok_bind]
  dsimp only
  rw [if_neg (show ¬ ((arith u w t mi p).t == Tag.limb) = true from (by simpa using limb : ¬ (t == .limb) = true))]
  simp only [beq_iff_eq]
  cases c <;> rfl

theorem dotBody_eq (sat : Bool) (hc : clean rs) (ht : tagged (rs.take 2) t) (ok : dotTag t = true) (hm : modulus u w (rs.take 2) t mi p)
    (addend : ∀ md, (src0 rs 2).md = some md → mdTag md = if (tagFmt t).isSome then .f32 else .i32) :
    let k := arith u w t mi p
    let v := fun (j l : Nat) => (src0 rs j).lane k.env t p l
    let out := fun (l : Nat) => dotLane k sat (v 0 l).1 (v 1 l).1 (src0 rs 2) l
    dotBody w sat u m rs = flagLanes u w m (tagMd (if (tagFmt t).isSome then .f32 else .i32)) fun l =>
      ((out l).1, (out l).2 ||| (v 0 l).2 ||| (v 1 l).2) := by
  intro k v out
  have checked : dotCheck t (src0 rs 2) = .ok () := by
    unfold dotCheck
    cases hd : (src0 rs 2).md with
    | none => rfl
    | some md => exact demand_of (beq_iff_eq.2 (addend md hd)) _ _ _
  rw [dotBody, srcsClean_ok hc, eff_ok_bind, arithOf_ok (clean_take 2 hc) ht ok hm, eff_ok_bind]
  dsimp only
  rw [show dotCheck (arith u w t mi p).t (src0 rs 2) = .ok () from checked, eff_ok_bind]
  rfl

theorem acsBody_eq (n : BitVec 4) (hc : clean rs) (ht : tagged rs .i16x2) :
    let e := fun (j l : Nat) => ((src0 rs j).lane (arith u w t mi p).env .i16x2 1 l).1
    let out := fun (l : Nat) => acsLane (e 0 l) (e 1 l) (e 2 l)
    let q := n.extractLsb' 0 3
    acsBody w n u m rs = .ok { plainLanes u w m (tagMd .i16x2) (fun l => (out l).1) with
      preds := [(q, maskOf (u.wave w).id.width fun l => m.getLsbD l && (out l).2.1),
        (q + 1, maskOf (u.wave w).id.width fun l => m.getLsbD l && (out l).2.2)] } := by
  intro e out q
  rw [acsBody, arithOf_ok (mi := 0) (p := 1) hc ht rfl ⟨rfl, rfl⟩, eff_ok_bind]
  rfl

end bodies

/-- Settles O9: each body gives its lanes once the checks of its sources pass. -/
theorem vectorSelectsComplete : Obligations.VectorSelectsComplete := by
  intro s w i f po t mi p hf he s1 rs put hc ready k x v quiet
  refine ⟨?_, ?_, ?_, ?_⟩
  · rintro g cc d a b e rfl ⟨ht, hm⟩ raw limb hq es fl hquiet
    have two : rs.take 2 = rs := by cases hf; rfl
    rw [two] at ht hm
    refine ⟨?_, fun notP => ?_⟩
    · rintro n rfl
      exact comesTo_of_body hf he id (cmpBody_p hc ht raw limb hm hq hquiet n)
    · obtain ⟨vals, agree, body⟩ := cmpBody_mask hc ht raw limb hm hq hquiet notP
      have lanes := comesTo_of_body hf he id body
      rwa [puts_active (by rwa [flagged_width])] at lanes
  · rintro g d a b c e rfl ⟨ht, hm⟩ limb fl taken out hquiet
    exact comesTo_of_flagLanes (g := fun l => (out l, fl l)) hf he id (selBody_eq c hc ht limb hm) hquiet
  · rintro g sat d a b c e rfl ⟨ht, hm⟩ ok addend out fl hquiet
    refine comesTo_of_flagLanes (g := fun l => ((out l).1, fl l)) hf he (fun _ => ?_) (dotBody_eq sat hc ht ok hm addend) hquiet
    cases hf
    exact dot_names he ht.1
  · rintro g d a b c n rfl ht e out q
    exact comesTo_of_plain hf he id (acsBody_eq (t := t) (mi := mi) (p := p) n hc ht)

end Sys2Proof.Proofs
end

section
/-! PROOF. Arithmetic and special functions on lanes: the bodies of all of them are lanes with flags (spec/03 R110, R111, R115, R131). -/

open Sys2Proof Sys2Proof.Machine Sys2Proof.Claims

namespace Sys2Proof.Proofs

section bodies
variable {u : State} {w : Nat} {m : Mask} {rs : List Src} {t : Tag} {mi p : Nat}

theorem allFlags_none (n : Nat) (m : Mask) : allFlags n m (fun _ => 0) = 0 :=
  List.foldl_fixed' (fun _ => BitVec.or_zero) _

/-- Plain lanes are lanes that raise no flag. -/
theorem plainLanes_eq_flagLanes (md : BitVec 32) (g : Nat → Lane) : .ok (plainLanes u w m md g) = flagLanes u w m md fun l => (g l, 0) := by
  have none : (fun l => (((List.range (u.wave w).id.width).map fun l => if m.getLsbD l then (g l, (0 : Flags)) else (0, 0)).getD l (0, 0)).2) = fun _ => 0 :=
    funext fun l => by
      by_cases lt : l < (u.wave w).id.width
      · rw [tabulated lt]
        split <;> rfl
      · simp [List.getD, lt]
  have vals : (fun l => ((List.range (u.wave w).id.width).map fun l => if m.getLsbD l then g l else 0).getD l 0) =
      fun l => (((List.range (u.wave w).id.width).map fun l => if m.getLsbD l then (g l, (0 : Flags)) else (0, 0)).getD l (0, 0)).1 :=
    funext fun l => by
      by_cases lt : l < (u.wave w).id.width
      · rw [tabulated lt, tabulated lt]
        split <;> rfl
      · simp [List.getD, lt]
  unfold flagLanes plainLanes
  dsimp only
  rw [none, vals, settleFlags_eq, allFlags_none, if_pos (show (0 : Flags) &&& trapEnables (u.wave w).amr = 0 from BitVec.zero_and), flagged_zero (allFlags_none ..)]
  rfl

/-- A lane of an arithmetic instruction over its sources: its value, and its flags with those of converting immediates. -/
def arithLane (k : Arith) (amr : Word) (i : Instr) (rs : List Src) (l : Nat) : Lane × Flags :=
  let v := fun j => (src0 rs j).lane k.env k.t k.p l
  let out := laneValue k amr i (v 0).1 (v 1).1 (v 2).1
  (out.1, out.2 ||| (v 0).2 ||| (v 1).2 ||| (v 2).2)

theorem missing_flags {k : Arith} {j l : Nat} (h : rs.length ≤ j) : ((src0 rs j).lane k.env k.t k.p l).2 = 0 := by
  rw [src0, List.getD_eq_default _ _ h]
  rfl

theorem ariBody_eq {op : AriOp} {sat : Bool} (hc : clean rs) (ht : tagged rs t) (raw : t ≠ .raw) (limb : t ≠ .limb) (hm : modulus u w rs t mi p) :
    let k := arith u w t mi p
    let v := fun (j l : Nat) => (src0 rs j).lane k.env t p l
    ariBody w op sat u m rs = flagLanes u w m (mkMd t 0 false false mi) fun l =>
      ((op.lane k sat (v 0 l).1 (v 1 l).1).1, (op.lane k sat (v 0 l).1 (v 1 l).1).2 ||| (v 0 l).2 ||| (v 1 l).2) := by
  intro k v
  rw [ariBody, arithOf_ok hc ht (ok := ariTag) (bne_iff_ne.2 raw) hm, eff_ok_bind]
  exact if_neg (by simpa using limb : ¬ (t == .limb) = true)

theorem madBody_eq {sat : Bool} (hc : clean rs) (ht : tagged rs t) (raw : t ≠ .raw) (limb : t ≠ .limb) (hm : modulus u w rs t mi p) :
    let k := arith u w t mi p
    let v := fun (j l : Nat) => (src0 rs j).lane k.env t p l
    let r := fun l => madLane k sat (v 0 l).1 (v 1 l).1 (v 2 l).1
    madBody w sat u m rs = flagLanes u w m (mkMd t 0 false false mi) fun l => ((r l).1, (r l).2 ||| (v 0 l).2 ||| (v 1 l).2 ||| (v 2 l).2) := by
  intro k v r
  rw [madBody, arithOf_ok hc ht (by simp [raw, limb]) hm]
  rfl

theorem pickBody_eq {larger : Bool} (hc : clean rs) (ht : tagged rs t) (raw : t ≠ .raw) (limb : t ≠ .limb) (modq : t ≠ .modq) (hm : modulus u w rs t mi p) :
    let k := arith u w t mi p
    let v := fun (j l : Nat) => (src0 rs j).lane k.env t p l
    pickBody w larger u m rs = flagLanes u w m (mkMd t 0 false false mi) fun l =>
      ((pickLane k larger (v 0 l).1 (v 1 l).1).1, (pickLane k larger (v 0 l).1 (v 1 l).1).2 ||| (v 0 l).2 ||| (v 1 l).2) := by
  intro k v
  rw [pickBody, arithOf_ok hc ht (by simp [raw, modq]) hm, eff_ok_bind]
  exact if_neg (by simpa using limb : ¬ (t == .limb) = true)

theorem signBody_eq {clear sat : Bool} (hc : clean rs) (ht : tagged rs t) (raw : t ≠ .raw) (limb : t ≠ .limb) (modq : clear = true → t ≠ .modq)
    (hm : modulus u w rs t mi p) :
    signBody w clear sat u m rs = flagLanes u w m (mkMd t 0 false false mi) fun l =>
      (signLane (arith u w t mi p) clear sat ((src0 rs 0).lane (arith u w t mi p).env t p l).1, 0) := by
  have accepted : (t != .raw && !(clear && t == .modq)) = true := by
    cases clear with
    | false => simp [raw]
    | true => simp [raw, modq rfl]
  rw [← plainLanes_eq_flagLanes, signBody, arithOf_ok hc ht accepted hm, eff_ok_bind]
  exact if_neg (by simpa using limb : ¬ (t == .limb) = true)

theorem sfuBody_eq {op : Sfu} (hc : clean rs) (ht : tagged rs t) (ok : sfuTag t = true) (hm : modulus u w rs t mi p) :
    let k := arith u w t mi p
    let v := fun l => (src0 rs 0).lane k.env t p l
    sfuBody w op u m rs = flagLanes u w m (mkMd t 0 false false mi) fun l =>
      ((sfuLane k (u.wave w).amr op (v l).1).1, (sfuLane k (u.wave w).amr op (v l).1).2 ||| (v l).2) := by
  intro k v
  rw [sfuBody, arithOf_ok hc ht ok hm]
  rfl

end bodies

/-- A source with metadata is no immediate, so no flag comes of converting it. -/
theorem srcOf_flags {s : State} {w site l p : Nat} {pops : List Popped} {o : Opnd} {env : FEnv} {t : Tag}
    (h : (srcOf s w pops site o).md.isSome = true) : ((srcOf s w pops site o).lane env t p l).2 = 0 := by
  cases o with
  | imm x => cases h
  | special n =>
    unfold srcOf
    dsimp only
    split <;> rfl
  | q n =>
    unfold srcOf
    dsimp only
    split <;> rfl
  | _ => rfl

/-- Where an instruction has one source, that is its V source. -/
theorem sole_flags {s : State} {w site l p : Nat} {pops : List Popped} {o : Opnd} {env : FEnv} {t t' : Tag} (h : tagged [srcOf s w pops site o] t') :
    (0 : Flags) ||| ((srcOf s w pops site o).lane env t p l).2 ||| 0 ||| 0 = 0 := by
  obtain ⟨⟨r, hr, hm⟩, -⟩ := h
  rw [List.mem_singleton] at hr
  subst hr
  rw [srcOf_flags hm]
  rfl

theorem laneTag_plain {i : Instr} {t : Tag} (h : laneTag i t = true) : t ≠ .raw ∧ t ≠ .limb := by
  unfold laneTag at h
  rw [Bool.and_eq_true, Bool.and_eq_true] at h
  exact ⟨bne_iff_ne.1 h.1.1, bne_iff_ne.1 h.1.2⟩

section entered
variable {s : State} {w : Nat} {i : Instr} {f : LaneForm} {po : PopOut} {t : Tag} {mi p : Nat}

/-- Every arithmetic instruction: lanes with flags under the operand tag. -/
theorem arithmetic_body (hf : form i = some f) (hc : clean (f.sources s w po)) (ht : tagged (f.sources s w po) t) (ok : laneTag i t = true)
    (hm : modulus (f.popped s w po) w (f.sources s w po) t mi p) :
    laneBody i w (f.popped s w po) po.m (f.sources s w po) = flagLanes (f.popped s w po) w po.m (mkMd t 0 false false mi)
      (arithLane (arith (f.popped s w po) w t mi p) ((f.popped s w po).wave w).amr i (f.sources s w po)) := by
  obtain ⟨raw, limb⟩ := laneTag_plain ok
  have modq (h : laneTag i t = (t != .raw && t != .limb && t != .modq)) : t ≠ .modq := by
    rw [h, Bool.and_eq_true] at ok
    exact bne_iff_ne.1 ok.2
  have special (h : laneTag i t = (t != .raw && t != .limb && sfuTag t)) : sfuTag t = true := by
    rw [h, Bool.and_eq_true] at ok
    exact ok.2
  cases i with
  | add | sub | mul =>
    cases hf
    refine (ariBody_eq hc ht raw limb hm).trans (congrArg _ (funext fun l => Prod.ext rfl ?_))
    exact BitVec.or_zero.symm
  | mad =>
    cases hf
    exact madBody_eq hc ht raw limb hm
  | min | max =>
    cases hf
    refine (pickBody_eq hc ht raw limb (modq rfl) hm).trans (congrArg _ (funext fun l => Prod.ext rfl ?_))
    exact BitVec.or_zero.symm
  | neg =>
    cases hf
    exact (signBody_eq hc ht raw limb (fun h => absurd h Bool.false_ne_true) hm).trans (congrArg _ (funext fun l => Prod.ext rfl (sole_flags ht).symm))
  | abs =>
    cases hf
    exact (signBody_eq hc ht raw limb (fun _ => modq rfl) hm).trans (congrArg _ (funext fun l => Prod.ext rfl (sole_flags ht).symm))
  | rcp | rsq | sqrt | exp2 | log2 | sin | cos =>
    cases hf
    refine (sfuBody_eq hc ht (special rfl) hm).trans (congrArg _ (funext fun l => Prod.ext rfl ?_))
    exact (BitVec.or_zero.trans BitVec.or_zero).symm
  | _ => simp [laneTag] at ok

end entered

end Sys2Proof.Proofs
end

section
/-! PROOF. Integer and modq lanes: the low bits, the clamped result, the residue (spec/03 R115). -/

open Sys2Proof Sys2Proof.Machine Sys2Proof.Claims

namespace Sys2Proof.Proofs

/-- The low 32 bits of an integer. -/
theorem ofNat_wrapTo (x : Int) : BitVec.ofNat 32 (wrapTo 32 x) = BitVec.ofInt 32 x := by
  apply BitVec.eq_of_toNat_eq
  simp only [wrapTo, BitVec.toNat_ofNat, BitVec.toNat_ofInt]
  exact Nat.mod_eq_of_lt (by omega)

theorem clampInt_eq {lo hi : Int} (h : lo ≤ hi) (x : Int) : clampInt lo hi x = max lo (min hi x) := by
  unfold clampInt
  split
  · omega
  · split <;> omega

/-! The one element of a 32-bit lane -/

theorem elemInt_i32 (x : Lane) : elemInt .i32 x 0 = x.toInt := by
  have elem : elemOf .i32 x 0 = x.toNat := Nat.mod_eq_of_lt x.isLt
  show signedOf 32 (elemOf .i32 x 0) = _
  rw [elem, signedOf_eq, BitVec.ofNat_toNat, BitVec.setWidth_eq]

theorem elemInt_u32 (x : Lane) : elemInt .u32 x 0 = x.toNat :=
  congrArg Int.ofNat (Nat.mod_eq_of_lt x.isLt)

theorem laneOf_word {t : Tag} (h : t = .i32 ∨ t = .u32) (g : Nat → Nat) : laneOf t g = BitVec.ofNat 32 (g 0) := by
  rcases h with rfl | rfl <;>
  · apply BitVec.eq_of_toNat_eq
    show (g 0 % 2 ^ 32 + 2 ^ 32 * 0) % 2 ^ 32 = g 0 % 2 ^ 32
    rw [Nat.mul_zero, Nat.add_zero, Nat.mod_mod]

theorem intBits_word {t : Tag} (h : t = .i32 ∨ t = .u32) (x : Int) : intBits t false x = wrapTo 32 x := by
  rcases h with rfl | rfl <;> rfl

/-- A lane stands for its integer up to multiples of 2^32. -/
theorem ofInt_elemInt {t : Tag} (h : t = .i32 ∨ t = .u32) (x : Lane) : BitVec.ofInt 32 (elemInt t x 0) = x := by
  rcases h with rfl | rfl
  · rw [elemInt_i32, BitVec.ofInt_toInt]
  · rw [elemInt_u32, BitVec.ofInt_natCast, BitVec.ofNat_toNat, BitVec.setWidth_eq]

theorem op_emod (op : AriOp) (x y : Int) (p : Int) : op.int (x % p) (y % p) % p = op.int x y % p := by
  cases op with
  | add => exact (Int.add_emod ..).symm
  | sub => exact (Int.sub_emod ..).symm
  | mul => exact (Int.mul_emod ..).symm

section lanes
variable {k : Arith} {a b c : Lane} (hk : k.fmt = tagFmt k.t)
include hk

theorem word_integer (ht : k.t = .i32 ∨ k.t = .u32) : k.fmt = none ∧ (k.t == .modq) = false := by
  rcases ht with h | h <;> rw [hk, h] <;> exact ⟨rfl, rfl⟩

theorem ariLane_word (ht : k.t = .i32 ∨ k.t = .u32) (op : AriOp) (sat : Bool) :
    AriOp.lane k op sat a b = (BitVec.ofNat 32 (intBits k.t sat (op.int (elemInt k.t a 0) (elemInt k.t b 0))), 0) := by
  obtain ⟨noFmt, noModq⟩ := word_integer hk ht
  rw [AriOp.lane, noFmt]
  simp only [noModq, Bool.false_eq_true, if_false, laneOf_word ht]

theorem ariLane_wraps (ht : k.t = .i32 ∨ k.t = .u32) (op : AriOp) :
    AriOp.lane k op false a b = (BitVec.ofInt 32 (op.int (elemInt k.t a 0) (elemInt k.t b 0)), 0) := by
  rw [ariLane_word hk ht, intBits_word ht, ofNat_wrapTo]

theorem madLane_wraps (ht : k.t = .i32 ∨ k.t = .u32) :
    madLane k false a b c = (BitVec.ofInt 32 (elemInt k.t a 0 * elemInt k.t b 0 + elemInt k.t c 0), 0) := by
  obtain ⟨noFmt, noModq⟩ := word_integer hk ht
  rw [madLane, noFmt]
  simp only [noModq, Bool.false_eq_true, if_false, laneOf_word ht, intBits_word ht, ofNat_wrapTo]

theorem ariLane_low (ht : k.t = .i32 ∨ k.t = .u32) :
    AriOp.lane k .add false a b = (a + b, 0) ∧ AriOp.lane k .sub false a b = (a - b, 0) ∧
      AriOp.lane k .mul false a b = (a * b, 0) ∧ madLane k false a b c = (a * b + c, 0) := by
  have word := ofInt_elemInt ht
  simp only [ariLane_wraps hk ht, madLane_wraps hk ht, AriOp.int, BitVec.ofInt_add, Int.sub_eq_add_neg, BitVec.ofInt_neg, ← BitVec.sub_eq_add_neg, BitVec.ofInt_mul, word, and_self]

theorem ariLane_clamps_i32 (ht : k.t = .i32) (op : AriOp) :
    AriOp.lane k op true a b = (BitVec.ofInt 32 (max (-(2 ^ 31)) (min (2 ^ 31 - 1) (op.int a.toInt b.toInt))), 0) := by
  rw [ariLane_word hk (.inl ht), ht, elemInt_i32, elemInt_i32]
  show (BitVec.ofNat 32 (wrapTo 32 (clampInt (-(2 ^ 31)) (2 ^ 31 - 1) _)), _) = _
  rw [ofNat_wrapTo, clampInt_eq (by decide)]

theorem ariLane_clamps_u32 (ht : k.t = .u32) (op : AriOp) :
    AriOp.lane k op true a b = (BitVec.ofInt 32 (max 0 (min (2 ^ 32 - 1) (op.int a.toNat b.toNat))), 0) := by
  rw [ariLane_word hk (.inr ht), ht, elemInt_u32, elemInt_u32]
  show (BitVec.ofNat 32 (wrapTo 32 (clampInt 0 (2 ^ 32 - 1) _)), _) = _
  rw [ofNat_wrapTo, clampInt_eq (by decide)]

/-! Residues -/

theorem ariLane_modq (ht : k.t = .modq) (pos : 0 < k.p) (small : k.p < 2 ^ 32) (op : AriOp) (sat : Bool) :
    ((AriOp.lane k op sat a b).1.toNat : Int) = op.int a.toNat b.toNat % (k.p : Int) ∧ (AriOp.lane k op sat a b).2 = 0 := by
  have lane : AriOp.lane k op sat a b = (BitVec.ofInt 32 (op.int a.toNat b.toNat % (k.p : Int)), 0) := by
    rw [← op_emod, AriOp.lane, hk, ht]
    rfl
  rw [lane]
  refine ⟨?_, rfl⟩
  have bounds := And.intro (Int.emod_nonneg (op.int a.toNat b.toNat) (b := k.p) (by omega)) (Int.emod_lt_of_pos (op.int a.toNat b.toNat) (b := k.p) (by omega))
  rw [BitVec.toNat_ofInt]
  omega

theorem madLane_modq (ht : k.t = .modq) (pos : 0 < k.p) (small : k.p < 2 ^ 32) (sat : Bool) :
    (madLane k sat a b c).1.toNat = (a.toNat * b.toNat + c.toNat) % k.p := by
  have lane : madLane k sat a b c = (BitVec.ofNat 32 (((a.toNat % k.p) * (b.toNat % k.p) + c.toNat % k.p) % k.p), 0) := by
    rw [madLane, hk, ht]
    rfl
  rw [lane, BitVec.toNat_ofNat, Nat.mod_eq_of_lt ((Nat.mod_lt _ pos).trans small), Nat.add_mod, ← Nat.mul_mod, Nat.mod_mod, ← Nat.add_mod]

end lanes

end Sys2Proof.Proofs
end

section
/-! PROOF. Exact sums and products of float values as fractions, rounded once, and their order (spec/03 R105, R106, R116). -/

open Sys2Proof Sys2Proof.Machine Sys2Proof.Claims

namespace Sys2Proof.Proofs

/-! Sums over one power of two -/

/-- A sign, a magnitude and an exponent as a fraction. -/
def ratNum (v : Bool × Nat × Int) : ℚ := ratOf (.num v.1 v.2.1 v.2.2)

/-- The least exponent of the terms that are not zero, from `acc` on. -/
def leastExp (acc : Option Int) (vs : List (Bool × Nat × Int)) : Option Int :=
  vs.foldl (fun acc v => if v.2.1 == 0 then acc else match acc with | none => some v.2.2 | some x => some (min x v.2.2)) acc

/-- The sum of the terms in units of 2^e, from `acc` on. -/
def sumUnits (e acc : Int) (vs : List (Bool × Nat × Int)) : Int :=
  vs.foldl (fun acc v => if v.2.1 == 0 then acc else
    let t : Int := (v.2.1 * 2 ^ (v.2.2 - e).toNat : Nat)
    if v.1 then acc - t else acc + t) acc

theorem sumNums_eq (vs : List (Bool × Nat × Int)) :
    sumNums vs = match leastExp none vs with | none => (0, 0) | some e => (sumUnits e 0 vs, e) := rfl

theorem leastExp_none {acc : Option Int} {vs : List (Bool × Nat × Int)} (h : leastExp acc vs = none) : acc = none ∧ ∀ v ∈ vs, v.2.1 = 0 := by
  induction vs generalizing acc with
  | nil => exact ⟨h, fun v hv => by cases hv⟩
  | cons v vs ih =>
    obtain ⟨first, rest⟩ := ih h
    dsimp only at first
    by_cases hz : v.2.1 = 0
    · rw [if_pos (beq_iff_eq.2 hz)] at first
      exact ⟨first, List.forall_mem_cons.2 ⟨hz, rest⟩⟩
    · rw [if_neg (by simpa using hz)] at first
      cases acc <;> cases first

theorem leastExp_le {acc : Option Int} {vs : List (Bool × Nat × Int)} {e : Int} (h : leastExp acc vs = some e) :
    (∀ a, acc = some a → e ≤ a) ∧ ∀ v ∈ vs, v.2.1 ≠ 0 → e ≤ v.2.2 := by
  induction vs generalizing acc with
  | nil => exact ⟨fun a ha => (Option.some.inj (h.symm.trans ha)).le, fun v hv => by cases hv⟩
  | cons v vs ih =>
    obtain ⟨first, rest⟩ := ih h
    dsimp only at first
    by_cases hz : v.2.1 = 0
    · rw [if_pos (beq_iff_eq.2 hz)] at first
      exact ⟨first, List.forall_mem_cons.2 ⟨fun hn => absurd hz hn, rest⟩⟩
    · rw [if_neg (by simpa using hz)] at first
      cases acc with
      | none => exact ⟨nofun, List.forall_mem_cons.2 ⟨fun _ => first _ rfl, rest⟩⟩
      | some x =>
        have least := first _ rfl
        exact ⟨fun a ha => by cases ha; omega, List.forall_mem_cons.2 ⟨fun _ => by omega, rest⟩⟩

theorem ratNum_zero {v : Bool × Nat × Int} (h : v.2.1 = 0) : ratNum v = 0 := by
  simp [ratNum, ratOf, h]

/-- A term in units of a power of two below its own. -/
theorem units_ratNum {e : Int} {v : Bool × Nat × Int} (h : e ≤ v.2.2) :
    ((if v.1 then -1 else 1) * ((v.2.1 * 2 ^ (v.2.2 - e).toNat : Nat) : ℚ)) * 2 ^ e = ratNum v := by
  have power : (2 : ℚ) ^ (v.2.2 - e).toNat * 2 ^ e = 2 ^ v.2.2 := by
    rw [zpow_toNat (by omega), ← zpow_add₀ two_ne_zero, sub_add_cancel]
  rw [ratNum, ratOf, ← power]
  push_cast
  ring

theorem sumUnits_value {e : Int} (acc : Int) {vs : List (Bool × Nat × Int)} (h : ∀ v ∈ vs, v.2.1 ≠ 0 → e ≤ v.2.2) :
    (sumUnits e acc vs : ℚ) * 2 ^ e = acc * 2 ^ e + (vs.map ratNum).sum := by
  induction vs generalizing acc with
  | nil => simp [sumUnits]
  | cons v vs ih =>
    obtain ⟨first, rest⟩ := List.forall_mem_cons.1 h
    rw [List.map_cons, List.sum_cons, ← add_assoc]
    refine (ih _ rest).trans (congrArg (· + _) ?_)
    dsimp only
    by_cases hz : v.2.1 = 0
    · rw [if_pos (beq_iff_eq.2 hz), ratNum_zero hz, add_zero]
    · rw [if_neg (by simpa using hz), ← units_ratNum (first hz)]
      cases v.1
      · simp only [Bool.false_eq_true, if_false]
        push_cast
        ring
      · simp only [if_true]
        push_cast
        ring

/-- The sum of numbers is their sum. -/
theorem sumNums_value (vs : List (Bool × Nat × Int)) : ((sumNums vs).1 : ℚ) * 2 ^ (sumNums vs).2 = (vs.map ratNum).sum := by
  rw [sumNums_eq]
  cases h : leastExp none vs with
  | none =>
    have zeros := (leastExp_none h).2
    have sum : (vs.map ratNum).sum = 0 :=
      List.sum_eq_zero fun q hq => by
        obtain ⟨v, hv, rfl⟩ := List.mem_map.1 hq
        exact ratNum_zero (zeros v hv)
    simp [sum]
  | some e =>
    have value := sumUnits_value 0 (leastExp_le h).2
    simpa using value

theorem sumNums_sign (vs : List (Bool × Nat × Int)) :
    ((sumNums vs).1 = 0 ↔ (vs.map ratNum).sum = 0) ∧ ((sumNums vs).1 < 0 ↔ (vs.map ratNum).sum < 0) := by
  have pos := two_zpow_pos (sumNums vs).2
  rw [← sumNums_value]
  constructor
  · simp [pos.ne']
  · rw [← Int.cast_lt_zero (R := ℚ), mul_neg_iff]
    exact ⟨fun h => .inr ⟨h, pos⟩, fun h => (h.resolve_left fun k => pos.not_gt k.2).1⟩

/-! Rounding a number and an exact sum -/

theorem finite_num {x : FVal} (h : finite x) : ∃ n m e, x = .num n m e := by
  cases x with
  | nan => cases h.1
  | inf => cases h.2
  | num n m e => exact ⟨n, m, e, rfl⟩

theorem ratOf_zero_iff {n : Bool} {m : Nat} {e : Int} : ratOf (.num n m e) = 0 ↔ m = 0 := by
  cases n <;> simp [ratOf, (two_zpow_pos e).ne']

theorem abs_ratOf (n : Bool) (m : Nat) (e : Int) : |ratOf (.num n m e)| = m * 2 ^ e := by
  have pos : (0 : ℚ) ≤ (m : ℚ) * 2 ^ e := mul_nonneg (Nat.cast_nonneg m) (two_zpow_pos e).le
  cases n
  · rw [ratOf, if_neg Bool.false_ne_true, one_mul, abs_of_nonneg pos]
  · rw [ratOf, if_pos rfl, neg_one_mul, neg_mul, abs_neg, abs_of_nonneg pos]

theorem ratOf_neg_iff {n : Bool} {m : Nat} {e : Int} (hm : 0 < m) : ratOf (.num n m e) < 0 ↔ n = true := by
  have pos : (0 : ℚ) < (m : ℚ) * 2 ^ e := mul_pos (by exact_mod_cast hm) (two_zpow_pos e)
  cases n
  · rw [ratOf, if_neg Bool.false_ne_true, one_mul]
    simpa using pos.le
  · rw [ratOf, if_pos rfl, neg_one_mul, neg_mul]
    simpa using pos

/-- A number rounds to its fraction rounded once, a zero to the zero of its sign. -/
theorem round_num (f : Fmt) (env : FEnv) (n : Bool) (m : Nat) (e : Int) : roundedOnce f env (ratOf (.num n m e)) n (f.round env (.num n m e)) := by
  unfold roundedOnce
  by_cases hm : m = 0
  · subst hm
    rw [if_pos (ratOf_zero_iff.2 rfl)]
    rfl
  · have sign : decide (ratOf (.num n m e) < 0) = n := by
      rw [Bool.eq_iff_iff, decide_eq_true_iff, ratOf_neg_iff (Nat.pos_of_ne_zero hm)]
    rw [if_neg (mt ratOf_zero_iff.1 hm), sign]
    exact ⟨m, e, Nat.pos_of_ne_zero hm, (abs_ratOf n m e).symm, rfl⟩

/-- The sign of a zero counts for zero only. -/
theorem roundedOnce_sign {f : Fmt} {env : FEnv} {x : ℚ} {r : Nat × Flags} (hx : x ≠ 0) (z z' : Bool) :
    roundedOnce f env x z r ↔ roundedOnce f env x z' r := by
  rw [roundedOnce, roundedOnce, if_neg hx, if_neg hx]

theorem ratOf_signed (i e : Int) : ratOf (.num (decide (i < 0)) i.natAbs e) = i * 2 ^ e := by
  by_cases h : i < 0
  · rw [ratOf, if_pos (decide_eq_true h), Nat.cast_natAbs, abs_of_neg h]
    push_cast
    ring
  · rw [ratOf, if_neg (by simpa using h), Nat.cast_natAbs, abs_of_nonneg (not_lt.1 h), one_mul]

/-- An exact sum rounded; NaN where there is none. -/
def roundSum (f : Fmt) (env : FEnv) (ts : List FVal) : Nat × Flags :=
  match sumExact env.rm ts with
  | none => f.nanOf env []
  | some v => f.round env v

section sums
variable {f : Fmt} {env : FEnv}

/-- The exact sum of two numbers. -/
theorem sumExact_num (rm : Nat) (n n' : Bool) (m m' : Nat) (e e' : Int) :
    let x := FVal.num n m e
    let y := FVal.num n' m' e'
    let s := sumNums [(n, m, e), (n', m', e')]
    sumExact rm [x, y] = some (if s.1 = 0 then .num (if x.isZero && y.isZero && n == n' then n else rm == 3) 0 0 else .num (decide (s.1 < 0)) s.1.natAbs s.2) := by
  intro x y s
  have none_inf (b : Bool) : [x, y].any (fun v => v == .inf b) = false := by simp [x, y]
  have zeros : [x, y].all FVal.isZero = (x.isZero && y.isZero) := by simp
  have negs : [x, y].all FVal.neg? = (n && n') := by simp [x, y, FVal.neg?]
  have poss : [x, y].all (fun v => !v.neg?) = (!n && !n') := by simp [x, y, FVal.neg?]
  unfold sumExact
  rw [none_inf, none_inf, zeros, negs, poss]
  show (if (s.1 == 0) = true then _ else _) = _
  by_cases hz : s.1 = 0
  · rw [if_pos (beq_iff_eq.2 hz), if_pos hz]
    cases x.isZero <;> cases y.isZero <;> cases n <;> cases n' <;> rfl
  · rw [if_neg (by simpa using hz), if_neg hz]
    rfl

theorem roundSum_finite {x y : FVal} (hx : finite x) (hy : finite y) :
    roundedOnce f env (ratOf x + ratOf y) (zeroSign env (x.isZero, x.neg?) (y.isZero, y.neg?)) (roundSum f env [x, y]) := by
  obtain ⟨n, m, e, rfl⟩ := finite_num hx
  obtain ⟨n', m', e', rfl⟩ := finite_num hy
  have total : ([(n, m, e), (n', m', e')].map ratNum).sum = ratOf (.num n m e) + ratOf (.num n' m' e') := by simp [ratNum]
  have zero := (sumNums_sign [(n, m, e), (n', m', e')]).1
  have value := sumNums_value [(n, m, e), (n', m', e')]
  rw [total] at zero value
  unfold roundSum
  rw [sumExact_num]
  generalize sumNums [(n, m, e), (n', m', e')] = sum at zero value ⊢
  dsimp only
  by_cases hz : sum.1 = 0
  · rw [if_pos hz, roundedOnce, if_pos (zero.1 hz)]
    rfl
  · rw [if_neg hz, roundedOnce_sign (mt zero.2 hz) _ (decide (sum.1 < 0)), ← value, ← ratOf_signed]
    exact round_num ..

end sums

end Sys2Proof.Proofs
end

section
/-! PROOF. Float elements of lanes: sums, products, the smaller and the larger (spec/03 R105, R106, R115, R116). -/

open Sys2Proof Sys2Proof.Machine Sys2Proof.Claims

namespace Sys2Proof.Proofs

/-! Infinities in sums -/

section sums
variable {f : Fmt} {env : FEnv}

theorem roundSum_infs (u v : Bool) : roundSum f env [.inf u, .inf v] = if u = v then f.overflow env u false else f.nanOf env [] := by
  cases u <;> cases v <;> rfl

theorem roundSum_inf_left (u : Bool) {y : FVal} (hy : finite y) : roundSum f env [.inf u, y] = f.overflow env u false := by
  obtain ⟨n, m, e, rfl⟩ := finite_num hy
  cases u <;> rfl

theorem roundSum_inf_right (u : Bool) {x : FVal} (hx : finite x) : roundSum f env [x, .inf u] = f.overflow env u false := by
  obtain ⟨n, m, e, rfl⟩ := finite_num hx
  cases u <;> rfl

theorem sumProducts_nan {ops : List FVal} {prods : List (FVal × FVal)} {adds : List FVal} (h : ops.any FVal.isNan = true) :
    f.sumProducts env ops prods adds = f.nanOf env ops := if_pos h

theorem sumProducts_sum {ops : List FVal} (adds : List FVal) (h : ops.any FVal.isNan = false) :
    f.sumProducts env ops [] adds = roundSum f env adds := if_neg (by simp [h])

theorem sumProducts_product {ops adds : List FVal} {a b v : FVal} (h : ops.any FVal.isNan = false) (hv : mulExact a b = some v) :
    f.sumProducts env ops [(a, b)] adds = roundSum f env (v :: adds) := by
  rw [Fmt.sumProducts, if_neg (by simp [h])]
  simp only [List.map_cons, List.map_nil, hv]
  rfl

theorem sumProducts_invalid {ops adds : List FVal} {a b : FVal} (h : ops.any FVal.isNan = false) (hv : mulExact a b = none) :
    f.sumProducts env ops [(a, b)] adds = f.nanOf env [] := by
  rw [Fmt.sumProducts, if_neg (by simp [h])]
  simp only [List.map_cons, List.map_nil, hv]
  rfl

/-! Products -/

theorem mulExact_finite {x y : FVal} (hx : finite x) (hy : finite y) : ∃ v, mulExact x y = some v ∧ finite v ∧
    ratOf v = ratOf x * ratOf y ∧ v.neg? = (x.neg? != y.neg?) ∧ v.isZero = (x.isZero || y.isZero) := by
  obtain ⟨n, m, e, rfl⟩ := finite_num hx
  obtain ⟨n', m', e', rfl⟩ := finite_num hy
  refine ⟨_, rfl, ⟨rfl, rfl⟩, ?_, rfl, ?_⟩
  · have power := zpow_add₀ (two_ne_zero (α := ℚ)) e e'
    cases n <;> cases n' <;> simp [ratOf, power] <;> ring
  · simp [FVal.isZero, Bool.beq_eq_decide_eq]

theorem mulExact_inf {x y : FVal} (hx : x.isNan = false) (hy : y.isNan = false) (h : x.isInf = true ∨ y.isInf = true) :
    mulExact x y = if x.isZero = true ∨ y.isZero = true then none else some (.inf (x.neg? != y.neg?)) := by
  cases x with
  | nan => cases hx
  | inf s =>
    cases y with
    | nan => cases hy
    | inf t => rfl
    | num t n g => simp [mulExact, FVal.isZero, FVal.neg?]
  | num s m e =>
    cases y with
    | nan => cases hy
    | inf t => simp [mulExact, FVal.isZero, FVal.neg?]
    | num t n g => simp [FVal.isInf] at h

end sums

/-! The order -/

/-- The order of values that are not NaN, −0 below +0. -/
def Below (u v : FVal) : Prop :=
  u = .inf true ∧ v ≠ .inf true ∨ v = .inf false ∧ u ≠ .inf false ∨
    finite u ∧ finite v ∧ (ratOf u < ratOf v ∨ u.isZero = true ∧ v.isZero = true ∧ u.neg? = true ∧ v.neg? = false)

theorem less_num (s t : Bool) (m n : Nat) (e g : Int) : FVal.less true (.num s m e) (.num t n g) = true ↔
    ratOf (.num s m e) < ratOf (.num t n g) ∨ m = 0 ∧ n = 0 ∧ s = true ∧ t = false := by
  have total : ([(s, m, e), (!t, n, g)].map ratNum).sum = ratOf (.num s m e) - ratOf (.num t n g) := by
    cases t <;> simp [ratNum, ratOf, sub_eq_add_neg]
  obtain ⟨zero, neg⟩ := sumNums_sign [(s, m, e), (!t, n, g)]
  rw [total, sub_eq_zero] at zero
  rw [total, sub_neg] at neg
  unfold FVal.less
  dsimp only
  by_cases hz : (sumNums [(s, m, e), (!t, n, g)]).1 = 0
  · rw [if_pos (beq_iff_eq.2 hz), zero.1 hz]
    simp [and_assoc]
  · rw [if_neg (by simpa using hz), decide_eq_true_iff, neg]
    refine (or_iff_left fun h => hz (zero.2 ?_)).symm
    rw [ratOf_zero_iff.2 h.1, ratOf_zero_iff.2 h.2.1]

theorem finite_of_num (s : Bool) (m : Nat) (e : Int) : finite (.num s m e) := ⟨rfl, rfl⟩

theorem less_iff {x y : FVal} (hx : x.isNan = false) (hy : y.isNan = false) : FVal.less true x y = true ↔ Below x y := by
  cases x with
  | nan => cases hx
  | inf s =>
    cases y with
    | nan => cases hy
    | inf t => cases s <;> cases t <;> simp [FVal.less, Below, FVal.isInf]
    | num t n g => cases s <;> simp [FVal.less, Below, FVal.isInf]
  | num s m e =>
    cases y with
    | nan => cases hy
    | inf t => cases t <;> simp [FVal.less, Below, FVal.isInf]
    | num t n g =>
      rw [less_num]
      simp [Below, eq_true (finite_of_num s m e), eq_true (finite_of_num t n g), FVal.isZero, FVal.neg?]

section pick
variable {f : Fmt} {env : FEnv} {larger : Bool} {x y : FVal}

theorem signalling_isNan (h : x.isNan = false) : x.isSignalling = false := by
  cases x with
  | nan => cases h
  | _ => rfl

theorem floatPick_numbers [Decidable (Below x y)] [Decidable (Below y x)] (hx : x.isNan = false) (hy : y.isNan = false) :
    floatPick f env larger x y = f.keep env (if larger then (if Below x y then y else x) else (if Below y x then y else x)) := by
  rw [floatPick, hx, hy, signalling_isNan hx, signalling_isNan hy]
  simp only [less_iff hx hy, less_iff hy hx, Bool.false_eq_true, Bool.or_self, Bool.and_self, if_false]
  exact Prod.ext rfl BitVec.or_zero

theorem floatPick_nans (hx : x.isNan = true) (hy : y.isNan = true) : (floatPick f env larger x y).1 = (f.nanOf env [x, y]).1 := by
  rw [floatPick, hx, hy]
  rfl

theorem floatPick_left (hx : x.isNan = true) (hy : y.isNan = false) :
    floatPick f env larger x y = ((f.keep env y).1, (f.keep env y).2 ||| if x.isSignalling then 1#5 else 0) := by
  rw [floatPick, hx, hy, signalling_isNan hy, Bool.or_false]
  rfl

theorem floatPick_right (hx : x.isNan = false) (hy : y.isNan = true) :
    floatPick f env larger x y = ((f.keep env x).1, (f.keep env x).2 ||| if y.isSignalling then 1#5 else 0) := by
  rw [floatPick, hx, hy, signalling_isNan hx, Bool.false_or]
  rfl

theorem pick_cases {_ : Decidable (Below x y)} {_ : Decidable (Below y x)} : let r := floatPick f env larger x y
    (x.isNan = false → y.isNan = false → r = f.keep env (if larger then (if Below x y then y else x) else (if Below y x then y else x))) ∧
      (x.isNan = true → y.isNan = true → r.1 = (f.nanOf env [x, y]).1) ∧
      (x.isNan = true → y.isNan = false → r.1 = (f.keep env y).1 ∧ r.2 = (f.keep env y).2 ||| (if x.isSignalling then 1#5 else 0)) ∧
      (x.isNan = false → y.isNan = true → r.1 = (f.keep env x).1 ∧ r.2 = (f.keep env x).2 ||| (if y.isSignalling then 1#5 else 0)) :=
  ⟨floatPick_numbers, floatPick_nans, fun hx hy => Prod.ext_iff.1 (floatPick_left hx hy), fun hx hy => Prod.ext_iff.1 (floatPick_right hx hy)⟩

end pick

/-- Elements with flags by index. -/
theorem joinElems_eq (t : Tag) (r : Nat → Nat × Flags) : joinElems t ((List.range (tagElems t)).map r) =
    (laneOf t (fun j => (r j).1), (List.range (tagElems t)).foldl (fun acc j => acc ||| (r j).2) 0) := by
  rw [joinElems, List.map_map, List.foldl_map]
  rfl

section elements
variable {f : Fmt} {env : FEnv} {x y z : FVal}

theorem negate_isNan (v : FVal) : v.negate.isNan = v.isNan := by cases v <;> rfl

theorem finite_negate (h : finite x) : finite x.negate := by
  obtain ⟨n, m, e, rfl⟩ := finite_num h
  exact finite_of_num _ m e

/-- A sum of two terms by cases; the second is `t`, which is the operand `y` or its negative. -/
theorem sum_cases {t : FVal} (ht : t.isNan = y.isNan) (fin : finite y → finite t) (r : Nat × Flags)
    (hr : r = f.sumProducts env [x, y] [] [x, t]) :
    (finite x → finite y → roundedOnce f env (ratOf x + ratOf t) (zeroSign env (x.isZero, x.neg?) (t.isZero, t.neg?)) r) ∧
      (x.isNan = true ∨ y.isNan = true → r = f.nanOf env [x, y]) ∧
      (∀ u v, x = .inf u → t = .inf v → r = if u = v then f.overflow env u false else f.nanOf env []) ∧
      (∀ u, (x = .inf u ∧ finite y) ∨ (t = .inf u ∧ finite x) → r = f.overflow env u false) := by
  subst hr
  have sum (hx : x.isNan = false) (hy : y.isNan = false) : f.sumProducts env [x, y] [] [x, t] = roundSum f env [x, t] :=
    sumProducts_sum _ (by simp [hx, hy])
  refine ⟨fun hx hy => ?_, fun h => sumProducts_nan (by simpa using h), fun u v hx hy => ?_, fun u h => ?_⟩
  · rw [sum hx.1 hy.1]
    exact roundSum_finite hx (fin hy)
  · subst hx hy
    rw [sum rfl ht.symm]
    exact roundSum_infs u v
  · rcases h with ⟨rfl, hy⟩ | ⟨rfl, hx⟩
    · rw [sum rfl hy.1]
      exact roundSum_inf_left u (fin hy)
    · rw [sum hx.1 ht.symm]
      exact roundSum_inf_right u hx

theorem mul_exact (hx : x.isNan = false) (hy : y.isNan = false) :
    f.mul env x y = match mulExact x y with | none => f.nanOf env [] | some v => f.round env v :=
  if_neg (by simp [hx, hy])

theorem mul_cases : let r := f.mul env x y
    (finite x → finite y → roundedOnce f env (ratOf x * ratOf y) (x.neg? != y.neg?) r) ∧
      (x.isNan = true ∨ y.isNan = true → r = f.nanOf env [x, y]) ∧
      (x.isNan = false → y.isNan = false → x.isInf = true ∨ y.isInf = true →
        r = if x.isZero = true ∨ y.isZero = true then f.nanOf env [] else f.overflow env (x.neg? != y.neg?) false) := by
  intro r
  refine ⟨fun hx hy => ?_, fun h => ?_, fun hx hy h => ?_⟩
  · obtain ⟨v, hv, fin, value, sign, -⟩ := mulExact_finite hx hy
    obtain ⟨n, m, e, rfl⟩ := finite_num fin
    rw [show r = _ from mul_exact hx.1 hy.1, hv, ← value, ← sign]
    exact round_num ..
  · exact if_pos (by simpa using h)
  · rw [show r = _ from mul_exact hx hy, mulExact_inf hx hy h]
    by_cases invalid : x.isZero = true ∨ y.isZero = true
    · rw [if_pos invalid, if_pos invalid]
    · rw [if_neg invalid, if_neg invalid]
      rfl

theorem fma_cases : let r := f.fma env x y z
    let s := x.neg? != y.neg?
    (finite x → finite y → finite z → roundedOnce f env (ratOf x * ratOf y + ratOf z) (zeroSign env (x.isZero || y.isZero, s) (z.isZero, z.neg?)) r) ∧
      (x.isNan = true ∨ y.isNan = true ∨ z.isNan = true → r = f.nanOf env [x, y, z]) ∧
      (x.isNan = false → y.isNan = false → z.isNan = false → x.isInf = true ∨ y.isInf = true →
        r = if x.isZero = true ∨ y.isZero = true ∨ z = .inf (!s) then f.nanOf env [] else f.overflow env s false) ∧
      (∀ u, finite x → finite y → z = .inf u → r = f.overflow env u false) := by
  intro r s
  have product {v : FVal} (hx : x.isNan = false) (hy : y.isNan = false) (hz : z.isNan = false) (hv : mulExact x y = some v) :
      r = roundSum f env [v, z] := sumProducts_product (by simp [hx, hy, hz]) hv
  refine ⟨fun hx hy hz => ?_, fun h => sumProducts_nan (by simpa using h), fun hx hy hz h => ?_, fun u hx hy hz => ?_⟩
  · obtain ⟨v, hv, fin, value, sign, zero⟩ := mulExact_finite hx hy
    rw [product hx.1 hy.1 hz.1 hv, ← value, ← zero, show s = v.neg? from sign.symm]
    exact roundSum_finite fin hz
  · have exact := mulExact_inf hx hy h
    by_cases invalid : x.isZero = true ∨ y.isZero = true
    · rw [if_pos invalid] at exact
      rw [if_pos (or_assoc.1 (.inl invalid))]
      exact sumProducts_invalid (by simp [hx, hy, hz]) exact
    · rw [if_neg invalid] at exact
      rw [product hx hy hz exact]
      by_cases opposite : z = .inf (!s)
      · subst opposite
        rw [roundSum_infs, if_neg (by simp [s]), if_pos (.inr (.inr rfl))]
      · rw [if_neg fun h => (or_assoc.2 h).elim invalid opposite]
        cases z with
        | nan => cases hz
        | inf u =>
          have same : s = u := by_contra fun h => opposite (congrArg FVal.inf (Bool.eq_not.2 (Ne.symm h)))
          rw [roundSum_infs, if_pos same]
        | num n m e => exact roundSum_inf_left _ (finite_of_num n m e)
  · obtain ⟨v, hv, fin, -⟩ := mulExact_finite hx hy
    subst hz
    rw [product hx.1 hy.1 rfl hv]
    exact roundSum_inf_right u fin

end elements

end Sys2Proof.Proofs
end

section
/-! PROOF. Arithmetic and special functions on lanes complete (spec/03 R107, R108, R110, R111, R115, R116, R131). -/

open Sys2Proof Sys2Proof.Machine Sys2Proof.Claims

namespace Sys2Proof.Proofs

section lanes
variable {k : Arith} {f : Fmt} {a b c : Lane} {sat : Bool} (hf : k.fmt = some f)
include hf

/-- Under a float tag the lanes are joined from their elements. -/
theorem ariLane_float (op : AriOp) : AriOp.lane k op sat a b =
    joinElems k.t ((List.range (tagElems k.t)).map fun j => op.float f k.env (k.elem f a j) (k.elem f b j)) := by
  rw [AriOp.lane, hf]

theorem madLane_float : madLane k sat a b c =
    joinElems k.t ((List.range (tagElems k.t)).map fun j => f.fma k.env (k.elem f a j) (k.elem f b j) (k.elem f c j)) := by
  rw [madLane, hf]

theorem pickLane_float (larger : Bool) : pickLane k larger a b =
    joinElems k.t ((List.range (tagElems k.t)).map fun j => floatPick f k.env larger (k.elem f a j) (k.elem f b j)) := by
  rw [pickLane, hf]

end lanes

/-- None of these instructions is dot, which checks more of its operands. -/
theorem extra_of_laneTag {i : Instr} {f : LaneForm} {s : State} {w : Nat} {t : Tag} (ok : laneTag i t = true) (h : f.extra s w = true) :
    laneExtra i f s w = true := by
  cases i with
  | dot => simp [laneTag] at ok
  | _ => exact h

/-- Settles O58: every body gives lanes with flags, integer lanes their low bits or clamped results, and float elements one rounding of the
exact result. -/
theorem laneArithmeticCompletes : Obligations.LaneArithmeticCompletes := by
  refine ⟨?_, ?_, ?_⟩
  · intro s w i f po t mi p hf he s1 rs hc ht ok hm k x v out fl all
    have body := arithmetic_body hf hc ht ok hm
    exact ⟨comesTo_of_flagLanes (g := arithLane k x.amr i rs) hf he (extra_of_laneTag ok) body,
      traps_of_flagLanes (g := arithLane k x.amr i rs) hf he (extra_of_laneTag ok) body⟩
  · intro k a b c hk
    exact ⟨ariLane_low hk, ariLane_clamps_i32 hk, ariLane_clamps_u32 hk, fun ht pos small op sat =>
      ⟨(ariLane_modq hk ht pos small op sat).1, (ariLane_modq hk ht pos small op sat).2, madLane_modq hk ht pos small sat⟩⟩
  · intro k f a b c sat _ hf el lane sign sum
    refine ⟨?_, ?_, ?_, ?_, fun larger => ?_⟩
    · exact ⟨_, (ariLane_float hf .add).trans (joinElems_eq ..), fun j _ => sum_cases rfl id _ rfl⟩
    · exact ⟨_, (ariLane_float hf .sub).trans (joinElems_eq ..), fun j _ => sum_cases (negate_isNan _) finite_negate _ rfl⟩
    · exact ⟨_, (ariLane_float hf .mul).trans (joinElems_eq ..), fun j _ => mul_cases⟩
    · exact ⟨_, (madLane_float hf).trans (joinElems_eq ..), fun j _ => fma_cases⟩
    · exact ⟨_, (pickLane_float hf larger).trans (joinElems_eq ..), fun j _ => pick_cases⟩

end Sys2Proof.Proofs
end

section
/-! PROOF. Where a memory instruction comes to no access: no lane is active, or a lane's address is refused (spec/04 R137, R139, R141,
R344). -/

open Sys2Proof Sys2Proof.Machine Sys2Proof.Claims

namespace Sys2Proof.Proofs

/-! Addresses that are refused -/

/-- What the lanes whose addresses are refused raise: the lowest one's address, and all of them. -/
def lanesTrap (s : State) (w : Nat) (code : BitVec 6) (q : Nat × Nat) (bad : List (Nat × Nat)) : TrapReq :=
  { code := code, addr := BitVec.ofNat 64 q.2, lanes := some (lanesMask (s.wave w).id.width (q :: bad)) }

section resolve
variable {s : State} {w n align : Nat} {l : List (Nat × Nat)} {q : Nat × Nat} {bad : List (Nat × Nat)}

theorem resolveLanes_misaligned (h : l.filter (fun e => e.2 % align != 0) = q :: bad) (window : Bool) (want : Want) :
    resolveLanes s w window l n align want = .error (.trap (lanesTrap s w 0x11#6 q bad)) := by
  simp only [resolveLanes, h]
  rfl

theorem resolveLanes_outside (ha : l.filter (fun e => e.2 % align != 0) = [])
    (h : l.filter (fun e => decide (2 ^ 57 ≤ e.2) || (inWindow e.2 && decide ((s.waveGroup w).spb < e.2 - windowBase + n))) = q :: bad)
    (want : Want) : resolveLanes s w true l n align want = .error (.trap (lanesTrap s w 0x10#6 q bad)) := by
  simp only [resolveLanes, ha, Bool.not_true, Bool.false_or, h]
  rfl

end resolve

/-! Instructions that come to no access -/

section issue
variable {s : State} {w : Nat} {g : Guards} {c : Cls} {act : Mask → State → Nat → Eff MemOut} (hw : s.running = some w)
include hw

/-- A memory instruction whose act traps raises its trap. -/
theorem memIssue_traps (hm : activeMask s w g ≠ 0) (hr : (s.wave w).outstanding c < 62) {t : TrapReq}
    (ha : act (s.wave w).exec s w = .error (.trap t)) : memIssue s g c act = .next (s.trapped w t) := by
  have some_ : (activeMask s w g != 0) = true := bne_iff_ne.2 hm
  refine issue_traps hw ?_
  simp only [some_, if_true, roomFor_of hr, ha, eff_ok_bind, eff_error_bind]

/-- A memory instruction of no lane counts nothing. -/
theorem memIssue_idle (hm : activeMask s w g = 0) (ha : act (s.wave w).exec s w = .ok { s := s }) :
    memIssue s g c act = .next (completed s w s) := by
  have none_ : (activeMask s w g != 0) = false := bne_eq_false_iff_eq.2 hm
  refine issue_completes hw ?_
  simp only [none_, Bool.false_eq_true, if_false, ha, eff_ok_bind, eff_pure]
  rfl

end issue

/-- The instruction checks its operands; then, with no lane it completes, and with one its lanes find their places. -/
structure FindsPlaces (i : Instr) (s : State) (w : Nat) (g : Guards) (c : Cls) (checks : List (Opnd × Accept)) (ok : Bool) (rs : List Opnd)
    (a b : Opnd) (n : Nat) : Prop where
  idle : s.running = some w → activeMask s w g = 0 → checkOps s w checks = .ok () → ok = true → exec i s = .next (completed s w s)
  refused : pipeReady s w g c checks ok rs → ∀ t : TrapReq,
    (∀ want, resolveLanes s w true (laneAddrs s w (activeMask s w g) a b n) n n want = .error (.trap t)) → exec i s = .next (s.trapped w t)

section forms
variable (s : State) (w : Nat) (g : Guards) (o : Order) (sc : Scope) (ev : BitVec 3) (d a b c : Opnd) (wd : Width)

theorem ld_findsPlaces : FindsPlaces (.ld g o sc ev d a b wd) s w g .ld [(d, .onlyV), (a, .sv), (b, .onlyImm)]
    (s.fits w d (widthRegs wd) && baseOk s w a) (baseRegs a) a b (widthBytes wd) where
  idle hw hm hc hf := by
    refine memIssue_idle (act := ldAt g o sc d a b wd) hw hm ?_
    simp only [ldAt, loadAt, hc, demand_of hf, lanesActive_exec, hm, beq_self_eq_true, if_true, eff_ok_bind, eff_pure]
  refused hp t ht := by
    obtain ⟨hw, hm, hr, hc, hf, hd⟩ := hp
    refine memIssue_traps (act := ldAt g o sc d a b wd) hw hm hr ?_
    simp only [ldAt, loadAt, hc, demand_of hf, lanesActive_exec, mask_nonzero hm, hd, ht, eff_ok_bind, eff_error_bind, Bool.false_eq_true,
      if_false]

theorem st_findsPlaces : FindsPlaces (.st g o sc ev a b c wd) s w g .st [(a, .sv), (b, .onlyImm), (c, dataAccept (widthRegs wd))]
    (baseOk s w a && dataFits s w c (widthRegs wd)) (baseRegs a ++ groupRegs c (widthRegs wd)) a b (widthBytes wd) where
  idle hw hm hc hf := by
    refine memIssue_idle (act := stAt true g o sc a b c wd) hw hm ?_
    simp only [stAt, hc, demand_of hf, lanesActive_exec, hm, beq_self_eq_true, if_true, eff_ok_bind, eff_pure]
  refused hp t ht := by
    obtain ⟨hw, hm, hr, hc, hf, hd⟩ := hp
    refine memIssue_traps (act := stAt true g o sc a b c wd) hw hm hr ?_
    simp only [stAt, hc, demand_of hf, lanesActive_exec, mask_nonzero hm, hd, ht, eff_ok_bind, eff_error_bind, Bool.false_eq_true, if_false]

end forms

/-- Settles O27: ld and st find their lanes' places before anything else, and the places are refused in the order of R141. -/
theorem memoryAccessTraps : Obligations.MemoryAccessTraps := by
  intro s w i g cls checks ok rs a b n q bad form m W addrs outside
  have finds : FindsPlaces i s w g cls checks ok rs a b n := by
    split at form
    · obtain ⟨rfl, rfl, rfl, rfl, rfl, rfl, rfl, rfl⟩ := form
      exact ld_findsPlaces ..
    · obtain ⟨rfl, rfl, rfl, rfl, rfl, rfl, rfl, rfl⟩ := form
      exact st_findsPlaces ..
    · exact form.elim
  exact ⟨fun hp ha => finds.refused hp _ fun _ => resolveLanes_misaligned ha .., fun hp ha ho => finds.refused hp _ fun _ => resolveLanes_outside ha ho _,
    fun hw hm hc hf => finds.idle hw hm hc hf⟩

end Sys2Proof.Proofs
end

section
/-! PROOF. Ordered atomics bind to a phase, fences, prefetches and the invalidation of L1 (spec/04 R138, R151 to R156, spec/13 R405). -/

open Sys2Proof Sys2Proof.Machine Sys2Proof.Claims

namespace Sys2Proof.Proofs

/-! Ordered atomics -/

/-- A barrier number is its immediate. -/
theorem immOf_nat {e : BitVec 6} (h : e.toNat < 16) : immOf (.imm e) = (e.toNat : Int) := BitVec.toInt_eq_toNat_of_lt (by omega)

theorem checkBarrier_immediate {s : State} {w : Nat} {sc : Scope} {e : BitVec 6} (he : e.toNat < 16)
    (h : namesBarrier s w sc (BitVec.ofNat 4 e.toNat)) : checkBarrier s w sc e.toNat = .ok () := by
  have names := checkBarrier_of h
  rwa [BitVec.toNat_ofNat, Nat.mod_eq_of_lt he] at names

/-! L1 -/

theorem l1Clear_l1 (s : State) (c : Nat) : ((s.l1Clear c).core c).l1 = [] := by
  unfold State.l1Clear
  split
  · rename_i h
    exact List.isEmpty_iff.1 h
  · rename_i h
    by_cases hc : c < s.cores.length
    · rw [core_modCore_same s c _ hc]
    · have gone : s.core c = default := by rw [State.core, List.getD_eq_default _ _ (by omega)]
      exact (h (by rw [gone]; rfl)).elim

/-! Prefetches -/

/-- What translations do to the state: they write bytes of page tables, which are lost no more, and cache entries in the dies. -/
def OnlyPages (s t : State) : Prop := ∃ m l d, t = { s with mem := m, lost := l, dies := d }

theorem OnlyPages.refl (s : State) : OnlyPages s s := ⟨_, _, _, rfl⟩

theorem OnlyPages.trans {s t u : State} (h : OnlyPages s t) (k : OnlyPages t u) : OnlyPages s u := by
  obtain ⟨m, l, d, rfl⟩ := h
  obtain ⟨m', l', d', rfl⟩ := k
  exact ⟨m', l', d', rfl⟩

theorem OnlyPages.groups {s t : State} (h : OnlyPages s t) : t.groups = s.groups := by
  obtain ⟨m, l, d, rfl⟩ := h
  rfl

theorem markLeaf_onlyPages (s : State) (pa : Nat) (e : Pte) (b : Bool) : OnlyPages s (s.markLeaf pa e b) := by
  unfold State.markLeaf
  extract_lets raw
  split
  · exact .refl s
  · exact ⟨_, _, _, rfl⟩

theorem useLeaf_onlyPages {s t : State} {d p c va pa level out : Nat} {want : Want} {e : Pte}
    (h : s.useLeaf d p c va want pa level e = .ok (t, out)) : OnlyPages s t := by
  unfold State.useLeaf at h
  dsimp only at h
  split at h
  · cases h
  · cases h
    exact (markLeaf_onlyPages ..).trans ⟨_, _, _, rfl⟩

/-- A translation is a cached one, which changes nothing, or a walk's. -/
theorem translate_cases {s t : State} {d p c va out : Nat} {want : Want} (h : s.translate d p c va want = .ok (t, out)) :
    t = s ∨ ∃ pa level e, s.useLeaf d p c va want pa level e = .ok (t, out) := by
  unfold State.translate at h
  extract_lets walked at h
  have leaf : walked = .ok (t, out) → ∃ pa level e, s.useLeaf d p c va want pa level e = .ok (t, out) := by
    intro hu
    unfold walked at hu
    split at hu
    · cases hu
    · cases hu
    · exact ⟨_, _, _, hu⟩
    · cases hu
    · cases hu
  split at h
  · exact .inr (leaf h)
  cases hu : walked with
  | ok r =>
    rw [hu] at h leaf
    dsimp only at h
    split at h
    · cases h; exact .inl rfl
    split at h
    · cases h; exact .inl rfl
    · exact .inr (leaf h)
  | error f =>
    rw [hu] at h
    dsimp only at h
    split at h
    · cases h; exact .inl rfl
    · cases h

theorem translate_onlyPages {s t : State} {d p c va out : Nat} {want : Want} (h : s.translate d p c va want = .ok (t, out)) : OnlyPages s t := by
  obtain rfl | ⟨pa, level, e, hu⟩ := translate_cases h
  · exact .refl t
  · exact useLeaf_onlyPages hu

theorem walkLane_onlyPages (w : Nat) (want : Want) (r : Walked) (q : Nat × Nat) : OnlyPages r.s (walkLane w want r q).s := by
  unfold walkLane
  dsimp only
  split
  · exact .refl _
  · split
    · exact translate_onlyPages ‹_›
    all_goals exact .refl _

theorem walk_onlyPages (w : Nat) (want : Want) (l : List (Nat × Nat)) (r : Walked) : OnlyPages r.s (l.foldl (walkLane w want) r).s := by
  induction l generalizing r with
  | nil => exact .refl _
  | cons q t ih => exact (walkLane_onlyPages w want r q).trans (ih _)

/-- Where the translations of lanes write nothing to memory, neither does their walk. -/
theorem walk_mem {w : Nat} {want : Want} {l : List (Nat × Nat)} {x : WaveId} (ht : ∀ q ∈ l, ∀ (v : State) t,
    v.translate (v.waveDie w) x.part x.ctx q.2 want = .ok t → t.1.mem = v.mem) {r : Walked} (hr : (r.s.wave w).id = x) :
    (l.foldl (walkLane w want) r).s.mem = r.s.mem := by
  induction l generalizing r with
  | nil => rfl
  | cons q t ih =>
    have id : ((walkLane w want r q).s.wave w).id = x := by simp only [State.wave, walkLane_waves]; exact hr
    have one : (walkLane w want r q).s.mem = r.s.mem := by
      unfold walkLane
      dsimp only
      split
      · rfl
      · split
        · rename_i h
          rw [hr] at h
          exact ht q (List.mem_cons_self ..) _ _ h
        all_goals rfl
    exact (ih (fun e he => ht e (List.mem_cons_of_mem _ he)) id).trans one

/-- The lanes of a prefetch that reach translation. -/
abbrev fetchable (l : List (Nat × Nat)) : List (Nat × Nat) := l.filter fun q => q.2 % 4 == 0 && decide (q.2 < 2 ^ 57) && !inWindow q.2

/-- A prefetch leaves what its translations leave, but for lines of L1. -/
theorem LineFrame.prefetch {β : Type} {p : State → β} (h : LineFrame p) (s : State) (w : Nat) (l : List (Nat × Nat)) :
    p (Machine.prefetch s w l) = p ((fetchable l).foldl (walkLane w .load) { s := s }).s :=
  foldl_keeps p _ (fun t _ => foldl_keeps p _ (fun v _ => h.l1Fill v ..) _ t) _ _

/-! The instructions -/

section exec
variable {s : State} {w : Nat} (hw : s.running = some w)
include hw

theorem exec_fence {o : Order} {sc : Scope} (hrel : o = .rel ∨ o = .ar → s.aodPending w = false) (hh : s.storesHeld w = false) :
    let q := s.performAll w
    let q := if o = .rel ∨ o = .ar then q.modWave w fun x => { x with mem.interval := x.mem.interval + 1 } else q
    exec (.fence o sc) s = .next (completed s w
      (if (o = .acq ∨ o = .ar) ∧ sc ≠ .wave ∧ sc ≠ .core then q.l1Clear (q.wave w).id.core else q)) := by
  have releases : Order.releases o = true ↔ o = .rel ∨ o = .ar := by cases o <;> decide
  refine issue_completes hw ?_
  simp only [releaseWaits_of fun h => hrel (releases.1 h), demandSent_of hh, releases, acquiresWide_iff, eff_ok_bind, eff_pure]
  rfl

theorem exec_prf {g : Guards} {sc : Scope} {ev : BitVec 3} {a b : Opnd} (hc : checkOps s w [(a, .sv), (b, .onlyImm)] = .ok ())
    (hb : baseOk s w a = true) : exec (.prf g sc ev a b) s = .next (completed s w
      (if sc ≠ .wave ∧ sc ≠ .core ∨ s.l1Sectors (s.wave w).id.core = 0 ∨ (baseRegs a).any (poisonedOp s w) = true then s
        else prefetch s w (laneAddrs s w (activeMask s w g) a b 4))) := by
  have dropped : (Scope.wide sc || decide (s.l1Sectors (s.wave w).id.core = 0) || (baseRegs a).any (poisonedOp s w)) = true ↔
      sc ≠ .wave ∧ sc ≠ .core ∨ s.l1Sectors (s.wave w).id.core = 0 ∨ (baseRegs a).any (poisonedOp s w) = true := by
    simp [wide_eq, or_assoc]
  refine issue_completes hw ?_
  simp only [hc, demand_of hb, eff_ok_bind, eff_pure, dropped]

end exec

/-- Settles O25, instruction by instruction; a prefetch leaves what the walk of its lanes leaves, but for lines of L1. -/
theorem orderedAtomicsAndHintsComplete : Obligations.OrderedAtomicsAndHintsComplete := by
  intro s u w g o sc ev op d a c e wd t p m n regs id u' at_ r b
  refine ⟨fun hs he hb hp ht hl hu hreach => ?_, fun hw hs hd => issue_stalls hw (forced_staged hs hd _), fun hw hrel hh => exec_fence hw hrel hh,
    fun hw => ⟨issue_completes (f := fun w => .ok (s.l1Clear (s.wave w).id.core)) hw rfl, l1Clear_l1 .., ?_, ?_⟩, fun hw hc hb => ?_, fun h => ?_⟩
  · obtain ⟨hw, hm, hr, hc, hf, hd⟩ := hp
    have number : demand (decide (0 ≤ (e.toNat : Int))) 0x02#6 (opndAddr (.imm e)) = .ok () := demand_of (by simp) ..
    have whole : (p.at_.any fun q => r.brokenPlace w q.2.2) = false := List.any_eq_false.2 fun q hq => by
      obtain ⟨pa, hpa, hbr⟩ := hreach q hq
      rw [hpa, Bool.not_eq_true]
      exact beq_eq_false_iff_ne.2 hbr
    refine issue_completes hw ((forced_plain hs _).trans ?_)
    subst m n regs
    unfold aodAct
    simp only [hc, demand_of hf, immOf_nat he, number, Int.toNat_natCast, checkBarrier_immediate he hb, lanesActive_exec, mask_nonzero hm,
      roomFor_of hr, hd, ht, hl, hu, placeBytes_locs, eff_ok_bind, Bool.false_eq_true, if_false]
    exact if_neg (by rw [whole]; exact Bool.false_ne_true)
  · exact (lineFrame_of fun _ _ => rfl).l1Clear (p := State.mem) ..
  · exact (lineFrame_of fun _ _ => rfl).l1Clear (p := State.waves) ..
  · intro l walked
    refine ⟨_, exec_prf hw hc hb, ?_⟩
    by_cases hn : sc ≠ .wave ∧ sc ≠ .core ∨ s.l1Sectors (s.wave w).id.core = 0 ∨ (baseRegs a).any (poisonedOp s w) = true
    · rw [if_pos hn]
      exact ⟨rfl, rfl, fun _ => rfl, fun h => (h hn).elim, fun _ => rfl⟩
    · rw [if_neg hn]
      have mem := (lineFrame_of fun _ _ => rfl).prefetch (p := State.mem) s w (laneAddrs s w m a (.imm e) 4)
      refine ⟨?_, ?_, fun h => (hn h).elim, fun _ => mem, fun ht => mem.trans (walk_mem (x := (s.wave w).id) ht rfl)⟩
      · rw [(lineFrame_of fun _ _ => rfl).prefetch (p := State.waves), walk_waves]
      · rw [(lineFrame_of fun _ _ => rfl).prefetch (p := State.groups), (walk_onlyPages ..).groups]
  · show execFaultReplay w s = _
    exact event_of (by rw [h]; rfl) rfl

end Sys2Proof.Proofs
end

section
/-! PROOF. Monitor waits: an evaluation, what it comes to in either copy, and the two events that end a stall (spec/04 R157 to R160, R163,
R177, spec/05 R195, spec/14 R432, spec/15 R451, R456). -/

open Sys2Proof Sys2Proof.Machine Sys2Proof.Claims

namespace Sys2Proof.Proofs

/-! One evaluation -/

/-- The state in which an evaluation reads its place at the home point. -/
def atHome (k : WaitForm) (h : State) (w : Nat) (pas : List Nat) : State :=
  (h.l1Drop (h.wave w).id.core ((pas.map (· / 32)).eraseDups)).l1Load w k.sc false pas

/-- The trap that an evaluation comes to: of a broken link, of lost data, of a stamp's status. -/
def waitTrap (k : WaitForm) (v : State) (w : Nat) (va : Word) (l : Loc) (broken : Bool) : Option (BitVec 6 × Word) :=
  if broken then some (0x12#6, 0#64)
  else if v.lostPlace w l k.bytes then some (0x10#6, va)
  else if k.stamp && v.waveLe w l k.bytes / 2 ^ 48 % 256 != 0 then some (0x12#6, BitVec.ofNat 64 (v.waveLe w l k.bytes))
  else none

/-- The condition of R158, on the bits that count. -/
theorem holds_eq (k : WaitForm) (m x : Nat) : k.holds m x =
    (let bits := if k.stamp then 48 else 8 * k.bytes
     (m % 2 ^ bits, match k.cc with
      | .eq => decide (m % 2 ^ bits = x % 2 ^ bits)
      | .ne => decide (m % 2 ^ bits ≠ x % 2 ^ bits)
      | .geu => decide (x % 2 ^ bits ≤ m % 2 ^ bits))) := by
  unfold WaitForm.holds
  cases k.cc with
  | eq => rfl
  | ne => exact Prod.ext rfl (decide_not (p := m % 2 ^ _ = x % 2 ^ _)).symm
  | geu => rfl

/-- An evaluation whose access the race detector lets pass. -/
theorem evaluate_of {k : WaitForm} {s v h u v1 : State} {w m : Nat} {x : Word} {l : Loc} {p : Bool} {t : Option (BitVec 6 × Word)}
    (hx : uni1 s w k.c = .ok x) (ha : (k.addr s w).toNat % k.bytes = 0) (hp : placeOf s w (k.addr s w).toNat k.bytes .load = .ok (v, l))
    (hr : ∀ pa, l = .mem pa → v.reach (v.waveDie w) pa ≠ .hold) (hh : demandHome v w k.sc = .ok h)
    (hv : atHome k h w (placeBytes [l] k.bytes) = v1) (ht : waitTrap k v1 w (k.addr s w) l (v.brokenPlace w l) = t)
    (hm : k.holds (v1.waveLe w l k.bytes) x.toNat = (m, p))
    (hu : raceCheck v1 w { kind := .load, acq := Order.acquires k.o, rel := false, sc := k.sc, keep := t.isSome || !p }
      [(0, (k.addr s w).toNat, k.bytes)] = .ok u) :
    k.evaluate s w = .ok (u, { val := BitVec.ofNat 64 m, pred := p, trap := t }) := by
  subst hv ht
  obtain ⟨rfl, rfl⟩ := Prod.mk.inj hm
  have aligned : ((k.addr s w).toNat % k.bytes == 0) = true := beq_iff_eq.2 ha
  simp only [WaitForm.evaluate, hx, demand_of aligned, hp, eff_ok_bind]
  cases l with
  | sp o =>
    have here : (Reach.ok == Reach.hold) = false := rfl
    simp only [hh, here, eff_ok_bind, Bool.false_eq_true, if_false]
    exact eff_bind_ok.2 ⟨u, hu, rfl⟩
  | mem pa =>
    have here : (v.reach (v.waveDie w) pa == Reach.hold) = false := beq_eq_false_iff_ne.2 (hr pa rfl)
    simp only [hh, here, eff_ok_bind, Bool.false_eq_true, if_false]
    exact eff_bind_ok.2 ⟨u, hu, rfl⟩

/-! What an evaluation comes to -/

section settle
variable {k : WaitForm} {s q : State} {w : Nat} {f : Fwd} (hw : s.running = some w)
include hw

theorem settle_traps {t : BitVec 6 × Word} (hf : f.trap = some t) :
    issue s (fun w => k.settle q w f) = .next (q.trapped w { code := t.1, addr := t.2 }) :=
  issue_done hw (by simp only [WaitForm.settle, hf])

/-- The wait has ended: its monitor is released, an acquire at a scope wider than core has discarded the L1 of its core, and the S register
holds the value. -/
theorem settle_ends {n : BitVec 6} (hd : k.d = .s n) (hf : f.trap = none) (hp : f.pred = true) :
    issue s (fun w => k.settle q w f) = .next (completed s w
      (let q := q.modWave w Wave.disarm
       (if Order.acquires k.o && Scope.wide k.sc then q.l1Clear (q.wave w).id.core else q).modWave w fun z => z.setS n.toNat f.val)) :=
  issue_completes hw (by simp only [WaitForm.settle, hf, hp, hd]; rfl)

/-- The evaluation has failed: another path goes on, or the wave waits for a monitor or for its back-off. -/
theorem settle_waits (hf : f.trap = none) (hp : f.pred = false) :
    let y := if 2 ≤ (q.wave w).pathCount then (q.wave w).rotate else q.wave w
    issue s (fun w => k.settle q w f) = .next (if y.cur ≠ (q.wave w).cur then (q.pollOn w y).tick
      else ((q.armMonitor w (k.sector q w)).stallWave w .monitor).tick) := by
  intro y
  by_cases hy : y.cur ≠ (q.wave w).cur
  · rw [if_pos hy]
    refine issue_done hw ?_
    simp only [WaitForm.settle, hf, hp, Bool.false_eq_true, if_false]
    exact if_pos (bne_iff_ne.2 hy)
  · rw [if_neg hy]
    refine issue_stalls hw ?_
    simp only [WaitForm.settle, hf, hp, Bool.false_eq_true, if_false]
    exact if_neg (by rw [bne_iff_ne]; exact hy)

end settle

/-! Paths of a wave that waits -/

theorem select_id {x y : Wave} {k : Nat} (h : x.select k = some y) : y.id = x.id := by
  unfold Wave.select at h
  dsimp only at h
  split at h
  · cases h; rfl
  · cases h; rfl
  · obtain ⟨i, -, rfl⟩ := Option.map_eq_some_iff.1 h
    rfl

theorem rotate_id (x : Wave) : x.rotate.id = x.id := by
  unfold Wave.rotate
  dsimp only
  cases h : (x.modPath x.cur fun p => { p with st := .pend }).select x.cur with
  | none => rfl
  | some y => exact (select_id h).trans (modPath_id ..)

theorem rotated_id (x : Wave) : (if 2 ≤ x.pathCount then x.rotate else x).id = x.id := by
  split
  · exact rotate_id x
  · rfl

/-- Another path of the wave has taken an issue slot, and in normal mode an aged wave of the core may issue. -/
theorem pollOn_eq (q : State) (w : Nat) {y : Wave} (hy : y.id = (q.wave w).id) : q.pollOn w y =
    (let core := (q.wave w).id.core
     let p := (q.setWave w y.disarm).modCore core fun k => { k with slots := k.slots + 1 }
     let aged := (p.wavesOf core).any fun v => v != w && (p.wave v).sch.stall.isNone && decide (4096 ≤ (p.core core).slots - (p.wave v).sch.readyAt)
     if (p.waveLaunch w).r.det = false ∧ aged = true then
       (p.modWave w fun k => { k with sch.y := true, sch.readyAt := (p.core core).slots }).switch core
     else p) := by
  have id : ((q.setWave w y.disarm).wave w).id = (q.wave w).id := wave_modWave_keeps (fun x => x.id) (f := fun _ => y.disarm) q w w hy
  extract_lets core p aged
  have slot : (q.setWave w y.disarm).pathSlot w = p := by rw [State.pathSlot, id]
  have same : (p.wave w).id.core = core := congrArg WaveId.core id
  have rival : p.agedRival w = aged := by rw [State.agedRival, same]
  have choice : p.choiceAt w = (p.modWave w fun k => { k with sch.y := true, sch.readyAt := (p.core core).slots }).switch core := by
    rw [State.choiceAt, same]
  rw [State.pollOn, slot, rival, choice]
  simp only [Bool.and_eq_true, Bool.not_eq_true']

/-- A failing wave's monitor is armed where its core's wait table has room. -/
theorem armMonitor_eq (q : State) (w : Nat) (e : Bool × Nat) : q.armMonitor w e = q.modWave w fun x =>
    if q.monitorRoom w then { x with mem.monitor := some e, mem.polled := none }
    else { x with mem.monitor := none, mem.polled := some (q.core (q.wave w).id.core).slots } := by
  unfold State.armMonitor
  dsimp only
  split <;> rfl

/-! The instruction in either copy -/

section copies
variable {s u : State} {w : Nat} {k : WaitForm} {f : Fwd} (hw : s.running = some w)
  (hc : checkOps s w [(k.d, .onlyS), (k.a, .onlyS), (k.b, .onlyImm), (k.c, .count)] = .ok ())
include hw hc

theorem mwait_primary (ht : (s.waveGroup w).copy ≠ .twin) (he : k.evaluate s w = .ok (u, f)) :
    exec (.mwait k.o k.sc k.d k.a k.b k.c k.stamp k.dbl k.cc) s = issue s fun w' => k.settle (told (s.wave w) u w f) w' f :=
  issue_same hw (by simp only [hc, eff_ok_bind]; exact forwarded_of ht he _)

theorem mwait_twin {rest : List Fwd} (ht : (s.waveGroup w).copy = .twin) (hn : nextTold (s.wave w) false f rest) (hf : f.trap = none) :
    exec (.mwait k.o k.sc k.d k.a k.b k.c k.stamp k.dbl k.cc) s = issue s fun w' => k.settle (took s w rest) w' f :=
  issue_same hw (by simp only [hc, eff_ok_bind]; exact forwarded_twin ht hn hf _ _)

end copies

/-! The two events -/

section events
variable {s : State} {w : Nat} (hs : (s.wave w).sch.stall = some .monitor)
include hs

theorem exec_monitorFire (hm : (s.wave w).mem.monitor.isSome = true) : exec (.monitorFire w) s = .next (s.unstall w).tick := by
  show execMonitorFire w s = _
  exact event_of (by rw [hs, hm]; rfl) rfl

theorem exec_mwaitBackOff {k : Nat} (hk : (s.wave w).mem.polled = some k) : exec (.mwaitBackOff w) s =
    .next (if k + 64 ≤ (s.core (s.wave w).id.core).slots then (s.unstall w).tick else s) := by
  show execMwaitBackOff w s = _
  unfold execMwaitBackOff
  rw [hs, hk]
  by_cases due : k + 64 ≤ (s.core (s.wave w).id.core).slots
  · rw [if_pos due]
    exact event_of (decide_eq_true due) rfl
  · rw [if_neg due]
    exact if_neg fun h => due (of_decide_eq_true h)

end events

/-- Settles O26: an evaluation, and what it comes to in the copy that makes it and in the one that is told. -/
theorem mwaitCompletes : Obligations.MwaitCompletes := by
  intro s v h u w o sc n a e c stamp dbl cc x l i size addr va pas v1 bits m y holds reads broken trap access done_ fails
  let k : WaitForm := { o, sc, d := .s n, a := .s a, b := .imm e, c, stamp, dbl, cc }
  have ends (q : State) {f : Fwd} (hw : s.running = some w) (hf : f.trap = none) (hp : f.pred = true) :
      issue s (fun w => k.settle q w f) = .next (done_ q f.val) := by
    rw [settle_ends hw rfl hf hp]
    simp only [acquiresWide_iff]
    rfl
  have waits (q : State) {f : Fwd} (hw : s.running = some w) (hf : f.trap = none) (hp : f.pred = false) :
      issue s (fun w => k.settle q w f) = .next (fails q) := by
    rw [settle_waits hw hf hp, pollOn_eq q w (rotated_id _), armMonitor_eq]
    rfl
  have tells {keep p : Bool} {t : Option (BitVec 6 × Word)} (hr : reads) (hc : (s.waveGroup w).copy ≠ .twin) (ht : trap = t) (hp : holds = p)
      (hk : keep = (t.isSome || !p)) (hu : access keep = .ok u) : exec i s = issue s fun w' =>
        k.settle (told (s.wave w) u w { val := BitVec.ofNat 64 m, pred := p, trap := t }) w' { val := BitVec.ofNat 64 m, pred := p, trap := t } := by
    obtain ⟨hw, hops, hx, ha, hplace, hreach, hhome⟩ := hr
    subst ht hp hk
    have bytes : placeBytes [l] k.bytes = pas := List.flatMap_singleton ..
    have value : k.holds (v1.waveLe w l size) x.toNat = (m, holds) := holds_eq ..
    have word : BitVec.ofNat 64 va = k.addr s w := (BitVec.ofNat_toNat ..).trans (BitVec.setWidth_eq _)
    have traps : waitTrap k v1 w (k.addr s w) l (v.brokenPlace w l) = trap := by
      rw [waitTrap, ← word]
      rfl
    exact mwait_primary (k := k) hw hops hc (evaluate_of (k := k) hx ha hplace hreach hhome (by rw [bytes]; rfl) traps value hu)
  refine ⟨fun hr hc ht hh hu => ?_, fun hr hc ht hh hu => ?_, fun q hr hc ht hu => ?_, fun f rest hw hops hc hn hf => ?_, ?_⟩
  · exact (tells hr hc ht hh rfl hu).trans (ends _ hr.1 rfl rfl)
  · exact (tells hr hc ht hh rfl hu).trans (waits _ hr.1 rfl rfl)
  · rw [ht]
    exact (tells hr hc ht rfl rfl hu).trans (settle_traps hr.1 rfl)
  · refine (mwait_twin (k := k) hw hops hc hn hf).trans ?_
    cases hp : f.pred with
    | true => exact ends _ hw hf hp
    | false => exact waits _ hw hf hp
  · exact fun hs => ⟨fun hm => exec_monitorFire hs hm, fun k hk => exec_mwaitBackOff hs hk⟩

end Sys2Proof.Proofs
end

section
/-! PROOF. Divergence: branches that land, regions that open, and paths that end or go on (spec/05 R186 to R195). -/

open Sys2Proof Sys2Proof.Machine Sys2Proof.Claims

namespace Sys2Proof.Proofs

/-! What an instruction that sets the position itself comes to -/

section jump
variable {s u y : State} {w : Nat} {f : Nat → Eff State} (hw : s.running = some w)
include hw

theorem issueJump_lands (h : f w = .ok u) : issueJump s f = .next (jumped s w u) := by
  have still : u.modWave w id = u := setWave_wave u w
  rw [issueJump, issueWith_ok id hw h, still]; rfl

theorem issueJump_traps {t : TrapReq} (h : f w = .error (.trap t)) : issueJump s f = .next (s.trapped w t) := issueWith_trap id hw h

end jump

/-! Branches -/

/-- A branch that may be taken is taken. -/
theorem branchTo_lands {s : State} {w : Nat} {t : Word} (h : mayBranch s w t) : branchTo s w t id = .ok (landed (s.wave w) w t s) := by
  obtain ⟨aligned, allowed⟩ := h
  have straight : (t.extractLsb' 0 3 == 0#3) = true := beq_iff_eq.2 aligned
  unfold landed
  extract_lets r u
  rw [branchTo, demand_of straight, eff_ok_bind]
  by_cases forward : (s.wave w).hdr.toNat < t.toNat
  · rw [if_pos forward, if_pos forward]
    rfl
  · have calm : ((s.waveLaunch w).r.det && decide (2 ^ 20 ≤ (s.wave w).sch.backward + 1)) = false := by
      rw [Bool.and_eq_false_iff, decide_eq_false_iff_not]
      exact (allowed.resolve_left forward).imp_right Nat.not_le.2
    have moved : (r.wave w).id = (s.wave w).id := wave_modWave_keeps Wave.id s w w (goto_id ..)
    have core : (u.wave w).id = (s.wave w).id := by
      rw [← moved]
      exact wave_modWave_keeps Wave.id r w w (rotate_id _)
    have turned : (if (u.wave w).cur == (s.wave w).cur then u else u.pathSlot w) =
        if (u.wave w).cur = (s.wave w).cur then u else u.modCore (s.wave w).id.core fun k => { k with slots := k.slots + 1 } := by
      rw [State.pathSlot, core]
      simp only [beq_iff_eq]
    rw [if_neg forward, if_neg forward, if_neg (by rw [calm]; exact Bool.false_ne_true), ← turned]
    rfl

/-! Splits -/

theorem split_full {x : Wave} (h : x.freeRegion = none ∨ x.freePath = none) (t ra : Word) (mt mf : Mask) : x.split t ra mt mf = none := by
  unfold Wave.split
  split
  next hq hi => rw [hq, hi] at h; simp at h
  · rfl

section dbr
variable {s : State} {w : Nat} {t rc : BitVec 16} {pg : Guard}

theorem dbrAct_none_fails (no : (s.wave w).exec &&& ~~~ guardBits pg (readP s w 0 pg.p) = 0) :
    dbrAct t rc pg s w = branchTo s w ((s.wave w).target t.toInt) id := if_pos (beq_iff_eq.2 no)

variable (no : (s.wave w).exec &&& ~~~ guardBits pg (readP s w 0 pg.p) ≠ 0)
include no

theorem dbrAct_all_fail (yes : (s.wave w).exec &&& guardBits pg (readP s w 0 pg.p) = 0) :
    dbrAct t rc pg s w = branchTo s w (s.wave w).fallThrough id :=
  (if_neg (by simpa using no)).trans (if_pos (beq_iff_eq.2 yes))

theorem dbrAct_some_fail (yes : (s.wave w).exec &&& guardBits pg (readP s w 0 pg.p) ≠ 0) :
    dbrAct t rc pg s w = match (s.wave w).split ((s.wave w).target t.toInt) ((s.wave w).target rc.toInt)
        ((s.wave w).exec &&& guardBits pg (readP s w 0 pg.p)) ((s.wave w).exec &&& ~~~ guardBits pg (readP s w 0 pg.p)) with
      | some y => .ok (s.setWave w y)
      | none => raise 0x1D#6 :=
  (if_neg (by simpa using no)).trans (if_neg (by simpa using yes))

end dbr

/-! Paths that end -/

/-- The next path runs, or the drained wave ends. -/
theorem pathGone_next {s r : State} {w : Nat} {y : Wave} (h : nextPath s w y = some r) : pathGone s w y = .ok r := by
  unfold nextPath at h
  unfold pathGone
  cases hp : y.pathEnded y.cur with
  | some z => rw [hp] at h; cases h; rfl
  | none =>
    rw [hp] at h
    dsimp only at h
    split at h
    next drained => cases h; rw [endNow, demandDrained, if_pos drained]; rfl
    · cases h

section ends
variable {s r : State} {w : Nat} {x : Wave} {g : Guards} {t : BitVec 16} {n : BitVec 4} (hw : s.running = some w) (hx : s.wave w = x)
include hw hx

theorem exec_join_root (hr : x.path.reg = root) : exec .join s = .next (s.trapped w { code := 0x01#6 }) := by
  refine issueJump_traps hw ?_
  subst hx
  exact demand_stops (by simp [hr]) ..

theorem exec_join (hr : x.path.reg ≠ root)
    (h : nextPath s w (x.modRegion x.path.reg fun e => { e with arr := e.arr ||| x.exec, live := e.live &&& ~~~ x.exec }) = some r) :
    exec .join s = .next (jumped s w r) := by
  refine issueJump_lands hw ?_
  subst hx
  simp only [demand_of (bne_iff_ne.2 hr), eff_ok_bind]
  exact pathGone_next h

theorem exec_brk_none (hm : activeMask s w g = 0) :
    exec (.brk g t n) s = .next (jumped s w (s.setWave w (x.goto (after x)))) := by
  refine issueJump_lands hw ?_
  subst hx
  exact if_pos (beq_iff_eq.2 hm)

theorem exec_exitl_none (hm : activeMask s w g = 0) :
    exec (.exitl g) s = .next (jumped s w (s.setWave w (x.goto (after x)))) := by
  refine issueJump_lands hw ?_
  subst hx
  exact if_pos (beq_iff_eq.2 hm)

section brk
variable {z : Wave} {i : Nat} (hm : activeMask s w g ≠ 0) (deep : n.toNat ≤ (x.chain 33 x.path.reg).length)
  (hz : (leaveRegions (activeMask s w g) x ((x.chain 33 x.path.reg).take n.toNat)).pendLanes (x.hdr + BitVec.ofInt 64 (8 * t.toInt))
    (((x.chain 33 x.path.reg).drop n.toNat).headD root) (activeMask s w g) = some (z, i))
include hm deep hz

theorem exec_brk_some_stay (stay : x.exec &&& ~~~ activeMask s w g ≠ 0) : exec (.brk g t n) s = .next (jumped s w (s.setWave w
    ((z.modPath x.cur fun p => { p with mask := x.exec &&& ~~~ activeMask s w g }).goto (after x)))) := by
  refine issueJump_lands hw ?_
  subst hx
  unfold leaveRegions at hz
  simp only [mask_nonzero hm, demand_of (decide_eq_true deep), Wave.target, hz, bne_iff_ne.2 stay, eff_ok_bind, eff_pure, Bool.false_eq_true, if_false,
    if_true]
  rfl

theorem exec_brk_none_stay (gone : x.exec &&& ~~~ activeMask s w g = 0) (h : nextPath s w z = some r) :
    exec (.brk g t n) s = .next (jumped s w r) := by
  refine issueJump_lands hw ?_
  subst hx
  unfold leaveRegions at hz
  simp only [mask_nonzero hm, demand_of (decide_eq_true deep), Wave.target, hz, gone, bne_self_eq_false, eff_ok_bind, Bool.false_eq_true, if_false]
  exact pathGone_next h

end brk

section exitl
variable {y : Wave} (hm : activeMask s w g ≠ 0)
  (hy : leaveRegions (activeMask s w g) { x with lc.exited := x.lc.exited ||| activeMask s w g } (x.chain 33 x.path.reg) = y)
include hm hy

theorem exec_exitl_last (dead : y.live = 0) (drained : s.drainedWave w = true) :
    exec (.exitl g) s = .next (jumped s w ((s.setWave w y).leave w)) := by
  refine issueJump_lands hw ?_
  subst hx
  unfold leaveRegions at hy
  simp only [mask_nonzero hm, hy, dead, beq_self_eq_true, demandDrained, drained, eff_ok_bind, eff_pure, Bool.false_eq_true, if_false, if_true]

theorem exec_exitl_some_stay (live : y.live ≠ 0) (stay : x.exec &&& ~~~ activeMask s w g ≠ 0) :
    exec (.exitl g) s = .next (jumped s w (s.setWave w
      ((y.modPath x.cur fun p => { p with mask := x.exec &&& ~~~ activeMask s w g }).goto (after x)))) := by
  refine issueJump_lands hw ?_
  subst hx
  unfold leaveRegions at hy
  simp only [mask_nonzero hm, hy, mask_nonzero live, bne_iff_ne.2 stay, eff_pure, Bool.false_eq_true, if_false, if_true]
  rfl

theorem exec_exitl_none_stay (live : y.live ≠ 0) (gone : x.exec &&& ~~~ activeMask s w g = 0) (h : nextPath s w y = some r) :
    exec (.exitl g) s = .next (jumped s w r) := by
  refine issueJump_lands hw ?_
  subst hx
  unfold leaveRegions at hy
  simp only [mask_nonzero hm, hy, mask_nonzero live, gone, bne_self_eq_false, Bool.false_eq_true, if_false]
  exact pathGone_next h

end exitl

end ends

/-- Settles O14, instruction by instruction, along the lanes that an instruction selects. -/
theorem divergenceCompletes : Obligations.DivergenceCompletes := by
  intro s w t rc pg g n hw x m to_ ends
  refine ⟨⟨fun no may => ?_, fun no yes may => ?_, fun no yes => ⟨fun q i hq hi => ?_, fun full => ?_⟩⟩, exec_join_root hw rfl,
    fun hr r h => exec_join hw rfl hr h, fun hm => ⟨exec_brk_none hw rfl hm, exec_exitl_none hw rfl hm⟩, fun hm deep z i hz => ⟨?_, ?_⟩,
    fun hm dead drained => exec_exitl_last hw rfl hm rfl dead drained, fun hm live stay => exec_exitl_some_stay hw rfl hm rfl live stay,
    fun hm live gone r h => exec_exitl_none_stay hw rfl hm rfl live gone h⟩
  · exact issueJump_lands hw ((dbrAct_none_fails no).trans (branchTo_lands may))
  · exact issueJump_lands hw ((dbrAct_all_fail no yes).trans (branchTo_lands may))
  · refine issueJump_lands hw ((dbrAct_some_fail no yes).trans ?_)
    rw [Wave.split, hq, hi]
    rfl
  · refine issueJump_traps hw ((dbrAct_some_fail no yes).trans ?_)
    rw [split_full full]
    rfl
  · exact exec_brk_some_stay hw rfl hm deep hz
  · exact fun gone r h => exec_brk_none_stay hw rfl hm deep hz gone h

end Sys2Proof.Proofs
end

section
/-! PROOF. Arrival at member-set instructions: the set is complete, cannot be, or the path waits and another one runs (spec/05 R186, R197
to R200). -/

open Sys2Proof Sys2Proof.Machine Sys2Proof.Claims

namespace Sys2Proof.Proofs

/-! Select -/

/-- Another record than `k` has become current; it may have been marked as one whose set no path can complete. -/
def Switched (x : Wave) (k : Nat) (y : Wave) : Prop :=
  ∃ i z, i ≠ k ∧ i < x.lc.paths.length ∧ (z = x ∨ z = x.modPath i fun p => { p with due := some (p.pos, false) }) ∧ y = z.makeCurrent i

section switched
variable {x y : Wave} {k : Nat} (h : Switched x k y)
include h

theorem switched_record : y.lc.paths.getD k PathRec.none = x.lc.paths.getD k PathRec.none := by
  obtain ⟨i, z, ne, -, rfl | rfl, rfl⟩ := h <;>
    simp [Wave.makeCurrent, Wave.modPath, Wave.setPath, List.getD, List.getElem?_set_ne ne]

theorem switched_runs : ∃ i, i ≠ k ∧ (y.lc.paths.getD i PathRec.none).st = .run := by
  obtain ⟨i, z, ne, lt, rfl | rfl, rfl⟩ := h <;>
    exact ⟨i, ne, by simp [Wave.makeCurrent, Wave.modPath, Wave.setPath, lt]⟩

theorem switched_keeps : y.v = x.v ∧ y.s = x.s ∧ y.preds = x.preds ∧ y.mem = x.mem ∧ y.lc.regions = x.lc.regions := by
  obtain ⟨i, z, -, -, rfl | rfl, rfl⟩ := h <;> exact ⟨rfl, rfl, rfl, rfl, rfl⟩

end switched

section select
variable {x : Wave} {k : Nat}

/-- The indices of the PEND records, ascending. -/
theorem mem_pending {i : Nat} : i ∈ (List.range x.lc.paths.length).filter (fun i => (x.lc.paths.getD i PathRec.none).st == .pend) ↔
    i < x.lc.paths.length ∧ (x.lc.paths.getD i PathRec.none).st = .pend := by
  simp only [List.mem_filter, List.mem_range, beq_iff_eq]

/-- A PEND path becomes current before any that waits. -/
theorem select_pend (waits : (x.lc.paths.getD k PathRec.none).st = .mwait) (h : ∃ p ∈ x.lc.paths, p.st = .pend) :
    ∃ y, x.select k = some y ∧ Switched x k y := by
  have chosen : ∀ {i}, i ∈ (List.range x.lc.paths.length).filter (fun i => (x.lc.paths.getD i PathRec.none).st == .pend) →
      Switched x k (x.makeCurrent i) := fun {i} hi => by
    obtain ⟨lt, pend⟩ := mem_pending.1 hi
    refine ⟨i, x, fun e => ?_, lt, .inl rfl, rfl⟩
    rw [← e, pend] at waits
    cases waits
  unfold Wave.select
  dsimp only
  split
  next i hf => exact ⟨_, rfl, chosen (List.mem_of_find?_eq_some hf)⟩
  next i l _ hl => exact ⟨_, rfl, chosen (hl ▸ List.mem_cons_self ..)⟩
  next hl =>
    obtain ⟨p, hp, pend⟩ := h
    obtain ⟨i, lt, rfl⟩ := List.mem_iff_getElem.1 hp
    exact absurd (mem_pending.2 ⟨lt, by rwa [List.getD_eq_getElem _ _ lt]⟩) (hl ▸ List.not_mem_nil)

/-- With no PEND path the lowest one that waits becomes current. -/
theorem select_mwait (no : ∀ p ∈ x.lc.paths, p.st ≠ .pend) (h : ∃ p ∈ x.lc.paths.take k, p.st = .mwait) :
    ∃ y, x.select k = some y ∧ Switched x k y := by
  have none_pend : (List.range x.lc.paths.length).filter (fun i => (x.lc.paths.getD i PathRec.none).st == .pend) = [] :=
    List.eq_nil_iff_forall_not_mem.2 fun i hi => by
      obtain ⟨lt, pend⟩ := mem_pending.1 hi
      rw [List.getD_eq_getElem _ _ lt] at pend
      exact no _ (List.getElem_mem lt) pend
  obtain ⟨p, hp, waits⟩ := h
  obtain ⟨j, lt, rfl⟩ := List.mem_iff_getElem.1 hp
  rw [List.length_take, lt_min_iff] at lt
  rw [List.getElem_take] at waits
  cases hf : x.lc.paths.findIdx? fun p => p.st == .mwait with
  | none => exact absurd (beq_iff_eq.2 waits) (Bool.not_eq_true _ ▸ List.findIdx?_eq_none_iff.1 hf _ (List.getElem_mem lt.2))
  | some i =>
    obtain ⟨li, -, first⟩ := List.findIdx?_eq_some_iff_getElem.1 hf
    have le : i ≤ j := not_lt.1 fun lj => first j lj (beq_iff_eq.2 waits)
    refine ⟨_, ?_, i, _, (le.trans_lt lt.1).ne, li, .inr rfl, rfl⟩
    unfold Wave.select
    dsimp only
    rw [none_pend, hf]
    rfl

end select

/-! The path waits -/

section waits
variable {x : Wave} {v : Word} (hc : x.cur < x.lc.paths.length)
include hc

theorem cur_runs : x.path.st = .run := by
  have run := List.findIdx_getElem (p := fun p : PathRec => p.st == .run) (w := hc)
  rw [Wave.path, List.getD_eq_getElem _ _ hc]
  exact beq_iff_eq.1 run

/-- The wave with its current path waiting for the set `v`. -/
abbrev Wave.arrived (x : Wave) (v : Word) : Wave := x.setPath x.cur { x.path with st := .mwait, mset := v }

theorem arrived_record : (Wave.arrived x v).lc.paths.getD x.cur PathRec.none = { x.path with st := .mwait, mset := v } := by
  simp [Wave.setPath, hc]

/-- A path waits where a PEND one is left, or one that waits at a lower index: another path becomes current. -/
theorem arrived_switches (hope : ((x.lc.paths.any fun p => p.st == .pend) || ((x.lc.paths.take x.cur).any fun p => p.st == .mwait)) = true) :
    ∃ y, (Wave.arrived x v).select x.cur = some y ∧ Switched (Wave.arrived x v) x.cur y := by
  have waits : ((Wave.arrived x v).lc.paths.getD x.cur PathRec.none).st = .mwait := by rw [arrived_record hc]
  by_cases pend : ∃ p ∈ (Wave.arrived x v).lc.paths, p.st = .pend
  · exact select_pend waits pend
  · have none_left : ∀ p ∈ x.lc.paths, p.st ≠ .pend := fun p hp hs => by
      obtain ⟨j, lt, rfl⟩ := List.mem_iff_getElem.1 hp
      have ne : x.cur ≠ j := fun e => by
        have run := cur_runs hc
        rw [Wave.path, List.getD_eq_getElem _ _ hc] at run
        simp [e, hs] at run
      exact pend ⟨_, List.mem_iff_getElem.2 ⟨j, by simpa [Wave.setPath] using lt, List.getElem_set_ne ne _⟩, hs⟩
    refine select_mwait (by simpa using pend) ?_
    have lower := hope
    rw [List.any_eq_false.2 fun p hp => by simpa using none_left p hp, Bool.false_or, List.any_eq_true] at lower
    simpa [Wave.setPath, List.take_set_of_le] using lower

end waits

/-! The four outcomes of an arrival -/

section gather
variable {s : State} {w : Nat} {v : Word} {x : Wave} (hx : s.wave w = x)
include hx

theorem gather_abandoned (due : x.path.due = some (x.pos, false)) : gather s w v = .error (.trap { code := 0x08#6, addr := x.path.mset }) := by
  subst hx
  exact if_pos (beq_iff_eq.2 due)

variable (due : x.path.due ≠ some (x.pos, false))
include due

theorem gather_refused (bad : x.members v &&& x.lc.exited ≠ 0 ∨ x.exec &&& ~~~ x.members v ≠ 0 ∨
    (x.waiters.any fun i => x.members (x.lc.paths.getD i PathRec.none).mset != x.members v) = true) :
    gather s w v = .error (.trap { code := 0x08#6, addr := v }) := by
  subst hx
  exact (if_neg (by simpa using due)).trans (if_pos (by simpa [or_assoc] using bad))

variable (good : (x.members v &&& x.lc.exited != 0 || x.exec &&& ~~~ x.members v != 0 ||
    x.waiters.any fun i => x.members (x.lc.paths.getD i PathRec.none).mset != x.members v) = false)
include good

/-- An arrival that is in order: the set is complete, or it cannot be, or the path waits. -/
theorem gather_accepted : gather s w v =
    let all := x.waiters.foldl (fun acc i => acc ||| (x.lc.paths.getD i PathRec.none).mask) x.exec
    if x.members v &&& ~~~ all = 0 then .ok all
    else if ((x.lc.paths.any fun p => p.st == .pend) || ((x.lc.paths.take x.cur).any fun p => p.st == .mwait)) = false then
      .error (.trap { code := 0x08#6, addr := v })
    else .error (.done ((s.setWave w (((Wave.arrived x v).select x.cur).getD x)).pathSlot w).tick) := by
  subst hx
  refine (if_neg (by simpa using due)).trans ((if_neg (by rw [good]; exact Bool.false_ne_true)).trans ?_)
  simp only [beq_iff_eq, ← Bool.not_or, Bool.not_eq_true']
  rfl

end gather

/-- Settles O15: the outcomes of `gather`; where the path waits, Select finds another one. -/
theorem memberSetsGather : Obligations.MemberSetsGather := by
  intro s w v hw _ hc x m all other hope
  refine ⟨gather_abandoned rfl, fun due => ⟨gather_refused rfl due, fun exited inside same => ?_⟩⟩
  have good : (x.members v &&& x.lc.exited != 0 || x.exec &&& ~~~ x.members v != 0 || other) = false := by
    rw [same, Bool.or_false, Bool.or_eq_false_iff]
    exact ⟨bne_eq_false_iff_eq.2 exited, bne_eq_false_iff_eq.2 inside⟩
  have outcome := gather_accepted rfl due good
  refine ⟨fun covered => outcome.trans (if_pos covered), fun open_ lost => outcome.trans ((if_neg open_).trans (if_pos lost)), fun open_ left => ?_⟩
  obtain ⟨y, selected, switched⟩ := arrived_switches (v := v) hc left
  have waits : gather s w v = .error (.done ((s.setWave w y).pathSlot w).tick) := by
    refine outcome.trans ((if_neg open_).trans ((if_neg ?_).trans ?_))
    · exact Bool.not_eq_false _ ▸ left
    · rw [selected]; rfl
  have kept := switched_keeps switched
  exact ⟨y, selected, waits, (switched_record switched).trans (arrived_record hc), switched_runs switched, kept⟩

end Sys2Proof.Proofs
end

section
/-! PROOF. Votes, permutes and scans: they gather their member set, then give their results to the participants (spec/05 R201 to R205). -/

open Sys2Proof Sys2Proof.Machine Sys2Proof.Claims

namespace Sys2Proof.Proofs

/-! The shape of a member-set instruction -/

/-- The set that a path names with `v`, as the statements write it. -/
theorem named_eq (x : Wave) (v : Word) : x.named v = if x.path.due = some (x.pos, true) then x.path.mset else v := by
  simp only [Wave.named, beq_iff_eq]

section members
variable {i : Instr} {s r : State} {w : Nat} {v : Word} {f : Nat → Eff State} {checks : List (Opnd × Accept)} {rest : Mask → Eff State}
  (hw : s.running = some w) (hx : exec i s = issueMembers s f)
  (hf : f w = checkOps s w checks >>= fun _ => gather s w ((s.wave w).named v) >>= rest) (hc : checkOps s w checks = .ok ())
include hw hx hf hc

/-- It waits or traps as its member set says. -/
theorem member_stops : let set := if (s.wave w).path.due = some ((s.wave w).pos, true) then (s.wave w).path.mset else v
    (∀ t, gather s w set = .error (.done t) → exec i s = .next t) ∧
    (∀ e, gather s w set = .error (.trap e) → exec i s = .next (s.trapped w e)) := by
  rw [hc, named_eq, eff_ok_bind] at hf
  refine ⟨fun t h => ?_, fun e h => ?_⟩
  · rw [h] at hf
    simp only [hx, issueMembers, issueWith, hw, hf, eff_error_bind]
  · rw [h] at hf
    exact hx.trans (issueWith_trap Wave.release hw hf)

/-- Its set complete, it acts for the participants, and the waiting paths go on with it. -/
theorem member_acts {parts : Mask}
    (hg : gather s w (if (s.wave w).path.due = some ((s.wave w).pos, true) then (s.wave w).path.mset else v) = .ok parts)
    (hr : rest parts = .ok r) : exec i s = .next (released s w r) := by
  rw [hc, named_eq, hg, eff_ok_bind, eff_ok_bind, hr] at hf
  exact hx.trans (issueWith_ok Wave.release hw hf)

end members

/-! Permutes -/

/-- The result of a permute as one LD operation. -/
theorem putMoved_eq (s : State) (w : Nat) (d : BitVec 6) (pe : BitVec 3) (parts : Mask) (a : VReg) (src : Nat → Option Nat) :
    putMoved s w (.v d) pe { parts := parts, a := a, src := src } = moved s w d.toNat pe parts a src := by
  simp only [putMoved, moved, beq_iff_eq]
  rfl

theorem movedA_of {s : State} {w : Nat} {a : Opnd} (h : mdTag (vSource s w 1 a).md ≠ .limb) : movedA s w a = .ok (vSource s w 1 a) := by
  simp only [movedA, demand_of (bne_iff_ne.2 h), eff_ok_bind, eff_pure]

/-- The highest sender to a lane. -/
theorem sender_eq (f : Nat → Option Nat) (ls : List Nat) (k : Nat) :
    (((ls.map fun l => (f l, l)).reverse.find? fun q => q.1 == some k).map Prod.snd) = ls.reverse.find? fun e => f e == some k := by
  rw [← List.map_reverse, List.find?_map, Option.map_map]
  exact Option.map_id'

/-! Scans -/

/-- The scan of the member lanes among the first `n` of a list whose first lane is `l`, from the value `acc` on. -/
def scanUpTo (op : ScanOp) (sgn : Bool) (m : Mask) (l : Nat) (acc : Lane) (lanes : List Lane) (n : Nat) : Lane :=
  ((List.range n).filter fun i => m.getLsbD (l + i)).foldl (fun acc i => scanOp op sgn acc (lanes.getD i 0)) acc

theorem scanned_eq_scanUpTo (op : ScanOp) (sgn : Bool) (m : Mask) (lanes : List Lane) (n : Nat) :
    scanned op sgn m lanes n = scanUpTo op sgn m 0 (scanIdentity op sgn) lanes n := by
  simp only [scanned, scanUpTo, Nat.zero_add]

/-- The first lane enters the scan of the others when it is a member. -/
theorem scanUpTo_cons (op : ScanOp) (sgn : Bool) (m : Mask) (l : Nat) (acc x : Lane) (xs : List Lane) (n : Nat) :
    scanUpTo op sgn m l acc (x :: xs) (n + 1) =
      scanUpTo op sgn m (l + 1) (if m.getLsbD l then scanOp op sgn acc x else acc) xs n := by
  unfold scanUpTo
  rw [List.range_succ_eq_map, List.filter_cons, List.filter_map]
  have shift : ((fun i => m.getLsbD (l + i)) ∘ Nat.succ) = fun i => m.getLsbD (l + 1 + i) :=
    funext fun i => congrArg m.getLsbD (by omega)
  rw [shift, Nat.add_zero]
  split <;> simp [List.foldl_map]

/-- Each lane is given the scan up to it, without or with itself. -/
theorem scanFrom_eq (op : ScanOp) (sgn excl : Bool) (m : Mask) (l : Nat) (acc : Lane) (lanes : List Lane) :
    scanFrom op sgn excl m l acc lanes =
      (List.range lanes.length).map fun i => scanUpTo op sgn m l acc lanes (if excl then i else i + 1) := by
  induction lanes generalizing l acc with
  | nil => rfl
  | cons x xs ih =>
    rw [scanFrom, ih, List.length_cons, List.range_succ_eq_map, List.map_cons, List.map_map]
    congr 1
    · cases excl with
      | true => rfl
      | false => exact (scanUpTo_cons op sgn m l acc x xs 0).symm
    · refine List.map_congr_left fun i _ => ?_
      cases excl <;> exact (scanUpTo_cons ..).symm

/-- Settles O16: each instruction is its checks, its gathering and its result. -/
theorem votesAndPermutesComplete : Obligations.VotesAndPermutesComplete := by
  intro s w a b n q pa pe c md op ex k parts hw x set stops
  have named : ∀ site, (s.wave w).named (readS s w site c.toNat) = set site := fun _ => named_eq ..
  refine ⟨fun hc => ⟨member_stops hw rfl rfl hc, member_stops hw rfl rfl hc⟩, fun hc => member_stops hw rfl rfl hc,
    fun hc => member_stops hw rfl rfl hc, fun hc => member_stops hw rfl rfl hc,
    fun hc => ⟨member_stops hw rfl rfl hc, member_stops hw rfl rfl hc⟩, fun hc hg => ⟨?_, ?_⟩, fun hc hg => ?_,
    ⟨fun hc ⟨room, hg, clean, tag⟩ => ⟨?_, ?_⟩, fun hc ⟨room, hg, clean, tag⟩ hk => ?_⟩, fun hc hg clean tag => ?_⟩
  · refine member_acts hw rfl rfl hc hg ?_
    simp only [regOf, named, BitVec.ofNat_toNat, BitVec.setWidth_eq, bne_iff_ne, ne_eq, ite_not]
    rfl
  · refine member_acts hw rfl rfl hc hg ?_
    simp only [regOf, named, BitVec.ofNat_toNat, BitVec.setWidth_eq, beq_iff_eq]
    rfl
  · refine member_acts hw rfl rfl hc hg ?_
    simp only [regOf, named, BitVec.ofNat_toNat, BitVec.setWidth_eq]
    rfl
  · refine member_acts hw rfl rfl hc hg ?_
    simp only [regOf, named, room, clean, movedA_of tag, eff_ok_bind, eff_pure, putMoved_eq]
    rfl
  · refine member_acts hw rfl rfl hc hg ?_
    simp only [regOf, named, room, clean, movedA_of tag, eff_ok_bind, eff_pure, putMoved_eq, sender_eq]
    rfl
  · refine member_acts hw rfl rfl hc hg ?_
    simp only [regOf, named, room, clean, hk, movedA_of tag, eff_ok_bind, eff_pure, putMoved_eq]
    rfl
  · refine member_acts hw rfl rfl hc hg ?_
    have accepted : (decide (mdTag (vSource s w 1 a).md = .i32) || decide (mdTag (vSource s w 1 a).md = .u32)) = true := by
      simpa using tag
    simp only [regOf, named, clean, demand_of accepted, eff_ok_bind, eff_pure, scanFrom_eq, scanned_eq_scanUpTo, beq_eq_decide]
    rfl

end Sys2Proof.Proofs
end

section
/-! PROOF. Lanes that move to other places, and the reads and writes of lane-control masks (spec/05 R206 to R209, spec/08 R283). -/

open Sys2Proof Sys2Proof.Machine Sys2Proof.Claims

namespace Sys2Proof.Proofs

/-! Masks by their lanes -/

theorem maskNat_lt (f : Nat → Bool) (n : Nat) : maskNat f n < 2 ^ n := by
  induction n with
  | zero => exact Nat.one_pos
  | succ n ih =>
    rw [maskNat, Nat.pow_succ]
    split <;> omega

theorem testBit_maskNat (f : Nat → Bool) (n k : Nat) : (maskNat f n).testBit k = (decide (k < n) && f k) := by
  induction n with
  | zero => simp [maskNat]
  | succ n ih =>
    have high := Nat.testBit_lt_two_pow (maskNat_lt f n)
    rw [maskNat]
    rcases Nat.lt_trichotomy k n with lt | rfl | gt
    · have below : k < n + 1 := by omega
      cases f n <;> simp [Nat.add_comm _ (2 ^ n), Nat.testBit_two_pow_add_gt, ih, lt, below]
    · cases f k <;> simp [Nat.add_comm _ (2 ^ k), Nat.testBit_two_pow_add_eq, high]
    · have above : ¬ k < n + 1 := by omega
      have small : maskNat f n + (if f n then 2 ^ n else 0) < 2 ^ k :=
        (maskNat_lt f (n + 1)).trans_le (Nat.pow_le_pow_right Nat.two_pos gt)
      simp [Nat.testBit_lt_two_pow small, above]

theorem getLsbD_maskOf (n : Nat) (f : Nat → Bool) (k : Nat) : (maskOf n f).getLsbD k = (decide (k < 1024) && (decide (k < n) && f k)) := by
  rw [maskOf, BitVec.getLsbD_ofNat, testBit_maskNat]

/-! Lanes that move -/

section order
variable {o : List Nat} {k : Nat}

theorem getD_rearrange {α : Type} (hk : k < o.length) (l : List α) (d : α) : (rearrange o l d).getD k d = l.getD (o.getD k 0) d := by
  simp [rearrange, List.getD, hk]

theorem getLsbD_rearrangeMask (hk : k < o.length) (small : k < 1024) (m : Mask) : (rearrangeMask o m).getLsbD k = m.getLsbD (o.getD k 0) := by
  rw [rearrangeMask, getLsbD_maskOf]
  simp [hk, small]

theorem rearrangeMask_zero (o : List Nat) : rearrangeMask o 0 = 0 := by
  refine BitVec.eq_of_getLsbD_eq fun k _ => ?_
  simp [rearrangeMask, getLsbD_maskOf]

theorem getD_map_default {α β : Type} (f : α → β) (l : List α) (i : Nat) {d : α} {e : β} (h : f d = e) : (l.map f).getD i e = f (l.getD i d) := by
  subst h
  exact List.getD_map ..

variable (x : Wave) (o)

theorem renumber_exec : (x.renumber o).exec = rearrangeMask o x.exec := by
  have same : (x.renumber o).cur = x.cur := by
    show (List.map _ x.lc.paths).findIdx _ = _
    rw [List.findIdx_map]; rfl
  unfold Wave.exec Wave.path
  rw [same]
  exact congrArg PathRec.mask (getD_map_default (fun p : PathRec => { p with mask := rearrangeMask o p.mask }) x.lc.paths x.cur
    (congrArg (fun m => { PathRec.none with mask := m }) (rearrangeMask_zero o)))

theorem renumber_pred (p : Nat) : (x.renumber o).preds.getD p 0 = rearrangeMask o (x.preds.getD p 0) :=
  getD_map_default _ _ p (rearrangeMask_zero o)

theorem renumber_vreg_of_lt {r : Nat} (h : r < x.v.length) : (x.renumber o).vreg r =
    if mdTag (x.vreg r).md = .limb then x.vreg r else { x.vreg r with lanes := rearrange o (x.vreg r).lanes 0 } := by
  simp [Wave.renumber, Wave.vreg, h, beq_iff_eq]

theorem renumber_vreg_of_ge {r : Nat} (h : x.v.length ≤ r) : (x.renumber o).vreg r = x.vreg r := by
  simp [Wave.renumber, Wave.vreg, h]

theorem renumber_vreg_limb {r : Nat} (h : mdTag (x.vreg r).md = .limb) : (x.renumber o).vreg r = x.vreg r := by
  rcases lt_or_ge r x.v.length with lt | ge
  · rw [renumber_vreg_of_lt o x lt, if_pos h]
  · exact renumber_vreg_of_ge o x ge

/-- A register that is not a limb one moves its lanes. -/
theorem renumber_vreg_lanes {r : Nat} (h : mdTag (x.vreg r).md ≠ .limb) (hk : k < o.length) :
    ((x.renumber o).vreg r).lanes.getD k 0 = (x.vreg r).lanes.getD (o.getD k 0) 0 ∧ ((x.renumber o).vreg r).md = (x.vreg r).md := by
  rcases lt_or_ge r x.v.length with lt | ge
  · rw [renumber_vreg_of_lt o x lt, if_neg h]
    exact ⟨getD_rearrange hk _ _, rfl⟩
  · have none_there : (x.vreg r).lanes = [] := by simp [Wave.vreg, ge]
    rw [renumber_vreg_of_ge o x ge, none_there]
    exact ⟨rfl, rfl⟩

end order

section renumberLanes
variable {s : State} {w : Nat} (o : List Nat)

/-- The wave after its lanes have moved. -/
def laneMove (x : Wave) : Wave :=
  { x.renumber o with mem.outst := x.mem.outst.map fun p => { p with dests := p.dests.map (Dest.renumber o) } }

theorem renumberLanes_wave (hw : w < s.waves.length) : (s.renumberLanes w o).wave w = laneMove o (s.wave w) :=
  wave_modWave_same s w (laneMove o) hw

theorem renumberLanes_wave_other {u : Nat} (h : u ≠ w) : (s.renumberLanes w o).wave u = s.wave u :=
  wave_modWave_other s w u (laneMove o) h

/-- Heap commands of the wave act for the lanes where they stand now; those of other waves are not touched. -/
theorem renumberLanes_heapQ (d : Nat) : ((s.renumberLanes w o).die d).heapQ = (s.die d).heapQ.map fun c => match c.op with
    | .alloc n z f m pe => if c.wave = w then { c with op := .alloc n z f (rearrangeMask o m) pe } else c
    | _ => c := by
  refine (congrArg Die.heapQ (getD_map_default (d := default) _ s.dies d rfl)).trans (List.map_congr_left fun c _ => ?_)
  cases c.op <;> simp only [beq_iff_eq]

/-- What moves with the lanes of a wave, and what stands. -/
theorem renumberLanes_follows (hw : w < s.waves.length) : follows s (s.renumberLanes w o) w o := by
  unfold follows
  rw [renumberLanes_wave o hw]
  refine ⟨fun k r hk ht => renumber_vreg_lanes o _ ht hk, fun r ht => renumber_vreg_limb o _ ht, fun k p hk small => ?_,
    fun k hk small => ⟨getLsbD_rearrangeMask hk small _, getLsbD_rearrangeMask hk small _, getLsbD_rearrangeMask hk small _, ?_⟩,
    fun k hk => ⟨getD_rearrange hk _ _, getD_rearrange hk _ _, getD_rearrange hk _ _⟩, rfl, renumberLanes_heapQ o, rfl, rfl,
    fun u hu => renumberLanes_wave_other o hu⟩
  · exact (congrArg (·.getLsbD k) (renumber_pred o (s.wave w) p)).trans (getLsbD_rearrangeMask hk small _)
  · exact (congrArg (·.getLsbD k) (renumber_exec o (s.wave w))).trans (getLsbD_rearrangeMask hk small _)

end renumberLanes

/-! The wait and the checks before lanes move -/

theorem demandSingle_of {s : State} {w : Nat} (h : single (s.wave w)) : demandSingle s w = .ok () := by
  obtain ⟨idle, one, closed, quiet⟩ := h
  unfold demandSingle
  simp only [idle, one, closed, quiet]
  rfl

theorem demandSingle_of_not {s : State} {w : Nat} (idle : (s.wave w).outstanding .ld = 0) (h : ¬ single (s.wave w)) :
    demandSingle s w = .error (.trap { code := 0x01#6 }) := by
  have bad : ((s.wave w).pathCount == 1 && (s.wave w).lc.regions.all (fun r => !r.valid) && !(s.wave w).chanting) = false := by
    rw [← Bool.not_eq_true]
    simpa [single, idle, and_assoc] using h
  unfold demandSingle
  simp only [idle, bad]
  rfl

/-! Lane-control masks -/

theorem laneMask_special (x : Wave) (k : BitVec 5) :
    x.laneMask (regOf (.special k)) = if k = 4#5 then x.exec else if k = 5#5 then x.lc.dead else x.lc.xfault := by
  have number : ∀ n : BitVec 5, (k.toNat == n.toNat) = true ↔ k = n := fun n => beq_iff_eq.trans BitVec.toNat_inj
  exact if_congr (number 4#5) rfl (if_congr (number 5#5) rfl rfl)

/-- Settles O17: lanes move where the checks pass; the masks are read and written word by word. -/
theorem compactionAndMasksComplete : Obligations.CompactionAndMasksComplete := by
  intro s w n q k a b i v hw x lanes front home
  refine ⟨fun alone => ⟨issue_completes hw ?_, renumberLanes_follows front, issue_completes hw ?_, renumberLanes_follows home⟩,
    fun idle several => ⟨issue_traps hw ?_, issue_traps hw ?_⟩, fun hc hi => ⟨fun lt => issue_completes hw ?_, fun ge => issue_traps hw ?_⟩,
    fun hc hi => ⟨fun lt => issue_completes hw ?_, fun ge => issue_traps hw ?_⟩, fun hc => issue_completes hw ?_⟩
  · rw [demandSingle_of alone]; rfl
  · rw [demandSingle_of alone]; rfl
  · rw [demandSingle_of_not idle several]; rfl
  · rw [demandSingle_of_not idle several]; rfl
  · simp only [hc, hi, demand_of (decide_eq_true lt), eff_ok_bind, laneMask_special]
    rfl
  · rw [hc, hi]
    exact demand_stops (decide_eq_false (Nat.not_lt.2 ge)) ..
  · simp only [hc, hi, demand_of (decide_eq_true lt), demand_of (beq_self_eq_true (Opnd.special 6#5)), eff_ok_bind, eff_pure]
  · rw [hc, demand_of (beq_self_eq_true (Opnd.special 6#5)), hi]
    exact demand_stops (decide_eq_false (Nat.not_lt.2 ge)) ..
  · simp only [hc, regOf, BitVec.ofNat_toNat, BitVec.setWidth_eq, eff_ok_bind, eff_pure]
    rfl

end Sys2Proof.Proofs
end

section
/-! PROOF. The chanter: an `xeq` that starts, performs one computed word at a time, and ends (spec/05 R210 to R217). -/

open Sys2Proof Sys2Proof.Machine Sys2Proof.Claims

namespace Sys2Proof.Proofs

theorem running_resident {s : State} {w : Nat} (h : s.running = some w) : (s.wave w).resident = true := by
  unfold State.running at h
  split at h
  next v _ =>
    split at h
    next resident => exact Option.some.inj h ▸ resident
    · cases h
  · cases h

/-! One computed word -/

section word
variable {s r : State} {w n : Nat} {word : Word}

theorem chantStep_illegal (h : legalWord s w n word = none) : chantStep s w n word =
    .ok ((s.modWave w fun x => { x with lc.xfault := x.lc.xfault ||| chantLanes s w n word }).modWave w fun x =>
      { x with lc.xprog := nextProg x.lc.xprog true }) := by
  rw [chantStep, h]

/-- An atomic word of a staged group alone does not act at once. -/
theorem chantStep_legal {f : Computed} (h : legalWord s w n word = some f) (plain : f.atom = none ∨ s.staged (s.wave w).id.group = false)
    (act : f.act (chantLanes s w n word) s w = .ok r) :
    chantStep s w n word = .ok (r.modWave w fun x => { x with lc.xprog := nextProg x.lc.xprog false }) := by
  rw [chantStep, h]
  dsimp only
  split
  next atomic =>
    rw [if_neg (by simp [plain.resolve_left (by simp [atomic])]), act]; rfl
  · rw [act]; rfl

end word

/-! The steps of an `xeq` -/

section xeq
variable {s r : State} {w : Nat} {g : Guards} {t : Bool} {n : BitVec 6} (hc : checkOps s w [(.v n, .onlyV)] = .ok ())
  (even : n.toNat % 2 = 0) (fits : n.toNat + 2 ≤ (s.wave w).v.length)
include hc even fits

/-- Its operands accepted, an `xeq` starts, or goes on with what it has begun. -/
theorem xeqAct_accepted : xeqAct g t (.v n) s w =
    if (s.wave w).lc.xprog.getLsbD 31 = false then
      if activeMask s w g = 0 then .ok s
      else demandClean s w (activeMask s w g) [.v n, .v (n + 1)] >>= fun _ =>
        .error (.done (s.modWave w fun x => { x with lc.xm := activeMask s w g, lc.xprog := 0x80000000#32 }).tick)
    else match (chantWords s w n.toNat)[chantNext (s.wave w)]? with
      | some word => chantStep s w n.toNat word >>= fun u => .error (.done u.tick)
      | none =>
        let done_ := s.modWave w fun x => { x with lc.xprog := 0 }
        if t && (s.wave w).lc.xprog.getLsbD 30 then
          .error (.done (if ((done_.settleDying w).wave w).pos == (s.wave w).pos && ((done_.settleDying w).wave w).resident then
            (done_.settleDying w).trapped w { code := 0x09#6, lanes := some ((s.wave w).lc.xfault &&& (s.wave w).lc.xm), resume := true }
            else (done_.settleDying w).tick))
        else if (s.wave w).lc.dying = 0 then .ok done_
        else .error (.done ((completed s w done_).settleDying w)) := by
  have pair : s.evenPair w (.v n) = true := by
    simp [State.evenPair, State.fits, regOf, even, fits]
  unfold xeqAct
  simp only [hc, demand_of pair, eff_ok_bind, beq_iff_eq, Bool.not_eq_true']
  rfl

variable (hw : s.running = some w)
include hw

theorem exec_xeq_idle (free : (s.wave w).lc.xprog.getLsbD 31 = false) (hm : activeMask s w g = 0) :
    exec (.xeq g t (.v n)) s = .next (completed s w s) :=
  issue_completes hw ((xeqAct_accepted hc even fits).trans ((if_pos free).trans (if_pos hm)))

theorem exec_xeq_starts (free : (s.wave w).lc.xprog.getLsbD 31 = false) (hm : activeMask s w g ≠ 0)
    (clean : demandClean s w (activeMask s w g) [.v n, .v (n + 1)] = .ok ()) : exec (.xeq g t (.v n)) s =
      .next (s.modWave w fun x => { x with lc.xm := activeMask s w g, lc.xprog := 0x80000000#32 }).tick := by
  refine issue_done hw ((xeqAct_accepted hc even fits).trans ((if_pos free).trans ((if_neg hm).trans ?_)))
  rw [clean]; rfl

variable (busy : (s.wave w).lc.xprog.getLsbD 31 = true)
include busy

/-- The word that NEXT names is performed by the instruction itself, or as COMPUTED_WORD. -/
theorem xeq_performs {word : Word} (next_ : (chantWords s w n.toNat)[chantNext (s.wave w)]? = some word) (hs : chantStep s w n.toNat word = .ok r)
    (hl : w < s.waves.length) : exec (.xeq g t (.v n)) s = .next r.tick ∧
      (decodeWord (s.wave w).word = .ok (.xeq g t (.v n)) → (s.wave w).sch.stall = none → exec (.computedWord w) s = .next r.tick) := by
  refine ⟨issue_done hw ((xeqAct_accepted hc even fits).trans ((if_neg (by simp [busy])).trans ?_)), fun hd hn => ?_⟩
  · rw [next_]
    dsimp only
    rw [hs]; rfl
  · have enabled : ((s.wave w).lc.xprog.getLsbD 31 && (s.wave w).resident && (s.wave w).sch.stall.isNone && decide (w < s.waves.length)) = true := by
      simp [busy, running_resident hw, hn, hl]
    show execComputedWord w s = _
    unfold execComputedWord
    simp only [hd, enabled, regOf, next_, hs, if_true, settleStep]

/-- With no word left it ends, or reports its faults; lanes that died meanwhile leave. -/
theorem exec_xeq_ends (last : (chantWords s w n.toNat)[chantNext (s.wave w)]? = none) :
    let done_ := s.modWave w fun x => { x with lc.xprog := 0 }
    let left := done_.settleDying w
    exec (.xeq g t (.v n)) s = .next (if t && (s.wave w).lc.xprog.getLsbD 30 then
      (if (left.wave w).pos == (s.wave w).pos && (left.wave w).resident then
        left.trapped w { code := 0x09#6, lanes := some ((s.wave w).lc.xfault &&& (s.wave w).lc.xm), resume := true } else left.tick)
      else (completed s w done_).settleDying w) := by
  intro done_ left
  have comes := (xeqAct_accepted (g := g) (t := t) hc even fits).trans (if_neg (by simp [busy]))
  rw [last] at comes
  dsimp only at comes
  split
  next ill => exact issue_done hw (comes.trans (if_pos ill))
  next fine =>
    by_cases dying : (s.wave w).lc.dying = 0
    · have kept : ((completed s w done_).wave w).lc.dying = 0 :=
        ((congrArg (fun y : Wave => y.lc.dying) (completed_standing s done_ w) :).trans
          (wave_modWave_keeps (fun y => y.lc.dying) s w w rfl)).trans dying
      rw [settleDying_none kept]
      exact issue_completes hw (comes.trans ((if_neg fine).trans (if_pos dying)))
    · exact issue_done hw (comes.trans ((if_neg fine).trans (if_neg dying)))

end xeq

/-- Settles O18: an `xeq` starts, performs a word, or ends. -/
theorem chanterCompletes : Obligations.ChanterCompletes := by
  intro s r w g t n word hw hl x m words done_ step_ hc even fits
  refine ⟨exec_xeq_idle hc even fits hw, exec_xeq_starts hc even fits hw, exec_xeq_ends hc even fits hw, fun busy next_ => ⟨fun illegal => ?_, fun f legal plain act => ?_⟩⟩
  · exact xeq_performs hc even fits hw busy next_ (chantStep_illegal illegal) hl
  · exact xeq_performs hc even fits hw busy next_ (chantStep_legal legal plain act) hl

end Sys2Proof.Proofs
end

section
/-! PROOF. The definition and the clearing of rings (spec/06 R238 to R240). -/

open Sys2Proof Sys2Proof.Machine Sys2Proof.Claims

namespace Sys2Proof.Proofs

/-! Changes that change nothing -/

theorem set_getD_self {α : Type} (l : List α) (i : Nat) (z : α) : l.set i (l.getD i z) = l := by
  by_cases h : i < l.length
  · rw [List.getD_eq_getElem _ _ h, List.set_getElem_self]
  · exact List.set_eq_of_length_le (by omega)

theorem modWave_id {s : State} {w : Nat} {f : Wave → Wave} (h : f (s.wave w) = s.wave w) : s.modWave w f = s := by
  rw [State.modWave, h, State.setWave, State.wave, set_getD_self]

theorem modCore_id {s : State} {c : Nat} {f : Core → Core} (h : f (s.core c) = s.core c) : s.modCore c f = s := by
  rw [State.modCore, h, State.setCore, State.core, set_getD_self]

theorem modifyAt_id {α : Type} (l : List α) (i : Nat) {f : α → α} (h : ∀ x ∈ l[i]?, f x = x) : modifyAt l i f = l := by
  induction l generalizing i with
  | nil => rfl
  | cons x xs ih =>
    cases i with
    | zero => rw [modifyAt, h x rfl]
    | succ i => rw [modifyAt, ih i h]

/-- A change of an engine's commands that changes none of them changes nothing. -/
theorem modQueue_id {s : State} {c : Nat} {se : Bool} {f : List SCmd → List SCmd} (h : f ((s.core c).queue se) = (s.core c).queue se) :
    s.modQueue c se f = s := by
  refine modCore_id ?_
  have queue : modifyAt (s.core c).se se.toNat f = (s.core c).se := modifyAt_id _ _ fun x hx => by
    rwa [Core.queue, List.getD, Option.mem_def.1 hx] at h
  rw [queue]

/-! Commands that name a ring -/

/-- The commands of an engine that name no ring of the group stay as they are. -/
theorem ringCommands_nil {s : State} {c g r : Nat} (h : s.ringCommands c g r = []) (se : Bool) {x : SCmd} (hx : x ∈ (s.core c).queue se) :
    x.onRing g r = false := by
  have none_ := List.flatMap_eq_nil_iff.1 h se (by cases se <;> simp)
  rw [List.map_eq_nil_iff, List.filter_eq_nil_iff] at none_
  exact Bool.not_eq_true _ ▸ none_ x hx

/-- The commands of both engines of a core, changed one by one. -/
abbrev modQueues (s : State) (c : Nat) (f : SCmd → SCmd) : State := [false, true].foldl (fun u se => u.modQueue c se fun q => q.map f) s

/-- A change of the commands that name a ring changes nothing where none does. -/
theorem modQueues_nil {s : State} {c g r : Nat} (h : s.ringCommands c g r = []) (f : SCmd → SCmd) :
    modQueues s c (fun y => if y.onRing g r then f y else y) = s := by
  have same : ∀ se, s.modQueue c se (fun q => q.map fun y => if y.onRing g r then f y else y) = s := fun se => modQueue_id
    ((List.map_congr_left fun x hx => if_neg (by rw [ringCommands_nil h se hx]; exact Bool.false_ne_true)).trans (List.map_id _))
  simp only [modQueues, List.foldl_cons, List.foldl_nil, same]

theorem modQueues_id (s : State) (c : Nat) : modQueues s c id = s := by
  have same : ∀ se, s.modQueue c se (fun q => q.map id) = s := fun se => modQueue_id (List.map_id _)
  simp only [modQueues, List.foldl_cons, List.foldl_nil, same]

theorem demandRing_fresh {s : State} {w r : Nat} (h : r < (s.waveGroup w).rings.length) : demandRing s w r true = .ok () :=
  demand_of (by rw [decide_eq_true h]; rfl) ..

theorem demandRing_defined {s : State} {w r : Nat} (h : r < (s.waveGroup w).rings.length) (hd : ((s.waveGroup w).ring r).defined = true) :
    demandRing s w r false = .ok () := demand_of (by rw [decide_eq_true h, hd]; rfl) ..

/-! The instructions -/

/-- An empty ring without a token. -/
def Ring.emptied (q : Ring) : Ring := { q with head := 0, occ := [], eos := none, stopping := false, dropping := false }

/-- The commands of a ring that have not started and that `keep` names have stopped with 0x05. -/
def stoppedFresh (s : State) (c g r : Nat) (keep : SCmd → Bool) : State :=
  ((s.ringCommands c g r).filter fun e => keep e.2 && !e.2.started).foldl (fun u e => u.stopStream c e.1 e.2 5) s

/-- `ringclr.drop` has stopped the commands of a ring that have not started and cancelled the others. -/
def droppedCommands (s : State) (c g r : Nat) : State :=
  modQueues (stoppedFresh s c g r fun _ => true) c fun y => if y.onRing g r then { y with cancel := some 5, claim := none } else y

theorem droppedCommands_nil {s : State} {c g r : Nat} (h : s.ringCommands c g r = []) : droppedCommands s c g r = s := by
  rw [droppedCommands, stoppedFresh, h, List.filter_nil, List.foldl_nil, modQueues_nil h]

section exec
variable {s : State} {w : Nat} {r : BitVec 4} (hw : s.running = some w) (hr : r.toNat < (s.waveGroup w).rings.length)
include hw hr

theorem exec_ringdef {t : Tag} {a b c : Opnd} {off : Word} (hc : checkOps s w [(a, .si), (b, .onlyImm), (c, .onlyImm)] = .ok ())
    (ho : uniOf s w (s.wave w).exec 1 a = .ok off) (ha : 0 ≤ immOf a) (h4 : off.toNat % 4 = 0) (hb : 1 ≤ immOf b) (hb' : immOf b ≤ 8)
    (hz : 2 ≤ immOf c) (hz' : immOf c ≤ 12) (hl : t ≠ .limb) (hq : t ≠ .modq)
    (hn : s.ringCommands (s.wave w).id.core (s.wave w).id.group r.toNat = [])
    (hs : off.toNat + 2 ^ (immOf b).toNat * 2 ^ (immOf c).toNat ≤ (s.waveGroup w).spb) :
    exec (.ringdef t a b c r) s = .next (completed s w (s.modGroup (s.wave w).id.group fun y => y.modRing r.toNat fun _ =>
      { Ring.fresh with defined := true, off := off.toNat, ls := (immOf b).toNat, lz := (immOf c).toNat, tag := t })) := by
  refine issue_completes hw ?_
  have aligned : (decide (0 ≤ immOf a) && off.toNat % 4 == 0) = true := by simp [ha, h4]
  have lists : (decide (1 ≤ immOf b) && decide (immOf b ≤ 8)) = true := by simp [hb, hb']
  have sizes : (decide (2 ≤ immOf c) && decide (immOf c ≤ 12)) = true := by simp [hz, hz']
  have tag : (t != .limb && t != .modq) = true := by simp [hl, hq]
  simp only [hc, demandRing_fresh hr, ho, demand_of aligned, demand_of lists, demand_of sizes, demand_of tag, hn, List.isEmpty_nil,
    demand_of rfl, demand_of (decide_eq_true hs), eff_ok_bind, eff_pure]

variable (hd : ((s.waveGroup w).ring r.toNat).defined = true)
include hd

theorem exec_ringclrDrop :
    let id := (s.wave w).id
    let u := droppedCommands s id.core id.group r.toNat
    exec (.ringclrDrop r) s = .next (if u.ringCommands id.core id.group r.toNat = [] then
        completed s w (u.modGroup id.group fun y => y.modRing r.toNat Ring.emptied)
      else ((u.modGroup id.group fun y => y.modRing r.toNat fun q => { q with dropping := true }).stallWave w .settle).tick) := by
  intro id u
  by_cases hu : u.ringCommands id.core id.group r.toNat = []
  · rw [if_pos hu]
    refine issue_completes hw ?_
    simp only [demandRing_defined hr hd, eff_ok_bind]
    exact if_pos (List.isEmpty_iff.2 hu)
  · rw [if_neg hu]
    refine issue_stalls hw ?_
    simp only [demandRing_defined hr hd, eff_ok_bind]
    exact if_neg (mt List.isEmpty_iff.1 hu)

theorem exec_ringclrStop :
    let id := (s.wave w).id
    let u := modQueues (stoppedFresh s id.core id.group r.toNat fun y => y.kind == .rfill) id.core fun y =>
      if y.onRing id.group r.toNat && y.kind == .rfill then { y with cancel := some 5 } else y
    exec (.ringclrStop r) s = .next (completed s w
      ((u.modGroup id.group fun y => y.modRing r.toNat fun q => { q with stopping := true }).settleStop id.core id.group r.toNat)) := by
  intro id u
  have fills : ((s.ringCommands id.core id.group r.toNat).filter fun q => q.2.kind == .rfill).filter (fun q => !q.2.started) =
      (s.ringCommands id.core id.group r.toNat).filter fun e => e.2.kind == .rfill && !e.2.started :=
    List.filter_filter.trans (List.filter_congr fun _ _ => Bool.and_comm ..)
  refine issue_completes hw ?_
  simp only [demandRing_defined hr hd, eff_ok_bind]
  rw [fills]
  rfl

end exec

/-- Settles O28: a ring that no command names is cleared at once, since stopping and cancelling change nothing. -/
theorem ringDefinitionAndClearing : Obligations.RingDefinitionAndClearing := by
  intro s w t a b c r off hw hr x grp cmds stopping cancels
  refine ⟨fun hc ho ha h4 hb hb' hz hz' hl hq hn hs => exec_ringdef hw hr hc ho ha h4 hb hb' hz hz' hl hq hn hs,
    fun hd => ⟨fun hn => ?_, exec_ringclrDrop hw hr hd, exec_ringclrStop hw hr hd⟩⟩
  rw [exec_ringclrDrop hw hr hd, droppedCommands_nil hn, if_pos hn, show cancels s id = s from modQueues_id s x.id.core]
  rfl

end Sys2Proof.Proofs
end

section
/-! PROOF. Layout slots and commands sent to a stream engine (spec/06 R226 to R229, spec/07 R270, spec/10 R332, spec/14 R433). -/

open Sys2Proof Sys2Proof.Machine Sys2Proof.Claims

namespace Sys2Proof.Proofs

/-- A command is sent where its engine has room and no recovery hold keeps a store of the wave back. -/
theorem sendStream_of {s : State} {w : Nat} {se : Bool} (hr : engineRoom s w se) (hh : s.storesHeld w = false) (x : SCmd) :
    sendStream s w se x = .ok (sentTo s w se x) := by
  have room : s.streamFull w se = false := by rw [State.streamFull, hr.2, Bool.or_false, decide_eq_false (by omega)]
  rw [sendStream, room, hh]
  rfl

/-! The commands of `scmd` -/

/-- The ring that a ring command names is marked as one that an engine uses. -/
def ringMarked (k : ScmdForm) (g : Nat) (av : Word) (s : State) : State :=
  if k.kind = .rfill ∨ k.kind = .rdrain then s.modGroup g fun y => y.modRing av.toNat fun q => { q with engine := true } else s

section scmd
variable {k : ScmdForm} {s : State} {w : Nat} {av cv : Word} {l dst : Layout} (hk : scmdReady k s w av cv l dst)
include hk

/-- The checks of the operands of a command that names the scratchpad (R229). -/
theorem scmdReady.range : (!(k.kind == .fill || k.kind == .drain || k.kind == .mcast) || decide (0 ≤ immOf k.a)) = true ∧
    (!(k.kind == .fill || k.kind == .drain || k.kind == .mcast) || decide (av.toNat + l.nBoxes * l.boxBytes ≤ (s.waveGroup w).spb)) = true := by
  obtain ⟨-, -, -, -, -, -, -, hsp, -⟩ := hk
  by_cases h : k.kind = .fill ∨ k.kind = .drain ∨ k.kind = .mcast
  · rw [decide_eq_true (hsp h).1, decide_eq_true (hsp h).2]
    exact ⟨Bool.or_true _, Bool.or_true _⟩
  · have no : (k.kind == .fill || k.kind == .drain || k.kind == .mcast) = false := by simpa [and_assoc] using h
    rw [no]
    exact ⟨rfl, rfl⟩

/-- Every command but a collective's is sent when its checks have passed. -/
theorem scmdAct_of (hn : k.kind ≠ .coll) :
    k.act s w = .ok (ringMarked k (s.wave w).id.group av (sentTo s w k.se (scmdCmd k s w av cv l dst none))) := by
  obtain ⟨inSp, fits⟩ := scmdReady.range hk
  obtain ⟨hw, hcheck, hclean, hav, hcv, hslot, hdst, -, hsuits, -, h8, h57, hout, hroom, hheld⟩ := hk
  have coll : (k.kind == .coll) = false := beq_eq_false_iff_ne.2 hn
  have record : (k.kind != .coll || av.toNat % 32 == 0) = true := by rw [bne, coll]; rfl
  unfold ScmdForm.act
  simp only [hcheck, hclean, hav, hcv, coll, demand_of record, demand_of (beq_iff_eq.2 h8), demand_of (decide_eq_true h57), eff_ok_bind, eff_pure,
    Bool.false_eq_true, if_false, roomFor_of hout, sendStream_of hroom hheld]
  by_cases hs : k.kind = .stamp
  · have hc : k.kind ≠ .copy := by rw [hs]; decide
    rw [if_pos hs] at hslot
    rw [if_neg hc] at hdst
    subst hslot hdst
    simp only [beq_iff_eq, if_pos hs, if_neg hc, demand_of hsuits, demand_of inSp, demand_of fits, eff_ok_bind]
    simp only [ringMarked, scmdCmd, Bool.or_eq_true, beq_iff_eq, if_pos hs, coll]
    rfl
  rw [if_neg hs] at hslot
  by_cases hc : k.kind = .copy
  · rw [if_pos hc] at hdst
    simp only [beq_iff_eq, if_neg hs, if_pos hc, hslot, hdst, demand_of hsuits, demand_of inSp, demand_of fits, eff_ok_bind]
    simp only [ringMarked, scmdCmd, Bool.or_eq_true, beq_iff_eq, if_neg hs, coll]
    rfl
  · rw [if_neg hc] at hdst
    subst hdst
    simp only [beq_iff_eq, if_neg hs, if_neg hc, hslot, demand_of hsuits, demand_of inSp, demand_of fits, eff_ok_bind]
    simp only [ringMarked, scmdCmd, Bool.or_eq_true, beq_iff_eq, if_neg hs, coll]
    rfl

/-- A collective's command is sent with its record, cancelled where its run has been stopped. -/
theorem scmdAct_coll (hn : k.kind = .coll) {u : State} {r : CollRec} {cd : Layout} (hr : collOf s w k av = .ok (u, r, cd))
    (hout : (u.wave w).outstanding .cp < 62) (hroom : engineRoom u w k.se) (hheld : u.storesHeld w = false) :
    let v := sentTo u w k.se { scmdCmd k u w av cv l cd (some r) with cancel := if u.collStopped (s.wave w).id.launch r then some 5 else none }
    k.act s w = .ok { v with collIssued := v.collIssued ++ [((s.wave w).id.launch, r.cid, r.rank)] } := by
  obtain ⟨inSp, fits⟩ := scmdReady.range hk
  obtain ⟨hw, hcheck, hclean, hav, hcv, hslot, hdst, -, hsuits, h32, h8, h57, -⟩ := hk
  have hs : k.kind ≠ .stamp := by rw [hn]; decide
  have hc : k.kind ≠ .copy := by rw [hn]; decide
  rw [if_neg hs] at hslot
  rw [if_neg hc] at hdst
  subst hdst
  have record : (k.kind != .coll || av.toNat % 32 == 0) = true := by rw [beq_iff_eq.2 (h32 hn), Bool.or_true]
  unfold ScmdForm.act
  simp only [hcheck, hclean, hav, hcv, hr, beq_iff_eq, if_pos hn, if_neg hs, if_neg hc, hslot, demand_of record, demand_of (beq_iff_eq.2 h8), demand_of (decide_eq_true h57),
    demand_of hsuits, demand_of inSp, demand_of fits, eff_ok_bind, eff_pure, roomFor_of hout, sendStream_of hroom hheld]
  rw [if_neg (by rw [hn]; decide)]
  simp only [scmdCmd, if_neg hs]
  rfl

end scmd

/-- An `scmd` makes its checks; a forcing one then waits for a commit in a staged group. -/
theorem exec_scmd {i : Instr} {k : ScmdForm} (h : scmdOf i = some k) (s : State) :
    exec i s = issue s fun w => if k.kind = .mcast ∨ k.kind = .coll then k.check s w >>= fun _ => forced s w k.act else k.act s w := by
  unfold scmdOf at h
  split at h <;> cases h <;> rfl

theorem exec_scmd_plain {i : Instr} {k : ScmdForm} {s r : State} {w : Nat} (h : scmdOf i = some k) (hw : s.running = some w)
    (hc : k.check s w = .ok ()) (hp : k.kind = .mcast ∨ k.kind = .coll → s.staged (s.wave w).id.group = false) (ha : k.act s w = .ok r) :
    exec i s = .next (completed s w r) := by
  rw [exec_scmd h]
  refine issue_completes hw ?_
  by_cases force : k.kind = .mcast ∨ k.kind = .coll
  · rw [if_pos force, hc, eff_ok_bind, forced_plain (hp force), ha]
  · rw [if_neg force, ha]

theorem exec_scmd_staged {i : Instr} {k : ScmdForm} {s : State} {w : Nat} (h : scmdOf i = some k) (hw : s.running = some w)
    (force : k.kind = .mcast ∨ k.kind = .coll) (hc : k.check s w = .ok ()) (hs : s.staged (s.wave w).id.group = true) (hd : s.drainedWave w = true) :
    exec i s = .next ((s.modWave w fun y => { y with sch.arrived := some Arrive.forcing }).stallWave w .commit).tick := by
  rw [exec_scmd h]
  refine issue_stalls hw ?_
  rw [if_pos force, hc, eff_ok_bind, forced_staged hs hd]

/-! `slay`, `bopm` and `auto` -/

/-- A limb array at `v` is the destination at `dv`, or it does not meet it (R270). -/
abbrev apart (dv v : Word) (n : Nat) : Prop := v = dv ∨ ¬ (dv.toNat < v.toNat + 4 * n ∧ v.toNat < dv.toNat + 4 * (n + 1))

/-- A limb array begins at a multiple of 4 and lies where a wave may name it (R270). -/
abbrev limbsFit (s : State) (w : Nat) (v : Word) (n : Nat) : Prop := v.toNat % 4 = 0 ∧ rangeBad s w v (4 * n) = false

theorem apart_clash {dv v : Word} {n : Nat} (h : apart dv v n) : (v != dv && rangesMeet dv.toNat (4 * (n + 1)) v.toNat (4 * n)) = false := by
  obtain rfl | h := h
  · rw [bne_self_eq_false, Bool.false_and]
  · rw [rangesMeet, ← Bool.decide_and, decide_eq_false h, Bool.and_false]

theorem low_bits {v : Word} (h : v.toNat % 4 = 0) : (v.extractLsb' 0 2 != 0#2) = false := by
  rw [bne, field_beq, Nat.pow_zero, Nat.div_one]
  simpa using h

theorem immOf_imm (e : BitVec 6) : immOf (.imm e) = e.toInt := rfl

section exec
variable {s : State} {w : Nat} (hw : s.running = some w)
include hw

theorem exec_slay {u : State} {o : Order} {sc : Scope} {a e : BitVec 6} {c : Opnd} {n : BitVec 4} {bs : List Byte} {base : Option Word}
    (hn : n.toNat < 8) (hb : base = match c with | .s q => some (readS s w 3 q.toNat) | _ => none)
    (hc : checkOps s w [(.s a, .onlyS), (.imm e, .onlyImm), (c, .si)] = .ok ()) (hz : zeroImm c = true)
    (hr : recordRead s w o sc (readS s w 1 a.toNat + BitVec.ofInt 64 (64 * e.toInt)) 64 64 = .ok (u, bs))
    (hl : (Layout.ofBytes bs base).ok bs = true) : exec (.slay o sc (.s a) (.imm e) c n) s = .next (completed s w
      (u.modGroup (s.wave w).id.group fun g => { g with layouts := modifyAt g.layouts n.toNat fun _ => some (Layout.ofBytes bs base) })) := by
  subst hb
  refine issue_completes hw ?_
  simp only [hc, demand_of hz, demand_of (decide_eq_true hn), regOf, immOf_imm, hr, eff_ok_bind, eff_pure]
  exact (congrArg (· >>= _) (demand_of hl ..)).trans rfl

theorem exec_bopm {o : Order} {sc : Scope} {se sub : Bool} {d a b : BitVec 6} {c : Opnd} {n : Word}
    (hc : checkOps s w [(.s d, .onlyS), (.s a, .onlyS), (.s b, .onlyS), (c, .count)] = .ok ()) (hu : uni1 s w c = .ok n) (h1 : 1 ≤ n.toNat)
    (h28 : n.toNat ≤ 2 ^ 28)
    (ha : apart (readS s w 4 d.toNat) (readS s w 1 a.toNat) n.toNat) (hb : apart (readS s w 4 d.toNat) (readS s w 2 b.toNat) n.toNat)
    (fd : limbsFit s w (readS s w 4 d.toNat) (n.toNat + 1)) (fa : limbsFit s w (readS s w 1 a.toNat) n.toNat)
    (fb : limbsFit s w (readS s w 2 b.toNat) n.toNat) (hout : (s.wave w).outstanding .cp < 62) (hroom : engineRoom s w se)
    (hheld : s.storesHeld w = false) :
    exec (.bopm o sc se (.s d) (.s a) (.s b) c sub) s = .next (completed s w (sentTo s w se { SCmd.blank s w .bopm o sc with
      bops := (readS s w 4 d.toNat, readS s w 1 a.toNat, readS s w 2 b.toNat), limbs := n.toNat, bsub := sub })) := by
  have size : (decide (1 ≤ n.toNat) && decide (n.toNat ≤ 2 ^ 28)) = true := by rw [decide_eq_true h1, decide_eq_true h28]; rfl
  refine issue_completes hw ?_
  simp only [hc, hu, regOf, demand_of size, apart_clash ha, apart_clash hb, eff_ok_bind, Bool.not_false, Bool.and_self, demand_of, List.find?_cons,
    List.find?_nil, low_bits fd.1, low_bits fa.1, low_bits fb.1, fd.2, fa.2, fb.2, roomFor_of hout]
  exact sendStream_of hroom hheld _

theorem exec_auto {o : Order} {sc : Scope} {se ntt : Bool} {e f : BitVec 6} {c : Opnd} {m : Word} {dst l : Layout} {cnt : Nat}
    (hcnt : cnt = if l.rank = 2 then l.sizes.getD 1 1 else 1) (hc : checkOps s w [(.imm e, .onlyImm), (.imm f, .onlyImm), (c, .count)] = .ok ())
    (h0 : 0 ≤ immOf c) (hu : uni1 s w c = .ok m) (hd : (s.waveGroup w).slotAt e.toInt = some dst) (hl : (s.waveGroup w).slotAt f.toInt = some l)
    (hf : autoSlots dst l = true) (h64 : m.toNat + cnt ≤ 64)
    (hp : ∀ q ∈ (List.range cnt).map fun j => s.prime w (m.toNat + j), q.isSome = true) (hout : (s.wave w).outstanding .cp < 62)
    (hroom : engineRoom s w se) (hheld : s.storesHeld w = false) :
    exec (.auto o sc se (.imm e) (.imm f) c ntt) s = .next (completed s w (sentTo s w se { SCmd.blank s w .auto o sc with
      slot := l, dst := dst, ntt := ntt, primes := ((List.range cnt).map fun j => s.prime w (m.toNat + j)).map fun q => q.getD 1 })) := by
  subst hcnt
  refine issue_completes hw ?_
  simp only [hc, hu, immOf_imm, demand_of (decide_eq_true h0), hd, hl, demand_of hf, beq_iff_eq, demand_of (decide_eq_true h64),
    demand_of (List.all_eq_true.2 hp), roomFor_of hout, eff_ok_bind]
  exact sendStream_of hroom hheld _

end exec

/-- Settles O29: each instruction by the checks that it makes, and the command that is left to send. -/
theorem streamCommandsSend : Obligations.StreamCommandsSend := by
  intro s u w i k av cv l dst cd r o sc se sub ntt n d a b e f c bs x plain forces mark
  refine ⟨fun hi hk hp => ⟨fun hn => ?_, fun hn hr hout hroom hheld => ?_⟩, fun hi hw force hc hs hd => exec_scmd_staged hi hw force hc hs hd,
    fun hw hn hc hz hr hl => exec_slay hw hn rfl hc hz hr hl, fun hw hout hroom hheld => ⟨?_, ?_⟩⟩
  · exact exec_scmd_plain hi hk.1 hk.2.1 hp (scmdAct_of hk hn)
  · exact exec_scmd_plain hi hk.1 hk.2.1 hp (scmdAct_coll hk hn hr hout hroom hheld)
  · exact fun hc hu h1 h28 ha hb fd fa fb => exec_bopm hw hc hu h1 h28 ha hb fd fa fb hout hroom hheld
  · exact fun hc h0 hu hd hl hf h64 hp => exec_auto hw rfl hc h0 hu hd hl hf h64 hp hout hroom hheld

end Sys2Proof.Proofs
end

section
/-! PROOF. Ports and rings of a wave, and the waves that waited at a ring (spec/06 R241 to R247). -/

open Sys2Proof Sys2Proof.Machine Sys2Proof.Claims

namespace Sys2Proof.Proofs

/-- Operands none of which names the trap state are checked one by one. -/
theorem checkOps_of {s : State} {w : Nat} {l : List (Opnd × Accept)} (ht : ∀ q ∈ l, namesTrapState q.1 = false)
    (ha : ∀ q ∈ l, s.accepts w q.2 q.1 = true) : checkOps s w l = .ok () := by
  have plain : l.any (fun q => namesTrapState q.1) = false := List.any_eq_false.2 fun q hq => by rw [ht q hq]; exact Bool.false_ne_true
  have found : l.find? (fun q => !s.accepts w q.2 q.1) = none := List.find?_eq_none.2 fun q hq => by rw [ha q hq]; exact Bool.false_ne_true
  rw [checkOps, plain, found, Bool.and_false]
  rfl

/-- A change of a ring rests on what it makes of that ring. -/
theorem modRing_congr {g : Group} {i : Nat} {f h : Ring → Ring} (e : f (g.ring i) = h (g.ring i)) : g.modRing i f = g.modRing i h := by
  have rings : ∀ (l : List Ring) (i : Nat), f (l.getD i Ring.fresh) = h (l.getD i Ring.fresh) → modifyAt l i f = modifyAt l i h := by
    intro l
    induction l with
    | nil => exact fun _ _ => rfl
    | cons x xs ih =>
      intro i hi
      cases i with
      | zero => exact congrArg (· :: xs) hi
      | succ i => exact congrArg (x :: ·) (ih i hi)
  rw [Group.modRing, rings _ _ e, Group.modRing]

/-! The instructions -/

section exec
variable {s : State} {w : Nat} (hw : s.running = some w)
include hw

omit hw in
theorem portNum_of {n : BitVec 4} (hn : n.toNat < 8) : portNum s w (.q n) = .ok n.toNat := by
  have ok : s.accepts w { port := true } (.q n) = true := by rw [State.accepts, if_pos hn, Bool.or_true]
  rw [portNum, checkOps_of (by simp [namesTrapState]) (by simpa using ok)]
  rfl

theorem exec_qbind (push : Bool) {n r : BitVec 4} (hn : n.toNat < 8) (hr : r.toNat < (s.waveGroup w).rings.length) :
    exec (.qbind push (.q n) r) s = .next (completed s w (s.modWave w fun y => { y with ports := y.ports.set n.toNat (some (r, push)) })) := by
  refine issue_completes hw ?_
  simp only [portNum_of hn, demandRing_fresh hr, eff_ok_bind, eff_pure]

theorem exec_qbindUn {n : BitVec 4} (hn : n.toNat < 8) :
    exec (.qbindUn (.q n)) s = .next (completed s w (s.modWave w fun y => { y with ports := y.ports.set n.toNat none })) := by
  refine issue_completes hw ?_
  simp only [portNum_of hn, eff_ok_bind, eff_pure]

section peek
variable {g : Guards} {d : BitVec 6} {n : BitVec 4} (hc : checkOps s w [(.v d, .onlyV), (.q n, { pop := true })] = .ok ())
include hc

theorem exec_qpeek_none (pe : BitVec 3) (hm : activeMask s w g = 0) : exec (.qpeek g (.v d) (.q n) pe) s = .next (completed s w s) := by
  refine issue_completes hw ?_
  simp only [peekAt, hc, hm, eff_ok_bind, beq_self_eq_true, if_true, eff_pure]

theorem exec_qpeek {po : PopOut} (pe : BitVec 3) (hm : activeMask s w g ≠ 0) (hp : popAll false s w (activeMask s w g) [.q n] = .ok po) :
    let e := srcOf s w po.pops 1 (.q n)
    exec (.qpeek g (.v d) (.q n) pe) s = .next (completed s w ((s.modWave w fun y => if po.m = 0 then y
      else y.setV d.toNat po.m ((List.range y.id.width).map e.val)
        (if po.lost.isSome then e.md.getD 0 ||| 0x10000#32 else e.md.getD 0)).modWave w fun y => y.setP pe (activeMask s w g) po.m)) := by
  refine issue_completes hw ?_
  simp only [peekAt, hc, hp, mask_nonzero hm, Bool.false_eq_true, if_false, eff_ok_bind, eff_pure, beq_iff_eq]
  rfl

end peek

section eos
variable {b : Opnd} {n : BitVec 4} {v : Word} {ri : Nat} (hc : checkOps s w [(.q n, { push := true }), (b, .count)] = .ok ())
  (hu : uni1 s w b = .ok v) (hp : (s.wave w).port n.toNat = some (ri, true))
  (hs : (s.waveLaunch w).r.det = true → ((s.waveGroup w).ring ri).engine = true → s.enginesStill (s.wave w).id.core = true)
include hc hu hp hs

/-- `qeos` waits for no engine: what is left is its token. -/
theorem exec_qeos_token : exec (.qeos (.q n) b) s = issue s fun _ => demand ((s.waveGroup w).ring ri).eos.isNone 0x12#6 >>= fun _ =>
    .ok (s.modGroup (s.wave w).id.group fun g => g.modRing ri fun q => q.endStream (v.extractLsb' 0 8)) := by
  have still : ((s.waveLaunch w).r.det && ((s.waveGroup w).ring ri).engine && !s.enginesStill (s.wave w).id.core) = false := by
    rw [Bool.eq_false_iff]
    intro waits
    simp only [Bool.and_eq_true, Bool.not_eq_true'] at waits
    rw [hs waits.1.1 waits.1.2] at waits
    exact Bool.noConfusion waits.2
  show execQeos (.q n) b s = _
  rw [execQeos, issue, issueWith, issue, issueWith, hw]
  simp only [hc, hu, regOf, hp, still, eff_ok_bind, Bool.false_eq_true, if_false, eff_pure]

theorem exec_qeos (he : ((s.waveGroup w).ring ri).eos = none) : exec (.qeos (.q n) b) s = .next (completed s w
    (s.modGroup (s.wave w).id.group fun g => g.modRing ri fun y => { y with stopping := false, eos := some (y.head + y.occ.length, v.extractLsb' 0 8) })) := by
  have token : ∀ q : Ring, q.eos = none → ∀ st, q.endStream st = { q with stopping := false, eos := some (q.head + q.occ.length, st) } := by
    intro q hq st
    rw [Ring.endStream, hq]
    rfl
  rw [exec_qeos_token hw hc hu hp hs]
  refine issue_completes hw ?_
  rw [demand_of (by rw [he]; rfl), eff_ok_bind]
  exact congrArg (fun y => (.ok (s.setGroup (s.wave w).id.group y) : Eff State)) (modRing_congr (token _ he _))

theorem exec_qeos_again (he : ((s.waveGroup w).ring ri).eos ≠ none) : exec (.qeos (.q n) b) s = .next (s.trapped w { code := 0x12#6 }) := by
  rw [exec_qeos_token hw hc hu hp hs]
  refine issue_traps hw (demand_stops ?_ ..)
  exact Option.isNone_eq_false_iff.2 (Option.isSome_iff_ne_none.2 he)

end eos

theorem exec_qstat {q : BitVec 6} {n : BitVec 4} (hn : n.toNat < 8) :
    exec (.qstat (.s q) (.q n)) s = .next (completed s w (s.modWave w fun y => y.setS q.toNat (s.portState w n.toNat))) := by
  have ok : s.accepts w { port := true, evq := true } (.q n) = true := by rw [State.accepts, if_pos hn, Bool.or_true]
  refine issue_completes hw ?_
  rw [checkOps_of (by simp [namesTrapState]) (by simpa using ⟨rfl, ok⟩), eff_ok_bind]
  exact if_pos hn

theorem exec_qstat_event {q : BitVec 6} : exec (.qstat (.s q) (.q 12#4)) s = .next (completed s w
    ((s.modWave w fun y => { y with evq := y.evq.tail }).modWave w fun y => y.setS q.toNat ((s.wave w).evq.headD 0))) := by
  refine issue_completes hw ?_
  rw [checkOps_of (by simp [namesTrapState]) (by simp [State.accepts, Accept.onlyS]), eff_ok_bind]
  have rest : (s.modWave w fun y => { y with evq := y.evq.tail }) = s.modWave w fun y => { y with evq := (s.wave w).evq.tail } := rfl
  rw [rest]
  cases he : (s.wave w).evq with
  | nil =>
    rw [modWave_id (f := fun y => { y with evq := [].tail }) (by rw [List.tail_nil, ← he])]
    rfl
  | cons e t =>
    rfl

end exec

/-! Waves that waited -/

/-- A lane-wise instruction is its act over the lanes of the current path. -/
theorem exec_vecForm {i : Instr} {f : VecForm} (h : vecForm i = some f) (s : State) : exec i s = issue s fun w => f.act (s.wave w).exec s w := by
  unfold vecForm at h
  split at h <;> cases h <;> rfl

theorem ringGo_vec {s : State} {w : Nat} {i : Instr} {f : VecForm} (hd : decodeWord (s.wave w).word = .ok i) (h : vecForm i = some f) :
    ringGo s w = exec i (s.giveIssue w) := by
  have word : decodeWord ((s.giveIssue w).wave w).word = .ok i := hd
  rw [exec_vecForm h]
  unfold ringGo
  extract_lets u
  rw [word]
  split
  · rename_i e
    cases e
    cases h
  · rename_i e
    cases e
    rw [h]
  · rename_i e
    cases e

theorem ringGo_peek {s : State} {w : Nat} {g : Guards} {d a : Opnd} {pe : BitVec 3} (hd : decodeWord (s.wave w).word = .ok (.qpeek g d a pe)) :
    ringGo s w = exec (.qpeek g d a pe) (s.giveIssue w) := by
  have word : decodeWord ((s.giveIssue w).wave w).word = .ok (.qpeek g d a pe) := hd
  unfold ringGo
  extract_lets u
  rw [word]
  rfl

/-- The event by which a wave that waited at a pop or a push goes on. -/
theorem exec_ringEvent {s : State} {w : Nat} (push : Bool) (hr : (s.ringReady w && s.mayIssue w) = true) (hs : s.waitsAt w push = true) :
    exec (if push then .ringPush w else .ringPop w) s = ringGo s w := by
  have go : (s.waitsAt w push && s.ringReady w && s.mayIssue w) = true := by rw [Bool.and_assoc, hs, hr]; rfl
  cases push with
  | true => exact if_pos go
  | false => exact if_pos go

/-- Settles O59: the instructions one by one, and the events by the instruction that waited. -/
theorem ringsComplete : Obligations.RingsComplete := by
  refine ⟨fun s w b r v n d q pe g po ri hw => ?_, fun s r w i f g d a pe ready => ?_⟩
  · intro x grp onRing declared
    exact ⟨fun push hn hr => exec_qbind hw push hn hr, exec_qbindUn hw, fun hc => ⟨exec_qpeek_none hw hc pe, fun hm hp => exec_qpeek hw hc pe hm hp⟩,
      fun hc hu hp hs => ⟨exec_qeos hw hc hu hp hs, exec_qeos_again hw hc hu hp hs⟩, exec_qstat hw, exec_qstat_event hw⟩
  · intro u ev push waits word running
    have goes := exec_ringEvent push ready waits
    refine ⟨fun hf act => ?_, fun hi act => ?_⟩
    · have done_ : exec i u = .next (completed u w r) := (exec_vecForm hf u).trans (issue_completes running act)
      exact ⟨(goes.trans (ringGo_vec word hf)).trans done_, done_⟩
    · subst hi
      have done_ : exec (.qpeek g d a pe) u = .next (completed u w r) := issue_completes running act
      exact ⟨(goes.trans (ringGo_peek word)).trans done_, done_⟩

end Sys2Proof.Proofs
end

section
/-! PROOF. The steps of the stream engines: what the oldest command of an engine comes to, by its kind (spec/06 R230 to R236, R240, R244;
spec/14 R435, R441). -/

open Sys2Proof Sys2Proof.Machine Sys2Proof.Claims

namespace Sys2Proof.Proofs

/-- A box of a plain command that moves boxes: none for rings, stamps and collectives, which have steps of their own. -/
def boxAct (s : State) (x : SCmd) : Option (Eng (State × SCmd)) :=
  match x.kind with
  | .fill => some (fillStep s x)
  | .drain => some (drainStep s x)
  | .copy => some (copyStep s x)
  | .mcast => some (mcastStep s x)
  | .auto => some (autoStep s x)
  | .bopm => some (bopmStep s x)
  | _ => none

/-- What follows a box that has been moved: the next one, or the command's end. -/
def boxMoved (u : State) (c : Nat) (se : Bool) (y : SCmd) : State :=
  if y.box + 1 < y.boxes then u.modQueue c se fun q => { y with box := y.box + 1 } :: q.drop 1
  else u.finishStream c se { y with box := y.box + 1 } y.status

theorem boxDone_plain {u : State} {c : Nat} {se : Bool} {y : SCmd} (h : y.kind ≠ .rfill) : u.boxDone c se y = boxMoved u c se y := by
  have plain : (y.kind == .rfill) = false := beq_eq_false_iff_ne.2 h
  rw [State.boxDone]
  simp only [plain, Bool.false_and, Bool.false_eq_true, if_false]
  rfl

@[simp] theorem eng_ok_bind {α β : Type} (a : α) (f : α → Eng β) : ((Except.ok a : Eng α) >>= f) = f a := rfl

/-- A step that comes to its end has come to the end of each of its parts. -/
theorem eng_bind_ok {α β : Type} {a : Eng α} {f : α → Eng β} {r : β} (h : a >>= f = .ok r) : ∃ v, a = .ok v ∧ f v = .ok r := by
  cases a with
  | error e => cases h
  | ok v => exact ⟨v, rfl, h⟩

/-- A box leaves its command's kind. -/
theorem boxAct_kind {s u : State} {x y : SCmd} (h : boxAct s x = some (.ok (u, y))) : y.kind = x.kind ∧ x.kind ≠ .rfill := by
  unfold boxAct at h
  split at h <;> rename_i hk
  case h_4 =>
    obtain ⟨v, -, h⟩ := eng_bind_ok (Option.some.inj h)
    cases h
    exact ⟨rfl, by rw [hk]; decide⟩
  case h_7 => cases h
  all_goals
    obtain ⟨v, -, h⟩ := eng_bind_ok (Option.some.inj h)
    obtain ⟨v, -, h⟩ := eng_bind_ok h
    cases h
    exact ⟨rfl, by rw [hk]; decide⟩

section head
variable {s : State} {c : Nat} {se : Bool} {x : SCmd} (hx : headOf s c se x)
include hx

/-- The oldest command of an engine that nothing holds takes the step that its state allows. -/
theorem seStep_of {ok : SCmd → Bool} (h : ok x = true) (f : State → SCmd → State) : seStep s c se ok f = .next (f s x).tick := by
  obtain ⟨head, held, stamp⟩ := hx
  rw [seStep, State.seHead, head]
  exact event_of (by rw [h, held, stamp]; rfl) rfl

/-! A command starts, or stops where it stands -/

theorem exec_streamCommandStart (hs : x.started = false) (ha : x.cancel ≠ none ∨ s.acquireWaits x.wave x.key x.o = false) :
    exec (.streamCommandStart c se) s = .next (match x.cancel with
      | some e => s.stopStream c se x e
      | none => if x.kind = SKind.stamp then s.finishStream c se x x.status
        else s.modQueue c se fun q => { x with started := true } :: q.drop 1).tick := by
  have ok : (!x.started && (x.cancel.isSome || !s.acquireWaits x.wave x.key x.o)) = true := by
    rw [hs]
    obtain ha | ha := ha
    · rw [Option.isSome_iff_ne_none.2 ha]; rfl
    · rw [ha, Bool.not_false, Bool.or_true]; rfl
  refine (seStep_of hx ok _).trans ?_
  simp only [beq_iff_eq]
  rfl

theorem exec_streamBoxStep_cancelled {st : BitVec 8} (hs : x.started = true) (hc : x.cancel = some st) (hn : x.claim = none) :
    exec (.streamBoxStep c se) s = .next (s.stopStream c se x st).tick := by
  refine (seStep_of hx hs _).trans ?_
  rw [hc, hn]

/-- A fill of a ring brings its claimed unit, cancelled or not. -/
theorem exec_streamBoxStep_claimed {pos : Nat} (hs : x.started = true) (hk : x.kind = .rfill) (hp : x.claim = some pos) :
    exec (.streamBoxStep c se) s = .next ((s.afterBox c se x (rfillStep s x pos)).settleStop c x.group x.a).tick := by
  refine (seStep_of hx hs _).trans ?_
  rw [hp, hk]
  cases x.cancel <;> rfl

section goes
variable (hs : x.started = true) (hc : x.cancel = none)
include hs hc

/-- A plain command moves a box. -/
theorem exec_streamBoxStep_box {r : Eng (State × SCmd)} (ha : boxAct s x = some r) :
    exec (.streamBoxStep c se) s = .next (s.afterBox c se x r).tick := by
  refine (seStep_of hx hs _).trans ?_
  rw [hc]
  unfold boxAct at ha
  split at ha <;> rename_i hk
  case h_7 => cases ha
  all_goals
    cases ha
    rw [hk]

/-- A command of a collective takes its box. -/
theorem exec_streamBoxStep_coll {r : CollRec} (hk : x.kind = .coll) (hr : x.coll = some r) :
    exec (.streamBoxStep c se) s = .next (s.collStep c se x r).tick := by
  refine (seStep_of hx hs _).trans ?_
  rw [hc, hk, hr]

variable (ht : s.ringTurn c se x = true)
include ht

theorem exec_rfillUnitClaim (hk : x.kind = .rfill) (hn : x.claim = none) :
    exec (.rfillUnitClaim c se) s = .next (s.rfillClaim c se x).tick := seStep_of hx (by rw [hs, hk, hn, hc, ht]; rfl) _

theorem exec_rdrainUnitTake (hk : x.kind = .rdrain) : exec (.rdrainUnitTake c se) s = .next (s.rdrainTake c se x).tick :=
  seStep_of hx (by rw [hs, hk, hc, ht]; rfl) _

end goes
end head

/-! Units of a ring -/

section unit
variable {s : State} {c : Nat} {se : Bool} {x : SCmd}

theorem rfillClaim_ended (he : (s.cmdRing x).eos ≠ none) : s.rfillClaim c se x = s.stopStream c se x 5 :=
  if_pos (Option.isSome_iff_ne_none.2 he)

section unended
variable (he : (s.cmdRing x).eos = none)
include he

theorem rfillClaim_waits (hr : (s.cmdRing x).room < (s.cmdRing x).unit) : s.rfillClaim c se x = s := by
  simp only [State.rfillClaim, he, Option.isSome_none, Bool.false_eq_true, if_false, if_pos hr]

variable (hr : (s.cmdRing x).unit ≤ (s.cmdRing x).room)
include hr

theorem rfillClaim_claims {r : State × List (List Byte)} (hb : readBox x.issuer s x.amr x.slot x.box = .ok r) :
    s.rfillClaim c se x = (s.modCmdRing x fun r => r.append r.unit false).setHead c se { x with claim := some (s.cmdRing x).tail } := by
  simp only [State.rfillClaim, he, Option.isSome_none, Bool.false_eq_true, if_false, if_neg (Nat.not_lt.2 hr), hb]

theorem rfillClaim_fails {st : BitVec 8} (hb : readBox x.issuer s x.amr x.slot x.box = .error (.status st)) :
    s.rfillClaim c se x = s.stopStream c se x st := by
  simp only [State.rfillClaim, he, Option.isSome_none, Bool.false_eq_true, if_false, if_neg (Nat.not_lt.2 hr), hb]

end unended

/-- Elements at the head are written as a box, and leave the head. -/
theorem rdrainStep_of {u v : State} {rs ws : List Loc} {n : Nat} {crc : Option Word}
    (ho : engOpen x.issuer s [] (rangesOf (boxWrites x.slot x.box (unplaced x.slot (s.headBytes x n)))) (s.headLost x n) = .ok (u, rs, ws))
    (hp : engPut x.issuer u x.crc (boxWrites x.slot x.box (unplaced x.slot (s.headBytes x n))) ws = .ok (v, crc)) :
    rdrainStep s x n = .ok (v.modCmdRing x fun r => r.take n, { x with crc := crc }) := by
  simp only [rdrainStep, ho, hp, eng_ok_bind]
  rfl

theorem rdrainTake_full {u : State} {y : SCmd} (hf : (s.cmdRing x).unit ≤ (s.cmdRing x).count) (hk : y.kind ≠ .rfill)
    (hr : rdrainStep s x (s.cmdRing x).unit = .ok (u, y)) : s.rdrainTake c se x = boxMoved u c se y := by
  rw [State.rdrainTake]
  simp only [if_pos hf, hr, State.afterBox, boxDone_plain hk]

theorem rdrainTake_rest {u : State} {y : SCmd} {n : Nat} (hf : ¬ (s.cmdRing x).unit ≤ (s.cmdRing x).count)
    (he : (s.cmdRing x).beforeEos = some n) (hr : rdrainStep s x n = .ok (u, y)) : s.rdrainTake c se x =
      let own := match (s.cmdRing x).eos with | some e => e.2 | none => 0
      u.finishStream c se y (if x.eos = true ∧ own ≠ 0 then own else x.status) := by
  rw [State.rdrainTake]
  simp only [if_neg hf, he, hr, Bool.and_eq_true, bne_iff_ne]
  cases (s.cmdRing x).eos <;> rfl

theorem rdrainTake_waits (hf : ¬ (s.cmdRing x).unit ≤ (s.cmdRing x).count) (he : (s.cmdRing x).beforeEos = none) : s.rdrainTake c se x = s := by
  rw [State.rdrainTake]
  simp only [if_neg hf, he]

end unit

/-! Collectives -/

section coll
variable {s u : State} {c : Nat} {se : Bool} {x : SCmd} {r : CollRec} {elems : List Nat}

theorem collStep_refused (hs : x.stage = .refused) : s.collStep c se x r = s.finishStream c se x 2 := by
  rw [State.collStep, hs]

theorem collStep_reads {cells : List (List Byte)} (hs : x.stage = .reading elems) (hb : readBox x.issuer s x.amr x.slot x.box = .ok (u, cells)) :
    s.collStep c se x r = if x.box + 1 < x.slot.nBoxes then
        u.setHead c se { x with box := x.box + 1, stage := .reading (enterBox x.slot x.box cells elems) }
      else u.sourceRead c se x r (enterBox x.slot x.box cells elems) := by
  rw [State.collStep, hs]
  simp only [hb]

theorem collStep_writes {fl : Flags} {crc : Option Word} (hs : x.stage = .writing elems fl)
    (hw : engWrites x.issuer s x.crc (collWrites x r elems fl) = .ok (u, crc)) :
    s.collStep c se x r = if x.box + 1 < x.dst.nBoxes then u.setHead c se { x with box := x.box + 1, crc := crc }
      else u.finishStream c se { x with box := x.box + 1, crc := crc } 0 := by
  rw [State.collStep, hs]
  simp only [hw, decide_eq_true_eq]
  by_cases h : x.dst.nBoxes ≤ x.box + 1
  · rw [if_pos h, if_neg (by omega)]
  · rw [if_neg h, if_pos (by omega)]

/-- The source of a rank is read, and entered in its collective run. -/
def sourceEntered (u : State) (c : Nat) (se : Bool) (x : SCmd) (r : CollRec) (elems : List Nat) : State :=
  ({ u with insts := u.insts.map fun j => if u.instOf x r j then { j with got := j.got ++ [(r.rank, elems)] } else j } : State).modQueue c se fun q =>
    { x with stage := .read } :: q.drop 1

/-- The collective run of the command has the source too. -/
theorem sourceEntered_finds {i : CollInst} (hi : u.insts.find? (u.instOf x r) = some i) :
    (sourceEntered u c se x r elems).insts.find? ((sourceEntered u c se x r elems).instOf x r) = some { i with got := i.got ++ [(r.rank, elems)] } := by
  have entered : ∀ j, u.instOf x r (if u.instOf x r j then { j with got := j.got ++ [(r.rank, elems)] } else j) = u.instOf x r j := by
    intro j
    split <;> rfl
  show (u.insts.map _).find? (u.instOf x r) = _
  rw [List.find?_map, show (u.instOf x r ∘ fun j => if u.instOf x r j then { j with got := j.got ++ [(r.rank, elems)] } else j) = u.instOf x r from
    funext entered, hi, Option.map_some, if_pos (List.find?_some hi)]

/-- When the last rank's source is read the result goes to every command of the collective run, and the collective run ends. -/
theorem sourceRead_of {i : CollInst} (hi : u.insts.find? (u.instOf x r) = some i) :
    let v := sourceEntered u c se x r elems
    let srcs := (sortBy (fun (a b : Nat × List Nat) => decide (a.1 ≤ b.1)) (i.got ++ [(r.rank, elems)])).map fun q => q.2
    let res := collResult r x.slot.outFmt (FEnv.ofAmr x.amr) ((v.prime x.wave r.midx).getD 1) i.primes srcs
    let done_ := v.modMembers (v.members (v.group x.group).launch r.cid r.k) fun z => { z with stage := .writing res.1 res.2, box := 0 }
    let t := if i.got.length < i.nrm then v else { done_ with insts := done_.insts.filter fun j => !v.instOf x r j }
    u.sourceRead c se x r elems = if r.receives then t else t.finishStream c se x 0 := by
  intro v srcs res done_ t
  have settled : v.settleInstance x r = t := by
    have found : v.insts.find? (v.instOf x r) = some { i with got := i.got ++ [(r.rank, elems)] } := sourceEntered_finds hi
    rw [State.settleInstance, found]
    dsimp only
    rw [List.length_append, List.length_singleton]
    rfl
  show (if r.receives then v.settleInstance x r else (v.settleInstance x r).finishStream c se x 0) = _
  rw [settled]

end coll

/-! The start of a collective run -/

section starts
variable {s : State} {l k : Nat} {cid : BitVec 32} {h : Member} {rest : List Member}

/-- The commands of a collective run that wait, in the order of their ranks. -/
def waitingMembers (s : State) (l : Nat) (cid : BitVec 32) (k : Nat) : List Member :=
  sortBy (fun (a b : Member) => decide (a.rec_.rank ≤ b.rec_.rank)) ((s.members l cid k).filter fun m => m.cmd.stage == .waiting && m.cmd.cancel.isNone)

/-- The waiting commands `ms` of a collective run, `h` the first, begin to read; or they are refused where they disagree. -/
def instanceStarted (s : State) (ms : List Member) (l : Nat) (cid : BitVec 32) (k : Nat) (h : Member) : State :=
  if collAgrees s ms h then
    let v := s.modMembers ms fun x => { x with stage := .reading (List.replicate x.slot.cellCount 0) }
    { v with insts := v.insts ++ [{ launch := l, cid := cid, k := k, nrm := h.rec_.nrm, primes := ms.map fun m => (s.rankPrimes m).map fun p => p.getD 1,
                                    got := [], groups := ms.map fun m => m.cmd.group }] }
  else s.modMembers ms fun x => { x with stage := .refused }

theorem exec_collectiveInstanceStart (hm : waitingMembers s l cid k = h :: rest) (hh : ∀ m ∈ waitingMembers s l cid k, s.engineHeld m.cmd.group = false)
    (hr : ∀ r, r ≤ h.rec_.nrm → ∃ m ∈ waitingMembers s l cid k, m.rec_.rank = r) :
    exec (.collectiveInstanceStart l cid k) s = .next (instanceStarted s (waitingMembers s l cid k) l cid k h).tick := by
  have free : ((waitingMembers s l cid k).any fun m => s.engineHeld m.cmd.group) = false := List.any_eq_false.2 fun m hm => by
    rw [hh m hm]; exact Bool.false_ne_true
  have ranks : ((List.range (h.rec_.nrm + 1)).all fun r => (waitingMembers s l cid k).any fun m => m.rec_.rank == r) = true := by
    refine List.all_eq_true.2 fun r hmem => List.any_eq_true.2 ?_
    obtain ⟨m, hm, rank⟩ := hr r (Nat.lt_succ_iff.1 (List.mem_range.1 hmem))
    exact ⟨m, hm, beq_iff_eq.2 rank⟩
  have go : (!((waitingMembers s l cid k).any fun m => s.engineHeld m.cmd.group) &&
      (List.range (h.rec_.nrm + 1)).all fun r => (waitingMembers s l cid k).any fun m => m.rec_.rank == r) = true := by rw [free, ranks]; rfl
  clear hh hr free ranks
  show execCollectiveInstanceStart l cid k s = _
  unfold execCollectiveInstanceStart
  extract_lets ms
  have is : waitingMembers s l cid k = ms := rfl
  rw [is] at hm go ⊢
  clear_value ms
  subst hm
  exact event_of go rfl

end starts

end Sys2Proof.Proofs
end

section
/-! PROOF. What an engine's accesses leave alone: the groups, and the form of memory (spec/06 R231, R234; spec/04 R176). -/

open Sys2Proof Sys2Proof.Machine Sys2Proof.Claims

namespace Sys2Proof.Proofs

/-! Places -/

theorem fetchPage_groups (s : State) (p c va d : Nat) (pin : Bool) : (s.fetchPage p c va d pin).1.groups = s.groups := by
  have written : ∀ (u : State) pa level sz raw, (u.writeGroup pa level sz raw).groups = u.groups := fun u pa level sz raw => by
    unfold State.writeGroup
    exact foldl_keeps State.groups (fun v q => v.putLe q 8 raw) (fun _ _ => rfl) _ u
  have blurred : ∀ (u : State) b pa n, (u.blurAlias b pa n).groups = u.groups := fun u b pa n => ite_keeps State.groups rfl rfl
  unfold State.fetchPage
  split
  · rfl
  split
  · rfl
  · rfl
  split
  · rfl
  split
  · rfl
  dsimp only
  split
  · rfl
  split
  · rfl
  split
  · rfl
  · exact (written ..).trans ((blurred ..).trans rfl)

theorem resolve_groups {s t : State} {g d p c va n : Nat} {want : Want} {l : Loc} (h : s.resolve g d p c va n want = some (t, l)) :
    t.groups = s.groups := by
  unfold State.resolve at h
  split at h
  · cases h
  split at h
  · split at h
    · cases h; rfl
    · cases h
  split at h
  · cases h; exact (translate_onlyPages ‹_›).groups
  · cases h
  · cases h
  · have fetched := fetchPage_groups s p c va d false
    split at h
    · rename_i hp
      rw [hp] at fetched
      split at h
      · cases h; exact (translate_onlyPages ‹_›).groups.trans fetched
      · cases h
    · cases h

/-- An engine has obtained the places of its ranges, one to a range. -/
theorem engPlaces_ok {k : Issuer} {want : Want} {l : List (Nat × Nat)} {s t : State} {ls : List Loc} (h : engPlaces k want s l = .ok (t, ls)) :
    t.groups = s.groups ∧ (s.memOk → t.memOk) ∧ ls.length = l.length := by
  induction l generalizing s ls with
  | nil => cases h; exact ⟨rfl, id, rfl⟩
  | cons q l ih =>
    unfold engPlaces at h
    dsimp only at h
    split at h
    · cases h
    split at h
    · cases h
    · rename_i r
      cases hr : engPlaces k want ‹State› l with
      | error e => rw [hr] at h; cases h
      | ok v =>
        rw [hr] at h
        cases h
        obtain ⟨groups, mem, length⟩ := ih hr
        exact ⟨groups.trans (resolve_groups r), fun hm => mem (resolve_wf hm r), congrArg (· + 1) length⟩

theorem engOpen_ok {k : Issuer} {s t : State} {reads writes : List (Nat × Nat)} {lost : Bool} {rs ws : List Loc}
    (h : engOpen k s reads writes lost = .ok (t, rs, ws)) :
    t.groups = s.groups ∧ (s.memOk → t.memOk) ∧ rs.length = reads.length := by
  obtain ⟨⟨u, ls⟩, hr, h⟩ := eng_bind_ok h
  obtain ⟨⟨v, ls'⟩, hw, h⟩ := eng_bind_ok h
  dsimp only at h
  split at h
  · cases h
  split at h
  · cases h
  split at h
  · cases h
  cases h
  obtain ⟨rg, rm, rl⟩ := engPlaces_ok hr
  obtain ⟨wg, wm, -⟩ := engPlaces_ok hw
  exact ⟨wg.trans rg, fun hm => wm (rm hm), rl⟩

/-! The race detector -/

theorem logRace_groups (s : State) (w : Nat) (a : Access) (pos : Pos) (lane va entry : Nat) : (s.logRace w a pos lane va entry).groups = s.groups := by
  unfold State.logRace
  have put : ∀ {u : State} (x : Nat) (bs : List Byte), u.groups = s.groups →
      (match u.resolve (s.wave w).id.group (u.waveDie w) (s.wave w).id.part (s.wave w).id.ctx x bs.length .store with
        | some (s', .mem pa) => s'.writeMem (placed pa bs)
        | some (s', .sp _) => s'
        | none => u).groups = s.groups := by
    intro u x bs hu
    split
    · rw [writeMem_groups, resolve_groups ‹_›, hu]
    · rw [resolve_groups ‹_›, hu]
    · exact hu
  exact ite_keeps State.groups (put _ _ rfl) (put _ _ (put _ _ rfl))

theorem logConflicts_groups (s : State) (w : Nat) (a : Access) (by_ : Origin) (cs : List (Nat × Nat × Nat × Nat)) :
    (s.logConflicts w a by_ cs).groups = s.groups := by
  have each : ∀ ks : List Nat, (ks.foldl (fun (u : State) k => match cs.find? fun q => q.2.2.1 == k with
      | some q => u.logRace w a by_.pos q.1 q.2.1 q.2.2.2
      | none => u) s).groups = s.groups := fun ks => foldl_keeps State.groups _ (fun u k => by
    split
    · exact logRace_groups ..
    · rfl) ks s
  unfold State.logConflicts
  dsimp only
  split
  · exact each _
  · exact (modWave_groups ..).trans (each _)

theorem recordAccesses_groups (s : State) (w : Nat) (a : Access) (l : List (Nat × Nat × Nat)) : (s.recordAccesses w a l).groups = s.groups := by
  unfold State.recordAccesses
  extract_lets c ks t u sc e
  have acquired : ∀ (v : State) (x : Bool) (f : Wave → Wave), (if x = true then v.modWave w f else v).groups = v.groups :=
    fun v x f => ite_keeps State.groups rfl rfl
  have ht : t.groups = s.groups := ite_keeps State.groups (foldl_keeps State.groups _ (fun v k => acquired ..) _ s) rfl
  have hu : u.groups = s.groups := ite_keeps State.groups ht ht
  have written : (ks.foldl (fun v k => v.putLe (c.shbase + 8 * k) 8 e.toNat) u).groups = u.groups :=
    foldl_keeps State.groups (fun v k => v.putLe (c.shbase + 8 * k) 8 e.toNat) (fun v k => rfl) _ u
  exact ite_keeps State.groups hu (written.trans hu)

@[simp] theorem raceEngine_groups (s : State) (w : Nat) (a : Access) (by_ : Origin) (l : List (Nat × Nat)) : (s.raceEngine w a by_ l).groups = s.groups := by
  unfold State.raceEngine
  extract_lets mode l
  exact ite_keeps State.groups rfl ((recordAccesses_groups ..).trans (ite_keeps State.groups (logConflicts_groups ..) rfl))

theorem raceEngine_off {s : State} {w : Nat} (h : (s.waveLaunch w).r.race = 0) (a : Access) (by_ : Origin) (l : List (Nat × Nat)) :
    s.raceEngine w a by_ l = s := by
  simp only [State.raceEngine, h, beq_self_eq_true, Bool.true_or, if_true]

/-! The writes of a step -/

/-- Bytes enter the scratchpad of a group, and that of its twin where the write is direct. -/
def scratchWritten (s : State) (g : Nat) (direct : Bool) (bs : List (Nat × Byte)) : State :=
  if bs.isEmpty then s
  else
    let s := s.modGroup g fun x => x.spWrite bs
    match (if direct then (s.group g).sibling else none) with
    | some t => s.modGroup t fun x => x.spWrite bs
    | none => s

/-- The bytes of scratchpad go first, then those of memory: to staging, or home. -/
theorem engineWriteAll_eq (s : State) (g : Nat) (direct : Bool) (spb mb : List (Nat × Byte)) : s.engineWriteAll g direct spb mb =
    let u := scratchWritten s g direct spb
    if mb.isEmpty then u
    else
      let v := u.touchCode (mb.map fun c => c.1)
      if v.staged g && !direct then v.modGroup g fun x => x.stage mb
      else (v.copyCores g).foldl (fun s c => s.l1Drop c (mb.map fun c => c.1 / 32).eraseDups) (v.writeMem mb) := rfl

/-- What scratchpad writes keep is kept by their elementary updates. -/
theorem scratchWritten_keeps {β : Type} (p : State → β) (hp : ∀ s g bs, p (s.modGroup g fun x => x.spWrite bs) = p s) (s : State) (g : Nat)
    (direct : Bool) (bs : List (Nat × Byte)) : p (scratchWritten s g direct bs) = p s := by
  unfold scratchWritten
  dsimp only
  split
  · rfl
  split
  · exact (hp ..).trans (hp ..)
  · exact hp ..

theorem scratchWritten_mem (s : State) (g : Nat) (direct : Bool) (bs : List (Nat × Byte)) : (scratchWritten s g direct bs).mem = s.mem :=
  scratchWritten_keeps State.mem (fun _ _ _ => rfl) ..

theorem scratchWritten_staged (s : State) (g : Nat) (direct : Bool) (bs : List (Nat × Byte)) (h : Nat) :
    (scratchWritten s g direct bs).staged h = s.staged h := by
  refine scratchWritten_keeps (fun s => s.staged h) (fun s g bs => ?_) ..
  have launch : ((s.modGroup g fun x => x.spWrite bs).group h).launch = (s.group h).launch := group_modGroup_keeps Group.launch s g h rfl
  rw [State.staged, launch]
  rfl

theorem scratchWritten_read {s : State} {g : Nat} (hg : g < s.groups.length) (hw : (s.group g).sp.wf = true) (direct : Bool)
    (bs : List (Nat × Byte)) (off : Nat) : ((scratchWritten s g direct bs).group g).sp.read off =
      ((bs.reverse.find? fun c => c.1 == off).map fun c => c.2).getD ((s.group g).sp.read off) := by
  have once := read_writeAll hw bs off
  have written : ((s.modGroup g fun x => x.spWrite bs).group g).sp = (s.group g).sp.writeAll bs := congrArg Group.sp (group_modGroup_same s g _ hg)
  unfold scratchWritten
  dsimp only
  split
  · rename_i empty
    rw [List.isEmpty_iff.1 empty]
    rfl
  split
  · rename_i t _
    by_cases ht : t = g
    · subst ht
      rw [group_modGroup_same _ _ _ (by simpa using hg)]
      show ((Group.sp _).writeAll bs).read off = _
      rw [written, read_writeAll (Memory.writeAll_wf hw _), once]
      cases (bs.reverse.find? fun c => c.1 == off) <;> rfl
    · rw [group_modGroup_other _ _ _ _ (Ne.symm ht), written, once]
  · rw [written, once]

/-- Bytes of scratchpad alone enter the scratchpad of the group. -/
theorem engineWriteAll_scratch {s : State} {g : Nat} (hg : g < s.groups.length) (hw : (s.group g).sp.wf = true) (direct : Bool)
    (bs : List (Nat × Byte)) (off : Nat) : ((s.engineWriteAll g direct bs []).group g).sp.read off =
      ((bs.reverse.find? fun c => c.1 == off).map fun c => c.2).getD ((s.group g).sp.read off) := scratchWritten_read hg hw direct bs off

/-- Memory takes the bytes where the group stages nothing. -/
theorem engineWriteAll_home {s : State} {g : Nat} (hs : s.staged g = false) (direct : Bool) (spb mb : List (Nat × Byte)) :
    (s.engineWriteAll g direct spb mb).mem = s.mem.writeAll mb := by
  rw [engineWriteAll_eq]
  cases mb with
  | nil => exact scratchWritten_mem ..
  | cons b mb =>
    dsimp only
    rw [if_neg (show ¬ (b :: mb).isEmpty = true from Bool.false_ne_true), touchCode_staged, scratchWritten_staged, hs, Bool.false_and,
      if_neg Bool.false_ne_true, foldl_keeps State.mem _ (fun _ _ => l1Drop_mem ..), writeMem_mem, touchCode_mem, scratchWritten_mem]

end Sys2Proof.Proofs
end

section
/-! PROOF. Lists of places and of cells: what is dealt to the places that have an address, and the image that placed cells make
(spec/06 R222, R223). -/

open Sys2Proof Sys2Proof.Machine Sys2Proof.Claims

namespace Sys2Proof.Proofs

/-! Places numbered over those that count -/

section ranks
variable {α β γ : Type}

/-- How many numbers below `i` have a value. -/
def rankBelow (f : Nat → Option α) (i : Nat) : Nat := ((List.range i).filter fun j => (f j).isSome).length

theorem rankBelow_eq (f : Nat → Option α) (n : Nat) : ((List.range n).filterMap f).length = rankBelow f n := by
  rw [List.length_filterMap_eq_countP, List.countP_eq_length_filter]
  rfl

theorem rankBelow_congr {f : Nat → Option α} {g : Nat → Option β} (h : ∀ j, (f j).isSome = (g j).isSome) (i : Nat) :
    rankBelow f i = rankBelow g i := by
  simp only [rankBelow, h]

theorem rankBelow_succ (f : Nat → Option α) (i : Nat) : rankBelow f (i + 1) = rankBelow f i + if (f i).isSome then 1 else 0 := by
  simp only [rankBelow, List.range_succ, List.filter_append, List.length_append, List.filter_singleton]
  cases (f i).isSome <;> rfl

/-- A place's value stands among the values at its rank. -/
theorem getElem?_filterMap_rank {f : Nat → Option α} {i n : Nat} (hi : i < n) (hf : (f i).isSome = true) :
    ((List.range n).filterMap f)[rankBelow f i]? = f i := by
  obtain ⟨x, hx⟩ := Option.isSome_iff_exists.1 hf
  induction n with
  | zero => omega
  | succ n ih =>
    rw [List.range_succ, List.filterMap_append]
    by_cases hn : i = n
    · subst hn
      rw [← rankBelow_eq, List.getElem?_append_right (Nat.le_refl _), Nat.sub_self, List.filterMap_cons, hx]
      rfl
    · have before := ih (by omega)
      rw [List.getElem?_append_left, before]
      exact (List.getElem?_eq_some_iff.1 (before.trans hx)).1

theorem zip_append_drop (ws : List β) (a b : List α) : ws.zip (a ++ b) = ws.zip a ++ (ws.drop a.length).zip b := by
  induction a generalizing ws with
  | nil => simp
  | cons x a ih =>
    cases ws with
    | nil => rfl
    | cons w ws => exact congrArg (_ :: ·) (ih ws)

/-- What `h` makes of a place's value, where there is one, and of the item that is its own. -/
def ownItem (h : β × α → List γ) (w : Option β) (x : Option α) : List γ :=
  match x, w with
  | some x, some w => h (w, x)
  | _, _ => []

/-- Items dealt out to the values go to each by its rank. -/
theorem flatMap_zip_filterMap (h : β × α → List γ) (ws : List β) (f : Nat → Option α) (n : Nat) :
    (ws.zip ((List.range n).filterMap f)).flatMap h = (List.range n).flatMap fun i => ownItem h ws[rankBelow f i]? (f i) := by
  induction n with
  | zero => simp
  | succ n ih =>
    rw [List.range_succ, List.filterMap_append, zip_append_drop, List.flatMap_append, List.flatMap_append, ih, rankBelow_eq,
      List.flatMap_singleton, ← List.head?_drop]
    congr 1
    cases hf : f n with
    | none => simp [ownItem, hf]
    | some x => cases ws.drop (rankBelow f n) <;> simp [ownItem, hf]

end ranks

/-! Cells that are dealt what has been read -/

section dealing
variable {α : Type} (convert : α → List Byte → List Byte) (zero : List Byte)

/-- One cell more of a box as it is moved: what is left of the ranges read, and the cells so far, the last first. -/
def dealCell (acc : List (List Byte) × List (List Byte)) (c : Option α) : List (List Byte) × List (List Byte) :=
  match c, acc.1 with
  | some q, bs :: rest => (rest, convert q bs :: acc.2)
  | _, rest => (rest, zero :: acc.2)

/-- The cells of a box from the ranges read. -/
def dealt (got : List (List Byte)) (cells : List (Option α)) : List (List Byte) := (cells.foldl (dealCell convert zero) (got, [])).2.reverse

variable {convert}

/-- With no conversion a cell in the tensor has the range of its rank, and any other is zero. -/
theorem dealt_range (hc : ∀ q bs, convert q bs = bs) (got : List (List Byte)) (f : Nat → Option α) (n : Nat) :
    dealt convert zero got ((List.range n).map f) = (List.range n).map fun i => if (f i).isSome then got.getD (rankBelow f i) zero else zero := by
  have fold : ((List.range n).map f).foldl (dealCell convert zero) (got, []) = (got.drop (rankBelow f n),
      ((List.range n).map fun i => if (f i).isSome then got.getD (rankBelow f i) zero else zero).reverse) := by
    induction n with
    | zero => rfl
    | succ n ih =>
      rw [List.range_succ, List.map_append, List.foldl_append, ih, rankBelow_succ, List.map_append, List.reverse_append]
      cases hf : f n with
      | none => simp [dealCell, hf]
      | some q =>
        cases hd : got.drop (rankBelow f n) with
        | nil =>
          have out : got[rankBelow f n]? = none := by rw [← List.head?_drop, hd]; rfl
          have none_left : got.drop (rankBelow f n + 1) = [] := by rw [← List.drop_drop, hd]; rfl
          simp [dealCell, hf, out, none_left]
        | cons bs rest =>
          have this_one : got[rankBelow f n]? = some bs := by rw [← List.head?_drop, hd]; rfl
          have rest_left : got.drop (rankBelow f n + 1) = rest := by rw [← List.drop_drop, hd]; rfl
          simp [dealCell, hf, this_one, rest_left, hc]
  rw [dealt, fold, List.reverse_reverse]

end dealing

/-! Images of equal cells -/

/-- An item of a list of equally long lists, in their concatenation. -/
theorem getElem?_flatten_uniform {α : Type} {es : Nat} {cells : List (List α)} (h : ∀ c ∈ cells, c.length = es) {i k : Nat} (hk : k < es) :
    cells.flatten[es * i + k]? = cells[i]?.bind (·[k]?) := by
  induction cells generalizing i with
  | nil => simp
  | cons c cells ih =>
    have long : c.length = es := h c (by simp)
    cases i with
    | zero => simp [List.getElem?_append_left (show k < c.length by omega)]
    | succ i =>
      have past : es * (i + 1) + k - c.length = es * i + k := by rw [long, Nat.mul_succ]; omega
      rw [List.flatten_cons, List.getElem?_append_right (by rw [long, Nat.mul_succ]; omega), past, ih fun c hc => h c (by simp [hc])]
      rfl

theorem placed_append_list (a : Nat) (bs cs : List Byte) : placed a (bs ++ cs) = placed a bs ++ placed (a + bs.length) cs := by
  induction cs using List.reverseRecOn with
  | nil => simp [placed]
  | append_singleton cs c ih => rw [← List.append_assoc, placed_append, ih, placed_append, List.append_assoc, List.length_append, Nat.add_assoc]

/-- Equal cells written one behind the other are their concatenation written. -/
theorem placed_cells {es : Nat} {cells : List (List Byte)} (h : ∀ c ∈ cells, c.length = es) (m : Memory) :
    (cells.zipIdx.foldl (fun (m : Memory) q => m.writeAll (placed (es * q.2) q.1)) m) = m.writeAll (placed 0 cells.flatten) := by
  induction cells using List.reverseRecOn with
  | nil => rfl
  | append_singleton cells c ih =>
    have whole : cells.flatten.length = es * cells.length := by
      rw [List.length_flatten, List.map_congr_left fun c hc => h c (by simp [hc]), List.map_const', List.sum_replicate, smul_eq_mul, Nat.mul_comm]
    rw [List.zipIdx_append, List.foldl_append, ih fun c hc => h c (by simp [hc]), List.flatten_append, placed_append_list, writeAll_append, whole]
    simp

end Sys2Proof.Proofs
end

section
/-! PROOF. The geometry of a plain slot: its cells are the tensor's elements in box order, and stand in scratchpad one behind the other
(spec/06 R219, R222, R223). -/

open Sys2Proof Sys2Proof.Machine Sys2Proof.Claims

namespace Sys2Proof.Proofs

/-! Digits -/

/-- Below the product of five radices the digits are those of the mixed radix. -/
theorem digitsOf_mixed {r : Nat → Nat} {n : Nat} (h : n < productOf ((List.range 5).map r)) :
    digitsOf ((List.range 5).map r) n = (List.range 5).map (mixedDigit r n) := by
  have last : n / (r 0 * r 1 * r 2 * r 3) % r 4 = n / (r 0 * r 1 * r 2 * r 3) := by
    refine Nat.mod_eq_of_lt (Nat.div_lt_of_lt_mul ?_)
    simpa [productOf, List.range_succ] using h
  simp only [List.range_succ, List.range_zero, List.nil_append, List.cons_append, List.map_cons, List.map_nil, digitsOf, mixedDigit,
    List.foldl_cons, List.foldl_nil, Nat.one_mul, Nat.div_one, Nat.div_div_eq_div_mul, last]

theorem ofDigits_digitsOf {rs : List Nat} (h : rs ≠ []) (n : Nat) : ofDigits rs (digitsOf rs n) = n := by
  induction rs generalizing n with
  | nil => exact (h rfl).elim
  | cons r rs ih =>
    cases rs with
    | nil => simp [digitsOf, ofDigits]
    | cons r' rs =>
      show n % r + r * ofDigits (r' :: rs) (digitsOf (r' :: rs) (n / r)) = n
      rw [ih (by simp), Nat.mod_add_div]

theorem digitsOf_ne_nil {rs : List Nat} (h : rs ≠ []) (n : Nat) : digitsOf rs n ≠ [] := by
  match rs, h with
  | [_], _ => simp [digitsOf]
  | _ :: _ :: _, _ => simp [digitsOf]

/-- Terms that are all zero from a number on add nothing. -/
theorem foldl_add_zeros (f : Nat → Int) {m n : Nat} (hm : m ≤ n) (hz : ∀ d, m ≤ d → d < n → f d = 0) :
    (List.range n).foldl (fun acc d => acc + f d) 0 = (List.range m).foldl (fun acc d => acc + f d) 0 := by
  obtain ⟨k, rfl⟩ := Nat.exists_eq_add_of_le hm
  induction k with
  | zero => rfl
  | succ k ih =>
    rw [← Nat.add_assoc, List.range_succ, List.foldl_append, ih (Nat.le_add_right ..) fun d hd hk => hz d hd (by omega),
      List.foldl_cons, List.foldl_nil, hz (m + k) (by omega) (by omega), Int.add_zero]

/-! Coordinates -/

/-- Elements of a box along a dimension. -/
def boxSide (l : Layout) (d : Nat) : Nat := l.boxes.getD d 1

/-- Boxes along a dimension. -/
def gridSide (l : Layout) (d : Nat) : Nat := if d < l.rank then (l.sizes.getD d 0 + boxSide l d - 1) / boxSide l d else 1

/-- Coordinate `d` of element `i` of box `b`. -/
def coordinate (l : Layout) (b i d : Nat) : Nat := mixedDigit (gridSide l) b d * boxSide l d + mixedDigit (boxSide l) i d

/-- Bytes from the base to an element, along one dimension. -/
def reachAlong (l : Layout) (b i d : Nat) : Int := (coordinate l b i d : Int) * (if d = 0 then (elementBytes l : Int) else l.strides.getD d 0)

theorem elementAddress_eq (l : Layout) (b i : Nat) : elementAddress l b i =
    if (List.range l.rank).all fun d => decide (coordinate l b i d < l.sizes.getD d 0) then
      some (((l.base.toNat : Int) + (List.range l.rank).foldl (fun acc d => acc + reachAlong l b i d) 0) % 2 ^ 64).toNat
    else none := rfl

section plain
variable {l : Layout} (hp : plainSlot l)
include hp

theorem plain_sfmt : l.sfmt ≠ 12 ∧ l.sfmt ≠ 13 ∧ l.sfmt ≠ 14 := by
  obtain ⟨-, -, -, fmt, -⟩ := hp
  omega

theorem plain_os : l.os = elementBytes l := by
  obtain ⟨conv, -⟩ := hp
  rw [Layout.os, conv]
  rfl

theorem plain_readBytes : l.readBytes = elementBytes l := by
  obtain ⟨conv, -⟩ := hp
  rw [Layout.readBytes, conv]
  rfl

theorem plain_convert (amr : Word) (q : Nat × Nat) (bs : List Byte) : l.convert amr q.2 bs = bs := by
  obtain ⟨-, h13, h14⟩ := plain_sfmt hp
  obtain ⟨conv, -⟩ := hp
  simp [Layout.convert, conv, h13, h14]

theorem plain_perCell : l.perCell = 1 := if_neg (by simpa using (plain_sfmt hp).1)

theorem plain_ext : l.ext = boxSide l := by
  funext d
  rw [Layout.ext, plain_perCell hp, Nat.div_one]
  split
  · subst d; rfl
  · rfl

theorem plain_size (d : Nat) : l.size d = l.sizes.getD d 0 := by
  rw [Layout.size, plain_perCell hp, Nat.div_one]
  split
  · subst d; rfl
  · rfl

theorem plain_grid : l.grid = gridSide l := by
  funext d
  rw [Layout.grid, plain_ext hp, plain_size hp]
  rfl

theorem plain_exts : l.exts = (List.range 5).map (boxSide l) := congrArg (List.map · _) (plain_ext hp)

theorem plain_boxCells : l.boxCells = boxElements l := congrArg productOf (plain_exts hp)

theorem plain_boxBytes : l.boxBytes = elementBytes l * boxElements l := by rw [Layout.boxBytes, plain_os hp, plain_boxCells hp]

/-- Element `i` stands in the placed box at `i` times its size. -/
theorem plain_offset (i : Nat) : l.offset i = elementBytes l * i := by
  have os := plain_os hp
  have sides : l.exts ≠ [] := by simp [Layout.exts]
  obtain ⟨-, logn, swz, -⟩ := hp
  have same : ∀ y : List Nat, y ≠ [] → l.permute (y.getD 0 0) :: y.drop 1 = y := fun y hy => by
    cases y with
    | nil => exact (hy rfl).elim
    | cons a y => rw [Layout.permute, logn]; rfl
  rw [Layout.offset, swz]
  simp only [beq_self_eq_true, if_true]
  rw [same _ (digitsOf_ne_nil sides i), ofDigits_digitsOf sides, os]

/-- Beyond the rank every coordinate is zero. -/
theorem plain_coordinate_zero (b i : Nat) {d : Nat} (hd : l.rank ≤ d) (h5 : d < 5) : coordinate l b i d = 0 := by
  obtain ⟨-, -, -, -, -, -, one⟩ := hp
  have side : boxSide l d = 1 := one d h5 hd
  have grid : gridSide l d = 1 := if_neg (by omega)
  simp only [coordinate, mixedDigit, side, grid, Nat.mod_one]

variable {b i : Nat} (hb : b < l.nBoxes) (hi : i < boxElements l)
include hb hi

theorem plain_coords : l.coords b i = (List.range 5).map (coordinate l b i) := by
  have grid : digitsOf ((List.range 5).map l.grid) b = (List.range 5).map (mixedDigit (gridSide l) b) := by
    rw [plain_grid hp]
    exact digitsOf_mixed (by rwa [Layout.nBoxes, plain_grid hp] at hb)
  have side : digitsOf l.exts i = (List.range 5).map (mixedDigit (boxSide l) i) := by
    rw [plain_exts hp]
    exact digitsOf_mixed hi
  rw [Layout.coords, grid, side, plain_ext hp]
  refine List.map_congr_left fun d hd => ?_
  have h5 : d < 5 := List.mem_range.1 hd
  simp [h5, coordinate]

theorem plain_coord {d : Nat} (hd : d < 5) : (l.coords b i).getD d 0 = coordinate l b i d := by simp [plain_coords hp hb hi, hd]

theorem plain_inTensor : l.inTensor (l.coords b i) = (List.range l.rank).all fun d => decide (coordinate l b i d < l.sizes.getD d 0) := by
  obtain ⟨-, -, -, -, -, r5, -⟩ := id hp
  rw [Layout.inTensor, Bool.eq_iff_iff, List.all_eq_true, List.all_eq_true]
  simp only [List.mem_range, plain_size hp]
  constructor
  · intro h d hd
    have here := h d (by omega)
    rwa [if_pos hd, plain_coord hp hb hi (by omega)] at here
  · intro h d hd
    rw [plain_coord hp hb hi hd]
    split
    · exact h d ‹_›
    · exact beq_iff_eq.2 (plain_coordinate_zero hp b i (by omega) hd)

theorem plain_address : l.address (l.coords b i) =
    (((l.base.toNat : Int) + (List.range l.rank).foldl (fun acc d => acc + reachAlong l b i d) 0) % 2 ^ 64).toNat := by
  obtain ⟨conv, -, -, -, -, r5, -⟩ := id hp
  have off : (List.range 5).foldl (fun acc d => if d = 0 then acc else acc + ((l.coords b i).getD d 0 : Int) * l.strides.getD d 0)
      ((((l.coords b i).getD 0 0) * sfmtBytes l.sfmt : Nat) : Int) = (List.range l.rank).foldl (fun acc d => acc + reachAlong l b i d) 0 := by
    rw [← foldl_add_zeros (reachAlong l b i) r5 fun d hd h5 => by rw [reachAlong, plain_coordinate_zero hp b i hd h5]; simp]
    rw [plain_coords hp hb hi]
    simp only [List.range_succ, List.range_zero, List.nil_append, List.cons_append, List.map_cons, List.map_nil, List.foldl_cons, List.foldl_nil,
      reachAlong, Int.zero_add, if_pos, Nat.add_one_ne_zero, if_false, Nat.cast_mul]
    rfl
  rw [Layout.address]
  simp only [conv, bne_self_eq_false, Bool.false_eq_true, if_false]
  rw [off, BitVec.toNat_add, BitVec.toNat_ofInt]
  omega

end plain

section cells
variable {l : Layout} (hp : plainSlot l) {b : Nat} (hb : b < l.nBoxes)
include hp hb

/-- The cells of a box of a plain slot are its elements. -/
theorem plain_cells : l.cells b = (List.range (boxElements l)).map fun i => (elementAddress l b i).map fun a => (a, coordinate l b i 0) := by
  rw [Layout.cells, plain_boxCells hp]
  refine List.map_congr_left fun i hi => ?_
  have hi : i < boxElements l := List.mem_range.1 hi
  simp only [plain_inTensor hp hb hi, plain_address hp hb hi, plain_coord hp hb hi (show 0 < 5 by omega), elementAddress_eq]
  split <;> rfl

theorem plain_readRanges : ((l.cells b).filterMap fun c => c.map fun q => (q.1, l.readBytes)) = elementRanges l b := by
  rw [plain_cells hp hb, plain_readBytes hp, List.filterMap_map, elementRanges]
  congr 1
  funext i
  exact Option.map_map ..

/-- A destination box is written element by element. -/
theorem plain_boxWrites (f : Nat → List Byte) : boxWrites l b ((List.range (boxElements l)).map fun i => some (f i)) =
    (List.range (boxElements l)).filterMap fun i => (elementAddress l b i).map fun a => (a, f i) := by
  obtain ⟨-, h13, h14⟩ := plain_sfmt hp
  rw [boxWrites, plain_cells hp hb, List.zip_map', List.filterMap_map]
  congr 1
  funext i
  cases h : elementAddress l b i <;> simp [h, h13, h14]

theorem plain_boxRanges : boxRanges l b = elementRanges l b := by
  have whole : List.replicate (boxElements l) (some (List.replicate (elementBytes l) 0#8)) =
      (List.range (boxElements l)).map fun _ => some (List.replicate (elementBytes l) 0#8) := by simp
  rw [boxRanges, plain_boxCells hp, plain_os hp, whole, plain_boxWrites hp hb, rangesOf, List.map_filterMap, elementRanges]
  congr 1
  funext i
  cases elementAddress l b i <;> simp

end cells

/-- The elements of a box from its image in scratchpad. -/
theorem plain_unplaced {l : Layout} (hp : plainSlot l) {img : List Byte} (h : img.length = elementBytes l * boxElements l) :
    unplaced l img = (List.range (boxElements l)).map fun i => some (takeBytes img (elementBytes l * i) (elementBytes l)) := by
  obtain ⟨-, h13, h14⟩ := plain_sfmt hp
  simp only [unplaced, plain_boxCells hp, plain_offset hp, plain_os hp]
  refine List.map_congr_left fun i hi => ?_
  have fits : elementBytes l * i + elementBytes l ≤ img.length := by
    rw [h, ← Nat.mul_succ]
    exact Nat.mul_le_mul_left _ (List.mem_range.1 hi)
  simp [h13, h14, fits]

end Sys2Proof.Proofs
end

section
/-! PROOF. A box of a plain fill and of a plain drain: what it leaves in scratchpad and in memory, byte by byte (spec/06 R222, R223, R228,
R231). -/

open Sys2Proof Sys2Proof.Machine Sys2Proof.Claims

namespace Sys2Proof.Proofs

theorem elementBytes_pos (l : Layout) : 0 < elementBytes l := by
  unfold elementBytes
  split
  · decide
  split <;> decide

theorem elementRank_eq (l : Layout) (b i : Nat) : elementRank l b i = rankBelow (elementAddress l b) i := rfl

/-! What an engine reads -/

theorem engineRead_eq (s : State) (g : Nat) (l : Loc) (n : Nat) : s.engineRead g l n = (List.range n).map fun k => s.engineByte g (l.plus k) := by
  cases l <;> rfl

@[simp] theorem engineRead_length (s : State) (g : Nat) (l : Loc) (n : Nat) : (s.engineRead g l n).length = n := by simp [engineRead_eq]

/-- Reads that have been opened bring their bytes. -/
theorem engMove_of {k : Issuer} {s v : State} {reads writes : List (Nat × Nat)} {rs ws : List Loc} (ho : engOpen k s reads writes = .ok (v, rs, ws)) :
    engMove k s reads writes =
      .ok (v.raceEngine k.wave { kind := .engineRead, acq := Order.acquires k.o, rel := false, sc := k.sc } k.origin reads,
        (rs.zip reads).map fun q => v.engineRead k.group q.1 q.2.2, ws) := by
  rw [engMove, ho]
  rfl

/-- Element `i` of a box as an engine of group `g` reads it at its place: zero outside the tensor. -/
def fillCell (v : State) (g : Nat) (l : Layout) (b : Nat) (rs : List Loc) (i : Nat) : List Byte :=
  if (elementAddress l b i).isSome then v.engineRead g (rs.getD (elementRank l b i) (.sp 0)) (elementBytes l) else List.replicate (elementBytes l) 0#8

@[simp] theorem fillCell_length (v : State) (g : Nat) (l : Layout) (b : Nat) (rs : List Loc) (i : Nat) :
    (fillCell v g l b rs i).length = elementBytes l := by
  unfold fillCell
  split <;> simp

theorem getElem?_fillCell (v : State) (g : Nat) (l : Layout) (b : Nat) (rs : List Loc) (i : Nat) {k : Nat} (hk : k < elementBytes l) :
    (fillCell v g l b rs i)[k]? =
      some (if (elementAddress l b i).isSome then v.engineByte g ((rs.getD (elementRank l b i) (.sp 0)).plus k) else 0) := by
  unfold fillCell
  split <;> simp [engineRead_eq, hk]

/-- What is read at the place of an element. -/
theorem elementRead {l : Layout} {b : Nat} {rs : List Loc} (hl : rs.length = (elementRanges l b).length) {i : Nat} (hi : i < boxElements l)
    (ht : (elementAddress l b i).isSome = true) (v : State) (g : Nat) (zero : List Byte) :
    ((rs.zip (elementRanges l b)).map fun q => v.engineRead g q.1 q.2.2).getD (elementRank l b i) zero =
      v.engineRead g (rs.getD (elementRank l b i) (.sp 0)) (elementBytes l) := by
  have same : ∀ j, (elementAddress l b j).isSome = ((elementAddress l b j).map fun a => (a, elementBytes l)).isSome := by simp
  obtain ⟨a, ha⟩ := Option.isSome_iff_exists.1 ht
  have range : (elementRanges l b)[elementRank l b i]? = some (a, elementBytes l) := by
    rw [elementRank_eq, rankBelow_congr same, elementRanges, getElem?_filterMap_rank hi (by rw [← same, ht]), ha]
    rfl
  have within : elementRank l b i < rs.length := hl ▸ (List.getElem?_eq_some_iff.1 range).1
  have pair : (rs.zip (elementRanges l b))[elementRank l b i]? = some (rs[elementRank l b i], (a, elementBytes l)) :=
    List.getElem?_zip_eq_some.2 ⟨List.getElem?_eq_getElem within, range⟩
  simp [List.getD_eq_getElem?_getD, pair, within]

section plain
variable {l : Layout} (hp : plainSlot l) {b : Nat} (hb : b < l.nBoxes) {k : Issuer} {s v : State} {rs ws : List Loc}
include hp hb

/-- The cells of a source box whose elements have been opened. -/
theorem moveBox_plain {writes : List (Nat × Nat)} (amr : Word) (ho : engOpen k s (elementRanges l b) writes = .ok (v, rs, ws)) :
    moveBox k s amr l b writes =
      .ok (v.raceEngine k.wave { kind := .engineRead, acq := Order.acquires k.o, rel := false, sc := k.sc } k.origin (elementRanges l b),
        (List.range (boxElements l)).map (fillCell v k.group l b rs), ws) := by
  obtain ⟨-, -, lengths⟩ := engOpen_ok ho
  have dealt_cells : ∀ got : List (List Byte), dealt (fun (q : Nat × Nat) bs => l.convert amr q.2 bs) (List.replicate l.os 0#8) got (l.cells b) =
      (List.range (boxElements l)).map fun i => if (elementAddress l b i).isSome then
        got.getD (elementRank l b i) (List.replicate l.os 0#8) else List.replicate l.os 0#8 := by
    intro got
    have same : ∀ j, ((elementAddress l b j).map fun a => (a, coordinate l b j 0)).isSome = (elementAddress l b j).isSome := by simp
    rw [plain_cells hp hb, dealt_range _ (plain_convert hp amr)]
    simp only [same, rankBelow_congr same, elementRank_eq]
  unfold moveBox
  extract_lets cells zero
  rw [show (cells.filterMap fun c => c.map fun q => (q.1, l.readBytes)) = elementRanges l b from plain_readRanges hp hb, engMove_of ho, eng_ok_bind]
  have result := dealt_cells ((rs.zip (elementRanges l b)).map fun q => v.engineRead k.group q.1 q.2.2)
  refine congrArg (fun c => Except.ok (_, c, ws)) (Eq.trans ?_ (result.trans ?_))
  · refine congrArg (fun r : List (List Byte) × List (List Byte) => r.2.reverse) (List.foldl_ext _ _ _ fun acc c _ => ?_)
    obtain ⟨left, cells⟩ := acc
    cases c <;> cases left <;> rfl
  · refine List.map_congr_left fun i hi => ?_
    rw [fillCell, plain_os hp]
    split
    · exact elementRead lengths (List.mem_range.1 hi) ‹_› ..
    · rfl

end plain

theorem length_cells {es n : Nat} {f : Nat → List Byte} (hf : ∀ i, (f i).length = es) : (((List.range n).map f).flatten).length = es * n := by
  simp [List.length_flatten, Function.comp_def, hf, Nat.mul_comm]

/-- The image of a box of a plain slot is its cells one behind the other. -/
theorem imageBytes_plain {l : Layout} (hp : plainSlot l) {f : Nat → List Byte} (hf : ∀ i, (f i).length = elementBytes l) :
    imageBytes l ((List.range (boxElements l)).map f) = ((List.range (boxElements l)).map f).flatten := by
  have equal : ∀ c ∈ (List.range (boxElements l)).map f, c.length = elementBytes l := by
    intro c hc
    obtain ⟨i, -, rfl⟩ := List.mem_map.1 hc
    exact hf i
  have long : (((List.range (boxElements l)).map f).flatten).length = elementBytes l * boxElements l := length_cells hf
  generalize hc : (List.range (boxElements l)).map f = cells at equal long
  have image : (placedImage l cells).foldl (fun (m : Memory) q => m.writeAll (placed q.1 q.2)) [] = Memory.writeAll [] (placed 0 cells.flatten) := by
    rw [placedImage, List.foldl_map, ← placed_cells equal]
    simp only [plain_offset hp]
  rw [imageBytes]
  simp only [image]
  refine List.ext_getElem? fun j => ?_
  rw [Memory.readN, plain_boxBytes hp, List.getElem?_map]
  by_cases hj : j < elementBytes l * boxElements l
  · have there : cells.flatten[j]? = some cells.flatten[j] := List.getElem?_eq_getElem (by rw [long]; exact hj)
    rw [List.getElem?_range hj, Option.map_some, read_writeAll rfl, find_placed, Nat.zero_add, if_pos (Nat.zero_le j), Nat.sub_zero, there]
    rfl
  · rw [List.getElem?_eq_none (by simpa using hj), List.getElem?_eq_none (by rw [long]; omega)]
    rfl

/-- Equally long cells that fill a box, as bytes: the byte at `j` is byte `j % es` of cell `j / es`. -/
theorem getElem?_cells {es n : Nat} (hes : 0 < es) {f : Nat → List Byte} (hf : ∀ i, (f i).length = es) {j : Nat} (hj : j < es * n) :
    (((List.range n).map f).flatten)[j]? = (f (j / es))[j % es]? := by
  have equal : ∀ c ∈ (List.range n).map f, c.length = es := by
    intro c hc
    obtain ⟨i, -, rfl⟩ := List.mem_map.1 hc
    exact hf i
  have cell : j / es < n := Nat.div_lt_of_lt_mul hj
  calc (((List.range n).map f).flatten)[j]?
      = (((List.range n).map f).flatten)[es * (j / es) + j % es]? := by rw [Nat.div_add_mod]
    _ = (f (j / es))[j % es]? := by simp [getElem?_flatten_uniform equal (Nat.mod_lt j hes), cell]

/-! A write of one range of scratchpad -/

theorem engApply_scratch {s t : State} {g : Nat} {direct : Bool} {o : Nat} {bs : List Byte}
    (h : engApply s g direct [(.sp o, bs)] = .ok t) : t = s.engineWriteAll g direct (placed o bs) [] := by
  have split : splitWrites [(.sp o, bs)] = (placed o bs, []) := by simp [splitWrites]
  rw [engApply, split] at h
  dsimp only at h
  split at h
  · cases h
  · cases h; rfl

theorem engPut_ok {k : Issuer} {s t : State} {crc crc' : Option Word} {l : List (Nat × List Byte)} {ws : List Loc}
    (h : engPut k s crc l ws = .ok (t, crc')) :
    engApply (s.raceEngine k.wave { kind := .engineWrite, acq := false, rel := false, sc := k.sc } k.origin (rangesOf l)) k.group k.direct
      (ws.zip (l.map fun q => q.2)) = .ok t := by
  obtain ⟨u, hu, h⟩ := eng_bind_ok h
  cases h
  exact hu

/-- One range that is put in scratchpad enters it there, and nothing else does. -/
theorem engPut_scratch {k : Issuer} {s t : State} {crc crc' : Option Word} {va o : Nat} {bs : List Byte}
    (h : engPut k s crc [(va, bs)] [.sp o] = .ok (t, crc')) (hg : k.group < s.groups.length) (hw : (s.group k.group).sp.wf = true) (off : Nat) :
    (t.group k.group).sp.read off = (if o ≤ off then bs[off - o]? else none).getD ((s.group k.group).sp.read off) := by
  have kept : ∀ {r : State}, r.groups = s.groups → r.group k.group = s.group k.group := fun e => congrArg (List.getD · _ _) e
  have same := kept (raceEngine_groups s k.wave { kind := .engineWrite, acq := false, rel := false, sc := k.sc } k.origin (rangesOf [(va, bs)]))
  have put := engPut_ok h
  rw [show [Loc.sp o].zip ([(va, bs)].map fun q => q.2) = [(.sp o, bs)] from rfl] at put
  rw [engApply_scratch put, engineWriteAll_scratch (by rwa [raceEngine_groups]) (by rwa [same]), find_placed, same]

/-! A write of ranges of memory -/

/-- The bytes that one write puts in memory. -/
def homeBytes (w : Loc × List Byte) : List (Nat × Byte) :=
  match w.1 with
  | .mem p => placed p w.2
  | .sp _ => []

theorem splitWrites_home (l : List (Loc × List Byte)) : (splitWrites l).2 = l.flatMap homeBytes := rfl

/-- Ranges that are put enter memory where the group stages nothing and the detector is off. -/
theorem engPut_home {k : Issuer} {s t : State} {crc crc' : Option Word} {l : List (Nat × List Byte)} {ws : List Loc}
    (h : engPut k s crc l ws = .ok (t, crc')) (hs : s.staged k.group = false) (hr : (s.waveLaunch k.wave).r.race = 0) :
    t.mem = s.mem.writeAll ((ws.zip (l.map fun q => q.2)).flatMap homeBytes) := by
  have put := engPut_ok h
  rw [raceEngine_off hr, engApply] at put
  rw [hs, Bool.false_and, Bool.false_and, if_neg Bool.false_ne_true] at put
  rw [← Except.ok.inj put, engineWriteAll_home hs, splitWrites_home]

theorem takeBytes_range (f : Nat → Byte) {m off n : Nat} (h : off + n ≤ m) :
    takeBytes ((List.range m).map f) off n = (List.range n).map fun k => f (off + k) := by
  have taken : (((List.range m).map f).drop off).take n = (List.range n).map fun k => f (off + k) :=
    List.ext_getElem (by simp; omega) (by simp)
  rw [takeBytes]
  simp [taken]

/-! The boxes -/

/-- Where box `x.box` of a plain command stands in scratchpad. -/
def boxAt (x : SCmd) : Nat := x.a + x.box * (elementBytes x.slot * boxElements x.slot)

/-- Element `i` of the image of a box in scratchpad. -/
def drainCell (s : State) (x : SCmd) (i : Nat) : List Byte :=
  (List.range (elementBytes x.slot)).map fun k => (s.group x.group).sp.read (boxAt x + elementBytes x.slot * i + k)

/-- The bytes that a box of a plain drain writes: each element of the tensor from its place in scratchpad, at its place in memory. -/
def drainWrites (s : State) (x : SCmd) (ws : List Loc) : List (Nat × Byte) :=
  (List.range (boxElements x.slot)).flatMap fun i =>
    if (elementAddress x.slot x.box i).isSome then
      match ws[elementRank x.slot x.box i]? with
      | some (.mem pa) => placed pa (drainCell s x i)
      | _ => []
    else []

/-- A box of a fill that has been moved: its cells were read, and their image written. -/
theorem fillStep_ok {s u : State} {x y : SCmd} (h : fillStep s x = .ok (u, y)) : ∃ m cells ws crc,
    moveBox x.issuer s x.amr x.slot x.box [(windowBase + x.a + x.box * x.slot.boxBytes, x.slot.boxBytes)] = .ok (m, cells, ws) ∧
    engPut x.issuer m x.crc [(windowBase + x.a + x.box * x.slot.boxBytes, imageBytes x.slot cells)] ws = .ok (u, crc) := by
  obtain ⟨⟨m, cells, ws⟩, hm, h⟩ := eng_bind_ok h
  obtain ⟨⟨t, crc⟩, ht, h⟩ := eng_bind_ok h
  obtain ⟨rfl, -⟩ := Prod.mk.inj (Except.ok.inj h)
  exact ⟨m, cells, ws, crc, hm, ht⟩

/-- A box of a drain that has been moved: its image was read, and its elements written. -/
theorem drainStep_ok {s u : State} {x y : SCmd} (h : drainStep s x = .ok (u, y)) : ∃ m img ws crc,
    engMove x.issuer s [(windowBase + x.a + x.box * x.slot.boxBytes, x.slot.boxBytes)] (boxRanges x.slot x.box) = .ok (m, img, ws) ∧
    engPut x.issuer m x.crc (boxWrites x.slot x.box (unplaced x.slot (img.headD []))) ws = .ok (u, crc) := by
  obtain ⟨⟨m, img, ws⟩, hm, h⟩ := eng_bind_ok h
  obtain ⟨⟨t, crc⟩, ht, h⟩ := eng_bind_ok h
  obtain ⟨rfl, -⟩ := Prod.mk.inj (Except.ok.inj h)
  exact ⟨m, img, ws, crc, hm, ht⟩

section boxes
variable {s v u : State} {x y : SCmd} {rs ws : List Loc} (hp : plainSlot x.slot)
include hp

theorem plain_place : windowBase + x.a + x.box * x.slot.boxBytes = windowBase + boxAt x := by rw [boxAt, plain_boxBytes hp, Nat.add_assoc]

/-- The elements of a box as it is read from scratchpad. -/
theorem unplaced_engineRead : unplaced x.slot (s.engineRead x.group (.sp (boxAt x)) (elementBytes x.slot * boxElements x.slot)) =
    (List.range (boxElements x.slot)).map fun i => some (drainCell s x i) := by
  rw [plain_unplaced hp (engineRead_length ..)]
  refine List.map_congr_left fun i hi => congrArg some ?_
  have fits : elementBytes x.slot * i + elementBytes x.slot ≤ elementBytes x.slot * boxElements x.slot := by
    rw [← Nat.mul_succ]
    exact Nat.mul_le_mul_left _ (List.mem_range.1 hi)
  rw [engineRead_eq, takeBytes_range _ fits, drainCell]
  simp only [Loc.plus, State.engineByte, Nat.add_assoc]

variable (hb : x.box < x.slot.nBoxes)
include hb

/-- After a box of a plain fill a byte of its image is that of its element's cell, and any other byte is as it was. -/
theorem fillStep_scratchpad (hg : x.group < s.groups.length) (hw : (s.group x.group).sp.wf = true)
    (ho : engOpen x.issuer s (elementRanges x.slot x.box) [(windowBase + boxAt x, elementBytes x.slot * boxElements x.slot)] =
      .ok (v, rs, [.sp (boxAt x)]))
    (hf : fillStep s x = .ok (u, y)) (off : Nat) : (u.group x.group).sp.read off =
      if boxAt x ≤ off ∧ off < boxAt x + elementBytes x.slot * boxElements x.slot then
        let i := (off - boxAt x) / elementBytes x.slot
        if (elementAddress x.slot x.box i).isSome then
          v.engineByte x.group ((rs.getD (elementRank x.slot x.box i) (.sp 0)).plus ((off - boxAt x) % elementBytes x.slot))
        else 0
      else (s.group x.group).sp.read off := by
  obtain ⟨groups, -, -⟩ := engOpen_ok ho
  obtain ⟨m, cells, ws, crc, hm, ht⟩ := fillStep_ok hf
  rw [plain_place hp, plain_boxBytes hp, moveBox_plain hp hb x.amr ho] at hm
  obtain ⟨state, hc⟩ := Prod.mk.inj (Except.ok.inj hm)
  obtain ⟨hc, hs⟩ := Prod.mk.inj hc
  subst hc hs
  have kept : ∀ {r : State}, r.groups = s.groups → r.group x.group = s.group x.group := fun e => congrArg (List.getD · _ _) e
  have same : m.groups = s.groups := by rw [← state, raceEngine_groups, groups]
  have cell_length := fillCell_length v x.issuer.group x.slot x.box rs
  rw [imageBytes_plain hp cell_length] at ht
  have put := engPut_scratch ht (by rw [same]; exact hg) (by rw [show m.group x.issuer.group = _ from kept same]; exact hw) off
  rw [show m.group x.issuer.group = _ from kept same] at put
  refine Eq.trans put ?_
  by_cases ha : boxAt x ≤ off
  · by_cases hn : off < boxAt x + elementBytes x.slot * boxElements x.slot
    · rw [if_pos ha, if_pos ⟨ha, hn⟩, getElem?_cells (elementBytes_pos _) cell_length (by omega),
        getElem?_fillCell _ _ _ _ _ _ (Nat.mod_lt _ (elementBytes_pos _))]
      rfl
    · rw [if_pos ha, if_neg (fun h => hn h.2), List.getElem?_eq_none (by rw [length_cells cell_length]; omega)]
      rfl
  · rw [if_neg ha, if_neg (fun h => ha h.1)]
    rfl

/-- The elements of a box, dealt to the places that have been obtained, are the bytes that the box writes. -/
theorem drainWrites_eq (ws : List Loc) :
    ((ws.zip ((boxWrites x.slot x.box ((List.range (boxElements x.slot)).map fun i => some (drainCell s x i))).map fun q => q.2)).flatMap homeBytes) =
      drainWrites s x ws := by
  have same : ∀ j, ((elementAddress x.slot x.box j).map fun _ => drainCell s x j).isSome = (elementAddress x.slot x.box j).isSome := by simp
  rw [plain_boxWrites hp hb, List.map_filterMap]
  simp only [Option.map_map, Function.comp_def]
  rw [flatMap_zip_filterMap, drainWrites]
  refine List.flatMap_congr fun i _ => ?_
  rw [rankBelow_congr same, ← elementRank_eq]
  cases elementAddress x.slot x.box i with
  | none => rfl
  | some a =>
    rcases ws[elementRank x.slot x.box i]? with _ | (_ | _) <;> rfl

/-- After a box of a plain drain memory holds its elements, the later of two at one address, and any other byte is as it was. -/
theorem drainStep_memory (hm : s.memOk)
    (ho : engOpen x.issuer s [(windowBase + boxAt x, elementBytes x.slot * boxElements x.slot)] (elementRanges x.slot x.box) =
      .ok (v, [.sp (boxAt x)], ws))
    (hd : drainStep s x = .ok (u, y)) (hs : v.staged x.group = false) (hr : (v.waveLaunch x.wave).r.race = 0) (a : Nat) :
    u.mem.read a = (((drainWrites s x ws).reverse.find? fun c => c.1 == a).map fun c => c.2).getD (v.mem.read a) := by
  obtain ⟨groups, mem, -⟩ := engOpen_ok ho
  obtain ⟨m, img, ws', crc, moved, put⟩ := drainStep_ok hd
  rw [plain_place hp, plain_boxBytes hp, plain_boxRanges hp hb, engMove_of ho, raceEngine_off (show (v.waveLaunch x.issuer.wave).r.race = 0 from hr)] at moved
  obtain ⟨rfl, rest⟩ := Prod.mk.inj (Except.ok.inj moved)
  obtain ⟨rfl, rfl⟩ := Prod.mk.inj rest
  have image : ([Loc.sp (boxAt x)].zip [(windowBase + boxAt x, elementBytes x.slot * boxElements x.slot)]).map
      (fun q => v.engineRead x.issuer.group q.1 q.2.2) =
      [s.engineRead x.group (.sp (boxAt x)) (elementBytes x.slot * boxElements x.slot)] := by
    have kept : v.group x.group = s.group x.group := congrArg (List.getD · _ _) groups
    show [v.engineRead x.group _ _] = _
    simp only [engineRead_eq, Loc.plus, State.engineByte, kept]
  rw [image, List.headD_cons, unplaced_engineRead hp] at put
  rw [engPut_home put hs hr, drainWrites_eq hp hb, read_writeAll (mem hm)]

end boxes

end Sys2Proof.Proofs
end

section
/-! PROOF. The obligation on the stream engines, from the lemmas about their steps and about the boxes of plain fills and drains. -/

open Sys2Proof Sys2Proof.Machine Sys2Proof.Claims

namespace Sys2Proof.Proofs

section head
variable {s u : State} {c : Nat} {se : Bool} {x y : SCmd} (hx : headOf s c se x) (hs : x.started = true) (hc : x.cancel = none)
include hx hs hc

/-- What the three outcomes of a box come to: moved, waiting at a link, or failed. -/
theorem streamBoxStep_outcomes (st : BitVec 8) :
    (boxAct s x = some (.ok (u, y)) → exec (.streamBoxStep c se) s = .next (boxMoved u c se y).tick) ∧
    (boxAct s x = some (.error .hold) → exec (.streamBoxStep c se) s = .next s.tick) ∧
    (boxAct s x = some (.error (.status st)) → exec (.streamBoxStep c se) s = .next (s.stopStream c se x st).tick) := by
  refine ⟨fun h => ?_, fun h => exec_streamBoxStep_box hx hs hc h, fun h => exec_streamBoxStep_box hx hs hc h⟩
  obtain ⟨kind, plain⟩ := boxAct_kind h
  rw [exec_streamBoxStep_box hx hs hc h, ← boxDone_plain (kind ▸ plain)]
  rfl

end head

/-- Settles O60: each step of an engine by the lemma on what it comes to, and the bytes of plain fills and drains by the geometry of
their slots. -/
theorem streamEngineSteps : Obligations.StreamEngineSteps := by
  unfold Obligations.StreamEngineSteps
  refine ⟨fun s u c se x y st hx => ⟨?_, ?_, ?_, ?_, ?_⟩, fun s v u x y rs ws => ?_⟩
  · intro begun hs ha
    exact exec_streamCommandStart hx hs ha
  · exact exec_streamBoxStep_cancelled hx
  · intro pos hs hk hp
    exact exec_streamBoxStep_claimed hx hs hk hp
  · intro hs hc
    refine ⟨streamBoxStep_outcomes hx hs hc st, ?_, ?_⟩
    · intro r hk hr boxed
      have taken := exec_streamBoxStep_coll hx hs hc hk hr
      refine ⟨fun stage => ?_, ?_, ?_⟩
      · rw [taken, collStep_refused stage]
      · intro elems cells i stage read_ found all v srcs res done_ t
        rw [collStep_reads stage read_] at taken
        refine ⟨fun more => ?_, fun last => ?_⟩
        · rw [taken, if_pos more]
          rfl
        · rw [taken, if_neg (Nat.not_lt.2 last)]
          rw [show u.sourceRead c se x r (enterBox x.slot x.box cells elems) = _ from sourceRead_of found]
          rfl
      · intro elems fl crc stage write_
        rw [taken, collStep_writes stage write_]
        rfl
    · intro turn r onRing
      refine ⟨fun hk hn => ?_, ?_, ?_⟩
      · have claim := exec_rfillUnitClaim hx hs hc turn hk hn
        refine ⟨fun he => ?_, fun he hr => ?_, fun cells he hr hb => ?_, fun he hr hb => ?_⟩
        · rw [claim, rfillClaim_ended he]
        · rw [claim, rfillClaim_waits he hr]
        · rw [claim, rfillClaim_claims he hr hb]
          rfl
        · rw [claim, rfillClaim_fails he hr hb]
      · intro hk n v rs ws crc full out hn ho hp t own
        have taken := exec_rdrainUnitTake hx hs hc turn hk
        have step := rdrainStep_of ho hp
        by_cases hf : r.unit ≤ r.count
        · have is_full : full = true := decide_eq_true hf
          obtain rfl : n = r.unit := by rwa [if_pos is_full] at hn
          rw [taken, rdrainTake_full hf (by rw [hk]; decide) step, if_pos is_full]
          rfl
        · have is_rest : ¬ full = true := fun h => hf (of_decide_eq_true h)
          rw [if_neg is_rest] at hn ⊢
          rw [taken, rdrainTake_rest hf hn step]
          rfl
      · intro hk hf he
        rw [exec_rdrainUnitTake hx hs hc turn hk, rdrainTake_waits (Nat.not_le.2 hf) he]
  · intro l k cid h rest ms hm hh hr
    exact exec_collectiveInstanceStart hm hh hr
  · intro l es n o inTensor hp hb hg hw hm
    exact ⟨fun ho hf => fillStep_scratchpad hp hb hg hw ho hf, fun ho hd hs hr => drainStep_memory hp hb hm ho hd hs hr⟩

end Sys2Proof.Proofs
end

section
/-! PROOF. Register instructions of the limb unit on whole numbers: their checks pass, and what is left writes a number to a V or an S
register (spec/07 R254, R255, R258 to R262). -/

open Sys2Proof Sys2Proof.Machine Sys2Proof.Claims

namespace Sys2Proof.Proofs

/-! Numbers -/

theorem bitLength_int (v : Int) : (bitLength v.natAbs : Int) = (if v = 0 then 0 else (Nat.log2 v.natAbs + 1 : Nat) : Int) := by
  by_cases h : v = 0
  · rw [if_pos h, h]
    rfl
  · rw [if_neg h, bitLength, if_neg (Int.natAbs_ne_zero.2 h)]

/-- The limbs of a number shifted to the left, from its bit length (R260). -/
theorem limbCount_shifted {v : Int} (h : v ≠ 0) (k : Nat) : limbCount (v * 2 ^ k).natAbs = (bitLength v.natAbs + k + 31) / 32 := by
  have pos : v.natAbs ≠ 0 := Int.natAbs_ne_zero.2 h
  have two : (2 ^ k : Int).natAbs = 2 ^ k := by rw [Int.natAbs_pow]; rfl
  have shifted : v.natAbs * 2 ^ k ≠ 0 := Nat.mul_ne_zero pos (Nat.two_pow_pos k).ne'
  have low : 2 ^ Nat.log2 v.natAbs ≤ v.natAbs := Nat.log2_self_le pos
  have high : v.natAbs < 2 ^ (Nat.log2 v.natAbs + 1) := Nat.lt_log2_self
  have bits : Nat.log2 (v.natAbs * 2 ^ k) = Nat.log2 v.natAbs + k := by
    refine (Nat.log2_eq_iff shifted).2 ⟨?_, ?_⟩
    · rw [pow_add]
      exact Nat.mul_le_mul_right _ low
    · rw [Nat.add_right_comm, pow_add]
      exact Nat.mul_lt_mul_of_pos_right high (Nat.two_pow_pos k)
  rw [Int.natAbs_mul, two, limbCount, if_neg shifted, bits, bitLength, if_neg pos]
  omega

theorem bitLength_le_iff {n k : Nat} : bitLength n ≤ k ↔ n < 2 ^ k := by
  rw [bitLength]
  split_ifs with h
  · simp [h]
  · rw [Nat.add_one_le_iff, Nat.log2_lt h]

/-- A magnitude shifted to the right, with its sign (R260). -/
theorem shifted_right (v : Int) (k : Nat) : withSign v (if bitLength v.natAbs ≤ k then 0 else v.natAbs / 2 ^ k) =
    (if v < 0 then -(v.natAbs / 2 ^ k : Nat) else (v.natAbs / 2 ^ k : Nat) : Int) := by
  have gone : (if bitLength v.natAbs ≤ k then 0 else v.natAbs / 2 ^ k) = v.natAbs / 2 ^ k := by
    split_ifs with h
    · exact (Nat.div_eq_of_lt (bitLength_le_iff.1 h)).symm
    · rfl
  rw [gone, withSign]

theorem compareInt_natAbs (v u : Int) : compareInt v.natAbs u.natAbs = if v.natAbs < u.natAbs then -1 else if v.natAbs = u.natAbs then 0 else 1 := by
  simp only [compareInt, Nat.cast_lt, Nat.cast_inj]

/-! Sources -/

theorem limbSrcs_eq {s : State} {w : Nat} {m : Mask} {limbs others : List Opnd} {rs : List Src} (h : limbSrcs s w m limbs others = .ok rs) :
    rs = (limbs ++ others).zipIdx.map fun q => srcOf s w [] (q.2 + 1) q.1 := by
  obtain ⟨-, -, hr⟩ := eff_bind_ok.1 h
  split at hr
  · cases hr
  · exact (Except.ok.inj hr).symm

/-- Limb sources that are not longer than the capacity pass the check of R255. -/
theorem limbReads_short {s : State} {w : Nat} {g : Guards} {limbs others : List Opnd} {rs : List Src} (h : limbReads s w g limbs others rs) :
    limbSources s w (rs.take limbs.length) = .ok () :=
  limbSources_ok fun r hr md hm => of_decide_eq_true ((Option.all_eq_true ..).1 (h.2 r hr) md hm)

theorem limbReads_short_first {s : State} {w : Nat} {g : Guards} {a : Opnd} {others : List Opnd} {rs : List Src} (h : limbReads s w g [a] others rs) :
    limbSources s w (rs.take 1) = .ok () := limbReads_short h

theorem limbReads_short_all {s : State} {w : Nat} {g : Guards} {limbs : List Opnd} {rs : List Src} (h : limbReads s w g limbs [] rs) :
    limbSources s w rs = .ok () := by
  have all : rs.take limbs.length = rs := List.take_of_length_le (by rw [limbSrcs_eq h.1]; simp)
  simpa only [all] using limbReads_short h

/-! The shape of a register instruction -/

section ready
variable {s : State} {w : Nat} {g : Guards} {checks : List (Opnd × Accept)} {extra : State → Nat → Bool} {body : State → Nat → Mask → Eff State}
  {e : Bool} (hr : limbReady s w g checks e) (he : extra s w = e)
include hr he

/-- With a lane active and the checks passed, an instruction of class 5 is its body. -/
theorem limbIssue_body {f : Nat → Eff State} (hf : body s w (activeMask s w g) = f w) : limbIssue s g checks extra body = issue s f := by
  obtain ⟨hw, hc, rfl, hm⟩ := hr
  refine issue_same hw ?_
  rw [hc, eff_ok_bind, demand_of he, eff_ok_bind, if_neg (by simpa using hm), hf]

theorem limbIssue_completes {u : State} (hb : body s w (activeMask s w g) = .ok u) : limbIssue s g checks extra body = .next (completed s w u) :=
  (limbIssue_body (f := fun _ => .ok u) hr he hb).trans (issue_completes hr.1 rfl)

theorem limbIssue_traps {t : TrapReq} (hb : body s w (activeMask s w g) = .error (.trap t)) :
    limbIssue s g checks extra body = .next (s.trapped w t) :=
  (limbIssue_body (f := fun _ => .error (.trap t)) hr he hb).trans (issue_traps hr.1 rfl)

end ready

/-! Results -/

theorem putWhole_fits {s : State} {w : Nat} {d : BitVec 6} {v : Int} (h : limbCount v.natAbs ≤ (s.wave w).capacity) :
    putWhole s w (.v d) v = .ok (wroteWhole s w d.toNat v) := by
  rw [putWhole, limbResult_fits h]
  rfl

theorem putWhole_long {s : State} {w : Nat} {d : BitVec 6} {v : Int} (h : (s.wave w).capacity < limbCount v.natAbs) :
    putWhole s w (.v d) v = .error (.trap { code := 0x18#6, addr := BitVec.ofNat 64 (limbCount v.natAbs) }) := by
  rw [putWhole, limbResult_long h]
  rfl

/-- The limbs needed may be asked for ahead of the result. -/
theorem putWhole_of_demand {s : State} {w n : Nat} {d : BitVec 6} {v : Int} (hn : limbCount v.natAbs = n) :
    (demand (decide (n ≤ (s.wave w).capacity)) 0x18#6 (BitVec.ofNat 64 n) >>= fun _ => putWhole s w (.v d) v) = putWhole s w (.v d) v := by
  subst hn
  by_cases h : limbCount v.natAbs ≤ (s.wave w).capacity
  · rw [demand_of (decide_eq_true h)]
    rfl
  · rw [demand_stops (decide_eq_false h), putWhole_long (Nat.lt_of_not_le h)]

section results
variable {s : State} {w : Nat} {g : Guards} {checks : List (Opnd × Accept)} {extra : State → Nat → Bool} {body : State → Nat → Mask → Eff State}
  {e : Bool} (hr : limbReady s w g checks e) (he : extra s w = e) {v : Int}
include hr he

/-- What is left to an instruction is a whole number for a V register: `givesWhole` of it. -/
theorem limbIssue_whole {d : BitVec 6} (hb : body s w (activeMask s w g) = putWhole s w (.v d) v) :
    limbIssue s g checks extra body = .next (if limbCount v.natAbs ≤ (s.wave w).capacity then completed s w (wroteWhole s w d.toNat v)
      else s.trapped w { code := 0x18#6, addr := BitVec.ofNat 64 (limbCount v.natAbs) }) := by
  by_cases h : limbCount v.natAbs ≤ (s.wave w).capacity
  · rw [if_pos h]
    exact limbIssue_completes hr he (hb.trans (putWhole_fits h))
  · rw [if_neg h]
    exact limbIssue_traps hr he (hb.trans (putWhole_long (Nat.lt_of_not_le h)))

end results

/-! The instructions -/

section exec
variable {s : State} {w : Nat} {g : Guards} {d n : BitVec 6} {a b c : Opnd} {rs : List Src} {k j : Word}

theorem exec_blen (hr : limbReady s w g [(.s n, .onlyS), (a, .onlyV)] true) (hl : limbReads s w g [a] [] rs) :
    givesS (.blen g (.s n) a) s w n (bitLength (wholeOf s w rs 0).natAbs) := by
  show execBlen g (.s n) a s = _
  refine limbIssue_completes hr rfl ?_
  rw [hl.1, eff_ok_bind, limbReads_short_all hl]
  rfl

theorem exec_bnorm (hr : limbReady s w g [(.v d, .onlyV), (a, .onlyV)] true) (hl : limbReads s w g [a] [] rs) :
    givesWhole (.bnorm g (.v d) a) s w d (wholeOf s w rs 0) := by
  show execBnorm g (.v d) a s = _
  refine limbIssue_whole hr rfl ?_
  rw [hl.1, eff_ok_bind, limbReads_short_all hl]
  rfl

theorem exec_bcmp {mag : Bool} (hr : limbReady s w g [(.s n, .onlyS), (a, .onlyV), (b, { v := true, s := true, imm := true })] true)
    (hl : limbReads s w g [a, b] [] rs) : givesS (.bcmp g mag (.s n) a b) s w n
      (if mag then compareInt (wholeOf s w rs 0).natAbs (wholeOf s w rs 1).natAbs else compareInt (wholeOf s w rs 0) (wholeOf s w rs 1)) := by
  show execBcmp g mag (.s n) a b s = _
  refine limbIssue_completes hr rfl ?_
  rw [hl.1, eff_ok_bind, limbReads_short_all hl]
  rfl

section shift
variable (hr : limbReady s w g [(.v d, .onlyV), (a, .onlyV), (b, .count)] (countImm b)) (hl : limbReads s w g [a] [b] rs)
  (hk : uniOf s w (activeMask s w g) 2 b = .ok k)
include hr hl hk

theorem exec_bshl : givesWhole (.bshl g (.v d) a b) s w d (wholeOf s w rs 0 * 2 ^ k.toNat) := by
  show execBshl g (.v d) a b s = _
  refine limbIssue_whole hr rfl ?_
  rw [hl.1, eff_ok_bind, hk, eff_ok_bind, limbReads_short_first hl, eff_ok_bind]
  by_cases h : wholeOf s w rs 0 = 0
  · rw [if_pos (beq_iff_eq.2 h), h, zero_mul]
  · rw [if_neg (by simpa using h)]
    exact putWhole_of_demand (limbCount_shifted h _)

theorem exec_bshr : givesWhole (.bshr g (.v d) a b) s w d
    (withSign (wholeOf s w rs 0) (if bitLength (wholeOf s w rs 0).natAbs ≤ k.toNat then 0 else (wholeOf s w rs 0).natAbs / 2 ^ k.toNat)) := by
  show execBshr g (.v d) a b s = _
  refine limbIssue_whole hr rfl ?_
  rw [hl.1, eff_ok_bind, hk, eff_ok_bind, limbReads_short_first hl]
  rfl

end shift

theorem exec_bmulw (hr : limbReady s w g [(.v d, .onlyV), (a, .onlyV), (b, .count), (c, .count)] (countImm b && countImm c))
    (hl : limbReads s w g [a] [b, c] rs) (hk : uniOf s w (activeMask s w g) 2 b = .ok k) (hj : uniOf s w (activeMask s w g) 3 c = .ok j) :
    givesWhole (.bmulw g (.v d) a b c) s w d (wholeOf s w rs 0 * (k.toNat % 2 ^ 32 : Nat) + (j.toNat % 2 ^ 32 : Nat)) := by
  show execBmulw g (.v d) a b c s = _
  refine limbIssue_whole hr rfl ?_
  rw [hl.1, eff_ok_bind, hk, eff_ok_bind, hj, eff_ok_bind, limbReads_short_first hl]
  rfl

section bmodw
variable (hr : limbReady s w g [(.s n, .onlyS), (a, .onlyV), (b, .count)] (countImm b)) (hl : limbReads s w g [a] [b] rs)
  (hk : uniOf s w (activeMask s w g) 2 b = .ok k)
include hr hl hk

theorem exec_bmodw (h : k.toNat % 2 ^ 32 ≠ 0) : givesS (.bmodw g (.s n) a b) s w n ((wholeOf s w rs 0).natAbs % (k.toNat % 2 ^ 32) : Nat) := by
  show execBmodw g (.s n) a b s = _
  refine limbIssue_completes hr rfl ?_
  rw [hl.1, eff_ok_bind, hk, eff_ok_bind]
  dsimp only
  rw [demand_of (bne_iff_ne.2 h), eff_ok_bind, limbReads_short_first hl]
  rfl

theorem exec_bmodw_zero (h : k.toNat % 2 ^ 32 = 0) : exec (.bmodw g (.s n) a b) s = .next (s.trapped w { code := 0x0A#6 }) := by
  show execBmodw g (.s n) a b s = _
  refine limbIssue_traps hr rfl ?_
  rw [hl.1, eff_ok_bind, hk, eff_ok_bind]
  exact demand_stops (by simpa using h) ..

end bmodw
end exec

/-- Settles O19: each instruction by the number that it gives. -/
theorem wholeNumberRegistersComplete : Obligations.WholeNumberRegistersComplete := by
  intro s w g mag d n a b c rs k j m v u
  refine ⟨fun hr hl => ?_, exec_bnorm, fun hr hl hk => ⟨exec_bshl hr hl hk, ?_⟩, fun hr hl => ?_, exec_bmulw,
    fun hr hl hk => ⟨exec_bmodw hr hl hk, exec_bmodw_zero hr hl hk⟩⟩
  · rw [← bitLength_int]
    exact exec_blen hr hl
  · rw [← shifted_right]
    exact exec_bshr hr hl hk
  · rw [← compareInt_natAbs]
    exact exec_bcmp hr hl

end Sys2Proof.Proofs
end

section
/-! PROOF. Register instructions of the limb unit for wide arithmetic: Newton steps, column sums, half-limbs, chunks and residues (spec/07
R254, R255, R263 to R269). -/

open Sys2Proof Sys2Proof.Machine Sys2Proof.Claims

namespace Sys2Proof.Proofs

/-! Numbers -/

theorem columnSum_eq_sum (step : Nat) (f : Nat → Nat) (n : Nat) : columnSum step f n = ((List.range n).map fun l => f l * 2 ^ (step * l)).sum := by
  induction n with
  | zero => rfl
  | succ n ih => simp [columnSum, ih, List.range_succ]

theorem halfLimb_eq (n i : Nat) : halfLimb n i = n / 2 ^ (16 * i) % 2 ^ 16 := by
  rw [halfLimb, Nat.shiftRight_eq_div_pow]

/-- `n` limbs hold a number of 32 n bits. -/
theorem limbsNat_lt (val : Nat → Lane) (n : Nat) : limbsNat val n < 2 ^ (32 * n) := by
  have digits : ∀ l : List Nat, l.foldr (fun i acc => (val i).toNat + 2 ^ 32 * acc) 0 < 2 ^ (32 * l.length) := by
    intro l
    induction l with
    | nil => exact Nat.one_pos
    | cons i l ih =>
      have limb : (val i).toNat < 2 ^ 32 := (val i).isLt
      rw [List.foldr_cons, List.length_cons, Nat.mul_succ, pow_add, Nat.mul_comm (2 ^ (32 * l.length))]
      calc _ < 2 ^ 32 + 2 ^ 32 * l.foldr (fun i acc => (val i).toNat + 2 ^ 32 * acc) 0 := Nat.add_lt_add_right limb _
        _ = 2 ^ 32 * (l.foldr (fun i acc => (val i).toNat + 2 ^ 32 * acc) 0 + 1) := by ring
        _ ≤ _ := Nat.mul_le_mul_left _ ih
  simpa [limbsNat] using digits (List.range n)

theorem wrapTo_natCast (w n : Nat) : wrapTo w n = n % 2 ^ w := by
  rw [wrapTo, ← Int.natCast_mod, Int.toNat_natCast]

/-- A difference modulo 2^w, made positive first. -/
theorem wrapTo_sub {w a b c : Nat} (h : b + c ≤ 2 * 2 ^ w + a) : wrapTo w ((a : Int) - b - c) = (2 * 2 ^ w + a - b - c) % 2 ^ w := by
  have lifted : ((2 * 2 ^ w + a - b - c : Nat) : Int) = ((a : Int) - b - c) + (2 ^ w : Nat) * 2 := by omega
  rw [← wrapTo_natCast, lifted, wrapTo, wrapTo, Int.add_mul_emod_self_left]

/-! Newton steps -/

theorem exec_bdivs {s : State} {w : Nat} {g : Guards} {d : BitVec 6} {a b c : Opnd} {rs : List Src} {k : Word}
    (hr : limbReady s w g [(.v d, .onlyV), (a, .onlyV), (b, .onlyV), (c, .count)] (countImm c)) (hl : limbReads s w g [a, b] [c] rs)
    (hk : uniOf s w (activeMask s w g) 3 c = .ok k) (hb : wholeOf s w rs 1 ≠ 0) (h0 : k.toNat ≠ 0) (h16 : k.toNat ≤ 16 * (s.wave w).capacity) :
    givesWhole (.bdivs g (.v d) a b c) s w d (newtonStep (wholeOf s w rs 0).natAbs (wholeOf s w rs 1).natAbs k.toNat) := by
  have divisor : ((wholeOf s w rs 1).natAbs != 0) = true := bne_iff_ne.2 (Int.natAbs_ne_zero.2 hb)
  have precision : (k != 0 && decide (k.toNat ≤ 16 * (s.wave w).capacity)) = true :=
    Bool.and_eq_true_iff.2 ⟨bne_iff_ne.2 fun h => h0 (h ▸ rfl), decide_eq_true h16⟩
  show execBdivs g (.v d) a b c s = _
  refine limbIssue_whole hr rfl ?_
  rw [hl.1, eff_ok_bind, hk, eff_ok_bind]
  dsimp only
  rw [demand_of divisor, eff_ok_bind, demand_of precision, eff_ok_bind, show limbSources s w (rs.take 2) = _ from limbReads_short hl]
  rfl

/-! Column sums and half-limbs of a pair -/

section pair
variable {s : State} {w : Nat} {g : Guards} {d p : BitVec 6} {b : Opnd} {rs : List Src} {k : Word}

theorem pairSrcs_of {m : Mask} (h : limbSrcs s w m [] [.v p, .v (BitVec.ofNat 6 (p.toNat + 1))] = .ok rs) :
    pairSrcs s w m (.v p) = .ok (pairColumn s w 1 p, pairColumn s w 2 (BitVec.ofNat 6 (p.toNat + 1))) := by
  show (limbSrcs s w m [] [.v p, .v (BitVec.ofNat 6 (p.toNat + 1))] >>= _) = _
  rw [h, limbSrcs_eq h]
  rfl

theorem signOf_of {m : Mask} (hk : uniOf s w m 3 b = .ok k) (h : k.toNat ≤ 1) : signOf s w m 3 b = .ok (decide (k = 1)) := by
  have bit : (k == 0 || k == 1) = true := by
    simp only [Bool.or_eq_true, beq_iff_eq]
    bv_omega
  rw [signOf, hk, eff_ok_bind, demand_of bit]
  rfl

variable (hr : limbReady s w g [(.v d, .onlyV), (.v p, .onlyV), (b, .si)] (s.evenPair w (.v p) && signImm b))
  (hs : limbSrcs s w (activeMask s w g) [] [.v p, .v (BitVec.ofNat 6 (p.toNat + 1))] = .ok rs)
  (hk : uniOf s w (activeMask s w g) 3 b = .ok k) (h : k.toNat ≤ 1)
include hr hs hk h

theorem exec_cres (half : Bool) : givesWhole (.cres g half (.v d) (.v p) b) s w d
    (let x : Nat := ((List.range (s.wave w).id.width).map fun l => (pairColumn s w 2 (BitVec.ofNat 6 (p.toNat + 1)) l * 2 ^ 32 + pairColumn s w 1 p l) *
      2 ^ ((if half then 16 else 32) * l)).sum
    if k = 1 then -(x : Int) else x) := by
  show execCres g half (.v d) (.v p) b s = _
  refine limbIssue_whole hr rfl ?_
  rw [pairSrcs_of hs, eff_ok_bind, signOf_of hk h, eff_ok_bind]
  simp only [columnSum_eq_sum, decide_eq_true_eq]

theorem exec_bjoin : givesWhole (.bjoin g (.v d) (.v p) b) s w d
    (let x : Nat := ((List.range (s.wave w).id.width).map fun l => pairColumn s w 1 p l * 2 ^ (16 * l)).sum +
      ((List.range (s.wave w).id.width).map fun l => pairColumn s w 2 (BitVec.ofNat 6 (p.toNat + 1)) l * 2 ^ (16 * l)).sum *
        2 ^ (16 * (s.wave w).id.width)
    if k = 1 then -(x : Int) else x) := by
  show execBjoin g (.v d) (.v p) b s = _
  refine limbIssue_whole hr rfl ?_
  rw [pairSrcs_of hs, eff_ok_bind, signOf_of hk h, eff_ok_bind]
  simp only [columnSum_eq_sum, decide_eq_true_eq]

end pair

/-- Half-limbs `o` on of a magnitude are written to V register `r`. -/
def wroteHalves (s : State) (w r o n : Nat) : State := s.modWave w fun y => y.setV r (allLanes y.capacity)
  ((List.range y.id.width).map fun l => BitVec.ofNat 32 (n / 2 ^ (16 * (o + l)) % 2 ^ 16)) (tagMd .u32)

theorem putLimbs_halves (s : State) (w r o n : Nat) :
    putLimbs s w r (fun i => BitVec.ofNat 32 (halfLimb n (o + i))) (tagMd .u32) = wroteHalves s w r o n := by
  simp only [halfLimb_eq]
  rfl

theorem exec_bsplit {s : State} {w : Nat} {g : Guards} {d : BitVec 6} {a : Opnd} {rs : List Src}
    (hr : limbReady s w g [(.v d, .onlyV), (a, .onlyV)] (s.evenPair w (.v d))) (hl : limbReads s w g [a] [] rs)
    (fits : ∀ l, (s.wave w).capacity ≤ l → l < (s.wave w).id.width →
      halfLimb (wholeOf s w rs 0).natAbs l = 0 ∧ halfLimb (wholeOf s w rs 0).natAbs ((s.wave w).id.width + l) = 0) :
    exec (.bsplit g (.v d) a) s = .next (completed s w (wroteHalves (wroteHalves s w d.toNat 0 (wholeOf s w rs 0).natAbs) w (d.toNat + 1)
      (s.wave w).id.width (wholeOf s w rs 0).natAbs)) := by
  have dead : ((List.range (s.wave w).id.width).filter fun i => decide ((s.wave w).capacity ≤ i) &&
      (halfLimb (wholeOf s w rs 0).natAbs i != 0 || halfLimb (wholeOf s w rs 0).natAbs ((s.wave w).id.width + i) != 0)) = [] := by
    refine List.filter_eq_nil_iff.2 fun l hl => ?_
    simp only [Bool.and_eq_true, decide_eq_true_eq, Bool.or_eq_true, bne_iff_ne, not_and_or, not_or, not_not]
    exact or_iff_not_imp_left.2 fun beyond => fits l (not_not.1 beyond) (List.mem_range.1 hl)
  show execBsplit g (.v d) a s = _
  refine limbIssue_completes hr rfl ?_
  rw [hl.1, eff_ok_bind, limbReads_short_all hl, eff_ok_bind]
  dsimp only
  rw [dead, ← putLimbs_halves, ← putLimbs_halves]
  simp only [Nat.zero_add]
  rfl

/-! Chunks -/

/-- W limbs are written to V register `d`, and the carry or borrow to CY. -/
def wroteChunk (s : State) (w d t : Nat) (out : Bool) : State :=
  (s.modWave w fun y => y.setV d (allLanes y.capacity) ((List.range y.id.width).map fun l => BitVec.ofNat 32 (t / 2 ^ (32 * l)))
    (mkMd .limb (s.wave w).id.width false false 0)).modWave w fun y => y.setCarry out

section chunk
variable {s : State} {w : Nat}

theorem putChunk_whole (d : BitVec 6) (t : Int) (h : (s.wave w).capacity = (s.wave w).id.width) : putChunk s w (.v d) t = .ok
    (wroteChunk s w d.toNat (wrapTo (32 * (s.wave w).id.width) t) (decide (t < 0) || decide (((2 ^ (32 * (s.wave w).id.width) : Nat) : Int) ≤ t))) := by
  rw [putChunk]
  dsimp only
  rw [demand_of (beq_iff_eq.2 h), eff_ok_bind, wroteChunk]
  simp only [← Nat.shiftRight_eq_div_pow]
  rfl

theorem putChunk_narrow (d : BitVec 6) (t : Int) (h : (s.wave w).capacity ≠ (s.wave w).id.width) :
    putChunk s w (.v d) t = .error (.trap { code := 0x18#6, addr := BitVec.ofNat 64 (s.wave w).id.width }) :=
  demand_stops (beq_eq_false_iff_ne.2 h) ..

variable {g : Guards} {d : BitVec 6} {a b : Opnd} {rs : List Src}
  (hr : limbReady s w g [(.v d, .onlyV), (a, .onlyV), (b, .onlyV)] true) (hs : limbSrcs s w (activeMask s w g) [a, b] [] = .ok rs) (cin : Bool)
include hr hs

section whole
variable (h : (s.wave w).capacity = (s.wave w).id.width)
include h

theorem exec_baddc : let t := limbsNat (src0 rs 0).val (s.wave w).id.width + limbsNat (src0 rs 1).val (s.wave w).id.width + (cin && (s.wave w).carry).toNat
    exec (.baddc g cin (.v d) a b) s = .next (completed s w (wroteChunk s w d.toNat (t % 2 ^ (32 * (s.wave w).id.width))
      (decide (2 ^ (32 * (s.wave w).id.width) ≤ t)))) := by
  intro t
  have carry : (decide ((t : Int) < 0) || decide (((2 ^ (32 * (s.wave w).id.width) : Nat) : Int) ≤ t)) = decide (2 ^ (32 * (s.wave w).id.width) ≤ t) := by
    rw [decide_eq_false (Int.not_lt.2 (Int.natCast_nonneg t)), Bool.false_or]
    exact decide_eq_decide.2 Int.ofNat_le
  show execBaddc g cin (.v d) a b s = _
  refine limbIssue_completes hr rfl ?_
  rw [chunksOf, hs]
  exact (putChunk_whole d t h).trans (by rw [wrapTo_natCast, carry])

theorem exec_bsubc : let x := limbsNat (src0 rs 0).val (s.wave w).id.width
    let y := limbsNat (src0 rs 1).val (s.wave w).id.width
    let ci := (cin && (s.wave w).carry).toNat
    exec (.bsubc g cin (.v d) a b) s = .next (completed s w (wroteChunk s w d.toNat
      ((2 * 2 ^ (32 * (s.wave w).id.width) + x - y - ci) % 2 ^ (32 * (s.wave w).id.width)) (decide (x < y + ci)))) := by
  intro x y ci
  have hx : x < 2 ^ (32 * (s.wave w).id.width) := limbsNat_lt _ _
  have hy : y < 2 ^ (32 * (s.wave w).id.width) := limbsNat_lt _ _
  have hc : ci ≤ 1 := Bool.toNat_le _
  have borrow : (decide ((x : Int) - y - ci < 0) || decide (((2 ^ (32 * (s.wave w).id.width) : Nat) : Int) ≤ (x : Int) - y - ci)) = decide (x < y + ci) := by
    rw [decide_eq_false (by omega : ¬ ((2 ^ (32 * (s.wave w).id.width) : Nat) : Int) ≤ (x : Int) - y - ci), Bool.or_false]
    exact decide_eq_decide.2 (by omega)
  show execBsubc g cin (.v d) a b s = _
  refine limbIssue_completes hr rfl ?_
  rw [chunksOf, hs]
  exact (putChunk_whole d (x - y - ci) h).trans (by rw [wrapTo_sub (by omega), borrow])

end whole

section narrow
variable (h : (s.wave w).capacity ≠ (s.wave w).id.width)
include h

theorem exec_baddc_narrow : exec (.baddc g cin (.v d) a b) s = .next (s.trapped w { code := 0x18#6, addr := BitVec.ofNat 64 (s.wave w).id.width }) := by
  show execBaddc g cin (.v d) a b s = _
  refine limbIssue_traps hr rfl ?_
  rw [chunksOf, hs]
  exact putChunk_narrow d _ h

theorem exec_bsubc_narrow : exec (.bsubc g cin (.v d) a b) s = .next (s.trapped w { code := 0x18#6, addr := BitVec.ofNat 64 (s.wave w).id.width }) := by
  show execBsubc g cin (.v d) a b s = _
  refine limbIssue_traps hr rfl ?_
  rw [chunksOf, hs]
  exact putChunk_narrow d _ h

end narrow
end chunk

/-! Residues -/

section btom
variable {s : State} {w : Nat} {g : Guards} {d : BitVec 6} {a b c : Opnd} {rs : List Src} {k : Word} {primes : List Nat}

theorem getD_map_some (l : List Nat) (j : Nat) : ((l.map some).getD j none).getD 1 = l.getD j 1 := by
  rw [List.getD_eq_getElem?_getD, List.getD_eq_getElem?_getD, List.getElem?_map]
  cases l[j]? <;> rfl

/-- What follows a choice of two effects goes on from the one chosen. -/
theorem ite_bind_of {α β : Type} {q : Prop} [Decidable q] {x y : Eff α} {r : α} (h : (if q then x else y) = .ok r) (f : α → Eff β) :
    (if q then x >>= f else y >>= f) = f r := by
  split_ifs at h ⊢
  · rw [h, eff_ok_bind]
  · rw [h, eff_ok_bind]

/-- `btom` over `n` entries from `k` that are loaded with `primes` (R263). -/
theorem exec_btom {all : Bool} {n : Word} (hr : limbReady s w g [(.v d, .onlyV), (a, .onlyV), (b, .si), (c, if all then .count else .onlyV)] (!all || countImm c))
    (hl : limbReads s w g [a] (if all then [c] else []) rs) (hk : uniOf s w (activeMask s w g) 2 b = .ok k) (h64 : k.toNat < 64)
    (hn : (if all then uniOf s w (activeMask s w g) 3 c else pure 1) = .ok n)
    (hc : (!all || (decide (1 ≤ n.toNat) && decide (n.toNat ≤ (s.wave w).capacity) && decide (k.toNat + n.toNat ≤ 64))) = true)
    (hp : (List.range n.toNat).map (fun e => s.prime w (k.toNat + e)) = primes.map some) :
    exec (.btom g all (.v d) a b c) s = .next (completed s w (if all then
      putLimbs s w d.toNat (fun l => if l < n.toNat then BitVec.ofInt 32 (wholeOf s w rs 0 % (primes.getD l 1 : Nat)) else 0) (tagMd .u32)
      else putLimbs s w d.toNat (fun _ => BitVec.ofInt 32 (wholeOf s w rs 0 % (primes.getD 0 1 : Nat))) (mkMd .modq 0 false false k.toNat))) := by
  have loaded : (primes.map some).all Option.isSome = true := by simp
  show execBtom g all (.v d) a b c s = _
  refine limbIssue_completes hr rfl ?_
  rw [hl.1, eff_ok_bind, hk, eff_ok_bind]
  refine (ite_bind_of hn _).trans ?_
  dsimp only
  rw [demand_of (decide_eq_true h64), eff_ok_bind, demand_of hc, eff_ok_bind, hp, demand_of loaded, eff_ok_bind, limbReads_short_first hl, eff_ok_bind]
  simp only [getD_map_some]
  cases all <;> rfl

theorem exec_btom_one {q : Nat} (hr : limbReady s w g [(.v d, .onlyV), (a, .onlyV), (b, .si), (c, .onlyV)] true) (hl : limbReads s w g [a] [] rs)
    (hk : uniOf s w (activeMask s w g) 2 b = .ok k) (h64 : k.toNat < 64) (hq : s.prime w k.toNat = some q) :
    exec (.btom g false (.v d) a b c) s = .next (completed s w
      (putLimbs s w d.toNat (fun _ => BitVec.ofInt 32 (wholeOf s w rs 0 % (q : Nat))) (mkMd .modq 0 false false k.toNat))) := by
  have entry : (List.range (1 : Word).toNat).map (fun e => s.prime w (k.toNat + e)) = [q].map some := congrArg ([·]) hq
  exact (exec_btom (all := false) (n := 1) hr hl hk h64 rfl rfl entry :)

theorem exec_btom_entries {j : Word} (hr : limbReady s w g [(.v d, .onlyV), (a, .onlyV), (b, .si), (c, .count)] (countImm c))
    (hl : limbReads s w g [a] [c] rs) (hk : uniOf s w (activeMask s w g) 2 b = .ok k) (hj : uniOf s w (activeMask s w g) 3 c = .ok j)
    (h1 : 1 ≤ j.toNat) (hcap : j.toNat ≤ (s.wave w).capacity) (h64 : k.toNat + j.toNat ≤ 64)
    (hp : (List.range j.toNat).map (fun e => s.prime w (k.toNat + e)) = primes.map some) :
    exec (.btom g true (.v d) a b c) s = .next (completed s w
      (putLimbs s w d.toNat (fun l => if l < j.toNat then BitVec.ofInt 32 (wholeOf s w rs 0 % (primes.getD l 1 : Nat)) else 0) (tagMd .u32))) :=
  exec_btom (all := true) hr hl hk (by omega) hj (by simp [h1, hcap, h64]) hp

end btom

/-- Settles O20: each instruction by the number, the half-limbs, the chunk or the residues that it gives. -/
theorem wideNumberStepsComplete : Obligations.WideNumberStepsComplete := by
  intro s w g h cin d p a b c rs k j primes m x W cap clean_ col
  have carried : (cin && x.carry).toNat = if cin && x.carry then 1 else 0 := by cases cin && x.carry <;> rfl
  refine ⟨exec_bdivs, fun hr hs hk h1 => ⟨exec_cres hr hs hk h1 h, exec_bjoin hr hs hk h1⟩, ?_, ?_, ?_, ?_⟩
  · intro hr hl half fits put
    exact exec_bsplit hr hl (by simpa only [halfLimb_eq] using fits)
  · intro hr hs n ci put
    refine ⟨fun whole => ⟨?_, ?_⟩, fun narrow => ⟨exec_baddc_narrow hr hs cin narrow, exec_bsubc_narrow hr hs cin narrow⟩⟩
    · have := exec_baddc hr hs cin whole
      rwa [carried] at this
    · have := exec_bsubc hr hs cin whole
      rwa [carried] at this
  · intro hr hl hk h64 hp there
    obtain ⟨q, hq⟩ := Option.isSome_iff_exists.1 there
    rw [hq] at hp
    subst hp
    exact exec_btom_one hr hl hk h64 hq
  · intro hr hl hk hj h1 hcap h64 hp
    exact exec_btom_entries hr hl hk hj h1 hcap h64 hp

end Sys2Proof.Proofs
end

section
/-! PROOF. Transforms, products of limb arrays and rescales: their checks pass, and a command goes to the NTT unit or to the matrix path
(spec/07 R271, R273, spec/10 R324 to R327, R334, R337, R338, spec/15 R446). -/

open Sys2Proof Sys2Proof.Machine Sys2Proof.Claims

namespace Sys2Proof.Proofs

/-! Checks -/

theorem checkOps_sregs (s : State) (w : Nat) (l : List (BitVec 6)) : checkOps s w (l.map fun n => (.s n, .onlyS)) = .ok () := by
  refine checkOps_of (fun q hq => ?_) fun q hq => ?_
  all_goals
    obtain ⟨n, -, rfl⟩ := List.mem_map.1 hq
    rfl

theorem demandAligned_of {l : List (Word × Nat)} (h : ∀ q ∈ l, q.1.toNat % q.2 = 0) : demandAligned l = .ok () := by
  have none : l.find? (fun q => q.1.toNat % q.2 != 0) = none := List.find?_eq_none.2 fun q hq => by simp [h q hq]
  rw [demandAligned, none]

theorem demandHandles_of {h : Word} (h64 : h.toNat % 64 = 0) (hb : unitBad h = false) : demandHandles [h] = .ok () := by
  have aligned : demandAligned ([h].map fun h => (h, 64)) = .ok () := demandAligned_of (by simpa using h64)
  rw [demandHandles, aligned, eff_ok_bind, List.find?_singleton, hb]
  rfl

/-! A command enters the unit -/

theorem sendNtt_of {s : State} {w : Nat} (h : nttRoom s w) (o : Order) (sc : Scope) (num : BitVec 32) (op : NOp) (ms : List Modulus) (direct : Bool) :
    sendNtt s w o sc num op ms direct = .ok (sentNtt s w o sc num op ms direct) := by
  obtain ⟨room, held, free⟩ := h
  rw [sendNtt]
  dsimp only
  rw [roomFor_of room, eff_ok_bind, if_neg (Nat.not_le.2 free), demandSent_of held]
  rfl

/-! Transforms -/

/-- The command of a transform has entered the unit, and the write to Q10 is counted. -/
def sentTransform (s : State) (w : Nat) (o : Order) (sc : Scope) (inv : Bool) (dv av : Word) (k : NttDesc) (ms : List Modulus) : State :=
  (sentNtt s w o sc (s.wave w).num.ntt (.transform inv dv av k.bstr k.nb k.nres k.logn) ms false).wroteQ10 w

theorem transformAct_of {s : State} {w : Nat} {d a c : BitVec 6} {dv av cv : Word} {k : NttDesc} {ms : List Modulus} (room : nttRoom s w)
    (hd : readS s w 4 d.toNat = dv) (ha : readS s w 1 a.toNat = av) (hc : readS s w 3 c.toNat = cv) (hk : NttDesc.of cv = k)
    (high : cv.extractLsb' 24 8 = 0) (low : cv.extractLsb' 5 7 = 0) (h4 : 4 ≤ k.logn) (h17 : k.logn ≤ 17) (h64 : k.mbase + k.nres ≤ 64)
    (hm : s.entries w k.mbase k.nres k.logn = some ms) (self : k.selfOverlap = false) (cross : k.crossOverlap dv av = false)
    (hd4 : dv.toNat % 4 = 0) (ha4 : av.toNat % 4 = 0) (hu : ∀ e ∈ k.polys dv ++ k.polys av, unitBad e = false)
    (inv : Bool) (o : Order) (sc : Scope) :
    transformAct inv o sc (.s d) (.s a) (.s c) s w = .ok (sentTransform s w o sc inv dv av k ms) := by
  have formed : (cv.extractLsb' 24 8 == 0#8 && cv.extractLsb' 5 7 == 0#7 && decide (4 ≤ k.logn) && decide (k.logn ≤ 17) &&
      decide (k.mbase + k.nres ≤ 64)) = true := by simp [high, low, h4, h17, h64]
  have apart : (!k.selfOverlap && !k.crossOverlap dv av) = true := by rw [self, cross]; rfl
  have aligned : demandAligned [(dv, 4), (av, 4)] = .ok () := demandAligned_of (by simp [hd4, ha4])
  have reached : (k.polys dv ++ k.polys av).find? unitBad = none := List.find?_eq_none.2 fun e he => by rw [hu e he]; exact Bool.false_ne_true
  rw [transformAct, show checkOps s w [(.s d, .onlyS), (.s a, .onlyS), (.s c, .onlyS)] = _ from checkOps_sregs s w [d, a, c], eff_ok_bind]
  dsimp only
  rw [show readS s w 4 (regOf (.s d)) = dv from hd, show readS s w 1 (regOf (.s a)) = av from ha, show readS s w 3 (regOf (.s c)) = cv from hc, hk,
    demand_of formed, eff_ok_bind, hm]
  dsimp only
  rw [demand_of apart, eff_ok_bind, aligned, eff_ok_bind, reached]
  dsimp only
  rw [sendNtt_of room]
  rfl

/-! Products of limb arrays -/

/-- The product of limb arrays as a wave issues it. -/
def lmulCmd (s : State) (w : Nat) (o : Order) (sc : Scope) (dv av bv cv : Word) : LMul :=
  { wave := w, group := (s.wave w).id.group, key := (s.wave w).num.key, num := (s.wave w).num.lmulm, o := o, sc := sc, d := dv, a := av, b := bv,
    la := cv.toNat % 2 ^ 32, lb := cv.toNat / 2 ^ 32, prog := 0, crc := none, pos := (s.wave w).pos }

/-- The product enters the matrix path of its core: the wave's stores are performed first, and one TL operation is outstanding (R273). -/
def lmulOnMatrix (s : State) (w : Nat) (cmd : LMul) : State :=
  ((s.performAll w).modWave w fun y => y.count .tl false []).modCore (s.wave w).id.core fun k => { k with lmuls := k.lmuls ++ [cmd] }

/-- The product leads to the state `u` on the path that NTTTHR chooses for its longer operand (R273). -/
abbrev lmulSent (s : State) (w : Nat) (o : Order) (sc : Scope) (longer : Nat) (cmd : LMul) (u : State) : Prop :=
  if longer < (s.wave w).nttthr.toNat then (s.wave w).outstanding .tl < 62 ∧ s.storesHeld w = false ∧ u = lmulOnMatrix s w cmd
  else nttRoom s w ∧ u = sentNtt s w o sc (s.wave w).num.lmulm (.lmul cmd) [] false

theorem limbRange_reached {v : Word} {n : Nat} (h : limbRange v n) : (decide (2 ^ 57 ≤ v.toNat) || meetsWindow v (4 * n)) = false := by
  rw [decide_eq_false (Nat.not_le.2 h.2.1), h.2.2]
  rfl

section lmulm
variable {s : State} {w : Nat} {o : Order} {sc : Scope} {d a b c : BitVec 6} {dv av bv cv : Word}

/-- With operands that pass the checks of R271, `lmulm` sends its command. -/
theorem exec_lmulm {u : State} (hw : s.running = some w)
    (hd : readS s w 4 d.toNat = dv) (ha : readS s w 1 a.toNat = av) (hb : readS s w 2 b.toNat = bv) (hc : readS s w 3 c.toNat = cv)
    (apartA : limbsMeet dv (cv.toNat % 2 ^ 32 + cv.toNat / 2 ^ 32) av (cv.toNat % 2 ^ 32) = false)
    (apartB : limbsMeet dv (cv.toNat % 2 ^ 32 + cv.toNat / 2 ^ 32) bv (cv.toNat / 2 ^ 32) = false)
    (rd : limbRange dv (cv.toNat % 2 ^ 32 + cv.toNat / 2 ^ 32)) (ra : limbRange av (cv.toNat % 2 ^ 32)) (rb : limbRange bv (cv.toNat / 2 ^ 32))
    (size : cv.toNat % 2 ^ 32 + cv.toNat / 2 ^ 32 ≤ 131072) 
    (sent : lmulSent s w o sc (max (cv.toNat % 2 ^ 32) (cv.toNat / 2 ^ 32)) (lmulCmd s w o sc dv av bv cv) u) :
    exec (.lmulm o sc (.s d) (.s a) (.s b) (.s c)) s =
      .next (completed s w (u.modWave w fun y => { y with num.lmulm := y.num.lmulm + 1 })) := by
  have apart : (!limbsMeet dv (cv.toNat % 2 ^ 32 + cv.toNat / 2 ^ 32) av (cv.toNat % 2 ^ 32) &&
      !limbsMeet dv (cv.toNat % 2 ^ 32 + cv.toNat / 2 ^ 32) bv (cv.toNat / 2 ^ 32)) = true := by rw [apartA, apartB]; rfl
  have aligned : demandAligned [(dv, 4), (av, 4), (bv, 4)] = .ok () := demandAligned_of (by simp [rd.1, ra.1, rb.1])
  have reached : [(dv, cv.toNat % 2 ^ 32 + cv.toNat / 2 ^ 32), (av, cv.toNat % 2 ^ 32), (bv, cv.toNat / 2 ^ 32)].find?
      (fun q => decide (2 ^ 57 ≤ q.1.toNat) || meetsWindow q.1 (4 * q.2)) = none := by
    rw [List.find?_cons, limbRange_reached rd, List.find?_cons, limbRange_reached ra, List.find?_cons, limbRange_reached rb, List.find?_nil]
  show execLmulm o sc (.s d) (.s a) (.s b) (.s c) s = _
  refine issue_completes hw ?_
  rw [show checkOps s w [(.s d, .onlyS), (.s a, .onlyS), (.s b, .onlyS), (.s c, .onlyS)] = _ from checkOps_sregs s w [d, a, b, c], eff_ok_bind]
  dsimp only
  rw [show readS s w 4 (regOf (.s d)) = dv from hd, show readS s w 1 (regOf (.s a)) = av from ha, show readS s w 2 (regOf (.s b)) = bv from hb,
    show readS s w 3 (regOf (.s c)) = cv from hc, demand_of apart, eff_ok_bind, aligned, eff_ok_bind, reached]
  dsimp only
  rw [demand_of (decide_eq_true size), eff_ok_bind]
  split_ifs at sent ⊢ with below
  · obtain ⟨room, held, rfl⟩ := sent
    rw [roomFor_of room, eff_ok_bind, demandSent_of held]
    rfl
  · obtain ⟨room, rfl⟩ := sent
    rw [sendNtt_of room]
    rfl

end lmulm

/-! Rescales -/

theorem scope_rank {sc : Scope} (hw : sc ≠ .wave) (hc : sc ≠ .core) : 2 ≤ scopeRank sc := by
  cases sc with
  | wave => exact absurd rfl hw
  | core => exact absurd rfl hc
  | _ => decide

/-- BUSY is set in the header that lies at a place (R338). -/
def claimedAt (l : Loc) (hd : CtHeader) (r : State) : State :=
  match l with
  | .mem pa => r.putLe (pa + 7) 1 (hd.flags + 128)
  | .sp _ => r

section ctresc
variable {s : State} {w : Nat} {o : Order} {sc : Scope} {q : Opnd}

theorem ctrescCheck_of (hq : checkOps s w [(q, .sv)] = .ok ()) (hw : sc ≠ .wave) (hc : sc ≠ .core) : ctrescCheck sc q s w = .ok () := by
  rw [ctrescCheck, hq, eff_ok_bind, demand_of (decide_eq_true (scope_rank hw hc))]

variable (hq : checkOps s w [(q, .sv)] = .ok ()) (hw : sc ≠ .wave) (hc : sc ≠ .core)
include hq hw hc

/-- In a checked group a drained wave arrives at a commit point (R446). -/
theorem exec_ctresc_staged (hr : s.running = some w) (rnd : Bool) (hs : s.staged (s.wave w).id.group = true) (hd : s.drainedWave w = true) :
    exec (.ctresc o sc rnd q) s = .next ((s.modWave w fun y => { y with sch.arrived := some Arrive.forcing }).stallWave w .commit).tick := by
  show execCtresc o sc rnd q s = _
  refine issue_stalls hr ?_
  rw [ctrescCheck_of hq hw hc, eff_ok_bind, forced_staged hs hd]

theorem exec_ctresc_plain (hr : s.running = some w) (rnd : Bool) (hs : s.staged (s.wave w).id.group = false) :
    exec (.ctresc o sc rnd q) s = issue s fun _ => ctrescAct o sc rnd q s w := by
  show execCtresc o sc rnd q s = _
  refine issue_same hr ?_
  rw [ctrescCheck_of hq hw hc, eff_ok_bind, forced_plain hs]

section header
variable {u t v : State} {h : Word} {bs : List Byte} {l : Loc} {hd : CtHeader} {ms : List Modulus}
  (hu : uni1 s w q = .ok h) (h64 : h.toNat % 64 = 0) (hb : unitBad h = false)
  (read : recordRead s w (if Order.releases o then .ar else .acq) sc h 64 64 = .ok (u, bs)) (place : placeOf u w h.toNat 64 .store = .ok (t, l))
  (header : CtHeader.ofBytes bs = hd) (mods : (s.entries w hd.mbase hd.res hd.logn).getD [] = ms)
  (valid : hd.code s w = 0) (idle : hd.busy = false) (cipher : hd.flags.testBit 0 = false) (primes : repeatsTop ms = false)
include hu h64 hb read place header mods valid idle cipher primes

/-- A valid, idle ciphertext that is no plaintext is left to the checks of its level and of the claim of its header (R337). -/
theorem ctrescAct_valid (rnd : Bool) : ctrescAct o sc rnd q s w = (do
    demand (hd.level != 0) 0x0C#6 h
    let r ← raceCheck t w { kind := .atomic, acq := true, rel := Order.releases o, sc := sc } [(0, (h + 4).toNat, 4)]
    let r ← sendNtt r w o sc (r.wave w).num.ntt (.rescale h hd.logn hd.res hd.comps hd.cstr rnd) ms true
    pure ((claimedAt l hd r).wroteQ10 w)) := by
  have usable : (hd.code s w == 0 && !hd.busy && !hd.flags.testBit 0) = true := by
    rw [valid, idle, cipher]
    rfl
  rw [ctrescAct, ctrescCheck_of hq hw hc, eff_ok_bind, hu, eff_ok_bind, demandHandles_of h64 hb, eff_ok_bind, read, eff_ok_bind]
  dsimp only
  rw [place, eff_ok_bind]
  dsimp only
  rw [header, demand_of usable, eff_ok_bind, mods, primes, demand_of Bool.not_false]
  rfl

theorem exec_ctresc_lowest (hr : s.running = some w) (rnd : Bool) (hs : s.staged (s.wave w).id.group = false) (level : hd.level = 0) :
    exec (.ctresc o sc rnd q) s = .next (s.trapped w { code := 0x0C#6, addr := h }) := by
  rw [exec_ctresc_plain hq hw hc hr rnd hs]
  refine issue_traps hr ?_
  rw [ctrescAct_valid hq hw hc hu h64 hb read place header mods valid idle cipher primes]
  exact demand_stops (bne_eq_false_iff_eq.2 level) ..

theorem exec_ctresc (hr : s.running = some w) (rnd : Bool) (hs : s.staged (s.wave w).id.group = false) (level : hd.level ≠ 0)
    (claim : raceCheck t w { kind := .atomic, acq := true, rel := Order.releases o, sc := sc } [(0, (h + 4).toNat, 4)] = .ok v)
    (room : nttRoom v w) {pa : Nat} (hl : l = .mem pa) :
    exec (.ctresc o sc rnd q) s = .next (completed s w ((claimedAt (.mem pa) hd
      (sentNtt v w o sc (v.wave w).num.ntt (.rescale h hd.logn hd.res hd.comps hd.cstr rnd) ms true)).wroteQ10 w)) := by
  rw [exec_ctresc_plain hq hw hc hr rnd hs]
  refine issue_completes hr ?_
  rw [ctrescAct_valid hq hw hc hu h64 hb read place header mods valid idle cipher primes, demand_of (bne_iff_ne.2 level), eff_ok_bind,
    claim, eff_ok_bind, sendNtt_of room, hl]
  rfl

end header
end ctresc

/-- Settles O32: each instruction by its checks, and the command that it sends. -/
theorem transformsAndProductsSend : Obligations.TransformsAndProductsSend := by
  intro s u t v w o sc rnd d a b c q h bs l ms x dv av bv cv k bump
  refine ⟨?_, ?_, ?_⟩
  · intro hw room high low h4 h17 h64 hm self cross hd4 ha4 hu
    have act := transformAct_of room rfl rfl rfl rfl high low h4 h17 h64 hm self cross hd4 ha4 hu
    exact ⟨issue_completes hw (act false o sc), issue_completes hw (act true o sc)⟩
  · intro la lb cmd bump hw apartA apartB rd ra rb size
    have sends {u : State} := exec_lmulm (o := o) (sc := sc) (u := u) hw rfl rfl rfl rfl apartA apartB rd ra rb size
    exact ⟨fun below room held => sends (by rw [lmulSent, if_pos below]; exact ⟨room, held, rfl⟩),
      fun above room => sends (by rw [lmulSent, if_neg (Nat.not_lt.2 above)]; exact ⟨room, rfl⟩)⟩
  · intro hr hq hw hc
    refine ⟨exec_ctresc_staged hq hw hc hr rnd, ?_⟩
    intro hs hu h64 hb read place hd ms valid idle cipher primes
    refine ⟨exec_ctresc_lowest hq hw hc hu h64 hb read place rfl rfl valid idle cipher primes hr rnd hs, ?_⟩
    intro level claim room pa hl
    exact exec_ctresc hq hw hc hu h64 hb read place rfl rfl valid idle cipher primes hr rnd hs level claim room hl

end Sys2Proof.Proofs
end

section
/-! PROOF. Heap commands: what each sends at issue, what a wave that waits for its reply takes, and what the engine's oldest command
comes to (spec/08 R280 to R290). -/

open Sys2Proof Sys2Proof.Machine Sys2Proof.Claims

namespace Sys2Proof.Proofs

/-! Commands at issue -/

/-- What a twin is told depends on the teller's mode alone. -/
theorem told_of_mode {x y : Wave} (h : x.tr.hm = y.tr.hm) (s : State) (w : Nat) (f : Fwd) : told x s w f = told y s w f := by
  rw [told, told, h]

theorem tellTwin_eq (s : State) (w : Nat) (f : Fwd) : s.tellTwin w f = told (s.wave w) s w f := rfl

theorem frame_mode (v : Nat) : StoresFrame fun s => (s.wave v).tr.hm := frame_wave (fun x => x.tr.hm) (fun _ _ => rfl) (fun _ _ => rfl) v

theorem pushHeap_eq (s : State) (w : Nat) (op : HOp) (dest : Nat) :
    s.pushHeap w op dest ((s.wave w).tr.hm && decide (56 ≤ dest)) = heapSent s w op dest := by
  have counted (r : State) : ((r.modWave w fun y => { y.count .cp false [] with num.heap := y.num.heap + 1 }).wave w).tr.hm = (r.wave w).tr.hm :=
    wave_modWave_keeps (fun y => y.tr.hm) r w w rfl
  cases op with
  | free p =>
    have released : (((s.performAll w).releaseInterval w).wave w).tr.hm = (s.wave w).tr.hm :=
      (wave_modWave_keeps (fun y => y.tr.hm) _ w w rfl).trans ((frame_mode w).performAll s w)
    simp only [State.pushHeap, heapSent, tellTwin_eq]
    rw [told_of_mode ((counted _).trans released)]
    rfl
  | alloc n z t m pe =>
    simp only [State.pushHeap, heapSent, tellTwin_eq]
    rw [told_of_mode (counted s)]
    rfl
  | stat k =>
    simp only [State.pushHeap, heapSent, tellTwin_eq]
    rw [told_of_mode (counted s)]
    rfl

theorem demandHeapLog_of {s : State} {w : Nat} {op : HOp}
    (h : s.staged (s.wave w).id.group = true → op.logged = true → s.heapEntries (s.wave w).id.group < 256) : demandHeapLog s w op = .ok () := by
  refine if_neg fun full => ?_
  simp only [Bool.and_eq_true, decide_eq_true_eq] at full
  obtain ⟨⟨staged, logged⟩, entries⟩ := full
  exact absurd (h staged logged) (Nat.not_lt.2 entries)

theorem heapSend_of {s : State} {w : Nat} {op : HOp} (h : heapReady s w op) (dest : Nat) : heapSend s w op dest = .ok (heapSent s w op dest) := by
  obtain ⟨-, room, copy, held, log⟩ := h
  have go : ((s.waveGroup w).copy == .twin) = false := beq_eq_false_iff_ne.2 copy
  simp only [heapSend, roomFor_of room, go, demandHeapLog_of log, demandSent_of held, eff_ok_bind, ← pushHeap_eq]
  rfl

section issue
variable {s : State} {w : Nat} {a : Opnd} {v : Word}

section alloc
variable {d : BitVec 6} (hc : checkOps s w [(.s d, .onlyS), (a, .count)] = .ok ()) (hu : uni1 s w a = .ok v)
include hc hu

theorem exec_hstat (hk : v.toNat ≤ 4) (h : heapReady s w (.stat v.toNat)) :
    exec (.hstat (.s d) a) s = .next (completed s w (heapSent s w (.stat v.toNat) d.toNat)) := by
  show execHstat (.s d) a s = _
  refine issue_completes h.1 ?_
  simp only [hc, hu, demand_of (decide_eq_true hk), heapSend_of h, eff_ok_bind]
  rfl

variable (z : Bool) (pe : BitVec 3) (h1 : 1 ≤ v.toNat) (h2 : v.toNat ≤ 2 ^ 24)
include h1 h2

theorem exec_halloc (h : heapReady s w (.alloc v.toNat z false (s.wave w).exec pe)) :
    exec (.halloc z false (.s d) a pe) s = .next (completed s w (heapSent s w (.alloc v.toNat z false (s.wave w).exec pe) d.toNat)) := by
  have size : (decide (1 ≤ v.toNat) && decide (v.toNat ≤ 2 ^ 24)) = true := by rw [decide_eq_true h1, decide_eq_true h2]; rfl
  show execHalloc z false (.s d) a pe s = _
  refine issue_completes h.1 ?_
  simp only [hc, hu, demand_of size, eff_ok_bind]
  exact heapSend_of h _

theorem exec_hallocT (h : heapReady s w (.alloc v.toNat z true (s.wave w).exec pe)) (hn : (s.wave w).sch.heapWait = none) :
    exec (.halloc z true (.s d) a pe) s = .next (((heapSent s w (.alloc v.toNat z true (s.wave w).exec pe) d.toNat).modWave w fun y =>
      { y with sch.heapWait := some (s.wave w).num.key, sch.heapReply := none }).stallWave w .reply).tick := by
  have size : (decide (1 ≤ v.toNat) && decide (v.toNat ≤ 2 ^ 24)) = true := by rw [decide_eq_true h1, decide_eq_true h2]; rfl
  have go : ((s.waveGroup w).copy == .twin) = false := beq_eq_false_iff_ne.2 h.2.2.1
  show execHalloc z true (.s d) a pe s = _
  refine issue_stalls h.1 ?_
  simp only [hn, hc, hu, demand_of size, heapCall, go, heapSend_of h, eff_ok_bind]
  rfl

end alloc

theorem exec_hfree (hc : checkOps s w [(a, .sv)] = .ok ()) (hu : uni1 s w a = .ok v) (h : heapReady s w (.free v.toNat))
    (hp : v = 0 ∨ v.toNat % 64 = 0 ∧ ∃ r, (s.waveCtx w).arena = some r ∧ r.base ≤ v.toNat ∧ v.toNat < r.base + r.size) :
    exec (.hfree a) s = .next (completed s w (heapSent s w (.free v.toNat) 0)) := by
  show execHfree a s = _
  refine issue_completes h.1 ?_
  simp only [hc, hu, eff_ok_bind]
  obtain rfl | ⟨h64, r, arena, low, high⟩ := hp
  · exact heapSend_of h 0
  · have unit : (v == 0 || v.toNat % 64 == 0) = true := by simp [h64]
    simp only [demand_of unit, arena, low, high, decide_true, Bool.and_self, Bool.or_true, demand_of, eff_ok_bind, heapSend_of h]

end issue

/-! A wave that waits for its reply -/

/-- A twin takes the result of a command like its own that has come without a trap. -/
theorem twinReply_told {s : State} {w : Nat} {f : Fwd} {rest : List Fwd} (hn : nextTold (s.wave w) true f rest) (hd : f.due = none)
    (ht : f.trap = none) : twinReply s w f.what = .ok (some (took s w rest, f)) := by
  have alike : (f.what != f.what) = false := bne_self_eq_false f.what
  simp only [twinReply, toldOf_next hn, alike, hd, ht]
  rfl

section wait
variable {s : State} {w k : Nat} (hw : s.running = some w) (hk : (s.wave w).sch.heapWait = some k) (z : Bool) (d : BitVec 6) (a : Opnd) (pe : BitVec 3)
  {r : Word}
include hw hk

theorem exec_hallocT_replied (hc : (s.waveGroup w).copy ≠ .twin) (hr : (s.wave w).sch.heapReply = some (.ok r)) :
    exec (.halloc z true (.s d) a pe) s = .next (completed s w (s.modWave w fun y =>
      { y.setS d.toNat r with sch.heapWait := none, sch.heapReply := none })) := by
  have go : ((s.waveGroup w).copy == .twin) = false := beq_eq_false_iff_ne.2 hc
  show execHalloc z true (.s d) a pe s = _
  refine issue_completes hw ?_
  simp only [hk, heapAwait, go, hr]
  rfl

theorem exec_hallocT_told {f : Fwd} {rest : List Fwd} (hc : (s.waveGroup w).copy = .twin) (hn : nextTold (s.wave w) true f rest)
    (hf : f.what = BitVec.ofNat 64 k) (hd : f.due = none) (ht : f.trap = none) :
    exec (.halloc z true (.s d) a pe) s = .next (completed s w (((took s w rest).modWave w fun y =>
      { y.count .cp true [] with num.heap := y.num.heap + 1 }).modWave w fun y =>
      { y.setS d.toNat f.val with sch.heapWait := none, sch.heapReply := none })) := by
  show execHalloc z true (.s d) a pe s = _
  refine issue_completes hw ?_
  have go : ((s.waveGroup w).copy == .twin) = true := beq_iff_eq.2 hc
  simp only [hk, heapAwait, go, ← hf, twinReply_told hn hd ht, eff_ok_bind, ↓reduceIte]
  rfl

end wait

/-! The engine -/

/-- The wave does not wait for the reply to operation `key`, nor did it when a handler interrupted it. -/
def unawaited (x : Wave) (key : Nat) : Prop := x.sch.heapWait ≠ some key ∧ ∀ q, x.tr.heapSaved = some q → q.2.1 ≠ key

/-- What a reply that nobody awaits does to its wave: the operation has its registers, and completes at once in a partition that
does not run. -/
theorem heapDone_eq {x : Wave} {c : HCmd} (h : unawaited x c.key) (ht : ∀ n z m pe, c.op ≠ .alloc n z true m pe) (run : RunState) (val : Word)
    (fail : Bool) (r : Except (BitVec 6 × Word) Word) :
    x.heapDone c (run != .running) val fail r =
      let y := x.markReady c.key (c.op.dests c.dest c.hb val fail)
      match y.mem.outst.find? fun p => p.key == c.key with
      | some p => if run = .running then y else y.finish p
      | none => y := by
  obtain ⟨wait, saved⟩ := h
  have go : (x.sch.heapWait == some c.key) = false := beq_eq_false_iff_ne.2 wait
  have stands : (x.tr.heapSaved.map fun q => if q.2.1 == c.key then (q.1, q.2.1, some r) else q) = x.tr.heapSaved := by
    cases hq : x.tr.heapSaved with
    | none => rfl
    | some q => simp [saved q hq]
  have writes : (match c.op with
      | .alloc _ _ true _ _ => []
      | op => op.dests c.dest c.hb val fail) = c.op.dests c.dest c.hb val fail := by
    split
    · exact absurd ‹_› (ht _ _ _ _)
    · rfl
  have bare : x.heapDone c (run != .running) val fail r =
      let y := x.markReady c.key (c.op.dests c.dest c.hb val fail)
      match (if run != .running then y.mem.outst.find? fun p => p.key == c.key else none) with
      | some p => y.finish p
      | none => y := by
    rw [← writes]
    simp only [Wave.heapDone, Wave.markReady, go, stands]
    rfl
  rw [bare]
  generalize x.markReady c.key (c.op.dests c.dest c.hb val fail) = y
  dsimp only
  cases run with
  | running => cases y.mem.outst.find? fun p => p.key == c.key <;> rfl
  | preempting => rfl
  | saved => rfl
  | restoring => rfl

/-- What the engine's reply changes before it reaches its wave: the twin's due result, and the L1 of the cores of a block returned. -/
def forwardedReply (s : State) (c : HCmd) (val : Word) (fail : Bool) : State :=
  let u := s.answerTwin c.wave c.key { val := val, pred := fail, trap := none, what := c.op.what }
  let alloc := match c.op with
    | .alloc .. => true
    | _ => false
  if alloc then ((u.wave c.wave).id.core :: (u.twinOf c.wave).toList.map fun t => (u.wave t).id.core).foldl State.l1Clear u else u

theorem forwardedReply_wave {β : Type} (p : Wave → β) (hp : ∀ (x : Wave) l, p { x with fwd := l } = p x) (s : State) (c : HCmd) (val : Word) (fail : Bool) (v : Nat) :
    p ((forwardedReply s c val fail).wave v) = p (s.wave v) := by
  have lines : LineFrame fun t => p (t.wave v) := lineFrame_of fun _ _ => rfl
  have answered (f : Fwd) : p ((s.answerTwin c.wave c.key f).wave v) = p (s.wave v) := by
    unfold State.answerTwin
    split
    · exact wave_modWave_keeps p s _ v (hp ..)
    · rfl
  exact (ite_keeps (fun t => p (t.wave v)) (foldl_keeps (fun t => p (t.wave v)) State.l1Clear (fun t k => lines.l1Clear t k) _ _) rfl).trans (answered _)

/-- The reply to a command that nobody awaits is the answer of the engine. -/
theorem heapReply_eq {s : State} {c : HCmd} (h : unawaited (s.wave c.wave) c.key) (ht : ∀ n z m pe, c.op ≠ .alloc n z true m pe) (val : Word) (fail : Bool) :
    s.heapReply c val fail none = heapAnswer s c val fail := by
  let v := forwardedReply s c val fail
  have still : unawaited (v.wave c.wave) c.key := by
    rw [unawaited, forwardedReply_wave (fun x => x.sch.heapWait) (fun _ _ => rfl), forwardedReply_wave (fun x => x.tr.heapSaved) (fun _ _ => rfl)]
    exact h
  have reply : s.heapReply c val fail none = v.modWave c.wave fun x => x.heapDone c ((v.part (v.wave c.wave).id.part).run != .running) val fail (.ok val) := by
    unfold State.heapReply v forwardedReply
    cases c.op <;> rfl
  rw [reply, State.modWave, heapDone_eq still ht]
  simp only [heapAnswer, v, forwardedReply, State.answerTwin, beq_iff_eq]
  rfl

section engine
variable {s : State} {die : Nat} {c : HCmd} {rest : List HCmd}

/-- The engine has taken its oldest command. -/
abbrev popped (s : State) (die : Nat) (rest : List HCmd) : State := s.modDie die fun e => { e with heapQ := rest }

/-- The arena of the command's context is `r`. -/
abbrev arenaKept (u : State) (c : HCmd) (r : Arena) : State :=
  u.modCtx (u.wave c.wave).id.part (u.wave c.wave).id.ctx fun q => { q with arena := some r }

/-! What a command does before the engine replies -/

section acts
variable (hu : unawaited (s.wave c.wave) c.key)
include hu

theorem applyFree_zero (ho : c.op = .free 0) : s.applyFree c 0 = heapAnswer s c 0 false :=
  heapReply_eq hu (by simp [ho]) ..

section live
variable {p : Nat} {r : Arena} {b : Nat × Nat} (ho : c.op = .free p) (hp : p ≠ 0) (hr : (s.waveCtx c.wave).arena = some r)
  (hb : r.liveAt p = some b) (hl : HeapLog.free p ∉ (s.group c.group).heapLog)
include ho hp hr hb hl

theorem applyFree_live : s.applyFree c p = if s.staged c.group
    then heapAnswer (s.modGroup c.group fun g => { g with heapLog := g.heapLog ++ [.free p] }) c 0 false
    else heapAnswer (arenaKept s c (r.release b)) c 0 false := by
  have zero : ¬ (p == 0) = true := by simpa using hp
  have plain : ∀ n z m pe, c.op ≠ .alloc n z true m pe := by simp [ho]
  simp only [State.applyFree, hr, Option.bind_some, hb, Option.map_some]
  rw [if_neg zero, if_neg fun deferred => ?_]
  · exact if_congr Iff.rfl (heapReply_eq (s := s.modGroup c.group _) hu plain ..) (heapReply_eq (s := arenaKept s c _) hu plain ..)
  · obtain ⟨e, he, hit⟩ := List.any_eq_true.1 deferred
    cases e with
    | alloc a => exact Bool.false_ne_true hit
    | free a => exact hl (beq_iff_eq.1 hit ▸ he)

end live

section alloc
variable {n : Nat} {m : Mask} {q : BitVec 3} {r : Arena} (ho : c.op = .alloc n false false m q) (hr : (s.waveCtx c.wave).arena = some r)
include ho hr

theorem applyAlloc_fits {p : Nat} {r' : Arena} (hf : r.alloc n = some (p, r')) : s.applyAlloc c n false false = some (heapAnswer
    (if s.staged c.group then (arenaKept s c r').modGroup c.group fun g => { g with heapLog := g.heapLog ++ [.alloc p] } else arenaKept s c r')
    c (BitVec.ofNat 64 p) false) := by
  have plain : ∀ n z m pe, c.op ≠ .alloc n z true m pe := by simp [ho]
  have still : unawaited ((if s.staged c.group then (arenaKept s c r').modGroup c.group fun g => { g with heapLog := g.heapLog ++ [.alloc p] }
      else arenaKept s c r').wave c.wave) c.key := by
    split
    · exact hu
    · exact hu
  rw [← heapReply_eq still plain]
  simp only [State.applyAlloc, hr, hf]
  rfl

theorem applyAlloc_fails (hf : r.alloc n = none) :
    s.applyAlloc c n false false = some (heapAnswer (arenaKept s c { r with failures := r.failures + 1 }) c 0 true) := by
  have plain : ∀ n z m pe, c.op ≠ .alloc n z true m pe := by simp [ho]
  rw [← heapReply_eq (s := arenaKept s c { r with failures := r.failures + 1 }) hu plain]
  simp only [State.applyAlloc, hr, hf]
  rfl

end alloc
end acts

/-! The engine's oldest command -/

variable (hq : (s.die die).heapQ = c :: rest) (ha : s.alive (s.wave c.wave).id.part = true)
include hq ha

theorem exec_apply_stat {k : Nat} (hu : unawaited (s.wave c.wave) c.key) (ho : c.op = .stat k) :
    exec (.heapCommandApply die) s = .next (heapAnswer (popped s die rest) c (Arena.figure ((popped s die rest).waveCtx c.wave).arena k) false).tick := by
  rw [← heapReply_eq (s := popped s die rest) hu (by simp [ho])]
  show execHeapCommandApply die s = _
  simp only [execHeapCommandApply, hq, ha, ho]
  rfl

theorem exec_apply_free {p : Nat} (ho : c.op = .free p) (hf : s.freeWaits c = false) :
    exec (.heapCommandApply die) s = .next ((popped s die rest).applyFree c p).tick := by
  show execHeapCommandApply die s = _
  simp only [execHeapCommandApply, hq, ha, ho, hf]
  rfl

theorem exec_apply_alloc {n : Nat} {z t : Bool} {m : Mask} {q : BitVec 3} {r : State} (ho : c.op = .alloc n z t m q)
    (h : (popped s die rest).applyAlloc c n z t = some r) : exec (.heapCommandApply die) s = .next r.tick := by
  show execHeapCommandApply die s = _
  simp only [execHeapCommandApply, hq, ha, ho, h]
  rfl

end engine

/-- Settles O34: each instruction by its checks and the command that it sends, each command by what the engine does before it replies. -/
theorem heapCommandsComplete : Obligations.HeapCommandsComplete := by
  intro s w z t d a pe v x op
  refine ⟨fun hc hu => ⟨fun h1 h2 => ⟨?_, ?_⟩, exec_hstat hc hu⟩, ?_, exec_hfree, ?_⟩
  · rintro rfl h
    exact exec_halloc hc hu z pe h1 h2 h
  · rintro rfl h hn
    exact exec_hallocT hc hu z pe h1 h2 h hn
  · intro hw k r hk
    refine ⟨exec_hallocT_replied hw hk z d a pe, ?_⟩
    rintro f rest hc hn hf hd ht rfl
    exact exec_hallocT_told hw hk z d a pe hc hn hf hd ht
  · intro die c rest hq ha wait saved
    have hu : unawaited ((popped s die rest).wave c.wave) c.key := ⟨wait, saved⟩
    refine ⟨fun k ho => exec_apply_stat hq ha hu ho, fun ho hf => ?_, fun p r b ho hf hp hr hb hl => ⟨fun hs => ?_, fun hs => ?_⟩,
      fun n m q r ho hr => ⟨fun p r' fits => ?_, fun full => ?_⟩⟩
    · rw [exec_apply_free hq ha ho hf, applyFree_zero hu ho]
    · rw [exec_apply_free hq ha ho hf, applyFree_live hu ho hp hr hb hl, hs]
      rfl
    · rw [exec_apply_free hq ha ho hf, applyFree_live hu ho hp hr hb hl, hs]
      rfl
    · exact exec_apply_alloc hq ha ho (applyAlloc_fits hu ho hr fits)
    · exact exec_apply_alloc hq ha ho (applyAlloc_fails hu ho hr full)

end Sys2Proof.Proofs
end

section
/-! PROOF. The end of a `prmt` in a handler of a checked group: the mode that the twin is told (spec/11 R362, spec/15 R451). -/

open Sys2Proof Sys2Proof.Machine Sys2Proof.Claims

namespace Sys2Proof.Proofs

/-- A `prmt` that waits ends with its request. Whatever the mode of its wave, the twin is told as if by a wave outside handler mode. -/
theorem exec_prmtSave_ended {s : State} {w q n : Nat} {d a : BitVec 6} {v : Word} (hw : s.running = some w) (hp : (s.waveCtx w).priv = true)
    (hc : checkOps s w [(.s d, .onlyS), (.s a, .onlyS)] = .ok ()) (hx : (s.wave w).sch.prmt = some ((s.wave w).pos, q, n))
    (hcopy : (s.waveGroup w).copy ≠ .twin) (hv : (s.part q).moved[n]? = some v) :
    exec (.prmtSave (.s d) (.s a)) s = .next (completed s w (((told { s.wave w with tr.hm := false } s w { val := v, pred := false, trap := none }).modWave w
      fun y => { y with sch.prmt := none }).modWave w fun y => y.setS d.toNat v)) := by
  have checked : prmtCheck (.s d) (.s a) s w = .ok () := by
    simp only [prmtCheck, demandPriv, demand_of hp, eff_ok_bind]
    exact hc
  have go : ((s.waveGroup w).copy == .twin) = false := beq_eq_false_iff_ne.2 hcopy
  show prmtIssue true (.s d) (.s a) s = _
  refine issue_completes hw ?_
  simp only [checked, eff_ok_bind, hx, beq_self_eq_true, prmtAwait, go, State.prmtResult, hv]
  rfl

/-- Wave 0 of the primary copy of a checked group is in a handler and waits at its `prmt` for partition 1, whose save has ended. Its twin is wave 1. -/
def handlerState : State :=
  let s := State.reset.withFetchWord 64 0
  let x := s.wave 0
  let g := s.group 0
  { s with
    waves := [{ x with tr.hm := true, sch.prmt := some (x.pos, 1, 0) }, { x with id := { x.id with group := 1 }, tr.hm := true }],
    groups := [{ g with waves := [0], copy := .primary, sibling := some 1 }, { g with waves := [1], copy := .twin, sibling := some 0 }],
    parts := [s.part 0, { s.part 0 with run := .saved, image := .shadow, moved := [0] }],
    launches := s.launches.map fun l => { l with r := { l.r with chk := true } } }

/-- The modes of what a wave has been told. -/
def toldModes (s : State) (w : Nat) : List Bool := (s.wave w).fwd.map fun f => f.hm

theorem handlerState_running : handlerState.running = some 0 := by decide +kernel

theorem handlerState_privileged : (handlerState.waveCtx 0).priv = true := by decide +kernel

theorem handlerState_operands : checkOps handlerState 0 [(.s 4#6, .onlyS), (.s 1#6, .onlyS)] = .ok () := by decide +kernel

theorem handlerState_waits : (handlerState.wave 0).sch.prmt = some ((handlerState.wave 0).pos, 1, 0) := by decide +kernel

theorem handlerState_primary : (handlerState.waveGroup 0).copy ≠ .twin := by decide +kernel

theorem handlerState_saved : (handlerState.part 1).moved[0]? = some 0 := by decide +kernel

/-- The prmt of wave 0 is complete with status 0, and its twin was told by a wave in the mode of `x`. -/
def prmtEnded (x : Wave) : State :=
  completed handlerState 0 (((told x handlerState 0 { val := 0, pred := false, trap := none }).modWave 0 fun y => { y with sch.prmt := none }).modWave 0
    fun y => y.setS 4 0)

theorem toldModes_of_handler : toldModes (prmtEnded (handlerState.wave 0)) 1 = [true] := by decide +kernel

theorem toldModes_of_program : toldModes (prmtEnded { handlerState.wave 0 with tr.hm := false }) 1 = [false] := by decide +kernel

/-- Refutes O40: a `prmt` of a primary's handler tells the twin its status as a result of the program, not of a handler, which the statement
has it tell as every other forwarded operation does. -/
theorem not_preEmptionProceeds : ¬ Obligations.PreEmptionProceeds := by
  intro h
  obtain ⟨asked, -⟩ := h handlerState 0 0 4 1
  obtain ⟨-, waits⟩ := asked true handlerState_running handlerState_privileged handlerState_operands
  have claimed : exec (.prmtSave (.s 4) (.s 1)) handlerState = .next (prmtEnded (handlerState.wave 0)) :=
    (waits 1 0 handlerState_waits handlerState_primary).1 0 handlerState_saved
  have done : exec (.prmtSave (.s 4) (.s 1)) handlerState = .next (prmtEnded { handlerState.wave 0 with tr.hm := false }) :=
    exec_prmtSave_ended handlerState_running handlerState_privileged handlerState_operands handlerState_waits handlerState_primary handlerState_saved
  rw [done, Host.Outcome.next.injEq] at claimed
  have modes := congrArg (fun t => toldModes t 1) claimed
  rw [toldModes_of_handler, toldModes_of_program] at modes
  exact absurd modes (by decide)

end Sys2Proof.Proofs
end

section
/-! PROOF. The class-8 instructions: with their operands accepted and their member set complete, each sends its command to a stream
(spec/09 R296 to R302, R308 to R313). -/

open Sys2Proof Sys2Proof.Machine Sys2Proof.Claims

namespace Sys2Proof.Proofs

/-! Checks -/

theorem demandTile_of {t : BitVec 4} (h : t.toNat < 8) : demandTile t = .ok () := demand_of (decide_eq_true h) ..

theorem evenPair_of {pair : Bool} {t : BitVec 4} (h : pair = true → t.toNat % 2 = 0) : (!pair || t.toNat % 2 == 0) = true := by
  cases pair with
  | false => rfl
  | true => rw [h rfl]; rfl

theorem demandLow_of {l : List Word} (h : ∀ v ∈ l, v.toNat < 2 ^ 57) : demandLow l = .ok () := by
  have none : l.find? (fun v => decide (2 ^ 57 ≤ v.toNat)) = none :=
    List.find?_eq_none.2 fun v hv => by rw [decide_eq_true_iff]; exact Nat.not_le.2 (h v hv)
  rw [demandLow, none]

theorem demandScale_of {v : Word} (count : v.toNat % 2 ^ 32 ≠ 0) (fits : v.toNat / 2 ^ 32 + v.toNat % 2 ^ 32 ≤ 32768) (c : Opnd) :
    demandScale v c = .ok (v.toNat / 2 ^ 32, v.toNat % 2 ^ 32) := by
  rw [demandScale, demand_of (by rw [bne_iff_ne.2 count, decide_eq_true fits]; rfl)]
  rfl

/-- The prime of a store of residues is loaded; another store takes none. -/
theorem storePrime_of {s : State} {w p : Nat} {md : Word}
    (h : if md.getLsbD 5 then s.prime w (md.toNat / 2 ^ 8 % 2 ^ 6) = some p else p = 1) :
    (if smMod md then s.prime w (smMidx md) else some 1) = some p := by
  have index : smMidx md = md.toNat / 2 ^ 8 % 2 ^ 6 := by rw [smMidx, bitsOf, Nat.shiftRight_eq_div_pow]
  rw [smMod, index]
  split_ifs at h ⊢ with residues
  · exact h
  · exact congrArg some h.symm

/-! A command enters its stream -/

theorem sendMatrix_of {s : State} {w : Nat} {sn : BitVec 2} (h : matrixRoom s w sn) (o : Order) (sc : Scope) (op : MOp) :
    sendMatrix s w o sc sn op = .ok (sentMatrix s w o sc sn op) := by
  obtain ⟨room, held, free⟩ := h
  have enters : (!s.matrixAside w && decide (16 ≤ ((s.core (s.wave w).id.core).mx.stream sn.toNat).q.length)) = false := by
    obtain aside | short := free
    · rw [aside]; rfl
    · rw [decide_eq_false (Nat.not_le.2 short), Bool.and_false]
  rw [sendMatrix]
  dsimp only
  rw [roomFor_of room, eff_ok_bind, if_neg (enters ▸ Bool.false_ne_true), if_neg (held ▸ Bool.false_ne_true)]
  rfl

section issue
variable {s : State} {w : Nat} {checks : List (Opnd × Accept)} {b : BitVec 6} {act : State → Nat → Eff State} (ready : matrixReady s w checks b)
include ready

/-- A class-8 instruction that comes to its work has its effect. -/
theorem matrixIssue_acts {r : State} (ha : act s w = .ok r) : matrixIssue s checks (.s b) act = .next (released s w r) := by
  obtain ⟨running, accepted, complete⟩ := ready
  refine issueWith_ok Wave.release running ?_
  rw [accepted, eff_ok_bind]
  cases hg : gather s w ((s.wave w).named (readS s w 2 b.toNat)) with
  | error e => rw [hg] at complete; cases complete
  | ok parts => exact (congrArg (· >>= fun _ => act s w) hg).trans ha

/-- One whose checks leave the sending of a command sends it. -/
theorem matrixIssue_sends {sn : BitVec 2} {o : Order} {sc : Scope} {op : MOp} (room : matrixRoom s w sn)
    (ha : act s w = sendMatrix s w o sc sn op) : matrixIssue s checks (.s b) act = .next (released s w (sentMatrix s w o sc sn op)) :=
  matrixIssue_acts ready (ha.trans (sendMatrix_of room ..))

end issue

section instructions
variable {s : State} {w : Nat} {sn : BitVec 2} (room : matrixRoom s w sn) (o : Order) (sc : Scope) {d a b c : BitVec 6} {tile : BitVec 4}
include room

theorem exec_mloop {l : Loop} (hl : Loop.ofOps ((List.range 8).map fun i => readS s w (10 + i) (a.toNat + i)) = l)
    (ready : matrixReady s w [(.s a, .onlyS)] b) (h8 : a.toNat % 8 = 0) (ht : tile.toNat < 8) (legal : l.legal tile.toNat = true)
    (aligned : ∀ q ∈ l.aligned, q.1.toNat % q.2 = 0) (la : l.abase.toNat < 2 ^ 57) (lb : l.bbase.toNat < 2 ^ 57) :
    exec (.mloop o sc sn (.s a) (.s b) tile) s =
      .next (released s w (sentMatrix s w o sc sn (.loop tile.toNat ((List.range 8).map fun i => readS s w (10 + i) (a.toNat + i))))) := by
  have low : demandLow [l.abase, l.bbase] = .ok () := demandLow_of (List.forall_mem_cons.2 ⟨la, List.forall_mem_singleton.2 lb⟩)
  show execMloop o sc sn (.s a) (.s b) tile s = _
  refine matrixIssue_sends ready room ?_
  dsimp only [regOf]
  rw [hl, demand_of (beq_iff_eq.2 h8), eff_ok_bind, demandTile_of ht, eff_ok_bind, demand_of legal, eff_ok_bind, demandAligned_of aligned, eff_ok_bind, low, eff_ok_bind]

theorem exec_mzero {pair : Bool} (ready : matrixReady s w [] b) (ht : tile.toNat < 8) (even : pair = true → tile.toNat % 2 = 0) :
    exec (.mzero sn pair (.s b) tile) s = .next (released s w (sentMatrix s w .rlx .wave sn (.zero tile.toNat pair))) := by
  show execMzero sn pair (.s b) tile s = _
  refine matrixIssue_sends ready room ?_
  rw [demandTile_of ht, eff_ok_bind, demand_of (evenPair_of even), eff_ok_bind]

section addressed
variable {va st : Word} (hva : readS s w 1 a.toNat = va) (hst : readS s w 3 c.toNat = st) (low : va.toNat < 2 ^ 57)
include hva hst low

theorem exec_mldt (ready : matrixReady s w [(.s a, .onlyS), (.s c, .onlyS)] b) (tr : Bool) (ht : tile.toNat < 8)
    (h4 : va.toNat % 4 = 0) (s4 : st.toNat % 4 = 0) :
    exec (.mldt o sc sn tr (.s a) (.s b) (.s c) tile) s = .next (released s w (sentMatrix s w o sc sn (.load tile.toNat va st tr))) := by
  have aligned : demandAligned [(va, 4), (st, 4)] = .ok () := demandAligned_of (by simp [h4, s4])
  show execMldt o sc sn tr (.s a) (.s b) (.s c) tile s = _
  refine matrixIssue_sends ready room ?_
  dsimp only [regOf]
  rw [hva, hst, demandTile_of ht, eff_ok_bind, aligned, eff_ok_bind, demandLow_of (List.forall_mem_singleton.2 low), eff_ok_bind]

/-- The commands of scale memory, of a range that lies within it. -/
theorem exec_scale (ready : matrixReady s w [(.s a, .onlyS), (.s c, .onlyS)] b) (count : st.toNat % 2 ^ 32 ≠ 0)
    (fits : st.toNat / 2 ^ 32 + st.toNat % 2 ^ 32 ≤ 32768) :
    exec (.mldtScale o sc sn (.s a) (.s b) (.s c)) s =
        .next (released s w (sentMatrix s w o sc sn (.loadScale va (st.toNat / 2 ^ 32) (st.toNat % 2 ^ 32)))) ∧
      exec (.msttScale o sc sn (.s a) (.s b) (.s c)) s =
        .next (released s w (sentMatrix s w o sc sn (.storeScale va (st.toNat / 2 ^ 32) (st.toNat % 2 ^ 32)))) := by
  have scale := demandScale_of count fits (.s c)
  have base := demandLow_of (List.forall_mem_singleton.2 low)
  constructor
  · show execMldtScale o sc sn (.s a) (.s b) (.s c) s = _
    refine matrixIssue_sends ready room ?_
    dsimp only [regOf]
    rw [hva, hst, scale, eff_ok_bind, base, eff_ok_bind]
  · show execMsttScale o sc sn (.s a) (.s b) (.s c) s = _
    refine matrixIssue_sends ready room ?_
    dsimp only [regOf]
    rw [hva, hst, scale, eff_ok_bind, base, eff_ok_bind]

theorem exec_mstt {md : Word} {es p : Nat} (hmd : readS s w 4 d.toNat = md)
    (ready : matrixReady s w [(.s d, .onlyS), (.s a, .onlyS), (.s c, .onlyS)] b) (tr : Bool) (ht : tile.toNat < 8)
    (high : md.extractLsb' 14 50 = 0) (reserved : md.extractLsb' 6 2 = 0) (even : smPair md = true → tile.toNat % 2 = 0)
    (bytes : storeBytes md = some es) (prime : (if smMod md then s.prime w (smMidx md) else some 1) = some p)
    (ha : va.toNat % es = 0) (hs : st.toNat % es = 0) :
    exec (.mstt o sc sn tr (.s d) (.s a) (.s b) (.s c) tile) s =
      .next (released s w (sentMatrix s w o sc sn (.store tile.toNat va st md tr p))) := by
  have aligned : demandAligned [(va, es), (st, es)] = .ok () := demandAligned_of (by simp [ha, hs])
  show execMstt o sc sn tr (.s d) (.s a) (.s b) (.s c) tile s = _
  refine matrixIssue_sends ready room ?_
  dsimp only [regOf]
  rw [hmd, hva, hst, prime, demandTile_of ht, eff_ok_bind, demand_of (by rw [high, reserved]; rfl), eff_ok_bind,
    demand_of (evenPair_of even), eff_ok_bind, bytes]
  dsimp only
  rw [aligned, eff_ok_bind, demandLow_of (List.forall_mem_singleton.2 low), eff_ok_bind]

end addressed

theorem exec_mprg (ready : matrixReady s w [(.s d, .onlyS)] b) : exec (.mprg sn (.s d) (.s b)) s =
    .next (released s w (sentMatrix s w .rlx .wave sn (.prg d.toNat ((s.wave w).tr.hm && decide (56 ≤ d.toNat))))) := by
  show execMprg sn (.s d) (.s b) s = _
  exact matrixIssue_sends ready room rfl

end instructions

/-- An engine replaced by itself. -/
theorem modMx_self (s : State) (c : Nat) : (s.modMx c fun m => m) = s := by
  have same : s.cores.set c (s.core c) = s.cores := by
    by_cases hc : c < s.cores.length
    · rw [State.core, List.getD_eq_getElem _ _ hc, List.set_getElem_self]
    · exact List.set_eq_of_length_le (Nat.not_lt.1 hc)
  show { s with cores := s.cores.set c (s.core c) } = s
  rw [same]

theorem exec_mfence {s : State} {w : Nat} {b : BitVec 6} (ready : matrixReady s w [] b) (k : BitVec 4) :
    exec (.mfence (.s b) k) s = .next (released s w (if s.matrixAside w then s
      else s.modMx (s.wave w).id.core fun m => { m with fences := m.fences ++ [(k, m.seq)] })) := by
  show execMfence (.s b) k s = _
  exact matrixIssue_acts ready rfl

/-- Settles O30: each instruction by its checks, and the command that it sends. -/
theorem matrixCommandsSend : Obligations.MatrixCommandsSend := by
  intro s w o sc sn d a b c tile k tr pair es p va st md sends
  refine ⟨fun room => ⟨?_, exec_mzero room, fun ready low => ⟨?_, ?_⟩, ?_, exec_mprg room⟩, fun ready => ?_⟩
  · intro ops l ready h8 ht legal aligned la lb
    exact exec_mloop room o sc rfl ready h8 ht legal aligned la lb
  · intro ht h4 s4
    exact exec_mldt room o sc rfl rfl low ready tr ht h4 s4
  · intro off cnt count fits
    exact exec_scale room o sc rfl rfl low ready count fits
  · intro ready ht high reserved even bytes prime ha hs low
    refine exec_mstt room o sc rfl rfl low rfl ready tr ht high reserved even bytes ?_ ha hs
    exact storePrime_of prime
  · rw [exec_mfence ready]
    congr 2
    split_ifs
    · exact (modMx_self ..).symm
    · rfl

end Sys2Proof.Proofs
end

section
/-! PROOF. What an engine's accesses leave alone: the matrix engines. They write memory, page tables, pools and the marks of waves, and
drop lines of L1 (spec/04 R176, spec/06 R231, spec/13 R407; spec/09 R293). -/

open Sys2Proof Sys2Proof.Machine Sys2Proof.Claims

namespace Sys2Proof.Proofs

/-- The matrix engines of the cores. -/
def matricesOf (s : State) : List Matrix := s.cores.map fun k => k.mx

/-- Lines of L1 that change, in one core. -/
theorem matrices_lineFrame : LineFrame matricesOf := fun s c l => by
  refine (List.map_set ..).trans ?_
  show (matricesOf s).set c (s.core c).mx = matricesOf s
  by_cases hc : c < s.cores.length
  · rw [State.core, List.getD_eq_getElem _ _ hc, show s.cores[c].mx = (matricesOf s)[c]'(by simpa [matricesOf] using hc) from (List.getElem_map ..).symm,
      List.set_getElem_self]
  · exact List.set_eq_of_length_le (by simpa [matricesOf] using hc)

theorem dropLines_matrices (s : State) (pa n : Nat) : matricesOf (s.dropLines pa n) = matricesOf s := List.map_map ..

theorem fetchPage_matrices (s : State) (p c va d : Nat) (pin : Bool) : matricesOf (s.fetchPage p c va d pin).1 = matricesOf s := by
  have written : ∀ (u : State) pa level sz raw, matricesOf (u.writeGroup pa level sz raw) = matricesOf u := fun u pa level sz raw => by
    unfold State.writeGroup
    exact foldl_keeps matricesOf (fun v q => v.putLe q 8 raw) (fun _ _ => rfl) _ u
  have blurred : ∀ (u : State) b pa n, matricesOf (u.blurAlias b pa n) = matricesOf u := fun u b pa n => ite_keeps matricesOf rfl rfl
  unfold State.fetchPage
  split
  · rfl
  split
  · rfl
  · rfl
  split
  · rfl
  split
  · rfl
  dsimp only
  split
  · rfl
  split
  · rfl
  split
  · rfl
  · exact (written ..).trans ((dropLines_matrices ..).trans (blurred ..))

theorem OnlyPages.matrices {s t : State} (h : OnlyPages s t) : matricesOf t = matricesOf s := by
  obtain ⟨m, l, d, rfl⟩ := h
  rfl

theorem resolve_matrices {s t : State} {g d p c va n : Nat} {want : Want} {l : Loc} (h : s.resolve g d p c va n want = some (t, l)) :
    matricesOf t = matricesOf s := by
  unfold State.resolve at h
  split at h
  · cases h
  split at h
  · split at h
    · cases h; rfl
    · cases h
  split at h
  · cases h; exact (translate_onlyPages ‹_›).matrices
  · cases h
  · cases h
  · have fetched := fetchPage_matrices s p c va d false
    split at h
    · rename_i hp
      rw [hp] at fetched
      split at h
      · cases h; exact (translate_onlyPages ‹_›).matrices.trans fetched
      · cases h
    · cases h

theorem engPlaces_matrices {k : Issuer} {want : Want} {l : List (Nat × Nat)} {s t : State} {ls : List Loc} (h : engPlaces k want s l = .ok (t, ls)) :
    matricesOf t = matricesOf s := by
  induction l generalizing s ls with
  | nil => cases h; rfl
  | cons q l ih =>
    unfold engPlaces at h
    dsimp only at h
    split at h
    · cases h
    split at h
    · cases h
    · rename_i r
      cases hr : engPlaces k want ‹State› l with
      | error e => rw [hr] at h; cases h
      | ok v =>
        rw [hr] at h
        cases h
        exact (ih hr).trans (resolve_matrices r)

theorem engOpen_matrices {k : Issuer} {s t : State} {reads writes : List (Nat × Nat)} {lost : Bool} {rs ws : List Loc}
    (h : engOpen k s reads writes lost = .ok (t, rs, ws)) : matricesOf t = matricesOf s ∧ ws.length = writes.length := by
  obtain ⟨⟨u, ls⟩, hr, h⟩ := eng_bind_ok h
  obtain ⟨⟨v, ls'⟩, hw, h⟩ := eng_bind_ok h
  dsimp only at h
  split at h
  · cases h
  split at h
  · cases h
  split at h
  · cases h
  cases h
  obtain ⟨-, -, length⟩ := engPlaces_ok hw
  exact ⟨(engPlaces_matrices hw).trans (engPlaces_matrices hr), length⟩

theorem logRace_matrices (s : State) (w : Nat) (a : Access) (pos : Pos) (lane va entry : Nat) :
    matricesOf (s.logRace w a pos lane va entry) = matricesOf s := by
  unfold State.logRace
  extract_lets x c size ring put get prod cons kind rec_ t
  have kept : ∀ (u : State) (va : Nat) (bs : List Byte), matricesOf (put u va bs) = matricesOf u := by
    intro u va bs
    unfold put
    split
    · exact resolve_matrices (t := ‹State›) ‹_›
    · exact resolve_matrices ‹_›
    · rfl
  exact ite_keeps matricesOf (kept ..) ((kept ..).trans (kept ..))

theorem logConflicts_matrices (s : State) (w : Nat) (a : Access) (by_ : Origin) (cs : List (Nat × Nat × Nat × Nat)) :
    matricesOf (s.logConflicts w a by_ cs) = matricesOf s := by
  unfold State.logConflicts
  extract_lets ks t
  have logged : matricesOf t = matricesOf s := foldl_keeps matricesOf _ (fun u k => by
    split
    · exact logRace_matrices ..
    · rfl) ks s
  exact ite_keeps matricesOf logged logged

theorem recordAccesses_matrices (s : State) (w : Nat) (a : Access) (l : List (Nat × Nat × Nat)) :
    matricesOf (s.recordAccesses w a l) = matricesOf s := by
  unfold State.recordAccesses
  extract_lets c ks t u sc e
  have ht : matricesOf t = matricesOf s := by
    refine ite_keeps matricesOf (foldl_keeps matricesOf _ (fun v k => ?_) _ s) rfl
    exact ite_keeps matricesOf rfl rfl
  have hu : matricesOf u = matricesOf s := ite_keeps matricesOf ht ht
  have written : matricesOf (ks.foldl (fun v k => v.putLe (c.shbase + 8 * k) 8 e.toNat) u) = matricesOf u :=
    foldl_keeps matricesOf (fun v k => v.putLe (c.shbase + 8 * k) 8 e.toNat) (fun _ _ => rfl) _ u
  exact ite_keeps matricesOf hu (written.trans hu)

theorem raceEngine_matrices (s : State) (w : Nat) (a : Access) (by_ : Origin) (l : List (Nat × Nat)) :
    matricesOf (s.raceEngine w a by_ l) = matricesOf s := by
  unfold State.raceEngine
  extract_lets mode l
  exact ite_keeps matricesOf rfl ((recordAccesses_matrices ..).trans (ite_keeps matricesOf (logConflicts_matrices ..) rfl))

theorem engineWriteAll_matrices (s : State) (g : Nat) (direct : Bool) (spb mb : List (Nat × Byte)) :
    matricesOf (s.engineWriteAll g direct spb mb) = matricesOf s := by
  have scratch := scratchWritten_keeps matricesOf (fun _ _ _ => rfl) s g direct spb
  rw [engineWriteAll_eq]
  extract_lets u v
  have touched : matricesOf v = matricesOf u := ite_keeps matricesOf rfl rfl
  refine ite_keeps matricesOf scratch (ite_keeps matricesOf (touched.trans scratch) ?_)
  exact (foldl_keeps matricesOf _ (fun t c => matrices_lineFrame.l1Drop t c _) _ _).trans (touched.trans scratch)

/-! One engine -/

/-- The engine of a core, from those of all. -/
theorem core_mx (s : State) (c : Nat) : (s.core c).mx = (matricesOf s).getD c default := by
  by_cases hc : c < s.cores.length
  · simp [State.core, matricesOf, hc]
  · simp [State.core, matricesOf, hc]
    rfl

section engine
variable {s t : State} (h : matricesOf t = matricesOf s)
include h

theorem matrices_mx (c : Nat) : (t.core c).mx = (s.core c).mx := by rw [core_mx, core_mx, h]

theorem matrices_modMx {c : Nat} (hc : c < s.cores.length) (f : Matrix → Matrix) : ((t.modMx c f).core c).mx = f (s.core c).mx := by
  have long : c < t.cores.length := by
    have := congrArg List.length h
    simp only [matricesOf, List.length_map] at this
    rwa [this]
  rw [State.modMx, core_modCore_same _ _ _ long, ← matrices_mx h]

end engine

end Sys2Proof.Proofs
end

section
/-! PROOF. Rows of tiles: what a row holds once it has been written, and that every other row and tile stands (spec/09 R293, R294). -/

open Sys2Proof Sys2Proof.Machine Sys2Proof.Claims

namespace Sys2Proof.Proofs

theorem length_modifyAt {α : Type} (l : List α) (i : Nat) (f : α → α) : (modifyAt l i f).length = l.length := by
  induction l generalizing i with
  | nil => rfl
  | cons x l ih =>
    cases i with
    | zero => rfl
    | succ i => exact congrArg (· + 1) (ih i)

/-- What holds of every element holds of one that an update gives it, and of the others. -/
theorem forall_modifyAt {α : Type} {p : α → Prop} {l : List α} (h : ∀ x ∈ l, p x) (i : Nat) {f : α → α} (hf : ∀ x, p x → p (f x)) :
    ∀ x ∈ modifyAt l i f, p x := by
  induction l generalizing i with
  | nil => exact h
  | cons x l ih =>
    obtain ⟨first, rest⟩ := List.forall_mem_cons.1 h
    cases i with
    | zero => exact List.forall_mem_cons.2 ⟨hf x first, rest⟩
    | succ i => exact List.forall_mem_cons.2 ⟨first, ih rest i⟩

/-- Every tile of an engine is in the canonical form of memory. -/
abbrev tilesWf (m : Matrix) : Prop := ∀ x ∈ m.tiles, x.wf = true

theorem tile_wf {m : Matrix} (h : tilesWf m) (t : Nat) : (m.tile t).wf = true := by
  by_cases ht : t < m.tiles.length
  · rw [Matrix.tile, List.getD_eq_getElem _ _ ht]
    exact h _ (List.getElem_mem ht)
  · rw [Matrix.tile, List.getD_eq_default _ _ (Nat.not_lt.1 ht)]
    rfl

theorem setRow_wf {m : Matrix} (h : tilesWf m) (t r : Nat) (xs : List Nat) : tilesWf (m.setRow t r xs) :=
  forall_modifyAt h t fun _ hx => Memory.writeAll_wf hx _

@[simp] theorem setRow_length (m : Matrix) (t r : Nat) (xs : List Nat) : (m.setRow t r xs).tiles.length = m.tiles.length := length_modifyAt ..

/-- The words of a row stand one behind the other. -/
theorem placed_words (r : Nat) (xs : List Nat) : placed (tilePlace r 0) (xs.flatMap (leBytes 4)) = blocks (tilePlace r) 4 id xs.zipIdx := by
  have words : ∀ xs : List Nat, (xs.flatMap (leBytes 4)).length = 4 * xs.length := fun xs => by simp [List.length_flatMap, Nat.mul_comm]
  induction xs using List.reverseRecOn with
  | nil => rfl
  | append_singleton xs x ih =>
    rw [List.flatMap_append, placed_append_list, ih, words, List.zipIdx_append, blocks, blocks, List.flatMap_append]
    simp [tilePlace]

/-- A row that has been written holds its 64 words; every other row, and every other tile, stands. -/
theorem elem_setRow {m : Matrix} (hm : tilesWf m) {t r : Nat} (ht : t < m.tiles.length) {xs : List Nat} (hx : xs.length = 64) (t' r' : Nat) {j : Nat}
    (hj : j < 64) : (m.setRow t r xs).elem t' r' j = if t' = t ∧ r' = r then xs.getD j 0 % 2 ^ 32 else m.elem t' r' j := by
  by_cases same : t' = t
  · subst same
    have written : (m.setRow t' r xs).tile t' = (m.tile t').writeAll (blocks (tilePlace r) 4 id xs.zipIdx) := by
      rw [← placed_words]
      exact getD_modifyAt_same _ _ _ _ ht
    rw [Matrix.elem, written]
    by_cases row : r' = r
    · subst row
      rw [if_pos ⟨rfl, rfl⟩]
      exact readLe_blocks (tile_wf hm t') xs (tilePlace r') 4 id (hx ▸ hj) fun i _ hi => by simp only [tilePlace]; omega
    · rw [if_neg fun h => row h.2, Matrix.elem, Memory.readLe, Memory.readLe, Memory.readN, Memory.readN]
      refine congrArg leValue (List.map_congr_left fun i hi => ?_)
      have here : i < 4 := List.mem_range.1 hi
      exact read_blocks_other (tile_wf hm t') xs (tilePlace r) 4 id fun k hk => by simp only [tilePlace]; omega
  · rw [if_neg fun h => same h.1, Matrix.elem, Matrix.elem, Matrix.tile, Matrix.tile]
    exact congrArg (Memory.readLe · _ _) (getD_modifyAt_other _ _ _ _ _ same)

section pair
variable {m : Matrix} (hm : tilesWf m) {t r : Nat} (ht : t + 1 < m.tiles.length) {xs : List Nat} (hx : xs.length = 64)
include hm ht hx

/-- A row of a pair that has been written: the low words in its first tile, the high words in the second. -/
theorem elem_setPairRow (t' r' : Nat) {j : Nat} (hj : j < 64) : (m.setPairRow t r xs).elem t' r' j =
    if t' = t ∧ r' = r then xs.getD j 0 % 2 ^ 32 else if t' = t + 1 ∧ r' = r then xs.getD j 0 / 2 ^ 32 % 2 ^ 32 else m.elem t' r' j := by
  have value : ∀ f : Nat → Nat, (xs.map f).getD j 0 = f (xs.getD j 0) := fun f => by simp [List.getD_eq_getElem?_getD, hx, hj]
  rw [Matrix.setPairRow, elem_setRow (setRow_wf hm t r _) (by simpa using ht) (by simpa using hx) t' r' hj,
    elem_setRow hm (by omega) (by simpa using hx) t' r' hj, value, value, Nat.mod_mod, Nat.mod_mod]
  by_cases first : t' = t ∧ r' = r
  · rw [if_neg (by omega), if_pos first, if_pos first]
  · rw [if_neg first, if_neg first]

theorem pairElem_setPairRow {j : Nat} (hj : j < 64) : (m.setPairRow t r xs).pairElem t r j = xs.getD j 0 % 2 ^ 64 := by
  rw [Matrix.pairElem, elem_setPairRow hm ht hx t r hj, elem_setPairRow hm ht hx (t + 1) r hj, if_pos ⟨rfl, rfl⟩, if_neg (by omega),
    if_pos ⟨rfl, rfl⟩]
  omega

end pair

end Sys2Proof.Proofs
end

section
/-! PROOF. Reads of the matrix engine: rows and columns of bytes, cut where a page may end, and the half-limbs of limb mode (spec/09 R302,
R307, R309, R310). -/

open Sys2Proof Sys2Proof.Machine Sys2Proof.Claims

namespace Sys2Proof.Proofs

/-! Addresses -/

theorem strideAddr_toNat (base step : Word) (i : Nat) : (strideAddr base step i).toNat = (base.toNat + i * step.toNat) % 2 ^ 64 := by
  simp [strideAddr, Nat.add_mod, Nat.mul_mod]

theorem stridesAddr_toNat (base inc str : Word) (st i : Nat) :
    (strideAddr (strideAddr base inc st) str i).toNat = (base.toNat + st * inc.toNat + i * str.toNat) % 2 ^ 64 := by
  rw [strideAddr_toNat, strideAddr_toNat, Nat.mod_add_mod]

theorem tileAddr_eq (a st : Word) (tr : Bool) (es r j : Nat) : tileAddr a st tr es r j = tileElemAddr a st tr es r j := by
  cases tr <;> simp [tileAddr, tileElemAddr, strideAddr_toNat]

/-! Bytes of ranges -/

theorem takeBytes_whole {l : List Byte} {off n : Nat} (h : off + n ≤ l.length) : takeBytes l off n = (l.drop off).take n := by
  have full : ((l.drop off).take n).length = n := by simp; omega
  rw [takeBytes, full, Nat.sub_self, List.replicate_zero, List.append_nil]

theorem fieldOf_byte (l : List Byte) (i : Nat) : fieldOf l i 1 = (l.getD i 0).toNat := by
  rw [fieldOf, takeBytes, List.getD_eq_getElem?_getD, ← List.head?_drop]
  rcases l.drop i with _ | ⟨x, t⟩ <;> rfl

theorem fieldOf_half (l : List Byte) (i : Nat) : fieldOf l i 2 = (l.getD i 0).toNat + 256 * (l.getD (i + 1) 0).toNat := by
  have next : l[i + 1]? = (l.drop i)[1]? := List.getElem?_drop.symm
  rw [fieldOf, takeBytes, List.getD_eq_getElem?_getD, List.getD_eq_getElem?_getD, ← List.head?_drop, next]
  rcases l.drop i with _ | ⟨x, _ | ⟨y, t⟩⟩ <;> rfl

theorem pieces_sum (va n : Nat) : ((pieces va n).map fun q => q.2).sum = n := by
  simp only [pieces]
  split
  · simp
  · simp
    omega

theorem rows_sum (vas : List Nat) (n : Nat) : ((vas.flatMap fun va => pieces va n).map fun q => q.2).sum = n * vas.length := by
  induction vas with
  | nil => rfl
  | cons va vas ih => rw [List.flatMap_cons, List.map_append, List.sum_append, pieces_sum, ih, List.length_cons, Nat.mul_succ, Nat.add_comm]

theorem bytesAt_length (v : State) (g : Nat) {ls : List Loc} {rs : List (Nat × Nat)} (h : ls.length = rs.length) :
    (bytesAt v g ls rs).length = (rs.map fun q => q.2).sum := by
  rw [bytesAt, List.length_flatMap]
  refine congrArg List.sum ?_
  have read : (fun q : Loc × Nat × Nat => (v.engineRead g q.1 q.2.2).length) = (fun q => q.2) ∘ Prod.snd := funext fun q => engineRead_length ..
  rw [read, ← List.map_map, List.map_snd_zip (by omega)]

/-! Reads that have been opened -/

/-- The race detector has seen the reads of a step. -/
def readSeen (k : Issuer) (v : State) (reads : List (Nat × Nat)) : State :=
  v.raceEngine k.wave { kind := .engineRead, acq := Order.acquires k.o, rel := false, sc := k.sc } k.origin reads

section reads
variable {k : Issuer} {s v : State} {ls : List Loc}

/-- Ranges of one size bring as many bytes of each place. -/
theorem reads_uniform (v : State) (g : Nat) {rs : List (Nat × Nat)} {n : Nat} (h : ∀ q ∈ rs, q.2 = n) (hl : ls.length = rs.length) :
    ((ls.zip rs).map fun q => v.engineRead g q.1 q.2.2) = ls.map fun l => v.engineRead g l n := by
  have sized : ((ls.zip rs).map fun q => v.engineRead g q.1 q.2.2) = (ls.zip rs).map ((fun l => v.engineRead g l n) ∘ Prod.fst) :=
    List.map_congr_left fun q hq => by rw [h q.2 (List.of_mem_zip hq).2]; rfl
  rw [sized, ← List.map_map, List.map_fst_zip (Nat.le_of_eq hl)]

theorem readSeen_matrices {reads : List (Nat × Nat)} (ho : engOpen k s reads [] = .ok (v, ls, [])) : matricesOf (readSeen k v reads) = matricesOf s :=
  (raceEngine_matrices ..).trans (engOpen_matrices ho).1

theorem readSeen_off (h : (v.waveLaunch k.wave).r.race = 0) (reads : List (Nat × Nat)) : readSeen k v reads = v := raceEngine_off h ..

theorem engReads_of {reads : List (Nat × Nat)} (ho : engOpen k s reads [] = .ok (v, ls, [])) :
    engReads k s reads = .ok (readSeen k v reads, (ls.zip reads).map fun q => v.engineRead k.group q.1 q.2.2) := by
  rw [engReads, engMove_of ho]
  rfl

theorem engRows_of {vas : List Nat} {n : Nat} (ho : engOpen k s (vas.flatMap fun va => pieces va n) [] = .ok (v, ls, [])) :
    engRows k s vas n = .ok (readSeen k v (vas.flatMap fun va => pieces va n), (List.range vas.length).map fun i =>
      ((bytesAt v k.group ls (vas.flatMap fun va => pieces va n)).drop (n * i)).take n) := by
  obtain ⟨-, -, places⟩ := engOpen_ok ho
  have long := (bytesAt_length v k.group places).trans (rows_sum vas n)
  have all : ((ls.zip (vas.flatMap fun va => pieces va n)).map fun q => v.engineRead k.group q.1 q.2.2).flatMap id =
      bytesAt v k.group ls (vas.flatMap fun va => pieces va n) := by rw [List.flatMap_map]; rfl
  rw [engRows, engReads_of ho, eng_ok_bind]
  dsimp only
  rw [all]
  refine congrArg (fun bs => Except.ok (_, bs)) (List.map_congr_left fun i hi => takeBytes_whole ?_)
  have : n * (i + 1) ≤ n * vas.length := Nat.mul_le_mul_left n (List.mem_range.1 hi)
  rw [long]
  exact this

theorem engBytes_of {va n : Nat} (ho : engOpen k s (pieces va n) [] = .ok (v, ls, [])) :
    engBytes k s va n = .ok (readSeen k v (pieces va n), bytesAt v k.group ls (pieces va n)) := by
  obtain ⟨-, -, places⟩ := engOpen_ok ho
  have long := (bytesAt_length v k.group places).trans (pieces_sum va n)
  have one : ([va].flatMap fun va => pieces va n) = pieces va n := List.flatMap_singleton ..
  have rows := engRows_of (vas := [va]) (n := n) (one.symm ▸ ho)
  rw [one] at rows
  rw [engBytes, rows]
  simp [Except.map, List.take_of_length_le (Nat.le_of_eq long)]

end reads

/-! The half-limbs of a row of A -/

/-- The position of a half-limb of a row of A in limb mode, and whether it lies in the number (R307). -/
def limbPos (l : Loop) (st r i : Nat) : Int := (l.row0 : Int) + r - 32 * st - i
def limbReads (l : Loop) (st r i : Nat) : Bool := decide (0 ≤ limbPos l st r i) && decide (limbPos l st r i < l.astr.toNat)

/-- The ranges that a row of A reads in limb mode. -/
def limbRanges (l : Loop) (st r : Nat) : List (Nat × Nat) :=
  ((List.range 32).filter (limbReads l st r)).map fun i => ((l.abase.toNat + 2 * (limbPos l st r i).toNat) % 2 ^ 64, 2)

/-- Items of a list that are dealt, in order, to the numbers that `ok` accepts. -/
theorem dealt_numbers {α β : Type} (ok : Nat → Bool) (f : α → β) (d : α) (z : β) (bs : List α) (n : Nat) :
    (List.range n).foldl (fun (acc : List α × List β) i => if ok i then (acc.1.drop 1, f (acc.1.headD d) :: acc.2) else (acc.1, z :: acc.2)) (bs, []) =
      (bs.drop ((List.range n).filter ok).length,
        ((List.range n).map fun i => if ok i then f (bs.getD ((List.range i).filter ok).length d) else z).reverse) := by
  induction n with
  | zero => rfl
  | succ n ih =>
    rw [List.range_succ, List.foldl_append, ih, List.map_append, List.reverse_append, List.filter_append]
    cases h : ok n with
    | false => simp [h]
    | true => simp [h, ← List.getD_eq_getElem?_getD]

/-- A half-limb of a row of A: zero outside the number. -/
def limbValue (v : State) (g : Nat) (ls : List Loc) (l : Loop) (st r i : Nat) : Nat :=
  if limbReads l st r i then leValue (v.engineRead g (ls.getD ((List.range i).filter (limbReads l st r)).length (.sp 0)) 2) else 0

theorem limbRanges_eq (l : Loop) (st r : Nat) :
    (((List.range 32).map fun (i : Nat) => (l.row0 : Int) + r - 32 * st - (i : Int)).filter fun m => decide (0 ≤ m) && decide (m < (l.astr.toNat : Int))).map
      (fun m => ((l.abase + BitVec.ofInt 64 (2 * m)).toNat, 2)) = limbRanges l st r := by
  rw [List.filter_map, List.map_map, limbRanges]
  refine List.map_congr_left fun i hi => Prod.ext ?_ rfl
  have inside : 0 ≤ limbPos l st r i := by
    have accepted : limbReads l st r i = true := (List.mem_filter.1 hi).2
    exact (decide_eq_true_iff.1 (Bool.and_eq_true_iff.1 accepted).1)
  show (l.abase + BitVec.ofInt 64 (2 * limbPos l st r i)).toNat = _
  rw [BitVec.toNat_add, BitVec.toNat_ofInt]
  omega

/-- Below a number that is accepted there are fewer accepted ones than below a later number. -/
theorem accepted_lt (ok : Nat → Bool) {i n : Nat} (hi : i < n) (ha : ok i = true) :
    ((List.range i).filter ok).length < ((List.range n).filter ok).length := by
  have sub := ((List.range_sublist.2 hi).filter ok).length_le
  rw [List.range_succ, List.filter_append, List.filter_singleton, ha, List.length_append] at sub
  exact sub

theorem limbRow_of {k : Issuer} {s v : State} {ls : List Loc} {l : Loop} {st r : Nat} (ho : engOpen k s (limbRanges l st r) [] = .ok (v, ls, [])) :
    limbRow k l s st r = .ok (readSeen k v (limbRanges l st r), (List.range 32).map fun i => (limbValue v k.group ls l st r i : Int)) := by
  obtain ⟨-, -, places⟩ := engOpen_ok ho
  have sized : ∀ q ∈ limbRanges l st r, q.2 = 2 := fun q hq => by
    obtain ⟨i, -, rfl⟩ := List.mem_map.1 hq
    rfl
  have deal := dealt_numbers (limbReads l st r) (fun bs : List Byte => (leValue bs : Int)) [] 0 (ls.map fun p => v.engineRead k.group p 2) 32
  rw [limbRow]
  dsimp only
  rw [limbRanges_eq, engReads_of ho, eng_ok_bind, reads_uniform v k.group sized places, List.foldl_map]
  dsimp only
  refine congrArg (fun as => Except.ok (_, as)) ((congrArg (fun p => p.2.reverse) deal).trans ?_)
  dsimp only
  rw [List.reverse_reverse]
  refine List.map_congr_left fun i hi => ?_
  rw [limbValue]
  by_cases accepted : limbReads l st r i = true
  · have within : ((List.range i).filter (limbReads l st r)).length < ls.length := by
      rw [places, limbRanges, List.length_map]
      exact accepted_lt _ (List.mem_range.1 hi) accepted
    rw [if_pos accepted, if_pos accepted, List.getD_eq_getElem _ _ (by simpa using within), List.getElem_map, List.getD_eq_getElem _ _ within]
  · rw [if_neg accepted, if_neg accepted]
    rfl

end Sys2Proof.Proofs
end

section
/-! PROOF. Row steps that load, store and sum whole numbers (spec/09 R302, R306, R307, R309, R310). -/

open Sys2Proof Sys2Proof.Machine Sys2Proof.Claims

namespace Sys2Proof.Proofs

/-! A step by the command's operation -/

section step
variable {x : MCmd} {s : State} {c : Nat}

theorem step_loop {t : Nat} {ops : List Word} (h : x.op = .loop t ops) : x.step c s = loopStep x.issuer c x t (Loop.ofOps ops) s := by
  rw [MCmd.step, h]

theorem step_load {t : Nat} {a st : Word} {tr : Bool} (h : x.op = .load t a st tr) : x.step c s = loadStep x.issuer c x t a st tr s := by
  rw [MCmd.step, h]

theorem step_store {t p : Nat} {a st md : Word} {tr : Bool} (h : x.op = .store t a st md tr p) :
    x.step c s = storeStep x.issuer c x t a st md tr p s := by
  rw [MCmd.step, h]

theorem step_zero {t : Nat} {pair : Bool} (h : x.op = .zero t pair) : x.step c s = .ok (s.modMx c fun m =>
    if pair then m.setPairRow t x.rows (List.replicate 64 0) else m.setRow t x.rows (List.replicate 64 0), x, 0) := by
  rw [MCmd.step, h]

end step

/-! Rows that are written -/

/-- Every element stands but those of row `r` of the tiles `ts`. -/
abbrev othersStand (s u : State) (c : Nat) (ts : List Nat) (r : Nat) : Prop :=
  ∀ t r' j, r' < 64 → j < 64 → (t ∉ ts ∨ r' ≠ r) → (u.core c).mx.elem t r' j = (s.core c).mx.elem t r' j

section written
variable {s v : State} {c t r : Nat} (h : matricesOf v = matricesOf s) (hc : c < s.cores.length) (hw : tilesWf (s.core c).mx) {xs : List Nat}
  (hx : xs.length = 64) {f : Matrix → Matrix}
include h hc hw hx

theorem rowWritten (ht : t < (s.core c).mx.tiles.length) (hf : f (s.core c).mx = (s.core c).mx.setRow t r xs) :
    (∀ j, j < 64 → ((v.modMx c f).core c).mx.elem t r j = xs.getD j 0 % 2 ^ 32) ∧ othersStand s (v.modMx c f) c [t] r := by
  rw [othersStand, matrices_modMx h hc, hf]
  refine ⟨fun j hj => ?_, fun t' r' j hr hj other => ?_⟩
  · rw [elem_setRow hw ht hx t r hj, if_pos ⟨rfl, rfl⟩]
  · rw [elem_setRow hw ht hx t' r' hj, if_neg (by simpa [or_iff_not_imp_left] using other)]

theorem pairRowWritten (ht : t + 1 < (s.core c).mx.tiles.length) (hf : f (s.core c).mx = (s.core c).mx.setPairRow t r xs) :
    (∀ j, j < 64 → ((v.modMx c f).core c).mx.pairElem t r j = xs.getD j 0 % 2 ^ 64) ∧ othersStand s (v.modMx c f) c [t, t + 1] r := by
  rw [othersStand, matrices_modMx h hc, hf]
  refine ⟨fun j hj => pairElem_setPairRow hw ht hx hj, fun t' r' j hr hj other => ?_⟩
  rw [elem_setPairRow hw ht hx t' r' hj, if_neg, if_neg]
  · rintro ⟨rfl, rfl⟩
    simp at other
  · rintro ⟨rfl, rfl⟩
    simp at other

end written

/-- What is made of the elements of a list and their numbers, by number. -/
theorem zipIdx_map_range {α β : Type} (l : List α) (d : α) (g : α × Nat → β) :
    l.zipIdx.map g = (List.range l.length).map fun j => g (l.getD j d, j) := by
  refine List.ext_getElem (by simp) fun i hi _ => ?_
  have lt : i < l.length := by simpa using hi
  simp [lt]

theorem getD_map_range {β : Type} (g : Nat → β) (d : β) {n j : Nat} (h : j < n) : ((List.range n).map g).getD j d = g j := by simp [h]

/-! Loads -/

theorem leValue_lt (bs : List Byte) : leValue bs < 256 ^ bs.length := by
  induction bs with
  | nil => exact Nat.one_pos
  | cons b bs ih =>
    have := b.isLt
    rw [leValue, List.length_cons, Nat.pow_succ']
    omega

/-- The ranges of the elements of a row of a tile in memory. -/
def rowRanges (a st : Word) (tr : Bool) (es r : Nat) : List (Nat × Nat) := (List.range 64).map fun j => (tileElemAddr a st tr es r j, es)

theorem step_load_row {s v : State} {c t : Nat} {x : MCmd} {ls : List Loc} {a st : Word} {tr : Bool} (hx : x.op = .load t a st tr)
    (hc : c < s.cores.length) (hw : tilesWf (s.core c).mx) (ht : t < (s.core c).mx.tiles.length)
    (ho : engOpen x.issuer s (rowRanges a st tr 4 x.rows) [] = .ok (v, ls, [])) :
    ∃ u, x.step c s = .ok (u, x, 0) ∧
      (∀ j, j < 64 → (u.core c).mx.elem t x.rows j = leValue (v.engineRead x.group (ls.getD j (.sp 0)) 4)) ∧ othersStand s u c [t] x.rows := by
  obtain ⟨-, -, places⟩ := engOpen_ok ho
  have length : ls.length = 64 := by simpa [rowRanges] using places
  have sized : ∀ q ∈ rowRanges a st tr 4 x.rows, q.2 = 4 := fun q hq => by
    obtain ⟨j, -, rfl⟩ := List.mem_map.1 hq
    rfl
  have row : ((List.range 64).map fun j => (tileAddr a st tr 4 x.rows j, 4)) = rowRanges a st tr 4 x.rows := by simp only [tileAddr_eq, rowRanges]
  have step : x.step c s = .ok ((readSeen x.issuer v (rowRanges a st tr 4 x.rows)).modMx c fun m =>
      m.setRow t x.rows ((ls.map fun l => v.engineRead x.group l 4).map leValue), x, 0) := by
    rw [step_load hx, loadStep]
    dsimp only
    rw [row, engReads_of ho, eng_ok_bind, reads_uniform v x.issuer.group sized places]
    rfl
  obtain ⟨elems, others⟩ := rowWritten (t := t) (r := x.rows) (readSeen_matrices ho) hc hw
    (xs := (ls.map fun l => v.engineRead x.group l 4).map leValue) (by simpa using length)
    (f := fun m => m.setRow t x.rows ((ls.map fun l => v.engineRead x.group l 4).map leValue)) ht rfl
  refine ⟨_, step, fun j hj => (elems j hj).trans ?_, others⟩
  have lt := leValue_lt (v.engineRead x.group (ls.getD j (.sp 0)) 4)
  rw [engineRead_length] at lt
  rw [List.map_map, List.getD_eq_getElem _ _ (by simpa [length] using hj), List.getElem_map]
  rw [List.getD_eq_getElem _ _ (by rwa [length])] at lt ⊢
  exact Nat.mod_eq_of_lt lt

/-! Stores -/

theorem smFmt_eq (md : Word) : smFmt md = md.toNat % 16 := by
  rw [smFmt, bitsOf, Nat.shiftRight_zero]
  rfl

/-- Residues are stored from pairs alone. -/
theorem pair_of_residues {md : Word} (hs : storeBytes md ≠ none) (h : smMod md = true) : smPair md = true := by
  cases hp : smPair md with
  | true => rfl
  | false => exact (hs (by simp [storeBytes, hp, h])).elim

theorem storeValue_eq {md : Word} (env : FEnv) (hs : storeBytes md ≠ none) (p one pair : Nat) :
    (storeValue env md p one (if smPair md then pair else 0)).1 = storedElem env md p one pair := by
  have residues := pair_of_residues hs
  simp only [storeValue, storedElem, smFmt_eq, signedOf_eq, beq_iff_eq, Bool.or_eq_true, or_assoc]
  by_cases hm : md.getLsbD 5 = true
  · rw [if_pos (residues hm), if_pos (show smMod md = true from hm), if_pos hm]
  rw [if_neg (show ¬ smMod md = true from hm), if_neg hm]
  by_cases hp : md.getLsbD 4 = true
  · rw [if_pos (show smPair md = true from hp), if_pos (show smPair md = true from hp), if_pos hp]
    split <;> rfl
  rw [if_neg (show ¬ smPair md = true from hp), if_neg hp, clampInt_eq (by decide), clampInt_eq (by decide)]
  split
  · exact (BitVec.toNat_ofInt ..).symm
  split
  · exact (BitVec.toNat_ofInt ..).symm
  split <;> rfl

/-- Writes of a step that has been opened, in a group that stages nothing. -/
theorem engWrites_plain {k : Issuer} {s v : State} {rs ws : List Loc} {l : List (Nat × List Byte)} (ho : engOpen k s [] (rangesOf l) = .ok (v, rs, ws))
    (hs : v.staged k.group = false) (hr : (v.waveLaunch k.wave).r.race = 0) (crc : Option Word) :
    engWrites k s crc l = .ok (v.engineWriteAll k.group k.direct (splitWrites (ws.zip (l.map fun q => q.2))).1
      (splitWrites (ws.zip (l.map fun q => q.2))).2, l.foldl (fun c q => stepCrc k.num c q.1 q.2) crc) := by
  rw [engWrites, ho, eng_ok_bind]
  dsimp only
  rw [engPut, raceEngine_off hr, engApply]
  rw [hs, Bool.false_and, Bool.false_and, if_neg Bool.false_ne_true]
  rfl

/-- Items dealt out to a row's elements. -/
theorem flatMap_zip_range {α β γ : Type} (h : β × α → List γ) (ws : List β) (f : Nat → α) (n : Nat) :
    (ws.zip ((List.range n).map f)).flatMap h = (List.range n).flatMap fun i => ownItem h ws[i]? (some (f i)) := by
  have all := flatMap_zip_filterMap h ws (fun i => some (f i)) n
  have rank : ∀ i, rankBelow (fun i => some (f i)) i = i := fun i => by simp [rankBelow]
  simp only [rank, List.filterMap_eq_map'] at all
  exact all

/-- The bytes that a row of a tile store writes at its places. -/
def storeWrites (s : State) (c : Nat) (x : MCmd) (t p es : Nat) (md : Word) (ls : List Loc) : List (Nat × Byte) :=
  (List.range 64).flatMap fun j => match ls[j]? with
    | some (Loc.mem pa) => placed pa (leBytes es (storedElem (FEnv.ofAmr x.amr) md p ((s.core c).mx.elem t x.rows j) ((s.core c).mx.pairElem t x.rows j)))
    | _ => []

/-- The value of an element of a row that a tile store writes, with its flags. -/
def storeResult (s : State) (c : Nat) (x : MCmd) (t p : Nat) (md : Word) (j : Nat) : Nat × Flags :=
  storeValue (FEnv.ofAmr x.amr) md p ((s.core c).mx.elem t x.rows j) (if smPair md then (s.core c).mx.pairElem t x.rows j else 0)

/-- The writes of a row of a tile store: each element's address and bytes. -/
def rowWrites (s : State) (c : Nat) (x : MCmd) (t p es : Nat) (a st md : Word) (tr : Bool) : List (Nat × List Byte) :=
  (List.range 64).map fun j => (tileElemAddr a st tr es x.rows j, leBytes es (storeResult s c x t p md j).1)

theorem rowWrites_ranges (s : State) (c : Nat) (x : MCmd) (t p es : Nat) (a st md : Word) (tr : Bool) :
    rangesOf (rowWrites s c x t p es a st md tr) = rowRanges a st tr es x.rows := by
  simp [rangesOf, rowWrites, rowRanges]

theorem storeStep_eq {s : State} {c t p es : Nat} {x : MCmd} {a st md : Word} {tr : Bool} (hb : storeBytes md = some es) :
    storeStep x.issuer c x t a st md tr p s = (engWrites x.issuer s x.crc (rowWrites s c x t p es a st md tr)).map fun r =>
      (r.1, { x with crc := r.2 }, ((List.range 64).map (storeResult s c x t p md)).foldl (fun acc e => acc ||| e.2) 0) := by
  have writes : (((List.range 64).map (storeResult s c x t p md)).zipIdx.map fun e => (tileAddr a st tr es x.rows e.2, leBytes es e.1.1)) =
      rowWrites s c x t p es a st md tr := by
    rw [zipIdx_map_range _ (0, 0), List.length_map, List.length_range]
    refine List.map_congr_left fun j hj => ?_
    rw [getD_map_range _ _ (List.mem_range.1 hj), tileAddr_eq]
  rw [← writes, storeStep]
  dsimp only
  rw [hb]
  show (engWrites _ _ _ (((List.range 64).map (storeResult s c x t p md)).zipIdx.map fun e => (tileAddr a st tr es x.rows e.2, leBytes es e.1.1)) >>= _) = _
  cases engWrites x.issuer s x.crc (((List.range 64).map (storeResult s c x t p md)).zipIdx.map fun e => (tileAddr a st tr es x.rows e.2, leBytes es e.1.1)) <;> rfl

theorem step_store_row {s v : State} {c t p es : Nat} {x : MCmd} {ls : List Loc} {a st md : Word} {tr : Bool} (hx : x.op = .store t a st md tr p)
    (hb : storeBytes md = some es) (hm : s.memOk) (hs : v.staged x.group = false) (hr : (v.waveLaunch x.wave).r.race = 0)
    (ho : engOpen x.issuer s [] (rowRanges a st tr es x.rows) = .ok (v, [], ls)) :
    ∃ u y fl, x.step c s = .ok (u, y, fl) ∧ (u.core c).mx = (s.core c).mx ∧ ∀ a, u.mem.read a =
      (((storeWrites s c x t p es md ls).reverse.find? fun q => q.1 == a).map fun q => q.2).getD (v.mem.read a) := by
  obtain ⟨-, mem, -⟩ := engOpen_ok ho
  obtain ⟨matrices, -⟩ := engOpen_matrices ho
  have written : (ls.zip ((rowWrites s c x t p es a st md tr).map fun q => q.2)).flatMap homeBytes = storeWrites s c x t p es md ls := by
    rw [rowWrites, List.map_map, storeWrites]
    refine (flatMap_zip_range homeBytes ls _ 64).trans (List.flatMap_congr fun j _ => ?_)
    rw [← storeValue_eq (FEnv.ofAmr x.amr) (by rw [hb]; exact nofun)]
    rcases ls[j]? with _ | (_ | _) <;> rfl
  have step := (step_store hx).trans (storeStep_eq (s := s) (c := c) (t := t) (p := p) (a := a) (st := st) (tr := tr) hb)
  rw [engWrites_plain (by rwa [rowWrites_ranges]) hs hr] at step
  simp only [Except.map] at step
  refine ⟨_, _, _, step, matrices_mx ((engineWriteAll_matrices ..).trans matrices) c, fun b => ?_⟩
  rw [engineWriteAll_home (show v.staged x.issuer.group = false from hs), splitWrites_home, written, read_writeAll (mem hm)]

end Sys2Proof.Proofs
end

section
/-! PROOF. Row steps of a loop over whole numbers, and the columns of B that its first row reads (spec/09 R302, R306, R307, R315). -/

open Sys2Proof Sys2Proof.Machine Sys2Proof.Claims

namespace Sys2Proof.Proofs

/-! The columns of B -/

section block
variable {q : Issuer} {c t : Nat} {x : MCmd} {l : Loop} {s : State} {cols : List (List Byte)}

/-- The bytes of a column of B in a K-step. -/
def columnBytes (l : Loop) : Nat := if (mxClass l.fa).getD .int == .limb then 64 else 128

theorem blockOf_held {cls : MxClass} {st : Nat} (h : x.block = some (st, cols)) : blockOf q l cls x s st = .ok (s, cols) := by
  rw [blockOf, h]
  exact if_pos (beq_self_eq_true st)

theorem blockOf_reads {cls : MxClass} {st : Nat} (h : ∀ b, x.block = some b → b.1 ≠ st) :
    blockOf q l cls x s st = readColumns q l (if cls == .limb then 64 else 128) st s := by
  rw [blockOf]
  split
  · rename_i n b hb
    exact if_neg (by simpa using h _ hb)
  · rfl

theorem held_same {b : Nat × List (List Byte)} (h : x.block = some b) : { x with block := some b } = x := by rw [← h]

/-- The first row of a K-step goes on as one that holds the columns. -/
theorem loopStep_reads {v : State} (h : ∀ b, x.block = some b → b.1 ≠ x.rows / 64) (hr : readColumns q l (columnBytes l) (x.rows / 64) s = .ok (v, cols)) :
    loopStep q c x t l s = loopStep q c { x with block := some (x.rows / 64, cols) } t l v := by
  rw [loopStep, loopStep]
  dsimp only
  rw [blockOf_reads h, blockOf_held rfl]
  exact congrArg (· >>= _) hr

end block

/-- The ranges of the columns of a K-step. -/
def columnRanges (l : Loop) (n st : Nat) : List (Nat × Nat) := (List.range 64).flatMap fun i => operandRow l.bbase l.binc l.bstr st i n

theorem readColumns_of {k : Issuer} {s v : State} {ls : List Loc} {l : Loop} {n st : Nat} (ho : engOpen k s (columnRanges l n st) [] = .ok (v, ls, [])) :
    readColumns k l n st s = .ok (readSeen k v (columnRanges l n st), (List.range 64).map fun i =>
      ((bytesAt v k.group ls (columnRanges l n st)).drop (n * i)).take n) := by
  have ranges : (((List.range 64).map fun i => (strideAddr (strideAddr l.bbase l.binc st) l.bstr i).toNat).flatMap fun va => pieces va n) =
      columnRanges l n st := by
    simp only [List.flatMap_map, stridesAddr_toNat]
    rfl
  rw [readColumns, engRows_of (ranges.symm ▸ ho), ranges, List.length_map, List.length_range]

/-! A row of whole numbers -/

/-- The row of A of a K-step over whole numbers. -/
def wholeRow (q : Issuer) (l : Loop) (cls : MxClass) (s : State) (st r : Nat) : Eng (State × List Int) :=
  if cls == .limb then limbRow q l s st r
  else do
    let (s, row) ← engBytes q s (strideAddr (strideAddr l.abase l.ainc st) l.astr r).toNat 128
    pure (s, loopInts cls row)

/-- The sum of the products of a row and a column. -/
def rowSum (as bs : List Int) : Int := (as.zip bs).foldl (fun acc p => acc + p.1 * p.2) 0

theorem rowSum_range (f g : Nat → Int) (n : Nat) :
    rowSum ((List.range n).map f) ((List.range n).map g) = ((List.range n).map fun i => f i * g i).sum := by
  rw [rowSum, List.zip_map', List.foldl_map, List.sum_eq_foldl, List.foldl_map]

/-- The elements of a row with the sums added, modulo 2^w: to zero where the command begins anew. -/
def summedRow (w : Nat) (fresh : Bool) (old : Nat → Nat) (sums : List Int) : List Nat :=
  sums.zipIdx.map fun e => wrapTo w ((if fresh then 0 else (old e.2 : Int)) + e.1)

@[simp] theorem summedRow_length (w : Nat) (fresh : Bool) (old : Nat → Nat) (sums : List Int) : (summedRow w fresh old sums).length = sums.length := by
  simp [summedRow]

theorem summedRow_value (w : Nat) (fresh : Bool) (old : Nat → Nat) {sums : List Int} {j : Nat} (hj : j < sums.length) :
    (((summedRow w fresh old sums).getD j 0 % 2 ^ w : Nat) : Int) = ((if fresh then 0 else (old j : Int)) + sums.getD j 0) % 2 ^ w := by
  have pos : (0 : Int) < 2 ^ w := by positivity
  rw [summedRow, zipIdx_map_range _ 0, getD_map_range _ _ hj, wrapTo]
  have nonneg := Int.emod_nonneg ((if fresh then 0 else (old j : Int)) + sums.getD j 0) pos.ne'
  push_cast
  rw [Int.toNat_of_nonneg nonneg, Int.emod_emod_of_dvd _ (dvd_refl _)]

/-- The sums of a row enter the tile, or the pair, that holds the result. -/
def summedInto (l : Loop) (cls : MxClass) (t st r : Nat) (sums : List Int) (m : Matrix) : Matrix :=
  if l.pair cls then m.setPairRow t r (summedRow 64 (l.z && st == 0) (m.pairElem t r) sums)
  else m.setRow t r (summedRow 32 (l.z && st == 0) (m.elem t r) sums)

/-- The element that a sum enters: zero where the loop begins anew, by Z in its first K-step. -/
abbrev oldValue (l : Loop) (st old : Nat) : Int := if l.z = true ∧ st = 0 then 0 else (old : Int)

theorem oldValue_eq (l : Loop) (st old : Nat) : (if (l.z && st == 0) = true then (0 : Int) else (old : Int)) = oldValue l st old :=
  if_congr (by simp) rfl rfl

section whole
variable {c t : Nat} {x : MCmd} {ops : List Word} {s u : State} {cols : List (List Byte)} {cls : MxClass} {as : List Int}
  (hx : x.op = .loop t ops) (hf : mxClass (Loop.ofOps ops).fa = some cls) (held : x.block = some (x.rows / 64, cols)) (whole : cls.float = false)
  (hr : wholeRow x.issuer (Loop.ofOps ops) cls s (x.rows / 64) (x.rows % 64) = .ok (u, as))
include hx hf held whole hr

/-- A row step over whole numbers. -/
theorem step_whole : x.step c s = .ok (u.modMx c (summedInto (Loop.ofOps ops) cls t (x.rows / 64) (x.rows % 64)
    (cols.map fun b => rowSum as (loopInts cls b))), x, 0) := by
  rw [step_loop hx, loopStep]
  dsimp only
  rw [hf, Option.getD_some, blockOf_held held, eng_ok_bind]
  dsimp only
  rw [held_same held, whole, if_neg Bool.false_ne_true]
  rw [wholeRow] at hr
  by_cases limb : (cls == .limb) = true
  · rw [if_pos limb] at hr ⊢
    rw [hr]
    rfl
  · rw [if_neg limb] at hr ⊢
    obtain ⟨row, read, made⟩ := eng_bind_ok hr
    obtain ⟨rfl, rfl⟩ := Prod.mk.inj (Except.ok.inj made)
    rw [read]
    rfl

variable (hu : matricesOf u = matricesOf s) (hc : c < s.cores.length) (hw : tilesWf (s.core c).mx) (hl : cols.length = 64)
include hu hc hw hl

/-- Where the result is a tile pair, its elements rise by the sums modulo 2^64. -/
theorem step_whole_pair (pair : (Loop.ofOps ops).pair cls = true) (ht : t + 1 < (s.core c).mx.tiles.length) :
    ∃ v, x.step c s = .ok (v, x, 0) ∧ othersStand s v c [t, t + 1] (x.rows % 64) ∧
      ∀ j, j < 64 → ((v.core c).mx.pairElem t (x.rows % 64) j : Int) =
        (oldValue (Loop.ofOps ops) (x.rows / 64) ((s.core c).mx.pairElem t (x.rows % 64) j) + rowSum as (loopInts cls (cols.getD j []))) % 2 ^ 64 := by
  obtain ⟨elems, others⟩ := pairRowWritten hu hc hw (r := x.rows % 64) (by rw [summedRow_length, List.length_map, hl]) ht
    (f := summedInto (Loop.ofOps ops) cls t (x.rows / 64) (x.rows % 64) (cols.map fun b => rowSum as (loopInts cls b))) (if_pos pair)
  refine ⟨_, step_whole hx hf held whole hr, others, fun j hj => ?_⟩
  rw [elems j hj, summedRow_value _ _ _ (by rwa [List.length_map, hl]), oldValue_eq, List.getD_eq_getElem _ _ (by rwa [List.length_map, hl]),
    List.getElem_map, List.getD_eq_getElem _ _ (by rwa [hl])]

/-- Where it is one tile, they rise modulo 2^32. -/
theorem step_whole_single (single : (Loop.ofOps ops).pair cls = false) (ht : t < (s.core c).mx.tiles.length) :
    ∃ v, x.step c s = .ok (v, x, 0) ∧ othersStand s v c [t] (x.rows % 64) ∧
      ∀ j, j < 64 → ((v.core c).mx.elem t (x.rows % 64) j : Int) =
        (oldValue (Loop.ofOps ops) (x.rows / 64) ((s.core c).mx.elem t (x.rows % 64) j) + rowSum as (loopInts cls (cols.getD j []))) % 2 ^ 32 := by
  obtain ⟨elems, others⟩ := rowWritten hu hc hw (r := x.rows % 64) (by rw [summedRow_length, List.length_map, hl]) ht
    (f := summedInto (Loop.ofOps ops) cls t (x.rows / 64) (x.rows % 64) (cols.map fun b => rowSum as (loopInts cls b)))
    (if_neg (single ▸ Bool.false_ne_true))
  refine ⟨_, step_whole hx hf held whole hr, others, fun j hj => ?_⟩
  rw [elems j hj, summedRow_value _ _ _ (by rwa [List.length_map, hl]), oldValue_eq, List.getD_eq_getElem _ _ (by rwa [List.length_map, hl]),
    List.getElem_map, List.getD_eq_getElem _ _ (by rwa [hl])]

end whole

/-! Rows of bytes -/

theorem operandRow_eq (base inc str : Word) (st i n : Nat) : pieces (strideAddr (strideAddr base inc st) str i).toNat n = operandRow base inc str st i n := by
  rw [stridesAddr_toNat]
  rfl

theorem loopInts_bytes {cls : MxClass} (h : (cls == .limb) = false) (bs : List Byte) :
    loopInts cls bs = (List.range 128).map fun i => (bs.getD i 0).toInt := by
  rw [loopInts, if_neg (by rw [h]; exact Bool.false_ne_true)]
  refine List.map_congr_left fun i _ => ?_
  rw [fieldOf_byte, signedOf_eq, BitVec.ofNat_toNat, BitVec.setWidth_eq]

theorem loopInts_halves (bs : List Byte) :
    loopInts .limb bs = (List.range 32).map fun i => (((bs.getD (2 * i) 0).toNat + 256 * (bs.getD (2 * i + 1) 0).toNat : Nat) : Int) := by
  exact List.map_congr_left fun i _ => congrArg Nat.cast (fieldOf_half ..)

/-- The range of bytes that a row of A reads. -/
abbrev rowRange (l : Loop) (x : MCmd) : List (Nat × Nat) := operandRow l.abase l.ainc l.astr (x.rows / 64) (x.rows % 64) 128

/-- The sum of the products of a row of bytes and a column of bytes. -/
abbrev byteSum (row col : List Byte) : Int := ((List.range 128).map fun i => (row.getD i 0).toInt * (col.getD i 0).toInt).sum

theorem rowSum_bytes {cls : MxClass} (h : (cls == .limb) = false) (row col : List Byte) :
    rowSum (loopInts cls row) (loopInts cls col) = byteSum row col := by rw [loopInts_bytes h, loopInts_bytes h, rowSum_range]

/-- The sum of the products of the half-limbs of a row of A and those of a column. -/
abbrev limbSum (a : Nat → Nat) (col : List Byte) : Nat :=
  ((List.range 32).map fun i => a i * ((col.getD (2 * i) 0).toNat + 256 * (col.getD (2 * i + 1) 0).toNat)).sum

theorem rowSum_halves (a : Nat → Nat) (col : List Byte) :
    rowSum ((List.range 32).map fun i => (a i : Int)) (loopInts .limb col) = (limbSum a col : Int) := by
  rw [loopInts_halves, rowSum_range]
  push_cast
  rfl

section rows
variable {s v : State} {x : MCmd} {ls : List Loc} {l : Loop}

theorem engBytes_row (ho : engOpen x.issuer s (rowRange l x) [] = .ok (v, ls, [])) :
    engBytes x.issuer s (strideAddr (strideAddr l.abase l.ainc (x.rows / 64)) l.astr (x.rows % 64)).toNat 128 =
      .ok (readSeen x.issuer v (rowRange l x), bytesAt v x.group ls (rowRange l x)) := by
  have read := engBytes_of (va := (strideAddr (strideAddr l.abase l.ainc (x.rows / 64)) l.astr (x.rows % 64)).toNat) (n := 128)
    (by rw [operandRow_eq]; exact ho)
  rwa [operandRow_eq] at read

theorem wholeRow_bytes (ho : engOpen x.issuer s (rowRange l x) [] = .ok (v, ls, [])) :
    wholeRow x.issuer l .int s (x.rows / 64) (x.rows % 64) =
      .ok (readSeen x.issuer v (rowRange l x), loopInts .int (bytesAt v x.group ls (rowRange l x))) := by
  rw [wholeRow, if_neg (by decide), engBytes_row ho]
  rfl

theorem wholeRow_halves (ho : engOpen x.issuer s (limbRanges l (x.rows / 64) (x.rows % 64)) [] = .ok (v, ls, [])) :
    wholeRow x.issuer l .limb s (x.rows / 64) (x.rows % 64) =
      .ok (readSeen x.issuer v (limbRanges l (x.rows / 64) (x.rows % 64)),
        (List.range 32).map fun i => (limbValue v x.group ls l (x.rows / 64) (x.rows % 64) i : Int)) :=
  (if_pos rfl).trans (limbRow_of ho)

end rows

end Sys2Proof.Proofs
end

section
/-! PROOF. Exact products and sums of lists of finite floats, and one element of a row step: the sum rounded once (spec/03 R105, R116,
spec/09 R302, R303). -/

open Sys2Proof Sys2Proof.Machine Sys2Proof.Claims

namespace Sys2Proof.Proofs

/-! Sums -/

/-- Sign, magnitude and exponent of a number. -/
def numParts : FVal → Bool × Nat × Int
  | .num n m e => (n, m, e)
  | _ => (false, 0, 0)

/-- Without infinities an exact sum is a zero of some sign, or the sum of the numbers. -/
theorem sumExact_nums (rm : Nat) {ts : List FVal} (h : ∀ x ∈ ts, finite x) : ∃ b, sumExact rm ts =
    some (if (sumNums (ts.map numParts)).1 = 0 then .num b 0 0
      else .num (decide ((sumNums (ts.map numParts)).1 < 0)) (sumNums (ts.map numParts)).1.natAbs (sumNums (ts.map numParts)).2) := by
  have no_inf (b : Bool) : ts.any (fun v => v == .inf b) = false := List.any_eq_false.2 fun x hx hi => by
    have fin := (h x hx).2
    rw [beq_iff_eq.1 hi] at fin
    cases fin
  unfold sumExact
  rw [no_inf, no_inf]
  show ∃ b, (if ((sumNums (ts.map numParts)).1 == 0) = true then _ else _) = _
  by_cases zero : (sumNums (ts.map numParts)).1 = 0
  · simp only [if_pos (beq_iff_eq.2 zero), if_pos zero]
    split
    · exact ⟨_, rfl⟩
    split <;> exact ⟨_, rfl⟩
  · simp only [if_neg zero]
    rw [if_neg (by simpa using zero)]
    exact ⟨false, rfl⟩

/-- An exact sum of finite terms. -/
theorem sumExact_finite (rm : Nat) {ts : List FVal} (h : ∀ x ∈ ts, finite x) :
    ∃ v, sumExact rm ts = some v ∧ finite v ∧ ratOf v = (ts.map ratOf).sum := by
  have terms : (ts.map numParts).map ratNum = ts.map ratOf := by
    rw [List.map_map]
    refine List.map_congr_left fun x hx => ?_
    obtain ⟨n, m, e, rfl⟩ := finite_num (h x hx)
    rfl
  have value := sumNums_value (ts.map numParts)
  rw [terms] at value
  obtain ⟨b, sum⟩ := sumExact_nums rm h
  refine ⟨_, sum, ?_, ?_⟩
  · split <;> exact finite_of_num ..
  · rw [← value]
    split
    · rename_i zero
      rw [ratOf_zero_iff.2 rfl, zero, Int.cast_zero, zero_mul]
    · exact ratOf_signed ..

/-! Products -/

/-- An exact product of finite factors, from a finite one on. -/
theorem foldl_mulExact {l : List FVal} (h : ∀ x ∈ l, finite x) {a : FVal} (ha : finite a) :
    ∃ v, l.foldl (fun acc v => acc.bind fun a => mulExact a v) (some a) = some v ∧ finite v ∧
      ratOf v = (l.map ratOf).foldl (· * ·) (ratOf a) ∧ v.neg? = l.foldl (fun acc x => acc != x.neg?) a.neg? := by
  induction l generalizing a with
  | nil => exact ⟨a, rfl, ha, rfl, rfl⟩
  | cons x l ih =>
    obtain ⟨hx, rest⟩ := List.forall_mem_cons.1 h
    obtain ⟨v, product, fin, value, sign, -⟩ := mulExact_finite ha hx
    obtain ⟨w, products, fin', value', sign'⟩ := ih rest fin
    refine ⟨w, ?_, fin', ?_, ?_⟩
    · rw [List.foldl_cons, Option.bind_some, product, products]
    · rw [value', value]; rfl
    · rw [sign', sign]; rfl

theorem factorProduct_finite {l : List FVal} (h : ∀ x ∈ l, finite x) : finite (factorProduct l).1 ∧ (factorProduct l).2 = false ∧
    ratOf (factorProduct l).1 = ratProduct l ∧ (factorProduct l).1.neg? = signProduct l := by
  have no_nan : l.any FVal.isNan = false := List.any_eq_false.2 fun x hx => by rw [(h x hx).1]; exact Bool.false_ne_true
  obtain ⟨v, product, fin, value, sign⟩ := foldl_mulExact h (finite_of_num false 1 0)
  have whole : factorProduct l = (v, false) := by rw [factorProduct, no_nan, if_neg Bool.false_ne_true, product]
  rw [whole]
  refine ⟨fin, rfl, ?_, sign⟩
  rw [value, ratProduct]
  simp [ratOf]

/-! One element -/

theorem isZero_iff {x : FVal} (h : finite x) : x.isZero = true ↔ ratOf x = 0 := by
  obtain ⟨n, m, e, rfl⟩ := finite_num h
  rw [ratOf_zero_iff, FVal.isZero, beq_iff_eq]

/-- A zero is rounded to a zero of its sign. -/
theorem roundedOnce_zero {f : Fmt} {env : FEnv} {x : ℚ} (hx : x = 0) (z : Bool) : roundedOnce f env x z (f.round env (.num z 0 0)) := by
  rw [roundedOnce, if_pos hx]
  rfl

section element
variable {env : FEnv} {pp a : FVal} {xs : List FVal} (hp : finite pp) (hx : ∀ x ∈ xs, finite x)
include hp hx

/-- The products of zero terms are all zero. -/
theorem products_zero_iff : (pp.isZero || xs.all FVal.isZero) = true ↔ ∀ x ∈ xs, ratOf pp * ratOf x = 0 := by
  rw [Bool.or_eq_true, isZero_iff hp, List.all_eq_true]
  constructor
  · rintro (zero | zeros) x h
    · rw [zero, zero_mul]
    · rw [(isZero_iff (hx x h)).1 (zeros x h), mul_zero]
  · intro zeros
    by_cases zero : ratOf pp = 0
    · exact .inl zero
    · exact .inr fun x h => (isZero_iff (hx x h)).2 ((mul_eq_zero.1 (zeros x h)).resolve_left zero)

variable (ha : finite a)
include ha

/-- The element of finite terms, by its exact sum: rounded, or a zero with the sign of R303. -/
theorem loopElem_sum : ∃ v, finite v ∧ ratOf v = ratOf a + ratOf pp * (xs.map ratOf).sum ∧ loopElem env pp a xs =
    if v.isZero = true then
      let neg := fun (x : FVal) => x.neg? != pp.neg?
      let zeros := a.isZero && (pp.isZero || xs.all FVal.isZero)
      if zeros && a.neg? && xs.all neg then Fmt.fp32.round env (.num true 0 0)
      else if zeros && !a.neg? && xs.all (fun x => !neg x) then Fmt.fp32.round env (.num false 0 0)
      else Fmt.fp32.round env (.num (env.rm == 3) 0 0)
    else Fmt.fp32.round env v := by
  have no_nan : (pp.isNan || xs.any FVal.isNan) = false := by
    rw [hp.1, Bool.false_or]
    exact List.any_eq_false.2 fun x h => by rw [(hx x h).1]; exact Bool.false_ne_true
  have no_inf : xs.filter FVal.isInf = [] := List.filter_eq_nil_iff.2 fun x h => by rw [(hx x h).2]; exact Bool.false_ne_true
  obtain ⟨sum, hs, fs, vs⟩ := sumExact_finite env.rm hx
  obtain ⟨product, hm, fm, vm, -⟩ := mulExact_finite hp fs
  obtain ⟨v, hv, fv, vv⟩ := sumExact_finite env.rm (ts := [a, product]) (List.forall_mem_cons.2 ⟨ha, List.forall_mem_singleton.2 fm⟩)
  refine ⟨v, fv, by simp [vv, vm, vs], ?_⟩
  rw [loopElem]
  dsimp only
  rw [ha.1, if_neg Bool.false_ne_true, no_nan, if_neg Bool.false_ne_true, hs]
  dsimp only
  rw [hm]
  dsimp only
  rw [no_inf, List.append_nil, hv]

/-- The sum of the products is rounded once; an exact zero has the sign of its terms where they are zeros of one sign (R303). -/
theorem loopElem_finite {z : Bool} (hz : z = true ↔ a.isZero = true ∧ ∀ x ∈ xs, ratOf pp * ratOf x = 0 ∧ (pp.neg? != x.neg?) = a.neg?) :
    roundedOnce Fmt.fp32 env (ratOf a + ratOf pp * (xs.map ratOf).sum) (if z then a.neg? else env.rm == 3) (loopElem env pp a xs) := by
  obtain ⟨v, fv, value, result⟩ := loopElem_sum (env := env) hp hx ha
  have zeros := products_zero_iff hp hx
  rw [result, ← value]
  by_cases zero : v.isZero = true
  · rw [if_pos zero]
    have same (b : Bool) : (a.isZero = true ∧ ∀ x ∈ xs, ratOf pp * ratOf x = 0 ∧ (pp.neg? != x.neg?) = b) ↔
        (a.isZero && (pp.isZero || xs.all FVal.isZero)) = true ∧ xs.all (fun x => (x.neg? != pp.neg?) == b) = true := by
      rw [Bool.and_eq_true, zeros, List.all_eq_true, and_assoc, ← forall₂_and]
      simp only [beq_iff_eq, bne_comm]
    rw [if_congr (hz.trans (same _)) rfl rfl]
    generalize (a.isZero && (pp.isZero || xs.all FVal.isZero)) = z
    have rounds : ∀ b, roundedOnce Fmt.fp32 env (ratOf v) b (Fmt.fp32.round env (.num b 0 0)) := roundedOnce_zero ((isZero_iff fv).1 zero)
    cases z with
    | false => simp [rounds]
    | true =>
      cases a.neg? with
      | false =>
        by_cases agree : ∀ x ∈ xs, x.neg? = pp.neg?
        · simp [eq_true agree, rounds]
        · simp [agree, rounds]
      | true =>
        by_cases agree : ∀ x ∈ xs, ¬ x.neg? = pp.neg?
        · simp [eq_true agree, rounds]
        · simp [agree, rounds]
  · rw [if_neg zero]
    obtain ⟨n, m, e, rfl⟩ := finite_num fv
    rw [roundedOnce_sign (mt (isZero_iff fv).2 zero) _ n]
    exact round_num ..

end element

end Sys2Proof.Proofs
end

section
/-! PROOF. Row steps of a loop over floats (spec/09 R302, R303). -/

open Sys2Proof Sys2Proof.Machine Sys2Proof.Claims

namespace Sys2Proof.Proofs

/-! FP32 results fit an element -/

theorem withSign_fp32_lt {neg : Bool} {c : Nat} (h : c ≤ Fmt.fp32.infCode) : Fmt.fp32.withSign neg c < 2 ^ 32 := by
  have sign : Fmt.fp32.signBit = 2 ^ 31 := by decide
  have inf : Fmt.fp32.infCode = 255 * 2 ^ 23 := by decide
  rw [Fmt.withSign, sign]
  split <;> omega

theorem roundNum_fp32_lt (env : FEnv) (neg : Bool) {m : Nat} (hm : 0 < m) (e : Int) : (Fmt.fp32.roundNum env neg m e).1 < 2 ^ 32 := by
  have most : Fmt.fp32.maxCode ≤ Fmt.fp32.infCode := by decide
  obtain above | inside := Nat.lt_or_ge Fmt.fp32.maxCode (chosen .fp32 env neg m e)
  · rw [roundNum_over hm above, overflow_finite, if_pos (show Fmt.fp32.kind = .ieee from rfl)]
    split
    · exact withSign_fp32_lt most
    · exact withSign_fp32_lt le_rfl
  · rw [roundNum_block hm (by decide) inside]
    split
    · exact withSign_fp32_lt (Nat.zero_le _)
    · exact withSign_fp32_lt (inside.trans most)

theorem roundedOnce_fp32_lt {env : FEnv} {x : ℚ} {z : Bool} {r : Nat × Flags} (h : roundedOnce Fmt.fp32 env x z r) : r.1 < 2 ^ 32 := by
  unfold roundedOnce at h
  split at h
  · rw [h]
    exact withSign_fp32_lt (c := 0) (Nat.zero_le _)
  · obtain ⟨m, e, hm, -, rfl⟩ := h
    exact roundNum_fp32_lt env _ hm e

/-! The factors of an element -/

/-- Where the block scales of row or column `i` of a K-step lie. -/
abbrev scalePlace (m : Matrix) (cls : MxClass) (on : Bool) (so st i : Nat) : Option (Memory × Nat) :=
  if on then some (m.scale, 256 * so + (64 * st + i) * (cls.k0 / 32)) else none

/-- The point scales of a loop, where it has them. -/
abbrev pointScales (l : Loop) (flush : Bool) : List FVal :=
  if l.pts then [Fmt.fp32.decode flush (l.ptsc.toNat % 2 ^ 32), Fmt.fp32.decode flush (l.ptsc.toNat / 2 ^ 32)] else []

/-- The two factors that stand for them, 1 each where it has none. -/
def pointFactors (l : Loop) (flush : Bool) : List FVal :=
  [if l.pts then Fmt.fp32.decode flush (l.ptsc.toNat % 2 ^ 32) else .num false 1 0,
    if l.pts then Fmt.fp32.decode flush (l.ptsc.toNat / 2 ^ 32) else .num false 1 0]

theorem pointFactors_scales {l : Loop} {flush : Bool} (h : ∀ q ∈ pointScales l flush, finite q) :
    (∀ q ∈ pointFactors l flush, finite q) ∧ ratProduct (pointFactors l flush) = ratProduct (pointScales l flush) ∧
      signProduct (pointFactors l flush) = signProduct (pointScales l flush) := by
  rw [pointFactors]
  by_cases hp : l.pts = true
  · rw [pointScales, if_pos hp] at *
    rw [if_pos hp, if_pos hp]
    exact ⟨h, rfl, rfl⟩
  · rw [pointScales, if_neg hp, if_neg hp, if_neg hp]
    exact ⟨by simpa using finite_of_num false 1 0, by simp [ratProduct, ratOf], rfl⟩

theorem block_lt (cls : MxClass) {i : Nat} (h : i < cls.k0) : i / 32 < cls.k0 / 32 := by
  cases cls <;> simp only [MxClass.k0] at * <;> omega

theorem mxElems_eq (f : Nat) (flush : Bool) (bs : List Byte) (m : Matrix) (cls : MxClass) (on : Bool) (so st i : Nat) :
    mxElems f cls.k0 flush bs (m.scalesAt on so cls.k0 st i) = (List.range cls.k0).map (loopFactors f flush bs (scalePlace m cls on so st i)) := by
  refine List.map_congr_left fun n hn => ?_
  rw [Matrix.scalesAt]
  cases on with
  | false => rfl
  | true =>
    refine congrArg (mxElem f flush bs n :: ·) ?_
    show _ = [Fmt.e4m3.decode flush (m.scale.read (256 * so + (64 * st + i) * (cls.k0 / 32) + n / 32)).toNat]
    rw [if_pos rfl, Option.map_some, Option.getD_some, fieldOf_byte, Memory.readN,
      getD_map_range _ _ (block_lt cls (List.mem_range.1 hn)), Nat.mul_comm st]

theorem products_range (f g : Nat → List FVal) (n : Nat) : products ((List.range n).map f) ((List.range n).map g) =
    ((List.range n).map (fun i => (factorProduct (f i ++ g i)).1), ((List.range n).map fun i => factorProduct (f i ++ g i)).any Prod.snd) := by
  simp only [products, List.zip_map', List.map_map]
  rfl

/-! One element -/

/-- The result of an element of a row of floats, from the factors of the row and of the column. -/
def loopResult (env : FEnv) (l : Loop) (as bs : List (List FVal)) (a : FVal) : Nat × Flags :=
  let pp := factorProduct (pointFactors l env.flushIn)
  let v := loopElem env pp.1 a (products as bs).1
  (v.1, v.2 ||| if (products as bs).2 || pp.2 || signals (as ++ bs ++ [pointFactors l env.flushIn]) then flagNV else 0)

theorem signals_finite {ls : List (List FVal)} (h : ∀ l ∈ ls, ∀ x ∈ l, finite x) : signals ls = false :=
  List.any_eq_false.2 fun l hl => by
    rw [Bool.not_eq_true]
    exact List.any_eq_false.2 fun x hx => by
      rw [signalling_isNan (h l hl x hx).1]
      exact Bool.false_ne_true

/-- The factors of an element of finite terms: their sum rounded once, with its flags alone. -/
theorem loopResult_finite {env : FEnv} {l : Loop} {f g : Nat → List FVal} {n : Nat} {a : FVal} {z : Bool} (ha : finite a)
    (hp : ∀ q ∈ pointScales l env.flushIn, finite q) (hx : ∀ i < n, ∀ q ∈ f i ++ g i, finite q)
    (hz : z = true ↔ a.isZero = true ∧ ∀ i, i < n → ratProduct (pointScales l env.flushIn) * ratProduct (f i ++ g i) = 0 ∧
      (signProduct (pointScales l env.flushIn) != signProduct (f i ++ g i)) = a.neg?) :
    roundedOnce Fmt.fp32 env (ratOf a + ratProduct (pointScales l env.flushIn) * ((List.range n).map fun i => ratProduct (f i ++ g i)).sum)
      (if z then a.neg? else env.rm == 3) (loopResult env l ((List.range n).map f) ((List.range n).map g) a) := by
  obtain ⟨fp, vp, sp⟩ := pointFactors_scales hp
  obtain ⟨finp, cleanp, valuep, signp⟩ := factorProduct_finite fp
  have factor (i : Nat) (hi : i < n) := factorProduct_finite (hx i hi)
  have finx : ∀ x ∈ (List.range n).map (fun i => (factorProduct (f i ++ g i)).1), finite x :=
    List.forall_mem_map.2 fun i hi => (factor i (List.mem_range.1 hi)).1
  have clean : (((List.range n).map fun i => factorProduct (f i ++ g i)).any Prod.snd) = false :=
    List.any_eq_false.2 <| List.forall_mem_map.2 fun i hi => by
      rw [(factor i (List.mem_range.1 hi)).2.1]
      exact Bool.false_ne_true
  have quiet : signals ((List.range n).map f ++ (List.range n).map g ++ [pointFactors l env.flushIn]) = false := by
    refine signals_finite fun q hq => ?_
    rcases List.mem_append.1 hq with hq | hq
    · rcases List.mem_append.1 hq with hq | hq <;> obtain ⟨i, hi, rfl⟩ := List.mem_map.1 hq
      · exact fun x hm => hx i (List.mem_range.1 hi) x (List.mem_append_left _ hm)
      · exact fun x hm => hx i (List.mem_range.1 hi) x (List.mem_append_right _ hm)
    · rw [List.mem_singleton.1 hq]
      exact fp
  have values : ((List.range n).map fun i => (factorProduct (f i ++ g i)).1).map ratOf = (List.range n).map fun i => ratProduct (f i ++ g i) := by
    rw [List.map_map]
    exact List.map_congr_left fun i hi => (factor i (List.mem_range.1 hi)).2.2.1
  have rounded := loopElem_finite (env := env) (z := z) finp finx ha <| by
    rw [hz, List.forall_mem_map]
    refine and_congr_right' (forall_congr' fun i => ?_)
    rw [List.mem_range]
    refine imp_congr_right fun hi => ?_
    obtain ⟨-, -, value, sign⟩ := factor i hi
    rw [value, sign, valuep, signp, vp, sp]
  rw [values, valuep, vp] at rounded
  have same : loopResult env l ((List.range n).map f) ((List.range n).map g) a =
      loopElem env (factorProduct (pointFactors l env.flushIn)).1 a ((List.range n).map fun i => (factorProduct (f i ++ g i)).1) := by
    rw [loopResult, products_range]
    dsimp only
    rw [clean, cleanp, quiet]
    exact Prod.ext rfl (BitVec.or_zero)
  rw [same]
  exact rounded

end Sys2Proof.Proofs
end

section
/-! PROOF. A row step of a loop over floats (spec/09 R302, R303, R315). -/

open Sys2Proof Sys2Proof.Machine Sys2Proof.Claims

namespace Sys2Proof.Proofs

/-- The value that a sum of floats starts from: zero where the loop begins anew, by Z in its first K-step. -/
abbrev oldFloat (l : Loop) (flush : Bool) (st old : Nat) : FVal := if l.z = true ∧ st = 0 then .num false 0 0 else Fmt.fp32.decode flush old

/-- The factors that element `i` of a row of A, and of a column of B, brings into a product. -/
abbrev rowFactors (m : Matrix) (l : Loop) (cls : MxClass) (flush : Bool) (st r : Nat) (row : List Byte) (i : Nat) : List FVal :=
  loopFactors l.fa flush row (scalePlace m cls l.bsa l.soa st r) i

abbrev columnFactors (m : Matrix) (l : Loop) (cls : MxClass) (flush : Bool) (st j : Nat) (col : List Byte) (i : Nat) : List FVal :=
  loopFactors l.fb flush col (scalePlace m cls l.bsb l.sob st j) i

/-- Element `j` of row `r` of a tile after a row step over floats, with the flags of its element. -/
def floatResult (m : Matrix) (l : Loop) (cls : MxClass) (env : FEnv) (t st r : Nat) (row : List Byte) (cols : List (List Byte)) (j : Nat) : Nat × Flags :=
  loopResult env l ((List.range cls.k0).map (rowFactors m l cls env.flushIn st r row))
    ((List.range cls.k0).map (columnFactors m l cls env.flushIn st j (cols.getD j []))) (oldFloat l env.flushIn st (m.elem t r j))

/-- A result as an element of a tile holds it. -/
def inElement (r : Nat × Flags) : Nat × Flags := (r.1 % 2 ^ 32, r.2)

theorem inElement_small {r : Nat × Flags} (h : r.1 < 2 ^ 32) : inElement r = r := Prod.ext (Nat.mod_eq_of_lt h) rfl

section floats
variable {c t : Nat} {x : MCmd} {ops : List Word} {s v : State} {cols : List (List Byte)} {cls : MxClass} {ls : List Loc}
  (hx : x.op = .loop t ops) (hf : mxClass (Loop.ofOps ops).fa = some cls) (held : x.block = some (x.rows / 64, cols)) (float : cls.float = true)
  (hl : cols.length = 64) (ho : engOpen x.issuer s (rowRange (Loop.ofOps ops) x) [] = .ok (v, ls, []))
include hx hf held float hl ho

/-- The results of a row step over floats enter the row, and their flags the stream. -/
theorem step_float : x.step c s =
    let res := (List.range 64).map (floatResult (s.core c).mx (Loop.ofOps ops) cls (FEnv.ofAmr x.amr) t (x.rows / 64) (x.rows % 64)
      (bytesAt v x.group ls (rowRange (Loop.ofOps ops) x)) cols)
    .ok ((readSeen x.issuer v (rowRange (Loop.ofOps ops) x)).modMx c fun m => m.setRow t (x.rows % 64) (res.map (·.1)), x,
      res.foldl (fun acc e => acc ||| e.2) 0) := by
  have results : (cols.zipIdx.map fun e => loopResult (FEnv.ofAmr x.amr) (Loop.ofOps ops)
      (mxElems (Loop.ofOps ops).fa cls.k0 (FEnv.ofAmr x.amr).flushIn (bytesAt v x.group ls (rowRange (Loop.ofOps ops) x))
        ((s.core c).mx.scalesAt (Loop.ofOps ops).bsa (Loop.ofOps ops).soa cls.k0 (x.rows / 64) (x.rows % 64)))
      (mxElems (Loop.ofOps ops).fb cls.k0 (FEnv.ofAmr x.amr).flushIn e.1
        ((s.core c).mx.scalesAt (Loop.ofOps ops).bsb (Loop.ofOps ops).sob cls.k0 (x.rows / 64) e.2))
      (if (Loop.ofOps ops).z && x.rows / 64 == 0 then .num false 0 0
        else Fmt.fp32.decode (FEnv.ofAmr x.amr).flushIn ((s.core c).mx.elem t (x.rows % 64) e.2))) =
      (List.range 64).map (floatResult (s.core c).mx (Loop.ofOps ops) cls (FEnv.ofAmr x.amr) t (x.rows / 64) (x.rows % 64)
        (bytesAt v x.group ls (rowRange (Loop.ofOps ops) x)) cols) := by
    rw [zipIdx_map_range _ [], hl]
    refine List.map_congr_left fun j _ => ?_
    simp only [floatResult, mxElems_eq, Bool.and_eq_true, beq_iff_eq]
  rw [← results, step_loop hx, loopStep]
  dsimp only
  rw [hf, Option.getD_some, blockOf_held held, eng_ok_bind]
  dsimp only
  rw [held_same held, if_pos float, engBytes_row ho]
  rfl

variable (hc : c < s.cores.length) (hw : tilesWf (s.core c).mx) (ht : t < (s.core c).mx.tiles.length)
include hc hw ht

theorem step_float_row : ∃ u fl, ∃ res : Nat → Nat × Flags, x.step c s = .ok (u, x, fl) ∧ othersStand s u c [t] (x.rows % 64) ∧
    (∀ j, j < 64 → (u.core c).mx.elem t (x.rows % 64) j = (res j).1) ∧ fl = (List.range 64).foldl (fun acc j => acc ||| (res j).2) 0 ∧
    ∀ j, (floatResult (s.core c).mx (Loop.ofOps ops) cls (FEnv.ofAmr x.amr) t (x.rows / 64) (x.rows % 64)
      (bytesAt v x.group ls (rowRange (Loop.ofOps ops) x)) cols j).1 < 2 ^ 32 →
      res j = floatResult (s.core c).mx (Loop.ofOps ops) cls (FEnv.ofAmr x.amr) t (x.rows / 64) (x.rows % 64)
        (bytesAt v x.group ls (rowRange (Loop.ofOps ops) x)) cols j := by
  have step := step_float (c := c) hx hf held float hl ho
  generalize floatResult (s.core c).mx (Loop.ofOps ops) cls (FEnv.ofAmr x.amr) t (x.rows / 64) (x.rows % 64)
    (bytesAt v x.group ls (rowRange (Loop.ofOps ops) x)) cols = res at step ⊢
  obtain ⟨elems, others⟩ := rowWritten (t := t) (r := x.rows % 64) (readSeen_matrices ho) hc hw (xs := ((List.range 64).map res).map (·.1)) (by simp)
    (f := fun m => m.setRow t (x.rows % 64) (((List.range 64).map res).map (·.1))) ht (by with_reducible rfl)
  refine ⟨_, _, fun j => inElement (res j), step, others, fun j hj => ?_, ?_, fun j small => inElement_small small⟩
  · rw [elems j hj, List.map_map, getD_map_range _ _ hj]
    rfl
  · rw [List.foldl_map]
    rfl

end floats

end Sys2Proof.Proofs
end

section
/-! PROOF. Steps of the streams of a matrix engine, of the units of the NTT path and of products (spec/09 R311 to R315, spec/10 R330,
spec/07 R274). -/

open Sys2Proof Sys2Proof.Machine Sys2Proof.Claims

namespace Sys2Proof.Proofs

/-! A row step of a stream -/

section rowStep
variable {s u : State} {c : Nat} {n : BitVec 2} {x y : MCmd} {fl : Flags} {st : BitVec 8} (hr : (s.core c).mx.ready n.toNat = some x)
  (ha : s.alive (s.core c).part = true) (hw : s.acquireWaits x.wave x.key x.o = false)
include hr ha hw

theorem rowStep_ends (done : x.total ≤ x.rows) : exec (.matrixRowStep c n) s = .next (s.finishMatrix c n.toNat x 0).tick := by
  show execMatrixRowStep c n s = _
  rw [execMatrixRowStep]
  dsimp only
  rw [hr]
  dsimp only
  rw [ha, hw, if_neg (by decide), if_pos done]

variable (more : x.rows < x.total)
include more

theorem rowStep_completes (hs : x.step c s = .ok (u, y, fl)) :
    let z := { y with rows := x.rows + 1 }
    let v := u.modMx c fun m => m.modStream n.toNat fun t => { t with flags := t.flags ||| fl }
    exec (.matrixRowStep c n) s = .next (if z.total ≤ z.rows then v.finishMatrix c n.toNat z 0 else v.modMx c fun m => m.setHead n.toNat (some z)).tick := by
  show execMatrixRowStep c n s = _
  rw [execMatrixRowStep]
  dsimp only
  rw [hr]
  dsimp only
  rw [ha, hw, if_neg (by decide), if_neg (Nat.not_le.2 more), hs]
  dsimp only
  split <;> rfl

theorem rowStep_fails (hs : x.step c s = .error (.status st)) : exec (.matrixRowStep c n) s = .next (s.finishMatrix c n.toNat x st).tick := by
  show execMatrixRowStep c n s = _
  rw [execMatrixRowStep]
  dsimp only
  rw [hr]
  dsimp only
  rw [ha, hw, if_neg (by decide), if_neg (Nat.not_le.2 more), hs]

end rowStep

/-! What the end of a step leaves of the tiles -/

/-- The tiles of a core's engine. -/
abbrev tilesOf (c : Nat) (s : State) : List Memory := (s.core c).mx.tiles

theorem modMx_tiles (s : State) (c : Nat) {f : Matrix → Matrix} (hf : ∀ m, (f m).tiles = m.tiles) : tilesOf c (s.modMx c f) = tilesOf c s :=
  core_modCore_keeps (fun k => k.mx.tiles) s c c (hf _)

theorem setHead_tiles (s : State) (c n : Nat) (x : Option MCmd) : tilesOf c (s.modMx c fun m => m.setHead n x) = tilesOf c s :=
  modMx_tiles s c fun m => by
    unfold Matrix.setHead
    dsimp only
    split <;> rfl

theorem modStream_tiles (s : State) (c n : Nat) (f : MStream → MStream) : tilesOf c (s.modMx c fun m => m.modStream n f) = tilesOf c s :=
  modMx_tiles s c fun _ => rfl

theorem releaseDone_mem (s : State) (g : Nat) (o : Order) (sc : Scope) : (s.releaseDone g o sc).mem = s.mem :=
  ite_keeps State.mem (foldl_keeps State.mem _ (fun v d => (lineFrame_of fun _ _ => rfl : LineFrame State.mem).l1Clear v d) _ s) rfl

theorem releaseDone_tiles (s : State) (g c : Nat) (o : Order) (sc : Scope) : tilesOf c (s.releaseDone g o sc) = tilesOf c s :=
  ite_keeps (tilesOf c) (foldl_keeps (tilesOf c) _ (fun v d => (lineFrame_core (fun k => k.mx.tiles) (fun _ _ => rfl) c).l1Clear v d) _ s) rfl

theorem postEvent_cores (s : State) (w : Nat) (a b : BitVec 8) (k : BitVec 32) : (s.postEvent w a b k).cores = s.cores := by
  unfold State.postEvent
  split <;> rfl

/-- Where a command that writes no memory and no register ends, or goes on, memory and tiles stand. -/
theorem finishMatrix_zero {x : MCmd} {t : Nat} {pair : Bool} (hx : x.op = .zero t pair) (s : State) (c n : Nat) (st : BitVec 8) :
    (s.finishMatrix c n x st).mem = s.mem ∧ tilesOf c (s.finishMatrix c n x st) = tilesOf c s := by
  unfold State.finishMatrix
  rw [hx]
  dsimp only
  refine ⟨by simp [releaseDone_mem], ?_⟩
  show ((State.postEvent _ _ _ _ _).core c).mx.tiles = _
  rw [State.core, postEvent_cores]
  exact (releaseDone_tiles ..).trans ((modStream_tiles ..).trans (setHead_tiles ..))

/-- The command of a stream after a row step: it ends after its last row. -/
abbrev afterRow (s : State) (c n : Nat) (z : MCmd) : State :=
  if z.total ≤ z.rows then s.finishMatrix c n z 0 else s.modMx c fun m => m.setHead n (some z)

theorem afterRow_zero {z : MCmd} {t : Nat} {pair : Bool} (hz : z.op = .zero t pair) (s : State) (c n : Nat) :
    (afterRow s c n z).mem = s.mem ∧ tilesOf c (afterRow s c n z) = tilesOf c s := by
  obtain ⟨mem, tiles⟩ := finishMatrix_zero hz s c n 0
  exact ⟨ite_keeps State.mem mem rfl, ite_keeps (tilesOf c) tiles (setHead_tiles ..)⟩

/-- The rows that `mzero` clears in a step. -/
theorem elem_zeroRow {m : Matrix} (wf : tilesWf m) {t r : Nat} {pair : Bool} (ht : t < m.tiles.length) (hp : pair = true → t + 1 < m.tiles.length)
    {m' : Matrix} (hm : m' = if pair then m.setPairRow t r (List.replicate 64 0) else m.setRow t r (List.replicate 64 0)) (r' : Nat) {j : Nat} (hj : j < 64) :
    m'.elem t r' j = (if r' = r then 0 else m.elem t r' j) ∧ m'.elem (t + 1) r' j = (if r' = r ∧ pair = true then 0 else m.elem (t + 1) r' j) := by
  have zero : (List.replicate 64 0).getD j 0 = 0 := List.getD_replicate _ hj
  subst hm
  cases pair with
  | false =>
    rw [if_neg Bool.false_ne_true, elem_setRow wf ht (List.length_replicate ..) t r' hj, elem_setRow wf ht (List.length_replicate ..) (t + 1) r' hj, zero]
    simp
  | true =>
    rw [if_pos rfl, elem_setPairRow wf (hp rfl) (List.length_replicate ..) t r' hj,
      elem_setPairRow wf (hp rfl) (List.length_replicate ..) (t + 1) r' hj, zero]
    simp

theorem elem_of_tiles {m m' : Matrix} (h : m.tiles = m'.tiles) (t r j : Nat) : m.elem t r j = m'.elem t r j := by
  rw [Matrix.elem, Matrix.elem, Matrix.tile, Matrix.tile, h]

/-- A row step of `mzero`. -/
theorem rowStep_zero {s : State} {c : Nat} {n : BitVec 2} {x : MCmd} {t : Nat} {pair : Bool} (hr : (s.core c).mx.ready n.toNat = some x)
    (ha : s.alive (s.core c).part = true) (hw : s.acquireWaits x.wave x.key x.o = false) (hx : x.op = .zero t pair) (more : x.rows < 64)
    (ht : t < (s.core c).mx.tiles.length) (hp : pair = true → t + 1 < (s.core c).mx.tiles.length) (hc : c < s.cores.length) (wf : tilesWf (s.core c).mx) :
    ∃ v, exec (.matrixRowStep c n) s = .next v ∧ v.mem = s.mem ∧
      ∀ r j, r < 64 → j < 64 → (v.core c).mx.elem t r j = (if r = x.rows then 0 else (s.core c).mx.elem t r j) ∧
        (v.core c).mx.elem (t + 1) r j = (if r = x.rows ∧ pair = true then 0 else (s.core c).mx.elem (t + 1) r j) := by
  have total : x.total = 64 := by rw [MCmd.total, hx]
  have written : ((s.modMx c fun m => if pair then m.setPairRow t x.rows (List.replicate 64 0) else m.setRow t x.rows (List.replicate 64 0)).core c).mx =
      if pair then (s.core c).mx.setPairRow t x.rows (List.replicate 64 0) else (s.core c).mx.setRow t x.rows (List.replicate 64 0) := by
    rw [State.modMx, core_modCore_same _ _ _ hc]
  obtain ⟨mem, tiles⟩ := afterRow_zero (z := { x with rows := x.rows + 1 }) hx ((s.modMx c fun m =>
    if pair then m.setPairRow t x.rows (List.replicate 64 0) else m.setRow t x.rows (List.replicate 64 0)).modMx c fun m =>
      m.modStream n.toNat fun t => { t with flags := t.flags ||| 0 }) c n.toNat
  refine ⟨_, rowStep_completes hr ha hw (by rwa [total]) (step_zero hx), mem, fun r j _ hj => ?_⟩
  obtain ⟨first, second⟩ := elem_zeroRow wf ht hp written r hj
  have same := elem_of_tiles (tiles.trans (modStream_tiles ..))
  exact ⟨(same t r j).trans first, (same (t + 1) r j).trans second⟩

/-! A step of a unit of the NTT path -/

/-- The step of the transform or rescale that a unit runs. -/
def stageOf (s : State) (x : NCmd) : Option (Eng (State × NCmd × Bool)) :=
  match x.op with
  | .transform inv d a bstr nb nres logn => some (transformStep s x inv d a bstr nb nres logn)
  | .rescale h logn res comps cstr rnd => some (rescaleStep s x h logn res comps cstr rnd)
  | .lmul _ => none

section unit
variable {s : State} {q : Nat} {x : NCmd} (hx : (s.quads.getD q default).slots.head? = some x) (may : s.unitMay q x = true)
include hx may

theorem nttStep_stage {r : Eng (State × NCmd × Bool)} (h : stageOf (s.takeUnit q) x = some r) :
    exec (.nttStep q) s = .next ((s.takeUnit q).afterNtt q x 0x08#8 r).tick := by
  show execNttStep q s = _
  rw [execNttStep, show s.quadHead q = some x from hx]
  unfold stageOf at h
  cases op : x.op with
  | lmul c => rw [op] at h; cases h
  | transform inv d a bstr nb nres logn =>
    rw [op] at h
    dsimp only at h ⊢
    rw [op]
    exact event_of may (by rw [Option.some.inj h])
  | rescale h' logn res comps cstr rnd =>
    rw [op] at h
    dsimp only at h ⊢
    rw [op]
    exact event_of may (by rw [Option.some.inj h])

/-- A product's step, with the command that holds it. -/
theorem lmulmStep_unit {m : LMul} (op : x.op = .lmul m) : exec (.lmulmStep true q) s = .next ((s.takeUnit q).afterNtt q x 0x10#8
    ((m.step true (s.takeUnit q)).map fun r => (r.1, { x with op := .lmul r.2.1, crc := r.2.1.crc }, r.2.2))).tick := by
  show execLmulmStep true q s = _
  rw [execLmulmStep, if_pos rfl, show s.quadHead q = some x from hx]
  dsimp only
  rw [op]
  exact event_of may rfl

end unit

/-! A step of a product on the matrix path -/

section product
variable {s u : State} {n : Nat} {m z : LMul} {rest : List LMul} {fin : Bool} {st : BitVec 8} (hm : (s.core n).lmuls = m :: rest)
  (free : s.engineHeld m.group = false) (now : s.acquireWaits m.wave m.key m.o = false)
include hm free now

theorem lmulmStep_completes (h : m.step false s = .ok (u, z, fin)) :
    exec (.lmulmStep false n) s = .next (if fin then u.finishLmul n z 0 else u.modCore n fun k => { k with lmuls := z :: rest }).tick := by
  show execLmulmStep false n s = _
  rw [execLmulmStep, if_neg Bool.false_ne_true, hm]
  exact event_of (by rw [free, now]; rfl) (by rw [h])

theorem lmulmStep_fails (h : m.step false s = .error (.status st)) : exec (.lmulmStep false n) s = .next (s.finishLmul n m st).tick := by
  show execLmulmStep false n s = _
  rw [execLmulmStep, if_neg Bool.false_ne_true, hm]
  exact event_of (by rw [free, now]; rfl) (by rw [h])

end product

end Sys2Proof.Proofs
end

section
/-! PROOF. The steps of the matrix engine, of transforms and of products (spec/09 R302 to R315, spec/10 R330, spec/07 R274). -/

open Sys2Proof Sys2Proof.Machine Sys2Proof.Claims

namespace Sys2Proof.Proofs

section loop
variable {s v : State} {c t : Nat} {x : MCmd} {ops : List Word} {ls : List Loc} {cls : MxClass} (hx : x.op = .loop t ops)
  (hf : mxClass (Loop.ofOps ops).fa = some cls)
include hx hf

/-- The first row of a K-step reads the columns of B, and goes on as one that holds them. -/
theorem loop_columns {n : Nat} (hn : n = if cls = .limb then 64 else 128) (first : ∀ b, x.block = some b → b.1 ≠ x.rows / 64)
    (ho : engOpen x.issuer s (columnRanges (Loop.ofOps ops) n (x.rows / 64)) [] = .ok (v, ls, [])) (off : (v.waveLaunch x.wave).r.race = 0) :
    x.step c s = { x with block := some (x.rows / 64, (List.range 64).map fun i =>
      ((bytesAt v x.group ls (columnRanges (Loop.ofOps ops) n (x.rows / 64))).drop (n * i)).take n) }.step c v := by
  have bytes : columnBytes (Loop.ofOps ops) = n := by
    rw [columnBytes, hf, hn]
    exact if_congr beq_iff_eq rfl rfl
  have read := readColumns_of ho
  rw [readSeen_off off, ← bytes] at read
  rw [step_loop hx, step_loop (by exact hx), loopStep_reads first read, bytes]
  rfl

variable {cols : List (List Byte)} (held : x.block = some (x.rows / 64, cols)) (hl : cols.length = 64) (hc : c < s.cores.length)
  (hw : tilesWf (s.core c).mx) (ht : t < (s.core c).mx.tiles.length)
include held hl hc hw

include ht in
/-- A row of bytes: the sums enter the pair, or with ACC the tile. -/
theorem loop_bytes (hi : cls = .int) (ho : engOpen x.issuer s (rowRange (Loop.ofOps ops) x) [] = .ok (v, ls, [])) :
    let sum := fun (j : Nat) => byteSum (bytesAt v x.group ls (rowRange (Loop.ofOps ops) x)) (cols.getD j [])
    ∃ u, x.step c s = .ok (u, x, 0) ∧ ∀ j, j < 64 →
      ((Loop.ofOps ops).acc = false → t + 1 < (s.core c).mx.tiles.length →
        ((u.core c).mx.pairElem t (x.rows % 64) j : Int) =
          (oldValue (Loop.ofOps ops) (x.rows / 64) ((s.core c).mx.pairElem t (x.rows % 64) j) + sum j) % 2 ^ 64 ∧ othersStand s u c [t, t + 1] (x.rows % 64)) ∧
      ((Loop.ofOps ops).acc = true →
        ((u.core c).mx.elem t (x.rows % 64) j : Int) =
          (oldValue (Loop.ofOps ops) (x.rows / 64) ((s.core c).mx.elem t (x.rows % 64) j) + sum j) % 2 ^ 32 ∧ othersStand s u c [t] (x.rows % 64)) := by
  subst hi
  have read := wholeRow_bytes ho
  have same := readSeen_matrices ho
  have sums := rowSum_bytes (cls := .int) rfl (bytesAt v x.group ls (rowRange (Loop.ofOps ops) x))
  cases acc : (Loop.ofOps ops).acc with
  | true =>
    obtain ⟨u, step, others, elems⟩ := step_whole_single hx hf held rfl read same hc hw hl (by rw [Loop.pair, acc]; rfl) ht
    exact ⟨u, step, fun j hj => ⟨nofun, fun _ => ⟨by rw [elems j hj, sums], others⟩⟩⟩
  | false =>
    by_cases inside : t + 1 < (s.core c).mx.tiles.length
    · obtain ⟨u, step, others, elems⟩ := step_whole_pair hx hf held rfl read same hc hw hl (by rw [Loop.pair, acc]; rfl) inside
      exact ⟨u, step, fun j hj => ⟨fun _ _ => ⟨by rw [elems j hj, sums], others⟩, nofun⟩⟩
    · exact ⟨_, step_whole hx hf held rfl read, fun j hj => ⟨fun _ h => absurd h inside, nofun⟩⟩

/-- A row of half-limbs: the sums enter the pair. -/
theorem loop_halves (hi : cls = .limb) (ht' : t + 1 < (s.core c).mx.tiles.length)
    (ho : engOpen x.issuer s (limbRanges (Loop.ofOps ops) (x.rows / 64) (x.rows % 64)) [] = .ok (v, ls, [])) :
    ∃ u, x.step c s = .ok (u, x, 0) ∧ othersStand s u c [t, t + 1] (x.rows % 64) ∧ ∀ j, j < 64 → (u.core c).mx.pairElem t (x.rows % 64) j =
      ((if (Loop.ofOps ops).z = true ∧ x.rows / 64 = 0 then 0 else (s.core c).mx.pairElem t (x.rows % 64) j) +
        limbSum (limbValue v x.group ls (Loop.ofOps ops) (x.rows / 64) (x.rows % 64)) (cols.getD j [])) % 2 ^ 64 := by
  subst hi
  obtain ⟨u, step, others, elems⟩ := step_whole_pair hx hf held rfl (wholeRow_halves ho) (readSeen_matrices ho) hc hw hl rfl ht'
  refine ⟨u, step, others, fun j hj => ?_⟩
  have value := elems j hj
  rw [rowSum_halves, oldValue] at value
  exact_mod_cast value

end loop

/-- Settles O54: each row step is the read or write of its row, the sum of its products, or the zeros of `mzero`, and the other tiles and rows
stand; a command advances by its step, and ends after its last one or where one fails. -/
theorem rowAndStageSteps : Obligations.RowAndStageSteps := by
  refine ⟨fun s u c n x y fl st hr ha hw => ⟨rowStep_completes hr ha hw, rowStep_fails hr ha hw, rowStep_ends hr ha hw,
      fun t pair hx => rowStep_zero hr ha hw hx⟩,
    fun s v c x ls hc hw => ⟨fun t a st tr hx _ ht ho => step_load_row hx hc hw ht ho,
      fun t a st md tr p es hx hb hm hs hr ho => step_store_row hx hb hm hs hr ho, ?_⟩, ?_⟩
  · intro t ops cls hx ht l hf st r fresh n columns row
    refine ⟨fun first ho off => loop_columns hx hf rfl first ho off, ?_⟩
    intro cols held hl col
    refine ⟨loop_bytes hx hf held hl hc hw ht, loop_halves hx hf held hl hc hw, fun float ho => ?_⟩
    intro env scale fs pp a zero
    obtain ⟨u, fl, res, step, others, elems, flags, fits⟩ := step_float_row hx hf held float hl ho hc hw ht
    refine ⟨u, fl, res, step, others, elems, flags, fun j hj ha hp hfs => ?_⟩
    have rounded := loopResult_finite (env := env) (z := zero j) ha hp hfs decide_eq_true_iff
    rw [fits j (roundedOnce_fp32_lt rounded)]
    exact rounded
  · intro s u q n x y fin st m z rest
    refine ⟨fun hx may => ⟨⟨fun h => nttStep_stage hx may h, fun h => nttStep_stage hx may h⟩, fun op => ⟨fun h => ?_, fun h => ?_⟩⟩,
      fun hm free now => ⟨lmulmStep_completes hm free now, lmulmStep_fails hm free now⟩⟩
    · exact (lmulmStep_unit hx may op).trans (by rw [h]; rfl)
    · exact (lmulmStep_unit hx may op).trans (by rw [h]; rfl)

end Sys2Proof.Proofs
end
